-- ==== Sys2Proof/Word.lean ====
section
/-! DEFINITION. The word types of the Grandarex model: bytes, the 32-bit and 64-bit words of its registers, and
the wide words of its entries and descriptors (R30, R55, R84, R390). -/
namespace Sys2Proof

/-- One byte. -/
abbrev Byte := BitVec 8
/-- One 16-bit field of an entry. -/
abbrev Half := BitVec 16
/-- One 32-bit word. -/
abbrev Word := BitVec 32
/-- One 64-bit word: a job scalar, a stroke, a doorbell. -/
abbrev DWord := BitVec 64
/-- One 64-byte descriptor of a score (R84), or one 64-byte ring entry. -/
abbrev Desc := BitVec 512
/-- One 64-byte SHAKE256 digest. -/
abbrev Digest := BitVec 512

end Sys2Proof
end

