-- ==== Sys2Proof/Syntax.lean ====
section
/-! DEFINITION. The commands the Grandarex takes: one constructor of `Instr` for each row of spec/opcode_table.json,
with the operands the outside world supplies (a request, a register value, a reading, a flit). A command of the
score (a stroke, a control stroke) names only the unit that makes the beat: what it does stands in the score image. -/
namespace Sys2Proof

/-- A unit that executes a stave of the bar (R60). -/
inductive UnitId where
  /-- the unit on stave `stave` (1 to 11) of core `core` -/
  | core (core : Fin 256) (stave : Fin 16)
  /-- the chip unit on stave `stave` (12 to 15) -/
  | chip (stave : Fin 16)
  deriving DecidableEq, Repr

/-- A request Amior takes from a function's request ring (R390): the row of the command gives the opcode,
`params` is entry bytes 8 to 63, and `block` is what the indirect block holds in host memory. -/
structure Request where
  fn : Fin 32
  tag : Word
  flags : Half
  params : BitVec 448
  block : List Byte
  deriving DecidableEq, Repr

/-- A request of an opcode that is in no row of the call catalogue (R393). -/
structure UnknownRequest where
  opcode : Half
  tag : Word
  deriving DecidableEq, Repr

/-- What the host's end of the PCIe link brings: the generation and width it trains at, and whether it supports Flit Mode (R375). -/
structure LinkPartner where
  gen : Nat
  width : Nat
  flitMode : Bool
  deriving DecidableEq, Repr

/-- A job descriptor (R395) and what its parameter block holds in host memory. -/
structure Submission where
  desc : BitVec 1024
  params : List Byte
  deriving DecidableEq, Repr

/-- One slot of the boot flash (R482). -/
structure FlashSlot where
  seq : Nat
  mark : Word
  image : List Byte
  deriving DecidableEq, Repr

/-- What a CAMM2 module's SPD hub answers (R265, R469): whether it accepts a dynamic address, kind 1 LPDDR5X, 2 LPDDR6, size in GiB, rate
in 0.1 Gb/s. -/
structure SpdAnswer where
  dynamicAddr : Bool
  readable : Bool
  kind : Nat
  sizeGiB : Nat
  rate : Nat
  deriving DecidableEq, Repr

/-- What the Clave bus answers during roll call (R464): the board descriptor, whether each regulator of the
descriptor's rail list answers, the four SPD hubs, and each cable module (none: no module; rate code 0: unreadable). Of each segment:
whether `PRESENT` and `ALERT` are low as they are sampled, and whether a line is still low after the nine clocks (R472). -/
structure RollCall where
  descriptor : Option (BitVec 4096)
  regulators : List Bool
  spd : List (Option SpdAnswer)
  modules : List (Option Nat)
  present : List Bool
  alert : List Bool
  stuck : List Bool
  deriving DecidableEq, Repr

/-- A neighbour's identity (R294). -/
structure Identity where
  member : BitVec 14
  port : Nat
  extents : List Nat
  torus : BitVec 4
  deriving DecidableEq, Repr

/-- Flit types (R296). -/
inductive FlitType where
  | idle | link | send | coll | clap
  deriving DecidableEq, Repr

/-- A flit as it stands on the wire of one hop (R295), its payload cut to `LEN` bytes. -/
structure Flit where
  kind : FlitType
  seq : BitVec 8
  ack : Option (BitVec 8)
  vc : BitVec 6
  credVc : BitVec 6
  credN : BitVec 8
  dest : BitVec 14
  route : BitVec 56
  payload : List Byte
  deriving DecidableEq, Repr

/-- What a LINK flit says (R296): an identity, the sequence number that a NACK names, credits in bulk, or the acknowledgement
of a send, with the sender, the transfer tag, the bytes, and an opening's digest with the bytes it covers (R294, R299, R300, R310, R510). -/
inductive LinkMsg where
  | identity (who : Identity)
  | nack (seq : BitVec 8)
  | credits (list : List (BitVec 6 × Nat))
  | ack (sender : BitVec 14) (xtag : BitVec 7) (bytes : Nat) (opening : Option (Digest × Nat))
  deriving DecidableEq, Repr

/-- What a port's receiver hands on (R295, R298, R343): the 256 bytes of a flit, and how many codewords it corrected since the flit
before. -/
structure WireFlit where
  bytes : List Byte
  corrected : Nat
  deriving DecidableEq, Repr

/-- A flit that a port's receiver hands on. -/
structure PortFlit where
  port : Fin 16
  wire : WireFlit
  deriving DecidableEq, Repr

/-- What an acknowledgement says has landed: bytes, and, once the opening is complete, its digest and how many bytes that covers (R310,
R510, R512). -/
structure Landed where
  bytes : Nat
  opening : Option (Digest × Nat)
  deriving DecidableEq, Repr

/-- A clapper message (R329). -/
structure ClapMsg where
  kind : BitVec 8
  cop : BitVec 8
  cause : BitVec 8
  tag : Word
  cseq : Half
  srcRank : Half
  originId : Half
  data : List Byte
  deriving DecidableEq, Repr

/-- Who made a memory request (R524). -/
inductive MemRequester where
  | job | bar2Read | bar2Write | backingCopy | outputDigest (job : Nat) | inputDigest | exerciser | swapCopy
  deriving DecidableEq, Repr

/-- Who owns a flit or a FIFO entry that fails parity (R521). -/
inductive FlitOwner where
  | job | bar2 | peal
  deriving DecidableEq, Repr

/-- The two engines of the codec. -/
inductive Engine where
  | encoder | decoder
  deriving DecidableEq, Repr

/-- One regulator's readings (R441, R450): millivolts, current in 0.1 A, temperature, PMBus status byte. -/
structure RailReading where
  mv : Nat
  deciAmp : Nat
  temp : Int
  status : Byte
  deriving DecidableEq, Repr

/-- What an exerciser reports of a run (R290): bursts made when it was stopped, the first mismatch as the number of the burst in
the run and the word in the burst, the value read there, mismatching words, retries. -/
structure ExerciseReport where
  made : Nat
  first : Option (Nat × Fin 16)
  actual : Word
  mismatches : Nat
  retries : Nat
  deriving DecidableEq, Repr

/-- The commands: one constructor for each row of spec/opcode_table.json. -/
inductive Instr where
  -- Amior calls
  | getInfo (r : Request)
  | getInventory (r : Request)
  | inventoryRescan (r : Request) (rc : RollCall)
  | scoreLoad (r : Request)
  | scoreUnload (r : Request)
  | residentLoad (r : Request)
  | jobQueueCreate (r : Request)
  | jobQueueDestroy (r : Request)
  | jobCountRead (r : Request)
  | preemptPolicySet (r : Request)
  | stageSet (r : Request)
  | stageCheck (r : Request)
  | stageCommit (r : Request)
  | stageDiscard (r : Request)
  | tableLoad (r : Request)
  | memMapRead (r : Request)
  | memChannelRetire (r : Request)
  | memChannelMaintenance (r : Request)
  | memChannelRestore (r : Request)
  | memExercise (r : Request)
  | memExerciseStop (r : Request)
  | memExerciseDone (ch : Fin 128) (rep : ExerciseReport)
  | groupDefine (r : Request)
  | groupRelease (r : Request)
  | linkStatus (r : Request)
  | linkRetrain (r : Request)
  | codecSessionOpen (r : Request)
  | codecSessionClose (r : Request)
  | selftest (r : Request)
  | calibrate (r : Request)
  | deferredTestRun
  | selftestDone (fails : BitVec 256) (durationUs : Nat)
  | calibrateDone (fails : BitVec 128)
  | attestQuote (r : Request)
  | identityRead (r : Request)
  | fwUpdateStage (r : Request)
  | fwUpdateActivate (r : Request)
  | powerPolicySet (r : Request)
  | telemetryRead (r : Request)
  | errorLogRead (r : Request)
  -- doorbells, registers, windows
  | mbxSetup (fn : Fin 32) (value : DWord) (block : Desc)
  | mbxReqTail (fn : Fin 32) (value : DWord) (entries : List (Option UnknownRequest))
  | mbxStop (fn : Fin 32) (value : DWord)
  | mbxRspDb (fn : Fin 32) (value : DWord)
  | jqSubDb (fn : Fin 32) (value : DWord) (subs : List Submission)
  | jqCmpDb (fn : Fin 32) (value : DWord)
  | irqStatusWrite (fn : Fin 32) (value : Word)
  | irqMaskWrite (fn : Fin 32) (value : Word)
  | registerWriteOther (fn : Fin 32) (offset : Nat) (widthBits : Nat) (value : DWord)
  | bar2Read (offset : Nat) (len : Nat)
  | bar2Write (offset : Nat) (data : List Byte)
  | imageWindowStart (length : DWord) (start : Word) (image : List Byte)
  | vfEnable (n : Fin 32)
  -- resets, pins, boot
  | functionLevelReset (fn : Fin 32)
  | warmReset
  | devResetAssert
  | devResetRelease
  | strapSample (word : Half)
  | pePerstRelease (peer : LinkPartner) (bar2Log2 : Nat)
  | fwImageRead (slot0 slot1 : FlashSlot)
  | fwVerifyDone
  | rollCall (rc : RollCall)
  | railPowerGood (rail : Fin 12)
  | memSupplyPgDelay (supply : Fin 6)
  | memTrainingDone (ok : BitVec 128) (rates : List Nat)
  | bootCoreSelftestDone (fails : BitVec 256)
  | bootReady
  | svCounterRise
  -- control strokes and common strokes
  | rest (u : UnitId)
  | cue (u : UnitId)
  | bar (u : UnitId)
  | loopBegin (u : UnitId)
  | loopEnd (u : UnitId)
  | brk (u : UnitId)
  | sectionCtl (u : UnitId)
  | halt (u : UnitId)
  -- matrix work
  | mm (c : Fin 256) (mu : Fin 4)
  | gang (c : Fin 256) (mu : Fin 4)
  | feedMm (c : Fin 256)
  | feedGang (c : Fin 256)
  | feedWin (c : Fin 256)
  | drainMm (c : Fin 256)
  | drainGang (c : Fin 256)
  -- roll engine, reduction unit, Rattle
  | chain (c : Fin 256)
  | stepStroke (c : Fin 256)
  | reduce (c : Fin 256)
  | mergePartialRx (c : Fin 256)
  | rattleSet (c : Fin 256)
  -- attention
  | attn (c : Fin 256) (mu : Fin 4)
  | feedAttn (c : Fin 256)
  | drainAttn (c : Fin 256)
  | scatter (c : Fin 256)
  -- DMA
  | coreDmaCopy (c : Fin 256)
  | coreDmaFill (c : Fin 256)
  | chipDmaCopy
  | chipDmaFill
  -- link unit, codec, host events
  | send
  | recv
  | coll
  | encFrame
  | decFrame
  | codecFrameDone (e : Engine)
  | notify
  -- beats, jobs
  | fetchArrival (u : UnitId)
  | strokeResume (u : UnitId) (slot : Nat)
  | strokeComplete (u : UnitId) (slot : Nat)
  | kernelComplete
  | inputDigestsDone
  | jobHaltComplete
  | outputDigestsDone
  | batchClose
  | bodySigned
  | evictionBegin
  | evictionParked
  | evictionCopyDone
  | restoreDone
  | residentSwapStart
  | residentSwapDone
  | downbeatStart
  | downbeatParked
  | strikeParked
  -- parity
  | scratchParityError (c : Fin 256) (stave : Fin 16)
  | residentParityError (c : Fin 256) (stave : Fin 16)
  | residentRefillDone (c : Fin 256) (ok : Bool)
  | malletParityError (c : Fin 256) (mu : Fin 4) (unusedTile : Bool)
  | gangParityError (c : Fin 256) (mu : Fin 4) (sa : Fin 8)
  | staveParityError (u : UnitId) (again : Bool)
  | chimeBankParityError (c : Fin 256) (slot : Fin 8)
  | meshFlitParityError (owner : FlitOwner) (row : Fin 16)
  | fifoParityError (owner : FlitOwner) (domain : Nat)
  | amiorParityError
  -- attached memory
  | memCrcRetry (ch : Fin 128) (who : MemRequester) (attempt : Nat)
  | memTempPoll (temps : List Int)
  | memSuspendTimeout (ch : Fin 128)
  | memRetrain (ch : Fin 128)
  | memRetrainDone (ch : Fin 128) (ok : Bool) (again : Bool)
  | cammRecalibrate (ch : Fin 128)
  | patrolScrub (ch : Fin 128) (errorAddr : Option Nat)
  | cammModuleLost (m : Fin 4)
  -- Peal
  | portTrained (p : Fin 16) (rate : Nat)
  | identityExchange (w : PortFlit) (who : Identity)
  | portRetryTrain (p : Fin 16)
  | linkDown (p : Fin 16)
  | idleFlitRx (p : Fin 16) (w : WireFlit)
  | linkCredit (w : PortFlit) (credits : List (BitVec 6 × Nat))
  | linkNack (w : PortFlit) (seq : BitVec 8)
  | flitCrcError (p : Fin 16) (uncorrectable : Bool)
  | nackRepeat (p : Fin 16)
  | sendFlitRx (p : Fin 16) (src : BitVec 14) (w : WireFlit)
  | sendAck (w : PortFlit) (xtag : BitVec 7) (landed : Landed)
  | collFlitRx (p : Fin 16) (w : WireFlit)
  | clapUp (w : PortFlit)
  | clapDown (w : PortFlit)
  | clapAbortRequest (w : PortFlit)
  | clapDecision (w : PortFlit)
  | xferTimeout (u : UnitId) (slot : Nat)
  | collTimeout (tag : Word)
  | abortNoDecision (tag : Word)
  -- power, heat, Clave
  | powerLoopTick (now : Nat) (projected : List Nat)
  | railStep (q : Fin 4) (up : Bool)
  | railTelemetryPoll (readings : List RailReading)
  | fllWindow (island : Fin 325) (count : Nat)
  | islandWake (island : Fin 325)
  | supplySag (islands : List (Fin 325 × Nat))
  | thermalSensorRead (deci : List Int)
  | thermalCapRelease
  | tripTimeout
  | regulatorFault (rail : Fin 12)
  | regulatorWarning (rail : Fin 12) (on : Bool)
  | cmisStatusPoll (modules : List (Option Nat))
  | fwStagingDone
  | memorySupplyFault (position : Fin 28)
  deriving DecidableEq, Repr

end Sys2Proof
end

