-- ==== Sys2Proof/Decode.lean ====
section
/-! DEFINITION. Reading a command from a word numbered as spec/opcode_table.json numbers its bits. No row of that
table gives bits: the commands of this block are calls, doorbells, beats and events, not words, so no word spells one. -/
namespace Sys2Proof

/-- The command that a word of `nbits` bits spells by the table's bits: none, since the table gives no row any bits. -/
def decodeTableWord (_nbits _w : Nat) : Option Instr := none

end Sys2Proof
end

