-- ==== Sys2Proof/Config.lean ====
section
/-! DEFINITION. What an implementation fixes and what the spec leaves open: constants without a body, of which nothing
can be proved but that they are the same wherever they are applied to the same operands. -/
namespace Sys2Proof.Config

/-- A byte of contents the spec calls undefined, of the `epoch`-th range so marked, at an address (R281, R290, R518). -/
opaque freeByte : Nat → Nat → Byte

/-- The `n`-th free number of 32 bits that a step draws. -/
opaque freeWord : Nat → Word

/-- The bytes of the `n`-th ML-DSA-65 signature over a message in a context; signing is randomised (R500, R51). -/
opaque signature : Nat → List Byte → List Byte → List Byte

/-- Whether a signature verifies over a message under a public key in a context (R500, R503). -/
opaque verifies : List Byte → List Byte → List Byte → List Byte → Bool

/-- The public key that ML-DSA.KeyGen_internal of FIPS 204 makes of a 32-byte seed (R504). -/
opaque keyGen : List Byte → List Byte

/-- The bytes of the fused `UDS` (R500). -/
opaque udsByte : Nat → Byte

/-- The fused digest of the firmware root public key (R500). -/
opaque rootDigest : Digest

/-- What a certificate of the fused `IDENTITY_RECORD` says that no rule derives: serial, times, and the issuer's signature (R505). -/
structure CertFacts where
  serial : DWord
  notBefore : DWord
  notAfter : DWord
  signature : List Byte
  deriving DecidableEq, Repr, Inhabited

/-- The facts of the device CA certificate and of the identity certificate, the device CA's public key, and the device's serial (R500,
R505). -/
opaque caCert : CertFacts
opaque identityCert : CertFacts
opaque caKey : List Byte
opaque deviceSerial : DWord

/-- How far Amior comes with the steps of a thermal trip before the 200 µs of its step 5 are over, which the manual leaves to the time they
take (R448): 0 none of them, 1 the abort requests and the strikes, any other number every step. -/
opaque tripReach : Nat → Nat

/-- The payload bytes of a LINK flit, of which the manual gives the content and no layout (R296). -/
opaque linkBytes : LinkMsg → List Byte

/-- The sequence number, the channel and the destination in the header of a flit that has none: an IDLE flit, and the sequence number of
a NACK (R296). -/
opaque idleSeq : BitVec 8
opaque idleVc : BitVec 6
opaque idleDest : BitVec 14

/-- The PCI Vendor ID of Holtastent, of which the manual gives no number (R376). -/
opaque vendorId : BitVec 16

/-- Whether an exerciser of mix 3 writes a burst, by `WRITE_PCT` and the bit that decides (R289). -/
opaque mixWrites : Nat → Bool → Bool

/-- Coefficient `k` (0 to 2) of segment `seg` of built-in chime table `id`, published by Holtastent (R188). -/
opaque builtinCoef : Nat → Nat → Nat → Word

/-- The image of the scaling coefficients, 6,144 bytes published by Holtastent (R355). -/
opaque scaleImage : List Byte

/-- What the headers of a stream signal beside the session's parameters: the matrix BT.2020, full range, and the chroma siting, as
`chroma_sample_loc_type` of HEVC and H.264 or `chroma_sample_position` of AV1 (R357, R358). -/
structure StreamSignal where
  bt2020 : Bool
  fullRange : Bool
  chromaSite : Nat
  deriving DecidableEq, Repr

/-- The sequence header of AV1, or the parameter sets of HEVC and H.264, that the Cymbal encoder reference model writes for session
parameters and what the stream signals (R359, R361): each without its framing. -/
opaque encodeHeaders : BitVec 384 → StreamSignal → List (List Byte)

/-- What the reference model writes with a frame's report behind the headers (R359, R360): for each piece the number of the frame in the
session that it belongs to, its OBU type or how many zero bytes begin its start code beyond two, and its bytes. Its operands: session parameters, session state before the frame, planes Y Cb Cr
of integer codes, force-key and last bits. -/
opaque encodeUnits : BitVec 384 → Digest → List (List Nat) → Bool → Bool → List (Nat × Nat × List Byte)

/-- The frame type the reference model gives the frame (R372). -/
opaque encodeType : BitVec 384 → Digest → List (List Nat) → Bool → Bool → Nat

/-- The session state after the frame (R360). -/
opaque encodeState : BitVec 384 → Digest → List (List Nat) → Bool → Bool → Digest

/-- What a unit of a stream holds, as its standard reads it (R363 to R366, R372). -/
structure UnitFacts where
  headerBytes : Nat                -- bytes of its longest header
  profile : Nat
  level : Nat
  depth : Nat
  width : Nat
  height : Nat
  headerDamage : Bool              -- a header holds a value the standard forbids or ends beyond the unit
  dataDamage : Bool                -- frame or slice data does
  errOffset : Nat                  -- where the first damage is
  frames : List Nat                -- names of the frames it codes
  later : List Nat                 -- names of those that the output order holds back
  uses : List Nat                  -- names of the frames it refers to
  drops : List Nat                 -- names the session lets go after it
  shown : Option Nat               -- the frame that the output order releases
  ftype : Nat
  used : Nat                       -- bytes consumed
  work : Nat                       -- entropy symbols or bins and 4×4 blocks
  deriving DecidableEq, Repr, Inhabited

/-- The facts of a unit: session parameters, header state, the unit's bytes. -/
opaque decodeFacts : BitVec 384 → Digest → List Byte → UnitFacts

/-- The planes Y, Cb, Cr, as rows of samples, of a frame that a unit codes, by the frames that the session holds (R364). -/
opaque decodePlanes : BitVec 384 → Digest → List (Nat × List (List (List Nat))) → List Byte → Nat → List (List (List Nat))

/-- The header and coding state after a unit (R363). -/
opaque decodeState : BitVec 384 → Digest → List Byte → Digest

end Sys2Proof.Config
end

