-- ==== Sys2Proof/Machine/Bytes.lean ====
section
/-! DEFINITION. Byte order, bit fields, alignment and the CRC-32 of flits and board descriptors (R30, R55, R84, R295). -/
namespace Sys2Proof.Machine

/-- The `n` bytes of a number, least significant first. -/
def leBytes : Nat → Nat → List Byte
  | 0, _ => []
  | n + 1, v => BitVec.ofNat 8 v :: leBytes n (v / 256)

/-- The number whose bytes, least significant first, are given. -/
def ofLe : List Byte → Nat
  | [] => 0
  | b :: bs => b.toNat + 256 * ofLe bs

/-- Bytes `ofs` to `ofs + n - 1` of a wide word whose byte i is bits 8i + 7 to 8i. -/
def byteField {w : Nat} (x : BitVec w) (ofs n : Nat) : Nat := (x.toNat >>> (8 * ofs)) % 2 ^ (8 * n)

/-- Bits `lo` to `lo + n - 1` of a wide word. -/
def bitField {w : Nat} (x : BitVec w) (lo n : Nat) : Nat := (x.toNat >>> lo) % 2 ^ n

/-- Bit `i` of a wide word. -/
def bitAt {w : Nat} (x : BitVec w) (i : Nat) : Bool := x.toNat.testBit i

/-- A wide word with bits `lo` to `lo + n - 1` replaced by the low `n` bits of `v`. -/
def setField {w : Nat} (x : BitVec w) (lo n v : Nat) : BitVec w :=
  BitVec.ofNat w (x.toNat - bitField x lo n * 2 ^ lo + (v % 2 ^ n) * 2 ^ lo)

/-- Bit `i` of a number. -/
def natBit (x i : Nat) : Bool := x.testBit i

/-- Ceiling division. -/
def ceilDiv (a b : Nat) : Nat := (a + b - 1) / b

/-- `a` is a multiple of `n`. -/
def aligned (a n : Nat) : Bool := a % n == 0

/-- Two ranges of bytes meet. -/
def overlaps (a n b m : Nat) : Bool := decide (0 < n) && decide (0 < m) && decide (a < b + m) && decide (b < a + n)

/-- The signed number that the low `n` bits of `v` hold. -/
def signedOf (n v : Nat) : Int := if v % 2 ^ n < 2 ^ (n - 1) then (v % 2 ^ n : Nat) else ((v % 2 ^ n : Nat) : Int) - 2 ^ n

/-- The two's complement of a number in `n` bits. -/
def unsignedOf (n : Nat) (v : Int) : Nat := (v % (2 ^ n : Nat)).toNat

/-- A number as a wide word whose bytes are the given little-endian fields in order: (bytes, value). -/
def packFields : List (Nat × Nat) → Nat
  | [] => 0
  | (n, v) :: fs => v % 2 ^ (8 * n) + 2 ^ (8 * n) * packFields fs

/-- The same fields as bytes. -/
def packBytes : List (Nat × Nat) → List Byte
  | [] => []
  | (n, v) :: fs => leBytes n v ++ packBytes fs

/-- A list cut or filled with zero bytes to `n` bytes. -/
def fitBytes (n : Nat) (bs : List Byte) : List Byte := bs.take n ++ List.replicate (n - bs.length) 0

/-- One bit of the reflected CRC-32 (polynomial 0x04C1_1DB7, R295). -/
def crcStep (c : Word) : Word := if c.getLsbD 0 then (c >>> 1) ^^^ 0xEDB88320#32 else c >>> 1

/-- The CRC of one byte more. -/
def crcByte (c : Word) (b : Byte) : Word :=
  crcStep (crcStep (crcStep (crcStep (crcStep (crcStep (crcStep (crcStep (c ^^^ b.zeroExtend 32))))))))

/-- IEEE 802.3 CRC-32 of a run of bytes: initial value and final complement all ones (R295). -/
def crc32 (bs : List Byte) : Word := ~~~ (bs.foldl crcByte 0xFFFFFFFF#32)

/-- Counters that are `n` bits wide and saturate (R44). -/
def satAdd (n a k : Nat) : Nat := min (a + k) (2 ^ n - 1)

/-- A list with element `i` changed. -/
def updAt {α : Type} (l : List α) (i : Nat) (f : α → α) : List α := l.modify i f

/-- Element `i` of a list of optional entries. -/
def slotAt {α : Type} (l : List (Option α)) (i : Nat) : Option α := (l[i]?).getD none

/-- The lowest index whose entry is free. -/
def freeSlot {α : Type} (l : List (Option α)) : Option Nat := l.findIdx? Option.isNone

/-- The numbers `a`, `a + 1`, … up to `n` of them. -/
def rangeFrom (a n : Nat) : List Nat := (List.range n).map (a + ·)

end Sys2Proof.Machine
end

