-- ==== Sys2Proof/Machine/Digest.lean ====
section
/-! DEFINITION. SHAKE256 with 64 bytes of output (R59, R188, R499). The spec names the function; its definition is taken
from FIPS 202 (PRESUMED, log 8). -/
namespace Sys2Proof.Machine

/-- The 25 lanes of the sponge, lane x + 5y. -/
abbrev Lanes := List DWord

/-- The round constants. -/
def keccakConstants : List DWord :=
  [0x0000000000000001, 0x0000000000008082, 0x800000000000808A, 0x8000000080008000, 0x000000000000808B,
   0x0000000080000001, 0x8000000080008081, 0x8000000000008009, 0x000000000000008A, 0x0000000000000088,
   0x0000000080008009, 0x000000008000000A] ++
  [0x000000008000808B, 0x800000000000008B, 0x8000000000008089, 0x8000000000008003, 0x8000000000008002,
   0x8000000000000080, 0x000000000000800A, 0x800000008000000A, 0x8000000080008081, 0x8000000000008080,
   0x0000000080000001, 0x8000000080008008]

/-- The rotation of each lane. -/
def keccakRotations : List Nat :=
  [0, 1, 62, 28, 27, 36, 44, 6, 55, 20, 3, 10, 43, 25, 39, 41, 45, 15, 21, 8, 18, 2, 61, 56, 14]

/-- Column parities and their mixing. -/
def keccakTheta (a : Lanes) : Lanes :=
  let c := (List.range 5).map fun x => (List.range 5).foldl (fun acc y => acc ^^^ a.getD (x + 5 * y) 0) 0#64
  let d := (List.range 5).map fun x => c.getD ((x + 4) % 5) 0 ^^^ (c.getD ((x + 1) % 5) 0).rotateLeft 1
  (List.range 25).map fun i => a.getD i 0 ^^^ d.getD (i % 5) 0

/-- Rotation of the lanes and their new places: lane (y, 2x + 3y) takes lane (x, y). -/
def keccakRhoPi (a : Lanes) : Lanes :=
  (List.range 25).map fun i =>
    let x' := i % 5
    let y' := i / 5
    let x := (x' + 3 * y') % 5
    let src := x + 5 * x'
    (a.getD src 0).rotateLeft (keccakRotations.getD src 0)

/-- The non-linear step and the round constant. -/
def keccakChiIota (rc : DWord) (a : Lanes) : Lanes :=
  (List.range 25).map fun i =>
    let row := i / 5 * 5
    let v := a.getD i 0 ^^^ (~~~ a.getD (row + (i + 1) % 5) 0 &&& a.getD (row + (i % 5 + 2) % 5) 0)
    if i = 0 then v ^^^ rc else v

/-- The permutation of 24 rounds. -/
def keccakF (a : Lanes) : Lanes :=
  keccakConstants.foldl (fun st rc => keccakChiIota rc (keccakRhoPi (keccakTheta st))) a

/-- Bytes combined into the lanes. -/
def keccakAbsorb (a : Lanes) (block : List Byte) : Lanes :=
  keccakF ((List.range 25).map fun i =>
    a.getD i 0 ^^^ BitVec.ofNat 64 (ofLe ((block.drop (8 * i)).take 8)))

/-- Blocks of 136 bytes; the last is filled with 0x1F, zeros and a final 0x80. -/
def shakeBlocks : Nat → Lanes → List Byte → Lanes
  | 0, a, _ => a
  | n + 1, a, bs =>
    if bs.length < 136 then
      let tail := bs ++ [0x1F#8] ++ List.replicate (135 - bs.length) 0#8
      keccakAbsorb a (tail.take 135 ++ [tail.getD 135 0 ||| 0x80#8])
    else shakeBlocks n (keccakAbsorb a (bs.take 136)) (bs.drop 136)

/-- The 64-byte SHAKE256 digest of a run of bytes. -/
def shake256 (bs : List Byte) : Digest :=
  let a := shakeBlocks (bs.length / 136 + 1) (List.replicate 25 0) bs
  BitVec.ofNat 512 (ofLe ((a.take 8).flatMap fun w => leBytes 8 w.toNat))

/-- The bytes of a digest in order. -/
def digestBytes (d : Digest) : List Byte := leBytes 64 d.toNat

/-- The image of the empty resident and its digest (R533). -/
def emptyImage : List Byte := packBytes [(4, 0x5253444E), (1, 1), (1019, 0)]
def emptyDigest : Digest := shake256 emptyImage

end Sys2Proof.Machine
end

