-- ==== Sys2Proof/Machine/State.lean ====
section
/-! DEFINITION. The state of a Grandarex: every register, ring, buffer, counter, mode and pin the spec gives it, as plain
data, and the queue of commands that wait. Each structure's docstring names the rules it follows. `State.reset` is the
device while the first `DEV_RESET_N` low holds it (R480 step 1). -/
namespace Sys2Proof.Machine

/-! ## Memory -/

/-- A range whose contents the spec calls undefined, and the number of that event. -/
structure UndefRange where
  base : Nat
  size : Nat
  epoch : Nat
  deriving DecidableEq, Repr

/-- A byte memory: the listed cells in rising address order; an unlisted byte reads as 0, or as a free byte inside an
undefined range. -/
structure Memory where
  cells : List Host.Cell
  undef : List UndefRange
  deriving DecidableEq, Repr

/-- A memory with nothing listed. -/
def Memory.empty : Memory := { cells := [], undef := [] }

/-! ## Codes -/

/-- Status codes (R532). -/
inductive Status where
  | ok | busy | invalid | noResource | verify | auth | state | consistency | inventory
  | collTimeout | collAborted | groupMismatch | cueOverflow | parity | memUncorrectable | channelRetired
  | struck | thermal | power | codecStream
  deriving DecidableEq, Repr

/-- Firmware states (R384). -/
inductive FwState where
  | rom | awaitImage | verifying | init | ready | bare | updating | failed
  deriving DecidableEq, Repr

/-- Channel states (R278). -/
inductive ChanState where
  | absent | active | maintenance | retired
  deriving DecidableEq, Repr

/-- Memory heat states (R284). -/
inductive Heat where
  | normal | high | suspended
  deriving DecidableEq, Repr

/-- Peal port states (R343). -/
inductive PortState where
  | disabled | down | training | up | held | failed
  deriving DecidableEq, Repr

/-- Ordering codes (R2). -/
inductive Variant where
  | grx256F | grx240S
  deriving DecidableEq, Repr

/-! ## Fuses, pins, firmware -/

/-- A record of the fuse map: a faulty lane of a Mallet unit, or a faulty row of one of its sub-arrays, and which spare stands for it
(R126): spare 0 or 1 for a lane, 0 for a row. -/
structure Repair where
  core : Nat
  mu : Nat
  subArray : Option Nat
  index : Nat
  spare : Nat
  deriving DecidableEq, Repr

/-- Values fused at manufacture (R2, R126, R383, R500). `uds` is the unique device secret, which no interface reads. -/
structure Fuses where
  variant : Variant
  stepping : BitVec 4
  uds : List Byte
  svBlown : Nat
  repairs : List Repair
  deriving DecidableEq, Repr

/-- The control and Clave pins as levels, and the sampled strap word (R455, R463 to R465); what every other pin does follows from the state
(`pinState`). `clavePhase`: 0 released, 1 roll call, 2 run phase. -/
structure Pins where
  devResetN : Bool
  pePerstN : Bool
  partner : Option (LinkPartner × Nat)  -- the host's end of the link and the size it gives BAR2, once `PE_PERST_N` is high
  clvPu : Bool
  clavePhase : Nat
  straps : Half
  strapsValid : Bool
  segI3c : Bool                  -- segment 0 of the Clave bus runs in I3C Basic, SDR mode (R469)
  segKhz : List Nat              -- the rate of each segment, 0 while it is not driven
  segPresent : List Bool         -- `PRESENT` and `ALERT` of each segment as roll call sampled them, true for low
  segAlert : List Bool
  alertN : Bool
  thermTripN : Bool
  deriving DecidableEq, Repr

/-- A staging of a firmware image in progress (R498). -/
structure Staging where
  fn : Nat
  tag : Word
  addr : Nat
  size : Nat
  deriving DecidableEq, Repr

/-- Firmware state, the boot flash and the running image (R383, R482, R498, R502 to R504). -/
structure Firmware where
  state : FwState
  error : Status
  progress : Nat
  flash : List FlashSlot
  candidates : List Nat          -- slots still to try, first first
  image : List Byte              -- the image in hand
  imageSlot : Option Nat         -- the slot it came from, none for the host window
  window : List Byte             -- what stands in the image window from 0x100_0000 on
  windowLength : DWord           -- the 8 bytes at 0x2FF_0000
  windowStart : Word             -- the word at 0x2FF_0008
  bootSlot : Option Nat
  fwVersion : Word
  ifRev : Half
  imageSv : Nat
  commitSv : Bool
  measurement : Digest
  certSign : Nat                 -- number of the signing that made the KIND 3 certificate
  udsOpen : Bool
  staging : Option Staging
  spares : List Repair           -- spare lanes and rows switched in (R126)
  bootTests : Bool               -- core self-test of boot done (step 10)
  bootMemory : Bool              -- memory training of boot done (step 9)
  deriving DecidableEq, Repr

/-! ## Host interface -/

/-- A response entry (R391). -/
structure Response where
  tag : Word
  status : Status
  opcode : Half
  result : BitVec 352
  deriving DecidableEq, Repr

/-- The mailbox of one function (R389 to R392). `ring`: requests in the ring not yet taken, first first, each none where its
row is a command of its own, or what the device must refuse; `taken`: requests taken and not yet answered. -/
structure Mailbox where
  reqBase : Nat
  rspBase : Nat
  reqEntries : Nat
  rspEntries : Nat
  reqTail : Nat
  ring : List (Option UnknownRequest)
  taken : Nat
  rspWrite : Nat
  rspUnreleased : Nat
  rspPhase : Bool
  held : List Response
  stopping : Bool
  deriving DecidableEq, Repr

/-- A completion record, and the job it ends when it is posted (R398, R399). -/
structure Record where
  tag : Word
  status : Status
  cause : Status
  event : Bool
  provAddr : Nat
  kind : Nat
  detail : BitVec 352
  job : Option Nat
  deriving DecidableEq, Repr

/-- A job queue (R394 to R398). -/
structure JobQueue where
  subBase : Nat
  cmpBase : Nat
  subEntries : Nat
  cmpEntries : Nat
  priority : Nat
  subTail : Nat
  unposted : Nat                 -- submitted jobs whose record is not yet posted
  cmpWrite : Nat
  cmpUnreleased : Nat
  cmpPhase : Bool
  held : List Record
  deriving DecidableEq, Repr

/-- One client: its interrupt registers, rings, queues and counters (R377, R383, R420). `vectorMask` and `vectorPending` are
the mask and pending bits of its MSI-X table (R386). -/
structure Func where
  enabled : Bool
  irqStatus : BitVec 11
  irqMask : BitVec 11
  vectorMask : BitVec 16
  vectorPending : BitVec 16
  mailbox : Option Mailbox
  queues : List (Option JobQueue)
  submitted : DWord
  completed : DWord
  struck : DWord
  preempted : DWord
  deriving DecidableEq, Repr

/-- The PCIe link (R375, R377, R380): up in L0 or L1, which the model does not tell apart (log 97). `reversed`: lane i connects to `PE_*`[15 - i]. `bar2Log2` is the
size of BAR2, 30 to 41. -/
structure PcieLink where
  up : Bool
  gen : Nat
  width : Nat
  flitMode : Bool
  reversed : Bool
  numVfs : Nat
  bar2Log2 : Nat
  deriving DecidableEq, Repr

/-! ## Attached memory -/

/-- A running exerciser with its parameters (R287 to R289). -/
structure ExerciserRun where
  fn : Nat
  tag : Word
  ending : Option Nat             -- the outcome it will report: 2 stopped, 3 retries exhausted (R288, R524)
  addrPat : Nat
  dataPat : Nat
  mix : Nat
  writePct : Nat
  stopOnError : Bool
  rangeOfs : Nat
  rangeLen : Nat
  passes : Nat
  stride : Nat
  seed : Nat
  deriving DecidableEq, Repr

/-- One memory channel (R267, R278, R282, R284, R525). `kind` as the TYPE of R282. -/
structure Channel where
  kind : Nat
  state : ChanState
  heat : Heat
  suspendedAt : Nat              -- when its suspension began, and the limit in force then, in milliseconds (R285)
  suspendLimit : Nat
  temp : Int
  trainTemp : Int
  sizeMiB : Nat
  rate : Nat
  retries : Nat
  retrains : Nat
  exhausted : List Nat           -- times of the exhausted requests of the last 24 hours
  tHigh : Int
  tCrit : Int
  pausing : Bool
  run : Option ExerciserRun
  fullPass : Bool
  deriving DecidableEq, Repr

/-- What roll call found (R473, R488). -/
structure Inventory where
  descStatus : Nat
  failRail : Nat
  boardId : DWord
  member : BitVec 14
  extents : List Nat
  torus : BitVec 4
  portMaxRate : List Nat
  portsCabled : Half
  gddrStatus : List Nat
  cammStatus : List Nat
  portStatus : List Nat
  cammInfo : List (Nat × Nat × Nat)
  portModule : List Nat
  railAddr : List Nat
  gddrMaxRate : List Nat
  railFlags : List Nat
  railPage : List Nat
  pgDelay : List Nat
  muxAddr : List Nat               -- the multiplexers of segments 1 and 2
  portLoss : List Nat              -- in units of 0.5 dB
  deriving DecidableEq, Repr

/-! ## Numbers -/

/-- The exact value of an element: a NaN or an infinity with its sign, or (-1)^neg * mag * 2^exp (R28). -/
inductive Val where
  | nan (neg : Bool)
  | inf (neg : Bool)
  | fin (neg : Bool) (mag : Nat) (exp : Int)
  deriving DecidableEq, Repr

/-! ## Units -/

/-- One loop level of a unit (R69, R70). -/
structure LoopLevel where
  isOpen : Bool
  count : Nat
  counter : Nat
  beginBar : Nat
  deriving DecidableEq, Repr

/-- Where a unit stands in its current bar: `control` before it, `stroke` after the control stroke of a LOOP_BEGIN or
SECTION bar, `close` after its own stroke; `parked` past a BREAK, `stopped` past a HALT, `idle` with no job. -/
inductive Beat where
  | idle | control | stroke | close | parked | stopped
  deriving DecidableEq, Repr

/-- The state of a fired stroke: waiting for data or credit, paused for credit, or done but not yet completed. -/
inductive Flight where
  | running | paused | done
  deriving DecidableEq, Repr

/-- A Rattle context (R197, R203). -/
structure RattleCtx where
  seed : DWord
  stream : Word
  idxBase : DWord
  rowStep : DWord
  colStep : DWord
  deriving DecidableEq, Repr

/-- A stroke in flight (R64, R76): what it captured when it fired. Of a stroke that works on a stream, `taken` counts the blocks of operands
it has taken in, and `given` the entries it has put on a stream or the blocks it has handed over (R77, R107, R113). -/
structure Inflight where
  op : BitVec 8
  desc : Nat
  imm : BitVec 24
  signal : BitVec 8
  bar : Nat
  loops : List Nat
  firedAt : Nat
  timeout : Nat
  memLimit : Nat
  key : Nat
  taken : Nat
  given : Nat
  phase : Flight
  rattle : List RattleCtx
  deriving DecidableEq, Repr

/-- A stave fetcher (R95): the bar it reads next along the path of control, whether a loop turns back to that bar, its own loop
counters, the bars it has read since it began, whether it stands at a BREAK or HALT, and the descriptors in its cache, oldest first.
`since`: when its last read arrived, and `limit` is `MEM_SUSPEND_LIMIT` then: the next read has waited since (R285). -/
structure Fetcher where
  bar : Nat
  again : Bool
  loops : List LoopLevel
  count : Nat
  ended : Bool
  cache : List Nat
  since : Nat
  limit : Nat
  deriving DecidableEq, Repr

/-- The execution state of a unit (R75, R94); `passed` counts the bars it has passed since its kernel began. -/
structure UnitState where
  bar : Nat
  passed : Nat
  beat : Beat
  loops : List LoopLevel
  cues : List Nat
  inflight : List Inflight
  token : Bool
  deriving DecidableEq, Repr

/-- The saturating counters of a core (R44, R450). -/
structure CoreCounters where
  nanNarrow : Nat
  negVar : Nat
  scaleRsvd : Nat
  gatherOob : Nat
  expandMismatch : Nat
  smaxEmpty : Nat
  scatterDrop : Nat
  deriving DecidableEq, Repr

/-- A weight tile a Mallet unit holds (R112): everything that must match for its reuse, and its element values
row by row. -/
structure HeldTile where
  half : Nat
  src : List Nat
  rows : List (List Val)
  deriving DecidableEq, Repr

/-- Where a broadcast entry stands in its operation (R113, R121, R158): the problem of a gang stroke, the round of bands, the block of
positions (a t-block, or an output tile of a problem), the chain tile, the first group of k, the column in the block. -/
structure EntryPlace where
  problem : Nat
  round : Nat
  block : Nat
  tile : Nat
  group : Nat
  col : Nat
  deriving DecidableEq, Repr

/-- What an entry carries: groups of one column of X on the row-mode broadcast, or for a gang array one group of k of the rows of W and of
the columns of X, which a depthwise product has for each row (R105, R119, R122, R133). -/
inductive Carried where
  | column (groups : List (List Val))
  | cells (w : List (List Val)) (x : List (List (List Val)))
  deriving DecidableEq, Repr

/-- An entry of the broadcast FIFO, and the Mallet units that still have to accept it (R113, R114, R122). -/
structure FeedEntry where
  key : Nat
  op : BitVec 8
  desc : Nat
  bar : Nat
  loops : List Nat
  place : EntryPlace
  carried : Carried
  units : List Nat
  deriving DecidableEq, Repr

/-- An accumulator set (R104, R107, R119 to R121): the stroke that fills it, the unit and in gang mode the first sub-array of its array, the
first row and position, the chain tile, its accumulators, and whether it is full. A set of the second product of a chain holds for each
position the running maximum, the sum and the accumulators (R156). -/
structure AccSet where
  key : Nat
  op : BitVec 8
  desc : Nat
  bar : Nat
  mu : Nat
  array : Nat
  row0 : Nat
  col0 : Nat
  tile : Nat
  rows : List (List Word)
  full : Bool
  deriving DecidableEq, Repr

/-- A window vector: its element codes, its scale byte if scaled, its valid bit (R134). -/
abbrev WinVector := List Nat × Option Nat × Bool

/-- An entry of the window FIFO. -/
structure WinEntry where
  key : Nat
  bar : Nat
  vector : WinVector
  deriving DecidableEq, Repr

/-- An entry of the tap FIFO: one row of every stage of a chain that a reduction taps (R174, R537), one 32-bit value per element. -/
structure TapRow where
  chainDesc : Nat
  bar : Nat
  width : Nat
  stages : List (List Word)
  deriving DecidableEq, Repr

/-- What a drain stroke holds back: the rows of its partial result for the merge port, until its last set (R148, R151, R217); or, under the
place they belong to, the rows of a global block of 32 of which a gang tile holds only a part (R147). -/
structure HeldRows where
  key : Nat
  place : List Nat
  rows : List (List Word)
  deriving DecidableEq, Repr

/-- What a merge carries (R148, R151, R179, R184, R217). -/
inductive MergeKind where
  | rowAmax | argmax | stats | smax | attn | attnDone | pivots | statsDone
  deriving DecidableEq, Repr

/-- A core's entry in a cross-core merge: its own partial, and the partial merged up to and including it. -/
structure MergeItem where
  kind : MergeKind
  key : Nat
  desc : Nat
  bar : Nat
  rank : Nat
  own : List (List Word)
  merged : Option (List (List Word))
  deriving DecidableEq, Repr

/-- Damper decisions of an operation as a core has them, block by block (R248): true is reuse. `ends` counts which of the operation's feed
and drain strokes are over. -/
structure DamperBits where
  desc : Nat
  bar : Nat
  loops : List Nat
  reuse : List Bool
  ends : Nat
  deriving DecidableEq, Repr

/-- One core (R19): its units on staves 1 to 11, its boundary, counters, contexts, held tiles and streams. Its scratch
lies in the device's memory at its debug window. -/
structure Core where
  fenced : Bool
  boundary : Nat
  fetch : Fetcher
  units : List UnitState
  rattle : List RattleCtx
  counters : CoreCounters
  tiles : List (List HeldTile)
  gangMode : List Bool
  feeds : List FeedEntry            -- the broadcast FIFO, oldest first
  feedCredits : Nat                 -- its free entries, held by the feed stick (R23)
  accs : List AccSet                -- the accumulator sets in use, oldest first
  wins : List WinEntry              -- the window FIFO
  winCredits : Nat
  winHeld : List WinVector          -- the vectors that the roll engine's stroke has taken
  taps : List TapRow                -- the tap FIFO
  tapCredits : Nat
  tapRows : List TapRow             -- rows that the roll engine's stroke still has to send
  tapHeld : List TapRow             -- the rows that the reduction's stroke has taken
  partials : List HeldRows          -- partial results of drain strokes
  merges : List MergeItem
  damper : List DamperBits
  stoppedParts : List (Nat × Nat)   -- gang partitions stopped by parity: flight key, lowest sub-array
  deriving DecidableEq, Repr

/-- The lead of a core in a gather beyond the last completed round (R83). -/
structure GatherLead where
  entry : Nat
  core : Nat
  lead : Nat
  deriving DecidableEq, Repr

/-! ## Chime tables -/

/-- A chime table image (R185): a built-in image is named by its ID alone, a user image carries its bytes. -/
structure TableImage where
  id : Nat
  bytes : List Byte
  digest : Digest
  deriving DecidableEq, Repr

/-- A table load that waits for its downbeat (R190 to R192). -/
structure TableLoad where
  fn : Nat
  tag : Word
  image : Option TableImage
  drain : Bool
  deriving DecidableEq, Repr

/-- A table slot: the bank in force and the load into its idle bank (R189). -/
structure TableSlot where
  cur : Option TableImage
  load : Option TableLoad
  deriving DecidableEq, Repr

/-! ## Scores, residents, jobs -/

/-- A loaded score (R98): its image stands in attached memory. -/
structure Score where
  fn : Nat
  addr : Nat
  size : Nat
  digest : Digest
  struck : Bool
  deriving DecidableEq, Repr

/-- A resident image put in force (R259, R414). -/
structure ResidentImage where
  addr : Nat
  size : Nat
  digest : Digest
  bounds : List Nat
  deriving DecidableEq, Repr

/-- A RESIDENT_LOAD that waits or copies (R260, R415). -/
structure ResidentLoad where
  fn : Nat
  tag : Word
  image : ResidentImage
  deriving DecidableEq, Repr

/-- The resident in force, the catalogue, the swap in progress and the refills (R259 to R262, R280, R414). -/
structure Resident where
  cur : Option ResidentImage
  unbacked : Bool
  invalid : Bool
  catalogue : List ResidentImage
  load : Option ResidentLoad
  swap : Option ResidentImage     -- image being copied
  refills : List Nat
  deriving DecidableEq, Repr

/-- Job states (R405), and the steps of the job start (R535) and of the end after HALT (R516). -/
inductive JobStage where
  | queued
  | swapping | digesting                       -- steps 4 and 5 of the job-start sequence
  | running | parked | evicting | evicted | restoring
  | outputs | signing | batched                -- steps 1 to 5 after HALT
  | recorded                                   -- record waiting for a free slot
  deriving DecidableEq, Repr

/-- The link record of a peer, window and direction (R510, R512). -/
structure LinkRecord where
  peer : Nat
  window : Nat
  sent : Bool
  openings : Nat
  bytes : Nat
  digests : List Digest
  deriving DecidableEq, Repr

/-- One job (R395, R396, R399). -/
structure Job where
  id : Nat
  fn : Nat
  queue : Nat
  tag : Word
  handle : Nat
  entry : Nat
  signMode : Nat
  jobId : DWord
  paramBytes : Nat
  params : List Byte
  provAddr : Nat
  provSize : Nat
  stage : JobStage
  parkBar : Nat
  parkLoops : List LoopLevel
  layout : Nat
  readyAt : Option Nat             -- since when it has been ready (R406, R409)
  startedAt : Nat
  runSince : Nat
  readFrom : Nat                   -- since when the requests of its own stage run, and `MEM_SUSPEND_LIMIT` then (R285)
  readLimit : Nat
  tested : Nat
  reused : Nat
  kernels : Nat
  preemptions : Nat
  inputs : List (Nat × Nat × Digest)
  outputs : List (Nat × Nat × Digest)
  stepDigest : Digest
  tablesDigest : Digest           -- as its last kernel ended (R510)
  links : List LinkRecord          -- of its own windows and sends, as acknowledged so far (R510)
  opened : List Nat                -- windows it has opened (R312)
  elapsed : Option Nat             -- microseconds up to its last tally token, once that has come (R399)
  body : List Byte
  deriving DecidableEq, Repr

/-- Why the units of the running job park. -/
inductive ParkReason where
  | eviction
  | downbeat
  | strike (status cause : Status) (kind : Nat) (detail : BitVec 352)
  deriving DecidableEq, Repr

/-- What an eviction saves of each core of the layout, its units, contexts and hand-overs between units among it, and of the
chip units (R94, R410 step 3), and the working regions (step 4). -/
structure SaveArea where
  job : Nat
  cores : List (Nat × Core)
  chips : List UnitState
  gathers : List GatherLead
  work : List (Nat × List Byte)
  deriving DecidableEq, Repr

/-- The scheduler (R405 to R410, R428): the jobs, which of them holds the units, and the requests to park. -/
structure Scheduler where
  jobs : List Job
  nextId : Nat
  nextKey : Nat
  current : Option Nat             -- the job in its start sequence, running, being evicted or restored, or struck
  parks : List ParkReason
  layout : Nat
  save : Option SaveArea
  lastClient : List Nat            -- per level, the client last served
  lastQueue : List (List Nat)      -- per level and client, the queue last served
  downbeat : Bool                  -- a downbeat holds scheduling
  deriving DecidableEq, Repr

/-- The staged settings (R422). -/
structure Settings where
  kvCacheFmt : Nat
  memClassWeights : Nat
  memSuspendLimit : Nat
  pealSendWeight : Nat
  pealXferTimeout : Nat
  bar2Base : Nat
  featureEnable : Nat
  deriving DecidableEq, Repr

/-- A STAGE_COMMIT that waits (R426). -/
structure Commit where
  tag : Word
  drain : Bool
  deriving DecidableEq, Repr

/-- Settings in force, the pending set in ascending ID, the waiting commit (R424 to R426). -/
structure Staged where
  cur : Settings
  pending : List (Nat × Nat)
  commit : Option Commit
  deriving DecidableEq, Repr

/-- The pre-emption policy (R417). -/
structure PreemptPolicy where
  breakWaitUs : Nat
  sliceUs : Nat
  evict : Bool
  swap : Nat
  saveChannels : BitVec 96
  saveOfs : Nat
  saveBytes : Nat
  deriving DecidableEq, Repr

/-! ## Groups and the fabric -/

/-- A collective in flight on a group (R317, R320 to R325): operation 15 is the check. `recv` counts bytes received for a
chunk, `written` the transit bytes whose final value this member has written, `value` the member's clapper value once it
has joined the wave, `children` what its children sent. -/
structure Collective where
  seq : Nat
  key : Option Nat
  op : Nat
  red : Nat
  inFmt : Nat
  outFmt : Nat
  ctype : Nat
  count : Nat
  chunk : Nat
  root : Nat
  src : Nat
  dst : Nat
  firedAt : Nat
  recv : List (Nat × Nat)
  written : Nat
  value : Option (List Byte)
  children : List (Nat × List Byte)
  sentUp : Bool
  pairs : List Nat                 -- the pair of even and of odd chunks, fixed as it starts (R303)
  deriving DecidableEq, Repr

/-- A defined group (R314 to R318). -/
structure Group where
  tag : Word
  defn : BitVec 192
  rank : Nat
  size : Nat
  members : List (BitVec 14)
  weight : Nat
  timeoutUs : Nat
  spillAddr : Nat
  spillSize : Nat
  checked : Bool
  nextSeq : Nat
  colls : List Collective
  spilled : List (Nat × Nat × List Byte)   -- sequence modulo 256, chunk, bytes of early flits, in order
  early : List (Nat × Nat × List Byte)     -- sequence, child rank, data of early clapper messages
  abortSent : List (Nat × Nat)             -- when this member first sent an abort request, and for which sequence
  aborted : Option Nat                     -- the sequence last aborted
  late : Option Nat                        -- the sequence that this member ended without the root's decision, which may still come (R333)
  deriving DecidableEq, Repr

/-- One Peal port (R291 to R305, R343, R526). -/
structure Port where
  state : PortState
  rate : Nat
  neighbour : Option Identity
  txSeq : BitVec 8
  replay : List Flit
  waitTx : List (Nat × BitVec 6 × Flit)  -- flits that wait to be sent, each with the buffer it still holds: port (16 own) and channel
  served : List (Nat × Nat)        -- flits that each class has taken in this round (R304)
  rxExpect : BitVec 8
  nacking : Bool
  resends : List (BitVec 8 × Nat)  -- resent sequence numbers and when
  credits : List (BitVec 6 × Nat)  -- credit spent per channel
  owed : List (BitVec 6 × Nat)     -- credits to return per channel
  fecCorrected : Nat
  fecUncorrectable : Nat
  crcErrors : Nat
  retries : Nat
  discards : Nat
  downEvents : Nat
  failedAt : List Nat              -- the failures of the hour before it failed for good, or of its last hour (R526)
  retryAt : Nat
  deriving DecidableEq, Repr

/-- An open receive window (R306). -/
structure Window where
  key : Nat
  dsts : List Nat                  -- destination base addresses, one per core of a multicast
  size : Nat
  expect : Nat
  count : Nat
  peers : List (Nat × BitVec 7)    -- senders into the opening, each with its last transfer tag
  deriving DecidableEq, Repr

/-- A send under way: its bytes, those acknowledged, and the flits sent so far (R303, R308, R310). -/
structure SendState where
  xtag : BitVec 7
  stave : Nat
  core : Nat
  key : Nat
  peer : Nat
  window : Nat
  bytes : Nat
  acked : Nat
  flits : Nat
  deriving DecidableEq, Repr

/-- A send that waits for a free transfer tag: its unit, its peer and window, its service and pairs, its runs of bytes (R310). -/
structure QueuedSend where
  stave : Nat
  core : Nat
  key : Nat
  peer : Nat
  window : Nat
  svc : Nat
  pairs : Nat
  runs : List (Nat × List Byte)
  deriving DecidableEq, Repr

/-- The Peal fabric as the device holds it. -/
structure Fabric where
  ports : List Port
  windows : List (Option Window)
  waiting : List (Nat × BitVec 14 × Flit)  -- flits that wait in channel buffers: port (16 local), sender, flit
  sends : List SendState
  queued : List QueuedSend
  nextXtag : BitVec 7
  tagged : List (BitVec 7 × Nat × Nat × Nat)  -- the peer, the window and the job that each transfer tag last served
  deriving DecidableEq, Repr

/-! ## Codec -/

/-- The coding state of a session, which lies in its context, or in its engine while that is loaded with it (R348, R349): frames so far,
headers and rate control, the frame output last, and the frames that it holds by name, as references or for output (R363 to R366). -/
structure Coding where
  frames : Nat
  token : Digest
  lastShown : List (List (List Nat))
  held : List (Nat × List (List (List Nat)))
  waiting : List Nat                -- names of decoded frames still held for output (R363)
  keys : List Nat                   -- numbers of key frames none of whose stream bytes are out (R360, R361)
  deriving DecidableEq, Repr

/-- A codec session (R346 to R350). -/
structure Session where
  fn : Nat
  decode : Bool
  codec : Nat
  bitDepth : Nat
  width : Nat
  height : Nat
  params : BitVec 384
  ctxAddr : Nat
  ctxSize : Nat
  failed : Bool
  coding : Coding
  deriving DecidableEq, Repr

/-- A frame that waits for or is in an engine (R349). -/
structure FrameJob where
  session : Nat
  key : Nat
  desc : Desc
  job : Nat
  deriving DecidableEq, Repr

/-- A codec engine. -/
structure EngineState where
  fenced : Bool
  lastServed : Option Nat
  loaded : Option Coding           -- the state of the session it serves
  queue : List FrameJob
  deriving DecidableEq, Repr

/-- The Cymbal codec. -/
structure Codec where
  sessions : List (Option Session)
  encoder : EngineState
  decoder : EngineState
  deriving DecidableEq, Repr

/-! ## Power and heat -/

/-- A rail (R437, R439 to R441): commanded millivolts, whether it is enabled and has reported power good, its last
reading. -/
structure Rail where
  on : Bool
  good : Bool
  mv : Nat
  reading : Option RailReading
  warning : Bool
  pulsedAt : Option Nat            -- when its last rail-step pulse went out
  voutAt : Option Nat              -- when its last `VOUT_COMMAND` was acknowledged
  deriving DecidableEq, Repr

/-- Domain switch and clock states (R432). -/
inductive DomainState where
  | off | clockStopped | running | fusedOff
  deriving DecidableEq, Repr

/-- A power domain and its clock island (R431 to R435, R446). `trim` in steps of 0.25 %, 0 to 80 below the natural rate. -/
structure Domain where
  state : DomainState
  cap : Nat
  stage : Nat
  trim : Nat
  freqMhz : Nat
  deriving DecidableEq, Repr

/-- The power policy (R442), the rails, domains, sensors and the controls that act on them. -/
structure Power where
  limitW : Nat
  windowMs : Nat
  clockCap : Nat
  tjTarget : Nat
  idleStop : Bool
  rails : List Rail
  supplies : List Nat               -- GDDR supplies West, East, CAMM2 0 to 3: 0 off, 1 waiting, 2 on
  supplyAt : List Nat               -- when each was enabled
  domains : List Domain
  sensors : List Int
  nowW : Nat
  samples : List Nat                -- estimates of the averaging window, newest first
  avgW : Nat
  energy20 : Nat                    -- energy since reset in twentieths of a millijoule
  loopMv : Nat                      -- rail level the power loop asks for
  loopCap : Nat                     -- core cap the power loop asks for, percent
  stage2 : List Bool
  stage2Mv : List Nat
  trippedAt : Option Nat            -- when step 1 of a thermal trip was
  deriving DecidableEq, Repr

/-! ## Security, log, tests -/

/-- What waits for a signature (R514). -/
inductive SignItem where
  | body (job : Nat)
  | batch (jobs : List Nat) (seq : Nat) (bodies : List (List Byte))
  | quote (fn : Nat) (tag : Word) (addr : Nat) (nonce : Nat)
  deriving DecidableEq, Repr

/-- Quotes and batches (R507, R515, R516): `sign` is what waits for a signature, in the order it became ready. -/
structure Security where
  quoteSeq : Nat
  batchSeq : Nat
  open_ : List (Nat × List Byte)
  openedAt : Nat
  sign : List SignItem
  deriving DecidableEq, Repr

/-- An error-log entry (R528). -/
structure LogEntry where
  seq : Nat
  time : Nat
  source : Nat
  severity : Nat
  status : Status
  fn : Nat
  stave : Nat
  place : Nat
  detail : Nat
  deriving DecidableEq, Repr

/-- The error log (R528). -/
structure ErrorLog where
  entries : List LogEntry
  nextSeq : Nat
  lost : Nat
  deriving DecidableEq, Repr

/-- A self-test or calibration that waits or runs (R490 to R494). -/
structure Test where
  fn : Nat
  tag : Word
  calibrate : Bool
  target : Nat
  mask : BitVec 256
  running : Bool
  deriving DecidableEq, Repr

/-! ## Host accesses that wait -/

/-- A BAR2 access to a channel under deferred calibration (R493), by device address. -/
inductive WindowAccess where
  | read (addr len : Nat)
  | write (addr : Nat) (data : List Byte)
  deriving DecidableEq, Repr

/-- A doorbell write that waits until every BAR2 write before it is readable (R382). -/
inductive Doorbell where
  | mbxSetup (fn : Nat) (value : DWord) (block : Desc)
  | mbxTail (fn : Nat) (value : DWord) (entries : List (Option UnknownRequest))
  | mbxStop (fn : Nat) (value : DWord)
  | mbxRelease (fn : Nat) (value : DWord)
  | submit (fn : Nat) (value : DWord) (subs : List Submission)
  | release (fn : Nat) (value : DWord)
  deriving DecidableEq, Repr

/-! ## Outputs -/

/-- What leaves the device, oldest first. -/
inductive Out where
  /-- an MSI-X message (R386) -/
  | msix (fn vector : Nat)
  /-- a flit on a port (R295); its 256 bytes are `flitBytes`, and the lanes carry them as R298 says -/
  | flit (port : Nat) (f : Flit)
  /-- completion of a BAR2 read with data, with Unsupported Request, or with Completer Abort (R268, R524) -/
  | bar2Data (bytes : List Byte)
  | bar2Ur
  | bar2Abort
  /-- a rail-step pulse of a quarter rail (R441) -/
  | railPulse (q : Nat) (up : Bool)
  /-- a PMBus command of a managed rail, to the address and page of its regulator: enabled and set to millivolts, or disabled (R439,
  R441, R474) -/
  | pmbus (rail addr page : Nat) (mv : Option Nat)
  /-- a memory supply switched on or off, at the address and page of its regulator (R439, R474) -/
  | supply (n addr page : Nat) (on : Bool)
  /-- a read on a segment of the Clave bus, behind a channel of a multiplexer where one stands between (R470) -/
  | claveRead (segment : Nat) (mux : Option (Nat × Nat)) (addr : Nat)
  /-- one security-version fuse blown (R501) -/
  | fuse (n : Nat)
  deriving DecidableEq, Repr

/-! ## The state -/

/-- A meaning stops with a fault: never. No rule of the spec gives a command of this block an effect that stops it; a
command that may not run answers a status, is ignored or waits. -/
inductive Fault where
  deriving DecidableEq, Repr

/-- No meaning for the command. -/
inductive Refusal where
  /-- Raised by `exec` alone, for a command that has no meaning yet; safe: nothing can be proved of a run past it. -/
  | notModelled (mnemonic : String)
  deriving DecidableEq, Repr

/-- The state of the device. -/
structure State where
  /-- commands that wait, first in first out -/
  pending : List Instr
  /-- the device's reference counter, in microseconds since reset (R435) -/
  time : Nat
  /-- the model's own counter of free values drawn -/
  fresh : Nat
  fuses : Fuses
  pins : Pins
  fw : Firmware
  pcie : PcieLink
  funcs : List Func
  /-- the device address map's bytes, scratch included (R266) -/
  mem : Memory
  /-- host memory at bus addresses, as the device wrote it -/
  host : Memory
  channels : List Channel
  inv : Inventory
  cores : List Core
  /-- the chip units on staves 12 to 15 -/
  chips : List UnitState
  /-- their stave fetchers -/
  chipFetch : List Fetcher
  gathers : List GatherLead
  tables : List TableSlot
  scores : List (Option Score)
  resident : Resident
  sched : Scheduler
  staged : Staged
  preempt : PreemptPolicy
  groups : List (Option Group)
  fabric : Fabric
  codec : Codec
  power : Power
  sec : Security
  log : ErrorLog
  test : Option Test
  /-- BAR2 accesses that wait for a deferred calibration, oldest first -/
  bar2Held : List WindowAccess
  /-- doorbells that wait for a BAR2 write before them, oldest first -/
  doorbells : List Doorbell
  /-- the function whose request ring Amior served last -/
  lastCaller : Nat
  out : List Out
  deriving DecidableEq, Repr

/-! ## Reset values -/

/-- A loop level with no open loop. -/
def LoopLevel.closed : LoopLevel := { isOpen := false, count := 0, counter := 0, beginBar := 0 }

/-- A unit with no job (R75). -/
def UnitState.idle : UnitState :=
  { bar := 0, passed := 0, beat := .idle, loops := List.replicate 4 LoopLevel.closed, cues := List.replicate 8 0, inflight := [],
    token := false }

/-- A fetcher with nothing to read. -/
def Fetcher.idle : Fetcher :=
  { bar := 0, again := false, loops := List.replicate 4 LoopLevel.closed, count := 0, ended := true, cache := [], since := 0, limit := 0 }

/-- A Rattle context that no RATTLE_SET has written. -/
def RattleCtx.zero : RattleCtx := { seed := 0, stream := 0, idxBase := 0, rowStep := 0, colStep := 0 }

/-- Counters at zero. -/
def CoreCounters.zero : CoreCounters :=
  { nanNarrow := 0, negVar := 0, scaleRsvd := 0, gatherOob := 0, expandMismatch := 0, smaxEmpty := 0, scatterDrop := 0 }

/-- Entries of a FIFO between two units of a core: the spec gives no depth (DESIGN CHOICE, log 103). -/
def streamDepth : Nat := 16

/-- A core with no job, its boundary 0 (R533), every credit of its streams at the unit that writes the stream. -/
def Core.reset : Core :=
  { fenced := false, boundary := 0, fetch := Fetcher.idle, units := List.replicate 11 UnitState.idle, rattle := List.replicate 4 RattleCtx.zero,
    counters := CoreCounters.zero, tiles := List.replicate 4 [], gangMode := List.replicate 4 false, feeds := [],
    feedCredits := streamDepth, accs := [], wins := [], winCredits := streamDepth, winHeld := [], taps := [], tapCredits := streamDepth,
    tapRows := [], tapHeld := [], partials := [], merges := [], damper := [], stoppedParts := [] }

/-- A function at reset: every interrupt cause clear and masked (R385 table). -/
def Func.reset (on : Bool) : Func :=
  { enabled := on, irqStatus := 0, irqMask := BitVec.allOnes 11, vectorMask := 0, vectorPending := 0, mailbox := none, queues := List.replicate 8 none,
    submitted := 0, completed := 0, struck := 0, preempted := 0 }

/-- A channel before roll call: absent. -/
def Channel.absent : Channel :=
  { kind := 0, state := .absent, heat := .normal, suspendedAt := 0, suspendLimit := 20, temp := 0, trainTemp := 0, sizeMiB := 0, rate := 0, retries := 0,
    retrains := 0, exhausted := [], tHigh := 95, tCrit := 105, pausing := false, run := none, fullPass := false }

/-- A port with nothing on it. -/
def Port.reset : Port :=
  { state := .disabled, rate := 0, neighbour := none, txSeq := 0, replay := [], waitTx := [], served := [], rxExpect := 0,
    nacking := false, resends := [], credits := [], owed := [], fecCorrected := 0, fecUncorrectable := 0, crcErrors := 0,
    retries := 0, discards := 0, downEvents := 0, failedAt := [], retryAt := 0 }

/-- An inventory before roll call. -/
def Inventory.empty : Inventory :=
  { descStatus := 1, failRail := 0xFF, boardId := 0, member := 0, extents := [1, 1, 1, 1], torus := 0,
    portMaxRate := List.replicate 16 0, portsCabled := 0, gddrStatus := List.replicate 24 0,
    cammStatus := List.replicate 4 0, portStatus := List.replicate 16 0, cammInfo := List.replicate 4 (0, 0, 0),
    portModule := List.replicate 16 0, railAddr := List.replicate 18 0, railFlags := List.replicate 18 0,
    gddrMaxRate := List.replicate 24 0, railPage := List.replicate 18 0, pgDelay := List.replicate 18 0, muxAddr := [0, 0],
    portLoss := List.replicate 16 0 }

/-- The reset values of the staged settings (R422). -/
def Settings.reset : Settings :=
  { kvCacheFmt := 3, memClassWeights := 0x841, memSuspendLimit := 20, pealSendWeight := 4, pealXferTimeout := 10000,
    bar2Base := 0, featureEnable := 7 }

/-- The reset values of the pre-emption policy (R417). -/
def PreemptPolicy.reset : PreemptPolicy :=
  { breakWaitUs := 2000, sliceUs := 1000, evict := false, swap := 1, saveChannels := 0, saveOfs := 0, saveBytes := 0 }

/-- The empty resident in force: no range and no boundary (R533). -/
def emptyResident : ResidentImage := { addr := 0, size := 0, digest := emptyDigest, bounds := List.replicate 256 0 }

/-- The resident after reset: the empty resident is in force (R533). -/
def Resident.reset : Resident :=
  { cur := some emptyResident, unbacked := false, invalid := false, catalogue := [], load := none, swap := none, refills := [] }

/-- A scheduler with no job. -/
def Scheduler.empty : Scheduler :=
  { jobs := [], nextId := 0, nextKey := 0, current := none, parks := [], layout := 0, save := none,
    lastClient := List.replicate 4 31, lastQueue := List.replicate 4 (List.replicate 32 7), downbeat := false }

/-- A rail that is off. -/
def Rail.offRail : Rail := { on := false, good := false, mv := 0, reading := none, warning := false, pulsedAt := none, voutAt := none }

/-- The base rails are up before `DEV_RESET_N` rises (R438); the managed rails are off (R437). -/
def Power.resetRails : List Rail :=
  [1800, 750, 750, 850, 1200, 750].map (fun v => { Rail.offRail with on := true, good := true, mv := v })
    ++ List.replicate 6 Rail.offRail

/-- A domain that is off. -/
def Domain.offDomain : Domain := { state := .off, cap := 100, stage := 0, trim := 0, freqMhz := 0 }

/-- The reset values of the power policy (R442). -/
def Power.reset (maxW maxMhz : Nat) : Power :=
  { limitW := maxW, windowMs := 10, clockCap := maxMhz, tjTarget := 100, idleStop := true, rails := Power.resetRails,
    supplies := List.replicate 6 0, supplyAt := List.replicate 6 0, domains := List.replicate 325 Domain.offDomain, sensors := List.replicate 290 250,
    nowW := 0, samples := [], avgW := 0, energy20 := 0, loopMv := 900, loopCap := 100, stage2 := List.replicate 4 false,
    stage2Mv := List.replicate 4 900, trippedAt := none }

/-- An engine with nothing in it. -/
def EngineState.reset : EngineState := { fenced := false, lastServed := none, loaded := none, queue := [] }

/-- The fabric with every window closed. -/
def Fabric.reset : Fabric :=
  { ports := List.replicate 16 Port.reset, windows := List.replicate 16 none, waiting := [], sends := [], queued := [], nextXtag := 0, tagged := [] }

/-- A flash slot that holds no image. -/
def emptySlot : FlashSlot := { seq := 0, mark := 0xFFFFFFFF, image := [] }

/-- Firmware before step 2 of the boot sequence: `FW_STATE` reads 0 (R383, R480). -/
def Firmware.reset : Firmware :=
  { state := .rom, error := .ok, progress := 0, flash := [emptySlot, emptySlot], candidates := [], image := [],
    imageSlot := none, window := [], windowLength := 0, windowStart := 0, bootSlot := none, fwVersion := 0, ifRev := 0x0302, imageSv := 0,
    commitSv := false, measurement := 0, certSign := 0, udsOpen := true, staging := none, spares := [],
    bootTests := false, bootMemory := false }

/-- The machine right after reset: `DEV_RESET_N` is low, every register at its reset value, nothing in memory, no
command waiting. -/
def State.reset : State :=
  { pending := [], time := 0, fresh := 0,
    fuses := { variant := .grx256F, stepping := 0, uds := (List.range 32).map Config.udsByte, svBlown := 0, repairs := [] },
    pins := { devResetN := false, pePerstN := false, partner := none, clvPu := false, clavePhase := 0, straps := 0, strapsValid := false,
              segI3c := false, segKhz := [0, 0, 0, 0], segPresent := List.replicate 4 false, segAlert := List.replicate 4 false, alertN := true, thermTripN := true },
    fw := Firmware.reset,
    pcie := { up := false, gen := 0, width := 0, flitMode := false, reversed := false, numVfs := 0, bar2Log2 := 41 },
    funcs := Func.reset true :: List.replicate 31 (Func.reset false),
    mem := Memory.empty, host := Memory.empty,
    channels := List.replicate 128 Channel.absent,
    inv := Inventory.empty,
    cores := List.replicate 256 Core.reset,
    chips := List.replicate 4 UnitState.idle,
    chipFetch := List.replicate 4 Fetcher.idle,
    gathers := [],
    tables := List.replicate 8 { cur := none, load := none },
    scores := List.replicate 16 none,
    resident := Resident.reset,
    sched := Scheduler.empty,
    staged := { cur := Settings.reset, pending := [], commit := none },
    preempt := PreemptPolicy.reset,
    groups := List.replicate 16 none,
    fabric := Fabric.reset,
    codec := { sessions := List.replicate 64 none, encoder := EngineState.reset, decoder := EngineState.reset },
    power := Power.reset 1650 3000,
    sec := { quoteSeq := 0, batchSeq := 0, open_ := [], openedAt := 0, sign := [] },
    log := { entries := [], nextSeq := 1, lost := 0 },
    test := none,
    bar2Held := [], doorbells := [], lastCaller := 31,
    out := [] }

end Sys2Proof.Machine
end

