-- ==== Sys2Proof/Machine/Memory.lean ====
section
/-! DEFINITION. The operations on byte memories: reading, writing, and marking a range's contents undefined. The canonical
form: addresses strictly rise, and no listed byte equals what its address would read as unlisted (R258, R266, R281). -/
namespace Sys2Proof.Machine

/-- The undefined range an address lies in, the newest first. -/
def Memory.undefAt (m : Memory) (a : Nat) : Option UndefRange :=
  m.undef.find? fun r => decide (r.base ≤ a) && decide (a < r.base + r.size)

/-- The listed byte at an address. -/
def cellAt : List Host.Cell → Nat → Option Byte
  | [], _ => none
  | (k, b) :: cs, a => if a < k then none else if a = k then some b else cellAt cs a

/-- What an unlisted address reads as: 0, or the free byte of the newest undefined range it lies in. -/
def Memory.unlisted (m : Memory) (a : Nat) : Byte :=
  match m.undefAt a with
  | none => 0
  | some r => Config.freeByte r.epoch a

/-- Reading one byte. -/
def Memory.read (m : Memory) (a : Nat) : Byte := (cellAt m.cells a).getD (m.unlisted a)

/-- A cell put in its place, replacing the one there. -/
def putCell : List Host.Cell → Nat → Byte → List Host.Cell
  | [], a, b => [(a, b)]
  | (k, c) :: cs, a, b =>
    if a < k then (a, b) :: (k, c) :: cs else if a = k then (a, b) :: cs else (k, c) :: putCell cs a b

/-- A cell taken out. -/
def dropCell : List Host.Cell → Nat → List Host.Cell
  | [], _ => []
  | (k, c) :: cs, a => if a < k then (k, c) :: cs else if a = k then cs else (k, c) :: dropCell cs a

/-- Writing one byte: outside the undefined ranges a zero byte is unlisted. -/
def Memory.write (m : Memory) (a : Nat) (b : Byte) : Memory :=
  if (m.undefAt a).isNone && b == 0 then { m with cells := dropCell m.cells a }
  else { m with cells := putCell m.cells a b }

/-- Writing a run of bytes upward from an address. -/
def Memory.writeBytes (m : Memory) : Nat → List Byte → Memory
  | _, [] => m
  | a, b :: bs => Memory.writeBytes (m.write a b) (a + 1) bs

/-- Reading a run of bytes upward from an address. -/
def Memory.readBytes (m : Memory) (a n : Nat) : List Byte := (List.range n).map fun i => m.read (a + i)

/-- The little-endian number of `n` bytes at an address. -/
def Memory.readNat (m : Memory) (a n : Nat) : Nat := ofLe (m.readBytes a n)

/-- The contents of a range become undefined (R281, R290, R518). -/
def Memory.forget (m : Memory) (base size epoch : Nat) : Memory :=
  { cells := m.cells.filter fun c => !(decide (base ≤ c.1) && decide (c.1 < base + size)),
    undef := { base := base, size := size, epoch := epoch } :: m.undef }

/-- The contents of a range become zero, written as such (R257). -/
def Memory.zeroRange (m : Memory) (base size : Nat) : Memory :=
  { cells := m.cells.filter fun c => !(decide (base ≤ c.1) && decide (c.1 < base + size)),
    undef := m.undef.flatMap fun r =>
      if overlaps r.base r.size base size then
        (if r.base < base then [{ r with size := base - r.base }] else []) ++
        (if base + size < r.base + r.size then
          [{ r with base := base + size, size := r.base + r.size - (base + size) }] else [])
      else [r] }

/-- Whether addresses strictly rise from a lower bound, and no listed byte is what the address reads as unlisted. -/
def cellsWf (m : Memory) : Option Nat → List Host.Cell → Bool
  | _, [] => true
  | lo, (k, b) :: cs =>
    (match lo with | none => true | some l => decide (l < k)) &&
    ((m.undefAt k).isSome || !(b == 0)) && cellsWf m (some k) cs

/-- The canonical form of a memory. -/
def Memory.wf (m : Memory) : Bool := cellsWf m none m.cells

end Sys2Proof.Machine
end

