-- ==== Sys2Proof/Machine/Fp.lean ====
section
/-! DEFINITION. Element formats, exact values, rounding, narrowing and block scales (R27 to R43), and elements in memory
(R30, R31). Every operation computes exactly and rounds once. -/
namespace Sys2Proof.Machine

/-- The element formats (R27), by the format codes of R102. -/
inductive Fmt where
  | fp32 | bf16 | fp16 | e4m3 | e5m2 | fp4 | bg6 | bg4 | int8 | int32
  deriving DecidableEq, Repr

/-- The format a code names (R102); codes 0xA to 0xF are reserved. -/
def Fmt.ofCode : Nat → Option Fmt
  | 0 => some .fp32 | 1 => some .bf16 | 2 => some .fp16 | 3 => some .e4m3 | 4 => some .e5m2
  | 5 => some .fp4 | 6 => some .bg6 | 7 => some .bg4 | 8 => some .int8 | 9 => some .int32 | _ => none

/-- The format of a checked field; a reserved code never passes check 0x000B. -/
def Fmt.ofField (c : Nat) : Fmt := (Fmt.ofCode c).getD .fp32

/-- Width in bits (R27, R29, R32). -/
def Fmt.bits : Fmt → Nat
  | .fp32 | .int32 => 32 | .bf16 | .fp16 => 16 | .e4m3 | .e5m2 | .int8 => 8 | .fp4 | .bg4 => 4 | .bg6 => 6

/-- Elements that one packed group holds (R30). -/
def Fmt.group : Fmt → Nat
  | .fp4 | .bg4 => 2 | .bg6 => 4 | _ => 1

/-- Bytes of a row of `n` elements, padded to whole packed groups (R31). -/
def Fmt.rowBytes (f : Fmt) (n : Nat) : Nat := ceilDiv n f.group * (f.group * f.bits / 8)

/-- Formats that may carry a block scale (R34). -/
def Fmt.scalable : Fmt → Bool
  | .e4m3 | .e5m2 | .fp4 | .bg6 | .bg4 | .int8 => true | _ => false

/-- Exponent bits, mantissa bits and bias of a floating format (R27). -/
structure Layout where
  ebits : Nat
  mbits : Nat
  bias : Nat
  deriving DecidableEq, Repr

def Layout.fp32 : Layout := ⟨8, 23, 127⟩
def Layout.bf16 : Layout := ⟨8, 7, 127⟩
def Layout.fp16 : Layout := ⟨5, 10, 15⟩
def Layout.e4m3 : Layout := ⟨4, 3, 7⟩
def Layout.e5m2 : Layout := ⟨5, 2, 15⟩
def Layout.fp4 : Layout := ⟨2, 1, 1⟩

/-- The number of codes below the exponent of all ones: the magnitude code of infinity. -/
def Layout.infCode (l : Layout) : Nat := (2 ^ l.ebits - 1) * 2 ^ l.mbits

/-- The value of a magnitude code read as finite (R28). -/
def Layout.finite (l : Layout) (neg : Bool) (m : Nat) : Val :=
  if m / 2 ^ l.mbits = 0 then .fin neg m (1 - (l.bias : Int) - l.mbits)
  else .fin neg (2 ^ l.mbits + m % 2 ^ l.mbits) ((m / 2 ^ l.mbits : Nat) - (l.bias : Int) - l.mbits)

/-- The value of a code of a format with infinities and NaNs (R28). -/
def Layout.decode (l : Layout) (c : Nat) : Val :=
  let neg := c.testBit (l.ebits + l.mbits)
  let m := c % 2 ^ (l.ebits + l.mbits)
  if m < l.infCode then l.finite neg m else if m = l.infCode then .inf neg else .nan neg

/-- BG4 levels in 128ths (R32). -/
def bg4Levels : List Nat := [0, 11, 23, 37, 53, 73, 99, 128]

/-- BG6 levels in 1024ths (R32). -/
def bg6Levels : List Nat :=
  [0, 19, 37, 56, 75, 94, 113, 132, 151, 171, 191, 211, 232, 253, 275, 298] ++
  [321, 344, 369, 395, 422, 450, 480, 512, 547, 585, 627, 674, 729, 797, 886, 1024]

/-- The exact value of an element code before scaling (R28, R29, R32, R33). -/
def Fmt.decode (f : Fmt) (c : Nat) : Val :=
  match f with
  | .fp32 => Layout.fp32.decode c
  | .bf16 => Layout.bf16.decode c
  | .fp16 => Layout.fp16.decode c
  | .e5m2 => Layout.e5m2.decode c
  | .e4m3 => if c % 128 = 127 then .nan (c.testBit 7) else Layout.e4m3.finite (c.testBit 7) (c % 128)
  | .fp4 => Layout.fp4.finite (c.testBit 3) (c % 8)
  | .bg4 => .fin (c.testBit 3 && !(c % 8 == 0)) (bg4Levels.getD (c % 8) 0) (-7)
  | .bg6 => .fin (c.testBit 5 && !(c % 32 == 0)) (bg6Levels.getD (c % 32) 0) (-10)
  | .int8 => let i := signedOf 8 c; .fin (decide (i < 0)) i.natAbs 0
  | .int32 => let i := signedOf 32 c; .fin (decide (i < 0)) i.natAbs 0

/-- A value multiplied by 2^k. -/
def Val.scaleBy (v : Val) (k : Int) : Val :=
  match v with
  | .fin n m e => .fin n m (e + k)
  | v => v

/-- The value of an element under a scale byte (R34, R35). The NaN of a block under 0xFF has sign bit 0 whatever the element's sign: the
spec gives it none (DESIGN CHOICE, log 85). -/
def scaled (E : Nat) (v : Val) : Val := if E = 0xFF then .nan false else v.scaleBy ((E : Int) - 127)

/-- The value of an element of a tensor that carries block scales or not. -/
def Fmt.value (f : Fmt) (scale : Option Nat) (c : Nat) : Val :=
  match scale with
  | none => f.decode c
  | some E => scaled E (f.decode c)

/-! ## Exact arithmetic -/

def Val.isNan : Val → Bool
  | .nan _ => true | _ => false

def Val.isInf : Val → Bool
  | .inf _ => true | _ => false

def Val.isZero : Val → Bool
  | .fin _ m _ => m == 0 | _ => false

def Val.sign : Val → Bool
  | .nan n | .inf n | .fin n _ _ => n

def Val.zero : Val := .fin false 0 0

/-- A magnitude m·2^e as a multiple of 2^lo, where lo ≤ e. -/
def shiftTo (m : Nat) (e lo : Int) : Nat := m <<< (e - lo).toNat

/-- The signed multiple of 2^lo that a finite value is. -/
def signedAt (n : Bool) (m : Nat) (e lo : Int) : Int := if n then -(shiftTo m e lo : Int) else (shiftTo m e lo : Int)

/-- The exact sum; an exact zero is +0 unless both terms are negative (R42, R37). -/
def Val.add (a b : Val) : Val :=
  match a, b with
  | .nan _, _ | _, .nan _ => .nan false
  | .inf x, .inf y => if x = y then .inf x else .nan false
  | .inf x, _ => .inf x
  | _, .inf y => .inf y
  | .fin x m e, .fin y k f =>
    let lo := min e f
    let s := signedAt x m e lo + signedAt y k f lo
    .fin (if s = 0 then x && y else decide (s < 0)) s.natAbs lo

def Val.neg : Val → Val
  | .nan n => .nan !n | .inf n => .inf !n | .fin n m e => .fin (!n) m e

def Val.sub (a b : Val) : Val := if b.isNan then .nan false else a.add b.neg

/-- The exact product (R42). -/
def Val.mul (a b : Val) : Val :=
  match a, b with
  | .nan _, _ | _, .nan _ => .nan false
  | .inf x, .inf y => .inf (x ^^ y)
  | .inf x, .fin y m _ | .fin y m _, .inf x => if m = 0 then .nan false else .inf (x ^^ y)
  | .fin x m e, .fin y k f => .fin (x ^^ y) (m * k) (e + f)

/-- Order of the values of two elements that are not NaN: -1, 0 or 1, the two zeros equal. -/
def Val.cmp (a b : Val) : Int :=
  match a, b with
  | .inf x, .inf y => if x = y then 0 else if x then -1 else 1
  | .inf x, _ => if x then -1 else 1
  | _, .inf y => if y then 1 else -1
  | .fin x m e, .fin y k f =>
    let lo := min e f
    let s := signedAt x m e lo - signedAt y k f lo
    if s < 0 then -1 else if s = 0 then 0 else 1
  | _, _ => 0

/-- Comparisons with a NaN operand are false, except not-equal (R42). -/
def Val.lt (a b : Val) : Bool := !a.isNan && !b.isNan && a.cmp b == -1
def Val.le (a b : Val) : Bool := !a.isNan && !b.isNan && !(a.cmp b == 1)
def Val.eq (a b : Val) : Bool := !a.isNan && !b.isNan && a.cmp b == 0

def Val.abs : Val → Val
  | .nan _ => .nan false | .inf _ => .inf false | .fin _ m e => .fin false m e

/-- max of R42. -/
def Val.max (a b : Val) : Val :=
  if a.isNan || b.isNan then .nan false
  else if a.isZero && b.isZero then .fin (a.sign && b.sign) 0 0
  else if a.cmp b == -1 then b else a

/-- min of R42. -/
def Val.min (a b : Val) : Val :=
  if a.isNan || b.isNan then .nan false
  else if a.isZero && b.isZero then .fin (a.sign || b.sign) 0 0
  else if a.cmp b == 1 then b else a

/-! ## Rounding to a floating format -/

/-- The quotient by 2^s rounded to nearest, ties to even or away from zero. -/
def roundShift (away : Bool) (m s : Nat) : Nat :=
  if s = 0 then m
  else if m.log2 + 2 ≤ s then 0
  else
    let q := m >>> s
    let r := m % 2 ^ s
    let half := 2 ^ (s - 1)
    if half < r || (r == half && (away || q % 2 == 1)) then q + 1 else q

/-- The magnitude code nearest to m·2^e, as if the exponent field had no end (R37, R38). -/
def Layout.roundMag (l : Layout) (away : Bool) (m : Nat) (e : Int) : Nat :=
  if m = 0 then 0
  else
    let emin : Int := 1 - (l.bias : Int)
    let q : Int := (if (Nat.log2 m : Int) + e < emin then emin else (Nat.log2 m : Int) + e) - l.mbits
    let c := if q ≤ e then m <<< (e - q).toNat else roundShift away m (q - e).toNat
    c + (q - (emin - l.mbits)).toNat * 2 ^ l.mbits

/-- The sign bit set in a code. -/
def Layout.withSign (l : Layout) (neg : Bool) (c : Nat) : Nat := if neg then c + 2 ^ (l.ebits + l.mbits) else c

/-- The canonical NaN's magnitude code (R27). -/
def Layout.nanCode (l : Layout) : Nat := l.infCode + 2 ^ (l.mbits - 1)

/-- Conversion into FP32, BF16 or FP16: ties to even, overflow to infinity (R37, R43). -/
def Layout.encode (l : Layout) (v : Val) : Nat :=
  match v with
  | .nan n => l.withSign n l.nanCode
  | .inf n => l.withSign n l.infCode
  | .fin n m e => l.withSign n (min (l.roundMag false m e) l.infCode)

/-- The FP32 code of an exact value rounded once (R37). -/
def toF32 (v : Val) : Word := BitVec.ofNat 32 (Layout.fp32.encode v)

/-- The value of an FP32 code. -/
def ofF32 (w : Word) : Val := Layout.fp32.decode w.toNat

/-! ## Narrowing -/

/-- m·2^e ≥ n. -/
def atLeast (m : Nat) (e : Int) (n : Nat) : Bool :=
  if 0 ≤ e then decide (n ≤ m <<< e.toNat) else decide (n <<< (-e).toNat ≤ m)

/-- The index of the level, in units of 2^-den, nearest to m·2^e, ties to the larger (R38, R39). -/
def nearestLevel (levels : List Nat) (den : Int) (m : Nat) (e : Int) : Nat :=
  ((levels.zip levels.tail).filter fun p => atLeast m (e + den + 1) (p.1 + p.2)).length

/-- The nearest integer to m·2^e, ties away from zero. -/
def roundInt (m : Nat) (e : Int) : Nat := if 0 ≤ e then m <<< e.toNat else roundShift true m (-e).toNat

/-- Two's complement code of a saturated integer of `n` bits (R40). -/
def saturate (n : Nat) (neg : Bool) (mag : Nat) : Nat :=
  if neg then (if mag = 0 then 0 else 2 ^ n - min mag (2 ^ (n - 1))) else min mag (2 ^ (n - 1) - 1)

/-- The magnitude of the largest finite element and its code (R40). -/
def Fmt.maxCode : Fmt → Nat
  | .e4m3 => 0x7E | .e5m2 => 0x7B | .fp4 => 7 | .bg4 => 7 | .bg6 => 31 | .int8 => 127 | .int32 => 2 ^ 31 - 1
  | .fp32 => 0x7F7FFFFF | .bf16 => 0x7F7F | .fp16 => 0x7BFF

/-- The largest finite magnitude with a sign (R40, R43). -/
def Fmt.saturated (f : Fmt) (neg : Bool) : Nat :=
  match f with
  | .int8 => if neg then 0x80 else 0x7F
  | .int32 => if neg then 2 ^ 31 else 2 ^ 31 - 1
  | f => if neg then f.maxCode + 2 ^ (f.bits - 1) else f.maxCode

/-- Conversion of an exact value, already divided by its block's scale, to any format: R37 for the wide floating formats,
R38 to R40 and R43 for the others. -/
def Fmt.encode (f : Fmt) (v : Val) : Nat :=
  match f with
  | .fp32 => Layout.fp32.encode v
  | .bf16 => Layout.bf16.encode v
  | .fp16 => Layout.fp16.encode v
  | .e4m3 => match v with
    | .nan n => Layout.e4m3.withSign n 0x7F
    | .inf n => f.saturated n
    | .fin n m e => Layout.e4m3.withSign n (min (Layout.e4m3.roundMag true m e) 0x7E)
  | .e5m2 => match v with
    | .nan n => Layout.e5m2.withSign n 0x7E
    | .inf n => Layout.e5m2.withSign n 0x7C
    | .fin n m e => Layout.e5m2.withSign n (min (Layout.e5m2.roundMag true m e) 0x7B)
  | .fp4 => match v with
    | .nan n | .inf n => f.saturated n
    | .fin n m e => Layout.fp4.withSign n (min (Layout.fp4.roundMag true m e) 7)
  | .bg4 => match v with
    | .nan n | .inf n => f.saturated n
    | .fin n m e =>
      let i := nearestLevel bg4Levels 7 m e
      if n && !(i == 0) then i + 8 else i
  | .bg6 => match v with
    | .nan n | .inf n => f.saturated n
    | .fin n m e =>
      let i := nearestLevel bg6Levels 10 m e
      if n && !(i == 0) then i + 32 else i
  | .int8 => match v with
    | .nan n | .inf n => f.saturated n
    | .fin n m e => saturate 8 n (roundInt m e)
  | .int32 => match v with
    | .nan n | .inf n => f.saturated n
    | .fin n m e => saturate 32 n (roundInt m e)

/-- Whether a conversion of this value counts in `NAN_NARROW` (R43). -/
def Fmt.countsNan (f : Fmt) (v : Val) : Bool :=
  match f with
  | .fp4 | .bg6 | .bg4 | .int8 | .int32 => v.isNan
  | _ => false

/-! ## Block scales -/

/-- The grid maximum G of a format (R36). -/
def Fmt.gridMax : Fmt → Nat
  | .fp4 => 6 | .e4m3 => 448 | .e5m2 => 57344 | .int8 => 127 | _ => 1

/-- The larger of two magnitudes, NaN left out (R36). -/
def amaxOf (a v : Val) : Val := if v.isNan then a else if a.cmp v.abs == -1 then v.abs else a

/-- The largest magnitude of a block, none left out but NaN (R36). -/
def amax (vs : List Val) : Val := vs.foldl amaxOf Val.zero

/-- The smallest e with 2^e·G ≥ m·2^x, for m > 0 (R36). -/
def scaleExp (G m : Nat) (x : Int) : Int :=
  let e0 : Int := (Nat.log2 m : Int) - Nat.log2 G - 1
  let ok (e : Int) : Bool := if 0 ≤ e then decide (m ≤ G <<< e.toNat) else decide (m <<< (-e).toNat ≤ G)
  (if ok e0 then e0 else if ok (e0 + 1) then e0 + 1 else e0 + 2) + x

/-- The scale byte for a largest magnitude (R36). -/
def Fmt.scaleByte (f : Fmt) (a : Val) : Nat :=
  match a with
  | .inf _ => 0xFE
  | .fin _ m x => if m = 0 then 0 else min ((scaleExp f.gridMax m x + 127).toNat) 0xFE
  | .nan _ => 0

/-- An element narrowed under a scale byte (R38). -/
def Fmt.narrow (f : Fmt) (E : Nat) (v : Val) : Nat := f.encode (v.scaleBy (127 - (E : Int)))

/-! ## FP32 operations -/

def f32Add (a b : Word) : Word := toF32 ((ofF32 a).add (ofF32 b))
def f32Sub (a b : Word) : Word := toF32 ((ofF32 a).sub (ofF32 b))
def f32Mul (a b : Word) : Word := toF32 ((ofF32 a).mul (ofF32 b))

/-- a·b + c rounded once (R37). -/
def f32Fma (a b c : Word) : Word := toF32 (((ofF32 a).mul (ofF32 b)).add (ofF32 c))
def f32Max (a b : Word) : Word := toF32 ((ofF32 a).max (ofF32 b))
def f32Min (a b : Word) : Word := toF32 ((ofF32 a).min (ofF32 b))

/-- The INT32 value of a word. -/
def i32 (w : Word) : Int := w.toInt

/-- An INT32 value converted to FP32, rounded once. -/
def f32OfInt (w : Word) : Word := toF32 (Fmt.int32.decode w.toNat)

/-- The group sum of R45: exact, rounded once, +0 when exactly zero. -/
def groupSum (products : List Val) : Val :=
  let s := products.foldl Val.add Val.zero
  if s.isZero then Val.zero else s

/-! ## Elements in memory -/

/-- The code of element `i` of a packed row that begins at a byte address (R30). -/
def Memory.readElem (m : Memory) (base : Nat) (f : Fmt) (i : Nat) : Nat :=
  if f.bits % 8 = 0 then m.readNat (base + i * (f.bits / 8)) (f.bits / 8)
  else (m.readNat (base + f.bits * i / 8) 2 >>> (f.bits * i % 8)) % 2 ^ f.bits

/-- A code written in its place in a packed row (R30). -/
def Memory.writeElem (m : Memory) (base : Nat) (f : Fmt) (i c : Nat) : Memory :=
  if f.bits % 8 = 0 then m.writeBytes (base + i * (f.bits / 8)) (leBytes (f.bits / 8) c)
  else
    let a := base + f.bits * i / 8
    let sh := f.bits * i % 8
    let n := if sh + f.bits ≤ 8 then 1 else 2
    let old := m.readNat a n
    m.writeBytes a (leBytes n (old - ((old >>> sh) % 2 ^ f.bits) <<< sh + (c % 2 ^ f.bits) <<< sh))

/-- Codes written from element `i` of a packed row on. -/
def Memory.writeElems (m : Memory) (base : Nat) (f : Fmt) : Nat → List Nat → Memory
  | _, [] => m
  | i, c :: cs => Memory.writeElems (m.writeElem base f i c) base f (i + 1) cs

/-- Codes written from element `i` of a row of `n` elements, its last group padded with zero codes when the run reaches
the row's end (R31). -/
def Memory.writeRow (m : Memory) (base : Nat) (f : Fmt) (n i : Nat) (cs : List Nat) : Memory :=
  let m' := m.writeElems base f i cs
  if i + cs.length = n then m'.writeElems base f n (List.replicate (ceilDiv n f.group * f.group - n) 0) else m'

end Sys2Proof.Machine
end

