-- ==== Sys2Proof/Machine/Chime.lean ====
section
/-! DEFINITION. Chime tables: the header, the built-in headers and digests, and the evaluation (R185 to R188). -/
namespace Sys2Proof.Machine

/-- The header of a chime table image (R185), `wLog2` signed. -/
structure ChimeHeader where
  red : Nat
  mode : Nat
  expBase : Nat
  wLog2 : Int
  lo : Word
  kc : Word
  lowC0 : Word
  lowC1 : Word
  highC0 : Word
  highC1 : Word
  yPosInf : Word
  yNegInf : Word
  deriving DecidableEq, Repr

/-- Some FP32 codes. -/
def fOne : Word := 0x3F800000#32
def fHalf : Word := 0x3F000000#32
def fInf : Word := 0x7F800000#32
def fNegInf : Word := 0xFF800000#32
def fNan : Word := 0x7FC00000#32
def fNegZero : Word := 0x80000000#32

/-- A uniform built-in header: reduction, lower bound, log2 of the width, results for the infinities. -/
def uniformHeader (red : Nat) (lo : Word) (wLog2 : Int) (yp yn : Word) : ChimeHeader :=
  { red := red, mode := 1, expBase := 0, wLog2 := wLog2, lo := lo, kc := 0, lowC0 := 0, lowC1 := 0, highC0 := 0,
    highC1 := 0, yPosInf := yp, yNegInf := yn }

/-- A range built-in header. -/
def rangeHeader (red expBase : Nat) (kc l0 l1 h0 h1 yp yn : Word) : ChimeHeader :=
  { red := red, mode := 0, expBase := expBase, wLog2 := 0, lo := 0, kc := kc, lowC0 := l0, lowC1 := l1, highC0 := h0,
    highC1 := h1, yPosInf := yp, yNegInf := yn }

/-- The headers of the built-in tables 0x01 to 0x0C (R188). -/
def builtinHeader : Nat → ChimeHeader
  | 0x01 => uniformHeader 4 0 (-9) fInf 0
  | 0x02 => uniformHeader 5 fOne (-9) fInf fNan
  | 0x03 => uniformHeader 6 fOne (-9) 0 fNegZero
  | 0x04 => uniformHeader 7 0 (-7) 0 fNan
  | 0x05 => rangeHeader 2 103 fOne fHalf 0x3E800000#32 fOne 0 fOne 0
  | 0x06 => rangeHeader 1 100 0 0 fOne fOne 0 fOne 0xBF800000#32
  | 0x07 => rangeHeader 3 100 0 0 fHalf 0 fOne fInf 0
  | 0x08 => rangeHeader 3 104 0 0 fHalf 0 fOne fInf 0
  | 0x09 => uniformHeader 8 0 (-8) fNan fNan
  | 0x0A => uniformHeader 8 0 (-8) fNan fNan
  | 0x0B => uniformHeader 9 0 (-9) fInf fNegInf
  | _ => rangeHeader 3 104 0 0x3F317218#32 fHalf 0 fOne fInf 0

/-- A digest written as the table of R188 writes it: its first byte is its byte 0. -/
def digestOf (hex : Nat) : Digest :=
  BitVec.ofNat 512 (ofLe ((leBytes 64 hex).reverse))

/-- The digests of the built-in tables (R188). -/
def builtinDigest : Nat → Digest
  | 0x01 => digestOf 0x7C1E0A943B5FD2E8A06C7713E9D4B82551F03A6EC28D9B1704A6E35F9DB21C806E4F08D3B7A1952C3DC86E04F2195AB78A03C6D15EB47F29C6D0213A19E8F4B6
  | 0x02 => digestOf 0x2F8B61D094C3E57A0B7D2F48E61A93C5D85F4B027A39C1E6B04E86D935F27A1CC9A0145E6D83B2F71E57C09A8B2D6E43F4C91A0752E0B8D6A36F7C190D4B25E8
  | 0x03 => digestOf 0xE45A9C031B7F6D28C8032AE95D94B17F06E2C85A9F3B41D672A8E05CB16D9F344C0B7E92E8A53D163F91C6B0A2D7084E59C4F31B86E02A7DD13B95C86A0F4E27
  | 0x04 => digestOf 0x93D2B70E4AF61C850E8C35B9C7249AD16B53E0F72D19A84CF8E6723B15A0CD96A74B1E603E92D5C8C0576BA38F1E24D95BA3F06CE26D819F0C48B7E271F5C3A4
  | 0x05 => digestOf 0x5E07A3C9B28D416F1C9F6E02D5B3087A8A416CE547F2D91BE01C5A389B6E83F426D4B0C7F3A8175E6C05E2B9A91F4D300B7C96E8D4E23A513F8B0C6D82A7F91E
  | 0x06 => digestOf 0xA1C46F3B07E9D2586F2B8A14C38E05D91D72B6A0E4593FC88B06D17E52CA94B3F90E3A6D3B6714C2D48FA05E76C1E92B0AD35F87B5E8206C4F1A7DB9E0739C45
  | 0x07 => digestOf 0x3D84E1A6C65B0F927A1E3D4C08F9B6E5E23CA8715B9D04F39F40E62A14C7B8D0B86E2F154DA19C7B01F3D56EC92A74806E5B13FDA8C0E92727D64A3CF51B8E09
  | 0x08 => digestOf 0xC0F2861D5A39E4B7E817C03A94DB2F653C6E1A98AF0485D216B9F74ED253A0C17E8C4B360B1FD9A5F96A2E074327B58C8DE0631F29F4CA7BB54108E66ACF3D92
  | 0x09 => digestOf 0x14B8E27D8F3C06A9D26E9B415A07F3C8B9E124D661F8A03B03C5D79EE72A4B154A90EC63C15D372F7EB3089A28F61DC49C4AB750F0D7E21B351E8CA6AB6934F0
  | 0x0A => digestOf 0x6B2FD047E1A85C9339C07E1B8D64A2F5F4193BC60AE7D528C75B48E12E90F36D914AC70B5FD21E84E3086B9A16AC5D3FB87F02E47C35A9D10591E6B8D2E84C17
  | 0x0B => digestOf 0x8E53A91C24D70F6BF93C2E8561AB4D07C5F89E323A1E07D9AD64B5F00F7C1A8E72D5E943B83A6C1F4E0F98B2D96127A51BC4F03E654E8AD7E0A9351797F26C4B
  | _ => digestOf 0xF7A10E5C3C8D94B10596F2AEB4E27C386ED1538F921CA0E4D83F6B274B07E59A2AF4C816E169D0737D52B3EC08B4E16FC3A87F29561D4CB0AF0E369219D7A5E8

/-- IDs of built-in tables and of user tables. -/
def isBuiltinTable (id : Nat) : Bool := decide (1 ≤ id) && decide (id ≤ 0x0C)
def isUserTable (id : Nat) : Bool := decide (0x80 ≤ id) && decide (id ≤ 0xFF)

/-- A built-in image. -/
def builtinImage (id : Nat) : TableImage := { id := id, bytes := [], digest := builtinDigest id }

/-- The 32-bit word at a byte of an image. -/
def wordIn (bs : List Byte) (ofs : Nat) : Word := BitVec.ofNat 32 (ofLe ((bs.drop ofs).take 4))
def byteIn (bs : List Byte) (ofs : Nat) : Nat := (bs.getD ofs 0).toNat

/-- The header of an image. -/
def TableImage.header (t : TableImage) : ChimeHeader :=
  if isBuiltinTable t.id then builtinHeader t.id
  else
    { red := byteIn t.bytes 1, mode := byteIn t.bytes 2, expBase := byteIn t.bytes 3,
      wLog2 := signedOf 8 (byteIn t.bytes 4), lo := wordIn t.bytes 8, kc := wordIn t.bytes 12,
      lowC0 := wordIn t.bytes 16, lowC1 := wordIn t.bytes 20, highC0 := wordIn t.bytes 24, highC1 := wordIn t.bytes 28,
      yPosInf := wordIn t.bytes 32, yNegInf := wordIn t.bytes 36 }

/-- Coefficient `k` of segment `seg` (R185). -/
def TableImage.coef (t : TableImage) (seg k : Nat) : Word :=
  if isBuiltinTable t.id then Config.builtinCoef t.id seg k else wordIn t.bytes (64 + 12 * seg + 4 * k)

/-- floor of a finite value. -/
def floorVal : Val → Int
  | .fin n m e =>
    let v : Int := if n then -(m : Int) else m
    if 0 ≤ e then v * (2 ^ e.toNat : Nat) else v / (2 ^ (-e).toNat : Nat)
  | _ => 0

/-- An integer as a value. -/
def intVal (i : Int) : Val := .fin (decide (i < 0)) i.natAbs 0

/-- The exponent e with |x| = m·2^e, m in [1, 2), of a finite value that is not zero. -/
def exponentOf : Val → Int
  | .fin _ m e => Nat.log2 m + e
  | _ => 0

/-- The sign bit of an FP32 code, and the code with it flipped. -/
def f32Sign (w : Word) : Bool := w.getLsbD 31
def f32Neg (w : Word) : Word := w ^^^ 0x80000000#32
def f32Abs (w : Word) : Word := w &&& 0x7FFFFFFF#32

/-- A reduced argument, or a direct result (R187). -/
inductive Reduced where
  | arg (r : Word)
  | direct (y : Word)
  deriving DecidableEq, Repr

/-- floor of the argument of reduction 4, after its rounding (R187). -/
def exp2Parts (x : Word) : Word × Int :=
  let i := floorVal (ofF32 x)
  let f := toF32 ((ofF32 x).sub (intVal i))
  if f = fOne then (0, i + 1) else (f, i)

/-- The reductions (R187) of a finite x. -/
def chimeReduce (red mode : Nat) (x : Word) : Reduced :=
  let v := ofF32 x
  let neg := f32Sign x
  match red with
  | 0 => .arg (if mode = 0 then f32Abs x else x)
  | 1 | 2 | 3 => .arg (f32Abs x)
  | 4 => .arg (exp2Parts x).1
  | 5 => if v.isZero then .direct fNegInf else if neg then .direct fNan else .arg (toF32 (v.scaleBy (-exponentOf v)))
  | 6 => if v.isZero then .direct (if neg then fNegInf else fInf) else .arg (toF32 (v.abs.scaleBy (-exponentOf v)))
  | 7 =>
    if v.isZero then .direct (if neg then fNegInf else fInf) else if neg then .direct fNan
    else .arg (toF32 (v.scaleBy (exponentOf v % 2 - exponentOf v)))
  | 8 =>
    let f := toF32 (v.sub (intVal (2 * floorVal (v.scaleBy (-1)))))
    .arg (if f = 0x40000000#32 then 0 else f)
  | _ => if v.le Val.zero then .direct fNegInf else if (ofF32 fOne).le v then .direct fInf else .arg x

/-- The result from the polynomial's value (R187). -/
def chimePost (h : ChimeHeader) (x r p : Word) : Word :=
  let v := ofF32 x
  let neg := f32Sign x
  match h.red with
  | 1 => if neg then f32Neg p else p
  | 2 => if neg then f32Sub h.kc p else p
  | 3 => if neg then f32Sub p r else p
  | 4 => toF32 ((ofF32 p).scaleBy (exp2Parts x).2)
  | 5 => toF32 ((intVal (exponentOf v)).add (ofF32 p))
  | 6 => let y := toF32 ((ofF32 p).scaleBy (-exponentOf v)); if neg then f32Neg y else y
  | 7 => toF32 ((ofF32 p).scaleBy (-(exponentOf v / 2)))
  | _ => p

/-- The built-in exp2 and recip images yield exactly 1.0 where their first segment begins, at 0 and at 1.0 (R219). -/
def oneAtOrigin (id : Nat) : Bool := id == 0x01 || id == 0x03

/-- The polynomial of segment `s`. -/
def TableImage.poly (t : TableImage) (s : Nat) (d : Word) : Word :=
  if oneAtOrigin t.id && s == 0 && (ofF32 d).isZero then fOne
  else f32Fma d (f32Fma d (t.coef s 2) (t.coef s 1)) (t.coef s 0)

/-- Indexing and the two fused multiply-adds (R186). -/
def TableImage.lookup (t : TableImage) (h : ChimeHeader) (r : Word) : Word :=
  let low := f32Fma h.lowC1 r h.lowC0
  let high := f32Fma h.highC1 r h.highC0
  if h.mode = 0 then
    let ex := (r.toNat / 2 ^ 23) % 256
    if ex < h.expBase then low
    else if 31 < ex - h.expBase then high
    else
      let s := 16 * (ex - h.expBase) + (r.toNat / 2 ^ 19) % 16
      t.poly s (f32Sub r (BitVec.ofNat 32 (r.toNat / 2 ^ 19 * 2 ^ 19)))
  else
    let lo := ofF32 h.lo
    let v := ofF32 r
    let hi := lo.add (.fin false 512 h.wLog2)
    if v.lt lo then low
    else if hi.le v then high
    else
      let s := (floorVal ((v.sub lo).scaleBy (-h.wLog2))).toNat
      t.poly s (toF32 (v.sub (lo.add (.fin false s h.wLog2))))

/-- chime(table, x) (R186). -/
def TableImage.eval (t : TableImage) (x : Word) : Word :=
  let h := t.header
  match ofF32 x with
  | .nan _ => fNan
  | .inf false => h.yPosInf
  | .inf true => h.yNegInf
  | _ =>
    match chimeReduce h.red h.mode x with
    | .direct y => y
    | .arg r => chimePost h x r (t.lookup h r)

/-- chime(ID, x) with the banks in force: a built-in ID uses its built-in image; an ID that no slot holds, which no
loaded score names (R145, R191), yields a free value. -/
def chime (tables : List TableSlot) (id : Nat) (x : Word) : Word :=
  if isBuiltinTable id then (builtinImage id).eval x
  else
    match (tables.filterMap (·.cur)).find? (·.id == id) with
    | some t => t.eval x
    | none => Config.freeWord (id * 2 ^ 32 + x.toNat)

end Sys2Proof.Machine
end

