-- ==== Sys2Proof/Machine/Score.lean ====
section
/-! DEFINITION. Reading a score image where it lies in attached memory: header, entries, layouts, cue map, buffers, affine
entries, descriptors and staves (R55 to R61, R65, R73, R81, R84 to R88). `m` is the device memory, `a` the image's
address. -/
namespace Sys2Proof.Machine

/-! ## Header (R55) -/

def scBarCount (m : Memory) (a : Nat) : Nat := m.readNat (a + 8) 4
def scDescCount (m : Memory) (a : Nat) : Nat := m.readNat (a + 12) 4
def scAffineCount (m : Memory) (a : Nat) : Nat := m.readNat (a + 16) 4
def scBufferCount (m : Memory) (a : Nat) : Nat := m.readNat (a + 20) 2
def scEntryCount (m : Memory) (a : Nat) : Nat := m.readNat (a + 22) 1
def scLayoutCount (m : Memory) (a : Nat) : Nat := m.readNat (a + 23) 1
def scGroupCount (m : Memory) (a : Nat) : Nat := m.readNat (a + 24) 1
def scEntryOfs (m : Memory) (a : Nat) : Nat := m.readNat (a + 32) 8
def scLayoutOfs (m : Memory) (a : Nat) : Nat := m.readNat (a + 40) 8
def scCuemapOfs (m : Memory) (a : Nat) : Nat := m.readNat (a + 48) 8
def scBufferOfs (m : Memory) (a : Nat) : Nat := m.readNat (a + 56) 8
def scGroupOfs (m : Memory) (a : Nat) : Nat := m.readNat (a + 64) 8
def scResidentOfs (m : Memory) (a : Nat) : Nat := m.readNat (a + 72) 8
def scAffineOfs (m : Memory) (a : Nat) : Nat := m.readNat (a + 80) 8
def scDescOfs (m : Memory) (a : Nat) : Nat := m.readNat (a + 88) 8
def scBodyOfs (m : Memory) (a : Nat) : Nat := m.readNat (a + 96) 8
def scImageSize (m : Memory) (a : Nat) : Nat := m.readNat (a + 104) 8

/-! ## Entries, resident declaration, groups (R56 to R58) -/

def scFirstBar (m : Memory) (a e : Nat) : Nat := m.readNat (a + scEntryOfs m a + 32 * e + 16) 4
def scParamBytes (m : Memory) (a e : Nat) : Nat := m.readNat (a + scEntryOfs m a + 32 * e + 20) 2

/-- The declared resident digest (R57). -/
def scResidentDigest (m : Memory) (a : Nat) : Digest :=
  BitVec.ofNat 512 (m.readNat (a + scResidentOfs m a) 64)

/-- The declared boundary of a core, in units of 64 KiB (R57). -/
def scBoundary (m : Memory) (a c : Nat) : Nat := m.readNat (a + scResidentOfs m a + 64 + 2 * c) 2

/-- The group tags the score references (R58). -/
def scGroups (m : Memory) (a : Nat) : List Nat :=
  (List.range (scGroupCount m a)).map fun i => m.readNat (a + scGroupOfs m a + 8 * i) 4

/-! ## Layouts and core ranks (R4, R9, R73) -/

/-- The cores that the GRX-240S has disabled by fuse (R4). -/
def fusedOff240 : List Nat := [0, 1, 6, 7, 8, 9, 14, 15, 240, 241, 246, 247, 248, 249, 254, 255]

/-- Whether a core is enabled (R2, R4). -/
def coreEnabled (v : Variant) (c : Nat) : Bool :=
  match v with
  | .grx256F => decide (c < 256)
  | .grx240S => decide (c < 256) && !(fusedOff240.contains c)

/-- The enabled cores in ascending number. -/
def enabledCores (v : Variant) : List Nat := (List.range 256).filter (coreEnabled v)

/-- The 256-bit mask of section `sec` of layout `x` (R73). -/
def scSection (m : Memory) (a x sec : Nat) : Nat := m.readNat (a + scLayoutOfs m a + 128 * x + 32 * sec) 32

/-- The enabled cores of a section in ascending core number. -/
def sectionCores (v : Variant) (mask : Nat) : List Nat := (enabledCores v).filter fun c => natBit mask c

/-- The section of a layout that a core lies in. -/
def sectionOf (m : Memory) (a x c : Nat) : Option Nat := (List.range 4).find? fun sec => natBit (scSection m a x sec) c

/-- The enabled cores of some section of a layout (R89). -/
def layoutCores (v : Variant) (m : Memory) (a x : Nat) : List Nat :=
  (enabledCores v).filter fun c => (List.range 4).any fun sec => natBit (scSection m a x sec) c

/-- A core's rank within a section (R9). -/
def rankOf (v : Variant) (mask c : Nat) : Nat := ((sectionCores v mask).filter fun k => decide (k < c)).length

/-! ## Staves (R59, R61, R65) -/

/-- The 64-bit word of a stave in a bar. -/
def scStave (m : Memory) (a bar stave : Nat) : Nat :=
  m.readNat (a + scBodyOfs m a + bar / 32 * 4096 + stave * 256 + bar % 32 * 8) 8

/-- A stroke (R61). -/
structure StrokeWord where
  op : Nat
  wait : Nat
  signal : Nat
  desc : Nat
  imm : Nat
  deriving DecidableEq, Repr

def StrokeWord.ofWord (w : Nat) : StrokeWord :=
  { op := w / 2 ^ 56 % 256, wait := w / 2 ^ 48 % 256, signal := w / 2 ^ 40 % 256, desc := w / 2 ^ 24 % 65536,
    imm := w % 2 ^ 24 }

/-- A control stroke (R65). -/
structure CtlWord where
  op : Nat
  level : Nat
  mask : Nat
  countSrc : Bool
  scalar : Nat
  imm : Nat
  deriving DecidableEq, Repr

def CtlWord.ofWord (w : Nat) : CtlWord :=
  { op := w / 2 ^ 56 % 256, level := w / 2 ^ 48 % 4, mask := w / 2 ^ 40 % 16, countSrc := w.testBit 39,
    scalar := w / 2 ^ 24 % 32, imm := w % 2 ^ 24 }

def scCtl (m : Memory) (a bar : Nat) : CtlWord := CtlWord.ofWord (scStave m a bar 0)

/-- The bar of the next LOOP_END at a level, from a bar on (R69). -/
def scLoopEnd (m : Memory) (a level : Nat) : Nat → Nat → Option Nat
  | 0, _ => none
  | n + 1, bar =>
    let c := scCtl m a bar
    if c.op == 3 && c.level == level then some bar else scLoopEnd m a level n (bar + 1)

/-! ## Cue map (R81) -/

/-- A cue map entry. -/
structure CueEntry where
  staveB : Nat
  cueB : Nat
  validB : Bool
  staveA : Nat
  cueA : Nat
  validA : Bool
  sections : Nat
  deriving DecidableEq, Repr

def CueEntry.ofWord (w : Nat) : CueEntry :=
  { staveB := w / 2 ^ 28 % 16, cueB := w / 2 ^ 25 % 8, validB := w.testBit 24, staveA := w / 2 ^ 20 % 16,
    cueA := w / 2 ^ 17 % 8, validA := w.testBit 16, sections := w / 2 ^ 12 % 16 }

def scCueEntry (m : Memory) (a i : Nat) : CueEntry := CueEntry.ofWord (m.readNat (a + scCuemapOfs m a + 4 * i) 4)

/-! ## Buffers (R85) -/

/-- A buffer-table entry. -/
structure BufEntry where
  kind : Nat
  flags : Nat
  scalar : Nat
  base : Nat
  size : Nat
  deriving DecidableEq, Repr

def scBuffer (m : Memory) (a i : Nat) : BufEntry :=
  let e := a + scBufferOfs m a + 32 * i
  { kind := m.readNat e 1, flags := m.readNat (e + 1) 1, scalar := m.readNat (e + 2) 1, base := m.readNat (e + 8) 8,
    size := m.readNat (e + 16) 8 }

/-- The first address of a core's scratch in the device address map (R263). -/
def scratchBase (c : Nat) : Nat := 0x020000000000 + c * 0x800000

/-- Job scalar `i` of a parameter block (R86). -/
def jobScalar (params : List Byte) (i : Nat) : Nat := ofLe ((params.drop (8 * i)).take 8)

/-! ## Firing context, affine fields, descriptors (R84, R87, R88) -/

/-- What a stroke's fields depend on when it fires (R88). -/
structure Fire where
  score : Nat
  core : Nat
  rank : Nat
  loops : List Nat
  params : List Byte
  deriving DecidableEq, Repr

/-- The value of a field under an affine entry at an address (R88), its stored value given. -/
def affineValue (m : Memory) (e : Nat) (loops : List Nat) (rank : Nat) (params : List Byte) (stored : Nat) : Int :=
  let c (o : Nat) : Int := signedOf 32 (m.readNat (e + o) 4)
  let sc := m.readNat (e + 3) 1
  (stored : Int) + c 4 * loops.getD 0 0 + c 8 * loops.getD 1 0 + c 12 * loops.getD 2 0 + c 16 * loops.getD 3 0
    + c 20 * rank + (if sc = 0xFF then 0 else c 24 * signedOf 64 (jobScalar params sc))

/-- Bits `hi` to `lo` of a descriptor. -/
def fld (d : Desc) (hi lo : Nat) : Nat := bitField d lo (hi + 1 - lo)

/-- A stored descriptor (R84). -/
def scStoredDesc (m : Memory) (a i : Nat) : Desc := BitVec.ofNat 512 (m.readNat (a + scDescOfs m a + 64 * i) 64)

/-- A descriptor with one affine entry applied (R88). -/
def applyAffine (m : Memory) (f : Fire) (d : Desc) (e : Nat) : Desc :=
  let lsb := m.readNat e 2
  let w := m.readNat (e + 2) 1
  setField d lsb w (unsignedOf w (affineValue m e f.loops f.rank f.params (bitField d lsb w)))

/-- Descriptor `i` as a firing sees it (R88). -/
def descOf (m : Memory) (f : Fire) (i : Nat) : Desc :=
  let d := scStoredDesc m f.score i
  (List.range (fld d 52 48)).foldl
    (fun acc k => applyAffine m f acc (f.score + scAffineOfs m f.score + 32 * (fld d 47 32 + k))) d

/-- The address of an offset in a buffer, on the firing's own core for kinds 0 and 1 (R85). -/
def bufAddr (m : Memory) (f : Fire) (buf ofs : Nat) : Nat :=
  let b := scBuffer m f.score buf
  match b.kind with
  | 0 | 1 => scratchBase f.core + b.base + ofs
  | 2 => b.base + ofs
  | _ => jobScalar f.params b.scalar + b.base + ofs

end Sys2Proof.Machine
end

