-- ==== Sys2Proof/Machine/Flags.lean ====
section
/-! DEFINITION. Status codes, interrupt causes and the error log (R386, R387, R528, R529, R532): the flags of the block. -/
namespace Sys2Proof.Machine

/-- The code of a status (R532). -/
def Status.code : Status → Nat
  | .ok => 0x0000 | .busy => 0x0001 | .invalid => 0x0002 | .noResource => 0x0003 | .verify => 0x0004 | .auth => 0x0005
  | .state => 0x0006 | .consistency => 0x0007 | .inventory => 0x0008 | .collTimeout => 0x0010 | .collAborted => 0x0011
  | .groupMismatch => 0x0012 | .cueOverflow => 0x0013 | .parity => 0x0020 | .memUncorrectable => 0x0021
  | .channelRetired => 0x0022 | .struck => 0x0030 | .thermal => 0x0040 | .power => 0x0041 | .codecStream => 0x0050

/-- The code of a firmware state (R384). -/
def FwState.code : FwState → Nat
  | .rom => 0 | .awaitImage => 1 | .verifying => 2 | .init => 3 | .ready => 4 | .bare => 5 | .updating => 6 | .failed => 7

/-- The code of a channel state (R278). -/
def ChanState.code : ChanState → Nat
  | .absent => 0 | .active => 1 | .maintenance => 2 | .retired => 3

/-- The code of a heat state (R282). -/
def Heat.code : Heat → Nat
  | .normal => 0 | .high => 1 | .suspended => 2

/-- A function, by number. -/
def State.func (s : State) (fn : Nat) : Func := s.funcs.getD fn (Func.reset false)

/-- One function changed. -/
def State.updFunc (s : State) (fn : Nat) (f : Func → Func) : State := { s with funcs := updAt s.funcs fn f }

/-- A write of the host reaches a function: the link is up and the function is enabled (R377, R484). -/
def reaches (s : State) (fn : Nat) : Bool := (s.func fn).enabled && s.pcie.up

/-- Something leaves the device. -/
def State.emit (s : State) (o : Out) : State := { s with out := s.out ++ [o] }

/-- A message of a vector leaves; a vector masked in the MSI-X table keeps it pending (R386). -/
def sendMsix (fn bit : Nat) (s : State) : State :=
  if bitAt (s.func fn).vectorMask bit then
    s.updFunc fn fun g => { g with vectorPending := g.vectorPending ||| BitVec.ofNat 16 (2 ^ bit) }
  else s.emit (.msix fn bit)

/-- Setting a cause: the bit becomes 1, and a message leaves when it was 0 and its mask bit is 0 (R386, R387). -/
def raiseIrq (fn bit : Nat) (s : State) : State :=
  let f := s.func fn
  if !f.enabled then s
  else
    let s' := s.updFunc fn fun g => { g with irqStatus := g.irqStatus ||| BitVec.ofNat 11 (2 ^ bit) }
    if !bitAt f.irqStatus bit && !bitAt f.irqMask bit then sendMsix fn bit s' else s'

/-- Setting a cause on every function of a list. -/
def raiseIrqs (fns : List Nat) (bit : Nat) (s : State) : State := fns.foldl (fun acc fn => raiseIrq fn bit acc) s

/-- The functions that may read an entry of the log (R529). -/
def logReaders (fn : Nat) : List Nat := if fn = 0xFF then List.range 32 else if fn = 0 then [0] else [0, fn]

/-- An entry of the error log: the oldest is overwritten when 4,096 are held (R528), and bit 10 rises on every function
that may read the entry (R529). Amior keeps the log: once the firmware has stopped nothing enters it (R523). -/
def logError (source severity : Nat) (st : Status) (fn stave place detail : Nat) (s : State) : State :=
  if s.fw.state = .failed then s
  else
  let e : LogEntry := { seq := s.log.nextSeq, time := s.time, source := source, severity := severity, status := st,
                        fn := fn, stave := stave, place := place, detail := detail }
  let full := decide (4096 ≤ s.log.entries.length)
  let log : ErrorLog :=
    { entries := (if full then s.log.entries.drop 1 else s.log.entries) ++ [e], nextSeq := s.log.nextSeq + 1,
      lost := if full then satAdd 32 s.log.lost 1 else s.log.lost }
  raiseIrqs (logReaders fn) 10 { s with log := log }

/-- An entry for host interface misuse (source 0x50). -/
def logMisuse (fn detail : Nat) (s : State) : State := logError 0x50 0 .invalid fn 0xFF 0xFFFF detail s

/-- `FW_STATE` changes: bit 9 rises on every function (R385, R481). -/
def setFwState (st : FwState) (err : Status) (s : State) : State :=
  raiseIrqs (List.range 32) 9 { s with fw := { s.fw with state := st, error := err } }

end Sys2Proof.Machine
end

