-- ==== Sys2Proof/Machine/Operands.lean ====
section
/-! DEFINITION. The operands of commands: the units and cores they name, the parameters of a request (R390), the address
map an address or range falls in (R263, R266 to R269), and the protected ranges (R96, R262, R348, R412). -/
namespace Sys2Proof.Machine

/-! ## Units and cores -/

def State.core (s : State) (c : Nat) : Core := s.cores.getD c Core.reset

def State.updCore (s : State) (c : Nat) (f : Core → Core) : State := { s with cores := updAt s.cores c f }

/-- The stave of a unit. -/
def unitStave : UnitId → Nat
  | .core _ v => v.val
  | .chip v => v.val

/-- The core of a core unit, 0xFFFF for a chip unit (R399). -/
def unitCore : UnitId → Nat
  | .core c _ => c.val
  | .chip _ => 0xFFFF

def State.unit (s : State) : UnitId → UnitState
  | .core c v => (s.core c.val).units.getD (v.val - 1) UnitState.idle
  | .chip v => s.chips.getD (v.val - 12) UnitState.idle

def State.updUnit (s : State) (u : UnitId) (f : UnitState → UnitState) : State :=
  match u with
  | .core c v => s.updCore c.val fun k => { k with units := updAt k.units (v.val - 1) f }
  | .chip v => { s with chips := updAt s.chips (v.val - 12) f }

/-- The fetcher of a unit: that of its core, or a chip unit's own (R95). -/
def State.fetcher (s : State) : UnitId → Fetcher
  | .core c _ => (s.core c.val).fetch
  | .chip v => s.chipFetch.getD (v.val - 12) Fetcher.idle

def State.updFetcher (s : State) (u : UnitId) (f : Fetcher → Fetcher) : State :=
  match u with
  | .core c _ => s.updCore c.val fun k => { k with fetch := f k.fetch }
  | .chip v => { s with chipFetch := updAt s.chipFetch (v.val - 12) f }

/-- Every unit of the device, chip units last. -/
def coreUnits (c : Nat) : List UnitId := (rangeFrom 1 11).map fun v => .core (Fin.ofNat 256 c) (Fin.ofNat 16 v)
def chipUnits : List UnitId := (rangeFrom 12 4).map fun v => .chip (Fin.ofNat 16 v)

/-- Strokes a unit may hold in flight (R64). -/
def unitDepth (stave : Nat) : Nat :=
  if stave ≤ 4 then 2 else if stave = 7 || stave = 8 then 2 else if stave = 10 then 4 else if stave = 12 then 8
  else if stave = 13 then 16 else if stave = 14 then 4 else 1

/-! ## Request parameters (R390, R393) -/

/-- Bytes `ofs` to `ofs + n - 1` of a parameter list as a number. -/
def arg (ps : List Byte) (ofs n : Nat) : Nat := ofLe ((ps.drop ofs).take n)

/-- A power of two. -/
def isPow2 (n : Nat) : Bool := !(n == 0) && n == 2 ^ Nat.log2 n

/-- Every byte from `ofs` on, or of the `n` bytes from `ofs`, is zero. -/
def zeroFrom (ps : List Byte) (ofs : Nat) : Bool := (ps.drop ofs).all (· == 0)
def zeroAt (ps : List Byte) (ofs n : Nat) : Bool := ((ps.drop ofs).take n).all (· == 0)

/-- The inline parameter bytes. -/
def reqInline (r : Request) : List Byte := leBytes 56 r.params.toNat

def reqIndirect (r : Request) : Bool := bitAt r.flags 0
def reqDefer (r : Request) : Bool := bitAt r.flags 1

/-- The flags and the indirect block's fields are as R390 allows. -/
def reqFormed (r : Request) (mayDefer : Bool) : Bool :=
  decide (r.flags.toNat < 4) && (mayDefer || !reqDefer r) &&
  (!reqIndirect r ||
    (let ps := (reqInline r)
     aligned (arg ps 0 8) 64 && decide (1 ≤ arg ps 8 2) && decide (arg ps 8 2 ≤ 4096) && zeroFrom ps 10))

/-- The parameters, inline or from the indirect block; bytes beyond a short block read as zero. -/
def reqArgs (r : Request) : List Byte :=
  if reqIndirect r then fitBytes (max 56 (arg (reqInline r) 8 2)) (r.block.take (arg (reqInline r) 8 2)) else (reqInline r)

/-! ## The device address map (R263, R266, R267) -/

/-- The first address of a channel's range. -/
def chanBase (ch : Nat) : Nat :=
  if ch < 96 then ch * 2 ^ 30 else 2 ^ 40 + (ch - 96) / 8 * 2 ^ 38 + (ch - 96) % 8 * 2 ^ 35

/-- The length of a channel's range. -/
def chanRange (ch : Nat) : Nat := if ch < 96 then 2 ^ 30 else 2 ^ 35

/-- The channel whose range an address lies in. -/
def chanOf (a : Nat) : Option Nat :=
  if a < 96 * 2 ^ 30 then some (a / 2 ^ 30)
  else if 2 ^ 40 ≤ a && a < 2 ^ 41 then some (96 + (a - 2 ^ 40) / 2 ^ 35)
  else none

def State.chan (s : State) (ch : Nat) : Channel := s.channels.getD ch Channel.absent

def State.updChan (s : State) (ch : Nat) (f : Channel → Channel) : State := { s with channels := updAt s.channels ch f }

/-- Populated bytes of a channel. -/
def Channel.bytes (c : Channel) : Nat := c.sizeMiB * 2 ^ 20

/-- Every byte of a range lies in the populated part of active channels (R268, R269, R278). -/
def mappedRange (s : State) : Nat → Nat → Nat → Bool
  | 0, _, n => n == 0
  | k + 1, a, n =>
    if n = 0 then true
    else
      match chanOf a with
      | none => false
      | some ch =>
        let c := s.chan ch
        let stop := chanBase ch + c.bytes
        if c.state == .active && decide (a < stop) then
          if a + n ≤ stop then true
          else if stop = chanBase ch + chanRange ch then mappedRange s k stop (a + n - stop) else false
        else false

/-- A range of attached memory is mapped; an empty range is, wherever it lies. -/
def mapped (s : State) (a n : Nat) : Bool := mappedRange s 130 a n

/-- A range meets a channel's range of the map. -/
def touchesChan (ch a n : Nat) : Bool := overlaps a n (chanBase ch) (chanRange ch)

/-- The core and offset of an address in a scratch debug window (R263). -/
def windowOf (a : Nat) : Option (Nat × Nat) :=
  if 0x020000000000 ≤ a && a < 0x020080000000 then
    some ((a - 0x020000000000) / 0x800000, (a - 0x020000000000) % 0x800000)
  else none

/-- Bytes of scratch. -/
def scratchSize : Nat := 6 * 2 ^ 20

/-! ## Jobs -/

def State.job (s : State) (id : Nat) : Option Job := s.sched.jobs.find? fun j => j.id == id

def State.updJob (s : State) (id : Nat) (f : Job → Job) : State :=
  { s with sched := { s.sched with jobs := s.sched.jobs.map fun j => if j.id = id then f j else j } }

/-- The job that holds the units, if any. -/
def State.currentJob (s : State) : Option Job := s.sched.current.bind s.job

/-- Running means its units execute its score. -/
def Job.running (j : Job) : Bool := j.stage == .running

/-- The score a handle names. -/
def State.score (s : State) (h : Nat) : Option Score := slotAt s.scores h

/-- Where the image of a job's score lies. -/
def State.scoreAddr (s : State) (j : Job) : Nat := ((s.score j.handle).map (·.addr)).getD 0

/-- Active (R405): taken past its start and not yet ended. -/
def Job.active (j : Job) : Bool := !(j.stage == .queued)

/-- A kernel of the job runs or is parked, so that its sections hold their cores (R263); an evicted job holds none. -/
def holdsCores (s : State) (j : Job) : Bool :=
  j.stage == .running || j.stage == .parked || j.stage == .evicting || j.stage == .restoring
    || (j.stage == .swapping && decide (0 < j.kernels) && !((s.sched.save.map (·.job)) == some j.id))

/-- A core's debug window is open while no section of a running or parked kernel includes it (R263). -/
def windowOpen (s : State) (c : Nat) : Bool :=
  coreEnabled s.fuses.variant c &&
  s.sched.jobs.all fun j =>
    !(holdsCores s j && (layoutCores s.fuses.variant s.mem (s.scoreAddr j) j.layout).contains c)

/-! ## Protected ranges -/

/-- The ranges of the save area (R413). -/
def saveRanges (p : PreemptPolicy) : List (Nat × Nat) :=
  ((List.range 96).filter fun c => bitAt p.saveChannels c).map fun c => (chanBase c + p.saveOfs, p.saveBytes)

/-- The ranges of the loaded score images and of the resident image in force (R96, R262). -/
def imageRanges (s : State) : List (Nat × Nat) :=
  (s.scores.filterMap id).map (fun x => (x.addr, x.size))
  ++ (match s.resident.cur with | some r => [(r.addr, r.size)] | none => [])

/-- The read-only ranges of attached memory (R96, R262, R412). -/
def readOnlyRanges (s : State) : List (Nat × Nat) :=
  imageRanges s ++ (if s.sched.save.isSome then saveRanges s.preempt else [])

/-- The context ranges of open codec sessions (R348). -/
def codecRanges (s : State) : List (Nat × Nat) := (s.codec.sessions.filterMap id).map fun x => (x.ctxAddr, x.ctxSize)

def hitsAny (rs : List (Nat × Nat)) (a n : Nat) : Bool := rs.any fun r => overlaps r.1 r.2 a n

/-- The write of a run of bytes for a function: bytes in a read-only range are discarded, and that is logged with the function's
number (R96, R262, R528). -/
def guardedWrite (fn stave : Nat) (s : State) (a : Nat) (bs : List Byte) : State :=
  let rs := readOnlyRanges s
  if hitsAny rs a bs.length then
    let put (m : Memory) (p : Nat × Byte) : Memory := if hitsAny rs p.1 1 then m else m.write p.1 p.2
    logError 0x15 0 .ok fn stave 0xFFFF a { s with mem := ((rangeFrom a bs.length).zip bs).foldl put s.mem }
  else { s with mem := s.mem.writeBytes a bs }

/-- The write of a run of bytes by the unit of a stave, for the running job. -/
def unitWrite (stave : Nat) (s : State) (a : Nat) (bs : List Byte) : State :=
  guardedWrite (((s.currentJob).map (·.fn)).getD 0xFF) stave s a bs

end Sys2Proof.Machine
end

