-- ==== Sys2Proof/Machine/Ops.lean ====
section
/-! DEFINITION. The operations that commands share: responses and completion records with their rings (R391, R392, R398),
the service of a call (R392, R393, R536), the end of a job (R399, R420), undefined contents (R281, R518). -/
namespace Sys2Proof.Machine

/-! ## Memory -/

/-- A range's contents become undefined. -/
def forgetRange (a n : Nat) (s : State) : State :=
  { s with mem := s.mem.forget a n s.fresh, fresh := s.fresh + 1 }

/-- What is left of a run of bytes outside a range. -/
def cutRun (r x : Nat × Nat) : List (Nat × Nat) :=
  if overlaps r.1 r.2 x.1 x.2 then
    (if x.1 < r.1 then [(x.1, r.1 - x.1)] else []) ++
    (if r.1 + r.2 < x.1 + x.2 then [(r.1 + r.2, x.1 + x.2 - (r.1 + r.2))] else [])
  else [x]

/-- A range's contents become undefined but for what lies in some protected ranges. -/
def forgetOutside (rs : List (Nat × Nat)) (a n : Nat) (s : State) : State :=
  (rs.foldl (fun l r => l.flatMap (cutRun r)) [(a, n)]).foldl (fun acc x => forgetRange x.1 x.2 acc) s

/-- A function's write of contents that the spec leaves to the device: what would fall into a protected range is discarded, and that is
logged with the function's number (R96, R262). -/
def guardedForget (rs : List (Nat × Nat)) (fn stave a n : Nat) (s : State) : State :=
  forgetOutside rs a n (if hitsAny rs a n then logError 0x15 0 .ok fn stave 0xFFFF a s else s)

/-- A run of bytes written to host memory. -/
def hostWrite (a : Nat) (bs : List Byte) (s : State) : State := { s with host := s.host.writeBytes a bs }

/-! ## Responses (R391, R392) -/

def State.mailbox (s : State) (fn : Nat) : Option Mailbox := (s.func fn).mailbox

def State.updMailbox (s : State) (fn : Nat) (f : Mailbox → Mailbox) : State :=
  s.updFunc fn fun g => { g with mailbox := g.mailbox.map f }

/-- The 64 bytes of a response entry (R391). -/
def responseBytes (r : Response) (phase : Bool) : List Byte :=
  packBytes [(4, r.tag.toNat), (2, r.status.code), (2, r.opcode.toNat), (1, if phase then 1 else 0), (11, 0),
             (44, r.result.toNat)]

/-- At most `RSP_ENTRIES` - 1 responses are unreleased (R392). -/
def Mailbox.full (m : Mailbox) : Bool := decide (m.rspEntries ≤ m.rspUnreleased + 1)

/-- The mailbox after a response is written: the index advances, the phase flips at a wrap, a request slot is free. -/
def Mailbox.posted (m : Mailbox) : Mailbox :=
  let w := (m.rspWrite + 1) % m.rspEntries
  { m with rspWrite := w, rspPhase := if w = 0 then !m.rspPhase else m.rspPhase, rspUnreleased := m.rspUnreleased + 1,
           taken := m.taken - 1 }

/-- A response written into the next slot, and bit 0 raised (R386). -/
def writeResponse (fn : Nat) (m : Mailbox) (r : Response) (s : State) : State :=
  raiseIrq fn 0 ((hostWrite (m.rspBase + 64 * m.rspWrite) (responseBytes r m.rspPhase) s).updMailbox fn Mailbox.posted)

/-- A stopped mailbox is discarded once every request taken has been answered (R388). -/
def closeStopped (fn : Nat) (s : State) : State :=
  match s.mailbox fn with
  | some m =>
    if m.stopping && m.taken == 0 && m.held.isEmpty then s.updFunc fn fun g => { g with mailbox := none } else s
  | none => s

/-- A response is posted, or held while the ring is full (R392). -/
def postResponse (fn : Nat) (r : Response) (s : State) : State :=
  match s.mailbox fn with
  | none => s
  | some m =>
    if m.full || !m.held.isEmpty then s.updMailbox fn fun x => { x with held := x.held ++ [r] }
    else closeStopped fn (writeResponse fn m r s)

/-- Held responses posted while slots are free. -/
def drainResponses (fn : Nat) : Nat → State → State
  | 0, s => s
  | n + 1, s =>
    match s.mailbox fn with
    | none => s
    | some m =>
      match m.held with
      | [] => s
      | r :: rest =>
        if m.full then s
        else drainResponses fn n
          (closeStopped fn (writeResponse fn m r (s.updMailbox fn fun x => { x with held := rest })))

/-- The answer of a call. -/
def respond (fn : Nat) (tag : Word) (op : Nat) (st : Status) (result : Nat) (s : State) : State :=
  postResponse fn { tag := tag, status := st, opcode := BitVec.ofNat 16 op, result := BitVec.ofNat 352 result } s

/-! ## Service of a call (R384, R392, R393, R536) -/

/-- How a call ends: answered now, or by a later event. -/
inductive CallEnd where
  | answer (st : Status) (result : Nat)
  | later
  deriving DecidableEq, Repr

/-- The firmware serves the mailbox (R384). -/
def serving (s : State) : Bool := s.fw.state == .ready || s.fw.state == .bare

/-- The numbers from `last` + 1 on, wrapping at `n`. -/
def afterLast (n last : Nat) : List Nat := (List.range n).map fun i => (last + 1 + i) % n

/-- A request of a function waits in a ring that is served. -/
def requestWaits (s : State) (fn : Nat) : Bool :=
  match s.mailbox fn with | some m => !m.ring.isEmpty && !m.stopping | none => false

/-- The function whose request Amior takes next: round robin, one request per turn (R392). -/
def mailboxTurn (s : State) : Option Nat := (afterLast 32 s.lastCaller).find? (requestWaits s)

/-- Amior takes a request of a function: the mailboxes are served, and it is the function's turn (R392). -/
def mayTake (fn : Nat) (s : State) : Bool := serving s && mailboxTurn s == some fn

/-- A request is taken from the ring. -/
def takeRequest (fn : Nat) (s : State) : State :=
  { s.updMailbox fn fun m => { m with ring := m.ring.drop 1, taken := m.taken + 1 } with lastCaller := fn }

/-- What a row of the call catalogue says of a call (R401): opcode, PF-only, served in `BARE`, and whether `DEFER` has a
meaning (R390). -/
structure CallRow where
  op : Nat
  pf : Bool
  bare : Bool
  defer : Bool
  deriving DecidableEq, Repr

/-- The unknown request that stands where Amior takes the next one. -/
def unknownNext (s : State) : Option (Nat × UnknownRequest) :=
  if serving s then
    (mailboxTurn s).bind fun fn => ((s.mailbox fn).bind fun m => m.ring.head?.join).map fun u => (fn, u)
  else none

/-- Requests of unknown opcodes that come to their turn are taken and refused (R392, R393). -/
def refuseUnknown : Nat → State → State
  | 0, s => s
  | n + 1, s =>
    match unknownNext s with
    | none => s
    | some (fn, u) => refuseUnknown n (respond fn u.tag u.opcode.toNat .invalid 0 (takeRequest fn s))

/-- Requests that wait in every ring. -/
def ringLoad (s : State) : Nat := (s.funcs.map fun f => (f.mailbox.map fun m => m.ring.length).getD 0).sum

/-- Amior goes on to the next turn. -/
def nextTurn (s : State) : State := refuseUnknown (ringLoad s) s

/-- The service of a request (R536): the faults of R393, then `E_AUTH`, then `E_INVENTORY`, then the call's own
statuses. `bad` says which parameters are faulty, `body` is the call. -/
def serveCall (row : CallRow) (r : Request) (bad : List Byte → Bool) (body : List Byte → State → State × CallEnd)
    (s : State) : State :=
  if mayTake r.fn.val s then
    let t := takeRequest r.fn.val s
    let fail (st : Status) : State := nextTurn (respond r.fn.val r.tag row.op st 0 t)
    if !reqFormed r row.defer || bad (reqArgs r) then fail .invalid
    else if row.pf && !(r.fn.val == 0) then fail .auth
    else if !row.bare && t.fw.state == .bare then fail .inventory
    else
      match body (reqArgs r) t with
      | (u, .answer st result) => nextTurn (respond r.fn.val r.tag row.op st result u)
      | (u, .later) => nextTurn u
  else s

/-! ## Completion records (R398, R399) -/

def State.queue (s : State) (fn q : Nat) : Option JobQueue := slotAt (s.func fn).queues q

def State.updQueue (s : State) (fn q : Nat) (f : JobQueue → JobQueue) : State :=
  s.updFunc fn fun g => { g with queues := updAt g.queues q (Option.map f) }

/-- A record carries a provenance body exactly when a job ends with `OK` (R399). -/
def Record.provValid (r : Record) : Bool := r.status == .ok && !r.event

/-- The 64 bytes of a record (R398). -/
def recordBytes (r : Record) (q : Nat) (phase : Bool) : List Byte :=
  packBytes [(4, r.tag.toNat), (2, r.status.code), (2, r.cause.code),
             (1, (if phase then 1 else 0) + (if r.event then 2 else 0) + (if r.provValid then 4 else 0)), (1, q),
             (2, r.kind), (8, if r.provValid then r.provAddr else 0), (44, r.detail.toNat)]

def JobQueue.full (k : JobQueue) : Bool := decide (k.cmpEntries ≤ k.cmpUnreleased + 1)

/-- The ring after a record is written. -/
def JobQueue.posted (k : JobQueue) : JobQueue :=
  let w := (k.cmpWrite + 1) % k.cmpEntries
  { k with cmpWrite := w, cmpPhase := if w = 0 then !k.cmpPhase else k.cmpPhase, cmpUnreleased := k.cmpUnreleased + 1 }

/-- A job has ended: the counters of R420 rise, its submission slot is free (R396), and its job is gone. -/
def countEnd (fn q : Nat) (ok : Bool) (j : Job) (s : State) : State :=
  let s1 := s.updFunc fn fun g =>
    { g with completed := if ok then g.completed + 1 else g.completed, struck := if ok then g.struck else g.struck + 1,
             preempted := if 0 < j.preemptions then g.preempted + 1 else g.preempted }
  let s2 := s1.updQueue fn q fun k => { k with unposted := k.unposted - 1 }
  { s2 with sched := { s2.sched with jobs := s2.sched.jobs.filter fun x => !(x.id == j.id) } }

/-- A record written into the next slot, bit 1 + q raised, and the job it ends ended. -/
def writeRecord (fn q : Nat) (k : JobQueue) (r : Record) (s : State) : State :=
  let s1 := raiseIrq fn (1 + q)
    ((hostWrite (k.cmpBase + 64 * k.cmpWrite) (recordBytes r q k.cmpPhase) s).updQueue fn q JobQueue.posted)
  match r.job.bind s1.job with
  | some j => countEnd fn q (r.status == .ok) j s1
  | none => s1

/-- A record is posted, or held while the ring is full (R398). -/
def postRecord (fn q : Nat) (r : Record) (s : State) : State :=
  match s.queue fn q with
  | none =>
    { s with sched := { s.sched with jobs := s.sched.jobs.filter fun x => !(some x.id == r.job) } }
  | some k =>
    if k.full || !k.held.isEmpty then s.updQueue fn q fun x => { x with held := x.held ++ [r] }
    else writeRecord fn q k r s

/-- Held records posted while slots are free. -/
def drainRecords (fn q : Nat) : Nat → State → State
  | 0, s => s
  | n + 1, s =>
    match s.queue fn q with
    | none => s
    | some k =>
      match k.held with
      | [] => s
      | r :: rest =>
        if k.full then s
        else drainRecords fn q n (writeRecord fn q k r (s.updQueue fn q fun x => { x with held := rest }))

/-! ## Detail layouts (R399) -/

/-- Microseconds since a job's start sequence began, saturating (R399). -/
def elapsedOf (s : State) (j : Job) : Nat := min (s.time - j.startedAt) (2 ^ 32 - 1)

/-- Detail 0. -/
def detailJob (j : Job) : BitVec 352 :=
  BitVec.ofNat 352 (packFields [(4, j.tested), (4, j.reused), (4, j.kernels), (4, j.preemptions), (4, j.elapsed.getD 0)])

/-- Detail 0 of a job as it ends: the time up to its last tally token, or so far; none where its start sequence never began. -/
def detailNow (s : State) (j : Job) : BitVec 352 :=
  detailJob { j with elapsed := some (j.elapsed.getD (if j.stage == .queued then 0 else elapsedOf s j)) }

/-- Detail 3, with the field's own value where a part of the place is not known. -/
def detailPlace (stave partition core bar desc problems channel : Nat) : BitVec 352 :=
  BitVec.ofNat 352 (packFields [(1, stave), (1, partition), (2, core), (4, bar), (4, desc), (1, problems), (1, channel)])

/-- No place known: detail 0 of the job is used instead. -/
def noDesc : Nat := 0xFFFFFFFF

/-- Detail 2. -/
def detailAbort (cause cseq tag origin : Nat) : BitVec 352 :=
  BitVec.ofNat 352 (packFields [(1, cause), (1, 0), (2, cseq), (4, tag), (2, origin)])

/-! ## The units and the end of a job -/

/-- A core with no job: its units idle and its streams empty, their credits back. Held tiles, counters and contexts stay. -/
def Core.idled (k : Core) : Core :=
  { k with units := k.units.map fun _ => UnitState.idle, fetch := Fetcher.idle, feeds := [], feedCredits := k.feedCredits + k.feeds.length,
           accs := [], wins := [], winCredits := k.winCredits + k.wins.length, winHeld := [], taps := [],
           tapCredits := k.tapCredits + k.taps.length, tapRows := [], tapHeld := [], partials := [], merges := [], damper := [],
           stoppedParts := [] }

/-- Every unit stops and holds nothing. -/
def idleUnits (s : State) : State :=
  { s with cores := s.cores.map Core.idled, chips := s.chips.map fun _ => UnitState.idle,
           chipFetch := s.chipFetch.map fun _ => Fetcher.idle, gathers := [] }

/-! ## Buffers of the Peal ports (R300) -/

def State.port (s : State) (p : Nat) : Port := s.fabric.ports.getD p Port.reset

def State.updPort (s : State) (p : Nat) (f : Port → Port) : State :=
  { s with fabric := { s.fabric with ports := updAt s.fabric.ports p f } }

/-- What a port holds for a channel in a list of counts. -/
def countOf (l : List (BitVec 6 × Nat)) (vc : BitVec 6) : Nat := ((l.find? fun p => p.1 == vc).map (·.2)).getD 0

def setCount (l : List (BitVec 6 × Nat)) (vc : BitVec 6) (n : Nat) : List (BitVec 6 × Nat) :=
  (l.filter fun p => !(p.1 == vc)) ++ (if n = 0 then [] else [(vc, n)])

/-- A buffer of a channel at a port is free again: the neighbour is owed a credit. The device's own flits hold none. -/
def oweCredit (p : Nat) (vc : BitVec 6) (s : State) : State :=
  s.updPort p fun x => { x with owed := setCount x.owed vc (countOf x.owed vc + 1) }

/-- The flits in channel buffers that meet a condition are discarded, and their credits go back. -/
def dropWaiting (sel : Nat × BitVec 14 × Flit → Bool) (s : State) : State :=
  (s.fabric.waiting.filter sel).foldl (fun acc w => oweCredit w.1 w.2.2.vc acc)
    { s with fabric := { s.fabric with waiting := s.fabric.waiting.filter fun w => !sel w } }

/-- The flits held for windows that a job which ends had opened are discarded (R312). -/
def dropHeld (j : Job) (s : State) : State :=
  dropWaiting (fun w => w.2.2.kind == .send && w.2.2.dest == s.inv.member && j.opened.contains (bitField w.2.2.route 40 4)) s

/-- The windows of the job that leaves the units close, and its sends are over. -/
def closeWindows (j : Job) (s : State) : State :=
  dropHeld j { s with fabric := { s.fabric with windows := s.fabric.windows.map fun _ => none, sends := [], queued := [] } }

/-- The codec leaves the frames of a job that is struck (R373). -/
def dropFrames (id : Nat) (s : State) : State :=
  let cut (e : EngineState) : EngineState := { e with queue := e.queue.filter fun q => !(q.job == id) }
  { s with codec := { s.codec with encoder := cut s.codec.encoder, decoder := cut s.codec.decoder } }

/-- A job's record is due: posted, or held. -/
def endJob (j : Job) (st cause : Status) (kind : Nat) (detail : BitVec 352) (s : State) : State :=
  postRecord j.fn j.queue
    { tag := j.tag, status := st, cause := cause, event := false, provAddr := j.provAddr + 64, kind := kind,
      detail := if kind = 0 then detailNow s j else detail, job := some j.id }
    (s.updJob j.id fun x => { x with stage := .recorded })

/-- The units are free for another job. -/
def freeUnits (s : State) : State :=
  { s with sched := { s.sched with current := none, parks := [] } }

/-- The cores of any layout of a job's score. -/
def scoreCores (s : State) (a : Nat) : List Nat :=
  (enabledCores s.fuses.variant).filter fun c =>
    (List.range (scLayoutCount s.mem a)).any fun x => (layoutCores s.fuses.variant s.mem a x).contains c

/-- After a strike every buffer of kind 0, 2 or 3 that the score can write is undefined (R518); a loaded image that lies in one stays, since
no write reaches it (R96, R262). -/
def forgetWritten (j : Job) (s : State) : State :=
  let a := s.scoreAddr j
  let cores := scoreCores s a
  (List.range (scBufferCount s.mem a)).foldl
    (fun acc i =>
      let b := scBuffer s.mem a i
      if !natBit b.flags 1 then acc
      else
        match b.kind with
        | 0 => cores.foldl (fun x c => forgetRange (scratchBase c + b.base) b.size x) acc
        | 1 => acc
        | 2 => forgetOutside (imageRanges s) b.base b.size acc
        | _ => forgetOutside (imageRanges s) (jobScalar j.params b.scalar + b.base) b.size acc) s

/-- A strike of the running job waits for its park tokens. -/
def strikePending (s : State) : Bool :=
  s.sched.parks.any fun p => match p with | .strike _ _ _ _ => true | _ => false

/-- Some park request stands: no unit fires a stroke (R410, R428, R518). -/
def parkRequested (s : State) : Bool := !s.sched.parks.isEmpty

/-- The save area of an evicted job is released. -/
def releaseSave (id : Nat) (s : State) : State :=
  if s.sched.save.map (·.job) == some id then { s with sched := { s.sched with save := none } } else s

/-- The job that holds the units is ended by the device: the park request, closed windows, abandoned strokes (R518 steps 2 to 4). The
first cause stands (R522). One whose units do not run, at its break or in its start sequence, ends at once (R519); the copy of a resident
swap that it asked for goes on (R531). -/
def endRunning (st cause : Status) (kind : Nat) (detail : BitVec 352) (s : State) : State :=
  match s.currentJob with
  | none => s
  | some j =>
    if strikePending s then s
    else if j.stage == .running || j.stage == .evicting || j.stage == .restoring then
      let t := dropFrames j.id (closeWindows j (idleUnits s))
      { t with sched := { t.sched with parks := t.sched.parks ++ [.strike st cause kind detail] } }
    else freeUnits (endJob j st cause kind detail (dropHeld j (releaseSave j.id s)))

/-- A body that waits leaves an open batch and the signing queue; a closed batch is signed without change (R517). -/
def dropBody (id : Nat) (s : State) : State :=
  { s with sec := { s.sec with open_ := s.sec.open_.filter fun l => !(l.1 == id),
                               sign := s.sec.sign.filter fun i => !(i == .body id) } }

/-- A job that holds no unit is ended: its record is posted at once and a save area is released (R519). -/
def endResting (j : Job) (st cause : Status) (kind : Nat) (detail : BitVec 352) (s : State) : State :=
  endJob j st cause kind detail (dropHeld j (dropBody j.id (releaseSave j.id s)))

/-- A job is ended, whatever it is doing. -/
def endAny (j : Job) (st cause : Status) (kind : Nat) (detail : BitVec 352) (s : State) : State :=
  if s.sched.current == some j.id then endRunning st cause kind detail s
  else if j.stage == .recorded then s
  else endResting j st cause kind detail s

/-! ## Idle clocks (R433) -/

/-- The cores whose sections the running job's units execute. -/
def workingCores (s : State) : List Nat :=
  match s.currentJob with
  | some j =>
    if j.stage == .running || j.stage == .evicting || j.stage == .restoring then
      layoutCores s.fuses.variant s.mem (s.scoreAddr j) s.sched.layout
    else []
  | none => []

/-- With `IDLE_STOP` the clock of a core outside every section rests; a core that works, or any without `IDLE_STOP`, runs. -/
def restState (idleStop works : Bool) : DomainState → DomainState
  | .running => if idleStop && !works then .clockStopped else .running
  | .clockStopped => if works || !idleStop then .running else .clockStopped
  | st => st

/-- The islands of the chip units: the Cymbal engines, and the rim fabrics that hold the others (R431; DEDUCED, log 97). -/
def chipIslands : List Nat := [320, 321, 323, 324]

/-- Clocks of cores follow the layout in force, those of chip units whether a job runs. -/
def restClocks (s : State) : State :=
  let cs := workingCores s
  let works (i : Nat) : Bool := if i < 256 then cs.contains i else !cs.isEmpty
  let stop := s.power.idleStop
  let rest (i : Nat) (d : Domain) : Domain :=
    if i < 256 || chipIslands.contains i then { d with state := restState stop (works i) d.state } else d
  { s with power := { s.power with domains := s.power.domains.mapIdx rest } }

end Sys2Proof.Machine
end

