-- ==== Sys2Proof/Machine/Wire.lean ====
section
/-! DEFINITION. Flits as bytes and as what the lanes carry (R295 to R298, R329): the header, the payload field and the CRC, the bit
stream, its codewords, markers and lanes, and the payload of clapper messages. -/
namespace Sys2Proof.Machine

/-! ## Flits as bytes (R295, R296) -/

/-- The `TYPE` of a flit. -/
def typeCode : FlitType → Nat
  | .idle => 0 | .link => 1 | .send => 2 | .coll => 3 | .clap => 4

def typeOfCode (n : Nat) : Option FlitType :=
  [FlitType.idle, .link, .send, .coll, .clap][n]?

/-- The header as one 128-bit number. -/
def headerWord (f : Flit) : Nat :=
  f.seq.toNat + (f.ack.getD 0).toNat * 2 ^ 8 + typeCode f.kind * 2 ^ 16 + (if f.ack.isSome then 1 else 0) * 2 ^ 20
    + f.vc.toNat * 2 ^ 24 + f.credVc.toNat * 2 ^ 32 + f.credN.toNat * 2 ^ 40 + f.dest.toNat * 2 ^ 48
    + f.payload.length * 2 ^ 64 + f.route.toNat * 2 ^ 72

/-- The 256 bytes of a flit: header, payload field, CRC-32 over both. -/
def flitBytes (f : Flit) : List Byte :=
  let body := leBytes 16 (headerWord f) ++ fitBytes 236 f.payload
  body ++ leBytes 4 (crc32 body).toNat

/-- The CRC of 256 bytes holds. -/
def crcHolds (bs : List Byte) : Bool := bs.length == 256 && (crc32 (bs.take 252)).toNat == ofLe (bs.drop 252)

/-- The flit that 256 bytes hold: none of a reserved type or channel, with a reserved bit set or `LEN` above 236. An IDLE flit has no
channel. -/
def flitOf (bs : List Byte) : Option Flit :=
  let h : BitVec 128 := BitVec.ofNat 128 (ofLe (bs.take 16))
  let len := bitField h 64 8
  let clear := bitField h 62 2 == 0 && bitField h 38 2 == 0 && bitField h 30 2 == 0 && bitField h 21 3 == 0
  if clear && decide (len ≤ 236) && (bitField h 16 4 == 0 || decide (bitField h 24 5 < 20)) then
    (typeOfCode (bitField h 16 4)).map fun k =>
      { kind := k, seq := BitVec.ofNat 8 (bitField h 0 8),
        ack := if bitAt h 20 then some (BitVec.ofNat 8 (bitField h 8 8)) else none,
        vc := BitVec.ofNat 6 (bitField h 24 6), credVc := BitVec.ofNat 6 (bitField h 32 6),
        credN := BitVec.ofNat 8 (bitField h 40 8), dest := BitVec.ofNat 14 (bitField h 48 14),
        route := BitVec.ofNat 56 (bitField h 72 56), payload := (bs.drop 16).take len }
  else none

/-! ## The line (R298)

Which bit of a symbol is its first, the order of a codeword's symbols and the code's generator are IEEE 802.3's, as the rule says
(PRESUMED, log 83). -/

/-- The product of two elements of GF(2¹⁰) with x¹⁰ + x³ + 1. -/
def gfMul (a b : Nat) : Nat :=
  let p := (List.range 10).foldl (fun acc i => if natBit b i then acc ^^^ (a <<< i) else acc) 0
  ((List.range 9).map fun i => 18 - i).foldl (fun acc i => if natBit acc i then acc ^^^ (0x409 <<< (i - 10)) else acc) p

/-- 2 to a power in GF(2¹⁰). -/
def gfPow : Nat → Nat
  | 0 => 1
  | n + 1 => gfMul 2 (gfPow n)

/-- A polynomial, highest coefficient first, times x + r. -/
def polyTimes (g : List Nat) (r : Nat) : List Nat :=
  List.zipWith (fun a b => a ^^^ b) (g ++ [0]) (0 :: g.map (gfMul r))

/-- The generator of RS(544,514): the product of x + 2^j for j below 30. -/
def rsGenerator : List Nat := (List.range 30).foldl (fun g j => polyTimes g (gfPow j)) [1]

/-- The 30 parity symbols of a message, first symbol first: the remainder of its division by the generator. -/
def rsParity (msg : List Nat) : List Nat :=
  msg.foldl
    (fun r s =>
      let q := s ^^^ r.headD 0
      List.zipWith (fun a b => a ^^^ gfMul q b) (r.drop 1 ++ [0]) (rsGenerator.drop 1)) (List.replicate 30 0)

/-- The bits of a byte, bit 0 first. -/
def byteBits (b : Byte) : List Bool := (List.range 8).map fun i => natBit b.toNat i

/-- A number from its bits, bit 0 first. -/
def ofBits (bs : List Bool) : Nat := bs.foldr (fun b n => 2 * n + (if b then 1 else 0)) 0

/-- What a port has sent, as a bit stream: byte 0 of a flit first, bit 0 of a byte first. -/
def portBits (s : State) (p : Nat) : List Bool :=
  s.out.flatMap fun o => match o with
    | .flit q f => if q = p then (flitBytes f).flatMap byteBits else []
    | _ => []

/-- The 514 message symbols of the `k`-th run of 5,140 bits. -/
def messageSymbols (bits : List Bool) (k : Nat) : List Nat :=
  (List.range 514).map fun i => ofBits ((bits.drop (5140 * k + 10 * i)).take 10)

/-- The 514 message symbols of a marker. -/
def markerSymbols : List Nat := (List.range 514).map fun i => 0x2A0 + i % 4

/-- The `n`-th codeword on the line: every 4,096th is a marker. -/
def lineCodeword (bits : List Bool) (n : Nat) : List Nat :=
  let msg := if (n + 1) % 4096 = 0 then markerSymbols else messageSymbols bits (n - n / 4096)
  msg ++ rsParity msg

/-- What a lane carries of a codeword: 136 of its symbols. -/
def laneSymbols (word : List Nat) (lane : Nat) : List Nat := (List.range 136).map fun i => word.getD (4 * i + lane) 0

/-! ## The receiver of a line (R298) -/

/-- The bits of a symbol, bit 0 first. -/
def symbolBits (n : Nat) : List Bool := (List.range 10).map (natBit n)

/-- The symbols that a run of bits holds. -/
def bitSymbols (bs : List Bool) : List Nat := (List.range (bs.length / 10)).map fun i => ofBits ((bs.drop (10 * i)).take 10)

/-- The message bits that the lane with a number carries in a marker. -/
def markerBits (lane : Nat) : List Bool := (List.range (if lane < 2 then 129 else 128)).flatMap fun _ => symbolBits (0x2A0 + lane)

/-- The lane whose marker begins a run of bits, and whether the lane's polarity is inverted. -/
def markerHere (bs : List Bool) : Option (Nat × Bool) :=
  ((List.range 4).flatMap fun l => [(l, false), (l, true)]).find? fun x =>
    let want := (markerBits x.1).map fun b => xor b x.2
    bs.take want.length == want

/-- The first marker in what a physical lane delivers: the lane's number, its inversion, and its skew in bits. -/
def findMarker : Nat → List Bool → Option (Nat × Bool × Nat)
  | n, [] => (markerHere []).map fun x => (x.1, x.2, n)
  | n, b :: bs =>
    match markerHere (b :: bs) with
    | some x => some (x.1, x.2, n)
    | none => findMarker (n + 1) bs

/-- The symbols of lane `l` from its marker on, found among what the four physical lanes deliver: their order, a reversal among it, their
skew and their polarity are taken out. -/
def alignedLane (phys : List (List Bool)) (l : Nat) : Option (List Nat) :=
  phys.findSome? fun bs =>
    match findMarker 0 bs with
    | some (k, inv, skew) => if k = l then some (bitSymbols ((bs.drop skew).map fun b => xor b inv)) else none
    | none => none

/-- The `n`-th codeword from the marker on, symbol by symbol from the four lanes. -/
def laneWord (lanes : List (List Nat)) (n : Nat) : List Nat := (List.range 544).map fun i => (lanes.getD (i % 4) []).getD (136 * n + i / 4) 0

/-- A power of an element of GF(2¹⁰), and its inverse. -/
def gfExp (a : Nat) : Nat → Nat
  | 0 => 1
  | n + 1 => gfMul a (gfExp a n)

def gfInv (a : Nat) : Nat := ((List.range 9).foldl (fun p _ => (gfMul p.1 (gfMul p.2 p.2), gfMul p.2 p.2)) (1, a)).1

/-- A polynomial, lowest coefficient first, at a point. -/
def polyAt (p : List Nat) (x : Nat) : Nat := p.foldr (fun c acc => c ^^^ gfMul acc x) 0

/-- The 30 syndromes of a received word. -/
def syndromes (w : List Nat) : List Nat := (List.range 30).map fun j => polyAt w.reverse (gfPow j)

/-- Two polynomials, lowest coefficient first, added. -/
def polyAdd (a b : List Nat) : List Nat := (List.range (max a.length b.length)).map fun i => a.getD i 0 ^^^ b.getD i 0

/-- The state in which an error locator is formed: the locator, the one before its last change of length, its length, the steps since, and
the discrepancy then. -/
structure Locator where
  c : List Nat
  b : List Nat
  len : Nat
  gap : Nat
  disc : Nat
  deriving DecidableEq, Repr

/-- One more syndrome taken into the locator (Berlekamp and Massey). -/
def Locator.take (s : List Nat) (x : Locator) (n : Nat) : Locator :=
  let d := (List.range (x.len + 1)).foldl (fun acc i => acc ^^^ gfMul (x.c.getD i 0) (s.getD (n - i) 0)) 0
  let c' := polyAdd x.c (List.replicate x.gap 0 ++ x.b.map (gfMul (gfMul d (gfInv x.disc))))
  if d = 0 then { x with gap := x.gap + 1 }
  else if 2 * x.len ≤ n then { c := c', b := x.c, len := n + 1 - x.len, gap := 1, disc := d }
  else { x with c := c', gap := x.gap + 1 }

/-- A received word corrected, and the number of symbols that were: none where no codeword lies within 15 symbols of it. -/
def rsCorrect (w : List Nat) : Option (List Nat × Nat) :=
  let s := syndromes w
  let x := (List.range 30).foldl (Locator.take s) { c := [1], b := [1], len := 0, gap := 1, disc := 1 }
  let places := (List.range 544).filter fun i => polyAt x.c (gfInv (gfPow (543 - i))) == 0
  let omega := (List.range 30).map fun n => (List.range (n + 1)).foldl (fun acc i => acc ^^^ gfMul (x.c.getD i 0) (s.getD (n - i) 0)) 0
  let slope := (List.range x.c.length).filterMap fun i => if i % 2 = 1 then some (x.c.getD i 0) else none
  let value (i : Nat) : Nat :=
    let at_ := gfInv (gfPow (543 - i))
    gfMul (gfPow (543 - i)) (gfMul (polyAt omega at_) (gfInv (polyAt slope (gfMul at_ at_))))
  let fixed := w.mapIdx fun i c => if places.contains i then c ^^^ value i else c
  if x.len ≤ 15 && places.length == x.len && (syndromes fixed).all (· == 0) then some (fixed, places.length) else none

/-- The message bits of the codewords that follow the marker the lanes are aligned on, `n` of them, the markers among them left out; none
in the place of a codeword that cannot be corrected. The flag of each says whether it was. -/
def lineRuns (lanes : List (List Nat)) (n : Nat) : List (Option (List Bool × Bool)) :=
  ((List.range n).filter fun k => !((k + 1) % 4096 == 0)).map fun k =>
    (rsCorrect (laneWord lanes (k + 1))).map fun c => ((c.1.take 514).flatMap symbolBits, decide (0 < c.2))

/-- What a receiver makes of four physical lanes: the runs of the flit bit stream of the `n` codewords after the first marker. -/
def receiveLanes (phys : List (List Bool)) (n : Nat) : Option (List (Option (List Bool × Bool))) :=
  match alignedLane phys 0, alignedLane phys 1, alignedLane phys 2, alignedLane phys 3 with
  | some a, some b, some c, some d => some (lineRuns [a, b, c, d] n)
  | _, _, _, _ => none

/-- The bytes that a run of the bit stream holds. -/
def bytesOfBits (bs : List Bool) : List Byte := (List.range (bs.length / 8)).map fun i => BitVec.ofNat 8 (ofBits ((bs.drop (8 * i)).take 8))

/-! ## Clapper messages (R329) -/

/-- The payload of a clapper message. -/
def clapPayload (m : ClapMsg) : List Byte :=
  packBytes [(1, m.kind.toNat), (1, m.cop.toNat), (1, m.data.length), (1, m.cause.toNat), (4, m.tag.toNat),
             (2, m.cseq.toNat), (2, m.srcRank.toNat), (2, m.originId.toNat), (50, 0)]
    ++ fitBytes 64 m.data ++ List.replicate 108 0

/-- The clapper message that a payload holds. -/
def clapOf (bs : List Byte) : ClapMsg :=
  let num (ofs n : Nat) : Nat := ofLe ((bs.drop ofs).take n)
  { kind := BitVec.ofNat 8 (num 0 1), cop := BitVec.ofNat 8 (num 1 1), cause := BitVec.ofNat 8 (num 3 1),
    tag := BitVec.ofNat 32 (num 4 4), cseq := BitVec.ofNat 16 (num 8 2), srcRank := BitVec.ofNat 16 (num 10 2),
    originId := BitVec.ofNat 16 (num 12 2), data := ((bs.drop 64).take 64).take (num 2 1) }

end Sys2Proof.Machine
end

