-- ==== Sys2Proof/Machine/Fabric.lean ====
section
/-! DEFINITION. The Peal fabric's shared operations: member coordinates, routes, pairs, datelines, credits and replay
(R10, R291 to R305), sends and their windows (R306 to R312, R510). -/
namespace Sys2Proof.Machine

/-! ## Members (R10, R293) -/

/-- The coordinates of a member ID. -/
def coordOf (id : Nat) : List Nat := [id / 1024 % 16, id / 64 % 16, id / 8 % 8, id % 8]

/-- The member ID of coordinates. -/
def memberOf (c : List Nat) : Nat := c.getD 0 0 * 1024 + c.getD 1 0 * 64 + c.getD 2 0 * 8 + c.getD 3 0

def State.self (s : State) : Nat := s.inv.member.toNat

def State.extent (s : State) (d : Nat) : Nat := s.inv.extents.getD d 1

def State.isTorus (s : State) (d : Nat) : Bool := bitAt s.inv.torus d

/-- Every coordinate lies inside the installation extents (R309). -/
def insideExtents (s : State) (id : Nat) : Bool :=
  (List.range 4).all fun d => decide ((coordOf id).getD d 0 < s.extent d)

/-! ## Ports -/

/-- The port number of a dimension, a direction and a pair (R291). -/
def portNo (dim : Nat) (minus : Bool) (pair : Nat) : Nat := dim * 4 + (if minus then 2 else 0) + pair

/-- A port trains: enabled by its strap and by `LINK`, cabled to a readable module, at a rate, along a dimension of more than one
member (R293, R423, R431, R475). -/
def portTrains (s : State) (p : Nat) : Bool :=
  !((s.port p).state == .disabled) && natBit s.staged.cur.featureEnable 2 && bitAt s.inv.portsCabled p
    && decide (0 < s.inv.portMaxRate.getD p 0) && decide (0 < s.inv.portModule.getD p 0) && decide (1 < s.extent (p / 4))

/-- A port carries flits: it is up and the fabric is enabled (R305, R423). -/
def portUp (s : State) (p : Nat) : Bool := (s.port p).state == .up && natBit s.staged.cur.featureEnable 2

/-- The dimension and direction of the next hop, none at the destination (R301): dimensions in order, the shorter way
round a torus, + when the two are equal. -/
def nextHop (s : State) (dest : Nat) : Option (Nat × Bool) :=
  let me := coordOf s.self
  let to_ := coordOf dest
  match (List.range 4).find? fun d => !(me.getD d 0 == to_.getD d 0) with
  | none => none
  | some d =>
    let e := s.extent d
    let fwd := (to_.getD d 0 + e - me.getD d 0) % e
    some (d, if s.isTorus d then decide (e - fwd < fwd) else decide (to_.getD d 0 < me.getD d 0))

/-- The pair a hop uses: the chosen one, else the other, else none: the route is broken (R303). -/
def hopPort (s : State) (dim : Nat) (minus : Bool) (pair : Nat) : Option Nat :=
  if portUp s (portNo dim minus pair) then some (portNo dim minus pair)
  else if portUp s (portNo dim minus (1 - pair)) then some (portNo dim minus (1 - pair))
  else none

/-- The hop crosses the dateline of a torus dimension (R302). -/
def crossesDateline (s : State) (dim : Nat) (minus : Bool) : Bool :=
  s.isTorus dim && (coordOf s.self).getD dim 0 == (if minus then 0 else s.extent dim - 1)

/-- The channel of a flit with its dateline class on this hop (R302): the class is kept within a dimension. -/
def hopVc (s : State) (inDim : Option Nat) (dim : Nat) (minus : Bool) (vc : BitVec 6) : BitVec 6 :=
  let keep := inDim == some dim && bitAt vc 5
  BitVec.ofNat 6 (vc.toNat % 32 + (if keep || crossesDateline s dim minus then 32 else 0))

/-! ## Sending (R295, R299, R300, R304) -/

/-- The acknowledgement that a flit carries: none before the neighbour's first flit. -/
def lastReceived (q : Port) : Option (BitVec 8) := if q.neighbour.isSome then some (q.rxExpect - 1) else none

/-- A flit put on the wire: it takes the next sequence number, carries the acknowledgement of the last flit received in order and the
credits owed for one channel, spends a credit and is held for replay; the buffer that it left is free. -/
def transmitNow (p : Nat) (w : Nat × BitVec 6 × Flit) (s : State) : State :=
  let q := s.port p
  let cr := q.owed.headD (0, 0)
  let n := min cr.2 255
  let g : Flit := { w.2.2 with seq := q.txSeq, ack := lastReceived q, credVc := cr.1, credN := BitVec.ofNat 8 n }
  let t := s.updPort p fun x =>
    { x with txSeq := x.txSeq + 1, replay := x.replay ++ [g], owed := setCount x.owed cr.1 (cr.2 - n),
             credits := setCount x.credits g.vc (countOf x.credits g.vc + 1) }
  oweCredit w.1 w.2.1 (t.emit (.flit p g))

/-- A flit may be sent: credit of the 16 flits of its channel's buffer is left and at most 64 are unacknowledged. -/
def maySend (q : Port) (f : Flit) : Bool := decide (countOf q.credits f.vc < 16) && decide (q.replay.length < 64)

/-- The class in which a flit shares a port: its channel, the two send channels together (R304). -/
def serviceClass (f : Flit) : Nat := if f.vc.toNat % 32 = 3 then 2 else f.vc.toNat % 32

/-- The weight of a class: that of sends, or of the group whose tag selects the channel, else 1. -/
def classWeight (s : State) (c : Nat) : Nat :=
  if c = 2 then s.staged.cur.pealSendWeight
  else (((s.groups.filterMap id).find? fun g => g.tag.toNat % 16 + 4 == c).map (·.weight)).getD 1

/-- The classes that have a flit to send, ascending. -/
def readyClasses (q : Port) : List Nat :=
  (List.range 20).filter fun c => q.waitTx.any fun w => serviceClass w.2.2 == c && maySend q w.2.2

/-- What a class has taken in this round. -/
def servedOf (q : Port) (c : Nat) : Nat := ((q.served.find? fun x => x.1 == c).map (·.2)).getD 0

/-- The class that a port serves next, and whether a new round begins: channels 0 and 1 first, then the others in ascending order, each
up to its weight in a round. -/
def nextClass (s : State) (q : Port) : Option (Nat × Bool) :=
  match readyClasses q with
  | [] => none
  | c :: rest =>
    if c < 2 then some (c, false)
    else
      match (c :: rest).find? fun x => decide (servedOf q x < classWeight s x) with
      | some x => some (x, false)
      | none => some (c, true)

/-- The port after a class is served. -/
def countServed (c : Nat) (fresh : Bool) (q : Port) : Port :=
  if c < 2 then q
  else if fresh then { q with served := [(c, 1)] }
  else { q with served := (q.served.filter fun x => !(x.1 == c)) ++ [(c, servedOf q c + 1)] }

/-- The flits of a port are sent while they may be, in the order of R304, the oldest of a class first. -/
def sendWaiting (p : Nat) : Nat → State → State
  | 0, s => s
  | n + 1, s =>
    let q := s.port p
    match nextClass s q with
    | none => s
    | some (c, fresh) =>
      match q.waitTx.findIdx? fun w => serviceClass w.2.2 == c && maySend q w.2.2 with
      | none => s
      | some i =>
        match q.waitTx[i]? with
        | none => s
        | some w =>
          sendWaiting p n (transmitNow p w (s.updPort p fun x => countServed c fresh { x with waitTx := x.waitTx.eraseIdx i }))

/-- Everything that waits at a port and may be sent is sent. -/
def flush (p : Nat) (s : State) : State := sendWaiting p (s.port p).waitTx.length s

/-- A flit is sent on a port, or waits there; meanwhile it holds its buffer of channel `inVc` at `inPort`. -/
def transmit (p inPort : Nat) (inVc : BitVec 6) (f : Flit) (s : State) : State :=
  flush p (s.updPort p fun x => { x with waitTx := x.waitTx ++ [(inPort, inVc, f)] })

/-! ## LINK and IDLE flits (R294, R296, R299, R300, R310) -/

/-- The member that a port's number names as its neighbour (R294). -/
def namedNeighbour (s : State) (p : Nat) : Nat :=
  let d := p / 4
  let me := coordOf s.self
  let c := me.getD d 0
  let e := s.extent d
  let next := if natBit p 1 then (if c = 0 then e - 1 else c - 1) else if c + 1 = e then 0 else c + 1
  memberOf (updAt me d fun _ => next)

/-- A LINK flit on channel 1. -/
def linkFlit (dest : Nat) (m : LinkMsg) : Flit :=
  { kind := .link, seq := 0, ack := none, vc := 1, credVc := 0, credN := 0, dest := BitVec.ofNat 14 dest, route := 0,
    payload := (Config.linkBytes m).take 236 }

/-- A LINK flit for the neighbour of a port. -/
def sendLink (p : Nat) (m : LinkMsg) (s : State) : State := transmit p 16 1 (linkFlit (namedNeighbour s p) m) s

/-- A NACK leaves at once, without a sequence number, and names the expected one. -/
def sendNack (p : Nat) (s : State) : State :=
  s.emit (.flit p { linkFlit (namedNeighbour s p) (.nack (s.port p).rxExpect) with
    seq := Config.idleSeq, ack := lastReceived (s.port p) })

/-- An IDLE flit: it carries the acknowledgement and the credits owed for one channel. -/
def sendIdle (p : Nat) (s : State) : State :=
  let q := s.port p
  let cr := q.owed.headD (0, 0)
  let n := min cr.2 255
  (s.updPort p fun x => { x with owed := setCount x.owed cr.1 (cr.2 - n) }).emit
    (.flit p { kind := .idle, seq := Config.idleSeq, ack := lastReceived q, vc := Config.idleVc, credVc := cr.1,
               credN := BitVec.ofNat 8 n, dest := Config.idleDest, route := 0, payload := [] })

/-- The credits that a port owes go back: in a LINK flit when more than four channels are owed, else in IDLE flits. -/
def returnCredits (p : Nat) (s : State) : State :=
  let q := s.port p
  if 4 < q.owed.length then sendLink p (.credits q.owed) (s.updPort p fun x => { x with owed := [] })
  else q.owed.foldl (fun acc _ => sendIdle p acc) s

/-- The credits that any port owes go back. -/
def sendCredits (s : State) : State :=
  (List.range 16).foldl (fun acc p => if (acc.port p).owed.isEmpty then acc else returnCredits p acc) s

/-- A port answers a flit: with an acknowledgement, and every credit that has become due. -/
def answerPort (p : Nat) (s : State) : State :=
  sendCredits (if (s.port p).owed.isEmpty then sendIdle p s else s)

/-! ## Routes (R301 to R303, R305, R309) -/

/-- A flit at a broken hop or with a destination outside the extents is discarded and logged. -/
def discardFlit (p : Nat) (dest : Nat) (s : State) : State :=
  logError 0x22 0 .ok 0xFF 0xFF (if p < 16 then p else 0xFFFF) dest
    (if p < 16 then s.updPort p fun x => { x with discards := satAdd 32 x.discards 1 } else s)

/-- A flit for another device goes out by the route of its destination; it came from `inPort`, 16 for the device's own flits, and holds its
buffer of channel `inVc` there. A device that is not in READY carries no traffic for others: a route through it is broken (R487). -/
def routeFrom (inPort : Nat) (inVc : BitVec 6) (pair : Nat) (f : Flit) (s : State) : State :=
  if !insideExtents s f.dest.toNat || (decide (inPort < 16) && !(s.fw.state == .ready)) then oweCredit inPort inVc (discardFlit inPort f.dest.toNat s)
  else
    match nextHop s f.dest.toNat with
    | none => oweCredit inPort inVc s
    | some (dim, minus) =>
      match hopPort s dim minus pair with
      | none => oweCredit inPort inVc (discardFlit (portNo dim minus pair) f.dest.toNat s)
      | some p => transmit p inPort inVc { f with vc := hopVc s (if inPort < 16 then some (inPort / 4) else none) dim minus f.vc } s

def routeFlit (inPort pair : Nat) (f : Flit) (s : State) : State := routeFrom inPort f.vc pair f s

/-! ## Strokes in flight -/

/-- The strokes of a unit with a key take a phase. -/
def setPhase (u : UnitId) (key : Nat) (ph : Flight) (s : State) : State :=
  s.updUnit u fun x => { x with inflight := x.inflight.map fun i => if i.key = key then { i with phase := ph } else i }

/-- The link unit. -/
def linkUnit : UnitId := .chip 13

/-! ## Sends and windows -/

/-- An opening counted in the records of a peer, a window and a direction: its digest and the bytes that it covers (R510, R512). -/
def countOpening (peer window : Nat) (sent : Bool) (o : Digest × Nat) (ls : List LinkRecord) : List LinkRecord :=
  let same (l : LinkRecord) : Bool := l.peer == peer && l.window == window && l.sent == sent
  if ls.any same then
    ls.map fun l => if same l then
      { l with openings := l.openings + 1, bytes := l.bytes + o.2, digests := l.digests ++ [o.1] } else l
  else ls ++ [{ peer := peer, window := window, sent := sent, openings := 1, bytes := o.2, digests := [o.1] }]

/-- A job's link records count an opening. -/
def addLink (job peer window : Nat) (sent : Bool) (o : Digest × Nat) (s : State) : State :=
  s.updJob job fun j => { j with links := countOpening peer window sent o j.links }

/-- An acknowledgement of a send: bytes readable at the peer, and the opening's digest when it ends one (R310, R510). The link record is
that of the send which last used the tag, in the job that made it; the stroke is done when every byte it sent is acknowledged. -/
def ackSend (xtag : BitVec 7) (bytes : Nat) (opening : Option (Digest × Nat)) (s : State) : State :=
  let s1 := match s.fabric.tagged.find? fun x => x.1 == xtag, opening with
    | some x, some o => addLink x.2.2.2 x.2.1 x.2.2.1 true o s
    | _, _ => s
  match s1.fabric.sends.find? fun x => x.xtag == xtag with
  | none => s1
  | some x =>
    let acked := x.acked + bytes
    let sends := if x.bytes ≤ acked then s1.fabric.sends.filter fun y => !(y.xtag == xtag)
      else s1.fabric.sends.map fun y => if y.xtag = xtag then { y with acked := acked } else y
    let s2 := { s1 with fabric := { s1.fabric with sends := sends } }
    if x.bytes ≤ acked then
      setPhase (if x.stave = 13 then linkUnit else .core (Fin.ofNat 256 x.core) (Fin.ofNat 16 x.stave)) x.key .done s2
    else s2

/-- The fields of a SEND flit's route (R297). -/
def sendOffset (f : Flit) : Nat := bitField f.route 0 40
def sendWindow (f : Flit) : Nat := bitField f.route 40 4
def sendXtag (f : Flit) : BitVec 7 := BitVec.ofNat 7 (bitField f.route 48 7)

/-- The acknowledgement of landed bytes, to the device itself or in a LINK flit through the fabric (R310). -/
def returnAck (peer : Nat) (xtag : BitVec 7) (bytes : Nat) (opening : Option (Digest × Nat)) (s : State) : State :=
  if peer = s.self then ackSend xtag bytes opening s
  else routeFlit 16 0 (linkFlit peer (.ack (BitVec.ofNat 14 peer) xtag bytes opening)) s

/-- Chunked digest (R508). -/
def chunkedDigest (m : Memory) (a n : Nat) : Digest :=
  let parts := (List.range (ceilDiv n 1048576)).flatMap fun i =>
    leBytes 8 i ++ digestBytes (shake256 (m.readBytes (a + i * 1048576) (min 1048576 (n - i * 1048576))))
  shake256 parts

/-- The bytes of a SEND flit written at every destination of its window, and counted (R306). -/
def landBytes (w : Window) (f : Flit) (s : State) : State :=
  w.dsts.foldl (fun acc d => unitWrite 13 acc (d + sendOffset f) f.payload) s

/-- The senders into an opening, with what each last sent under. -/
def withSender (src : Nat) (xtag : BitVec 7) (l : List (Nat × BitVec 7)) : List (Nat × BitVec 7) :=
  (l.filter fun p => !(p.1 == src)) ++ [(src, xtag)]

/-- An opening is complete: its window closes, its digest and the bytes digested go to each sender, its stroke is done (R306, R510). -/
def closeOpening (wi : Nat) (w : Window) (last : Nat) (xtag : BitVec 7) (bytes : Nat) (s : State) : State :=
  let o : Digest × Nat := (chunkedDigest s.mem (w.dsts.headD 0) w.expect, w.expect)
  let s1 := { s with fabric := { s.fabric with windows := updAt s.fabric.windows wi fun _ => none } }
  let s2 := ((w.peers.map (·.1) ++ [last]).eraseDups).foldl
    (fun acc p => addLink (s.sched.current.getD s.sched.nextId) p wi false o acc) s1
  let s3 := (w.peers.filter fun p => !(p.1 == last)).foldl (fun acc p => returnAck p.1 p.2 0 (some o) acc) s2
  setPhase linkUnit w.key .done (returnAck last xtag bytes (some o) s3)

/-- A run of bytes cut into flit payloads of at most 236 bytes, each with its offset. -/
def cutFlits : Nat → Nat → List Byte → List (Nat × List Byte)
  | 0, _, _ => []
  | n + 1, ofs, bs => if bs.isEmpty then [] else (ofs, bs.take 236) :: cutFlits n (ofs + 236) (bs.drop 236)

/-- The SEND flit that carries bytes to a window offset (R295, R297). -/
def sendFlit (dest wi : Nat) (xtag : BitVec 7) (svc : Nat) (ofs : Nat) (bs : List Byte) : Flit :=
  { kind := .send, seq := 0, ack := none, vc := BitVec.ofNat 6 (2 + svc), credVc := 0, credN := 0,
    dest := BitVec.ofNat 14 dest,
    route := BitVec.ofNat 56 (ofs % 2 ^ 40 + wi % 16 * 2 ^ 40 + xtag.toNat * 2 ^ 48), payload := bs }

/-- The pair of the `i`-th flit of a send (R303): 1 pair A, 2 pair B, 3 alternating. -/
def sendPair (pairs i : Nat) : Nat := if pairs = 3 then i % 2 else if pairs = 2 then 1 else 0

end Sys2Proof.Machine
end

