-- ==== Sys2Proof/Machine/Collective.lean ====
section
/-! DEFINITION. Groups, collectives in peal order, the clapper path, aborts, and with them the strike of a job
(R315 to R317, R320 to R327, R329 to R334, R518, R519). -/
namespace Sys2Proof.Machine

/-! ## Groups -/

def State.group (s : State) (tag : Nat) : Option Group :=
  (s.groups.filterMap id).find? fun g => g.tag.toNat == tag

def State.updGroup (s : State) (tag : Nat) (f : Group → Group) : State :=
  { s with groups := s.groups.map (Option.map fun g => if g.tag.toNat = tag then f g else g) }

def Group.updColl (g : Group) (seq : Nat) (f : Collective → Collective) : Group :=
  { g with colls := g.colls.map fun c => if c.seq = seq then f c else c }

def Group.coll (g : Group) (seq : Nat) : Option Collective := g.colls.find? fun c => c.seq == seq

/-- The next sequence number: 65,535 is followed by 1 (R317). -/
def seqAfter (n : Nat) : Nat := if n = 65535 then 1 else n + 1

/-- The parent of a rank above 0 in the binomial tree (R326). -/
def treeParent (r : Nat) : Nat := r - 2 ^ Nat.log2 r

/-- The children of a rank, ascending (R326). -/
def treeChildren (n r : Nat) : List Nat :=
  ((List.range 15).filter fun k => decide (r < 2 ^ k) && decide (r + 2 ^ k < n)).map fun k => r + 2 ^ k

/-- The ranks that a member exchanges clapper messages with: its parent and its children (R326). -/
def treeNeighbours (n r : Nat) : List Nat := (if r = 0 then [] else [treeParent r]) ++ treeChildren n r

/-- Some collective `n` steps of the numbering after another (R317). -/
def seqPlus : Nat → Nat → Nat
  | 0, a => a
  | n + 1, a => seqPlus n (seqAfter a)

/-- A collective of this number has not started here: it lies ahead in the numbering, which returns from 65,535 to 1 (R317, R331). -/
def notStarted (g : Group) (seq : Nat) : Bool := !(seq == 0) && decide ((seq + 65535 - g.nextSeq) % 65535 < 32768)

/-! ## Clapper messages (R329) -/

/-- The flit of a clapper message to a member of its group, on channel 0 (R296). -/
def clapFlit (g : Group) (toRank : Nat) (m : ClapMsg) : Flit :=
  { kind := .clap, seq := 0, ack := none, vc := 0, credVc := 0, credN := 0, dest := g.members.getD toRank 0, route := 0,
    payload := clapPayload m }

/-- A clapper message sent to a member of its group on pair A (R303). -/
def sendClap (g : Group) (toRank : Nat) (m : ClapMsg) (s : State) : State := routeFlit 16 0 (clapFlit g toRank m) s

/-- A message of this member. -/
def clapMsg (g : Group) (kind cop cause seq origin : Nat) (data : List Byte) : ClapMsg :=
  { kind := BitVec.ofNat 8 kind, cop := BitVec.ofNat 8 cop, cause := BitVec.ofNat 8 cause, tag := g.tag,
    cseq := BitVec.ofNat 16 seq, srcRank := BitVec.ofNat 16 g.rank, originId := BitVec.ofNat 16 origin, data := data }

/-- A message sent to every child. -/
def sendChildren (g : Group) (m : ClapMsg) (s : State) : State :=
  (treeChildren g.size g.rank).foldl (fun acc k => sendClap g k m acc) s

/-- The words of `n` bytes in a run of bytes. -/
def wordsOf (n : Nat) (bs : List Byte) : List Nat :=
  (List.range (ceilDiv bs.length n)).map fun i => ofLe ((bs.drop (n * i)).take n)

/-- One clapper combine of two words of 8 or 4 bytes or single bytes (R327, R329). -/
def clapWord (cop a b : Nat) : Nat :=
  match cop with
  | 1 => (a + b) % 2 ^ 64
  | 2 => (f32Add (BitVec.ofNat 32 a) (BitVec.ofNat 32 b)).toNat
  | 3 => (f32Max (BitVec.ofNat 32 a) (BitVec.ofNat 32 b)).toNat
  | 4 => (f32Min (BitVec.ofNat 32 a) (BitVec.ofNat 32 b)).toNat
  | 5 => if signedOf 64 a < signedOf 64 b then b else a
  | 6 => if signedOf 64 b < signedOf 64 a then b else a
  | _ => a ||| b

/-- The word size of a clapper operation. -/
def clapSize (cop : Nat) : Nat := if cop = 1 || cop = 5 || cop = 6 then 8 else if cop = 2 || cop = 3 || cop = 4 then 4 else 1

/-- Two runs of data combined, the lower ranks' first. -/
def clapCombine (cop : Nat) (a b : List Byte) : List Byte :=
  let n := clapSize cop
  ((wordsOf n a).zip (wordsOf n b)).flatMap fun p => leBytes n (clapWord cop p.1 p.2)

/-- Some byte of the first half ANDed with the matching byte of the second half is not zero (R317). -/
def mismatch (bs : List Byte) : Bool :=
  let h := bs.length / 2
  ((bs.take h).zip (bs.drop h)).any fun p => !(p.1 &&& p.2 == 0)

/-- A value followed by its complement. -/
def withComplement (bs : List Byte) : List Byte := bs ++ bs.map fun b => ~~~ b

/-- The shape word of a collective (R325). -/
def shapeWord (c : Collective) : Nat := (c.op + c.red * 16 + c.count * 256) % 2 ^ 32

/-- The clapper operation of a collective's wave: its own for a clapper reduce, OR for the check, a barrier otherwise. -/
def Collective.cop (c : Collective) : Nat :=
  if c.op = 15 then 7
  else if c.op = 5 then
    if c.red = 3 then 7 else if c.ctype = 0 then 2 + c.red else if c.red = 0 then 1 else 4 + c.red
  else 0

/-! ## Aborts (R331, R332) -/

/-- A flit of a collective of a tag whose sequence is `a` or an earlier one; the flit carries its sequence modulo 256. -/
def staleFlit (tag a : Nat) (f : Flit) : Bool :=
  f.kind == .coll && bitField f.route 0 32 == tag && decide ((a + 256 - bitField f.route 32 8) % 256 < 128)

/-- The flits of an aborted collective and of those before it are discarded, wherever they wait; their buffers are free (R332). -/
def dropStale (tag a : Nat) (s : State) : State :=
  let out := s.fabric.ports.flatMap fun x => x.waitTx.filter fun w => staleFlit tag a w.2.2
  let t := { s with fabric := { s.fabric with
    ports := s.fabric.ports.map fun x => { x with waitTx := x.waitTx.filter fun w => !staleFlit tag a w.2.2 } } }
  out.foldl (fun acc w => oweCredit w.1 w.2.1 acc)
    (dropWaiting (fun w => w.2.2.dest == s.inv.member && staleFlit tag a w.2.2) t)

/-- A job that has begun and has not reached HALT: its collectives may still run. -/
def Job.runsColls (j : Job) : Bool :=
  j.stage == .swapping || j.stage == .digesting || j.stage == .running || j.stage == .evicting || j.stage == .restoring
    || j.stage == .parked || j.stage == .evicted

/-- An abort takes effect here (R332): the job that runs the group's collectives ends, waiting flits of the group are discarded, and
the group is unchecked again. `source` is that of the log entry; with 0x25, no decision, the root's may still come (R333). -/
def endAbort (source : Nat) (g : Group) (seq cause origin : Nat) (s : State) : State :=
  let tag := g.tag.toNat
  let s2 := s.updGroup tag fun x =>
    { x with checked := false, nextSeq := 1, colls := [], spilled := [], early := [], abortSent := [], aborted := some seq,
             late := if source = 0x25 then some seq else none }
  let s3 := dropStale tag seq s2
  let st : Status := if cause = 4 then .groupMismatch else .collAborted
  let victims := s3.sched.jobs.filter fun j => j.runsColls && (scGroups s.mem (s.scoreAddr j)).contains tag
  let s4 := victims.foldl (fun acc j => endAny j st .ok 2 (detailAbort cause seq tag origin) acc) s3
  logError source (if victims.isEmpty then 0 else 1) st 0xFF 13 0xFFFF (tag + seq * 2 ^ 32) s4

/-- A decision to abort goes on to the children and takes effect here (R332). -/
def applyAbort (g : Group) (seq cause origin : Nat) (s : State) : State :=
  endAbort 0x24 g seq cause origin (sendChildren g (clapMsg g 3 0 cause seq origin []) s)

/-- The root has not decided a collective: it is in flight here, or not yet started (R331). After an abort, until the check is done, a
request for any other number than 0 is of the numbering before the abort, and late: each member's requests reach the root before its
part in the new check, by the same path. After an aborted check, a request from another member for number 0 may be late or be for the
next check: the spec does not say how the root tells, and until its own check begins the root takes it as late, but for its `own`
(DESIGN CHOICE, log 107). -/
def undecided (g : Group) (seq : Nat) (own : Bool) : Bool :=
  if g.checked then (g.coll seq).isSome || notStarted g seq
  else match g.aborted with
    | none => true
    | some a => seq == 0 && (own || (g.coll 0).isSome || decide (0 < a))

/-- An abort request at the root (R331). -/
def decideAbort (g : Group) (seq cause origin : Nat) (own : Bool) (s : State) : State :=
  if undecided g seq own then applyAbort g seq cause origin s else s

/-- The sequence an abort request names: the one in flight, or else the next (R334). -/
def abortSeq (g : Group) : Nat :=
  match g.colls with
  | c :: _ => c.seq
  | [] => if g.checked then g.nextSeq else 0

/-- An abort request for a collective is noted with its time, unless one stands (R333). -/
def noteRequest (time seq : Nat) (g : Group) : Group :=
  { g with abortSent := if g.abortSent.any fun a => a.2 == seq then g.abortSent else g.abortSent ++ [(time, seq)] }

/-- This member's abort request for a collective (R330, R334): to its parent, or decided here at the root. -/
def requestAbort (g : Group) (seq cause : Nat) (s : State) : State :=
  if g.rank = 0 then decideAbort g seq cause s.self true s
  else sendClap g (treeParent g.rank) (clapMsg g 2 0 cause seq s.self []) (s.updGroup g.tag.toNat (noteRequest s.time seq))

/-- This member's abort request for a collective of a group, by the group's tag. -/
def raiseAbortOf (tag seq cause : Nat) (s : State) : State :=
  match s.group tag with
  | none => s
  | some g => requestAbort g seq cause s

/-- This member's abort request for a group. -/
def raiseAbort (tag cause : Nat) (s : State) : State :=
  match s.group tag with
  | none => s
  | some g => requestAbort g (abortSeq g) cause s

/-- Abort requests for every group that a job's score references (R334, R518 step 3). -/
def abortGroups (j : Job) (cause : Nat) (s : State) : State :=
  (scGroups s.mem (s.scoreAddr j)).foldl (fun acc t => raiseAbort t cause acc) s

/-! ## Strikes (R518, R519) -/

/-- A job that is running, parked or evicted is struck with `E_STRUCK` and a cause (R518, R519). -/
def strikeJob (j : Job) (cause : Status) (kind : Nat) (detail : BitVec 352) (s : State) : State :=
  if j.stage == .recorded || (s.sched.current == some j.id && strikePending s) then s
  else abortGroups j 2 (endAny j .struck cause kind detail s)

/-- The running job is struck. -/
def strikeRunning (cause : Status) (kind : Nat) (detail : BitVec 352) (s : State) : State :=
  match s.currentJob with
  | none => s
  | some j => strikeJob j cause kind detail s

/-- The function of the running job, or the device. -/
def runningFn (s : State) : Nat := ((s.currentJob).map (·.fn)).getD 0xFF

/-! ## Contributions and outputs (R320, R321) -/

/-- Bytes of an element of a format in attached memory. -/
def fmtBytes (f : Nat) : Nat := (Fmt.ofField f).bits / 8

/-- This member's widened contribution, elements `i` to `i + n - 1` (R320). -/
def contribution (m : Memory) (c : Collective) (i n : Nat) : List Word :=
  (List.range n).map fun k =>
    let code := m.readElem c.src (Fmt.ofField c.inFmt) (i + k)
    if c.inFmt = 9 then BitVec.ofNat 32 code else toF32 ((Fmt.ofField c.inFmt).decode code)

/-- Final values converted once and written at element `i` (R321). -/
def writeFinal (c : Collective) (i : Nat) (ws : List Word) (s : State) : State :=
  let f := Fmt.ofField c.outFmt
  let code (w : Word) : Nat := if c.outFmt = 9 then w.toNat else f.encode (ofF32 w)
  unitWrite 13 s (c.dst + i * fmtBytes c.outFmt) (ws.flatMap fun w => leBytes (fmtBytes c.outFmt) (code w))

/-- One combine of a reduction (R321). -/
def redWord (red : Nat) (a b : Word) : Word :=
  match red with
  | 0 => f32Add a b
  | 1 => f32Max a b
  | 2 => f32Min a b
  | _ => a ||| b

def wordBytes (ws : List Word) : List Byte := ws.flatMap fun w => leBytes 4 w.toNat

/-- The pairs of even and of odd chunks as a collective starts: A and B, or the other where the chosen one's hop is not up (R303). -/
def chunkPairs (s : State) (g : Group) : List Nat :=
  match nextHop s (g.members.getD ((g.rank + 1) % g.size) 0).toNat with
  | none => [0, 1]
  | some (dim, minus) => [0, 1].map fun k => ((hopPort s dim minus k).map (· % 2)).getD k

/-- A flit of chunk `q` to the next rank of the ring (R296, R297). -/
def collFlit (g : Group) (c : Collective) (q : Nat) (bs : List Byte) : Flit :=
  { kind := .coll, seq := 0, ack := none, vc := BitVec.ofNat 6 (4 + g.tag.toNat % 16), credVc := 0, credN := 0,
    dest := g.members.getD ((g.rank + 1) % g.size) 0,
    route := BitVec.ofNat 56 (g.tag.toNat + c.seq % 256 * 2 ^ 32 + q % 65536 * 2 ^ 40), payload := bs }

/-- A collective flit to the next rank of the ring, on the pair of its chunk: once its hop is no longer up on that pair it is lost (R303,
R305). -/
def sendCollFlit (g : Group) (c : Collective) (q : Nat) (bs : List Byte) (s : State) : State :=
  let pair := c.pairs.getD (q % 2) (q % 2)
  let f := collFlit g c q bs
  match nextHop s f.dest.toNat with
  | some (dim, minus) =>
    if portUp s (portNo dim minus pair) then routeFlit 16 pair f s else discardFlit (portNo dim minus pair) f.dest.toNat s
  | none => s

/-- A run of bytes of a chunk sent to the next rank. -/
def sendChunk (g : Group) (c : Collective) (q : Nat) (bs : List Byte) (s : State) : State :=
  (cutFlits (ceilDiv bs.length 236) 0 bs).foldl (fun acc p => sendCollFlit g c q p.2 acc) s

/-- Elements of chunk `q` (R321). -/
def chunkSize (c : Collective) (q : Nat) : Nat := min c.chunk (c.count - q * c.chunk)

/-- The rank where chunk `q` becomes final (R321). -/
def finalRank (g : Group) (q : Nat) : Nat := (q + g.size - 1) % g.size

/-- Transit bytes this member must write before it joins the completion wave. -/
def totalBytes (g : Group) (c : Collective) : Nat :=
  match c.op with
  | 0 => 4 * c.count
  | 1 => ((List.range (ceilDiv c.count c.chunk)).map fun q => if finalRank g q = g.rank then 4 * chunkSize c q else 0).sum
  | 2 => g.size * c.count
  | 3 => c.count
  | _ => 0

/-! ## Completion (R325, R327) -/

/-- A collective ends here with its root's done decision: its stroke is done, and a request that lost the race is over (R331); after the
check the group is checked. -/
def finishColl (tag seq : Nat) (s : State) : State :=
  match (s.group tag).bind fun g => g.coll seq with
  | none => s
  | some c =>
    let t := s.updGroup tag fun g =>
      { g with colls := g.colls.filter fun x => !(x.seq == seq), checked := g.checked || c.op == 15,
               late := if c.op == 15 then none else g.late,
               abortSent := g.abortSent.filter fun a => !(a.2 == seq) }
    match c.key with
    | some k => setPhase linkUnit k .done t
    | none => t

/-- The root's result of a clapper reduce or barrier takes effect here, and goes on down the tree (R327). -/
def takeDown (g : Group) (c : Collective) (data : List Byte) (s : State) : State :=
  let s1 := sendChildren g (clapMsg g 1 c.cop 0 c.seq 0 data) s
  let s2 := if c.op = 5 then unitWrite 13 s1 c.dst data else s1
  finishColl g.tag.toNat c.seq s2

/-- A done decision takes effect here, and goes on down the tree (R325, R331). -/
def takeDone (g : Group) (seq : Nat) (s : State) : State :=
  finishColl g.tag.toNat seq (sendChildren g (clapMsg g 3 0 0 seq 0 []) s)

/-- A member whose value and whose children's values are there passes the result up, or decides at the root (R325, R327,
R331). -/
def tryUp (tag seq : Nat) (s : State) : State :=
  match s.group tag with
  | none => s
  | some g =>
    match g.coll seq with
    | none => s
    | some c =>
      let kids := treeChildren g.size g.rank
      let have_ (k : Nat) : Option (List Byte) := (c.children.find? fun p => p.1 == k).map (·.2)
      match c.value with
      | none => s
      | some v =>
        if c.sentUp || !(kids.all fun k => (have_ k).isSome) then s
        else
          let total := kids.foldl (fun acc k => clapCombine c.cop acc ((have_ k).getD [])) v
          if g.rank = 0 then
            if !(c.op == 5) && mismatch total then applyAbort g seq 4 s.self s
            else if c.op = 4 || c.op = 5 then takeDown g c total s
            else takeDone g seq s
          else
            sendClap g (treeParent g.rank) (clapMsg g 0 c.cop 0 seq 0 total)
              (s.updGroup tag fun x => x.updColl seq fun y => { y with sentUp := true })

/-- A member joins the wave once its output is written (R325). -/
def joinWave (tag seq : Nat) (s : State) : State :=
  match s.group tag with
  | none => s
  | some g =>
    match g.coll seq with
    | none => s
    | some c =>
      if c.value.isNone && decide (totalBytes g c ≤ c.written) then
        tryUp tag seq (s.updGroup tag fun x => x.updColl seq fun y =>
          { y with value := some (withComplement (leBytes 4 (shapeWord c))) })
      else s

/-- Bytes counted as written. -/
def addWritten (tag seq n : Nat) (s : State) : State :=
  s.updGroup tag fun g => g.updColl seq fun c => { c with written := c.written + n }

/-! ## Chunks in transit (R321 to R323) -/

/-- The payload of a collective flit at a member that has started the collective: its contribution is added, or the final
bytes are written, and the chunk goes on. -/
def takeChunk (g : Group) (c : Collective) (q : Nat) (bs : List Byte) (s : State) : State :=
  let tag := g.tag.toNat
  let got := ((c.recv.find? fun p => p.1 == q).map (·.2)).getD 0
  let s0 := s.updGroup tag fun x => x.updColl c.seq fun y =>
    { y with recv := (y.recv.filter fun p => !(p.1 == q)) ++ [(q, got + bs.length)] }
  let next := (g.rank + 1) % g.size
  match c.op with
  | 0 | 1 =>
    let cb := 4 * chunkSize c q
    let first := !(g.rank == q % g.size) && decide (got < cb)
    let at_ := q * c.chunk + (if first then got else got % cb) / 4
    let ws := (wordsOf 4 bs).map (BitVec.ofNat 32)
    if first then
      let v := contribution s.mem c at_ ws.length
      let p := (ws.zip v).map fun x => redWord c.red x.1 x.2
      if finalRank g q = g.rank then
        let s1 := addWritten tag c.seq bs.length (writeFinal c at_ p s0)
        let s2 := if c.op = 0 then sendCollFlit g c q (wordBytes p) s1 else s1
        joinWave tag c.seq s2
      else sendCollFlit g c q (wordBytes p) s0
    else
      let s1 := addWritten tag c.seq bs.length (writeFinal c at_ ws s0)
      let s2 := if next = finalRank g q then s1 else sendCollFlit g c q bs s1
      joinWave tag c.seq s2
  | 2 =>
    let s1 := addWritten tag c.seq bs.length (unitWrite 13 s0 (c.dst + q * c.count + got) bs)
    joinWave tag c.seq (if next = q then s1 else sendCollFlit g c q bs s1)
  | 3 =>
    let s1 := addWritten tag c.seq bs.length (unitWrite 13 s0 (c.dst + got) bs)
    joinWave tag c.seq (if next = c.root then s1 else sendCollFlit g c q bs s1)
  | _ => s0

/-- The spill area has room for more bytes (R322). -/
def spillRoom (g : Group) (n : Nat) : Bool :=
  decide ((g.spilled.map fun x => x.2.2.length).sum + n ≤ g.spillSize)

/-- Bytes of an early flit go to the spill area, whose layout is the device's own: its contents are undefined (R322). -/
def spill (g : Group) (seq8 q : Nat) (bs : List Byte) (s : State) : State :=
  let t := s.updGroup g.tag.toNat fun x => { x with spilled := x.spilled ++ [(seq8, q, bs)] }
  guardedForget (readOnlyRanges s) (runningFn s) 13 g.spillAddr g.spillSize t

/-- A collective of this number modulo 256 is in flight here or may have been started by another member: once this member's check has
begun, another member is ahead of it by at most the depth of a link unit (R64, R317, R322). -/
def mayCome (g : Group) (seq8 : Nat) : Bool :=
  (g.checked || (g.coll 0).isSome) &&
  ((g.colls.any fun c => c.seq % 256 == seq8 && !(c.op == 15)) ||
   (List.range (unitDepth 13)).any fun k => seqPlus k g.nextSeq % 256 == seq8)

/-- A collective flit that has reached its member (R322): taken when the collective is started and the group checked, spilled when
there is room, else left in its channel buffer. One of an aborted sequence or an earlier one is discarded (R332), but for a number that
the numbering after the abort may have reached: the spec gives no way to tell these apart (DESIGN CHOICE, log 107). The flag says whether
its buffer is free. -/
def deliverColl (f : Flit) (s : State) : State × Bool :=
  let tag := bitField f.route 0 32
  let seq8 := bitField f.route 32 8
  let q := bitField f.route 40 16
  match s.group tag with
  | none => (s, true)
  | some g =>
    if (g.aborted.any fun a => staleFlit tag a f) && !mayCome g seq8 then (s, true)
    else
      match g.colls.find? fun c => c.seq % 256 == seq8 && !(c.op == 15) && g.checked with
      | some c => (takeChunk g c q f.payload s, true)
      | none => if spillRoom g f.payload.length then (spill g seq8 q f.payload s, true) else (s, false)

/-! ## Flits that have reached their device (R306, R310, R311, R322) -/

/-- A SEND flit at its device: it lands in its open window, or stays in its channel buffer; a flit beyond the window strikes the job that
holds the window. The flag says whether its buffer is free. -/
def deliverSend (src : BitVec 14) (f : Flit) (s : State) : State × Bool :=
  let wi := sendWindow f
  match slotAt s.fabric.windows wi with
  | none => (s, false)
  | some w =>
    if w.expect ≤ w.count then (s, false)
    else if w.size < sendOffset f + f.payload.length then
      (strikeRunning .invalid 3 (detailPlace 13 0xFF 0xFFFF noDesc noDesc 0 0xFF)
        (logError 0x26 1 .struck (runningFn s) 13 0xFFFF f.dest.toNat s), true)
    else
      let s1 := landBytes w f s
      let count := w.count + f.payload.length
      if w.expect ≤ count then (closeOpening wi w src.toNat (sendXtag f) f.payload.length s1, true)
      else
        let w' : Window := { w with count := count, peers := withSender src.toNat (sendXtag f) w.peers }
        (returnAck src.toNat (sendXtag f) f.payload.length none
          { s1 with fabric := { s1.fabric with windows := updAt s1.fabric.windows wi fun _ => some w' } }, true)

/-- The pair on which a flit in transit goes on: that of its chunk, A for LINK and CLAP flits, that on which a SEND flit came (R303). -/
def transitPair (p : Nat) (f : Flit) : Nat :=
  match f.kind with
  | .coll => bitField f.route 40 16 % 2
  | .send => p % 2
  | _ => 0

/-- A flit in a channel buffer at a port, 16 for the device's own, goes on by its route or is taken here. The flag says whether it has left
its buffer or will when it is sent. -/
def takeFlit (p : Nat) (src : BitVec 14) (f : Flit) (s : State) : State × Bool :=
  if f.dest = s.inv.member then
    let r := match f.kind with
      | .send => deliverSend src f s
      | .coll => deliverColl f s
      | _ => (s, true)
    (if r.2 then oweCredit p f.vc r.1 else r.1, r.2)
  else (routeFlit p (transitPair p f) f s, true)

/-- An earlier flit waits in the same channel buffer. -/
def heldBefore (l : List (Nat × BitVec 14 × Flit)) (p : Nat) (vc : BitVec 6) : Bool := l.any fun w => w.1 == p && w.2.2.vc == vc

/-- A flit stays in its channel buffer. -/
def holdFlit (p : Nat) (src : BitVec 14) (f : Flit) (s : State) : State :=
  { s with fabric := { s.fabric with waiting := s.fabric.waiting ++ [(p, src, f)] } }

/-- A flit has come into its channel buffer: it is taken, or waits behind those before it. -/
def offerFlit (p : Nat) (src : BitVec 14) (f : Flit) (s : State) : State :=
  if heldBefore s.fabric.waiting p f.vc then holdFlit p src f s
  else
    match takeFlit p src f s with
    | (t, true) => t
    | (_, false) => holdFlit p src f s

/-- The first waiting flit, from the `i`-th on, that heads its channel buffer and can be taken: the state after it. -/
def takeNext (s : State) : List Nat → Option State
  | [] => none
  | i :: rest =>
    match s.fabric.waiting[i]? with
    | none => none
    | some (p, src, f) =>
      if heldBefore (s.fabric.waiting.take i) p f.vc then takeNext s rest
      else
        match takeFlit p src f { s with fabric := { s.fabric with waiting := s.fabric.waiting.eraseIdx i } } with
        | (t, true) => some t
        | (_, false) => takeNext s rest

/-- Waiting flits are taken while some can be. -/
def offerMany : Nat → State → State
  | 0, s => s
  | n + 1, s =>
    match takeNext s (List.range s.fabric.waiting.length) with
    | some t => offerMany n t
    | none => s

/-- Every flit that waits in a channel buffer is offered again. -/
def offerWaiting (s : State) : State := offerMany s.fabric.waiting.length s

/-- A run of bytes sent to a window offset at a peer, which may be the device itself (R308, R309). `i` numbers the flits. -/
def sendBytes (peer wi : Nat) (xtag : BitVec 7) (svc pairs : Nat) : Nat → List (Nat × List Byte) → State → State
  | _, [], s => s
  | i, (ofs, bs) :: rest, s =>
    let f := sendFlit peer wi xtag svc ofs bs
    let t := if peer = s.self then offerFlit 16 s.inv.member f s else routeFlit 16 (sendPair pairs i) f s
    sendBytes peer wi xtag svc pairs (i + 1) rest t

/-! ## The start of a collective (R321 to R323) -/

/-- Spilled bytes of a started collective taken in the order they came. -/
def takeSpilled (tag seq : Nat) : List (Nat × Nat × List Byte) → State → State
  | [], s => s
  | (_, q, bs) :: rest, s =>
    match (s.group tag).bind fun g => (g.coll seq).map fun c => (g, c) with
    | some (g, c) => takeSpilled tag seq rest (takeChunk g c q bs s)
    | none => takeSpilled tag seq rest s

/-- A collective starts here (R321 to R323): it sends what begins at this member, takes what came early, and joins the
wave when nothing is left to write. A group of one member writes its own contribution. -/
def startColl (tag seq : Nat) (s : State) : State :=
  match (s.group tag).bind fun g => (g.coll seq).map fun c => (g, c) with
  | none => s
  | some (g, c0) =>
    let c := { c0 with pairs := chunkPairs s g }
    let s := s.updGroup tag fun x => x.updColl seq fun y => { y with pairs := c.pairs }
    let chunks := List.range (ceilDiv c.count c.chunk)
    let s1 :=
      match c.op with
      | 0 | 1 =>
        (chunks.filter fun q => q % g.size == g.rank).foldl
          (fun acc q =>
            let v := contribution s.mem c (q * c.chunk) (chunkSize c q)
            if g.size = 1 then addWritten tag seq (4 * v.length) (writeFinal c (q * c.chunk) v acc)
            else sendChunk g c q (wordBytes v) acc) s
      | 2 =>
        let bs := s.mem.readBytes c.src c.count
        let t := addWritten tag seq c.count (unitWrite 13 s (c.dst + g.rank * c.count) bs)
        if g.size = 1 then t else sendChunk g c g.rank bs t
      | 3 =>
        if g.rank = c.root then
          let bs := s.mem.readBytes c.src c.count
          let t := addWritten tag seq c.count (unitWrite 13 s c.dst bs)
          if g.size = 1 then t else sendChunk g c 0 bs t
        else s
      | 5 =>
        let bs := s.mem.readBytes c.src (c.count * (if c.ctype = 1 then 8 else 4))
        s.updGroup tag fun x => x.updColl seq fun y => { y with value := some bs }
      | _ => s
    let mine (x : Nat × Nat × List Byte) : Bool := x.1 == seq % 256
    let early := g.spilled.filter mine
    let s2 := takeSpilled tag seq early
      (s1.updGroup tag fun x => { x with spilled := x.spilled.filter fun y => !mine y })
    let s3 := offerWaiting s2
    if c.op = 5 then tryUp tag seq s3 else joinWave tag seq s3

/-- Clapper messages that came early are given to their collective. -/
def takeEarly (tag seq : Nat) (s : State) : State :=
  match s.group tag with
  | none => s
  | some g =>
    let mine (e : Nat × Nat × List Byte) : Bool := e.1 == seq
    s.updGroup tag fun x =>
      { (x.updColl seq fun c => { c with children := c.children ++ (g.early.filter mine).map fun e => (e.2.1, e.2.2) })
        with early := x.early.filter fun e => !mine e }

/-- Every collective that waited for the check starts, in sequence order. -/
def startChecked (tag : Nat) (s : State) : State :=
  match s.group tag with
  | none => s
  | some g =>
    if g.checked then (g.colls.filter fun c => c.value.isNone && c.recv.isEmpty && c.written == 0).foldl
      (fun acc c => startColl tag c.seq acc) s
    else s

/-- A done or down message that ends the check lets the collectives behind it start. -/
def afterCheck (tag seq : Nat) (s : State) : State := if seq = 0 then startChecked tag s else s

end Sys2Proof.Machine
end

