-- ==== Sys2Proof/Machine/Beats.lean ====
section
/-! DEFINITION. How a unit meets its stave: the stroke before it, the firing test, the completion of a stroke and its
signals, and the completion tally (R60 to R64, R67, R68, R75 to R83, R90, R91). -/
namespace Sys2Proof.Machine

/-- What a unit has before it: the running job, its score, the bar, the control stroke, its own stroke (a rest where the
section mask leaves the core out, R67), and the context of its affine fields. -/
structure BeatCtx where
  job : Job
  bar : Nat
  ctl : CtlWord
  raw : Nat
  fire : Fire
  deriving DecidableEq, Repr

def BeatCtx.word (b : BeatCtx) : StrokeWord := StrokeWord.ofWord b.raw

/-- The section of the layout in force that a unit lies in, and the core's rank in it. -/
def unitSection (s : State) (a : Nat) : UnitId → Option Nat
  | .core c _ => sectionOf s.mem a s.sched.layout c.val
  | .chip _ => none

def unitRank (s : State) (a : Nat) : UnitId → Nat
  | .core c _ =>
    match sectionOf s.mem a s.sched.layout c.val with
    | some sec => rankOf s.fuses.variant (scSection s.mem a s.sched.layout sec) c.val
    | none => 0
  | .chip _ => 0

/-- The unit's own stroke in a bar: a core outside the section mask rests (R67). -/
def ownStroke (s : State) (a bar : Nat) (ctl : CtlWord) (u : UnitId) : Nat :=
  match u with
  | .chip v => scStave s.mem a bar v.val
  | .core _ v =>
    match unitSection s a u with
    | some sec => if natBit ctl.mask sec then scStave s.mem a bar v.val else 0
    | none => 0

/-- The loop counters of a unit: 0 outside an open loop (R70). -/
def UnitState.counters (x : UnitState) : List Nat := x.loops.map fun l => if l.isOpen then l.counter else 0

/-! ## Stave fetch (R95, R97) -/

/-- The descriptors that a stroke names: none by a rest, a CUE or a NOTIFY, one for each problem by the gang strokes. -/
def fetchedDescs (stave raw : Nat) : List Nat :=
  let w := StrokeWord.ofWord raw
  if raw = 0 || w.op = 1 || (stave = 14 && w.op = 0x20) then []
  else if w.op = 0x11 && (stave ≤ 4 || stave = 7 || stave = 8) then rangeFrom w.desc (w.imm % 16)
  else [w.desc]

/-- The count of a LOOP_BEGIN (R65, R71). -/
def ctlTurns (c : CtlWord) (params : List Byte) : Nat :=
  if c.countSrc then jobScalar params c.scalar % 2 ^ 32 else c.imm + 1

/-- Bars and descriptors a fetcher may hold. -/
def prefetchBars : Nat := 256
def cacheDescs : Nat := 1024

/-- Descriptors come into a cache; the oldest leave it. -/
def Fetcher.bring (x : Fetcher) (ds : List Nat) : Fetcher :=
  let all := x.cache ++ ds.filter fun d => !(x.cache.contains d)
  { x with cache := all.drop (all.length - cacheDescs) }

/-- The fetcher has read its bar, and goes on along the path of control. -/
def Fetcher.next (m : Memory) (a : Nat) (params : List Byte) (x : Fetcher) : Fetcher :=
  let c := scCtl m a x.bar
  let y := { x with bar := x.bar + 1, again := false, count := x.count + 1 }
  match c.op with
  | 2 =>
    let n := ctlTurns c params
    if x.again then y
    else if n = 0 then
      match scLoopEnd m a c.level (scBarCount m a - x.bar) x.bar with
      | some e => { y with bar := e + 1 }
      | none => { y with ended := true }
    else { y with loops := updAt x.loops c.level fun _ => { isOpen := true, count := n, counter := 0, beginBar := x.bar } }
  | 3 =>
    let l := x.loops.getD c.level LoopLevel.closed
    if l.isOpen && decide (l.counter + 1 < l.count) then
      { y with bar := l.beginBar, again := true, loops := updAt x.loops c.level fun k => { k with counter := k.counter + 1 } }
    else { y with loops := updAt x.loops c.level fun _ => LoopLevel.closed }
  | 4 | 6 => { y with ended := true }
  | _ => y

/-- A fetcher that begins where a unit stands, at a time under a limit. -/
def fetcherAt (m : Memory) (a since limit : Nat) (x : UnitState) : Fetcher :=
  { since := since, limit := limit, bar := x.bar, again := (scCtl m a x.bar).op == 2 && !(x.beat == .control), loops := x.loops, count := x.passed,
    ended := x.beat == .parked || x.beat == .stopped, cache := [] }

/-- The units that a fetcher serves. -/
def fetchUnits : UnitId → List UnitId
  | .core c _ => coreUnits c.val
  | .chip v => [.chip v]

/-- The descriptors that a unit's own stroke of a bar names. -/
def barDescs (s : State) (a bar : Nat) (u : UnitId) : List Nat :=
  fetchedDescs (unitStave u) (ownStroke s a bar (scCtl s.mem a bar) u)

/-- The bar that a unit stands before has been fetched, and the descriptors that its stroke there names are in the cache. -/
def fetched (s : State) (a : Nat) (u : UnitId) : Bool :=
  let x := s.unit u
  decide (x.passed < (s.fetcher u).count) && (barDescs s a x.bar u).all fun d => (s.fetcher u).cache.contains d

/-- The descriptors that left a fetcher's cache before their unit came to them. -/
def fetchMissing (s : State) (a : Nat) (u : UnitId) : List Nat :=
  let x := s.fetcher u
  (fetchUnits u).flatMap fun v =>
    if (s.unit v).passed < x.count then (barDescs s a (s.unit v).bar v).filter fun d => !(x.cache.contains d) else []

/-- A fetcher may read its next bar: it has not come to the end, and is less than 256 bars ahead of its slowest unit. -/
def fetchAhead (s : State) (u : UnitId) : Bool :=
  let x := s.fetcher u
  !x.ended && decide (x.count - ((fetchUnits u).map fun v => (s.unit v).passed).foldl min x.count < prefetchBars)

/-- The runs of the score image that a fetcher's next read takes in: the words of a bar, 256 bytes apart for each stave, and descriptors of
64 bytes. -/
def fetchRuns (s : State) (a : Nat) (u : UnitId) : List (Nat × Nat) :=
  let descs (l : List Nat) : List (Nat × Nat) := l.map fun d => (a + scDescOfs s.mem a + 64 * d, 64)
  let bar := (s.fetcher u).bar
  if !(fetchMissing s a u).isEmpty then descs (fetchMissing s a u)
  else if fetchAhead s u then
    ((0 :: (fetchUnits u).map unitStave).map fun v => (a + scBodyOfs s.mem a + bar / 32 * 4096 + v * 256 + bar % 32 * 8, 8))
      ++ descs ((fetchUnits u).flatMap (barDescs s a bar))
  else []

/-- What a fetcher brings next: a descriptor that left the cache before its unit came to it, else the next bar. -/
def fetchOnce (j : Job) (u : UnitId) (s : State) : State :=
  let a := s.scoreAddr j
  let read (g : Fetcher → Fetcher) : State :=
    s.updFetcher u fun y => { g y with since := s.time, limit := s.staged.cur.memSuspendLimit }
  if !(fetchMissing s a u).isEmpty then read fun y => y.bring (fetchMissing s a u)
  else if fetchAhead s u then
    read fun y => (y.bring ((fetchUnits u).flatMap (barDescs s a y.bar))).next s.mem a j.params
  else s

/-- Where a unit stands, when the running job's units may beat and the bar is fetched. -/
def beatOf (s : State) (u : UnitId) : Option (BeatCtx × UnitState) :=
  match s.currentJob with
  | none => none
  | some j =>
    let x := s.unit u
    let a := s.scoreAddr j
    if j.stage == .running && fetched s a u then
      let ctl := scCtl s.mem a x.bar
      some ({ job := j, bar := x.bar, ctl := ctl, raw := ownStroke s a x.bar ctl u,
              fire := { score := a, core := (match u with | .core c _ => c.val | .chip _ => 0), rank := unitRank s a u,
                        loops := x.counters, params := j.params } }, x)
    else none

/-- A unit is before its own stroke: after the control stroke of a LOOP_BEGIN or SECTION bar, before that of any other. -/
def strokeDue (ctl : CtlWord) (x : UnitState) : Bool :=
  if ctl.op == 2 || ctl.op == 5 then x.beat == .stroke else x.beat == .control

/-- A unit has done its own stroke of a BAR, LOOP_END, BREAK or HALT bar. -/
def closeDue (ctl : CtlWord) (x : UnitState) : Bool := !(ctl.op == 2 || ctl.op == 5) && x.beat == .close

/-- After its own stroke a unit goes on to the next bar, or to the bar's closing control stroke. -/
def afterStroke (ctl : CtlWord) (x : UnitState) : UnitState :=
  if ctl.op == 2 || ctl.op == 5 then { x with bar := x.bar + 1, passed := x.passed + 1, beat := .control } else { x with beat := .close }

/-- Every cue counter named in `WAIT` is at least 1 (R76). -/
def cuesReady (x : UnitState) (wait : Nat) : Bool :=
  (List.range 8).all fun c => !natBit wait c || decide (1 ≤ x.cues.getD c 0)

/-- The firing test but for credits (R76): cues, depth, and no park request. -/
def mayFire (s : State) (u : UnitId) (b : BeatCtx) (x : UnitState) : Bool :=
  !parkRequested s && cuesReady x b.word.wait && decide (x.inflight.length < unitDepth (unitStave u))

/-- The captured timeout of a link stroke, in microseconds (R312, R429). -/
def xferTimeoutUs (s : State) : Nat := s.staged.cur.pealXferTimeout * 10

/-- A stroke fires: each counter named in `WAIT` falls by 1, and the stroke is in flight under a new key (R76). -/
def fired (u : UnitId) (b : BeatCtx) (s : State) : State :=
  let w := b.word
  let i : Inflight :=
    { op := BitVec.ofNat 8 w.op, desc := w.desc, imm := BitVec.ofNat 24 w.imm, signal := BitVec.ofNat 8 w.signal,
      bar := b.bar, loops := b.fire.loops, firedAt := s.time, timeout := xferTimeoutUs s,
      memLimit := s.staged.cur.memSuspendLimit, key := s.sched.nextKey,
      taken := 0, given := 0, phase := .running, rattle := [] }
  let t := s.updUnit u fun x => afterStroke b.ctl
    { x with cues := x.cues.mapIdx fun c n => if natBit w.wait c then n - 1 else n, inflight := x.inflight ++ [i] }
  { t with sched := { t.sched with nextKey := t.sched.nextKey + 1 } }

/-- A stroke of opcode `op` at a unit: nothing happens unless it is before the unit and passes the firing test, cues, depth and one credit of
each stream that it writes (R24, R76); `body` is what it does once it has fired, given the key of the stroke. -/
def runStroke (u : UnitId) (op : Nat) (credit : BeatCtx → State → Bool) (body : BeatCtx → Nat → State → State) (s : State) : State :=
  match beatOf s u with
  | none => s
  | some (b, x) =>
    if b.word.op == op && !(b.raw == 0) && strokeDue b.ctl x && mayFire s u b x && credit b s then
      body b s.sched.nextKey (fired u b s)
    else s

/-- The credit test of a stroke that writes no stream (R537). -/
def noStream (_ : BeatCtx) (_ : State) : Bool := true

/-- A change to the stroke of a key at a unit. -/
def updFlight (u : UnitId) (key : Nat) (g : Inflight → Inflight) (s : State) : State :=
  s.updUnit u fun x => { x with inflight := x.inflight.map fun i => if i.key = key then g i else i }

/-- The stroke of a key is done: only its completion is left. -/
def doneStroke (u : UnitId) (key : Nat) (s : State) : State := setPhase u key .done s

/-! ## Signals (R79 to R83) -/

/-- A strike for an overflow (R80): the record names the unit, the core and the bar. -/
def strikeOverflow (stave core bar : Nat) (s : State) : State :=
  let t := logError 0x40 1 .struck (runningFn s) stave core bar s
  strikeRunning .cueOverflow 3 (detailPlace stave 0xFF core bar noDesc 0 0xFF) t

/-- One increment of a cue counter; at 255 it stays and the job is struck (R80). The record names the destination unit, its core (0xFFFF
for a chip unit) and that unit's own bar: the spec does not say whose they are (DESIGN CHOICE, log 87). -/
def bumpCue (u : UnitId) (cue : Nat) (s : State) : State :=
  let x := s.unit u
  if 255 ≤ x.cues.getD cue 0 then strikeOverflow (unitStave u) (unitCore u) x.bar s
  else s.updUnit u fun y => { y with cues := updAt y.cues cue (· + 1) }

/-- The unit of a stave: on a core for staves 1 to 11. -/
def unitAt (core stave : Nat) : UnitId :=
  if stave ≤ 11 then .core (Fin.ofNat 256 core) (Fin.ofNat 16 stave) else .chip (Fin.ofNat 16 stave)

def leadOf (s : State) (entry core : Nat) : Nat :=
  ((s.gathers.find? fun g => g.entry == entry && g.core == core).map (·.lead)).getD 0

def setLead (entry core n : Nat) (s : State) : State :=
  { s with gathers := (s.gathers.filter fun g => !(g.entry == entry && g.core == core))
                        ++ (if n = 0 then [] else [{ entry := entry, core := core, lead := n }]) }

/-- A gather's signal (R82, R83): when every enabled core of the section has sent one beyond the last round, the chip
counters rise by 1. The record of a lead that overflows names the stave of the first chip unit the signal goes to, the sending core and
the sending stroke's bar: the spec does not say which it names (DESIGN CHOICE, log 87). -/
def gatherSignal (entry core : Nat) (cores : List Nat) (dests : List (Nat × Nat)) (bar : Nat) (s : State) : State :=
  let n := leadOf s entry core
  if 255 ≤ n then strikeOverflow ((dests.headD (0xFF, 0)).1) core bar s
  else
    let t := setLead entry core (n + 1) s
    if cores.all fun c => decide (1 ≤ leadOf t entry c) then
      let r := cores.foldl (fun acc c => setLead entry c (leadOf acc entry c - 1) acc) t
      dests.foldl (fun acc d => bumpCue (unitAt 0 d.1) d.2 acc) r
    else t

/-- One signal of a unit through its cue map entry (R81, R82). -/
def sendSignal (a : Nat) (u : UnitId) (bar bit : Nat) (s : State) : State :=
  match u with
  | .core c v =>
    match sectionOf s.mem a s.sched.layout c.val with
    | none => s
    | some sec =>
      let i := 88 * sec + 8 * (v.val - 1) + bit
      let e := scCueEntry s.mem a i
      let dests := (if e.validA then [(e.staveA, e.cueA)] else []) ++ (if e.validB then [(e.staveB, e.cueB)] else [])
      let s1 := (dests.filter fun d => decide (d.1 ≤ 11)).foldl (fun acc d => bumpCue (unitAt c.val d.1) d.2 acc) s
      let up := dests.filter fun d => decide (12 ≤ d.1)
      if up.isEmpty then s1
      else gatherSignal i c.val (sectionCores s.fuses.variant (scSection s.mem a s.sched.layout sec)) up bar s1
  | .chip v =>
    let e := scCueEntry s.mem a (352 + 8 * (v.val - 12) + bit)
    let dests := (if e.validA then [(e.staveA, e.cueA)] else []) ++ (if e.validB then [(e.staveB, e.cueB)] else [])
    dests.foldl
      (fun acc d =>
        if 12 ≤ d.1 then bumpCue (unitAt 0 d.1) d.2 acc
        else
          (enabledCores s.fuses.variant).foldl
            (fun x c =>
              match sectionOf s.mem a s.sched.layout c with
              | some sec => if natBit e.sections sec then bumpCue (unitAt c d.1) d.2 x else x
              | none => x) acc) s

/-- A signal for each bit set in `SIGNAL` (R78). -/
def sendSignals (a : Nat) (u : UnitId) (bar signal : Nat) (s : State) : State :=
  (List.range 8).foldl (fun acc b => if natBit signal b then sendSignal a u bar b acc else acc) s

/-- A unit past a BREAK or HALT with nothing in flight sends its token (R90). -/
def giveToken (x : UnitState) : UnitState :=
  if (x.beat == .parked || x.beat == .stopped) && x.inflight.isEmpty then { x with token := true } else x

/-- The sub-arrays of problem `p` of a GANG stroke. -/
def gangMask (s : State) (j : Job) (u : UnitId) (i : Inflight) (p : Nat) : Nat :=
  let a := s.scoreAddr j
  let f : Fire := { score := a, core := unitCore u, rank := unitRank s a u, loops := i.loops, params := j.params }
  fld (descOf s.mem f (i.desc + p)) 19 12

/-- A GANG stroke with a stopped partition has completed: the job is struck, the record names the lowest partition of the core and
lists the problems that were completed (R123, R521). -/
def strikeGang (j : Job) (u : UnitId) (i : Inflight) (s : State) : State :=
  let parts := (s.core (unitCore u)).stoppedParts
  let mu := unitStave u - 1
  let mine := (parts.filter fun p => p.1 == i.key).map (·.2)
  let done (p : Nat) : Bool := !(mine.any fun x => x / 8 == mu && natBit (gangMask s j u i p) (x % 8))
  let mask := ((List.range (i.imm.toNat % 16)).map fun p => if done p then 2 ^ p else 0).sum
  let lowest := (parts.map (·.2)).foldl min 31
  if mine.isEmpty then s
  else strikeRunning .parity 3 (detailPlace (unitStave u) lowest (unitCore u) i.bar i.desc mask 0xFF) s

/-- A GANG stroke with a stopped partition completes once the problems of the core's other units in its operation are written (R123). -/
def othersWritten (u : UnitId) (i : Inflight) (s : State) : Bool :=
  !(i.op == 0x11 && decide (unitStave u ≤ 4) && (s.core (unitCore u)).stoppedParts.any fun p => p.1 == i.key) ||
  (List.range 4).all fun mu => (s.unit (.core (Fin.ofNat 256 (unitCore u)) (Fin.ofNat 16 (mu + 1)))).inflight.all fun x =>
    x.phase == .done || !(x.op == i.op && x.bar == i.bar && x.loops == i.loops && x.desc == i.desc)

/-- A stroke that is done may complete: the oldest of its unit, but for the link unit's in any order (R64), with no strike pending. -/
def mayComplete (u : UnitId) (slot : Nat) (i : Inflight) (s : State) : Bool :=
  i.phase == .done && (slot == 0 || unitStave u == 13) && !strikePending s && othersWritten u i s

/-- A stroke of a unit completes (R64, R78). -/
def completeStroke (u : UnitId) (slot : Nat) (s : State) : State :=
  match s.currentJob with
  | none => s
  | some j =>
    match (s.unit u).inflight[slot]? with
    | none => s
    | some i =>
      if mayComplete u slot i s then
        let t := sendSignals (s.scoreAddr j) u i.bar i.signal.toNat
          (s.updUnit u fun x => { x with inflight := x.inflight.eraseIdx slot })
        let r := t.updUnit u giveToken
        if i.op.toNat == 0x11 && decide (unitStave u ≤ 4) then strikeGang j u i r else r
      else s

/-! ## Active units (R89, R91) -/

/-- The units that take part in the running kernel. -/
def activeUnits (s : State) : List UnitId :=
  match s.currentJob with
  | none => []
  | some j => (layoutCores s.fuses.variant s.mem (s.scoreAddr j) s.sched.layout).flatMap coreUnits ++ chipUnits

/-- A unit's token counts: it is past a BREAK, or past a HALT. -/
def tokenAt (at_ : Beat) (x : UnitState) : Bool := x.token && x.beat == at_

/-- A core's leaf of the tally tree: 0 to 11. -/
def leafTally (at_ : Beat) (k : Core) : Nat := (k.units.filter (tokenAt at_)).length

/-- The node of a mesh row segment: the leaves of its active cores, 0 to 176. -/
def rowTally (s : State) (at_ : Beat) (cores : List Nat) (row : Nat) : Nat :=
  ((cores.filter fun c => c / 16 == row).map fun c => leafTally at_ (s.core c)).sum

/-- The root in the sync unit: the row nodes and the four chip units, 0 to 2,820. -/
def rootTally (s : State) (at_ : Beat) (cores : List Nat) : Nat :=
  ((List.range 16).map (rowTally s at_ cores)).sum + (s.chips.filter (tokenAt at_)).length

/-- The tally root counts every active unit, each past a BREAK, or each past a HALT (R91, R92). -/
def tallied (s : State) (at_ : Beat) : Bool :=
  match s.currentJob with
  | none => false
  | some j =>
    let cores := layoutCores s.fuses.variant s.mem (s.scoreAddr j) s.sched.layout
    j.stage == .running && rootTally s at_ cores == 11 * cores.length + 4

/-- Every unit has nothing in flight, or only strokes that a predicate allows: its park token is in. -/
def allParked (s : State) (allow : UnitId → Inflight → Bool) : Bool :=
  (activeUnits s).all fun u => (s.unit u).inflight.all (allow u)

end Sys2Proof.Machine
end

