-- ==== Sys2Proof/Machine/Control.lean ====
section
/-! DEFINITION. Control strokes and the strokes every stave accepts (R62, R63, R66 to R74, R90): REST, CUE, BAR, LOOP_BEGIN,
LOOP_END, BREAK, SECTION, HALT, each at one unit. A unit that is not before the stroke named stands as it is. -/
namespace Sys2Proof.Machine

/-- A unit moves on: no cue, no signal, nothing in flight. It does so under a park request too, since it fires nothing. -/
def moveUnit (u : UnitId) (due : BeatCtx → UnitState → Bool) (move : BeatCtx → State → UnitState → UnitState)
    (s : State) : State :=
  match beatOf s u with
  | none => s
  | some (b, x) => if due b x then s.updUnit u (move b s) else s

/-- The control stroke of opcode `op` is before the unit: ahead of the bar's own stroke for LOOP_BEGIN and SECTION, after it
for the others (R68). -/
def ctlDue (op : Nat) (b : BeatCtx) (x : UnitState) : Bool :=
  b.ctl.op == op && (if op == 2 || op == 5 then x.beat == .control else closeDue b.ctl x)

/-- REST (R62): the stave holds 64 zero bits, or the section mask leaves the core out (R67). -/
def execRest (u : UnitId) (s : State) : Host.Outcome State Fault Refusal :=
  .next (moveUnit u (fun b x => b.raw == 0 && strokeDue b.ctl x) (fun b _ x => afterStroke b.ctl x) s)

/-- CUE (R63): it completes as it fires, unless its unit completes in bar order and strokes before it have yet to complete (R64). -/
def execCue (u : UnitId) (s : State) : Host.Outcome State Fault Refusal :=
  .next (runStroke u 1 noStream
    (fun _ key t =>
      let d := doneStroke u key t
      let n := (s.unit u).inflight.length
      if n = 0 || unitStave u = 13 then completeStroke u n d else d) s)

/-- The next bar, before its first stroke. -/
def UnitState.goTo (x : UnitState) (bar : Nat) : UnitState := { x with bar := bar, passed := x.passed + 1, beat := .control }

/-- BAR (R66): no action beyond the section mask. -/
def execBar (u : UnitId) (s : State) : Host.Outcome State Fault Refusal :=
  .next (moveUnit u (ctlDue 1) (fun b _ x => x.goTo (b.bar + 1)) s)

/-- The count of a LOOP_BEGIN (R65, R71). -/
def loopCount (b : BeatCtx) : Nat := ctlTurns b.ctl b.job.params

/-- LOOP_BEGIN (R69 to R71): the loop opens with its counter at 0, or, with a count of 0, the whole body is passed over. -/
def execLoopBegin (u : UnitId) (s : State) : Host.Outcome State Fault Refusal :=
  .next (moveUnit u (ctlDue 2)
    (fun b t x =>
      let n := loopCount b
      if n = 0 then
        match scLoopEnd t.mem b.fire.score b.ctl.level (scBarCount t.mem b.fire.score - b.bar) b.bar with
        | some e => x.goTo (e + 1)
        | none => x
      else
        { x with beat := .stroke,
                 loops := updAt x.loops b.ctl.level fun _ =>
                   { isOpen := true, count := n, counter := 0, beginBar := b.bar } }) s)

/-- LOOP_END (R70): another turn at the LOOP_BEGIN bar's own stroke, or out of the loop. -/
def execLoopEnd (u : UnitId) (s : State) : Host.Outcome State Fault Refusal :=
  .next (moveUnit u (ctlDue 3)
    (fun b _ x =>
      let l := x.loops.getD b.ctl.level LoopLevel.closed
      if l.isOpen && decide (l.counter + 1 < l.count) then
        { x with bar := l.beginBar, passed := x.passed + 1, beat := .stroke,
                 loops := updAt x.loops b.ctl.level fun k => { k with counter := k.counter + 1 } }
      else ({ x with loops := updAt x.loops b.ctl.level fun _ => LoopLevel.closed }).goTo (b.bar + 1)) s)

/-- BREAK (R66, R90): the unit parks, and its token goes out once its strokes have completed. -/
def execBrk (u : UnitId) (s : State) : Host.Outcome State Fault Refusal :=
  .next (moveUnit u (ctlDue 4) (fun _ _ x => giveToken { x with beat := .parked }) s)

/-- SECTION (R66, R68, R74): its layout is in force from this bar on, its own strokes included. -/
def execSectionCtl (u : UnitId) (s : State) : Host.Outcome State Fault Refusal :=
  .next (match beatOf s u with
    | none => s
    | some (b, x) =>
      if ctlDue 5 b x then
        let t := s.updUnit u fun y => { y with beat := .stroke }
        restClocks { t with sched := { t.sched with layout := b.ctl.imm % 8 } }
      else s)

/-- HALT (R66, R90): the unit stops, and its token goes out once its strokes have completed. -/
def execHalt (u : UnitId) (s : State) : Host.Outcome State Fault Refusal :=
  .next (moveUnit u (ctlDue 6) (fun _ _ x => giveToken { x with beat := .stopped }) s)

end Sys2Proof.Machine
end

