-- ==== Sys2Proof/Machine/Dma.lean ====
section
/-! DEFINITION. The core DMA and the chip DMA (R270 to R273): copies and fills of rows and planes. The order in which bytes
move is not defined and no byte of a stroke is written twice, so the data is written when the stroke fires. -/
namespace Sys2Proof.Machine

/-- The fields of a DMA descriptor (R271). -/
structure DmaDesc where
  mcast : Bool
  mcastSection : Nat
  srcBuf : Nat
  srcOfs : Nat
  dstBuf : Nat
  dstOfs : Nat
  bytes : Nat
  rows : Nat
  planes : Nat
  srcRow : Nat
  srcPlane : Nat
  dstRow : Nat
  dstPlane : Nat
  fill : Nat
  deriving DecidableEq, Repr

def DmaDesc.ofDesc (d : Desc) : DmaDesc :=
  { mcast := bitAt d 30, mcastSection := fld d 29 28, srcBuf := fld d 511 500, srcOfs := fld d 499 460,
    dstBuf := fld d 459 448, dstOfs := fld d 447 408, bytes := fld d 407 384, rows := fld d 383 360,
    planes := fld d 359 344, srcRow := fld d 343 304, srcPlane := fld d 303 264, dstRow := fld d 263 224,
    dstPlane := fld d 223 184, fill := fld d 183 152 }

/-- The rows of a stroke: source and destination offsets from the first row's (R272). -/
def DmaDesc.rowList (d : DmaDesc) : List (Nat × Nat) :=
  (List.range d.planes).flatMap fun p => (List.range d.rows).map fun r =>
    (p * d.srcPlane + r * d.srcRow, p * d.dstPlane + r * d.dstRow)

/-- The firing contexts whose scratch or memory is written: every enabled core of the target section under `MCAST`, else
the stroke's own (R273). -/
def dmaTargets (s : State) (f : Fire) (d : DmaDesc) : List Fire :=
  if d.mcast then
    (sectionCores s.fuses.variant (scSection s.mem f.score s.sched.layout d.mcastSection)).map fun c => { f with core := c }
  else [f]

/-- The bytes of a run of a row of a copy, read before anything is written. -/
def dmaRead (m : Memory) (f : Fire) (d : DmaDesc) : List (Nat × List Byte) :=
  let a := bufAddr m f d.srcBuf d.srcOfs
  d.rowList.map fun r => (r.2, m.readBytes (a + r.1) d.bytes)

/-- The bytes of a fill: byte b of each row is byte (b mod 4) of the pattern (R272). -/
def dmaPattern (d : DmaDesc) : List (Nat × List Byte) :=
  let w := leBytes 4 d.fill
  let row := (List.range d.bytes).map fun b => w.getD (b % 4) 0
  d.rowList.map fun r => (r.2, row)

/-- Rows written at a destination. -/
def dmaWrite (stave a : Nat) (rows : List (Nat × List Byte)) (s : State) : State :=
  rows.foldl (fun acc r => unitWrite stave acc (a + r.1) r.2) s

/-- A DMA stroke's data action (R272, R273). -/
def dmaMove (u : UnitId) (copy : Bool) (b : BeatCtx) (key : Nat) (s : State) : State :=
  let d := DmaDesc.ofDesc (descOf s.mem b.fire b.word.desc)
  let rows := if copy then dmaRead s.mem b.fire d else dmaPattern d
  let t := (dmaTargets s b.fire d).foldl (fun acc f => dmaWrite (unitStave u) (bufAddr s.mem f d.dstBuf d.dstOfs) rows acc) s
  doneStroke u key t

def dmaUnit (c : Fin 256) : UnitId := .core c 10

/-- `COPY` on a core DMA (R270). -/
def execCoreDmaCopy (c : Fin 256) (s : State) : Host.Outcome State Fault Refusal :=
  .next (runStroke (dmaUnit c) 0x10 noStream (dmaMove (dmaUnit c) true) s)

/-- `FILL` on a core DMA. -/
def execCoreDmaFill (c : Fin 256) (s : State) : Host.Outcome State Fault Refusal :=
  .next (runStroke (dmaUnit c) 0x11 noStream (dmaMove (dmaUnit c) false) s)

/-- `COPY` on the chip DMA. -/
def execChipDmaCopy (s : State) : Host.Outcome State Fault Refusal :=
  .next (runStroke (.chip 12) 0x10 noStream (dmaMove (.chip 12) true) s)

/-- `FILL` on the chip DMA. -/
def execChipDmaFill (s : State) : Host.Outcome State Fault Refusal :=
  .next (runStroke (.chip 12) 0x11 noStream (dmaMove (.chip 12) false) s)

end Sys2Proof.Machine
end

