-- ==== Sys2Proof/Machine/Descs.lean ====
section
/-! DEFINITION. The descriptors of matrix work and of streams as the strokes read them: matrix and gang (R137, R138), epilogue
(R161), window (R139) and stream descriptors (R201), the reading of stream elements (R170, R538) and the reduction tree
(R176). -/
namespace Sys2Proof.Machine

/-! ## Descriptor fields -/

/-- A matrix or gang descriptor (R137, R138). -/
structure MatDesc where
  wFmt : Fmt
  xFmt : Fmt
  yFmt : Fmt
  units : Nat
  saMask : Nat
  shape : Nat
  pkind : Nat
  yMcast : Bool
  conv : Bool
  xScaled : Bool
  wScaled : Bool
  n0 : Nat
  xsStride : Nat
  combo : Nat
  mcastSection : Nat
  order : Nat
  damper : Nat
  groups : Nat
  epi : Nat
  win : Nat
  yStride : Nat
  xStride : Nat
  wStride : Nat
  tileK : Nat
  xsBuf : Nat
  xsOfs : Nat
  wsBuf : Nat
  wsOfs : Nat
  yBuf : Nat
  yOfs : Nat
  xBuf : Nat
  xOfs : Nat
  wBuf : Nat
  wOfs : Nat
  n : Nat
  t : Nat
  k : Nat
  deriving DecidableEq, Repr

def MatDesc.ofDesc (d : Desc) : MatDesc :=
  { wFmt := Fmt.ofField (fld d 31 28), xFmt := Fmt.ofField (fld d 27 24), yFmt := Fmt.ofField (fld d 23 20),
    units := fld d 19 16, saMask := fld d 19 12, shape := fld d 11 10, pkind := fld d 9 8, yMcast := bitAt d 3,
    conv := bitAt d 2, xScaled := bitAt d 1, wScaled := bitAt d 0, n0 := fld d 511 480, xsStride := fld d 479 460,
    combo := fld d 459 456, mcastSection := fld d 455 454, order := fld d 453 452, damper := fld d 451 444,
    groups := fld d 443 428, epi := fld d 427 412, win := fld d 411 396, yStride := fld d 395 372,
    xStride := fld d 371 348, wStride := fld d 347 324, tileK := fld d 323 308, xsBuf := fld d 307 296,
    xsOfs := fld d 295 272, wsBuf := fld d 271 260, wsOfs := fld d 259 236, yBuf := fld d 235 224, yOfs := fld d 223 200,
    xBuf := fld d 199 188, xOfs := fld d 187 164, wBuf := fld d 163 152, wOfs := fld d 151 128, n := fld d 127 112,
    t := fld d 111 88, k := fld d 87 64 }

/-- Both operands are INT8: sums are exact in INT32 (R48). -/
def MatDesc.ints (d : MatDesc) : Bool := d.wFmt == .int8 && d.xFmt == .int8

/-- An epilogue descriptor (R161). -/
structure EpiDesc where
  fn : Nat
  rFmt : Fmt
  pFmt : Fmt
  alphaVec : Bool
  biasEn : Bool
  biasBf : Bool
  onDevice : Bool
  norm : Bool
  cfn : Bool
  statEn : Bool
  qscale : Nat
  alpha : Word
  m : Nat
  send : Nat
  w2Fmt : Fmt
  gatherW : Bool
  extent : Nat
  statBuf : Nat
  statOfs : Nat
  w2sBuf : Nat
  w2sOfs : Nat
  auxBuf : Nat
  auxOfs : Nat
  auxStride : Nat
  ysBuf : Nat
  ysOfs : Nat
  ysStride : Nat
  vecBuf : Nat
  vecOfs : Nat
  resBuf : Nat
  resOfs : Nat
  resStride : Nat
  biasBuf : Nat
  biasOfs : Nat
  deriving DecidableEq, Repr

def EpiDesc.ofDesc (d : Desc) : EpiDesc :=
  { fn := fld d 31 24, rFmt := Fmt.ofField (fld d 23 20), pFmt := Fmt.ofField (fld d 19 16), alphaVec := bitAt d 14,
    biasEn := bitAt d 13, biasBf := bitAt d 12, onDevice := bitAt d 11, norm := bitAt d 10, cfn := bitAt d 9,
    statEn := bitAt d 8, qscale := fld d 7 0, alpha := BitVec.ofNat 32 (fld d 511 480), m := fld d 479 456,
    send := fld d 455 440, w2Fmt := Fmt.ofField (fld d 439 436), gatherW := bitAt d 435, extent := fld d 434 411,
    statBuf := fld d 410 399, statOfs := fld d 398 375, w2sBuf := fld d 374 363, w2sOfs := fld d 362 339,
    auxBuf := fld d 338 327, auxOfs := fld d 326 303, auxStride := fld d 302 279, ysBuf := fld d 278 267,
    ysOfs := fld d 266 243, ysStride := fld d 242 223, vecBuf := fld d 222 211, vecOfs := fld d 210 187,
    resBuf := fld d 186 175, resOfs := fld d 174 151, resStride := fld d 150 127, biasBuf := fld d 126 115,
    biasOfs := fld d 114 91 }

/-- A window descriptor (R139). -/
structure WinDesc where
  cout : Nat
  ow : Nat
  oh : Nat
  padR : Nat
  padL : Nat
  padB : Nat
  padT : Nat
  images : Nat
  c : Nat
  width : Nat
  height : Nat
  cb : Nat
  kh : Nat
  kw : Nat
  sh : Nat
  sw : Nat
  dh : Nat
  dw : Nat
  deriving DecidableEq, Repr

def WinDesc.ofDesc (d : Desc) : WinDesc :=
  { cout := fld d 207 192, ow := fld d 191 176, oh := fld d 175 160, padR := fld d 159 152, padL := fld d 151 144,
    padB := fld d 143 136, padT := fld d 135 128, images := fld d 127 112, c := fld d 111 96, width := fld d 95 80,
    height := fld d 79 64, cb := if bitAt d 31 then 32 else 16, kh := fld d 30 28 + 1, kw := fld d 27 25 + 1,
    sh := fld d 24 23 + 1, sw := fld d 22 21 + 1, dh := fld d 20 19 + 1, dw := fld d 18 17 + 1 }

/-- A Damper descriptor (R254). -/
structure DamperDesc where
  theta : Word
  xsBuf : Nat
  xsOfs : Nat
  ycBuf : Nat
  ycOfs : Nat
  stepIdx : Nat
  testFrom : Nat
  testUntil : Nat
  deriving DecidableEq, Repr

def DamperDesc.ofDesc (d : Desc) : DamperDesc :=
  { theta := BitVec.ofNat 32 (fld d 511 480), xsBuf := fld d 479 468, xsOfs := fld d 467 428, ycBuf := fld d 427 416,
    ycOfs := fld d 415 376, stepIdx := fld d 375 352, testFrom := fld d 351 328, testUntil := fld d 327 304 }

/-- A stream descriptor (R201). -/
structure Stream where
  fmt : Fmt
  scaled : Bool
  sdimRows : Bool
  window : Bool
  buf : Nat
  ofs : Nat
  rowStride : Nat
  sbuf : Nat
  sofs : Nat
  sstride : Nat
  vdiv : Nat
  deriving DecidableEq, Repr

def Stream.ofDesc (d : Desc) : Stream :=
  { fmt := Fmt.ofField (fld d 31 28), scaled := bitAt d 27, sdimRows := bitAt d 26, window := fld d 25 24 == 1,
    buf := fld d 511 500, ofs := fld d 499 476, rowStride := fld d 475 452, sbuf := fld d 451 440, sofs := fld d 439 416,
    sstride := fld d 415 392, vdiv := fld d 391 376 }

/-- A stream index of a descriptor: 0xFFFF is unused. -/
def streamOf (m : Memory) (f : Fire) (i : Nat) : Option Stream :=
  if i = 0xFFFF then none else some (Stream.ofDesc (descOf m f i))

/-- The stream moved by a number of bytes, its scales by another. -/
def Stream.moved (x : Stream) (ofs sofs : Nat) : Stream := { x with ofs := x.ofs + ofs, sofs := x.sofs + sofs }

/-! ## Stream elements (R170) -/

/-- The address of row `i`. -/
def Stream.row (x : Stream) (m : Memory) (f : Fire) (i : Nat) : Nat := bufAddr m f x.buf (x.ofs + i * x.rowStride)

def Stream.code (x : Stream) (m : Memory) (f : Fire) (i j : Nat) : Nat := m.readElem (x.row m f i) x.fmt j

/-- The address of the scale byte of the block of element (i, j). -/
def Stream.scaleAddr (x : Stream) (m : Memory) (f : Fire) (i j : Nat) : Nat :=
  bufAddr m f x.sbuf (x.sofs + (if x.sdimRows then i / 32 * x.sstride + j else i * x.sstride + j / 32))

def Stream.scale (x : Stream) (m : Memory) (f : Fire) (i j : Nat) : Option Nat :=
  if x.scaled then some (m.readNat (x.scaleAddr m f i j) 1) else none

/-- The exact value of element (i, j). -/
def Stream.val (x : Stream) (m : Memory) (f : Fire) (i j : Nat) : Val := x.fmt.value (x.scale m f i j) (x.code m f i j)

/-- Places of scale bytes that hold 0xFF, each once (R35). -/
def reservedAt (m : Memory) (as : List Nat) : Nat := (as.eraseDups.filter fun a => m.readNat a 1 == 0xFF).length

/-- Blocks of a `rows` × `cols` region whose scale byte is 0xFF, each once (R35, R170). -/
def Stream.reserved (x : Stream) (m : Memory) (f : Fire) (rows cols : Nat) : Nat :=
  if !x.scaled then 0
  else if x.sdimRows then
    reservedAt m ((List.range (ceilDiv rows 32)).flatMap fun b => (List.range cols).map fun j => x.scaleAddr m f (32 * b) j)
  else reservedAt m ((List.range rows).flatMap fun i => (List.range (ceilDiv cols 32)).map fun b => x.scaleAddr m f i (32 * b))

/-- A code of the wide floating formats or INT32 for a 32-bit stage result (R146, R168). -/
def storeCode (f : Fmt) (w : Word) : Nat :=
  match f with
  | .fp32 | .int32 => w.toNat
  | f => f.encode (ofF32 w)

/-! ## Counters (R44) -/

def countCore (c : Nat) (f : CoreCounters → CoreCounters) (s : State) : State :=
  s.updCore c fun k => { k with counters := f k.counters }

def countReserved (c n : Nat) (s : State) : State :=
  countCore c (fun k => { k with scaleRsvd := satAdd 32 k.scaleRsvd n }) s

def countNan (c n : Nat) (s : State) : State :=
  countCore c (fun k => { k with nanNarrow := satAdd 32 k.nanNarrow n }) s

/-! ## Sums and trees -/

/-- The exact group sums of two runs of values added in ascending order (R45, R47), the accumulator given. -/
def dotGroups (acc : Word) : Nat → List Val → List Val → Word
  | 0, _, _ => acc
  | n + 1, ws, xs =>
    let g := groupSum (((ws.take 32).zip (xs.take 32)).map fun p => p.1.mul p.2)
    dotGroups (f32Add acc (toF32 g)) n (ws.drop 32) (xs.drop 32)

/-- The exact INT32 sum of products of INT8 elements (R48). -/
def dotInt (ws xs : List Val) : Word := BitVec.ofInt 32 (((ws.zip xs).map fun p => floorVal (p.1.mul p.2)).sum)

/-- One output element of a product (R45, R48). -/
def dot (ints : Bool) (k : Nat) (ws xs : List Val) : Word :=
  if ints then dotInt ws xs else dotGroups 0 (ceilDiv k 32) ws xs

/-- One level of the pairwise tree (R176): neighbours combined. -/
def treeLevel {α : Type} (combine : α → α → α) : List α → List α
  | a :: b :: rest => combine a b :: treeLevel combine rest
  | l => l

/-- The 128-lane tree: inactive lanes carry the identity. -/
def tree128 {α : Type} (combine : α → α → α) (ident : α) (lanes : List α) : α :=
  let full := lanes ++ List.replicate (128 - lanes.length) ident
  ((List.range 7).foldl (fun l _ => treeLevel combine l) full).headD ident

/-- A value rounded to BF16 and held as FP32. -/
def toBf (v : Val) : Word := BitVec.ofNat 32 (Layout.bf16.encode v * 65536)

/-- Column `t` of rows. -/
def columnOf (rows : List (List Word)) (t : Nat) : List Word := rows.map fun r => r.getD t 0

/-- The enabled cores of a section of the layout in force. -/
def coresOf (s : State) (f : Fire) (sec : Nat) : List Nat :=
  sectionCores s.fuses.variant (scSection s.mem f.score s.sched.layout sec)

/-- The enabled cores of the section a core lies in. -/
def sectionMates (s : State) (score c : Nat) : List Nat :=
  match sectionOf s.mem score s.sched.layout c with
  | some sec => sectionCores s.fuses.variant (scSection s.mem score s.sched.layout sec)
  | none => []

end Sys2Proof.Machine
end

