-- ==== Sys2Proof/Machine/Matrix.lean ====
section
/-! DEFINITION. Matrix work up to the drain stick (R102 to R136, R152 to R158, R244 to R251): what the feed stick delivers, the
order of the broadcast, the products of the Mallet units in row and gang mode, held tiles, the chained product and the Damper test. How
entries and accumulator sets move stands in Streams.lean. -/
namespace Sys2Proof.Machine

/-! ## Units of a core -/

def muUnit (c : Nat) (mu : Nat) : UnitId := .core (Fin.ofNat 256 c) (Fin.ofNat 16 (mu + 1))
def feedUnit (c : Nat) : UnitId := .core (Fin.ofNat 256 c) 7
def drainUnit (c : Nat) : UnitId := .core (Fin.ofNat 256 c) 8

/-- The units named in `UNITS`, in ascending number. -/
def namedUnits (d : MatDesc) : List Nat := (List.range 4).filter fun u => natBit d.units u

/-- The bands of an operation, its rounds, its t-blocks (R104, R108). -/
def bandCount (d : MatDesc) : Nat := ceilDiv d.n 64
def roundCount (d : MatDesc) : Nat := ceilDiv (bandCount d) (namedUnits d).length
def blockCount (t : Nat) : Nat := ceilDiv t 32

/-- The band of a unit in a round (R108). -/
def bandOf (d : MatDesc) (mu round : Nat) : Option Nat :=
  ((namedUnits d).findIdx? (· == mu)).bind fun i =>
    let b := round * (namedUnits d).length + i
    if b < bandCount d then some b else none

/-- The bands of a Mallet unit, round by round. -/
def bandsOf (d : MatDesc) (mu : Nat) : List Nat := (List.range (roundCount d)).filterMap (bandOf d mu)

/-- The units with a band in a round: those that take part in its broadcast (R114). -/
def roundUnits (d : MatDesc) (round : Nat) : List Nat := (List.range 4).filter fun u => (bandOf d u round).isSome

def matAt (m : Memory) (f : Fire) (i : Nat) : MatDesc := MatDesc.ofDesc (descOf m f i)
def epiAt (m : Memory) (f : Fire) (d : MatDesc) : EpiDesc := EpiDesc.ofDesc (descOf m f d.epi)
def winAt (m : Memory) (f : Fire) (d : MatDesc) : WinDesc := WinDesc.ofDesc (descOf m f d.win)

/-! ## The activation operand (R128 to R133, R138, R152, R153) -/

/-- Channels of one product of a convolution: all of them in whole blocks, a group's, or one. -/
def winCap (d : MatDesc) (w : WinDesc) : Nat :=
  if d.pkind = 0 then ceilDiv w.c w.cb * w.cb else if d.pkind = 1 then w.c / d.groups else 1

/-- Where element `k` of the window of position `t` in product `q` is stored: its channel block of its pixel, and its channel in the
block; none where the element is an exact zero (R130, R131, R133). The blocks of a group count from the group's first channel, the last
only as wide as the channels left: the spec gives no order of `k` in a group whose channels are no multiple of the block (DESIGN CHOICE,
log 90). -/
def winSpot (d : MatDesc) (w : WinDesc) (q t k : Nat) : Option (Nat × Nat) :=
  let cap := winCap d w
  let full := w.cb * w.kh * w.kw
  let cb := k / full
  let r := k % full
  let wd := min w.cb (cap - cb * w.cb)
  let kc := r / wd % w.kw
  let kr := r / wd / w.kw
  let c := (if d.pkind = 0 then 0 else q * cap) + cb * w.cb + r % wd
  let ih : Int := (t / w.ow % w.oh * w.sh + kr * w.dh : Nat) - (w.padT : Int)
  let iw : Int := (t % w.ow * w.sw + kc * w.dw : Nat) - (w.padL : Int)
  if ih < 0 || (w.height : Int) ≤ ih || iw < 0 || (w.width : Int) ≤ iw || w.c ≤ c then none
  else
    let pix (blk : Nat) : Nat :=
      ((t / (w.ow * w.oh) * ceilDiv w.c w.cb + blk) * w.height + ih.toNat) * w.width + iw.toNat
    some (pix (c / w.cb), c % w.cb)

/-- That element's code, and its scale byte. -/
def winCode (m : Memory) (f : Fire) (d : MatDesc) (w : WinDesc) (q t k : Nat) : Option (Nat × Option Nat) :=
  (winSpot d w q t k).map fun p =>
    (m.readElem (bufAddr m f d.xBuf d.xOfs) d.xFmt (p.1 * w.cb + p.2),
     if d.xScaled then some (m.readNat (bufAddr m f d.xsBuf (d.xsOfs + p.1)) 1) else none)

/-- A gather index: none when it is negative or not below the extent (R153). -/
def gatherIndex (m : Memory) (f : Fire) (e : EpiDesc) (i : Nat) : Option Nat :=
  let v := signedOf 32 (m.readNat (bufAddr m f e.auxBuf (e.auxOfs + 4 * i)) 4)
  if v < 0 || (e.extent : Int) ≤ v then none else some v.toNat

/-- Indices of a list that are out of range, each counted in `GATHER_OOB` (R153). -/
def gatherMisses (m : Memory) (f : Fire) (e : EpiDesc) (is : List Nat) : Nat :=
  (is.filter fun i => (gatherIndex m f e i).isNone).length

/-- The stored element X[k, t]. -/
def plainCode (m : Memory) (f : Fire) (d : MatDesc) (t k : Nat) : Nat × Option Nat :=
  (m.readElem (bufAddr m f d.xBuf (d.xOfs + k * d.xStride)) d.xFmt t,
   if d.xScaled then some (m.readNat (bufAddr m f d.xsBuf (d.xsOfs + k / 32 * d.xsStride + t)) 1) else none)

/-- The code and scale byte that the broadcast delivers for (k, t) of product `q`, none for an exact zero. -/
def xCode (m : Memory) (f : Fire) (d : MatDesc) (q t k : Nat) : Option (Nat × Option Nat) :=
  if d.conv || !(d.pkind == 0) then winCode m f d (winAt m f d) q t k
  else if d.combo = 9 then
    some (m.readElem (bufAddr m f d.xBuf (d.xOfs + t * d.xStride)) d.xFmt k,
      if d.xScaled then some (m.readNat (bufAddr m f d.xsBuf (d.xsOfs + t * d.xsStride + k / 32)) 1) else none)
  else if d.combo = 10 && !(epiAt m f d).gatherW then
    (gatherIndex m f (epiAt m f d) t).map fun i => plainCode m f d i k
  else some (plainCode m f d t k)

/-- The exact value of a delivered element. -/
def codeVal (fmt : Fmt) : Option (Nat × Option Nat) → Val
  | none => Val.zero
  | some (c, e) => fmt.value e c

/-- Group `g` of column `t` of product `q` as the broadcast delivers it: zeros at and beyond T, no element at or beyond K (R105, R117). -/
def xGroup (m : Memory) (f : Fire) (d : MatDesc) (q t g : Nat) : List Val :=
  (rangeFrom (32 * g) (min 32 (d.k - 32 * g))).map fun k => if t < d.t then codeVal d.xFmt (xCode m f d q t k) else Val.zero

/-- Where the scale byte of the element delivered for (k, t) of product `q` lies in the scale buffer, if it has one. -/
def xScaleOfs (m : Memory) (f : Fire) (d : MatDesc) (q t k : Nat) : Option Nat :=
  if d.conv || !(d.pkind == 0) then (winSpot d (winAt m f d) q t k).map (·.1)
  else if d.combo = 9 then some (t * d.xsStride + k / 32)
  else if d.combo = 10 && !(epiAt m f d).gatherW then
    (gatherIndex m f (epiAt m f d) t).map fun i => k / 32 * d.xsStride + i
  else some (k / 32 * d.xsStride + t)

/-- The products a gang problem's rows belong to: convolution groups (R133). -/
def gangGroups (m : Memory) (f : Fire) (d : MatDesc) : List Nat :=
  let q (j : Nat) : Nat :=
    if d.pkind = 1 then (d.n0 + j) / ((winAt m f d).cout / d.groups) else if d.pkind = 2 then d.n0 + j else 0
  rangeFrom (q 0) (q (d.n - 1) + 1 - q 0)

/-- Blocks that the columns of the products take elements from and whose scale byte is 0xFF, each once (R35). -/
def reservedColumns (m : Memory) (f : Fire) (d : MatDesc) (qs : List Nat) : Nat :=
  if d.xScaled then
    reservedAt m (qs.flatMap fun q => (List.range d.t).flatMap fun t => ((List.range d.k).filterMap (xScaleOfs m f d q t)).map fun o =>
      bufAddr m f d.xsBuf (d.xsOfs + o))
  else 0

/-! ## The order of the broadcast (R103, R113, R158) -/

/-- Groups in one entry: two where both operands are 4-bit, else one (R103, R106). -/
def groupsPerEntry (w x : Fmt) : Nat := if w.bits ≤ 4 && x.bits ≤ 4 then 2 else 1

/-- Entries of a column. -/
def stepCount (k p : Nat) : Nat := ceilDiv (ceilDiv k 32) p

/-- Entries of a row-mode operation, and the place of the `n`-th: rounds, t-blocks, groups, columns, the last innermost (R113). -/
def rowEntries (d : MatDesc) : Nat :=
  roundCount d * blockCount d.t * stepCount d.k (groupsPerEntry d.wFmt d.xFmt) * 32

def rowPlace (d : MatDesc) (n : Nat) : EntryPlace :=
  let p := groupsPerEntry d.wFmt d.xFmt
  let steps := stepCount d.k p
  { problem := 0, round := n / (32 * steps * blockCount d.t), block := n / (32 * steps) % blockCount d.t, tile := 0,
    group := n / 32 % steps * p, col := n % 32 }

/-- Entries of a chained product of `k` by `m` over `t` positions, and the place of the `n`-th: for each t-block and each chain tile the
groups of X once (R158). -/
def chainEntries (k p m t : Nat) : Nat := blockCount t * ceilDiv m 128 * stepCount k p * 32

def chainPlace (k p m n : Nat) : EntryPlace :=
  let steps := stepCount k p
  { problem := 0, round := 0, block := n / (32 * steps * ceilDiv m 128), tile := n / (32 * steps) % ceilDiv m 128,
    group := n / 32 % steps * p, col := n % 32 }

/-! ## The output tiles of a gang problem (R119 to R121, R133) -/

/-- Rows and positions of an output tile by `SHAPE`. -/
def tileRowsOf (shape : Nat) : Nat := if shape = 0 then 16 else 32
def tileColsOf (shape : Nat) : Nat := if shape = 0 then 16 else if shape = 1 then 32 else 64

/-- The runs of rows that form one product each, with that product: the groups of a grouped convolution, else all rows. Each row of a
depthwise product has a product of its own. -/
def gangParts (m : Memory) (f : Fire) (d : MatDesc) : List (Nat × Nat × Nat) :=
  if d.pkind = 1 then
    let w := (winAt m f d).cout / d.groups
    (gangGroups m f d).map fun q => (q, q * w - d.n0, min d.n ((q + 1) * w - d.n0))
  else [(0, 0, d.n)]

/-- An output tile: its product, its first row and position, its rows and positions. -/
structure GangTile where
  part : Nat
  row0 : Nat
  col0 : Nat
  rows : Nat
  cols : Nat
  deriving DecidableEq, Repr

/-- The output tiles of a problem: products outermost, n-tiles, then t-tiles (R121). -/
def gangTiles (m : Memory) (f : Fire) (d : MatDesc) : List GangTile :=
  let r := tileRowsOf d.shape
  let c := tileColsOf d.shape
  (gangParts m f d).flatMap fun p => (List.range (ceilDiv (p.2.2 - p.2.1) r)).flatMap fun x => (List.range (ceilDiv d.t c)).map fun y =>
    { part := p.1, row0 := p.2.1 + x * r, col0 := y * c, rows := min r (p.2.2 - p.2.1 - x * r), cols := min c (d.t - y * c) }

/-- The first sub-array of the array that tile `x` of a problem goes to: with `SHAPE` 0 the (x mod m)-th of the mask (R120). -/
def gangArray (d : MatDesc) (x : Nat) : Nat :=
  let bs := (List.range 8).filter fun b => natBit d.saMask b
  if d.shape = 0 then bs.getD (x % bs.length) 0 else bs.headD 0

/-- Entries of a problem: one for each group of k of each tile. -/
def gangEntries (m : Memory) (f : Fire) (d : MatDesc) : Nat := (gangTiles m f d).length * ceilDiv d.k 32

/-- The place of the `n`-th entry of the problems of a gang stroke, problem after problem (R120, R121). -/
def gangPlace (m : Memory) (f : Fire) (desc : Nat) : Nat → Nat → Nat → EntryPlace
  | 0, p, n => { problem := p, round := 0, block := n, tile := 0, group := 0, col := 0 }
  | more + 1, p, n =>
    let d := matAt m f (desc + p)
    if n < gangEntries m f d then
      { problem := p, round := 0, block := n / ceilDiv d.k 32, tile := 0, group := n % ceilDiv d.k 32, col := 0 }
    else gangPlace m f desc more (p + 1) (n - gangEntries m f d)

/-- The Mallet units that hold a stroke of an opcode on a descriptor in a bar. -/
def musHolding (m : Memory) (score bar op desc : Nat) : List Nat :=
  (List.range 4).filter fun mu =>
    let w := StrokeWord.ofWord (scStave m score bar (mu + 1))
    w.op == op && w.desc == desc

/-! ## The weight operand and held tiles (R109 to R112) -/

/-- Row `j` of the band, k from `k0` up to `k1`, and the reserved blocks met. -/
def wRow (m : Memory) (f : Fire) (d : MatDesc) (j k0 k1 : Nat) : List Val × Nat :=
  let src := if d.combo = 10 && (epiAt m f d).gatherW then gatherIndex m f (epiAt m f d) j else some j
  match src with
  | none => (List.replicate (k1 - k0) Val.zero, 0)
  | some r =>
    let base := bufAddr m f d.wBuf (d.wOfs + r * d.wStride)
    let sc (g : Nat) : Option Nat :=
      if d.wScaled then some (m.readNat (bufAddr m f d.wsBuf (d.wsOfs + r * ceilDiv d.k 32 + g)) 1) else none
    ((rangeFrom k0 (k1 - k0)).map fun k => d.wFmt.value (sc (k / 32)) (m.readElem base d.wFmt k),
     ((rangeFrom (k0 / 32) (ceilDiv k1 32 - k0 / 32)).filter fun g => sc g == some 0xFF).length)

/-- The code of a format (R102). -/
def Fmt.code : Fmt → Nat
  | .fp32 => 0 | .bf16 => 1 | .fp16 => 2 | .e4m3 => 3 | .e5m2 => 4 | .fp4 => 5 | .bg6 => 6 | .bg4 => 7 | .int8 => 8
  | .int32 => 9

/-- The k ranges of the tiles of a row (R109). -/
def tileSpans (d : MatDesc) : List (Nat × Nat) :=
  let w := if d.tileK = 0 then d.k else d.tileK
  (List.range (ceilDiv d.k w)).map fun i => (i * w, min d.k ((i + 1) * w))

/-- What must match for a held tile to be used again (R112). -/
def tileKey (d : MatDesc) (band : Nat) (span : Nat × Nat) : List Nat :=
  [d.wBuf, d.wOfs + 64 * band * d.wStride, d.wStride, d.wFmt.code, min 64 (d.n - 64 * band), span.1, span.2,
   if d.wScaled then 1 else 0, d.wsBuf, d.wsOfs + 64 * band * ceilDiv d.k 32]

/-- A tile loaded from scratch: lanes at or beyond N compute with zero weights (R117). -/
def loadTile (m : Memory) (f : Fire) (d : MatDesc) (band : Nat) (span : Nat × Nat) : HeldTile × Nat :=
  let rows := (List.range 64).map fun l =>
    if 64 * band + l < d.n then wRow m f d (64 * band + l) span.1 span.2
    else (List.replicate (span.2 - span.1) Val.zero, 0)
  ({ half := 0, src := tileKey d band span, rows := rows.map (·.1) }, (rows.map (·.2)).sum)

/-- The rows of W are gathered through an index list (R153). -/
def gathersRows (m : Memory) (f : Fire) (d : MatDesc) : Bool := d.combo == 10 && (epiAt m f d).gatherW

/-- The source of a tile in a unit's buffer: what R112 names, and for gathered rows the stroke that loaded it, so that no later stroke
uses the tile again (R153). -/
def tileSource (m : Memory) (f : Fire) (d : MatDesc) (band : Nat) (span : Nat × Nat) (key : Nat) : List Nat :=
  tileKey d band span ++ (if gathersRows m f d then [key] else [])

/-- The half that a tile is loaded into (R110; DEDUCED, log 16): with `ORDER` 0 the rounds alternate, with `ORDER` 1 the two tiles of the
band, with `ORDER` 2 the tiles as they pass. -/
def tileHalf (d : MatDesc) (round block i : Nat) : Nat :=
  if d.order = 0 then round % 2 else if d.order = 1 then i % 2 else (block * (tileSpans d).length + i) % 2

/-- A tile of a source: the one the unit holds, or else loaded into a half in the place of what is there (R112). -/
def holdTileOf (src : List Nat) (half : Nat) (rows : List (List Val)) (held : List HeldTile) : HeldTile × List HeldTile :=
  match held.find? fun h => h.src == src with
  | some h => (h, held)
  | none =>
    let h : HeldTile := { half := half, src := src, rows := rows }
    (h, (held.filter fun x => !(x.half == half)) ++ [h])

/-- The tile that group `g` of a band lies in. -/
def fetchTile (m : Memory) (f : Fire) (d : MatDesc) (key band round block g : Nat) (held : List HeldTile) : HeldTile × List HeldTile :=
  let i := 32 * g / (if d.tileK = 0 then d.k else d.tileK)
  let span := (tileSpans d).getD i (0, d.k)
  holdTileOf (tileSource m f d band span key) (tileHalf d round block i) (loadTile m f d band span).1.rows held

/-- Group `g` of the 64 lanes of a tile. -/
def tileGroup (d : MatDesc) (g : Nat) (h : HeldTile) : List (List Val) :=
  let w := if d.tileK = 0 then d.k else d.tileK
  h.rows.map fun r => (r.drop (32 * g - 32 * g / w * w)).take (min 32 (d.k - 32 * g))

/-- The reserved blocks of the tiles that an MM stroke loads, each block once. -/
def reservedTiles (m : Memory) (f : Fire) (d : MatDesc) (mu key : Nat) (held : List HeldTile) : Nat :=
  ((bandsOf d mu).flatMap fun b => (tileSpans d).map fun sp =>
    if held.any fun h => h.src == tileSource m f d b sp key then 0 else (loadTile m f d b sp).2).sum

/-! ## Accumulators (R104 to R107, R117, R119) -/

/-- One group added to an accumulator (R45, R48). -/
def addGroup (ints : Bool) (a : Word) (ws xs : List Val) : Word :=
  if ints then a + dotInt ws xs else f32Add a (toF32 (groupSum ((ws.zip xs).map fun p => p.1.mul p.2)))

/-- Groups of one column of X added in ascending order to a lane's accumulator (R106). -/
def addGroups (ints : Bool) (a : Word) (ws xs : List (List Val)) : Word :=
  (ws.zip xs).foldl (fun acc p => addGroup ints acc p.1 p.2) a

/-- A row-mode entry taken in by every lane: `ws` gives for each group in the entry the lanes' weights. -/
def addColumn (ints : Bool) (col : Nat) (ws : List (List (List Val))) (xs : List (List Val)) (rows : List (List Word)) :
    List (List Word) :=
  rows.mapIdx fun l r => updAt r col fun a => addGroups ints a (ws.map fun g => g.getD l []) xs

/-- A gang entry taken in by every cell of a tile: a depthwise product has columns of its own for each row. -/
def addCells (ints : Bool) (ws : List (List Val)) (xs : List (List (List Val))) (rows : List (List Word)) : List (List Word) :=
  rows.mapIdx fun i r => r.mapIdx fun j a => addGroup ints a (ws.getD i []) ((xs.getD (if xs.length = 1 then 0 else i) []).getD j [])

def zeroRows (r c : Nat) : List (List Word) := List.replicate r (List.replicate c 0)

/-! ## Damper (R244 to R251) -/

def damperAt (m : Memory) (f : Fire) (d : MatDesc) (desc : Nat) : Option DamperDesc :=
  if d.damper = 0 then none else some (DamperDesc.ofDesc (descOf m f (desc + d.damper)))

/-- The phase: 0 plain, 1 refresh, 2 test (R245, R246). -/
def damperPhase (x : DamperDesc) : Nat :=
  match ofF32 x.theta with
  | .fin false m _ =>
    if m = 0 then 0 else if x.stepIdx < x.testFrom then 1 else if x.stepIdx < x.testUntil then 2 else 0
  | _ => 0

/-- Bytes of a stored block (R250). -/
def storeBytes (d : MatDesc) : Nat := d.k * d.xFmt.rowBytes 32 + (if d.xScaled then 32 * ceilDiv d.k 32 else 0)

def storeAddr (m : Memory) (f : Fire) (d : MatDesc) (x : DamperDesc) (b : Nat) : Nat :=
  bufAddr m f x.xsBuf (x.xsOfs + b * storeBytes d)

/-- The stored element (k, i) of a block. -/
def storedCode (m : Memory) (d : MatDesc) (a k i : Nat) : Nat × Option Nat :=
  (m.readElem (a + k * d.xFmt.rowBytes 32) d.xFmt i,
   if d.xScaled then some (m.readNat (a + d.k * d.xFmt.rowBytes 32 + 32 * (k / 32) + i) 1) else none)

/-- The reuse test over pairs of stored and current values (R247). -/
def damperTest (theta : Word) (pairs : List (Word × Word)) : Bool :=
  let bad (w : Word) : Bool := (ofF32 w).isNan || (ofF32 w).isInf
  if pairs.any fun p => bad p.1 || bad p.2 then false
  else
    let dmax := pairs.foldl (fun acc p => f32Max acc (f32Abs (f32Sub p.2 p.1))) 0
    let amax := pairs.foldl (fun acc p => f32Max acc (f32Abs p.1)) 0
    (ofF32 dmax).le (ofF32 (f32Mul theta amax))

/-- Whether t-block `b` is reused: the test over k < K and t < T. -/
def blockReuse (m : Memory) (f : Fire) (d : MatDesc) (x : DamperDesc) (b : Nat) : Bool :=
  let a := storeAddr m f d x b
  damperTest x.theta ((List.range (min 32 (d.t - 32 * b))).flatMap fun i => (List.range d.k).map fun k =>
    (toF32 (codeVal d.xFmt (some (storedCode m d a k i))), toF32 (codeVal d.xFmt (xCode m f d 0 (32 * b + i) k))))

/-- Codes packed as a row (R30). -/
def packRow (f : Fmt) (codes : List Nat) : List Byte :=
  (Memory.empty.writeElems 0 f 0 codes).readBytes 0 (f.rowBytes codes.length)

/-- The bytes of the current block as the input store holds them (R250). -/
def blockBytes (m : Memory) (f : Fire) (d : MatDesc) (b : Nat) : List Byte :=
  let at_ (k i : Nat) : Option (Nat × Option Nat) := if 32 * b + i < d.t then xCode m f d 0 (32 * b + i) k else none
  ((List.range d.k).flatMap fun k => packRow d.xFmt ((List.range 32).map fun i => ((at_ k i).map (·.1)).getD 0))
  ++ (if d.xScaled then (List.range (ceilDiv d.k 32)).flatMap fun g => (List.range 32).map fun i =>
        BitVec.ofNat 8 (((at_ (32 * g) i).bind (·.2)).getD 0) else [])

/-- The descriptor of an operation whose phase is not plain. -/
def damperActive (m : Memory) (f : Fire) (d : MatDesc) (desc : Nat) : Option DamperDesc :=
  (damperAt m f d desc).filter fun x => !(damperPhase x == 0)

def sameBits (desc bar : Nat) (loops : List Nat) (x : DamperBits) : Bool := x.desc == desc && x.bar == bar && x.loops == loops

/-- The decision on a block as a core has it: none while it has yet to be made, or to arrive (R248). A block is computed in the plain and
the refresh phase; the core of rank 0 has then to write its input store first. -/
def blockVerdict (k : Core) (m : Memory) (f : Fire) (d : MatDesc) (desc bar b : Nat) : Option Bool :=
  match damperActive m f d desc with
  | none => some false
  | some x =>
    if damperPhase x == 1 && !(f.rank == 0) then some false
    else (k.damper.find? (sameBits desc bar f.loops)).bind fun y => y.reuse[b]?

/-- One more decision of an operation at a core. -/
def addVerdict (desc bar : Nat) (loops : List Nat) (v : Bool) (k : Core) : Core :=
  if k.damper.any (sameBits desc bar loops) then
    { k with damper := k.damper.map fun x => if sameBits desc bar loops x then { x with reuse := x.reuse ++ [v] } else x }
  else { k with damper := k.damper ++ [{ desc := desc, bar := bar, loops := loops, reuse := [v], ends := 0 }] }

/-- The core of rank 0 decides on block `b`: a block that is computed goes into the input store, the counts rise, and the bit goes to every
core of the section (R247, R248, R251). -/
def decideBlock (c : Nat) (f : Fire) (d : MatDesc) (desc bar b : Nat) (x : DamperDesc) (s : State) : State :=
  let test := damperPhase x == 2
  let v := test && blockReuse s.mem f d x b
  let s1 := if v then s else unitWrite 7 s (storeAddr s.mem f d x b) (blockBytes s.mem f d b)
  let s2 := match s.currentJob with
    | some j => if test then s1.updJob j.id fun y =>
        { y with tested := satAdd 32 y.tested 1, reused := satAdd 32 y.reused (if v then 1 else 0) } else s1
    | none => s1
  (if test then sectionMates s f.score c else [c]).foldl (fun acc k => acc.updCore k (addVerdict desc bar f.loops v)) s2

/-- The operation's feed stroke or its drain stroke is over; with the second the decisions are forgotten. -/
def closeBits (desc bar : Nat) (loops : List Nat) (k : Core) : Core :=
  { k with damper := (k.damper.map fun x => if sameBits desc bar loops x then { x with ends := x.ends + 1 } else x).filter
                       fun x => !(sameBits desc bar loops x && x.ends == 2) }

/-! ## The chained product (R155, R156) -/

/-- What the second stage of a chained product works with in a chain tile: the length of m, the tile's part of W2's rows, bias, function,
scale and format. -/
structure ChainIn where
  m : Nat
  ints : Bool
  w2 : List (List Val)
  bias : List Word
  softmax : Bool
  fn : Nat
  sigma : Word
  pFmt : Fmt
  deriving DecidableEq, Repr

/-- The running state of a position: maximum, sum, accumulators. -/
structure ChainRun where
  m : Word
  l : Word
  acc : List Word
  deriving DecidableEq, Repr

/-- p narrowed to `P_FMT`, with an on-the-fly scale per 32 for FP8 (R156). -/
def chainNarrow (f : Fmt) : Nat → List Word → List Val
  | 0, _ => []
  | n + 1, ws =>
    let blk := (ws.take 32).map ofF32
    let vals := if f.scalable then
        let e := f.scaleByte (amax blk)
        blk.map fun v => f.value (some e) (f.narrow e v)
      else blk.map fun v => f.decode (f.encode v)
    vals ++ chainNarrow f n (ws.drop 32)

/-- A correction factor (R156): 1.0 at the first maximum or an unchanged one. -/
def corrOf (tables : List TableSlot) (old new : Word) : Word :=
  if old = fNegInf || (ofF32 new).eq (ofF32 old) then fOne else chime tables 0x01 (f32Sub old new)

/-- e of a score under a maximum. -/
def expOf (tables : List TableSlot) (z m : Word) : Word := if z = fNegInf then 0 else chime tables 0x01 (f32Sub z m)

/-- The scores h of a chain tile from its first product at one position: converted, and the bias added (R156). -/
def chainScores (x : ChainIn) (c : Nat) (first : List Word) : List Word :=
  (first.take (x.m - 128 * c)).zipIdx.map fun a =>
    let h := if x.ints then f32OfInt a.1 else a.1
    match x.bias[128 * c + a.2]? with | some w => f32Add h w | none => h

/-- The second product's groups of a chain tile. -/
def chainGroups (x : ChainIn) (c : Nat) (p : List Val) (corr : Word) (acc : Word) (w2 : List Val) : Word :=
  ((List.range 4).filter fun g => decide (32 * (4 * c + g) < x.m)).foldl
    (fun a g =>
      let ws := (w2.drop (32 * g)).take 32
      f32Add a (toF32 (groupSum ((ws.zip ((p.drop (32 * g)).take 32)).map fun q => q.1.mul q.2))))
    (f32Mul acc corr)

/-- One chain tile of a position (R156), its scores given. `allowed` says which keys no mask excludes. -/
def chainTile (tables : List TableSlot) (x : ChainIn) (allowed : Nat → Bool) (c : Nat) (h : List Word) (r : ChainRun) : ChainRun :=
  let z := h.zipIdx.map fun y => if allowed (128 * c + y.2) then f32Mul y.1 x.sigma else fNegInf
  let mNew := z.foldl f32Max r.m
  let q := if x.softmax then z.map fun y => expOf tables y mNew
    else h.map fun y => if x.fn = 0 then y else chime tables x.fn y
  let p := chainNarrow x.pFmt 4 (q ++ List.replicate (128 - q.length) 0)
  let corr := if x.softmax then corrOf tables r.m mNew else fOne
  { m := if x.softmax then mNew else r.m,
    l := if x.softmax then f32Add (f32Mul r.l corr) (tree128 f32Add 0 (p.map toF32)) else r.l,
    acc := (r.acc.zip x.w2).map fun y => chainGroups x c p corr y.1 y.2 }

/-- A position's running state as a set holds it, and back. -/
def ChainRun.row (r : ChainRun) : List Word := r.m :: r.l :: r.acc
def ChainRun.ofRow (r : List Word) : ChainRun := { m := r.getD 0 0, l := r.getD 1 0, acc := r.drop 2 }

/-- The state before the first chain tile. -/
def ChainRun.start (n : Nat) : ChainRun := { m := fNegInf, l := 0, acc := List.replicate n 0 }

/-- A chain tile of a block: the second stage's set after it. The first product's sets of MU0 and MU1 give 64 rows each. -/
def chainBlock (tables : List TableSlot) (x : ChainIn) (allowed : Nat → Nat → Bool) (col0 c : Nat) (lo hi rows : List (List Word)) :
    List (List Word) :=
  rows.mapIdx fun i r =>
    (chainTile tables x (allowed (col0 + i)) c (chainScores x c ((lo ++ hi).map fun w => w.getD i 0)) (ChainRun.ofRow r)).row

/-- bias[j] widened to FP32 (R143). -/
def biasAt (m : Memory) (f : Fire) (e : EpiDesc) (j : Nat) : Word :=
  if e.biasBf then BitVec.ofNat 32 (m.readNat (bufAddr m f e.biasBuf (e.biasOfs + 2 * j)) 2 * 65536)
  else BitVec.ofNat 32 (m.readNat (bufAddr m f e.biasBuf (e.biasOfs + 4 * j)) 4)

/-- W1 of a chained product as the weights of MU0 and MU1: M rows, whose band 2c + u is the tile of MU u in chain tile c (R155). -/
def firstWeights (d : MatDesc) (e : EpiDesc) : MatDesc := { d with n := e.m }

/-- W2 as the weights of MU2 and MU3: N rows of M values, from the place of the hold buffer (R155). -/
def secondWeights (d : MatDesc) (e : EpiDesc) : MatDesc :=
  { d with wFmt := e.w2Fmt, wScaled := e.w2Fmt.scalable, k := e.m, wBuf := e.auxBuf, wOfs := e.auxOfs, wStride := e.auxStride,
           wsBuf := e.w2sBuf, wsOfs := e.w2sOfs }

/-- The weights, the band and the span of k of a unit's tile in chain tile `c`. -/
def chainWeights (d : MatDesc) (e : EpiDesc) (mu c : Nat) : MatDesc × Nat × (Nat × Nat) :=
  if mu < 2 then (firstWeights d e, 2 * c + mu, (0, d.k)) else (secondWeights d e, mu - 2, (128 * c, min e.m (128 * c + 128)))

/-- A unit's weight tile of a chain tile, through its two halves in turn (R110, R112, R158): reloaded where it does not hold it. -/
def fetchChainTile (m : Memory) (f : Fire) (d : MatDesc) (e : EpiDesc) (mu block c : Nat) (held : List HeldTile) :
    HeldTile × List HeldTile :=
  let (w, band, span) := chainWeights d e mu c
  holdTileOf (tileKey w band span) ((block * ceilDiv e.m 128 + c) % 2) (loadTile m f w band span).1.rows held

/-- Group `g` of the 64 lanes of a weight tile whose k begins with its rows (R117, R155). -/
def laneGroup (k g : Nat) (h : HeldTile) : List (List Val) := h.rows.map fun r => (r.drop (32 * g)).take (min 32 (k - 32 * g))

/-- The rows of W2 that MU2 and MU3 hold (R155). -/
def w2Rows (n mu : Nat) : List Nat := (rangeFrom (64 * (mu - 2)) 64).filter fun j => decide (j < n)

/-- The second stage of a combination 11 in a unit, its tile of W2 given. -/
def chainStage (m : Memory) (f : Fire) (d : MatDesc) (e : EpiDesc) (mu : Nat) (tile : HeldTile) : ChainIn :=
  { m := e.m, ints := d.ints, w2 := tile.rows.take (w2Rows d.n mu).length,
    bias := if e.biasEn then (List.range e.m).map fun i => biasAt m f e i else [],
    softmax := e.cfn, fn := e.fn, sigma := e.alpha, pFmt := e.pFmt }

/-- The reserved blocks of the tiles that a unit's stroke of a combination 11 loads, each block once. -/
def chainReservedBlocks (m : Memory) (f : Fire) (d : MatDesc) (e : EpiDesc) (mu : Nat) (held : List HeldTile) : Nat :=
  ((List.range (ceilDiv e.m 128)).map fun c =>
    let (w, band, span) := chainWeights d e mu c
    if held.any fun h => h.src == tileKey w band span then 0 else (loadTile m f w band span).2).sum

/-! ## Modes of a unit (R112, R124) -/

/-- The mode changes; held tiles are discarded (R112, R124). -/
def enterMode (c mu : Nat) (gang : Bool) (s : State) : State :=
  if (s.core c).gangMode.getD mu false == gang then s
  else s.updCore c fun k => { k with gangMode := updAt k.gangMode mu fun _ => gang, tiles := updAt k.tiles mu fun _ => [] }

def setTiles (c mu : Nat) (ts : List HeldTile) (s : State) : State :=
  s.updCore c fun k => { k with tiles := updAt k.tiles mu fun _ => ts }

/-! ## Gang operands (R119, R122, R133) -/

/-- Group `g` of the rows and the columns of an output tile. -/
def gangCarried (m : Memory) (f : Fire) (d : MatDesc) (x : GangTile) (g : Nat) : Carried :=
  let cols (q : Nat) : List (List Val) := (rangeFrom x.col0 x.cols).map fun t => xGroup m f d q t g
  .cells ((rangeFrom x.row0 x.rows).map fun j => (wRow m f d j (32 * g) (min d.k (32 * g + 32))).1)
    (if d.pkind = 2 then (rangeFrom x.row0 x.rows).map fun j => cols (d.n0 + j) else [cols x.part])

/-- The reserved blocks of the rows of W that a gang problem reads. -/
def gangReserved (m : Memory) (f : Fire) (d : MatDesc) : Nat := ((List.range d.n).map fun j => (wRow m f d j 0 d.k).2).sum

/-! ## Window vectors (R134) -/

/-- The vector of one kernel position: its CB codes, its scale byte, and whether it lies inside the input. Of a block that reaches past
channel `C` only the channels there are have codes: the others read as zero, whatever the block's scale byte (R128). -/
def winVector (m : Memory) (f : Fire) (x : Stream) (w : WinDesc) (blk t kr kc : Nat) : List Nat × Option Nat × Bool :=
  let ih : Int := (t / w.ow % w.oh * w.sh + kr * w.dh : Nat) - (w.padT : Int)
  let iw : Int := (t % w.ow * w.sw + kc * w.dw : Nat) - (w.padL : Int)
  if ih < 0 || (w.height : Int) ≤ ih || iw < 0 || (w.width : Int) ≤ iw then (List.replicate w.cb 0, none, false)
  else
    let pix := ((t / (w.ow * w.oh) * ceilDiv w.c w.cb + blk) * w.height + ih.toNat) * w.width + iw.toNat
    ((List.range (min w.cb (w.c - blk * w.cb))).map fun ci => m.readElem (bufAddr m f x.buf x.ofs) x.fmt (pix * w.cb + ci),
     if x.scaled then some (m.readNat (bufAddr m f x.sbuf (x.sofs + pix)) 1) else none, true)

/-- The input tensor of a FEED_WIN: the stream that input A of the CHAIN in the same bar names (DEDUCED, log 17). -/
def winStream (m : Memory) (f : Fire) (bar : Nat) : Option Stream :=
  streamOf m f (fld (descOf m f (StrokeWord.ofWord (scStave m f.score bar 5)).desc) 207 192)

/-- Window vectors of a FEED_WIN. -/
def winCount (w : WinDesc) : Nat := ceilDiv w.c w.cb * (w.images * w.oh * w.ow) * w.kh * w.kw

/-- The `n`-th window vector: positions ascending, kernel positions in (kr, kc) order (R134); channel blocks outermost, over all images and
output positions, an order the spec does not give (DESIGN CHOICE, log 91). -/
def winAtIndex (m : Memory) (f : Fire) (x : Stream) (w : WinDesc) (n : Nat) : WinVector :=
  let at_ := w.images * w.oh * w.ow
  winVector m f x w (n / (w.kw * w.kh * at_)) (n / (w.kw * w.kh) % at_) (n / w.kw % w.kh) (n % w.kw)

/-- The reserved blocks that the vectors of a FEED_WIN meet. -/
def winReserved (m : Memory) (f : Fire) (x : Stream) (w : WinDesc) : Nat :=
  ((List.range (winCount w)).filter fun n => (winAtIndex m f x w n).2.1 == some 0xFF).length

end Sys2Proof.Machine
end

