-- ==== Sys2Proof/Machine/Attention.lean ====
section
/-! DEFINITION. Attention and the key-value cache up to the drain stick (R205 to R216, R221 to R226): queries on the broadcast,
a core's keys and values as operands of the chain, masks, the recomputed probabilities, and the scatter unit. -/
namespace Sys2Proof.Machine

/-- An attention descriptor (R228). -/
structure AttnDesc where
  kvFmt : Fmt
  maskKind : Nat
  bitmask : Bool
  pass1 : Bool
  statEn : Bool
  oMcast : Bool
  mcastSection : Nat
  pFmt : Fmt
  pAlongM : Bool
  q : Nat
  k : Nat
  v : Nat
  o : Nat
  stat : Nat
  mask : Nat
  p : Nat
  sigma : Word
  g : Nat
  m : Nat
  d : Nat
  t : Nat
  keyLen : Nat
  keyPos0 : Nat
  qPos0 : Nat
  frameTokens : Nat
  qHead : Nat
  qsHead : Nat
  oHead : Nat
  deriving DecidableEq, Repr

def AttnDesc.ofDesc (x : Desc) : AttnDesc :=
  { kvFmt := Fmt.ofField (fld x 31 28), maskKind := fld x 27 26, bitmask := bitAt x 25, pass1 := bitAt x 24,
    statEn := bitAt x 23, oMcast := bitAt x 22, mcastSection := fld x 21 20,
    pFmt := if fld x 19 18 = 0 then .bf16 else if fld x 19 18 = 1 then .e4m3 else .e5m2,
    pAlongM := bitAt x 17, q := fld x 511 496, k := fld x 495 480, v := fld x 479 464, o := fld x 463 448,
    stat := fld x 447 432, mask := fld x 431 416, p := fld x 415 400, sigma := BitVec.ofNat 32 (fld x 399 368),
    g := fld x 367 360 + 1, m := fld x 359 344, d := fld x 343 336, t := fld x 335 312, keyLen := fld x 311 288,
    keyPos0 := fld x 287 264, qPos0 := fld x 263 240, frameTokens := fld x 239 216, qHead := fld x 215 192,
    qsHead := fld x 191 168, oHead := fld x 167 144 }

def attnAt (m : Memory) (f : Fire) (i : Nat) : AttnDesc := AttnDesc.ofDesc (descOf m f i)

/-- A stream that a descriptor must name; an unnamed one reads as an empty stream at buffer 0. -/
def needStream (m : Memory) (f : Fire) (i : Nat) : Stream := (streamOf m f i).getD (Stream.ofDesc 0)

/-- Group rank and head of a core (R205, R206). -/
def groupRank (a : AttnDesc) (f : Fire) : Nat := f.rank % a.g
def headOf (a : AttnDesc) (f : Fire) : Nat := f.rank / a.g

/-- Valid keys of a core (R207). -/
def validKeys (a : AttnDesc) (f : Fire) : Nat := min a.m (a.keyLen - groupRank a f * a.m)

/-- The key at local index `i` is allowed for query `t` (R216). -/
def allowedKey (m : Memory) (f : Fire) (a : AttnDesc) (t i : Nat) : Bool :=
  let g := groupRank a f * a.m + i
  let q := a.qPos0 + t
  let k := a.keyPos0 + g
  decide (g < a.keyLen) && (!(a.maskKind == 1) || decide (k ≤ q)) &&
  (!(a.maskKind == 2) || decide (k / a.frameTokens ≤ q / a.frameTokens)) &&
  (!a.bitmask || (m.readNat ((needStream m f a.mask).row m f t + g / 8) 1).testBit (g % 8))

/-- The queries of a core's head (R208). -/
def queryStream (m : Memory) (f : Fire) (a : AttnDesc) : Stream :=
  (needStream m f a.q).moved (headOf a f * a.qHead) (headOf a f * a.qsHead)

/-- Group `g` of query `t` as the broadcast delivers it: zeros at and beyond T (R117). -/
def queryGroup (m : Memory) (f : Fire) (a : AttnDesc) (t g : Nat) : List Val :=
  (rangeFrom (32 * g) (min 32 (a.d - 32 * g))).map fun d => if t < a.t then (queryStream m f a).val m f d t else Val.zero

/-- Groups in one entry of the query broadcast (R103, R212). -/
def attnGroups (m : Memory) (f : Fire) (a : AttnDesc) : Nat := groupsPerEntry a.kvFmt (needStream m f a.q).fmt

/-- The lanes of a unit's weight tile of an attention in chain tile `c`: key rows for MU0 and MU1, for MU2 and MU3 the values of their head
dimensions, read transposed (R213). -/
def attnLanes (m : Memory) (f : Fire) (a : AttnDesc) (mu c : Nat) : List (List Val) :=
  if mu < 2 then
    (List.range 64).map fun l => (List.range a.d).map fun d =>
      if 128 * c + 64 * mu + l < validKeys a f then (needStream m f a.k).val m f (128 * c + 64 * mu + l) d else Val.zero
  else
    (w2Rows a.d mu).map fun d => (rangeFrom (128 * c) (min 128 (validKeys a f - 128 * c))).map fun i => (needStream m f a.v).val m f i d

/-- A unit's weight tile of an attention, through its two halves in turn. Only MM strokes use a held tile again (R112): the source names the
stroke. -/
def fetchAttnTile (m : Memory) (f : Fire) (a : AttnDesc) (key mu block c : Nat) (held : List HeldTile) : HeldTile × List HeldTile :=
  holdTileOf [key, c] ((block * ceilDiv (validKeys a f) 128 + c) % 2) (attnLanes m f a mu c) held

/-- The second stage of an attention in a unit, its tile of the values given. -/
def attnStage (f : Fire) (a : AttnDesc) (tile : HeldTile) : ChainIn :=
  { m := validKeys a f, ints := false, w2 := tile.rows, bias := [], softmax := true, fn := 0, sigma := a.sigma, pFmt := a.pFmt }

/-- Reserved scale bytes met by a unit: MU0 and MU1 read key rows, MU2 and MU3 their dimensions of the values. -/
def attnReserved (m : Memory) (f : Fire) (a : AttnDesc) (mu : Nat) : Nat :=
  let x := needStream m f (if 2 ≤ mu then a.v else a.k)
  let bad (i blk : Nat) : Bool := x.scaled && m.readNat (x.scaleAddr m f i (32 * blk)) 1 == 0xFF
  ((List.range (validKeys a f)).flatMap fun i => (List.range (a.d / 32)).filter fun blk =>
    bad i blk && (if 2 ≤ mu then blk / 2 == mu - 2 else i % 128 / 64 == mu)).length

/-- The recomputed probabilities of query `t` for the keys of chain tile `c`, from their scores (R226). -/
def attnProbs (tables : List TableSlot) (m : Memory) (f : Fire) (a : AttnDesc) (t c : Nat) (h : List Word) : List Word :=
  let lse := BitVec.ofNat 32 (m.readNat ((needStream m f a.stat).row m f (headOf a f) + 4 * t) 4)
  h.zipIdx.map fun y =>
    let z := if allowedKey m f a t (128 * c + y.2) then f32Mul y.1 a.sigma else fNegInf
    if z = fNegInf || lse = fNegInf then 0 else chime tables 0x01 (f32Sub z lse)

/-! ## The scatter unit (R221 to R224) -/

/-- A scatter descriptor (R229). -/
structure ScatterDesc where
  kvFmt : Fmt
  posList : Bool
  srcT : Bool
  scrEn : Bool
  memEn : Bool
  destSection : Nat
  src : Nat
  pos : Nat
  dest : Nat
  imgBuf : Nat
  imgOfs : Nat
  imgSofs : Nat
  rows : Nat
  d : Nat
  posBase : Nat
  winLo : Nat
  winHi : Nat
  keyPos0 : Nat
  m : Nat
  destRank0 : Nat
  deriving DecidableEq, Repr

def ScatterDesc.ofDesc (x : Desc) : ScatterDesc :=
  { kvFmt := Fmt.ofField (fld x 31 28), posList := bitAt x 27, srcT := bitAt x 26, scrEn := bitAt x 25, memEn := bitAt x 24,
    destSection := fld x 23 22, src := fld x 511 496, pos := fld x 495 480, dest := fld x 479 464, imgBuf := fld x 463 452,
    imgOfs := fld x 451 412, imgSofs := fld x 411 372, rows := fld x 371 348, d := fld x 347 340, posBase := fld x 339 316,
    winLo := fld x 315 292, winHi := fld x 291 268, keyPos0 := fld x 267 244, m := fld x 243 228,
    destRank0 := fld x 227 220 }

/-- The position of a source row, none when it is dropped (R221, R223). -/
def scatterPos (m : Memory) (f : Fire) (x : ScatterDesc) (r : Nat) : Option Nat :=
  let p : Int := if x.posList then signedOf 32 ((needStream m f x.pos).code m f 0 r) else (x.posBase + r : Nat)
  if p < 0 || p < x.winLo || (x.winHi : Int) ≤ p || p < x.keyPos0 then none else some p.toNat

/-- A row narrowed to the cache format: codes, scale bytes, NaN elements counted (R222). -/
def narrowRow (f : Fmt) (vals : List Val) : List Nat × List Nat × Nat :=
  if f.scalable then
    let blocks := (List.range (ceilDiv vals.length 32)).map fun b => (vals.drop (32 * b)).take 32
    let es := blocks.map fun v => f.scaleByte (amax v)
    ((blocks.zip es).flatMap fun x => x.1.map (f.narrow x.2), es, (vals.filter f.countsNan).length)
  else (vals.map f.encode, [], 0)

/-- One row moved to its owner and to the cache image. -/
def scatterRow (c : Nat) (f : Fire) (x : ScatterDesc) (src : Memory) (s : State) (r : Nat) : State :=
  match scatterPos src f x r with
  | none => countCore c (fun k => { k with scatterDrop := satAdd 32 k.scatterDrop 1 }) s
  | some p =>
    let st := needStream src f x.src
    let (codes, es, nans) := narrowRow x.kvFmt ((List.range x.d).map fun d =>
      if x.srcT then st.val src f d r else st.val src f r d)
    let i := p - x.keyPos0
    let s1 := countNan c nans s
    let s2 :=
      if x.scrEn then
        match (coresOf s f x.destSection)[x.destRank0 + i / x.m]? with
        | none => s1
        | some owner =>
          let g := { f with core := owner }
          let dst := needStream src f x.dest
          let mem := s1.mem.writeRow (dst.row src g (i % x.m)) x.kvFmt x.d 0 codes
          { s1 with mem := es.zipIdx.foldl (fun acc e => acc.write (dst.scaleAddr src g (i % x.m) (32 * e.2)) (BitVec.ofNat 8 e.1)) mem }
      else s1
    if x.memEn then
      let s3 := unitWrite 9 s2 (bufAddr src f x.imgBuf (x.imgOfs + i * x.kvFmt.rowBytes x.d)) (packRow x.kvFmt codes)
      if es.isEmpty then s3
      else unitWrite 9 s3 (bufAddr src f x.imgBuf (x.imgSofs + i * (x.d / 32))) (es.map (BitVec.ofNat 8))
    else s2

/-- The data action of SCATTER: rows ascend, so of two rows with one position the higher stays (R223). -/
def scatterBody (c : Nat) (b : BeatCtx) (key : Nat) (s : State) : State :=
  let x := ScatterDesc.ofDesc (descOf s.mem b.fire b.word.desc)
  doneStroke (.core (Fin.ofNat 256 c) 9) key ((List.range x.rows).foldl (scatterRow c b.fire x s.mem) s)

/-- SCATTER. -/
def execScatter (c : Fin 256) (s : State) : Host.Outcome State Fault Refusal :=
  .next (runStroke (.core c 9) 0x10 noStream (scatterBody c.val) s)

end Sys2Proof.Machine
end

