-- ==== Sys2Proof/Machine/Rattle.lean ====
section
/-! DEFINITION. The noise generator Rattle (R194 to R196). -/
namespace Sys2Proof.Machine

/-- The four words in work. -/
structure RattleBlock where
  x0 : Word
  x1 : Word
  x2 : Word
  x3 : Word
  deriving DecidableEq, Repr

/-- One round (R194). -/
def rattleRound (k0 k1 : Word) (b : RattleBlock) (rnd : Nat) : RattleBlock :=
  let x0 := b.x0 + b.x1 + (if rnd % 2 = 0 then k0 else k1)
  let x3 := (b.x3 ^^^ x0).rotateLeft 16
  let x2 := b.x2 + x3
  let x1 := (b.x1 ^^^ x2).rotateLeft 12
  let x0 := x0 + x1
  let x3 := (x3 ^^^ x0).rotateLeft 8
  let x2 := x2 + x3 + BitVec.ofNat 32 rnd
  let x1 := (x1 ^^^ x2).rotateLeft 7
  { x0 := x0, x1 := x1, x2 := x2, x3 := x3 }

/-- The four words of a key, a stream and a counter (R194). -/
def rattle (key : DWord) (stream : Word) (c : DWord) : List Word :=
  let c0 := c.extractLsb' 0 32
  let c1 := c.extractLsb' 32 32
  let b := (List.range 12).foldl (rattleRound (key.extractLsb' 0 32) (key.extractLsb' 32 32))
    { x0 := c0, x1 := c1, x2 := stream, x3 := 0x6B657474#32 }
  [b.x0 + c0, b.x1 + c1, b.x2 + stream, b.x3 + 0x6B657474#32]

/-- The word of element (i, j) in a context (R195). -/
def RattleCtx.word (x : RattleCtx) (i j : Nat) : Word :=
  let e := x.idxBase + BitVec.ofNat 64 i * x.rowStep + BitVec.ofNat 64 j * x.colStep
  (rattle x.seed x.stream (e >>> 2)).getD (e.toNat % 4) 0

/-- The uniform value of a word (R196): exact for b below 2^23, else b·2^-24. -/
def rattleUniform (y : Word) : Word :=
  let b := (y >>> 8).toNat
  if b < 2 ^ 23 then toF32 (.fin false (2 * b + 1) (-25)) else toF32 (.fin false b (-24))

/-- The value of a `rnd` stage (R166, R196). -/
def RattleCtx.value (x : RattleCtx) (mode i j : Nat) : Word :=
  let y := x.word i j
  match mode with
  | 0 => rattleUniform y
  | 1 => (builtinImage 0x0B).eval (rattleUniform y)
  | _ => y

end Sys2Proof.Machine
end

