-- ==== Sys2Proof/Machine/Roll.lean ====
section
/-! DEFINITION. The roll engine and Rattle control (R162 to R174, R194 to R204, R237 to R241, R538): what a CHAIN computes,
stage by stage over its iteration space, STEP and RATTLE_SET. -/
namespace Sys2Proof.Machine

def rollUnit (c : Nat) : UnitId := .core (Fin.ofNat 256 c) 5

/-! ## Descriptors -/

/-- A stage word (R200). -/
structure Stage where
  op : Nat
  a : Nat
  b : Nat
  c : Nat
  arg : Nat
  mode : Nat
  deriving DecidableEq, Repr

/-- A chain descriptor (R199) with its scalar slots (R201). -/
structure ChainDesc where
  stages : List Stage
  width : Nat
  cmode : Nat
  cstage : Nat
  slots : List Word
  cols : Nat
  rows : Nat
  inA : Nat
  inB : Nat
  inC : Nat
  outP : Nat
  outQ : Nat
  vec0 : Nat
  vec1 : Nat
  count : Nat
  pStage : Nat
  qStage : Nat
  fill : Nat
  deriving DecidableEq, Repr

def chainAt (m : Memory) (f : Fire) (i : Nat) : ChainDesc :=
  let x := descOf m f i
  let stage (k : Nat) : Stage :=
    let o := 32 * k + 256
    { op := fld x (o + 31) (o + 26), a := fld x (o + 25) (o + 21), b := fld x (o + 20) (o + 16), c := fld x (o + 15) (o + 11),
      arg := fld x (o + 10) (o + 3), mode := fld x (o + 2) o }
  let sd := if fld x 15 0 = 0xFFFF then (0 : Desc) else descOf m f (fld x 15 0)
  { stages := (List.range (fld x 31 29 + 1)).map stage, width := fld x 28 27, cmode := fld x 26 25, cstage := fld x 24 22,
    slots := (List.range 8).map fun k => BitVec.ofNat 32 (fld sd (32 * k + 95) (32 * k + 64)),
    cols := fld x 255 232, rows := fld x 231 208, inA := fld x 207 192, inB := fld x 191 176, inC := fld x 175 160,
    outP := fld x 159 144, outQ := fld x 143 128, vec0 := fld x 127 112, vec1 := fld x 111 96, count := fld x 95 80,
    pStage := fld x 79 77, qStage := fld x 76 74, fill := fld x 73 72 }

/-! ## Entry of elements (R164, R538) -/

/-- An element widened to the working type. -/
def enterElem (width : Nat) (f : Fmt) (scale : Option Nat) (code : Nat) : Word :=
  match f with
  | .fp32 | .int32 => BitVec.ofNat 32 code
  | f =>
    if width = 2 then BitVec.ofInt 32 (signedOf 8 code)
    else
      let w := toF32 (f.value scale code)
      if width = 1 then toBf (ofF32 w) else w

def Stream.word (x : Stream) (width : Nat) (m : Memory) (f : Fire) (i j : Nat) : Word :=
  enterElem width x.fmt (x.scale m f i j) (x.code m f i j)

/-- A matrix of words. -/
abbrev Grid := List (List Word)

def Grid.at (g : Grid) (i j : Nat) : Word := (g.getD i []).getD j 0

/-- A grid from a function of row and column. -/
def gridOf (rows cols : Nat) (f : Nat → Nat → Word) : Grid :=
  (List.range rows).map fun i => (List.range cols).map fun j => f i j

/-- A stage's result: its words (a mask is 1 or 0), its codes and block scales where it narrows, NaN elements counted. -/
structure StageOut where
  words : Grid
  codes : List (List Nat)
  scales : List (List Nat)
  nans : Nat
  deriving DecidableEq, Repr

/-- What a chain reads: inputs, row vectors, window mask, contexts, tables. -/
structure ChainEnv where
  d : ChainDesc
  a : Grid
  b : Grid
  c : Grid
  v0 : List Word
  v1 : List Word
  valid : List Bool
  rattle : List RattleCtx
  tables : List TableSlot
  deriving DecidableEq, Repr

/-- An operand (R165). -/
def operand (e : ChainEnv) (done : List StageOut) (src i j : Nat) : Word :=
  if src < 8 then Grid.at ((done.getD src { words := [], codes := [], scales := [], nans := 0 }).words) i j
  else if src = 8 then Grid.at e.a i j
  else if src = 9 then Grid.at e.b i j
  else if src = 10 then Grid.at e.c i j
  else if src = 11 then e.v0.getD i 0
  else if src = 12 then e.v1.getD i 0
  else if src = 13 then BitVec.ofNat 32 j
  else if src = 14 then BitVec.ofNat 32 i
  else if src = 15 then 0
  else if src < 24 then e.d.slots.getD (src - 16) 0
  else if src = 24 then (if e.valid.getD i false then 1 else 0)
  else 0

/-! ## Stage operations (R166) -/

/-- A floating result rounded once to the working type. -/
def roundWork (width : Nat) (v : Val) : Word := if width = 1 then toBf v else toF32 v

def maskWord (b : Bool) : Word := if b then 1 else 0

/-- A comparison of floating operands. -/
def cmpFloat (mode : Nat) (a b : Word) : Bool :=
  match mode with
  | 0 => (ofF32 a).eq (ofF32 b)
  | 1 => !(ofF32 a).eq (ofF32 b)
  | 2 => (ofF32 a).lt (ofF32 b)
  | 3 => (ofF32 a).le (ofF32 b)
  | 4 => (ofF32 b).lt (ofF32 a)
  | _ => (ofF32 b).le (ofF32 a)

/-- A comparison of signed integers. -/
def cmpInt (mode : Nat) (a b : Word) : Bool :=
  match mode with
  | 0 => a == b
  | 1 => !(a == b)
  | 2 => decide (a.toInt < b.toInt)
  | 3 => decide (a.toInt ≤ b.toInt)
  | 4 => decide (b.toInt < a.toInt)
  | _ => decide (b.toInt ≤ a.toInt)

def maxWork (width : Nat) (a b : Word) : Word :=
  if width = 2 then (if a.toInt < b.toInt then b else a) else roundWork width ((ofF32 a).max (ofF32 b))

def minWork (width : Nat) (a b : Word) : Word :=
  if width = 2 then (if b.toInt < a.toInt then b else a) else roundWork width ((ofF32 a).min (ofF32 b))

/-- The operations that depend on one element alone; `cvt`, `qnt` and `rnd` stand below. -/
def stageOp (width : Nat) (tables : List TableSlot) (g : Stage) (a b c : Word) : Word :=
  let r := roundWork width
  match g.op with
  | 0x01 => r ((ofF32 a).add (ofF32 b))
  | 0x02 => r ((ofF32 a).sub (ofF32 b))
  | 0x03 => r ((ofF32 a).mul (ofF32 b))
  | 0x04 => r (((ofF32 a).mul (ofF32 b)).add (ofF32 c))
  | 0x05 => maxWork width a b
  | 0x06 => minWork width a b
  | 0x07 => f32Abs a
  | 0x08 => f32Neg a
  | 0x09 => maskWord (if width = 2 then cmpInt g.mode a b else cmpFloat g.mode a b)
  | 0x0A => if a = 0 then c else b
  | 0x0B => minWork width (maxWork width a b) c
  | 0x0C => if width = 1 then toBf (ofF32 (chime tables g.arg a)) else chime tables g.arg a
  | 0x10 => r (if (ofF32 a).isNan then .nan false else (ofF32 a).scaleBy (signedOf 8 g.arg))
  | 0x11 => a + b
  | 0x12 => a - b
  | 0x13 => a &&& b
  | 0x14 => a ||| b
  | 0x15 => a ^^^ b
  | 0x16 => a <<< (g.arg % 32)
  | 0x17 => a >>> (g.arg % 32)
  | 0x18 => a.sshiftRight (g.arg % 32)
  | 0x19 => r (Fmt.int32.decode a.toNat)
  | 0x1A => BitVec.ofNat 32 (Fmt.int32.encode (ofF32 a))
  | _ => a

/-- The result of a `cvt`, from its code (R166). -/
def cvtWord (width : Nat) (f : Fmt) (code : Nat) : Word :=
  match f with
  | .int8 => BitVec.ofInt 32 (signedOf 8 code)
  | .int32 => BitVec.ofNat 32 code
  | f => roundWork width (f.decode code)

/-- The block of element (i, j) of a `qnt` stage: its elements in order (R167). -/
def qntBlock (rows cols : Nat) (byRows : Bool) (i j : Nat) : List (Nat × Nat) :=
  if byRows then (rangeFrom (i / 32 * 32) (min 32 (rows - i / 32 * 32))).map fun x => (x, j)
  else (rangeFrom (j / 32 * 32) (min 32 (cols - j / 32 * 32))).map fun x => (i, x)

/-- The scale byte of a block, and whether its elements are narrowed as NaN (R35, R36, R167). -/
def qntScale (f : Fmt) (mode : Nat) (a : Nat → Nat → Word) (b : Nat → Nat → Word) (blk : List (Nat × Nat)) : Nat × Bool :=
  if mode = 1 then
    match blk with
    | [] => (0, false)
    | p :: _ => let e := (b p.1 p.2).toNat % 256; if e = 0xFF then (0xFE, true) else (e, false)
  else (f.scaleByte (amax (blk.map fun p => ofF32 (a p.1 p.2))), false)

/-- A stage over the whole iteration space. A `qnt` stage given the scale code 0xFF from data takes every input as a NaN with that input's
own sign, for the spec gives it none (DESIGN CHOICE, log 85). -/
def runStage (e : ChainEnv) (done : List StageOut) (g : Stage) : StageOut :=
  let d := e.d
  let opA := operand e done g.a
  let opB := operand e done g.b
  let opC := operand e done g.c
  if g.op = 0x0E then
    let f := Fmt.ofField (g.arg % 16)
    let byRows := g.arg.testBit 6
    let blockOf (i j : Nat) : Nat × Bool := qntScale f (g.arg / 16 % 4) opA opB (qntBlock d.rows d.cols byRows i j)
    let src (i j : Nat) : Val := if (blockOf i j).2 then .nan (f32Sign (opA i j)) else ofF32 (opA i j)
    let codes := (List.range d.rows).map fun i => (List.range d.cols).map fun j => f.narrow (blockOf i j).1 (src i j)
    { words := gridOf d.rows d.cols fun i j =>
        roundWork d.width (f.value (some (blockOf i j).1) ((codes.getD i []).getD j 0)),
      codes := codes,
      scales := if byRows then
          (List.range (ceilDiv d.rows 32)).map fun x => (List.range d.cols).map fun j => (blockOf (32 * x) j).1
        else (List.range d.rows).map fun i => (List.range (ceilDiv d.cols 32)).map fun x => (blockOf i (32 * x)).1,
      nans := ((List.range d.rows).flatMap fun i => (List.range d.cols).filter fun j => f.countsNan (src i j)).length }
  else if g.op = 0x0D then
    let f := Fmt.ofField (g.arg % 16)
    let codes := (List.range d.rows).map fun i => (List.range d.cols).map fun j => f.encode (ofF32 (opA i j))
    { words := codes.map fun r => r.map (cvtWord d.width f), codes := codes, scales := [],
      nans := ((List.range d.rows).flatMap fun i => (List.range d.cols).filter fun j => f.countsNan (ofF32 (opA i j))).length }
  else if g.op = 0x0F then
    let x := e.rattle.getD (g.arg % 4) RattleCtx.zero
    { words := gridOf d.rows d.cols fun i j =>
        let w := x.value g.mode i j
        if d.width = 1 && !(g.mode == 2) then toBf (ofF32 w) else w,
      codes := [], scales := [], nans := 0 }
  else
    { words := gridOf d.rows d.cols fun i j => stageOp d.width e.tables g (opA i j) (opB i j) (opC i j),
      codes := [], scales := [],
      nans := if g.op = 0x1A then
          ((List.range d.rows).flatMap fun i => (List.range d.cols).filter fun j => (ofF32 (opA i j)).isNan).length
        else 0 }

/-- Every stage in turn. -/
def runStages (e : ChainEnv) : List StageOut := e.d.stages.foldl (fun done g => done ++ [runStage e done g]) []

/-! ## Inputs (R165, R170, R174) -/

/-- A stream over the iteration space. -/
def streamGrid (m : Memory) (f : Fire) (d : ChainDesc) (i : Nat) : Grid :=
  match streamOf m f i with
  | none => []
  | some x => gridOf d.rows d.cols fun i j => x.word d.width m f i j

/-- A row vector (R170). -/
def rowVector (m : Memory) (f : Fire) (d : ChainDesc) (i : Nat) : List Word :=
  match streamOf m f i with
  | none => []
  | some x => (List.range d.rows).map fun r => x.word d.width m f 0 (r / max x.vdiv 1)

/-- Window vectors as input A, one vector a row; the channels a vector has no code for are zero (R128). -/
def windowGrid (d : ChainDesc) (f : Fmt) (w : List WinVector) : Grid :=
  (w.take d.rows).map fun v =>
    (List.range d.cols).map fun j => match v.1[j]? with | some c => enterElem d.width f v.2.1 c | none => 0

/-- The count of row `i` of the count stream, an INT32 (R173, R174). -/
def rowCount (m : Memory) (f : Fire) (d : ChainDesc) (i : Nat) : Int := signedOf 32 ((needStream m f d.count).code m f 0 i)

/-- Blocks of a compressed input A whose scale byte is 0xFF: those that the elements its true lanes take lie in, each once (R35, R174). -/
def expandReserved (m : Memory) (f : Fire) (d : ChainDesc) (mask : List (List Bool)) : Nat :=
  match streamOf m f d.inA with
  | none => 0
  | some x =>
    let taken (r : List Bool × Nat) : Nat := min (rowCount m f d r.2).toNat (r.1.filter id).length
    if x.scaled then reservedAt m (mask.zipIdx.flatMap fun r => (List.range (taken r)).map (x.scaleAddr m f r.2)) else 0

/-- Reserved scale bytes met by the streams of a chain, the mask of its stage `CSTAGE` given. -/
def chainReserved (m : Memory) (f : Fire) (d : ChainDesc) (mask : List (List Bool)) : Nat :=
  let grid (i : Nat) : Nat :=
    match streamOf m f i with | some x => if x.window then 0 else x.reserved m f d.rows d.cols | none => 0
  let vec (i : Nat) : Nat :=
    match streamOf m f i with | some x => x.reserved m f 1 ((d.rows - 1) / max x.vdiv 1 + 1) | none => 0
  (if d.cmode = 2 then expandReserved m f d mask else grid d.inA) + grid d.inB + grid d.inC + vec d.vec0 + vec d.vec1

/-- The mask of a stage as rows of truth values. -/
def maskRows (outs : List StageOut) (k : Nat) : List (List Bool) :=
  ((outs.getD k { words := [], codes := [], scales := [], nans := 0 }).words).map fun r => r.map fun w => !(w == 0)

/-- A row expanded: each true lane takes the next compressed element below the count, every other lane the fill value. -/
def expandRow (mask : List Bool) (src : Nat → Word) (count : Nat) (fill : Nat → Word) : List Word :=
  (mask.zipIdx.foldl (fun (acc : List Word × Nat) x =>
    if x.1 then (acc.1 ++ [if acc.2 < count then src acc.2 else fill x.2], acc.2 + 1) else (acc.1 ++ [fill x.2], acc.2))
    ([], 0)).1

/-- Input A of an expand chain, and the rows whose true lanes and count differ (R174). -/
def expandGrid (m : Memory) (f : Fire) (e : ChainEnv) (mask : List (List Bool)) : Grid × Nat :=
  let d := e.d
  let x := needStream m f d.inA
  let fill (i j : Nat) : Word := if d.fill = 1 then d.slots.getD 0 0 else if d.fill = 2 then Grid.at e.b i j else 0
  (mask.zipIdx.map fun r => expandRow r.1 (fun k => x.word d.width m f r.2 k) (rowCount m f d r.2).toNat (fill r.2),
   (mask.zipIdx.filter fun r => !(((r.1.filter id).length : Int) == rowCount m f d r.2)).length)

/-- What a chain reads, but for an expanded input A: `ctxs` are the Rattle contexts that it captured as it fired (R172). -/
def chainEnv (s : State) (ctxs : List RattleCtx) (f : Fire) (d : ChainDesc) (win : Option (List WinVector)) : ChainEnv :=
  let m := s.mem
  { d := d,
    a := (match win with
      | some w => windowGrid d (needStream m f d.inA).fmt w
      | none => if d.cmode = 2 then [] else streamGrid m f d d.inA),
    b := streamGrid m f d d.inB, c := streamGrid m f d d.inC, v0 := rowVector m f d d.vec0, v1 := rowVector m f d d.vec1,
    valid := (win.getD []).map (fun v => v.2.2),
    rattle := ctxs, tables := s.tables }

/-! ## Outputs (R168, R173) -/

/-- The codes an output stream takes from its stage. -/
def outCodes (x : Stream) (g : StageOut) : List (List Nat) :=
  match x.fmt with
  | .fp32 | .bf16 | .fp16 | .int32 => g.words.map fun r => r.map (storeCode x.fmt)
  | _ => g.codes

/-- An output stream written. A compress chain writes the selected elements of each row at packed positions, and none of the positions from
their count to `COLS` - 1 (R173): the row's last packed group is padded only when they fill the row (R31). The block scales of such an
output stand at the places of the uncompressed blocks that they were formed over: the spec does not say where they go (DESIGN CHOICE,
log 109). -/
def writeOut (f : Fire) (d : ChainDesc) (outs : List StageOut) (i stage : Nat) (m0 : Memory) (s : State) : State :=
  match streamOf m0 f i with
  | none => s
  | some x =>
    let g := outs.getD stage { words := [], codes := [], scales := [], nans := 0 }
    let codes := outCodes x g
    let mask := maskRows outs d.cstage
    let rows := codes.zipIdx.foldl
      (fun (acc : Memory) r =>
        if d.cmode = 1 then
          let kept := ((r.1.zip (mask.getD r.2 [])).filter fun p => p.2).map (·.1)
          acc.writeRow (x.row m0 f r.2) x.fmt d.cols 0 kept
        else acc.writeRow (x.row m0 f r.2) x.fmt d.cols 0 r.1) s.mem
    let scales := if x.scaled then
        g.scales.zipIdx.foldl (fun (acc : Memory) r => r.1.zipIdx.foldl
          (fun (k : Memory) e =>
            k.write (if x.sdimRows then x.scaleAddr m0 f (32 * r.2) e.2 else x.scaleAddr m0 f r.2 (32 * e.2))
              (BitVec.ofNat 8 e.1)) acc) rows
      else rows
    { s with mem := scales }

/-- The counts of a compress chain (R173). -/
def writeCounts (f : Fire) (d : ChainDesc) (outs : List StageOut) (m0 : Memory) (s : State) : State :=
  if d.cmode = 1 then
    let x := needStream m0 f d.count
    let put (acc : Memory) (r : List Bool × Nat) : Memory :=
      acc.writeElem (x.row m0 f 0) .int32 r.2 (r.1.filter id).length
    { s with mem := (maskRows outs d.cstage).zipIdx.foldl put s.mem }
  else s

/-- The reduction unit's stroke in a bar taps this chain (R202). -/
def tapped (m : Memory) (f : Fire) (bar desc : Nat) : Bool :=
  let w := StrokeWord.ofWord (scStave m f.score bar 6)
  w.op == 0x10 && fld (descOf m f w.desc) 511 496 == desc

/-- Input A of a chain is the window stream. -/
def windowed (m : Memory) (f : Fire) (d : ChainDesc) : Bool :=
  match streamOf m f d.inA with | some x => x.window | none => false

/-- The stages of a chain over its iteration space, and the rows of an expand chain whose true lanes and count differ. -/
def chainStages (s : State) (ctxs : List RattleCtx) (f : Fire) (d : ChainDesc) (win : Option (List WinVector)) : List StageOut × Nat :=
  let e := chainEnv s ctxs f d win
  let ex := if d.cmode = 2 then expandGrid s.mem f e (maskRows (runStages e) d.cstage) else (e.a, 0)
  (runStages { e with a := ex.1 }, ex.2)

/-- The rows that a tapped chain sends to the reduction unit. -/
def tapRowsOf (d : ChainDesc) (desc bar : Nat) (outs : List StageOut) : List TapRow :=
  (List.range d.rows).map fun i => { chainDesc := desc, bar := bar, width := d.width, stages := outs.map fun o => o.words.getD i [] }

/-- A chain computes its stages, counts and writes its output streams (R164 to R174). -/
def runChain (c : Nat) (ctxs : List RattleCtx) (f : Fire) (d : ChainDesc) (win : Option (List WinVector)) (s : State) :
    State × List StageOut :=
  let (outs, misses) := chainStages s ctxs f d win
  let s1 := countNan c ((outs.map (·.nans)).sum) (countReserved c (chainReserved s.mem f d (maskRows outs d.cstage)) s)
  let s2 := countCore c (fun k => { k with expandMismatch := satAdd 32 k.expandMismatch misses }) s1
  let s3 := writeOut f d outs d.outP d.pStage s.mem s2
  (writeCounts f d outs s.mem (writeOut f d outs d.outQ d.qStage s.mem s3), outs)

/-! ## The step stroke (R237 to R240) -/

/-- A step descriptor (R253). -/
structure StepDesc where
  guide : Bool
  histEn : Bool
  histSrc : Bool
  ctx : Nat
  x : Nat
  xout : Nat
  ec : Nat
  eu : Nat
  h : Nat
  hStride : Nat
  rows : Nat
  cols : Nat
  idx : Nat
  coefBuf : Nat
  coefOfs : Nat
  wGuide : Word
  deriving DecidableEq, Repr

def StepDesc.ofDesc (d : Desc) : StepDesc :=
  { guide := bitAt d 31, histEn := bitAt d 30, histSrc := bitAt d 29, ctx := fld d 28 27, x := fld d 511 496,
    xout := fld d 495 480, ec := fld d 479 464, eu := fld d 463 448, h := fld d 447 432, hStride := fld d 431 408,
    rows := fld d 407 384, cols := fld d 383 360, idx := fld d 359 336, coefBuf := fld d 335 324,
    coefOfs := fld d 323 300, wGuide := BitVec.ofNat 32 (fld d 299 268) }

/-- The captured step-table row (R234). -/
structure StepRow where
  a : Word
  b : Word
  c : Word
  d : List Word
  p : Word
  q : Word
  wMul : Word
  flags : Nat
  deriving DecidableEq, Repr

def stepRow (m : Memory) (f : Fire) (x : StepDesc) : StepRow :=
  let at_ := bufAddr m f x.coefBuf (x.coefOfs + 64 * x.idx)
  let w (o : Nat) : Word := BitVec.ofNat 32 (m.readNat (at_ + o) 4)
  { a := w 0, b := w 4, c := w 8, d := [w 12, w 16, w 20], p := w 24, q := w 28, wMul := w 32, flags := (w 44).toNat }

/-- The history slot `n` mod 4 of a step (R239). -/
def histSlot (m : Memory) (f : Fire) (x : StepDesc) (n : Nat) : Stream := (needStream m f x.h).moved (n % 4 * x.hStride) 0

/-- The epsilon of element (i, j). -/
def stepEps (m : Memory) (f : Fire) (x : StepDesc) (r : StepRow) (i j : Nat) : Word :=
  let ec := (needStream m f x.ec).word 0 m f i j
  if x.guide then
    let eu := (needStream m f x.eu).word 0 m f i j
    f32Fma (f32Mul x.wGuide r.wMul) (f32Sub ec eu) eu
  else ec

/-- The new latent value of element (i, j), its epsilon and its old value given (R238). -/
def stepValue (m : Memory) (f : Fire) (x : StepDesc) (r : StepRow) (ctx : RattleCtx) (e old : Word) (i j : Nat) : Word :=
  let v0 := f32Fma r.b e (f32Mul r.a old)
  let v1 := ([1, 2, 3] : List Nat).foldl
    (fun v k =>
      if k ≤ r.flags / 2 % 4 && k ≤ x.idx && !(x.h == 0xFFFF) then
        f32Fma (r.d.getD (k - 1) 0) ((histSlot m f x (x.idx - k)).word 0 m f i j) v
      else v) v0
  if r.flags.testBit 0 then f32Fma r.c (ctx.value 1 i j) v1 else v1

/-- An FP32 grid written to a stream. -/
def writeGrid (x : Stream) (m0 : Memory) (f : Fire) (cols : Nat) (g : Grid) (m : Memory) : Memory :=
  g.zipIdx.foldl (fun acc r => acc.writeRow (x.row m0 f r.2) x.fmt cols 0 (r.1.map (storeCode x.fmt))) m

/-- The data action of STEP. -/
def stepBody (c : Nat) (b : BeatCtx) (key : Nat) (s : State) : State :=
  let f := b.fire
  let m := s.mem
  let x := StepDesc.ofDesc (descOf m f b.word.desc)
  let r := stepRow m f x
  let ctx := (s.core c).rattle.getD x.ctx RattleCtx.zero
  let old := gridOf x.rows x.cols fun i j => (needStream m f x.x).word 0 m f i j
  let eps := gridOf x.rows x.cols fun i j => stepEps m f x r i j
  let new := gridOf x.rows x.cols fun i j => stepValue m f x r ctx (eps.at i j) (old.at i j) i j
  let m1 := writeGrid (needStream m f x.xout) m f x.cols new m
  let hist := gridOf x.rows x.cols fun i j =>
    if x.histSrc then f32Fma r.q (eps.at i j) (f32Mul r.p (old.at i j)) else eps.at i j
  let m2 := if x.histEn then writeGrid (histSlot m f x x.idx) m f x.cols hist m1 else m1
  doneStroke (rollUnit c) key { s with mem := m2 }

/-- STEP. -/
def execStepStroke (c : Fin 256) (s : State) : Host.Outcome State Fault Refusal :=
  .next (runStroke (rollUnit c.val) 0x11 noStream (stepBody c.val) s)

/-! ## Rattle contexts (R197, R203) -/

/-- The context of a Rattle descriptor. -/
def rattleOf (d : Desc) : RattleCtx :=
  { seed := BitVec.ofNat 64 (fld d 127 64), stream := BitVec.ofNat 32 (fld d 159 128),
    idxBase := BitVec.ofNat 64 (fld d 223 160), rowStep := BitVec.ofNat 64 (fld d 287 224),
    colStep := BitVec.ofNat 64 (fld d 351 288) }

/-- RATTLE_SET: one context of the core is written. -/
def execRattleSet (c : Fin 256) (s : State) : Host.Outcome State Fault Refusal :=
  .next (runStroke (.core c 11) 0x10 noStream
    (fun b key t =>
      let d := descOf t.mem b.fire b.word.desc
      doneStroke (.core c 11) key
        (t.updCore c.val fun k => { k with rattle := updAt k.rattle (fld d 1 0) fun _ => rattleOf d })) s)

end Sys2Proof.Machine
end

