-- ==== Sys2Proof/Machine/Link.lean ====
section
/-! DEFINITION. The link unit's strokes (R306 to R311, R317, R320 to R325, R338 to R341): SEND, RECV and COLL, and the send that
a drain of combination 7 makes. -/
namespace Sys2Proof.Machine

/-- The context of a stroke in flight. -/
def fireOf (s : State) (u : UnitId) (i : Inflight) : Fire :=
  let a := ((s.currentJob).map s.scoreAddr).getD 0
  { score := a, core := (match u with | .core c _ => c.val | .chip _ => 0), rank := unitRank s a u, loops := i.loops,
    params := ((s.currentJob).map (·.params)).getD [] }

/-- The stroke in flight at a unit with a key. -/
def inflightOf (s : State) (u : UnitId) (key : Nat) : Option Inflight := (s.unit u).inflight.find? fun i => i.key == key

/-! ## Sends -/

/-- A send descriptor (R339). -/
structure SendDesc where
  relative : Bool
  pairs : Nat
  svc : Nat
  peerId : Nat
  deltas : List Int
  window : Nat
  remoteOfs : Nat
  srcBuf : Nat
  srcOfs : Nat
  bytes : Nat
  rows : Nat
  srcRow : Nat
  dstRow : Nat
  deriving DecidableEq, Repr

def SendDesc.ofDesc (d : Desc) : SendDesc :=
  { relative := fld d 31 30 == 1, pairs := fld d 29 28, svc := fld d 27 27, peerId := fld d 511 498,
    deltas := [signedOf 8 (fld d 495 488), signedOf 8 (fld d 487 480), signedOf 8 (fld d 479 472), signedOf 8 (fld d 471 464)],
    window := fld d 463 460, remoteOfs := fld d 455 416, srcBuf := fld d 415 404, srcOfs := fld d 403 364,
    bytes := fld d 363 340, rows := fld d 339 316, srcRow := fld d 315 276, dstRow := fld d 275 236 }

/-- The peer of a send, none when it fails the check of R309. -/
def sendPeer (s : State) (d : SendDesc) : Option Nat :=
  if d.relative then
    let me := coordOf s.self
    let step (k : Nat) : Option Nat :=
      let v : Int := (me.getD k 0 : Nat) + d.deltas.getD k 0
      let e := s.extent k
      if s.isTorus k then some (v % (e : Int)).toNat
      else if v < 0 || (e : Int) ≤ v then none else some v.toNat
    match step 0, step 1, step 2, step 3 with
    | some x, some y, some z, some w => some (memberOf [x, y, z, w])
    | _, _, _, _ => none
  else if insideExtents s d.peerId then some d.peerId else none

/-- The member that a relative send names, each coordinate modulo its field's width: what the log records of one outside a mesh. -/
def namedPeer (s : State) (d : SendDesc) : Nat :=
  if d.relative then
    let me := coordOf s.self
    let c (k m : Nat) : Nat := (((me.getD k 0 : Nat) + d.deltas.getD k 0) % (m : Int)).toNat
    memberOf [c 0 16, c 1 16, c 2 8, c 3 8]
  else d.peerId

/-- A send whose peer check fails: nothing is sent, the job is struck, the log records the peer (R309). -/
def strikePeer (stave core bar desc : Nat) (d : SendDesc) (s : State) : State :=
  let t := logError 0x26 1 .struck (runningFn s) stave core (namedPeer s d) s
  strikeRunning .invalid 3 (detailPlace stave 0xFF core bar desc 0 0xFF) t

/-- Some flit of a transfer still waits for credit at a port. -/
def flitsWait (s : State) (xtag : BitVec 7) : Bool :=
  s.fabric.ports.any fun p => p.waitTx.any fun w => w.1 == 16 && w.2.2.kind == .send && sendXtag w.2.2 == xtag

/-- The next transfer tag that no send in flight has. -/
def freeTag (s : State) : Option (BitVec 7) :=
  ((List.range 128).map fun i => s.fabric.nextXtag + BitVec.ofNat 7 i).find? fun t => s.fabric.sends.all fun x => !(x.xtag == t)

/-- A transfer of `n` bytes is under way under a tag. -/
def openSend (xtag : BitVec 7) (q : QueuedSend) (n : Nat) (s : State) : State :=
  let f := s.fabric
  { s with fabric := { f with
    nextXtag := xtag + 1,
    sends := f.sends ++ [{ xtag := xtag, stave := q.stave, core := q.core, key := q.key, peer := q.peer, window := q.window,
                           bytes := n, acked := 0, flits := 0 }],
    tagged := (f.tagged.filter fun x => !(x.1 == xtag)) ++ [(xtag, q.peer, q.window, s.sched.current.getD s.sched.nextId)] } }

/-- Runs of bytes of a transfer under way are cut into flits and sent (R308): the stroke pauses while a flit of it waits for credit (R77). -/
def sendRuns (u : UnitId) (xtag : BitVec 7) (q : QueuedSend) (s : State) : State :=
  let flits := q.runs.flatMap fun r => cutFlits (ceilDiv r.2.length 236) r.1 r.2
  let first := ((s.fabric.sends.find? fun x => x.xtag == xtag).map (·.flits)).getD 0
  let t := { s with fabric := { s.fabric with
    sends := s.fabric.sends.map fun x => if x.xtag = xtag then { x with flits := first + flits.length } else x } }
  let r := sendBytes q.peer q.window xtag q.svc q.pairs first flits t
  if flitsWait r xtag then setPhase u q.key .paused r else r

/-- A send goes out under a transfer tag. -/
def sendUnder (xtag : BitVec 7) (q : QueuedSend) (s : State) : State :=
  let n := (q.runs.map fun r => r.2.length).sum
  let u : UnitId := if q.stave = 13 then linkUnit else .core (Fin.ofNat 256 q.core) (Fin.ofNat 16 q.stave)
  let t := sendRuns u xtag q (openSend xtag q n s)
  if n = 0 then setPhase u q.key .done { t with fabric := { t.fabric with sends := s.fabric.sends } } else t

/-- Runs of bytes sent to window offsets of a peer under a transfer tag of their own (R308, R310): the stroke pauses while no tag is free,
and while a flit of it waits for credit (R77). -/
def startSend (u : UnitId) (key : Nat) (d : SendDesc) (peer : Nat) (runs : List (Nat × List Byte)) (s : State) : State :=
  let core := match u with | .core c _ => c.val | .chip _ => 0
  let q : QueuedSend := { stave := unitStave u, core := core, key := key, peer := peer, window := d.window, svc := d.svc,
                          pairs := d.pairs, runs := runs }
  match freeTag s with
  | some t => sendUnder t q s
  | none => setPhase u key .paused { s with fabric := { s.fabric with queued := s.fabric.queued ++ [q] } }

/-- A paused send goes on when its flits have left, or when a transfer tag is free for it. -/
def resumeSend (u : UnitId) (key : Nat) (s : State) : State :=
  match s.fabric.queued.find? fun q => q.key == key with
  | some q =>
    match freeTag s with
    | some t =>
      sendUnder t q (setPhase u key .running
        { s with fabric := { s.fabric with queued := s.fabric.queued.filter fun x => !(x.key == key) } })
    | none => s
  | none => if s.fabric.sends.any fun x => x.key == key && flitsWait s x.xtag then s else setPhase u key .running s

/-- The port that flit `f` of this device takes on pair `pair` has credit for it; one that leaves by no port needs none (R300). -/
def hopCredit (f : Flit) (pair : Nat) (s : State) : Bool :=
  match nextHop s f.dest.toNat with
  | none => true
  | some (dim, minus) =>
    match hopPort s dim minus pair with
    | none => true
    | some p => maySend (s.port p) { f with vc := hopVc s none dim minus f.vc }

/-- The ports that the flits of a send take, on one pair or alternating on both, have credit; a send that goes nowhere, or to the device
itself, needs none (R76, R300, R303). -/
def peerCredit (d : SendDesc) (s : State) : Bool :=
  match sendPeer s d with
  | none => true
  | some peer => [0, 1].all fun i => hopCredit (sendFlit peer d.window 0 d.svc 0 []) (sendPair d.pairs i) s

/-- The credit test of SEND. -/
def sendCredit (b : BeatCtx) (s : State) : Bool := peerCredit (SendDesc.ofDesc (descOf s.mem b.fire b.word.desc)) s

/-- The data action of SEND. -/
def sendBody (b : BeatCtx) (key : Nat) (s : State) : State :=
  let d := SendDesc.ofDesc (descOf s.mem b.fire b.word.desc)
  match sendPeer s d with
  | none => strikePeer 13 0xFFFF b.bar b.word.desc d s
  | some peer =>
    let base := bufAddr s.mem b.fire d.srcBuf d.srcOfs
    startSend linkUnit key d peer ((List.range d.rows).map fun r =>
      (d.remoteOfs + r * d.dstRow, s.mem.readBytes (base + r * d.srcRow) d.bytes)) s

/-- SEND. -/
def execSend (s : State) : Host.Outcome State Fault Refusal := .next (runStroke linkUnit 0x10 sendCredit sendBody s)

/-! ## Receive windows -/

/-- The window number of a RECV stroke. -/
def recvWindow (m : Memory) (f : Fire) (desc : Nat) : Nat := fld (descOf m f desc) 31 28

/-- The window that a RECV opens (R306, R340). -/
def windowFor (s : State) (f : Fire) (desc key : Nat) : Window :=
  let d := descOf s.mem f desc
  let dst (g : Fire) : Nat := bufAddr s.mem g (fld d 511 500) (fld d 499 460)
  { key := key, dsts := if bitAt d 27 then (coresOf s f (fld d 26 25)).map fun c => dst { f with core := c } else [dst f],
    size := fld d 459 420, expect := fld d 419 380, count := 0, peers := [] }

/-- A window opens with a count of 0, and flits that waited for it land. -/
def openWindow (wi : Nat) (w : Window) (s : State) : State :=
  let f := s.fabric
  let t := { s with fabric := { f with windows := updAt f.windows wi fun _ => some w } }
  offerWaiting (match s.sched.current with
    | some id => t.updJob id fun j => { j with opened := (j.opened ++ [wi]).eraseDups }
    | none => t)

/-- An earlier RECV on the window has fired and is not complete (R307). -/
def recvBefore (s : State) (wi key : Nat) : Bool :=
  ((s.unit linkUnit).inflight.takeWhile fun i => !(i.key == key)).any fun i =>
    i.op == 0x11 && !(i.phase == .done) && recvWindow s.mem (fireOf s linkUnit i) i.desc == wi

/-- The data action of RECV: while its window is open the stroke pauses (R307). -/
def recvBody (b : BeatCtx) (key : Nat) (s : State) : State :=
  let wi := recvWindow s.mem b.fire b.word.desc
  if (slotAt s.fabric.windows wi).isSome || recvBefore s wi key then setPhase linkUnit key .paused s
  else openWindow wi (windowFor s b.fire b.word.desc key) s

/-- RECV. -/
def execRecv (s : State) : Host.Outcome State Fault Refusal := .next (runStroke linkUnit 0x11 noStream recvBody s)

/-! ## Collectives -/

/-- The collective that a COLL stroke starts (R320, R341). -/
def collectiveFor (s : State) (f : Fire) (desc key seq : Nat) : Collective :=
  let d := descOf s.mem f desc
  { seq := seq, key := some key, op := fld d 31 28, red := fld d 27 26, inFmt := fld d 25 22, outFmt := fld d 21 18,
    ctype := fld d 17 17, count := fld d 407 376, chunk := max (fld d 375 352) 1, root := fld d 351 336,
    src := bufAddr s.mem f (fld d 511 500) (fld d 499 460), dst := bufAddr s.mem f (fld d 459 448) (fld d 447 408),
    firedAt := s.time, recv := [], written := 0, value := none, children := [], sentUp := false, pairs := [] }

/-- The definition digest of a group (R315). -/
def groupDigest (g : Group) : Digest := shake256 (leBytes 24 g.defn.toNat)

/-- The check of a group as collective sequence 0 (R317). -/
def checkOf (s : State) (g : Group) : Collective :=
  { seq := 0, key := none, op := 15, red := 0, inFmt := 0, outFmt := 0, ctype := 0, count := 0, chunk := 1, root := 0,
    src := 0, dst := 0, firedAt := s.time, recv := [], written := 0,
    value := some (withComplement ((digestBytes (groupDigest g)).take 32)), children := [], sentUp := false, pairs := [] }

/-- The check begins on an unchecked group that has none in flight. -/
def startCheck (tag : Nat) (s : State) : State :=
  match s.group tag with
  | none => s
  | some g =>
    if g.checked || (g.coll 0).isSome then s
    else tryUp tag 0 (takeEarly tag 0 (s.updGroup tag fun x => { x with colls := x.colls ++ [checkOf s g], nextSeq := 1 }))

/-- The data action of COLL: the check first where it is due, then the next sequence number; the collective starts once the
group is checked. -/
def collBody (b : BeatCtx) (key : Nat) (s : State) : State :=
  let d := descOf s.mem b.fire b.word.desc
  let tag := (scGroups s.mem b.fire.score).getD (fld d 16 13) 0
  let s1 := startCheck tag s
  if strikePending s1 then s1
  else
    match s1.group tag with
    | none => s1
    | some g =>
      let seq := g.nextSeq
      let s2 := s1.updGroup tag fun x =>
        { x with nextSeq := seqAfter seq, colls := x.colls ++ [collectiveFor s1 b.fire b.word.desc key seq] }
      let s3 := takeEarly tag seq s2
      if g.checked then startColl tag seq s3 else s3

/-- The chunks by which a collective shows the pairs that its flits take: a broadcast is one chunk, and operations 4 and 5 have none
(R303, R321, R323, R324). -/
def ringChunks (g : Group) (c : Collective) : List Nat :=
  if c.op ≤ 1 then List.range (min 2 (ceilDiv c.count c.chunk)) else if c.op = 2 then List.range (min 2 g.size) else if c.op = 3 then [0] else []

/-- The credit test of COLL: the ports to the next rank of the ring have credit on the group's channel, on the pairs of its chunks, and
those to its neighbours in the tree have it on channel 0; a group of one sends nothing (R76, R300, R321, R325, R326). -/
def collCredit (b : BeatCtx) (s : State) : Bool :=
  let d := descOf s.mem b.fire b.word.desc
  match s.group ((scGroups s.mem b.fire.score).getD (fld d 16 13) 0) with
  | none => true
  | some g =>
    let c := collectiveFor s b.fire b.word.desc 0 0
    decide (g.size ≤ 1) ||
      (((ringChunks g c).all fun q => hopCredit (collFlit g c q []) ((chunkPairs s g).getD (q % 2) (q % 2)) s) &&
       (treeNeighbours g.size g.rank).all fun k => hopCredit (clapFlit g k (clapMsg g 0 0 0 0 0 [])) 0 s)

/-- COLL. -/
def execColl (s : State) : Host.Outcome State Fault Refusal := .next (runStroke linkUnit 0x12 collCredit collBody s)

end Sys2Proof.Machine
end

