-- ==== Sys2Proof/Machine/Epilogue.lean ====
section
/-! DEFINITION. The drain stick's epilogue (R141 to R151, R154, R157): the stages before output, the store and quantise output
stages, the output cache of Damper, and the drain of gang problems. -/
namespace Sys2Proof.Machine

/-! ## A set as the drain stick takes it (R107, R117) -/

/-- The rows and positions of a set that lie below the bounds of N and T. -/
def setRows (n t row0 col0 : Nat) (rows : List (List Word)) : List (List Word) :=
  (rows.take (n - row0)).map fun r => r.take (t - col0)

/-! ## Damper at the drain stick (R249, R250) -/

def cacheAddr (m : Memory) (f : Fire) (d : MatDesc) (x : DamperDesc) (b j : Nat) : Nat :=
  bufAddr m f x.ycBuf (x.ycOfs + (b * ceilDiv d.n 64 + j) * 8192)

/-- The cached set of band `j` and t-block `b`, in the place of a reused block's. -/
def cachedSet (m : Memory) (f : Fire) (d : MatDesc) (x : DamperDesc) (b j : Nat) : List (List Word) :=
  (List.range 64).map fun l => (List.range 32).map fun i =>
    BitVec.ofNat 32 (m.readNat (cacheAddr m f d x b j + 4 * (32 * l + i)) 4)

/-- A computed set goes into the output cache in the refresh and the test phase, before the epilogue. -/
def storeSet (f : Fire) (d : MatDesc) (desc b j : Nat) (rows : List (List Word)) (s : State) : State :=
  match damperActive s.mem f d desc with
  | none => s
  | some x => unitWrite 8 s (cacheAddr s.mem f d x b j) (rows.flatMap wordBytes)

/-! ## Stages before output (R142, R143) -/

/-- The value v of element (n0 + j, t) before the output stage. -/
def epiValue (m : Memory) (tables : List TableSlot) (f : Fire) (d : MatDesc) (e : EpiDesc) (acc : Word) (j t : Nat) : Word :=
  let v0 := if d.ints then f32OfInt acc else acc
  let v1 := if e.biasEn && !(d.combo == 0) then f32Add v0 (biasAt m f e j) else v0
  let v2 := if (d.combo == 2 || d.combo == 5) && !(e.fn == 0) then chime tables e.fn v1 else v1
  if d.combo == 3 || d.combo == 6 then
    let a := if e.alphaVec then BitVec.ofNat 32 (m.readNat (bufAddr m f e.vecBuf (e.vecOfs + 4 * j)) 4) else e.alpha
    let res := toF32 (e.rFmt.decode (m.readElem (bufAddr m f e.resBuf (e.resOfs + j * e.resStride)) e.rFmt t))
    f32Fma a v2 res
  else v2

/-- The values of a set whose first element is (row0, col0). -/
def epiRows (m : Memory) (tables : List TableSlot) (f : Fire) (d : MatDesc) (e : EpiDesc) (row0 col0 : Nat) (accs : List (List Word)) :
    List (List Word) :=
  accs.mapIdx fun j r => r.mapIdx fun i w => epiValue m tables f d e w (row0 + j) (col0 + i)

/-! ## Placing Y (R132, R138, R146) -/

/-- The element index of Y[n, t] in the channel-blocked output layout (R128, R132). -/
def convIndex (w : WinDesc) (n t : Nat) : Nat :=
  (((t / (w.ow * w.oh) * ceilDiv w.cout w.cb + n / w.cb) * w.oh + t / w.ow % w.oh) * w.ow + t % w.ow) * w.cb + n % w.cb

/-- The codes of a tile of Y that begins at (row0, col0), Y's first element given by its address. -/
def placeY (d : MatDesc) (w : WinDesc) (base row0 col0 : Nat) (codes : List (List Nat)) (m : Memory) : Memory :=
  codes.zipIdx.foldl
    (fun acc r =>
      if d.conv || !(d.pkind == 0) then
        r.1.zipIdx.foldl (fun a x => a.writeElem base d.yFmt (convIndex w (d.n0 + row0 + r.2) (col0 + x.2)) x.1) acc
      else acc.writeRow (base + (row0 + r.2) * d.yStride) d.yFmt d.t col0 r.1) m

/-- The cores Y goes to: the core itself, and under `Y_MCAST` every core of the section. -/
def yCores (s : State) (f : Fire) (d : MatDesc) : List Nat :=
  f.core :: (if d.yMcast then coresOf s f d.mcastSection else [])

/-- A tile of Y written at its place in every core it goes to. -/
def writeY (f : Fire) (d : MatDesc) (row0 col0 : Nat) (codes : List (List Nat)) (s : State) : State :=
  let put (m : Memory) (c : Nat) : Memory :=
    placeY d (winAt s.mem f d) (bufAddr s.mem { f with core := c } d.yBuf d.yOfs) row0 col0 codes m
  { s with mem := (yCores s f d).foldl put s.mem }

/-! ## Quantised output (R147, R148) -/

/-- Values narrowed in blocks of 32 rows with the scale byte of each block and position, and the NaN elements counted. -/
def quantRows (f : Fmt) (scale : Nat → Nat → Nat) (rows : List (List Word)) : List (List Nat) × Nat :=
  (rows.zipIdx.map fun r => r.1.zipIdx.map fun w => f.narrow (scale (r.2 / 32) w.2) (ofF32 w.1),
   (rows.flatMap fun r => r.filter fun w => f.countsNan (ofF32 w)).length)

/-- The scale byte of block `b` at position `t` (R36). -/
def blockScale (f : Fmt) (rows : List (List Word)) (b t : Nat) : Nat :=
  f.scaleByte (amax ((((rows.drop (32 * b)).take 32)).map fun r => ofF32 (r.getD t 0)))

/-- Scale bytes of `n` positions of Y from `col0` on, blocks `blk0` and up, written in a core (R147). -/
def writeScales (s0 : State) (f : Fire) (e : EpiDesc) (blk0 col0 blocks n : Nat) (scale : Nat → Nat → Nat) (m : Memory) : Memory :=
  (List.range blocks).foldl
    (fun acc b => acc.writeBytes (bufAddr s0.mem f e.ysBuf (e.ysOfs + (blk0 + b) * e.ysStride + col0))
      ((List.range n).map fun t => BitVec.ofNat 8 (scale b t))) m

/-- Block quantise of a tile (combinations 4 and 5): INT8 takes `QSCALE` and writes no scales. -/
def blockQuantise (f : Fire) (d : MatDesc) (e : EpiDesc) (row0 col0 : Nat) (rows : List (List Word)) (s : State) : State :=
  let scale (b t : Nat) : Nat := if d.yFmt == .int8 then e.qscale else blockScale d.yFmt rows b t
  let (codes, nans) := quantRows d.yFmt scale rows
  let s1 := countNan f.core nans (writeY f d row0 col0 codes s)
  if d.yFmt == .int8 then s1
  else
    let put (m : Memory) (c : Nat) : Memory :=
      writeScales s { f with core := c } e (row0 / 32) col0 (ceilDiv rows.length 32) (rows.headD []).length scale m
    { s1 with mem := (yCores s f d).foldl put s1.mem }

/-- The FP32 values of a tile written to the hold buffer (R148 step 1). -/
def holdTile (f : Fire) (e : EpiDesc) (row0 col0 : Nat) (rows : List (List Word)) (s : State) : State :=
  let put (m : Memory) (r : List Word × Nat) : Memory :=
    m.writeBytes (bufAddr s.mem f e.auxBuf (e.auxOfs + (row0 + r.2) * e.auxStride + 4 * col0)) (wordBytes r.1)
  { s with mem := rows.zipIdx.foldl put s.mem }

/-- The largest magnitudes of the positions of a tile together with those held from the tiles before it (R148 step 2). -/
def amaxTile (col0 : Nat) (rows : List (List Word)) (held : List Word) : List Word :=
  let new := (List.range (rows.headD []).length).map fun i =>
    toF32 (amax (ofF32 (held.getD (col0 + i) 0) :: rows.map fun r => ofF32 (r.getD i 0)))
  held.take col0 ++ new ++ held.drop (col0 + new.length)

/-- The deferred pass of a core: the hold buffer narrowed with one scale byte a position (R148 steps 4 and 5). -/
def deferredQuantise (f : Fire) (d : MatDesc) (e : EpiDesc) (merged : List Word) (s : State) : State :=
  let hold := (List.range d.n).map fun j =>
    (wordsOf 4 (s.mem.readBytes (bufAddr s.mem f e.auxBuf (e.auxOfs + j * e.auxStride)) (4 * d.t))).map (BitVec.ofNat 32)
  let scale (_ t : Nat) : Nat := d.yFmt.scaleByte (ofF32 (merged.getD t 0))
  let (codes, nans) := quantRows d.yFmt scale hold
  let s1 := countNan f.core nans (writeY f d 0 0 codes s)
  { s1 with mem := writeScales s f e 0 0 (ceilDiv d.n 32) d.t scale s1.mem }

/-! ## Channel argmax (R135, R151) -/

/-- Whether a new value replaces the held one: strictly larger, a NaN above +∞. -/
def larger (held new : Word) : Bool :=
  if (ofF32 held).isNan then false else if (ofF32 new).isNan then true else (ofF32 held).lt (ofF32 new)

/-- One more candidate for a position: its value and its global index. -/
def argmaxOver (held : Option (Word × Word)) (new : Word × Word) : Option (Word × Word) :=
  match held with
  | none => some new
  | some h => if larger h.1 new.1 then some new else some h

/-- The winners of the positions of a tile over its rows in ascending order, and over the tiles before it, which hold lower rows: their
values, and their global indices. -/
def argmaxTile (d : MatDesc) (row0 col0 : Nat) (rows : List (List Word)) (held : List (List Word)) : List (List Word) :=
  let vals := held.getD 0 []
  let idxs := held.getD 1 []
  let best (i : Nat) : Word × Word :=
    let h : Option (Word × Word) := match vals[col0 + i]?, idxs[col0 + i]? with | some v, some x => some (v, x) | _, _ => none
    ((rows.zipIdx.foldl (fun acc r => argmaxOver acc (r.1.getD i 0, BitVec.ofNat 32 (d.n0 + row0 + r.2))) h)).getD (0, 0)
  let new := (List.range (rows.headD []).length).map best
  [vals.take col0 ++ new.map (·.1) ++ vals.drop (col0 + new.length), idxs.take col0 ++ new.map (·.2) ++ idxs.drop (col0 + new.length)]

/-! ## Store, and store and send (R146, R150) -/

/-- The codes combination 0 stores: INT32 accumulators unchanged, others converted once (R146). -/
def rawRows (d : MatDesc) (rows : List (List Word)) : List (List Nat) :=
  rows.map fun r => r.map fun w =>
    if d.yFmt == .int32 then w.toNat else storeCode d.yFmt (if d.ints then f32OfInt w else w)

/-- The codes of the store output stage. -/
def storeRows (d : MatDesc) (rows : List (List Word)) : List (List Nat) := rows.map fun r => r.map (storeCode d.yFmt)

/-- The runs of a combination-7 tile, as offsets from `Y_OFS` (R150). -/
def tileRuns (d : MatDesc) (w : WinDesc) (row0 col0 : Nat) (codes : List (List Nat)) : List (Nat × List Byte) :=
  let n := d.yFmt.bits / 8
  codes.zipIdx.flatMap fun r =>
    if d.conv then r.1.zipIdx.map fun x => (convIndex w (d.n0 + row0 + r.2) (col0 + x.2) * n, leBytes n x.1)
    else [((row0 + r.2) * d.yStride + col0 * n, r.1.flatMap (leBytes n))]

/-- The transfer of a combination-7 stroke, begun with its first tile; none while no transfer tag is free. -/
def tileSend (c key peer : Nat) (d : MatDesc) (sd : SendDesc) (s : State) : Option (BitVec 7 × QueuedSend × State) :=
  let q : QueuedSend := { stave := 8, core := c, key := key, peer := peer, window := sd.window, svc := sd.svc, pairs := sd.pairs, runs := [] }
  match s.fabric.sends.find? fun x => x.key == key with
  | some x => some (x.xtag, q, s)
  | none => (freeTag s).map fun g => (g, q, openSend g q (d.n * d.t * (d.yFmt.bits / 8)) s)

/-- Combination 7: a finished tile goes to the peer, and to Y when `LOCAL` is set (R150). A peer that fails its check ends the job (R309);
with no transfer tag free the answer is none. -/
def sendTile (c key bar desc : Nat) (f : Fire) (d : MatDesc) (e : EpiDesc) (row0 col0 : Nat) (codes : List (List Nat)) (s : State) :
    Option State :=
  let sd := SendDesc.ofDesc (descOf s.mem f e.send)
  match sendPeer s sd with
  | none => some (strikePeer 8 c bar desc sd s)
  | some peer =>
    (tileSend c key peer d sd s).map fun (g, q, t) =>
      let r := if e.onDevice then writeY f d row0 col0 codes t else t
      sendRuns (drainUnit c) g
        { q with runs := (tileRuns d (winAt s.mem f d) row0 col0 codes).map fun x => (sd.remoteOfs + x.1, x.2) } r

/-! ## Chained product (R157) -/

/-- The outputs of a t-block of a chained product from the sets of MU2 and MU3. -/
def drainChain (f : Fire) (d : MatDesc) (e : EpiDesc) (col0 : Nat) (lo hi : List (List Word)) (s : State) : State :=
  let n := min 32 (d.t - col0)
  let col (t : Nat) : ChainRun :=
    let a := ChainRun.ofRow (lo.getD t [])
    { a with acc := a.acc ++ (ChainRun.ofRow (hi.getD t [])).acc }
  let out (t j : Nat) : Word :=
    let x := col t
    if e.norm then (if x.l = 0 then 0 else f32Mul (x.acc.getD j 0) (chime s.tables 0x03 x.l)) else x.acc.getD j 0
  let rows := (List.range d.n).map fun j => (List.range n).map fun t => out t j
  let s1 := writeY f d 0 col0 (storeRows d rows) s
  if e.statEn then
    unitWrite 8 s1 (bufAddr s.mem f e.statBuf (e.statOfs + 8 * col0)) ((List.range n).flatMap fun t => wordBytes [(col t).m, (col t).l])
  else s1

/-! ## Gang problems (R121, R123) -/

/-- The rows of one global block of 32 that a gang tile holds: with those that other tiles of the problem gave before them they are
quantised once the block is whole, and held back until then (R147). `N0` is a multiple of 32, so a global block begins at such a row. -/
def quantiseBlock (f : Fire) (d : MatDesc) (e : EpiDesc) (key mu p col0 b : Nat) (rows : List (List Word)) (s : State) : State :=
  let place := [mu, p, b, col0]
  let mine (x : HeldRows) : Bool := x.key == key && x.place == place
  let all := (((s.core f.core).partials.find? mine).map (·.rows)).getD [] ++ rows
  let t := s.updCore f.core fun k => { k with partials := k.partials.filter fun x => !mine x }
  if all.length = min 32 (d.n - 32 * b) then blockQuantise f d e (32 * b) col0 all t
  else t.updCore f.core fun k => { k with partials := k.partials ++ [{ key := key, place := place, rows := all }] }

/-- A tile of a gang problem through block quantise, global block by global block; an INT8 output needs no block scale (R147, R159). -/
def quantiseCells (f : Fire) (d : MatDesc) (e : EpiDesc) (key mu p row0 col0 : Nat) (rows : List (List Word)) (s : State) : State :=
  if d.yFmt == .int8 then blockQuantise f d e row0 col0 rows s
  else (rangeFrom (row0 / 32) (ceilDiv (row0 + rows.length) 32 - row0 / 32)).foldl
    (fun acc b => quantiseBlock f d e key mu p col0 b ((rows.drop (32 * b - row0)).take (32 * b + 32 - max row0 (32 * b))) acc) s

/-- A tile of problem `p` of a gang stroke from unit `mu`, through its epilogue and output stage (combinations 0 to 5). -/
def drainCells (f : Fire) (d : MatDesc) (key mu p row0 col0 : Nat) (rows : List (List Word)) (s : State) : State :=
  if d.combo = 0 then writeY f d row0 col0 (rawRows d rows) s
  else
    let e := epiAt s.mem f d
    let v := epiRows s.mem s.tables f d e row0 col0 rows
    if d.combo = 4 || d.combo = 5 then quantiseCells f d e key mu p row0 col0 v s else writeY f d row0 col0 (storeRows d v) s

/-- The partition of a problem stopped by a parity error: its tiles are not written (R123). -/
def partitionStopped (k : Core) (mu key : Nat) (d : MatDesc) : Bool :=
  k.stoppedParts.any fun p => p.1 == key && p.2 / 8 == mu && natBit d.saMask (p.2 % 8)

end Sys2Proof.Machine
end

