-- ==== Sys2Proof/Machine/Reduce.lean ====
section
/-! DEFINITION. The reduction unit's arithmetic (R175 to R184, R202): the statistics of a tapped stage in their fixed order, their
merge, and their finalisation. -/
namespace Sys2Proof.Machine

def reduceUnit (c : Nat) : UnitId := .core (Fin.ofNat 256 c) 6

/-- A reduction descriptor (R202). -/
structure RedDesc where
  tap : Nat
  axis : Nat
  count : Bool
  argmax : Bool
  minEn : Bool
  maxEn : Bool
  sumsq : Bool
  sum : Bool
  smax : Bool
  pivot : Nat
  merge : Bool
  norm : Bool
  mstage : Nat
  chainDesc : Nat
  pivotDesc : Nat
  outBuf : Nat
  outOfs : Nat
  outStride : Nat
  group : Nat
  eps : Word
  nTotal : Nat
  argBase : Nat
  deriving DecidableEq, Repr

def RedDesc.ofDesc (d : Desc) : RedDesc :=
  { tap := fld d 31 29, axis := fld d 28 28, count := bitAt d 27, argmax := bitAt d 26, minEn := bitAt d 25, maxEn := bitAt d 24,
    sumsq := bitAt d 23, sum := bitAt d 22, smax := bitAt d 21, pivot := fld d 20 19, merge := bitAt d 18, norm := bitAt d 17,
    mstage := fld d 16 14, chainDesc := fld d 511 496, pivotDesc := fld d 495 480, outBuf := fld d 479 468,
    outOfs := fld d 467 444, outStride := fld d 443 420, group := max (fld d 419 404) 1, eps := BitVec.ofNat 32 (fld d 403 372),
    nTotal := if fld d 371 348 = 0 then 2 ^ 24 else fld d 371 348, argBase := fld d 347 316 }

/-- A kept index: its first row, its number of rows, and its column with `AXIS` 1 (R175). -/
structure Kept where
  row0 : Nat
  rows : Nat
  col : Option Nat
  deriving DecidableEq, Repr

/-- The kept indices in output order. -/
def keptOf (d : RedDesc) (rows cols : Nat) : List Kept :=
  let groups := (List.range (ceilDiv rows d.group)).map fun q => (q * d.group, min d.group (rows - q * d.group))
  if d.axis = 0 then groups.map fun g => { row0 := g.1, rows := g.2, col := none }
  else groups.flatMap fun g => (List.range cols).map fun j => { row0 := g.1, rows := g.2, col := some j }

/-- The element value of the tap (R177). -/
def tapValue (width : Nat) (w : Word) : Word := if width = 2 then f32OfInt w else w

/-- The runs of elements of a kept index in reduction order: one run per sweep with `AXIS` 0, one element with `AXIS` 1. -/
def sweepsOf (k : Kept) (cols : Nat) : List (List (Nat × Nat)) :=
  match k.col with
  | some j => (rangeFrom k.row0 k.rows).map fun i => [(i, j)]
  | none => (rangeFrom k.row0 k.rows).flatMap fun i =>
      (List.range (ceilDiv cols 128)).map fun s => (rangeFrom (128 * s) (min 128 (cols - 128 * s))).map fun j => (i, j)

/-- A statistic over the runs of a range: the tree over each run, then the accumulator (R176). With `AXIS` 1 each run is one
element, and the accumulator takes it as it is. -/
def reduceRuns {α : Type} (combine : α → α → α) (init : α) (perElement : Bool) (runs : List (List α)) : α :=
  runs.foldl (fun acc r => combine acc (if perElement then r.headD init else tree128 combine init r)) init

/-- The larger of two candidates, the left kept unless the right is strictly larger (R177). -/
def argBetter : Option (Word × Nat) → Option (Word × Nat) → Option (Word × Nat)
  | none, y => y
  | x, none => x
  | some a, some b => if larger a.1 b.1 then some b else some a

/-- The pivot of a kept index: +0 with none, its first element, or a supplied one (R178). -/
def pivotOf (d : RedDesc) (val : Nat → Nat → Word) (supplied : Nat → Word) (i : Nat) (k : Kept) : Word :=
  if d.pivot = 1 then val k.row0 (k.col.getD 0) else if d.pivot = 2 then supplied i else 0

/-- The partial statistics of a kept index: sum, sum of squares, max, min, argmax value and index, count, pivot; or, in
soft-maximum mode, the running maximum and sum (R177, R183). -/
def keptStats (tables : List TableSlot) (d : RedDesc) (cols : Nat) (val : Nat → Nat → Word) (mask : Nat → Nat → Bool) (p : Word)
    (k : Kept) : List Word :=
  let runs := sweepsOf k cols
  let one := d.axis == 1
  let vals (f : Nat → Nat → Word) : List (List Word) := runs.map fun r => r.map fun e => f e.1 e.2
  if d.smax then
    let z := (vals val).foldl
      (fun (acc : Word × Word) r =>
        let mNew := f32Max acc.1 (if one then r.headD fNegInf else tree128 f32Max fNegInf r)
        let es := r.map fun x => expOf tables x mNew
        let sum := if one then es.headD 0 else tree128 f32Add 0 es
        (mNew, f32Add (f32Mul acc.2 (corrOf tables acc.1 mNew)) sum)) (fNegInf, 0)
    [z.1, z.2]
  else
    let w (i j : Nat) : Word := if d.pivot = 0 then val i j else f32Sub (val i j) p
    let cands := runs.map fun r => r.map fun e => some (val e.1 e.2,
      (d.argBase + (e.1 - k.row0) * (if one then 1 else cols) + (if one then 0 else e.2)) % 2 ^ 32)
    let best := (reduceRuns argBetter none one cands).getD (0, 0)
    [reduceRuns f32Add 0 one (vals w),
     reduceRuns f32Add 0 one (vals fun i j => f32Mul (w i j) (w i j)),
     reduceRuns f32Max fNegInf one (vals val), reduceRuns f32Min fInf one (vals val),
     best.1, BitVec.ofNat 32 best.2,
     BitVec.ofNat 32 ((runs.map fun r => (r.filter fun e => mask e.1 e.2).length).sum), p]

/-- Two cores' partials of a kept index, the lower rank's first (R179, R184). -/
def mergeStats (tables : List TableSlot) (smax : Bool) (a b : List Word) : List Word :=
  let g (l : List Word) (i : Nat) : Word := l.getD i 0
  if smax then
    let m := f32Max (g a 0) (g b 0)
    [m, f32Add (f32Mul (g a 1) (corrOf tables (g a 0) m)) (f32Mul (g b 1) (corrOf tables (g b 0) m))]
  else
    let keep := !larger (g a 4) (g b 4)
    [f32Add (g a 0) (g b 0), f32Add (g a 1) (g b 1), f32Max (g a 2) (g b 2), f32Min (g a 3) (g b 3),
     if keep then g a 4 else g b 4, if keep then g a 5 else g b 5, g a 6 + g b 6, g a 7]

/-- a / n rounded once to FP32, for a whole number n from 1 to 2^24 (R181). -/
def f32DivNat (a : Word) (n : Nat) : Word :=
  match ofF32 a with
  | .fin s m e =>
    let q := m <<< 80 / n
    toF32 (.fin s (2 * q + (if m <<< 80 % n = 0 then 0 else 1)) (e - 81))
  | v => toF32 v

/-- The final values of a kept index in output order, and whether its variance was negative or its range empty (R180, R181,
R184). -/
def finalStats (tables : List TableSlot) (d : RedDesc) (st : List Word) : List Word × Bool :=
  let g (i : Nat) : Word := st.getD i 0
  if d.smax then
    if g 0 = fNegInf then ([0, 0], true) else ([g 0, chime tables 0x03 (g 1)], false)
  else
    let t2 := f32DivNat (f32Mul (g 0) (g 0)) d.nTotal
    let t4 := f32DivNat (f32Sub (g 1) t2) d.nTotal
    let var := f32Max 0 t4
    let mean := f32Add (f32DivNat (g 0) d.nTotal) (g 7)
    let tail := (if d.maxEn then [g 2] else []) ++ (if d.minEn then [g 3] else []) ++ (if d.argmax then [g 5] else [])
      ++ (if d.count then [g 6] else [])
    if d.norm then ([mean, var, chime tables 0x04 (f32Add var d.eps)] ++ tail, (ofF32 t4).lt Val.zero)
    else ((if d.sum then [g 0] else []) ++ (if d.sumsq then [g 1] else []) ++ tail, false)

/-- Output vectors written in a core (R180, R262). -/
def writeStats (s0 : State) (f : Fire) (d : RedDesc) (finals : List (List Word)) (s : State) : State :=
  (List.range ((finals.headD []).length)).foldl (fun acc k => unitWrite 6 acc
    (bufAddr s0.mem f d.outBuf (d.outOfs + k * d.outStride)) (wordBytes (finals.map fun l => l.getD k 0))) s

/-- The counters a finalisation raises: NEG_VAR, or SMAX_EMPTY (R181, R184). -/
def countFinal (c : Nat) (d : RedDesc) (n : Nat) (s : State) : State :=
  countCore c (fun k =>
    if d.smax then { k with smaxEmpty := satAdd 32 k.smaxEmpty n } else { k with negVar := satAdd 32 k.negVar n }) s

end Sys2Proof.Machine
end

