-- ==== Sys2Proof/Machine/Merge.lean ====
section
/-! DEFINITION. Cross-core merges (R148, R149, R151, R179, R184, R217 to R220), what a REDUCE computes, the recomputed probabilities, and
MERGE_PARTIAL_RX. A core has two ports: the merge port of the drain stick, and the reduction unit's own. -/
namespace Sys2Proof.Machine

/-- Whether an item uses the reduction unit's port (true) or the drain stick's (false). -/
def itemPort : MergeKind → Option Bool
  | .rowAmax | .argmax | .attn => some false
  | .stats | .smax => some true
  | .attnDone | .pivots | .statsDone => none

/-- The merge a port works on: the oldest. -/
def headItem (k : Core) (red : Bool) : Option MergeItem := k.merges.find? fun i => itemPort i.kind == some red

def sameMerge (a b : MergeItem) : Bool := a.kind == b.kind && a.desc == b.desc && a.bar == b.bar

/-- The unit whose stroke an item belongs to. -/
def itemUnit (c : Nat) (i : MergeItem) : UnitId :=
  if itemPort i.kind == some true || i.kind == .statsDone then reduceUnit c else drainUnit c

/-- The context of an item's stroke at its core. -/
def itemFire (s : State) (c : Nat) (i : MergeItem) : Fire :=
  match inflightOf s (itemUnit c i) i.key with
  | some x => fireOf s (itemUnit c i) x
  | none => { score := ((s.currentJob).map s.scoreAddr).getD 0, core := c, rank := i.rank, loops := [], params := [] }

def jobScore (s : State) : Nat := ((s.currentJob).map s.scoreAddr).getD 0

/-- The cores that merge together with a core's item, in ascending rank: the section, or the merge group (R205). -/
def mergeCores (s : State) (c : Nat) (i : MergeItem) : List Nat :=
  let mates := sectionMates s (jobScore s) c
  if i.kind == .attn || i.kind == .attnDone then
    let g := (attnAt s.mem (itemFire s c i) i.desc).g
    let r := (mates.findIdx? (· == c)).getD 0
    (mates.drop (r / g * g)).take g
  else mates

/-- Two partials combined, the lower rank's first. -/
def combineItem (tables : List TableSlot) (kind : MergeKind) (a b : List (List Word)) : List (List Word) :=
  match kind with
  | .rowAmax => (a.zip b).map fun r => (r.1.zip r.2).map fun w => f32Max w.1 w.2
  | .argmax =>
    let z := (((a.getD 0 []).zip (a.getD 1 [])).zip ((b.getD 0 []).zip (b.getD 1 []))).map fun p =>
      if larger p.1.1 p.2.1 then p.2 else p.1
    [z.map (·.1), z.map (·.2)]
  | .attn => (a.zip b).map fun p =>
      let m := f32Max (p.1.getD 0 0) (p.2.getD 0 0)
      let corr (o : Word) : Word := if o = fNegInf || (ofF32 o).eq (ofF32 m) then fOne else chime tables 0x01 (f32Sub o m)
      let ca := corr (p.1.getD 0 0)
      let cb := corr (p.2.getD 0 0)
      m :: ((p.1.drop 1).zip (p.2.drop 1)).map fun w => f32Add (f32Mul w.1 ca) (f32Mul w.2 cb)
  | k => (a.zip b).map fun p => mergeStats tables (k == .smax) p.1 p.2

/-- A core's own item for a merge taken away, and its stroke done. -/
def closeItem (i : MergeItem) (s : State) (c : Nat) : State :=
  match (s.core c).merges.find? (sameMerge i) with
  | none => s
  | some mine =>
    doneStroke (itemUnit c mine) mine.key
      (s.updCore c fun k => { k with merges := k.merges.filter fun x => !(sameMerge i x && x.key == mine.key) })

/-- The final pass of a core under combination 6. -/
def finishRow (i : MergeItem) (merged : List Word) (s : State) (c : Nat) : State :=
  match (s.core c).merges.find? (sameMerge i) with
  | none => s
  | some mine =>
    let f := itemFire s c mine
    let d := matAt s.mem f i.desc
    closeItem i (deferredQuantise f d (epiAt s.mem f d) merged s) c

/-- The merged argmax row written by the core of rank 0 (R151). -/
def finishArgmax (i : MergeItem) (merged : List (List Word)) (cores : List Nat) (s : State) : State :=
  let c := cores.headD 0
  let mine := ((s.core c).merges.find? (sameMerge i)).getD i
  let f := itemFire s c mine
  let d := matAt s.mem f i.desc
  cores.foldl (closeItem i) (unitWrite 8 s (bufAddr s.mem f d.yBuf d.yOfs) (wordBytes (merged.getD 1 [])))

/-- The outputs of a merge group written by its last core (R218). -/
def finishAttn (i : MergeItem) (merged : List (List Word)) (c : Nat) (s : State) : State :=
  let f := itemFire s c i
  let a := attnAt s.mem f i.desc
  let o := needStream s.mem f a.o
  let om := o.moved (headOf a f * a.oHead) 0
  let outOf (q : List Word) (d : Nat) : Word :=
    if q.getD 0 fNegInf = fNegInf then 0 else f32Mul (q.getD (d + 2) 0) (chime s.tables 0x03 (q.getD 1 0))
  let put (m : Memory) (k : Nat) : Memory :=
    (List.range a.d).foldl (fun acc d =>
      acc.writeRow (om.row s.mem { f with core := k } d) o.fmt a.t 0 (merged.map fun q => storeCode o.fmt (outOf q d))) m
  let m1 := (c :: (if a.oMcast then coresOf s f a.mcastSection else [])).foldl put s.mem
  let lse (q : List Word) : Word :=
    if q.getD 0 fNegInf = fNegInf then fNegInf else f32Add (q.getD 0 0) (chime s.tables 0x02 (q.getD 1 0))
  let flag (q : List Word) : Byte := if q.getD 0 fNegInf = fNegInf then 1 else 0
  let stats := wordBytes (merged.map lse) ++ merged.map flag
  let at_ := (needStream s.mem f a.stat).row s.mem f (headOf a f)
  let s1 := { s with mem := m1 }
  if a.statEn then unitWrite 8 s1 at_ stats else s1

/-- The strokes of a section are done once each of its cores has written, which its item of the finished kind says (R180, R227). -/
def closeWritten (fin : MergeItem) (c : Nat) (s : State) : State :=
  let mates := sectionMates s (jobScore s) c
  if mates.all fun k => ((s.core k).merges.any (sameMerge fin)) then mates.foldl (closeItem fin) s else s

/-- A merge group has written: its strokes are done once every group of the section has (R227). -/
def groupWritten (i : MergeItem) (cores : List Nat) (c : Nat) (s : State) : State :=
  let mark (acc : State) (k : Nat) : State := acc.updCore k fun x =>
    { x with merges := match x.merges.findIdx? (sameMerge i) with
        | some n => updAt x.merges n fun y => { y with kind := .attnDone }
        | none => x.merges }
  closeWritten { i with kind := .attnDone } c (cores.foldl mark s)

/-- Statistics finalised in the core of highest rank and written by every core (R179). -/
def finishStats (i : MergeItem) (merged : List (List Word)) (cores : List Nat) (c : Nat) (s : State) : State :=
  let d := RedDesc.ofDesc (descOf s.mem (itemFire s c i) i.desc)
  let fins := merged.map (finalStats s.tables d)
  let write (acc : State) (k : Nat) : State :=
    match (acc.core k).merges.find? (sameMerge i) with
    | none => acc
    | some mine =>
      let f := itemFire acc k mine
      closeItem i (writeStats acc f (RedDesc.ofDesc (descOf acc.mem f i.desc)) (fins.map (·.1)) acc) k
  cores.foldl write (countFinal c d ((fins.filter (·.2)).length) s)

/-- A merge that has reached its last core ends. -/
def finishMerge (c : Nat) (i : MergeItem) (merged : List (List Word)) (s : State) : State :=
  let cores := mergeCores s c i
  match i.kind with
  | .rowAmax => cores.foldl (finishRow i (merged.headD [])) s
  | .argmax => finishArgmax i merged cores s
  | .attn => groupWritten i cores c (finishAttn i merged c s)
  | .attnDone | .pivots | .statsDone => s
  | _ => finishStats i merged cores c s

/-- The merge at a port is complete at its last core. -/
def mergeReady (s : State) (red : Bool) (c : Nat) : Option (MergeItem × List (List Word)) :=
  match headItem (s.core c) red with
  | none => none
  | some i =>
    match i.merged with
    | none => none
    | some m => if i.rank + 1 = (mergeCores s c i).length then some (i, m) else none

/-- Every merge that is complete ends, one after another. -/
def settleMerges (red : Bool) : Nat → State → State
  | 0, s => s
  | n + 1, s =>
    match (enabledCores s.fuses.variant).find? fun c => (mergeReady s red c).isSome with
    | none => s
    | some c =>
      match mergeReady s red c with
      | none => s
      | some (i, m) => settleMerges red n (finishMerge c i m s)

/-- A core's partial joins its port's queue; behind an unfinished merge its stroke pauses (R149). -/
def pushMerge (c : Nat) (i : MergeItem) (s : State) : State :=
  let red := itemPort i.kind == some true
  let busy := (headItem (s.core c) red).isSome
  let t := s.updCore c fun k => { k with merges := k.merges ++ [i] }
  let u := if busy then setPhase (itemUnit c i) i.key .paused t else t
  settleMerges red 512 u

/-- A partial of a stroke at rank `r`. -/
def partialOf (kind : MergeKind) (key desc bar rank : Nat) (own : List (List Word)) : MergeItem :=
  { kind := kind, key := key, desc := desc, bar := bar, rank := rank, own := own,
    merged := if rank = 0 then some own else none }

/-! ## Recomputed probabilities (R226) -/

/-- The probabilities of a chain tile and a t-block written to the P stream: `cols` holds for each position those of the valid keys. -/
def writeProbs (f : Fire) (a : AttnDesc) (c col0 : Nat) (cols : List (List Word)) (s : State) : State :=
  let p := needStream s.mem f a.p
  let n := min 128 (validKeys a f - 128 * c)
  let byKey := (List.range n).map fun m => cols.map fun q => storeCode p.fmt (q.getD m 0)
  let byQuery := cols.map fun q => (q.take n).map (storeCode p.fmt)
  let put (m : Memory) (r : List Nat × Nat) : Memory :=
    if a.pAlongM then m.writeRow (p.row s.mem f (col0 + r.2)) p.fmt (validKeys a f) (128 * c) r.1
    else m.writeRow (p.row s.mem f (128 * c + r.2)) p.fmt a.t col0 r.1
  { s with mem := (if a.pAlongM then byQuery else byKey).zipIdx.foldl put s.mem }

/-! ## REDUCE -/

/-- Pivots sent by the core of rank 0 to the other cores of its section (R179). -/
def sendPivots (c key desc bar : Nat) (mates : List Nat) (ps : List Word) (s : State) : State :=
  (mates.filter fun k => !(k == c)).foldl (fun acc k => acc.updCore k fun x =>
    { x with merges := x.merges ++ [{ kind := .pivots, key := key, desc := desc, bar := bar, rank := 0, own := [ps],
                                      merged := none }] }) s

/-- The pivots that a REDUCE takes from the core of rank 0: `none` where it takes none (R179). -/
def pivotsDue (d : RedDesc) (f : Fire) : Bool := d.merge && !(d.pivot == 0) && !(f.rank == 0)

/-- The pivots that have come for a REDUCE. -/
def pivotsFor (k : Core) (desc bar : Nat) : Option MergeItem :=
  k.merges.find? fun i => i.kind == .pivots && i.desc == desc && i.bar == bar

/-- A REDUCE that has its rows forms its statistics (R175 to R184): it sends its pivots on at rank 0, then merges, or finalises and writes
them. `given` are the pivots of rank 0. -/
def runReduce (c key desc bar : Nat) (f : Fire) (d : RedDesc) (rows : List TapRow) (given : Option MergeItem) (s : State) : State :=
  let stage (k : Nat) : Grid := rows.map fun r => r.stages.getD k []
  let grid := stage d.tap
  let width := (rows.head?.map (·.width)).getD 0
  let val (i j : Nat) : Word := tapValue width (Grid.at grid i j)
  let mask (i j : Nat) : Bool := !(Grid.at (stage d.mstage) i j == 0)
  let cols := (grid.headD []).length
  let kept := keptOf d grid.length cols
  let supplied (i : Nat) : Word := (needStream s.mem f d.pivotDesc).word 0 s.mem f 0 i
  let ps := match given with
    | some g => g.own.headD []
    | none => kept.zipIdx.map fun k => pivotOf d val supplied k.2 k.1
  let own := kept.zipIdx.map fun k => keptStats s.tables d cols val mask (ps.getD k.2 0) k.1
  let s1 := s.updCore c fun x => { x with merges := (match given with | some g => x.merges.erase g | none => x.merges) }
  let s2 := if d.merge && !(d.pivot == 0) && f.rank == 0 then sendPivots c key desc bar (sectionMates s f.score c) ps s1 else s1
  if d.merge then pushMerge c (partialOf (if d.smax then .smax else .stats) key desc bar f.rank own) s2
  else
    let fins := own.map (finalStats s.tables d)
    let fin := partialOf .statsDone key desc bar f.rank []
    let s3 := writeStats s f d (fins.map (·.1)) (countFinal c d ((fins.filter (·.2)).length) s2)
    closeWritten fin c (s3.updCore c fun x => { x with merges := x.merges ++ [fin] })

/-! ## MERGE_PARTIAL_RX -/

/-- The partial merged up to the next lower rank arrives at a port of a core and is combined with the core's own; none where
no partial is due. -/
def mergeNext (c : Nat) (red : Bool) (s : State) : Option State :=
  match headItem (s.core c) red with
  | none => none
  | some i =>
    let prev := ((mergeCores s c i)[i.rank - 1]?).getD c
    match headItem (s.core prev) red with
    | none => none
    | some j =>
      if i.merged.isNone && decide (0 < i.rank) && sameMerge i j then
        j.merged.map fun m =>
          let x := combineItem s.tables i.kind m i.own
          settleMerges red 512 (s.updCore c fun k =>
            { k with merges := k.merges.map fun y => if sameMerge i y && y.key == i.key then { y with merged := some x } else y })
      else none

/-- MERGE_PARTIAL_RX (R149, R179, R217): at the drain stick's port if a partial is due there, else at the reduction unit's. -/
def execMergePartialRx (c : Fin 256) (s : State) : Host.Outcome State Fault Refusal :=
  .next (match mergeNext c.val false s with
    | some t => t
    | none => (mergeNext c.val true s).getD s)

end Sys2Proof.Machine
end

