-- ==== Sys2Proof/Machine/Streams.lean ====
section
/-! DEFINITION. The streams between the units of a core, and the strokes on them (R23, R76, R77, R104, R107, R113 to R115, R119 to R122,
R134, R141, R150, R155, R174, R537): the broadcast, window and tap FIFOs with their credits, and the two accumulator sets of a Mallet unit
or of an array of it. Every stroke in flight goes on as far as operands and credits allow; one that runs out of credit pauses until
STROKE_RESUME. -/
namespace Sys2Proof.Machine

/-! ## Firing (R76, R537) -/

/-- The sets in use of a unit's array. -/
def setsInUse (k : Core) (mu array : Nat) : Nat := (k.accs.filter fun a => a.mu == mu && a.array == array).length

/-- A stroke on the broadcast has a credit of its FIFO. -/
def feedCredit (c : Nat) (_ : BeatCtx) (s : State) : Bool := decide (0 < (s.core c).feedCredits)

/-- A FEED_WIN has a credit of the window FIFO. -/
def winCredit (c : Nat) (_ : BeatCtx) (s : State) : Bool := decide (0 < (s.core c).winCredits)

/-- MM and ATTN have one of the unit's two accumulator sets free. -/
def setCredit (c mu : Nat) (_ : BeatCtx) (s : State) : Bool := decide (setsInUse (s.core c) mu 0 < 2)

/-- GANG has a set free in every array that its problems use. -/
def gangCredit (c mu : Nat) (b : BeatCtx) (s : State) : Bool :=
  (List.range (b.word.imm % 16)).all fun p =>
    let d := matAt s.mem b.fire (b.word.desc + p)
    (List.range (gangTiles s.mem b.fire d).length).all fun x => decide (setsInUse (s.core c) mu (gangArray d x) < 2)

/-- A chain that a REDUCE taps has a credit of the tap FIFO. -/
def tapCredit (c : Nat) (b : BeatCtx) (s : State) : Bool :=
  !tapped s.mem b.fire b.bar b.word.desc || decide (0 < (s.core c).tapCredits)

/-- DRAIN_MM of combination 7 has credit for the tiles that it sends; every other drain writes scratch, and no stream. -/
def drainCredit (b : BeatCtx) (s : State) : Bool :=
  let d := matAt s.mem b.fire b.word.desc
  !(d.combo == 7) || peerCredit (SendDesc.ofDesc (descOf s.mem b.fire (epiAt s.mem b.fire d).send)) s

/-! ## Strokes at work -/

/-- The oldest stroke of a unit that is not done and meets a condition. -/
def strokeAt (s : State) (u : UnitId) (p : Inflight → Bool) : Option Inflight :=
  (s.unit u).inflight.find? fun i => !(i.phase == .done) && p i

/-- A stroke pauses for want of credit (R77). -/
def pause (u : UnitId) (i : Inflight) (s : State) : State := setPhase u i.key .paused s

/-- A stroke counts one more entry or block handed over; with the last of `total` it is done. -/
def giveOne (u : UnitId) (i : Inflight) (total : Nat) (s : State) : State :=
  updFlight u i.key (fun x => { x with given := i.given + 1, phase := if i.given + 1 = total then .done else x.phase }) s

/-- The operation that a stroke belongs to: bar, loop counters, descriptor. -/
def sameOperation (a b : Inflight) : Bool := a.bar == b.bar && a.loops == b.loops && a.desc == b.desc

/-- The stroke of opcode `op` on Mallet unit `mu` in the operation of another unit's stroke. -/
def muStroke (s : State) (c mu : Nat) (op : BitVec 8) (i : Inflight) : Option Inflight :=
  strokeAt s (muUnit c mu) fun x => x.op == op && sameOperation x i

/-! ## The feed stick (R113, R114, R122, R134, R158, R208) -/

/-- Entries that a feed stroke puts on its stream. -/
def feedTotal (m : Memory) (f : Fire) (i : Inflight) : Nat :=
  if i.op = 0x10 then
    let d := matAt m f i.desc
    if d.combo = 11 then chainEntries d.k (groupsPerEntry d.wFmt d.xFmt) (epiAt m f d).m d.t else rowEntries d
  else if i.op = 0x11 then ((List.range (i.imm.toNat % 16)).map fun p => gangEntries m f (matAt m f (i.desc + p))).sum
  else if i.op = 0x12 then (match winStream m f i.bar with | some _ => winCount (WinDesc.ofDesc (descOf m f i.desc)) | none => 0)
  else
    let a := attnAt m f i.desc
    chainEntries a.d (attnGroups m f a) (validKeys a f) a.t

/-- The place of the entry that a feed stroke sends next. -/
def feedPlace (m : Memory) (f : Fire) (i : Inflight) : EntryPlace :=
  if i.op = 0x10 then
    let d := matAt m f i.desc
    if d.combo = 11 then chainPlace d.k (groupsPerEntry d.wFmt d.xFmt) (epiAt m f d).m i.given else rowPlace d i.given
  else if i.op = 0x11 then gangPlace m f i.desc (i.imm.toNat % 16) 0 i.given
  else
    let a := attnAt m f i.desc
    chainPlace a.d (attnGroups m f a) (validKeys a f) i.given

/-- The units that accept an entry: those with a band in the round, MU0 and MU1 in a chained product and an attention, the units that gang
on the descriptors (R114, R122, R155, R213). -/
def feedTakers (m : Memory) (f : Fire) (i : Inflight) (p : EntryPlace) : List Nat :=
  if i.op = 0x10 then
    let d := matAt m f i.desc
    if d.combo = 11 then [0, 1] else roundUnits d p.round
  else if i.op = 0x11 then musHolding m f.score i.bar 0x11 i.desc
  else [0, 1]

/-- What an entry carries. -/
def feedCarried (m : Memory) (f : Fire) (i : Inflight) (p : EntryPlace) : Carried :=
  let t := 32 * p.block + p.col
  if i.op = 0x10 then
    let d := matAt m f i.desc
    .column ((rangeFrom p.group (min (groupsPerEntry d.wFmt d.xFmt) (ceilDiv d.k 32 - p.group))).map fun g => xGroup m f d 0 t g)
  else if i.op = 0x11 then
    let d := matAt m f (i.desc + p.problem)
    gangCarried m f d ((gangTiles m f d).getD p.block { part := 0, row0 := 0, col0 := 0, rows := 0, cols := 0 }) p.group
  else
    let a := attnAt m f i.desc
    .column ((rangeFrom p.group (min (attnGroups m f a) (ceilDiv a.d 32 - p.group))).map fun g => queryGroup m f a t g)

/-- A feed stroke goes past the entry it is at. -/
def feedOn (c : Nat) (i : Inflight) (s : State) : State := updFlight (feedUnit c) i.key (fun x => { x with given := i.given + 1 }) s

/-- A feed stroke puts an entry on the broadcast, for a credit; without one it pauses. -/
def pushEntry (c : Nat) (i : Inflight) (e : FeedEntry) (s : State) : State :=
  if (s.core c).feedCredits = 0 then pause (feedUnit c) i s
  else feedOn c i (s.updCore c fun k => { k with feeds := k.feeds ++ [e], feedCredits := k.feedCredits - 1 })

/-- A feed stroke puts the next window vector on its FIFO, for a credit. -/
def pushWindow (c : Nat) (i : Inflight) (v : WinVector) (s : State) : State :=
  if (s.core c).winCredits = 0 then pause (feedUnit c) i s
  else feedOn c i (s.updCore c fun k =>
    { k with wins := k.wins ++ [{ key := i.key, bar := i.bar, vector := v }], winCredits := k.winCredits - 1 })

/-- The step of a row-mode feed stroke at a place: under Damper the block is decided at the core of rank 0 before its first entry, another
core waits for the bit, and a reused block is passed over (R248, R249). -/
def feedAt (c : Nat) (f : Fire) (i : Inflight) (p : EntryPlace) (s : State) : Option State :=
  let takers := feedTakers s.mem f i p
  let e : FeedEntry := { key := i.key, op := i.op, desc := i.desc + p.problem, bar := i.bar, loops := i.loops, place := p,
                         carried := feedCarried s.mem f i p, units := takers }
  let send : State := if takers.isEmpty then feedOn c i s else pushEntry c i e s
  if i.op = 0x10 then
    let d := matAt s.mem f i.desc
    match blockVerdict (s.core c) s.mem f d i.desc i.bar p.block with
    | some true => some (feedOn c i s)
    | some false => some send
    | none => if f.rank = 0 then (damperActive s.mem f d i.desc).map fun x => decideBlock c f d i.desc i.bar p.block x s else none
  else some send

/-- The feed stick's next step: the oldest of its strokes that still has entries to send. -/
def feedStep (c : Nat) (s : State) : Option State :=
  let u := feedUnit c
  match strokeAt s u fun i => decide (i.given < feedTotal s.mem (fireOf s u i) i) with
  | none => none
  | some i =>
    let f := fireOf s u i
    if i.phase == .paused then none
    else if i.op = 0x12 then
      (winStream s.mem f i.bar).map fun x => pushWindow c i (winAtIndex s.mem f x (WinDesc.ofDesc (descOf s.mem f i.desc)) i.given) s
    else feedAt c f i (feedPlace s.mem f i) s

/-- A feed stroke whose last entry has retired is done (R115, R136, R227). -/
def feedClose (c : Nat) (s : State) : Option State :=
  let u := feedUnit c
  (strokeAt s u fun i => decide (feedTotal s.mem (fireOf s u i) i ≤ i.given) &&
      !(s.core c).feeds.any (fun e => e.key == i.key) && !(s.core c).wins.any (fun e => e.key == i.key)).map fun i =>
    doneStroke u i.key (s.updCore c fun k => if i.op = 0x10 then closeBits i.desc i.bar i.loops k else k)

/-! ## The Mallet units (R104 to R107, R119 to R121, R124) -/

/-- A unit has accepted an entry; with its last unit it retires, and its credit returns (R23, R114). -/
def acceptEntry (mu : Nat) (e : FeedEntry) (k : Core) : Core :=
  let left := (k.feeds.map fun x => if x = e then { x with units := e.units.filter fun u => !(u == mu) } else x).filter fun x => !x.units.isEmpty
  { k with feeds := left, feedCredits := k.feedCredits + (k.feeds.length - left.length) }

/-- The blank set that an entry's block fills in a unit. -/
def blankSet (m : Memory) (f : Fire) (i : Inflight) (mu : Nat) (e : FeedEntry) : AccSet :=
  let p := e.place
  let set (array row0 col0 tile : Nat) (rows : List (List Word)) : AccSet :=
    { key := i.key, op := i.op, desc := e.desc, bar := i.bar, mu := mu, array := array, row0 := row0, col0 := col0, tile := tile,
      rows := rows, full := false }
  if i.op = 0x11 then
    let d := matAt m f e.desc
    let x := (gangTiles m f d).getD p.block { part := 0, row0 := 0, col0 := 0, rows := 0, cols := 0 }
    set (gangArray d p.block) x.row0 x.col0 0 (zeroRows x.rows x.cols)
  else
    let row0 := if i.op = 0x10 && !((matAt m f i.desc).combo == 11) then 64 * ((bandOf (matAt m f i.desc) mu p.round).getD 0) else 64 * mu
    set 0 row0 (32 * p.block) p.tile (zeroRows 64 32)

/-- The last entry of its block. -/
def lastEntry (m : Memory) (f : Fire) (i : Inflight) (e : FeedEntry) : Bool :=
  let p := e.place
  if i.op = 0x11 then p.group + 1 == ceilDiv (matAt m f e.desc).k 32
  else if i.op = 0x10 then
    let d := matAt m f i.desc
    p.col == 31 && decide (ceilDiv d.k 32 ≤ p.group + groupsPerEntry d.wFmt d.xFmt)
  else
    let a := attnAt m f i.desc
    p.col == 31 && decide (ceilDiv a.d 32 ≤ p.group + attnGroups m f a)

/-- The weights of a band for the groups of an entry, through the unit's weight buffer (R109 to R112). -/
def bandWeights (m : Memory) (f : Fire) (d : MatDesc) (key band : Nat) (p : EntryPlace) (n : Nat) (held : List HeldTile) :
    List (List (List Val)) × List HeldTile :=
  (rangeFrom p.group n).foldl
    (fun acc g =>
      let (h, held') := fetchTile m f d key band p.round p.block g acc.2
      (acc.1 ++ [tileGroup d g h], held')) ([], held)

/-- The rows of a set with an entry added, and the tiles that the unit then holds. -/
def addEntry (m : Memory) (f : Fire) (i : Inflight) (mu : Nat) (e : FeedEntry) (rows : List (List Word)) (held : List HeldTile) :
    List (List Word) × List HeldTile :=
  let p := e.place
  match e.carried with
  | .cells ws xs => (addCells (matAt m f e.desc).ints ws xs rows, held)
  | .column xs =>
    let gs := rangeFrom p.group xs.length
    if i.op = 0x10 then
      let d := matAt m f i.desc
      if d.combo = 11 then
        let (h, held') := fetchChainTile m f d (epiAt m f d) mu p.block p.tile held
        (addColumn d.ints p.col (gs.map fun g => laneGroup d.k g h) xs rows, held')
      else
        let (ws, held') := bandWeights m f d i.key ((bandOf d mu p.round).getD 0) p xs.length held
        (addColumn d.ints p.col ws xs rows, held')
    else
      let a := attnAt m f i.desc
      let (h, held') := fetchAttnTile m f a i.key mu p.block p.tile held
      (addColumn false p.col (gs.map fun g => laneGroup a.d g h) xs rows, held')

/-- A unit takes an entry into a set: its lanes or cells add it, the set is full with the last entry of its block, and the entry is
accepted. -/
def takeEntry (c mu : Nat) (f : Fire) (i : Inflight) (e : FeedEntry) (set : AccSet) (others : List AccSet) (s : State) : State :=
  let r := addEntry s.mem f i mu e set.rows ((s.core c).tiles.getD mu [])
  let new := { set with rows := r.1, full := lastEntry s.mem f i e }
  let t := s.updCore c fun k => acceptEntry mu e { k with accs := others ++ [new], tiles := updAt k.tiles mu fun _ => r.2 }
  if new.full then updFlight (muUnit c mu) i.key (fun x => { x with taken := x.taken + 1 }) t else t

/-- The stroke of a Mallet unit that an entry is for. -/
def takerOf (s : State) (c mu : Nat) (e : FeedEntry) : Option Inflight :=
  strokeAt s (muUnit c mu) fun i =>
    i.op == (if e.op = 0x13 then 0x12 else e.op) && i.bar == e.bar && i.loops == e.loops && i.desc + e.place.problem == e.desc

/-- A Mallet unit's next step: its stroke takes the oldest entry that the unit has yet to accept. It first changes the mode, once nothing
older is in flight (R124); it pauses when both sets of the array are in use (R107). -/
def muStep (c mu : Nat) (s : State) : Option State :=
  match (s.core c).feeds.find? fun e => e.units.contains mu with
  | none => none
  | some e =>
    match takerOf s c mu e with
    | none => none
    | some i =>
      let u := muUnit c mu
      let gang := i.op == 0x11
      if i.phase == .paused then none
      else if !((s.core c).gangMode.getD mu false == gang) then
        if ((s.unit u).inflight.head?.map (·.key)) == some i.key then some (enterMode c mu gang s) else none
      else
        let f := fireOf s u i
        let b := blankSet s.mem f i mu e
        let fills (a : AccSet) : Bool :=
          a.key == b.key && a.array == b.array && a.row0 == b.row0 && a.col0 == b.col0 && a.tile == b.tile && !a.full
        match (s.core c).accs.find? fills with
        | some a => some (takeEntry c mu f i e a ((s.core c).accs.filter fun x => !fills x) s)
        | none =>
          if 2 ≤ setsInUse (s.core c) mu b.array then some (pause u i s) else some (takeEntry c mu f i e b (s.core c).accs s)

/-! ## The second stage of a chained product (R155, R156, R213) -/

/-- The weight tile that a stroke of MU2 or MU3 holds for chain tile `c` of block `b`, and the tiles that the unit then holds (R110, R112). -/
def stageTile (m : Memory) (f : Fire) (i : Inflight) (mu b c : Nat) (held : List HeldTile) : HeldTile × List HeldTile :=
  if i.op = 0x10 then fetchChainTile m f (matAt m f i.desc) (epiAt m f (matAt m f i.desc)) mu b c held
  else fetchAttnTile m f (attnAt m f i.desc) i.key mu b c held

/-- What a stroke of MU2 or MU3 works with in a chain tile, its weight tile given. -/
def chainInOf (m : Memory) (f : Fire) (i : Inflight) (mu : Nat) (h : HeldTile) : ChainIn :=
  if i.op = 0x10 then chainStage m f (matAt m f i.desc) (epiAt m f (matAt m f i.desc)) mu h else attnStage f (attnAt m f i.desc) h

/-- The rows that a stroke of MU2 or MU3 accumulates. -/
def stageRows (m : Memory) (f : Fire) (i : Inflight) (mu : Nat) : Nat :=
  (w2Rows (if i.op = 0x10 then (matAt m f i.desc).n else (attnAt m f i.desc).d) mu).length

/-- The length of m and of T of a chained product or an attention. -/
def chainLengths (m : Memory) (f : Fire) (i : Inflight) : Nat × Nat :=
  if i.op = 0x10 then ((epiAt m f (matAt m f i.desc)).m, (matAt m f i.desc).t)
  else (validKeys (attnAt m f i.desc) f, (attnAt m f i.desc).t)

/-- The set that MU2 or MU3 works on in block `b`: the one in use, or a blank one where one of its two is free. -/
def stageSet (s : State) (c mu : Nat) (i : Inflight) (f : Fire) (b : Nat) : Option AccSet :=
  match (s.core c).accs.find? fun a => a.key == i.key && a.mu == mu && a.col0 == 32 * b with
  | some a => some a
  | none =>
    if 2 ≤ setsInUse (s.core c) mu 0 then none
    else some { key := i.key, op := i.op, desc := i.desc, bar := i.bar, mu := mu, array := 0, row0 := 64 * (mu - 2), col0 := 32 * b, tile := 0,
                rows := List.replicate 32 (ChainRun.start (stageRows s.mem f i mu)).row, full := false }

/-- The full set of a stroke at a block and a chain tile. -/
def fullSet (k : Core) (key row0 col0 tile : Nat) : Option AccSet :=
  k.accs.find? fun a => a.key == key && a.full && a.row0 == row0 && a.col0 == col0 && a.tile == tile

/-- Sets leave the accumulators. -/
def dropSets (c : Nat) (as : List AccSet) (s : State) : State := s.updCore c fun k => { k with accs := k.accs.filter fun a => !(as.contains a) }

/-- A set takes the place of what a unit has for its block. -/
def putSet (c : Nat) (a : AccSet) (s : State) : State :=
  s.updCore c fun k => { k with accs := (k.accs.filter fun x => !(x.key == a.key && x.mu == a.mu && x.col0 == a.col0)) ++ [a] }

/-- The next step of the second stage: the strokes of MU2 and MU3 take the sets of MU0 and MU1 for one chain tile, or their sets are full
after the last tile of the block. A stroke without a free set pauses. -/
def stageStep (c : Nat) (s : State) : Option State :=
  let u2 := muUnit c 2
  match strokeAt s u2 fun i => (i.op == 0x12 || (i.op == 0x10 && (matAt s.mem (fireOf s u2 i) i.desc).combo == 11)) &&
      decide (i.taken < blockCount (chainLengths s.mem (fireOf s u2 i) i).2) with
  | none => none
  | some i =>
    match muStroke s c 3 i.op i with
    | none => none
    | some j =>
      if i.phase == .paused || j.phase == .paused then none
      else
        let f := fireOf s u2 i
        let len := (chainLengths s.mem f i).1
        match stageSet s c 2 i f i.taken, stageSet s c 3 j f i.taken with
        | none, _ => some (pause u2 i s)
        | _, none => some (pause (muUnit c 3) j s)
        | some a, some b =>
          if a.tile = ceilDiv len 128 then
            let bump (mu : Nat) (x : Inflight) (t : State) : State := updFlight (muUnit c mu) x.key (fun y => { y with taken := x.taken + 1 }) t
            some (bump 2 i (bump 3 j (putSet c { a with full := true } (putSet c { b with full := true } s))))
          else
            match muStroke s c 0 i.op i, muStroke s c 1 i.op i with
            | some x, some y =>
              match fullSet (s.core c) x.key 0 a.col0 a.tile, fullSet (s.core c) y.key 64 a.col0 a.tile with
              | some lo, some hi =>
                let ok (t k : Nat) : Bool := if i.op = 0x12 then allowedKey s.mem f (attnAt s.mem f i.desc) t k else true
                let held (mu : Nat) (r : Inflight) : HeldTile × List HeldTile :=
                  stageTile s.mem f r mu i.taken a.tile ((s.core c).tiles.getD mu [])
                let next (z : AccSet) (mu : Nat) (r : Inflight) : AccSet :=
                  { z with tile := z.tile + 1,
                           rows := chainBlock s.tables (chainInOf s.mem f i mu (held mu r).1) ok z.col0 z.tile lo.rows hi.rows z.rows }
                let total := blockCount (chainLengths s.mem f i).2 * ceilDiv len 128
                some (giveOne (muUnit c 0) x total (giveOne (muUnit c 1) y total
                  (setTiles c 2 (held 2 i).2 (setTiles c 3 (held 3 j).2
                    (putSet c (next a 2 i) (putSet c (next b 3 j) (dropSets c [lo, hi] s)))))))
              | _, _ => none
            | _, _ => none

/-! ## The drain stick (R107, R115, R136, R141, R227) -/

/-- The place of the `n`-th set of a row-mode operation: its round, its t-block, its unit and its band; rounds, then t-blocks, then units. -/
def drainPlace (d : MatDesc) (n : Nat) : Nat × Nat × Nat × Nat :=
  let r := n / (blockCount d.t * (namedUnits d).length)
  let us := roundUnits d r
  let k := n - r * (blockCount d.t * (namedUnits d).length)
  let mu := us.getD (k % us.length) 0
  (r, k / us.length, mu, (bandOf d mu r).getD 0)

/-- The steps of a drain stroke: a set each, or a t-block of a chained product. Where several units hold `GANG` on its descriptors in its
bar, every one of them computes every problem, and each of their tiles is drained: the spec does not say how they share the problems
(DESIGN CHOICE, log 106). -/
def drainTotal (m : Memory) (f : Fire) (i : Inflight) : Nat :=
  if i.op = 0x10 then
    let d := matAt m f i.desc
    if d.combo = 11 then blockCount d.t else bandCount d * blockCount d.t
  else if i.op = 0x11 then
    (musHolding m f.score i.bar 0x11 i.desc).length *
      ((List.range (i.imm.toNat % 16)).map fun p => (gangTiles m f (matAt m f (i.desc + p))).length).sum
  else
    let a := attnAt m f i.desc
    blockCount a.t * (if a.pass1 then ceilDiv (validKeys a f) 128 else 1)

def drainOn (c : Nat) (i : Inflight) (s : State) : State := updFlight (drainUnit c) i.key (fun x => { x with given := i.given + 1 }) s

/-- What a drain stroke holds back. -/
def heldRows (k : Core) (key : Nat) : List (List Word) := ((k.partials.find? fun x => x.key == key).map (·.rows)).getD []

def holdRows (c key : Nat) (rows : List (List Word)) (s : State) : State :=
  s.updCore c fun k => { k with partials := (k.partials.filter fun x => !(x.key == key)) ++ [{ key := key, place := [], rows := rows }] }

/-- A set through the epilogue and the output stage of a row-mode operation, combinations 0 to 10; none while a combination 7 waits for a
transfer tag. -/
def drainTile (c : Nat) (f : Fire) (i : Inflight) (d : MatDesc) (row0 col0 : Nat) (set : List (List Word)) (s : State) : Option State :=
  let accs := setRows d.n d.t row0 col0 set
  if d.combo = 0 then some (writeY f d row0 col0 (rawRows d accs) s)
  else
    let e := epiAt s.mem f d
    let v := epiRows s.mem s.tables f d e row0 col0 accs
    match d.combo with
    | 4 | 5 => some (blockQuantise f d e row0 col0 v s)
    | 6 => some (holdRows c i.key [amaxTile col0 v ((heldRows (s.core c) i.key).headD [])] (holdTile f e row0 col0 v s))
    | 7 => sendTile c i.key i.bar i.desc f d e row0 col0 (storeRows d v) s
    | 8 => some (holdRows c i.key (argmaxTile d row0 col0 v (heldRows (s.core c) i.key)) s)
    | _ => some (writeY f d row0 col0 (storeRows d v) s)

/-- The drain stick takes the next set of a row-mode operation from its unit: of a reused block the cached set, for which the unit's stroke
has nothing to give but its turn (R249); of another the full set, stored first where Damper asks for it. -/
def drainRow (c : Nat) (f : Fire) (i : Inflight) (s : State) : Option State :=
  let d := matAt s.mem f i.desc
  let (_, b, mu, band) := drainPlace d i.given
  match muStroke s c mu 0x10 i with
  | none => none
  | some x =>
    let total := (bandsOf d mu).length * blockCount d.t
    let finish (t : Option State) : Option State :=
      match t with
      | some r => some (giveOne (muUnit c mu) x total (drainOn c i r))
      | none => some (pause (drainUnit c) i s)
    match blockVerdict (s.core c) s.mem f d i.desc i.bar b with
    | none => none
    | some true => (damperActive s.mem f d i.desc).bind fun y =>
        finish (drainTile c f i d (64 * band) (32 * b) (cachedSet s.mem f d y b band) s)
    | some false =>
      match fullSet (s.core c) x.key (64 * band) (32 * b) 0 with
      | none => none
      | some a => finish (drainTile c f i d (64 * band) (32 * b) a.rows (storeSet f d i.desc b band a.rows (dropSets c [a] s)))

/-- The drain stick takes a t-block of a chained product or an attention from MU2 and MU3. -/
def drainBlock (c : Nat) (f : Fire) (i : Inflight) (s : State) : Option State :=
  match muStroke s c 2 i.op i, muStroke s c 3 i.op i with
  | some x, some y =>
    let tiles := ceilDiv (chainLengths s.mem f i).1 128
    match fullSet (s.core c) x.key 0 (32 * i.given) tiles, fullSet (s.core c) y.key 64 (32 * i.given) tiles with
    | some lo, some hi =>
      let total := blockCount (chainLengths s.mem f i).2
      let t := giveOne (muUnit c 2) x total (giveOne (muUnit c 3) y total (drainOn c i (dropSets c [lo, hi] s)))
      if i.op = 0x10 then
        let d := matAt s.mem f i.desc
        some (drainChain f d (epiAt s.mem f d) (32 * i.given) lo.rows hi.rows t)
      else
        let a := attnAt s.mem f i.desc
        let cols := ((lo.rows.zip hi.rows).take (a.t - 32 * i.given)).map fun q => q.1 ++ q.2.drop 2
        some (holdRows c i.key (heldRows (s.core c) i.key ++ cols) t)
    | _, _ => none
  | _, _ => none

/-- The drain stick takes the scores of a chain tile from MU0 and MU1, and writes the recomputed probabilities (R226). -/
def drainScores (c : Nat) (f : Fire) (i : Inflight) (s : State) : Option State :=
  let a := attnAt s.mem f i.desc
  let tiles := ceilDiv (validKeys a f) 128
  let b := i.given / tiles
  let k := i.given % tiles
  match muStroke s c 0 0x12 i, muStroke s c 1 0x12 i with
  | some x, some y =>
    match fullSet (s.core c) x.key 0 (32 * b) k, fullSet (s.core c) y.key 64 (32 * b) k with
    | some lo, some hi =>
      let cols := (List.range (min 32 (a.t - 32 * b))).map fun n =>
        attnProbs s.tables s.mem f a (32 * b + n) k (((lo.rows ++ hi.rows).map fun r => r.getD n 0).take (validKeys a f - 128 * k))
      let total := blockCount a.t * tiles
      some (writeProbs f a k (32 * b) cols
        (giveOne (muUnit c 0) x total (giveOne (muUnit c 1) y total (drainOn c i (dropSets c [lo, hi] s)))))
    | _, _ => none
  | _, _ => none

/-- The problem and the tile of the `n`-th tile of a gang stroke. -/
def gangTileAt (m : Memory) (f : Fire) (desc : Nat) : Nat → Nat → Nat → Nat × Nat
  | 0, p, n => (p, n)
  | more + 1, p, n =>
    let len := (gangTiles m f (matAt m f (desc + p))).length
    if n < len then (p, n) else gangTileAt m f desc more (p + 1) (n - len)

/-- The drain stick takes the next tile of a gang stroke from a unit; the tiles of a stopped partition are not written (R121, R123). -/
def drainGang (c : Nat) (f : Fire) (i : Inflight) (s : State) : Option State :=
  let mus := musHolding s.mem f.score i.bar 0x11 i.desc
  let mu := mus.getD (i.given % mus.length) 0
  let (p, n) := gangTileAt s.mem f i.desc (i.imm.toNat % 16) 0 (i.given / mus.length)
  let d := matAt s.mem f (i.desc + p)
  match muStroke s c mu 0x11 i with
  | none => none
  | some x =>
    match (s.core c).accs.find? fun a => a.key == x.key && a.full && a.desc == i.desc + p && a.array == gangArray d n with
    | none => none
    | some a =>
      let total := drainTotal s.mem f i / mus.length
      let t := giveOne (muUnit c mu) x total (drainOn c i (dropSets c [a] s))
      some (if partitionStopped (s.core c) mu x.key d then t else drainCells f d i.key mu p a.row0 a.col0 a.rows t)

/-- The drain stick's next step: the oldest of its strokes that has yet to take a set. -/
def drainStep (c : Nat) (s : State) : Option State :=
  let u := drainUnit c
  match strokeAt s u fun i => decide (i.given < drainTotal s.mem (fireOf s u i) i) with
  | none => none
  | some i =>
    let f := fireOf s u i
    if i.phase == .paused then none
    else if i.op = 0x11 then drainGang c f i s
    else if i.op = 0x12 then (if (attnAt s.mem f i.desc).pass1 then drainScores c f i s else drainBlock c f i s)
    else if (matAt s.mem f i.desc).combo = 11 then drainBlock c f i s
    else drainRow c f i s

/-- After its last set a drain stroke merges (combinations 6 and 8, attention), waits for the peer (combination 7), or is done. -/
def drainClose (c : Nat) (s : State) : Option State :=
  let u := drainUnit c
  (strokeAt s u fun i => i.taken == 0 && decide (drainTotal s.mem (fireOf s u i) i ≤ i.given)).map fun i =>
    let f := fireOf s u i
    let held := heldRows (s.core c) i.key
    let t := (updFlight u i.key (fun x => { x with taken := 1 }) s).updCore c fun k =>
      { (if i.op = 0x10 then closeBits i.desc i.bar i.loops k else k) with partials := k.partials.filter fun x => !(x.key == i.key) }
    let merge (kind : MergeKind) (rank : Nat) : State := pushMerge c (partialOf kind i.key i.desc i.bar rank held) t
    let combo := (matAt s.mem f i.desc).combo
    if i.op = 0x12 && !(attnAt s.mem f i.desc).pass1 then merge .attn (groupRank (attnAt s.mem f i.desc) f)
    else if i.op = 0x10 && combo = 6 then merge .rowAmax f.rank
    else if i.op = 0x10 && combo = 8 then merge .argmax f.rank
    else if i.op = 0x10 && combo = 7 then t
    else doneStroke u i.key t

/-! ## The roll engine and the reduction unit (R134, R174, R180, R537) -/

/-- A chain's next step: it takes the window vectors it needs, computes, and sends the tapped rows for credits. -/
def chainStep (c : Nat) (s : State) : Option State :=
  let u := rollUnit c
  match strokeAt s u fun i => i.op == 0x10 with
  | none => none
  | some i =>
    let f := fireOf s u i
    let d := chainAt s.mem f i.desc
    let k := s.core c
    if i.phase == .paused then none
    else if i.given = 0 then
      if windowed s.mem f d && decide (i.taken < d.rows) then
        (k.wins.find? fun w => w.bar == i.bar).map fun w =>
          updFlight u i.key (fun x => { x with taken := i.taken + 1 })
            (s.updCore c fun y => { y with wins := y.wins.erase w, winCredits := y.winCredits + 1, winHeld := y.winHeld ++ [w.vector] })
      else
        let r := runChain c i.rattle f d (if windowed s.mem f d then some k.winHeld else none) s
        some (updFlight u i.key (fun x => { x with given := 1 })
          (r.1.updCore c fun y =>
            { y with winHeld := [], tapRows := if tapped s.mem f i.bar i.desc then tapRowsOf d i.desc i.bar r.2 else [] }))
    else
      match k.tapRows with
      | [] => some (doneStroke u i.key s)
      | r :: rest =>
        if k.tapCredits = 0 then some (pause u i s)
        else some (s.updCore c fun y => { y with taps := y.taps ++ [r], tapCredits := y.tapCredits - 1, tapRows := rest })

/-- A reduction's next step: it takes the rows of its tap, then forms its statistics; in a merge with pivots it waits for those of
rank 0. -/
def reduceStep (c : Nat) (s : State) : Option State :=
  let u := reduceUnit c
  match strokeAt s u fun i => i.given == 0 with
  | none => none
  | some i =>
    let f := fireOf s u i
    let d := RedDesc.ofDesc (descOf s.mem f i.desc)
    let k := s.core c
    let p := pivotsFor k i.desc i.bar
    if i.phase == .paused then none
    else if i.taken < (chainAt s.mem f d.chainDesc).rows then
      (k.taps.find? fun t => t.bar == i.bar && t.chainDesc == d.chainDesc).map fun t =>
        updFlight u i.key (fun x => { x with taken := i.taken + 1 })
          (s.updCore c fun y => { y with taps := y.taps.erase t, tapCredits := y.tapCredits + 1, tapHeld := y.tapHeld ++ [t] })
    else if pivotsDue d f && p.isNone then none
    else
      some (runReduce c i.key i.desc i.bar f d k.tapHeld (if pivotsDue d f then p else none)
        (updFlight u i.key (fun x => { x with given := 1 }) (s.updCore c fun y => { y with tapHeld := [] })))

/-! ## The flow -/

/-- One step of the units of a core on their streams, those that drain a stream before those that write it. -/
def flowStep (c : Nat) (s : State) : Option State :=
  match feedClose c s, muStep c 0 s, muStep c 1 s, muStep c 2 s, muStep c 3 s, stageStep c s with
  | some t, _, _, _, _, _ => some t
  | none, some t, _, _, _, _ => some t
  | none, none, some t, _, _, _ => some t
  | none, none, none, some t, _, _ => some t
  | none, none, none, none, some t, _ => some t
  | none, none, none, none, none, some t => some t
  | none, none, none, none, none, none =>
    match drainStep c s, drainClose c s, reduceStep c s, chainStep c s with
    | some t, _, _, _ => some t
    | none, some t, _, _ => some t
    | none, none, some t, _ => some t
    | none, none, none, some t => some t
    | none, none, none, none => feedStep c s

/-- The units of the cores step until none can, or the job is struck. -/
def flow (cores : List Nat) : Nat → State → State
  | 0, s => s
  | n + 1, s =>
    if strikePending s then s
    else match cores.findSome? fun c => flowStep c s with
      | some t => flow cores n t
      | none => s

/-- More than the steps of the strokes that a section can have in flight: an operation has fewer than 2^60 entries. -/
def flowFuel : Nat := 2 ^ 80

/-- A core's strokes go on, and those of its section that wait for what it sends them. -/
def flowFrom (c : Nat) (s : State) : State := flow (c :: (sectionMates s (jobScore s) c).filter fun k => !(k == c)) flowFuel s

/-! ## The strokes -/

/-- FEED_MM (R113, R114): the columns whose gather index is out of range, and the reserved blocks, count as it fires. -/
def feedMmBody (c : Nat) (b : BeatCtx) (_ : Nat) (s : State) : State :=
  let d := matAt s.mem b.fire b.word.desc
  let oob := if d.combo = 10 && !(epiAt s.mem b.fire d).gatherW then
      gatherMisses s.mem b.fire (epiAt s.mem b.fire d) (List.range d.t) else 0
  flowFrom c (countCore c (fun k => { k with gatherOob := satAdd 32 k.gatherOob oob })
    (countReserved c (reservedColumns s.mem b.fire d [0]) s))

def execFeedMm (c : Fin 256) (s : State) : Host.Outcome State Fault Refusal :=
  .next (runStroke (feedUnit c.val) 0x10 (feedCredit c.val) (feedMmBody c.val) s)

/-- FEED_GANG (R122). -/
def feedGangBody (c : Nat) (b : BeatCtx) (_ : Nat) (s : State) : State :=
  let bad (p : Nat) : Nat :=
    let d := matAt s.mem b.fire (b.word.desc + p)
    reservedColumns s.mem b.fire d (gangGroups s.mem b.fire d)
  flowFrom c (countReserved c (((List.range (b.word.imm % 16)).map bad).sum) s)

def execFeedGang (c : Fin 256) (s : State) : Host.Outcome State Fault Refusal :=
  .next (runStroke (feedUnit c.val) 0x11 (feedCredit c.val) (feedGangBody c.val) s)

/-- FEED_WIN (R134). -/
def feedWinBody (c : Nat) (b : BeatCtx) (_ : Nat) (s : State) : State :=
  let bad := match winStream s.mem b.fire b.bar with
    | some x => winReserved s.mem b.fire x (WinDesc.ofDesc (descOf s.mem b.fire b.word.desc))
    | none => 0
  flowFrom c (countReserved c bad s)

def execFeedWin (c : Fin 256) (s : State) : Host.Outcome State Fault Refusal :=
  .next (runStroke (feedUnit c.val) 0x12 (winCredit c.val) (feedWinBody c.val) s)

/-- FEED_ATTN (R208). -/
def feedAttnBody (c : Nat) (b : BeatCtx) (_ : Nat) (s : State) : State :=
  let a := attnAt s.mem b.fire b.word.desc
  flowFrom c (countReserved c ((queryStream s.mem b.fire a).reserved s.mem b.fire a.d a.t) s)

def execFeedAttn (c : Fin 256) (s : State) : Host.Outcome State Fault Refusal :=
  .next (runStroke (feedUnit c.val) 0x13 (feedCredit c.val) (feedAttnBody c.val) s)

/-- A stroke with nothing to hand over is done at once. -/
def startMu (u : UnitId) (key total : Nat) (s : State) : State := if total = 0 then doneStroke u key s else s

/-- MM on a Mallet unit (R105, R115, R155): a unit without a band is done at once. -/
def mmBody (c mu : Nat) (b : BeatCtx) (key : Nat) (s : State) : State :=
  let d := matAt s.mem b.fire b.word.desc
  let e := epiAt s.mem b.fire d
  let u := muUnit c mu
  if d.combo = 11 then
    flowFrom c (startMu u key (if 2 ≤ mu then blockCount d.t else blockCount d.t * ceilDiv e.m 128)
      (countReserved c (chainReservedBlocks s.mem b.fire d e mu ((s.core c).tiles.getD mu [])) s))
  else
    let oob := if gathersRows s.mem b.fire d then
        gatherMisses s.mem b.fire e (((bandsOf d mu).flatMap fun x => rangeFrom (64 * x) 64).filter fun j => decide (j < d.n)) else 0
    let bad := reservedTiles s.mem b.fire d mu key ((s.core c).tiles.getD mu [])
    flowFrom c (startMu u key ((bandsOf d mu).length * blockCount d.t)
      (countCore c (fun k => { k with gatherOob := satAdd 32 k.gatherOob oob }) (countReserved c bad s)))

def execMm (c : Fin 256) (mu : Fin 4) (s : State) : Host.Outcome State Fault Refusal :=
  .next (runStroke (muUnit c.val mu.val) 0x10 (setCredit c.val mu.val) (mmBody c.val mu.val) s)

/-- GANG on a Mallet unit (R119, R120). -/
def gangBody (c mu : Nat) (b : BeatCtx) (key : Nat) (s : State) : State :=
  let at_ := (List.range (b.word.imm % 16)).map fun p => matAt s.mem b.fire (b.word.desc + p)
  flowFrom c (startMu (muUnit c mu) key ((at_.map fun d => (gangTiles s.mem b.fire d).length).sum)
    (countReserved c ((at_.map fun d => gangReserved s.mem b.fire d).sum) s))

def execGang (c : Fin 256) (mu : Fin 4) (s : State) : Host.Outcome State Fault Refusal :=
  .next (runStroke (muUnit c.val mu.val) 0x11 (gangCredit c.val mu.val) (gangBody c.val mu.val) s)

/-- ATTN on a Mallet unit (R213, R226, R227). -/
def attnBody (c mu : Nat) (b : BeatCtx) (key : Nat) (s : State) : State :=
  let a := attnAt s.mem b.fire b.word.desc
  flowFrom c (startMu (muUnit c mu) key
    (if 2 ≤ mu then blockCount a.t else blockCount a.t * ceilDiv (validKeys a b.fire) 128)
    (countReserved c (attnReserved s.mem b.fire a mu) s))

def execAttn (c : Fin 256) (mu : Fin 4) (s : State) : Host.Outcome State Fault Refusal :=
  .next (runStroke (muUnit c.val mu.val) 0x12 (setCredit c.val mu.val) (attnBody c.val mu.val) s)

/-- What a drain stroke does once it has fired. -/
def drainBody (c : Nat) (_ : BeatCtx) (_ : Nat) (s : State) : State := flowFrom c s

/-- DRAIN_MM as it fires: the peer of a combination 7 is checked first (R309). -/
def drainMmBody (c : Nat) (b : BeatCtx) (key : Nat) (s : State) : State :=
  let d := matAt s.mem b.fire b.word.desc
  let sd := SendDesc.ofDesc (descOf s.mem b.fire (epiAt s.mem b.fire d).send)
  if d.combo = 7 && (sendPeer s sd).isNone then strikePeer 8 c b.bar b.word.desc sd s else drainBody c b key s

/-- DRAIN_MM (R115, R141). -/
def execDrainMm (c : Fin 256) (s : State) : Host.Outcome State Fault Refusal :=
  .next (runStroke (drainUnit c.val) 0x10 drainCredit (drainMmBody c.val) s)

/-- DRAIN_GANG (R121, R136). -/
def execDrainGang (c : Fin 256) (s : State) : Host.Outcome State Fault Refusal :=
  .next (runStroke (drainUnit c.val) 0x11 noStream (drainBody c.val) s)

/-- DRAIN_ATTN (R217, R218, R226). -/
def execDrainAttn (c : Fin 256) (s : State) : Host.Outcome State Fault Refusal :=
  .next (runStroke (drainUnit c.val) 0x12 noStream (drainBody c.val) s)

/-- CHAIN captures the core's Rattle contexts as it fires (R172). -/
def chainBody (c : Nat) (_ : BeatCtx) (key : Nat) (s : State) : State :=
  flowFrom c (updFlight (rollUnit c) key (fun x => { x with rattle := (s.core c).rattle }) s)

/-- CHAIN (R164 to R174). -/
def execChain (c : Fin 256) (s : State) : Host.Outcome State Fault Refusal :=
  .next (runStroke (rollUnit c.val) 0x10 (tapCredit c.val) (chainBody c.val) s)

/-- REDUCE (R175 to R184). -/
def execReduce (c : Fin 256) (s : State) : Host.Outcome State Fault Refusal :=
  .next (runStroke (reduceUnit c.val) 0x10 noStream (fun _ _ => flowFrom c.val) s)

end Sys2Proof.Machine
end

