-- ==== Sys2Proof/Machine/Exercise.lean ====
section
/-! DEFINITION. The patterns of an exerciser (R288 to R290): the order in which it visits the bursts of its range, what it writes,
what it reads back, and what its result says. -/
namespace Sys2Proof.Machine

/-- Bursts of 64 bytes in the range of a run. -/
def ExerciserRun.bursts (x : ExerciserRun) : Nat := x.rangeLen / 64

/-- The bursts a stride visits from one on, up to the first that has been visited. -/
def strideFrom (n step : Nat) : Nat → Nat → List Nat → List Nat
  | 0, _, seen => seen
  | k + 1, q, seen => if seen.contains q then seen else strideFrom n step k ((q + step) % n) (seen ++ [q])

/-- Every burst, by strides, each begun at the next burst not yet visited. -/
def strideOrder (n step : Nat) : List Nat :=
  (List.range n).foldl (fun seen q => if seen.contains q then seen else strideFrom n step n q seen) []

/-- A burst put in its place among others in ascending order of a key; ties stay as they stand. -/
def insertBy (key : Nat → Nat) (q : Nat) : List Nat → List Nat
  | [] => [q]
  | y :: ys => if key q < key y then q :: y :: ys else y :: insertBy key q ys

/-- The order in which a pass visits the bursts (R289, `ADDR_PAT`). -/
def visitOrder (x : ExerciserRun) : List Nat :=
  let n := x.bursts
  let up := List.range n
  let walk := up.filter fun q => q == 0 || isPow2 q
  let key (q : Nat) : Nat := ((rattle (BitVec.ofNat 64 x.seed) 1 (BitVec.ofNat 64 q)).getD 0 0).toNat
  match x.addrPat with
  | 0 => up
  | 1 => up.reverse
  | 2 => strideOrder n (x.stride / 64 % n)
  | 3 => up.foldl (fun l q => insertBy key q l) []
  | _ => walk ++ up.filter fun q => !walk.contains q

/-- The Rattle words of a counter of data pattern 5. -/
def dataWords (x : ExerciserRun) (counter : Nat) : List Word := rattle (BitVec.ofNat 64 x.seed) 2 (BitVec.ofNat 64 counter)

/-- The device address of word `w` of a burst in a channel. -/
def burstAddr (ch : Nat) (x : ExerciserRun) (q w : Nat) : Nat := chanBase ch + x.rangeOfs + 64 * q + 4 * w

/-- 32-bit word `w` of burst `q` in a pass, counted from 0 (R289, `DATA_PAT`; DEDUCED, log 78). -/
def dataWord (ch : Nat) (x : ExerciserRun) (pass q w : Nat) : Word :=
  match x.dataPat with
  | 0 => 0
  | 1 => 0xFFFFFFFF
  | 2 => if (q + pass) % 2 = 0 then 0x55555555 else 0xAAAAAAAA
  | 3 => BitVec.ofNat 32 (2 ^ ((q + w) % 32))
  | 4 => BitVec.ofNat 32 (burstAddr ch x q (w / 2 * 2) / 2 ^ (32 * (w % 2)))
  | _ => (dataWords x (4 * q + w / 4)).getD (w % 4) 0

/-- One burst that the exerciser writes or reads. -/
structure BurstOp where
  write : Bool
  pass : Nat
  burst : Nat
  deriving DecidableEq, Repr

/-- The visits of a pass under mix 3, the burst written last in this pass in hand: how bit 31 gives a percentage is left open
(DESIGN CHOICE, log 78), and a read before any write of the pass reads nothing. -/
def mixedOps (x : ExerciserRun) (pass : Nat) : Option Nat → List Nat → List BurstOp
  | _, [] => []
  | last, q :: rest =>
    let bit := ((dataWords x (4 * q)).getD 1 0).msb
    if Config.mixWrites x.writePct bit then { write := true, pass := pass, burst := q } :: mixedOps x pass (some q) rest
    else
      (match last with | some b => [{ write := false, pass := pass, burst := b }] | none => []) ++ mixedOps x pass last rest

/-- The bursts of a pass in order (R289, `MIX`). -/
def passOps (x : ExerciserRun) (pass : Nat) : List BurstOp :=
  let order := visitOrder x
  let all (wr : Bool) : List BurstOp := order.map fun q => { write := wr, pass := pass, burst := q }
  match x.mix with
  | 0 => all true
  | 1 => all false
  | 2 => all true ++ all false
  | _ => mixedOps x pass none order

/-- Every burst of a run. -/
def runOps (x : ExerciserRun) : List BurstOp := (List.range x.passes).flatMap (passOps x)

/-- The mismatch that a report names first, where the run reads that burst. -/
def firstMismatch (x : ExerciserRun) (rep : ExerciseReport) : Option (BurstOp × Nat) :=
  rep.first.bind fun p => ((runOps x)[p.1]?).bind fun op => if op.write then none else some (op, p.2.val)

/-- Bursts made before the run ended: all, those up to a stop, or, with `STOP_ON_ERROR`, those up to its first mismatch. -/
def burstsMade (x : ExerciserRun) (rep : ExerciseReport) : Nat :=
  match x.ending, x.stopOnError, firstMismatch x rep with
  | none, true, some _ => (rep.first.map (·.1)).getD 0 + 1
  | none, _, _ => (runOps x).length
  | some _, _, _ => min rep.made (runOps x).length

/-- `OUTCOME` (R290). -/
def exerciseOutcome (x : ExerciserRun) (rep : ExerciseReport) : Nat :=
  x.ending.getD (if (firstMismatch x rep).isSome then 1 else 0)

/-- The result of a run (R290). -/
def exerciseResult (ch : Nat) (x : ExerciserRun) (rep : ExerciseReport) : Nat :=
  let ops := (runOps x).take (burstsMade x rep)
  let bytes (wr : Bool) : Nat := 64 * (ops.filter fun o => o.write == wr).length
  let bad := firstMismatch x rep
  packFields
    [(1, exerciseOutcome x rep), (3, 0), (4, if bad.isSome then max 1 (min rep.mismatches 0xFFFFFFFF) else 0), (8, bytes true),
     (8, bytes false), (8, (bad.map fun b => burstAddr ch x b.1.burst b.2).getD 0),
     (4, ((bad.map fun b => dataWord ch x b.1.pass b.1.burst b.2).getD 0).toNat),
     (4, if bad.isSome then rep.actual.toNat else 0), (4, rep.retries)]

end Sys2Proof.Machine
end

