-- ==== Sys2Proof/Machine/Codec.lean ====
section
/-! DEFINITION. The Cymbal codec (R344 to R374): sessions, the preprocessor, and the frames that its two engines serve. The
encoder model of R359 and the decoders of the three standards are `Config` functions of a session's parameters and of its
state; what the rules say of their streams, limits and concealment is written here. -/
namespace Sys2Proof.Machine

/-! ## Descriptors (R370, R371) -/

/-- An encode descriptor. -/
structure EncDesc where
  session : Nat
  rotate : Nat
  flipH : Bool
  flipV : Bool
  fmt : Fmt
  forceKey : Bool
  last : Bool
  inBuf : Nat
  inOfs : Nat
  rowStride : Nat
  planeStride : Nat
  w : Nat
  h : Nat
  outBuf : Nat
  outOfs : Nat
  outSize : Nat
  repBuf : Nat
  repOfs : Nat
  deriving DecidableEq, Repr

def EncDesc.ofDesc (d : Desc) : EncDesc :=
  { session := fld d 31 26, rotate := fld d 25 24, flipH := bitAt d 23, flipV := bitAt d 22,
    fmt := if bitAt d 21 then .bf16 else .fp16, forceKey := bitAt d 20, last := bitAt d 19, inBuf := fld d 511 500,
    inOfs := fld d 499 460, rowStride := fld d 459 436, planeStride := fld d 435 396, w := fld d 395 380,
    h := fld d 379 364, outBuf := fld d 363 352, outOfs := fld d 351 312, outSize := fld d 311 272,
    repBuf := fld d 271 260, repOfs := fld d 259 220 }

/-- A decode descriptor. -/
structure DecDesc where
  session : Nat
  strict : Bool
  inBuf : Nat
  inOfs : Nat
  inBytes : Nat
  outBuf : Nat
  outOfs : Nat
  stride : Nat
  cOfs : Nat
  cStride : Nat
  outSize : Nat
  repBuf : Nat
  repOfs : Nat
  deriving DecidableEq, Repr

def DecDesc.ofDesc (d : Desc) : DecDesc :=
  { session := fld d 31 26, strict := bitAt d 25, inBuf := fld d 511 500, inOfs := fld d 499 460,
    inBytes := fld d 459 420, outBuf := fld d 419 408, outOfs := fld d 407 368, stride := fld d 367 344,
    cOfs := fld d 343 304, cStride := fld d 303 280, outSize := fld d 279 240, repBuf := fld d 239 228,
    repOfs := fld d 227 188 }

/-! ## Sessions (R344, R346, R348) -/

/-- The first 32 request bytes, which fix what the session's frames become. -/
def Session.byte (x : Session) (i : Nat) : Nat := byteField x.params i 1

/-- The size of the context that a session requires (R348). -/
def ctxNeeded (decode : Bool) (codec depth width height refs : Nat) : Nat :=
  let f := width * height * 3 / 2 * (if depth = 8 then 1 else 2)
  let n := if decode then (if codec = 0 then 8 else 16) + 1 else refs + 2
  ceilDiv (n * f + width * height / 4 + 1048576) 65536 * 65536

/-- The largest frame of a format (R344). -/
def maxFrame (codec : Nat) : Nat × Nat := if codec = 0 then (8192, 4352) else (8192, 4320)

/-- Profile and bit depth of a coded stream (R344). -/
def profileOk (codec profile depth : Nat) : Bool :=
  match codec with
  | 0 => profile == 0 && (depth == 8 || depth == 10)
  | 1 => (profile == 1 && depth == 8) || (profile == 2 && (depth == 8 || depth == 10))
  | _ => profile == 100 && depth == 8

/-- Profile and bit depth of a session: of a decode session the depth is that of the output container (R346, R364). -/
def sessionProfileOk (decode : Bool) (codec profile depth : Nat) : Bool :=
  if decode then (depth == 8 || depth == 10) && (profileOk codec profile 8 || profileOk codec profile 10)
  else profileOk codec profile depth

/-- A frame's size: even, at least 64, and no larger than the format's largest (R344). -/
def frameSizeOk (codec w h : Nat) : Bool :=
  w % 2 == 0 && h % 2 == 0 && decide (64 ≤ w) && decide (64 ≤ h) && decide (w ≤ (maxFrame codec).1)
    && decide (h ≤ (maxFrame codec).2)

/-- Level codes up to 6.3 or 6.2 as each standard writes them: `seq_level_idx` 0 to 19, `general_level_idc` up to 186,
`level_idc` up to 62 (PRESUMED, log 19). -/
def levelOk (codec level : Nat) : Bool :=
  match codec with
  | 0 => decide (level ≤ 19)
  | 1 => decide (level ≤ 186)
  | _ => decide (level ≤ 62)

/-- A field breaks R344 or R346; `n` gives the field at an offset, `ps` are the request bytes. -/
def sessionFieldsOk (ps : List Byte) : Bool :=
  let b (i : Nat) : Nat := arg ps i 1
  let decode := b 0 == 1
  let common := decide (b 0 ≤ 1) && decide (b 1 ≤ 2) && sessionProfileOk decode (b 1) (b 2) (b 4) && levelOk (b 1) (b 3)
    && (if b 1 = 1 then decide (b 5 ≤ 1) else b 5 == 0)
    && frameSizeOk (b 1) (arg ps 8 2) (arg ps 10 2) && b 19 == 0 && zeroFrom ps 48
  let rate := decide (b 6 ≤ 2) && decide (b 7 ≤ 2)
    && (if b 7 = 2 then b 14 == 2 || b 14 == 4 || b 14 == 8 else b 14 == 1)
    && (if b 7 = 0 then b 15 == 0 else decide (1 ≤ b 15) && decide (b 15 ≤ 4))
    && decide (b 18 ≤ 3) && (if b 6 = 0 then zeroAt ps 20 8 else b 17 == 0)
  common && (if decode then zeroAt ps 6 2 && zeroAt ps 12 7 && zeroAt ps 20 12 else rate)

/-! ## The preprocessor (R351 to R358) -/

/-- One plane: rows of FP32 values or of integer codes. -/
abbrev Plane (α : Type) := List (List α)

def pixel (p : Plane Word) (x y : Nat) : Word := (p.getD y []).getD x 0

/-- A sample widened and clamped (R352), and whether it counts as a NaN or as clamped. -/
def clampSample (v : Val) : Word × Bool × Bool :=
  match v with
  | .nan _ => (0, true, false)
  | .inf n => (if n then 0 else fOne, false, true)
  | .fin n m e =>
    if m = 0 then (0, false, false)
    else if n then (0, false, true)
    else if (ofF32 fOne).lt (.fin n m e) then (fOne, false, true)
    else (toF32 v, false, false)

/-- The three planes as they are read, each sample clamped. -/
def readPlanes (m : Memory) (base : Nat) (d : EncDesc) : List (Plane (Word × Bool × Bool)) :=
  (List.range 3).map fun p => (List.range d.h).map fun y => (List.range d.w).map fun x =>
    clampSample (d.fmt.decode (m.readElem (base + p * d.planeStride + y * d.rowStride) d.fmt x))

/-- The oriented size (R353). -/
def EncDesc.oriented (d : EncDesc) : Nat × Nat := if d.rotate % 2 = 0 then (d.w, d.h) else (d.h, d.w)

/-- The oriented image (R353). -/
def orient (d : EncDesc) (p : Plane Word) : Plane Word :=
  let (ow, oh) := d.oriented
  (List.range oh).map fun y0 => (List.range ow).map fun x0 =>
    let x := if d.flipH then ow - 1 - x0 else x0
    let y := if d.flipV then oh - 1 - y0 else y0
    match d.rotate with
    | 0 => pixel p x y
    | 1 => pixel p y (d.h - 1 - x)
    | 2 => pixel p (d.w - 1 - x) (d.h - 1 - y)
    | _ => pixel p (d.w - 1 - y) x

/-- The digest of the image of scaling coefficients (R355). -/
def scaleDigest : Digest :=
  digestOf 0x4B9E17C2A0D358F62C71E84B96F03AD55E28C1B70D946FA3E7B12C5883F6D0191AC57E92F46B0D3829E0A7C4B85D316F6F129CE8D7A44B030E89F5B6C3D172A0

/-- coef[bank][phase][tap] (R355). -/
def scaleCoef (bank phase tap : Nat) : Word := wordIn Config.scaleImage (4 * ((bank * 64 + phase) * 8 + tap))

/-- Output sample `i` of a line of `n` input samples scaled to `o` (R354). -/
def scaleAt (n o : Nat) (src : Nat → Word) (i : Nat) : Word :=
  let num : Int := (2 * i + 1 : Nat) * (n : Int) - o
  let pos := num / ((2 * o : Nat) : Int)
  let phase := (num % ((2 * o : Nat) : Int) * 64 / ((2 * o : Nat) : Int)).toNat
  let bank := if n ≤ o then 0 else if n ≤ 2 * o then 1 else 2
  (List.range 8).foldl
    (fun (acc : Word) (t : Nat) =>
      let at_ := (min (max (pos - 3 + (t : Int)) 0) ((n : Int) - 1)).toNat
      f32Fma (scaleCoef bank phase t) (src at_) acc) 0

/-- Horizontal scaling over every row, then vertical (R354). -/
def scalePlane (ow oh w h : Nat) (p : Plane Word) : Plane Word :=
  let wide := if ow = w then p else p.map fun r => (List.range w).map (scaleAt ow w fun i => r.getD i 0)
  if oh = h then wide
  else (List.range h).map fun y => (List.range w).map fun x => scaleAt oh h (fun j => pixel wide x j) y

/-- The coefficients of Y', Cb and Cr (R356), each the FP32 value nearest to its exact ratio. -/
def matrixCoefs (bt2020 : Bool) : List (Word × Word × Word) :=
  if bt2020 then
    [(0x3E86809D, 0x3F2D9168, 0x3D72E48F), (0xBE0EFB2F, 0xBEB88269, 0x3F000000), (0x3F000000, 0xBEEB6908, 0xBD24B7BF)]
  else
    [(0x3E59B3D0, 0x3F371759, 0x3D93DD98), (0xBDEAA4C8, 0xBEC556CE, 0x3F000000), (0x3F000000, 0xBEE886BB, 0xBD3BCA29)]

/-- One colour value (R356). -/
def mixColour (k : Word × Word × Word) (r g b : Word) : Word := f32Fma k.2.2 b (f32Fma k.2.1 g (f32Mul k.1 r))

/-- A plane of one colour value from three planes. -/
def mixPlane (k : Word × Word × Word) (ps : List (Plane Word)) : Plane Word :=
  ((ps.getD 0 []).zip ((ps.getD 1 []).zip (ps.getD 2 []))).map fun rows =>
    (rows.1.zip (rows.2.1.zip rows.2.2)).map fun px => mixColour k px.1 px.2.1 px.2.2

/-- 2:1 subsampling in each direction (R357). -/
def subsample (w h : Nat) (p : Plane Word) : Plane Word :=
  (List.range (h / 2)).map fun v => (List.range (w / 2)).map fun u =>
    f32Mul (f32Add (f32Add (pixel p (2 * u) (2 * v)) (pixel p (2 * u + 1) (2 * v)))
                   (f32Add (pixel p (2 * u) (2 * v + 1)) (pixel p (2 * u + 1) (2 * v + 1)))) 0x3E800000#32

/-- An integer code (R358). -/
def codeOf (bits s o : Nat) (v : Word) : Nat :=
  let x := f32Fma (toF32 (intVal s)) v (toF32 (intVal o))
  let i := signedOf 32 (Fmt.int32.encode (ofF32 x))
  (min (max i 0) ((2 ^ bits - 1 : Nat) : Int)).toNat

/-- S and O of luma and chroma (R358). -/
def codeScale (full luma : Bool) (bits : Nat) : Nat × Nat :=
  if full then (2 ^ bits - 1, if luma then 0 else 2 ^ (bits - 1))
  else if luma then (219 * 2 ^ (bits - 8), 16 * 2 ^ (bits - 8)) else (224 * 2 ^ (bits - 8), 128 * 2 ^ (bits - 8))

/-- The coded frame: planes Y, Cb, Cr, and the counts of R352. -/
def preprocess (m : Memory) (base : Nat) (d : EncDesc) (x : Session) : List (Plane Nat) × Nat × Nat :=
  let raw := readPlanes m base d
  let count (f : Word × Bool × Bool → Bool) : Nat :=
    (raw.map fun p => (p.map fun r => (r.filter f).length).sum).sum
  let (ow, oh) := d.oriented
  let rgb := raw.map fun p => scalePlane ow oh x.width x.height (orient d (p.map fun r => r.map (·.1)))
  let colour := x.byte 18
  let mixed := (matrixCoefs (natBit colour 0)).map fun k => mixPlane k rgb
  let code (luma : Bool) (p : Plane Word) : Plane Nat :=
    let so := codeScale (natBit colour 1) luma x.bitDepth
    p.map fun r => r.map (codeOf x.bitDepth so.1 so.2)
  let planes := mixed.mapIdx fun i p => if i = 0 then code true p else code false (subsample x.width x.height p)
  (planes, count (·.2.1), count (·.2.2))

/-! ## Reports (R372) -/

/-- A frame report. -/
structure Report where
  status : Nat
  ftype : Nat
  shown : Bool
  bytes : Nat
  frameNum : Nat
  nans : Nat
  clamps : Nat
  work : Nat
  budget : Nat
  errOfs : Nat
  deriving DecidableEq, Repr

def reportBytes (r : Report) : List Byte :=
  packBytes [(1, r.status), (1, r.ftype), (1, if r.shown then 1 else 0), (1, 0), (4, r.bytes), (8, r.frameNum), (4, r.nans),
             (4, r.clamps), (4, r.work), (4, r.budget), (4, r.errOfs), (28, 0)]

/-! ## Frames -/

def State.session (s : State) (h : Nat) : Option Session := slotAt s.codec.sessions h

def State.updSession (s : State) (h : Nat) (f : Session → Session) : State :=
  { s with codec := { s.codec with sessions := updAt s.codec.sessions h (Option.map f) } }

def State.engine (s : State) : Engine → EngineState
  | .encoder => s.codec.encoder
  | .decoder => s.codec.decoder

def State.updEngine (s : State) (e : Engine) (f : EngineState → EngineState) : State :=
  match e with
  | .encoder => { s with codec := { s.codec with encoder := f s.codec.encoder } }
  | .decoder => { s with codec := { s.codec with decoder := f s.codec.decoder } }

def codecUnit : UnitId := .chip 14

/-- The context of a frame's buffers, which are of kind 2 or 3. -/
def frameFire (s : State) (j : Job) : Fire := { score := s.scoreAddr j, core := 0, rank := 0, loops := [], params := j.params }

/-! ## Engine state and contexts (R348, R349) -/

/-- The engine of a direction. -/
def engineOf (decode : Bool) : Engine := if decode then .decoder else .encoder

/-- Something is written into a session's context, which its engine alone reads; the image of a score loaded over it stays (R96). -/
def writeContext (x : Session) (s : State) : State := guardedForget (readOnlyRanges s) x.fn 14 x.ctxAddr x.ctxSize s

/-- An engine saves the state of the session that it serves to the session's context, and holds none. -/
def unloadEngine (e : Engine) (s : State) : State :=
  let g := s.engine e
  let t := s.updEngine e fun g => { g with lastServed := none, loaded := none }
  match g.lastServed, g.loaded with
  | some h, some c =>
    match t.session h with
    | some x => (writeContext x t).updSession h fun y => { y with coding := c }
    | none => t
  | _, _ => t

/-- An engine is loaded with a session: a switch when it served another (R349). -/
def loadEngine (e : Engine) (h : Nat) (x : Session) (s : State) : State :=
  if (s.engine e).lastServed == some h && (s.engine e).loaded.isSome then s
  else (unloadEngine e s).updEngine e fun g => { g with lastServed := some h, loaded := some x.coding }

/-- A session commits a frame: the new state is in its engine, references and motion fields in its context. -/
def commitFrame (x : Session) (c : Coding) (s : State) : State :=
  (writeContext x s).updEngine (engineOf x.decode) fun g => { g with loaded := some c }

/-! ## Encoding (R357 to R362) -/

/-- A key frame (R360). -/
def keyFrame (x : Session) (c : Coding) (force : Bool) : Bool :=
  let interval := byteField x.params 12 2
  force || c.frames == 0 || (decide (0 < interval) && c.frames % interval == 0)

/-- What a session's stream signals: matrix and range, and centred chroma siting (R357, R358). -/
def signalOf (x : Session) : Config.StreamSignal :=
  { bt2020 := natBit (x.byte 18) 0, fullRange := natBit (x.byte 18) 1, chromaSite := if x.codec = 0 then 0 else 1 }

/-- A number in LEB128, as an OBU's size is written (PRESUMED, log 84). -/
def leb128 : Nat → Nat → List Byte
  | 0, _ => []
  | n + 1, v => if v < 128 then [BitVec.ofNat 8 v] else BitVec.ofNat 8 (v % 128 + 128) :: leb128 n (v / 128)

/-- An OBU of the low-overhead format: its type with the size flag, its size, its bytes. -/
def obu (kind : Nat) (bs : List Byte) : List Byte := BitVec.ofNat 8 (kind % 16 * 8 + 2) :: leb128 8 bs.length ++ bs

/-- A NAL unit of the Annex B format behind a start code of three bytes, or of four with `zeros` 1 (PRESUMED, log 84). -/
def nalUnit (zeros : Nat) (bs : List Byte) : List Byte := List.replicate (2 + zeros) 0 ++ [1] ++ bs

/-- The headers of a session's stream (R361). -/
def streamHeaders (x : Session) : List Byte :=
  (Config.encodeHeaders x.params (signalOf x)).flatMap fun bs => if x.codec = 0 then obu 1 bs else nalUnit 1 bs

/-- One more piece of a stream, behind the headers where it is the first of a key frame (R361); what is left are the key frames whose bytes
are still to come. -/
def streamPiece (x : Session) (acc : List Nat × List Byte) (u : Nat × Nat × List Byte) : List Nat × List Byte :=
  (acc.1.erase u.1,
   acc.2 ++ (if acc.1.contains u.1 then streamHeaders x else [])
     ++ (if x.codec = 0 then obu u.2.1 u.2.2 else nalUnit (u.2.1 % 2) u.2.2))

/-- The stream bytes of a frame's report (R361): one temporal unit of AV1, else NAL units; and the key frames still to come, whose bytes may
appear with a later frame's report (R360). -/
def encodeBytes (x : Session) (c : Coding) (planes : List (List Nat)) (key last : Bool) : List Nat × List Byte :=
  let us := Config.encodeUnits x.params c.token planes key last
  let r := us.foldl (streamPiece x) (if key then c.keys ++ [c.frames] else c.keys, [])
  (r.1, if us.isEmpty then [] else if x.codec = 0 then obu 2 [] ++ r.2 else r.2)

/-- A frame encoded (R351 to R362): its bytes and its report are written; on an overflow nothing is committed. -/
def encodeFrame (j : Job) (x : Session) (c : Coding) (d : EncDesc) (s : State) : State :=
  let f := frameFire s j
  let (planes, nans, clamps) := preprocess s.mem (bufAddr s.mem f d.inBuf d.inOfs) d x
  let key := keyFrame x c d.forceKey
  let (keys, bs) := encodeBytes x c planes.flatten key d.last
  let fits := decide (bs.length ≤ d.outSize)
  let free := Config.encodeType x.params c.token planes.flatten key d.last
  let rep : Report :=
    { status := if fits then 0 else 2, ftype := if key then 0 else 1 + free % 2, shown := false, bytes := bs.length,
      frameNum := c.frames, nans := nans, clamps := clamps, work := 0, budget := 0, errOfs := 0 }
  let s1 :=
    if fits then
      commitFrame x { c with frames := c.frames + 1, token := Config.encodeState x.params c.token planes.flatten key d.last, keys := keys }
        (unitWrite 14 s (bufAddr s.mem f d.outBuf d.outOfs) bs)
    else s
  unitWrite 14 s1 (bufAddr s.mem f d.repBuf d.repOfs) (reportBytes rep)

/-! ## Decoding (R363 to R368) -/

/-- One sample's bytes in the session's container (R364). -/
def sampleBytes (depth v : Nat) : List Byte := if depth = 8 then leBytes 1 v else leBytes 2 (v % 1024)

/-- Where the rows of the three planes go: address and bytes (R364). -/
def planeRows (base cbase stride cstride depth : Nat) (planes : List (Plane Nat)) : List (Nat × List Byte) :=
  let rows (a n : Nat) (p : Plane Nat) : List (Nat × List Byte) := p.mapIdx fun y r => (a + y * n, r.flatMap (sampleBytes depth))
  let cb := planes.getD 1 []
  rows base stride (planes.getD 0 []) ++ rows cbase cstride cb ++ rows (cbase + cb.length * cstride) cstride (planes.getD 2 [])

/-- A frame with every sample at half scale (R366). -/
def greyPlanes (w h depth : Nat) : List (Plane Nat) :=
  let p (w h : Nat) : Plane Nat := List.replicate h (List.replicate w (2 ^ (depth - 1)))
  [p w h, p (w / 2) (h / 2), p (w / 2) (h / 2)]

/-- A unit is damaged in a header (R344, R364, R365): a forbidden value or a cut, a header beyond 65,536 bytes, a format or a size outside
R344 or beyond the session's limits, or 10 bits in a session opened with 8. -/
def headerDamaged (x : Session) (u : Config.UnitFacts) : Bool :=
  u.headerDamage || decide (65536 < u.headerBytes) || !profileOk x.codec u.profile u.depth || !levelOk x.codec u.level
    || !frameSizeOk x.codec u.width u.height || decide (x.width < u.width) || decide (x.height < u.height)
    || decide (x.byte 3 < u.level) || (u.depth == 10 && x.bitDepth == 8)

/-- A unit's work budget (R365). -/
def workBudget (u : Config.UnitFacts) (n : Nat) : Nat := 2 * (u.width * u.height) + 16 * n

/-- A unit is damaged in its frame or slice data: a forbidden value or a cut, a reference that the session does not hold, or more work
than its budget (R365). -/
def dataDamaged (c : Coding) (u : Config.UnitFacts) (n : Nat) : Bool :=
  u.dataDamage || (u.uses.any fun r => !(c.held.any fun y => y.1 == r)) || decide (workBudget u n < u.work)

/-- The frame that stands for a damaged one: a copy of that output last, or half scale (R366). -/
def concealed (x : Session) (c : Coding) (u : Config.UnitFacts) : List (Plane Nat) :=
  if c.lastShown.isEmpty then greyPlanes u.width u.height x.bitDepth else c.lastShown

/-- The frames that a session holds after a unit codes some, each by its name. -/
def holdFrames (c : Coding) (names : List Nat) (planes : Nat → List (Plane Nat)) : List (Nat × List (Plane Nat)) :=
  (c.held.filter fun y => !(names.contains y.1)) ++ names.map fun n => (n, planes n)

/-- What a unit of a stream becomes: report status, planes written if any, and the coding state it leaves (R364 to R367). -/
structure Decoded where
  status : Nat
  planes : Option (List (Plane Nat))
  next : Coding
  deriving DecidableEq, Repr

/-- The frames still held for output after a unit: those held back before, and those of it that the output order holds back, but for the
one that comes out. -/
def stillWaiting (c : Coding) (u : Config.UnitFacts) : List Nat :=
  (c.waiting ++ u.later.filter u.frames.contains).filter fun n => u.shown != some n

/-- A unit decoded: damage in a header ends it, and leaves headers and frames as they were; damage in data puts the concealed frame
in the place of each of its frames and of its output. -/
def decodeUnit (x : Session) (c : Coding) (bs : List Byte) : Decoded :=
  let u := Config.decodeFacts x.params c.token bs
  if headerDamaged x u then { status := 3, planes := none, next := { c with frames := c.frames + 1 } }
  else
    let bad := dataDamaged c u bs.length
    let held := holdFrames c u.frames fun n => if bad then concealed x c u else Config.decodePlanes x.params c.token c.held bs n
    let out := if bad then some (concealed x c u)
      else u.shown.bind fun n => (held.find? fun y => y.1 == n).map (·.2)
    { status := if bad then 1 else 0, planes := out,
      next := { c with
        frames := c.frames + 1, token := Config.decodeState x.params c.token bs, lastShown := out.getD c.lastShown,
        held := held.filter fun y => !(u.drops.contains y.1) || (stillWaiting c u).contains y.1, waiting := stillWaiting c u } }

/-- `IN_BYTES` 0 (R363): the next frame still held for output comes out, where there is one; its unit is empty, and nothing is damaged. -/
def flushUnit (x : Session) (c : Coding) : Decoded :=
  let next := ((Config.decodeFacts x.params c.token []).shown.filter c.waiting.contains).or c.waiting.head?
  let out := next.bind fun n => (c.held.find? fun y => y.1 == n).map (·.2)
  { status := 0, planes := out,
    next := { c with frames := c.frames + 1, lastShown := out.getD c.lastShown,
                     waiting := c.waiting.filter fun n => next != some n } }

/-- Every row of a shown frame lies in the output range and outside the session's context (R367). -/
def planesFit (x : Session) (base size : Nat) (rows : List (Nat × List Byte)) : Bool :=
  rows.all fun r => decide (base ≤ r.1) && decide (r.1 + r.2.length ≤ base + size)
    && !overlaps r.1 r.2.length x.ctxAddr x.ctxSize

/-- A unit decoded, its planes and its report written, and the strike of `STRICT` (R363 to R368). A report that would lie in the session's
context is not written, nor are the planes (R367). -/
def decodeFrame (j : Job) (bar descNo : Nat) (x : Session) (c : Coding) (d : DecDesc) (s : State) : State :=
  let f := frameFire s j
  let bs := s.mem.readBytes (bufAddr s.mem f d.inBuf d.inOfs) d.inBytes
  let u := Config.decodeFacts x.params c.token bs
  let r := if bs.isEmpty then flushUnit x c else decodeUnit x c bs
  let base := bufAddr s.mem f d.outBuf d.outOfs
  let repAt := bufAddr s.mem f d.repBuf d.repOfs
  let rows := planeRows base (bufAddr s.mem f d.outBuf d.cOfs) d.stride d.cStride x.bitDepth (r.planes.getD [])
  let free := !overlaps repAt 64 x.ctxAddr x.ctxSize
  let fits := free && planesFit x base d.outSize rows
  let status := if fits then r.status else 3
  let shown := r.planes.isSome && fits
  let budget := workBudget u bs.length
  let rep : Report :=
    { status := status, ftype := u.ftype % 3, shown := shown, bytes := min u.used d.inBytes, frameNum := c.frames, nans := 0,
      clamps := 0, work := if bs.isEmpty then 0 else min u.work budget, budget := budget,
      errOfs := if status = 0 then 0xFFFFFFFF else u.errOffset }
  let s1 := if shown then rows.foldl (fun acc p => unitWrite 14 acc p.1 p.2) s else s
  let s2 := commitFrame x (if fits then r.next else { c with frames := c.frames + 1 }) s1
  let s3 := if free then unitWrite 14 s2 repAt (reportBytes rep) else s2
  if status = 1 || status = 3 then
    let s4 := logError 0x38 (if d.strict then 1 else 0) (if d.strict then .struck else .ok) j.fn 14 0xFFFF bar s3
    if d.strict then strikeRunning .codecStream 3 (detailPlace 14 0xFF 0xFFFF bar descNo 0 0xFF) s4 else s4
  else s3

/-! ## The strokes (R369, R373) -/

/-- The session a codec stroke names is open, held by the job's function, of the stroke's direction, and the oriented size
keeps the ratio limits of R354. -/
def sessionFits (s : State) (j : Job) (decode : Bool) (d : Desc) : Bool :=
  match s.session (fld d 31 26) with
  | none => false
  | some x =>
    x.fn == j.fn && x.decode == decode &&
    (decode ||
      (let (ow, oh) := (EncDesc.ofDesc d).oriented
       decide (ow ≤ 4 * x.width) && decide (x.width ≤ 2 * ow) && decide (oh ≤ 4 * x.height) && decide (x.height ≤ 2 * oh)))

/-- A codec stroke fires: a fenced engine, a failed session and an unfit one strike the job (R280, R373, R491); else the frame waits for its
engine, in firing order (R349). -/
def codecBody (e : Engine) (b : BeatCtx) (key : Nat) (s : State) : State :=
  let d := descOf s.mem b.fire b.word.desc
  let strike (source : Nat) (cause : Status) : State :=
    strikeRunning cause 3 (detailPlace 14 0xFF 0xFFFF b.bar b.word.desc 0 0xFF)
      (logError source 1 .struck (runningFn s) 14 0xFFFF b.bar s)
  if (s.engine e).fenced then strike 0x42 .state
  else if ((s.session (fld d 31 26)).map (·.failed)) == some true then strike 0x11 .channelRetired
  else if !sessionFits s b.job (e == .decoder) d then strike 0x39 .invalid
  else
    s.updEngine e fun g =>
      { g with queue := g.queue ++ [{ session := fld d 31 26, key := key, desc := d, job := b.job.id }] }

/-- `ENC_FRAME`. -/
def execEncFrame (s : State) : Host.Outcome State Fault Refusal :=
  .next (runStroke codecUnit 0x10 noStream (codecBody .encoder) s)

/-- `DEC_FRAME`. -/
def execDecFrame (s : State) : Host.Outcome State Fault Refusal :=
  .next (runStroke codecUnit 0x11 noStream (codecBody .decoder) s)

/-- The engine ends the frame it serves: the oldest (R349). The session is loaded into the engine, the frame's bytes or
planes and its report are written, and its stroke is done. -/
def serveFrame (e : Engine) (s : State) : State :=
  match (s.engine e).queue with
  | [] => s
  | q :: rest =>
    let s1 := s.updEngine e fun g => { g with queue := rest }
    match s1.job q.job, s1.session q.session with
    | some j, some x =>
      let s2 := loadEngine e q.session x s1
      let c := (s2.engine e).loaded.getD x.coding
      let i := inflightOf s2 codecUnit q.key
      let bar := (i.map (·.bar)).getD noDesc
      let s3 := if x.decode then decodeFrame j bar ((i.map (·.desc)).getD noDesc) x c (DecDesc.ofDesc q.desc) s2
        else encodeFrame j x c (EncDesc.ofDesc q.desc) s2
      doneStroke codecUnit q.key s3
    | _, _ => s1

/-- `CODEC_FRAME_DONE`. -/
def execCodecFrameDone (e : Engine) (s : State) : Host.Outcome State Fault Refusal := .next (serveFrame e s)

/-! ## Sessions closed -/

/-- A session closes; its engine no longer holds it. -/
def closeSession (h : Nat) (s : State) : State :=
  let forget (e : EngineState) : EngineState := if e.lastServed = some h then { e with lastServed := none, loaded := none } else e
  { s with codec := { sessions := updAt s.codec.sessions h fun _ => none, encoder := forget s.codec.encoder,
                      decoder := forget s.codec.decoder } }

/-- Every session of a function closes (R350). -/
def closeSessions (fn : Nat) (s : State) : State :=
  (List.range 64).foldl
    (fun acc h => if ((acc.session h).map (·.fn)) == some fn then closeSession h acc else acc) s

end Sys2Proof.Machine
end

