-- ==== Sys2Proof/Machine/Paths.lean ====
section
/-! DEFINITION. What the loader knows of a score's course (R66 to R74, R88, R100): the bars in the order in which control
reaches them, the strokes that fire there, and the descriptors that each stroke names. -/
namespace Sys2Proof.Machine

/-! ## The path of control (R66, R70 to R72, R74) -/

/-- A bar as control reaches it: the layout in force, the loops, and the number of breaks passed. -/
structure Place where
  bar : Nat
  layout : Nat
  loops : List LoopLevel
  kernel : Nat
  deriving DecidableEq, Repr

/-- The loop counters at a place: 0 outside an open loop (R70). -/
def Place.counters (p : Place) : List Nat := p.loops.map fun l => if l.isOpen then l.counter else 0

/-- A bar reached from the bar before it: a LOOP_BEGIN opens its loop, a SECTION puts its layout in force (R68, R70). -/
def Place.arrive (n : Nat) (c : CtlWord) (p : Place) : Place :=
  if c.op = 2 then
    let opened (_ : LoopLevel) : LoopLevel := { isOpen := true, count := n, counter := 0, beginBar := p.bar }
    { p with loops := updAt p.loops c.level opened }
  else if c.op = 5 then { p with layout := c.imm % 8 }
  else p

/-- Where control goes after a bar's strokes; the flag says that the next bar is reached from the bar before it. -/
def Place.leave (c : CtlWord) (p : Place) : Bool × Place :=
  let l := p.loops.getD c.level LoopLevel.closed
  if c.op = 3 && l.isOpen && decide (l.counter + 1 < l.count) then
    let turn (k : LoopLevel) : LoopLevel := { k with counter := k.counter + 1 }
    (false, { p with bar := l.beginBar, loops := updAt p.loops c.level turn })
  else if c.op = 3 then (true, { p with bar := p.bar + 1, loops := updAt p.loops c.level fun _ => LoopLevel.closed })
  else (true, { p with bar := p.bar + 1, kernel := if c.op = 4 then p.kernel + 1 else p.kernel })

/-- The places from a bar to the HALT, the count of each loop given by its LOOP_BEGIN bar. -/
def walk (m : Memory) (a : Nat) (count : Nat → CtlWord → Nat) : Nat → Bool → Place → List Place
  | 0, _, _ => []
  | n + 1, fresh, p =>
    let c := scCtl m a p.bar
    if scBarCount m a ≤ p.bar then []
    else if fresh && c.op == 2 && count p.bar c == 0 then
      match scLoopEnd m a c.level (scBarCount m a - p.bar) p.bar with
      | some e => walk m a count n true { p with bar := e + 1 }
      | none => []
    else
      let q := if fresh then p.arrive (count p.bar c) c else p
      let r := q.leave c
      q :: (if c.op = 6 then [] else walk m a count n r.1 r.2)

/-- More steps than any walk takes: four loop levels of 2²⁴ turns (R97). -/
def walkBound (m : Memory) (a : Nat) : Nat := scBarCount m a * 2 ^ 96 + 1

/-- The places of an entry in order. -/
def entryWalk (m : Memory) (a e : Nat) (count : Nat → CtlWord → Nat) : List Place :=
  walk m a count (walkBound m a) true
    { bar := scFirstBar m a e, layout := 0, loops := List.replicate 4 LoopLevel.closed, kernel := 0 }

/-- The bars from an entry's first to its HALT: no HALT lies in a loop (R72). -/
def entryBars (m : Memory) (a e : Nat) : List Nat :=
  let from_ := rangeFrom (scFirstBar m a e) (scBarCount m a - scFirstBar m a e)
  let body := from_.takeWhile fun b => !((scCtl m a b).op == 6)
  body ++ ((from_.drop body.length).take 1)

/-- LOOP_BEGIN bars among some bars that take their count from a job scalar, with that scalar. -/
def scalarLoops (m : Memory) (a : Nat) (bars : List Nat) : List (Nat × Nat) :=
  bars.filterMap fun b =>
    let c := scCtl m a b
    if c.op = 2 && c.countSrc then some (b, c.scalar) else none

/-- Every combination of 0, 1 and 2 turns of some loops (R100, check 0x0008). -/
def turnChoices : List Nat → List (List (Nat × Nat))
  | [] => [[]]
  | b :: rest => (turnChoices rest).flatMap fun r => [(b, 0) :: r, (b, 1) :: r, (b, 2) :: r]

/-- Loop counts at load: immediate counts up to a bound, scalar counts as chosen. -/
def loadCount (cap : Nat) (turns : List (Nat × Nat)) (bar : Nat) (c : CtlWord) : Nat :=
  if c.countSrc then ((turns.find? fun t => t.1 == bar).map (·.2)).getD 0 else min cap (c.imm + 1)

/-- Loop counts of a job (R71). -/
def jobCount (params : List Byte) (_ : Nat) (c : CtlWord) : Nat :=
  if c.countSrc then jobScalar params c.scalar % 2 ^ 32 else c.imm + 1

/-- The walks of an entry: the one its job's scalars give, or at load one for each choice of scalar counts. -/
def entryWalks (m : Memory) (a e cap : Nat) (params : Option (List Byte)) : List (List Place) :=
  match params with
  | some ps => [entryWalk m a e (jobCount ps)]
  | none => (turnChoices ((scalarLoops m a (entryBars m a e)).map (·.1))).map fun t => entryWalk m a e (loadCount cap t)

/-- A walk cut into its kernels. -/
def kernelsOf (w : List Place) : List (List Place) :=
  (List.range ((w.getLast?.map (·.kernel)).getD 0 + 1)).map fun k => w.filter fun p => p.kernel == k

/-! ## Strokes that fire (R60, R67) -/

/-- A stroke as it fires. -/
structure Firing where
  place : Place
  unit : UnitId
  word : StrokeWord
  fire : Fire
  deriving DecidableEq, Repr

def Firing.stave (x : Firing) : Nat := unitStave x.unit

/-- The enabled cores of a section of a layout. -/
def layoutSection (s : State) (a lay sec : Nat) : List Nat := sectionCores s.fuses.variant (scSection s.mem a lay sec)

/-- The strokes of some staves of a bar that are not rests. -/
def strokesAt (m : Memory) (a bar : Nat) (staves : List Nat) : List (Nat × StrokeWord) :=
  staves.filterMap fun v =>
    let w := scStave m a bar v
    if w = 0 then none else some (v, StrokeWord.ofWord w)

/-- Every stroke that fires at a place. -/
def firingsAt (s : State) (a : Nat) (params : List Byte) (p : Place) : List Firing :=
  let ctl := scCtl s.mem a p.bar
  let make (core rank : Nat) (u : UnitId) (w : StrokeWord) : Firing :=
    { place := p, unit := u, word := w,
      fire := { score := a, core := core, rank := rank, loops := p.counters, params := params } }
  let cores := ((List.range 4).filter fun sec => natBit ctl.mask sec).flatMap fun sec => (layoutSection s a p.layout sec).zipIdx
  (cores.flatMap fun c => (strokesAt s.mem a p.bar (rangeFrom 1 11)).map fun x =>
      make c.1 c.2 (.core (Fin.ofNat 256 c.1) (Fin.ofNat 16 x.1)) x.2)
    ++ (strokesAt s.mem a p.bar (rangeFrom 12 4)).map fun x => make 0 0 (.chip (Fin.ofNat 16 x.1)) x.2

/-- Every stroke that fires at some places. -/
def firings (s : State) (a : Nat) (params : List Byte) (w : List Place) : List Firing := w.flatMap (firingsAt s a params)

/-! ## Opcodes and the descriptors they name (R136, R198, R227, R237, R270, R338, R369, R400) -/

/-- The descriptor kind that an opcode of a stave takes: none for an invalid opcode, 0 where it takes no descriptor. -/
def strokeKind (stave op : Nat) : Option Nat :=
  if op = 1 then some 0
  else
    match stave, op with
    | 1, 0x10 | 2, 0x10 | 3, 0x10 | 4, 0x10 | 7, 0x10 | 8, 0x10 => some 0x10
    | 1, 0x11 | 2, 0x11 | 3, 0x11 | 4, 0x11 | 7, 0x11 | 8, 0x11 => some 0x11
    | 1, 0x12 | 2, 0x12 | 3, 0x12 | 4, 0x12 | 7, 0x13 | 8, 0x12 => some 0x19
    | 7, 0x12 => some 0x12
    | 5, 0x10 => some 0x14
    | 5, 0x11 => some 0x1B
    | 6, 0x10 => some 0x15
    | 9, 0x10 => some 0x1A
    | 10, 0x10 | 10, 0x11 | 12, 0x10 | 12, 0x11 => some 0x1D
    | 11, 0x10 => some 0x17
    | 13, 0x10 => some 0x1E
    | 13, 0x11 => some 0x1F
    | 13, 0x12 => some 0x20
    | 14, 0x10 => some 0x21
    | 14, 0x11 => some 0x22
    | 14, 0x20 => some 0
    | _, _ => none

/-- The problems of a gang stroke, as descriptor indices; any other stroke's own descriptor. -/
def strokeDescs (stave : Nat) (w : StrokeWord) : List Nat :=
  match strokeKind stave w.op with
  | some 0x11 => (List.range (w.imm % 16)).map (w.desc + ·)
  | some 0 | none => []
  | _ => [w.desc]

/-- Other descriptors that a descriptor names, each with the kind it must have. -/
def descRefs (kind i : Nat) (d : Desc) : List (Nat × Nat) :=
  let named (k : Nat) (l : List Nat) : List (Nat × Nat) := (l.filter fun x => !(x == 0xFFFF)).map fun x => (x, k)
  match kind with
  | 0x10 | 0x11 =>
    let x := MatDesc.ofDesc d
    named 0x13 [x.epi] ++ (if x.conv then [(x.win, 0x12)] else [])
      ++ (if kind = 0x10 && !(x.damper == 0) then [(i + x.damper, 0x1C)] else [])
  | 0x14 =>
    named 0x16 [fld d 207 192, fld d 191 176, fld d 175 160, fld d 159 144, fld d 143 128, fld d 127 112, fld d 111 96,
                fld d 95 80] ++ named 0x18 [fld d 15 0]
  | 0x15 => named 0x16 [fld d 495 480]
  | 0x19 =>
    named 0x16 [fld d 511 496, fld d 495 480, fld d 479 464, fld d 463 448, fld d 447 432, fld d 431 416, fld d 415 400]
  | 0x1A => named 0x16 [fld d 511 496, fld d 495 480, fld d 479 464]
  | 0x1B => named 0x16 [fld d 511 496, fld d 495 480, fld d 479 464, fld d 463 448, fld d 447 432]
  | _ => []

/-- A descriptor lies in the store and has a kind. -/
def hasKind (m : Memory) (a : Nat) (r : Nat × Nat) : Bool :=
  decide (r.1 < scDescCount m a) && fld (scStoredDesc m a r.1) 63 56 == r.2

/-- Every descriptor that a stroke reads as it fires, with the kind each must have: its own, those these name, and the send
descriptor of combination 7. -/
def usedDescs (m : Memory) (f : Fire) (stave : Nat) (w : StrokeWord) : List (Nat × Nat) :=
  let kind := (strokeKind stave w.op).getD 0
  (strokeDescs stave w).flatMap fun i =>
    let d := descOf m f i
    let own := descRefs kind i d
    let send := if kind = 0x10 && (MatDesc.ofDesc d).combo == 7 && hasKind m f.score ((MatDesc.ofDesc d).epi, 0x13) then
        [((epiAt m f (MatDesc.ofDesc d)).send, 0x1E)] else []
    (i, kind) :: own ++ send

/-! ## Affine entries (R87, R88) -/

/-- Where the affine entries of a stored descriptor lie. -/
def affineEntries (m : Memory) (a i : Nat) : List Nat :=
  let d := scStoredDesc m a i
  (List.range (fld d 52 48)).map fun k => a + scAffineOfs m a + 32 * (fld d 47 32 + k)

/-- The job scalar that an affine entry reads, if its coefficient lets it count. -/
def affineScalar (m : Memory) (e : Nat) : Option Nat :=
  let sc := m.readNat (e + 3) 1
  if sc = 0xFF || m.readNat (e + 24) 4 = 0 then none else some sc

/-- A loop around a firing takes its count from a job scalar. -/
def loopBound (m : Memory) (a : Nat) (x : Firing) : Bool := x.place.loops.any fun l => l.isOpen && (scCtl m a l.beginBar).countSrc

/-- Every descriptor that a stroke reads lies in the store and has the kind that its place wants. -/
def refsOk (m : Memory) (x : Firing) : Bool := (usedDescs m x.fire x.stave x.word).all (hasKind m x.fire.score)

/-- Parameter blocks that stand for a job's scalars while none is known: every scalar 1, 2, 32, 64, 4,096 or 2^20, and each its own
multiple of 65,536 (log 70). -/
def sampleScalars : List (List Byte) :=
  ([1, 2, 32, 64, 4096, 2 ^ 20].map fun n => (List.range 32).flatMap fun _ => leBytes 8 n)
    ++ [(List.range 32).flatMap fun i => leBytes 8 (65536 * (i + 1))]

/-- A firing depends on a job scalar: through an affine entry of a descriptor it reads, or through the count of a loop around it. -/
def scalarBound (m : Memory) (a : Nat) (x : Firing) : Bool :=
  loopBound m a x ||
  (usedDescs m x.fire x.stave x.word).any fun r =>
    decide (r.1 < scDescCount m a) && (affineEntries m a r.1).any fun e => (affineScalar m e).isSome

/-- An affine entry may target a field of the body (FIELD_LSB 64 to 511, R87), and of an epilogue descriptor any field, those of its
header's bits [31:0] among them (R35, R161; DEDUCED, log 86). -/
def affineTarget (kind lsb w : Nat) : Bool :=
  decide (1 ≤ w) && decide (w ≤ 64) && ((decide (64 ≤ lsb) && decide (lsb + w ≤ 512)) || (kind == 0x13 && decide (lsb + w ≤ 32)))

/-- The affine entries of a descriptor lie in the table, name fields that they may target, and touch no bit twice. -/
def affineValid (m : Memory) (a i : Nat) : Bool :=
  let d := scStoredDesc m a i
  let spans := (affineEntries m a i).map fun e => (m.readNat e 2, m.readNat (e + 2) 1)
  let clear : Bool := spans.zipIdx.all fun x => (spans.drop (x.2 + 1)).all fun y => !overlaps x.1.1 x.1.2 y.1 y.2
  decide (fld d 47 32 + fld d 52 48 ≤ scAffineCount m a) && clear
    && spans.all (fun x => affineTarget (fld d 63 56) x.1 x.2)
    && (affineEntries m a i).all fun e => decide (m.readNat (e + 3) 1 < 32) || m.readNat (e + 3) 1 == 0xFF

/-- A field that its chapter declares signed: the peer offsets of a send (R339) and the argument of an `scl` stage (R166). -/
def signedField (kind lsb w : Nat) (d : Desc) : Bool :=
  (kind == 0x1E && w == 8 && [464, 472, 480, 488].contains lsb) ||
  (kind == 0x14 && w == 8 && decide (256 ≤ lsb) && lsb % 32 == 3 && fld d (lsb / 32 * 32 + 31) (lsb / 32 * 32 + 26) == 0x10)

/-- A scalar slot takes signed and unsigned results alike (R201). -/
def slotField (kind lsb w : Nat) : Bool := kind == 0x18 && w == 32 && decide (64 ≤ lsb) && decide (lsb < 320) && lsb % 32 == 0

/-- The value that an affine entry gives fits its field (R88). -/
def affineFits (m : Memory) (f : Fire) (kind i e : Nat) : Bool :=
  let d := scStoredDesc m f.score i
  let lsb := m.readNat e 2
  let w := m.readNat (e + 2) 1
  let stored := bitField d lsb w
  let v := affineValue m e f.loops f.rank f.params stored
  if signedField kind lsb w d then
    let x := v - stored + signedOf w stored
    decide (-(2 ^ (w - 1) : Int) ≤ x) && decide (x < (2 ^ (w - 1) : Int))
  else if slotField kind lsb w then decide (-(2 ^ 31 : Int) ≤ v) && decide (v < (2 ^ 32 : Int))
  else decide (0 ≤ v) && decide (v < (2 ^ w : Int))

end Sys2Proof.Machine
end

