-- ==== Sys2Proof/Machine/Access.lean ====
section
/-! DEFINITION. Every access that a stroke makes to the buffers of its score (R85, R100): what it reads and writes, where, in
whose scratch, and with which flags, stroke by stroke as the unit chapters give it. -/
namespace Sys2Proof.Machine

/-- A run of bytes of a buffer that a stroke touches. `flags` are the buffer flags it needs (1 `READ`, 2 `WRITE`), `kinds` the
buffer kinds it allows (none listed: any). An access that neither reads nor writes is only checked to lie in its buffer. -/
structure Access where
  desc : Nat
  buf : Nat
  ofs : Nat
  len : Nat
  flags : Nat
  kinds : List Nat
  reads : Bool
  writes : Bool
  core : Nat
  deriving DecidableEq, Repr

/-- Where a stroke's accesses come from: its descriptor and the core whose scratch they use. -/
structure From where
  desc : Nat
  core : Nat
  kinds : List Nat
  deriving DecidableEq, Repr

def From.read (o : From) (buf ofs len : Nat) : Access :=
  { desc := o.desc, buf := buf, ofs := ofs, len := len, flags := 1, kinds := o.kinds, reads := true, writes := false, core := o.core }

def From.write (o : From) (buf ofs len : Nat) : Access :=
  { desc := o.desc, buf := buf, ofs := ofs, len := len, flags := 2, kinds := o.kinds, reads := false, writes := true, core := o.core }

/-- Checked, but not an access of its own. -/
def Access.only (x : Access) : Access := { x with reads := false, writes := false }

/-- A write of bytes that the same stroke also reads, before or after. -/
def Access.both (x : Access) : Access := { x with flags := 3, reads := true }

/-- `n` rows of `len` bytes, `stride` bytes apart. -/
def rowRuns (one : Nat → Nat → Access) (ofs n stride len : Nat) : List Access :=
  (List.range n).map fun i => one (ofs + i * stride) len

/-! ## Streams (R170) -/

/-- Elements and scales of a `rows` × `cols` region of a stream; an input with stride 0 has one row of elements, and the scale bytes of each
row all the same. -/
def streamRuns (o : From) (put : From → Nat → Nat → Nat → Access) (x : Stream) (rows cols : Nat) : List Access :=
  let n := if x.rowStride = 0 then min rows 1 else rows
  rowRuns (put o x.buf) x.ofs n x.rowStride (x.fmt.rowBytes cols)
    ++ (if !x.scaled then []
        else if x.sdimRows then rowRuns (put o x.sbuf) x.sofs (ceilDiv rows 32) x.sstride cols
        else rowRuns (put o x.sbuf) x.sofs rows x.sstride (ceilDiv cols 32))

/-- A stream that a descriptor names, if it is one. -/
def namedStream (m : Memory) (f : Fire) (i : Nat) : List (Nat × Stream) :=
  if hasKind m f.score (i, 0x16) then (streamOf m f i).toList.map fun x => (i, x) else []

/-- A region read, or written, through a named stream. -/
def readStream (m : Memory) (f : Fire) (kinds : List Nat) (i rows cols : Nat) : List Access :=
  (namedStream m f i).flatMap fun x => streamRuns { desc := x.1, core := f.core, kinds := kinds } From.read x.2 rows cols

def writeStream (m : Memory) (f : Fire) (kinds : List Nat) (i rows cols : Nat) : List Access :=
  (namedStream m f i).flatMap fun x => streamRuns { desc := x.1, core := f.core, kinds := kinds } From.write x.2 rows cols

/-! ## Matrix work (R117, R128 to R133, R138, R143 to R153, R250) -/

/-- Rows of W with their scales. -/
def weightRuns (o : From) (d : MatDesc) (rows : List Nat) : List Access :=
  rows.flatMap fun r =>
    o.read d.wBuf (d.wOfs + r * d.wStride) (d.wFmt.rowBytes d.k)
      :: (if d.wScaled then [o.read d.wsBuf (d.wsOfs + r * ceilDiv d.k 32) (ceilDiv d.k 32)] else [])

/-- The channels that a core reads of X: all, or those of the groups that its rows belong to (R130, R133). -/
def channelSpan (m : Memory) (f : Fire) (d : MatDesc) : Nat × Nat :=
  let w := winAt m f d
  if d.pkind = 0 then (0, w.c)
  else
    let qs := gangGroups m f d
    (qs.headD 0 * winCap d w, min w.c ((qs.headD 0 + qs.length) * winCap d w))

/-- Pixels of the blocks of some channels that some window of a convolution reaches, with the channel block, the image and the block laid
out as R128 says. -/
def windowPixels (w : WinDesc) (ch : Nat × Nat) (t : Nat) : List (Nat × Nat) :=
  (rangeFrom (ch.1 / w.cb) (ceilDiv ch.2 w.cb - ch.1 / w.cb)).flatMap fun blk => (List.range t).flatMap fun p =>
    (List.range w.kh).flatMap fun kr => (List.range w.kw).filterMap fun kc =>
      let ih : Int := (p / w.ow % w.oh * w.sh + kr * w.dh : Nat) - (w.padT : Int)
      let iw : Int := (p % w.ow * w.sw + kc * w.dw : Nat) - (w.padL : Int)
      if ih < 0 || (w.height : Int) ≤ ih || iw < 0 || (w.width : Int) ≤ iw then none
      else some (blk, ((p / (w.ow * w.oh) * ceilDiv w.c w.cb + blk) * w.height + ih.toNat) * w.width + iw.toNat)

/-- Some channels of some pixels as they are stored, in whole packed groups, and their scales. -/
def pixelRuns (o : From) (w : WinDesc) (ch : Nat × Nat) (fmt : Fmt) (buf ofs : Nat) (scales : Option (Nat × Nat))
    (px : List (Nat × Nat)) : List Access :=
  px.flatMap fun p =>
    let lo := (max ch.1 (p.1 * w.cb) - p.1 * w.cb) / fmt.group * fmt.group * fmt.bits / 8
    o.read buf (ofs + p.2 * w.cb * fmt.bits / 8 + lo) (fmt.rowBytes (min ch.2 ((p.1 + 1) * w.cb) - p.1 * w.cb) - lo)
      :: (match scales with | some s => [o.read s.1 (s.2 + p.2) 1] | none => [])

/-- What the feed stick reads of X. -/
def activationRuns (m : Memory) (f : Fire) (o : From) (d : MatDesc) : List Access :=
  let plain (cols : Nat) : List Access :=
    rowRuns (o.read d.xBuf) d.xOfs d.k d.xStride (d.xFmt.rowBytes cols)
      ++ (if d.xScaled then rowRuns (o.read d.xsBuf) d.xsOfs (ceilDiv d.k 32) d.xsStride cols else [])
  if d.conv then
    let w := winAt m f d
    let ch := channelSpan m f d
    pixelRuns o w ch d.xFmt d.xBuf d.xOfs (if d.xScaled then some (d.xsBuf, d.xsOfs) else none) (windowPixels w ch d.t)
  else if d.combo = 9 then
    rowRuns (o.read d.xBuf) d.xOfs d.t d.xStride (d.xFmt.rowBytes d.k)
      ++ (if d.xScaled then rowRuns (o.read d.xsBuf) d.xsOfs d.t d.xsStride (ceilDiv d.k 32) else [])
  else if d.combo = 10 && !(epiAt m f d).gatherW then
    let e := epiAt m f d
    plain e.extent ++ [{ o with desc := d.epi, kinds := [] }.read e.auxBuf e.auxOfs (4 * d.t)]
  else plain d.t

/-- What a Mallet unit reads: the rows of its bands, the gathered rows that an index may name, or its side of a chain. -/
def malletRuns (m : Memory) (f : Fire) (o : From) (d : MatDesc) (mu : Nat) : List Access :=
  let e := epiAt m f d
  let oe : From := { o with desc := d.epi }
  if d.combo = 11 then
    if mu < 2 then weightRuns o d ((List.range e.m).filter fun i => i % 128 / 64 == mu)
    else
      let mine := (rangeFrom (64 * (mu - 2)) 64).filter fun j => decide (j < d.n)
      (mine.flatMap fun j =>
        oe.read e.auxBuf (e.auxOfs + j * e.auxStride) (e.w2Fmt.rowBytes e.m)
          :: (if e.w2Fmt.scalable then [oe.read e.w2sBuf (e.w2sOfs + j * ceilDiv e.m 32) (ceilDiv e.m 32)] else []))
        ++ (if e.biasEn then [{ oe with kinds := [] }.read e.biasBuf e.biasOfs (e.m * (if e.biasBf then 2 else 4))] else [])
  else
    let rows := ((bandsOf d mu).flatMap fun b => rangeFrom (64 * b) 64).filter fun j => decide (j < d.n)
    if d.combo = 10 && e.gatherW then
      weightRuns o d (List.range e.extent) ++ [{ oe with kinds := [] }.read e.auxBuf e.auxOfs (4 * d.n)]
    else weightRuns o d rows

/-- The bytes of Y in one core. -/
def outputRuns (m : Memory) (f : Fire) (o : From) (d : MatDesc) : List Access :=
  if d.conv then
    let w := winAt m f d
    (List.range d.n).flatMap fun j => (List.range d.t).map fun t =>
      let i := convIndex w (d.n0 + j) t * d.yFmt.bits
      o.write d.yBuf (d.yOfs + i / 8) ((i + d.yFmt.bits + 7) / 8 - i / 8)
  else rowRuns (o.write d.yBuf) d.yOfs d.n d.yStride (d.yFmt.rowBytes d.t)

/-- The epilogue's reads of bias and α vector, and of the residual (R143). -/
def vectorReads (o : From) (d : MatDesc) (e : EpiDesc) : List Access :=
  (if e.biasEn && !(d.combo == 0) && !(d.combo == 11) then
     [o.read e.biasBuf e.biasOfs (d.n * (if e.biasBf then 2 else 4))] else [])
    ++ (if (d.combo = 3 || d.combo = 6) && e.alphaVec then [o.read e.vecBuf e.vecOfs (4 * d.n)] else [])

def residualReads (o : From) (d : MatDesc) (e : EpiDesc) : List Access :=
  if d.combo = 3 || d.combo = 6 then rowRuns (o.read e.resBuf) e.resOfs d.n e.resStride (e.rFmt.rowBytes d.t) else []

/-- Output scales in one core (R147, R148). -/
def scaleRuns (o : From) (d : MatDesc) (e : EpiDesc) : List Access :=
  if d.combo = 6 || ((d.combo = 4 || d.combo = 5) && !(d.yFmt == .int8)) then
    rowRuns (o.write e.ysBuf) e.ysOfs (ceilDiv d.n 32) e.ysStride d.t
  else []

/-- The cores that receive Y. -/
def multicastCores (s : State) (f : Fire) (lay : Nat) (on : Bool) (sec : Nat) : List Nat :=
  f.core :: (if on then (layoutSection s f.score lay sec).filter fun c => !(c == f.core) else [])

/-- The bytes of Y in every core that receives it. -/
def resultRuns (s : State) (f : Fire) (lay i : Nat) (d : MatDesc) : List Access :=
  let y (c : Nat) : From := { desc := i, core := c, kinds := [0] }
  if d.combo = 8 then (if f.rank = 0 then [(y f.core).write d.yBuf d.yOfs (4 * d.t)] else [])
  else if d.combo = 7 && !(epiAt s.mem f d).onDevice then []
  else (multicastCores s f lay d.yMcast d.mcastSection).flatMap fun c => outputRuns s.mem f (y c) d

/-- What the drain stick touches for one operation or gang problem, but for Damper. The hold buffer's kind is check 0x000C's
(R160). BIAS_BUF, VEC_BUF, RES_BUF, STAT_BUF and the index list in AUX_BUF may be of any kind, attached memory included, and YS_BUF must
be of kind 0 also without Y_MCAST: of those kinds the spec says nothing (DESIGN CHOICE, log 92). -/
def drainRuns (s : State) (f : Fire) (lay i : Nat) (d : MatDesc) : List Access :=
  let m := s.mem
  let e := epiAt m f d
  let cores := multicastCores s f lay d.yMcast d.mcastSection
  let oe : From := { desc := d.epi, core := f.core, kinds := [] }
  let ys (c : Nat) : List Access := scaleRuns { desc := d.epi, core := c, kinds := [0] } d e
  if d.combo = 0 then resultRuns s f lay i d
  else
    vectorReads oe d e ++ residualReads oe d e ++ cores.flatMap ys ++ resultRuns s f lay i d
    ++ (if d.combo = 6 then
          rowRuns (fun a n => { oe.write e.auxBuf a n with flags := 3 }) e.auxOfs d.n e.auxStride (4 * d.t)
        else [])
    ++ (if d.combo = 11 && e.statEn then [oe.write e.statBuf e.statOfs (8 * d.t)] else [])

/-- The phase of a Damper as far as a firing tells it: while no job scalar is known, a θ that one of them moves may be any, and the steps
alone decide (R245, R252, R254, R255). -/
def phaseKnown (m : Memory) (f : Fire) (i : Nat) (x : DamperDesc) : Nat :=
  let moved : Bool := (affineEntries m f.score i).any fun e =>
    (affineScalar m e).isSome && overlaps (m.readNat e 2) (m.readNat (e + 2) 1) 480 32
  damperPhase (if f.params.isEmpty && moved then { x with theta := fOne } else x)

/-- The Damper stores that an operation touches (R248 to R250): the input store at rank 0's feed stick, the output cache of
each core at its drain stick. -/
def damperRuns (m : Memory) (f : Fire) (d : MatDesc) (i : Nat) (input : Bool) : List Access :=
  match damperAt m f d i with
  | none => []
  | some x =>
    let phase := phaseKnown m f (i + d.damper) x
    let o : From := { desc := i + d.damper, core := f.core, kinds := [2, 3] }
    let run (buf a n : Nat) : Access :=
      let w := { o.write buf a n with flags := 3 }
      if phase = 2 then w.both else w
    if phase = 0 || (input && !(f.rank == 0)) then []
    else if input then rowRuns (run x.xsBuf) x.xsOfs (ceilDiv d.t 32) (storeBytes d) (storeBytes d)
    else rowRuns (run x.ycBuf) x.ycOfs (ceilDiv d.t 32 * ceilDiv d.n 64) 8192 8192

/-! ## Roll engine and reduction unit (R169, R170, R173, R174, R180, R237, R239) -/

/-- A row vector (R170). -/
def vectorRuns (m : Memory) (f : Fire) (i n : Nat) : List Access :=
  (namedStream m f i).flatMap fun x => readStream m f [] x.1 1 ((n - 1) / max x.2.vdiv 1 + 1)

/-- The streams of a chain; the kinds of their buffers are check 0x000C's (R169, R204). -/
def chainRuns (m : Memory) (f : Fire) (i : Nat) : List Access :=
  let d := chainAt m f i
  let input (k : Nat) : List Access :=
    (namedStream m f k).flatMap fun x => if x.2.window then [] else readStream m f [] k d.rows d.cols
  let count := if d.cmode = 1 then writeStream m f [] d.count 1 d.rows
    else if d.cmode = 2 then readStream m f [] d.count 1 d.rows else []
  input d.inA ++ input d.inB ++ input d.inC ++ vectorRuns m f d.vec0 d.rows ++ vectorRuns m f d.vec1 d.rows
    ++ writeStream m f [] d.outP d.rows d.cols ++ writeStream m f [] d.outQ d.rows d.cols ++ count

/-- The enabled outputs of a REDUCE (R180, R181, R183). -/
def reduceOutputs (d : RedDesc) : Nat :=
  if d.smax then 2
  else ([d.sum || d.norm, d.sumsq || d.norm, d.norm, d.maxEn, d.minEn, d.argmax, d.count].filter id).length

def statRuns (m : Memory) (f : Fire) (i : Nat) : List Access :=
  let d := RedDesc.ofDesc (descOf m f i)
  let c := chainAt m f d.chainDesc
  let v := (keptOf d c.rows c.cols).length
  let o : From := { desc := i, core := f.core, kinds := [0] }
  let pivots := if d.pivot = 2 then readStream m f [0, 1] d.pivotDesc 1 v else []
  rowRuns (o.write d.outBuf) d.outOfs (reduceOutputs d) d.outStride (4 * v)
    ++ (if d.merge && !(f.rank == 0) then pivots.map Access.only else pivots)

def stepRuns (m : Memory) (f : Fire) (i : Nat) : List Access :=
  let x := StepDesc.ofDesc (descOf m f i)
  let o : From := { desc := i, core := f.core, kinds := [2, 3] }
  let slot (n : Nat) : List Access :=
    (namedStream m f x.h).flatMap fun h =>
      let r := streamRuns { desc := h.1, core := f.core, kinds := [0, 1] } From.read (h.2.moved (n * x.hStride) 0) x.rows x.cols
      let w := streamRuns { desc := h.1, core := f.core, kinds := [0] } From.write (h.2.moved (n * x.hStride) 0) x.rows x.cols
      r ++ (if x.histEn then w else [])
  o.read x.coefBuf (x.coefOfs + 64 * x.idx) 64 :: (List.range 4).flatMap slot
    ++ readStream m f [0, 1] x.x x.rows x.cols ++ readStream m f [0, 1] x.ec x.rows x.cols
    ++ readStream m f [0, 1] x.eu x.rows x.cols ++ writeStream m f [0] x.xout x.rows x.cols

/-! ## Attention and the scatter unit (R207, R208, R213 to R218, R221 to R226) -/

/-- Bytes of the mask row that a core's valid keys take. -/
def maskRuns (m : Memory) (f : Fire) (a : AttnDesc) : List Access :=
  let n := validKeys a f
  let lo := groupRank a f * a.m / 8
  let hi := (groupRank a f * a.m + n + 7) / 8
  if a.bitmask && decide (0 < n) then
    (namedStream m f a.mask).flatMap fun x =>
      rowRuns ({ desc := x.1, core := f.core, kinds := [0, 1] : From }.read x.2.buf) (x.2.ofs + lo) a.t x.2.rowStride (hi - lo)
  else []

/-- Key or value rows of a core's slice that lie in some rows of its chain tiles. -/
def sliceRuns (m : Memory) (f : Fire) (a : AttnDesc) (i : Nat) (rows : List Nat) : List Access :=
  (namedStream m f i).flatMap fun x => rows.flatMap fun r =>
    streamRuns { desc := x.1, core := f.core, kinds := [0, 1] } From.read
      (x.2.moved (r * x.2.rowStride) (r * x.2.sstride)) 1 a.d

def attnRuns (m : Memory) (f : Fire) (a : AttnDesc) (mu : Nat) : List Access :=
  let n := List.range (validKeys a f)
  if 2 ≤ mu then sliceRuns m f a a.v n ++ maskRuns m f a
  else
    sliceRuns m f a a.k (n.filter fun r => r % 128 / 64 == mu)
      ++ (if a.pass1 && mu == 0 then
            maskRuns m f a ++ (namedStream m f a.stat).map fun x =>
              ({ desc := x.1, core := f.core, kinds := [] : From }).read x.2.buf (x.2.ofs + headOf a f * x.2.rowStride) (4 * a.t)
          else [])

def queryRuns (m : Memory) (f : Fire) (a : AttnDesc) : List Access :=
  (namedStream m f a.q).flatMap fun x =>
    streamRuns { desc := x.1, core := f.core, kinds := [0, 1] } From.read (queryStream m f a) a.d a.t

def attnDrainRuns (s : State) (f : Fire) (lay : Nat) (a : AttnDesc) : List Access :=
  let m := s.mem
  if a.pass1 then
    if a.pAlongM then writeStream m f [0] a.p a.t (validKeys a f) else writeStream m f [0] a.p (validKeys a f) a.t
  else if groupRank a f = a.g - 1 then
    ((namedStream m f a.o).flatMap fun x => (multicastCores s f lay a.oMcast a.mcastSection).flatMap fun c =>
        streamRuns { desc := x.1, core := c, kinds := [0] } From.write (x.2.moved (headOf a f * a.oHead) 0) a.d a.t)
      ++ (if a.statEn then (namedStream m f a.stat).map fun x =>
            ({ desc := x.1, core := f.core, kinds := [] : From }).write x.2.buf (x.2.ofs + headOf a f * x.2.rowStride) (5 * a.t)
          else [])
  else []

/-- The places of a position in the owner's slice and in the cache image (R222); no owner reads as buffer 4,096, which no
score has. -/
def positionRuns (s : State) (f : Fire) (lay i : Nat) (x : ScatterDesc) (p : Nat) : List Access :=
  let n := p - x.keyPos0
  let row := x.kvFmt.rowBytes x.d
  let sc := if x.kvFmt.scalable then x.d / 32 else 0
  let img : From := { desc := i, core := f.core, kinds := [2, 3] }
  (if x.scrEn then
     match (layoutSection s f.score lay x.destSection)[x.destRank0 + n / max x.m 1]? with
     | none => [img.write 4096 0 1]
     | some c => (namedStream s.mem f x.dest).flatMap fun d =>
         streamRuns { desc := d.1, core := c, kinds := [0] } From.write
           (d.2.moved (n % max x.m 1 * d.2.rowStride) (n % max x.m 1 * d.2.sstride)) 1 x.d
   else [])
  ++ (if x.memEn then [img.write x.imgBuf (x.imgOfs + n * row) row, img.write x.imgBuf (x.imgSofs + n * sc) sc] else [])

/-- The positions of a scatter's window that it may write. -/
def windowPositions (x : ScatterDesc) : List Nat :=
  rangeFrom (max x.winLo x.keyPos0) (x.winHi - max x.winLo x.keyPos0)

/-- The positions that a scatter writes as far as its descriptor tells: with a position list, any of its window. -/
def scatterPositions (x : ScatterDesc) : List Nat :=
  if x.posList then windowPositions x
  else (windowPositions x).filter fun p => decide (x.posBase ≤ p) && decide (p < x.posBase + x.rows)

def scatterRuns (s : State) (f : Fire) (lay i : Nat) : List Access :=
  let x := ScatterDesc.ofDesc (descOf s.mem f i)
  let (n, k) := if x.srcT then (x.d, x.rows) else (x.rows, x.d)
  readStream s.mem f [0] x.src n k
    ++ (if x.posList then readStream s.mem f [] x.pos 1 x.rows else [])
    ++ (scatterPositions x).flatMap (positionRuns s f lay i x)
    ++ ((windowPositions x).flatMap (positionRuns s f lay i x)).map Access.only

/-! ## DMA, link unit and codec (R272, R273, R306, R308, R320, R351, R361, R363, R372) -/

def dmaRuns (s : State) (f : Fire) (lay i : Nat) (copy chip : Bool) : List Access :=
  let d := DmaDesc.ofDesc (descOf s.mem f i)
  let at_ (c : Nat) : From := { desc := i, core := c, kinds := [] }
  let cores := if chip && d.mcast then layoutSection s f.score lay d.mcastSection else [f.core]
  (if copy then d.rowList.map fun r => (at_ f.core).read d.srcBuf (d.srcOfs + r.1) d.bytes else [])
    ++ cores.flatMap fun c => d.rowList.map fun r => (at_ c).write d.dstBuf (d.dstOfs + r.2) d.bytes

/-- Members of the group that a score's group index names; one while it is not defined (check 0x0012 then fails). -/
def groupMembers (s : State) (a i : Nat) : Nat :=
  match s.group ((scGroups s.mem a).getD i 0) with
  | some g => g.members.length
  | none => 1

def collRuns (s : State) (f : Fire) (i : Nat) : List Access :=
  let x := descOf s.mem f i
  let o : From := { desc := i, core := f.core, kinds := [2, 3] }
  let n := fld x 407 376
  let bytes (c : Nat) : Nat := (Fmt.ofField c).rowBytes n
  let (src, dst) := match fld x 31 28 with
    | 0 | 1 => (bytes (fld x 25 22), bytes (fld x 21 18))
    | 2 => (n, n * groupMembers s f.score (fld x 16 13))
    | 3 => (n, n)
    | 5 => let w := if bitAt x 17 then 8 else 4; (n * w, n * w)
    | _ => (0, 0)
  if src = 0 then []
  else [o.read (fld x 511 500) (fld x 499 460) src, o.write (fld x 459 448) (fld x 447 408) dst]

def linkRuns (s : State) (f : Fire) (lay i op : Nat) : List Access :=
  let x := descOf s.mem f i
  match op with
  | 0x10 =>
    let d := SendDesc.ofDesc x
    rowRuns ({ desc := i, core := f.core, kinds := [] : From }.read d.srcBuf) d.srcOfs d.rows d.srcRow d.bytes
  | 0x11 =>
    let cores := if bitAt x 27 then layoutSection s f.score lay (fld x 26 25) else [f.core]
    cores.map fun c => { desc := i, core := c, kinds := [] : From }.write (fld x 511 500) (fld x 499 460) (fld x 459 420)
  | _ => collRuns s f i

def codecRuns (m : Memory) (f : Fire) (i op : Nat) : List Access :=
  let o : From := { desc := i, core := f.core, kinds := [2, 3] }
  if op = 0x10 then
    let d := EncDesc.ofDesc (descOf m f i)
    ((List.range 3).flatMap fun p => rowRuns (o.read d.inBuf) (d.inOfs + p * d.planeStride) d.h d.rowStride (2 * d.w))
      ++ [o.write d.outBuf d.outOfs d.outSize, o.write d.repBuf d.repOfs 64]
  else
    let d := DecDesc.ofDesc (descOf m f i)
    [o.read d.inBuf d.inOfs d.inBytes, o.write d.outBuf d.outOfs d.outSize, o.write d.repBuf d.repOfs 64]

/-! ## Every stroke -/

/-- The buffer accesses of a firing. -/
def accessesOf (s : State) (x : Firing) : List Access :=
  let m := s.mem
  let f := x.fire
  let lay := x.place.layout
  let i := x.word.desc
  let d := matAt m f i
  let a := attnAt m f i
  let o : From := { desc := i, core := f.core, kinds := [0, 1] }
  let problems : List (Nat × MatDesc) := (strokeDescs x.stave x.word).map fun k => (k, matAt m f k)
  if x.word.op = 1 then []
  else
    match x.stave, x.word.op with
    | 1, 0x10 | 2, 0x10 | 3, 0x10 | 4, 0x10 => malletRuns m f o d (x.stave - 1)
    | 1, 0x11 | 2, 0x11 | 3, 0x11 | 4, 0x11 =>
      problems.flatMap fun p => weightRuns { o with desc := p.1 } p.2 (List.range p.2.n)
    | 1, 0x12 | 2, 0x12 | 3, 0x12 | 4, 0x12 => attnRuns m f a (x.stave - 1)
    | 5, 0x10 => chainRuns m f i
    | 5, 0x11 => stepRuns m f i
    | 6, 0x10 => statRuns m f i
    | 7, 0x10 => activationRuns m f o d ++ damperRuns m f d i true
    | 7, 0x11 => problems.flatMap fun p => activationRuns m f { o with desc := p.1 } p.2
    | 7, 0x12 =>
      let w := WinDesc.ofDesc (descOf m f i)
      let chain := descOf m f (StrokeWord.ofWord (scStave m f.score x.place.bar 5)).desc
      (namedStream m f (fld chain 207 192)).flatMap fun y =>
        pixelRuns { o with desc := y.1 } w (0, w.c) y.2.fmt y.2.buf y.2.ofs (if y.2.scaled then some (y.2.sbuf, y.2.sofs) else none)
          (windowPixels w (0, w.c) (w.images * w.oh * w.ow))
    | 7, 0x13 => queryRuns m f a
    | 8, 0x10 => drainRuns s f lay i d ++ damperRuns m f d i false
    | 8, 0x11 => problems.flatMap fun p => drainRuns s f lay p.1 p.2
    | 8, 0x12 => attnDrainRuns s f lay a
    | 9, _ => scatterRuns s f lay i
    | 10, op => dmaRuns s f lay i (op == 0x10) false
    | 12, op => dmaRuns s f lay i (op == 0x10) true
    | 13, op => linkRuns s f lay i op
    | 14, 0x10 | 14, 0x11 => codecRuns m f i x.word.op
    | _, _ => []

/-! ## Where an access falls -/

/-- A run of bytes: of one core's scratch, of attached memory, or, while the job's scalars are not known, above one scalar. -/
structure Run where
  space : Nat × Nat
  start : Nat
  len : Nat
  deriving DecidableEq, Repr

/-- Where an access falls. With no parameter block, addresses above different job scalars are in spaces of their own. -/
def Access.run (m : Memory) (a : Nat) (params : Option (List Byte)) (x : Access) : Run :=
  let b := scBuffer m a x.buf
  match b.kind, params with
  | 0, _ | 1, _ => { space := (0, x.core), start := b.base + x.ofs, len := x.len }
  | 2, _ => { space := (1, 0), start := b.base + x.ofs, len := x.len }
  | _, some ps => { space := (1, 0), start := jobScalar ps b.scalar + b.base + x.ofs, len := x.len }
  | _, none => { space := (2, b.scalar), start := b.base + x.ofs, len := x.len }

def Run.meets (x y : Run) : Bool := x.space == y.space && overlaps x.start x.len y.start y.len

/-- The parts of a run that another leaves. -/
def Run.minus (x y : Run) : List Run :=
  if x.meets y then
    [{ x with len := y.start - x.start },
     { x with start := y.start + y.len, len := x.start + x.len - (y.start + y.len) }].filter fun r => decide (0 < r.len)
  else [x]

/-- The parts of a run that no run of a list covers. -/
def Run.minusAll (x : Run) (l : List Run) : List Run := l.foldl (fun acc y => acc.flatMap fun r => r.minus y) [x]

/-- The runs that a firing reads, and those it writes; `known`: its parameters are the job's. -/
def readRuns (s : State) (known : Bool) (x : Firing) : List Run :=
  ((accessesOf s x).filter fun y => y.reads && decide (0 < y.len)).map
    (Access.run s.mem x.fire.score (if known then some x.fire.params else none))

def writeRuns (s : State) (known : Bool) (x : Firing) : List Run :=
  ((accessesOf s x).filter fun y => y.writes && decide (0 < y.len)).map
    (Access.run s.mem x.fire.score (if known then some x.fire.params else none))

end Sys2Proof.Machine
end

