-- ==== Sys2Proof/Machine/Ranges.lean ====
section
/-! DEFINITION. The verify report (R101), and the checks on buffers and on every access of every descriptor (R85 to R88, R100:
checks 0x0009, 0x000A and 0x0021). -/
namespace Sys2Proof.Machine

/-- A failed check (R101). -/
structure VerifyReport where
  code : Nat
  stave : Nat
  entry : Nat
  bar : Nat
  desc : Nat
  core : Nat
  buffer : Nat
  detailA : Nat
  detailB : Nat
  deriving DecidableEq, Repr

/-- A check that fails at no place of its own. -/
def VerifyReport.of (code : Nat) : VerifyReport :=
  { code := code, stave := 0xFF, entry := 0xFF, bar := noDesc, desc := noDesc, core := 0xFFFF, buffer := 0xFFFF, detailA := 0,
    detailB := 0 }

/-- The 44 bytes of the report. -/
def VerifyReport.number (r : VerifyReport) : Nat :=
  packFields [(2, r.code), (1, r.stave), (1, r.entry), (4, r.bar), (4, r.desc), (2, r.core), (2, r.buffer), (8, r.detailA),
              (8, r.detailB)]

/-- The first report of a list of checks. -/
def firstReport (l : List (Option VerifyReport)) : Option VerifyReport := l.findSome? id

/-! ## Buffers (check 0x0009) -/

/-- A range of attached memory that a score may declare: mapped, and clear of loaded score images, among which the image being loaded does
not count: the spec does not say whether it does (DESIGN CHOICE, log 89). -/
def memoryFree (s : State) (a n : Nat) : Bool :=
  mapped s a n && !hitsAny ((s.scores.filterMap id).map fun x => (x.addr, x.size)) a n

/-- The first address of a range that no active channel populates. -/
def firstUnmapped (s : State) : Nat → Nat → Nat → Option Nat
  | 0, a, n => if n = 0 then none else some a
  | k + 1, a, n =>
    if n = 0 then none
    else
      match chanOf a with
      | none => some a
      | some ch =>
        let c := s.chan ch
        let stop := chanBase ch + c.bytes
        if c.state == .active && decide (a < stop) then
          if a + n ≤ stop then none
          else if stop = chanBase ch + chanRange ch then firstUnmapped s k stop (a + n - stop) else some stop
        else some a

/-- The first address of a range of attached memory that a score may not declare; the range's own where only its alignment is wrong
(R101). -/
def firstForbidden (s : State) (a n : Nat) : Nat :=
  let taken := ((s.scores.filterMap id).filter fun x => overlaps x.addr x.size a n).map fun x => max a x.addr
  (((firstUnmapped s 130 a n).toList ++ taken).min?).getD a

/-- A scratch buffer lies 64-byte aligned in the working region (kind 0) or the resident region (kind 1) of a core. -/
def scratchFits (m : Memory) (a : Nat) (b : BufEntry) (c : Nat) : Bool :=
  let bound := scBoundary m a c * 65536
  aligned b.base 64 &&
    (if b.kind = 0 then decide (bound ≤ b.base) && decide (b.base + b.size ≤ scratchSize) else decide (b.base + b.size ≤ bound))

/-- The first address of a scratch buffer outside its region of a core; the buffer's own where only its alignment is wrong (R101). -/
def firstOutside (m : Memory) (a : Nat) (b : BufEntry) (c : Nat) : Nat :=
  let bound := scBoundary m a c * 65536
  if b.kind = 0 then (if b.base < bound || b.base + b.size ≤ scratchSize then b.base else max b.base scratchSize)
  else if b.base + b.size ≤ bound then b.base else max b.base bound

/-- A buffer entry's kind, flags and scalar are as R85 and R86 give them. -/
def bufferFormed (b : BufEntry) : Bool :=
  decide (b.kind ≤ 3) && decide (b.flags < 16) && (if b.kind = 3 then decide (b.scalar < 32) else b.scalar == 0)
    && !(b.kind == 1 && natBit b.flags 1)

/-- Buffer `i` of kind 0, 1 or 2 against the current map (R100). -/
def bufferFault (s : State) (a i : Nat) : Option VerifyReport :=
  let b := scBuffer s.mem a i
  let bad : VerifyReport := { VerifyReport.of 0x0009 with buffer := i, detailA := b.base }
  if !bufferFormed b then some bad
  else
    match b.kind with
    | 0 | 1 => ((scoreCores s a).find? fun c => !scratchFits s.mem a b c).map fun c =>
        { bad with core := c, detailA := firstOutside s.mem a b c }
    | 2 => if aligned b.base 256 && memoryFree s b.base b.size then none else some { bad with detailA := firstForbidden s b.base b.size }
    | _ => none

/-- Check 0x0009. -/
def buffersCheck (s : State) (a : Nat) : Option VerifyReport :=
  (List.range (scBufferCount s.mem a)).findSome? (bufferFault s a)

/-- A kind 3 buffer with the scalars of a job (check 0x0021). -/
def scalarBufferFault (s : State) (a : Nat) (params : List Byte) (i : Nat) : Option VerifyReport :=
  let b := scBuffer s.mem a i
  let base := jobScalar params b.scalar + b.base
  if b.kind = 3 && !(aligned base 256 && memoryFree s base b.size) then
    some { VerifyReport.of 0x0021 with buffer := i, detailA := firstForbidden s base b.size }
  else none

/-! ## Accesses (check 0x000A, and with a job's scalars 0x0021) -/

/-- The loop counters as a report packs them: L0 in the least significant 16 bits (R101). -/
def packCounters (p : Place) : Nat := packFields (p.counters.map fun n => (2, n % 65536))

/-- A report of a check that fails at a firing. -/
def Firing.report (x : Firing) (code entry desc : Nat) : VerifyReport :=
  { VerifyReport.of code with
    stave := x.stave, entry := entry, bar := x.place.bar, desc := desc, core := unitCore x.unit, detailB := packCounters x.place }

/-- An access outside its declared buffer, without a flag that it needs, or in a buffer of a kind that it does not allow. -/
def accessBad (m : Memory) (a : Nat) (x : Access) : Bool :=
  let b := scBuffer m a x.buf
  !(decide (x.buf < scBufferCount m a) && decide (x.ofs + x.len ≤ b.size) && b.flags &&& x.flags == x.flags
      && (x.kinds.isEmpty || x.kinds.contains b.kind))

/-- A firing as other values of what the load does not know make it: the sample scalars, and one more turn of each loop that a
scalar counts. None where it depends on neither. -/
def Firing.twins (m : Memory) (x : Firing) : List Firing :=
  let a := x.fire.score
  let more (l : LoopLevel) : LoopLevel :=
    if l.isOpen && (scCtl m a l.beginBar).countSrc then { l with counter := l.counter + 1 } else l
  let turned : Place := { x.place with loops := x.place.loops.map more }
  (if scalarBound m a x then sampleScalars.map fun ps => { x with fire := { x.fire with params := ps } } else [])
    ++ (if loopBound m a x then [{ x with place := turned, fire := { x.fire with loops := turned.counters } }] else [])

/-- The affine entries of a descriptor that a firing reads are valid and fit (R88); of those whose value its twins change, the
job's start tells. -/
def affineFault (m : Memory) (x : Firing) (entry : Nat) (twins : List Firing) (r : Nat × Nat) : Option VerifyReport :=
  let stored (e : Nat) : Nat := bitField (scStoredDesc m x.fire.score r.1) (m.readNat e 2) (m.readNat (e + 2) 1)
  let value (y : Firing) (e : Nat) : Int := affineValue m e y.fire.loops y.fire.rank y.fire.params (stored e)
  let es := (affineEntries m x.fire.score r.1).filter fun e => twins.all fun y => value y e == value x e
  if !decide (r.1 < scDescCount m x.fire.score) then none
  else if affineValid m x.fire.score r.1 && es.all (affineFits m x.fire r.2 r.1) then none
  else some (x.report 0x000A entry r.1)

/-- The accesses of a firing that its twins make too. -/
def fixedAccesses (s : State) (twins : List Firing) (x : Firing) : List Access :=
  (accessesOf s x).filter fun y => twins.all fun z => (accessesOf s z).contains y

/-- The first access of a firing that breaks check 0x000A, of those that its twins make too. A stroke that names a descriptor which is not
there has no accesses to check: check 0x000C reports it (log 71). -/
def firingFault (s : State) (entry : Nat) (twins : List Firing) (x : Firing) : Option VerifyReport :=
  let a := x.fire.score
  match (usedDescs s.mem x.fire x.stave x.word).findSome? (affineFault s.mem x entry twins) with
  | some r => some r
  | none => if !refsOk s.mem x then none else ((fixedAccesses s twins x).find? (accessBad s.mem a)).map fun y =>
      let b := scBuffer s.mem a y.buf
      let base := b.base + (if b.kind = 3 then jobScalar x.fire.params b.scalar else 0)
      { x.report 0x000A entry y.desc with
        buffer := y.buf, detailA := base + (if y.ofs + y.len ≤ b.size then y.ofs else max y.ofs b.size) }

/-- Check 0x000A over the entries of a score at load, where the accesses that a job scalar moves, in itself or as a loop count, are
left for the job's start; or over the entry of a job with its scalars (check 0x0021). -/
def accessFault (s : State) (a : Nat) (entries : List Nat) (params : Option (List Byte)) : Option VerifyReport :=
  entries.findSome? fun e => (entryWalks s.mem a e (2 ^ 24) params).findSome? fun w =>
    (firings s a (params.getD []) w).findSome? fun x => firingFault s e (if params.isSome then [] else x.twins s.mem) x

/-- Firings that stand for a stored descriptor which no stroke on a walk reads: on each stave that takes its kind, at the score's first
core, as rank 0, outside every loop. -/
def idleFirings (s : State) (a i : Nat) : List Firing :=
  let place : Place := { bar := 0, layout := 0, loops := List.replicate 4 LoopLevel.closed, kernel := 0 }
  let core := (scoreCores s a).headD 0
  (rangeFrom 1 14).flatMap fun v => ([0x10, 0x11, 0x12, 0x13].filter fun op =>
      strokeKind v op == some (fld (scStoredDesc s.mem a i) 63 56) && !(v == 7 && op == 0x12)).map fun op =>
    { place := place, unit := unitAt core v, word := { op := op, wait := 0, signal := 0, desc := i, imm := 1 },
      fire := { score := a, core := core, rank := 0, loops := place.counters, params := [] } }

/-- Check 0x000A over a stored descriptor: its affine entries are valid, and where no stroke on a walk reads it, so are the accesses it
would make (DEDUCED, log 71). -/
def storedRange (s : State) (a : Nat) (used : List Nat) (i : Nat) : Option VerifyReport :=
  let r : VerifyReport := { VerifyReport.of 0x000A with desc := i }
  if !affineValid s.mem a i then some r
  else if used.contains i then none
  else (idleFirings s a i).findSome? fun x => (firingFault s 0xFF (x.twins s.mem) x).map fun y =>
    { r with buffer := y.buffer, detailA := y.detailA }

/-- Check 0x000A at load: the accesses of every stroke on a walk, and every stored descriptor. -/
def rangesCheck (s : State) (a : Nat) : Option VerifyReport :=
  let es := List.range (scEntryCount s.mem a)
  let used := es.flatMap fun e => (entryWalks s.mem a e (2 ^ 24) none).flatMap fun w =>
    (firings s a [] w).flatMap fun x => (usedDescs s.mem x.fire x.stave x.word).map (·.1)
  (accessFault s a es none).or ((List.range (scDescCount s.mem a)).findSome? (storedRange s a used))

end Sys2Proof.Machine
end

