-- ==== Sys2Proof/Machine/Verify.lean ====
section
/-! DEFINITION. The loader's checks on the image as it stands (R55 to R74, R81, R87, R97, R100): 0x0001 to 0x0007 and 0x0011. -/
namespace Sys2Proof.Machine

/-! ## 0x0001 IMAGE (R55 to R58, R85, R87, R98) -/

/-- The header and the regions, as offset and length. -/
def scRegions (m : Memory) (a : Nat) : List (Nat × Nat) :=
  [(0, 256), (scEntryOfs m a, 32 * scEntryCount m a), (scLayoutOfs m a, 128 * scLayoutCount m a), (scCuemapOfs m a, 1536),
   (scBufferOfs m a, 32 * scBufferCount m a), (scGroupOfs m a, 8 * scGroupCount m a), (scResidentOfs m a, 576),
   (scAffineOfs m a, 32 * scAffineCount m a), (scDescOfs m a, 64 * scDescCount m a),
   (scBodyOfs m a, 4096 * ceilDiv (scBarCount m a) 32)]

/-- Reserved bytes of the header and of the entry, group, buffer and affine tables, as offset and length. -/
def scReserved (m : Memory) (a : Nat) : List (Nat × Nat) :=
  [(6, 2), (25, 7), (112, 144)]
    ++ (List.range (scEntryCount m a)).map (fun i => (scEntryOfs m a + 32 * i + 22, 10))
    ++ (List.range (scGroupCount m a)).map (fun i => (scGroupOfs m a + 8 * i + 4, 4))
    ++ (List.range (scBufferCount m a)).flatMap (fun i => [(scBufferOfs m a + 32 * i + 3, 5), (scBufferOfs m a + 32 * i + 24, 8)])
    ++ (List.range (scAffineCount m a)).map (fun i => (scAffineOfs m a + 32 * i + 28, 4))

def imageCheck (m : Memory) (a size : Nat) : Option VerifyReport :=
  let rs := scRegions m a
  let ok := decide (m.readNat a 4 = 0x43534D52) && decide (m.readNat (a + 4) 1 = 1) && decide (scImageSize m a = size)
    && rs.all (fun r => aligned r.1 256 && decide (r.1 + r.2 ≤ size))
    && rs.zipIdx.all (fun x => (rs.drop (x.2 + 1)).all fun y => !overlaps x.1.1 x.1.2 y.1 y.2)
    && (scReserved m a).all fun r => m.readNat (a + r.1) r.2 == 0
  if ok then none else some (VerifyReport.of 0x0001)

/-! ## 0x0002 EDITION (R49) and 0x0003 LIMITS (R56, R97) -/

/-- The contract editions that the capability record lists (R1). -/
def editions : List Nat := [1]

/-- Check 0x0002, the edition in `DETAIL_A`: of checks 0x0002, 0x0003, 0x0005, 0x0007 and 0x0011 R101 does not say what that field holds
(DESIGN CHOICE, log 104). -/
def editionCheck (m : Memory) (a : Nat) : Option VerifyReport :=
  let e := m.readNat (a + 5) 1
  if editions.contains e then none else some { VerifyReport.of 0x0002 with detailA := e }

/-- Check 0x0003, the count that breaks its limit in `DETAIL_A` where an entry or a descriptor holds it (DESIGN CHOICE, log 104). -/
def limitsCheck (m : Memory) (a : Nat) : Option VerifyReport :=
  let between (lo hi n : Nat) : Bool := decide (lo ≤ n) && decide (n ≤ hi)
  let counts := between 1 4194304 (scBarCount m a) && between 0 65536 (scDescCount m a) && between 0 65536 (scAffineCount m a)
    && between 0 4096 (scBufferCount m a) && between 1 64 (scEntryCount m a) && between 1 8 (scLayoutCount m a)
    && between 0 16 (scGroupCount m a)
  let paramsBad (e : Nat) : Bool := decide (256 < scParamBytes m a e) || !aligned (scParamBytes m a e) 8
  if !counts then some (VerifyReport.of 0x0003)
  else
    match (List.range (scEntryCount m a)).find? paramsBad with
    | some e => some { VerifyReport.of 0x0003 with entry := e, detailA := scParamBytes m a e }
    | none =>
      ((List.range (scDescCount m a)).find? fun i => decide (16 < fld (scStoredDesc m a i) 52 48)).map fun i =>
        { VerifyReport.of 0x0003 with desc := i, detailA := fld (scStoredDesc m a i) 52 48 }

/-! ## 0x0004 ENCODING (R59, R61 to R63, R65, R66, R84) -/

/-- A control stroke with a valid opcode and nothing where its opcode has no field. -/
def ctlFormed (w : Nat) : Bool :=
  let c := CtlWord.ofWord w
  let loop := c.op == 2 || c.op == 3
  decide (1 ≤ c.op) && decide (c.op ≤ 6) && w / 2 ^ 50 % 64 == 0 && w / 2 ^ 44 % 16 == 0 && w / 2 ^ 29 % 1024 == 0
    && (loop || c.level == 0) && (c.op == 2 || !c.countSrc) && (c.countSrc || c.scalar == 0)
    && (c.op == 2 || (c.op == 5 && decide (c.imm < 8)) || c.imm == 0)

/-- A stroke that its stave accepts: a rest is all zero, `CUE` and `NOTIFY` name no descriptor, every other stroke names
descriptors in the store of its kind, and `IMM` is 0 where it is unused. -/
def strokeFormed (m : Memory) (a stave w : Nat) : Bool :=
  let x := StrokeWord.ofWord w
  if w = 0 then true
  else
    match strokeKind stave x.op with
    | none => false
    | some 0 => x.desc == 0 && (!(x.op == 1) || x.imm == 0)
    | some k =>
      (if k = 0x11 then decide (1 ≤ x.imm) && decide (x.imm ≤ 8) else x.imm == 0)
        && (strokeDescs stave x).all fun i => hasKind m a (i, k)

/-- Reserved bits of a descriptor by its kind, as high and low bit (R84, R137 to R139, R161, R199 to R203, R228, R229, R253,
R254, R271, R339 to R341, R370, R371). -/
def reservedBits : Nat → List (Nat × Nat)
  | 0x10 => [(15, 4)]
  | 0x11 => [(7, 4)]
  | 0x12 => [(16, 0), (511, 208)]
  | 0x13 => [(90, 64)]
  | 0x14 => [(21, 16), (71, 64)]
  | 0x15 => [(13, 0), (315, 64)]
  | 0x16 => [(23, 0), (375, 64)]
  | 0x17 => [(31, 2), (511, 352)]
  | 0x18 => [(31, 0), (511, 320)]
  | 0x19 => [(16, 0), (143, 64)]
  | 0x1A => [(21, 0), (219, 64)]
  | 0x1B => [(26, 0), (267, 64)]
  | 0x1C => [(31, 0), (303, 64)]
  | 0x1D => [(27, 0), (151, 64)]
  | 0x1E => [(26, 0), (235, 64), (459, 456), (497, 496)]
  | 0x1F => [(24, 0), (379, 64)]
  | 0x20 => [(12, 0), (335, 64)]
  | 0x21 => [(18, 0), (219, 64)]
  | 0x22 => [(24, 0), (187, 64)]
  | _ => []

def descFormed (d : Desc) : Bool := ((55, 53) :: reservedBits (fld d 63 56)).all fun r => fld d r.1 r.2 == 0

/-- The word that a position past the last bar must hold: rests, and `BAR` with a zero section mask (R59). -/
def fillerWord (stave : Nat) : Nat := if stave = 0 then 2 ^ 56 else 0

/-- Check 0x0004: strokes by bar and stave, then the stored descriptors. Which of several failures of one check is reported the spec does
not say (DESIGN CHOICE, log 105). -/
def encodingCheck (m : Memory) (a : Nat) : Option VerifyReport :=
  let n := scBarCount m a
  let bad (bar v : Nat) : Bool :=
    let w := scStave m a bar v
    if n ≤ bar then !(w == fillerWord v) else if v = 0 then !ctlFormed w else !strokeFormed m a v w
  let stroke := (List.range (ceilDiv n 32 * 32)).findSome? fun bar =>
    ((List.range 16).find? (bad bar)).map fun v => { VerifyReport.of 0x0004 with stave := v, bar := bar }
  match stroke with
  | some r => some r
  | none =>
    ((List.range (scDescCount m a)).find? fun i => !descFormed (scStoredDesc m a i)).map fun i =>
      { VerifyReport.of 0x0004 with desc := i }

/-! ## 0x0005 SECTION_MAP (R6, R57, R73, R74) -/

/-- The sections of a layout are disjoint and hold enabled cores alone; the answer is a core that breaks this. -/
def layoutFault (v : Variant) (m : Memory) (a x : Nat) : Option Nat :=
  (List.range 256).find? fun c =>
    let k := ((List.range 4).filter fun sec => natBit (scSection m a x sec) c).length
    decide (1 < k) || (decide (0 < k) && !coreEnabled v c)

def isFirstBar (m : Memory) (a bar : Nat) : Bool := (List.range (scEntryCount m a)).any fun e => scFirstBar m a e == bar

/-- Check 0x0005: layouts, then bars, entries and boundaries (DESIGN CHOICE, log 105); the layout's index in `DETAIL_A` (DESIGN CHOICE,
log 104). -/
def sectionsCheck (v : Variant) (m : Memory) (a : Nat) : Option VerifyReport :=
  let r := VerifyReport.of 0x0005
  let layouts := (List.range (scLayoutCount m a)).findSome? fun x => (layoutFault v m a x).map fun c => { r with core := c, detailA := x }
  let badBar (bar : Nat) : Bool :=
    let c := scCtl m a bar
    c.op == 5 && (decide (scLayoutCount m a ≤ c.imm) ||
      !(isFirstBar m a bar || (decide (0 < bar) && (scCtl m a (bar - 1)).op == 4)))
  let badEntry (e : Nat) : Bool := !(decide (scFirstBar m a e < scBarCount m a) && (scCtl m a (scFirstBar m a e)).op == 5)
  firstReport
    [layouts,
     ((List.range (scBarCount m a)).find? badBar).map fun b => { r with stave := 0, bar := b },
     ((List.range (scEntryCount m a)).find? badEntry).map fun e => { r with entry := e, bar := scFirstBar m a e },
     ((List.range 256).find? fun c => !coreEnabled v c && !(scBoundary m a c == 0)).map fun c => { r with core := c }]

/-! ## 0x0006 LOOPS (R69, R71, R72) -/

/-- The first bar that breaks the nesting of loops, the LOOP_BEGIN bars open before it given, innermost first. -/
def nestFault (m : Memory) (a : Nat) : Nat → Nat → List Nat → Option Nat
  | 0, bar, open_ => if open_.isEmpty then none else some (bar - 1)
  | n + 1, bar, open_ =>
    let c := scCtl m a bar
    if !open_.isEmpty && isFirstBar m a bar then some bar
    else
      match c.op, open_ with
      | 2, _ => if c.level = open_.length && decide (open_.length < 4) then nestFault m a n (bar + 1) (bar :: open_) else some bar
      | 3, [] => some bar
      | 3, b :: rest => if c.level = rest.length && decide (b < bar) then nestFault m a n (bar + 1) rest else some bar
      | 6, _ => if open_.isEmpty then nestFault m a n (bar + 1) open_ else some bar
      | _, _ => nestFault m a n (bar + 1) open_

/-- Job scalars that an entry's loops and the affine entries of its strokes' descriptors name. -/
def entryScalars (m : Memory) (a e : Nat) : List Nat :=
  let bars := entryBars m a e
  let f : Fire := { score := a, core := 0, rank := 0, loops := [], params := [] }
  (scalarLoops m a bars).map (·.2) ++
    bars.flatMap fun b => (strokesAt m a b (rangeFrom 1 15)).flatMap fun x => (usedDescs m f x.1 x.2).flatMap fun r =>
      if r.1 < scDescCount m a then ((affineEntries m a r.1).map fun k => m.readNat (k + 3) 1).filter fun n => !(n == 0xFF) else []

/-- Check 0x0006 (R100). The SCALAR of a kind 3 buffer is held to the largest PARAM_BYTES of all entries: the spec does not say which
entry's bounds it (DESIGN CHOICE, log 88). -/
def loopsCheck (m : Memory) (a : Nat) : Option VerifyReport :=
  let r := VerifyReport.of 0x0006
  let es := List.range (scEntryCount m a)
  let noHalt (e : Nat) : Bool := !(((entryBars m a e).getLast?.map fun b => (scCtl m a b).op) == some 6)
  let badScalar (e : Nat) : Bool := (entryScalars m a e).any fun n => decide (scParamBytes m a e / 8 ≤ n)
  let top := (es.map fun e => scParamBytes m a e / 8).foldl max 0
  let badBuffer (i : Nat) : Bool := (scBuffer m a i).kind == 3 && decide (top ≤ (scBuffer m a i).scalar)
  firstReport
    [(nestFault m a (scBarCount m a) 0 []).map fun b => { r with stave := 0, bar := b },
     (es.find? noHalt).map fun e => { r with entry := e },
     (es.find? badScalar).map fun e => { r with entry := e },
     ((List.range (scBufferCount m a)).find? badBuffer).map fun i => { r with buffer := i }]

/-! ## 0x0007 CUE_MAP (R81, R82) -/

/-- The section and stave that a cue map entry belongs to; none in the place of a section for chip units. -/
def cueSource (i : Nat) : Option Nat × Nat := if i < 352 then (some (i / 88), i % 88 / 8 + 1) else (none, (i - 352) / 8 + 12)

def cueEntryOk (m : Memory) (a i : Nat) : Bool :=
  let w := m.readNat (a + scCuemapOfs m a + 4 * i) 4
  let e := CueEntry.ofWord w
  let toCore := (e.validA && decide (e.staveA ≤ 11)) || (e.validB && decide (e.staveB ≤ 11))
  w % 4096 == 0 && (!e.validA || !(e.staveA == 0)) && (!e.validB || !(e.staveB == 0))
    && (if (cueSource i).1.isNone && toCore then !(e.sections == 0) else e.sections == 0)

/-- Every bar that control reaches with every layout in force there, loops turning at most twice (R74). -/
def reachedBars (m : Memory) (a : Nat) : List (Nat × Nat) :=
  ((List.range (scEntryCount m a)).flatMap fun e => (entryWalks m a e 2 none).flatMap fun w =>
    w.map fun p => (p.bar, p.layout)).eraseDups

/-- The section has cores in a layout that is in force as control reaches a bar. -/
def sectionUsed (m : Memory) (a : Nat) (reached : List (Nat × Nat)) (bar sec : Nat) : Bool :=
  reached.any fun r => r.1 == bar && !(scSection m a r.2 sec == 0)

/-- The cue map entries that the signals of a stroke use. -/
def signalEntries (m : Memory) (a : Nat) (reached : List (Nat × Nat)) (bar stave : Nat) (w : StrokeWord) : List Nat :=
  let bits := (List.range 8).filter fun b => natBit w.signal b
  if 12 ≤ stave then bits.map fun b => 352 + 8 * (stave - 12) + b
  else ((List.range 4).filter fun sec => natBit (scCtl m a bar).mask sec && sectionUsed m a reached bar sec).flatMap fun sec =>
    bits.map fun b => 88 * sec + 8 * (stave - 1) + b

/-- Check 0x0007, the index of the cue map entry in `DETAIL_A` (DESIGN CHOICE, log 104). -/
def cueMapCheck (m : Memory) (a : Nat) : Option VerifyReport :=
  let r := VerifyReport.of 0x0007
  let unrouted (i : Nat) : Bool := !((scCueEntry m a i).validA || (scCueEntry m a i).validB)
  match (List.range 384).find? fun i => !cueEntryOk m a i with
  | some i => some { r with stave := (cueSource i).2, detailA := i }
  | none =>
    let reached := reachedBars m a
    (List.range (scBarCount m a)).findSome? fun b => (strokesAt m a b (rangeFrom 1 15)).findSome? fun x =>
      ((signalEntries m a reached b x.1 x.2).find? unrouted).map fun i => { r with stave := x.1, bar := b, detailA := i }

/-! ## 0x0011 RESIDENT (R57, R259, R414, R533) -/

/-- The declared resident is the one in force, the empty one, or one of the catalogue, and every boundary is that image's; a boundary that is
not stands in `DETAIL_A` (DESIGN CHOICE, log 104). -/
def residentCheck (s : State) (a : Nat) : Option VerifyReport :=
  let d := scResidentDigest s.mem a
  let known := (s.resident.cur.toList ++ [emptyResident] ++ s.resident.catalogue).find? fun r => r.digest == d
  match known with
  | none => some (VerifyReport.of 0x0011)
  | some r =>
    ((List.range 256).find? fun c => !(scBoundary s.mem a c == r.bounds.getD c 0)).map fun c =>
      { VerifyReport.of 0x0011 with core := c, detailA := scBoundary s.mem a c }

end Sys2Proof.Machine
end

