-- ==== Sys2Proof/Machine/Formats.lean ====
section
/-! DEFINITION. Check 0x000B FORMATS (R34, R35, R48, R102, R141, R145, R155, R161, R164, R184, R204, R209, R210, R215, R230, R240,
R320, R342, R538): the formats and chime tables of every stroke. -/
namespace Sys2Proof.Machine

/-- A slot keeps a table through the load that waits for its downbeat, if one does: there is none, or it loads the same ID. -/
def TableSlot.keeps (t : TableSlot) (id : Nat) : Bool :=
  (t.cur.map (·.id)) == some id && (match t.load with | some l => (l.image.map (·.id)) == some id | none => true)

/-- Some slot holds a table and will hold it when a stroke fires: 0x00 is none. A table that an accepted load is about to replace is not
held any more, for no job of the score could start before the downbeat that takes it away (R145, R192; DEDUCED, log 93). -/
def tableHeld (s : State) (id : Nat) : Bool := id == 0 || s.tables.any fun t => t.keeps id

/-- A format code that may, and where it must does, carry block scales (R34): Bell grids always do. -/
def scaleRule (f : Nat) (isScaled : Bool) : Bool :=
  match Fmt.ofCode f with
  | none => false
  | some x => (!isScaled || x.scalable) && (isScaled || !(x == .bg6 || x == .bg4))

/-! ## Matrix work -/

/-- Permitted formats of Y (R102, R141). -/
def outputFormats (combo : Nat) (ints : Bool) : List Nat :=
  match combo with
  | 0 => if ints then [0, 1, 2, 9] else [0, 1, 2]
  | 4 | 5 => [3, 4, 5, 6, 7, 8]
  | 6 => [3, 4, 5, 6, 7]
  | 8 => [9]
  | _ => [0, 1, 2]

/-- Chime tables that an operation's epilogue looks up (R142, R156, R157). -/
def epilogueTables (d : MatDesc) (e : EpiDesc) : List Nat :=
  if d.combo = 2 || d.combo = 5 then [e.fn]
  else if d.combo = 11 then (if e.cfn then [0x01] ++ (if e.norm then [0x03] else []) else [e.fn])
  else []

/-- The formats of a matrix or gang descriptor. -/
def matFormats (s : State) (f : Fire) (i : Nat) : List (Bool × Nat) :=
  let raw := descOf s.mem f i
  let d := MatDesc.ofDesc raw
  let (w, x, y) := (fld raw 31 28, fld raw 27 24, fld raw 23 20)
  let e := epiAt s.mem f d
  let er := descOf s.mem f d.epi
  let ints := w == 8 && x == 8
  [((rangeFrom 1 8).contains w, w), ([1, 2, 3, 4, 5, 7, 8].contains x, x), ((outputFormats d.combo ints).contains y, y),
   (scaleRule w d.wScaled && scaleRule x d.xScaled, w), (!(ints && (d.wScaled || d.xScaled)), w),
   (!(ints && decide (131071 < d.k)), d.k)]
  ++ (if d.combo = 0 || d.epi = 0xFFFF then []
      else
        [((epilogueTables d e).all (tableHeld s), e.fn), (!(e.qscale == 0xFF), 0xFF)]
        ++ (if d.combo = 3 || d.combo = 6 then [([0, 1, 2].contains (fld er 23 20), fld er 23 20)] else [])
        ++ (if d.combo = 11 then
              [([1, 3, 4].contains (fld er 19 16), fld er 19 16), ((rangeFrom 1 8).contains (fld er 439 436), fld er 439 436),
               ([3, 4, 5, 7, 8].contains w, w)]
            else []))

/-! ## Streams -/

/-- The format code of a named stream and whether it is scaled. -/
def streamCode (m : Memory) (f : Fire) (i : Nat) : Option (Nat × Bool) :=
  if hasKind m f.score (i, 0x16) then let x := descOf m f i; some (fld x 31 28, bitAt x 27) else none

/-- A named stream has one of some formats and keeps the rule of scales; one that is not named has nothing to check. -/
def streamIn (m : Memory) (f : Fire) (i : Nat) (codes : List Nat) : Bool × Nat :=
  match streamCode m f i with
  | none => (true, 0)
  | some (c, sc) => (codes.contains c && scaleRule c sc, c)

/-- The same, and without scales. -/
def streamPlain (m : Memory) (f : Fire) (i : Nat) (codes : List Nat) : Bool × Nat :=
  let r := streamIn m f i codes
  (r.1 && !(((streamCode m f i).map (·.2)).getD false), r.2)

/-- Stream entry by width (R164, R538). -/
def entersAs (m : Memory) (f : Fire) (width i : Nat) : Bool × Nat :=
  if width = 2 then streamPlain m f i [0, 8, 9]
  else if width = 1 then streamIn m f i [1, 3, 4, 5, 7, 8]
  else streamIn m f i (List.range 10)

/-- What a stage's argument names: a held table, or a target format (R166). -/
def stageFormat (s : State) (g : Stage) : Bool × Nat :=
  if g.op = 0x0C then (!(g.arg == 0) && tableHeld s g.arg, g.arg)
  else if g.op = 0x0D then ([0, 1, 2, 3, 4, 5, 8, 9].contains (g.arg % 16), g.arg % 16)
  else if g.op = 0x0E then ([3, 4, 5, 6, 7, 8].contains (g.arg % 16), g.arg % 16)
  else (true, 0)

def chainFormats (s : State) (f : Fire) (i : Nat) : List (Bool × Nat) :=
  let d := chainAt s.mem f i
  let out (k : Nat) : Bool × Nat := if d.width = 2 then streamPlain s.mem f k [0, 9] else streamIn s.mem f k (List.range 10)
  [d.inA, d.inB, d.inC, d.vec0, d.vec1].map (entersAs s.mem f d.width) ++ [d.outP, d.outQ].map out
    ++ [streamPlain s.mem f d.count [9]] ++ d.stages.map (stageFormat s)

def reduceFormats (s : State) (f : Fire) (i : Nat) : List (Bool × Nat) :=
  let d := RedDesc.ofDesc (descOf s.mem f i)
  (if d.pivot = 2 then [entersAs s.mem f 0 d.pivotDesc] else [])
    ++ (if d.smax then [(tableHeld s 0x01, 0x01), (tableHeld s 0x03, 0x03)] else [])
    ++ (if d.norm then [(tableHeld s 0x04, 0x04)] else [])

def stepFormats (s : State) (f : Fire) (i : Nat) : List (Bool × Nat) :=
  let x := StepDesc.ofDesc (descOf s.mem f i)
  [x.x, x.xout, x.h].map (fun k => streamPlain s.mem f k [0]) ++ [x.ec, x.eu].map fun k => streamPlain s.mem f k [0, 1, 2]

/-- The cache formats (R209). -/
def cacheFormats : List Nat := [1, 3, 4, 6, 7]

/-- A cache format code is the one in force, and some streams have it, with scales unless it is BF16. -/
def cacheFormat (s : State) (f : Fire) (code : Nat) (streams : List Nat) : List (Bool × Nat) :=
  let same (i : Nat) : Bool := match streamCode s.mem f i with | none => true | some (c, sc) => c == code && sc == !(code == 1)
  [(cacheFormats.contains code && code == s.staged.cur.kvCacheFmt, code), (streams.all same, code)]

def attnFormats (s : State) (f : Fire) (i : Nat) : List (Bool × Nat) :=
  let raw := descOf s.mem f i
  let a := AttnDesc.ofDesc raw
  cacheFormat s f (fld raw 31 28) [a.k, a.v]
    ++ [streamIn s.mem f a.q [1, 2, 3, 4], streamPlain s.mem f a.mask [8],
        if a.pass1 then streamPlain s.mem f a.p [0, 1] else streamPlain s.mem f a.o [0, 1, 2]]
    ++ [0x01, 0x02, 0x03].map fun t => (tableHeld s t, t)

def scatterFormats (s : State) (f : Fire) (i : Nat) : List (Bool × Nat) :=
  let raw := descOf s.mem f i
  let x := ScatterDesc.ofDesc raw
  cacheFormat s f (fld raw 31 28) [x.dest] ++ [streamPlain s.mem f x.src [0, 1, 2], streamPlain s.mem f x.pos [9]]

/-- The formats of a collective (R320, R341). -/
def collFormats (m : Memory) (f : Fire) (i : Nat) : List (Bool × Nat) :=
  let x := descOf m f i
  let (op, red, inF, outF) := (fld x 31 28, fld x 27 26, fld x 25 22, fld x 21 18)
  if op ≤ 1 then
    if red = 3 then [(inF == 9 && outF == 9, inF)] else [([0, 1, 2, 3, 4].contains inF, inF), ([0, 1, 2].contains outF, outF)]
  else if op ≤ 4 then [(inF == 0 && outF == 0, inF)]
  else [(outF == 0, outF)]

/-- The format conditions of a firing, with the code each is about; none where it names a descriptor that is not there, which check 0x000C
reports (log 71). -/
def formatsOf (s : State) (x : Firing) : List (Bool × Nat) :=
  let f := x.fire
  let i := x.word.desc
  if !refsOk s.mem x then []
  else match (strokeKind x.stave x.word.op).getD 0 with
  | 0x10 => matFormats s f i
  | 0x11 => (strokeDescs x.stave x.word).flatMap (matFormats s f)
  | 0x14 => chainFormats s f i
  | 0x15 => reduceFormats s f i
  | 0x19 => attnFormats s f i
  | 0x1A => scatterFormats s f i
  | 0x1B => stepFormats s f i
  | 0x20 => collFormats s.mem f i
  | _ => []

/-- The first format condition that a firing breaks. -/
def badFormat (s : State) (x : Firing) : Option Nat := ((formatsOf s x).find? fun r => !r.1).map (·.2)

/-- Check 0x000B at a firing: it breaks a condition whatever the job's scalars are (R35). -/
def formatFault (s : State) (e : Nat) (x : Firing) : Option VerifyReport :=
  if (x.twins s.mem).all fun y => (badFormat s y).isSome then
    (badFormat s x).map fun c => { x.report 0x000B e x.word.desc with detailA := c }
  else none

/-- Every firing of a score, over the choices of its scalar loop counts, with no job scalar known. -/
def loadFirings (s : State) (a e : Nat) : List (List Firing) :=
  (entryWalks s.mem a e (2 ^ 24) none).map (firings s a [])

/-- The first firing that breaks a check at load. -/
def firstFiring (s : State) (a : Nat) (check : Nat → Firing → Option VerifyReport) : Option VerifyReport :=
  (List.range (scEntryCount s.mem a)).findSome? fun e => (loadFirings s a e).findSome? fun xs => xs.findSome? (check e)

/-- The immediates of a stored descriptor, used or not: no `QSCALE` 0xFF (R35), and every `KV_FMT` is the format in force (R210). -/
def storedFault (s : State) (a i : Nat) : Option VerifyReport :=
  let d := scStoredDesc s.mem a i
  let bad : Option Nat := match fld d 63 56 with
    | 0x13 => if fld d 7 0 = 0xFF then some 0xFF else none
    | 0x19 | 0x1A => if fld d 31 28 = s.staged.cur.kvCacheFmt then none else some (fld d 31 28)
    | _ => none
  bad.map fun c => { VerifyReport.of 0x000B with desc := i, detailA := c }

def formatsCheck (s : State) (a : Nat) : Option VerifyReport :=
  match firstFiring s a (formatFault s) with
  | some r => some r
  | none => (List.range (scDescCount s.mem a)).findSome? (storedFault s a)

end Sys2Proof.Machine
end

