-- ==== Sys2Proof/Machine/Tiles.lean ====
section
/-! DEFINITION. Check 0x000C TILES (R109, R110, R115, R116, R120, R129 to R133, R140, R144, R155, R160, R167 to R169, R173, R174,
R179, R204, R205, R230, R240, R255, R273, R275, R342, R374), but for the order of Rattle contexts, which the rehearsal tells. -/
namespace Sys2Proof.Machine

/-! ## Parts of the check -/

/-- The strokes of a bar on some staves, by stave. -/
def strokeOn (m : Memory) (a bar stave : Nat) : StrokeWord := StrokeWord.ofWord (scStave m a bar stave)

/-- The stroke on a stave of a bar has an opcode and names a descriptor. -/
def strokeIs (m : Memory) (a bar stave op desc : Nat) : Bool :=
  let w := strokeOn m a bar stave
  w.op == op && w.desc == desc

/-- No run of one list meets a run of another. -/
def runsApart (x y : List Run) : Bool := x.all fun r => y.all fun k => !r.meets k

/-- The runs of a list keep off each other. -/
def runsDisjoint (x : List Run) : Bool := x.zipIdx.all fun r => (x.drop (r.2 + 1)).all fun k => !r.1.meets k

/-- No run of one list meets a run of another, or the two coincide. -/
def notPartly (x y : List Run) : Bool := runsApart x y || (x.all y.contains && y.all x.contains)

def runsOf (m : Memory) (f : Fire) (l : List Access) : List Run :=
  (l.filter fun y => decide (0 < y.len)).map (Access.run m f.score none)

/-- The kind of a buffer of the score. -/
def bufKind (m : Memory) (a i : Nat) : Nat := (scBuffer m a i).kind

/-- An affine entry of a descriptor touches one of some fields, as low bit and width. -/
def affineTouches (m : Memory) (a i : Nat) (fields : List (Nat × Nat)) : Bool :=
  (affineEntries m a i).any fun e => fields.any fun g => overlaps (m.readNat e 2) (m.readNat (e + 2) 1) g.1 g.2

/-! ## Matrix work -/

/-- The largest `TILE_K` (R109). -/
def tileLimit (f : Fmt) : Nat := match f.bits with | 4 => 2048 | 6 => 1344 | 8 => 1024 | _ => 512

/-- `TILE_K` and `ORDER` (R109, R110). -/
def tilesOk (d : MatDesc) : Bool :=
  aligned d.tileK 32 && decide (0 < d.tileK) && decide (d.tileK ≤ tileLimit d.wFmt) &&
  (match d.order with
   | 0 => decide (d.k ≤ d.tileK)
   | 1 => decide (d.tileK < d.k) && decide (d.k ≤ 2 * d.tileK)
   | 2 => true
   | _ => false)

/-- The strokes of a row-mode operation all lie in the bar, on the units of `UNITS` alone (R115). -/
def rowGroupOk (m : Memory) (a bar desc : Nat) (d : MatDesc) : Bool :=
  strokeIs m a bar 7 0x10 desc && strokeIs m a bar 8 0x10 desc && !(d.units == 0) &&
  (List.range 4).all fun u => strokeIs m a bar (u + 1) 0x10 desc == natBit d.units u

/-- The strokes of a gang stroke name the same problems and lie in the bar (R136). -/
def gangGroupOk (m : Memory) (a bar : Nat) (w : StrokeWord) : Bool :=
  let same (v : Nat) : Bool := strokeIs m a bar v 0x11 w.desc && (strokeOn m a bar v).imm == w.imm
  same 7 && same 8 && (rangeFrom 1 4).any same

/-- `SA_MASK` suits `SHAPE` (R120). -/
def maskSuits (d : MatDesc) : Bool :=
  match d.shape with
  | 0 => !(d.saMask == 0)
  | 1 => d.saMask == 0x0F || d.saMask == 0xF0
  | 2 => d.saMask == 0xFF
  | _ => false

/-- The limits of a window (R129). -/
def windowOk (w : WinDesc) : Bool :=
  let side (n lo hi k dil str out : Nat) : Bool :=
    decide (k ≤ 7) && decide (1 ≤ n) && decide (lo ≤ dil * (k - 1)) && decide (hi ≤ dil * (k - 1))
      && decide (dil * (k - 1) + 1 ≤ n + lo + hi) && out == (n + lo + hi - dil * (k - 1) - 1) / str + 1
  decide (1 ≤ w.images) && decide (1 ≤ w.c) && side w.height w.padT w.padB w.kh w.dh w.sh w.oh
    && side w.width w.padL w.padR w.kw w.dw w.sw w.ow

/-- The convolution of a descriptor (R130 to R133). -/
def convOk (m : Memory) (f : Fire) (d : MatDesc) : Bool :=
  let w := winAt m f d
  let k := match d.pkind with
    | 0 => ceilDiv w.c w.cb * w.kh * w.kw * w.cb
    | 1 => w.c / max d.groups 1 * w.kh * w.kw
    | _ => w.kh * w.kw
  windowOk w && d.k == k && d.t == w.images * w.oh * w.ow && aligned d.n0 w.cb && (!d.xScaled || w.cb == 32) &&
  (match d.pkind with
   | 0 => d.groups == 1
   | 1 => decide (0 < d.groups) && aligned w.c d.groups && aligned w.cout d.groups
   | _ => d.groups == w.c && w.c == w.cout && w.cb == 16 && d.shape == 0)

/-- What a combination allows (R141). -/
def comboOk (d : MatDesc) (gang : Bool) : Bool :=
  decide (d.combo ≤ 11) && (d.combo == 0) == (d.epi == 0xFFFF)
    && (!gang || (decide (d.combo ≤ 5) && (decide (d.combo < 4) || decide (1 ≤ d.shape))))
    && (!d.conv || decide (d.combo ≤ 8)) && (!d.yMcast || decide (d.combo ≤ 5) || d.combo == 9 || d.combo == 10)

/-- The conditions of a combination's epilogue that no offset enters (R148, R155, R157, R160, R161). -/
def epilogueOk (m : Memory) (a : Nat) (d : MatDesc) (e : EpiDesc) (raw : Desc) : Bool :=
  decide (fld raw 15 14 < 2) && (e.cfn || (!e.norm && !e.statEn)) && (!(d.combo == 6) || bufKind m a e.auxBuf == 0) &&
  (!(d.combo == 11) || (d.units == 15 && decide (d.n ≤ 128) && decide (d.k ≤ 1024) && decide (1 ≤ e.m) && d.damper == 0))

/-- W, X and their scales as the operation reads them (R117). -/
def opOperands (m : Memory) (f : Fire) (d : MatDesc) (gang : Bool) : List Access :=
  let o : From := { desc := 0, core := f.core, kinds := [] }
  activationRuns m f o d ++
    (if gang then weightRuns o d (List.range d.n) else (List.range 4).flatMap (malletRuns m f o d))

/-- Y coincides with the residual (R144); the output of a convolution lies channel-blocked, and the residual by rows. -/
def inPlace (d : MatDesc) (e : EpiDesc) : Bool :=
  !d.conv && d.yBuf == e.resBuf && d.yOfs == e.resOfs && d.yStride == e.resStride && d.yFmt == e.rFmt

/-- Y keeps off the operands, and off bias, alpha and residual unless it is the residual (R116, R144). -/
def overlapOk (s : State) (f : Fire) (lay i : Nat) (d : MatDesc) (gang : Bool) : Bool :=
  let m := s.mem
  let e := epiAt m f d
  let y := runsOf m f ((resultRuns s f lay i d).filter fun x => x.core == f.core)
  let o : From := { desc := d.epi, core := f.core, kinds := [] }
  let rest := if d.combo = 0 then [] else vectorReads o d e ++ (if inPlace d e then [] else residualReads o d e)
  runsApart y (runsOf m f (opOperands m f d gang)) && runsApart y (runsOf m f rest)

/-- The hold buffer of combination 6 holds N × T × 4 bytes in rows that keep off each other (R148, R160). -/
def holdOk (m : Memory) (f : Fire) (d : MatDesc) : Bool :=
  let e := epiAt m f d
  !(d.combo == 6) || (decide (e.auxOfs + d.n * d.t * 4 ≤ (scBuffer m f.score e.auxBuf).size)
    && (decide (d.n ≤ 1) || decide (4 * d.t ≤ e.auxStride)))

/-- Other enabled cores of the section that a firing's core lies in, each with its own context. -/
def matesOf (s : State) (x : Firing) : List Fire :=
  let a := x.fire.score
  match sectionOf s.mem a x.place.layout x.fire.core with
  | none => []
  | some sec => ((layoutSection s a x.place.layout sec).zipIdx.map fun c => { x.fire with core := c.1, rank := c.2 }).filter
      fun f => !(f.core == x.fire.core)

/-- No two cores of a section write one byte through `Y_MCAST`, whichever problems of the stroke `is` they drain, and no two cores that fire
in the bar one byte of an output cache (R140, R255). -/
def coresApart (s : State) (x : Firing) (is : List Nat) : Bool :=
  let m := s.mem
  let shared (f : Fire) : List Run := is.flatMap fun i =>
    let k := matAt m f i
    runsOf m f ((drainRuns s f x.place.layout i k).filter fun y => k.yMcast && y.writes)
  let cache (f : Fire) : List Run := is.flatMap fun i => runsOf m f (damperRuns m f (matAt m f i) i false)
  let others := (firingsAt s x.fire.score x.fire.params x.place).filter fun y =>
    y.stave == x.stave && !(y.fire.core == x.fire.core)
  (matesOf s x).all (fun f => runsApart (shared x.fire) (shared f))
    && others.all fun y => runsApart (cache x.fire) (cache y.fire)

/-- The Damper of an operation (R244, R245, R248). -/
def damperOk (m : Memory) (f : Fire) (d : MatDesc) (i : Nat) : Bool :=
  match damperAt m f d i with
  | none => true
  | some z => decide (ceilDiv d.t 32 ≤ 4096) && decide (1 ≤ z.testFrom) && decide (z.testFrom ≤ z.testUntil)

/-- A matrix or gang descriptor: what its fields alone decide. -/
def matShape (m : Memory) (f : Fire) (i : Nat) (gang : Bool) : Bool :=
  let d := matAt m f i
  comboOk d gang && (d.combo == 0 || epilogueOk m f.score d (epiAt m f d) (descOf m f d.epi)) &&
  (if gang then maskSuits d && decide (d.pkind < 3) && d.order == 0 && d.tileK == 0 && d.damper == 0 && (d.conv || d.pkind == 0)
   else d.pkind == 0 && d.shape == 0) && (d.conv || d.groups == 1)

/-- A matrix or gang descriptor: what counts and offsets decide. -/
def matCounts (s : State) (x : Firing) (i : Nat) (gang : Bool) : Bool :=
  let m := s.mem
  let f := x.fire
  let d := matAt m f i
  decide (1 ≤ d.n) && decide (1 ≤ d.t) && decide (1 ≤ d.k) && (gang || tilesOk d) && (!d.conv || convOk m f d)
    && (!(4 ≤ d.combo && d.combo ≤ 6) || aligned d.n0 32) && damperOk m f d i && overlapOk s f x.place.layout i d gang
    && holdOk m f d

/-- The partitions of a gang stroke's problems are disjoint (R120). -/
def partsApart (m : Memory) (f : Fire) (is : List Nat) : Bool :=
  let masks := is.map fun i => (matAt m f i).saMask
  masks.zipIdx.all fun x => (masks.drop (x.2 + 1)).all fun y => x.1 &&& y == 0

/-! ## Chains (R162 to R174, R204) -/

/-- The operands that an operation takes. -/
def stageArity (op : Nat) : Nat :=
  if op = 0x04 || op = 0x0A || op = 0x0B then 3
  else if op = 0x0F then 0
  else if [0x07, 0x08, 0x0C, 0x0D, 0x0E, 0x10, 0x16, 0x17, 0x18, 0x19, 0x1A, 0x1B].contains op then 1
  else 2

/-- The operand sources a stage reads; `qnt` reads b in scale mode 1. -/
def stageSources (g : Stage) : List Nat :=
  if g.op = 0x0E && g.arg / 16 % 4 = 1 then [g.a, g.b] else [g.a, g.b, g.c].take (stageArity g.op)

/-- Which stages give a mask: `cmp`, and a `mov` of the window valid mask (R165, R166). -/
def maskStages (gs : List Stage) : List Bool := gs.map fun g => g.op == 0x09 || (g.op == 0x1B && g.a == 0x18)

/-- Which stages depend on input stream A. -/
def stagesOnA (gs : List Stage) : List Bool :=
  gs.foldl (fun acc g => acc ++ [(stageSources g).any fun k => k == 0x08 || k == 0x18 || (decide (k < 8) && acc.getD k false)]) []

def named (i : Nat) : Bool := !(i == 0xFFFF)

/-- A stream that is named and comes from scratch: the spec names no check for another `SRC`, and the model takes 0x000C (R201; DESIGN
CHOICE, log 108). -/
def fromScratch (m : Memory) (f : Fire) (i : Nat) : Bool := !named i || fld (descOf m f i) 25 24 == 0

/-- The chain takes its input A from FEED_WIN. -/
def windowChain (m : Memory) (f : Fire) (d : ChainDesc) : Bool := ((streamOf m f d.inA).map (·.window)).getD false

/-- A source that the chain has, of an earlier stage where it is a result. A stage that names an input stream, a row vector or a scalar slot
whose index is 0xFFFF fails check 0x000C: no list of checks has it (DESIGN CHOICE, log 108). -/
def sourceOk (m : Memory) (f : Fire) (d : ChainDesc) (slots : Bool) (k src : Nat) : Bool :=
  if src < 8 then decide (src < k)
  else match src with
    | 0x08 => named d.inA
    | 0x09 => named d.inB
    | 0x0A => named d.inC
    | 0x0B => named d.vec0
    | 0x0C => named d.vec1
    | 0x0D | 0x0E | 0x0F => true
    | 0x18 => windowChain m f d
    | n => decide (n < 0x18) && slots

/-- Operations of INT32 width (R164). -/
def intWidthOp (g : Stage) : Bool :=
  [0x05, 0x06, 0x09, 0x0A, 0x0B, 0x11, 0x12, 0x13, 0x14, 0x15, 0x16, 0x17, 0x18, 0x1B].contains g.op || (g.op == 0x0F && g.mode == 2)

/-- Stage `k`: an operation of the width with sources it may name, masks where masks go and values where values go. -/
def stageOk (m : Memory) (f : Fire) (d : ChainDesc) (slots : Bool) (masks : List Bool) (k : Nat) (g : Stage) : Bool :=
  let isMask (src : Nat) : Bool := src == 0x18 || (decide (src < 8) && masks.getD src false)
  decide (1 ≤ g.op) && decide (g.op ≤ 0x1B) && (!(d.width == 2) || intWidthOp g)
    && (stageSources g).all (sourceOk m f d slots k)
    && (if g.op = 0x0A then isMask g.a && !isMask g.b && !isMask g.c
        else (g.op == 0x1B && g.a == 0x18) || (stageSources g).all fun x => !isMask x)
    && (!(g.op == 0x09) || decide (g.mode ≤ 5)) && (!(g.op == 0x0F) || decide (g.mode ≤ 2))
    && (!(g.op == 0x0E) || decide (g.arg / 16 % 4 ≤ 1))

/-- An output stream and the stage that feeds it (R167, R168, R170). -/
def outputOk (m : Memory) (f : Fire) (d : ChainDesc) (masks : List Bool) (i k : Nat) : Bool :=
  match streamOf m f i with
  | none => true
  | some x =>
    match d.stages[k]? with
    | none => false
    | some g =>
      let code := fld (descOf m f i) 31 28
      let narrow := decide (3 ≤ code) && decide (code ≤ 8)
      let byQnt := g.op == 0x0E && g.arg % 16 == code && x.scaled && x.sdimRows == natBit g.arg 6
      let byCvt := g.op == 0x0D && g.arg % 16 == code && !x.scaled
      !(masks.getD k false) && !(x.rowStride == 0) && !x.window && (if narrow then byQnt || byCvt else !x.scaled && !(g.op == 0x0E))

/-- A `qnt` stage feeds an output. -/
def qntFeeds (d : ChainDesc) (k : Nat) (g : Stage) : Bool :=
  !(g.op == 0x0E) || (named d.outP && d.pStage == k) || (named d.outQ && d.qStage == k)

/-- Compress and expand (R173, R174). A compress chain without output P, which would write counts alone, fails check 0x000C: the spec does
not say (DESIGN CHOICE, log 108). -/
def cmodeOk (d : ChainDesc) (slots : Bool) (masks : List Bool) : Bool :=
  match d.cmode with
  | 0 => true
  | 1 => masks.getD d.cstage false && !named d.outQ && named d.outP && named d.count
  | 2 =>
    masks.getD d.cstage false && named d.inA && named d.count && !((stagesOnA d.stages).getD d.cstage false)
      && decide (d.fill ≤ 2) && (!(d.fill == 1) || slots) && (!(d.fill == 2) || named d.inB)
  | _ => false

/-- The buffers of a stream, its scales among them, are of some kinds. -/
def streamKind (m : Memory) (f : Fire) (kinds : List Nat) (i : Nat) : Bool :=
  match streamOf m f i with
  | none => true
  | some x => x.window ||
      (kinds.contains (bufKind m f.score x.buf) && (!x.scaled || kinds.contains (bufKind m f.score x.sbuf)))

/-- Inputs and row vectors of a chain lie in scratch, and its outputs in working scratch (R169). -/
def chainKinds (m : Memory) (f : Fire) (d : ChainDesc) : Bool :=
  [d.inA, d.inB, d.inC, d.vec0, d.vec1].all (streamKind m f [0, 1]) && [d.outP, d.outQ].all (streamKind m f [0])
    && streamKind m f (if d.cmode = 1 then [0] else [0, 1]) d.count

def chainShape (m : Memory) (f : Fire) (i : Nat) : Bool :=
  let d := chainAt m f i
  let slots := named (fld (descOf m f i) 15 0)
  let masks := maskStages d.stages
  decide (d.width < 3) && cmodeOk d slots masks && chainKinds m f d && outputOk m f d masks d.outP d.pStage && outputOk m f d masks d.outQ d.qStage
    && d.stages.zipIdx.all (fun g => stageOk m f d slots masks g.2 g.1 && qntFeeds d g.2 g.1)
    && [d.inB, d.inC, d.vec0, d.vec1, d.outP, d.outQ, d.count].all (fromScratch m f)
    && (fromScratch m f d.inA || (windowChain m f d && !(d.cmode == 2)))

/-- Two streams are one, element for element (R169). -/
def sameStream (x y : Stream) : Bool := x.buf == y.buf && x.ofs == y.ofs && x.rowStride == y.rowStride && x.fmt == y.fmt

/-- The scales of two streams are one array (R170). -/
def sameScales (x y : Stream) : Bool :=
  x.sbuf == y.sbuf && x.sofs == y.sofs && x.sstride == y.sstride && x.sdimRows == y.sdimRows

/-- Output `i` of a stroke keeps off another of its streams, elements and scales, or coincides with it where that is an input: then
their scale arrays too are one or keep off each other (R169). -/
def outputApart (m : Memory) (f : Fire) (i rows cols : Nat) (input : Bool) (j jrows jcols : Nat) : Bool :=
  match streamOf m f i, streamOf m f j with
  | some x, some y =>
    let elems (z : Stream) (r c : Nat) : List Run :=
      runsOf m f (streamRuns { desc := i, core := f.core, kinds := [] } From.read { z with scaled := false } r c)
    let scales (z : Stream) (r c : Nat) : List Run :=
      (runsOf m f (streamRuns { desc := i, core := f.core, kinds := [] } From.read z r c)).drop (elems z r c).length
    let (ex, ey, sx, sy) := (elems x rows cols, elems y jrows jcols, scales x rows cols, scales y jrows jcols)
    let one := input && sameStream x y
    y.window ||
      ((one || runsApart ex ey) && ((one && sameScales x y) || runsApart sx sy) && runsApart ex sy && runsApart sx ey)
  | _, _ => true

def chainCounts (m : Memory) (f : Fire) (i : Nat) : Bool :=
  let d := chainAt m f i
  let vecOk (k : Nat) : Bool := match streamOf m f k with | none => true | some x => decide (1 ≤ x.vdiv)
  let vecN (k : Nat) : Nat := ((streamOf m f k).map fun x => (d.rows - 1) / max x.vdiv 1 + 1).getD 0
  let apart (o : Nat) : Bool :=
    [d.inA, d.inB, d.inC].all (fun k => outputApart m f o d.rows d.cols true k d.rows d.cols)
      && [d.vec0, d.vec1].all (fun k => outputApart m f o d.rows d.cols false k 1 (vecN k))
      && outputApart m f o d.rows d.cols false d.count 1 d.rows
  decide (1 ≤ d.rows) && decide (1 ≤ d.cols) && vecOk d.vec0 && vecOk d.vec1 && apart d.outP && apart d.outQ
    && outputApart m f d.outP d.rows d.cols false d.outQ d.rows d.cols
    && (!(d.cmode == 1) || ([d.inA, d.inB, d.inC].all (fun k => outputApart m f d.count 1 d.rows false k d.rows d.cols)
      && [d.vec0, d.vec1].all fun k => outputApart m f d.count 1 d.rows false k 1 (vecN k)))

/-- The conditions of a REDUCE (R177 to R181, R183, R204). For `PIVOT` 3 and `GROUP` 0 the spec names no check: the model takes 0x000C (R202;
DESIGN CHOICE, log 108). -/
def reduceShape (m : Memory) (f : Fire) (bar i : Nat) : Bool :=
  let raw := descOf m f i
  let d := RedDesc.ofDesc raw
  let c := chainAt m f d.chainDesc
  let masks := maskStages c.stages
  let values := d.sum || d.sumsq || d.maxEn || d.minEn || d.argmax || d.smax
  hasKind m f.score (d.chainDesc, 0x14) && strokeIs m f.score bar 5 0x10 d.chainDesc && decide (d.tap < c.stages.length)
    && (!values || !(masks.getD d.tap false)) && (!d.count || masks.getD d.mstage false)
    && (!d.smax || !(d.sum || d.sumsq || d.maxEn || d.minEn || d.argmax || d.count || !(d.pivot == 0)))
    && (!d.norm || (d.sum && d.sumsq)) && decide (d.pivot < 3) && (!(d.pivot == 2) || (named d.pivotDesc && fromScratch m f d.pivotDesc)) && !(fld raw 419 404 == 0)
    && (!d.merge || !(affineTouches m f.score d.chainDesc [(208, 48)] || affineTouches m f.score i [(404, 16)]))

/-! ## STEP (R240, R255) -/

def stepShape (m : Memory) (f : Fire) (i : Nat) : Bool :=
  let x := StepDesc.ofDesc (descOf m f i)
  named x.x && named x.xout && named x.ec && (!x.guide || named x.eu) && (!x.histEn || named x.h)
    && [x.x, x.xout, x.ec, x.eu, x.h].all (fromScratch m f)

def stepCounts (m : Memory) (f : Fire) (i : Nat) : Bool :=
  let x := StepDesc.ofDesc (descOf m f i)
  let put (k : Nat) : List Run := runsOf m f (writeStream m f [] k x.rows x.cols)
  let get (k : Nat) : List Run := runsOf m f (readStream m f [] k x.rows x.cols)
  let slot (n : Nat) : List Run :=
    (namedStream m f x.h).flatMap fun h => runsOf m f
      (streamRuns { desc := h.1, core := f.core, kinds := [] } From.read (h.2.moved (n * x.hStride) 0) x.rows x.cols)
  let slots := (List.range 4).map slot
  let onX := match streamOf m f x.x, streamOf m f x.xout with | some p, some q => sameStream p q | _, _ => false
  decide (1 ≤ x.rows) && decide (1 ≤ x.cols)
    && [get x.ec, get x.eu].all (fun r => runsApart (put x.xout) r && runsApart (get x.x) r) && runsApart (get x.ec) (get x.eu) && (onX || runsApart (put x.xout) (get x.x))
    && slots.zipIdx.all (fun k => (slots.drop (k.2 + 1)).all (runsApart k.1)
        && [put x.xout, get x.x, get x.ec, get x.eu].all (runsApart k.1))

/-! ## Attention and the scatter unit (R205, R209, R227 to R230) -/

/-- The strokes of an attention operation, on all four Mallet staves or on two (R227). -/
def attnGroupOk (m : Memory) (a bar desc : Nat) (d : AttnDesc) : Bool :=
  strokeIs m a bar 7 0x13 desc && strokeIs m a bar 8 0x12 desc &&
  (rangeFrom 1 4).all fun v =>
    if d.pass1 && decide (3 ≤ v) then scStave m a bar v == 0 else strokeIs m a bar v 0x12 desc

def attnShape (m : Memory) (f : Fire) (bar i : Nat) : Bool :=
  let raw := descOf m f i
  let d := AttnDesc.ofDesc raw
  attnGroupOk m f.score bar i d && [32, 64, 96, 128].contains d.d && decide (d.maskKind < 3) && decide (fld raw 19 18 < 3)
    && named d.q && named d.k && (if d.pass1 then named d.stat && named d.p else named d.v && named d.o && (!d.statEn || named d.stat))
    && (!d.bitmask || named d.mask) && [d.q, d.k, d.v, d.o, d.stat, d.mask, d.p].all (fromScratch m f) && (!(d.maskKind == 2) || decide (1 ≤ d.frameTokens))
    && (match streamOf m f d.q with | some x => x.sdimRows || !x.scaled | none => false)

/-- The runs of some accesses, sorted by descriptor, core and buffer: each a part of one array. -/
def arrays (m : Memory) (f : Fire) (l : List Access) : List (List Run) :=
  let key (y : Access) : Nat × Nat × Nat := (y.desc, y.core, y.buf)
  ((l.map key).eraseDups).map fun k => runsOf m f (l.filter fun y => key y == k)

/-- Counts of an attention, and its outputs against the inputs of every core of the section: `O_MCAST` writes into other cores (R230). -/
def attnCounts (s : State) (x : Firing) (i : Nat) : Bool :=
  let m := s.mem
  let f := x.fire
  let d := attnAt m f i
  let slice (k : Nat) : Bool := match streamOf m f k with
    | none => true
    | some y => decide (d.m * y.fmt.rowBytes d.d ≤ (scBuffer m f.score y.buf).size)
  let ins := (f :: matesOf s x).flatMap fun g => queryRuns m g (attnAt m g i) ++ (List.range 4).flatMap (attnRuns m g (attnAt m g i))
  decide (1 ≤ d.m) && decide (1 ≤ d.t) && aligned ((matesOf s x).length + 1) d.g && slice d.k && slice d.v
    && (arrays m f (attnDrainRuns s f x.place.layout d)).all fun o => (arrays m f ins).all (notPartly o)

def scatterShape (m : Memory) (f : Fire) (i : Nat) : Bool :=
  let x := ScatterDesc.ofDesc (descOf m f i)
  [32, 64, 96, 128].contains x.d && decide (1 ≤ x.rows) && (!x.scrEn || decide (1 ≤ x.m)) && named x.src && (!x.posList || named x.pos)
    && (!x.scrEn || named x.dest) && [x.src, x.pos, x.dest].all (fromScratch m f)

def scatterCounts (s : State) (x : Firing) (i : Nat) : Bool :=
  let l := scatterRuns s x.fire x.place.layout i
  (arrays s.mem x.fire (l.filter (·.writes))).all fun o => (arrays s.mem x.fire (l.filter (·.reads))).all (notPartly o)

/-! ## DMA, link unit, codec (R273, R275, R341, R342, R374) -/

def dmaShape (m : Memory) (f : Fire) (i : Nat) (copy chip : Bool) : Bool :=
  let d := DmaDesc.ofDesc (descOf m f i)
  let (src, dst) := (bufKind m f.score d.srcBuf, bufKind m f.score d.dstBuf)
  decide (1 ≤ d.bytes) && decide (1 ≤ d.rows) && decide (1 ≤ d.planes) &&
  (if chip then (!copy || decide (2 ≤ src)) && (if d.mcast then dst == 0 else decide (2 ≤ dst))
   else !d.mcast && !(dst == 1) && (!copy || decide (src ≤ 1) || dst == 0))

def dmaCounts (s : State) (x : Firing) (i : Nat) (copy chip : Bool) : Bool :=
  let l := dmaRuns s x.fire x.place.layout i copy chip
  let put := runsOf s.mem x.fire (l.filter (·.writes))
  runsDisjoint put && runsApart put (runsOf s.mem x.fire (l.filter (·.reads)))

/-- Operation, reduction and type of a collective (R320, R341). -/
def collShape (m : Memory) (f : Fire) (i : Nat) : Bool :=
  let x := descOf m f i
  let (op, red, n, chunk) := (fld x 31 28, fld x 27 26, fld x 407 376, fld x 375 352)
  decide (op ≤ 5) && decide (fld x 16 13 < scGroupCount m f.score) && (op == 5 || !bitAt x 17)
    && (!(2 ≤ op && op ≤ 4) || red == 0) && (if op = 4 then n == 0 else decide (1 ≤ n) && decide (n ≤ 2 ^ 30))
    && (!(op ≤ 1) || (decide (1 ≤ chunk) && decide (ceilDiv n chunk ≤ 65536)))
    && (!(op == 5) || decide (n * (if bitAt x 17 then 8 else 4) ≤ 64))

def linkShape (m : Memory) (f : Fire) (op i : Nat) : Bool :=
  let x := descOf m f i
  match op with
  | 0x10 =>
    let d := SendDesc.ofDesc x
    decide (fld x 31 30 < 2) && !(d.pairs == 0) && decide (2 ≤ bufKind m f.score d.srcBuf) && decide (1 ≤ d.bytes) && decide (1 ≤ d.rows)
  | 0x11 =>
    let kind := bufKind m f.score (fld x 511 500)
    (if bitAt x 27 then kind == 0 else decide (2 ≤ kind)) && decide (1 ≤ fld x 419 380) && decide (fld x 419 380 ≤ fld x 459 420)
  | _ => collShape m f i

/-- The send descriptor of combination 7 has no reserved value (R342). -/
def sendOk (m : Memory) (f : Fire) (d : MatDesc) : Bool :=
  let x := descOf m f (epiAt m f d).send
  !(d.combo == 7) || (decide (fld x 31 30 < 2) && !(fld x 29 28 == 0))

def codecShape (m : Memory) (f : Fire) (op i : Nat) : Bool :=
  if op = 0x10 then
    let d := EncDesc.ofDesc (descOf m f i)
    aligned d.repOfs 64 && decide (1 ≤ d.w) && decide (d.w ≤ 8192) && decide (1 ≤ d.h) && decide (d.h ≤ 8192)
  else aligned (DecDesc.ofDesc (descOf m f i)).repOfs 64

/-! ## Every stroke -/

/-- The conditions on the descriptors' shape. -/
def shapeOk (m : Memory) (x : Firing) : Bool :=
  let f := x.fire
  let i := x.word.desc
  match (strokeKind x.stave x.word.op).getD 0 with
  | 0x10 => rowGroupOk m f.score x.place.bar i (matAt m f i) && matShape m f i false && sendOk m f (matAt m f i)
  | 0x11 =>
    let is := strokeDescs x.stave x.word
    gangGroupOk m f.score x.place.bar x.word && partsApart m f is && is.all fun k => matShape m f k true
  | 0x12 => windowOk (WinDesc.ofDesc (descOf m f i)) && windowChain m f (chainAt m f (strokeOn m f.score x.place.bar 5).desc)
  | 0x14 => chainShape m f i && (!(windowChain m f (chainAt m f i)) || (strokeOn m f.score x.place.bar 7).op == 0x12)
  | 0x15 => reduceShape m f x.place.bar i
  | 0x19 => attnShape m f x.place.bar i
  | 0x1A => scatterShape m f i
  | 0x1B => stepShape m f i
  | 0x1D => dmaShape m f i (x.word.op == 0x10) (x.stave == 12)
  | 0x1E | 0x1F | 0x20 => linkShape m f x.word.op i
  | 0x21 | 0x22 => codecShape m f x.word.op i
  | _ => true

/-- The conditions that counts and offsets enter. -/
def countsOk (s : State) (x : Firing) : Bool :=
  let m := s.mem
  let f := x.fire
  let i := x.word.desc
  match (strokeKind x.stave x.word.op).getD 0 with
  | 0x10 => matCounts s x i false && (!(x.stave == 8) || coresApart s x [i])
  | 0x11 =>
    let is := strokeDescs x.stave x.word
    is.all (fun k => matCounts s x k true) && (!(x.stave == 8) || coresApart s x is)
  | 0x14 => chainCounts m f i
  | 0x19 => attnCounts s x i
  | 0x1A => scatterCounts s x i
  | 0x1B => stepCounts m f i
  | 0x1D => dmaCounts s x i (x.word.op == 0x10) (x.stave == 12)
  | _ => true

/-- Every condition of check 0x000C at a firing. -/
def tilesHold (s : State) (x : Firing) : Bool := refsOk s.mem x && shapeOk s.mem x && countsOk s x

/-- Check 0x000C at a firing: it breaks some condition whatever the job's scalars are. -/
def tileFault (s : State) (e : Nat) (x : Firing) : Option VerifyReport :=
  if (x :: x.twins s.mem).all fun y => !tilesHold s y then some (x.report 0x000C e x.word.desc) else none

end Sys2Proof.Machine
end

