-- ==== Sys2Proof/Machine/Rehearsal.lean ====
section
/-! DEFINITION. The rehearsal of a kernel (R64, R76, R78, R82, R100, R115, R537): its cues and strokes run with every unit free to
advance, and the checks that rest on it, 0x0008, 0x000D, 0x000E, 0x000F and 0x0010, with the order of Rattle contexts (R197). One
stroke can be held back from ever finishing: what still fires then is what does not follow it. -/
namespace Sys2Proof.Machine

/-! ## A kernel's strokes -/

/-- A firing with its place in the kernel. -/
structure Act where
  at_ : Nat
  x : Firing
  deriving DecidableEq, Repr

/-- What a check knows of the job's scalars: at load nothing, and then it tries values; at a job's start the job's. -/
structure Scalars where
  params : List Byte
  known : Bool
  deriving DecidableEq, Repr

/-- Every act of a kernel, in the order of its places. -/
def actsOf (s : State) (a : Nat) (ps : List Byte) (k : List Place) : List Act :=
  k.zipIdx.flatMap fun p => (firingsAt s a ps p.1).map fun x => { at_ := p.2, x := x }

/-- A unit in rehearsal. -/
structure Player where
  unit : UnitId
  todo : List Act
  flight : List Act
  cues : List Nat
  deriving DecidableEq, Repr

/-- A gather's lead: signals that a core has sent beyond the last round. -/
structure Lead where
  entry : Nat
  core : Nat
  count : Nat
  deriving DecidableEq, Repr

/-- A kernel in rehearsal: its layout, what has fired, the stroke that never finishes, and the stroke that never fires. -/
structure Rehearsal where
  score : Nat
  layout : Nat
  players : List Player
  leads : List Lead
  fired : List Act
  held : Option Act
  barred : Option Act
  deriving DecidableEq, Repr

/-! ## Signals (R81, R82) -/

/-- A cue arrives at a unit. -/
def Rehearsal.bump (u : UnitId) (cue : Nat) (r : Rehearsal) : Rehearsal :=
  let take (p : Player) : Player := if p.unit = u then { p with cues := updAt p.cues cue (· + 1) } else p
  { r with players := r.players.map take }

def Rehearsal.lead (r : Rehearsal) (entry core : Nat) : Nat :=
  ((r.leads.find? fun l => l.entry == entry && l.core == core).map (·.count)).getD 0

def Rehearsal.setLead (entry core n : Nat) (r : Rehearsal) : Rehearsal :=
  { r with leads := { entry := entry, core := core, count := n } ::
                    r.leads.filter fun l => !(l.entry == entry && l.core == core) }

/-- The destinations of a cue map entry, as stave and cue. -/
def CueEntry.dests (e : CueEntry) : List (Nat × Nat) :=
  (if e.validA then [(e.staveA, e.cueA)] else []) ++ (if e.validB then [(e.staveB, e.cueB)] else [])

/-- The enabled cores of a section named by a broadcast. -/
def broadcastCores (s : State) (a lay : Nat) (e : CueEntry) : List Nat :=
  ((List.range 4).filter fun sec => natBit e.sections sec).flatMap fun sec => layoutSection s a lay sec

/-- The k-th signals of a section's cores complete a round: the chip units' counters rise (R82). -/
def Rehearsal.gather (entry core : Nat) (cores : List Nat) (dests : List (Nat × Nat)) (r : Rehearsal) : Rehearsal :=
  let t := r.setLead entry core (r.lead entry core + 1)
  if cores.all fun c => decide (1 ≤ t.lead entry c) then
    let u := cores.foldl (fun acc c => acc.setLead entry c (acc.lead entry c - 1)) t
    dests.foldl (fun acc d => acc.bump (unitAt 0 d.1) d.2) u
  else t

/-- One signal of an act (R82). -/
def Rehearsal.signal (s : State) (y : Act) (r : Rehearsal) (bit : Nat) : Rehearsal :=
  let core := y.x.fire.core
  let v := y.x.stave
  if 12 ≤ v then
    let e := scCueEntry s.mem r.score (352 + 8 * (v - 12) + bit)
    e.dests.foldl
      (fun acc d => if 12 ≤ d.1 then acc.bump (unitAt 0 d.1) d.2
        else (broadcastCores s r.score r.layout e).foldl (fun k c => k.bump (unitAt c d.1) d.2) acc) r
  else
    match sectionOf s.mem r.score r.layout core with
    | none => r
    | some sec =>
      let i := 88 * sec + 8 * (v - 1) + bit
      let e := scCueEntry s.mem r.score i
      let own := (e.dests.filter fun d => decide (d.1 ≤ 11)).foldl (fun acc d => acc.bump (unitAt core d.1) d.2) r
      let up := e.dests.filter fun d => decide (12 ≤ d.1)
      if up.isEmpty then own else own.gather i core (layoutSection s r.score r.layout sec) up

/-! ## Streams between strokes of one bar (R115, R537) -/

/-- The role of a stroke in the streams of a bar: 1 feeds, 2 works on a feed, 3 drains; 0 takes no part. -/
def streamRole (stave op : Nat) : Nat :=
  if op = 1 then 0
  else if stave = 7 then 1
  else if stave ≤ 4 || stave = 5 then 2
  else if stave = 8 || stave = 6 then 3
  else 0

/-- Two strokes of one core in one bar share a stream: an operation's strokes name one descriptor, a chain takes its window
vectors and is tapped by its REDUCE. -/
def sameStreamGroup (s : State) (p q : Act) : Bool :=
  let m := s.mem
  let rollWith (c o : Act) : Bool :=
    c.x.stave == 5 && c.x.word.op == 0x10 &&
    ((o.x.stave == 7 && o.x.word.op == 0x12) ||
     (o.x.stave == 6 && o.x.word.op == 0x10 && (RedDesc.ofDesc (descOf m o.x.fire o.x.word.desc)).chainDesc == c.x.word.desc))
  let mallet (o : Act) : Bool := o.x.stave == 7 || o.x.stave == 8 || decide (o.x.stave ≤ 4)
  p.at_ == q.at_ && p.x.fire.core == q.x.fire.core && !(p.x.unit == q.x.unit)
    && !(streamRole p.x.stave p.x.word.op == 0) && !(streamRole q.x.stave q.x.word.op == 0)
    && (rollWith p q || rollWith q p || (mallet p && mallet q && p.x.word.desc == q.x.word.desc))

/-- The strokes whose data reaches a stroke, and those that take its data; a merge brings in the other cores of the section. -/
def upstream (s : State) (acts : List Act) (p : Act) : List Act :=
  let role := streamRole p.x.stave p.x.word.op
  acts.filter fun q =>
    sameStreamGroup s p q && decide (streamRole q.x.stave q.x.word.op < role)

def downstream (s : State) (acts : List Act) (p : Act) : List Act :=
  let role := streamRole p.x.stave p.x.word.op
  acts.filter fun q => sameStreamGroup s p q && decide (role < streamRole q.x.stave q.x.word.op)

/-- A stroke ends with a merge across its section (R148, R151, R179, R217). -/
def mergesAcross (m : Memory) (x : Firing) : Bool :=
  let d := descOf m x.fire x.word.desc
  match x.stave, x.word.op with
  | 8, 0x10 => (MatDesc.ofDesc d).combo == 6 || (MatDesc.ofDesc d).combo == 8
  | 8, 0x12 => !(AttnDesc.ofDesc d).pass1
  | 6, 0x10 => (RedDesc.ofDesc d).merge
  | _, _ => false

/-- The same stroke on the other cores of the section. -/
def counterparts (s : State) (lay : Nat) (acts : List Act) (p : Act) : List Act :=
  if mergesAcross s.mem p.x then
    let sec (c : Nat) : Option Nat := sectionOf s.mem p.x.fire.score lay c
    acts.filter fun q => q.at_ == p.at_ && q.x.stave == p.x.stave && !(q.x.fire.core == p.x.fire.core)
      && sec q.x.fire.core == sec p.x.fire.core
  else []

/-- A stroke has done its work: it has fired, is not held back, and so has every stroke whose data it takes. -/
def workDone (s : State) (acts : List Act) (r : Rehearsal) : Nat → Act → Bool
  | 0, _ => false
  | n + 1, p =>
    r.fired.contains p && !(r.held == some p) && (upstream s acts p).all (workDone s acts r n)

/-- A stroke can complete: its work is done, every stroke that takes its data has fired, and so has, under a merge, the same
stroke of every core. -/
def canComplete (s : State) (acts : List Act) (r : Rehearsal) (p : Act) : Bool :=
  workDone s acts r 3 p && (downstream s acts p).all r.fired.contains
    && (counterparts s r.layout acts p).all (workDone s acts r 3)

/-! ## The run -/

/-- The completed strokes of a unit leave it in turn, with their signals: in bar order but for the link unit (R64). -/
def Rehearsal.completeOne (s : State) (acts : List Act) (u : UnitId) (r : Rehearsal) : Option Rehearsal :=
  match r.players.find? fun p => p.unit == u with
  | none => none
  | some p =>
    let ready := if unitStave u = 13 then p.flight.find? (canComplete s acts r) else p.flight.head?.filter (canComplete s acts r)
    match ready with
    | none => none
    | some y =>
      let drop (q : Player) : Player := if q.unit = u then { q with flight := q.flight.filter fun z => !(z == y) } else q
      let t := { r with players := r.players.map drop }
      some (((List.range 8).filter fun b => natBit y.x.word.signal b).foldl (Rehearsal.signal s y) t)

/-- The next stroke of a unit fires when its cues are there and the depth leaves room (R64, R76). -/
def Rehearsal.fireOne (u : UnitId) (r : Rehearsal) : Option Rehearsal :=
  match r.players.find? fun p => p.unit == u with
  | none => none
  | some p =>
    match p.todo with
    | [] => none
    | y :: rest =>
      let wait := y.x.word.wait
      let ready := (List.range 8).all fun c => !natBit wait c || decide (1 ≤ p.cues.getD c 0)
      if ready && decide (p.flight.length < unitDepth (unitStave u)) && !(r.barred == some y) then
        let go (q : Player) : Player :=
          if q.unit = u then
            { q with todo := rest, flight := q.flight ++ [y],
                     cues := q.cues.mapIdx fun c n => if natBit wait c then n - 1 else n }
          else q
        some { r with players := r.players.map go, fired := y :: r.fired }
      else none

/-- One move of the kernel: some unit completes a stroke or fires one. -/
def Rehearsal.move (s : State) (acts : List Act) (r : Rehearsal) : Option Rehearsal :=
  (r.players.map (·.unit)).findSome? fun u =>
    match r.completeOne s acts u with
    | some t => some t
    | none => r.fireOne u

/-- Moves until nothing moves. -/
def Rehearsal.run (s : State) (acts : List Act) : Nat → Rehearsal → Rehearsal
  | 0, r => r
  | n + 1, r => match r.move s acts with | some t => Rehearsal.run s acts n t | none => r

/-- A kernel rehearsed to its end, a stroke held back or barred from firing, or none. Each stroke moves twice. -/
def rehearse (s : State) (a : Nat) (ps : List Byte) (k : List Place) (held barred : Option Act) : Rehearsal :=
  let acts := actsOf s a ps k
  let units := (acts.map fun y => y.x.unit).eraseDups
  let player (u : UnitId) : Player :=
    { unit := u, todo := acts.filter fun y => y.x.unit == u, flight := [], cues := List.replicate 8 0 }
  Rehearsal.run s acts (2 * acts.length + 1)
    { score := a, layout := (k.head?.map (·.layout)).getD 0, players := units.map player, leads := [], fired := [], held := held,
      barred := barred }

/-- One stroke follows another: it does not fire while the other never finishes. -/
def follows (s : State) (a : Nat) (ps : List Byte) (k : List Place) (later earlier : Act) : Bool :=
  !((rehearse s a ps k (some earlier) none).fired.contains later)

/-- One stroke fires after another has fired, which need not have finished. -/
def firesAfter (s : State) (a : Nat) (ps : List Byte) (k : List Place) (later earlier : Act) : Bool :=
  !((rehearse s a ps k none (some earlier)).fired.contains later)

/-- Two strokes are ordered, either way. -/
def ordered (s : State) (a : Nat) (ps : List Byte) (k : List Place) (p q : Act) : Bool :=
  follows s a ps k q p || follows s a ps k p q

/-! ## 0x0008 CUE_BALANCE -/

/-- Cues that reach a unit's counter less those that it waits for, over the acts of some places; a gather counts the signals
of the section's first core. -/
def netCues (s : State) (a lay : Nat) (acts : List Act) (u : UnitId) (cue : Nat) : Int :=
  let arrives (y : Act) (b : Nat) : Nat :=
    let v := y.x.stave
    let core := y.x.fire.core
    if 12 ≤ v then
      let e := scCueEntry s.mem a (352 + 8 * (v - 12) + b)
      ((e.dests.filter fun d => d.2 == cue && d.1 == unitStave u).filter fun d =>
        decide (12 ≤ d.1) || (broadcastCores s a lay e).contains (unitCore u)).length
    else
      match sectionOf s.mem a lay core with
      | none => 0
      | some sec =>
        let e := scCueEntry s.mem a (88 * sec + 8 * (v - 1) + b)
        ((e.dests.filter fun d => d.2 == cue && d.1 == unitStave u).filter fun d =>
          if d.1 ≤ 11 then core == unitCore u else (layoutSection s a lay sec).head? == some core).length
  let inn := (acts.map fun y => (((List.range 8).filter fun b => natBit y.x.word.signal b).map (arrives y)).sum).sum
  let out := (acts.filter fun y => y.x.unit == u && natBit y.x.word.wait cue).length
  (inn : Int) - out

/-- Units of a layout's sections and the chip. -/
def layoutUnits (s : State) (a lay : Nat) : List UnitId := (layoutCores s.fuses.variant s.mem a lay).flatMap coreUnits ++ chipUnits

/-- A counter out of balance over some runs of places, each of one layout, and by how much. -/
def unbalanced (s : State) (a : Nat) (parts : List (List Place)) : Option (UnitId × Nat × Int) :=
  let legs := parts.map fun ps => ((ps.head?.map (·.layout)).getD 0, actsOf s a [] ps)
  ((legs.flatMap fun l => layoutUnits s a l.1).eraseDups).findSome? fun u => (List.range 8).findSome? fun c =>
    let n := (legs.map fun l => netCues s a l.1 l.2 u c).sum
    if n = 0 then none else some (u, c, n)

/-- The places of every turn of every loop that a walk holds whole, from LOOP_BEGIN to LOOP_END. -/
def loopTurns (m : Memory) (a : Nat) (w : List Place) : List (List Place) :=
  w.zipIdx.filterMap fun p =>
    let c := scCtl m a p.1.bar
    if c.op = 3 then
      let before := (w.take (p.2 + 1)).reverse
      let body := before.takeWhile fun q => !(q.bar == ((p.1.loops.getD c.level LoopLevel.closed).beginBar))
      some ((before.take (body.length + 1)).reverse)
    else none

/-- The parts of a turn that lie in one kernel each. -/
def turnParts (t : List Place) : List (List Place) :=
  ((t.map (·.kernel)).eraseDups).map fun k => t.filter fun p => p.kernel == k

/-- A turn or a kernel, given in parts of one layout each, whose signals and waits differ. -/
def balanceFault (s : State) (a e : Nat) (parts : List (List Place)) : Option VerifyReport :=
  (unbalanced s a parts).map fun r =>
    let p := (parts.flatten.getLast?).getD { bar := 0, layout := 0, loops := [], kernel := 0 }
    { VerifyReport.of 0x0008 with
      stave := unitStave r.1, entry := e, bar := p.bar, core := unitCore r.1,
      detailA := r.2.1 * 2 ^ 32 + unsignedOf 32 r.2.2, detailB := packCounters p }

/-- A kernel out of balance, or one that leaves a unit blocked or a gather's lead above zero. -/
def kernelFault (s : State) (a e : Nat) (k : List Place) : Option VerifyReport :=
  let r := rehearse s a [] k none none
  match balanceFault s a e [k], r.players.findSome? fun p => (p.flight ++ p.todo).head? with
  | some f, _ => some f
  | none, some y => some (y.x.report 0x0008 e (if strokeKind y.x.stave y.x.word.op == some 0 then noDesc else y.x.word.desc))
  | none, none => if r.leads.any fun l => decide (0 < l.count) then some { VerifyReport.of 0x0008 with entry := e } else none

/-- A stream-writing stroke without its reading stroke in the bar (R537). -/
def readerMissing (m : Memory) (a bar stave : Nat) (w : StrokeWord) : Bool :=
  let f : Fire := { score := a, core := 0, rank := 0, loops := [], params := [] }
  let mallet (op : Nat) : Bool := (rangeFrom 1 4).any fun v => strokeIs m a bar v op w.desc
  match stave, w.op with
  | 7, 0x10 => !mallet 0x10
  | 7, 0x11 => !mallet 0x11
  | 7, 0x13 => !mallet 0x12
  | 7, 0x12 =>
    let c := strokeOn m a bar 5
    !(c.op == 0x10 && windowChain m f (chainAt m f c.desc))
  | 1, op | 2, op | 3, op | 4, op => decide (0x10 ≤ op) && !strokeIs m a bar 8 op w.desc
  | _, _ => false

def streamsCheck (m : Memory) (a : Nat) : Option VerifyReport :=
  (List.range (scBarCount m a)).findSome? fun b =>
    if (scCtl m a b).mask = 0 then none
    else ((strokesAt m a b (rangeFrom 1 11)).find? fun x => readerMissing m a b x.1 x.2).map fun x =>
      { VerifyReport.of 0x0008 with stave := x.1, bar := b, desc := x.2.desc }

def balanceCheck (s : State) (a : Nat) : Option VerifyReport :=
  let run := (List.range (scEntryCount s.mem a)).findSome? fun e => (entryWalks s.mem a e 2 none).findSome? fun w =>
    match (loopTurns s.mem a w).findSome? fun t => balanceFault s a e (turnParts t) with
    | some r => some r
    | none => (kernelsOf w).findSome? (kernelFault s a e)
  match run with
  | some r => some r
  | none => streamsCheck s.mem a

/-! ## Checks over kernels with real loop counts -/

/-- A check of a kernel of an entry. -/
abbrev KernelCheck := Scalars → Nat → List Place → Option VerifyReport

/-- A check over every kernel of every walk of a score at load: it fails where it fails with no scalar known and with each of the sample
scalars alike. -/
def kernelsCheck (s : State) (a : Nat) (check : KernelCheck) : Option VerifyReport :=
  (List.range (scEntryCount s.mem a)).findSome? fun e => (entryWalks s.mem a e (2 ^ 24) none).findSome? fun w =>
    (kernelsOf w).findSome? fun k =>
      if sampleScalars.all fun ps => (check { params := ps, known := false } e k).isSome then check { params := [], known := false } e k
      else none

/-- The order of Rattle contexts (R197, R255): a CHAIN or STEP that draws from a context follows a RATTLE_SET of its core that
writes it. -/
def contextsOf (m : Memory) (x : Firing) : List Nat :=
  match x.stave, x.word.op with
  | 5, 0x10 => ((chainAt m x.fire x.word.desc).stages.filter fun g => g.op == 0x0F).map fun g => g.arg % 4
  | 5, 0x11 => [(StepDesc.ofDesc (descOf m x.fire x.word.desc)).ctx]
  | _, _ => []

def setsContext (m : Memory) (core ctx : Nat) (y : Act) : Bool :=
  y.x.stave == 11 && y.x.word.op == 0x10 && y.x.fire.core == core && fld (descOf m y.x.fire y.x.word.desc) 1 0 == ctx

/-- A stroke that draws from a context follows some `RATTLE_SET` of it, and every other it either follows too or has fired before, so that
the one whose values it captures is settled (R172, R197). -/
def rattleFault (s : State) (a : Nat) (z : Scalars) (e : Nat) (k : List Place) : Option VerifyReport :=
  let acts := actsOf s a z.params k
  let settled (y : Act) (ctx : Nat) : Bool :=
    let sets := acts.filter (setsContext s.mem y.x.fire.core ctx)
    sets.any (follows s a z.params k y) && sets.all fun w => follows s a z.params k y w || firesAfter s a z.params k w y
  (acts.find? fun y => !((contextsOf s.mem y.x).all (settled y))).map fun y => y.x.report 0x000C e y.x.word.desc

/-- Check 0x000C. -/
def tilesCheck (s : State) (a : Nat) : Option VerifyReport :=
  match firstFiring s a (tileFault s) with
  | some r => some r
  | none => kernelsCheck s a (rattleFault s a)

/-! ## 0x000D LIVENESS (R22, R93) -/

/-- A run lies in the working region of its core. -/
def Run.working (m : Memory) (a : Nat) (r : Run) : Bool :=
  r.space.1 == 0 && decide (scBoundary m a r.space.2 * 65536 ≤ r.start)

/-- What a stroke reads of the working region that no stroke before it in its kernel has written: an entry's first bar counts as a
break, so that a first kernel finds nothing there either (R258). -/
def staleFault (s : State) (a : Nat) (z : Scalars) (e : Nat) (k : List Place) : Option VerifyReport :=
  let acts := actsOf s a z.params k
  acts.findSome? fun y =>
    let stale := ((readRuns s z.known y.x).filter (Run.working s.mem a)).flatMap fun r =>
      r.minusAll ((acts.filter fun w => (writeRuns s z.known w.x).any r.meets && follows s a z.params k y w).flatMap fun w =>
        writeRuns s z.known w.x)
    stale.head?.map fun r => { y.x.report 0x000D e y.x.word.desc with detailA := r.start }

def livenessCheck (s : State) (a : Nat) : Option VerifyReport := kernelsCheck s a (staleFault s a)

/-! ## 0x000E COLL_BREAK -/

/-- The units and counters that a chip unit's signal reaches. -/
def chipSignalDests (s : State) (a lay stave bit : Nat) : List (UnitId × Nat) :=
  let e := scCueEntry s.mem a (352 + 8 * (stave - 12) + bit)
  e.dests.flatMap fun d =>
    if 12 ≤ d.1 then [(unitAt 0 d.1, d.2)] else (broadcastCores s a lay e).map fun c => (unitAt c d.1, d.2)

/-- A collective whose completion cue is waited for by no stroke of its kernel. -/
def collFault (s : State) (a : Nat) (z : Scalars) (e : Nat) (k : List Place) : Option VerifyReport :=
  let acts := actsOf s a z.params k
  let waits (d : UnitId × Nat) : Bool := acts.any fun z => z.x.unit == d.1 && natBit z.x.word.wait d.2
  let strands (y : Act) : Bool :=
    y.x.stave == 13 && y.x.word.op == 0x12 &&
    ((List.range 8).filter fun b => natBit y.x.word.signal b).any fun b =>
      !((chipSignalDests s a y.x.place.layout 13 b).all waits)
  (acts.find? strands).map fun y => y.x.report 0x000E e y.x.word.desc

def collBreakCheck (s : State) (a : Nat) : Option VerifyReport := kernelsCheck s a (collFault s a)

/-! ## 0x000F SCATTER_ORDER (R224) -/

def isScatter (y : Act) : Bool := y.x.stave == 9 && y.x.word.op == 0x10

/-- The runs of a scatter's whole window. -/
def windowRuns (s : State) (known : Bool) (y : Act) : List Run :=
  let x := ScatterDesc.ofDesc (descOf s.mem y.x.fire y.x.word.desc)
  (((windowPositions x).flatMap (positionRuns s y.x.fire y.x.place.layout y.x.word.desc x)).filter fun w => decide (0 < w.len)).map
    (Access.run s.mem y.x.fire.score (if known then some y.x.fire.params else none))

/-- A read of what a scatter writes that does not follow it, or another scatter with a window that meets its own and that is not
ordered with it. -/
def scatterFault (s : State) (a : Nat) (z : Scalars) (e : Nat) (k : List Place) : Option VerifyReport :=
  let acts := actsOf s a z.params k
  (acts.filter isScatter).findSome? fun y =>
    let put := writeRuns s z.known y.x
    let bad (w : Act) : Bool :=
      !(w == y) &&
        (((readRuns s z.known w.x).any (fun r => put.any r.meets) && !follows s a z.params k w y) ||
         (isScatter w && !(runsApart (windowRuns s z.known y) (windowRuns s z.known w)) && !ordered s a z.params k y w))
    (acts.find? bad).map fun w => w.x.report 0x000F e w.x.word.desc

def scatterOrderCheck (s : State) (a : Nat) : Option VerifyReport := kernelsCheck s a (scatterFault s a)

/-! ## 0x0010 OVERLAP (R64) -/

/-- Two strokes touch one byte that one of them writes. -/
def clash (s : State) (known : Bool) (x y : Firing) : Bool :=
  let (rx, wx, ry, wy) := (readRuns s known x, writeRuns s known x, readRuns s known y, writeRuns s known y)
  !(runsApart wx (ry ++ wy) && runsApart wy rx)

/-- A stroke that clashes with a later stroke of its unit which can fire before it has completed. -/
def overlapFault (s : State) (a : Nat) (z : Scalars) (e : Nat) (k : List Place) : Option VerifyReport :=
  let acts := actsOf s a z.params k
  acts.zipIdx.findSome? fun y =>
    ((acts.drop (y.2 + 1)).find? fun w =>
        w.x.unit == y.1.x.unit && clash s z.known y.1.x w.x && !follows s a z.params k w y.1).map fun w =>
      w.x.report 0x0010 e w.x.word.desc

def overlapCheck (s : State) (a : Nat) : Option VerifyReport := kernelsCheck s a (overlapFault s a)

/-! ## Job start (check 0x0021) -/

/-- What the load could not tell of an entry's strokes for want of the job's scalars: the conditions of checks 0x000B, 0x000C, 0x000D, 0x000F
and 0x0010 on the strokes that depend on one (R35, R252, R255). -/
def jobStrokesCheck (s : State) (a e : Nat) (ps : List Byte) : Option VerifyReport :=
  let z : Scalars := { params := ps, known := true }
  (entryWalks s.mem a e (2 ^ 24) (some ps)).findSome? fun w => (kernelsOf w).findSome? fun k =>
    let bound := (firings s a ps k).filter (scalarBound s.mem a)
    if bound.isEmpty then none
    else
      match bound.find? fun x => (badFormat s x).isSome || !tilesHold s x with
      | some x => some (x.report 0x000C e x.word.desc)
      | none => firstReport [rattleFault s a z e k, staleFault s a z e k, scatterFault s a z e k, overlapFault s a z e k]

end Sys2Proof.Machine
end

