-- ==== Sys2Proof/Machine/Sched.lean ====
section
/-! DEFINITION. Which job runs (R405 to R408, R414 to R416, R535): readiness, the scheduling decision, the job-start sequence, and
how units begin a kernel. -/
namespace Sys2Proof.Machine

/-! ## What a score uses (R423) -/

/-- Some bar holds a stroke of opcode `op` on a stave. -/
def usesOp (m : Memory) (a stave op : Nat) : Bool :=
  (List.range (scBarCount m a)).any fun bar => (StrokeWord.ofWord (scStave m a bar stave)).op == op

/-- The score holds a stave-13 stroke or a matrix descriptor of combination 7. -/
def usesLink (m : Memory) (a : Nat) : Bool :=
  ((List.range (scBarCount m a)).any fun bar => !(scStave m a bar 13 == 0)) ||
  ((List.range (scDescCount m a)).any fun i =>
    let d := scStoredDesc m a i
    fld d 63 56 == 0x10 && fld d 459 456 == 7)

/-- The functions a score uses as the bits of `FEATURE_ENABLE`: `ENCODER`, `DECODER`, `LINK`. -/
def scoreFeatures (m : Memory) (a : Nat) : Nat :=
  (if usesOp m a 14 0x10 then 1 else 0) + (if usesOp m a 14 0x11 then 2 else 0) + (if usesLink m a then 4 else 0)

/-- Some function of a set is clear in a setting. -/
def featureClear (uses enable : Nat) : Bool := (List.range 3).any fun i => natBit uses i && !natBit enable i

/-! ## The resident a job needs (R57, R414) -/

/-- The job needs another resident than the one in force. -/
def swapNeeded (s : State) (j : Job) : Bool :=
  !((s.resident.cur.map (·.digest)) == some (scResidentDigest s.mem (s.scoreAddr j)))

/-- The image that a swap for a job puts in force: the empty resident or a catalogue entry. -/
def swapImage (s : State) (j : Job) : Option ResidentImage :=
  let d := scResidentDigest s.mem (s.scoreAddr j)
  if d = emptyDigest then some emptyResident else s.resident.catalogue.find? fun r => r.digest == d

/-! ## Readiness (R406) -/

/-- The active job of a queue, or else its next queued job (R407). -/
def candidateOf (s : State) (fn q : Nat) : Option Job :=
  let mine (j : Job) : Bool := j.fn == fn && j.queue == q
  match s.sched.jobs.find? fun j => mine j && j.active with
  | some j => if j.stage == .parked || j.stage == .evicted then some j else none
  | none => s.sched.jobs.find? fun j => mine j && j.stage == .queued

/-- No other job is active. -/
def noOtherActive (s : State) (j : Job) : Bool := s.sched.jobs.all fun x => x.id == j.id || !x.active

/-- The level of a job (R406). -/
def levelOf (s : State) (j : Job) : Nat := ((s.queue j.fn j.queue).map (·.priority)).getD 0

/-- The table IDs that a pending load replaces (R192). -/
def loadingIds (s : State) : List Nat :=
  s.tables.filterMap fun t => match t.load with | some _ => t.cur.map (·.id) | none => none

/-- The functions that a waiting drain commit disables (R427). -/
def drainingFeatures (s : State) : Nat :=
  match s.staged.commit with
  | some _ =>
    match s.staged.pending.find? fun p => p.1 == 7 with
    | some p => ((List.range 3).map fun i =>
        if natBit s.staged.cur.featureEnable i && !natBit p.2 i then 2 ^ i else 0).sum
    | none => 0
  | none => 0

/-- The table IDs that a descriptor's strokes read (R142, R156, R191, R192, R215): `FN_TABLE`, `NORM` and the fixed table of `CFN` of an
epilogue, the `lut` stages of a chain, `NORM` and `SMAX` of a reduction, the three of an attention operation. -/
def tablesOf (d : Desc) : List Nat :=
  match fld d 63 56 with
  | 0x13 => (if fld d 31 24 = 0 then [] else [fld d 31 24]) ++ (if bitAt d 10 then [0x03] else [])
      ++ (if bitAt d 9 then [0x01] else [])
  | 0x19 => [0x01, 0x02, 0x03]
  | 0x14 =>
    (List.range (fld d 31 29 + 1)).filterMap fun k =>
      let o := 32 * k + 256
      if fld d (o + 31) (o + 26) = 0x0C then some (fld d (o + 10) (o + 3)) else none
  | 0x15 =>
    let r := RedDesc.ofDesc d
    (if r.norm then [0x04] else []) ++ (if r.smax then [0x01, 0x03] else [])
  | _ => []

/-- A stroke of a score reads a chime table: through a stage of a chain, an epilogue, a reduction, or attention. -/
def usesTable (m : Memory) (a id : Nat) : Bool :=
  let f : Fire := { score := a, core := 0, rank := 0, loops := [], params := [] }
  (List.range (scBarCount m a)).any fun b => (strokesAt m a b (rangeFrom 1 15)).any fun x =>
    (usedDescs m f x.1 x.2).any fun r => decide (r.1 < scDescCount m a) && (tablesOf (scStoredDesc m a r.1)).contains id

/-- Nothing that changes holds a queued job back: no pending table load, no waiting drain (R192, R427). -/
def mayStart (s : State) (j : Job) : Bool :=
  let a := s.scoreAddr j
  !((loadingIds s).any fun id => usesTable s.mem a id) &&
  (let d := drainingFeatures s; d == 0 || !((List.range 3).any fun i => natBit d i && natBit (scoreFeatures s.mem a) i))

/-- No refill of a core in any layout of the job's score runs (R520). -/
def noRefill (s : State) (j : Job) : Bool :=
  s.resident.refills.isEmpty ||
  (let cs := scoreCores s (s.scoreAddr j); !(s.resident.refills.any fun c => cs.contains c))

/-- A swap waits for the device to have no active job: a RESIDENT_LOAD, or a queued job that a swap can serve (R415). -/
def swapWaits (s : State) : Bool :=
  s.preempt.swap == 1 &&
  (s.resident.load.isSome ||
   ((List.range 32).any fun fn => (List.range 8).any fun q =>
      match candidateOf s fn q with
      | some j => j.stage == .queued && swapNeeded s j && (swapImage s j).isSome
      | none => false))

/-- A candidate is ready (R406, R415, R416). -/
def ready (s : State) (j : Job) : Bool :=
  let queued := j.stage == .queued
  noRefill s j && (!queued || mayStart s j) &&
  (if !swapNeeded s j then !queued || !swapWaits s
   else if queued then
     (swapImage s j).isNone || s.preempt.swap == 0 || s.preempt.swap == 2 || noOtherActive s j
   else (swapImage s j).isSome && (s.preempt.swap == 2 || (s.preempt.swap == 1 && noOtherActive s j)))

/-- The next ready job of a level but for one (R407). -/
def nextReady (s : State) (level : Nat) (but : Option Nat) : Option Job :=
  (afterLast 32 (s.sched.lastClient.getD level 31)).findSome? fun fn =>
    (afterLast 8 ((s.sched.lastQueue.getD level []).getD fn 7)).findSome? fun q =>
      match s.queue fn q with
      | none => none
      | some k =>
        if k.priority = level then
          match candidateOf s fn q with
          | some j => if !(some j.id == but) && ready s j then some j else none
          | none => none
        else none

/-- The highest level with a ready job but for one. -/
def topLevel (s : State) (but : Option Nat) : Option Nat := [3, 2, 1, 0].find? fun l => (nextReady s l but).isSome

/-- A ready job above a level, but for one job. -/
def readyAbove (s : State) (level : Nat) (but : Option Nat) : Bool :=
  [3, 2, 1, 0].any fun l => decide (level < l) && (nextReady s l but).isSome

/-- Since when each candidate has been ready is noted. -/
def noteReady (s : State) : State :=
  let isCand (j : Job) : Bool := ((candidateOf s j.fn j.queue).map (·.id)) == some j.id
  let note (j : Job) : Job :=
    if isCand j && ready s j then { j with readyAt := some (j.readyAt.getD s.time) } else { j with readyAt := none }
  { s with sched := { s.sched with jobs := s.sched.jobs.map note } }

/-! ## The start of a kernel -/

/-- The layout that a SECTION bar selects; any other bar leaves the layout of the job. -/
def layoutAt (s : State) (j : Job) (bar : Nat) : Nat :=
  let c := scCtl s.mem (s.scoreAddr j) bar
  if c.op = 5 then c.imm % 8 else j.layout

/-- A unit before a bar, its counters zero. -/
def unitAtBar (bar : Nat) (loops : List LoopLevel) : UnitState :=
  { bar := bar, passed := 0, beat := .control, loops := loops, cues := List.replicate 8 0, inflight := [], token := false }

/-- Every active unit of a job stands before a bar; units outside the layout have no job (R74, R89). -/
def beginKernel (j : Job) (bar : Nat) (loops : List LoopLevel) (s : State) : State :=
  let lay := layoutAt s j bar
  let a := s.scoreAddr j
  let cs := layoutCores s.fuses.variant s.mem a lay
  let u := unitAtBar bar loops
  let fetch := fetcherAt s.mem a s.time s.staged.cur.memSuspendLimit u
  let set (c : Nat) (k : Core) : Core :=
    let k' := Core.idled k
    if cs.contains c then { k' with units := k'.units.map fun _ => u, fetch := fetch } else k'
  let t := { s with cores := s.cores.mapIdx set, chips := s.chips.map fun _ => u,
                    chipFetch := s.chipFetch.map fun _ => fetch, gathers := [],
                    sched := { s.sched with layout := lay, current := some j.id } }
  t.updJob j.id fun y => { y with stage := .running, layout := lay }

/-- A job switch discards every held tile (R112). -/
def dropTiles (s : State) : State := { s with cores := s.cores.map fun k => { k with tiles := k.tiles.map fun _ => [] } }

/-- The first beat of a job, or its resume from a break: its turn begins. -/
def beginTurn (j : Job) (bar : Nat) (loops : List LoopLevel) (s : State) : State :=
  (beginKernel j bar loops (dropTiles s)).updJob j.id fun x => { x with runSince := s.time }

/-! ## The job-start sequence (R535) -/

/-- The buffers of kind 2 or 3 of a score that carry a flag (R86). -/
def flaggedBuffers (m : Memory) (a bit : Nat) : List Nat :=
  (List.range (scBufferCount m a)).filter fun i =>
    let b := scBuffer m a i
    decide (2 ≤ b.kind) && natBit b.flags bit

/-- Where a buffer of attached memory lies for a job. -/
def jobBuffer (s : State) (j : Job) (i : Nat) : Nat × Nat :=
  let b := scBuffer s.mem (s.scoreAddr j) i
  ((if b.kind = 3 then jobScalar j.params b.scalar + b.base else b.base), b.size)

/-- The provenance area is large enough, in the map, and clear of scores, resident and declared buffers (R513). -/
def provOk (s : State) (j : Job) : Bool :=
  let a := s.scoreAddr j
  let n := (flaggedBuffers s.mem a 2).length + (flaggedBuffers s.mem a 3).length
  let declared := ((List.range (scBufferCount s.mem a)).filter fun i => decide (2 ≤ (scBuffer s.mem a i).kind)).map (jobBuffer s j)
  decide (64 + 512 + 80 * (n + 64) + 3312 + 768 ≤ j.provSize) && memoryFree s j.provAddr j.provSize &&
  !hitsAny ((s.resident.cur.toList.map fun r => (r.addr, r.size)) ++ declared) j.provAddr j.provSize

/-- Check 0x0012 (R100). -/
def groupsCheck (s : State) (a : Nat) : Option VerifyReport :=
  if (scGroups s.mem a).all fun t => (s.group t).isSome then none else some (VerifyReport.of 0x0012)

/-- Check 0x0020 (R100). -/
def paramsCheck (s : State) (a : Nat) (j : Job) : Option VerifyReport :=
  if j.paramBytes < scParamBytes s.mem a j.entry then some { VerifyReport.of 0x0020 with entry := j.entry }
  else
    ((scalarLoops s.mem a (entryBars s.mem a j.entry)).find? fun p => decide (2 ^ 24 < jobScalar j.params p.2 % 2 ^ 32)).map
      fun p => { VerifyReport.of 0x0020 with stave := 0, entry := j.entry, bar := p.1, detailA := jobScalar j.params p.2 % 2 ^ 32 }

/-- Check 0x0021 (R100). -/
def scalarsCheck (s : State) (a : Nat) (j : Job) : Option VerifyReport :=
  match (List.range (scBufferCount s.mem a)).findSome? (scalarBufferFault s a j.params) with
  | some r => some r
  | none =>
    (firstReport [accessFault s a [j.entry] (some j.params), jobStrokesCheck s a j.entry j.params]).map fun r =>
      { r with code := 0x0021 }

/-- The checks of step 2 in ascending code order. -/
def startChecks (s : State) (j : Job) : Option VerifyReport :=
  let a := s.scoreAddr j
  (((buffersCheck s a).or (groupsCheck s a)).or (paramsCheck s a j)).or (scalarsCheck s a j)

/-- How a job ends before its first beat: status, cause, detail kind, detail, and the source of its log entry. -/
structure StartFault where
  status : Status
  cause : Status
  kind : Nat
  detail : BitVec 352
  source : Nat
  deriving DecidableEq, Repr

/-- A job that fails a check. -/
def StartFault.verify (r : VerifyReport) : StartFault :=
  { status := .verify, cause := .ok, kind := 1, detail := BitVec.ofNat 352 r.number, source := 0x41 }

/-- A job struck at its start. -/
def StartFault.struck (j : Job) (cause : Status) : StartFault :=
  { status := .struck, cause := cause, kind := 0, detail := detailJob j, source := 0x42 }

/-- Steps 1 to 4 of the sequence: the first that fails. -/
def startFault (s : State) (j : Job) : Option StartFault :=
  let a := s.scoreAddr j
  if !provOk s j then some { status := .invalid, cause := .ok, kind := 0, detail := detailJob j, source := 0x41 }
  else
    match startChecks s j with
    | some r => some (.verify r)
    | none =>
      if featureClear (scoreFeatures s.mem a) s.staged.cur.featureEnable then some (.struck j .state)
      else if (scoreCores s a).any fun c => (s.core c).fenced then some (.struck j .state)
      else if s.resident.invalid && !swapNeeded s j then some (.struck j .channelRetired)
      else if swapNeeded s j then
        if (swapImage s j).isNone then some (.verify (VerifyReport.of 0x0011))
        else if s.preempt.swap = 0 then some (.struck j .state)
        else none
      else none

/-- A job that holds the units ends before its first beat: logged, its record posted, the units free; a strike sends its abort requests
(R334). -/
def failStart (j : Job) (f : StartFault) (s : State) : State :=
  let t := freeUnits (endJob j f.status f.cause f.kind f.detail (logError f.source 1 f.status j.fn 0xFF 0xFFFF 0 s))
  if f.status = .struck then abortGroups j 2 t else t

/-- The job that a failed swap ends: `E_VERIFY` with check 0x0011 (R414). -/
def failSwapJob (j : Job) (s : State) : State :=
  freeUnits (endJob j .verify .ok 1 (BitVec.ofNat 352 (VerifyReport.of 0x0011).number)
    (dropHeld j (releaseSave j.id (logError 0x41 1 .verify j.fn 0xFF 0xFFFF 0 s))))

/-- A job comes to a stage whose own requests begin now, under the limit in force (R285, R429). -/
def beginWait (id : Nat) (st : JobStage) (s : State) : State :=
  s.updJob id fun x => { x with stage := st, readFrom := s.time, readLimit := s.staged.cur.memSuspendLimit }

/-- The job-start sequence up to the point where it waits: for a swap (step 4) or for the input digests (step 5). -/
def startJob (j : Job) (s : State) : State :=
  let j' := { j with startedAt := s.time }
  let t := { s with sched := { s.sched with current := some j.id } }
  let t' := t.updJob j.id fun x => { x with startedAt := s.time }
  match startFault t' j' with
  | some f => failStart j' f t'
  | none => beginWait j.id (if swapNeeded t' j' then .swapping else .digesting) t'

/-- A parked or evicted job goes on: after a swap where it needs one, else at the bar after its BREAK or by its restore. -/
def resumeJob (j : Job) (s : State) : State :=
  let t := { s with sched := { s.sched with current := some j.id } }
  if swapNeeded s j then beginWait j.id .swapping t
  else if j.stage == .evicted || (s.sched.save.map (·.job)) == some j.id then beginWait j.id .restoring t
  else beginTurn j j.parkBar j.parkLoops t

/-- A chosen job is served: its client and queue are the last served at its level. -/
def serve (j : Job) (s : State) : State :=
  let l := levelOf s j
  let c := s.sched
  let t := { s with sched := { c with lastClient := updAt c.lastClient l fun _ => j.fn,
                                      lastQueue := updAt c.lastQueue l fun qs => updAt qs j.fn fun _ => j.queue } }
  if j.stage == .queued then startJob j t else resumeJob j t

/-! ## The decision (R407) -/

/-- A RESIDENT_LOAD that waits may copy: no job runs, and under `IDLE` or `NEVER` none is active (R415). -/
def loadDue (s : State) : Bool :=
  s.resident.load.isSome && s.resident.swap.isNone &&
  (match s.currentJob with | none => true | some j => j.stage == .parked) &&
  (s.preempt.swap == 2 || s.sched.jobs.all fun j => !j.active)

/-- The bars from one on to the HALT of its entry, without the body of a loop whose count is 0. -/
def barsAhead (m : Memory) (a : Nat) (params : List Byte) : Nat → Nat → List Nat
  | 0, _ => []
  | n + 1, bar =>
    let c := scCtl m a bar
    if c.op = 6 then [bar]
    else if c.op = 2 && c.countSrc && jobScalar params c.scalar % 2 ^ 32 == 0 then
      barsAhead m a params n (((scLoopEnd m a c.level (scBarCount m a - bar) bar).getD bar) + 1)
    else bar :: barsAhead m a params n (bar + 1)

/-- The bars that a parked job can still reach: from its own position, or from the begin of an open loop with a turn left. -/
def barsReached (s : State) (j : Job) : List Nat :=
  let a := s.scoreAddr j
  let back := j.parkLoops.filterMap fun l => if l.isOpen && decide (l.counter + 1 < l.count) then some l.beginBar else none
  barsAhead s.mem a j.params (scBarCount s.mem a) (back.foldl min j.parkBar)

/-- An active job has passed the point after which it uses a function: it is parked where no bar it can still reach holds a stroke
that does (R427). -/
def pastUse (s : State) (j : Job) (uses : Nat) : Bool :=
  let a := s.scoreAddr j
  j.stage == .parked && (barsReached s j).all fun bar =>
    let w14 := (StrokeWord.ofWord (scStave s.mem a bar 14)).op
    let drain := StrokeWord.ofWord (scStave s.mem a bar 8)
    !(natBit uses 0 && w14 == 0x10) && !(natBit uses 1 && w14 == 0x11) &&
    !(natBit uses 2 && (!(scStave s.mem a bar 13 == 0) ||
      (drain.op == 0x10 && fld (scStoredDesc s.mem a drain.desc) 459 456 == 7)))

/-- A waiting commit may take its downbeat (R427). -/
def commitDue (s : State) : Bool :=
  match s.staged.commit with
  | none => false
  | some _ =>
    let d := drainingFeatures s
    d == 0 || s.sched.jobs.all fun j =>
      !j.active || !((List.range 3).any fun i => natBit d i && natBit (scoreFeatures s.mem (s.scoreAddr j)) i) || pastUse s j d

/-- The load of a slot may take its downbeat: no active job uses the slot's ID (R192). -/
def tableDue (s : State) (t : TableSlot) : Bool :=
  t.load.isSome &&
  (match t.cur with
   | none => true
   | some i => s.sched.jobs.all fun j => !j.active || !usesTable s.mem (s.scoreAddr j) i.id)

/-- A downbeat is due (R192, R428). -/
def downbeatDue (s : State) : Bool := commitDue s || s.tables.any (tableDue s)

/-- Scheduling decisions are held: the firmware does not serve, a downbeat, test or resident swap runs or is due (R428, R430,
R493). -/
def decisionsHeld (s : State) : Bool :=
  !(s.fw.state == .ready) || s.sched.downbeat || downbeatDue s || s.test.isSome || s.resident.swap.isSome || loadDue s

/-- The job parked at this break leaves the units; it counts the switch (R408, R411). -/
def switchAway (j : Job) (s : State) : State :=
  let t := s.updJob j.id fun x => { x with preemptions := x.preemptions + 1 }
  { t with sched := { t.sched with current := none } }

/-- What a scheduling decision does, and whether another follows at once because the job chosen ended at its start. -/
def decideOnce (s : State) : State × Bool :=
  match s.sched.current with
  | none =>
    match (topLevel s none).bind fun l => nextReady s l none with
    | some k => let t := serve k s; (t, t.sched.current.isNone)
    | none => (s, false)
  | some id =>
    match s.job id with
    | none => (s, false)
    | some j =>
      if !(j.stage == .parked) then (s, false)
      else
        let lj := levelOf s j
        let other := (topLevel s (some id)).bind fun l =>
          if lj < l || (l = lj && decide (s.preempt.sliceUs ≤ s.time - j.runSince)) then nextReady s l (some id) else none
        match other with
        | some k => let t := serve k (switchAway j s); (t, t.sched.current.isNone)
        | none =>
          if !noRefill s j then (s, false)
          else if !swapNeeded s j then (beginKernel j j.parkBar j.parkLoops s, false)
          else if ready s j then (resumeJob j s, false)
          else (switchAway j s, true)

/-- Decisions until a job has the units or none can. -/
def decideAll : Nat → State → State
  | 0, s => s
  | n + 1, s =>
    if decisionsHeld s then s
    else
      match decideOnce s with
      | (t, true) => decideAll n t
      | (t, false) => t

/-- What follows every change of readiness: the decision that is due, if it is not held, and the clocks of R433. Flits that waited behind
others are taken where these are gone (R300, R312). -/
def settle (s : State) : State :=
  sendCredits (offerWaiting (restClocks (noteReady (decideAll (s.sched.jobs.length + 1) (noteReady s)))))

end Sys2Proof.Machine
end

