-- ==== Sys2Proof/Machine/Waits.lean ====
section
/-! DEFINITION. Device requests that wait on a suspended memory channel (R284, R285): what waits, since when, and for how long it
may. -/
namespace Sys2Proof.Machine

/-- A stroke in flight as the loader sees one. -/
def flightFiring (s : State) (u : UnitId) (i : Inflight) : Firing :=
  { place := { bar := i.bar, layout := s.sched.layout, loops := (s.unit u).loops, kernel := 0 }, unit := u,
    word := { op := i.op.toNat, wait := 0, signal := i.signal.toNat, desc := i.desc, imm := i.imm.toNat }, fire := fireOf s u i }

/-- The runs of attached memory that a stroke in flight reads or writes. -/
def flightRuns (s : State) (u : UnitId) (i : Inflight) : List (Nat × Nat) :=
  let x := flightFiring s u i
  ((accessesOf s x).filter fun y => y.reads || y.writes).filterMap fun y =>
    let r := y.run s.mem x.fire.score (some x.fire.params)
    if r.space = (1, 0) then some (r.start, r.len) else none

/-- Some run of a list lies in a channel. -/
def anyTouches (ch : Nat) (rs : List (Nat × Nat)) : Bool := rs.any fun r => touchesChan ch r.1 r.2

/-- Some run of a list lies in a suspended channel: its requests wait. -/
def onSuspended (s : State) (rs : List (Nat × Nat)) : Bool :=
  (List.range 128).any fun ch => (s.chan ch).heat == .suspended && anyTouches ch rs

/-- The buffers of a job that carry a flag, as the digest engines read them; before the first beat its step table as well (R232, R509). -/
def digestRuns (s : State) (j : Job) (flag : Nat) : List (Nat × Nat) :=
  let n := jobScalar j.params 1
  let a := jobScalar j.params 4
  (flaggedBuffers s.mem (s.scoreAddr j) flag).map (jobBuffer s j) ++ (if flag = 2 && !(n = 0) && !(a = 0) then [(a, 64 * n)] else [])

/-- The provenance area of a job, as large as its entries can make it (R513). -/
def areaRun (s : State) (j : Job) : Nat × Nat :=
  let a := s.scoreAddr j
  let n := (flaggedBuffers s.mem a 2).length + (flaggedBuffers s.mem a 3).length
  (j.provAddr, 64 + 512 + 80 * (n + 64) + 3312 + 768)

/-- The requests that a job's own stage makes beside its strokes: the digests of its start and of its end, the write of its area, the copy of
a resident swap, and the copy to or from the save area. A job that waits for its signature makes none until the signature is there. -/
def stageRuns (s : State) (j : Job) : List (Nat × Nat) :=
  match j.stage with
  | .digesting => digestRuns s j 2
  | .outputs => areaRun s j :: digestRuns s j 3
  | .signing | .batched => if j.readLimit = 0 then [] else [areaRun s j]
  | .swapping => (s.resident.swap.toList.filter fun _ => s.sched.current == some j.id).map fun r => (r.addr, r.size)
  | .evicting => if s.sched.save.isSome then saveRanges s.preempt else []
  | .restoring => saveRanges s.preempt
  | _ => []

/-- A unit of each fetcher of the running kernel. -/
def fetchHeads (s : State) (j : Job) : List UnitId :=
  (layoutCores s.fuses.variant s.mem (s.scoreAddr j) s.sched.layout).map (fun c => .core (Fin.ofNat 256 c) 1) ++ chipUnits

/-- A wait that began at a time under a limit has lasted too long on a channel: it is counted from the suspension where that came
later, under the limit in force then (R285, R429). -/
def waitedTooLong (s : State) (ch since limit : Nat) : Bool :=
  let c := s.chan ch
  decide (1000 * (if c.suspendedAt ≤ since then limit else c.suspendLimit) < s.time - max since c.suspendedAt)

/-- A request of a job has waited too long on a suspended channel. -/
def jobWaitsTooLong (s : State) (ch : Nat) (j : Job) : Bool :=
  (anyTouches ch (stageRuns s j) && waitedTooLong s ch j.readFrom j.readLimit) ||
  (s.sched.current == some j.id && j.stage == .running && (fetchHeads s j).any fun u =>
    waitedTooLong s ch (s.fetcher u).since (s.fetcher u).limit && anyTouches ch (fetchRuns s (s.scoreAddr j) u)) ||
  (s.sched.current == some j.id && (j.stage == .running || j.stage == .evicting) &&
    (activeUnits s).any fun u => (s.unit u).inflight.any fun i =>
      waitedTooLong s ch i.firedAt i.memLimit && anyTouches ch (flightRuns s u i))

end Sys2Proof.Machine
end

