-- ==== Sys2Proof/Machine/Jobs.lean ====
section
/-! DEFINITION. The life of a job (R90 to R95, R396 to R400, R405 to R420, R428, R508 to R518): submission, beats that arrive and
complete, breaks, HALT to the completion record, evictions, resident swaps, downbeats and strikes. -/
namespace Sys2Proof.Machine

/-! ## Submission (R395 to R397) -/

/-- A byte field of a job descriptor. -/
def subField (x : Submission) (ofs n : Nat) : Nat := byteField x.desc ofs n

/-- A descriptor that completes at once with `E_INVALID` (R397). -/
def descriptorBad (s : State) (fn : Nat) (x : Submission) : Bool :=
  let a := ((s.score (subField x 4 1)).map (·.addr)).getD 0
  let held := ((s.score (subField x 4 1)).map (·.fn)) == some fn
  decide (3 ≤ subField x 6 2) || !(subField x 26 6 == 0) || !(subField x 48 80 == 0) || !held
    || decide (scEntryCount s.mem a ≤ subField x 5 1) || decide (256 < subField x 24 2) || !aligned (subField x 24 2) 8
    || !aligned (subField x 16 8) 8 || (subField x 16 8 == 0 && !(subField x 24 2 == 0)) || subField x 32 8 == 0
    || !aligned (subField x 32 8) 256

/-- The job of a descriptor (R395); scalars beyond `PARAM_BYTES` read as 0 (R233). One whose function does not hold the handle is no job of
any score (R99): 16 names none. -/
def jobOf (s : State) (fn q : Nat) (x : Submission) : Job :=
  { id := s.sched.nextId, fn := fn, queue := q, tag := BitVec.ofNat 32 (subField x 0 4), handle := if ((s.score (subField x 4 1)).map (·.fn)) == some fn then subField x 4 1 else 16,
    entry := subField x 5 1, signMode := subField x 6 2 % 4, jobId := BitVec.ofNat 64 (subField x 8 8), paramBytes := subField x 24 2,
    params := fitBytes (subField x 24 2) x.params, provAddr := subField x 32 8, provSize := subField x 40 8, stage := .queued,
    parkBar := 0, parkLoops := List.replicate 4 LoopLevel.closed, layout := 0, readyAt := none, startedAt := s.time,
    runSince := s.time, readFrom := s.time, readLimit := 0, tested := 0, reused := 0, kernels := 0, preemptions := 0, inputs := [], outputs := [],
    stepDigest := 0, tablesDigest := 0, links := [], opened := [], elapsed := none, body := [] }

/-- One descriptor taken after its doorbell: counted, and queued, or ended at once (R280, R397, R420); a strike sends its abort requests
(R334). -/
def takeSubmission (fn q : Nat) (s : State) (x : Submission) : State :=
  let j := jobOf s fn q x
  let s1 := s.updFunc fn fun g => { g with submitted := g.submitted + 1 }
  let s2 := { s1 with sched := { s1.sched with jobs := s1.sched.jobs ++ [j], nextId := s1.sched.nextId + 1 } }
  if descriptorBad s fn x then endResting j .invalid .ok 0 (detailJob j) s2
  else if ((s.score j.handle).map (·.struck)) == some true then
    abortGroups j 2 (endResting j .struck .channelRetired 0 (detailJob j) s2)
  else s2

/-- The descriptors that stand in the new slots; a slot the sender left out holds zeros. -/
def fitSubs (n : Nat) (l : List Submission) : List Submission :=
  l.take n ++ List.replicate (n - l.length) { desc := 0, params := [] }

/-- A `JQ_SUB_DB` (R383, R388, R396): the doorbell's reserved bits, queue and index are checked, then each new descriptor is
taken in ring order. -/
def ringSubmit (fn : Nat) (value : DWord) (subs : List Submission) (s : State) : State :=
  if !reaches s fn || !serving s then s
  else
    let q := bitField value 32 3
    let tail := bitField value 0 12
    match s.queue fn q with
    | none => logMisuse fn value.toNat s
    | some k =>
      let n := (tail + k.subEntries - k.subTail) % k.subEntries
      if !(bitField value 12 20 == 0) || !(bitField value 35 29 == 0) || k.subEntries ≤ tail || k.subEntries ≤ k.unposted + n then
        logMisuse fn value.toNat s
      else
        let s1 := s.updQueue fn q fun x => { x with subTail := tail, unposted := x.unposted + n }
        settle ((fitSubs n subs).foldl (takeSubmission fn q) s1)

/-- A ring's head moves to `head` past written entries only: how many slots that releases, if it may. -/
def releaseCount (entries write unreleased head : Nat) : Option Nat :=
  if entries ≤ head then none
  else
    let old := (write + entries - unreleased % entries) % entries
    let n := (head + entries - old) % entries
    if n ≤ unreleased then some n else none

/-- A `JQ_CMP_DB` (R388, R398): slots are released, and held records follow. -/
def ringRelease (fn : Nat) (value : DWord) (s : State) : State :=
  if !reaches s fn || !serving s then s
  else
    let q := bitField value 32 3
    match s.queue fn q with
    | none => logMisuse fn value.toNat s
    | some k =>
      if !(bitField value 12 20 == 0) || !(bitField value 35 29 == 0) then logMisuse fn value.toNat s
      else
        match releaseCount k.cmpEntries k.cmpWrite k.cmpUnreleased (bitField value 0 12) with
        | none => logMisuse fn value.toNat s
        | some n =>
          settle (drainRecords fn q (k.held.length + 1)
            (s.updQueue fn q fun x => { x with cmpUnreleased := x.cmpUnreleased - n }))

/-! ## Beats that arrive and complete -/

/-- `FETCH_ARRIVAL` (R95): the fetcher of a unit has read a bar with the descriptors that it names, or descriptors that had left its
cache; a read from a suspended channel waits (R284). -/
def execFetchArrival (u : UnitId) (s : State) : Host.Outcome State Fault Refusal :=
  .next (match s.currentJob with
    | none => s
    | some j => if j.stage == .running && !onSuspended s (fetchRuns s (s.scoreAddr j) u) then fetchOnce j u s else s)

/-- What waited for a stroke to leave goes on: a mode change of a Mallet unit waits for the strokes before it (R124). -/
def flowAfter (u : UnitId) (s : State) : State := if unitStave u ≤ 4 then flowFrom (unitCore u) s else s

/-- `STROKE_COMPLETE` (R64, R78 to R83): the stroke in a slot completes and sends its signals, once no request of it waits on a
suspended channel (R284). -/
def execStrokeComplete (u : UnitId) (slot : Nat) (s : State) : Host.Outcome State Fault Refusal :=
  .next (match (s.unit u).inflight[slot]? with
    | none => s
    | some i =>
      if mayComplete u slot i s && !onSuspended s (flightRuns s u i) then flowAfter u (completeStroke u slot s) else s)

/-- The event record of a `NOTIFY` (R400). -/
def notifyRecord (j : Job) (imm bar : Nat) (loops : List Nat) : Record :=
  { tag := j.tag, status := .ok, cause := .ok, event := true, provAddr := 0, kind := 4,
    detail := BitVec.ofNat 352 (packFields ([(4, imm), (4, bar)] ++ (List.range 4).map fun i => (4, loops.getD i 0))),
    job := none }

/-- A `NOTIFY` posts its record, or pauses while the ring is full (R77, R400). -/
def postNotify (j : Job) (key imm bar : Nat) (loops : List Nat) (s : State) : State :=
  match s.queue j.fn j.queue with
  | none => doneStroke codecUnit key s
  | some k =>
    if k.full || !k.held.isEmpty then setPhase codecUnit key .paused s
    else doneStroke codecUnit key (postRecord j.fn j.queue (notifyRecord j imm bar loops) s)

def notifyBody (b : BeatCtx) (key : Nat) (s : State) : State := postNotify b.job key b.word.imm b.bar b.fire.loops s

/-- A paused `NOTIFY` tries again. -/
def resumeNotify (_ : UnitId) (i : Inflight) (s : State) : State :=
  match s.currentJob with
  | none => s
  | some j => postNotify j i.key i.imm.toNat i.bar i.loops s

/-- `NOTIFY` (R400). -/
def execNotify (s : State) : Host.Outcome State Fault Refusal := .next (runStroke codecUnit 0x20 noStream notifyBody s)

/-! ## STROKE_RESUME -/

/-- A paused stroke of a core goes on, and with it what waits for its stream: not one whose partial stands behind another at its port
(R149), nor one with a flit that still waits for credit. -/
def resumeCore (u : UnitId) (i : Inflight) (s : State) : State :=
  let c := unitCore u
  let behind := match headItem (s.core c) (unitStave u == 6) with
    | some h => !(h.key == i.key) && (s.core c).merges.any fun x => x.key == i.key
    | none => false
  if behind then s else flowFrom c (resumeSend u i.key s)

/-- Credit has returned to a paused stroke: a RECV whose window is free opens it, a send's flits have all gone, a stream has room, or a
partial has come to the head of its port (R77, R149, R307). -/
def resumeStroke (u : UnitId) (i : Inflight) (s : State) : State :=
  if unitStave u = 14 then resumeNotify u i s
  else if unitStave u = 13 then
    if i.op = 0x11 then
      let f := fireOf s u i
      let wi := recvWindow s.mem f i.desc
      if (slotAt s.fabric.windows wi).isSome || recvBefore s wi i.key then s
      else openWindow wi (windowFor s f i.desc i.key) (setPhase u i.key .running s)
    else resumeSend u i.key s
  else resumeCore u i s

/-- STROKE_RESUME (R77): a pause has no time limit and changes no result. -/
def execStrokeResume (u : UnitId) (slot : Nat) (s : State) : Host.Outcome State Fault Refusal :=
  .next (match (s.unit u).inflight[slot]? with
    | none => s
    | some i => if i.phase == .paused && !strikePending s then resumeStroke u i s else s)

/-! ## Breaks and HALT (R92, R93, R516) -/

/-- The position of the tallied units: the chip units stand where every unit stands. -/
def restingUnit (s : State) : UnitState := s.unit (.chip 12)

/-- The kernel of a job has ended at a break: the job is parked there (R92, R93). -/
def parkAtBreak (j : Job) (s : State) : State :=
  let u := restingUnit s
  s.updJob j.id fun x =>
    { x with stage := .parked, kernels := x.kernels + 1, parkBar := u.bar + 1, parkLoops := u.loops, layout := s.sched.layout }

/-- Some layout of a job's score holds a fenced core (R491). -/
def onFence (s : State) (j : Job) : Bool := (scoreCores s (s.scoreAddr j)).any fun c => (s.core c).fenced

/-- A job is struck with `E_STATE`, and that is logged (R491). -/
def strikeState (s : State) (j : Job) : State :=
  strikeJob j .state 0 (detailNow s j) (logError 0x42 1 .struck j.fn 0xFF 0xFFFF 0 s)

/-- The job is parked at its break; no job resumes onto a fenced core, so that one with such a core is struck there (R491). -/
def reachBreak (j : Job) (s : State) : State :=
  let t := parkAtBreak j s
  match t.job j.id with
  | some k => if onFence t k then strikeState t k else t
  | none => t

/-- `KERNEL_COMPLETE` (R92, R407). -/
def execKernelComplete (s : State) : Host.Outcome State Fault Refusal :=
  .next (match s.currentJob with
    | none => s
    | some j => if tallied s .parked && !strikePending s then settle (reachBreak j s) else s)

/-- The tables digest (R510). -/
def tablesDigest (s : State) : Digest :=
  shake256 (s.tables.flatMap fun t =>
    match t.cur with
    | some i => BitVec.ofNat 8 i.id :: digestBytes i.digest
    | none => List.replicate 65 0)

/-- A job that is over leaves the units; its outputs wait for the digest engines behind those of earlier jobs. -/
def leaveUnits (j : Job) (s : State) : State :=
  let t := (closeWindows j (idleUnits s)).updJob j.id fun x =>
    { x with stage := .outputs, kernels := x.kernels + 1, elapsed := some (elapsedOf s j), tablesDigest := tablesDigest s,
             readFrom := s.time, readLimit := s.staged.cur.memSuspendLimit }
  let mine (x : Job) : Bool := x.id == j.id
  freeUnits { t with sched := { t.sched with jobs := (t.sched.jobs.filter fun x => !mine x) ++ t.sched.jobs.filter mine } }

/-- A downbeat's park request stays when a job leaves the units. -/
def keepDownbeat (before after : State) : State :=
  if before.sched.downbeat then { after with sched := { after.sched with parks := [.downbeat] } } else after

/-- `JOB_HALT_COMPLETE` (R92, R516). -/
def execJobHaltComplete (s : State) : Host.Outcome State Fault Refusal :=
  .next (match s.currentJob with
    | none => s
    | some j => if tallied s .stopped && !strikePending s then settle (keepDownbeat s (leaveUnits j s)) else s)

/-! ## Digests and the provenance body (R504, R508 to R512) -/

/-- ASCII text as bytes. -/
def ascii (t : String) : List Byte := t.toList.map fun c => BitVec.ofNat 8 c.toNat

/-- The digests of the buffers that carry a flag: index, bytes, digest. -/
def bufferDigests (s : State) (j : Job) (flag : Nat) : List (Nat × Nat × Digest) :=
  (flaggedBuffers s.mem (s.scoreAddr j) flag).map fun i =>
    let r := jobBuffer s j i
    (i, r.2, chunkedDigest s.mem r.1 r.2)

/-- The step-table digest (R232). -/
def stepTableDigest (s : State) (j : Job) : Digest :=
  let n := jobScalar j.params 1
  let a := jobScalar j.params 4
  if n = 0 || a = 0 then 0 else shake256 (s.mem.readBytes a (n * 64))

/-- `INPUT_DIGESTS_DONE` (R509, R535 steps 5 and 6): the input digests stand, and the first beat runs; not while a core of the score is being
refilled (R520). -/
def execInputDigestsDone (s : State) : Host.Outcome State Fault Refusal :=
  .next (match s.currentJob with
    | none => s
    | some j =>
      if j.stage == .digesting && !s.sched.downbeat && !onSuspended s (digestRuns s j 2) && noRefill s j then
        let t := s.updJob j.id fun x => { x with inputs := bufferDigests s j 2, stepDigest := stepTableDigest s j }
        beginTurn j (scFirstBar s.mem (s.scoreAddr j) j.entry) (List.replicate 4 LoopLevel.closed) t
      else s)

/-- An entry of the body (R512). -/
def bodyEntry (buffer peer openings bytes : Nat) (d : Digest) : List Byte :=
  packBytes [(2, buffer), (2, peer), (4, openings), (8, bytes)] ++ digestBytes d

/-- Link records in ascending peer, window and direction: received before sent. -/
def linkOrder (a b : LinkRecord) : Bool :=
  decide (a.peer * 32 + a.window * 2 + (if a.sent then 1 else 0) ≤ b.peer * 32 + b.window * 2 + (if b.sent then 1 else 0))

/-- One link record put in its place. -/
def insertLink (x : LinkRecord) : List LinkRecord → List LinkRecord
  | [] => [x]
  | y :: ys => if linkOrder x y then x :: y :: ys else y :: insertLink x ys

def sortLinks (l : List LinkRecord) : List LinkRecord := l.foldr insertLink []

/-- The entry of a link record: the digest of its opening digests in order (R510, R512). -/
def linkEntry (l : LinkRecord) : List Byte :=
  bodyEntry (l.window + (if l.sent then 256 else 0)) l.peer l.openings l.bytes (shake256 (l.digests.flatMap digestBytes))

/-- SHAKE256 with an output of 32 bytes, which is the head of its longer outputs. -/
def shakeSeed (bs : List Byte) : List Byte := (digestBytes (shake256 bs)).take 32

/-- The seed of the identity key (R504). -/
def idSeed (s : State) : List Byte := shakeSeed (ascii "Holtastent Grandarex identity v1" ++ s.fuses.uds)

/-- The identity public key. -/
def identityKey (s : State) : List Byte := fitBytes 1952 (Config.keyGen (idSeed s))

/-- The identity digest (R504). -/
def identityDigest (s : State) : Digest := shake256 (identityKey s)

/-- The group-layout digest of a score (R319). -/
def groupLayoutDigest (s : State) (a : Nat) : Digest :=
  let tags := scGroups s.mem a
  if tags.isEmpty then 0
  else shake256 (tags.flatMap fun t => ((s.group t).map fun g => leBytes 24 g.defn.toNat).getD (List.replicate 24 0))

/-- The provenance body (R511). -/
def provBody (s : State) (j : Job) : List Byte :=
  let a := s.scoreAddr j
  let links := sortLinks j.links
  let kept := links.take 64
  let js (i : Nat) : Nat := jobScalar j.params i
  let digests : List Digest :=
    [identityDigest s, s.fw.measurement, ((s.score j.handle).map (·.digest)).getD 0, scResidentDigest s.mem a, j.stepDigest,
     groupLayoutDigest s a, j.tablesDigest]
  packBytes [(2, 1), (1, s.mem.readNat (a + 5) 1), (1, j.entry), (2, j.inputs.length), (2, j.outputs.length),
             (2, kept.length), (2, s.inv.member.toNat), (4, if 64 < links.length then 1 else 0), (8, j.jobId.toNat), (8, js 0),
             (8, js 1), (4, js 2), (4, js 3)]
    ++ digests.flatMap digestBytes ++ List.replicate 16 0
    ++ j.inputs.flatMap (fun e => bodyEntry e.1 0xFFFF 0 e.2.1 e.2.2)
    ++ j.outputs.flatMap (fun e => bodyEntry e.1 0xFFFF 0 e.2.1 e.2.2)
    ++ kept.flatMap linkEntry

/-! ## Signing (R513 to R516) -/

/-- The header of a provenance area (R513). -/
def areaHeader (kind path body leaf count seq : Nat) : List Byte :=
  packBytes [(4, 0x50565247), (1, kind), (1, 0), (2, path), (4, body), (4, leaf), (4, count), (4, 0), (8, seq), (32, 0)]

/-- The `SIG_KIND` of a signing mode. -/
def sigKind (mode : Nat) : Nat := if mode = 0 then 1 else if mode = 1 then 2 else 0

/-- A signature over a message in a context, 3,309 bytes (R500, R514). -/
def signBytes (ctx : String) (msg : List Byte) (s : State) : List Byte × State :=
  (fitBytes 3309 (Config.signature s.fresh (ascii ctx) msg), { s with fresh := s.fresh + 1 })

/-- The job ends with `OK` and its provenance body. -/
def endOk (j : Job) (s : State) : State := endJob j .ok .ok 0 (detailJob j) s

/-- `OUTPUT_DIGESTS_DONE` (R516 steps 1 to 3): the oldest job that waits for its output digests gets its body and its area;
unsigned it ends, else its body waits for a signature or joins the open batch. -/
def execOutputDigestsDone (s : State) : Host.Outcome State Fault Refusal :=
  .next (match s.sched.jobs.find? fun j => j.stage == .outputs with
    | none => s
    | some j0 =>
      if onSuspended s (areaRun s j0 :: digestRuns s j0 3) then s
      else
      let j1 := { j0 with outputs := bufferDigests s j0 3 }
      let body := provBody s j1
      let j := { j1 with body := body }
      let mode := j.signMode
      let s1 := guardedWrite j.fn 0xFF (s.updJob j.id fun _ => j) j.provAddr (areaHeader (sigKind mode) 0 body.length 0 0 0 ++ body)
      if mode = 2 then settle (endOk j (guardedWrite j.fn 0xFF s1 (j.provAddr + 64 + body.length) (List.replicate 3312 0)))
      else if mode = 0 then
        { s1.updJob j.id fun x => { x with stage := .signing, readLimit := 0 } with sec := { s1.sec with sign := s1.sec.sign ++ [.body j.id] } }
      else
        { s1.updJob j.id fun x => { x with stage := .batched, readLimit := 0 } with
          sec := { s1.sec with open_ := s1.sec.open_ ++ [(j.id, body)],
                               openedAt := if s1.sec.open_.isEmpty then s1.time else s1.sec.openedAt } })

/-- `BATCH_CLOSE` (R515): the open batch closes when it holds 4,096 bodies or is 10 ms old. -/
def execBatchClose (s : State) : Host.Outcome State Fault Refusal :=
  .next (
    if !s.sec.open_.isEmpty && (decide (4096 ≤ s.sec.open_.length) || decide (s.sec.openedAt + 10000 ≤ s.time)) then
      let seq := s.sec.batchSeq + 1
      let now := s.sec.open_.take 4096
      { s with sec := { s.sec with batchSeq := seq, open_ := s.sec.open_.drop 4096, openedAt := s.time,
                                   sign := s.sec.sign ++ [.batch (now.map (·.1)) seq (now.map (·.2))] } }
    else s)

def batchLeaf (body : List Byte) : Digest := shake256 (0 :: body)
def batchNode (a b : Digest) : Digest := shake256 (1 :: (digestBytes a ++ digestBytes b))

/-- The nodes above a level: one without a right neighbour passes up unchanged (R515). -/
def batchUp : List Digest → List Digest
  | a :: b :: rest => batchNode a b :: batchUp rest
  | l => l

/-- The root of a level's tree. -/
def batchRoot : Nat → List Digest → Digest
  | 0, l => l.headD 0
  | n + 1, l => if l.length ≤ 1 then l.headD 0 else batchRoot n (batchUp l)

/-- The siblings of leaf `i` in order of use. -/
def batchPath : Nat → Nat → List Digest → List Digest
  | 0, _, _ => []
  | n + 1, i, l =>
    if l.length ≤ 1 then []
    else
      let sib := if i % 2 = 1 then [l.getD (i - 1) 0] else if i + 1 < l.length then [l.getD (i + 1) 0] else []
      sib ++ batchPath n (i / 2) (batchUp l)

/-- The batch statement (R514). -/
def batchStatement (s : State) (count seq : Nat) (root : Digest) : List Byte :=
  packBytes [(4, 0x42545247), (4, count), (8, seq)] ++ digestBytes (identityDigest s) ++ digestBytes root

/-- The area of one body of a signed batch is written, and its job ends; a job that has ended otherwise keeps its area. -/
def finishLeaf (sig : List Byte) (seq : Nat) (leaves : List Digest) (s : State) (p : Nat × Nat) : State :=
  match s.job p.2 with
  | none => s
  | some j =>
    if j.stage == .batched then
      let path := batchPath 13 p.1 leaves
      let s1 := guardedWrite j.fn 0xFF s j.provAddr (areaHeader 2 path.length j.body.length p.1 leaves.length seq)
      let s2 := guardedWrite j.fn 0xFF s1 (j.provAddr + 64 + j.body.length) (fitBytes 3312 sig ++ path.flatMap digestBytes)
      endOk j s2
    else s

/-- The areas that the message signed next is written into. -/
def signedJobs (s : State) : List Job :=
  match s.sec.sign with
  | .body id :: _ => (s.job id).toList
  | .batch ids _ _ :: _ => (ids.filterMap s.job).filter fun j => j.stage == .batched
  | _ => []

/-- The writes of some jobs' areas wait from now on (R284, R285). -/
def beginAreaWait (js : List Job) (s : State) : State :=
  js.foldl (fun acc j => if j.readLimit = 0 then beginWait j.id j.stage acc else acc) s

/-- Limits of the ordering codes (R2). -/
def maxClock (v : Variant) : Nat := match v with | .grx256F => 3000 | .grx240S => 2800
def maxPower (v : Variant) : Nat := match v with | .grx256F => 1650 | .grx240S => 1350
def variantCode (v : Variant) : Nat := match v with | .grx256F => 0 | .grx240S => 1

/-- The seed of the alias key, its public key, and its digest (R504). -/
def aliasSeed (s : State) : List Byte :=
  shakeSeed (ascii "Holtastent Grandarex alias v1" ++ idSeed s ++ digestBytes s.fw.measurement)
def aliasKey (s : State) : List Byte := fitBytes 1952 (Config.keyGen (aliasSeed s))
def aliasDigest (s : State) : Digest := shake256 (aliasKey s)

/-- The loaded scores of a function in ascending handle. -/
def scoresOf (s : State) (fn : Nat) : List Score := (s.scores.filterMap id).filter fun x => x.fn == fn

/-- The quote body (R507). -/
def quoteBody (s : State) (fn seq : Nat) (nonce : List Byte) : List Byte :=
  let bare := s.fw.state == .bare
  let mine := if bare then [] else scoresOf s fn
  let resident : Digest := if bare then 0 else ((s.resident.cur.map (·.digest)).getD 0)
  let scores : Digest := if mine.isEmpty then 0 else shake256 (mine.flatMap fun x => digestBytes x.digest)
  packBytes [(4, 0x51545247), (1, 1), (1, s.fw.state.code), (2, s.fw.ifRev.toNat), (8, seq), (8, s.time), (8, s.fuses.svBlown),
             (8, s.fw.imageSv)]
    ++ fitBytes 32 nonce ++ digestBytes (identityDigest s) ++ digestBytes s.fw.measurement ++ digestBytes (aliasDigest s)
    ++ digestBytes resident ++ digestBytes scores ++ digestBytes (if bare then 0 else tablesDigest s)
    ++ packBytes [(1, mine.length), (1, fn), (1, variantCode s.fuses.variant), (1, s.fuses.stepping.toNat), (52, 0)]

/-- A quote is signed and written, and its call responds (R507). -/
def finishQuote (fn : Nat) (tag : Word) (addr nonce : Nat) (s : State) : State :=
  let seq := s.sec.quoteSeq + 1
  let body := quoteBody s fn seq (leBytes 32 nonce)
  let (sig, t) := signBytes "grx-quote" body { s with sec := { s.sec with quoteSeq := seq } }
  nextTurn (respond fn tag 0x90 .ok seq (hostWrite addr (body ++ sig) t))

/-- `BODY_SIGNED` (R514, R516 steps 3 to 6): the oldest message is signed; areas are written and records posted, or a quote's call responds.
Areas on a suspended channel wait (R284). -/
def execBodySigned (s : State) : Host.Outcome State Fault Refusal :=
  .next (
    if onSuspended s ((signedJobs s).map (areaRun s)) then beginAreaWait (signedJobs s) s
    else
    match s.sec.sign with
    | [] => s
    | .body id :: rest =>
      let s1 := { s with sec := { s.sec with sign := rest } }
      match s1.job id with
      | none => s1
      | some j =>
        let (sig, s2) := signBytes "grx-prov" j.body s1
        settle (endOk j (guardedWrite j.fn 0xFF s2 (j.provAddr + 64 + j.body.length) (fitBytes 3312 sig)))
    | .batch ids seq bodies :: rest =>
      let s1 := { s with sec := { s.sec with sign := rest } }
      let leaves := bodies.map batchLeaf
      let (sig, s2) := signBytes "grx-batch" (batchStatement s1 leaves.length seq (batchRoot 13 leaves)) s1
      settle (((List.range ids.length).zip ids).foldl (finishLeaf sig seq leaves) s2)
    | .quote fn tag addr nonce :: rest => finishQuote fn tag addr nonce { s with sec := { s.sec with sign := rest } })

/-! ## Evictions (R409 to R413) -/

/-- A save area that may be used (R413). -/
def saveAreaOk (s : State) (p : PreemptPolicy) : Bool :=
  let chans := (List.range 96).filter fun c => bitAt p.saveChannels c
  let n := (enabledCores s.fuses.variant).length
  let others := (s.scores.filterMap id).map (fun x => (x.addr, x.size))
    ++ (s.resident.cur.toList.map fun r => (r.addr, r.size)) ++ codecRanges s
    ++ (s.groups.filterMap id).map fun g => (g.spillAddr, g.spillSize)
  chans.all (fun c => (s.chan c).state == .active && decide (p.saveOfs + p.saveBytes ≤ (s.chan c).bytes))
    && aligned p.saveBytes 65536 && decide (n * scratchSize + 262144 ≤ chans.length * p.saveBytes)
    && (saveRanges p).all fun r => !hitsAny others r.1 r.2

/-- A job above the running one has been ready for longer than `BREAK_WAIT_US` (R409). -/
def evictorWaits (s : State) (j : Job) : Bool :=
  s.sched.jobs.any fun k =>
    decide (levelOf s j < levelOf s k) &&
    (match k.readyAt with | some t => decide (s.preempt.breakWaitUs < s.time - t) | none => false)

/-- `EVICTION_BEGIN` (R409, R410 step 1). -/
def execEvictionBegin (s : State) : Host.Outcome State Fault Refusal :=
  .next (match s.currentJob with
    | none => s
    | some j =>
      if j.stage == .running && !tallied s .parked && !tallied s .stopped && evictorWaits s j && s.preempt.evict
          && saveAreaOk s s.preempt && s.sched.save.isNone && s.sched.parks.isEmpty && !s.sched.downbeat && s.test.isNone then
        let t := s.updJob j.id fun x => { x with stage := .evicting }
        { t with sched := { t.sched with parks := [.eviction] } }
      else s)

/-- The working region of a core (R21). -/
def workingRange (s : State) (c : Nat) : Nat × Nat :=
  let b := (s.core c).boundary * 65536
  (scratchBase c + b, scratchSize - b)

/-- The state of the active units (R94, R410 step 3). -/
def saveState (s : State) (j : Job) : SaveArea :=
  let cs := layoutCores s.fuses.variant s.mem (s.scoreAddr j) s.sched.layout
  { job := j.id, cores := cs.map fun c => (c, s.core c), chips := s.chips, gathers := s.gathers, work := [] }

/-- No park request stands. -/
def clearParks (s : State) : State := { s with sched := { s.sched with parks := [] } }

/-- `EVICTION_PARKED` (R410 steps 2 and 3): every stroke in flight has completed. Where every unit has passed a break it is a
switch there; where every unit has halted the job is over; else the state is saved and the copy begins, or, with no valid save
area any more, the job runs on (R413). -/
def execEvictionParked (s : State) : Host.Outcome State Fault Refusal :=
  .next (match s.currentJob with
    | none => s
    | some j =>
      if j.stage == .evicting && !strikePending s && s.sched.save.isNone && allParked s fun _ _ => false then
        let t := s.updJob j.id fun x => { x with stage := .running }
        if tallied t .parked then settle (reachBreak j (clearParks t))
        else if tallied t .stopped then settle (leaveUnits j (clearParks t))
        else if !saveAreaOk s s.preempt || !s.preempt.evict then clearParks t
        else
          let v := idleUnits ((beginWait j.id .evicting s).updJob j.id fun x => { x with layout := s.sched.layout })
          { v with sched := { v.sched with save := some (saveState s j) } }
      else s)

/-- `EVICTION_COPY_DONE` (R410 steps 4 and 5): the working regions are in the save area, whose layout is the device's own; the
job is evicted and a decision follows. What an image loaded over the area in the meantime keeps out of it is lost (R96; DESIGN CHOICE,
log 112). -/
def execEvictionCopyDone (s : State) : Host.Outcome State Fault Refusal :=
  .next (match s.currentJob, s.sched.save with
    | some j, some a =>
      if j.stage == .evicting && !strikePending s && !onSuspended s (saveRanges s.preempt) then
        let rs := imageRanges s
        let lost := (saveRanges s.preempt).any fun r => hitsAny rs r.1 r.2
        let work := a.cores.map fun c =>
          let r := workingRange s c.1
          (r.1, if lost then [] else s.mem.readBytes r.1 r.2)
        let s1 := (saveRanges s.preempt).foldl (fun acc r => guardedForget rs j.fn 0xFF r.1 r.2 acc) s
        let s2 := s1.updJob j.id fun x => { x with stage := .evicted, preemptions := x.preemptions + 1 }
        settle (clearParks { s2 with sched := { s2.sched with save := some { a with work := work }, current := none } })
      else s
    | _, _ => s)

/-- A fetcher begins again where the slowest of some units stands. -/
def refetch (m : Memory) (a since limit : Nat) (us : List UnitState) : Fetcher :=
  let slowest := us.foldl (fun y x => if x.passed < y.passed then x else y) (us.headD UnitState.idle)
  fetcherAt m a since limit slowest

/-- A core as it was saved, but for what belongs to the device: its scratch boundary, counters, held tiles and modes. -/
def Core.restored (fetch : Fetcher) (k saved : Core) : Core :=
  { saved with fenced := k.fenced, boundary := k.boundary, counters := k.counters, tiles := k.tiles, gangMode := k.gangMode,
               fetch := fetch }

/-- The working region of a core is back as it was saved; one that the save area lost holds undefined contents. -/
def restoreWork (s : State) (x : (Nat × Core) × (Nat × List Byte)) : State :=
  if x.2.2.isEmpty then let r := workingRange s x.1.1; forgetRange r.1 r.2 s
  else { s with mem := s.mem.writeBytes x.2.1 x.2.2 }

/-- The saved units, contexts and working regions are back (R410 step 6). -/
def restoreState (score : Nat) (a : SaveArea) (s : State) : State :=
  let t := (a.cores.zip a.work).foldl restoreWork s
  let limit := s.staged.cur.memSuspendLimit
  let cores := a.cores.foldl
    (fun l c => updAt l c.1 fun k => k.restored (refetch t.mem score s.time limit c.2.units) c.2) t.cores
  let back (i : Nat) (u : UnitState) : UnitState := a.chips.getD i u
  let chips := s.chips.mapIdx back
  { t with cores := cores, chips := chips, chipFetch := chips.map fun x => fetcherAt t.mem score s.time limit x, gathers := a.gathers }

/-- `RESTORE_DONE` (R410 step 6). -/
def execRestoreDone (s : State) : Host.Outcome State Fault Refusal :=
  .next (match s.currentJob, s.sched.save with
    | some j, some a =>
      if j.stage == .restoring && a.job == j.id && !strikePending s && !onSuspended s (saveRanges s.preempt) && noRefill s j then
        let s1 := restoreState (s.scoreAddr j) a (dropTiles s)
        let s2 := s1.updJob j.id fun x => { x with stage := .running, runSince := s.time }
        restClocks { s2 with sched := { s2.sched with save := none, layout := j.layout } }
      else s
    | _, _ => s)

/-! ## Resident swaps (R259 to R262, R414, R415) -/

/-- The boundaries in the header of a resident image (R259). -/
def imageBounds (m : Memory) (a : Nat) : List Nat := (List.range 256).map fun c => m.readNat (a + 64 + 2 * c) 2

/-- Where the segment of core `c` stands in an image. -/
def segmentAt (r : ResidentImage) (c : Nat) : Nat × Nat :=
  (r.addr + 1024 + 65536 * (r.bounds.take c).sum, 65536 * r.bounds.getD c 0)

/-- The resident region of a core is rewritten from an image, and its held tiles go (R112, R262). -/
def fillCore (r : ResidentImage) (c : Nat) (s : State) : State :=
  let g := segmentAt r c
  { s with mem := s.mem.writeBytes (scratchBase c) (s.mem.readBytes g.1 g.2),
           cores := updAt s.cores c fun k => { k with boundary := r.bounds.getD c 0, tiles := k.tiles.map fun _ => [] } }

/-- An image in force: every enabled core's region and boundary (R260, R414); it heads the catalogue of the last eight images
that RESIDENT_LOAD has put in force. -/
def installResident (r : ResidentImage) (listed : Bool) (s : State) : State :=
  let t := (enabledCores s.fuses.variant).foldl (fun acc c => fillCore r c acc) s
  let old := t.resident.catalogue.filter fun x => !(x.digest == r.digest)
  { t with resident := { t.resident with cur := some r, unbacked := false, invalid := false,
                                         catalogue := if listed then (r :: old).take 8 else t.resident.catalogue } }

/-- A swap may begin: no job runs, no downbeat is due, and a job's swap or a load waits. -/
def swapDue (s : State) : Option ResidentImage :=
  if s.sched.downbeat || downbeatDue s || s.resident.swap.isSome || !(s.fw.state == .ready) then none
  else
    match s.currentJob with
    | some j => if j.stage == .swapping then swapImage s j else if loadDue s then s.resident.load.map (·.image) else none
    | none => if loadDue s then s.resident.load.map (·.image) else none

/-- `RESIDENT_SWAP_START` (R415): Amior starts copying, for the job that swaps or for a load; the copy's reads begin (R285). -/
def execResidentSwapStart (s : State) : Host.Outcome State Fault Refusal :=
  .next (match swapDue s with
    | none => s
    | some r =>
      let t := { s with resident := { s.resident with swap := some r } }
      match s.currentJob with
      | some j => if j.stage == .swapping then beginWait j.id .swapping t else t
      | none => t)

/-- The image of a swap still has the digest of its entry; the empty resident copies nothing. -/
def imageHolds (s : State) (r : ResidentImage) : Bool :=
  r.size == 0 || (mapped s r.addr r.size && shake256 (s.mem.readBytes r.addr r.size) == r.digest)

/-- A job goes on after its swap: a new one to its input digests, one that resumes to its place, or, while a core of its score is being
refilled, to its break (R520). -/
def afterSwap (j : Job) (s : State) : State :=
  if (s.sched.save.map (·.job)) == some j.id then beginWait j.id .restoring s
  else if 0 < j.kernels then
    if noRefill s j then beginTurn j j.parkBar j.parkLoops s
    else s.updJob j.id fun x => { x with stage := .parked, runSince := s.time }
  else beginWait j.id .digesting s

/-- The resident region of a core after a copy into it that failed: it holds neither image. -/
def spoilCore (r : ResidentImage) (s : State) (c : Nat) : State :=
  forgetRange (scratchBase c) (65536 * max (r.bounds.getD c 0) (s.core c).boundary) s

/-- The digest of a swapped image does not match its entry: the entry goes, the regions hold neither image, and no resident is in
force (R414). -/
def failSwap (r : ResidentImage) (s : State) : State :=
  let s1 := (enabledCores s.fuses.variant).foldl (spoilCore r) s
  { s1 with resident := { s1.resident with cur := none, swap := none,
                                           catalogue := s1.resident.catalogue.filter fun x => !(x.digest == r.digest) } }

/-- A copy that nobody waits for any more, since the job that swapped has ended, puts its image in force all the same (R531). -/
def finishCopy (r : ResidentImage) (s : State) : State := if imageHolds s r then installResident r false s else failSwap r s

/-- `RESIDENT_SWAP_DONE` (R260, R414): the image is in force, or its digest invalidates the swap. -/
def execResidentSwapDone (s : State) : Host.Outcome State Fault Refusal :=
  .next (match s.resident.swap with
    | none => s
    | some r =>
      if onSuspended s [(r.addr, r.size)] then s
      else
      let s0 := { s with resident := { s.resident with swap := none } }
      match s.currentJob.filter fun j => j.stage == .swapping with
      | some j =>
        settle (if imageHolds s r then afterSwap j (installResident r false s0) else failSwapJob j (failSwap r s0))
      | none =>
        match s.resident.load.filter fun l => l.image == r with
        | none => settle (finishCopy r s0)
        | some l =>
          let s1 := { s0 with resident := { s0.resident with load := none } }
          if mapped s r.addr r.size then
            settle (respond l.fn l.tag 0x12 .ok (r.digest.toNat % 2 ^ 256) (installResident r true s1))
          else settle (respond l.fn l.tag 0x12 .invalid 0 (failSwap r s1)))

/-! ## Downbeats (R428 to R430) -/

/-- An operation that a downbeat waits for is under way (R430). -/
def downbeatWaits (s : State) : Bool :=
  s.resident.swap.isSome ||
  (match s.currentJob with
   | some j => j.stage == .evicting || j.stage == .restoring
   | none => false)

/-- `DOWNBEAT_START` (R428 step 1). -/
def execDownbeatStart (s : State) : Host.Outcome State Fault Refusal :=
  .next (
    if s.fw.state == .ready && downbeatDue s && !s.sched.downbeat && !downbeatWaits s then
      { s with sched := { s.sched with downbeat := true, parks := s.sched.parks ++ [.downbeat] } }
    else s)

/-- A stroke that runs through a downbeat: the link unit's, and a combination 7 whose tiles have all gone to the link unit (R428, R429). -/
def runsThrough (s : State) (u : UnitId) (i : Inflight) : Bool :=
  unitStave u == 13 ||
  (unitStave u == 8 && i.op.toNat == 0x10 && i.taken == 1 && fld (descOf s.mem (fireOf s u i) i.desc) 459 456 == 7)

/-- Settings of a committed set written into the settings in force (R422). -/
def applySetting (c : Settings) (p : Nat × Nat) : Settings :=
  match p.1 with
  | 1 => { c with kvCacheFmt := p.2 }
  | 2 => { c with memClassWeights := p.2 }
  | 3 => { c with memSuspendLimit := p.2 }
  | 4 => { c with pealSendWeight := p.2 }
  | 5 => { c with pealXferTimeout := p.2 }
  | 6 => { c with bar2Base := p.2 }
  | 7 => { c with featureEnable := p.2 }
  | _ => c

/-- A port leaves service: its training and every flit in its buffers are lost, those that still wait elsewhere for their output among
them (R305, R432, R526). -/
def clearPort (st : PortState) (p : Nat) (s : State) : State :=
  let t := s.updPort p fun x =>
    { x with state := st, rate := 0, neighbour := none, replay := [], waitTx := [], served := [], credits := [], owed := [],
             txSeq := 0, rxExpect := 0, nacking := false, resends := [],
             downEvents := if x.state == .up then x.downEvents + 1 else x.downEvents, retryAt := s.time }
  { t with fabric := { t.fabric with
      waiting := t.fabric.waiting.filter fun w => !(w.1 == p),
      ports := t.fabric.ports.map fun x => { x with waitTx := x.waitTx.filter fun w => !(w.1 == p) } } }

/-- A flit that had not yet left on a port is routed anew: on the other pair, or discarded. The device's own flit of a collective keeps the
pair that was fixed as the collective started (R303, R305). -/
def rerouteFlit (p : Nat) (s : State) (w : Nat × BitVec 6 × Flit) : State :=
  if w.1 = 16 && w.2.2.kind == .coll then discardFlit p w.2.2.dest.toNat s else routeFrom w.1 w.2.1 (p % 2) w.2.2 s

/-- A port is no longer up: what had not left on it goes by another way (R303, R305). -/
def dropPort (st : PortState) (p : Nat) (s : State) : State :=
  let kept := (s.port p).waitTx.filter fun w => !(w.1 == p)
  kept.foldl (rerouteFlit p) (clearPort st p s)

/-- A port stops: what had not left on it is lost as well, and the buffers that it held are free (R523, R526). -/
def stopPort (st : PortState) (p : Nat) (s : State) : State :=
  ((s.port p).waitTx.filter fun w => !(w.1 == p)).foldl (fun acc w => oweCredit w.1 w.2.1 acc) (clearPort st p s)

/-- `LINK` clear: every port idle, and group checks return to unchecked as the Belfry halves lose their state (R423, R431, R432). -/
def disableLink (s : State) : State :=
  let t := (List.range 16).foldl (fun acc p => if (acc.port p).state == .disabled then acc else dropPort .down p acc) s
  { t with groups := t.groups.map (Option.map fun g => { g with checked := false, nextSeq := 1, colls := [], spilled := [],
                                                                early := [], abortSent := [], aborted := none, late := none }) }

/-- The domains that a feature gates (R423, R431). -/
def featureDomains (i : Nat) : List Nat := if i = 0 then [320] else if i = 1 then [321] else [316, 317] ++ rangeFrom 300 16

/-- Domains follow `FEATURE_ENABLE`: a cleared bit switches its domains off, a set bit on again (R423, R432). -/
def gateDomains (old new : Nat) (s : State) : State :=
  let gate (s : State) (i : Nat) : State :=
    let put (st : DomainState) : State :=
      let ds := (featureDomains i).filter fun d => d < 300 || 315 < d || (!((s.port (d - 300)).state == .disabled) && !(s.inv.portModule.getD (d - 300) 0 == 0))
      let l := ds.foldl (fun l d => updAt l d fun x => { x with state := st }) s.power.domains
      { s with power := { s.power with domains := l } }
    if natBit old i && !natBit new i then put .off else if !natBit old i && natBit new i then put .running else s
  (List.range 3).foldl gate s

/-- The new settings are in force (R428 step 4). -/
def applyCommit (s : State) : State :=
  let old := s.staged.cur.featureEnable
  let cur := s.staged.pending.foldl applySetting s.staged.cur
  let t := gateDomains old cur.featureEnable { s with staged := { cur := cur, pending := [], commit := none } }
  if natBit old 2 && !natBit cur.featureEnable 2 then disableLink t else t

/-- A commit that is due is applied, and responds after the release (R426). -/
def commitNow (s : State) : State :=
  match s.staged.commit with
  | none => s
  | some c => if commitDue s then respond 0 c.tag 0x32 .ok 0 (applyCommit s) else s

/-- The first 32 bytes of a digest as a number. -/
def digestHead (d : Digest) : Nat := d.toNat % 2 ^ 256

/-- The ready loads change places with the banks in force, and respond (R190). `DIGEST_HEAD` of a load that empties its slot is 0: the spec
does not say (DESIGN CHOICE, log 110). -/
def swapTables (s : State) : State :=
  let due := (List.range 8).filter fun i => match s.tables[i]? with | some t => tableDue s t | none => false
  due.foldl
    (fun acc i =>
      match (acc.tables[i]?).bind (·.load) with
      | none => acc
      | some l =>
        respond l.fn l.tag 0x40 .ok ((l.image.map fun x => digestHead x.digest).getD 0)
          { acc with tables := updAt acc.tables i fun _ => { cur := l.image, load := none } }) s

/-- `DOWNBEAT_PARKED` (R428 steps 3 to 5): every unit has parked; settings and banks change at once; units go on. -/
def execDownbeatParked (s : State) : Host.Outcome State Fault Refusal :=
  .next (
    if s.sched.downbeat && allParked s (runsThrough s) then
      let t := swapTables (commitNow s)
      settle { t with sched := { t.sched with downbeat := false, parks := t.sched.parks.filter fun p => !(p == .downbeat) } }
    else s)

/-! ## Strikes (R518) -/

/-- The strike that the running job's units park for. -/
def strikeOf (s : State) : Option (Status × Status × Nat × BitVec 352) :=
  s.sched.parks.findSome? fun p => match p with | .strike st c k d => some (st, c, k, d) | _ => none

/-- `STRIKE_PARKED` (R518 steps 5 and 6): the record is posted, what the job may have written is undefined, and a decision
follows. -/
def execStrikeParked (s : State) : Host.Outcome State Fault Refusal :=
  .next (match s.currentJob, strikeOf s with
    | some j, some (st, cause, kind, detail) =>
      let d := if kind = 0 then detailNow s j else detail
      settle (keepDownbeat s (freeUnits (endJob j st cause kind d (releaseSave j.id (forgetWritten j s)))))
    | _, _ => s)

end Sys2Proof.Machine
end

