-- ==== Sys2Proof/Machine/CallsInfo.lean ====
section
/-! DEFINITION. The calls that read the device (R282, R343, R402, R421, R450, R488, R505 to R507, R530): each writes its block into a
host buffer and responds. -/
namespace Sys2Proof.Machine

/-- The parameters are a host buffer's address, 64-byte aligned, at byte 0 and reserved bytes from `ofs` on (R393). -/
def bufferBad (ofs : Nat) (ps : List Byte) : Bool := !aligned (arg ps 0 8) 64 || !zeroFrom ps ofs

/-! ## GET_INFO (R402) -/

/-- A number whose bit i says whether `f i` holds, for i below `n`. -/
def maskOf (n : Nat) (f : Nat → Bool) : Nat := ((List.range n).map fun i => if f i then 2 ^ i else 0).sum

/-- Populated bytes of the active channels of a range of numbers (R282). -/
def activeBytes (s : State) (lo n : Nat) : Nat :=
  ((rangeFrom lo n).map fun c => if (s.chan c).state == .active then (s.chan c).bytes else 0).sum

/-- The generation code of a rim: 0 with no position fitted, else by its strap (R465). -/
def rimGen (s : State) (east : Bool) : Nat :=
  let lo := if east then 12 else 0
  if (rangeFrom lo 12).any fun i => !(s.inv.gddrStatus.getD i 0 == 0) then
    (if bitAt s.pins.straps (if east then 7 else 6) then 1 else 2)
  else 0

/-- The type code of a CAMM2 module in use (R402). -/
def cammType (s : State) (m : Nat) : Nat :=
  let k := (s.chan (96 + 8 * m)).kind
  if k = 3 then 1 else if k = 4 then 2 else 0

def portsUp (s : State) : Nat := maskOf 16 fun p => (s.port p).state == .up

/-- The fields that depend on roll call, bytes 56 to 93. -/
def rollCallFields (s : State) : List Byte :=
  packBytes [(1, rimGen s false + 4 * rimGen s true), (1, ((List.range 4).map fun m => cammType s m * 4 ^ m).sum),
             (3, maskOf 24 fun i => !(s.inv.gddrStatus.getD i 0 == 0)), (3, 0), (8, activeBytes s 0 96), (8, activeBytes s 96 32),
             (2, portsUp s), (2, s.inv.member.toNat), (1, s.extent 0), (1, s.extent 1), (1, s.extent 2), (1, s.extent 3),
             (1, s.inv.torus.toNat), (1, s.pcie.numVfs), (1, 8), (1, 16), (1, 64), (1, 16)]

/-- The capability record (R402). -/
def infoRecord (s : State) (fn : Nat) : List Byte :=
  let v := s.fuses.variant
  packBytes [(2, 1), (2, s.fw.ifRev.toNat), (1, 1), (1, variantCode v), (1, s.fuses.stepping.toNat), (1, fn),
             (32, maskOf 256 (coreEnabled v)), (2, (enabledCores v).length), (1, 4), (1, 8), (1, if s.fuses.repairs.isEmpty then 0 else 1),
             (1, 1), (2, 0), (8, 1)]
    ++ (if s.fw.state == .bare then List.replicate 38 0 else rollCallFields s)
    ++ packBytes [(2, maxClock v), (2, maxPower v), (2, 900), (2, s.power.limitW), (1, s.pcie.gen), (1, s.pcie.width),
                  (4, s.fw.fwVersion.toNat), (4, 0), (8, s.fuses.svBlown)]
    ++ digestBytes s.fw.measurement ++ List.replicate 72 0

def execGetInfo (r : Request) (s : State) : Host.Outcome State Fault Refusal :=
  .next (serveCall { op := 0x01, pf := false, bare := true, defer := false } r (bufferBad 8)
    (fun ps t =>
      (hostWrite (arg ps 0 8) (infoRecord t r.fn.val) t, .answer .ok (packFields [(2, 1), (2, t.fw.ifRev.toNat), (2, 256)]))) s)

/-! ## GET_INVENTORY (R488) -/

/-- The inventory block. -/
def inventoryBlock (s : State) : List Byte :=
  let i := s.inv
  packBytes [(2, 1), (2, s.pins.straps.toNat), (1, i.descStatus), (1, i.failRail), (2, 0), (8, i.boardId.toNat),
             (32, maskOf 256 fun c => (s.core c).fenced), (0, 0)]
    ++ i.gddrStatus.map (BitVec.ofNat 8) ++ i.cammStatus.map (BitVec.ofNat 8) ++ i.portStatus.map (BitVec.ofNat 8)
    ++ i.cammInfo.flatMap (fun x => packBytes [(1, x.1), (2, x.2.1), (2, x.2.2), (11, 0)])
    ++ i.portModule.flatMap (fun x => packBytes [(1, x), (7, 0)])
    ++ packBytes [(4, (if s.codec.encoder.fenced then 1 else 0) + (if s.codec.decoder.fenced then 2 else 0)), (736, 0)]

/-- Reserved bits and bytes of the call: `FLAGS` has bit 0 alone. -/
def inventoryBad (ps : List Byte) : Bool := bufferBad 9 ps || decide (2 ≤ arg ps 8 1)

/-- The call but for a rescan: without `RESCAN` the block is written; `RESCAN` is refused outside `BARE` and to a VF. -/
def inventoryRow (r : Request) (s : State) : State :=
  serveCall { op := 0x02, pf := false, bare := true, defer := false } r inventoryBad
    (fun ps t =>
      if natBit (arg ps 8 1) 0 then (t, .answer (if t.fw.state == .bare then .auth else .state) 0)
      else (hostWrite (arg ps 0 8) (inventoryBlock t) t, .answer .ok 1024)) s

/-- In `BARE` from the PF a `RESCAN` is the command INVENTORY_RESCAN, and this command does nothing (log 5). -/
def execGetInventory (r : Request) (s : State) : Host.Outcome State Fault Refusal :=
  .next (
    if s.fw.state == .bare && r.fn.val == 0 && natBit (arg (reqArgs r) 8 1) 0 && reqFormed r false && !inventoryBad (reqArgs r) then s
    else inventoryRow r s)

/-! ## MEM_MAP_READ (R282) -/

/-- One channel's entry. -/
def channelEntry (c : Channel) : List Byte :=
  packBytes [(1, c.kind), (1, c.state.code), (1, c.heat.code), (1, unsignedOf 8 c.temp), (4, c.sizeMiB), (2, c.rate),
             (2, c.retries), (4, c.retrains)]

def countState (s : State) (st : ChanState) : Nat := (s.channels.filter fun c => c.state == st).length

def execMemMapRead (r : Request) (s : State) : Host.Outcome State Fault Refusal :=
  .next (serveCall { op := 0x50, pf := false, bare := false, defer := false } r (bufferBad 8)
    (fun ps t =>
      (hostWrite (arg ps 0 8) (t.channels.flatMap channelEntry) t,
       .answer .ok (packFields [(8, activeBytes t 0 96), (8, activeBytes t 96 32), (1, countState t .active),
                                (1, countState t .maintenance), (1, countState t .retired)]))) s)

/-! ## JOB_COUNT_READ (R420, R421) -/

def execJobCountRead (r : Request) (s : State) : Host.Outcome State Fault Refusal :=
  .next (serveCall { op := 0x22, pf := false, bare := false, defer := false } r
    (fun ps => !zeroFrom ps 2 || decide (2 ≤ arg ps 1 1))
    (fun ps t =>
      let named := arg ps 0 1
      let fn := if named = 0xFF then r.fn.val else named
      if !(r.fn.val == 0) && !(fn == r.fn.val) then (t, .answer .auth 0)
      else if 32 ≤ fn || !(t.func fn).enabled then (t, .answer .invalid 0)
      else
        let f := t.func fn
        let u := if natBit (arg ps 1 1) 0 then
            t.updFunc fn fun g => { g with submitted := 0, completed := 0, struck := 0, preempted := 0 }
          else t
        (u, .answer .ok (packFields [(8, f.submitted.toNat), (8, f.completed.toNat), (8, f.struck.toNat), (8, f.preempted.toNat)]))) s)

/-! ## TELEMETRY_READ (R450) -/

/-- The hottest sensor. -/
def hottest (l : List Int) : Nat × Int :=
  (l.zip (List.range l.length)).foldl (fun acc p => if acc.2 < p.1 then (p.2, p.1) else acc) (0, l.headD 0)

/-- The quarter whose rail feeds a core or row-segment island (R8, R431): rows 0 to 7 lie north, columns 0 to 7 west. -/
def quarterOf (island : Nat) : Nat :=
  if island < 256 then (if island / 16 < 8 then 0 else 2) + (if island % 16 < 8 then 0 else 1)
  else if island < 264 then 0 else 2

/-- Percent of the maximum clock that the policy's cap leaves, for core and row-segment islands. -/
def policyCap (s : State) : Nat := s.power.clockCap * 100 / maxClock s.fuses.variant

/-- The rate cap that the thermal stages and the power loop ask for, in percent of full rate: the loop's is on core islands. -/
def heldCap (s : State) (island : Nat) : Nat :=
  let thermal := (s.power.domains.getD island Domain.offDomain).cap
  if island < 256 then min thermal s.power.loopCap else thermal

/-- The rate cap in force: the lowest any control asks for (R444), in whole percent. -/
def capOf (s : State) (island : Nat) : Nat := if island < 272 then min (heldCap s island) (policyCap s) else heldCap s island

def DomainState.code : DomainState → Nat
  | .off => 0 | .clockStopped => 1 | .running => 2 | .fusedOff => 3

/-- The thermal stage acting on an island. -/
def stageOf (s : State) (island : Nat) : Nat :=
  if island < 272 && s.power.stage2.getD (quarterOf island) false then 2
  else (s.power.domains.getD island Domain.offDomain).stage

def domainEntry (s : State) (i : Nat) : List Byte :=
  let d := s.power.domains.getD i Domain.offDomain
  packBytes [(1, d.state.code), (1, stageOf s i), (2, if d.state == .running then d.freqMhz else 0), (1, capOf s i), (3, 0)]

def counterEntry (c : CoreCounters) : List Byte :=
  packBytes [(4, c.nanNarrow), (4, c.negVar), (4, c.scaleRsvd), (4, c.gatherOob), (4, c.expandMismatch), (4, c.smaxEmpty),
             (4, c.scatterDrop), (4, 0)]

/-- One rail: 0xFFFF readings where the descriptor gives no readable regulator; zero in `BARE` for a managed rail. -/
def railEntry (s : State) (i : Nat) : List Byte :=
  let readable := !(s.inv.railAddr.getD i 0 == 0) && natBit (s.inv.railFlags.getD i 0) 0
  if s.fw.state == .bare && 6 ≤ i then List.replicate 8 0
  else if !readable then packBytes [(2, 0xFFFF), (2, 0xFFFF), (4, 0)]
  else
    match (s.power.rails.getD i Rail.offRail).reading with
    | some r => packBytes [(2, r.mv), (2, r.deciAmp), (1, unsignedOf 8 r.temp), (1, r.status.toNat), (2, 0)]
    | none => List.replicate 8 0

/-- The VCORE set point (R440). -/
def setPoint (v : Variant) : Nat := match v with | .grx256F => 800 | .grx240S => 765

/-- Some core's rate or rail is held down by the power loop, or by heat. -/
def powerLimited (s : State) : Bool := decide (s.power.loopCap < 100) || decide (s.power.loopMv < setPoint s.fuses.variant)

def heatLimited (s : State) : Bool := s.power.stage2.any id || s.power.domains.any fun d => decide (d.cap < 100)

def telemetryHead (s : State) : List Byte :=
  let p := s.power
  let h := hottest p.sensors
  let stage := if p.stage2.any id then 2 else if p.domains.any fun d => decide (1 ≤ d.stage) then 1 else 0
  let flags := (if s.pins.alertN then 0 else 1) + (if powerLimited s then 2 else 0) + (if heatLimited s then 4 else 0)
  packBytes [(2, 1), (2, p.nowW), (2, p.avgW), (2, p.limitW), (8, p.energy20 / 20), (2, unsignedOf 16 h.2), (2, h.1), (1, stage),
             (1, flags), (2, 0), (8, s.time), (32, 0)]

/-- The telemetry block: 12,288 bytes. -/
def telemetryBlock (s : State) : List Byte :=
  telemetryHead s ++ (List.range 12).flatMap (railEntry s)
    ++ (List.range 290).flatMap (fun i => leBytes 2 (unsignedOf 16 (s.power.sensors.getD i 0))) ++ List.replicate 284 0
    ++ (List.range 256).flatMap (fun c =>
        if coreEnabled s.fuses.variant c then counterEntry (s.core c).counters else List.replicate 32 0)
    ++ (List.range 325).flatMap (domainEntry s) ++ List.replicate 472 0

def execTelemetryRead (r : Request) (s : State) : Host.Outcome State Fault Refusal :=
  .next (serveCall { op := 0xB1, pf := false, bare := true, defer := false } r
    (fun ps => bufferBad 9 ps || decide (2 ≤ arg ps 8 1))
    (fun ps t =>
      let clear := natBit (arg ps 8 1) 0
      if clear && !(r.fn.val == 0) then (t, .answer .auth 0)
      else
        let u := hostWrite (arg ps 0 8) (telemetryBlock t) t
        (if clear then { u with cores := u.cores.map fun k => { k with counters := CoreCounters.zero } } else u,
         .answer .ok 12288)) s)

/-! ## ERROR_LOG_READ (R528 to R530) -/

def logEntryBytes (e : LogEntry) : List Byte :=
  packBytes [(8, e.seq), (8, e.time), (1, e.source), (1, e.severity), (2, e.status.code), (1, e.fn), (1, e.stave), (2, e.place),
             (8, e.detail)]

def execErrorLogRead (r : Request) (s : State) : Host.Outcome State Fault Refusal :=
  .next (serveCall { op := 0xC0, pf := false, bare := true, defer := false } r (bufferBad 18)
    (fun ps t =>
      let start := arg ps 8 8
      let most := arg ps 16 2
      if most = 0 || 1024 < most then (t, .answer .invalid 0)
      else
        let mine (e : LogEntry) : Bool := (r.fn.val == 0 || e.fn == r.fn.val || e.fn == 0xFF) && decide (start ≤ e.seq)
        let es := (t.log.entries.filter mine).take most
        let next := match es.getLast? with | some e => e.seq + 1 | none => start
        let oldest := ((t.log.entries.head?).map (·.seq)).getD t.log.nextSeq
        (hostWrite (arg ps 0 8) (es.flatMap logEntryBytes) t,
         .answer .ok (packFields [(2, es.length), (2, 0), (8, next), (8, oldest), (4, t.log.lost)]))) s)

/-! ## IDENTITY_READ, ATTEST_QUOTE (R504 to R507) -/

/-- The bytes of a certificate (R505): kind, serial, times, the issuer's digest, subject, security version, public key, signature. -/
def certHead (kind serial notBefore notAfter : Nat) (issuer : Digest) (subject : List Byte) (sv : Nat) (key : List Byte) : List Byte :=
  packBytes [(4, 0x43545247), (1, 1), (1, kind), (2, 0), (8, serial), (8, notBefore), (8, notAfter)] ++ digestBytes issuer
    ++ fitBytes 64 subject ++ packBytes [(8, sv), (8, 0)] ++ fitBytes 1952 key

def certBytes (head signature : List Byte) : List Byte := head ++ fitBytes 3309 signature ++ List.replicate 3 0

/-- The fused device CA certificate and identity certificate (R500, R505). -/
def identityRecord (s : State) : List Byte :=
  let c := Config.caCert
  let d := Config.identityCert
  certBytes (certHead 1 c.serial.toNat c.notBefore.toNat c.notAfter.toNat Config.rootDigest [] 0 Config.caKey) c.signature
    ++ certBytes (certHead 2 d.serial.toNat d.notBefore.toNat d.notAfter.toNat (shake256 (fitBytes 1952 Config.caKey))
        (leBytes 8 Config.deviceSerial.toNat ++ [BitVec.ofNat 8 (variantCode s.fuses.variant), BitVec.ofNat 8 s.fuses.stepping.toNat]) 0
        (identityKey s)) d.signature

/-- The alias certificate of this boot (R505). -/
def aliasCert (s : State) : List Byte :=
  let head := certHead 3 0 0 (2 ^ 64 - 1) (identityDigest s) (digestBytes s.fw.measurement) s.fw.imageSv (aliasKey s)
  certBytes head (Config.signature s.fw.certSign (ascii "grx-cert") head)

def execIdentityRead (r : Request) (s : State) : Host.Outcome State Fault Refusal :=
  .next (serveCall { op := 0x91, pf := false, bare := true, defer := false } r (bufferBad 8)
    (fun ps t =>
      (hostWrite (arg ps 0 8) (identityRecord t ++ aliasCert t) t,
       .answer .ok (packFields [(32, digestHead (identityDigest t)), (2, 5440), (2, 3)]))) s)

/-- ATTEST_QUOTE (R507): the quote waits for its signature behind the bodies and quotes before it (R514, R517). -/
def execAttestQuote (r : Request) (s : State) : Host.Outcome State Fault Refusal :=
  .next (serveCall { op := 0x90, pf := false, bare := true, defer := false } r (bufferBad 40)
    (fun ps t =>
      ({ t with sec := { t.sec with sign := t.sec.sign ++ [.quote r.fn.val r.tag (arg ps 0 8) (arg ps 8 32)] } }, .later)) s)

/-! ## LINK_STATUS (R343) -/

def PortState.code : PortState → Nat
  | .disabled => 0 | .down => 1 | .training => 2 | .up => 3 | .held => 4 | .failed => 5

def portEntry (p : Port) : List Byte :=
  packBytes [(1, p.state.code), (1, p.rate), (2, ((p.neighbour.map (·.member.toNat)).getD 0xFFFF)),
             (1, ((p.neighbour.map (·.port)).getD 0xFF)), (3, 0), (4, p.fecCorrected), (4, p.fecUncorrectable), (4, p.crcErrors),
             (4, p.retries), (4, p.discards), (4, p.downEvents)]

def linkResult (s : State) : Nat :=
  packFields [(2, s.inv.member.toNat), (1, s.extent 0), (1, s.extent 1), (1, s.extent 2), (1, s.extent 3), (1, s.inv.torus.toNat),
              (1, 0), (2, portsUp s)]

/-- A port retrains at once: it leaves the up state, and a failed port is no longer held back (R343, R526). -/
def retrainPort (p : Nat) (s : State) : State :=
  if !portTrains s p then s
  else (dropPort .training p s).updPort p fun x => { x with failedAt := [] }

/-- The whole call: a retraining mask from the PF is acted on first, then the entries are written. -/
def linkCall (r : Request) (s : State) : State :=
  serveCall { op := 0x62, pf := false, bare := false, defer := false } r (bufferBad 10)
    (fun ps t =>
      let mask := arg ps 8 2
      if !(mask == 0) && !(r.fn.val == 0) then (t, .answer .auth 0)
      else
        let u := (List.range 16).foldl (fun acc p => if natBit mask p then retrainPort p acc else acc) t
        (hostWrite (arg ps 0 8) (u.fabric.ports.flatMap portEntry) u, .answer .ok (linkResult u))) s

/-- `LINK_STATUS`. -/
def execLinkStatus (r : Request) (s : State) : Host.Outcome State Fault Refusal := .next (linkCall r s)

/-- `LINK_STATUS` with a `RETRAIN_MASK`. -/
def execLinkRetrain (r : Request) (s : State) : Host.Outcome State Fault Refusal := .next (linkCall r s)

end Sys2Proof.Machine
end

