-- ==== Sys2Proof/Machine/CallsWork.lean ====
section
/-! DEFINITION. The calls that set the device's work up: job queues (R394), the pre-emption policy (R417, R418), staged settings
(R422 to R427), chime tables (R185, R190 to R192), resident images (R259 to R261), groups (R314 to R318), codec sessions (R346 to
R350) and the unloading of scores (R99). -/
namespace Sys2Proof.Machine

/-! ## Job queues (R394) -/

/-- A ring's size (R389, R394). -/
def ringSizeOk (n : Nat) : Bool := isPow2 n && decide (16 ≤ n) && decide (n ≤ 4096)

/-- A queue with both rings empty and the phase 1 (R398). -/
def queueOf (ps : List Byte) : JobQueue :=
  { subBase := arg ps 0 8, cmpBase := arg ps 8 8, subEntries := arg ps 16 2, cmpEntries := arg ps 18 2, priority := arg ps 20 1,
    subTail := 0, unposted := 0, cmpWrite := 0, cmpUnreleased := 0, cmpPhase := true, held := [] }

def execJobQueueCreate (r : Request) (s : State) : Host.Outcome State Fault Refusal :=
  .next (serveCall { op := 0x20, pf := false, bare := false, defer := false } r (fun ps => !(zeroFrom ps 21 && aligned (arg ps 0 8) 4096 && aligned (arg ps 8 8) 4096))
    (fun ps t =>
      match freeSlot (t.func r.fn.val).queues with
      | none => (t, .answer .noResource 0)
      | some q =>
        let k := queueOf ps
        if ringSizeOk k.subEntries && ringSizeOk k.cmpEntries && decide (k.priority ≤ 3) then
          (t.updFunc r.fn.val fun g => { g with queues := updAt g.queues q fun _ => some k }, .answer .ok q)
        else (t, .answer .invalid 0)) s)

def execJobQueueDestroy (r : Request) (s : State) : Host.Outcome State Fault Refusal :=
  .next (serveCall { op := 0x21, pf := false, bare := false, defer := false } r (fun ps => !zeroFrom ps 1)
    (fun ps t =>
      let q := arg ps 0 1
      match t.queue r.fn.val q with
      | none => (t, .answer .invalid 0)
      | some k =>
        if 0 < k.unposted then (t, .answer .busy 0)
        else (t.updFunc r.fn.val fun g => { g with queues := updAt g.queues q fun _ => none }, .answer .ok 0)) s)

/-! ## PREEMPT_POLICY_SET (R417, R418) -/

def policyOf (ps : List Byte) : PreemptPolicy :=
  { breakWaitUs := arg ps 0 4, sliceUs := arg ps 4 4, evict := arg ps 8 1 == 1, swap := arg ps 9 1,
    saveChannels := BitVec.ofNat 96 (arg ps 12 12), saveOfs := arg ps 24 8, saveBytes := arg ps 32 8 }

/-- A field out of range. -/
def policyBad (ps : List Byte) : Bool :=
  decide (arg ps 0 4 < 10) || decide (10000000 < arg ps 0 4) || decide (10000000 < arg ps 4 4) || decide (1 < arg ps 8 1)
    || decide (2 < arg ps 9 1) || !aligned (arg ps 24 8) 65536

/-- Two policies name one save area. -/
def sameArea (p q : PreemptPolicy) : Bool :=
  p.saveChannels == q.saveChannels && p.saveOfs == q.saveOfs && p.saveBytes == q.saveBytes

/-- Bytes in the save area of a policy. -/
def saveTotal (p : PreemptPolicy) : Nat := ((List.range 96).filter fun c => bitAt p.saveChannels c).length * p.saveBytes

def execPreemptPolicySet (r : Request) (s : State) : Host.Outcome State Fault Refusal :=
  .next (settle (serveCall { op := 0x23, pf := true, bare := false, defer := false } r
    (fun ps => !zeroAt ps 10 2 || !zeroFrom ps 40)
    (fun ps t =>
      let p := policyOf ps
      if policyBad ps || (p.evict && !saveAreaOk t p) then (t, .answer .invalid 0)
      else if t.sched.save.isSome && !sameArea p t.preempt then (t, .answer .busy 0)
      else ({ t with preempt := p }, .answer .ok (saveTotal p % 2 ^ 64))) s))

/-! ## Staged settings (R422 to R427) -/

/-- The size of BAR2. -/
def bar2Size (s : State) : Nat := 2 ^ s.pcie.bar2Log2

/-- A value lies in the range of its setting (R422). -/
def settingOk (s : State) (id v : Nat) : Bool :=
  match id with
  | 1 => v == 1 || v == 3 || v == 4 || v == 6 || v == 7
  | 2 => decide (v < 4096) && (List.range 3).all fun i => decide (1 ≤ v / 16 ^ i % 16)
  | 3 => decide (1 ≤ v) && decide (v ≤ 1000)
  | 4 => decide (1 ≤ v) && decide (v ≤ 15)
  | 5 => decide (1 ≤ v) && decide (v ≤ 1000000)
  | 6 => decide (v < 2 ^ 48) && aligned v (bar2Size s)
  | 7 => decide (v ≤ 7)
  | _ => false

/-- A setting put into the pending set, which is kept in ascending ID. -/
def insertSetting (id v : Nat) : List (Nat × Nat) → List (Nat × Nat)
  | [] => [(id, v)]
  | (k, w) :: rest =>
    if id < k then (id, v) :: (k, w) :: rest else if id = k then (id, v) :: rest else (k, w) :: insertSetting id v rest

/-- The entries of a STAGE_SET. -/
def stageEntries (ps : List Byte) : List (Nat × Nat) :=
  (List.range (arg ps 0 1)).map fun e => (arg ps (8 + 16 * e) 2, arg ps (16 + 16 * e) 8)

def execStageSet (r : Request) (s : State) : Host.Outcome State Fault Refusal :=
  .next (serveCall { op := 0x30, pf := true, bare := false, defer := false } r
    (fun ps => !zeroAt ps 1 7 || ((List.range 3).any fun e => !zeroAt ps (10 + 16 * e) 6) || !zeroFrom ps 56)
    (fun ps t =>
      let n := arg ps 0 1
      let es := stageEntries ps
      if n = 0 || 3 < n || !(es.all fun e => settingOk t e.1 e.2) || !zeroFrom ps (8 + 16 * n) then (t, .answer .invalid 0)
      else if t.staged.commit.isSome then (t, .answer .busy 0)
      else
        let p := es.foldl (fun acc e => insertSetting e.1 e.2 acc) t.staged.pending
        ({ t with staged := { t.staged with pending := p } }, .answer .ok p.length)) s)

/-- A conflict of a staged set (R425). -/
structure StageFault where
  setting : Nat
  handle : Nat
  fn : Nat
  reason : Nat
  deriving DecidableEq, Repr

def StageFault.number (f : StageFault) : Nat := packFields [(2, f.setting), (1, f.handle), (1, f.fn), (1, f.reason)]

/-- A score names a cache format: it holds an attention or a scatter descriptor (R210). -/
def namesCache (m : Memory) (a : Nat) : Bool :=
  (List.range (scDescCount m a)).any fun i =>
    let k := fld (scStoredDesc m a i) 63 56
    k == 0x19 || k == 0x1A

/-- The first loaded score, by handle, that meets a condition. -/
def scoreWhere (s : State) (p : Nat → Bool) : Option (Nat × Nat) :=
  (List.range 16).findSome? fun h =>
    match s.score h with
    | some x => if p x.addr then some (h, x.fn) else none
    | none => none

/-- The functions that the pending value of `FEATURE_ENABLE` disables. -/
def disabledBy (s : State) (v : Nat) : Nat := maskOf 3 fun i => natBit s.staged.cur.featureEnable i && !natBit v i

/-- What conflicts with one pending setting (R422, R425, R427). -/
def settingFault (s : State) (drain : Bool) (p : Nat × Nat) : Option StageFault :=
  match p.1 with
  | 1 =>
    if p.2 = s.staged.cur.kvCacheFmt then none
    else (scoreWhere s fun a => namesCache s.mem a).map fun h => { setting := 1, handle := h.1, fn := h.2, reason := 2 }
  | 6 => if aligned p.2 (bar2Size s) then none else some { setting := 6, handle := 0xFF, fn := 0xFF, reason := 1 }
  | 7 =>
    let d := disabledBy s p.2
    if drain then none
    else (scoreWhere s fun a => !(scoreFeatures s.mem a &&& d == 0)).map fun h =>
      { setting := 7, handle := h.1, fn := h.2, reason := 3 }
  | _ => none

/-- The first conflict in ascending setting ID. -/
def stageFault (s : State) (drain : Bool) : Option StageFault := s.staged.pending.findSome? (settingFault s drain)

/-- `FLAGS` has bit 0 alone, and nothing follows it. -/
def drainBad (ps : List Byte) : Bool := decide (2 ≤ arg ps 0 1) || !zeroFrom ps 1

def execStageCheck (r : Request) (s : State) : Host.Outcome State Fault Refusal :=
  .next (serveCall { op := 0x31, pf := true, bare := false, defer := false } r drainBad
    (fun ps t =>
      match stageFault t (natBit (arg ps 0 1) 0) with
      | some f => (t, .answer .consistency f.number)
      | none => (t, .answer .ok 0)) s)

def execStageCommit (r : Request) (s : State) : Host.Outcome State Fault Refusal :=
  .next (settle (serveCall { op := 0x32, pf := true, bare := false, defer := false } r drainBad
    (fun ps t =>
      let drain := natBit (arg ps 0 1) 0
      match stageFault t drain with
      | some f => (t, .answer .consistency f.number)
      | none =>
        if t.staged.commit.isSome then (t, .answer .busy 0)
        else ({ t with staged := { t.staged with commit := some { tag := r.tag, drain := drain } } }, .later)) s))

/-- The pending set is emptied, and a waiting commit responds `E_STATE` (R426). -/
def discardStaged (s : State) : State :=
  let t := { s with staged := { s.staged with pending := [], commit := none } }
  match s.staged.commit with
  | some c => respond 0 c.tag 0x32 .state 0 t
  | none => t

def execStageDiscard (r : Request) (s : State) : Host.Outcome State Fault Refusal :=
  .next (settle (serveCall { op := 0x33, pf := true, bare := false, defer := false } r (fun ps => !zeroFrom ps 0)
    (fun _ t => (discardStaged t, .answer .ok 0)) s))

/-! ## TABLE_LOAD (R185, R190 to R192) -/

/-- The value of a word is a multiple of 2^w. -/
def multipleOfPow (x : Word) (w : Int) : Bool :=
  match ofF32 x with
  | .fin _ m e =>
    if m = 0 then true
    else if w ≤ e then true
    else m % 2 ^ (w - e).toNat == 0
  | _ => false

/-- The header of a user image keeps R185. -/
def tableHeaderOk (bs : List Byte) (id : Nat) : Bool :=
  let mode := byteIn bs 2
  byteIn bs 0 == id && decide (byteIn bs 1 ≤ 9) && decide (mode ≤ 1) && zeroAt bs 5 3 && zeroAt bs 40 24 &&
  (if mode = 0 then decide (1 ≤ byteIn bs 3) && decide (byteIn bs 3 ≤ 222) else multipleOfPow (wordIn bs 8) (signedOf 8 (byteIn bs 4)))

/-- The image that a request names, none for an empty slot; nothing where the request is faulty. `IMAGE_ADDR` other than 0 with a built-in ID
or 0x00 is taken for faulty, which R191 does not list (DESIGN CHOICE, log 111). -/
def tableImageOf (s : State) (id addr : Nat) : Option (Option TableImage) :=
  if id = 0 then (if addr = 0 then some none else none)
  else if isBuiltinTable id then (if addr = 0 then some (some (builtinImage id)) else none)
  else if isUserTable id then
    if aligned addr 256 && mapped s addr 6208 then
      let bs := s.mem.readBytes addr 6208
      if tableHeaderOk bs id then some (some { id := id, bytes := bs, digest := shake256 bs }) else none
    else none
  else none

/-- An ID is held by another slot, in force or by a load that waits. -/
def heldElsewhere (s : State) (slot id : Nat) : Bool :=
  !(id == 0) && (List.range 8).any fun i =>
    !(i == slot) &&
    (match s.tables[i]? with
     | some t => (t.cur.map (·.id)) == some id || (t.load.bind (·.image)).map (·.id) == some id
     | none => false)

def tableCall (r : Request) (ps : List Byte) (s : State) : State × CallEnd :=
  let slot := arg ps 0 1
  let id := arg ps 1 1
  let drain := natBit (arg ps 2 2) 0
  match s.tables[slot]?, tableImageOf s id (arg ps 8 8) with
  | some t, some image =>
    let curId := (t.cur.map (·.id)).getD 0
    let used (a : Nat) : Bool := usesTable s.mem a curId
    if heldElsewhere s slot id then (s, .answer .invalid 0)
    else if !(curId == 0) && !(id == curId) && (scoreWhere s used).isSome then (s, .answer .consistency 0)
    else if t.load.isSome || (!drain && !(curId == 0) && s.sched.jobs.any fun j => j.active && used (s.scoreAddr j)) then
      (s, .answer .busy 0)
    else if (image.map (·.digest)) = (t.cur.map (·.digest)) then
      (s, .answer .ok ((image.map fun x => digestHead x.digest).getD 0))
    else
      let l : TableLoad := { fn := r.fn.val, tag := r.tag, image := image, drain := drain }
      ({ s with tables := updAt s.tables slot fun x => { x with load := some l } }, .later)
  | _, _ => (s, .answer .invalid 0)

def execTableLoad (r : Request) (s : State) : Host.Outcome State Fault Refusal :=
  .next (settle (serveCall { op := 0x40, pf := true, bare := false, defer := false } r
    (fun ps => decide (2 ≤ arg ps 2 2) || !zeroAt ps 4 4 || !zeroFrom ps 16) (tableCall r) s))

/-! ## RESIDENT_LOAD (R259 to R261, R415) -/

/-- The size of an image with given boundaries. -/
def residentSize (bounds : List Nat) : Nat := 1024 + 65536 * bounds.sum

/-- The header of a resident image keeps R259. -/
def residentHeaderOk (s : State) (a n : Nat) : Bool :=
  let h := s.mem.readBytes a 1024
  let bs := imageBounds s.mem a
  arg h 0 4 == 0x5253444E && arg h 4 1 == 1 && zeroAt h 5 59 && zeroFrom h 576 && bs.all (fun b => decide (b ≤ 95)) &&
  residentSize bs == n && (List.range 256).all fun c => coreEnabled s.fuses.variant c || bs.getD c 0 == 0

def residentCall (r : Request) (ps : List Byte) (s : State) : State × CallEnd :=
  let a := arg ps 0 8
  let n := arg ps 8 8
  if !aligned a 256 || n < 1024 || !memoryFree s a n || !residentHeaderOk s a n then (s, .answer .invalid 0)
  else if s.resident.load.isSome then (s, .answer .busy 0)
  else if s.preempt.swap = 0 && s.sched.jobs.any Job.active then (s, .answer .state 0)
  else
    let image : ResidentImage := { addr := a, size := n, digest := shake256 (s.mem.readBytes a n), bounds := imageBounds s.mem a }
    ({ s with resident := { s.resident with load := some { fn := r.fn.val, tag := r.tag, image := image } } }, .later)

def execResidentLoad (r : Request) (s : State) : Host.Outcome State Fault Refusal :=
  .next (settle (serveCall { op := 0x12, pf := true, bare := false, defer := false } r (fun ps => !zeroFrom ps 16)
    (residentCall r) s))

/-! ## SCORE_UNLOAD (R99) -/

def execScoreUnload (r : Request) (s : State) : Host.Outcome State Fault Refusal :=
  .next (serveCall { op := 0x11, pf := false, bare := false, defer := false } r (fun ps => !zeroFrom ps 2)
    (fun ps t =>
      let h := arg ps 0 2
      if !((t.score h).map (·.fn) == some r.fn.val) then (t, .answer .invalid 0)
      else if t.sched.jobs.any fun j => j.handle == h && j.fn == r.fn.val then (t, .answer .busy 0)
      else ({ t with scores := updAt t.scores h fun _ => none }, .answer .ok 0)) s)

/-! ## Groups (R314 to R318) -/

/-- The four bytes of a group parameter, one per dimension. -/
def dimArg (ps : List Byte) (ofs d : Nat) : Nat := arg ps (ofs + d) 1

/-- Whether a dimension's members lie inside its extent without a wrap that it lacks, and none twice (R315, R316). -/
def dimOk (s : State) (ps : List Byte) (d : Nat) : Bool :=
  let o := dimArg ps 4 d
  let n := dimArg ps 8 d
  let st := dimArg ps 12 d
  let e := s.extent d
  decide (o < e) && decide (1 ≤ n) && decide (n ≤ e) && decide (1 ≤ st) && decide (st ≤ 15) &&
  (s.isTorus d || decide (o + (n - 1) * st < e)) && ((List.range n).map fun i => (o + i * st) % e).Nodup

/-- The dimensions of `ORDER`, innermost first. -/
def orderDims (ps : List Byte) : List Nat := (List.range 4).map fun i => arg ps 16 1 / 4 ^ i % 4

/-- Members of a group. -/
def groupSize (ps : List Byte) : Nat := ((List.range 4).map (dimArg ps 8)).foldl (· * ·) 1

/-- The coordinate index of rank `k` in each dimension: mixed radix, the innermost dimension least significant. -/
def rankIndex (ps : List Byte) : List Nat → Nat → List (Nat × Nat)
  | [], _ => []
  | d :: ds, k => (d, k % dimArg ps 8 d) :: rankIndex ps ds (k / dimArg ps 8 d)

/-- The member ID of a rank (R315). -/
def groupMember (s : State) (ps : List Byte) (k : Nat) : Nat :=
  let ix := rankIndex ps (orderDims ps) k
  memberOf ((List.range 4).map fun d =>
    let i := ((ix.find? fun p => p.1 == d).map (·.2)).getD 0
    (dimArg ps 4 d + i * dimArg ps 12 d) % s.extent d)

/-- A field of a definition is out of range (R314, R316). -/
def groupBad (s : State) (ps : List Byte) : Bool :=
  let t := arg ps 20 4
  let sa := arg ps 24 8
  let sn := arg ps 32 8
  arg ps 0 4 == 0 || !((List.range 4).all (dimOk s ps)) || !((orderDims ps).Nodup) || dimArg ps 17 0 == 0
    || decide (15 < dimArg ps 17 0) || (!(t == 0) && (decide (t < 10) || decide (10000000 < t)))
    || (!(sa == 0) && (!aligned sa 256 || !memoryFree s sa sn))

/-- A definition's group, its spill area empty when `SPILL_ADDR` is 0. -/
def groupOf (s : State) (ps : List Byte) (rank : Nat) : Group :=
  let n := groupSize ps
  { tag := BitVec.ofNat 32 (arg ps 0 4), defn := BitVec.ofNat 192 (ofLe (ps.take 24)), rank := rank, size := n,
    members := (List.range n).map fun k => BitVec.ofNat 14 (groupMember s ps k), weight := arg ps 17 1,
    timeoutUs := if arg ps 20 4 = 0 then 20000 else arg ps 20 4, spillAddr := arg ps 24 8,
    spillSize := if arg ps 24 8 = 0 then 0 else arg ps 32 8, checked := false, nextSeq := 1, colls := [], spilled := [], early := [],
    abortSent := [], aborted := none, late := none }

/-- The slot of a defined tag. -/
def groupSlot (s : State) (tag : Nat) : Option Nat :=
  s.groups.findIdx? fun g => match g with | some x => x.tag.toNat == tag | none => false

def groupResult (slot : Nat) (g : Group) : Nat :=
  packFields [(1, slot), (1, 0), (2, g.rank), (2, g.size), (2, 0), (32, digestHead (shake256 (leBytes 24 g.defn.toNat)))]

def groupDefine (ps : List Byte) (s : State) : State × CallEnd :=
  if groupBad s ps then (s, .answer .invalid 0)
  else
    match (List.range (groupSize ps)).find? fun k => groupMember s ps k == s.self with
    | none => (s, .answer .invalid 0)
    | some rank =>
      let g := groupOf s ps rank
      match groupSlot s g.tag.toNat with
      | some i =>
        match slotAt s.groups i with
        | some old =>
          if old.defn = g.defn then
            ({ s with groups := updAt s.groups i fun _ => some { old with spillAddr := g.spillAddr, spillSize := g.spillSize } },
             .answer .ok (groupResult i g))
          else (s, .answer .state 0)
        | none => (s, .answer .state 0)
      | none =>
        match freeSlot s.groups with
        | none => (s, .answer .noResource 0)
        | some i => ({ s with groups := updAt s.groups i fun _ => some g }, .answer .ok (groupResult i g))

def execGroupDefine (r : Request) (s : State) : Host.Outcome State Fault Refusal :=
  .next (serveCall { op := 0x60, pf := true, bare := false, defer := false } r (fun ps => !zeroAt ps 18 2 || !zeroFrom ps 40)
    groupDefine s)

def execGroupRelease (r : Request) (s : State) : Host.Outcome State Fault Refusal :=
  .next (serveCall { op := 0x61, pf := true, bare := false, defer := false } r (fun ps => !zeroFrom ps 4)
    (fun ps t =>
      let tag := arg ps 0 4
      match groupSlot t tag, t.group tag with
      | some i, some g =>
        if (scoreWhere t fun a => (scGroups t.mem a).contains tag).isSome || !g.colls.isEmpty then (t, .answer .state 0)
        else ({ t with groups := updAt t.groups i fun _ => none }, .answer .ok 0)
      | _, _ => (t, .answer .invalid 0)) s)

/-! ## Codec sessions (R346 to R350) -/

/-- The session that a request opens. -/
def sessionOf (fn : Nat) (ps : List Byte) : Session :=
  { fn := fn, decode := arg ps 0 1 == 1, codec := arg ps 1 1, bitDepth := arg ps 4 1, width := arg ps 8 2, height := arg ps 10 2,
    params := BitVec.ofNat 384 (ofLe (ps.take 32)), ctxAddr := arg ps 32 8, ctxSize := arg ps 40 8, failed := false,
    coding := { frames := 0, token := 0, lastShown := [], held := [], waiting := [], keys := [] } }

/-- A stroke of the entry that a job runs names a session (R350). -/
def namesSession (s : State) (j : Job) (h : Nat) : Bool :=
  let a := s.scoreAddr j
  (entryBars s.mem a j.entry).any fun bar =>
    let w := StrokeWord.ofWord (scStave s.mem a bar 14)
    (w.op == 0x10 || w.op == 0x11) && fld (scStoredDesc s.mem a w.desc) 31 26 == h

/-- A context that may not be used (R347). -/
def contextBad (s : State) (a n : Nat) : Bool :=
  !aligned a 65536 || !memoryFree s a n ||
  hitsAny ((s.resident.cur.toList.map fun r => (r.addr, r.size)) ++ codecRanges s) a n

def sessionOpen (fn : Nat) (ps : List Byte) (s : State) : State × CallEnd :=
  let x := sessionOf fn ps
  let need := ctxNeeded x.decode x.codec x.bitDepth x.width x.height (arg ps 15 1)
  if !sessionFieldsOk ps || contextBad s x.ctxAddr x.ctxSize then (s, .answer .invalid 0)
  else
    match freeSlot s.codec.sessions with
    | none => (s, .answer .noResource (packFields [(4, 0), (8, need)]))
    | some h =>
      if x.ctxSize < need then (s, .answer .noResource (packFields [(4, 0), (8, need)]))
      else
        ({ s with codec := { s.codec with sessions := updAt s.codec.sessions h fun _ => some x } },
         .answer .ok (packFields [(4, h), (8, need)]))

def execCodecSessionOpen (r : Request) (s : State) : Host.Outcome State Fault Refusal :=
  .next (serveCall { op := 0x70, pf := false, bare := false, defer := false } r
    (fun ps => !zeroAt ps 19 1 || !zeroFrom ps 48) (sessionOpen r.fn.val) s)

def execCodecSessionClose (r : Request) (s : State) : Host.Outcome State Fault Refusal :=
  .next (serveCall { op := 0x71, pf := false, bare := false, defer := false } r (fun ps => !zeroFrom ps 1)
    (fun ps t =>
      let h := arg ps 0 1
      if !((t.session h).map (·.fn) == some r.fn.val) then (t, .answer .invalid 0)
      else if t.sched.jobs.any fun j => !(j.stage == .recorded) && namesSession t j h then (t, .answer .busy 0)
      else (closeSession h t, .answer .ok 0)) s)

end Sys2Proof.Machine
end

