-- ==== Sys2Proof/Machine/Channels.lean ====
section
/-! DEFINITION. Memory channels (R276, R278 to R281, R283 to R290, R524, R525): retirement, maintenance and restore, heat, retraining,
exercisers and exhausted requests. -/
namespace Sys2Proof.Machine

/-! ## Strikes that do not wait for the running job alone (R519) -/

/-- A job past HALT whose record is not yet due (R516). -/
def Job.pastHalt (j : Job) : Bool := j.stage == .outputs || j.stage == .signing || j.stage == .batched

/-- A job that is running, parked or evicted: its start sequence counts as running (R405). -/
def Job.underWay (j : Job) : Bool := j.active && !j.pastHalt && !(j.stage == .recorded)

/-- Every job that meets a condition is struck. -/
def strikeWhere (p : Job → Bool) (cause : Status) (kind : Nat) (detail : BitVec 352) (s : State) : State :=
  (s.sched.jobs.filter p).foldl
    (fun acc j =>
      strikeJob j cause kind (if kind = 0 then detailNow s j else detail) acc) s

/-! ## The resident becomes invalid (R280, R520, R524) -/

/-- No job can use the resident in force: those that need it are struck. -/
def invalidateResident (s : State) : State :=
  let t := { s with resident := { s.resident with invalid := true } }
  strikeWhere (fun j => j.underWay && !swapNeeded s j) .channelRetired 0 0 t

/-! ## ALERT_N (R447) -/

/-- Die sensors that count below trip: a fused-off core's does not (R445). -/
def sensorCounts (s : State) (i : Nat) : Bool := decide (256 ≤ i) || coreEnabled s.fuses.variant i

/-- `ALERT_N` follows the die sensors, the regulator warnings and the suspended channels. -/
def updateAlert (s : State) : State :=
  let any_ (lim : Int) : Bool := (List.range 290).any fun i => sensorCounts s i && decide (lim ≤ s.power.sensors.getD i 0)
  let other := (s.power.rails.any Rail.warning) || s.channels.any fun c => c.heat == .suspended
  let low := any_ 1050 || other || (!s.pins.alertN && any_ 1021)
  { s with pins := { s.pins with alertN := !low } }

/-! ## A channel leaves the active state (R280) -/

/-- The channels of a memory position: 0 to 23 GDDR, 24 to 27 CAMM2 (R267). -/
def posChans (p : Nat) : List Nat := if p < 24 then rangeFrom (4 * p) 4 else rangeFrom (96 + 8 * (p - 24)) 8

/-- The position of a channel. -/
def chanPos (ch : Nat) : Nat := if ch < 96 then ch / 4 else 24 + (ch - 96) / 8

/-- A channel's retraining begins: it pauses and is counted (R282, R286). -/
def beginRetrain (ch : Nat) (s : State) : State :=
  s.updChan ch fun c => { c with pausing := true, retrains := c.retrains + 1 }

/-- A position is switched off: its controllers lose their training, and a pass made before counts no more (R432). -/
def losesTraining (c : Channel) : Channel := { c with pausing := false, fullPass := false, trainTemp := 0 }

/-- A position's domain is off while every channel it holds is retired or absent (R431). Switched on again, its channels are trained again
before any of them is of use (R432). -/
def gatePosition (p : Nat) (s : State) : State :=
  let off := (posChans p).all fun c => (s.chan c).state == .retired || (s.chan c).state == .absent
  let was := (s.power.domains.getD (272 + p) Domain.offDomain).state
  let t := { s with power := { s.power with domains := updAt s.power.domains (272 + p) fun d =>
      { d with state := if off then .off else .running } } }
  if off && !(was == .off) then (posChans p).foldl (fun acc c => acc.updChan c losesTraining) t
  else if !off && was == .off then
    ((posChans p).filter fun c => !((s.chan c).state == .absent)).foldl (fun acc c => beginRetrain c acc) t
  else t

/-- A loaded score whose image or kind 2 buffers touch a channel (R280 step 3). -/
def scoreTouches (s : State) (ch : Nat) (x : Score) : Bool :=
  touchesChan ch x.addr x.size ||
  (List.range (scBufferCount s.mem x.addr)).any fun i =>
    let b := scBuffer s.mem x.addr i
    b.kind == 2 && touchesChan ch b.base b.size

/-- The score of a job touches the channel, or a kind 3 buffer of the job does. -/
def jobTouches (s : State) (ch : Nat) (j : Job) : Bool :=
  (match s.score j.handle with | some x => scoreTouches s ch x | none => false) ||
  (List.range (scBufferCount s.mem (s.scoreAddr j))).any fun i =>
    (scBuffer s.mem (s.scoreAddr j) i).kind == 3 &&
    (let r := jobBuffer s j i; touchesChan ch r.1 r.2)

/-- The provenance area of a job, or one of its `OUTPUT` buffers, lies in the channel (R513, R517). -/
def provTouches (ch : Nat) (j : Job) : Bool := touchesChan ch j.provAddr j.provSize

def outputTouches (s : State) (ch : Nat) (j : Job) : Bool :=
  (flaggedBuffers s.mem (s.scoreAddr j) 3).any fun i => let r := jobBuffer s j i; touchesChan ch r.1 r.2

/-- The save area lies in the channel (R413). -/
def saveTouches (s : State) (ch : Nat) : Bool := decide (ch < 96) && bitAt s.preempt.saveChannels ch

/-- The groups whose spill area touches the channel. -/
def spillTouches (ch : Nat) (g : Group) : Bool := touchesChan ch g.spillAddr g.spillSize

/-- A job that the channel takes with it (R280 steps 2 and 6, R413, R517). -/
def jobLost (s : State) (ch : Nat) (j : Job) : Bool :=
  (j.underWay &&
    (jobTouches s ch j || provTouches ch j
      || (s.groups.filterMap id).any fun g => spillTouches ch g && (scGroups s.mem (s.scoreAddr j)).contains g.tag.toNat)) ||
  (j.pastHalt && (outputTouches s ch j || provTouches ch j)) ||
  ((s.sched.save.map (·.job)) == some j.id && saveTouches s ch) ||
  (j.stage == .swapping && s.sched.current == some j.id && (match s.resident.swap with | some r => touchesChan ch r.addr r.size | none => false))

/-- The detail of a strike whose channel is known (R399). -/
def detailChannel (ch : Nat) : BitVec 352 := detailPlace 0xFF 0xFF 0xFFFF noDesc noDesc 0 ch

/-- Step 3: scores marked struck, and the queued jobs of such scores ended. -/
def strikeScores (ch : Nat) (s : State) : State :=
  let hit (o : Option Score) : Bool := match o with | some x => scoreTouches s ch x | none => false
  let mark (x : Score) : Score := { x with struck := true }
  let t := { s with scores := s.scores.map fun o => if hit o then o.map mark else o }
  let ended (j : Job) : Bool := j.stage == .queued && ((t.score j.handle).map (·.struck)) == some true
  (t.sched.jobs.filter ended).foldl (fun acc j => abortGroups j 2 (endResting j .struck .channelRetired 0 (detailJob j) acc)) t

/-- Step 4: the resident unbacked, catalogue entries dropped; a RESIDENT_LOAD that waits for a lost image is refused, and a job that
waits to swap to one ends (R414). -/
def unbackResident (ch : Nat) (s : State) : State :=
  let hit (r : ResidentImage) : Bool := touchesChan ch r.addr r.size
  let r := s.resident
  let lost := r.swap.isNone && (match r.load with | some l => hit l.image | none => false)
  let t := { s with resident := { r with unbacked := r.unbacked || (match r.cur with | some x => hit x | none => false),
                                         catalogue := r.catalogue.filter fun x => !hit x,
                                         load := if lost then none else r.load } }
  let u := match r.load with
    | some l => if lost then respond l.fn l.tag 0x12 .invalid 0 t else t
    | none => t
  match u.currentJob.filter fun j => j.stage == .swapping && r.swap.isNone && (swapImage u j).isNone with
  | some j => failSwapJob j u
  | none => u

/-- The engine's frame of a failed session is abandoned, and its job struck (R280 step 5). -/
def abandonFailed (e : Engine) (ch : Nat) (s : State) : State :=
  match (s.engine e).queue with
  | [] => s
  | q :: rest =>
    if ((s.session q.session).map (·.failed)) == some true then
      let t := s.updEngine e fun g => { g with queue := rest }
      match t.job q.job with
      | some j => strikeJob j .channelRetired 3 (detailChannel ch) t
      | none => t
    else s

/-- Step 5: sessions marked failed. -/
def failSessions (ch : Nat) (s : State) : State :=
  let mark (x : Session) : Session := if touchesChan ch x.ctxAddr x.ctxSize then { x with failed := true } else x
  let t := { s with codec := { s.codec with sessions := s.codec.sessions.map (Option.map mark) } }
  abandonFailed .decoder ch (abandonFailed .encoder ch t)

/-- Step 6: spill areas removed. -/
def dropSpills (ch : Nat) (s : State) : State :=
  { s with groups := s.groups.map (Option.map fun g =>
      if spillTouches ch g then { g with spillAddr := 0, spillSize := 0, spilled := [] } else g) }

/-- A channel leaves the active state for another: steps 1 to 7, and the save area (R280, R413). -/
def leaveActive (ch : Nat) (st : ChanState) (s : State) : State :=
  let s1 := s.updChan ch fun c => { c with state := st, fullPass := false }
  let s2 := strikeWhere (jobLost s1 ch) .channelRetired 3 (detailChannel ch) s1
  let s3 := dropSpills ch (failSessions ch (unbackResident ch (strikeScores ch s2)))
  let s4 := if saveTouches s ch then { s3 with preempt := { s3.preempt with evict := false } } else s3
  gatePosition (chanPos ch) (logError 0x11 2 .channelRetired 0xFF 0xFF ch (chanBase ch) s4)

/-- A channel is retired (R278, R525): only one that leaves the active state takes the actions of R280. -/
def retireChan (ch : Nat) (s : State) : State :=
  match (s.chan ch).state with
  | .active => leaveActive ch .retired s
  | .maintenance => gatePosition (chanPos ch) (s.updChan ch fun c => { c with state := .retired })
  | _ => s

/-- The inventory block shows a position's state (R488): a GDDR position, or a CAMM2 position. -/
def notePosition (p st : Nat) (s : State) : State :=
  { s with inv := if p < 24 then { s.inv with gddrStatus := updAt s.inv.gddrStatus p fun _ => st }
                  else { s.inv with cammStatus := updAt s.inv.cammStatus (p - 24) fun _ => st } }

/-- Every channel of a position is retired. -/
def retirePosition (p : Nat) (s : State) : State := (posChans p).foldl (fun acc c => retireChan c acc) s

/-! ## MEM_CHANNEL_RETIRE (R278, R279, R281) -/

/-- A channel holds what R279 protects from maintenance. -/
def chanInUse (s : State) (ch : Nat) : Bool :=
  (s.scores.filterMap id).any (scoreTouches s ch) ||
  (match s.resident.cur with | some r => touchesChan ch r.addr r.size | none => false)

/-- A restore: the range is in the map again, its contents undefined, and its position in use. -/
def restoreChan (ch : Nat) (s : State) : State :=
  notePosition (chanPos ch) 1 (gatePosition (chanPos ch)
    (forgetRange (chanBase ch) (s.chan ch).bytes (s.updChan ch fun c => { c with state := .active })))

def channelCall (ps : List Byte) (s : State) : State × CallEnd :=
  let ch := arg ps 0 1
  let op := arg ps 1 1
  let force := natBit (arg ps 2 2) 0
  let c := s.chan ch
  let ok (t : State) : State × CallEnd := (t, .answer .ok (t.chan ch).state.code)
  if 128 ≤ ch || 3 ≤ op || c.state == .absent then (s, .answer .invalid 0)
  else
    match op with
    | 0 => ok (retireChan ch s)
    | 1 =>
      if c.state == .active && !force && chanInUse s ch then (s, .answer .consistency 0)
      else if c.run.isSome then (s, .answer .busy 0)
      else
        match c.state with
        | .active => ok (leaveActive ch .maintenance s)
        | .retired => ok (gatePosition (chanPos ch) (s.updChan ch fun x => { x with state := .maintenance }))
        | _ => ok s
    | _ =>
      if c.state == .active || !c.fullPass then (s, .answer .state 0)
      else if c.run.isSome then (s, .answer .busy 0)
      else ok (restoreChan ch s)

/-- The whole call, which acts by its `OP`. -/
def channelRow (r : Request) (s : State) : State :=
  settle (serveCall { op := 0x51, pf := true, bare := false, defer := false } r
    (fun ps => decide (2 ≤ arg ps 2 2) || !zeroFrom ps 4) channelCall s)

def execMemChannelRetire (r : Request) (s : State) : Host.Outcome State Fault Refusal := .next (channelRow r s)
def execMemChannelMaintenance (r : Request) (s : State) : Host.Outcome State Fault Refusal := .next (channelRow r s)
def execMemChannelRestore (r : Request) (s : State) : Host.Outcome State Fault Refusal := .next (channelRow r s)

/-! ## Exercisers (R287 to R290) -/

/-- The fields of a start. -/
def exerciseBad (c : Channel) (ps : List Byte) : Bool :=
  let ofs := arg ps 8 8
  let len := arg ps 16 8
  decide (4 < arg ps 2 1) || decide (5 < arg ps 3 1) || decide (3 < arg ps 4 1)
    || (arg ps 4 1 == 3 && (arg ps 5 1 == 0 || decide (99 < arg ps 5 1)))
    || !aligned ofs 64 || !aligned len 64 || len == 0 || decide (c.bytes < ofs + len)
    || arg ps 24 4 == 0 || decide (65535 < arg ps 24 4)
    || (arg ps 2 1 == 2 && (arg ps 28 4 == 0 || !aligned (arg ps 28 4) 64))

def exerciseCall (r : Request) (ps : List Byte) (s : State) : State × CallEnd :=
  let ch := arg ps 0 1
  let c := s.chan ch
  if 128 ≤ ch then (s, .answer .invalid 0)
  else if c.state == .active || c.state == .absent then (s, .answer .busy 0)
  else if arg ps 1 1 = 1 then
    if c.run.isNone then (s, .answer .invalid 0)
    else
      let stop (x : ExerciserRun) : ExerciserRun := { x with ending := some (x.ending.getD 2) }
      (s.updChan ch fun x => { x with run := x.run.map stop }, .answer .ok 0)
  else if 1 < arg ps 1 1 || exerciseBad c ps then (s, .answer .invalid 0)
  else if c.run.isSome then (s, .answer .busy 0)
  else
    let run : ExerciserRun :=
      { fn := r.fn.val, tag := r.tag, ending := none, addrPat := arg ps 2 1, dataPat := arg ps 3 1, mix := arg ps 4 1,
        writePct := arg ps 5 1, stopOnError := natBit (arg ps 6 2) 0, rangeOfs := arg ps 8 8, rangeLen := arg ps 16 8,
        passes := arg ps 24 4, stride := arg ps 28 4, seed := arg ps 32 8 }
    (s.updChan ch fun x => { x with run := some run, fullPass := false }, .later)

/-- The whole call, which acts by its `OP`. -/
def exerciseRow (r : Request) (s : State) : State :=
  serveCall { op := 0x52, pf := true, bare := false, defer := false } r
    (fun ps => decide (2 ≤ arg ps 6 2) || !zeroFrom ps 40) (exerciseCall r) s

def execMemExercise (r : Request) (s : State) : Host.Outcome State Fault Refusal := .next (exerciseRow r s)
def execMemExerciseStop (r : Request) (s : State) : Host.Outcome State Fault Refusal := .next (exerciseRow r s)

/-- `MEM_EXERCISE_DONE`: the run ends with its response; the range's contents are undefined. While its channel is suspended or pauses for
training a run makes no burst, so that only one that is to stop ends (R286, R287). -/
def execMemExerciseDone (ch : Fin 128) (rep : ExerciseReport) (s : State) : Host.Outcome State Fault Refusal :=
  .next (match (s.chan ch.val).run with
    | none => s
    | some x =>
      if ((s.chan ch.val).heat == .suspended || (s.chan ch.val).pausing) && x.ending.isNone then s
      else
      let t := s.updChan ch.val fun c => { c with run := none, fullPass := exerciseOutcome x rep == 0 }
      respond x.fn x.tag 0x52 .ok (exerciseResult ch.val x rep) (forgetRange (chanBase ch.val + x.rangeOfs) x.rangeLen t))

/-! ## Exhausted requests (R524, R525) -/

/-- Microseconds of 24 hours. -/
def dayUs : Nat := 86400000000

/-- The copy of a resident swap has a read that exhausts its retries (R414): the job ends, or the load that it served is refused. -/
def failCopy (s : State) : State :=
  match s.resident.swap with
  | none => s
  | some r =>
    let t := failSwap r s
    match s.currentJob.filter fun j => j.stage == .swapping with
    | some j => failSwapJob j t
    | none =>
      match s.resident.load.filter fun l => l.image == r with
      | some l => respond l.fn l.tag 0x12 .invalid 0 { t with resident := { t.resident with load := none } }
      | none => t

/-- What an exhausted request does to whoever made it. -/
def exhaust (ch : Nat) (who : MemRequester) (s : State) : State :=
  let d := detailChannel ch
  match who with
  | .job => strikeRunning .memUncorrectable 3 d s
  | .bar2Read => s.emit .bar2Abort
  | .bar2Write => s
  | .backingCopy => invalidateResident s
  | .outputDigest id => strikeWhere (fun j => j.id == id && j.stage == .outputs) .memUncorrectable 3 d s
  | .inputDigest => strikeWhere (fun j => j.stage == .digesting) .memUncorrectable 3 d s
  | .exerciser => s.updChan ch fun c => { c with run := c.run.map fun x => { x with ending := some 3 } }
  | .swapCopy => failCopy s

/-- The job that an exhausted request of a requester ends. -/
def exhaustEnds (s : State) (who : MemRequester) : Option Job :=
  match who with
  | .job => s.currentJob
  | .outputDigest id => (s.job id).filter fun j => j.stage == .outputs
  | .inputDigest => s.sched.jobs.find? fun j => j.stage == .digesting
  | .swapCopy => if s.resident.swap.isSome then s.currentJob.filter fun j => j.stage == .swapping else none
  | _ => none

/-- `MEM_CRC_RETRY`: attempt 1 to 8 is retried and counted; the request that fails on its eighth retry is exhausted, and the third
of a channel within 24 hours retires it. -/
def execMemCrcRetry (ch : Fin 128) (who : MemRequester) (attempt : Nat) (s : State) : Host.Outcome State Fault Refusal :=
  .next (
    if (s.chan ch.val).state == .absent || attempt = 0 || 9 < attempt then s
    else if attempt ≤ 8 then s.updChan ch.val fun c => { c with retries := satAdd 16 c.retries 1 }
    else
      let s1 := match exhaustEnds s who with
        | some j => logError 0x10 1 (if who = .swapCopy then .verify else .struck) j.fn 0xFF ch.val (chanBase ch.val) s
        | none => logError 0x10 0 .memUncorrectable 0xFF 0xFF ch.val (chanBase ch.val) s
      let s2 := exhaust ch.val who s1
      let recent := ((s.chan ch.val).exhausted.filter fun t => decide (s.time < t + dayUs)) ++ [s.time]
      let s3 := s2.updChan ch.val fun c => { c with exhausted := recent }
      settle (if 3 ≤ recent.length then retireChan ch.val s3 else s3))

/-! ## Heat (R283 to R285) -/

/-- The heat state after a reading. -/
def heatAfter (c : Channel) (t : Int) : Heat :=
  match c.heat with
  | .normal => if c.tCrit ≤ t then .suspended else if c.tHigh ≤ t then .high else .normal
  | .high => if c.tCrit ≤ t then .suspended else if t ≤ c.tHigh - 5 then .normal else .high
  | .suspended => if t ≤ c.tCrit - 10 then .high else .suspended

/-- One channel takes a reading: a change of heat is logged, and one that leaves suspension retrains, as a GDDR channel does whose
temperature has moved by 8 degrees since its last training. -/
def pollChan (temps : List Int) (s : State) (ch : Nat) : State :=
  let c := s.chan ch
  if c.state == .absent then s
  else
    let t := temps.getD (chanPos ch) c.temp
    let h := heatAfter c t
    let s1 := s.updChan ch fun x => { x with temp := t, heat := h }
    let s1 := if h == .suspended && !(c.heat == .suspended) then
        s1.updChan ch fun x => { x with suspendedAt := s.time, suspendLimit := s.staged.cur.memSuspendLimit } else s1
    let s2 := if h = c.heat then s1 else logError 0x12 0 .ok 0xFF 0xFF ch h.code s1
    let moved := decide (ch < 96) && decide (8 ≤ (t - c.trainTemp).natAbs)
    if !(h == .suspended) && !c.pausing && (moved || c.heat == .suspended) then beginRetrain ch s2 else s2

/-- `MEM_TEMP_POLL`: every channel, and `ALERT_N`; Amior reads nothing once it has stopped, and in `BARE` the segments are idle (R472,
R486). -/
def execMemTempPoll (temps : List Int) (s : State) : Host.Outcome State Fault Refusal :=
  .next (if s.fw.state == .failed || s.fw.state == .bare then s else updateAlert ((List.range 128).foldl (pollChan temps) s))

/-- `MEM_SUSPEND_TIMEOUT` (R285): every job of which a request has waited too long on a suspended channel is struck. -/
def execMemSuspendTimeout (ch : Fin 128) (s : State) : Host.Outcome State Fault Refusal :=
  .next (
    let late (j : Job) : Bool := jobWaitsTooLong s ch.val j
    if (s.chan ch.val).heat == .suspended && s.sched.jobs.any late then
      settle (strikeWhere late .thermal 3 (detailChannel ch.val)
        ((s.sched.jobs.filter late).foldl
          (fun acc j => logError 0x12 1 .struck j.fn 0xFF ch.val (chanBase ch.val) acc) s))
    else s)

/-! ## Retraining (R286, R525) -/

/-- `MEM_RETRAIN`: a GDDR channel's periodic retraining; none while suspended. -/
def execMemRetrain (ch : Fin 128) (s : State) : Host.Outcome State Fault Refusal :=
  .next (
    let c := s.chan ch.val
    if decide (ch.val < 96) && !(c.state == .absent) && !(c.heat == .suspended) && !c.pausing then beginRetrain ch.val s else s)

/-- `CAMM_RECALIBRATE`: a CAMM2 channel's strobe timing. -/
def execCammRecalibrate (ch : Fin 128) (s : State) : Host.Outcome State Fault Refusal :=
  .next (
    let c := s.chan ch.val
    if decide (96 ≤ ch.val) && !(c.state == .absent) && !(c.heat == .suspended) && !c.pausing then
      s.updChan ch.val fun x => { x with pausing := true }
    else s)

/-- `MEM_RETRAIN_DONE`: the pause ends. A failure is logged and retried at once; a second retires the channel. -/
def execMemRetrainDone (ch : Fin 128) (ok again : Bool) (s : State) : Host.Outcome State Fault Refusal :=
  .next (
    if !(s.chan ch.val).pausing then s
    else
      let fail (t : State) : State := logError 0x13 0 .ok 0xFF 0xFF ch.val (chanBase ch.val) t
      let s1 := s.updChan ch.val fun c => { c with pausing := false, trainTemp := c.temp }
      if ok then s1 else if again then fail s1 else settle (notePosition (chanPos ch.val) 3 (retireChan ch.val (fail (fail s1)))))

/-- `PATROL_SCRUB` (R276, R525): an error that a device reports is logged only. -/
def execPatrolScrub (ch : Fin 128) (errorAddr : Option Nat) (s : State) : Host.Outcome State Fault Refusal :=
  .next (match errorAddr with
    | some a => if (s.chan ch.val).state == .active then logError 0x14 0 .ok 0xFF 0xFF ch.val a s else s
    | none => s)

/-- `CAMM_MODULE_LOST` (R525): every channel of a module that stops answering is retired, and the inventory shows that its hub cannot be
read (R488). -/
def execCammModuleLost (m : Fin 4) (s : State) : Host.Outcome State Fault Refusal :=
  .next (
    let fitted := (posChans (24 + m.val)).any fun c => !((s.chan c).state == .absent)
    let t := retirePosition (24 + m.val) s
    settle (if fitted then notePosition (24 + m.val) 4 t else t))

/-- `MEMORY_SUPPLY_FAULT` (R525, R488): every channel of the position is retired. -/
def execMemorySupplyFault (position : Fin 28) (s : State) : Host.Outcome State Fault Refusal :=
  .next (
    let p := position.val
    let fitted := (posChans p).any fun c => !((s.chan c).state == .absent)
    if !fitted then s
    else
      settle (if p < 24 then notePosition p 4 (retirePosition p s) else retirePosition p s))

end Sys2Proof.Machine
end

