-- ==== Sys2Proof/Machine/Halt.lean ====
section
/-! DEFINITION. What the device loses when its firmware stops or starts anew (R385, R495, R497, R523): rings, jobs and the state that
the firmware holds. -/
namespace Sys2Proof.Machine

/-- Every function's ring setups, job queues and outstanding requests are discarded (R385). -/
def dropRings (s : State) : State :=
  { s with funcs := s.funcs.map fun f => { f with mailbox := none, queues := List.replicate 8 none } }

/-- Every job ends without a record; nothing is in flight at any unit or engine. -/
def dropJobs (s : State) : State :=
  let t := s.sched.jobs.foldl (fun acc j => dropHeld j acc) (idleUnits s)
  let t := { t with fabric := { t.fabric with windows := t.fabric.windows.map fun _ => none, sends := [], queued := [] } }
  let cut (e : EngineState) : EngineState := { e with queue := [] }
  { t with sched := { Scheduler.empty with nextId := s.sched.nextId, nextKey := s.sched.nextKey },
           codec := { t.codec with encoder := cut t.codec.encoder, decoder := cut t.codec.decoder },
           sec := { t.sec with open_ := [], sign := [] } }

/-- Calls that wait end without a response. -/
def dropWaits (s : State) : State :=
  { s with staged := { s.staged with pending := [], commit := none },
           tables := s.tables.map fun t => { t with load := none },
           resident := { s.resident with load := none, swap := none }, test := none, bar2Held := [], doorbells := [],
           fw := { s.fw with staging := none },
           channels := s.channels.map fun c => { c with run := none } }

/-- Every Peal port falls idle, and what its buffers hold is lost (R305, R523). -/
def idlePorts (s : State) : State :=
  let stop (acc : State) (p : Nat) : State := if (acc.port p).state == .disabled then acc else stopPort .down p acc
  (List.range 16).foldl stop s

/-- The service ends: rings, jobs and waiting calls are gone (R385). -/
def endService (s : State) : State := dropWaits (dropJobs (dropRings s))

/-- The firmware halts (R523, R527, R448): `FAILED`, nothing is served any more, and the segments of the Clave bus are idle (R486). -/
def haltFirmware (err : Status) (s : State) : State :=
  let t := setFwState .failed err (endService (idlePorts s))
  { t with pins := { t.pins with segKhz := [0, 0, 0, 0] } }

/-- Slots 0 to 7 hold the built-in tables 0x01 to 0x08 (R189). -/
def builtinSlots : List TableSlot :=
  (List.range 8).map fun i => { cur := some (builtinImage (i + 1)), load := none }

/-- The state that the firmware holds is lost (R495): `FEATURE_ENABLE` is at its reset value, and its domains follow (R431). -/
def firmwareLost (s : State) : State :=
  let t := gateDomains s.staged.cur.featureEnable Settings.reset.featureEnable (endService s)
  let v := s.fuses.variant
  let p0 := Power.reset (maxPower v) (maxClock v)
  { t with scores := List.replicate 16 none, resident := Resident.reset, tables := builtinSlots,
           staged := { cur := Settings.reset, pending := [], commit := none }, preempt := PreemptPolicy.reset,
           groups := List.replicate 16 none,
           codec := { t.codec with sessions := List.replicate 64 none,
                                   encoder := { t.codec.encoder with lastServed := none, loaded := none },
                                   decoder := { t.codec.decoder with lastServed := none, loaded := none } },
           fabric := { t.fabric with waiting := [], tagged := [] },
           power := { t.power with limitW := p0.limitW, windowMs := p0.windowMs, clockCap := p0.clockCap,
                                   tjTarget := p0.tjTarget, idleStop := p0.idleStop } }

/-- The scratch of every enabled core is zero with correct parity (R257). -/
def zeroScratch (c : Nat) (s : State) : State := { s with mem := s.mem.zeroRange (scratchBase c) scratchSize }

/-- Scratch zeroed and every boundary 0 (R495). -/
def zeroCores (s : State) : State :=
  let t := (enabledCores s.fuses.variant).foldl (fun acc c => zeroScratch c acc) s
  { t with cores := t.cores.map fun k =>
      { Core.idled k with boundary := 0, tiles := k.tiles.map fun _ => [], rattle := k.rattle.map fun _ => RattleCtx.zero } }

end Sys2Proof.Machine
end

