-- ==== Sys2Proof/Machine/Parity.lean ====
section
/-! DEFINITION. Parity errors on the die (R123, R257, R520 to R523). -/
namespace Sys2Proof.Machine

/-- The bar and descriptor where a unit detects an error: those of its oldest stroke in flight; else its bar alone. -/
def detectedAt (u : UnitState) : Nat × Nat :=
  match u.inflight.head? with
  | some i => (i.bar, i.desc)
  | none => (u.bar, noDesc)

/-- A parity error of a unit's read at a bar and descriptor is logged and strikes the running job (R399, R518, R521). -/
def parityStrike (source : Nat) (u : UnitId) (p : Nat × Nat) (s : State) : State :=
  let t := logError source (if s.currentJob.isSome then 1 else 0) .struck (runningFn s) (unitStave u) (unitCore u) p.1 s
  strikeRunning .parity 3 (detailPlace (unitStave u) 0xFF (unitCore u) p.1 p.2 0 0xFF) t

def coreUnit (c : Fin 256) (stave : Fin 16) : UnitId := .core c stave

/-- `SCRATCH_PARITY_ERROR`: the working region (source 0x01). -/
def execScratchParityError (c : Fin 256) (stave : Fin 16) (s : State) : Host.Outcome State Fault Refusal :=
  .next (settle (parityStrike 0x01 (coreUnit c stave) (detectedAt (s.unit (coreUnit c stave))) s))

/-- The layout of the job that holds the units: the one in force while they run, the first of its entry before they have, and else the one
that it rests in (R522). -/
def layoutOf (s : State) (j : Job) : Nat :=
  if j.stage == .running || j.stage == .evicting then s.sched.layout
  else if j.kernels = 0 && (j.stage == .swapping || j.stage == .digesting) && !((s.sched.save.map (·.job)) == some j.id) then
    layoutAt s j (scFirstBar s.mem (s.scoreAddr j) j.entry)
  else j.layout

/-- Core `c` lies in the layout of the job that holds the units. -/
def inRunningLayout (s : State) (c : Nat) : Bool :=
  match s.currentJob with
  | some j => (layoutCores s.fuses.variant s.mem (s.scoreAddr j) (layoutOf s j)).contains c
  | none => false

/-- A core's resident region is to be refilled; an unbacked resident cannot be, and is invalid (R262, R280, R520). -/
def askRefill (c : Nat) (s : State) : State :=
  if s.resident.unbacked then invalidateResident s
  else if s.resident.refills.contains c then s
  else { s with resident := { s.resident with refills := s.resident.refills ++ [c] } }

/-- `RESIDENT_PARITY_ERROR` (R520). -/
def execResidentParityError (c : Fin 256) (stave : Fin 16) (s : State) : Host.Outcome State Fault Refusal :=
  .next (
    if (s.core c.val).boundary = 0 then s
    else
      let t := if inRunningLayout s c.val then
          parityStrike 0x02 (coreUnit c stave) (detectedAt (s.unit (coreUnit c stave))) s
        else logError 0x02 0 .ok 0xFF stave.val c.val 0 s
      settle (askRefill c.val t))

/-- `RESIDENT_REFILL_DONE` (R262, R520): the region is rewritten from the backing copy of the image in force. -/
def execResidentRefillDone (c : Fin 256) (ok : Bool) (s : State) : Host.Outcome State Fault Refusal :=
  .next (
    let waits := match s.resident.cur with | some r => onSuspended s [segmentAt r c.val] | none => false
    if !(s.resident.refills.contains c.val) || s.resident.swap.isSome || waits then s
    else
      let t := { s with resident := { s.resident with refills := s.resident.refills.filter fun x => !(x == c.val) } }
      settle (match t.resident.cur with
        | some r => if ok && !t.resident.unbacked then fillCore r c.val t else invalidateResident t
        | none => t))

/-- `MALLET_PARITY_ERROR`: a held tile that has fed no product is discarded, to be loaded again; any other error strikes. -/
def execMalletParityError (c : Fin 256) (mu : Fin 4) (unusedTile : Bool) (s : State) : Host.Outcome State Fault Refusal :=
  .next (
    let stave := Fin.ofNat 16 (mu.val + 1)
    if unusedTile then
      (logError 0x03 0 .ok 0xFF stave.val c.val 0 s).updCore c.val fun k => { k with tiles := updAt k.tiles mu.val fun _ => [] }
    else settle (parityStrike 0x03 (coreUnit c stave) (detectedAt (s.unit (coreUnit c stave))) s))

/-- The GANG stroke in flight at a unit, and the partition that holds a sub-array: its lowest sub-array. -/
def gangPartition (s : State) (j : Job) (u : UnitId) (sa : Nat) : Option (Inflight × Nat) :=
  ((s.unit u).inflight.find? fun i => i.op.toNat == 0x11).bind fun i =>
    (((List.range (i.imm.toNat % 16)).map (gangMask s j u i)).find? fun m => natBit m sa).bind fun m =>
      ((List.range 8).find? (natBit m)).map fun low => (i, low)

/-- `GANG_PARITY_ERROR` (R123): the partition's problem stops, and nothing more of it is written; the job is struck when the GANG
stroke has completed. Each faulted partition has its own entry in the log. -/
def execGangParityError (c : Fin 256) (mu : Fin 4) (sa : Fin 8) (s : State) : Host.Outcome State Fault Refusal :=
  .next (
    let u := coreUnit c (Fin.ofNat 16 (mu.val + 1))
    match s.currentJob.bind fun j => gangPartition s j u sa.val with
    | none => s
    | some (i, low) =>
      let part := mu.val * 8 + low
      if (s.core c.val).stoppedParts.contains (i.key, part) then s
      else
        (logError 0x04 1 .struck (runningFn s) (mu.val + 1) part i.bar s).updCore c.val fun k =>
          { k with stoppedParts := k.stoppedParts ++ [(i.key, part)] })

/-- `STAVE_PARITY_ERROR` (R521): one refetch from the score image; a second failure strikes the job. -/
def execStaveParityError (u : UnitId) (again : Bool) (s : State) : Host.Outcome State Fault Refusal :=
  .next (if again then settle (parityStrike 0x05 u ((s.unit u).bar, noDesc) s)
    else logError 0x05 0 .ok 0xFF (unitStave u) (unitCore u) (s.unit u).bar s)

/-- `CHIME_BANK_PARITY_ERROR` (R521): the bank is rewritten from Amior's copy of the image in force, so that it holds what it
held; the running job is struck. -/
def execChimeBankParityError (c : Fin 256) (slot : Fin 8) (s : State) : Host.Outcome State Fault Refusal :=
  .next (
    let t := logError 0x06 (if s.currentJob.isSome then 1 else 0) .struck (runningFn s) 0xFF c.val slot.val s
    settle (strikeRunning .parity 3 (detailPlace 0xFF 0xFF c.val noDesc noDesc 0 0xFF) t))

/-- What the owner of a discarded entry meets (R521): the log names the function of the job that is struck. -/
def ownerMeets (source : Nat) (owner : FlitOwner) (place : Nat) (s : State) : State :=
  match owner, s.currentJob with
  | .job, some j => strikeRunning .parity 0 0 (logError source 1 .struck j.fn 0xFF place 0 s)
  | .bar2, _ => (logError source 0 .parity 0 0xFF place 0 s).emit .bar2Abort
  | _, _ => logError source 0 .parity 0xFF 0xFF place 0 s

/-- `MESH_FLIT_PARITY_ERROR`: source 0x07, at a row segment's domain. -/
def execMeshFlitParityError (owner : FlitOwner) (row : Fin 16) (s : State) : Host.Outcome State Fault Refusal :=
  .next (settle (ownerMeets 0x07 owner (256 + row.val) s))

/-- A buffer of a port, 16 for the device's own flits, holds a flit. -/
def holdsFlit (s : State) (p : Nat) : Bool := (s.fabric.waiting.any fun w => w.1 == p) || !(s.port p).waitTx.isEmpty

/-- The oldest flit that a port holds is discarded, as at a broken hop (R305). -/
def dropOldest (p : Nat) (s : State) : State :=
  match s.fabric.waiting.findIdx? fun w => w.1 == p with
  | some i =>
    match s.fabric.waiting[i]? with
    | some w =>
      oweCredit p w.2.2.vc
        (discardFlit p w.2.2.dest.toNat { s with fabric := { s.fabric with waiting := s.fabric.waiting.eraseIdx i } })
    | none => s
  | none =>
    match (s.port p).waitTx with
    | w :: rest => oweCredit w.1 w.2.1 (discardFlit p w.2.2.dest.toNat (s.updPort p fun x => { x with waitTx := rest }))
    | [] => s

/-- The buffers of a domain: those of one Peal port, or those of the eight ports of a Belfry half and then the device's own (R431; the
half of a port is DEDUCED, log 113). -/
def domainBuffers (domain : Nat) : List Nat :=
  if 300 ≤ domain && domain < 316 then [domain - 300]
  else if domain = 316 then List.range 8 ++ [16]
  else if domain = 317 then rangeFrom 8 8 ++ [16]
  else []

/-- `FIFO_PARITY_ERROR`: source 0x08; a Peal flit that is discarded behaves as at a broken hop. -/
def execFifoParityError (owner : FlitOwner) (domain : Nat) (s : State) : Host.Outcome State Fault Refusal :=
  .next (
    let t := ownerMeets 0x08 owner domain s
    settle (match owner, (domainBuffers domain).find? (holdsFlit s) with
      | .peal, some p => dropOldest p t
      | _, _ => t))

/-- `AMIOR_PARITY_ERROR` (R523): whatever runs on Amior, boot ROM or firmware, stops; jobs end without records, the log is not written. -/
def execAmiorParityError (s : State) : Host.Outcome State Fault Refusal :=
  .next (if !s.pins.devResetN || s.fw.state == .failed then s else haltFirmware .parity s)

end Sys2Proof.Machine
end

