-- ==== Sys2Proof/Machine/Peal.lean ====
section
/-! DEFINITION. What arrives at the Peal ports (R291 to R312, R322, R326 to R334, R526): training and identity, flits with their
acknowledgements and credits, retries, sends, collective chunks, clapper messages, and the fabric's timeouts. -/
namespace Sys2Proof.Machine

/-- The fabric is enabled (R423). -/
def linkOn (s : State) : Bool := natBit s.staged.cur.featureEnable 2

/-! ## Training and identity (R292 to R294, R526) -/

/-- What the device says of itself on a port (R294). -/
def ownIdentity (s : State) (p : Nat) : Identity :=
  { member := s.inv.member, port := p, extents := s.inv.extents, torus := s.inv.torus }

/-- `PORT_TRAINED`: all four lanes run at one rate no higher than the port's and the module's, and identity goes out as the first flit of
the port's sequence. -/
def execPortTrained (p : Fin 16) (rate : Nat) (s : State) : Host.Outcome State Fault Refusal :=
  .next (
    let most := min (s.inv.portMaxRate.getD p.val 0) (s.inv.portModule.getD p.val 0)
    if linkOn s && (s.port p.val).state == .training && (s.port p.val).rate == 0 && decide (1 ≤ rate) && decide (rate ≤ most) then
      sendLink p.val (.identity (ownIdentity s p.val)) (s.updPort p.val fun x => { x with rate := rate })
    else s)

/-- The neighbour is the one that the port's number names (R294). -/
def identityOk (s : State) (p : Nat) (who : Identity) : Bool :=
  let d := p / 4
  let minus := natBit p 1
  let me := coordOf s.self
  let it := coordOf who.member.toNat
  let e := s.extent d
  let next := if minus then me.getD d 0 + e - 1 else me.getD d 0 + 1
  let place := if s.isTorus d then it.getD d 0 == next % e
    else if minus then it.getD d 0 + 1 == me.getD d 0 else it.getD d 0 == me.getD d 0 + 1
  place && ((List.range 4).all fun k => k == d || it.getD k 0 == me.getD k 0) && who.port == portNo d (!minus) (p % 2)
    && who.extents == s.inv.extents && who.torus == s.inv.torus

/-- Microseconds of an hour. -/
def hourUs : Nat := 3600000000

/-- A port that failed three times within one hour stays failed until it is retrained or reset (R526): the times kept are those of the hour
before its last failure. -/
def staysFailed (q : Port) : Bool := q.state == .failed && decide (3 ≤ q.failedAt.length)

/-- `PORT_RETRY_TRAIN`: after 1 s a down, held or failed port trains again. -/
def execPortRetryTrain (p : Fin 16) (s : State) : Host.Outcome State Fault Refusal :=
  .next (
    let q := s.port p.val
    let idle := q.state == .down || q.state == .held || q.state == .failed
    if portTrains s p.val && (s.fw.state == .ready || s.fw.state == .init) && idle && !staysFailed q && decide (q.retryAt + 1000000 ≤ s.time) then
      s.updPort p.val fun x => { x with state := .training, rate := 0, neighbour := none }
    else s)

/-- `LINK_DOWN` (R305): what the port held is lost, routes through it break, and what had not left on it goes by another way. -/
def execLinkDown (p : Fin 16) (s : State) : Host.Outcome State Fault Refusal :=
  .next (
    let st := (s.port p.val).state
    if st == .up || st == .training || st == .held then dropPort .down p.val s else s)

/-- A port fails, and everything in its buffers is lost (R299, R526). -/
def failPort (p : Nat) (s : State) : State :=
  (logError 0x21 2 .ok 0xFF 0xFF p 0 (stopPort .failed p s)).updPort p fun x =>
    { x with failedAt := (x.failedAt.filter fun t => decide (s.time < t + hourUs)) ++ [s.time] }

/-! ## Acknowledgements, credits and retries (R299, R300) -/

/-- Replayed flits that an acknowledgement covers are let go. -/
def coverAck (seq : BitVec 8) (l : List Flit) : List Flit :=
  if l.any fun f => f.seq == seq then (l.dropWhile fun f => !(f.seq == seq)).drop 1 else l

/-- Credits of one channel return. -/
def takeCredit (p : Nat) (vc : BitVec 6) (n : Nat) (s : State) : State :=
  if n = 0 then s else s.updPort p fun x => { x with credits := setCount x.credits vc (countOf x.credits vc - n) }

/-- What the header of any flit carries: an acknowledgement and credits. -/
def takeHeader (p : Nat) (f : Flit) (s : State) : State :=
  let s1 := match f.ack with
    | some a => s.updPort p fun x => { x with replay := coverAck a x.replay }
    | none => s
  flush p (takeCredit p f.credVc f.credN.toNat s1)

/-- A port receives flits: it is up, or it has trained and waits for its neighbour's identity (R294). -/
def portLive (s : State) (p : Nat) : Bool :=
  linkOn s && ((s.port p).state == .up || ((s.port p).state == .training && decide (0 < (s.port p).rate)))

/-- Codewords that the receiver corrected are counted (R343). -/
def countCorrected (p n : Nat) (s : State) : State :=
  s.updPort p fun x => { x with fecCorrected := satAdd 32 x.fecCorrected n }

/-- An uncorrectable codeword or a CRC mismatch: the flit is discarded, and a NACK names the expected one (R299). -/
def flitError (p : Nat) (uncorrectable : Bool) (s : State) : State :=
  let t := s.updPort p fun x =>
    if uncorrectable then { x with nacking := true, fecUncorrectable := satAdd 32 x.fecUncorrectable 1 }
    else { x with nacking := true, crcErrors := satAdd 32 x.crcErrors 1 }
  if (s.port p).nacking then t else sendNack p t

/-- What a port does with the bytes of one flit: corrected codewords are counted, the CRC is checked, and a flit as the command says is
acted on. -/
def receive (p : Nat) (w : WireFlit) (suits : Flit → Bool) (act : Flit → State → State) (s : State) : State :=
  if !portLive s p then s
  else
    let t := countCorrected p w.corrected s
    if !crcHolds w.bytes then flitError p false t
    else
      match flitOf w.bytes with
      | some f => if suits f then act f t else t
      | none => t

/-- A sequenced flit is taken when it is the expected one; any other is discarded (R299). -/
def takeSequenced (p : Nat) (f : Flit) (s : State) : Option State :=
  if f.seq == (s.port p).rxExpect then
    some (takeHeader p f (s.updPort p fun x => { x with rxExpect := f.seq + 1, nacking := false }))
  else none

/-- A sequenced flit has come in order: what it says is done, and the port answers. -/
def inOrder (p : Nat) (act : Flit → State → State) (f : Flit) (s : State) : State :=
  match takeSequenced p f s with
  | some t => answerPort p (act f t)
  | none => s

/-- A flit that its command consumes: its buffer is free once it has been acted on. -/
def consume (p : Nat) (act : State → State) (f : Flit) (s : State) : State := oweCredit p f.vc (act s)

/-- A flit for this device is consumed; one for another goes on by its route (R301). -/
def consumeHere (p : Nat) (act : State → State) (f : Flit) (s : State) : State :=
  if f.dest = s.inv.member then consume p act f s else routeFlit p (transitPair p f) f s

/-- A LINK flit that carries a message. -/
def saysLink (m : LinkMsg) (f : Flit) : Bool := f.kind == .link && f.payload == (Config.linkBytes m).take 236

/-- The neighbour's identity at a port that has trained: up, or held and logged (R294). -/
def takeIdentity (p : Nat) (who : Identity) (s : State) : State :=
  if !((s.port p).state == .training) then s
  else if identityOk s p who then s.updPort p fun x => { x with state := .up, neighbour := some who }
  else
    logError 0x20 0 .ok 0xFF 0xFF p who.member.toNat
      ((stopPort .held p s).updPort p fun x => { x with neighbour := some who })

/-- `IDENTITY_EXCHANGE`. -/
def execIdentityExchange (w : PortFlit) (who : Identity) (s : State) : Host.Outcome State Fault Refusal :=
  .next (receive w.port.val w.wire (saysLink (.identity who))
    (inOrder w.port.val fun f => consume w.port.val (takeIdentity w.port.val who) f) s)

/-- `IDLE_FLIT_RX`: it has no sequence number, so that it is taken while the port waits for a retry too. -/
def execIdleFlitRx (p : Fin 16) (w : WireFlit) (s : State) : Host.Outcome State Fault Refusal :=
  .next (receive p.val w (fun f => f.kind == .idle) (fun f t => sendCredits (takeHeader p.val f t)) s)

/-- `LINK_CREDIT`: credits in bulk. -/
def execLinkCredit (w : PortFlit) (credits : List (BitVec 6 × Nat)) (s : State) : Host.Outcome State Fault Refusal :=
  .next (receive w.port.val w.wire (saysLink (.credits credits))
    (inOrder w.port.val fun f => consume w.port.val
      (fun t => flush w.port.val (credits.foldl (fun acc c => takeCredit w.port.val c.1 c.2 acc) t)) f) s)

/-- Resent sequence numbers of the last millisecond, with those of now. -/
def resendsNow (s : State) (q : Port) (again : List Flit) : List (BitVec 8 × Nat) :=
  (q.resends.filter fun r => decide (s.time < r.2 + 1000)) ++ again.map fun f => (f.seq, s.time)

/-- Some flit has been resent eight times within 1 ms. -/
def resentTooOften (l : List (BitVec 8 × Nat)) : Bool := l.any fun r => decide (8 ≤ (l.filter fun x => x.1 == r.1).length)

/-- Go back to the named flit: it and all after it are sent again, in order (R299). -/
def goBack (p : Nat) (seq : BitVec 8) (s : State) : State :=
  let q := s.port p
  let again := q.replay.dropWhile fun f => !(f.seq == seq)
  if again.isEmpty then s
  else
    let recent := resendsNow s q again
    let t := s.updPort p fun x => { x with retries := satAdd 32 x.retries 1, resends := recent }
    if resentTooOften recent then failPort p t
    else again.foldl (fun acc f => acc.emit (.flit p { f with ack := lastReceived q })) t

/-- `LINK_NACK`: it has no sequence number. -/
def execLinkNack (w : PortFlit) (seq : BitVec 8) (s : State) : Host.Outcome State Fault Refusal :=
  .next (receive w.port.val w.wire (saysLink (.nack seq)) (fun f t => goBack w.port.val seq (takeHeader w.port.val f t)) s)

/-- `FLIT_CRC_ERROR`: the flit is discarded, and the NACK names the expected one. -/
def execFlitCrcError (p : Fin 16) (uncorrectable : Bool) (s : State) : Host.Outcome State Fault Refusal :=
  .next (if portLive s p.val then flitError p.val uncorrectable s else s)

/-- `NACK_REPEAT`. -/
def execNackRepeat (p : Fin 16) (s : State) : Host.Outcome State Fault Refusal :=
  .next (if portLive s p.val && (s.port p.val).nacking then sendNack p.val s else s)

/-! ## Sends and chunks (R301 to R312, R322) -/

/-- `SEND_FLIT_RX`. A flit in transit keeps the pair it came on. -/
def execSendFlitRx (p : Fin 16) (src : BitVec 14) (w : WireFlit) (s : State) : Host.Outcome State Fault Refusal :=
  .next (receive p.val w (fun f => f.kind == .send) (inOrder p.val fun f t => offerFlit p.val src f t) s)

/-- `SEND_ACK`: the acknowledgement of one of this device's sends, or one on its way. -/
def execSendAck (w : PortFlit) (xtag : BitVec 7) (landed : Landed) (s : State) : Host.Outcome State Fault Refusal :=
  .next (receive w.port.val w.wire (fun f => saysLink (.ack f.dest xtag landed.bytes landed.opening) f)
    (inOrder w.port.val fun f => consumeHere w.port.val (ackSend xtag landed.bytes landed.opening) f) s)

/-- `COLL_FLIT_RX`. -/
def execCollFlitRx (p : Fin 16) (w : WireFlit) (s : State) : Host.Outcome State Fault Refusal :=
  .next (settle (receive p.val w (fun f => f.kind == .coll) (inOrder p.val fun f t => offerFlit p.val 0 f t) s))

/-! ## Clapper messages (R326 to R332) -/

/-- A flit that carries a clapper message of a kind. -/
def saysClap (kind : Nat) (f : Flit) : Bool := f.kind == .clap && (clapOf f.payload).kind.toNat == kind

/-- A clapper message of a kind arrives: one for this device is acted on by its group, if it has one of the tag. -/
def clapArrives (w : PortFlit) (kind : Nat) (act : Group → ClapMsg → State → State) (s : State) : State :=
  receive w.port.val w.wire (saysClap kind)
    (inOrder w.port.val fun f => consumeHere w.port.val
      (fun t =>
        let m := clapOf f.payload
        match t.group m.tag.toNat with
        | some g => act g m t
        | none => t) f) s

/-- A child's result is due: for a collective in flight or not yet started here. While the group is unchecked it is the check's: a child
starts the others once its parent has passed on the done decision (R317, R325). -/
def awaitsUp (g : Group) (seq : Nat) : Bool :=
  if g.checked then (g.coll seq).isSome || notStarted g seq else seq == 0

/-- A child's result joins its collective, or waits for it to start; one of a decided collective is ignored. -/
def takeUp (g : Group) (m : ClapMsg) (s : State) : State :=
  let seq := m.cseq.toNat
  let tag := g.tag.toNat
  let kid := m.srcRank.toNat
  if !((treeChildren g.size g.rank).contains kid) || !awaitsUp g seq then s
  else if (g.coll seq).isSome then
    afterCheck tag seq (tryUp tag seq (s.updGroup tag fun x => x.updColl seq fun c =>
      { c with children := (c.children.filter fun k => !(k.1 == kid)) ++ [(kid, m.data)] }))
  else
    s.updGroup tag fun x =>
      { x with early := (x.early.filter fun e => !(e.1 == seq && e.2.1 == kid)) ++ [(seq, kid, m.data)] }

/-- `CLAP_UP`. -/
def execClapUp (w : PortFlit) (s : State) : Host.Outcome State Fault Refusal :=
  .next (settle (clapArrives w 0 takeUp s))

/-- The root's result, which is itself the done decision. -/
def takeResult (g : Group) (m : ClapMsg) (s : State) : State :=
  match g.coll m.cseq.toNat with
  | some c => afterCheck g.tag.toNat m.cseq.toNat (takeDown g c m.data s)
  | none => s

/-- `CLAP_DOWN`. -/
def execClapDown (w : PortFlit) (s : State) : Host.Outcome State Fault Refusal :=
  .next (settle (clapArrives w 1 takeResult s))

/-- An abort request is decided at the root; any other member passes it on to its parent. -/
def takeRequestUp (g : Group) (m : ClapMsg) (s : State) : State :=
  if g.rank = 0 then decideAbort g m.cseq.toNat m.cause.toNat m.originId.toNat false s
  else sendClap g (treeParent g.rank) (clapMsg g 2 0 m.cause.toNat m.cseq.toNat m.originId.toNat []) s

/-- `CLAP_ABORT_REQUEST`. -/
def execClapAbortRequest (w : PortFlit) (s : State) : Host.Outcome State Fault Refusal :=
  .next (settle (clapArrives w 2 takeRequestUp s))

/-- An abort decided by the root for a collective that this member, or one behind it, has already ended for want of a decision (R333). -/
def abortedHere (g : Group) (seq : Nat) : Bool :=
  (g.coll seq).isNone && g.late.any fun a => seq == a || (decide (0 < seq) && decide (seq < a))

/-- A decision: done, or abort with its cause. The root decides once: of an abort that this member has not waited for only the children
are told. -/
def takeDecision (g : Group) (m : ClapMsg) (s : State) : State :=
  let seq := m.cseq.toNat
  if m.cause = 0 then afterCheck g.tag.toNat seq (takeDone g seq s)
  else if abortedHere g seq then
    sendChildren g (clapMsg g 3 0 m.cause.toNat seq m.originId.toNat []) (s.updGroup g.tag.toNat fun x => { x with late := none })
  else applyAbort g seq m.cause.toNat m.originId.toNat s

/-- `CLAP_DECISION`. -/
def execClapDecision (w : PortFlit) (s : State) : Host.Outcome State Fault Refusal :=
  .next (settle (clapArrives w 3 takeDecision s))

/-! ## Timeouts (R312, R330, R333) -/

/-- A stroke that `PEAL_XFER_TIMEOUT` bounds: SEND, RECV, or a drain of combination 7. -/
def xferStroke (s : State) (u : UnitId) (i : Inflight) : Bool :=
  (unitStave u == 13 && (i.op == 0x10 || i.op == 0x11)) ||
  (unitStave u == 8 && i.op == 0x10 && fld (descOf s.mem (fireOf s u i) i.desc) 459 456 == 7)

/-- `XFER_TIMEOUT`. -/
def execXferTimeout (u : UnitId) (slot : Nat) (s : State) : Host.Outcome State Fault Refusal :=
  .next (match (s.unit u).inflight[slot]? with
    | none => s
    | some i =>
      if xferStroke s u i && !(i.phase == .done) && decide (i.firedAt + i.timeout ≤ s.time) then
        let t := logError 0x23 1 .struck (runningFn s) (unitStave u) (unitCore u) i.bar s
        settle (strikeRunning .collTimeout 3 (detailPlace (unitStave u) 0xFF (unitCore u) i.bar i.desc 0 0xFF) t)
      else s)

/-- `COLL_TIMEOUT`: the group's timeout has passed since a collective of it was fired, for which no request stands. -/
def execCollTimeout (tag : Word) (s : State) : Host.Outcome State Fault Refusal :=
  .next (match s.group tag.toNat with
    | none => s
    | some g =>
      match g.colls.find? fun c => decide (c.firedAt + g.timeoutUs ≤ s.time) && !(g.abortSent.any fun a => a.2 == c.seq) with
      | some c => settle (requestAbort g c.seq 1 s)
      | none => s)

/-- `ABORT_NO_DECISION`: this member ends its own job. -/
def execAbortNoDecision (tag : Word) (s : State) : Host.Outcome State Fault Refusal :=
  .next (match s.group tag.toNat with
    | none => s
    | some g =>
      match g.abortSent.find? fun a => decide (a.1 + g.timeoutUs ≤ s.time) with
      | some a => settle (endAbort 0x25 g a.2 1 s.self s)
      | none => s)

end Sys2Proof.Machine
end

