-- ==== Sys2Proof/Machine/Doorbells.lean ====
section
/-! DEFINITION. Doorbells (R382, R385, R388 to R392): what each one does when the device acts on it. -/
namespace Sys2Proof.Machine

/-- A block that follows the table of R389. -/
def setupOk (b : Desc) : Bool :=
  let req := byteField b 16 2
  let rsp := byteField b 18 2
  aligned (byteField b 0 8) 4096 && aligned (byteField b 8 8) 4096 && ringSizeOk req && ringSizeOk rsp && decide (req ≤ rsp)
    && byteField b 20 44 == 0

/-- The mailbox that a block sets up. -/
def mailboxOf (b : Desc) : Mailbox :=
  { reqBase := byteField b 0 8, rspBase := byteField b 8 8, reqEntries := byteField b 16 2, rspEntries := byteField b 18 2,
    reqTail := 0, ring := [], taken := 0, rspWrite := 0, rspUnreleased := 0, rspPhase := true, held := [], stopping := false }

/-- Requests that the host has made and that have no response yet. -/
def Mailbox.outstanding (m : Mailbox) : Nat := m.ring.length + m.taken

/-- Requests of a function are outstanding. -/
def outstanding (o : Option Mailbox) : Bool := match o with | some m => decide (0 < m.outstanding) | none => false

/-- `CMD` of a `MBX_REQ_DB` value. -/
def doorbellCmd (value : DWord) : Nat := bitField value 62 2

/-- A setup (R385, R389): in every state but `FAILED` it is kept, and served once the firmware serves. -/
def ringSetup (fn : Nat) (value : DWord) (block : Desc) (s : State) : State :=
  if !reaches s fn || s.fw.state == .failed then s
  else if !(doorbellCmd value == 1) || !(bitField value 58 4 == 0) || outstanding (s.mailbox fn) || !setupOk block then
    logMisuse fn value.toNat s
  else s.updFunc fn fun f => { f with mailbox := some (mailboxOf block) }

/-- The entries of the new slots; a slot the sender left out holds a request whose row is a command of its own. -/
def fitEntries (n : Nat) (l : List (Option UnknownRequest)) : List (Option UnknownRequest) :=
  l.take n ++ List.replicate (n - l.length) none

/-- A request tail (R388, R392): new requests wait in the ring, and those of unknown opcodes are refused in their turn. -/
def ringTail (fn : Nat) (value : DWord) (entries : List (Option UnknownRequest)) (s : State) : State :=
  if !reaches s fn || !serving s then s
  else
    match s.mailbox fn with
    | none => logMisuse fn value.toNat s
    | some m =>
      let tail := bitField value 0 12
      let n := (tail + m.reqEntries - m.reqTail) % m.reqEntries
      if !(doorbellCmd value == 0) || !(bitField value 12 50 == 0) || m.reqEntries ≤ tail || m.reqEntries ≤ m.outstanding + n then
        logMisuse fn value.toNat s
      else nextTurn (s.updMailbox fn fun x => { x with reqTail := tail, ring := x.ring ++ fitEntries n entries })

/-- A stop (R388): no further request is taken. -/
def ringStop (fn : Nat) (value : DWord) (s : State) : State :=
  if !reaches s fn || !serving s then s
  else if !(doorbellCmd value == 2) || !(bitField value 0 62 == 0) then logMisuse fn value.toNat s
  else nextTurn (closeStopped fn (s.updMailbox fn fun m => { m with stopping := true }))

/-- A response head (R388, R392): slots are released, and held responses follow. -/
def ringHead (fn : Nat) (value : DWord) (s : State) : State :=
  if !reaches s fn || !serving s then s
  else
    match s.mailbox fn with
    | none => logMisuse fn value.toNat s
    | some m =>
      if !(bitField value 12 52 == 0) then logMisuse fn value.toNat s
      else
        match releaseCount m.rspEntries m.rspWrite m.rspUnreleased (bitField value 0 12) with
        | none => logMisuse fn value.toNat s
        | some n =>
          drainResponses fn (m.held.length + 1) (s.updMailbox fn fun x => { x with rspUnreleased := x.rspUnreleased - n })

/-- What a doorbell does. -/
def ringDoorbell (d : Doorbell) (s : State) : State :=
  match d with
  | .mbxSetup fn value block => ringSetup fn value block s
  | .mbxTail fn value entries => ringTail fn value entries s
  | .mbxStop fn value => ringStop fn value s
  | .mbxRelease fn value => ringHead fn value s
  | .submit fn value subs => ringSubmit fn value subs s
  | .release fn value => ringRelease fn value s

/-- The function a doorbell belongs to. -/
def Doorbell.fn : Doorbell → Nat
  | .mbxSetup fn _ _ | .mbxTail fn _ _ | .mbxStop fn _ | .mbxRelease fn _ | .submit fn _ _ | .release fn _ => fn

/-- A write. -/
def WindowAccess.isWrite : WindowAccess → Bool
  | .read _ _ => false
  | .write _ _ => true

/-- A write that reached BAR2 is not yet readable, or a doorbell before this one waits for such a write. -/
def doorbellsWait (s : State) : Bool := s.bar2Held.any WindowAccess.isWrite || !s.doorbells.isEmpty

/-- A doorbell write: the device acts on it once every BAR2 write before it is readable (R382). -/
def doorbell (d : Doorbell) (s : State) : State :=
  if doorbellsWait s then { s with doorbells := s.doorbells ++ [d] } else ringDoorbell d s

/-- The doorbells that waited, in order. -/
def ringWaiting (s : State) : State := s.doorbells.foldl (fun acc d => ringDoorbell d acc) { s with doorbells := [] }

end Sys2Proof.Machine
end

