-- ==== Sys2Proof/Machine/Window.lean ====
section
/-! DEFINITION. Accesses to the device address map through BAR2 (R96, R262, R263, R268, R284, R348, R381, R412, R484, R493). -/
namespace Sys2Proof.Machine

/-- What stands at a run of bytes: attached memory, the scratch of a core, memory whose channel is suspended, or nothing. -/
inductive MapPlace where
  | memory
  | scratch (core ofs : Nat)
  | suspended
  | hole
  deriving DecidableEq, Repr

/-- The channels that a run of bytes lies in. -/
def chansOf (a n : Nat) : List Nat := (List.range 128).filter fun ch => touchesChan ch a n

/-- The place of a run of bytes. -/
def placeOf (s : State) (a n : Nat) : MapPlace :=
  match windowOf a with
  | some (c, ofs) => if decide (ofs + n ≤ scratchSize) && windowOpen s c then .scratch c ofs else .hole
  | none =>
    if !mapped s a n then .hole
    else if (chansOf a n).any fun ch => (s.chan ch).heat == .suspended then .suspended
    else .memory

/-- A position under a deferred calibration that runs holds a channel of the run of bytes. -/
def underCalibration (s : State) (a n : Nat) : Bool :=
  match s.test with
  | some x => x.running && x.calibrate && x.target == 0 && (chansOf a n).any fun ch => bitAt x.mask (chanPos ch)
  | none => false

/-- Entry for an access to a hole or to a protected range (source 0x15): BAR2 is the PF's. -/
def logAccess (a : Nat) (s : State) : State := logError 0x15 0 .ok 0 0xFF 0xFFFF a s

/-- A read through the window. -/
def windowRead (a n : Nat) (s : State) : State :=
  match placeOf s a n with
  | .hole => (logAccess a s).emit .bar2Ur
  | .suspended => s.emit .bar2Ur
  | _ => s.emit (.bar2Data (s.mem.readBytes a n))

/-- A run of bytes written but for those in protected ranges, which are discarded and logged. -/
def writeUnprotected (rs : List (Nat × Nat)) (a : Nat) (bs : List Byte) (s : State) : State :=
  if hitsAny rs a bs.length then
    let put (m : Memory) (p : Nat × Byte) : Memory := if hitsAny rs p.1 1 then m else m.write p.1 p.2
    logAccess a { s with mem := ((rangeFrom a bs.length).zip bs).foldl put s.mem }
  else { s with mem := s.mem.writeBytes a bs }

/-- A write through the window. -/
def windowWrite (a : Nat) (bs : List Byte) (s : State) : State :=
  match placeOf s a bs.length with
  | .hole => (logAccess a s).emit .bar2Ur
  | .suspended => s.emit .bar2Ur
  | .scratch c _ => writeUnprotected [(scratchBase c, 65536 * (s.core c).boundary)] a bs s
  | .memory => writeUnprotected (readOnlyRanges s ++ codecRanges s) a bs s

/-- An access of the host or of a peer: outside `READY` it completes with Unsupported Request; under a deferred calibration it waits. -/
def windowAccess (x : WindowAccess) (s : State) : State :=
  match x with
  | .read a n => windowRead a n s
  | .write a bs => windowWrite a bs s

/-- The run of bytes of an access. -/
def WindowAccess.range : WindowAccess → Nat × Nat
  | .read a n => (a, n)
  | .write a bs => (a, bs.length)

/-- The accesses that waited go ahead in order, and then the doorbells that waited for them (R382). -/
def releaseHeld (s : State) : State :=
  ringWaiting (s.bar2Held.foldl (fun acc x => windowAccess x acc) { s with bar2Held := [] })

/-- An access arrives. In `BARE` and `READY` it is made; in any other state it meets the boot function (R484). -/
def bar2Access (x : WindowAccess) (s : State) : State :=
  if !(s.fw.state == .ready || s.fw.state == .bare) then s.emit .bar2Ur
  else if underCalibration s x.range.1 x.range.2 then { s with bar2Held := s.bar2Held ++ [x] }
  else windowAccess x s

end Sys2Proof.Machine
end

