-- ==== Sys2Proof/Machine/Tests.lean ====
section
/-! DEFINITION. Self-test and calibration (R490 to R494). -/
namespace Sys2Proof.Machine

/-- Bits that a `MASK` may have, by target of SELFTEST (R490) or of CALIBRATE (R492). -/
def maskBits (calibrate : Bool) (target : Nat) : Nat :=
  if calibrate then (if target = 0 then 28 else 0)
  else match target with | 0 => 256 | 1 => 128 | 2 => 16 | _ => 2

/-- Core `c` is in no section of a running or parked kernel (R263, R490). -/
def coreIdle (s : State) (c : Nat) : Bool :=
  s.sched.jobs.all fun j => !(holdsCores s j && (layoutCores s.fuses.variant s.mem (s.scoreAddr j) j.layout).contains c)

def chanIdle (s : State) (ch : Nat) : Bool := !((s.chan ch).state == .active)

/-- Target `i` of a test is idle (R490, R492). -/
def targetIdle (s : State) (calibrate : Bool) (target i : Nat) : Bool :=
  if calibrate then target == 1 || (posChans i).all (chanIdle s)
  else
    match target with
    | 0 => coreIdle s i
    | 1 => chanIdle s i
    | 2 => !((s.port i).state == .up) && !((s.port i).state == .training)
    | _ => s.codec.encoder.queue.isEmpty && s.codec.decoder.queue.isEmpty

/-- A target that cannot become idle at a break (R493). -/
def neverIdle (s : State) (calibrate : Bool) (target i : Nat) : Bool :=
  !calibrate && ((target == 1 && !chanIdle s i) || (target == 2 && (s.port i).state == .up))

/-- The named targets. -/
def namedBits (mask : BitVec 256) : List Nat := (List.range 256).filter fun i => bitAt mask i

/-- The test begins: a port under test leaves service, a channel under test has no full pass yet. -/
def beginTest (x : Test) (s : State) : State :=
  let t := { s with test := some { x with running := true } }
  if x.calibrate then t
  else
    match x.target with
    | 1 => (namedBits x.mask).foldl (fun acc i => acc.updChan i fun c => { c with fullPass := false }) t
    | _ => t

def testCall (calibrate : Bool) (r : Request) (ps : List Byte) (s : State) : State × CallEnd :=
  let target := arg ps 0 1
  let mask := arg ps 8 (if calibrate then 4 else 32)
  let x : Test := { fn := r.fn.val, tag := r.tag, calibrate := calibrate, target := target, mask := BitVec.ofNat 256 mask,
                    running := false }
  let bits := namedBits x.mask
  if (if calibrate then 1 else 3) < target || 2 ^ maskBits calibrate target ≤ mask then (s, .answer .invalid 0)
  else if s.test.isSome || bits.any (neverIdle s calibrate target) then (s, .answer .busy 0)
  else if bits.all (targetIdle s calibrate target) then (beginTest x s, .later)
  else if !reqDefer r then (s, .answer .busy 0)
  else if s.sched.jobs.any Job.active then ({ s with test := some x }, .later)
  else (beginTest x s, .later)

def execSelftest (r : Request) (s : State) : Host.Outcome State Fault Refusal :=
  .next (serveCall { op := 0x80, pf := true, bare := false, defer := true } r (fun ps => !zeroAt ps 1 7 || !zeroFrom ps 40)
    (testCall false r) s)

def execCalibrate (r : Request) (s : State) : Host.Outcome State Fault Refusal :=
  .next (serveCall { op := 0x81, pf := true, bare := false, defer := true } r (fun ps => !zeroAt ps 1 7 || !zeroFrom ps 12)
    (testCall true r) s)

/-- `DEFERRED_TEST_RUN` (R493, R494): no unit runs, and a downbeat that is due has run. -/
def execDeferredTestRun (s : State) : Host.Outcome State Fault Refusal :=
  .next (match s.test with
    | none => s
    | some x =>
      let free := match s.currentJob with | none => true | some j => j.stage == .parked
      if !x.running && free && !s.sched.downbeat && !downbeatDue s then beginTest x s else s)

/-- A failed target has its entry in the log. -/
def logFail (place : Nat) (s : State) : State := logError 0x48 2 .ok 0xFF 0xFF place 0 s

/-- One core has been tested (R257, R262, R491): its scratch is zero, its resident region is to be refilled, its fence follows. -/
def coreTested (c : Nat) (fail : Bool) (s : State) : State :=
  let b := (s.core c).boundary
  let t := (zeroScratch c s).updCore c fun k =>
    { k with fenced := fail, tiles := k.tiles.map fun _ => [], rattle := k.rattle.map fun _ => RattleCtx.zero }
  let u := if b = 0 then t else askRefill c t
  if fail then logFail c u else u

/-- Parked and evicted jobs with a fenced core in any layout are struck, and those on their way to or back to their units, so that none
starts or resumes there (R491). -/
def strikeFenced (s : State) : State :=
  let rests (j : Job) : Bool :=
    j.stage == .parked || j.stage == .evicted || j.stage == .swapping || j.stage == .digesting || j.stage == .restoring
  (s.sched.jobs.filter fun j => rests j && onFence s j).foldl strikeState s

/-- One target of a self-test has been tested. -/
def targetTested (target i : Nat) (fail : Bool) (s : State) : State :=
  match target with
  | 0 => if coreEnabled s.fuses.variant i then coreTested i fail s else s
  | 1 =>
    if (s.chan i).state == .absent then s
    else
      let t := forgetRange (chanBase i) (s.chan i).bytes (s.updChan i fun c => { c with fullPass := !fail })
      if fail then logFail i (retireChan i t) else t
  | 2 =>
    if (s.port i).state == .disabled then s
    else if fail then logFail i (failPort i s) else dropPort (if portTrains s i then .training else .down) i s
  | _ =>
    let e : Engine := if i = 0 then .encoder else .decoder
    let t := (unloadEngine e s).updEngine e fun g => { g with fenced := fail }
    if fail then logFail i t else t

/-- Result of a self-test (R490). -/
def selftestResult (fails : BitVec 256) (us : Nat) : Nat :=
  packFields [(1, if fails = 0 then 0 else 1), (3, 0), (32, fails.toNat), (4, us)]

/-- `SELFTEST_DONE`. -/
def execSelftestDone (fails : BitVec 256) (durationUs : Nat) (s : State) : Host.Outcome State Fault Refusal :=
  .next (match s.test with
    | none => s
    | some x =>
      if !x.running || x.calibrate then s
      else
        let f := fails &&& x.mask
        let t := (namedBits x.mask).foldl (fun acc i => targetTested x.target i (bitAt f i) acc) { s with test := none }
        let u := if x.target = 0 then strikeFenced t else t
        settle (respond x.fn x.tag 0x80 .ok (selftestResult f durationUs) u))

/-- A position has a channel. -/
def positionFitted (s : State) (p : Nat) : Bool := (posChans p).any fun c => !((s.chan c).state == .absent)

/-- A position has been trained again (R492): of its channels each that fails is retired, the others take the training; one that is absent
takes none. -/
def positionTrained (fails : BitVec 128) (s : State) (p : Nat) : State :=
  let fitted := (posChans p).filter fun c => !((s.chan c).state == .absent)
  let train (acc : State) (c : Nat) : State :=
    if bitAt fails c then retireChan c acc else acc.updChan c fun x => { x with trainTemp := x.temp, pausing := false }
  let t := fitted.foldl train s
  if fitted.any fun c => bitAt fails c then logFail p (notePosition p 3 t) else t

/-- `FAIL_MASK` of a calibration: the named positions of which a channel failed. -/
def failedPositions (s : State) (mask : BitVec 256) (fails : BitVec 128) : List Nat :=
  (namedBits mask).filter fun p => decide (p < 28) && (posChans p).any fun c => !((s.chan c).state == .absent) && bitAt fails c

/-- `CALIBRATE_DONE`: target 0 trains the named positions; target 1 leaves nothing behind that a register shows. -/
def execCalibrateDone (fails : BitVec 128) (s : State) : Host.Outcome State Fault Refusal :=
  .next (match s.test with
    | none => s
    | some x =>
      if !x.running || !x.calibrate then s
      else
        let ps := if x.target = 0 then namedBits x.mask else []
        let bad := if x.target = 0 then failedPositions s x.mask fails else []
        let t := ps.foldl (positionTrained fails) { s with test := none }
        let mask := (bad.map fun p => 2 ^ p).sum
        releaseHeld (settle (respond x.fn x.tag 0x81 .ok
          (packFields [(1, if bad.isEmpty then 0 else 1), (3, 0), (4, mask)]) t)))

end Sys2Proof.Machine
end

