-- ==== Sys2Proof/Machine/Power.lean ====
section
/-! DEFINITION. Power and heat (R431 to R450, R527): the policy, the power loop, rail steps and readings, clock islands, thermal stages
and the thermal trip, regulator faults and warnings. -/
namespace Sys2Proof.Machine

/-! ## Rails (R437 to R441) -/

def State.rail (s : State) (r : Nat) : Rail := s.power.rails.getD r Rail.offRail

def State.updRail (s : State) (r : Nat) (f : Rail → Rail) : State :=
  { s with power := { s.power with rails := updAt s.power.rails r f } }

def State.domain (s : State) (i : Nat) : Domain := s.power.domains.getD i Domain.offDomain

/-- The firmware runs: it has been started and has not halted. -/
def firmwareUp (s : State) : Bool :=
  s.fw.state == .init || s.fw.state == .ready || s.fw.state == .bare || s.fw.state == .updating

/-- Steps 1 to 5 of the managed rail sequence are over, so that VCORE stands at, or steps to, its level (R439). -/
def railsRamped (s : State) : Bool :=
  (s.rail 10).good && (s.rail 11).good && s.power.supplies.all fun x => !(x == 1)

/-- The level of a quarter rail: the lowest that any control asks for (R440, R444). -/
def quarterLevel (s : State) (q : Nat) : Nat :=
  if railsRamped s then min (setPoint s.fuses.variant) (min s.power.loopMv (s.power.stage2Mv.getD q 900)) else 620

/-- VCORE stands at its level in every quarter. -/
def vcoreSettled (s : State) : Bool :=
  railsRamped s && (List.range 4).all fun q => (s.rail (6 + q)).mv == quarterLevel s q

/-- Once the rails are up, steps 9 and 10 of the boot sequence begin; the higher number shows (R480; DESIGN CHOICE, log 118). -/
def railsDone (s : State) : State :=
  if s.fw.state == .init && s.fw.progress == 8 && vcoreSettled s then { s with fw := { s.fw with progress := 10 } } else s

/-- A time has passed since an event, or there was none. -/
def longSince (s : State) (at_ : Option Nat) (us : Nat) : Bool := at_.all fun t => decide (t + us ≤ s.time)

/-- A pulse may go out on a rail's pair: at most one in a microsecond, and none until 10 µs after a `VOUT_COMMAND` was acknowledged (R441,
R471). -/
def pulseFree (s : State) (r : Rail) : Bool := longSince s r.pulsedAt 1 && longSince s r.voutAt 10

/-- The PMBus command of a managed rail, at the address and page that the board descriptor gives its regulator (R439, R441, R474). -/
def pmbusOut (s : State) (r : Nat) (mv : Option Nat) : Out :=
  .pmbus r (s.inv.railAddr.getD r 0) (s.inv.railPage.getD r 0) mv

/-- The command of memory supply `i`, whose entry stands behind the twelve rails (R473). -/
def supplyOut (s : State) (i : Nat) (on : Bool) : Out :=
  .supply i (s.inv.railAddr.getD (12 + i) 0) (s.inv.railPage.getD (12 + i) 0) on

/-- `RAIL_STEP` (R441, R444): one pulse of 5 mV toward the level of the quarter's rail. -/
def execRailStep (q : Fin 4) (up : Bool) (s : State) : Host.Outcome State Fault Refusal :=
  .next (
    let r := s.rail (6 + q.val)
    let level := quarterLevel s q.val
    let due := if up then decide (r.mv + 5 ≤ level) else decide (level + 5 ≤ r.mv)
    if r.on && r.good && due && firmwareUp s && pulseFree s r then
      railsDone ((s.updRail (6 + q.val) fun x =>
        { x with mv := if up then x.mv + 5 else x.mv - 5, pulsedAt := some s.time }).emit (.railPulse q.val up))
    else s)

/-- A rail has a regulator that the descriptor calls readable (R474). -/
def railReadable (s : State) (r : Nat) : Bool := !(s.inv.railAddr.getD r 0 == 0) && natBit (s.inv.railFlags.getD r 0) 0

/-- One regulator has been read; a quarter rail that lies more than 10 mV from its step count is corrected (R441), but not within 2 µs of a
pulse on its pair: the next reading corrects it then (R471). The command is acknowledged as it is sent (DESIGN CHOICE, log 53). -/
def readRail (readings : List RailReading) (s : State) (r : Nat) : State :=
  match readings[r]? with
  | none => s
  | some x =>
    if !railReadable s r then s
    else
      let t := s.updRail r fun y => { y with reading := some x }
      let m := (s.rail r).mv
      if 6 ≤ r && r < 10 && (s.rail r).on && (decide (m + 10 < x.mv) || decide (x.mv + 10 < m))
          && longSince s (s.rail r).pulsedAt 2 then
        logError 0x31 0 .ok 0xFF 0xFF r x.mv
          ((t.updRail r fun y => { y with voutAt := some s.time }).emit (pmbusOut s r (some m)))
      else t

/-- The most current of a managed rail in 0.1 A (R437). -/
def railMost (r : Nat) : Nat := if r < 10 then 4800 else 1600

/-- The last reading of a managed rail lies above its most current. -/
def overCurrent (s : State) (r : Nat) : Bool := (s.rail r).reading.any fun x => decide (railMost r < x.deciAmp)

/-- The memory islands of a rim: those of the West rail VMPHY_W (10), or of the East rail (R431). -/
def rimIslands (r : Nat) : List Nat := if r = 10 then rangeFrom 272 12 ++ [296, 297] else rangeFrom 284 12 ++ [298, 299]

/-- The highest level of the four quarter rails: the level that the loop steps from. -/
def highestLevel (s : State) : Nat := (List.range 4).foldl (fun acc q => max acc (quarterLevel s q)) 0

/-- The power loop keeps each managed rail's current within R437 (R443): at a reading above it the quarter rails go down by one step, or the
caps of the rail's memory islands by 5 % (how far is a DESIGN CHOICE, log 114). -/
def holdCurrents (s : State) : State :=
  let t := if (rangeFrom 6 4).any (overCurrent s) then
      { s with power := { s.power with loopMv := max 550 (highestLevel s - 5) } } else s
  let lower (l : List Domain) (i : Nat) : List Domain := updAt l i fun d => { d with cap := max 25 (d.cap - 5) }
  ([10, 11].filter (overCurrent s)).foldl
    (fun (acc : State) r => { acc with power := { acc.power with domains := (rimIslands r).foldl lower acc.power.domains } }) t

/-- `RAIL_TELEMETRY_POLL` (R441): in the run phase of the Clave bus. -/
def execRailTelemetryPoll (readings : List RailReading) (s : State) : Host.Outcome State Fault Refusal :=
  .next (if firmwareUp s && !(s.fw.state == .bare) && s.pins.clavePhase = 2 then
      let t := (List.range 12).foldl (readRail readings) s
      if s.fw.state == .ready then holdCurrents t else t
    else s)

/-- Every domain of a list of numbers takes a state; a fused-off core stays off (R433). -/
def setDomains (p : Nat → Bool) (st : DomainState) (s : State) : State :=
  let put (d : Domain) : Domain := if d.state == .fusedOff then d else { d with state := st }
  { s with power := { s.power with domains := s.power.domains.mapIdx fun i d => if p i then put d else d } }

/-- The managed rails and memory supplies go off in the reverse order of R439, and their domains with them. -/
def railsOff (s : State) : State :=
  let s1 := [5, 4, 3, 2, 1, 0].foldl
    (fun (acc : State) i => if s.power.supplies.getD i 0 = 0 then acc else acc.emit (supplyOut s i false)) s
  let s2 := [11, 10, 9, 8, 7, 6].foldl
    (fun (acc : State) r => if (s.rail r).on then acc.emit (pmbusOut s r none) else acc) s1
  let rails := s.power.rails.mapIdx fun r x => if 6 ≤ r then Rail.offRail else x
  setDomains (fun i => decide (i < 300)) .off
    { s2 with power := { s2.power with rails := rails, supplies := List.replicate 6 0 } }

/-! ## Policy (R442) -/

def powerPolicyBad (v : Variant) (ps : List Byte) : Bool :=
  let out (x lo hi : Nat) : Bool := !(x == 0) && (decide (x < lo) || decide (hi < x))
  out (arg ps 0 2) 900 (maxPower v) || out (arg ps 2 2) 1 100 || out (arg ps 4 2) 500 (maxClock v) || out (arg ps 6 1) 85 105

/-- Samples of the estimate in a window of milliseconds, one each 50 µs (R443). -/
def windowSamples (ms : Nat) : Nat := ms * 20

def powerPolicyCall (ps : List Byte) (s : State) : State × CallEnd :=
  if powerPolicyBad s.fuses.variant ps then (s, .answer .invalid 0)
  else
    let keep (x old : Nat) : Nat := if x = 0 then old else x
    let p := s.power
    let flags := arg ps 7 1
    let window := keep (arg ps 2 2) p.windowMs
    let q : Power :=
      { p with limitW := keep (arg ps 0 2) p.limitW, windowMs := window, clockCap := keep (arg ps 4 2) p.clockCap,
               tjTarget := keep (arg ps 6 1) p.tjTarget, idleStop := if natBit flags 1 then p.idleStop else natBit flags 0,
               samples := p.samples.take (windowSamples window) }
    (restClocks { s with power := q }, .answer .ok (packFields [(2, q.limitW), (2, q.clockCap), (1, q.tjTarget)]))

/-- `POWER_POLICY_SET` (R442). -/
def execPowerPolicySet (r : Request) (s : State) : Host.Outcome State Fault Refusal :=
  .next (serveCall { op := 0xB0, pf := true, bare := false, defer := false } r
    (fun ps => decide (4 ≤ arg ps 7 1) || !zeroFrom ps 8) powerPolicyCall s)

/-! ## The power loop (R443) -/

/-- The average of a list of estimates. -/
def averageOf (l : List Nat) : Nat := if l.isEmpty then 0 else l.sum / l.length

/-- The average over the window, with the next 50 µs at `next` watts, would exceed the limit. -/
def overLimit (p : Power) (next : Nat) : Bool :=
  let l := next :: p.samples.take (windowSamples p.windowMs - 1)
  decide (p.limitW * l.length < l.sum)

/-- The fewest of 0 to 4 steps down that bring the estimate within the limit, else 4. -/
def stepsDown (p : Power) (projected : List Nat) : Nat :=
  ((List.range 5).find? fun k => !overLimit p (projected.getD k p.nowW)).getD 4

/-- The rails lie below the level that the other controls allow: the loop's own level is the lower in some quarter, and no rail's current
stands above its most. -/
def railsBelow (s : State) : Bool :=
  ((List.range 4).any fun q => decide (s.power.loopMv < min (setPoint s.fuses.variant) (s.power.stage2Mv.getD q 900)))
    && !((rangeFrom 6 4).any (overCurrent s))

/-- The level that the loop asks for, and then the cap, change by one period's action. A cap that the loop has lowered is raised
again before its rail level is. -/
def loopAction (projected : List Nat) (s : State) : State :=
  let p := s.power
  let level := highestLevel s
  if overLimit p (projected.getD 0 p.nowW) then
    if level ≤ 550 then { s with power := { p with loopCap := max 5 (p.loopCap - 5) } }
    else { s with power := { p with loopMv := max 550 (level - 5 * stepsDown p projected) } }
  else if p.avgW * 100 < p.limitW * 97 then
    if p.loopCap < 100 then { s with power := { p with loopCap := min 100 (p.loopCap + 5) } }
    else if railsBelow s then { s with power := { p with loopMv := p.loopMv + 5 } }
    else s
  else s

/-- `POWER_LOOP_TICK` (R443): `now` is the estimate over the last 50 µs in watts, `projected` the estimates for the next 50 µs with
the rails 0 to 4 steps lower. -/
def execPowerLoopTick (now : Nat) (projected : List Nat) (s : State) : Host.Outcome State Fault Refusal :=
  .next (
    if !(s.fw.state == .ready) then s
    else
      let p := s.power
      let samples := (now :: p.samples).take (windowSamples p.windowMs)
      let q : Power := { p with nowW := now, samples := samples, avgW := averageOf samples, energy20 := p.energy20 + now }
      loopAction projected { s with power := q })

/-! ## Clock islands (R434 to R436, R534) -/

/-- Natural rate in MHz of a core or row-segment island at a rail level, linear between the rows of R435. -/
def naturalMhz (mv : Nat) : Nat :=
  let line (m0 f0 m1 f1 : Nat) : Nat := f0 + (mv - m0) * (f1 - f0) / (m1 - m0)
  if mv < 550 then 1500
  else if mv < 620 then line 550 1500 620 2000
  else if mv < 710 then line 620 2000 710 2500
  else if mv < 764 then line 710 2500 764 2800
  else if mv < 800 then line 764 2800 800 3000
  else 3000

/-- Lane rates of R343 in Gb/s. -/
def laneRate (code : Nat) : Nat := match code with | 1 => 56 | 2 => 112 | 3 => 224 | _ => 0

/-- The fixed target of a rim island (R534). -/
def rimMhz (s : State) (i : Nat) : Nat :=
  if i < 296 then (s.chan (4 * (i - 272))).rate * 100 / 32
  else if i < 300 then (s.chan (96 + 8 * (i - 296))).rate * 100 / 8
  else if i < 316 then laneRate (s.port (i - 300)).rate * 1000 / 128
  else if i = 318 then (if 6 ≤ s.pcie.gen then 2000 else 1000)
  else if i = 319 || i = 320 || i = 321 then 1500
  else 2000

/-- The clock target of an island in MHz (R435): a rate cap of a memory or Peal island does not touch its clock (R534). -/
def targetMhz (s : State) (i : Nat) : Nat :=
  if i < 272 then
    let most := min (maxClock s.fuses.variant) s.power.clockCap
    let natural := naturalMhz (s.rail (6 + quarterOf i)).mv
    min natural (min most (maxClock s.fuses.variant * heldCap s i / 100))
  else if i < 316 then rimMhz s i
  else rimMhz s i * heldCap s i / 100

/-- `FLL_WINDOW` (R435): `count` cycles in the last microsecond. -/
def execFllWindow (island : Fin 325) (count : Nat) (s : State) : Host.Outcome State Fault Refusal :=
  .next (
    let n := targetMhz s island.val
    if !((s.domain island.val).state == .running) then s
    else
      let move (d : Domain) : Domain :=
        { d with freqMhz := min count 65535,
                 trim := if n + 1 < count then min 80 (d.trim + 4) else if count + 1 < n then d.trim - 1 else d.trim }
      { s with power := { s.power with domains := updAt s.power.domains island.val move } })

/-- `ISLAND_WAKE` (R432). -/
def execIslandWake (island : Fin 325) (s : State) : Host.Outcome State Fault Refusal :=
  .next (
    let wake (d : Domain) : Domain := { d with state := .running }
    if (s.domain island.val).state == .clockStopped && s.pins.thermTripN then
      { s with power := { s.power with domains := updAt s.power.domains island.val wake } }
    else s)

/-- `SUPPLY_SAG` (R436): each named island falls to the rate given; nothing else is affected. -/
def execSupplySag (islands : List (Fin 325 × Nat)) (s : State) : Host.Outcome State Fault Refusal :=
  .next (
    let slow (l : List Domain) (x : Fin 325 × Nat) : List Domain :=
      updAt l x.1.val fun d => { d with freqMhz := min d.freqMhz x.2 }
    { s with power := { s.power with domains := islands.foldl slow s.power.domains } })

/-! ## Heat (R445 to R448) -/

/-- The sensor that governs an island; Amior, PCIe and security islands are never capped. -/
def sensorOf (i : Nat) : Option Nat :=
  if i < 272 then some i
  else if i < 284 then some (272 + (i - 272) / 4)
  else if i < 296 then some (281 + (i - 284) / 4)
  else if i < 298 then some 275
  else if i < 300 then some 284
  else if i < 308 then some (276 + (i - 300) / 4)
  else if i < 316 then some (285 + (i - 308) / 4)
  else if i = 316 || i = 323 then some 280
  else if i = 317 || i = 324 then some 289
  else if i = 320 then some 287
  else if i = 321 then some 288
  else none

/-- An island that stage 1 may cap. -/
def Domain.live (d : Domain) : Bool := d.state == .running || d.state == .clockStopped

/-- The lowest rate cap of stage 1. -/
def capFloor (i : Nat) : Nat := if i < 272 then 50 else 25

/-- A reading of `t` tenths of a degree at an island: stage 1 begins at the target, ends 3 °C below it, and lowers the cap by 5 % of
full rate at each reading while it lasts. -/
def heatIsland (target t : Int) (floor : Nat) (d : Domain) : Domain :=
  let stage := if target ≤ t then 1 else if t ≤ target - 30 then 0 else d.stage
  { d with stage := stage, cap := if stage = 1 then max floor (d.cap - 5) else d.cap }

/-- The core and row-segment islands that a quarter's rail feeds and that count. -/
def quarterIslands (s : State) (q : Nat) : List Nat :=
  (List.range 272).filter fun i => quarterOf i == q && (s.domain i).live

/-- The throttle threshold in tenths of a degree. -/
def tjTenths (s : State) : Int := 10 * (s.power.tjTarget : Int)

def State.sensor (s : State) (i : Nat) : Int := s.power.sensors.getD i 0

/-- Stage 2 of a quarter at a reading: in force, or not. -/
def stageTwo (s : State) (q : Nat) : Bool :=
  let is := quarterIslands s q
  let enter := is.any fun i =>
    decide (1050 ≤ s.sensor i) || (decide ((s.domain i).cap ≤ 50) && decide (tjTenths s ≤ s.sensor i))
  let leave := is.all fun i => decide (s.sensor i ≤ tjTenths s - 30) && (s.domain i).cap == 100
  enter || (s.power.stage2.getD q false && !leave)

/-- Stages 1 and 2 at a reading. -/
def heatStages (s : State) : State :=
  let p := s.power
  let heat (i : Nat) (d : Domain) : Domain :=
    match sensorOf i with
    | some k => if d.live then heatIsland (tjTenths s) (s.sensor k) (capFloor i) d else d
    | none => d
  let two := (List.range 4).map (stageTwo s)
  let mv := (List.range 4).map fun q =>
    if two.getD q false then max 550 (quarterLevel s q - 5) else p.stage2Mv.getD q 900
  { s with power := { p with domains := p.domains.mapIdx heat, stage2 := two, stage2Mv := mv } }

/-- The groups that the active jobs' scores reference. -/
def activeGroups (s : State) : List Nat :=
  ((s.sched.jobs.filter Job.active).flatMap fun j => scGroups s.mem (s.scoreAddr j)).eraseDups

/-- An active job ends at once, its record posted; what one whose units work for it can write is undefined (R518). -/
def endNow (cause : Status) (s : State) (j : Job) : State :=
  if j.stage == .recorded then s
  else
    let works := j.stage == .running || j.stage == .evicting || j.stage == .restoring
    let t := if s.sched.current == some j.id then
        freeUnits (dropFrames j.id (closeWindows j (idleUnits (if works then forgetWritten j s else s))))
      else dropBody j.id s
    endJob j .struck cause 0 (detailNow s j) (dropHeld j (releaseSave j.id t))

/-- Every active job that meets a condition is struck, with abort requests for every referenced group (R448 steps 2 and 3, R527). The jobs
are gone before a decision of this device, where it is a group's root, could end one with another status (DEDUCED, log 115). -/
def strikeAll (p : Job → Bool) (abortCause : Nat) (cause : Status) (s : State) : State :=
  let t := (s.sched.jobs.filter fun j => j.active && p j).foldl (endNow cause) s
  (activeGroups s).foldl (fun acc g => raiseAbort g abortCause acc) t

/-- A waiting commit responds `E_STATE`, and the pending set is discarded (R449). -/
def dropCommit (s : State) : State :=
  let t := { s with staged := { s.staged with pending := [], commit := none } }
  match s.staged.commit with
  | some c => respond 0 c.tag 0x32 .state 0 t
  | none => t

/-- Steps 2 and 3 of a thermal trip (R448): running, parked and evicted jobs are struck; what is past `HALT` is left to step 4, which posts
no record for it (R517). -/
def tripStrikes (s : State) : State := dropCommit (strikeAll Job.underWay 3 .thermal s)

/-- Every oscillator that a condition names halts. -/
def haltIslands (p : Nat → Bool) (s : State) : State :=
  let stop (i : Nat) (d : Domain) : Domain := if d.state == .running && p i then { d with state := .clockStopped } else d
  { s with power := { s.power with domains := s.power.domains.mapIdx stop } }

/-- `THERM_TRIP_N` is driven low. -/
def tripPin (s : State) : State := { s with pins := { s.pins with thermTripN := false } }

/-- Steps 2 to 5 of a thermal trip. -/
def tripNow (s : State) : State :=
  tripPin (haltIslands (fun i => !(i == 318) && !(i == 319)) (haltFirmware .thermal (railsOff (tripStrikes s))))

/-- A sensor reads a trip while the firmware runs: it is logged, and Amior comes as far as it can before step 5 is reached by its limit. -/
def tripBegin (sensor : Nat) (s : State) : State :=
  let t := { logError 0x32 3 .thermal 0xFF 0xFF sensor 0 s with fresh := s.fresh + 1 }
  match Config.tripReach s.fresh with
  | 0 => t
  | 1 => tripStrikes t
  | _ => tripNow t

/-- `THERMAL_SENSOR_READ` (R445 to R448): while no firmware runs, the sensor hub alone sees a trip (step 5). -/
def execThermalSensorRead (deci : List Int) (s : State) : Host.Outcome State Fault Refusal :=
  .next (
    if !s.pins.devResetN || s.power.trippedAt.isSome then s
    else
      let sensors := (List.range 290).map fun i => deci.getD i (s.sensor i)
      let t := { s with power := { s.power with sensors := sensors } }
      updateAlert (match (List.range 290).find? fun i => decide (1150 ≤ t.sensor i) with
      | some i =>
        let u := { t with power := { t.power with trippedAt := some s.time } }
        if firmwareUp t then tripBegin i u else u
      | none => if firmwareUp t then heatStages t else t))

/-- `TRIP_TIMEOUT` (R448): 200 µs after the trip the sensor hub halts every oscillator, Amior's and the PCIe controller's among them,
whatever step Amior has reached; records that were not yet posted are lost. `FW_STATE` then reads nothing; the model holds `FAILED`
(DESIGN CHOICE, log 116). -/
def execTripTimeout (s : State) : Host.Outcome State Fault Refusal :=
  .next (
    if longSince s s.power.trippedAt 200 && s.power.trippedAt.isSome && s.pins.thermTripN then
      let t := tripPin (haltIslands (fun _ => true) (endService (idlePorts s)))
      { t with fw := { t.fw with state := .failed, error := .thermal }, pcie := { t.pcie with up := false },
               pins := { t.pins with segKhz := [0, 0, 0, 0] } }
    else s)

/-- `THERMAL_CAP_RELEASE` (R446): cooled islands and quarters rise one step. -/
def execThermalCapRelease (s : State) : Host.Outcome State Fault Refusal :=
  .next (
    if !firmwareUp s then s
    else
      let p := s.power
      let raise (d : Domain) : Domain := if d.stage = 0 then { d with cap := min 100 (d.cap + 5) } else d
      let mv := (List.range 4).map fun q =>
        let m := p.stage2Mv.getD q 900
        if p.stage2.getD q false then m else min 900 (m + 5)
      { s with power := { p with domains := p.domains.map raise, stage2Mv := mv } })

/-! ## Regulators (R447, R527, R531) -/

/-- `REGULATOR_FAULT` (R527): of a managed rail that is enabled; a trip that has begun proceeds (R531). -/
def execRegulatorFault (rail : Fin 12) (s : State) : Host.Outcome State Fault Refusal :=
  .next (
    if 6 ≤ rail.val && (s.rail rail.val).on && firmwareUp s && s.power.trippedAt.isNone then
      updateAlert (haltFirmware .power
        (railsOff (strikeAll (fun _ => true) 2 .power (logError 0x30 3 .power 0xFF 0xFF rail.val 0 s))))
    else s)

/-- `REGULATOR_WARNING` (R447). -/
def execRegulatorWarning (rail : Fin 12) (on : Bool) (s : State) : Host.Outcome State Fault Refusal :=
  .next (
    if 6 ≤ rail.val && (s.rail rail.val).on && firmwareUp s then
      updateAlert (s.updRail rail.val fun x => { x with warning := on })
    else s)

end Sys2Proof.Machine
end

