-- ==== Sys2Proof/Machine/Host.lean ====
section
/-! DEFINITION. The host's side of the device (R375 to R393, R483, R497): BAR0 registers, doorbells, interrupt registers, the image
window, BAR2, virtual functions and the Function Level Reset. -/
namespace Sys2Proof.Machine

/-! ## Registers (R383 to R385) -/

/-- `DEV_ID`. -/
def devId (s : State) (fn : Nat) : Nat :=
  0x01 * 2 ^ 16 + variantCode s.fuses.variant * 2 ^ 12 + s.fuses.stepping.toNat * 2 ^ 8 + (if fn = 0 then 0 else 2 ^ 7) + fn

/-- `FW_STATE`. -/
def fwStateWord (s : State) : Nat := s.fw.error.code * 2 ^ 16 + s.fw.progress * 2 ^ 8 + s.fw.state.code

/-- What the image window of the physical function holds while it is in use: the image, its length, the start word (R483). -/
def readWindow (s : State) (offset bytes : Nat) : Nat :=
  ofLe ((rangeFrom offset bytes).map fun o =>
    if 0x2FF0000 ≤ o then
      (leBytes 8 s.fw.windowLength.toNat ++ leBytes 4 s.fw.windowStart.toNat).getD (o - 0x2FF0000) 0
    else s.fw.window.getD (o - 0x1000000) 0)

/-- An access that no register takes: a 32-bit register takes only 32 bits, a doorbell only 64 bits at once (R383). Offsets past the
registers are no register (R380). -/
def registerMisuse (offset widthBits : Nat) : Bool :=
  if 0x30 ≤ offset then false
  else if offset < 0x10 then !(widthBits == 32 && aligned offset 4)
  else !(widthBits == 64 && aligned offset 8)

/-- What a read of a function's register space at an offset gives: doorbells and every other offset read zero, and so does an access
of a wrong width (R380, R383); the image window, while the firmware awaits an image, reads what stands in it. -/
def readRegister (s : State) (fn offset widthBits : Nat) : Nat :=
  if 0x30 ≤ offset then
    if fn = 0 && s.fw.state == .awaitImage && decide (0x1000000 ≤ offset) && decide (offset < 0x3000000) then
      readWindow s offset (widthBits / 8)
    else 0
  else if registerMisuse offset widthBits then 0
  else
    match offset with
    | 0x0 => devId s fn
    | 0x4 => fwStateWord s
    | 0x8 => (s.func fn).irqStatus.toNat
    | 0xC => (s.func fn).irqMask.toNat
    | _ => 0

/-- A read of a function's register space: its answer, and the entry of a read of a wrong width (R383). -/
def registerRead (s : State) (fn offset widthBits : Nat) : State × Nat :=
  (if reaches s fn && registerMisuse offset widthBits then logMisuse fn offset s else s, readRegister s fn offset widthBits)

/-! ## Configuration space (R376, R377) -/

/-- What the configuration space of a function says of it. -/
structure ConfigSpace where
  vendorId : BitVec 16
  deviceId : BitVec 16
  classCode : BitVec 24
  maxPayload : Nat
  maxReadRequest : Nat
  tagBits : Nat
  deriving DecidableEq, Repr

/-- The configuration space of the physical function, and of a virtual function. -/
def configSpace (fn : Nat) : ConfigSpace :=
  { vendorId := Config.vendorId, deviceId := if fn = 0 then 0x6A10 else 0x6A11, classCode := 0x120000, maxPayload := 512,
    maxReadRequest := 4096, tagBits := 10 }

/-- `IRQ_STATUS_WRITE` (R387): ones clear. -/
def execIrqStatusWrite (fn : Fin 32) (value : Word) (s : State) : Host.Outcome State Fault Refusal :=
  .next (
    if reaches s fn.val then
      s.updFunc fn.val fun f => { f with irqStatus := f.irqStatus &&& ~~~(BitVec.ofNat 11 value.toNat) }
    else s)

/-- `IRQ_MASK_WRITE` (R386): a message leaves for each mask bit cleared whose status bit is 1. -/
def execIrqMaskWrite (fn : Fin 32) (value : Word) (s : State) : Host.Outcome State Fault Refusal :=
  .next (
    if reaches s fn.val then
      let f := s.func fn.val
      let new := BitVec.ofNat 11 value.toNat
      let t := s.updFunc fn.val fun g => { g with irqMask := new }
      let due (b : Nat) : Bool := bitAt f.irqMask b && !bitAt new b && bitAt f.irqStatus b
      ((List.range 11).filter due).foldl (fun (acc : State) b => sendMsix fn.val b acc) t
    else s)

/-- `REGISTER_WRITE_OTHER` (R12, R380, R383): ignored; a write of a wrong width is logged, one that a read-only register takes is
not. -/
def execRegisterWriteOther (fn : Fin 32) (offset widthBits : Nat) (_value : DWord) (s : State) :
    Host.Outcome State Fault Refusal :=
  .next (if reaches s fn.val && registerMisuse offset widthBits then logMisuse fn.val offset s else s)

/-! ## Doorbells (R382, R388) -/

/-- `MBX_SETUP` (R385, R389). -/
def execMbxSetup (fn : Fin 32) (value : DWord) (block : Desc) (s : State) : Host.Outcome State Fault Refusal :=
  .next (doorbell (.mbxSetup fn.val value block) s)

/-- `MBX_REQ_TAIL` (R388, R392). -/
def execMbxReqTail (fn : Fin 32) (value : DWord) (entries : List (Option UnknownRequest)) (s : State) :
    Host.Outcome State Fault Refusal :=
  .next (doorbell (.mbxTail fn.val value entries) s)

/-- `MBX_STOP` (R388). -/
def execMbxStop (fn : Fin 32) (value : DWord) (s : State) : Host.Outcome State Fault Refusal :=
  .next (doorbell (.mbxStop fn.val value) s)

/-- `MBX_RSP_DB` (R388, R392). -/
def execMbxRspDb (fn : Fin 32) (value : DWord) (s : State) : Host.Outcome State Fault Refusal :=
  .next (doorbell (.mbxRelease fn.val value) s)

/-- `JQ_SUB_DB` (R383, R388, R396). -/
def execJqSubDb (fn : Fin 32) (value : DWord) (subs : List Submission) (s : State) : Host.Outcome State Fault Refusal :=
  .next (doorbell (.submit fn.val value subs) s)

/-- `JQ_CMP_DB` (R388, R398). -/
def execJqCmpDb (fn : Fin 32) (value : DWord) (s : State) : Host.Outcome State Fault Refusal :=
  .next (doorbell (.release fn.val value) s)

/-! ## BAR2 and the image window (R381, R483) -/

/-- `BAR2_READ`. -/
def execBar2Read (offset len : Nat) (s : State) : Host.Outcome State Fault Refusal :=
  .next (if s.pcie.up && offset + len ≤ bar2Size s then bar2Access (.read (s.staged.cur.bar2Base + offset) len) s else s)

/-- `BAR2_WRITE`. -/
def execBar2Write (offset : Nat) (data : List Byte) (s : State) : Host.Outcome State Fault Refusal :=
  .next (
    if s.pcie.up && offset + data.length ≤ bar2Size s then bar2Access (.write (s.staged.cur.bar2Base + offset) data) s else s)

/-- Longest firmware image (R482). -/
def longestImage : Nat := 33488896

/-- `IMAGE_WINDOW_START` (R483): what stands in the window is read once the start word is 1. -/
def execImageWindowStart (length : DWord) (start : Word) (image : List Byte) (s : State) :
    Host.Outcome State Fault Refusal :=
  .next (
    if !s.pcie.up || !(s.fw.state == .awaitImage) then s
    else
      let t := { s with fw := { s.fw with window := image, windowLength := length, windowStart := start } }
      if !(start == 1) then t
      else if longestImage < length.toNat then { t with fw := { t.fw with error := .invalid, windowStart := 0 } }
      else
        setFwState .verifying .ok
          { t with fw := { t.fw with image := fitBytes length.toNat image, imageSlot := none, progress := 6 } })

/-! ## Functions (R377, R497) -/

/-- A call that goes on without its requester answers nobody. -/
def nobody : Nat := 0xFF

/-- A function's jobs end without records: the running one leaves the units, and what it may have written is undefined (R497, R518). -/
def dropJob (s : State) (j : Job) : State :=
  let u := if s.sched.current == some j.id then
      let w := if j.stage == .swapping || j.stage == .digesting then s else forgetWritten j s
      keepDownbeat s (freeUnits (dropFrames j.id (closeWindows j (idleUnits w))))
    else s
  let v := dropHeld j (dropFrames j.id (dropBody j.id (releaseSave j.id u)))
  { v with sched := { v.sched with jobs := v.sched.jobs.filter fun x => !(x.id == j.id) } }

/-- What the physical function alone has waiting is discarded (R494, R497). -/
def dropPfWaits (s : State) : State :=
  let r := s.resident
  let keep (l : ResidentLoad) : ResidentLoad := { l with fn := nobody }
  let copying := r.swap.isSome && !(s.currentJob.any fun j => j.stage == .swapping)
  let orphan (l : TableLoad) : TableLoad := { l with fn := nobody }
  let cut (c : Channel) : Channel := { c with run := none, fullPass := if c.run.isSome then false else c.fullPass }
  let ran := (List.range 128).filter fun ch => (s.chan ch).run.isSome
  let t := ran.foldl
    (fun acc ch =>
      match (s.chan ch).run with
      | some x => forgetRange (chanBase ch + x.rangeOfs) x.rangeLen acc
      | none => acc) s
  releaseHeld
    { t with staged := { s.staged with pending := [], commit := none },
             resident := { r with load := if copying then (r.load.filter fun l => some l.image == r.swap).map keep else none },
             tables := s.tables.map fun x => { x with load := x.load.map orphan },
             channels := s.channels.map cut, test := none, fw := { s.fw with staging := none } }

/-- The reset of the client state of some functions (R497): their jobs are gone before the abort requests for the collectives of
those that were under way go out, so that none of them gets a record. -/
def resetFunctions (fns : List Nat) (s : State) : State :=
  let mine := s.sched.jobs.filter fun j => fns.contains j.fn
  let t := (mine.filter Job.underWay).foldl (fun acc j => abortGroups j 2 acc) (mine.foldl dropJob s)
  let lost (o : Option Score) : Bool := match o with | some x => fns.contains x.fn | none => false
  let u := fns.foldl (fun acc fn => closeSessions fn acc) { t with scores := t.scores.map fun o => if lost o then none else o }
  let asked (i : SignItem) : Bool := match i with | .quote fn _ _ _ => fns.contains fn | _ => false
  let v := { u with doorbells := u.doorbells.filter fun d => !fns.contains d.fn,
                    sec := { u.sec with sign := u.sec.sign.filter fun i => !asked i } }
  fns.foldl (fun acc fn => acc.updFunc fn fun f => Func.reset f.enabled) v

/-- The virtual functions that are clients. -/
def enabledVfs (s : State) : List Nat := (rangeFrom 1 31).filter fun fn => (s.func fn).enabled

/-- Virtual functions that are clients no longer. -/
def disableFuncs (fns : List Nat) (s : State) : State :=
  let t := fns.foldl (fun acc fn => acc.updFunc fn fun _ => Func.reset false) s
  { t with pcie := { t.pcie with numVfs := 0 } }

/-- `VF_ENABLE` (R377): VFs 1 to `n` are clients; one that was no client begins at its reset values, and one beyond `n` that was
a client is reset and is a client no longer. -/
def execVfEnable (n : Fin 32) (s : State) : Host.Outcome State Fault Refusal :=
  .next (
    if !s.pcie.up then s
    else
      let gone := (enabledVfs s).filter fun fn => decide (n.val < fn)
      let t := disableFuncs gone (resetFunctions gone s)
      let on (acc : State) (fn : Nat) : State := acc.updFunc fn fun f => if f.enabled then f else Func.reset true
      let u := (rangeFrom 1 n.val).foldl on t
      settle (nextTurn { u with pcie := { u.pcie with numVfs := n.val } }))

/-- `FUNCTION_LEVEL_RESET` (R497): that of the physical function resets and disables every virtual function as well. -/
def execFunctionLevelReset (fn : Fin 32) (s : State) : Host.Outcome State Fault Refusal :=
  .next (
    if !reaches s fn.val then s
    else if fn.val = 0 then
      let vfs := enabledVfs s
      settle (nextTurn (disableFuncs vfs (dropPfWaits (resetFunctions (0 :: vfs) s))))
    else settle (nextTurn (resetFunctions [fn.val] s)))

end Sys2Proof.Machine
end

