-- ==== Sys2Proof/Machine/Boot.lean ====
section
/-! DEFINITION. Reset and boot (R438, R439, R464 to R475, R480 to R489, R495, R496, R501 to R504): the pins, the boot ROM, roll call, the
rail sequence, training, core tests and READY. -/
namespace Sys2Proof.Machine

/-! ## What a reset loses (R495) -/

/-- Domains that run from the base rails once the device is out of reset. -/
def baseDomain (i : Nat) : Bool := decide (316 ≤ i)

/-- Every domain off; a fused-off core has none of its own (R433). -/
def offDomains (v : Variant) : List Domain :=
  (List.range 325).map fun i =>
    if i < 256 && !coreEnabled v i then { Domain.offDomain with state := .fusedOff } else Domain.offDomain

/-- Everything but the fuses, the boot flash, the pins named and what has left the device is lost; the reference counter starts
again (R435, R495). -/
def afterReset (pins : Pins) (s : State) : State :=
  let v := s.fuses.variant
  let p := Power.reset (maxPower v) (maxClock v)
  { State.reset with
    pending := s.pending, fresh := s.fresh, fuses := s.fuses, pins := pins, host := s.host, out := s.out,
    fw := { Firmware.reset with flash := s.fw.flash }, pcie := { State.reset.pcie with bar2Log2 := s.pcie.bar2Log2 },
    power := { p with domains := offDomains v } }

/-- `DEV_RESET_ASSERT` (R439, R464, R495): Amior sends no command; the board's gating switches the rails off. -/
def execDevResetAssert (s : State) : Host.Outcome State Fault Refusal :=
  .next (afterReset { State.reset.pins with pePerstN := s.pins.pePerstN, partner := s.pins.partner } s)

/-- `DEV_RESET_RELEASE` (R480 step 2). -/
def execDevResetRelease (s : State) : Host.Outcome State Fault Refusal :=
  .next (
    if s.pins.devResetN then s
    else setDomains baseDomain .running { s with pins := { s.pins with devResetN := true }, fw := { s.fw with progress := 2 } })

/-! ## Straps (R464 to R466) -/

/-- Boot source: 0 SPI flash, 1 host. -/
def bootSource (w : Half) : Nat := bitField w 0 2

/-- PCIe generation cap. -/
def genCap (w : Half) : Nat := 7 - bitField w 2 3

/-- A reserved value stops the ROM. -/
def strapsReserved (w : Half) : Bool := decide (2 ≤ bootSource w) || bitField w 2 3 == 7

/-- The ROM looks for an image: in the flash, or in the host's window (R480 step 5). -/
def seekImage (s : State) : State :=
  let t := { s with fw := { s.fw with progress := max 5 s.fw.progress } }
  if bootSource s.pins.straps = 1 then setFwState .awaitImage .ok t else t

/-- Link training (R375, R380, R480 step 4), once the straps are sampled and `PE_PERST_N` is high: at no more than the strapped generation,
in Flit Mode from 64 GT/s on and below it where the host's end supports it, the lanes as strapped; at a width other than x4, x8 or x16 it
does not train. The host's software sizes BAR2. -/
def trainLink (peer : LinkPartner) (bar2Log2 : Nat) (s : State) : State :=
  if !(peer.width == 4 || peer.width == 8 || peer.width == 16) then s
  else
    let gen := max 1 (min peer.gen (genCap s.pins.straps))
    { s with pcie := { s.pcie with up := true, gen := gen, width := peer.width, flitMode := decide (6 ≤ gen) || peer.flitMode,
                                   reversed := bitAt s.pins.straps 5, bar2Log2 := max 30 (min 41 bar2Log2) },
             fw := { s.fw with progress := max 4 s.fw.progress } }

/-- Step 4 of the boot sequence where what it waits for is there, and the PCIe island runs. -/
def startLink (s : State) : State :=
  match s.pins.partner with
  | some p =>
    if s.pins.devResetN && s.pins.strapsValid && s.pins.pePerstN && !s.pcie.up && (s.domain 318).state == .running then
      trainLink p.1 p.2 s
    else s
  | none => s

/-- `STRAP_SAMPLE`: 100 µs after reset release, once. With `PE_PERST_N` high the link begins to train, and the ROM looks for its image
(R480 steps 3 to 5). -/
def execStrapSample (word : Half) (s : State) : Host.Outcome State Fault Refusal :=
  .next (
    if !s.pins.devResetN || s.pins.strapsValid then s
    else
      let t := startLink
        { s with pins := { s.pins with straps := word, strapsValid := true }, fw := { s.fw with progress := 3 } }
      if !(s.fw.state == .rom) then t
      else if strapsReserved word then { t with fw := { t.fw with error := .invalid } } else seekImage t)

/-- `PE_PERST_RELEASE` (R375, R480 step 4): `PE_PERST_N` is high; the link trains now, or once the straps are sampled. -/
def execPePerstRelease (peer : LinkPartner) (bar2Log2 : Nat) (s : State) : Host.Outcome State Fault Refusal :=
  .next (if s.pcie.up then s
    else startLink { s with pins := { s.pins with pePerstN := true, partner := some (peer, bar2Log2) } })

/-! ## Firmware images (R482, R502 to R504) -/

/-- `MARK` values of a slot record. -/
def markValid : Word := 0x56414C44
def markStaged : Word := 0x53544744

/-- The valid slots, the higher `SEQ` first. -/
def validSlots (flash : List FlashSlot) : List Nat :=
  let ok (i : Nat) : Bool := (flash.getD i emptySlot).mark == markValid
  let order := if (flash.getD 0 emptySlot).seq < (flash.getD 1 emptySlot).seq then [1, 0] else [0, 1]
  order.filter ok

/-- The signed message of an image: bytes 0 to 63, then the body. -/
def signedMessage (image : List Byte) : List Byte := image.take 64 ++ image.drop 8192

/-- The firmware measurement (R503). -/
def measureImage (image : List Byte) : Digest := shake256 (signedMessage image)

/-- The checks of an image against a security-version counter (R503). -/
def imageOk (svBlown : Nat) (image : List Byte) : Bool :=
  let n := arg image 20 4
  let key := (image.drop 64).take 1952
  arg image 0 4 == 0x46574752 && arg image 4 2 == 1 && decide (arg image 6 2 < 2) && decide (1 ≤ n) && decide (n ≤ 33480704)
    && image.length == 8192 + n && zeroAt image 26 38 && zeroAt image 5325 2867
    && shake256 key == Config.rootDigest
    && decide (arg image 8 8 ≤ 64) && decide (svBlown ≤ arg image 8 8)
    && Config.verifies key (ascii "grx-fw") (signedMessage image) ((image.drop 2016).take 3309)

/-- The image of a slot is in hand (R480 step 6). -/
def imageInHand (slot : Nat) (rest : List Nat) (s : State) : State :=
  { s with fw := { s.fw with image := (s.fw.flash.getD slot emptySlot).image, imageSlot := some slot, candidates := rest,
                             progress := max 6 s.fw.progress } }

/-- The ROM waits for the host after a failure. -/
def awaitHost (s : State) : State :=
  setFwState .awaitImage .auth { s with fw := { s.fw with imageSlot := none, windowStart := 0, progress := 5 } }

/-- `FW_IMAGE_READ` (R482): what stands in the flash has been read. -/
def execFwImageRead (slot0 slot1 : FlashSlot) (s : State) : Host.Outcome State Fault Refusal :=
  .next (
    let reads := s.fw.state == .rom && s.pins.strapsValid && !strapsReserved s.pins.straps && bootSource s.pins.straps == 0
    if !reads then s
    else
      let t := { s with fw := { s.fw with flash := [slot0, slot1] } }
      match validSlots t.fw.flash with
      | [] => awaitHost t
      | i :: rest => setFwState .verifying .ok (imageInHand i rest t))

/-- Step 11: ports that can train begin to. -/
def trainPorts (s : State) : State :=
  let begin_ (acc : State) (p : Nat) : State :=
    if portTrains acc p then acc.updPort p fun x => { x with state := .training, rate := 0 } else acc
  (List.range 16).foldl begin_ s

/-- The lane of a Mallet unit that does the work of a logical lane: lanes 64 and 65 are the spares. Logical numbers never change (R126). -/
def physicalLane (s : State) (core mu lane : Nat) : Nat :=
  match s.fw.spares.find? fun r => r.core == core && r.mu == mu && r.subArray.isNone && r.index == lane with
  | some r => 64 + r.spare
  | none => lane

/-- The row of a sub-array that does the work of a logical row: row 16 is the spare. -/
def physicalRow (s : State) (core mu sub row : Nat) : Nat :=
  if s.fw.spares.any fun r => r.core == core && r.mu == mu && r.subArray == some sub && r.index == row then 16 else row

/-- The image in hand starts (R126, R504, R533): its keys are derived, the spares of the fuse map are switched in, and the empty resident
is in force. -/
def startImage (s : State) : State :=
  let im := s.fw.image
  { s with fresh := s.fresh + 1, resident := Resident.reset,
           fw := { s.fw with bootSlot := s.fw.imageSlot, fwVersion := BitVec.ofNat 32 (arg im 16 4),
                             ifRev := BitVec.ofNat 16 (arg im 24 2), imageSv := arg im 8 8, commitSv := natBit (arg im 6 2) 0,
                             measurement := measureImage im, certSign := s.fresh, udsOpen := false, image := [],
                             candidates := [], windowStart := 0, bootTests := false, spares := s.fuses.repairs } }

/-- The strap selects I3C for segment 0 (R466). -/
def strapI3c (w : Half) : Bool := decide (bitField w 8 2 < 2)

/-- The strapped I2C rate in kHz. -/
def strapKhz (w : Half) : Nat := if bitField w 8 2 % 2 = 0 then 1000 else 400

/-- The image starts: Amior raises `CLV_PU`, enables the segment drivers, and roll call comes next (R464), unless this is an activation, which
keeps the roll call, rails and memory there are, so that the core tests come next, or the device is bare as it was (R475, R495). -/
def startFirmware (s : State) : State :=
  let t := startImage s
  if s.pins.clavePhase = 0 then
    let u := setFwState .init .ok t
    { u with fw := { u.fw with progress := 7 },
             pins := { u.pins with clvPu := true, clavePhase := 1, segKhz := List.replicate 4 (strapKhz u.pins.straps) } }
  else if s.inv.descStatus = 0 then
    let u := setFwState .init .ok t
    trainPorts { u with fw := { u.fw with progress := 10 } }
  else
    let u := setFwState .bare .inventory t
    { u with fw := { u.fw with progress := 7 } }

/-- `FW_VERIFY_DONE` (R480 step 6, R482, R483, R499): the image starts, or the ROM falls back to the next slot or to the host. -/
def execFwVerifyDone (s : State) : Host.Outcome State Fault Refusal :=
  .next (
    if !(s.fw.state == .verifying || s.fw.state == .updating) then s
    else if imageOk s.fuses.svBlown s.fw.image then startFirmware s
    else
      match s.fw.candidates with
      | i :: rest => imageInHand i rest s
      | [] => awaitHost s)

/-! ## Roll call (R464, R473 to R475, R488) -/

/-- A rail entry of the descriptor: `ADDR`, `PAGE`, `PG_DELAY_MS`, `FLAGS`. -/
def railAddrOf (d : BitVec 4096) (i : Nat) : Nat := byteField d (176 + 4 * i) 1
def railPageOf (d : BitVec 4096) (i : Nat) : Nat := byteField d (176 + 4 * i + 1) 1
def railDelayOf (d : BitVec 4096) (i : Nat) : Nat := byteField d (176 + 4 * i + 2) 1
def railFlagsOf (d : BitVec 4096) (i : Nat) : Nat := byteField d (176 + 4 * i + 3) 1

/-- GDDR position `i` is fitted; CAMM2 connector `m` is. -/
def gddrFitted (d : BitVec 4096) (i : Nat) : Bool := bitAt d (64 * 8 + i)
def cammFitted (d : BitVec 4096) (m : Nat) : Bool := bitAt d (67 * 8 + m)

/-- The memory supplies that a fitted position needs: 12 and 13 the rims' GDDR supplies, 14 to 17 the CAMM2 supplies (R439, R473). -/
def supplyNeeded (d : BitVec 4096) (i : Nat) : Bool :=
  if i = 12 then (List.range 12).any (gddrFitted d)
  else if i = 13 then (rangeFrom 12 12).any (gddrFitted d)
  else cammFitted d (i - 14)

/-- Reserved bytes and bits of the record are zero. -/
def reservedZero (d : BitVec 4096) : Bool :=
  byteField d 5 1 == 0 && byteField d 27 1 == 0 && byteField d 30 2 == 0 && byteField d 116 4 == 0 && byteField d 248 260 == 0
    && decide (byteField d 24 1 < 16) && decide (byteField d 67 1 < 16)
    && (List.range 18).all fun i => decide (railFlagsOf d i < 4)

/-- The first rail entry that keeps the device from bringing its rails up. -/
def failingRail (rc : RollCall) (d : BitVec 4096) : Option Nat :=
  (rangeFrom 6 12).find? fun i =>
    (decide (i < 12) || supplyNeeded d i) &&
    (railAddrOf d i == 0 || !(rc.regulators.getD i false) || (decide (i < 10) && !natBit (railFlagsOf d i) 1))

/-- `MEMBER` lies inside `EXTENTS`, and within the bits of a member ID (R10). -/
def memberInside (d : BitVec 4096) : Bool :=
  (List.range 4).all fun k =>
    decide (byteField d (16 + k) 1 < byteField d (20 + k) 1) && decide (byteField d (16 + k) 1 < (if k < 2 then 16 else 8))

/-- `DESC_STATUS` and `FAIL_RAIL` (R475, R488). -/
def descriptorStatus (rc : RollCall) : Nat × Nat :=
  match rc.descriptor with
  | none => (1, 0xFF)
  | some d =>
    if !(byteField d 0 4 == 0x42444553) || !(byteField d 4 1 == 1) || !(byteField d 6 2 == 512) then (2, 0xFF)
    else if !((crc32 (leBytes 508 (byteField d 0 508))).toNat == byteField d 508 4) then (3, 0xFF)
    else if !reservedZero d then (4, 0xFF)
    else
      match failingRail rc d with
      | some i => (5, i)
      | none => if memberInside d then (0, 0xFF) else (6, 0xFF)

/-- The rim strap of a position selects GDDR6. -/
def rimIsGddr6 (w : Half) (p : Nat) : Bool := bitAt w (if p < 12 then 6 else 7)

/-- MiB of each channel of a GDDR position, 0 where the density does not suit the rim (R264, R473). -/
def gddrChannelMiB (gddr6 : Bool) (density : Nat) : Nat :=
  if gddr6 then (match density with | 1 => 512 | 2 => 1024 | _ => 0)
  else match density with | 2 => 512 | 3 => 768 | 4 => 1024 | _ => 0

/-- `GDDR_STATUS` before training. -/
def gddrFound (w : Half) (d : BitVec 4096) (p : Nat) : Nat :=
  if !gddrFitted d p then 0 else if gddrChannelMiB (rimIsGddr6 w p) (byteField d (68 + p) 1) = 0 then 2 else 1

/-- A module that the device accepts (R265). -/
def moduleAccepted (a : SpdAnswer) : Bool := (a.kind == 1 || a.kind == 2) && [32, 64, 128, 256].contains a.sizeGiB

/-- `CAMM_STATUS` before training. -/
def cammFound (rc : RollCall) (d : BitVec 4096) (m : Nat) : Nat :=
  if !cammFitted d m then 0
  else
    match rc.spd.getD m none with
    | some a => if !a.readable then 4 else if moduleAccepted a then 1 else 2
    | none => 4

/-- The rate code that a CMIS answer gives, 0 for none or an unreadable one. -/
def moduleRate (o : Option Nat) : Nat := match o with | some r => if r ≤ 3 then r else 0 | none => 0

/-- `PORT_STATUS` of a port. -/
def portFound (w : Half) (cabled : Bool) (maxRate : Nat) (o : Option Nat) (p : Nat) : Nat :=
  if !bitAt w (12 + p / 4) then 5
  else if !cabled then 0
  else if maxRate = 0 then 4
  else match o with | none => 2 | some _ => if moduleRate o = 0 then 3 else 1

/-- A `PORT_MAX_RATE` of the record; a code that R473 does not give leaves the port unused. -/
def portRateOf (d : BitVec 4096) (p : Nat) : Nat := if byteField d (32 + p) 1 ≤ 3 then byteField d (32 + p) 1 else 0

/-- The inventory that a roll call gives with a valid record. -/
def inventoryOf (w : Half) (rc : RollCall) (d : BitVec 4096) (status : Nat × Nat) : Inventory :=
  let ports := List.range 16
  let cabled (p : Nat) : Bool := bitAt d (28 * 8 + p)
  let read (p : Nat) : Option Nat := if cabled p then rc.modules.getD p none else none
  { descStatus := status.1, failRail := status.2, boardId := BitVec.ofNat 64 (byteField d 8 8),
    member := BitVec.ofNat 14 (memberOf ((List.range 4).map fun k => byteField d (16 + k) 1)),
    extents := (List.range 4).map fun k => byteField d (20 + k) 1, torus := BitVec.ofNat 4 (byteField d 24 1),
    portMaxRate := ports.map (portRateOf d), portsCabled := BitVec.ofNat 16 (byteField d 28 2),
    gddrStatus := (List.range 24).map (gddrFound w d), cammStatus := (List.range 4).map (cammFound rc d),
    portStatus := ports.map fun p => portFound w (cabled p) (portRateOf d p) (read p) p,
    cammInfo := (List.range 4).map fun m =>
      match rc.spd.getD m none with
      | some a => if cammFitted d m && a.readable then (a.kind, a.sizeGiB, a.rate) else (0, 0, 0)
      | none => (0, 0, 0),
    portModule := ports.map fun p => moduleRate (read p), railAddr := (List.range 18).map (railAddrOf d),
    gddrMaxRate := (List.range 24).map fun p => byteField d (92 + p) 1 * 5,
    railFlags := (List.range 18).map (railFlagsOf d), railPage := (List.range 18).map (railPageOf d),
    pgDelay := (List.range 18).map (railDelayOf d), muxAddr := [byteField d 25 1, byteField d 26 1],
    portLoss := ports.map fun p => byteField d (48 + p) 1 }

/-- Whether `BOARD_ID` of a record that fails can still be told: its head is right. -/
def headRight (status : Nat) : Bool := !(status == 1) && !(status == 2) && !(status == 3)

/-- The inventory of a roll call that fails: nothing is taken into use. -/
def failedInventory (rc : RollCall) (status : Nat × Nat) : Inventory :=
  let id := match rc.descriptor with | some d => if headRight status.1 then byteField d 8 8 else 0 | none => 0
  { Inventory.empty with descStatus := status.1, failRail := status.2, boardId := BitVec.ofNat 64 id }

/-- A threshold of the record, or its default (R283). -/
def thresholdOf (d : BitVec 4096) (p k : Nat) (def_ : Int) : Int :=
  let x := byteField d (120 + 2 * p + k) 1
  if x = 0 then def_ else (x : Int)

/-- A channel that roll call found; it has not trained yet. -/
def foundChannel (w : Half) (rc : RollCall) (d : BitVec 4096) (ch : Nat) : Channel :=
  let p := chanPos ch
  if ch < 96 then
    let g6 := rimIsGddr6 w p
    if gddrFound w d p = 1 && (!g6 || decide (ch % 4 < 2)) then
      { Channel.absent with kind := if g6 then 2 else 1, sizeMiB := gddrChannelMiB g6 (byteField d (68 + p) 1),
                            tHigh := thresholdOf d p 0 95, tCrit := thresholdOf d p 1 105 }
    else Channel.absent
  else if cammFound rc d (p - 24) = 1 then
    match rc.spd.getD (p - 24) none with
    | some a =>
      { Channel.absent with kind := if a.kind = 1 then 3 else 4, sizeMiB := a.sizeGiB * 128, tHigh := thresholdOf d p 0 85,
                            tCrit := thresholdOf d p 1 105 }
    | none => Channel.absent
  else Channel.absent

/-- A managed rail is enabled at a level (R439). -/
def enableRail (mv : Nat) (s : State) (r : Nat) : State :=
  (s.updRail r fun x => { x with on := true, mv := mv, voutAt := some s.time }).emit (pmbusOut s r (some mv))

/-- Step 1 of the rail sequence: the quarter rails at 0.620 V. -/
def railsUp (s : State) : State := [6, 7, 8, 9].foldl (enableRail 620) s

/-- Segment 0 enters I3C: the strap selects it and every hub found accepts dynamic address assignment (R469). -/
def entersI3c (w : Half) (rc : RollCall) : Bool := strapI3c w && (rc.spd.filterMap id).all fun a => a.dynamicAddr

/-! ## The Clave bus (R464, R465, R470, R472) -/

/-- The address of the board descriptor on segment 3, as strapped (R465). -/
def descriptorAddr (w : Half) : Nat := 0x50 + bitField w 10 2

/-- The segment of a port's module (R470). -/
def moduleSegment (p : Nat) : Nat := if p < 8 then 1 else 2

/-- The read of a port's module: behind its segment's multiplexer, whose address the descriptor gives (R470, R473). -/
def moduleRead (d : BitVec 4096) (p : Nat) : Out :=
  .claveRead (moduleSegment p) (some (byteField d (25 + p / 8) 1, p % 8)) 0x50

/-- What answers are heard: none on a segment of which a line stays low after the nine clocks, which counts as absent (R472), and no SPD hub
where `PRESENT` of segment 0 is high (R464 step 6). -/
def heard (rc : RollCall) : RollCall :=
  let stuck (k : Nat) : Bool := rc.stuck.getD k false
  { rc with descriptor := if stuck 3 then none else rc.descriptor, regulators := if stuck 3 then [] else rc.regulators,
            spd := if stuck 0 || !(rc.present.getD 0 false) then [] else rc.spd,
            modules := rc.modules.mapIdx fun p m => if stuck (moduleSegment p) then none else m }

/-- The reads of a roll call in the order of its steps (R464 steps 4 to 7): the descriptor, and once it is good the regulators, the hubs and
the modules. -/
def rollCallReads (w : Half) (rc : RollCall) (status : Nat) : List Out :=
  let stuck (k : Nat) : Bool := rc.stuck.getD k false
  match (heard rc).descriptor with
  | none => if stuck 3 then [] else [.claveRead 3 none (descriptorAddr w)]
  | some d =>
    let regs := ((List.range 18).map (railAddrOf d)).filter fun a => !(a == 0)
    let hubs := if stuck 0 || !(rc.present.getD 0 false) then [] else List.range 4
    let ports := (List.range 16).filter fun p => bitAt d (28 * 8 + p) && !stuck (moduleSegment p)
    .claveRead 3 none (descriptorAddr w) ::
      (if headRight status && !(status == 4) then regs.map (.claveRead 3 none) else []) ++
      (if status = 0 then hubs.map (fun m => .claveRead 0 none (0x50 + m)) ++ ports.map (moduleRead d) else [])

/-- Roll call on the bus: `PRESENT` and `ALERT` are sampled, a segment that stays low is logged (source 0x51, DESIGN CHOICE, log 117), and the
targets are read. -/
def callSegments (rc : RollCall) (status : Nat) (s : State) : State :=
  let t := { s with pins := { s.pins with segPresent := rc.present, segAlert := rc.alert } }
  let low := (List.range 4).filter fun k => rc.stuck.getD k false
  let u := low.foldl (fun (acc : State) k => logError 0x51 2 .inventory 0xFF 0xFF k 0 acc) t
  { u with out := u.out ++ rollCallReads s.pins.straps rc status }

/-- The run phase of the Clave bus: `CLV_PU` high, `CLV[15:8]` low, segment 0 in I3C at 12.5 MHz or in I2C, the others in I2C at the strapped
rate. -/
def runPhase (rc : RollCall) (s : State) : State :=
  let w := s.pins.straps
  let i3c := entersI3c w rc
  { s with pins := { s.pins with clvPu := true, clavePhase := 2, segI3c := i3c,
                                 segKhz := (if i3c then 12500 else strapKhz w) :: List.replicate 3 (strapKhz w) } }

/-- The device is bare: `CLV[15:8]` low, `CLV_PU` high, the segments idle (R472). -/
def barePhase (s : State) : State :=
  { s with pins := { s.pins with clvPu := true, clavePhase := 2, segI3c := false, segKhz := [0, 0, 0, 0] } }

/-- What a roll call that passes leaves: the inventory, channels and ports; the ports' training and then the rails begin (R480 steps 11
and 8: of steps that begin at one moment the one shown is a DESIGN CHOICE, log 118). -/
def rollCallPasses (rc : RollCall) (d : BitVec 4096) (status : Nat × Nat) (s : State) : State :=
  let w := s.pins.straps
  let inv := inventoryOf w rc d status
  let u := runPhase rc s
  let ports := u.fabric.ports.mapIdx fun p x =>
    { x with state := if inv.portStatus.getD p 0 = 5 then .disabled else .down, retryAt := s.time }
  let powered (i : Nat) : Bool :=
    decide (300 ≤ i) && decide (i < 316) && !(inv.portStatus.getD (i - 300) 0 == 5) && !(inv.portModule.getD (i - 300) 0 == 0)
  let t := { u with inv := inv, channels := (List.range 128).map (foundChannel w rc d), fabric := { u.fabric with ports := ports } }
  trainPorts (railsUp (setDomains powered .running { t with fw := { t.fw with progress := 8 } }))

/-- Roll call with what the board answers: the device goes on, or is bare. -/
def runRollCall (rc0 : RollCall) (s0 : State) : State × Bool :=
  let rc := heard rc0
  let status := descriptorStatus rc
  let s := callSegments rc0 status.1 s0
  match rc.descriptor with
  | some d =>
    if status.1 = 0 then (rollCallPasses rc d status s, true)
    else ({ barePhase s with inv := failedInventory rc status }, false)
  | none => ({ barePhase s with inv := failedInventory rc status }, false)

/-- `ROLL_CALL` (R480 step 7): in the roll-call phase. -/
def execRollCall (rc : RollCall) (s : State) : Host.Outcome State Fault Refusal :=
  .next (
    if !(s.fw.state == .init) || !(s.pins.clavePhase = 1) then s
    else
      match runRollCall rc s with
      | (t, true) => t
      | (t, false) => setFwState .bare .inventory t)

/-- `INVENTORY_RESCAN` (R489): in `BARE`, for the PF, roll call runs again; when it passes the sequence goes on from step 8. A request of
another kind is answered as GET_INVENTORY answers it. -/
def execInventoryRescan (r : Request) (rc : RollCall) (s : State) : Host.Outcome State Fault Refusal :=
  .next (
    let ps := reqArgs r
    let rescans := s.fw.state == .bare && r.fn.val == 0 && natBit (arg ps 8 1) 0 && reqFormed r false && !inventoryBad ps
    if !rescans then inventoryRow r s
    else if !mayTake r.fn.val s then s
    else
      let p := runRollCall rc (takeRequest r.fn.val s)
      let t := respond r.fn.val r.tag 0x02 .ok 1024 (hostWrite (arg ps 0 8) (inventoryBlock p.1) p.1)
      nextTurn (if p.2 then setFwState .init .ok t else t))

/-! ## Rails and memory (R439, R480 steps 8 and 9) -/

/-- Step 4 of the rail sequence: the supplies of the fitted positions are enabled. -/
def suppliesUp (s : State) : State :=
  let need (i : Nat) : Bool :=
    if i = 0 then (List.range 12).any fun p => !(s.inv.gddrStatus.getD p 0 == 0)
    else if i = 1 then (rangeFrom 12 12).any fun p => !(s.inv.gddrStatus.getD p 0 == 0)
    else !(s.inv.cammStatus.getD (i - 2) 0 == 0)
  let on := (List.range 6).filter need
  let t := { s with power := { s.power with supplies := (List.range 6).map fun i => if need i then 1 else 0,
                                            supplyAt := List.replicate 6 s.time } }
  on.foldl (fun (acc : State) i => acc.emit (supplyOut s i true)) t

/-- What a regulator's power good lets go on: the memory PHY rails after the four quarter rails, then the supplies. -/
def afterPowerGood (s : State) : State :=
  if [6, 7, 8, 9].all fun r => (s.rail r).good then
    if !(s.rail 10).on then
      [10, 11].foldl (enableRail 850) (setDomains (fun i => decide (i < 272)) .running s)
    else if (s.rail 10).good && (s.rail 11).good && s.power.supplies.all fun x => x == 0 then suppliesUp s
    else s
  else s

/-- `RAIL_POWER_GOOD` (R439). -/
def execRailPowerGood (rail : Fin 12) (s : State) : Host.Outcome State Fault Refusal :=
  .next (
    let r := s.rail rail.val
    if s.fw.state == .init && 6 ≤ rail.val && r.on && !r.good then
      afterPowerGood (s.updRail rail.val fun x => { x with good := true })
    else s)

/-- The memory positions that a supply feeds. -/
def supplyPositions (i : Nat) : List Nat :=
  if i = 0 then List.range 12 else if i = 1 then rangeFrom 12 12 else [24 + (i - 2)]

/-- The power-good delay of a supply that has been enabled is over (R439, R474). -/
def delayOver (s : State) (i : Nat) : Bool :=
  decide (s.power.supplyAt.getD i 0 + 1000 * s.inv.pgDelay.getD (12 + i) 0 ≤ s.time)

/-- `MEM_SUPPLY_PG_DELAY` (R439 steps 5 and 6): once every delay is over, RAIL_STEP raises VCORE to its level. -/
def execMemSupplyPgDelay (supply : Fin 6) (s : State) : Host.Outcome State Fault Refusal :=
  .next (
    if s.power.supplies.getD supply.val 0 = 1 && delayOver s supply.val then
      let t := { s with power := { s.power with supplies := updAt s.power.supplies supply.val fun _ => 2 } }
      let fed (i : Nat) : Bool :=
        decide (272 ≤ i) && decide (i < 300) && (supplyPositions supply.val).contains (i - 272)
          && (posChans (i - 272)).any fun c => decide (0 < (s.chan c).sizeMiB)
      railsDone (setDomains fed .running t)
    else s)

/-- Highest trained rate of a channel in 0.1 Gb/s (R264, R265, R475). -/
def rateLimit (s : State) (ch : Nat) : Nat :=
  if ch < 96 then min (s.inv.gddrMaxRate.getD (ch / 4) 0) (if (s.chan ch).kind = 2 then 240 else 480)
  else min ((s.inv.cammInfo.getD ((ch - 96) / 8) (0, 0, 0)).2.2) (if (s.chan ch).kind = 3 then 107 else 144)

/-- A channel's training has ended: active, or retired (R281). Its contents are undefined. -/
def channelTrained (ok : BitVec 128) (rates : List Nat) (s : State) (ch : Nat) : State :=
  let c := s.chan ch
  if c.sizeMiB = 0 then s
  else
    forgetRange (chanBase ch) c.bytes (s.updChan ch fun x =>
      { x with state := if bitAt ok ch then .active else .retired, rate := min (rates.getD ch 0) (rateLimit s ch),
               trainTemp := x.temp })

/-- A position of which a channel failed is reported. -/
def noteTraining (ok : BitVec 128) (s : State) (p : Nat) : State :=
  let failed := (posChans p).any fun c => decide (0 < (s.chan c).sizeMiB) && !bitAt ok c
  let t := gatePosition p s
  if failed then notePosition p 3 t else t

/-- `MEM_TRAINING_DONE` (R480 step 9). -/
def execMemTrainingDone (ok : BitVec 128) (rates : List Nat) (s : State) : Host.Outcome State Fault Refusal :=
  .next (
    if s.fw.state == .init && vcoreSettled s && !s.fw.bootMemory then
      let t := (List.range 28).foldl (noteTraining ok) ((List.range 128).foldl (channelTrained ok rates) s)
      { t with fw := { t.fw with bootMemory := true } }
    else s)

/-! ## Cores and READY (R480 steps 10 and 12, R491, R501) -/

/-- One core's boot test: a failing core is fenced and logged. -/
def bootCore (fails : BitVec 256) (s : State) (c : Nat) : State :=
  let t := s.updCore c fun k => { k with fenced := bitAt fails c }
  if bitAt fails c then logFail c t else t

/-- Step 8 of the boot sequence is over: the rails are up and VCORE has come to its level, if not already at an earlier start of firmware. -/
def railsReady (s : State) : Bool := if s.fw.bootMemory then railsRamped s else vcoreSettled s

/-- `BOOT_CORE_SELFTEST_DONE`: scratch is zero and the built-in tables are in their slots. -/
def execBootCoreSelftestDone (fails : BitVec 256) (s : State) : Host.Outcome State Fault Refusal :=
  .next (
    if s.fw.state == .init && railsReady s && !s.fw.bootTests then
      let t := (enabledCores s.fuses.variant).foldl (bootCore fails) (zeroCores s)
      { t with tables := builtinSlots, fw := { t.fw with bootTests := true } }
    else s)

/-- `BOOT_READY` (R480 step 12): Amior begins to serve the rings that have been set up (R385). -/
def execBootReady (s : State) : Host.Outcome State Fault Refusal :=
  .next (
    if s.fw.state == .init && s.fw.bootTests && s.fw.bootMemory then
      nextTurn (restClocks (setFwState .ready .ok { s with fw := { s.fw with progress := 12 } }))
    else s)

/-- `SV_COUNTER_RISE` (R501): fuses are blown one at a time, in ascending order. -/
def execSvCounterRise (s : State) : Host.Outcome State Fault Refusal :=
  .next (
    if s.fw.state == .ready && s.fw.commitSv && s.fuses.svBlown < s.fw.imageSv then
      (rangeFrom s.fuses.svBlown (s.fw.imageSv - s.fuses.svBlown)).foldl
        (fun (acc : State) n => { acc with fuses := { acc.fuses with svBlown := n + 1 } }.emit (.fuse n)) s
    else s)

/-! ## Warm reset (R495, R496) -/

/-- Abort requests for each collective in flight on every group (R496); the jobs are gone by then, and get no record. -/
def abortFlying (s : State) : State :=
  ((s.groups.filterMap id).flatMap fun g => g.colls.map fun c => (g.tag.toNat, c.seq)).foldl (fun acc x => raiseAbortOf x.1 x.2 2 acc) s

/-- The device after a warm reset of firmware that can start again. -/
def warmBoot (s : State) : State :=
  let t := railsOff (if firmwareUp s then idlePorts (abortFlying (dropJobs s)) else s)
  let pins : Pins :=
    { State.reset.pins with devResetN := true, straps := s.pins.straps, strapsValid := s.pins.strapsValid }
  let u := setDomains baseDomain .running (afterReset pins t)
  if !s.pins.strapsValid then { u with fw := { u.fw with progress := s.fw.progress } }
  else if strapsReserved s.pins.straps then { u with fw := { u.fw with progress := 3, error := .invalid } }
  else seekImage u

/-- `WARM_RESET`: `PE_PERST_N` falls, or a Hot Reset. After a thermal trip `FAILED` stays (R448, R495). -/
def execWarmReset (s : State) : Host.Outcome State Fault Refusal :=
  .next (
    if !s.pins.devResetN then s
    else if s.power.trippedAt.isSome then
      let t := { s with pcie := { s.pcie with up := false, gen := 0, width := 0, flitMode := false, reversed := false, numVfs := 0 },
                        pins := { s.pins with pePerstN := false, partner := none } }
      { t with funcs := State.reset.funcs, log := State.reset.log }
    else warmBoot s)

/-! ## Cable modules (R470, R472, R474) -/

/-- One cabled port's status has been read: a module that has appeared begins training, one that has gone takes its port down. -/
def modulePolled (modules : List (Option Nat)) (s : State) (p : Nat) : State :=
  let status := s.inv.portStatus.getD p 0
  if status = 5 || status = 0 || status = 4 then s
  else
    let o := modules.getD p none
    let rate := moduleRate o
    let old := s.inv.portModule.getD p 0
    let now := match o with | none => 2 | some _ => if rate = 0 then 3 else 1
    let t := { s with inv := { s.inv with portModule := updAt s.inv.portModule p fun _ => rate,
                                          portStatus := updAt s.inv.portStatus p fun _ => now } }
    let powered (st : DomainState) (x : State) : State := setDomains (fun i => i == 300 + p) st x
    if old = 0 && 0 < rate then
      let u := if natBit s.staged.cur.featureEnable 2 then powered .running t else t
      if portTrains u p && (u.port p).state == .down then
        u.updPort p fun x => { x with state := .training, rate := 0, neighbour := none }
      else u
    else if 0 < old && rate = 0 then powered .off (dropPort .down p t)
    else t

/-- `CMIS_STATUS_POLL`: in the run phase, while the firmware serves. -/
def execCmisStatusPoll (modules : List (Option Nat)) (s : State) : Host.Outcome State Fault Refusal :=
  .next (
    if (s.fw.state == .init || s.fw.state == .ready) && s.pins.clavePhase = 2 then
      (List.range 16).foldl (modulePolled modules) s
    else s)

end Sys2Proof.Machine
end

