-- ==== Sys2Proof/Machine/FwUpdate.lean ====
section
/-! DEFINITION. Firmware update (R495, R496, R498, R499): staging, its end, and activation. -/
namespace Sys2Proof.Machine

/-- The slot that did not boot. -/
def otherSlot (s : State) : Nat := match s.fw.bootSlot with | some 0 => 1 | _ => 0

/-- The slot that holds a staged image. -/
def stagedSlot (s : State) : Option Nat :=
  [0, 1].find? fun i => !(s.fw.bootSlot == some i) && (s.fw.flash.getD i emptySlot).mark == markStaged

def stageImageCall (r : Request) (ps : List Byte) (s : State) : State × CallEnd :=
  let a := arg ps 0 8
  let n := arg ps 8 8
  if !aligned a 256 || !mapped s a n || longestImage < n then (s, .answer .invalid 0)
  else if s.fw.bootSlot.isNone then (s, .answer .state 0)
  else if s.fw.staging.isSome then (s, .answer .busy 0)
  else ({ s with fw := { s.fw with staging := some { fn := r.fn.val, tag := r.tag, addr := a, size := n } } }, .later)

/-- `FW_UPDATE_STAGE` (R498): answered by FW_STAGING_DONE. -/
def execFwUpdateStage (r : Request) (s : State) : Host.Outcome State Fault Refusal :=
  .next (serveCall { op := 0xA0, pf := true, bare := true, defer := false } r (fun ps => !zeroFrom ps 16) (stageImageCall r) s)

/-- The sequence number that the other slot takes: one more than the booted slot's. -/
def nextSeq (s : State) : Nat := ((s.fw.flash.getD (1 - otherSlot s) emptySlot).seq + 1) % 2 ^ 32

/-- The result of a staging. -/
def stagingResult (slot seq : Nat) (image : List Byte) : Nat :=
  packFields [(1, slot), (3, 0), (4, seq), (32, digestHead (measureImage image))]

/-- `FW_STAGING_DONE` (R498, R503): the image is verified and written, marked staged. -/
def execFwStagingDone (s : State) : Host.Outcome State Fault Refusal :=
  .next (match s.fw.staging with
    | none => s
    | some x =>
      if onSuspended s [(x.addr, x.size)] then s
      else
      let t := { s with fw := { s.fw with staging := none } }
      let image := s.mem.readBytes x.addr x.size
      if mapped s x.addr x.size && imageOk s.fuses.svBlown image then
        let slot := otherSlot s
        let put (_ : FlashSlot) : FlashSlot := { seq := nextSeq s, mark := markStaged, image := image }
        respond x.fn x.tag 0xA0 .ok (stagingResult slot (nextSeq s) image)
          { t with fw := { t.fw with flash := updAt t.fw.flash slot put } }
      else respond x.fn x.tag 0xA0 .auth 0 t)

/-- The activation reset (R495, R496, R499): `UPDATING`, and then `VERIFY` as the sequence restarts at step 6: collectives abort, ports halt, what the firmware held is lost; channels, their contents and the
rails stay. The security block is reset, and the image of the slot is checked (R504). -/
def activationReset (slot : Nat) (s : State) : State :=
  let t := setFwState .updating .ok (idlePorts (abortFlying (dropJobs s)))
  let u := zeroCores (firmwareLost t)
  let rest := (validSlots u.fw.flash).filter fun i => !(i == slot)
  let v := setFwState .verifying .ok (imageInHand slot rest { u with sec := State.reset.sec })
  { v with fw := { v.fw with progress := 6, udsOpen := true, bootTests := false } }

/-- A slot is marked valid. -/
def markSlot (slot : Nat) (s : State) : State :=
  let mark (f : FlashSlot) : FlashSlot := { f with mark := markValid }
  { s with fw := { s.fw with flash := updAt s.fw.flash slot mark } }

/-- `FW_UPDATE_ACTIVATE` (R499): with `NOW` the response is posted before the state changes. -/
def execFwUpdateActivate (r : Request) (s : State) : Host.Outcome State Fault Refusal :=
  .next (
    let now := natBit (arg (reqArgs r) 0 1) 0
    let t := serveCall { op := 0xA1, pf := true, bare := true, defer := false } r
      (fun ps => decide (2 ≤ arg ps 0 1) || !zeroFrom ps 1)
      (fun _ x =>
        match stagedSlot x with
        | none => (x, .answer .state 0)
        | some i =>
          if now && x.sched.jobs.any Job.active then (x, .answer .busy 0) else (markSlot i x, .answer .ok 0)) s
    match stagedSlot s with
    | some i => if now && !(stagedSlot t == some i) then activationReset i t else t
    | none => t)

end Sys2Proof.Machine
end

