-- ==== Sys2Proof/Machine/Loader.lean ====
section
/-! DEFINITION. SCORE_LOAD (R98 to R101): the loader's checks in ascending code order, and the score recorded. -/
namespace Sys2Proof.Machine

/-- The checks of a load in ascending code order; the first failure is reported (R100). -/
def loadFault (s : State) (a size : Nat) : Option VerifyReport :=
  let v := s.fuses.variant
  let m := s.mem
  match imageCheck m a size with
  | some r => some r
  | none =>
    match firstReport [editionCheck m a, limitsCheck m a] with
    | some r => some r
    | none =>
      match firstReport [encodingCheck m a, sectionsCheck v m a, loopsCheck m a, cueMapCheck m a] with
      | some r => some r
      | none =>
        match firstReport [balanceCheck s a, buffersCheck s a, rangesCheck s a, formatsCheck s a, tilesCheck s a] with
        | some r => some r
        | none =>
          firstReport [livenessCheck s a, collBreakCheck s a, scatterOrderCheck s a, overlapCheck s a, residentCheck s a,
                       groupsCheck s a]

/-- The score that a load records: its digest is that of the whole image as loaded (R59). -/
def scoreAt (s : State) (fn a size : Nat) : Score :=
  { fn := fn, addr := a, size := size, digest := shake256 (s.mem.readBytes a size), struck := false }

/-- The body of SCORE_LOAD (R98, R99). -/
def scoreLoadCall (fn : Nat) (ps : List Byte) (s : State) : State × CallEnd :=
  let a := arg ps 0 8
  let n := arg ps 8 8
  if !aligned a 256 || !memoryFree s a n then (s, .answer .invalid 0)
  else
    match freeSlot s.scores with
    | none => (s, .answer .noResource 0)
    | some h =>
      match loadFault s a n with
      | some r => (s, .answer .verify r.number)
      | none => ({ s with scores := updAt s.scores h fun _ => some (scoreAt s fn a n) }, .answer .ok h)

/-- SCORE_LOAD: image address and size, the rest of the parameters zero. -/
def execScoreLoad (r : Request) (s : State) : Host.Outcome State Fault Refusal :=
  .next (serveCall { op := 0x10, pf := false, bare := false, defer := false } r (fun ps => !zeroFrom ps 16)
    (scoreLoadCall r.fn.val) s)

end Sys2Proof.Machine
end

