-- ==== Sys2Proof/Machine/Dispatch.lean ====
section
/-! DEFINITION. The dispatch of a command to its meaning: one arm for each row of spec/opcode_table.json. -/
namespace Sys2Proof.Machine

def exec (i : Instr) (s : State) : Host.Outcome State Fault Refusal :=
  match i with
  | .getInfo r => Sys2Proof.Machine.execGetInfo r s
  | .getInventory r => Sys2Proof.Machine.execGetInventory r s
  | .inventoryRescan r rc => Sys2Proof.Machine.execInventoryRescan r rc s
  | .scoreLoad r => Sys2Proof.Machine.execScoreLoad r s
  | .scoreUnload r => Sys2Proof.Machine.execScoreUnload r s
  | .residentLoad r => Sys2Proof.Machine.execResidentLoad r s
  | .jobQueueCreate r => Sys2Proof.Machine.execJobQueueCreate r s
  | .jobQueueDestroy r => Sys2Proof.Machine.execJobQueueDestroy r s
  | .jobCountRead r => Sys2Proof.Machine.execJobCountRead r s
  | .preemptPolicySet r => Sys2Proof.Machine.execPreemptPolicySet r s
  | .stageSet r => Sys2Proof.Machine.execStageSet r s
  | .stageCheck r => Sys2Proof.Machine.execStageCheck r s
  | .stageCommit r => Sys2Proof.Machine.execStageCommit r s
  | .stageDiscard r => Sys2Proof.Machine.execStageDiscard r s
  | .tableLoad r => Sys2Proof.Machine.execTableLoad r s
  | .memMapRead r => Sys2Proof.Machine.execMemMapRead r s
  | .memChannelRetire r => Sys2Proof.Machine.execMemChannelRetire r s
  | .memChannelMaintenance r => Sys2Proof.Machine.execMemChannelMaintenance r s
  | .memChannelRestore r => Sys2Proof.Machine.execMemChannelRestore r s
  | .memExercise r => Sys2Proof.Machine.execMemExercise r s
  | .memExerciseStop r => Sys2Proof.Machine.execMemExerciseStop r s
  | .memExerciseDone ch rep => Sys2Proof.Machine.execMemExerciseDone ch rep s
  | .groupDefine r => Sys2Proof.Machine.execGroupDefine r s
  | .groupRelease r => Sys2Proof.Machine.execGroupRelease r s
  | .linkStatus r => Sys2Proof.Machine.execLinkStatus r s
  | .linkRetrain r => Sys2Proof.Machine.execLinkRetrain r s
  | .codecSessionOpen r => Sys2Proof.Machine.execCodecSessionOpen r s
  | .codecSessionClose r => Sys2Proof.Machine.execCodecSessionClose r s
  | .selftest r => Sys2Proof.Machine.execSelftest r s
  | .calibrate r => Sys2Proof.Machine.execCalibrate r s
  | .deferredTestRun => Sys2Proof.Machine.execDeferredTestRun s
  | .selftestDone fails durationUs => Sys2Proof.Machine.execSelftestDone fails durationUs s
  | .calibrateDone fails => Sys2Proof.Machine.execCalibrateDone fails s
  | .attestQuote r => Sys2Proof.Machine.execAttestQuote r s
  | .identityRead r => Sys2Proof.Machine.execIdentityRead r s
  | .fwUpdateStage r => Sys2Proof.Machine.execFwUpdateStage r s
  | .fwUpdateActivate r => Sys2Proof.Machine.execFwUpdateActivate r s
  | .powerPolicySet r => Sys2Proof.Machine.execPowerPolicySet r s
  | .telemetryRead r => Sys2Proof.Machine.execTelemetryRead r s
  | .errorLogRead r => Sys2Proof.Machine.execErrorLogRead r s
  | .mbxSetup fn value block => Sys2Proof.Machine.execMbxSetup fn value block s
  | .mbxReqTail fn value entries => Sys2Proof.Machine.execMbxReqTail fn value entries s
  | .mbxStop fn value => Sys2Proof.Machine.execMbxStop fn value s
  | .mbxRspDb fn value => Sys2Proof.Machine.execMbxRspDb fn value s
  | .jqSubDb fn value subs => Sys2Proof.Machine.execJqSubDb fn value subs s
  | .jqCmpDb fn value => Sys2Proof.Machine.execJqCmpDb fn value s
  | .irqStatusWrite fn value => Sys2Proof.Machine.execIrqStatusWrite fn value s
  | .irqMaskWrite fn value => Sys2Proof.Machine.execIrqMaskWrite fn value s
  | .registerWriteOther fn offset widthBits value => Sys2Proof.Machine.execRegisterWriteOther fn offset widthBits value s
  | .bar2Read offset len => Sys2Proof.Machine.execBar2Read offset len s
  | .bar2Write offset data => Sys2Proof.Machine.execBar2Write offset data s
  | .imageWindowStart length start image => Sys2Proof.Machine.execImageWindowStart length start image s
  | .vfEnable n => Sys2Proof.Machine.execVfEnable n s
  | .functionLevelReset fn => Sys2Proof.Machine.execFunctionLevelReset fn s
  | .warmReset => Sys2Proof.Machine.execWarmReset s
  | .devResetAssert => Sys2Proof.Machine.execDevResetAssert s
  | .devResetRelease => Sys2Proof.Machine.execDevResetRelease s
  | .strapSample word => Sys2Proof.Machine.execStrapSample word s
  | .pePerstRelease peer bar2Log2 => Sys2Proof.Machine.execPePerstRelease peer bar2Log2 s
  | .fwImageRead slot0 slot1 => Sys2Proof.Machine.execFwImageRead slot0 slot1 s
  | .fwVerifyDone => Sys2Proof.Machine.execFwVerifyDone s
  | .rollCall rc => Sys2Proof.Machine.execRollCall rc s
  | .railPowerGood rail => Sys2Proof.Machine.execRailPowerGood rail s
  | .memSupplyPgDelay supply => Sys2Proof.Machine.execMemSupplyPgDelay supply s
  | .memTrainingDone ok rates => Sys2Proof.Machine.execMemTrainingDone ok rates s
  | .bootCoreSelftestDone fails => Sys2Proof.Machine.execBootCoreSelftestDone fails s
  | .bootReady => Sys2Proof.Machine.execBootReady s
  | .svCounterRise => Sys2Proof.Machine.execSvCounterRise s
  | .rest u => Sys2Proof.Machine.execRest u s
  | .cue u => Sys2Proof.Machine.execCue u s
  | .bar u => Sys2Proof.Machine.execBar u s
  | .loopBegin u => Sys2Proof.Machine.execLoopBegin u s
  | .loopEnd u => Sys2Proof.Machine.execLoopEnd u s
  | .brk u => Sys2Proof.Machine.execBrk u s
  | .sectionCtl u => Sys2Proof.Machine.execSectionCtl u s
  | .halt u => Sys2Proof.Machine.execHalt u s
  | .mm c mu => Sys2Proof.Machine.execMm c mu s
  | .gang c mu => Sys2Proof.Machine.execGang c mu s
  | .feedMm c => Sys2Proof.Machine.execFeedMm c s
  | .feedGang c => Sys2Proof.Machine.execFeedGang c s
  | .feedWin c => Sys2Proof.Machine.execFeedWin c s
  | .drainMm c => Sys2Proof.Machine.execDrainMm c s
  | .drainGang c => Sys2Proof.Machine.execDrainGang c s
  | .chain c => Sys2Proof.Machine.execChain c s
  | .stepStroke c => Sys2Proof.Machine.execStepStroke c s
  | .reduce c => Sys2Proof.Machine.execReduce c s
  | .mergePartialRx c => Sys2Proof.Machine.execMergePartialRx c s
  | .rattleSet c => Sys2Proof.Machine.execRattleSet c s
  | .attn c mu => Sys2Proof.Machine.execAttn c mu s
  | .feedAttn c => Sys2Proof.Machine.execFeedAttn c s
  | .drainAttn c => Sys2Proof.Machine.execDrainAttn c s
  | .scatter c => Sys2Proof.Machine.execScatter c s
  | .coreDmaCopy c => Sys2Proof.Machine.execCoreDmaCopy c s
  | .coreDmaFill c => Sys2Proof.Machine.execCoreDmaFill c s
  | .chipDmaCopy => Sys2Proof.Machine.execChipDmaCopy s
  | .chipDmaFill => Sys2Proof.Machine.execChipDmaFill s
  | .send => Sys2Proof.Machine.execSend s
  | .recv => Sys2Proof.Machine.execRecv s
  | .coll => Sys2Proof.Machine.execColl s
  | .encFrame => Sys2Proof.Machine.execEncFrame s
  | .decFrame => Sys2Proof.Machine.execDecFrame s
  | .codecFrameDone e => Sys2Proof.Machine.execCodecFrameDone e s
  | .notify => Sys2Proof.Machine.execNotify s
  | .fetchArrival u => Sys2Proof.Machine.execFetchArrival u s
  | .strokeResume u slot => Sys2Proof.Machine.execStrokeResume u slot s
  | .strokeComplete u slot => Sys2Proof.Machine.execStrokeComplete u slot s
  | .kernelComplete => Sys2Proof.Machine.execKernelComplete s
  | .inputDigestsDone => Sys2Proof.Machine.execInputDigestsDone s
  | .jobHaltComplete => Sys2Proof.Machine.execJobHaltComplete s
  | .outputDigestsDone => Sys2Proof.Machine.execOutputDigestsDone s
  | .batchClose => Sys2Proof.Machine.execBatchClose s
  | .bodySigned => Sys2Proof.Machine.execBodySigned s
  | .evictionBegin => Sys2Proof.Machine.execEvictionBegin s
  | .evictionParked => Sys2Proof.Machine.execEvictionParked s
  | .evictionCopyDone => Sys2Proof.Machine.execEvictionCopyDone s
  | .restoreDone => Sys2Proof.Machine.execRestoreDone s
  | .residentSwapStart => Sys2Proof.Machine.execResidentSwapStart s
  | .residentSwapDone => Sys2Proof.Machine.execResidentSwapDone s
  | .downbeatStart => Sys2Proof.Machine.execDownbeatStart s
  | .downbeatParked => Sys2Proof.Machine.execDownbeatParked s
  | .strikeParked => Sys2Proof.Machine.execStrikeParked s
  | .scratchParityError c stave => Sys2Proof.Machine.execScratchParityError c stave s
  | .residentParityError c stave => Sys2Proof.Machine.execResidentParityError c stave s
  | .residentRefillDone c ok => Sys2Proof.Machine.execResidentRefillDone c ok s
  | .malletParityError c mu unusedTile => Sys2Proof.Machine.execMalletParityError c mu unusedTile s
  | .gangParityError c mu sa => Sys2Proof.Machine.execGangParityError c mu sa s
  | .staveParityError u again => Sys2Proof.Machine.execStaveParityError u again s
  | .chimeBankParityError c slot => Sys2Proof.Machine.execChimeBankParityError c slot s
  | .meshFlitParityError owner row => Sys2Proof.Machine.execMeshFlitParityError owner row s
  | .fifoParityError owner domain => Sys2Proof.Machine.execFifoParityError owner domain s
  | .amiorParityError => Sys2Proof.Machine.execAmiorParityError s
  | .memCrcRetry ch who attempt => Sys2Proof.Machine.execMemCrcRetry ch who attempt s
  | .memTempPoll temps => Sys2Proof.Machine.execMemTempPoll temps s
  | .memSuspendTimeout ch => Sys2Proof.Machine.execMemSuspendTimeout ch s
  | .memRetrain ch => Sys2Proof.Machine.execMemRetrain ch s
  | .memRetrainDone ch ok again => Sys2Proof.Machine.execMemRetrainDone ch ok again s
  | .cammRecalibrate ch => Sys2Proof.Machine.execCammRecalibrate ch s
  | .patrolScrub ch errorAddr => Sys2Proof.Machine.execPatrolScrub ch errorAddr s
  | .cammModuleLost m => Sys2Proof.Machine.execCammModuleLost m s
  | .portTrained p rate => Sys2Proof.Machine.execPortTrained p rate s
  | .identityExchange w who => Sys2Proof.Machine.execIdentityExchange w who s
  | .portRetryTrain p => Sys2Proof.Machine.execPortRetryTrain p s
  | .linkDown p => Sys2Proof.Machine.execLinkDown p s
  | .idleFlitRx p w => Sys2Proof.Machine.execIdleFlitRx p w s
  | .linkCredit w credits => Sys2Proof.Machine.execLinkCredit w credits s
  | .linkNack w seq => Sys2Proof.Machine.execLinkNack w seq s
  | .flitCrcError p uncorrectable => Sys2Proof.Machine.execFlitCrcError p uncorrectable s
  | .nackRepeat p => Sys2Proof.Machine.execNackRepeat p s
  | .sendFlitRx p src w => Sys2Proof.Machine.execSendFlitRx p src w s
  | .sendAck w xtag landed => Sys2Proof.Machine.execSendAck w xtag landed s
  | .collFlitRx p w => Sys2Proof.Machine.execCollFlitRx p w s
  | .clapUp w => Sys2Proof.Machine.execClapUp w s
  | .clapDown w => Sys2Proof.Machine.execClapDown w s
  | .clapAbortRequest w => Sys2Proof.Machine.execClapAbortRequest w s
  | .clapDecision w => Sys2Proof.Machine.execClapDecision w s
  | .xferTimeout u slot => Sys2Proof.Machine.execXferTimeout u slot s
  | .collTimeout tag => Sys2Proof.Machine.execCollTimeout tag s
  | .abortNoDecision tag => Sys2Proof.Machine.execAbortNoDecision tag s
  | .powerLoopTick now projected => Sys2Proof.Machine.execPowerLoopTick now projected s
  | .railStep q up => Sys2Proof.Machine.execRailStep q up s
  | .railTelemetryPoll readings => Sys2Proof.Machine.execRailTelemetryPoll readings s
  | .fllWindow island count => Sys2Proof.Machine.execFllWindow island count s
  | .islandWake island => Sys2Proof.Machine.execIslandWake island s
  | .supplySag islands => Sys2Proof.Machine.execSupplySag islands s
  | .thermalSensorRead deci => Sys2Proof.Machine.execThermalSensorRead deci s
  | .thermalCapRelease => Sys2Proof.Machine.execThermalCapRelease s
  | .tripTimeout => Sys2Proof.Machine.execTripTimeout s
  | .regulatorFault rail => Sys2Proof.Machine.execRegulatorFault rail s
  | .regulatorWarning rail on => Sys2Proof.Machine.execRegulatorWarning rail on s
  | .cmisStatusPoll modules => Sys2Proof.Machine.execCmisStatusPoll modules s
  | .fwStagingDone => Sys2Proof.Machine.execFwStagingDone s
  | .memorySupplyFault position => Sys2Proof.Machine.execMemorySupplyFault position s

end Sys2Proof.Machine
end

