-- ==== Sys2Proof/Machine/Tick.lean ====
section
/-! DEFINITION. What passes when no command waits: one microsecond of the device's reference counter (R435). -/
namespace Sys2Proof.Machine

/-- One microsecond passes (DESIGN CHOICE, log 2). -/
def tick (s : State) : State := { s with time := s.time + 1 }

end Sys2Proof.Machine
end

