-- ==== Sys2Proof/Safety.lean ====
section
/-! DEFINITION. What counts as a sound state of the block, in the terms that claims use: both memories in canonical form,
every register file and slot table of the size the spec gives it, the error log within its length; and what a step may
never do to the fuses; what a call that is served looks like, and what its answer leaves. -/
namespace Sys2Proof.Machine

/-- Device memory and host memory stand in canonical form. -/
def State.memForm (s : State) : Prop := s.mem.wf = true ∧ s.host.wf = true

/-- The numbers of functions (R377), channels (R266), cores and chip units (R2, R60), table slots (R189), score slots (R98),
groups (R315), ports (R291), windows (R306), codec sessions (R346), rails and supplies (R437, R439), domains (R431) and
sensors (R445). -/
structure State.Sized (s : State) : Prop where
  funcs : s.funcs.length = 32
  channels : s.channels.length = 128
  cores : s.cores.length = 256
  chips : s.chips.length = 4
  tables : s.tables.length = 8
  scores : s.scores.length = 16
  groups : s.groups.length = 16
  ports : s.fabric.ports.length = 16
  windows : s.fabric.windows.length = 16
  sessions : s.codec.sessions.length = 64
  rails : s.power.rails.length = 12
  supplies : s.power.supplies.length = 6
  domains : s.power.domains.length = 325
  sensors : s.power.sensors.length = 290

/-- The error log holds no more entries than it has room for (R528). -/
def State.logFits (s : State) : Prop := s.log.entries.length ≤ 4096

/-- A blown fuse stays blown, and what is fused at manufacture never changes (R2, R501). -/
def fusesStand (s t : State) : Prop :=
  t.fuses.variant = s.fuses.variant ∧ t.fuses.stepping = s.fuses.stepping ∧ t.fuses.repairs = s.fuses.repairs ∧
    t.fuses.uds = s.fuses.uds ∧ s.fuses.svBlown ≤ t.fuses.svBlown

/-- An outcome that is a next state of which `p` holds. -/
def nextWith (p : State → Prop) (o : Host.Outcome State Fault Refusal) : Prop := ∃ t, o = .next t ∧ p t

/-! ## The answer of a call -/

/-- A request that Amior takes and serves, and whose answer has room: the firmware serves its opcode (R384), the function is
enabled and has its turn among the functions whose rings hold requests, its mailbox has a free response slot (R392), `FLAGS` and the
indirect block are formed (R390), and an opcode of the PF comes from the PF (R401). -/
structure Served (pf bare defer : Bool) (r : Request) (m : Mailbox) (s : State) : Prop where
  firmware : s.fw.state = .ready ∨ (bare = true ∧ s.fw.state = .bare)
  enabled : (s.func r.fn.val).enabled = true
  mailbox : s.mailbox r.fn.val = some m
  turn : mailboxTurn s = some r.fn.val
  runs : m.stopping = false
  noneHeld : m.held = []
  room : m.rspUnreleased + 1 < m.rspEntries
  formed : reqFormed r defer = true
  client : pf = true → r.fn.val = 0

/-- `s` after a response is posted to the request just served: the entry at the write index, the index advanced with its phase, the
request gone from the ring, cause bit 0 set, and a message where the bit was clear and unmasked, which a masked vector keeps pending
(R386, R387, R391, R392). -/
def answer (r : Request) (m : Mailbox) (op : Nat) (st : Status) (result : Nat) (s : State) : State :=
  let f := s.func r.fn.val
  let w := (m.rspWrite + 1) % m.rspEntries
  let sends := !f.irqStatus.getLsbD 0 && !f.irqMask.getLsbD 0
  { s with
    host := s.host.writeBytes (m.rspBase + 64 * m.rspWrite)
      (packBytes [(4, r.tag.toNat), (2, st.code), (2, op), (1, if m.rspPhase then 1 else 0), (11, 0), (44, result)]),
    funcs := s.funcs.set r.fn.val { f with
      irqStatus := f.irqStatus ||| 1,
      vectorPending := if sends && f.vectorMask.getLsbD 0 then f.vectorPending ||| 1 else f.vectorPending,
      mailbox := some { m with ring := m.ring.drop 1, rspWrite := w,
                               rspPhase := if w = 0 then !m.rspPhase else m.rspPhase,
                               rspUnreleased := m.rspUnreleased + 1 } },
    lastCaller := r.fn.val,
    out := s.out ++ (if sends && !f.vectorMask.getLsbD 0 then [.msix r.fn.val 0] else []) }

/-- `s` after a request has been answered and Amior has gone on to the next turn, on which it refuses the requests of unknown opcodes
that come next in their rings (R392, R393). -/
def answered (r : Request) (m : Mailbox) (op : Nat) (st : Status) (result : Nat) (s : State) : State :=
  nextTurn (answer r m op st result s)

/-- `s` after a request has been taken whose answer comes later: it is counted among those taken (R392). -/
def awaiting (r : Request) (m : Mailbox) (s : State) : State :=
  { s with funcs := s.funcs.set r.fn.val { s.func r.fn.val with
      mailbox := some { m with ring := m.ring.drop 1, taken := m.taken + 1 } },
           lastCaller := r.fn.val }

/-- `s` with a block written to a host buffer. -/
def buffered (a : Nat) (block : List Byte) (s : State) : State := { s with host := s.host.writeBytes a block }

/-! ## Strokes -/

/-- Every output stream that a stroke of opcode `op` at unit `u` writes has a credit (R76, R537): the broadcast or the window FIFO of a feed
stroke, the accumulator sets of a Mallet unit's, the tap FIFO of a CHAIN that a REDUCE taps, the port of a SEND, of a DRAIN_MM that
sends or of a COLL on the ring; other strokes write no stream. -/
def streamCredit (u : UnitId) (op : Nat) (b : BeatCtx) (s : State) : Bool :=
  let c := unitCore u
  let v := unitStave u
  if op = 1 then true
  else if v ≤ 4 then (if op = 0x11 then gangCredit c (v - 1) b s else setCredit c (v - 1) b s)
  else if v = 5 then (if op = 0x10 then tapCredit c b s else true)
  else if v = 7 then (if op = 0x12 then winCredit c b s else feedCredit c b s)
  else if v = 8 then (if op = 0x10 then drainCredit b s else true)
  else if v = 13 then (if op = 0x10 then sendCredit b s else if op = 0x12 then collCredit b s else true)
  else true

/-- A stroke of opcode `op` stands before unit `u`, in the beat `b`, and may fire: the bar and its descriptor are fetched and it holds the
stroke for this core (R67, R95), the unit stands at it (R68), no park request stands (R410, R428, R518), every counter named in `WAIT` is
at least 1 and every stream that it writes has a credit (R76), and the unit holds fewer strokes in flight than its depth (R64). -/
structure Due (s : State) (u : UnitId) (op : Nat) (b : BeatCtx) : Prop where
  beats : beatOf s u = some (b, s.unit u)
  opcode : b.word.op = op
  present : b.raw ≠ 0
  position : strokeDue b.ctl (s.unit u) = true
  parks : s.sched.parks = []
  cues : ∀ c < 8, natBit b.word.wait c = true → 1 ≤ (s.unit u).cues.getD c 0
  depth : (s.unit u).inflight.length < unitDepth (unitStave u)
  credit : streamCredit u op b s = true

/-- A control stroke of opcode `op` stands before unit `u`: ahead of the bar's own stroke for LOOP_BEGIN and SECTION, after it for
the others (R68). -/
structure CtlDue (s : State) (u : UnitId) (op : Nat) (b : BeatCtx) : Prop where
  beats : beatOf s u = some (b, s.unit u)
  opcode : b.ctl.op = op
  position : (s.unit u).beat = if op = 2 ∨ op = 5 then .control else .close

/-- What a stroke of core `c` leaves alone once it has fired (`t` is the state firing leaves): everything but memory and that core,
and of that core's units everything but the strokes they hold in flight. -/
def strokeFrame (c : Nat) (t r : State) : Prop :=
  r = { t with mem := r.mem, cores := r.cores } ∧ (∀ k, k ≠ c → r.core k = t.core k) ∧
  ∀ v, r.unit v = { t.unit v with inflight := (r.unit v).inflight }

/-- The stroke of key `key` at unit `u` is done. -/
def strokeDone (u : UnitId) (key : Nat) (s : State) : Prop := ∀ i ∈ (s.unit u).inflight, i.key = key → i.phase = .done

/-- The units of some cores take `n` steps on their streams, each the next of the first core that has one, and no strike pending. -/
inductive Flows (cores : List Nat) : Nat → State → State → Prop where
  | here (s : State) : Flows cores 0 s s
  | step {n : Nat} {s t r : State} {c : Nat} (found : cores.find? (fun k => (flowStep k s).isSome) = some c)
      (takes : flowStep c s = some t) (calm : strikePending s = false) (rest : Flows cores n t r) : Flows cores (n + 1) s r

/-! ## Flits -/

/-- A flit comes whole and in order at a port: the port receives flits, the CRC of the bytes holds, the bytes hold the flit (R295), and it is
the one that the port expects (R299). -/
structure Comes (p : Nat) (w : WireFlit) (f : Flit) (s : State) : Prop where
  live : portLive s p = true
  whole : crcHolds w.bytes = true
  reads : flitOf w.bytes = some f
  expected : f.seq = (s.port p).rxExpect

/-- `s` once such a flit has been taken: corrected codewords are counted (R343), the next sequence number is expected, and what the
header carries has been acted on (R299, R300). -/
def taken (p : Nat) (w : WireFlit) (f : Flit) (s : State) : State :=
  takeHeader p f ((countCorrected p w.corrected s).updPort p fun x => { x with rxExpect := f.seq + 1, nacking := false })

end Sys2Proof.Machine
end

