-- ==== Sys2Proof/WellFormed.lean ====
section
/-! DEFINITION. Which commands a sender can form: the checks on the operands of `Instr` that their types do not
already make (staves that hold a unit, lengths of readings and payloads, R60, R295, R445). -/
namespace Sys2Proof

/-- Core units lie on staves 1 to 11, chip units on staves 12 to 15 (R60). -/
def UnitId.wf : UnitId → Bool
  | .core _ v => decide (1 ≤ v.val) && decide (v.val ≤ 11)
  | .chip v => decide (12 ≤ v.val)

/-- An indirect block is at most 4,096 bytes (R390). -/
def Request.wf (r : Request) : Bool := decide (r.block.length ≤ 4096)

/-- A parameter block is at most 256 bytes (R395). -/
def Submission.wf (j : Submission) : Bool := decide (j.params.length ≤ 256)

/-- A slot holds at most 33,488,896 bytes of image (R482). -/
def FlashSlot.wf (f : FlashSlot) : Bool := decide (f.image.length ≤ 33488896)

/-- Roll call answers for 18 rail entries, four CAMM2 positions, sixteen ports and four segments (R464, R473). -/
def RollCall.wf (rc : RollCall) : Bool :=
  decide (rc.regulators.length = 18) && decide (rc.spd.length = 4) && decide (rc.modules.length = 16)
    && decide (rc.present.length = 4) && decide (rc.alert.length = 4) && decide (rc.stuck.length = 4)

/-- An identity names a port and four extents (R294). -/
def Identity.wf (i : Identity) : Bool := decide (i.port < 16) && decide (i.extents.length = 4)

/-- A flit is 256 bytes long (R295). -/
def WireFlit.wf (w : WireFlit) : Bool := decide (w.bytes.length = 256)

/-- The host trains at Gen1 to Gen7, at x4, x8 or x16 (R375). -/
def LinkPartner.wf (p : LinkPartner) : Bool :=
  decide (1 ≤ p.gen) && decide (p.gen ≤ 7) && (p.width == 4 || p.width == 8 || p.width == 16)

/-- The operands of the command are ones a sender can form. -/
def Instr.wf : Instr → Bool
  | .getInfo r | .getInventory r | .scoreLoad r | .scoreUnload r | .residentLoad r | .jobQueueCreate r
  | .jobQueueDestroy r | .jobCountRead r | .preemptPolicySet r | .stageSet r | .stageCheck r | .stageCommit r
  | .stageDiscard r | .tableLoad r | .memMapRead r | .memChannelRetire r | .memChannelMaintenance r
  | .memChannelRestore r | .memExercise r | .memExerciseStop r | .groupDefine r | .groupRelease r | .linkStatus r
  | .linkRetrain r | .codecSessionOpen r | .codecSessionClose r | .selftest r | .calibrate r | .attestQuote r
  | .identityRead r | .fwUpdateStage r | .fwUpdateActivate r | .powerPolicySet r | .telemetryRead r
  | .errorLogRead r => r.wf
  | .inventoryRescan r rc => r.wf && rc.wf
  | .jqSubDb _ _ subs => subs.all Submission.wf
  | .fwImageRead a b => a.wf && b.wf
  | .imageWindowStart _ _ image => decide (image.length ≤ 33488896)
  | .rollCall rc => rc.wf
  | .pePerstRelease p bar2 => p.wf && decide (30 ≤ bar2) && decide (bar2 ≤ 41)
  | .memTrainingDone _ rates => decide (rates.length = 128)
  | .rest u | .cue u | .bar u | .loopBegin u | .loopEnd u | .brk u | .sectionCtl u | .halt u | .fetchArrival u => u.wf
  | .strokeResume u _ | .strokeComplete u _ | .staveParityError u _ | .xferTimeout u _ => u.wf
  | .scratchParityError _ v | .residentParityError _ v => decide (1 ≤ v.val) && decide (v.val ≤ 11)
  | .memTempPoll temps => decide (temps.length = 28)
  | .identityExchange w who => w.wire.wf && who.wf
  | .idleFlitRx _ w | .sendFlitRx _ _ w | .collFlitRx _ w => w.wf
  | .linkCredit w _ | .linkNack w _ | .sendAck w _ _ | .clapUp w | .clapDown w | .clapAbortRequest w | .clapDecision w => w.wire.wf
  | .powerLoopTick _ projected => decide (projected.length = 5)
  | .railTelemetryPoll readings => decide (readings.length = 12)
  | .thermalSensorRead deci => decide (deci.length = 290)
  | .cmisStatusPoll modules => decide (modules.length = 16)
  | .fifoParityError _ domain => decide (domain < 325)
  | .portTrained _ rate => decide (1 ≤ rate) && decide (rate ≤ 3)
  | _ => true

end Sys2Proof
end

