-- ==== Sys2Proof/Certificates/Slice0/Obligations.lean ====
section
/-! DEFINITION. What this row claims of the model, statement by statement. The hypotheses of each are on the state and the
operands alone; a completion says what the next state holds. -/
open Sys2Proof Sys2Proof.Machine


/-! ## The block -/

/-- A step takes the command at the front of the queue and answers what `exec` answers on the rest (the row's cut). -/
def Obligations.StepRunsFrontCommand : Prop :=
  ∀ (c : Instr) (rest : List Instr) (s : State),
    step { s with pending := c :: rest } = exec c { s with pending := rest }

/-- No command stops the block: each answers a next state, and leaves the queue to the step. That a command given out
of turn changes nothing is the model's choice (log 1).

On an empty queue one microsecond of the reference counter passes and nothing else (the model's choice, log 2). -/
def Obligations.NoCommandStopsTheBlock : Prop :=
  (∀ (c : Instr) (s : State), nextWith (fun t => t.pending = s.pending) (exec c s)) ∧
  (∀ s : State, s.pending = [] → step s = .next { s with time := s.time + 1 })

/-- Every step keeps both memories in canonical form, from every state. -/
def Obligations.MemoriesStayCanonical : Prop :=
  ∀ s t : State, s.memForm → step s = .next t → t.memForm

/-- Every step keeps the sizes of the register files and slot tables, from every state. -/
def Obligations.RegisterFilesKeepTheirSizes : Prop :=
  ∀ s t : State, s.Sized → step s = .next t → t.Sized

/-- Every step keeps the error log within 4,096 entries, from every state (R528).

No step unblows a fuse or changes what is fused at manufacture (R2, R501). -/
def Obligations.LogFitsAndFusesStand : Prop :=
  (∀ s t : State, s.logFits → step s = .next t → t.logFits) ∧
  (∀ s t : State, step s = .next t → fusesStand s t)

/-- The state after reset meets the three invariants: both memories in canonical form, every register file of its size, the log within
its length.

What the spec's tables give for reset: interrupt status 0 and mask all ones for every function (R383, R387), the
staged settings (R422), the pre-emption policy (R417), the power policy (R442), an empty log whose first entry will be
1 (R528). -/
def Obligations.ResetMeetsTheInvariants : Prop :=
  State.reset.memForm ∧ State.reset.Sized ∧ State.reset.logFits ∧
  (∀ f ∈ State.reset.funcs, f.irqStatus = 0 ∧ f.irqMask = BitVec.allOnes 11 ∧ f.mailbox = none) ∧
  State.reset.staged.cur =
    { kvCacheFmt := 3, memClassWeights := 0x841, memSuspendLimit := 20, pealSendWeight := 4, pealXferTimeout := 10000,
      bar2Base := 0, featureEnable := 7 } ∧
  State.reset.preempt.breakWaitUs = 2000 ∧ State.reset.preempt.sliceUs = 1000 ∧ State.reset.preempt.evict = false ∧
  State.reset.preempt.swap = 1 ∧
  State.reset.power.windowMs = 10 ∧ State.reset.power.tjTarget = 100 ∧ State.reset.power.idleStop = true ∧
  State.reset.log.entries = [] ∧ State.reset.log.nextSeq = 1 ∧ State.reset.sec.quoteSeq = 0 ∧ State.reset.pending = []

/-- A run of bytes written to a memory in canonical form reads back, and every other byte reads as before.

A unit's write leaves every byte of a read-only range as it was (R96, R262, R412), and every byte outside the run. -/
def Obligations.MemoryIsWrittenWhereItMay : Prop :=
  (∀ (m : Memory) (a : Nat) (bs : List Byte), m.wf = true →
    (m.writeBytes a bs).wf = true ∧ (m.writeBytes a bs).readBytes a bs.length = bs ∧
    ∀ x, (x < a ∨ a + bs.length ≤ x) → (m.writeBytes a bs).read x = m.read x) ∧
  (∀ (s : State) (stave a : Nat) (bs : List Byte) (x : Nat), s.mem.wf = true →
    (hitsAny (readOnlyRanges s) x 1 = true ∨ x < a ∨ a + bs.length ≤ x) →
    (unitWrite stave s a bs).mem.read x = s.mem.read x)

/-! ## Amior calls -/

/-- GET_INFO, GET_INVENTORY without `RESCAN`, MEM_MAP_READ, TELEMETRY_READ without `CLEAR`, IDENTITY_READ and
LINK_STATUS without a retraining mask write their block to the host buffer and answer `OK`; nothing else changes. Of
LINK_STATUS and GET_INVENTORY, how the rows of one opcode divide is the model's choice (logs 5, 15).

TELEMETRY_READ with `CLEAR` from the PF zeroes the counters of every core after the block is written; a VF's `CLEAR`
is refused with `E_AUTH` (R450).

ATTEST_QUOTE puts its quote behind the bodies, batch statements and quotes that wait to be signed (R507, R514). When its turn
comes, BODY_SIGNED raises the quote sequence number by 1, writes the body with that number and the signature made for it, and the
call responds. The signature's bytes are free (log 9); that the body is formed then is the model's reading (log 119). -/
def Obligations.ReadingCallsWriteTheirBlock : Prop :=
  (∀ (r : Request) (m : Mailbox) (s : State),
    let ps := reqArgs r
    let a := arg ps 0 8
    (Served false true false r m s → aligned a 64 = true → zeroFrom ps 8 = true →
      exec (.getInfo r) s =
        .next (answered r m 0x01 .ok (packFields [(2, 1), (2, s.fw.ifRev.toNat), (2, 256)])
          (buffered a (infoRecord s r.fn.val) s))) ∧
    (Served false true false r m s → aligned a 64 = true → zeroFrom ps 8 = true →
      exec (.getInventory r) s = .next (answered r m 0x02 .ok 1024 (buffered a (inventoryBlock s) s))) ∧
    (Served false false false r m s → aligned a 64 = true → zeroFrom ps 8 = true →
      exec (.memMapRead r) s =
        .next (answered r m 0x50 .ok
          (packFields [(8, activeBytes s 0 96), (8, activeBytes s 96 32), (1, countState s .active), (1, countState s .maintenance),
                       (1, countState s .retired)])
          (buffered a (s.channels.flatMap channelEntry) s))) ∧
    (Served false true false r m s → aligned a 64 = true → zeroFrom ps 8 = true →
      exec (.telemetryRead r) s = .next (answered r m 0xB1 .ok 12288 (buffered a (telemetryBlock s) s))) ∧
    (Served false true false r m s → aligned a 64 = true → zeroFrom ps 8 = true →
      exec (.identityRead r) s =
        .next (answered r m 0x91 .ok (packFields [(32, digestHead (identityDigest s)), (2, 5440), (2, 3)])
          (buffered a (identityRecord s ++ aliasCert s) s))) ∧
    (Served false false false r m s → aligned a 64 = true → zeroFrom ps 8 = true →
      exec (.linkStatus r) s =
        .next (answered r m 0x62 .ok (linkResult s) (buffered a (s.fabric.ports.flatMap portEntry) s)))) ∧
  (∀ (r : Request) (m : Mailbox) (s : State), Served false true false r m s →
    let ps := reqArgs r
    aligned (arg ps 0 8) 64 = true → arg ps 8 1 = 1 → zeroFrom ps 9 = true →
      exec (.telemetryRead r) s =
        .next (if r.fn.val = 0 then
            answered r m 0xB1 .ok 12288 { buffered (arg ps 0 8) (telemetryBlock s) s with
              cores := s.cores.map fun k => { k with counters := CoreCounters.zero } }
          else answered r m 0xB1 .auth 0 s)) ∧
  (∀ (r : Request) (m : Mailbox) (s : State), Served false true false r m s →
    let ps := reqArgs r
    aligned (arg ps 0 8) 64 = true → zeroFrom ps 40 = true →
    exec (.attestQuote r) s =
      .next (nextTurn { awaiting r m s with
        sec := { s.sec with sign := s.sec.sign ++ [.quote r.fn.val r.tag (arg ps 0 8) (arg ps 8 32)] } })) ∧
  (∀ (fn : Nat) (tag : Word) (addr nonce : Nat) (rest : List SignItem) (s : State), s.sec.sign = .quote fn tag addr nonce :: rest →
    let seq := s.sec.quoteSeq + 1
    let body := quoteBody s fn seq (leBytes 32 nonce)
    let sig := fitBytes 3309 (Config.signature s.fresh (ascii "grx-quote") body)
    exec .bodySigned s =
      .next (nextTurn (respond fn tag 0x90 .ok seq
        { buffered addr (body ++ sig) s with sec := { s.sec with sign := rest, quoteSeq := seq }, fresh := s.fresh + 1 })))

/-- ERROR_LOG_READ returns, from `START` on and at most `MAX` of them, the entries that the function may read: all for
the PF, its own and the device's for a VF (R529, R530).

JOB_COUNT_READ answers the four counters of a function, the caller's own for 0xFF, and with `CLEAR` zeroes them; a VF
that names another function is refused with `E_AUTH`, and a function that is not enabled is refused with `E_INVALID`
(R421). -/
def Obligations.LogAndCountsAreRead : Prop :=
  (∀ (r : Request) (m : Mailbox) (s : State), Served false true false r m s →
    let ps := reqArgs r
    let most := arg ps 16 2
    aligned (arg ps 0 8) 64 = true → zeroFrom ps 18 = true → 1 ≤ most → most ≤ 1024 →
    let es := (s.log.entries.filter fun e =>
      (r.fn.val == 0 || e.fn == r.fn.val || e.fn == 0xFF) && decide (arg ps 8 8 ≤ e.seq)).take most
    let next := match es.getLast? with | some e => e.seq + 1 | none => arg ps 8 8
    let oldest := match s.log.entries with | [] => s.log.nextSeq | e :: _ => e.seq
    exec (.errorLogRead r) s =
      .next (answered r m 0xC0 .ok (packFields [(2, es.length), (2, 0), (8, next), (8, oldest), (4, s.log.lost)])
        (buffered (arg ps 0 8) (es.flatMap logEntryBytes) s))) ∧
  (∀ (r : Request) (m : Mailbox) (s : State), Served false false false r m s →
    let ps := reqArgs r
    let fn := if arg ps 0 1 = 0xFF then r.fn.val else arg ps 0 1
    let f := s.func fn
    zeroFrom ps 2 = true → arg ps 1 1 ≤ 1 →
    (¬ (r.fn.val = 0 ∨ fn = r.fn.val) → exec (.jobCountRead r) s = .next (answered r m 0x22 .auth 0 s)) ∧
    ((r.fn.val = 0 ∨ fn = r.fn.val) → (32 ≤ fn ∨ f.enabled = false) →
      exec (.jobCountRead r) s = .next (answered r m 0x22 .invalid 0 s)) ∧
    ((r.fn.val = 0 ∨ fn = r.fn.val) → fn < 32 → f.enabled = true →
      exec (.jobCountRead r) s =
        .next (answered r m 0x22 .ok
          (packFields [(8, f.submitted.toNat), (8, f.completed.toNat), (8, f.struck.toNat), (8, f.preempted.toNat)])
          (if arg ps 1 1 = 1 then
            { s with funcs := s.funcs.set fn { f with submitted := 0, completed := 0, struck := 0, preempted := 0 } }
          else s))))

/-- JOB_QUEUE_CREATE takes the lowest free queue of the client, both rings empty and the phase 1, and answers its
number; for a misaligned ring or reserved bytes it answers `E_INVALID`, else with all eight queues in use
`E_NO_RESOURCE`, else for a field out of range `E_INVALID`. That the free number is the lowest is the model's choice
(log 13); that a misaligned ring comes before a full table is its reading (log 14).

GROUP_DEFINE with its fields in range, the device itself a member and a slot free, defines the group unchecked with
the rank of the device and answers it; the same definition again answers the same slot and takes the new spill fields;
another definition of a defined tag is refused with `E_STATE`, a seventeenth group with `E_NO_RESOURCE`, and fields
out of range or a device that is no member with `E_INVALID`. That the free slot is the lowest is the model's choice
(log 13); so is what a spill address of 0 means (log 37).

What a group keeps of its definition: its tag, its rank order and the coordinates of its ranks (R315); a group defined
is unchecked, and its next sequence number is 1 (R317). -/
def Obligations.QueuesAndGroupsAreMade : Prop :=
  (∀ (r : Request) (m : Mailbox) (s : State), Served false false false r m s →
    let ps := reqArgs r
    let f := s.func r.fn.val
    let sizes := arg ps 0 8 % 4096 = 0 ∧ arg ps 8 8 % 4096 = 0 ∧ ringSizeOk (arg ps 16 2) = true ∧ ringSizeOk (arg ps 18 2) = true
    let made : JobQueue :=
      { subBase := arg ps 0 8, cmpBase := arg ps 8 8, subEntries := arg ps 16 2, cmpEntries := arg ps 18 2,
        priority := arg ps 20 1, subTail := 0, unposted := 0, cmpWrite := 0, cmpUnreleased := 0, cmpPhase := true, held := [] }
    (∀ q, zeroFrom ps 21 = true → sizes → arg ps 20 1 ≤ 3 → freeSlot f.queues = some q →
      exec (.jobQueueCreate r) s =
        .next (answered r m 0x20 .ok q
          { s with funcs := s.funcs.set r.fn.val { f with queues := f.queues.set q (some made) } })) ∧
    (zeroFrom ps 21 = true → arg ps 0 8 % 4096 = 0 → arg ps 8 8 % 4096 = 0 → freeSlot f.queues = none →
      exec (.jobQueueCreate r) s = .next (answered r m 0x20 .noResource 0 s)) ∧
    (zeroFrom ps 21 = false ∨ ¬ arg ps 0 8 % 4096 = 0 ∨ ¬ arg ps 8 8 % 4096 = 0 ∨
        ((freeSlot f.queues).isSome = true ∧ ¬ (sizes ∧ arg ps 20 1 ≤ 3)) →
      exec (.jobQueueCreate r) s = .next (answered r m 0x20 .invalid 0 s))) ∧
  (∀ (r : Request) (m : Mailbox) (s : State), Served true false false r m s →
    let ps := reqArgs r
    let formed := zeroAt ps 18 2 = true ∧ zeroFrom ps 40 = true ∧ groupBad s ps = false
    let tag := arg ps 0 4
    (∀ k i, formed → (List.range (groupSize ps)).find? (fun k => groupMember s ps k == s.self) = some k →
      groupSlot s tag = none → freeSlot s.groups = some i →
      exec (.groupDefine r) s =
        .next (answered r m 0x60 .ok (groupResult i (groupOf s ps k))
          { s with groups := s.groups.set i (some (groupOf s ps k)) })) ∧
    (∀ k i g, formed → (List.range (groupSize ps)).find? (fun k => groupMember s ps k == s.self) = some k →
      groupSlot s tag = some i → slotAt s.groups i = some g → g.defn ≠ BitVec.ofNat 192 (ofLe (ps.take 24)) →
      exec (.groupDefine r) s = .next (answered r m 0x60 .state 0 s)) ∧
    (∀ k i g, formed → (List.range (groupSize ps)).find? (fun k => groupMember s ps k == s.self) = some k →
      groupSlot s tag = some i → slotAt s.groups i = some g → g.defn = BitVec.ofNat 192 (ofLe (ps.take 24)) →
      exec (.groupDefine r) s =
        .next (answered r m 0x60 .ok (groupResult i (groupOf s ps k))
          { s with groups := s.groups.set i (some { g with
            spillAddr := arg ps 24 8, spillSize := if arg ps 24 8 = 0 then 0 else arg ps 32 8 }) })) ∧
    (∀ k, formed → (List.range (groupSize ps)).find? (fun k => groupMember s ps k == s.self) = some k →
      groupSlot s tag = none → freeSlot s.groups = none →
      exec (.groupDefine r) s = .next (answered r m 0x60 .noResource 0 s)) ∧
    (¬ formed ∨ (List.range (groupSize ps)).find? (fun k => groupMember s ps k == s.self) = none →
      exec (.groupDefine r) s = .next (answered r m 0x60 .invalid 0 s))) ∧
  (∀ (s : State) (ps : List Byte) (k : Nat), let g := groupOf s ps k
    g.rank = k ∧ g.size = groupSize ps ∧ g.members.length = groupSize ps ∧ g.checked = false ∧ g.nextSeq = 1 ∧ g.colls = [] ∧
    g.timeoutUs = (if arg ps 20 4 = 0 then 20000 else arg ps 20 4))

/-- SCORE_LOAD of an image that fails no check takes the lowest free handle for the caller and answers it; a failed
check is answered with `E_VERIFY` and the report of the lowest check; with no handle free it answers `E_NO_RESOURCE`,
and for a range that is unaligned or not free mapped memory `E_INVALID`. That the free handle is the lowest is the
model's choice (log 13).

CODEC_SESSION_OPEN with its fields and context in order takes the lowest free session and answers it with the bytes
its context needs; a context too small, or no session free, is refused with `E_NO_RESOURCE` and that number, and a
field or a context out of order with `E_INVALID`. That the free session is the lowest is the model's choice (log 13);
the lists of level codes are presumed (log 19).

CODEC_SESSION_CLOSE frees a session of the caller that no live job names, answers `E_BUSY` for one that such a job
names, and `E_INVALID` for a handle that the caller does not hold. -/
def Obligations.ScoresLoadAndSessionsOpen : Prop :=
  (∀ (r : Request) (m : Mailbox) (s : State), Served false false false r m s →
    let ps := reqArgs r
    let a := arg ps 0 8
    let n := arg ps 8 8
    let loads := zeroFrom ps 16 = true ∧ a % 256 = 0 ∧ memoryFree s a n = true
    (∀ h, loads → freeSlot s.scores = some h → loadFault s a n = none →
      exec (.scoreLoad r) s =
        .next (answered r m 0x10 .ok h
          { s with scores := s.scores.set h
                     (some { fn := r.fn.val, addr := a, size := n, digest := shake256 (s.mem.readBytes a n), struck := false }) })) ∧
    (∀ h v, loads → freeSlot s.scores = some h → loadFault s a n = some v →
      exec (.scoreLoad r) s = .next (answered r m 0x10 .verify v.number s)) ∧
    (loads → freeSlot s.scores = none → exec (.scoreLoad r) s = .next (answered r m 0x10 .noResource 0 s)) ∧
    (¬ loads → exec (.scoreLoad r) s = .next (answered r m 0x10 .invalid 0 s))) ∧
  (∀ (r : Request) (m : Mailbox) (s : State), Served false false false r m s →
    let ps := reqArgs r
    let x := sessionOf r.fn.val ps
    let need := ctxNeeded x.decode x.codec x.bitDepth x.width x.height (arg ps 15 1)
    let formed := zeroAt ps 19 1 = true ∧ zeroFrom ps 48 = true ∧ sessionFieldsOk ps = true ∧
      contextBad s x.ctxAddr x.ctxSize = false
    let c := s.codec
    (∀ h, formed → freeSlot c.sessions = some h → need ≤ x.ctxSize →
      exec (.codecSessionOpen r) s =
        .next (answered r m 0x70 .ok (packFields [(4, h), (8, need)])
          { s with codec := { c with sessions := c.sessions.set h (some x) } })) ∧
    (formed → (freeSlot c.sessions = none ∨ x.ctxSize < need) →
      exec (.codecSessionOpen r) s = .next (answered r m 0x70 .noResource (packFields [(4, 0), (8, need)]) s)) ∧
    (¬ formed → exec (.codecSessionOpen r) s = .next (answered r m 0x70 .invalid 0 s))) ∧
  (∀ (r : Request) (m : Mailbox) (s : State), Served false false false r m s →
    let ps := reqArgs r
    let c := s.codec
    let named := ∃ j ∈ s.sched.jobs, j.stage ≠ .recorded ∧ namesSession s j (arg ps 0 1) = true
    let forget (e : EngineState) : EngineState := if e.lastServed = some (arg ps 0 1) then { e with lastServed := none, loaded := none } else e
    (∀ y, zeroFrom ps 1 = true → s.session (arg ps 0 1) = some y → y.fn = r.fn.val → ¬ named →
      exec (.codecSessionClose r) s =
        .next (answered r m 0x71 .ok 0
          { s with codec := { sessions := c.sessions.set (arg ps 0 1) none, encoder := forget c.encoder,
                              decoder := forget c.decoder } })) ∧
    (∀ y, zeroFrom ps 1 = true → s.session (arg ps 0 1) = some y → y.fn = r.fn.val → named →
      exec (.codecSessionClose r) s = .next (answered r m 0x71 .busy 0 s)) ∧
    (∀ y, zeroFrom ps 1 = true → s.session (arg ps 0 1) = some y → y.fn ≠ r.fn.val →
      exec (.codecSessionClose r) s = .next (answered r m 0x71 .invalid 0 s)) ∧
    (zeroFrom ps 1 = true → s.session (arg ps 0 1) = none →
      exec (.codecSessionClose r) s = .next (answered r m 0x71 .invalid 0 s)))

/-- JOB_QUEUE_DESTROY frees a queue without unposted jobs, answers `E_BUSY` for one with such jobs and `E_INVALID` for
a queue that does not exist.

SCORE_UNLOAD frees the handle of its own score that no job of the caller uses, answers `E_BUSY` while one uses it, and `E_INVALID`
for a handle that the caller does not hold.

GROUP_RELEASE frees a group that no score names and that runs nothing, answers `E_STATE` for one that a score names or
that runs a collective, and `E_INVALID` for an unknown tag. -/
def Obligations.ObjectsAreReleased : Prop :=
  (∀ (r : Request) (m : Mailbox) (s : State), Served false false false r m s →
    let ps := reqArgs r
    let f := s.func r.fn.val
    (∀ k, zeroFrom ps 1 = true → s.queue r.fn.val (arg ps 0 1) = some k → k.unposted = 0 →
      exec (.jobQueueDestroy r) s =
        .next (answered r m 0x21 .ok 0
          { s with funcs := s.funcs.set r.fn.val { f with queues := f.queues.set (arg ps 0 1) none } })) ∧
    (∀ k, zeroFrom ps 1 = true → s.queue r.fn.val (arg ps 0 1) = some k → 0 < k.unposted →
      exec (.jobQueueDestroy r) s = .next (answered r m 0x21 .busy 0 s)) ∧
    (zeroFrom ps 1 = true → s.queue r.fn.val (arg ps 0 1) = none →
      exec (.jobQueueDestroy r) s = .next (answered r m 0x21 .invalid 0 s))) ∧
  (∀ (r : Request) (m : Mailbox) (s : State), Served false false false r m s →
    let ps := reqArgs r
    let mine := ∃ x, s.score (arg ps 0 2) = some x ∧ x.fn = r.fn.val
    let used := ∃ j ∈ s.sched.jobs, j.handle = arg ps 0 2 ∧ j.fn = r.fn.val
    (zeroFrom ps 2 = true → mine → ¬ used →
      exec (.scoreUnload r) s = .next (answered r m 0x11 .ok 0 { s with scores := s.scores.set (arg ps 0 2) none })) ∧
    (zeroFrom ps 2 = true → mine → used → exec (.scoreUnload r) s = .next (answered r m 0x11 .busy 0 s)) ∧
    (zeroFrom ps 2 = true → ¬ mine → exec (.scoreUnload r) s = .next (answered r m 0x11 .invalid 0 s))) ∧
  (∀ (r : Request) (m : Mailbox) (s : State), Served true false false r m s →
    let ps := reqArgs r
    let tag := arg ps 0 4
    (∀ i g, zeroFrom ps 4 = true → groupSlot s tag = some i → s.group tag = some g → g.colls = [] →
      scoreWhere s (fun a => (scGroups s.mem a).contains tag) = none →
      exec (.groupRelease r) s = .next (answered r m 0x61 .ok 0 { s with groups := s.groups.set i none })) ∧
    (∀ i g, zeroFrom ps 4 = true → groupSlot s tag = some i → s.group tag = some g →
      (g.colls ≠ [] ∨ (scoreWhere s (fun a => (scGroups s.mem a).contains tag)).isSome = true) →
      exec (.groupRelease r) s = .next (answered r m 0x61 .state 0 s)) ∧
    (zeroFrom ps 4 = true → groupSlot s tag = none → exec (.groupRelease r) s = .next (answered r m 0x61 .invalid 0 s)))

/-- STAGE_SET of the PF puts its one to three entries into the pending set and answers its size; a VF is refused with
`E_AUTH`; an unknown setting, a value out of range, a count out of range or a reserved byte is refused with
`E_INVALID`, and nothing of the call is added; while a commit waits it answers `E_BUSY`.

A pending set stays in ascending ID with one entry for each, and the entry staged last stands (R424). -/
def Obligations.SettingsJoinThePendingSet : Prop :=
  (∀ (r : Request) (m : Mailbox) (s : State), Served false false false r m s →
    let ps := reqArgs r
    let n := arg ps 0 1
    let entries := (List.range n).map fun e => (arg ps (8 + 16 * e) 2, arg ps (16 + 16 * e) 8)
    let zeros := zeroAt ps 1 7 = true ∧ zeroAt ps 10 6 = true ∧ zeroAt ps 26 6 = true ∧ zeroAt ps 42 6 = true
    let formed := zeros ∧ 1 ≤ n ∧ n ≤ 3 ∧ zeroFrom ps (8 + 16 * n) = true ∧ ∀ e ∈ entries, settingOk s e.1 e.2 = true
    (r.fn.val ≠ 0 → zeros → zeroFrom ps 56 = true → exec (.stageSet r) s = .next (answered r m 0x30 .auth 0 s)) ∧
    (r.fn.val = 0 → ¬ formed → exec (.stageSet r) s = .next (answered r m 0x30 .invalid 0 s)) ∧
    (r.fn.val = 0 → formed → s.staged.commit.isSome = true → exec (.stageSet r) s = .next (answered r m 0x30 .busy 0 s)) ∧
    (r.fn.val = 0 → formed → s.staged.commit = none →
      let pending := entries.foldl (fun acc e => insertSetting e.1 e.2 acc) s.staged.pending
      exec (.stageSet r) s =
        .next (answered r m 0x30 .ok pending.length { s with staged := { s.staged with pending := pending } }))) ∧
  (∀ (id v : Nat) (l : List (Nat × Nat)), l.Pairwise (fun a b => a.1 < b.1) →
    (insertSetting id v l).Pairwise (fun a b => a.1 < b.1) ∧
    ∀ p, p ∈ insertSetting id v l ↔ (p = (id, v) ∨ (p ∈ l ∧ p.1 ≠ id)))

/-- The staged settings: STAGE_CHECK answers `OK` or the first conflict; STAGE_COMMIT without conflict waits for its
downbeat, with a conflict answers it and with a commit waiting answers `E_BUSY`; STAGE_DISCARD empties the pending
set, and a commit that waits then responds `E_STATE` (R426). None changes a setting in force. That a conflict comes before a waiting commit is the model's reading (log 36). -/
def Obligations.SettingsAreStaged : Prop :=
  ∀ (r : Request) (m : Mailbox) (s : State), Served true false false r m s →
    let ps := reqArgs r
    let drain := arg ps 0 1 = 1
    let flags := arg ps 0 1 ≤ 1 ∧ zeroFrom ps 1 = true
    (flags → stageFault s drain = none → exec (.stageCheck r) s = .next (answered r m 0x31 .ok 0 s)) ∧
    (∀ f, flags → stageFault s drain = some f →
      exec (.stageCheck r) s = .next (answered r m 0x31 .consistency f.number s)) ∧
    (flags → stageFault s drain = none → s.staged.commit = none →
      exec (.stageCommit r) s =
        .next (settle (nextTurn
          { awaiting r m s with staged := { s.staged with commit := some { tag := r.tag, drain := drain } } }))) ∧
    (∀ f, flags → stageFault s drain = some f →
      exec (.stageCommit r) s = .next (settle (answered r m 0x32 .consistency f.number s))) ∧
    (flags → stageFault s drain = none → s.staged.commit.isSome = true →
      exec (.stageCommit r) s = .next (settle (answered r m 0x32 .busy 0 s))) ∧
    (zeroFrom ps 0 = true → s.staged.commit = none →
      exec (.stageDiscard r) s = .next (settle (answered r m 0x33 .ok 0 { s with staged := { s.staged with pending := [] } }))) ∧
    (∀ c, zeroFrom ps 0 = true → s.staged.commit = some c →
      exec (.stageDiscard r) s = .next (settle (nextTurn (respond 0 r.tag 0x33 .ok 0 (respond 0 c.tag 0x32 .state 0
        { awaiting r m s with staged := { s.staged with pending := [], commit := none } })))))

/-- TABLE_LOAD and RESIDENT_LOAD. A table load whose slot is empty or holds another image waits for its downbeat, a load of ID 0, which
empties the slot, among them; it answers `E_CONSISTENCY` where another ID would take away one that a loaded score names, and `E_BUSY`
where a load of the slot waits, or an active job uses the table and the call does not say to drain. One that names
the image in force answers its digest at once; an ID that another slot holds is refused (R185, R190 to R192). A
resident load whose header keeps R259 waits to be copied; one that follows another that waits answers `E_BUSY`, and
under the `NEVER` policy with an active job `E_STATE` (R260, R415). When the digest is taken and when an ID counts as
held are the model's reading (logs 29, 35). -/
def Obligations.ImageLoadsWait : Prop :=
  ∀ (r : Request) (m : Mailbox) (s : State), Served true false false r m s →
    let ps := reqArgs r
    let a := arg ps 0 8
    let n := arg ps 8 8
    let slot := arg ps 0 1
    let id := arg ps 1 1
    let formed := arg ps 2 2 ≤ 1 ∧ zeroAt ps 4 4 = true ∧ zeroFrom ps 16 = true
    let fits := zeroFrom ps 16 = true ∧ a % 256 = 0 ∧ 1024 ≤ n ∧ memoryFree s a n = true ∧ residentHeaderOk s a n = true
    let image : ResidentImage := { addr := a, size := n, digest := shake256 (s.mem.readBytes a n), bounds := imageBounds s.mem a }
    let named (i : Nat) : Prop := (scoreWhere s fun x => usesTable s.mem x i).isSome = true
    let inUse (i : Nat) : Prop := ∃ j ∈ s.sched.jobs, j.active = true ∧ usesTable s.mem (s.scoreAddr j) i = true
    let waits (t : TableSlot) (image : Option TableImage) : Prop :=
      let l : TableLoad := { fn := r.fn.val, tag := r.tag, image := image, drain := arg ps 2 2 = 1 }
      exec (.tableLoad r) s = .next (settle (nextTurn { awaiting r m s with tables := s.tables.set slot { t with load := some l } }))
    (∀ t i, formed → s.tables[slot]? = some t → t.cur = none → t.load = none → tableImageOf s id (arg ps 8 8) = some (some i) →
      heldElsewhere s slot id = false → waits t (some i)) ∧
    (∀ t c image, formed → s.tables[slot]? = some t → t.cur = some c → t.load = none → tableImageOf s id (arg ps 8 8) = some image →
      heldElsewhere s slot id = false → image.map (·.digest) ≠ some c.digest → (id = c.id ∨ ¬ named c.id) →
      (arg ps 2 2 = 1 ∨ ¬ inUse c.id) → waits t image) ∧
    (∀ t c image, formed → s.tables[slot]? = some t → t.cur = some c → c.id ≠ 0 → tableImageOf s id (arg ps 8 8) = some image →
      heldElsewhere s slot id = false → id ≠ c.id → named c.id →
      exec (.tableLoad r) s = .next (settle (answered r m 0x40 .consistency 0 s))) ∧
    (∀ t c image, formed → s.tables[slot]? = some t → t.cur = some c → c.id ≠ 0 → tableImageOf s id (arg ps 8 8) = some image →
      heldElsewhere s slot id = false → (id = c.id ∨ ¬ named c.id) → (t.load.isSome = true ∨ (arg ps 2 2 = 0 ∧ inUse c.id)) →
      exec (.tableLoad r) s = .next (settle (answered r m 0x40 .busy 0 s))) ∧
    (∀ t i, formed → s.tables[slot]? = some t → t.cur = some i → t.load = none → i.id ≠ 0 → i.id = id →
      tableImageOf s id (arg ps 8 8) = some (some i) → heldElsewhere s slot id = false →
      (arg ps 2 2 = 1 ∨ s.sched.jobs = []) →
      exec (.tableLoad r) s = .next (settle (answered r m 0x40 .ok (digestHead i.digest) s))) ∧
    (∀ t i, formed → s.tables[slot]? = some t → tableImageOf s id (arg ps 8 8) = some i → heldElsewhere s slot id = true →
      exec (.tableLoad r) s = .next (settle (answered r m 0x40 .invalid 0 s))) ∧
    (fits → s.resident.load = none → (s.preempt.swap ≠ 0 ∨ s.sched.jobs = []) →
      exec (.residentLoad r) s =
        .next (settle (nextTurn { awaiting r m s with
          resident := { s.resident with load := some { fn := r.fn.val, tag := r.tag, image := image } } }))) ∧
    (fits → s.resident.load.isSome = true → exec (.residentLoad r) s = .next (settle (answered r m 0x12 .busy 0 s))) ∧
    (fits → s.resident.load = none → s.preempt.swap = 0 → (∃ j ∈ s.sched.jobs, j.stage ≠ .queued) →
      exec (.residentLoad r) s = .next (settle (answered r m 0x12 .state 0 s)))

/-- SELFTEST and CALIBRATE of named idle targets begin at once; while another test waits or runs they answer `E_BUSY`;
a mask or target out of range is refused; with `DEFER`, targets in use wait for their break (R490, R492, R493). Which
masks are out of range is the model's reading (log 46). -/
def Obligations.TestsBeginOnIdleTargets : Prop :=
  ∀ (calibrate : Bool) (r : Request) (m : Mailbox) (s : State), Served true false true r m s →
    let ps := reqArgs r
    let target := arg ps 0 1
    let mask := arg ps 8 (if calibrate then 4 else 32)
    let x : Test := { fn := r.fn.val, tag := r.tag, calibrate := calibrate, target := target, mask := BitVec.ofNat 256 mask,
                      running := false }
    let c := if calibrate then Instr.calibrate r else Instr.selftest r
    let op := if calibrate then 0x81 else 0x80
    let formed := zeroAt ps 1 7 = true ∧ zeroFrom ps (if calibrate then 12 else 40) = true
    let inRange := target ≤ (if calibrate then 1 else 3) ∧ mask < 2 ^ maskBits calibrate target
    (formed → ¬ inRange → exec c s = .next (answered r m op .invalid 0 s)) ∧
    (formed → inRange → s.test.isSome = true → exec c s = .next (answered r m op .busy 0 s)) ∧
    (formed → inRange → s.test = none → (∀ i ∈ namedBits x.mask, targetIdle s calibrate target i = true ∧
        neverIdle s calibrate target i = false) →
      exec c s = .next (nextTurn (beginTest x (awaiting r m s)))) ∧
    (formed → inRange → s.test = none → (∀ i ∈ namedBits x.mask, neverIdle s calibrate target i = false) →
      (∃ i ∈ namedBits x.mask, targetIdle s calibrate target i = false) → reqDefer r = true →
      (∃ j ∈ s.sched.jobs, j.stage ≠ .queued) →
      exec c s = .next (nextTurn { awaiting r m s with test := some x }))

/-- FW_UPDATE_STAGE of a mapped image waits for its staging, one at a time; without a booted slot it answers `E_STATE`
(R498). FW_UPDATE_ACTIVATE marks the staged slot valid and answers; with `NOW`, and no active job, the device then
resets itself into the new image; with nothing staged it answers `E_STATE` (R499). What an activation keeps, and the
status without a booted slot, are the model's reading (logs 61, 65).

FW_STAGING_DONE answers the staging: an image that is mapped and passes R503 is written to the slot that did not boot
with the next sequence number and the mark of a staged image; another is refused with `E_AUTH` and leaves the flash as
it is (R498). Whether a signature verifies is free (log 9). The status of an image that has left the map is the
model's reading (log 65). An image on a suspended channel waits (R284).

SV_COUNTER_RISE blows fuses in ascending order until the counter is the running image's security version, when that
image asks for it and the firmware is `READY`; at any other time it blows none (R501). -/
def Obligations.FirmwareIsStagedAndActivated : Prop :=
  (∀ (r : Request) (m : Mailbox) (s : State), Served true true false r m s →
    let ps := reqArgs r
    let fits := zeroFrom ps 16 = true ∧ arg ps 0 8 % 256 = 0 ∧ mapped s (arg ps 0 8) (arg ps 8 8) = true ∧
      arg ps 8 8 ≤ 33488896
    let formed := arg ps 0 1 ≤ 1 ∧ zeroFrom ps 1 = true
    let valid (i : Nat) : State := answered r m 0xA1 .ok 0 (markSlot i s)
    (fits → s.fw.bootSlot.isSome = true → s.fw.staging = none →
      exec (.fwUpdateStage r) s =
        .next (nextTurn { awaiting r m s with
          fw := { s.fw with staging := some { fn := r.fn.val, tag := r.tag, addr := arg ps 0 8, size := arg ps 8 8 } } })) ∧
    (fits → s.fw.bootSlot.isSome = true → s.fw.staging.isSome = true →
      exec (.fwUpdateStage r) s = .next (answered r m 0xA0 .busy 0 s)) ∧
    (fits → s.fw.bootSlot = none → exec (.fwUpdateStage r) s = .next (answered r m 0xA0 .state 0 s)) ∧
    (∀ i, formed → arg ps 0 1 = 0 → stagedSlot s = some i → exec (.fwUpdateActivate r) s = .next (valid i)) ∧
    (∀ i, formed → arg ps 0 1 = 1 → stagedSlot s = some i → (∀ j ∈ s.sched.jobs, j.stage = .queued) →
      exec (.fwUpdateActivate r) s = .next (activationReset i (valid i))) ∧
    (formed → stagedSlot s = none → exec (.fwUpdateActivate r) s = .next (answered r m 0xA1 .state 0 s))) ∧
  (∀ (x : Staging) (s : State), s.fw.staging = some x → onSuspended s [(x.addr, x.size)] = true → exec .fwStagingDone s = .next s) ∧
  (∀ (x : Staging) (s : State), s.fw.staging = some x → onSuspended s [(x.addr, x.size)] = false →
    let image := s.mem.readBytes x.addr x.size
    let good := mapped s x.addr x.size = true ∧ imageOk s.fuses.svBlown image = true
    let slot := if s.fw.bootSlot = some 0 then 1 else 0
    let seq := ((s.fw.flash.getD (1 - slot) emptySlot).seq + 1) % 2 ^ 32
    let put : FlashSlot := { seq := seq, mark := 0x53544744, image := image }
    exec .fwStagingDone s = .next
      (if good then respond x.fn x.tag 0xA0 .ok (stagingResult slot seq image)
          { s with fw := { s.fw with staging := none, flash := s.fw.flash.set slot put } }
        else respond x.fn x.tag 0xA0 .auth 0 { s with fw := { s.fw with staging := none } })) ∧
  (∀ s : State,
    (s.fw.state = .ready → s.fw.commitSv = true → s.fuses.svBlown < s.fw.imageSv →
      exec .svCounterRise s =
        .next { s with fuses := { s.fuses with svBlown := s.fw.imageSv },
                       out := s.out ++ (rangeFrom s.fuses.svBlown (s.fw.imageSv - s.fuses.svBlown)).map fun n => .fuse n }) ∧
    (¬ (s.fw.state = .ready ∧ s.fw.commitSv = true ∧ s.fuses.svBlown < s.fw.imageSv) → exec .svCounterRise s = .next s))

/-- MEM_CHANNEL_RETIRE takes a channel out of service, MEM_CHANNEL_MAINTENANCE an active one that is not in use or
with `FORCE`, and MEM_CHANNEL_RESTORE brings back a channel whose full test passed, its contents undefined; each
answers the state the channel has then. A channel in use is kept from maintenance without `FORCE`, and one that has
not passed is not restored (R278, R279, R281, R287). How the rows divide is the model's choice (log 15), and what a
retirement meets its reading (logs 38, 39).

A channel that leaves the active state, by retirement or maintenance, is left in the state it goes to; a restored one
is active and every byte of its populated range is undefined; nothing but the channels of its position, their domain, that range and
the inventory's status of the position, which is 1, changes when it is restored, and no state of another channel (R278, R281, R431,
R488). The channels of a position whose domain was on are left as they are; one that was off trains anew (R432). -/
def Obligations.ChannelsChangeTheirState : Prop :=
  (∀ (r : Request) (m : Mailbox) (s : State), Served true false false r m s →
    let ps := reqArgs r
    let ch := arg ps 0 1
    let formed := arg ps 2 2 ≤ 1 ∧ zeroFrom ps 4 = true ∧ ch < 128 ∧ (s.chan ch).state ≠ .absent
    let op := arg ps 1 1
    (formed → op = 0 →
      exec (.memChannelRetire r) s =
        .next (settle (nextTurn (respond r.fn.val r.tag 0x51 .ok ((retireChan ch (awaiting r m s)).chan ch).state.code
          (retireChan ch (awaiting r m s)))))) ∧
    (formed → op = 1 → (s.chan ch).state = .active → (s.chan ch).run = none →
      (arg ps 2 2 = 1 ∨ chanInUse s ch = false) →
      exec (.memChannelMaintenance r) s =
        .next (settle (nextTurn (respond r.fn.val r.tag 0x51 .ok ((leaveActive ch .maintenance (awaiting r m s)).chan ch).state.code
          (leaveActive ch .maintenance (awaiting r m s)))))) ∧
    (formed → op = 1 → (s.chan ch).state = .active → arg ps 2 2 = 0 → chanInUse s ch = true →
      exec (.memChannelMaintenance r) s = .next (settle (answered r m 0x51 .consistency 0 s))) ∧
    (formed → op = 2 → (s.chan ch).state ≠ .active → (s.chan ch).fullPass = true → (s.chan ch).run = none →
      exec (.memChannelRestore r) s =
        .next (settle (answered r m 0x51 .ok ((restoreChan ch s).chan ch).state.code (restoreChan ch s)))) ∧
    (formed → op = 2 → ((s.chan ch).state = .active ∨ (s.chan ch).fullPass = false) →
      exec (.memChannelRestore r) s = .next (settle (answered r m 0x51 .state 0 s)))) ∧
  (∀ (s : State) (ch : Nat), ch < s.channels.length →
    ((s.chan ch).state = .active → ((retireChan ch s).chan ch).state = .retired) ∧
    ((s.chan ch).state = .active → ((leaveActive ch .maintenance s).chan ch).state = .maintenance) ∧
    ((s.chan ch).state = .maintenance → ((retireChan ch s).chan ch).state = .retired) ∧
    ((restoreChan ch s).chan ch).state = .active ∧
    (∀ c, c ≠ ch → ((restoreChan ch s).chan c).state = (s.chan c).state) ∧
    (∀ c, c ≠ ch → chanPos c ≠ chanPos ch ∨ (s.power.domains.getD (272 + chanPos ch) Domain.offDomain).state ≠ .off →
      (restoreChan ch s).chan c = s.chan c) ∧
    (∀ x, (x < chanBase ch ∨ chanBase ch + (s.chan ch).bytes ≤ x) → (restoreChan ch s).mem.read x = s.mem.read x) ∧
    (∀ x, chanBase ch ≤ x → x < chanBase ch + (s.chan ch).bytes → (restoreChan ch s).mem.read x = Config.freeByte s.fresh x) ∧
    restoreChan ch s = { s with channels := (restoreChan ch s).channels, mem := (restoreChan ch s).mem, fresh := s.fresh + 1,
                                power := { s.power with domains := (restoreChan ch s).power.domains },
                                inv := { s.inv with
                                  gddrStatus := if chanPos ch < 24 then s.inv.gddrStatus.set (chanPos ch) 1 else s.inv.gddrStatus,
                                  cammStatus := if chanPos ch < 24 then s.inv.cammStatus
                                    else s.inv.cammStatus.set (chanPos ch - 24) 1 } })

/-- MEM_EXERCISE of a channel out of service starts one exerciser, whose answer comes with its end; a second start is
refused with `E_BUSY`, as is a channel that is active or absent, and a field out of range with `E_INVALID`.
MEM_EXERCISE_STOP marks the running exerciser to end with outcome 2; with none running it is refused.
MEM_EXERCISE_DONE answers the start, and the exercised range is undefined (R287 to R290). How the rows divide is the
model's choice (log 15).

MEM_EXERCISE_DONE ends the exerciser of its channel and posts the answer of the call that started it; its outcome is that of a stop
or of exhausted retries where one is due, else 1 where the bursts that the run's pattern reads met a mismatch and 0 where they met
none; the exercised range is undefined and the channel may be restored only after outcome 0 (R288 to R290). What the bursts met is
an operand (log 78). A run whose channel is suspended, or pauses for its training, and that no stop ends waits (R284). -/
def Obligations.ExercisersRunOneAtATime : Prop :=
  (∀ (r : Request) (m : Mailbox) (s : State), Served true false false r m s →
    let ps := reqArgs r
    let ch := arg ps 0 1
    let c := s.chan ch
    let formed := arg ps 6 2 ≤ 1 ∧ zeroFrom ps 40 = true ∧ ch < 128
    let resting := c.state = .maintenance ∨ c.state = .retired
    let run : ExerciserRun :=
      { fn := r.fn.val, tag := r.tag, ending := none, addrPat := arg ps 2 1, dataPat := arg ps 3 1, mix := arg ps 4 1,
        writePct := arg ps 5 1, stopOnError := arg ps 6 2 == 1, rangeOfs := arg ps 8 8, rangeLen := arg ps 16 8,
        passes := arg ps 24 4, stride := arg ps 28 4, seed := arg ps 32 8 }
    (formed → arg ps 1 1 = 0 → resting → c.run = none → exerciseBad c ps = false →
      exec (.memExercise r) s =
        .next (nextTurn { awaiting r m s with channels := s.channels.set ch { c with run := some run, fullPass := false } })) ∧
    (formed → arg ps 1 1 = 0 → resting → exerciseBad c ps = true →
      exec (.memExercise r) s = .next (answered r m 0x52 .invalid 0 s)) ∧
    (¬ formed → exec (.memExercise r) s = .next (answered r m 0x52 .invalid 0 s)) ∧
    (formed → arg ps 1 1 = 0 → resting → c.run.isSome = true → exerciseBad c ps = false →
      exec (.memExercise r) s = .next (answered r m 0x52 .busy 0 s)) ∧
    (formed → (c.state = .active ∨ c.state = .absent) → exec (.memExercise r) s = .next (answered r m 0x52 .busy 0 s)) ∧
    (∀ x, formed → arg ps 1 1 = 1 → resting → c.run = some x →
      exec (.memExerciseStop r) s =
        .next (answered r m 0x52 .ok 0
          { s with channels := s.channels.set ch { c with run := some { x with ending := some (x.ending.getD 2) } } })) ∧
    (formed → arg ps 1 1 = 1 → resting → c.run = none →
      exec (.memExerciseStop r) s = .next (answered r m 0x52 .invalid 0 s))) ∧
  (∀ (ch : Fin 128) (rep : ExerciseReport) (s : State),
    (∀ x, (s.chan ch.val).run = some x → ((s.chan ch.val).heat = .suspended ∨ (s.chan ch.val).pausing = true) → x.ending = none →
      exec (.memExerciseDone ch rep) s = .next s) ∧
    (∀ x, (s.chan ch.val).run = some x →
      (x.ending.isSome = true ∨ ((s.chan ch.val).heat ≠ .suspended ∧ (s.chan ch.val).pausing = false)) →
      let outcome := x.ending.getD (if (firstMismatch x rep).isSome then 1 else 0)
      let t := forgetRange (chanBase ch.val + x.rangeOfs) x.rangeLen
        { s with channels := s.channels.set ch.val { s.chan ch.val with run := none, fullPass := outcome == 0 } }
      exec (.memExerciseDone ch rep) s = .next (respond x.fn x.tag 0x52 .ok (exerciseResult ch.val x rep) t)) ∧
    ((s.chan ch.val).run = none → exec (.memExerciseDone ch rep) s = .next s))

/-- PREEMPT_POLICY_SET puts its five fields in force and answers the bytes of the save area, and the decision that
follows is taken; a field out of range, or an eviction without a usable save area, is refused with `E_INVALID`;
another save area while one is in use is refused with `E_BUSY`, and a VF with `E_AUTH` (R413, R417, R418).

An eviction does not begin while the policy's save area is not one that may be used. -/
def Obligations.PreemptPolicyIsSet : Prop :=
  ((∀ (r : Request) (m : Mailbox) (s : State), Served true false false r m s →
    let ps := reqArgs r
    let p : PreemptPolicy :=
      { breakWaitUs := arg ps 0 4, sliceUs := arg ps 4 4, evict := arg ps 8 1 == 1, swap := arg ps 9 1,
        saveChannels := BitVec.ofNat 96 (arg ps 12 12), saveOfs := arg ps 24 8, saveBytes := arg ps 32 8 }
    let fits := 10 ≤ arg ps 0 4 ∧ arg ps 0 4 ≤ 10000000 ∧ arg ps 4 4 ≤ 10000000 ∧ arg ps 8 1 ≤ 1 ∧ arg ps 9 1 ≤ 2 ∧
      arg ps 24 8 % 65536 = 0
    let usable := p.evict = true → saveAreaOk s p = true
    let moved := s.sched.save.isSome = true ∧ ¬ (p.saveChannels = s.preempt.saveChannels ∧ p.saveOfs = s.preempt.saveOfs ∧
      p.saveBytes = s.preempt.saveBytes)
    zeroAt ps 10 2 = true → zeroFrom ps 40 = true →
    ((fits → usable → ¬ moved →
      exec (.preemptPolicySet r) s =
        .next (settle (answered r m 0x23 .ok (((List.range 96).filter fun c => bitAt p.saveChannels c).length * p.saveBytes % 2 ^ 64)
          { s with preempt := p }))) ∧
    (¬ (fits ∧ usable) → exec (.preemptPolicySet r) s = .next (settle (answered r m 0x23 .invalid 0 s))) ∧
    (fits → usable → moved → exec (.preemptPolicySet r) s = .next (settle (answered r m 0x23 .busy 0 s))))) ∧
  (∀ (r : Request) (m : Mailbox) (s : State), Served false false false r m s → zeroAt (reqArgs r) 10 2 = true →
    zeroFrom (reqArgs r) 40 = true → r.fn.val ≠ 0 →
    exec (.preemptPolicySet r) s = .next (settle (answered r m 0x23 .auth 0 s)))) ∧
  (∀ s : State, saveAreaOk s s.preempt = false → exec .evictionBegin s = .next s)

/-- Roll call in `INIT` ends in `BARE` with `E_INVENTORY` when the board's descriptor does not pass, and else goes on
in `INIT` at progress 8 with the Clave bus in its run phase (R464, R473, R480 step 7, R488). It takes in the `PRESENT` and `ALERT` lines of
the four segments, and what is behind a segment that stays low is not heard (R463, R464, R472). What PROGRESS reads is
the model's reading (logs 59, 118).

INVENTORY_RESCAN of the PF in `BARE` runs roll call again, writes the inventory it finds and answers `OK`; when roll
call passes the firmware goes on in `INIT`, else it stays in `BARE`. Outside `BARE` the same request is refused with
`E_STATE` (R488, R489). That this row carries the findings is the model's choice (log 5), and that it goes on in
`INIT` its reading (log 62). -/
def Obligations.RollCallRunsAndRunsAgain : Prop :=
  (∀ (rc : RollCall) (s : State), s.fw.state = .init → s.pins.clavePhase = 1 →
    let found := heard rc
    nextWith (fun t => t.pins.clavePhase = 2 ∧ t.pins.segPresent = rc.present ∧ t.pins.segAlert = rc.alert ∧
      ((found.descriptor = none ∨ (descriptorStatus found).1 ≠ 0) → t.fw.state = .bare ∧ t.fw.error = .inventory) ∧
      ((∃ d, found.descriptor = some d) → (descriptorStatus found).1 = 0 →
        t.fw.state = .init ∧ t.fw.progress = 8 ∧ t.inv.descStatus = 0))
      (exec (.rollCall rc) s)) ∧
  (∀ (r : Request) (rc : RollCall) (m : Mailbox) (s : State), Served false true false r m s →
    let ps := reqArgs r
    let formed := aligned (arg ps 0 8) 64 = true ∧ arg ps 8 1 = 1 ∧ zeroFrom ps 9 = true
    let p := runRollCall rc (awaiting r m s)
    let t := respond r.fn.val r.tag 0x02 .ok 1024 (buffered (arg ps 0 8) (inventoryBlock p.1) p.1)
    (formed → s.fw.state = .bare → r.fn.val = 0 →
      exec (.inventoryRescan r rc) s = .next (nextTurn (if p.2 then setFwState .init .ok t else t))) ∧
    (formed → s.fw.state = .bare → r.fn.val ≠ 0 → exec (.inventoryRescan r rc) s = .next (answered r m 0x02 .auth 0 s)) ∧
    (formed → s.fw.state = .ready → exec (.inventoryRescan r rc) s = .next (answered r m 0x02 .state 0 s)))

/-- A `RETRAIN_MASK` from the PF drops every port of the mask that can train into training before the entries are
written, and a failed port is no longer held back; from a VF it is refused with `E_AUTH` (R343). How the rows of the
opcode divide is the model's choice (log 15).

A port that retrains is in training with nothing in flight; of another port only the flits that came in by the one that retrains are
lost, as long as no flit from elsewhere waited to leave by it (R305, R343). -/
def Obligations.RetrainingMasksDropPorts : Prop :=
  (∀ (r : Request) (m : Mailbox) (s : State), Served false false false r m s →
    let ps := reqArgs r
    let mask := arg ps 8 2
    let t := (List.range 16).foldl (fun acc p => if natBit mask p then retrainPort p acc else acc) s
    aligned (arg ps 0 8) 64 = true → zeroFrom ps 10 = true → mask ≠ 0 →
    (r.fn.val = 0 →
      exec (.linkRetrain r) s =
        .next (answered r m 0x62 .ok (linkResult t) (buffered (arg ps 0 8) (t.fabric.ports.flatMap portEntry) t))) ∧
    (r.fn.val ≠ 0 → exec (.linkRetrain r) s = .next (answered r m 0x62 .auth 0 s))) ∧
  (∀ (s : State) (p : Nat), p < s.fabric.ports.length → portTrains s p = true → (∀ w ∈ (s.port p).waitTx, w.1 = p) →
    let x := (retrainPort p s).port p
    x.state = .training ∧ x.rate = 0 ∧ x.neighbour = none ∧ x.replay = [] ∧ x.waitTx = [] ∧ x.credits = [] ∧ x.failedAt = [] ∧
    (∀ q, q ≠ p → (retrainPort p s).port q = { s.port q with waitTx := (s.port q).waitTx.filter fun w => !(w.1 == p) }) ∧
    (retrainPort p s).fabric.waiting = s.fabric.waiting.filter (fun w => !(w.1 == p)))

/-- What answers a request first (R393, R536): a malformed request `E_INVALID`, then a VF's use of a PF opcode
`E_AUTH`, then an opcode that `BARE` does not serve `E_INVENTORY`; nothing else changes. Said of POWER_POLICY_SET, a
PF opcode not served in `BARE`.

A request of an opcode outside the catalogue that comes to its turn is taken and answered `E_INVALID` (R392, R393).

While the response ring is full, a response is held and nothing leaves; when the host releases slots, as many held responses as the
ring then has room for are written in their order, each with the phase of its slot, and the rest stays held; a mailbox that stops and
owes nothing more is then discarded (R388, R392).

A call that is not the one whose turn it is, or while the firmware serves no mailbox, changes nothing (R384, R392). That such a
command changes nothing is the model's choice (log 1). -/
def Obligations.RefusalsAndFullRings : Prop :=
  (∀ (r : Request) (m : Mailbox) (s : State),
    s.fw.state = .ready ∨ s.fw.state = .bare → (s.func r.fn.val).enabled = true → s.mailbox r.fn.val = some m →
    mailboxTurn s = some r.fn.val → m.stopping = false → m.held = [] → m.rspUnreleased + 1 < m.rspEntries →
    let bad := reqFormed r false = false ∨ 4 ≤ arg (reqArgs r) 7 1 ∨ zeroFrom (reqArgs r) 8 = false
    (bad → exec (.powerPolicySet r) s = .next (answered r m 0xB0 .invalid 0 s)) ∧
    (¬ bad → r.fn.val ≠ 0 → exec (.powerPolicySet r) s = .next (answered r m 0xB0 .auth 0 s)) ∧
    (¬ bad → r.fn.val = 0 → s.fw.state = .bare → exec (.powerPolicySet r) s = .next (answered r m 0xB0 .inventory 0 s))) ∧
  (∀ (r : Request) (m : Mailbox) (op : Half) (s : State), Served false true true r m s →
    m.ring.head? = some (some { opcode := op, tag := r.tag }) → nextTurn s = answered r m op.toNat .invalid 0 s) ∧
  (∀ (fn : Nat) (tag : Word) (op : Nat) (st : Status) (result : Nat) (m : Mailbox) (s : State),
    s.mailbox fn = some m → m.rspEntries ≤ m.rspUnreleased + 1 →
    let x : Response := { tag := tag, status := st, opcode := BitVec.ofNat 16 op, result := BitVec.ofNat 352 result }
    respond fn tag op st result s =
      { s with funcs := s.funcs.set fn { s.func fn with mailbox := some { m with held := m.held ++ [x] } } }) ∧
  (∀ (fn : Fin 32) (value : DWord) (m : Mailbox) (k : Nat) (s : State),
    (s.func fn.val).enabled = true → s.pcie.up = true → s.fw.state = .ready ∨ s.fw.state = .bare → doorbellsWait s = false →
    s.mailbox fn.val = some m → m.held ≠ [] → bitField value 12 52 = 0 →
    releaseCount m.rspEntries m.rspWrite m.rspUnreleased (bitField value 0 12) = some k →
    let room := m.rspEntries - 1 - (m.rspUnreleased - k)
    let put (p : Mailbox × Memory) (r : Response) : Mailbox × Memory :=
      let w := (p.1.rspWrite + 1) % p.1.rspEntries
      ({ p.1 with rspWrite := w, rspPhase := if w = 0 then !p.1.rspPhase else p.1.rspPhase, rspUnreleased := p.1.rspUnreleased + 1,
                  taken := p.1.taken - 1, held := p.1.held.drop 1 },
       p.2.writeBytes (p.1.rspBase + 64 * p.1.rspWrite)
         (packBytes [(4, r.tag.toNat), (2, r.status.code), (2, r.opcode.toNat), (1, if p.1.rspPhase then 1 else 0), (11, 0),
                     (44, r.result.toNat)]))
    let q := (m.held.take room).foldl put ({ m with rspUnreleased := m.rspUnreleased - k }, s.host)
    q.1.held = m.held.drop room ∧
    nextWith (fun t => t.host = q.2 ∧
      t.mailbox fn.val = (if m.stopping = true ∧ q.1.taken = 0 ∧ q.1.held = [] then none else some q.1) ∧
      (0 < room → (t.func fn.val).irqStatus.getLsbD 0 = true) ∧ (∀ j, j ≠ fn.val → t.func j = s.func j) ∧
      t = { s with host := t.host, funcs := t.funcs, out := t.out }) (exec (.mbxRspDb fn value) s)) ∧
  (∀ (r : Request) (s : State), mayTake r.fn.val s = false →
    (∀ c ∈ [Instr.getInfo r, .scoreLoad r, .scoreUnload r, .jobQueueCreate r, .jobQueueDestroy r, .jobCountRead r, .stageSet r,
            .stageCheck r, .memMapRead r, .memExercise r, .memExerciseStop r, .groupDefine r, .groupRelease r, .linkStatus r,
            .linkRetrain r, .codecSessionOpen r, .codecSessionClose r, .selftest r, .calibrate r, .attestQuote r,
            .identityRead r, .fwUpdateStage r, .fwUpdateActivate r, .powerPolicySet r, .telemetryRead r, .errorLogRead r, .getInventory r],
      exec c s = .next s) ∧
    (∀ c ∈ [Instr.residentLoad r, .preemptPolicySet r, .stageCommit r, .stageDiscard r, .tableLoad r, .memChannelRetire r,
            .memChannelMaintenance r, .memChannelRestore r], exec c s = .next (settle s)) ∧
    (∀ rc, exec (.inventoryRescan r rc) s = .next s))

/-! ## Doorbells, registers and windows -/

/-- A doorbell that comes while a BAR2 write before it is not readable, or while another doorbell waits, waits in order (R382).

MBX_SETUP with a block that follows R389 and no request outstanding gives the function an empty mailbox whose
response phase is 1; with a faulty block or a request outstanding it changes the log alone; a function that is not
enabled is not reached (R377, R388, R389). In which states a setup is kept and what the log's entry holds are the
model's reading (logs 22, 55).

What MBX_SETUP accepts: rings of a power of two from 16 to 4,096 entries, no more requests than responses, 4 KiB bases
and zero reserved bytes (R389).

Misuse of a function's registers is one entry of source 0x50 in the error log, with the running number; the oldest of
4,096 entries gives way and counts as lost; cause bit 10 rises on the functions that may read it (R387, R528, R529); in `FAILED` the firmware that keeps the log has stopped, and nothing is logged
(R523). What stands in `WHERE` and `DETAIL` is the model's reading (log 22).

REGISTER_WRITE_OTHER changes no register: a write of a wrong width is logged, and any other is ignored (R12, R380, R383). Which
offsets are registers is the model's reading (log 55). -/
def Obligations.MailboxesAreSetUpAndMisuseLogged : Prop :=
  (∀ (fn : Fin 32) (value : DWord) (block : Desc) (entries : List (Option UnknownRequest)) (subs : List Submission) (s : State),
    doorbellsWait s = true →
    let waits (d : Doorbell) : Host.Outcome State Fault Refusal := .next { s with doorbells := s.doorbells ++ [d] }
    exec (.mbxSetup fn value block) s = waits (.mbxSetup fn.val value block) ∧
    exec (.mbxReqTail fn value entries) s = waits (.mbxTail fn.val value entries) ∧
    exec (.mbxStop fn value) s = waits (.mbxStop fn.val value) ∧
    exec (.mbxRspDb fn value) s = waits (.mbxRelease fn.val value) ∧
    exec (.jqSubDb fn value subs) s = waits (.submit fn.val value subs) ∧
    exec (.jqCmpDb fn value) s = waits (.release fn.val value)) ∧
  (∀ (fn : Fin 32) (value : DWord) (block : Desc) (s : State), doorbellsWait s = false →
    let reached := (s.func fn.val).enabled = true ∧ s.pcie.up = true ∧ s.fw.state ≠ .failed
    let idle := ∀ m, s.mailbox fn.val = some m → m.ring = [] ∧ m.taken = 0
    let formed := bitField value 62 2 = 1 ∧ bitField value 58 4 = 0 ∧ setupOk block = true
    let m : Mailbox :=
      { reqBase := byteField block 0 8, rspBase := byteField block 8 8, reqEntries := byteField block 16 2,
        rspEntries := byteField block 18 2, reqTail := 0, ring := [], taken := 0, rspWrite := 0, rspUnreleased := 0,
        rspPhase := true, held := [], stopping := false }
    (reached → idle → formed →
      exec (.mbxSetup fn value block) s =
        .next { s with funcs := s.funcs.set fn.val { s.func fn.val with mailbox := some m } }) ∧
    (reached → ¬ (idle ∧ formed) → exec (.mbxSetup fn value block) s = .next (logMisuse fn.val value.toNat s)) ∧
    (¬ reached → exec (.mbxSetup fn value block) s = .next s)) ∧
  (∀ b : Desc, setupOk b = true ↔
    (byteField b 0 8 % 4096 = 0 ∧ byteField b 8 8 % 4096 = 0 ∧ byteField b 16 2 ≤ byteField b 18 2 ∧ byteField b 20 44 = 0 ∧
     (∃ i, 4 ≤ i ∧ i ≤ 12 ∧ byteField b 16 2 = 2 ^ i) ∧ (∃ i, 4 ≤ i ∧ i ≤ 12 ∧ byteField b 18 2 = 2 ^ i))) ∧
  (∀ (fn detail : Nat) (s : State), s.fw.state = .failed → logMisuse fn detail s = s) ∧
  (∀ (fn detail : Nat) (s : State), s.fw.state ≠ .failed →
    let e : LogEntry := { seq := s.log.nextSeq, time := s.time, source := 0x50, severity := 0, status := .invalid, fn := fn,
                          stave := 0xFF, place := 0xFFFF, detail := detail }
    let full := 4096 ≤ s.log.entries.length
    let t := logMisuse fn detail s
    t.log.entries = (if full then s.log.entries.drop 1 else s.log.entries) ++ [e] ∧ t.log.nextSeq = s.log.nextSeq + 1 ∧
    t.log.lost = (if full then min (s.log.lost + 1) (2 ^ 32 - 1) else s.log.lost) ∧
    (fn < s.funcs.length → fn ≠ 0xFF → (s.func fn).enabled = true → (t.func fn).irqStatus.getLsbD 10 = true) ∧
    (∀ k, k ≠ 0 → k ≠ fn → fn ≠ 0xFF → t.func k = s.func k) ∧
    t = { s with log := t.log, funcs := t.funcs, out := t.out }) ∧
  (∀ (fn : Fin 32) (offset width : Nat) (value : DWord) (s : State),
    exec (.registerWriteOther fn offset width value) s =
      .next (if ((s.func fn.val).enabled = true ∧ s.pcie.up = true) ∧ registerMisuse offset width = true then
        logMisuse fn.val offset s else s))

/-- MBX_REQ_TAIL moves the request tail, and the new requests wait in the ring, those of unknown opcodes to be refused in their turn; an
index outside the ring or past what
the ring holds changes the log alone. MBX_STOP ends the taking of requests, and a mailbox with nothing to answer is
discarded at once. MBX_RSP_DB releases the slots up to the head it names (R388, R392). What the log's entry holds is
the model's reading (log 22). -/
def Obligations.MailboxDoorbellsMoveTheRings : Prop :=
  ∀ (fn : Fin 32) (value : DWord) (m : Mailbox) (s : State),
    (s.func fn.val).enabled = true → s.pcie.up = true → s.fw.state = .ready ∨ s.fw.state = .bare →
    s.mailbox fn.val = some m → doorbellsWait s = false →
    let tail := bitField value 0 12
    let n := (tail + m.reqEntries - m.reqTail) % m.reqEntries
    let holds (x : Mailbox) : State := { s with funcs := s.funcs.set fn.val { s.func fn.val with mailbox := some x } }
    let formed := bitField value 62 2 = 0 ∧ bitField value 12 50 = 0
    let fits := tail < m.reqEntries ∧ m.ring.length + m.taken + n < m.reqEntries
    (∀ entries, formed → fits →
      exec (.mbxReqTail fn value entries) s =
        .next (nextTurn (holds { m with reqTail := tail, ring := m.ring ++ entries.take n ++ List.replicate (n - entries.length) none }))) ∧
    (∀ entries, ¬ (formed ∧ fits) → exec (.mbxReqTail fn value entries) s = .next (logMisuse fn.val value.toNat s)) ∧
    (bitField value 62 2 = 2 → bitField value 0 62 = 0 →
      exec (.mbxStop fn value) s =
        .next (nextTurn (if m.taken = 0 ∧ m.held = [] then
            { s with funcs := s.funcs.set fn.val { s.func fn.val with mailbox := none } }
          else holds { m with stopping := true }))) ∧
    (∀ k, bitField value 12 52 = 0 → releaseCount m.rspEntries m.rspWrite m.rspUnreleased tail = some k → m.held = [] →
      exec (.mbxRspDb fn value) s = .next (holds { m with rspUnreleased := m.rspUnreleased - k })) ∧
    (bitField value 12 52 = 0 → releaseCount m.rspEntries m.rspWrite m.rspUnreleased tail = none →
      exec (.mbxRspDb fn value) s = .next (logMisuse fn.val value.toNat s))

/-- The job doorbells (R388, R396, R398): JQ_SUB_DB with no new entry moves nothing but the tail, with more entries
than the ring has room for, or for a queue that does not exist, changes the log alone; JQ_CMP_DB releases the slots up to the head it names, and as many held records
as the ring then has room for are written in their order, which ends their jobs, while the rest stays held (R398); both are
followed by the decision that is due. What the log's entry holds is the model's reading (log 22).

A submitted descriptor is counted; one that R397 allows, of a score not struck, joins the queue as a queued job with
the fields of R395; nothing else changes. -/
def Obligations.JobDoorbellsQueueJobs : Prop :=
  (∀ (fn : Fin 32) (value : DWord) (k : JobQueue) (s : State),
    (s.func fn.val).enabled = true → s.pcie.up = true → s.fw.state = .ready ∨ s.fw.state = .bare → doorbellsWait s = false →
    let q := bitField value 32 3
    s.queue fn.val q = some k → bitField value 12 20 = 0 → bitField value 35 29 = 0 →
    let index := bitField value 0 12
    let n := (index + k.subEntries - k.subTail) % k.subEntries
    let holds (x : JobQueue) : State :=
      { s with funcs := s.funcs.set fn.val { s.func fn.val with queues := (s.func fn.val).queues.set q (some x) } }
    (index < k.subEntries → n = 0 → k.unposted < k.subEntries →
      exec (.jqSubDb fn value []) s = .next (settle (holds { k with subTail := index }))) ∧
    (∀ subs, (k.subEntries ≤ index ∨ k.subEntries ≤ k.unposted + n) →
      exec (.jqSubDb fn value subs) s = .next (logMisuse fn.val value.toNat s)) ∧
    (∀ d, index < k.subEntries → n = 1 → k.unposted + 1 < k.subEntries →
      exec (.jqSubDb fn value [d]) s =
        .next (settle (takeSubmission fn.val q (holds { k with subTail := index, unposted := k.unposted + 1 }) d))) ∧
    (∀ d, releaseCount k.cmpEntries k.cmpWrite k.cmpUnreleased index = some d → k.held = [] →
      exec (.jqCmpDb fn value) s = .next (settle (holds { k with cmpUnreleased := k.cmpUnreleased - d }))) ∧
    (∀ d, releaseCount k.cmpEntries k.cmpWrite k.cmpUnreleased index = some d → k.held ≠ [] →
      let room := k.cmpEntries - 1 - (k.cmpUnreleased - d)
      let gone := k.held.take room
      let put (p : JobQueue × Memory) (r : Record) : JobQueue × Memory :=
        let w := (p.1.cmpWrite + 1) % p.1.cmpEntries
        ({ p.1 with cmpWrite := w, cmpPhase := if w = 0 then !p.1.cmpPhase else p.1.cmpPhase,
                    cmpUnreleased := p.1.cmpUnreleased + 1 },
         p.2.writeBytes (p.1.cmpBase + 64 * p.1.cmpWrite) (recordBytes r q p.1.cmpPhase))
      let z := gone.foldl put ({ k with cmpUnreleased := k.cmpUnreleased - d }, s.host)
      ∃ t x, exec (.jqCmpDb fn value) s = .next (settle t) ∧ t.host = z.2 ∧ t.queue fn.val q = some x ∧
        x = { z.1 with held := k.held.drop room, unposted := x.unposted } ∧ (0 < room → (t.func fn.val).irqStatus.getLsbD (1 + q) = true) ∧
        t.sched.jobs = s.sched.jobs.filter (fun j => !(gone.any fun r => r.job == some j.id)) ∧
        (∀ c, c ≠ fn.val → t.func c = s.func c) ∧ t.mem = s.mem) ∧
    (releaseCount k.cmpEntries k.cmpWrite k.cmpUnreleased index = none →
      exec (.jqCmpDb fn value) s = .next (logMisuse fn.val value.toNat s))) ∧
  (∀ (fn : Fin 32) (value : DWord) (subs : List Submission) (s : State),
    (s.func fn.val).enabled = true → s.pcie.up = true → s.fw.state = .ready ∨ s.fw.state = .bare → doorbellsWait s = false →
    s.queue fn.val (bitField value 32 3) = none →
    exec (.jqSubDb fn value subs) s = .next (logMisuse fn.val value.toNat s) ∧
    exec (.jqCmpDb fn value) s = .next (logMisuse fn.val value.toNat s)) ∧
  (∀ (fn q : Nat) (x : Submission) (s : State), fn < s.funcs.length → descriptorBad s fn x = false →
    (∀ y, s.score (subField x 4 1) = some y → y.struck = false) →
    takeSubmission fn q s x =
      { s with funcs := s.funcs.set fn { s.func fn with submitted := (s.func fn).submitted + 1 },
               sched := { s.sched with jobs := s.sched.jobs ++ [jobOf s fn q x], nextId := s.sched.nextId + 1 } } ∧
    (jobOf s fn q x).stage = .queued ∧ (jobOf s fn q x).tag = BitVec.ofNat 32 (subField x 0 4) ∧
    (jobOf s fn q x).handle = subField x 4 1 ∧ (jobOf s fn q x).entry = subField x 5 1 ∧
    (jobOf s fn q x).provAddr = subField x 32 8 ∧ (jobOf s fn q x).params.length = subField x 24 2)

/-- IRQ_STATUS_WRITE clears the bits written as 1 and no other; IRQ_MASK_WRITE puts the mask in force and sends a
message for each bit that it unmasks while its status bit is 1 (R386, R387).

A cause that rises sets its status bit, and sends its message exactly when the bit was clear and is not masked; on a
function that is not enabled nothing happens (R386, R387). -/
def Obligations.InterruptsAreRaisedAndWritten : Prop :=
  (∀ (fn : Fin 32) (value : Word) (s : State), (s.func fn.val).enabled = true → s.pcie.up = true →
    let f := s.func fn.val
    let due (b : Nat) : Bool := f.irqMask.getLsbD b && !value.getLsbD b && f.irqStatus.getLsbD b
    (∀ t, exec (.irqStatusWrite fn value) s = .next t →
      (∀ b < 11, (t.func fn.val).irqStatus.getLsbD b = (f.irqStatus.getLsbD b && !value.getLsbD b)) ∧
      t = { s with funcs := s.funcs.set fn.val { f with irqStatus := (t.func fn.val).irqStatus } }) ∧
    (∃ p : BitVec 16, (∀ b < 16, p.getLsbD b = (f.vectorPending.getLsbD b || (decide (b < 11) && due b && f.vectorMask.getLsbD b))) ∧
      exec (.irqMaskWrite fn value) s =
        .next { s with funcs := s.funcs.set fn.val { f with irqMask := value.setWidth 11, vectorPending := p },
                       out := s.out ++ ((List.range 11).filter fun b => due b && !f.vectorMask.getLsbD b).map fun b => .msix fn.val b }) ∧
    (∃ t, exec (.irqStatusWrite fn value) s = .next t)) ∧
  (∀ (fn bit : Nat) (s : State), fn < s.funcs.length → bit < 11 →
    let f := s.func fn
    ((f.enabled = false → raiseIrq fn bit s = s) ∧
     (f.enabled = true →
      let sends := !f.irqStatus.getLsbD bit && !f.irqMask.getLsbD bit
      ∃ x p, x.getLsbD bit = true ∧ (∀ b, b ≠ bit → x.getLsbD b = f.irqStatus.getLsbD b) ∧
        (∀ b < 16, p.getLsbD b = (f.vectorPending.getLsbD b || (b == bit && sends && f.vectorMask.getLsbD bit))) ∧
        raiseIrq fn bit s =
          { s with funcs := s.funcs.set fn { f with irqStatus := x, vectorPending := p },
                   out := s.out ++ (if sends && !f.vectorMask.getLsbD bit then [.msix fn bit] else []) })))

/-- A BAR2 read of mapped attached memory, no channel of it suspended and none under calibration, completes with the
bytes that stand there; a BAR2 write puts its bytes there; in any firmware state but `READY` and `BARE` both complete
with Unsupported Request, as does an access to a hole, which is logged, or to a suspended channel, and nothing is written; an access
past the window is none of the device's (R263, R268, R284, R381, R484). That an access
outside the two states is not logged is the model's reading (log 54).

IMAGE_WINDOW_START with the start word 1 takes the image of the length given and verifies it; a length past the
longest image is refused with `E_INVALID` in FW_STATE; another word is kept and starts nothing (R482, R483). The image
of length 0 is the model's reading (log 56). -/
def Obligations.WindowsReachTheirTargets : Prop :=
  (∀ (ofs : Nat) (s : State), s.pcie.up = true →
    let a := s.staged.cur.bar2Base + ofs
    let serves := s.fw.state = .ready ∨ s.fw.state = .bare
    (∀ len, ofs + len ≤ 2 ^ s.pcie.bar2Log2 → serves → s.test = none → placeOf s a len = .memory →
      exec (.bar2Read ofs len) s = .next { s with out := s.out ++ [.bar2Data (s.mem.readBytes a len)] }) ∧
    (∀ data : List Byte, ofs + data.length ≤ 2 ^ s.pcie.bar2Log2 → serves → s.test = none →
      placeOf s a data.length = .memory → hitsAny (readOnlyRanges s ++ codecRanges s) a data.length = false →
      exec (.bar2Write ofs data) s = .next { s with mem := s.mem.writeBytes a data }) ∧
    (∀ len, ofs + len ≤ 2 ^ s.pcie.bar2Log2 → ¬ serves →
      exec (.bar2Read ofs len) s = .next { s with out := s.out ++ [.bar2Ur] }) ∧
    (∀ data : List Byte, ofs + data.length ≤ 2 ^ s.pcie.bar2Log2 → ¬ serves →
      exec (.bar2Write ofs data) s = .next { s with out := s.out ++ [.bar2Ur] }) ∧
    (∀ len, 2 ^ s.pcie.bar2Log2 < ofs + len → exec (.bar2Read ofs len) s = .next s) ∧
    (∀ data : List Byte, 2 ^ s.pcie.bar2Log2 < ofs + data.length → exec (.bar2Write ofs data) s = .next s) ∧
    (∀ len, ofs + len ≤ 2 ^ s.pcie.bar2Log2 → serves → s.test = none → placeOf s a len = .suspended →
      exec (.bar2Read ofs len) s = .next { s with out := s.out ++ [.bar2Ur] }) ∧
    (∀ data : List Byte, ofs + data.length ≤ 2 ^ s.pcie.bar2Log2 → serves → s.test = none → placeOf s a data.length = .suspended →
      exec (.bar2Write ofs data) s = .next { s with out := s.out ++ [.bar2Ur] }) ∧
    (∀ len, ofs + len ≤ 2 ^ s.pcie.bar2Log2 → serves → s.test = none → placeOf s a len = .hole →
      exec (.bar2Read ofs len) s = .next { logAccess a s with out := (logAccess a s).out ++ [.bar2Ur] }) ∧
    (∀ data : List Byte, ofs + data.length ≤ 2 ^ s.pcie.bar2Log2 → serves → s.test = none → placeOf s a data.length = .hole →
      exec (.bar2Write ofs data) s = .next { logAccess a s with out := (logAccess a s).out ++ [.bar2Ur] })) ∧
  (∀ (length : DWord) (start : Word) (image : List Byte) (s : State), s.pcie.up = true → s.fw.state = .awaitImage →
    (start = 1 → length.toNat ≤ 33488896 → image.length = length.toNat →
      exec (.imageWindowStart length start image) s =
        .next (setFwState .verifying .ok
          { s with fw := { s.fw with window := image, windowLength := length, windowStart := 1, image := image, imageSlot := none,
                                     progress := 6 } })) ∧
    (start = 1 → 33488896 < length.toNat →
      exec (.imageWindowStart length start image) s =
        .next { s with fw := { s.fw with window := image, windowLength := length, error := .invalid, windowStart := 0 } }) ∧
    (start ≠ 1 →
      exec (.imageWindowStart length start image) s =
        .next { s with fw := { s.fw with window := image, windowLength := length, windowStart := start } }))

/-! ## Functions, resets and boot -/

/-- VF_ENABLE makes exactly VFs 1 to `n` clients: one that was no client is at its reset values; one beyond `n` is a
client no longer and no job of it is left; with none beyond `n`, jobs, scores, sessions and the registers of the
functions that were enabled stand (R377, R497). That a VF within the number stands as it is, is the model's reading
(log 57).

FUNCTION_LEVEL_RESET of a function leaves its registers at their reset values, no mailbox, queue, job, score or
session of it, and its jobs end without a record; of the physical function it disables every VF as well, empties the
pending settings and ends its tests and stagings without an answer. Fuses, channels in service and the firmware stand
(R497). What goes on after the physical function's reset is the model's reading (log 58). After either the turn of the next call
comes (R392), and the decision that is due. -/
def Obligations.FunctionsAreEnabledAndReset : Prop :=
  (∀ (n : Fin 32) (s : State), s.pcie.up = true → s.funcs.length = 32 →
    ∃ u, exec (.vfEnable n) s = .next (settle (nextTurn u)) ∧ u.pcie = { s.pcie with numVfs := n.val } ∧
      (∀ k, 1 ≤ k → k ≤ n.val → (u.func k).enabled = true ∧ ((s.func k).enabled = false → u.func k = Func.reset true)) ∧
      (∀ k, n.val < k → k < 32 → (u.func k).enabled = false) ∧
      (∀ j ∈ u.sched.jobs, ∀ k, n.val < k → k < 32 → (s.func k).enabled = true → j.fn ≠ k) ∧
      ((∀ k, n.val < k → k < 32 → (s.func k).enabled = false) →
        u.sched = s.sched ∧ u.scores = s.scores ∧ u.codec = s.codec ∧
        ∀ k, (s.func k).enabled = true → u.func k = s.func k) ∧
      u.staged = s.staged ∧ u.tables = s.tables ∧ u.channels = s.channels ∧ u.preempt = s.preempt) ∧
  (∀ (fn : Fin 32) (s : State), s.pcie.up = true → (s.func fn.val).enabled = true → s.Sized →
    ∃ u, exec (.functionLevelReset fn) s = .next (settle (nextTurn u)) ∧ u.func fn.val = Func.reset true ∧
      (∀ j ∈ u.sched.jobs, j.fn ≠ fn.val) ∧ (∀ h x, u.score h = some x → x.fn ≠ fn.val) ∧
      (∀ h x, u.session h = some x → x.fn ≠ fn.val) ∧ u.fuses = s.fuses ∧ u.fw.state = s.fw.state ∧
      ((∀ j ∈ s.sched.jobs, j.fn = fn.val) → u.host = s.host) ∧
      (fn.val ≠ 0 → u.staged = s.staged ∧ u.channels = s.channels ∧ u.tables = s.tables ∧ u.test = s.test) ∧
      (fn.val = 0 → (∀ k, 1 ≤ k → k < 32 → (u.func k).enabled = false) ∧ u.staged.pending = [] ∧ u.staged.commit = none ∧
        u.test = none ∧ u.fw.staging = none))

/-- DEV_RESET_ASSERT and, unless a thermal trip stands, WARM_RESET lose everything but the fuses, the boot flash, what
the host holds, its end of the link and what has left the device: every other part of the state is as after reset. A warm reset keeps
the sampled straps, a device reset does not (R448, R464, R495). Before a warm reset loses them, the device tells the members of its
groups of the collectives it aborts, idles its ports and turns its rails off (R496). While a trip stands, a warm reset resets the link
and the functions' registers alone (R448). That the time starts again at 0, and memory after a reset, are the model's (logs 6, 63). -/
def Obligations.ResetsLoseTheDevice : Prop :=
  ∀ s : State,
    let v := s.fuses.variant
    let p := Power.reset (maxPower v) (maxClock v)
    let blank (pins : Pins) (out : List Out) : State :=
      { State.reset with
        pending := s.pending, fresh := s.fresh, fuses := s.fuses, pins := pins, host := s.host, out := out,
        fw := { State.reset.fw with flash := s.fw.flash }, pcie := { State.reset.pcie with bar2Log2 := s.pcie.bar2Log2 },
        power := { p with domains := offDomains v } }
    exec .devResetAssert s = .next (blank { State.reset.pins with pePerstN := s.pins.pePerstN, partner := s.pins.partner } s.out) ∧
    (s.pins.devResetN = true → s.power.trippedAt = none →
      let left := railsOff (if firmwareUp s then idlePorts (abortFlying (dropJobs s)) else s)
      let t := setDomains baseDomain .running
        (blank { State.reset.pins with devResetN := true, straps := s.pins.straps, strapsValid := s.pins.strapsValid } left.out)
      (s.pins.strapsValid = false → exec .warmReset s = .next { t with fw := { t.fw with progress := s.fw.progress } }) ∧
      (s.pins.strapsValid = true → strapsReserved s.pins.straps = true →
        exec .warmReset s = .next { t with fw := { t.fw with progress := 3, error := .invalid } }) ∧
      (s.pins.strapsValid = true → strapsReserved s.pins.straps = false → bootSource s.pins.straps ≠ 1 →
        exec .warmReset s = .next { t with fw := { t.fw with progress := 5 } }) ∧
      (s.pins.strapsValid = true → strapsReserved s.pins.straps = false → bootSource s.pins.straps = 1 →
        exec .warmReset s = .next (setFwState .awaitImage .ok { t with fw := { t.fw with progress := 5 } }))) ∧
    (s.pins.devResetN = true → s.power.trippedAt.isSome = true →
      exec .warmReset s = .next { s with
        pcie := { State.reset.pcie with bar2Log2 := s.pcie.bar2Log2 }, pins := { s.pins with pePerstN := false, partner := none },
        funcs := State.reset.funcs, log := State.reset.log }) ∧
    (s.pins.devResetN = false → exec .warmReset s = .next s)

/-- The ROM's first steps (R480 steps 2 to 5): the release of reset is progress 2; the straps are sampled once, a
reserved value stops the ROM with `E_INVALID`, and with the host as source it waits for an image; the link comes up once
the straps are sampled and `PE_PERST_N` is high, whichever comes last, at the host's width if that is x4, x8 or x16, and at no more than the strapped generation, in Flit Mode from 64 GT/s on (R375), with BAR2
of 1 GiB to 2 TiB (R380); at another width it stays down. What PROGRESS reads is the model's reading (log 59). -/
def Obligations.RomStepsFollowTheStraps : Prop :=
  ∀ (word : Half) (peer : LinkPartner) (bar2Log2 : Nat) (s : State),
    (s.pins.devResetN = false →
      nextWith (fun t => t.pins = { s.pins with devResetN := true } ∧ t.fw = { s.fw with progress := 2 } ∧
        ∀ i, 316 ≤ i → i < s.power.domains.length → (s.domain i).state ≠ .fusedOff → (t.domain i).state = .running)
        (exec .devResetRelease s)) ∧
    (s.pins.devResetN = true → s.pins.strapsValid = false → s.fw.state = .rom → s.pcie.up = false → (s.domain 318).state = .running →
      let ready (q : LinkPartner × Nat) : Prop := s.pins.pePerstN = true ∧ s.pins.partner = some q ∧ q.1.width ∈ [4, 8, 16]
      nextWith (fun t => t.pins = { s.pins with straps := word, strapsValid := true } ∧
        (strapsReserved word = true → t.fw = { s.fw with progress := t.fw.progress, error := .invalid } ∧
          ((∃ q, ready q) → t.fw.progress = 4) ∧ (¬ (∃ q, ready q) → t.fw.progress = 3)) ∧
        (strapsReserved word = false → bootSource word = 0 → t.fw = { s.fw with progress := 5 }) ∧
        (strapsReserved word = false → bootSource word = 1 →
          t.fw = { s.fw with progress := 5, state := .awaitImage, error := .ok }) ∧
        (∀ q, ready q → t.pcie = { s.pcie with
          up := true, gen := max 1 (min q.1.gen (7 - bitField word 2 3)), width := q.1.width,
          flitMode := decide (6 ≤ max 1 (min q.1.gen (7 - bitField word 2 3))) || q.1.flitMode, reversed := word.getLsbD 5,
          bar2Log2 := max 30 (min 41 q.2) }) ∧
        (¬ (∃ q, ready q) → t.pcie = s.pcie))
        (exec (.strapSample word) s)) ∧
    (s.pins.devResetN = true → s.pins.strapsValid = false → s.pcie.up = false →
      exec (.pePerstRelease peer bar2Log2) s =
        .next { s with pins := { s.pins with pePerstN := true, partner := some (peer, bar2Log2) } }) ∧
    (s.pins.devResetN = true → s.pins.strapsValid = true → s.pcie.up = false → (s.domain 318).state = .running →
      let trained := { s with pins := { s.pins with pePerstN := true, partner := some (peer, bar2Log2) } }
      let gen := max 1 (min peer.gen (7 - bitField s.pins.straps 2 3))
      exec (.pePerstRelease peer bar2Log2) s =
        .next (if peer.width = 4 ∨ peer.width = 8 ∨ peer.width = 16 then
            { trained with
              pcie := { s.pcie with up := true, gen := gen, width := peer.width, flitMode := decide (6 ≤ gen) || peer.flitMode,
                                    reversed := s.pins.straps.getLsbD 5, bar2Log2 := max 30 (min 41 bar2Log2) },
              fw := { s.fw with progress := max 4 s.fw.progress } }
          else trained))

/-- The firmware image (R480 step 6, R482, R503): the valid slot of the higher sequence number is verified first;
without a valid slot the ROM waits for the host with `E_AUTH`. An image that passes starts the firmware, in `INIT`
after a reset; one that fails gives way to the other valid slot, and without one the ROM waits for the host. The order
of two slots of one number is the model's reading (log 60). -/
def Obligations.ImagesAreVerifiedInOrder : Prop :=
  ∀ (a b : FlashSlot) (s : State),
    let reads := s.fw.state = .rom ∧ s.pins.strapsValid = true ∧ strapsReserved s.pins.straps = false ∧
      bootSource s.pins.straps = 0
    let good (x : FlashSlot) : Prop := x.mark = 0x56414C44
    (reads → good a → (¬ good b ∨ b.seq ≤ a.seq) →
      nextWith (fun t => t.fw.state = .verifying ∧ t.fw.image = a.image ∧ t.fw.imageSlot = some 0 ∧ t.fw.flash = [a, b])
        (exec (.fwImageRead a b) s)) ∧
    (reads → good b → (¬ good a ∨ a.seq < b.seq) →
      nextWith (fun t => t.fw.state = .verifying ∧ t.fw.image = b.image ∧ t.fw.imageSlot = some 1 ∧ t.fw.flash = [a, b])
        (exec (.fwImageRead a b) s)) ∧
    (reads → ¬ good a → ¬ good b →
      nextWith (fun t => t.fw.state = .awaitImage ∧ t.fw.error = .auth ∧ t.fw.flash = [a, b]) (exec (.fwImageRead a b) s)) ∧
    (s.fw.state = .verifying →
      nextWith (fun t =>
        if imageOk s.fuses.svBlown s.fw.image = true then
          s.pins.clavePhase = 0 →
            t.fw.state = .init ∧ t.fw.bootSlot = s.fw.imageSlot ∧ t.fw.measurement = measureImage s.fw.image ∧
            t.fw.udsOpen = false ∧ t.resident.cur = some emptyResident
        else match s.fw.candidates with
          | i :: rest => t.fw.image = (s.fw.flash.getD i emptySlot).image ∧ t.fw.imageSlot = some i ∧ t.fw.candidates = rest
          | [] => t.fw.state = .awaitImage ∧ t.fw.error = .auth)
        (exec .fwVerifyDone s))

/-- The rail sequence and training (R439, R480 steps 8 to 10, R281): a regulator's power good is noted; a memory
supply's wait ends once the descriptor's delay is over, and not before (R474); training leaves each fitted channel active or retired at no more than its rate; the core
test fences the cores that fail and no other enabled core, zeroes the boundaries and puts the built-in tables into
their slots. What PROGRESS reads is the model's reading (log 59). -/
def Obligations.BootBringsUpRailsMemoryAndCores : Prop :=
  ∀ (s : State), s.fw.state = .init →
    (∀ rail : Fin 12, 6 ≤ rail.val → (s.rail rail.val).on = true → (s.rail rail.val).good = false →
      s.power.rails.length = 12 →
      nextWith (fun t => (t.rail rail.val).good = true ∧ t.fw = s.fw ∧ t.mem = s.mem) (exec (.railPowerGood rail) s)) ∧
    (∀ supply : Fin 6, s.power.supplies[supply.val]? = some 1 →
      let ended := s.power.supplyAt.getD supply.val 0 + 1000 * s.inv.pgDelay.getD (12 + supply.val) 0 ≤ s.time
      (ended → nextWith (fun t => t.power.supplies = s.power.supplies.set supply.val 2 ∧ t.channels = s.channels ∧
          t.fw = { s.fw with progress := t.fw.progress } ∧
          (t.fw.progress = s.fw.progress ∨ (s.fw.progress = 8 ∧ t.fw.progress = 10 ∧ vcoreSettled t = true)))
        (exec (.memSupplyPgDelay supply) s)) ∧
      (¬ ended → exec (.memSupplyPgDelay supply) s = .next s)) ∧
    (∀ (ok : BitVec 128) (rates : List Nat), vcoreSettled s = true → s.fw.bootMemory = false → s.channels.length = 128 →
      nextWith (fun t => t.fw = { s.fw with bootMemory := true } ∧
        (∀ ch < 128, (s.chan ch).sizeMiB ≠ 0 →
          (t.chan ch).state = (if ok.getLsbD ch then .active else .retired) ∧
          (t.chan ch).rate = min (rates.getD ch 0) (rateLimit s ch)) ∧
        (∀ ch < 128, (s.chan ch).sizeMiB = 0 → t.chan ch = s.chan ch))
        (exec (.memTrainingDone ok rates) s)) ∧
    (∀ fails : BitVec 256, (if s.fw.bootMemory = true then railsRamped s else vcoreSettled s) = true → s.fw.bootTests = false → s.cores.length = 256 →
      nextWith (fun t => t.fw = { s.fw with bootTests := true } ∧ t.tables = builtinSlots ∧
        (∀ c ∈ enabledCores s.fuses.variant, (t.core c).fenced = fails.getLsbD c) ∧ (∀ c < 256, (t.core c).boundary = 0))
        (exec (.bootCoreSelftestDone fails) s)) ∧
    (s.fw.bootTests = true → s.fw.bootMemory = true →
      nextWith (fun t => t.fw = { s.fw with state := .ready, error := .ok, progress := 12 } ∧ t.mem = s.mem ∧ t.log = s.log)
        (exec .bootReady s))

/-! ## Bars and strokes -/

/-- What firing does (R76): each counter named in `WAIT` falls by 1, the stroke is in flight under a new key with its
descriptor, signals, bar and loop counters captured, and the unit has passed its own stroke of the bar; no other unit
and no memory changes. That the data action runs at the firing is the model's choice (log 79).

A stroke that is not before its unit, or may not fire, changes nothing (R62, R67, R76). No device makes such a beat;
that it changes nothing is the model's choice (log 1). -/
def Obligations.FiringTakesItsCues : Prop :=
  (∀ (u : UnitId) (b : BeatCtx) (s : State), u.wf = true → s.Sized → (∀ k ∈ s.cores, k.units.length = 11) →
    let x := s.unit u
    let y := (fired u b s).unit u
    y.cues = x.cues.mapIdx (fun c n => if natBit b.word.wait c then n - 1 else n) ∧
    (∃ i, y.inflight = x.inflight ++ [i] ∧ i.desc = b.word.desc ∧ i.bar = b.bar ∧ i.loops = b.fire.loops ∧
      i.key = s.sched.nextKey ∧ i.firedAt = s.time ∧ i.phase = .running) ∧
    (y.bar, y.beat) = (if b.ctl.op = 2 ∨ b.ctl.op = 5 then (x.bar + 1, .control) else (x.bar, .close)) ∧
    y.loops = x.loops ∧ (∀ v, v.wf = true → v ≠ u → (fired u b s).unit v = s.unit v) ∧
    fired u b s = { s with cores := (fired u b s).cores, chips := (fired u b s).chips,
                           sched := { s.sched with nextKey := s.sched.nextKey + 1 } }) ∧
  (∀ (c : Fin 256) (mu : Fin 4) (s : State),
    ∀ p ∈ [(Instr.mm c mu, muUnit c.val mu.val, 0x10), (.gang c mu, muUnit c.val mu.val, 0x11),
           (.attn c mu, muUnit c.val mu.val, 0x12), (.feedMm c, .core c 7, 0x10), (.feedGang c, .core c 7, 0x11),
           (.feedWin c, .core c 7, 0x12), (.feedAttn c, .core c 7, 0x13), (.drainMm c, .core c 8, 0x10),
           (.drainGang c, .core c 8, 0x11), (.drainAttn c, .core c 8, 0x12), (.chain c, .core c 5, 0x10),
           (.stepStroke c, .core c 5, 0x11), (.reduce c, .core c 6, 0x10), (.scatter c, .core c 9, 0x10),
           (.coreDmaCopy c, .core c 10, 0x10), (.coreDmaFill c, .core c 10, 0x11), (.rattleSet c, .core c 11, 0x10),
           (.chipDmaCopy, .chip 12, 0x10), (.chipDmaFill, .chip 12, 0x11), (.send, .chip 13, 0x10), (.recv, .chip 13, 0x11),
           (.coll, .chip 13, 0x12), (.encFrame, .chip 14, 0x10), (.decFrame, .chip 14, 0x11), (.notify, .chip 14, 0x20)],
      (∀ b, ¬ Due s p.2.1 p.2.2 b) → exec p.1 s = .next s)

/-- The control strokes and the strokes every stave accepts (R62, R66, R68 to R72, R90): each moves the one unit that
stands at it. REST and BAR go on; LOOP_BEGIN opens its level with the counter 0; LOOP_END takes another turn or closes
the level; BREAK parks and HALT stops the unit, and its token goes out when nothing is in flight; SECTION puts its
layout in force.

A loop of count `n` runs its body `n` times: a LOOP_BEGIN with the count 0 passes over the whole body to the bar after
its LOOP_END, and no loop is open then that was not open before (R69 to R71). -/
def Obligations.ControlStrokesMoveTheirUnit : Prop :=
  (∀ (u : UnitId) (b : BeatCtx) (s : State),
    let x := s.unit u
    let goes (y : UnitState) : State := s.updUnit u fun _ => y
    let l := x.loops.getD b.ctl.level LoopLevel.closed
    (beatOf s u = some (b, x) → b.raw = 0 → strokeDue b.ctl x = true →
      exec (.rest u) s =
        .next (goes (if b.ctl.op = 2 ∨ b.ctl.op = 5 then { x with bar := x.bar + 1, passed := x.passed + 1, beat := .control }
          else { x with beat := .close }))) ∧
    (CtlDue s u 1 b → exec (.bar u) s = .next (goes { x with bar := b.bar + 1, passed := x.passed + 1, beat := .control })) ∧
    (CtlDue s u 2 b → loopCount b ≠ 0 →
      exec (.loopBegin u) s =
        .next (goes { x with beat := .stroke, loops := updAt x.loops b.ctl.level fun _ =>
          { isOpen := true, count := loopCount b, counter := 0, beginBar := b.bar } })) ∧
    (CtlDue s u 3 b → l.isOpen = true → l.counter + 1 < l.count →
      exec (.loopEnd u) s =
        .next (goes { x with bar := l.beginBar, passed := x.passed + 1, beat := .stroke,
                             loops := updAt x.loops b.ctl.level fun k => { k with counter := k.counter + 1 } })) ∧
    (CtlDue s u 3 b → ¬ (l.isOpen = true ∧ l.counter + 1 < l.count) →
      exec (.loopEnd u) s =
        .next (goes { x with bar := b.bar + 1, passed := x.passed + 1, beat := .control,
                             loops := updAt x.loops b.ctl.level fun _ => LoopLevel.closed })) ∧
    (CtlDue s u 4 b →
      exec (.brk u) s = .next (goes { x with beat := .parked, token := x.inflight.isEmpty || x.token })) ∧
    (CtlDue s u 6 b →
      exec (.halt u) s = .next (goes { x with beat := .stopped, token := x.inflight.isEmpty || x.token })) ∧
    (CtlDue s u 5 b →
      exec (.sectionCtl u) s =
        .next (restClocks { goes { x with beat := .stroke } with sched := { s.sched with layout := b.ctl.imm % 8 } }))) ∧
  (∀ (u : UnitId) (b : BeatCtx) (e : Nat) (s : State), CtlDue s u 2 b → loopCount b = 0 →
    scLoopEnd s.mem b.fire.score b.ctl.level (scBarCount s.mem b.fire.score - b.bar) b.bar = some e →
    exec (.loopBegin u) s = .next (s.updUnit u fun x => { x with bar := e + 1, passed := x.passed + 1, beat := .control }))

/-- CUE is done as it fires. On a unit with nothing in flight, and on the link unit, it completes at once; behind other strokes of any
other unit it waits for its completion (R63, R64).

A stroke that is done completes in its turn, the oldest of its unit first but on the link unit in any order (R64, R78): it leaves the
unit, its signals go out, and a unit past its break with nothing left in flight gives its token (R90). A GANG stroke
then reports its stopped partitions, and changes nothing more where there are none (R123); one with stopped partitions completes once
the other units of its core that compute the same problems have them written (R123). No stroke completes that is not done,
while a strike waits for the units, or while a request of it waits on a suspended channel (R284, R518). With a stroke of a Mallet unit
gone, its core's streams flow on, since a mode change may wait for that (R124). That signals wait for the
completion is the model's reading of when a stroke is done (log 79).

A signal raises its counter by 1; at 255 the counter stays, the overflow is logged, and the running job is struck with
`E_CUE_OVERFLOW` (R79, R80). Whose bar and unit the record names is the model's choice (log 87). -/
def Obligations.StrokesCompleteInBarOrder : Prop :=
  (∀ (u : UnitId) (b : BeatCtx) (s : State), Due s u 1 b →
    let t := doneStroke u s.sched.nextKey (fired u b s)
    let n := (s.unit u).inflight.length
    (n = 0 ∨ unitStave u = 13 → exec (.cue u) s = .next (completeStroke u n t)) ∧
    (n ≠ 0 → unitStave u ≠ 13 → exec (.cue u) s = .next t)) ∧
  (∀ (u : UnitId) (slot : Nat) (j : Job) (i : Inflight) (s : State), s.currentJob = some j →
    (s.unit u).inflight[slot]? = some i →
    let gone := s.updUnit u fun x => { x with inflight := x.inflight.eraseIdx slot }
    let sent := (sendSignals (s.scoreAddr j) u i.bar i.signal.toNat gone).updUnit u giveToken
    let after := if i.op = 0x11 ∧ unitStave u ≤ 4 then strikeGang j u i sent else sent
    let turn := i.phase = .done ∧ (slot = 0 ∨ unitStave u = 13) ∧ strikePending s = false ∧ othersWritten u i s = true
    (turn → completeStroke u slot s = after) ∧
    (turn → onSuspended s (flightRuns s u i) = false →
      exec (.strokeComplete u slot) s = .next (if unitStave u ≤ 4 then flowFrom (unitCore u) after else after)) ∧
    (¬ turn ∨ onSuspended s (flightRuns s u i) = true → exec (.strokeComplete u slot) s = .next s) ∧
    (∀ t : State, (∀ p ∈ (t.core (unitCore u)).stoppedParts, p.1 ≠ i.key) → strikeGang j u i t = t) ∧
    ((¬ (i.op = 0x11 ∧ unitStave u ≤ 4) ∨ ∀ p ∈ (s.core (unitCore u)).stoppedParts, p.1 ≠ i.key) → othersWritten u i s = true)) ∧
  (∀ (u : UnitId) (cue : Nat) (s : State),
    let x := s.unit u
    (x.cues.getD cue 0 < 255 →
      bumpCue u cue s = s.updUnit u fun y => { y with cues := updAt y.cues cue (· + 1) }) ∧
    (255 ≤ x.cues.getD cue 0 →
      bumpCue u cue s =
        strikeRunning .cueOverflow 3 (detailPlace (unitStave u) 0xFF (unitCore u) x.bar noDesc 0 0xFF)
          (logError 0x40 1 .struck (runningFn s) (unitStave u) (unitCore u) x.bar s)))

/-- FETCH_ARRIVAL: while a job runs, the fetcher of a core or of a chip unit brings what a unit of it stands before without, else the
next bar with the descriptors that its strokes name, and then stands after it (R95). It stays at most 256 bars ahead of the slowest of
its units (R97), ends at a BREAK and a HALT, and goes on along an open loop's turns (R95). A read from a suspended channel waits (R284);
how long it has waited counts from the last arrival (R285; the model's reading, log 100). That one command brings one bar is the
model's choice (log 94).

STROKE_RESUME: a paused stroke goes on, unless a strike waits for the units (R77, R518): a NOTIFY tries its ring again (R400); a RECV
whose window is free, with no earlier RECV waiting for it, opens it (R307); any other, but one behind another stroke's partial at its
merge port (R149), runs again once none of its flits waits for credit and it waits for no transfer tag, and on a core its streams flow
again. A stroke that is not paused stays as it is.

XFER_TIMEOUT: a SEND, a RECV or a drain of combination 7 that is not done when the timeout captured at its firing has passed strikes its
job with `E_COLL_TIMEOUT`; another stroke, or one that has time left, stays (R312).

COLL_TIMEOUT: a collective that has been in flight for its group's timeout, and for which no request stands, makes the member ask its
parent for an abort with the cause timeout; the root decides it (R330, R331). ABORT_NO_DECISION: the oldest request that no decision has
answered within the group's timeout ends the member's own job with that cause (R333). -/
def Obligations.FetchesPausesAndTimeouts : Prop :=
  (∀ (u : UnitId) (j : Job) (s : State), s.currentJob = some j →
    let a := s.scoreAddr j
    let x := s.fetcher u
    let us := fetchUnits u
    let missing := us.flatMap fun v =>
      if (s.unit v).passed < x.count then (barDescs s a (s.unit v).bar v).filter fun d => !(x.cache.contains d) else []
    let near := ∀ v ∈ us, x.count < (s.unit v).passed + 256
    let reads := j.stage = .running ∧ onSuspended s (fetchRuns s a u) = false
    let dated (y : Fetcher) : Fetcher := { y with since := s.time, limit := s.staged.cur.memSuspendLimit }
    (reads → missing ≠ [] → exec (.fetchArrival u) s = .next (s.updFetcher u fun y => dated (y.bring missing))) ∧
    (reads → missing = [] → x.ended = false → near →
      exec (.fetchArrival u) s =
        .next (s.updFetcher u fun y => dated ((y.bring (us.flatMap (barDescs s a y.bar))).next s.mem a j.params))) ∧
    (reads → missing = [] → (x.ended = true ∨ ¬ near) → exec (.fetchArrival u) s = .next s) ∧
    (¬ reads → exec (.fetchArrival u) s = .next s)) ∧
  (∀ (m : Memory) (a : Nat) (params : List Byte) (x : Fetcher),
    let c := scCtl m a x.bar
    let l := x.loops.getD c.level LoopLevel.closed
    (x.next m a params).count = x.count + 1 ∧
    (c.op ≠ 2 → c.op ≠ 3 → (x.next m a params).bar = x.bar + 1) ∧
    ((c.op = 4 ∨ c.op = 6) → (x.next m a params).ended = true) ∧
    (c.op = 3 → (x.next m a params).bar = if l.isOpen = true ∧ l.counter + 1 < l.count then l.beginBar else x.bar + 1)) ∧
  (∀ (u : UnitId) (slot : Nat) (i : Inflight) (s : State), (s.unit u).inflight[slot]? = some i →
    let goes : State := s.updUnit u fun x =>
      { x with inflight := x.inflight.map fun k => if k.key = i.key then { k with phase := .running } else k }
    let f := fireOf s u i
    let wi := recvWindow s.mem f i.desc
    (i.phase ≠ .paused ∨ strikePending s = true → exec (.strokeResume u slot) s = .next s) ∧
    (i.phase = .paused → strikePending s = false →
      (∀ j, unitStave u = 14 → s.currentJob = some j →
        exec (.strokeResume u slot) s = .next (postNotify j i.key i.imm.toNat i.bar i.loops s)) ∧
      (unitStave u = 13 → i.op = 0x11 → slotAt s.fabric.windows wi = none → recvBefore s wi i.key = false →
        exec (.strokeResume u slot) s = .next (openWindow wi (windowFor s f i.desc i.key) goes)) ∧
      (unitStave u = 13 → i.op = 0x11 → ((slotAt s.fabric.windows wi).isSome = true ∨ recvBefore s wi i.key = true) →
        exec (.strokeResume u slot) s = .next s) ∧
      (unitStave u ≠ 14 → (unitStave u = 13 → i.op ≠ 0x11) →
        (unitStave u ≠ 13 → ∀ h, headItem (s.core (unitCore u)) (unitStave u == 6) = some h → h.key = i.key) →
        (∀ q ∈ s.fabric.queued, q.key ≠ i.key) →
        (∀ x ∈ s.fabric.sends, x.key = i.key → flitsWait s x.xtag = false) →
        exec (.strokeResume u slot) s = .next (if unitStave u = 13 then goes else flowFrom (unitCore u) goes)))) ∧
  (∀ (u : UnitId) (slot : Nat) (i : Inflight) (s : State), (s.unit u).inflight[slot]? = some i →
    let due := i.phase ≠ .done ∧ i.firedAt + i.timeout ≤ s.time
    (xferStroke s u i = true → due →
      exec (.xferTimeout u slot) s = .next (settle (strikeRunning .collTimeout 3
        (detailPlace (unitStave u) 0xFF (unitCore u) i.bar i.desc 0 0xFF)
        (logError 0x23 1 .struck (runningFn s) (unitStave u) (unitCore u) i.bar s)))) ∧
    (xferStroke s u i = false ∨ ¬ due → exec (.xferTimeout u slot) s = .next s) ∧
    (unitStave u = 13 → (i.op = 0x10 ∨ i.op = 0x11) → xferStroke s u i = true)) ∧
  (∀ (tag : Word) (g : Group) (s : State), s.group tag.toNat = some g →
    let late (c : Collective) : Bool := decide (c.firedAt + g.timeoutUs ≤ s.time) && !(g.abortSent.any fun a => a.2 == c.seq)
    (∀ c, g.colls.find? late = some c →
      (g.rank ≠ 0 →
        exec (.collTimeout tag) s =
          .next (settle (sendClap g (treeParent g.rank) (clapMsg g 2 0 1 c.seq s.self [])
            (s.updGroup g.tag.toNat (noteRequest s.time c.seq))))) ∧
      (g.rank = 0 → g.checked = true → exec (.collTimeout tag) s = .next (settle (applyAbort g c.seq 1 s.self s))) ∧
      (noteRequest s.time c.seq g).abortSent = g.abortSent ++ [(s.time, c.seq)]) ∧
    ((∀ c ∈ g.colls, late c = false) → exec (.collTimeout tag) s = .next s) ∧
    (∀ t n, (g.abortSent.find? fun a => decide (a.1 + g.timeoutUs ≤ s.time)) = some (t, n) →
      exec (.abortNoDecision tag) s = .next (settle (endAbort 0x25 g n 1 s.self s))) ∧
    ((∀ a ∈ g.abortSent, s.time < a.1 + g.timeoutUs) → exec (.abortNoDecision tag) s = .next s))

/-! ## Matrix work -/

/-- MM, GANG and ATTN on a Mallet unit (R105, R107, R115, R119 to R121, R155, R213). Each counts what it meets as it fires, is done at once
where the unit has no set to give, and goes on as operands and free sets allow (R24, R77).

A unit takes the oldest entry that it has yet to accept, for its stroke of the same operation. Its mode changes first, once the stroke is
its oldest (R124); with both sets of the array in use the stroke pauses (R107); else the entry is added to the set of its block, which is
full with the block's last entry, and accepted. A row-mode entry adds to one column alone: each lane adds its products, group by group
(R106). The groups of a whole row, entry after entry, make the product of the row and the column (R45, R48).

MU2 and MU3 take the first product of a chain tile from MU0 and MU1 into their own sets, whose rows then hold the running state after that
tile (R155, R156), by the weight tile that the unit holds in its halves or fetches into one (R112, R158).

Which half of a weight buffer a tile is loaded into is the model's reading (log 16), that MU0 and MU1 hand whole sets over its choice (log
103). -/
def Obligations.MalletUnitsComputeTheirProducts : Prop :=
  (∀ (c : Fin 256) (mu : Fin 4) (b : BeatCtx) (s : State),
    let u := muUnit c.val mu.val
    let key := s.sched.nextKey
    let F := fired u b s
    let f := b.fire
    let d := matAt s.mem f b.word.desc
    let e := epiAt s.mem f d
    let a := attnAt s.mem f b.word.desc
    let problems := (List.range (b.word.imm % 16)).map fun p => matAt s.mem f (b.word.desc + p)
    let begins (sets : Nat) (t : State) : State := flowFrom c.val (if sets = 0 then doneStroke u key t else t)
    let rows := ((bandsOf d mu.val).flatMap fun x => rangeFrom (64 * x) 64).filter fun j => decide (j < d.n)
    let misses := if gathersRows s.mem f d then gatherMisses s.mem f e rows else 0
    (Due s u 0x10 b → d.combo ≠ 11 →
      exec (.mm c mu) s = .next (begins ((bandsOf d mu.val).length * blockCount d.t)
        (countCore c.val (fun k => { k with gatherOob := satAdd 32 k.gatherOob misses })
          (countReserved c.val (reservedTiles s.mem f d mu.val key ((s.core c.val).tiles.getD mu.val [])) F)))) ∧
    (Due s u 0x10 b → d.combo = 11 →
      exec (.mm c mu) s = .next (begins (if 2 ≤ mu.val then blockCount d.t else blockCount d.t * ceilDiv e.m 128)
        (countReserved c.val (chainReservedBlocks s.mem f d e mu.val ((s.core c.val).tiles.getD mu.val [])) F))) ∧
    (Due s u 0x11 b →
      exec (.gang c mu) s = .next (begins ((problems.map fun x => (gangTiles s.mem f x).length).sum)
        (countReserved c.val ((problems.map (gangReserved s.mem f)).sum) F))) ∧
    (Due s u 0x12 b →
      exec (.attn c mu) s = .next (begins (if 2 ≤ mu.val then blockCount a.t else blockCount a.t * ceilDiv (validKeys a f) 128)
        (countReserved c.val (attnReserved s.mem f a mu.val) F)))) ∧
  (∀ (c mu : Nat) (e : FeedEntry) (i : Inflight) (s : State), c < 256 → s.cores.length = 256 →
    ((s.core c).feeds.find? fun x => x.units.contains mu) = some e → takerOf s c mu e = some i → i.phase ≠ .paused →
    let u := muUnit c mu
    let k := s.core c
    let gang := i.op == 0x11
    let f := fireOf s u i
    let b := blankSet s.mem f i mu e
    let filling (a : AccSet) : Bool :=
      a.key == b.key && a.array == b.array && a.row0 == b.row0 && a.col0 == b.col0 && a.tile == b.tile && !a.full
    let ready := k.gangMode.getD mu false = gang
    (¬ ready → (s.unit u).inflight.head?.map (·.key) = some i.key →
      muStep c mu s = some (s.updCore c fun x =>
        { x with gangMode := updAt x.gangMode mu fun _ => gang, tiles := updAt x.tiles mu fun _ => [] })) ∧
    (¬ ready → (s.unit u).inflight.head?.map (·.key) ≠ some i.key → muStep c mu s = none) ∧
    (ready → k.accs.find? filling = none → 2 ≤ setsInUse k mu b.array → muStep c mu s = some (setPhase u i.key .paused s)) ∧
    (ready → ∀ a, (k.accs.find? filling = some a ∨ (k.accs.find? filling = none ∧ setsInUse k mu b.array < 2 ∧ a = b)) →
      ∃ t new, muStep c mu s = some t ∧ t.mem = s.mem ∧
        (t.core c).accs = k.accs.filter (fun x => !filling x) ++ [new] ∧
        new = { a with rows := new.rows, full := lastEntry s.mem f i e } ∧
        new.rows = (addEntry s.mem f i mu e a.rows (k.tiles.getD mu [])).1 ∧
        (t.core c).feeds.length + (t.core c).feedCredits = k.feeds.length + k.feedCredits ∧
        e ∉ (t.core c).feeds)) ∧
  (∀ (ints : Bool) (col : Nat) (ws : List (List (List Val))) (xs : List (List Val)) (rows : List (List Word)) (l : Nat) (r : List Word),
    rows[l]? = some r →
    let new := (addColumn ints col ws xs rows).getD l []
    new.length = r.length ∧ (∀ n, n ≠ col → new.getD n 0 = r.getD n 0) ∧
    (col < r.length → new.getD col 0 = (ws.zip xs).foldl (fun a p => addGroup ints a (p.1.getD l []) p.2) (r.getD col 0))) ∧
  (∀ (ints : Bool) (k p : Nat) (ws xs : List Val), 1 ≤ p → ws.length = k → xs.length = k →
    let groups (l : List Val) (n : Nat) : List (List Val) :=
      (rangeFrom (n * p) (min p (ceilDiv k 32 - n * p))).map fun g => (l.drop (32 * g)).take 32
    (List.range (stepCount k p)).foldl (fun a n => addGroups ints a (groups ws n) (groups xs n)) 0 = dot ints k ws xs) ∧
  (∀ (c : Nat) (i j x y : Inflight) (s : State), c < 256 → s.cores.length = 256 →
    let f := fireOf s (muUnit c 2) i
    let len := (chainLengths s.mem f i).1
    (strokeAt s (muUnit c 2) fun z => (z.op == 0x12 || (z.op == 0x10 && (matAt s.mem (fireOf s (muUnit c 2) z) z.desc).combo == 11)) &&
      decide (z.taken < blockCount (chainLengths s.mem (fireOf s (muUnit c 2) z) z).2)) = some i →
    muStroke s c 3 i.op i = some j → muStroke s c 0 i.op i = some x → muStroke s c 1 i.op i = some y →
    i.phase ≠ .paused → j.phase ≠ .paused →
    (stageSet s c 2 i f i.taken = none → stageStep c s = some (setPhase (muUnit c 2) i.key .paused s)) ∧
    (∀ a b lo hi, stageSet s c 2 i f i.taken = some a → stageSet s c 3 j f i.taken = some b → a.tile < ceilDiv len 128 →
      fullSet (s.core c) x.key 0 a.col0 a.tile = some lo → fullSet (s.core c) y.key 64 a.col0 a.tile = some hi →
      let ok (t k : Nat) : Bool := if i.op = 0x12 then allowedKey s.mem f (attnAt s.mem f i.desc) t k else true
      let tile := (stageTile s.mem f i 2 i.taken a.tile ((s.core c).tiles.getD 2 [])).1
      let next : AccSet :=
        { a with tile := a.tile + 1, rows := chainBlock s.tables (chainInOf s.mem f i 2 tile) ok a.col0 a.tile lo.rows hi.rows a.rows }
      ∃ t, stageStep c s = some t ∧ t.mem = s.mem ∧ next ∈ (t.core c).accs ∧ (t.core c).feeds = (s.core c).feeds))

/-- The feed stick (R113, R114, R122, R134, R208). A feed stroke counts what it meets as it fires, and goes on as credits allow. The entries
of FEED_MM go out in the order rounds, t-blocks, groups of k, columns, the last innermost. Each takes a credit of the broadcast FIFO, and
without one the stroke pauses (R23, R77); it carries its groups of one column of X, zeros at and beyond T, to the units with a band in the
round. Its credit returns when the last of them has accepted it. The window vectors of FEED_WIN take credits of their own FIFO.

The units of a core and of its section then take their steps, until none has one, or a strike is pending (R24). An order between units
that the spec does not give is the model's choice, and so is the number of steps at most taken (log 103). That FEED_WIN reads the stream
of the bar's CHAIN is the model's reading (log 17). -/
def Obligations.FeedStrokesDeliverTheirOperands : Prop :=
  (∀ (c : Fin 256) (b : BeatCtx) (s : State),
    let u := feedUnit c.val
    let F := fired u b s
    let f := b.fire
    let d := matAt s.mem f b.word.desc
    let e := epiAt s.mem f d
    let a := attnAt s.mem f b.word.desc
    let misses := if d.combo = 10 ∧ e.gatherW = false then gatherMisses s.mem f e (List.range d.t) else 0
    let bad (p : Nat) : Nat :=
      let x := matAt s.mem f (b.word.desc + p)
      reservedColumns s.mem f x (gangGroups s.mem f x)
    (Due s u 0x10 b →
      exec (.feedMm c) s = .next (flowFrom c.val (countCore c.val (fun k => { k with gatherOob := satAdd 32 k.gatherOob misses })
        (countReserved c.val (reservedColumns s.mem f d [0]) F)))) ∧
    (Due s u 0x11 b →
      exec (.feedGang c) s = .next (flowFrom c.val (countReserved c.val (((List.range (b.word.imm % 16)).map bad).sum) F))) ∧
    (∀ x, Due s u 0x12 b → winStream s.mem f b.bar = some x →
      exec (.feedWin c) s =
        .next (flowFrom c.val (countReserved c.val (winReserved s.mem f x (WinDesc.ofDesc (descOf s.mem f b.word.desc))) F))) ∧
    (Due s u 0x13 b →
      exec (.feedAttn c) s = .next (flowFrom c.val (countReserved c.val ((queryStream s.mem f a).reserved s.mem f a.d a.t) F)))) ∧
  (∀ (d : MatDesc) (n : Nat), n < rowEntries d →
    let p := groupsPerEntry d.wFmt d.xFmt
    let x := rowPlace d n
    ∃ g < stepCount d.k p, x.group = g * p ∧ x.col < 32 ∧ x.block < blockCount d.t ∧ x.round < roundCount d ∧
      n = ((x.round * blockCount d.t + x.block) * stepCount d.k p + g) * 32 + x.col) ∧
  (∀ (c : Nat) (f : Fire) (i : Inflight) (p : EntryPlace) (s : State), c < 256 → s.cores.length = 256 →
    let d := matAt s.mem f i.desc
    let k := s.core c
    let n := min (groupsPerEntry d.wFmt d.xFmt) (ceilDiv d.k 32 - p.group)
    i.op = 0x10 → d.combo < 11 → d.damper = 0 → roundUnits d p.round ≠ [] →
    (k.feedCredits = 0 → feedAt c f i p s = some (setPhase (feedUnit c) i.key .paused s)) ∧
    (0 < k.feedCredits → ∃ t e, feedAt c f i p s = some t ∧ t.mem = s.mem ∧ (t.core c).feeds = k.feeds ++ [e] ∧
      (t.core c).feedCredits + 1 = k.feedCredits ∧ (t.core c).accs = k.accs ∧
      e.key = i.key ∧ e.place = p ∧ e.units = roundUnits d p.round ∧
      e.carried = .column ((rangeFrom p.group n).map fun g => (rangeFrom (32 * g) (min 32 (d.k - 32 * g))).map fun j =>
        if 32 * p.block + p.col < d.t then codeVal d.xFmt (xCode s.mem f d 0 (32 * p.block + p.col) j) else Val.zero))) ∧
  (∀ (c : Nat) (i : Inflight) (v : WinVector) (s : State), c < 256 → s.cores.length = 256 →
    let k := s.core c
    (k.winCredits = 0 → pushWindow c i v s = setPhase (feedUnit c) i.key .paused s) ∧
    (0 < k.winCredits → ((pushWindow c i v s).core c).wins = k.wins ++ [{ key := i.key, bar := i.bar, vector := v }] ∧
      ((pushWindow c i v s).core c).winCredits + 1 = k.winCredits ∧ (pushWindow c i v s).mem = s.mem)) ∧
  (∀ (mu : Nat) (e : FeedEntry) (k : Core),
    (acceptEntry mu e k).feeds.length + (acceptEntry mu e k).feedCredits = k.feeds.length + k.feedCredits ∧
    (e.units = [mu] → e ∉ (acceptEntry mu e k).feeds) ∧ (acceptEntry mu e k).accs = k.accs) ∧
  (∀ (c : Nat) (s : State), ∃ n ≤ flowFuel,
    let cores := c :: (sectionMates s (jobScore s) c).filter fun k => !(k == c)
    Flows cores n s (flowFrom c s) ∧
      (n = flowFuel ∨ strikePending (flowFrom c s) = true ∨ ∀ k ∈ cores, flowStep k (flowFrom c s) = none))

/-- The drain stick (R107, R115, R121, R123, R136, R141, R146, R147, R157, R226). A drain stroke goes on as sets come. Of a row-mode
operation it takes the sets in the order rounds, t-blocks, units, each once it is full: the set leaves its unit, which counts it given; a
storing combination writes its output stage's codes, a quantising one the narrowed codes and scales. Of a chained product it takes a
t-block from MU2 and MU3 and writes its outputs; of a gang stroke it drains a tile through its epilogue, but for one whose partition was
stopped; of an attention in pass 1 it writes the recomputed probabilities of a chain tile. After its last set it is done.

The order in which sets are drained is the model's choice (log 103). -/
def Obligations.DrainStrokesWriteTheirOutputs : Prop :=
  (∀ (c : Fin 256) (b : BeatCtx) (s : State),
    let u := drainUnit c.val
    let d := matAt s.mem b.fire b.word.desc
    let sd := SendDesc.ofDesc (descOf s.mem b.fire (epiAt s.mem b.fire d).send)
    (∀ p ∈ [(Instr.drainMm c, 0x10), (.drainGang c, 0x11), (.drainAttn c, 0x12)],
      Due s u p.2 b → (p.2 = 0x10 → d.combo = 7 → (sendPeer s sd).isSome = true) →
      exec p.1 s = .next (flowFrom c.val (fired u b s))) ∧
    (Due s u 0x10 b → d.combo = 7 → sendPeer s sd = none →
      exec (.drainMm c) s = .next (strikePeer 8 c.val b.bar b.word.desc sd (fired u b s)))) ∧
  (∀ (c : Nat) (f : Fire) (i x : Inflight) (a : AccSet) (s : State),
    let d := matAt s.mem f i.desc
    let e := epiAt s.mem f d
    let p := drainPlace d i.given
    let mu := p.2.2.1
    let row0 := 64 * p.2.2.2
    let col0 := 32 * p.2.1
    let accs := (a.rows.take (d.n - row0)).map fun r => r.take (d.t - col0)
    let v := epiRows s.mem s.tables f d e row0 col0 accs
    let gives (t : State) : State :=
      updFlight (muUnit c mu) x.key
        (fun y => { y with given := x.given + 1, phase := if x.given + 1 = (bandsOf d mu).length * blockCount d.t then .done else y.phase })
        (updFlight (drainUnit c) i.key (fun y => { y with given := i.given + 1 }) t)
    let left := s.updCore c fun k => { k with accs := k.accs.filter fun z => !([a].contains z) }
    muStroke s c mu 0x10 i = some x → d.damper = 0 →
    (fullSet (s.core c) x.key row0 col0 0 = none → drainRow c f i s = none) ∧
    (fullSet (s.core c) x.key row0 col0 0 = some a →
      (d.combo = 0 ∨ d.combo = 1 ∨ d.combo = 2 ∨ d.combo = 3 ∨ d.combo = 9 ∨ d.combo = 10 →
        drainRow c f i s = some (gives (writeY f d row0 col0 (if d.combo = 0 then rawRows d accs else storeRows d v) left))) ∧
      (d.combo = 4 ∨ d.combo = 5 → drainRow c f i s = some (gives (blockQuantise f d e row0 col0 v left))))) ∧
  (∀ (c : Nat) (f : Fire) (i x y : Inflight) (lo hi : AccSet) (s : State),
    let d := matAt s.mem f i.desc
    let e := epiAt s.mem f d
    let tiles := ceilDiv e.m 128
    i.op = 0x10 → muStroke s c 2 0x10 i = some x → muStroke s c 3 0x10 i = some y →
    fullSet (s.core c) x.key 0 (32 * i.given) tiles = some lo → fullSet (s.core c) y.key 64 (32 * i.given) tiles = some hi →
    ∃ t, drainBlock c f i s = some t ∧ t.mem = (drainChain f d e (32 * i.given) lo.rows hi.rows s).mem ∧
      lo ∉ (t.core c).accs ∧ hi ∉ (t.core c).accs) ∧
  (∀ (c mu p n : Nat) (f : Fire) (i x : Inflight) (a : AccSet) (s : State),
    musHolding s.mem f.score i.bar 0x11 i.desc = [mu] → gangTileAt s.mem f i.desc (i.imm.toNat % 16) 0 i.given = (p, n) →
    muStroke s c mu 0x11 i = some x →
    let d := matAt s.mem f (i.desc + p)
    ((s.core c).accs.find? fun z => z.key == x.key && z.full && z.desc == i.desc + p && z.array == gangArray d n) = some a →
    ∃ t, drainGang c f i s = some t ∧ a ∉ (t.core c).accs ∧
      t.mem = if partitionStopped (s.core c) mu x.key d then s.mem else (drainCells f d i.key mu p a.row0 a.col0 a.rows s).mem) ∧
  (∀ (c : Nat) (f : Fire) (i x y : Inflight) (lo hi : AccSet) (s : State),
    let a := attnAt s.mem f i.desc
    let tiles := ceilDiv (validKeys a f) 128
    let b := i.given / tiles
    let k := i.given % tiles
    muStroke s c 0 0x12 i = some x → muStroke s c 1 0x12 i = some y →
    fullSet (s.core c) x.key 0 (32 * b) k = some lo → fullSet (s.core c) y.key 64 (32 * b) k = some hi →
    ∃ t, drainScores c f i s = some t ∧ lo ∉ (t.core c).accs ∧ hi ∉ (t.core c).accs ∧
      t.mem = (writeProbs f a k (32 * b) ((List.range (min 32 (a.t - 32 * b))).map fun n =>
        attnProbs s.tables s.mem f a (32 * b + n) k (((lo.rows ++ hi.rows).map fun r => r.getD n 0).take (validKeys a f - 128 * k))) s).mem) ∧
  (∀ (c : Nat) (i : Inflight) (s : State),
    (strokeAt s (drainUnit c) fun z => z.taken == 0 && decide (drainTotal s.mem (fireOf s (drainUnit c) z) z ≤ z.given)) = some i →
    let d := matAt s.mem (fireOf s (drainUnit c) i) i.desc
    (i.op = 0x11 ∨ (i.op = 0x10 ∧ d.combo ≠ 6 ∧ d.combo ≠ 7 ∧ d.combo ≠ 8) ∨
        (i.op = 0x12 ∧ (attnAt s.mem (fireOf s (drainUnit c) i) i.desc).pass1 = true)) →
      ∃ t, drainClose c s = some t ∧ t.mem = s.mem ∧ strokeDone (drainUnit c) i.key t)

/-- Strokes that merge across cores (R148, R149, R151, R175 to R184, R217). A drain stroke that has taken its last set passes on what it has
held back. A partial joins its port's queue, merged at once at rank 0, and its stroke pauses behind an unfinished merge; MERGE_PARTIAL_RX
combines what the next lower rank has merged with the core's own; complete merges then end. A REDUCE takes the rows that its CHAIN taps,
each returning a credit; with all of them it forms its statistics. One that does not merge writes its final values, and is done once every
core of its section has written.
Where the position of a maximum counts from is the model's reading (log 21). -/
def Obligations.MergingStrokesPassTheirPartials : Prop :=
  (∀ (c : Fin 256) (b : BeatCtx) (s : State), Due s (reduceUnit c.val) 0x10 b →
    exec (.reduce c) s = .next (flowFrom c.val (fired (reduceUnit c.val) b s))) ∧
  (∀ (c : Nat) (i : MergeItem) (t : State),
    let red := itemPort i.kind == some true
    let r := t.updCore c fun x => { x with merges := x.merges ++ [i] }
    ((headItem (t.core c) red).isSome = true → pushMerge c i t = settleMerges red 512 (setPhase (itemUnit c i) i.key .paused r)) ∧
    (headItem (t.core c) red = none → pushMerge c i t = settleMerges red 512 r)) ∧
  (∀ (c : Nat) (i : Inflight) (s : State),
    (strokeAt s (drainUnit c) fun z => z.taken == 0 && decide (drainTotal s.mem (fireOf s (drainUnit c) z) z ≤ z.given)) = some i →
    let f := fireOf s (drainUnit c) i
    let d := matAt s.mem f i.desc
    let a := attnAt s.mem f i.desc
    let own := heldRows (s.core c) i.key
    let taken := updFlight (drainUnit c) i.key (fun x => { x with taken := 1 }) s
    let freed := taken.updCore c fun k => { k with partials := k.partials.filter fun x => !(x.key == i.key) }
    let item (kind : MergeKind) (rank : Nat) : MergeItem :=
      { kind := kind, key := i.key, desc := i.desc, bar := i.bar, rank := rank, own := own,
        merged := if rank = 0 then some own else none }
    (i.op = 0x10 → (∀ x ∈ (s.core c).damper, sameBits i.desc i.bar i.loops x = false) →
      (d.combo = 6 → drainClose c s = some (pushMerge c (item .rowAmax f.rank) freed)) ∧
      (d.combo = 8 → drainClose c s = some (pushMerge c (item .argmax f.rank) freed)) ∧
      (d.combo = 7 → drainClose c s = some freed)) ∧
    (i.op = 0x12 → a.pass1 = false → drainClose c s = some (pushMerge c (item .attn (groupRank a f)) freed))) ∧
  (∀ (c : Nat) (i : Inflight) (s : State), (strokeAt s (reduceUnit c) fun z => z.given == 0) = some i → i.phase ≠ .paused →
    let f := fireOf s (reduceUnit c) i
    let x := RedDesc.ofDesc (descOf s.mem f i.desc)
    let k := s.core c
    (i.taken < (chainAt s.mem f x.chainDesc).rows →
      (∀ t, (k.taps.find? fun t => t.bar == i.bar && t.chainDesc == x.chainDesc) = some t →
        reduceStep c s = some (updFlight (reduceUnit c) i.key (fun z => { z with taken := i.taken + 1 })
          (s.updCore c fun y => { y with taps := y.taps.erase t, tapCredits := y.tapCredits + 1, tapHeld := y.tapHeld ++ [t] }))) ∧
      ((k.taps.find? fun t => t.bar == i.bar && t.chainDesc == x.chainDesc) = none → reduceStep c s = none)) ∧
    ((chainAt s.mem f x.chainDesc).rows ≤ i.taken → x.merge = true → x.pivot ≠ 0 → f.rank ≠ 0 →
      (k.merges.find? fun z => z.kind == .pivots && z.desc == i.desc && z.bar == i.bar) = none → reduceStep c s = none)) ∧
  (∀ (c key desc bar : Nat) (f : Fire) (x : RedDesc) (rows : List TapRow) (s : State),
    let grid := rows.map fun r => r.stages.getD x.tap []
    let masks := rows.map fun r => r.stages.getD x.mstage []
    let width := (rows.head?.map (·.width)).getD 0
    let val (i j : Nat) : Word := tapValue width (Grid.at grid i j)
    let cols := (grid.headD []).length
    let supplied (i : Nat) : Word := (needStream s.mem f x.pivotDesc).word 0 s.mem f 0 i
    let own := (keptOf x grid.length cols).zipIdx.map fun q =>
      keptStats s.tables x cols val (fun i j => !(Grid.at masks i j == 0)) (pivotOf x val supplied q.2 q.1) q.1
    (x.merge = false →
      let fins := own.map (finalStats s.tables x)
      runReduce c key desc bar f x rows none s =
        closeWritten (partialOf .statsDone key desc bar f.rank []) c
          ((writeStats s f x (fins.map (·.1)) (countFinal c x ((fins.filter (·.2)).length) s)).updCore c fun y =>
            { y with merges := y.merges ++ [partialOf .statsDone key desc bar f.rank []] })) ∧
    (x.merge = true → x.pivot = 0 →
      runReduce c key desc bar f x rows none s =
        pushMerge c (partialOf (if x.smax then .smax else .stats) key desc bar f.rank own) s)) ∧
  (∀ (c : Fin 256) (s : State), s.cores.length = 256 →
    let k := s.core c.val
    (∀ port i j m, (port = true → mergeNext c.val false s = none) → headItem k port = some i → i.merged = none → 0 < i.rank →
      headItem (s.core (((mergeCores s c.val i)[i.rank - 1]?).getD c.val)) port = some j → sameMerge i j = true →
      j.merged = some m →
      exec (.mergePartialRx c) s =
        .next (settleMerges port 512 (s.updCore c.val fun y => { y with merges := y.merges.map fun z =>
          if z.kind = i.kind ∧ z.desc = i.desc ∧ z.bar = i.bar ∧ z.key = i.key then
            { z with merged := some (combineItem s.tables i.kind m i.own) } else z }))) ∧
    (headItem k false = none → headItem k true = none → exec (.mergePartialRx c) s = .next s) ∧
    (∀ fin t, (∃ q ∈ sectionMates t (jobScore t) c.val, ∀ z ∈ (t.core q).merges, sameMerge fin z = false) →
      closeWritten fin c.val t = t) ∧
    (∀ port n t, (∀ q < 256, mergeReady t port q = none) → settleMerges port n t = t))

/-! ## The other strokes -/

/-- CHAIN computes its stages from its inputs in turn and writes its output streams (R164 to R174): where its input A is the window
stream, with all its vectors, each of which returns a credit as it is taken (R134); the rows that a REDUCE taps then go to the tap FIFO for
credits (R174, R537), and the stroke is done. STEP writes its latent and history (R238, R239), and RATTLE_SET one context of the core
(R203); each is then done. A CHAIN draws by the contexts that its core held as it fired (R172, R197). That a chain computes when it has all its vectors, and sends its tapped rows after, is the model's choice
(log 103). -/
def Obligations.RollStrokesWriteTheirStreams : Prop :=
  (∀ (c : Fin 256) (b : BeatCtx) (s : State), s.cores.length = 256 →
    let f := b.fire
    let key := s.sched.nextKey
    let u := rollUnit c.val
    let k := s.core c.val
    let x := StepDesc.ofDesc (descOf s.mem f b.word.desc)
    let r := stepRow s.mem f x
    let old := gridOf x.rows x.cols fun i j => (needStream s.mem f x.x).word 0 s.mem f i j
    let eps := gridOf x.rows x.cols fun i j => stepEps s.mem f x r i j
    let new := gridOf x.rows x.cols fun i j =>
      stepValue s.mem f x r (k.rattle.getD x.ctx RattleCtx.zero) (eps.at i j) (old.at i j) i j
    let hist := gridOf x.rows x.cols fun i j =>
      if x.histSrc then f32Fma r.q (eps.at i j) (f32Mul r.p (old.at i j)) else eps.at i j
    let m1 := writeGrid (needStream s.mem f x.xout) s.mem f x.cols new s.mem
    let w := descOf s.mem f b.word.desc
    (Due s u 0x10 b →
      exec (.chain c) s = .next (flowFrom c.val (updFlight u key (fun z => { z with rattle := k.rattle }) (fired u b s)))) ∧
    (Due s u 0x11 b →
      exec (.stepStroke c) s = .next (doneStroke u key { fired u b s with
        mem := if x.histEn then writeGrid (histSlot s.mem f x x.idx) s.mem f x.cols hist m1 else m1 })) ∧
    (Due s (.core c 11) 0x10 b →
      exec (.rattleSet c) s = .next (doneStroke (.core c 11) key ((fired (.core c 11) b s).updCore c.val fun y =>
        { y with rattle := updAt y.rattle (fld w 1 0) fun _ =>
          { seed := BitVec.ofNat 64 (fld w 127 64), stream := BitVec.ofNat 32 (fld w 159 128),
            idxBase := BitVec.ofNat 64 (fld w 223 160), rowStep := BitVec.ofNat 64 (fld w 287 224),
            colStep := BitVec.ofNat 64 (fld w 351 288) } })))) ∧
  (∀ (c : Nat) (i : Inflight) (s : State), c < 256 → s.cores.length = 256 →
    (strokeAt s (rollUnit c) fun z => z.op == 0x10) = some i → i.phase ≠ .paused →
    let u := rollUnit c
    let f := fireOf s u i
    let d := chainAt s.mem f i.desc
    let k := s.core c
    let takes := (match streamOf s.mem f d.inA with | some x => x.window | none => false) = true
    let e := chainEnv s i.rattle f d (if windowed s.mem f d then some k.winHeld else none)
    let outs := runStages { e with a := if d.cmode = 2 then (expandGrid s.mem f e (maskRows (runStages e) d.cstage)).1 else e.a }
    (i.given = 0 → takes → i.taken < d.rows →
      (∀ v, (k.wins.find? fun z => z.bar == i.bar) = some v →
        ∃ t, chainStep c s = some t ∧ (t.core c).wins = k.wins.erase v ∧ (t.core c).winCredits = k.winCredits + 1 ∧
          (t.core c).winHeld = k.winHeld ++ [v.vector] ∧ t.mem = s.mem) ∧
      ((k.wins.find? fun z => z.bar == i.bar) = none → chainStep c s = none)) ∧
    (i.given = 0 → (takes → d.rows ≤ i.taken) →
      ∃ t, chainStep c s = some t ∧ (t.core c).winHeld = [] ∧
        t.mem = (writeCounts f d outs s.mem (writeOut f d outs d.outQ d.qStage s.mem
          (writeOut f d outs d.outP d.pStage s.mem s))).mem ∧
        (t.core c).tapRows = (if tapped s.mem f i.bar i.desc then (List.range d.rows).map fun n =>
          { chainDesc := i.desc, bar := i.bar, width := d.width, stages := outs.map fun o => o.words.getD n [] } else [])) ∧
    (i.given ≠ 0 → k.tapRows = [] → chainStep c s = some (doneStroke u i.key s)) ∧
    (∀ r rest, i.given ≠ 0 → k.tapRows = r :: rest →
      (k.tapCredits = 0 → chainStep c s = some (setPhase u i.key .paused s)) ∧
      (0 < k.tapCredits → ∃ t, chainStep c s = some t ∧ t.mem = s.mem ∧ (t.core c).taps = k.taps ++ [r] ∧
        (t.core c).tapCredits + 1 = k.tapCredits ∧ (t.core c).tapRows = rest)))

/-- SCATTER moves its rows in ascending order (R221 to R224): a row whose position is negative, outside the window or
before the cache is dropped and counted; another is written at its owner's local row and scale. How often a dropped
row counts is the model's reading (log 20).

COPY and FILL on a core DMA and on the chip DMA (R270 to R273): every row of every plane is written at each
destination, a copy's bytes as they stood when it fired, byte b of a fill's row byte b mod 4 of the pattern; nothing
else changes, and the stroke is done. -/
def Obligations.ScatterAndDmaMoveTheirRows : Prop :=
  (∀ (c : Fin 256) (b : BeatCtx) (s : State), s.cores.length = 256 →
    let u : UnitId := .core c 9
    let f := b.fire
    let x := ScatterDesc.ofDesc (descOf s.mem f b.word.desc)
    (Due s u 0x10 b →
      exec (.scatter c) s = .next (doneStroke u s.sched.nextKey
        ((List.range x.rows).foldl (scatterRow c.val f x s.mem) (fired u b s)))) ∧
    (∀ (r : Nat) (t : State), scatterPos s.mem f x r = none →
      (scatterRow c.val f x s.mem t r).mem = t.mem) ∧
    (∀ (r p : Nat) (t : State) (owner : Nat), scatterPos s.mem f x r = some p → x.scrEn = true → x.memEn = false →
      (coresOf t f x.destSection)[x.destRank0 + (p - x.keyPos0) / x.m]? = some owner →
      let st := needStream s.mem f x.src
      let row := narrowRow x.kvFmt ((List.range x.d).map fun j => if x.srcT then st.val s.mem f j r else st.val s.mem f r j)
      let dst := needStream s.mem f x.dest
      let g := { f with core := owner }
      let i := (p - x.keyPos0) % x.m
      (scatterRow c.val f x s.mem t r).mem =
        row.2.1.zipIdx.foldl (fun m q => m.write (dst.scaleAddr s.mem g i (32 * q.2)) (BitVec.ofNat 8 q.1))
          (t.mem.writeRow (dst.row s.mem g i) x.kvFmt x.d 0 row.1))) ∧
  (∀ (c : Fin 256) (b : BeatCtx) (s : State),
    ∀ p ∈ [(Instr.coreDmaCopy c, UnitId.core c 10, 0x10), (.coreDmaFill c, .core c 10, 0x11), (.chipDmaCopy, .chip 12, 0x10),
           (.chipDmaFill, .chip 12, 0x11)],
      let u := p.2.1
      let d := DmaDesc.ofDesc (descOf s.mem b.fire b.word.desc)
      let src := bufAddr s.mem b.fire d.srcBuf d.srcOfs
      let dst (f : Fire) : Nat := bufAddr s.mem f d.dstBuf d.dstOfs
      let bytes (r : Nat × Nat) : List Byte :=
        if p.2.2 = 0x10 then s.mem.readBytes (src + r.1) d.bytes
        else (List.range d.bytes).map fun i => BitVec.ofNat 8 (d.fill / 256 ^ (i % 4))
      Due s u p.2.2 b →
      (∀ f ∈ dmaTargets s b.fire d, ∀ r ∈ d.rowList, hitsAny (readOnlyRanges s) (dst f + r.2) d.bytes = false) →
      exec p.1 s = .next (doneStroke u s.sched.nextKey { fired u b s with
        mem := (dmaTargets s b.fire d).foldl
          (fun m f => d.rowList.foldl (fun a r => a.writeBytes (dst f + r.2) (bytes r)) m) s.mem }))

/-- SEND, RECV and COLL (R306 to R310, R317, R320, R323). A SEND to a peer takes the next transfer tag that is free and puts its flits on
the way; while none is free it pauses; a peer outside the extents strikes the job. A RECV opens its closed window with a count of 0, and
pauses while it is open. A COLL takes its group's next sequence number; it starts once the group is checked. That tags run is the model's
choice (log 18). -/
def Obligations.LinkStrokesStartTheirTransfers : Prop :=
  ∀ (b : BeatCtx) (s : State), s.chips.length = 4 →
    let f := b.fire
    let key := s.sched.nextKey
    let F := fired linkUnit b s
    let w := descOf s.mem f b.word.desc
    let d := SendDesc.ofDesc w
    let base := bufAddr s.mem f d.srcBuf d.srcOfs
    let wi := fld w 31 28
    let dst (g : Fire) : Nat := bufAddr s.mem g (fld w 511 500) (fld w 499 460)
    let win : Window :=
      { key := key, dsts := if bitAt w 27 then (coresOf s f (fld w 26 25)).map fun c => dst { f with core := c } else [dst f],
        size := fld w 459 420, expect := fld w 419 380, count := 0, peers := [] }
    let tag := (scGroups s.mem f.score).getD (fld w 16 13) 0
    (Due s linkUnit 0x10 b → sendPeer s d = none → exec .send s = .next (strikePeer 13 0xFFFF b.bar b.word.desc d F)) ∧
    (∀ peer x, Due s linkUnit 0x10 b → sendPeer s d = some peer → peer ≠ s.self → 0 < d.rows → 0 < d.bytes → freeTag s = some x →
      nextWith (fun t => t.mem = s.mem ∧ t.fabric.nextXtag = x + 1 ∧ t.sched = F.sched ∧
          t.fabric.sends = s.fabric.sends ++ [{ xtag := x, stave := 13, core := 0, key := key, peer := peer, window := d.window,
                                                bytes := d.rows * d.bytes, acked := 0, flits := d.rows * ceilDiv d.bytes 236 }])
        (exec .send s)) ∧
    (∀ peer, Due s linkUnit 0x10 b → sendPeer s d = some peer → freeTag s = none →
      exec .send s = .next (setPhase linkUnit key .paused { F with fabric := { s.fabric with queued := s.fabric.queued ++
        [{ stave := 13, core := 0, key := key, peer := peer, window := d.window, svc := d.svc, pairs := d.pairs,
           runs := (List.range d.rows).map fun r => (d.remoteOfs + r * d.dstRow, s.mem.readBytes (base + r * d.srcRow) d.bytes) }] } })) ∧
    (∀ x, freeTag s = some x → ∀ y ∈ s.fabric.sends, y.xtag ≠ x) ∧
    (∀ peer dim minus p x, Due s linkUnit 0x10 b → sendPeer s d = some peer → peer ≠ s.self → peer < 2 ^ 14 → d.rows = 1 →
      1 ≤ d.bytes → d.bytes ≤ 236 → insideExtents s peer = true → nextHop s peer = some (dim, minus) →
      hopPort s dim minus (sendPair d.pairs 0) = some p → (s.port p).waitTx = [] → (s.port p).replay.length < 64 →
      (s.port p).credits = [] → freeTag s = some x →
      nextWith (fun t => ∃ g, t.out = s.out ++ [.flit p g] ∧ g.kind = .send ∧ g.seq = (s.port p).txSeq ∧
          g.dest.toNat = peer ∧ g.payload = s.mem.readBytes base d.bytes) (exec .send s)) ∧
    (Due s linkUnit 0x11 b → slotAt s.fabric.windows wi = none → (∀ i ∈ (s.unit linkUnit).inflight, i.op ≠ 0x11) →
      exec .recv s = .next (openWindow wi win F) ∧
      (s.fabric.waiting = [] →
        nextWith (fun t => t.fabric.windows = updAt s.fabric.windows wi (fun _ => some win) ∧ t.mem = s.mem ∧ t.out = s.out ∧
          t.chips = F.chips ∧ t.cores = F.cores) (exec .recv s))) ∧
    (Due s linkUnit 0x11 b → (slotAt s.fabric.windows wi).isSome = true →
      exec .recv s = .next (setPhase linkUnit key .paused F)) ∧
    (∀ g, Due s linkUnit 0x12 b → s.group tag = some g → (g.checked = true ∨ (g.coll 0).isSome = true) →
      let waits := takeEarly tag g.nextSeq (F.updGroup tag fun y =>
        { y with nextSeq := if g.nextSeq = 65535 then 1 else g.nextSeq + 1,
                 colls := y.colls ++ [collectiveFor s f b.word.desc key g.nextSeq] })
      exec .coll s = .next (if g.checked then startColl tag g.nextSeq waits else waits))

/-- ENC_FRAME and DEC_FRAME queue their frame for its engine in firing order (R349); a fenced engine, a failed session and an unfit one
strike the job (R280, R373, R491). CODEC_FRAME_DONE ends the oldest frame, whose session is loaded into the engine. An encoded frame that
fits is written with its report and committed; of one that does not fit only the report is written (R351, R361, R362). A decoded frame is
written with its report. Either way its stroke is done.

A switch of the engine keeps the state of the session that it served in that session's context, and takes that of the next (R349). A unit
damaged in a header shows nothing and counts as a frame alone; one damaged in its data shows what stands for it (R365, R366).
A unit of no bytes shows one of the frames still held for output, which then waits no longer, and with none shows nothing (R363).

What an encoder puts in its units is an uninterpreted function (log 10); zeros in the report are the model's choice (log 25). -/
def Obligations.CodecFramesAreServedInOrder : Prop :=
  (∀ (e : Engine) (b : BeatCtx) (s : State),
    let c := if e = .encoder then Instr.encFrame else Instr.decFrame
    let op := if e = .encoder then 0x10 else 0x11
    let w := descOf s.mem b.fire b.word.desc
    let h := fld w 31 26
    let F := fired codecUnit b s
    let struck (source : Nat) (cause : Status) : State :=
      strikeRunning cause 3 (detailPlace 14 0xFF 0xFFFF b.bar b.word.desc 0 0xFF)
        (logError source 1 .struck (runningFn F) 14 0xFFFF b.bar F)
    (∀ x, Due s codecUnit op b → (s.engine e).fenced = false → s.session h = some x → x.failed = false →
      sessionFits s b.job (e == .decoder) w = true →
      exec c s = .next (F.updEngine e fun g =>
        { g with queue := g.queue ++ [{ session := h, key := s.sched.nextKey, desc := w, job := b.job.id }] })) ∧
    (∀ x, Due s codecUnit op b → (s.engine e).fenced = false → s.session h = some x → x.failed = false →
      sessionFits s b.job (e == .decoder) w = false → exec c s = .next (struck 0x39 .invalid)) ∧
    (Due s codecUnit op b → (s.engine e).fenced = true → exec c s = .next (struck 0x42 .state)) ∧
    (∀ x, Due s codecUnit op b → (s.engine e).fenced = false → s.session h = some x → x.failed = true →
      exec c s = .next (struck 0x11 .channelRetired)) ∧
    (Due s codecUnit op b → (s.engine e).fenced = false → s.session h = none → exec c s = .next (struck 0x39 .invalid)) ∧
    ((s.engine e).queue = [] → exec (.codecFrameDone e) s = .next s) ∧
    (∀ q rest j x, (s.engine e).queue = q :: rest → s.job q.job = some j → s.session q.session = some x →
      let t := loadEngine e q.session x (s.updEngine e fun g => { g with queue := rest })
      let k := (t.engine e).loaded.getD x.coding
      let f := frameFire t j
      let ends (r : State) : Host.Outcome State Fault Refusal := .next (doneStroke codecUnit q.key r)
      (x.decode = false →
        let d := EncDesc.ofDesc q.desc
        let p := preprocess t.mem (bufAddr t.mem f d.inBuf d.inOfs) d x
        let key := keyFrame x k d.forceKey
        let made := encodeBytes x k p.1.flatten key d.last
        let bs := made.2
        let rep (st : Nat) : Report :=
          { status := st, ftype := if key then 0 else 1 + Config.encodeType x.params k.token p.1.flatten key d.last % 2, shown := false,
            bytes := bs.length, frameNum := k.frames, nans := p.2.1, clamps := p.2.2, work := 0, budget := 0, errOfs := 0 }
        let place := bufAddr t.mem f d.repBuf d.repOfs
        let next := { k with frames := k.frames + 1, token := Config.encodeState x.params k.token p.1.flatten key d.last,
                             keys := made.1 }
        (bs.length ≤ d.outSize →
          exec (.codecFrameDone e) s = ends (unitWrite 14
            (commitFrame x next (unitWrite 14 t (bufAddr t.mem f d.outBuf d.outOfs) bs))
            place (reportBytes (rep 0)))) ∧
        (d.outSize < bs.length → exec (.codecFrameDone e) s = ends (unitWrite 14 t place (reportBytes (rep 2))))) ∧
      (x.decode = true →
        let i := inflightOf t codecUnit q.key
        exec (.codecFrameDone e) s =
          ends (decodeFrame j ((i.map (·.bar)).getD noDesc) ((i.map (·.desc)).getD noDesc) x k (DecDesc.ofDesc q.desc) t)) ∧
      (x.decode = true → k.waiting = [] →
        let d := DecDesc.ofDesc q.desc
        let place := bufAddr t.mem f d.repBuf d.repOfs
        let u := Config.decodeFacts x.params k.token []
        d.inBytes = 0 → overlaps place 64 x.ctxAddr x.ctxSize = false →
        exec (.codecFrameDone e) s =
          ends (unitWrite 14 (commitFrame x { k with frames := k.frames + 1 } t) place (reportBytes
            { status := 0, ftype := u.ftype % 3, shown := false, bytes := 0, frameNum := k.frames, nans := 0, clamps := 0, work := 0,
              budget := 2 * (u.width * u.height), errOfs := 0xFFFFFFFF }))))) ∧
  (∀ (e : Engine) (h old : Nat) (x y : Session) (k : Coding) (s : State),
    (s.engine e).lastServed = some old → (s.engine e).loaded = some k →
    (old = h → loadEngine e h x s = s) ∧
    (old ≠ h → s.session old = some y →
      let t := loadEngine e h x s
      t.session old = some { y with coding := k } ∧ (t.engine e).lastServed = some h ∧ (t.engine e).loaded = some x.coding)) ∧
  (∀ (x : Session) (c : Coding) (bs : List Byte),
    let u := Config.decodeFacts x.params c.token bs
    let r := decodeUnit x c bs
    (headerDamaged x u = true → r = { status := 3, planes := none, next := { c with frames := c.frames + 1 } }) ∧
    (headerDamaged x u = false → dataDamaged c u bs.length = true →
      r.status = 1 ∧ r.planes = some (concealed x c u) ∧
      ∀ n ∈ u.frames, n ∉ u.drops ∨ n ∈ r.next.waiting → (n, concealed x c u) ∈ r.next.held) ∧
    (headerDamaged x u = false → dataDamaged c u bs.length = false →
      r.status = 0 ∧ (u.shown = none → r.planes = none) ∧
      ∀ n ∈ u.frames, n ∉ u.drops ∨ n ∈ r.next.waiting → (n, Config.decodePlanes x.params c.token c.held bs n) ∈ r.next.held)) ∧
  (∀ (x : Session) (c : Coding),
    let r := flushUnit x c
    r.status = 0 ∧ r.next.held = c.held ∧ r.next.frames = c.frames + 1 ∧
    (c.waiting = [] → r.planes = none) ∧
    (c.waiting ≠ [] → ∃ n ∈ c.waiting, r.planes = ((c.held.find? fun y => y.1 == n).map (·.2)) ∧
      r.next.waiting = c.waiting.filter fun k => !(n == k)))

/-! ## Jobs -/

/-- From the input digests to HALT (R92, R284, R491, R509, R516, R520, R535): the digests stand, once no read of them waits on a suspended
channel, no downbeat is under way and no refill of the job's cores runs, and start the first beat at the entry's first bar; a completed
kernel parks the job at the bar after its break, or strikes it where one of its cores is fenced; the
HALT closes its windows, leaves the units and takes the job to its output digests. What the body takes at HALT is the model's reading (log
30), and when a slice starts its choice (log 28). -/
def Obligations.JobsGoFromTheirDigestsToTheirHalt : Prop :=
  ∀ (s : State) (j : Job), s.currentJob = some j → strikePending s = false →
    let u := s.unit (.chip 12)
    let first := unitAtBar (scFirstBar s.mem (s.scoreAddr j) j.entry) (List.replicate 4 LoopLevel.closed)
    (j.stage = .digesting → s.sched.downbeat = false → onSuspended s (digestRuns s j 2) = false → noRefill s j = true →
      nextWith (fun t => t.mem = s.mem ∧ (∀ c ∈ t.chips, c = first) ∧ t.sched.current = some j.id ∧
          ∃ k, t.job j.id = some k ∧ k.stage = .running ∧ k.inputs = bufferDigests s j 2 ∧ k.stepDigest = stepTableDigest s j ∧
            k.runSince = s.time)
        (exec .inputDigestsDone s)) ∧
    (j.stage ≠ .digesting ∨ s.sched.downbeat = true ∨ onSuspended s (digestRuns s j 2) = true ∨ noRefill s j = false →
      exec .inputDigestsDone s = .next s) ∧
    (tallied s .parked = true →
      let k : Job := { j with stage := .parked, kernels := j.kernels + 1, parkBar := u.bar + 1, parkLoops := u.loops,
                              layout := s.sched.layout }
      let t : State := { s with
        sched := { s.sched with jobs := s.sched.jobs.map fun x => if x.id = j.id then
          { x with stage := .parked, kernels := x.kernels + 1, parkBar := u.bar + 1, parkLoops := u.loops,
                   layout := s.sched.layout } else x } }
      ((∀ c ∈ scoreCores s (s.scoreAddr j), (s.core c).fenced = false) → exec .kernelComplete s = .next (settle t)) ∧
      ((∃ c ∈ scoreCores s (s.scoreAddr j), (s.core c).fenced = true) →
        exec .kernelComplete s = .next (settle (strikeState t k)))) ∧
    (tallied s .parked = false → exec .kernelComplete s = .next s) ∧
    (tallied s .stopped = true → s.sched.downbeat = false →
      exec .jobHaltComplete s = .next (settle (leaveUnits j s)) ∧
      (∃ k, (leaveUnits j s).job j.id = some k ∧ k.stage = .outputs ∧ k.kernels = j.kernels + 1 ∧ k.links = j.links ∧
        k.elapsed = some (min (s.time - j.startedAt) (2 ^ 32 - 1)) ∧ k.tablesDigest = tablesDigest s) ∧
      (leaveUnits j s).sched.current = none ∧ (∀ w ∈ (leaveUnits j s).fabric.windows, w = none) ∧ (leaveUnits j s).mem = s.mem) ∧
    (tallied s .stopped = false → exec .jobHaltComplete s = .next s)

/-- What comes after HALT (R284, R511 to R516): output digests, once no read of them and no write of the body waits on a suspended channel,
give the oldest job that waits its body and its place: unsigned it ends with `OK`, else the body waits for its signature or joins the open batch. A signed body's
job ends with `OK`. The signature's bytes are free (log 9).

NOTIFY posts its event record, or pauses while the ring is full (R77, R400). -/
def Obligations.BodiesAreWrittenSignedAndPosted : Prop :=
  ∀ s : State,
    (∀ j, (s.sched.jobs.find? fun x => x.stage == .outputs) = some j → s.job j.id = some j →
      onSuspended s (areaRun s j :: digestRuns s j 3) = false →
      let done := bufferDigests s j 3
      let body := provBody s { j with outputs := done }
      let kept (stage : JobStage) (t : State) : Prop := ∃ k, t.job j.id = some k ∧ k.stage = stage ∧ k.body = body ∧ k.outputs = done
      let area (kind : Nat) (t : State) : Prop :=
        hitsAny (readOnlyRanges s) j.provAddr (64 + body.length) = false →
        t.mem = s.mem.writeBytes j.provAddr (areaHeader kind 0 body.length 0 0 0 ++ body)
      (j.signMode = 0 →
        nextWith (fun t => area 1 t ∧ kept .signing t ∧ t.sec.sign = s.sec.sign ++ [.body j.id]) (exec .outputDigestsDone s)) ∧
      (j.signMode = 1 →
        nextWith (fun t => area 2 t ∧ kept .batched t ∧ t.sec.open_ = s.sec.open_ ++ [(j.id, body)] ∧
          t.sec.openedAt = (if s.sec.open_ = [] then s.time else s.sec.openedAt)) (exec .outputDigestsDone s)) ∧
      (j.signMode = 2 →
        let k := { j with outputs := done, body := body }
        exec .outputDigestsDone s = .next (settle (endJob k .ok .ok 0 (detailJob k)
          (guardedWrite j.fn 0xFF (guardedWrite j.fn 0xFF (s.updJob j.id fun _ => k) j.provAddr (areaHeader 0 0 body.length 0 0 0 ++ body))
            (j.provAddr + 64 + body.length) (List.replicate 3312 0)))))) ∧
    ((∀ j ∈ s.sched.jobs, j.stage ≠ .outputs) → exec .outputDigestsDone s = .next s) ∧
    (∀ j, (s.sched.jobs.find? fun x => x.stage == .outputs) = some j → onSuspended s (areaRun s j :: digestRuns s j 3) = true →
      exec .outputDigestsDone s = .next s) ∧
    (onSuspended s ((signedJobs s).map (areaRun s)) = true → exec .bodySigned s = .next (beginAreaWait (signedJobs s) s)) ∧
    (∀ id rest j, s.sec.sign = .body id :: rest → s.job id = some j → onSuspended s [areaRun s j] = false →
      let sig := fitBytes 3309 (Config.signature s.fresh (ascii "grx-prov") j.body)
      exec .bodySigned s =
        .next (settle (endJob j .ok .ok 0 (detailJob j) (guardedWrite j.fn 0xFF { s with sec := { s.sec with sign := rest }, fresh := s.fresh + 1 }
          (j.provAddr + 64 + j.body.length) (fitBytes 3312 sig))))) ∧
    (s.sec.sign = [] → exec .bodySigned s = .next s) ∧
    (∀ b k, Due s codecUnit 0x20 b → s.queue b.job.fn b.job.queue = some k →
      (k.cmpUnreleased + 1 < k.cmpEntries → k.held = [] →
        exec .notify s = .next (doneStroke codecUnit s.sched.nextKey (postRecord b.job.fn b.job.queue
          { tag := b.job.tag, status := .ok, cause := .ok, event := true, provAddr := 0, kind := 4,
            detail := BitVec.ofNat 352 (packFields
              ([(4, b.word.imm), (4, b.bar)] ++ (List.range 4).map fun i => (4, b.fire.loops.getD i 0))), job := none }
          (fired codecUnit b s)))) ∧
      (k.cmpEntries ≤ k.cmpUnreleased + 1 →
        exec .notify s = .next (setPhase codecUnit s.sched.nextKey .paused (fired codecUnit b s))))

/-- An open batch closes when it holds 4,096 bodies or 10 ms after its first body; the bodies beyond it open the next
batch.

The signed batch: each of its bodies, checked against its path by the rule's procedure, gives the batch's root and
uses the whole path. -/
def Obligations.BatchesCloseAndProveTheirBodies : Prop :=
  (∀ s : State,
    let due := s.sec.open_ ≠ [] ∧ (4096 ≤ s.sec.open_.length ∨ s.sec.openedAt + 10000 ≤ s.time)
     let now := s.sec.open_.take 4096
     (due → exec .batchClose s =
        .next { s with sec := { s.sec with batchSeq := s.sec.batchSeq + 1, open_ := s.sec.open_.drop 4096, openedAt := s.time,
                                           sign := s.sec.sign ++ [.batch (now.map (·.1)) (s.sec.batchSeq + 1) (now.map (·.2))] } }) ∧
     (¬ due → exec .batchClose s = .next s)) ∧
  (let check (h : Digest) (i n : Nat) (path : List Digest) : Digest × List Digest :=
    ((List.range 13).foldl (fun (acc : Digest × Nat × Nat × List Digest) _ =>
      let (h, i, n, p) := acc
      if n ≤ 1 then acc
      else if i % 2 = 1 then (batchNode (p.headD 0) h, i / 2, (n + 1) / 2, p.drop 1)
      else if i + 1 < n then (batchNode h (p.headD 0), i / 2, (n + 1) / 2, p.drop 1)
      else (h, i / 2, (n + 1) / 2, p)) (h, i, n, path) |> fun x => (x.1, x.2.2.2))
  ∀ (bodies : List (List Byte)) (i : Nat), i < bodies.length → bodies.length ≤ 4096 →
    let leaves := bodies.map batchLeaf
    check (batchLeaf (bodies.getD i [])) i bodies.length (batchPath 13 i leaves) = (batchRoot 13 leaves, []))

/-- The decision serves the highest level (R406, R407): the job it picks of a level is ready, and no ready candidate
of any queue stands at a higher one; while decisions are held it picks none. That none is taken while a test waits is
the model's choice (log 32). -/
def Obligations.DecisionsServeTheHighestLevel : Prop :=
  ∀ s : State,
    (∀ l k, topLevel s none = some l → nextReady s l none = some k →
      ready s k = true ∧ (∃ fn < 32, ∃ q < 8, candidateOf s fn q = some k ∧ ∃ e, s.queue fn q = some e ∧ e.priority = l) ∧
      ∀ fn < 32, ∀ q < 8, ∀ e x, s.queue fn q = some e → e.priority ≤ 3 → candidateOf s fn q = some x → ready s x = true →
        e.priority ≤ l) ∧
    (topLevel s none = none → ∀ fn < 32, ∀ q < 8, ∀ e x, s.queue fn q = some e → e.priority ≤ 3 → candidateOf s fn q = some x →
      ready s x = false) ∧
    (∀ n, decisionsHeld s = true → decideAll n s = s) ∧
    (∀ n id j, s.sched.current = some id → s.job id = some j → j.stage ≠ .parked → decideAll n s = s)

/-- Evictions (R409, R410): one begins when a job above the running one has waited past `BREAK_WAIT_US` at no break;
the parked units' state is saved, or the job runs on where the save area can no longer be used; once no request waits on
a suspended channel the copied regions stand in the save area and the job is evicted, and its restore writes them back and it runs on. What PREEMPTIONS counts is the model's choice (log 28). -/
def Obligations.EvictionsSaveAndRestore : Prop :=
  ∀ (s : State) (j : Job), s.currentJob = some j → strikePending s = false →
    let stage (st : JobStage) : State := s.updJob j.id fun x => { x with stage := st }
    (j.stage = .running → tallied s .parked = false → tallied s .stopped = false → evictorWaits s j = true →
      s.preempt.evict = true → saveAreaOk s s.preempt = true → s.sched.save = none → s.sched.parks = [] →
      s.sched.downbeat = false → s.test = none →
      exec .evictionBegin s =
        .next { s with sched := { s.sched with parks := [.eviction],
                                               jobs := s.sched.jobs.map fun x => if x.id = j.id then { x with stage := .evicting } else x } }) ∧
    (j.stage = .running → s.preempt.evict = false → exec .evictionBegin s = .next s) ∧
    (j.stage = .evicting → s.sched.save = none → (∀ u ∈ activeUnits s, (s.unit u).inflight = []) →
      tallied (stage .running) .parked = false → tallied (stage .running) .stopped = false →
      saveAreaOk s s.preempt = true → s.preempt.evict = true →
      nextWith (fun t => t.mem = s.mem ∧ (∀ k ∈ t.cores, ∀ u ∈ k.units, u = UnitState.idle) ∧ t.sched.current = s.sched.current ∧
          ∃ a, t.sched.save = some a ∧ a.job = j.id ∧ a.chips = s.chips ∧ a.gathers = s.gathers ∧
            a.cores = (layoutCores s.fuses.variant s.mem (s.scoreAddr j) s.sched.layout).map fun c => (c, s.core c))
        (exec .evictionParked s)) ∧
    (j.stage = .evicting → s.sched.save = none → (∀ u ∈ activeUnits s, (s.unit u).inflight = []) →
      tallied (stage .running) .parked = false → tallied (stage .running) .stopped = false →
      (saveAreaOk s s.preempt = false ∨ s.preempt.evict = false) →
      exec .evictionParked s = .next { stage .running with sched := { (stage .running).sched with parks := [] } }) ∧
    (∀ a, j.stage = .evicting → s.sched.save = some a → onSuspended s (saveRanges s.preempt) = false →
      (∀ r ∈ saveRanges s.preempt, hitsAny (imageRanges s) r.1 r.2 = false) →
      let work := a.cores.map fun c => ((workingRange s c.1).1, s.mem.readBytes (workingRange s c.1).1 (workingRange s c.1).2)
      let t := (saveRanges s.preempt).foldl (fun acc r => forgetRange r.1 r.2 acc) s
      exec .evictionCopyDone s =
        .next (settle { t with sched := { s.sched with
          jobs := s.sched.jobs.map (fun x => if x.id = j.id then { x with stage := .evicted, preemptions := x.preemptions + 1 } else x),
          save := some { a with work := work }, current := none, parks := [] } })) ∧
    (∀ a, j.stage = .evicting → s.sched.save = some a → onSuspended s (saveRanges s.preempt) = false →
      (∃ r ∈ saveRanges s.preempt, hitsAny (imageRanges s) r.1 r.2 = true) →
      let work := a.cores.map fun c => ((workingRange s c.1).1, ([] : List Byte))
      let t := (saveRanges s.preempt).foldl (fun acc r => guardedForget (imageRanges s) j.fn 0xFF r.1 r.2 acc) s
      exec .evictionCopyDone s =
        .next (settle { t with sched := { t.sched with
          jobs := t.sched.jobs.map (fun x => if x.id = j.id then { x with stage := .evicted, preemptions := x.preemptions + 1 } else x),
          save := some { a with work := work }, current := none, parks := [] } })) ∧
    (∀ a, j.stage = .restoring → s.sched.save = some a → a.job = j.id → onSuspended s (saveRanges s.preempt) = false →
      noRefill s j = true → a.work.length = a.cores.length → (∀ w ∈ a.work, w.2 ≠ []) →
      nextWith (fun t => t.mem = a.work.foldl (fun m w => m.writeBytes w.1 w.2) s.mem ∧ t.sched.save = none ∧
          t.sched.layout = j.layout ∧
          ∃ k, t.job j.id = some k ∧ k.stage = .running ∧ k.runSince = s.time)
        (exec .restoreDone s))

/-- Resident swaps (R260, R414, R415), downbeats (R190, R426, R428) and the end of a strike (R518): each takes the
step that is due, and none otherwise; a copy that waits on a suspended channel is not done (R284). What a swap makes of an image that has changed is the model's reading (log 29). -/
def Obligations.SwapsDownbeatsAndStrikesComplete : Prop :=
  ∀ s : State,
    (∀ r, swapDue s = some r →
      let t := { s with resident := { s.resident with swap := some r } }
      ((∀ j, s.currentJob = some j → j.stage ≠ .swapping) → exec .residentSwapStart s = .next t) ∧
      (∀ j, s.currentJob = some j → j.stage = .swapping →
        exec .residentSwapStart s = .next (t.updJob j.id fun x =>
          { x with readFrom := s.time, readLimit := s.staged.cur.memSuspendLimit, stage := .swapping }))) ∧
    (swapDue s = none → exec .residentSwapStart s = .next s) ∧
    (∀ r l, s.resident.swap = some r → s.currentJob = none → s.resident.load = some l → l.image = r → mapped s r.addr r.size = true →
      onSuspended s [(r.addr, r.size)] = false →
      exec .residentSwapDone s =
        .next (settle (respond l.fn l.tag 0x12 .ok (digestHead r.digest)
          (installResident r true { s with resident := { s.resident with swap := none, load := none } })))) ∧
    (∀ r j, s.resident.swap = some r → s.currentJob = some j → j.stage = .swapping → onSuspended s [(r.addr, r.size)] = false →
      let t := { s with resident := { s.resident with swap := none } }
      exec .residentSwapDone s = .next (settle (if imageHolds s r then afterSwap j (installResident r false t)
        else failSwapJob j (failSwap r t)))) ∧
    (s.resident.swap = none → exec .residentSwapDone s = .next s) ∧
    (∀ r, s.resident.swap = some r → onSuspended s [(r.addr, r.size)] = true → exec .residentSwapDone s = .next s) ∧
    (∀ r listed t, (installResident r listed t).resident.cur = some r ∧ (installResident r listed t).resident.invalid = false ∧
      (listed = true → (installResident r listed t).resident.catalogue.head? = some r)) ∧
    (let due := s.fw.state = .ready ∧ downbeatDue s = true ∧ s.sched.downbeat = false ∧ downbeatWaits s = false
     (due → exec .downbeatStart s =
        .next { s with sched := { s.sched with downbeat := true, parks := s.sched.parks ++ [.downbeat] } }) ∧
     (¬ due → exec .downbeatStart s = .next s)) ∧
    (s.sched.downbeat = true → allParked s (runsThrough s) = true →
      let t := swapTables (commitNow s)
      exec .downbeatParked s = .next (settle { t with
        sched := { t.sched with downbeat := false, parks := t.sched.parks.filter fun p => !(p == .downbeat) } })) ∧
    (∀ c, s.staged.commit = some c → commitDue s = true →
      commitNow s = respond 0 c.tag 0x32 .ok 0 (applyCommit s) ∧
      (applyCommit s).staged = { cur := s.staged.pending.foldl applySetting s.staged.cur, pending := [], commit := none }) ∧
    (∀ j st cause kind detail, s.currentJob = some j → strikeOf s = some (st, cause, kind, detail) → s.sched.downbeat = false →
      exec .strikeParked s =
        .next (settle (freeUnits (endJob j st cause kind (if kind = 0 then detailNow s j else detail)
          (releaseSave j.id (forgetWritten j s)))))) ∧
    (strikeOf s = none → exec .strikeParked s = .next s)

/-! ## Tests, parity and memory -/

/-- Self-test and calibration (R257, R490 to R494): a deferred test begins when no job runs; the answer carries the
targets that failed; a tested core's scratch is zero and its fence follows the result; of a position trained again, each
channel that failed is retired and each other stays (R492). What a test finds is an operand (log 78); when a fenced core's job is struck is the model's
reading (log 47). -/
def Obligations.TestsEndWithTheirResults : Prop :=
  ∀ (x : Test) (s : State), s.test = some x →
    let due := x.running = false ∧ (∀ j, s.currentJob = some j → j.stage = .parked) ∧ s.sched.downbeat = false ∧ downbeatDue s = false
    (due → exec .deferredTestRun s = .next (beginTest x s)) ∧
    (¬ due → exec .deferredTestRun s = .next s) ∧
    (∀ fails us, x.running = true → x.calibrate = false →
      let t := (namedBits x.mask).foldl (fun acc i => targetTested x.target i (bitAt (fails &&& x.mask) i) acc) { s with test := none }
      exec (.selftestDone fails us) s =
        .next (settle (respond x.fn x.tag 0x80 .ok
          (packFields [(1, if fails &&& x.mask = 0 then 0 else 1), (3, 0), (32, (fails &&& x.mask).toNat), (4, us)])
          (if x.target = 0 then strikeFenced t else t)))) ∧
    (∀ c fail t, c < t.cores.length → (t.core c).boundary = 0 →
      ((coreTested c fail t).core c).fenced = fail ∧ (∀ k, k ≠ c → (coreTested c fail t).core k = t.core k) ∧
      (t.mem.wf = true → ∀ a, scratchBase c ≤ a → a < scratchBase c + scratchSize →
        (coreTested c fail t).mem.read a = 0)) ∧
    (∀ fails : BitVec 128, x.running = true → x.calibrate = true → x.target = 0 →
      let bad := (namedBits x.mask).filter fun p => decide (p < 28) && (posChans p).any fun c => !((s.chan c).state == .absent) && bitAt fails c
      let t := (namedBits x.mask).foldl (positionTrained fails) { s with test := none }
      exec (.calibrateDone fails) s =
        .next (releaseHeld (settle (respond x.fn x.tag 0x81 .ok
          (packFields [(1, if bad = [] then 0 else 1), (3, 0), (4, (bad.map fun p => 2 ^ p).sum)]) t)))) ∧
    (∀ fails : BitVec 128, x.running = true → x.calibrate = true → x.target ≠ 0 →
      exec (.calibrateDone fails) s =
        .next (releaseHeld (settle (respond x.fn x.tag 0x81 .ok 0 { s with test := none })))) ∧
    (∀ (p : Nat) (fails : BitVec 128) (t : State), p < 28 → t.channels.length = 128 →
      (∀ c ∈ posChans p, (t.chan c).state = .active → bitAt fails c = false →
        ((positionTrained fails t p).chan c).state = .active ∧ ((positionTrained fails t p).chan c).trainTemp = (t.chan c).temp) ∧
      (∀ c ∈ posChans p, (t.chan c).state = .active → bitAt fails c = true →
        ((positionTrained fails t p).chan c).state = .retired)) ∧
    (x.calibrate = true → ∀ fails us, exec (.selftestDone fails us) s = .next s) ∧
    (x.calibrate = false → ∀ fails, exec (.calibrateDone fails) s = .next s)

/-- Parity errors of a unit's reads and of the tables (R520, R521): each is logged with its source, its unit and the
bar of its oldest stroke in flight, and strikes the running job with `E_PARITY`, that stroke's descriptor named; a
resident error outside the running layout strikes nothing and asks for a refill; a stave is fetched again once, and an
unused tile is discarded, with a log entry alone. Which stroke an error names is the model's choice (log 23).

Parity errors of flits, FIFO entries and Amior (R521, R523): a flit of a job strikes it, one of BAR2 aborts its
access, a flit that waits in a buffer of the Peal port or Belfry concerned is discarded; an error of Amior halts the firmware in `FAILED`, writes no entry to the log,
and leaves no job. What the log's entry holds is the model's reading (log 22). -/
def Obligations.ParityErrorsAreLoggedAndStrike : Prop :=
  (∀ (c : Fin 256) (s : State),
    let struckAt (source : Nat) (u : UnitId) (p : Nat × Nat) : State :=
      strikeRunning .parity 3 (detailPlace (unitStave u) 0xFF (unitCore u) p.1 p.2 0 0xFF)
        (logError source (if s.currentJob.isSome then 1 else 0) .struck (runningFn s) (unitStave u) (unitCore u) p.1 s)
    let struck (source : Nat) (u : UnitId) : State :=
      struckAt source u (match (s.unit u).inflight.head? with | some i => (i.bar, i.desc) | none => ((s.unit u).bar, noDesc))
    (∀ v, exec (.scratchParityError c v) s = .next (settle (struck 0x01 (.core c v)))) ∧
    (∀ v, (s.core c.val).boundary ≠ 0 →
      exec (.residentParityError c v) s = .next (settle (askRefill c.val
        (if inRunningLayout s c.val then struck 0x02 (.core c v) else logError 0x02 0 .ok 0xFF v.val c.val 0 s)))) ∧
    (∀ v, (s.core c.val).boundary = 0 → exec (.residentParityError c v) s = .next s) ∧
    (∀ t : State, t.resident.unbacked = false →
      (askRefill c.val t).resident.refills.contains c.val = true ∧ (askRefill c.val t).sched = t.sched) ∧
    (∀ r, s.resident.refills.contains c.val = true → s.resident.swap = none → s.resident.cur = some r →
      onSuspended s [segmentAt r c.val] = false →
      let t := { s with resident := { s.resident with refills := s.resident.refills.filter fun x => !(x == c.val) } }
      (s.resident.unbacked = false →
        exec (.residentRefillDone c true) s = .next (settle (fillCore r c.val t)) ∧
        (fillCore r c.val t).mem =
          s.mem.writeBytes (scratchBase c.val) (s.mem.readBytes (segmentAt r c.val).1 (segmentAt r c.val).2)) ∧
      exec (.residentRefillDone c false) s = .next (settle (invalidateResident t))) ∧
    (∀ mu : Fin 4,
      exec (.malletParityError c mu true) s =
        .next ((logError 0x03 0 .ok 0xFF (mu.val + 1) c.val 0 s).updCore c.val fun k =>
          { k with tiles := updAt k.tiles mu.val fun _ => [] }) ∧
      exec (.malletParityError c mu false) s = .next (settle (struck 0x03 (muUnit c.val mu.val)))) ∧
    (∀ (mu : Fin 4) (sa : Fin 8) j i low, s.currentJob = some j → gangPartition s j (muUnit c.val mu.val) sa.val = some (i, low) →
      (i.key, mu.val * 8 + low) ∉ (s.core c.val).stoppedParts →
      exec (.gangParityError c mu sa) s =
        .next ((logError 0x04 1 .struck (runningFn s) (mu.val + 1) (mu.val * 8 + low) i.bar s).updCore c.val fun k =>
          { k with stoppedParts := k.stoppedParts ++ [(i.key, mu.val * 8 + low)] })) ∧
    (∀ u, exec (.staveParityError u true) s = .next (settle (struckAt 0x05 u ((s.unit u).bar, noDesc))) ∧
      exec (.staveParityError u false) s = .next (logError 0x05 0 .ok 0xFF (unitStave u) (unitCore u) (s.unit u).bar s)) ∧
    (∀ slot : Fin 8, exec (.chimeBankParityError c slot) s =
      .next (settle (strikeRunning .parity 3 (detailPlace 0xFF 0xFF c.val noDesc noDesc 0 0xFF)
        (logError 0x06 (if s.currentJob.isSome then 1 else 0) .struck (runningFn s) 0xFF c.val slot.val s))))) ∧
  (∀ (owner : FlitOwner) (s : State),
    let met (source place : Nat) : State := match owner, s.currentJob with
      | .job, some j => strikeRunning .parity 0 0 (logError source 1 .struck j.fn 0xFF place 0 s)
      | .bar2, _ => let t := logError source 0 .parity 0 0xFF place 0 s; { t with out := t.out ++ [.bar2Abort] }
      | _, _ => logError source 0 .parity 0xFF 0xFF place 0 s
    let alive := s.pins.devResetN = true ∧ s.fw.state ≠ .failed
    (∀ row : Fin 16, exec (.meshFlitParityError owner row) s = .next (settle (met 0x07 (256 + row.val)))) ∧
    (∀ domain,
      (∀ p, owner = .peal → (domainBuffers domain).find? (holdsFlit s) = some p →
        exec (.fifoParityError owner domain) s = .next (settle (dropOldest p (met 0x08 domain)))) ∧
      (owner ≠ .peal ∨ (∀ p ∈ domainBuffers domain, holdsFlit s p = false) →
        exec (.fifoParityError owner domain) s = .next (settle (met 0x08 domain)))) ∧
    (alive →
      nextWith (fun t => t.fw.state = .failed ∧ t.fw.error = .parity ∧ t.log = s.log ∧ t.sched.jobs = [] ∧ t.sched.current = none ∧
        t.mem = s.mem ∧ t.host = s.host ∧ (∀ f ∈ t.funcs, f.mailbox = none ∧ ∀ q ∈ f.queues, q = none)) (exec .amiorParityError s)) ∧
    (¬ alive → exec .amiorParityError s = .next s))

/-- Retries, heat and retraining of a channel (R276, R282 to R286, R524, R525): a retry is counted; the exhausted
request is logged, meets its requester, and a third within 24 hours retires the channel; a reading moves the heat of
each channel, while the firmware reads temperatures; a request that waits too long on a suspended channel strikes;
retraining pauses and counts, a second failure retires the channel, which the inventory shows (R488); losing a module or
a supply retires a position. How the row numbers its retries is the model's choice
(log 41); what the log's entry holds its reading (log 22). -/
def Obligations.ChannelEventsHaveTheirEffect : Prop :=
  ∀ (ch : Fin 128) (s : State), s.channels.length = 128 →
    let c := s.chan ch.val
    let put (x : Channel) : State := { s with channels := s.channels.set ch.val x }
    let logged (n : Nat) (t : State) : State :=
      (List.range n).foldl (fun acc _ => logError 0x13 0 .ok 0xFF 0xFF ch.val (chanBase ch.val) acc) t
    (∀ who n, c.state ≠ .absent → 1 ≤ n → n ≤ 8 →
      exec (.memCrcRetry ch who n) s = .next (put { c with retries := min (c.retries + 1) 65535 })) ∧
    (∀ who, c.state ≠ .absent →
      let t := exhaust ch.val who (match exhaustEnds s who with
        | some j => logError 0x10 1 (if who = .swapCopy then .verify else .struck) j.fn 0xFF ch.val (chanBase ch.val) s
        | none => logError 0x10 0 .memUncorrectable 0xFF 0xFF ch.val (chanBase ch.val) s)
      let recent := (c.exhausted.filter fun x => decide (s.time < x + 86400000000)) ++ [s.time]
      let u := t.updChan ch.val fun x => { x with exhausted := recent }
      exec (.memCrcRetry ch who 9) s = .next (settle (if 3 ≤ recent.length then retireChan ch.val u else u))) ∧
    (∀ temps : List Int, s.fw.state = .failed ∨ s.fw.state = .bare → exec (.memTempPoll temps) s = .next s) ∧
    (∀ temps : List Int, s.fw.state ≠ .failed → s.fw.state ≠ .bare →
      nextWith (fun t => t.mem = s.mem ∧ t.sched = s.sched ∧
        ∀ k < 128, (s.chan k).state ≠ .absent →
          (t.chan k).temp = temps.getD (chanPos k) (s.chan k).temp ∧ (t.chan k).heat = heatAfter (s.chan k) (t.chan k).temp)
        (exec (.memTempPoll temps) s)) ∧
    (let late (j : Job) : Bool := jobWaitsTooLong s ch.val j
     (c.heat = .suspended → (∃ j ∈ s.sched.jobs, late j = true) →
       exec (.memSuspendTimeout ch) s = .next (settle (strikeWhere late .thermal 3
         (detailPlace 0xFF 0xFF 0xFFFF noDesc noDesc 0 ch.val)
         ((s.sched.jobs.filter late).foldl
           (fun acc j => logError 0x12 1 .struck j.fn 0xFF ch.val (chanBase ch.val) acc) s)))) ∧
     (c.heat ≠ .suspended ∨ (∀ j ∈ s.sched.jobs, late j = false) → exec (.memSuspendTimeout ch) s = .next s) ∧
     (∀ j u i, s.sched.current = some j.id → j.stage = .running → u ∈ activeUnits s → i ∈ (s.unit u).inflight →
       anyTouches ch.val (flightRuns s u i) = true → c.suspendedAt ≤ i.firedAt → 1000 * i.memLimit < s.time - i.firedAt →
       late j = true)) ∧
    (ch.val < 96 → c.state ≠ .absent → c.heat ≠ .suspended → c.pausing = false →
      exec (.memRetrain ch) s = .next (put { c with pausing := true, retrains := c.retrains + 1 })) ∧
    (96 ≤ ch.val → c.state ≠ .absent → c.heat ≠ .suspended → c.pausing = false →
      exec (.cammRecalibrate ch) s = .next (put { c with pausing := true })) ∧
    (c.pausing = true →
      let back := put { c with pausing := false, trainTemp := c.temp }
      (∀ again, exec (.memRetrainDone ch true again) s = .next back) ∧
      exec (.memRetrainDone ch false true) s = .next (logged 1 back) ∧
      exec (.memRetrainDone ch false false) s =
        .next (settle (notePosition (chanPos ch.val) 3 (retireChan ch.val (logged 2 back))))) ∧
    (∀ p st t, ((notePosition p st t).inv = if p < 24 then { t.inv with gddrStatus := updAt t.inv.gddrStatus p fun _ => st }
      else { t.inv with cammStatus := updAt t.inv.cammStatus (p - 24) fun _ => st }) ∧
      notePosition p st t = { t with inv := (notePosition p st t).inv }) ∧
    (∀ a, c.state = .active → exec (.patrolScrub ch (some a)) s = .next (logError 0x14 0 .ok 0xFF 0xFF ch.val a s)) ∧
    (exec (.patrolScrub ch none) s = .next s) ∧
    (∀ m : Fin 4, (∃ k ∈ posChans (24 + m.val), (s.chan k).state ≠ .absent) →
      exec (.cammModuleLost m) s = .next (settle (notePosition (24 + m.val) 4 (retirePosition (24 + m.val) s)))) ∧
    (∀ m : Fin 4, (∀ k ∈ posChans (24 + m.val), (s.chan k).state = .absent) →
      exec (.cammModuleLost m) s = .next (settle (retirePosition (24 + m.val) s))) ∧
    (∀ p : Fin 28, (∃ k ∈ posChans p.val, (s.chan k).state ≠ .absent) →
      let t := retirePosition p.val s
      exec (.memorySupplyFault p) s =
        .next (settle (if p.val < 24 then { t with inv := { t.inv with gddrStatus := updAt t.inv.gddrStatus p.val fun _ => 4 } }
          else t)))

/-! ## Peal -/

/-- Training and identity (R292 to R294, R305, R526): a port in training that trains at a rate of its own and its module's sends its
identity to the neighbour its number names, on channel 1 as the first of its sequence. An identity that comes in order from that
neighbour brings the port up; any other holds it, and the log names who it was. A second later an idle port trains again. A port whose
link goes down is down, with fresh sequence numbers and credits; where nothing from elsewhere waited to leave by it, what it held is lost
and nothing else changes but the flits that came in by it. What bytes a LINK flit has is an uninterpreted function, and that they take the
pair A is the model's choice (log 43). -/
def Obligations.PortsTrainAndFall : Prop :=
  ∀ (p : Fin 16) (s : State), s.fabric.ports.length = 16 →
    let q := s.port p.val
    let put (x : Port) : State := { s with fabric := { s.fabric with ports := s.fabric.ports.set p.val x } }
    let own := ownIdentity s p.val
    let idle := q.state = .down ∨ q.state = .held ∨ q.state = .failed
    (∀ rate, linkOn s = true → q.state = .training → q.rate = 0 → 1 ≤ rate → rate ≤ s.inv.portMaxRate.getD p.val 0 →
      rate ≤ s.inv.portModule.getD p.val 0 →
      exec (.portTrained p rate) s = .next (sendLink p.val (.identity own) (put { q with rate := rate })) ∧
      (q.waitTx = [] → q.replay.length < 64 → countOf q.credits 1 < 16 →
        nextWith (fun t => ∃ g, t.out = s.out ++ [.flit p.val g] ∧ g.kind = .link ∧ g.vc = 1 ∧ g.seq = q.txSeq ∧
          g.dest = BitVec.ofNat 14 (namedNeighbour s p.val) ∧ g.payload = (Config.linkBytes (.identity own)).take 236)
          (exec (.portTrained p rate) s))) ∧
    (∀ w f who, Comes p.val w f s → saysLink (.identity who) f = true →
      let T := taken p.val w f s
      let ends (t : State) : State := answerPort p.val (oweCredit p.val f.vc t)
      ((T.port p.val).state = .training → identityOk T p.val who = true →
        exec (.identityExchange ⟨p, w⟩ who) s =
          .next (ends (T.updPort p.val fun x => { x with state := .up, neighbour := some who }))) ∧
      ((T.port p.val).state = .training → identityOk T p.val who = false →
        exec (.identityExchange ⟨p, w⟩ who) s =
          .next (ends (logError 0x20 0 .ok 0xFF 0xFF p.val who.member.toNat
            ((stopPort .held p.val T).updPort p.val fun x => { x with neighbour := some who })))) ∧
      ((T.port p.val).state ≠ .training → exec (.identityExchange ⟨p, w⟩ who) s = .next (ends T))) ∧
    (portTrains s p.val = true → s.fw.state = .ready ∨ s.fw.state = .init → idle → staysFailed q = false →
      q.retryAt + 1000000 ≤ s.time →
      exec (.portRetryTrain p) s = .next (put { q with state := .training, rate := 0, neighbour := none })) ∧
    (s.time < q.retryAt + 1000000 ∨ ¬ idle → exec (.portRetryTrain p) s = .next s) ∧
    (q.state = .up ∨ q.state = .training ∨ q.state = .held →
      nextWith (fun t => (t.port p.val).state = .down ∧ (t.port p.val).replay = [] ∧ (t.port p.val).waitTx = [] ∧ t.mem = s.mem)
        (exec (.linkDown p) s) ∧
      ((∀ x ∈ q.waitTx, x.1 = p.val) →
        nextWith (fun t => t.port p.val = { q with
              state := .down, rate := 0, neighbour := none, replay := [], waitTx := [], served := [], credits := [], owed := [],
              txSeq := 0, rxExpect := 0, nacking := false, resends := [],
              downEvents := if q.state = .up then q.downEvents + 1 else q.downEvents, retryAt := s.time } ∧
            (∀ k, k ≠ p.val → t.port k = { s.port k with waitTx := (s.port k).waitTx.filter fun x => !(x.1 == p.val) }) ∧
            t.fabric.waiting = s.fabric.waiting.filter (fun x => !(x.1 == p.val)) ∧
            t = { s with fabric := { s.fabric with ports := t.fabric.ports, waiting := t.fabric.waiting } })
          (exec (.linkDown p) s)))

/-- Acknowledgements, credits and retries at a port that receives (R299, R300). An IDLE flit is acted on whatever its sequence number:
its header lets go of the flits it acknowledges and returns its credit. A LINK flit of credits returns them in bulk, and what may now be
sent leaves, with the next sequence number and the acknowledgement of the last flit received. A NACK sends the named flit and all behind
it again, in order; a flit resent eight times within 1 ms fails the port. A flit that is damaged is counted and discarded, and one NACK
names the expected flit; the NACK is repeated while it is due. What number an IDLE flit and a NACK bear, and the bytes of a LINK flit, are
free values (log 43). -/
def Obligations.FlitsAreAcknowledgedAndRetried : Prop :=
  ∀ (p : Fin 16) (s : State), s.fabric.ports.length = 16 → portLive s p.val = true →
    let q := s.port p.val
    let put (x : Port) : State := { s with fabric := { s.fabric with ports := s.fabric.ports.set p.val x } }
    let most := 2 ^ 32 - 1
    let nack : Flit := { linkFlit (namedNeighbour s p.val) (.nack q.rxExpect) with seq := Config.idleSeq, ack := lastReceived q }
    (∀ w f, crcHolds w.bytes = true → flitOf w.bytes = some f → f.kind = .idle →
      exec (.idleFlitRx p w) s = .next (sendCredits (takeHeader p.val f (countCorrected p.val w.corrected s)))) ∧
    (∀ f, q.waitTx = [] →
      takeHeader p.val f s =
        put { q with replay := (match f.ack with | some a => coverAck a q.replay | none => q.replay),
                     credits := if f.credN = 0 then q.credits
                       else setCount q.credits f.credVc (countOf q.credits f.credVc - f.credN.toNat) }) ∧
    (∀ w f credits, Comes p.val w f s → saysLink (.credits credits) f = true →
      exec (.linkCredit ⟨p, w⟩ credits) s = .next (answerPort p.val (oweCredit p.val f.vc (flush p.val
        (credits.foldl (fun acc c => takeCredit p.val c.1 c.2 acc) (taken p.val w f s)))))) ∧
    (∀ i v g, q.waitTx = [(i, v, g)] → g.vc.toNat % 32 < 20 →
      (countOf q.credits g.vc < 16 → q.replay.length < 64 →
        ∃ h, (flush p.val s).out = s.out ++ [.flit p.val h] ∧ h.kind = g.kind ∧ h.vc = g.vc ∧ h.dest = g.dest ∧ h.route = g.route ∧
          h.payload = g.payload ∧ h.seq = q.txSeq ∧ h.ack = lastReceived q) ∧
      (16 ≤ countOf q.credits g.vc ∨ 64 ≤ q.replay.length → flush p.val s = s)) ∧
    (∀ w f seq, crcHolds w.bytes = true → flitOf w.bytes = some f → saysLink (.nack seq) f = true →
      exec (.linkNack ⟨p, w⟩ seq) s = .next (goBack p.val seq (takeHeader p.val f (countCorrected p.val w.corrected s)))) ∧
    (∀ seq,
      let again := q.replay.dropWhile fun f => !(f.seq == seq)
      let recent := (q.resends.filter fun r => decide (s.time < r.2 + 1000)) ++ again.map fun f => (f.seq, s.time)
      let x := put { q with retries := min (q.retries + 1) most, resends := recent }
      let often := ∃ r ∈ recent, 8 ≤ (recent.filter fun y => y.1 == r.1).length
      (again = [] → goBack p.val seq s = s) ∧
      (again ≠ [] → ¬ often →
        goBack p.val seq s = { x with out := s.out ++ again.map fun f => .flit p.val { f with ack := lastReceived q } }) ∧
      (again ≠ [] → often → goBack p.val seq s = failPort p.val x)) ∧
    (∀ hard,
      let x := put (if hard then { q with nacking := true, fecUncorrectable := min (q.fecUncorrectable + 1) most }
        else { q with nacking := true, crcErrors := min (q.crcErrors + 1) most })
      exec (.flitCrcError p hard) s = .next (if q.nacking then x else { x with out := s.out ++ [.flit p.val nack] }) ∧
      flitError p.val hard s = if q.nacking then x else { x with out := s.out ++ [.flit p.val nack] }) ∧
    (∀ w credits src, crcHolds w.bytes = false →
      ∀ c ∈ [Instr.idleFlitRx p w, .linkCredit ⟨p, w⟩ credits, .sendFlitRx p src w],
        exec c s = .next (flitError p.val false (countCorrected p.val w.corrected s))) ∧
    (q.nacking = true → exec (.nackRepeat p) s = .next { s with out := s.out ++ [.flit p.val nack] }) ∧
    (q.nacking = false → exec (.nackRepeat p) s = .next s)

/-- Flits that come in order (R299, R301, R306, R310, R311, R322): a SEND flit for this device lands at its offset in every destination of
its open window and is counted and acknowledged, closes the window when it brings the last byte, strikes the job when it passes the
window's end, and stays in its channel buffer while no window is open. An acknowledgement of the last byte ends its send. A chunk's flit is
taken by its collective once the group is checked, else spilled while there is room, else it stays in its buffer; one of an aborted
collective is discarded, but for a number that the new numbering may have reached (log 107). A flit stays behind an earlier one of its channel buffer, one for another device goes on by its route, and one
out of order is discarded. When a transit flit's buffer is free is the model's choice (log 44). -/
def Obligations.SendsAndChunksArrive : Prop :=
  (∀ (p : Fin 16) (src : BitVec 14) (w : WireFlit) (f : Flit) (s : State), portLive s p.val = true → crcHolds w.bytes = true →
    flitOf w.bytes = some f → f.kind = .send → f.seq ≠ (s.port p.val).rxExpect →
    exec (.sendFlitRx p src w) s = .next (countCorrected p.val w.corrected s)) ∧
  (∀ (p : Fin 16) (w : WireFlit) (f : Flit) (s : State), Comes p.val w f s →
    let T := taken p.val w f s
    let answers (t : State) : State := answerPort p.val t
    let ends (t : State) : State := answers (oweCredit p.val f.vc t)
    let wi := sendWindow f
    let ofs := sendOffset f
    let n := f.payload.length
    (∀ src, f.kind = .send → heldBefore T.fabric.waiting p.val f.vc = false → f.dest = T.inv.member →
      (slotAt T.fabric.windows wi = none → exec (.sendFlitRx p src w) s = .next (answers (holdFlit p.val src f T))) ∧
      (∀ x, slotAt T.fabric.windows wi = some x → x.count < x.expect →
        let landed := landBytes x f T
        (x.size < ofs + n →
          exec (.sendFlitRx p src w) s =
            .next (ends (strikeRunning .invalid 3 (detailPlace 13 0xFF 0xFFFF noDesc noDesc 0 0xFF)
              (logError 0x26 1 .struck (runningFn T) 13 0xFFFF f.dest.toNat T)))) ∧
        (ofs + n ≤ x.size → x.count + n < x.expect →
          exec (.sendFlitRx p src w) s =
            .next (ends (returnAck src.toNat (sendXtag f) n none { landed with fabric := { landed.fabric with
              windows := updAt landed.fabric.windows wi fun _ =>
                some { x with count := x.count + n, peers := withSender src.toNat (sendXtag f) x.peers } } }))) ∧
        (ofs + n ≤ x.size → x.expect ≤ x.count + n →
          exec (.sendFlitRx p src w) s = .next (ends (closeOpening wi x src.toNat (sendXtag f) n landed))))) ∧
    (∀ src, f.kind = .send → heldBefore T.fabric.waiting p.val f.vc = false → f.dest ≠ T.inv.member →
      exec (.sendFlitRx p src w) s = .next (answers (routeFlit p.val (p.val % 2) f T))) ∧
    (∀ src, f.kind = .send → heldBefore T.fabric.waiting p.val f.vc = true →
      exec (.sendFlitRx p src w) s = .next (answers (holdFlit p.val src f T))) ∧
    (∀ xtag bytes opening, saysLink (.ack f.dest xtag bytes opening) f = true →
      (f.dest = T.inv.member → exec (.sendAck ⟨p, w⟩ xtag ⟨bytes, opening⟩) s = .next (ends (ackSend xtag bytes opening T))) ∧
      (f.dest ≠ T.inv.member → exec (.sendAck ⟨p, w⟩ xtag ⟨bytes, opening⟩) s = .next (answers (routeFlit p.val 0 f T)))) ∧
    (f.kind = .coll → heldBefore T.fabric.waiting p.val f.vc = false →
      let seq8 := bitField f.route 32 8
      let no := bitField f.route 40 16
      (∀ g, f.dest = T.inv.member → T.group (bitField f.route 0 32) = some g →
        let stale := (∃ a, g.aborted = some a ∧ staleFlit (bitField f.route 0 32) a f = true) ∧ mayCome g seq8 = false
        let taker := g.colls.find? fun c => c.seq % 256 == seq8 && !(c.op == 15) && g.checked
        (stale → exec (.collFlitRx p w) s = .next (settle (ends T))) ∧
        (∀ c, ¬ stale → taker = some c → exec (.collFlitRx p w) s = .next (settle (ends (takeChunk g c no f.payload T)))) ∧
        (¬ stale → taker = none → spillRoom g n = true →
          exec (.collFlitRx p w) s = .next (settle (ends (spill g seq8 no f.payload T)))) ∧
        (¬ stale → taker = none → spillRoom g n = false →
          exec (.collFlitRx p w) s = .next (settle (answers (holdFlit p.val 0 f T))))) ∧
      (f.dest ≠ T.inv.member → exec (.collFlitRx p w) s = .next (settle (answers (routeFlit p.val (no % 2) f T)))))) ∧
  (∀ (x : Window) (f : Flit) (s : State),
    (∀ d ∈ x.dsts, hitsAny (readOnlyRanges s) (d + sendOffset f) f.payload.length = false) →
    (landBytes x f s).mem = x.dsts.foldl (fun m d => m.writeBytes (d + sendOffset f) f.payload) s.mem) ∧
  (∀ (xtag : BitVec 7) (bytes : Nat) (opening : Option (Digest × Nat)) (x : SendState) (s : State),
    (s.fabric.sends.find? fun y => y.xtag == xtag) = some x →
    let t := ackSend xtag bytes opening s
    t.mem = s.mem ∧
    (x.bytes ≤ x.acked + bytes → t.fabric.sends = s.fabric.sends.filter (fun y => !(y.xtag == xtag)) ∧
      (x.stave = 13 → strokeDone linkUnit x.key t)) ∧
    (x.acked + bytes < x.bytes → t.fabric.sends = s.fabric.sends.map (fun y =>
      if y.xtag = xtag then { y with acked := x.acked + bytes } else y)))

/-- Clapper messages that come to their member (R326, R327, R329 to R332): a child's result joins its collective, or waits for it to
start; one that is not awaited is ignored. The root's result takes effect here and goes on down the tree, and so does a done decision. An
abort request is decided at the root, once, and goes on to the parent at any other member. A decision to abort takes effect here and goes
on; one that has already taken effect goes on alone. A message for another member goes on by its route (R301).

A done decision takes the collective out of its group and ends its request to abort; after the check the group is checked. An abort leaves
the group unchecked, with no collective, nothing spilled and no request (R332). Which decisions the root still owes after an abort is the
model's reading (logs 45, 107). -/
def Obligations.ClapperMessagesDecideCollectives : Prop :=
  (∀ (p : Fin 16) (w : WireFlit) (f : Flit) (s : State), Comes p.val w f s → f.kind = .clap →
    let m := clapOf f.payload
    let T := taken p.val w f s
    let answers (t : State) : State := settle (answerPort p.val t)
    let ends (t : State) : State := answers (oweCredit p.val f.vc t)
    let seq := m.cseq.toNat
    let kid := m.srcRank.toNat
    let cause := m.cause.toNat
    let origin := m.originId.toNat
    (∀ g, f.dest = T.inv.member → T.group m.tag.toNat = some g →
      let tag := g.tag.toNat
      (m.kind.toNat = 0 →
        (kid ∈ treeChildren g.size g.rank → (g.coll seq).isSome = true → awaitsUp g seq = true →
          exec (.clapUp ⟨p, w⟩) s = .next (ends (afterCheck tag seq (tryUp tag seq (T.updGroup tag fun x => x.updColl seq fun c =>
            { c with children := (c.children.filter fun k => !(k.1 == kid)) ++ [(kid, m.data)] }))))) ∧
        (kid ∈ treeChildren g.size g.rank → g.coll seq = none → awaitsUp g seq = true →
          exec (.clapUp ⟨p, w⟩) s = .next (ends (T.updGroup tag fun x =>
            { x with early := (x.early.filter fun e => !(e.1 == seq && e.2.1 == kid)) ++ [(seq, kid, m.data)] }))) ∧
        (kid ∉ treeChildren g.size g.rank ∨ awaitsUp g seq = false → exec (.clapUp ⟨p, w⟩) s = .next (ends T))) ∧
      (m.kind.toNat = 1 →
        (∀ c, g.coll seq = some c → exec (.clapDown ⟨p, w⟩) s = .next (ends (afterCheck tag seq (takeDown g c m.data T)))) ∧
        (g.coll seq = none → exec (.clapDown ⟨p, w⟩) s = .next (ends T))) ∧
      (m.kind.toNat = 2 →
        (g.rank = 0 → undecided g seq false = true →
          exec (.clapAbortRequest ⟨p, w⟩) s = .next (ends (applyAbort g seq cause origin T))) ∧
        (g.rank = 0 → undecided g seq false = false → exec (.clapAbortRequest ⟨p, w⟩) s = .next (ends T)) ∧
        (g.rank ≠ 0 →
          exec (.clapAbortRequest ⟨p, w⟩) s =
            .next (ends (sendClap g (treeParent g.rank) (clapMsg g 2 0 cause seq origin []) T)))) ∧
      (m.kind.toNat = 3 →
        (m.cause = 0 → exec (.clapDecision ⟨p, w⟩) s = .next (ends (afterCheck tag seq (takeDone g seq T)))) ∧
        (m.cause ≠ 0 → abortedHere g seq = false →
          exec (.clapDecision ⟨p, w⟩) s = .next (ends (applyAbort g seq cause origin T))) ∧
        (m.cause ≠ 0 → abortedHere g seq = true →
          exec (.clapDecision ⟨p, w⟩) s = .next (ends (sendChildren g (clapMsg g 3 0 cause seq origin [])
            (T.updGroup tag fun x => { x with late := none })))))) ∧
    (f.dest ≠ T.inv.member →
      ∀ x ∈ [(Instr.clapUp ⟨p, w⟩, 0), (.clapDown ⟨p, w⟩, 1), (.clapAbortRequest ⟨p, w⟩, 2), (.clapDecision ⟨p, w⟩, 3)],
        m.kind.toNat = x.2 → exec x.1 s = .next (answers (routeFlit p.val 0 f T)))) ∧
  (∀ (tag seq : Nat) (g : Group) (c : Collective) (s : State), s.group tag = some g → g.coll seq = some c →
    (finishColl tag seq s).groups = s.groups.map (Option.map fun x =>
      if x.tag.toNat = tag then
        { x with colls := x.colls.filter fun y => !(y.seq == seq), checked := x.checked || c.op == 15,
                 late := if c.op = 15 then none else x.late,
                 abortSent := x.abortSent.filter fun a => !(a.2 == seq) } else x)) ∧
  (∀ (source : Nat) (g : Group) (seq cause origin : Nat) (s : State),
    (endAbort source g seq cause origin s).groups = s.groups.map (Option.map fun x =>
      if x.tag.toNat = g.tag.toNat then
        { x with checked := false, nextSeq := 1, colls := [], spilled := [], early := [], abortSent := [], aborted := some seq,
                 late := if source = 0x25 then some seq else none }
      else x))

/-! ## Power and heat -/

/-- POWER_POLICY_SET changes the values given, keeps those given as 0, answers those in force, and lets the idle
clocks follow; a value out of range is refused with `E_INVALID` (R442). That the call answers when it is taken is the
model's choice (log 53).

The power loop and its rails (R441, R443, R444): each tick stores the estimate and averages the window; over the limit
the level, and at the lowest level the cap, falls; a pulse moves a quarter rail by 5 mV toward its level and never
past it, not before the rail's last pulse or command is over (R471); a poll stores the readings of readable rails. The order of the loop's steps is the model's choice (log 49),
and pulses stand one by one (log 53).

Clock islands (R432, R435, R436): a window of a running island moves its trim toward its target, a stopped island
wakes running, a sag slows the islands named; no other island changes. The target's rounding is the model's reading
(log 52). -/
def Obligations.PowerAndClocksFollowTheirRules : Prop :=
  (∀ (r : Request) (m : Mailbox) (s : State), Served true false false r m s →
    let ps := reqArgs r
    let p := s.power
    let keep (x old : Nat) : Nat := if x = 0 then old else x
    let flags := arg ps 7 1
    let q : Power :=
      { p with limitW := keep (arg ps 0 2) p.limitW, windowMs := keep (arg ps 2 2) p.windowMs,
               clockCap := keep (arg ps 4 2) p.clockCap, tjTarget := keep (arg ps 6 1) p.tjTarget,
               idleStop := if flags = 2 ∨ flags = 3 then p.idleStop else flags = 1,
               samples := p.samples.take (20 * keep (arg ps 2 2) p.windowMs) }
    let ok (x lo hi : Nat) : Prop := x = 0 ∨ (lo ≤ x ∧ x ≤ hi)
    let inRange := ok (arg ps 0 2) 900 (maxPower s.fuses.variant) ∧ ok (arg ps 2 2) 1 100 ∧
      ok (arg ps 4 2) 500 (maxClock s.fuses.variant) ∧ ok (arg ps 6 1) 85 105
    (flags ≤ 3 → zeroFrom ps 8 = true → inRange →
      exec (.powerPolicySet r) s =
        .next (answered r m 0xB0 .ok (packFields [(2, q.limitW), (2, q.clockCap), (1, q.tjTarget)])
          (restClocks { s with power := q }))) ∧
    (flags ≤ 3 → zeroFrom ps 8 = true → ¬ inRange →
      exec (.powerPolicySet r) s = .next (answered r m 0xB0 .invalid 0 s))) ∧
  (∀ s : State, s.power.rails.length = 12 →
    let p := s.power
    (∀ now projected, s.fw.state = .ready →
      let l := (now :: p.samples).take (20 * p.windowMs)
      let q : Power := { p with nowW := now, samples := l, avgW := if l = [] then 0 else l.sum / l.length, energy20 := p.energy20 + now }
      exec (.powerLoopTick now projected) s = .next (loopAction projected { s with power := q })) ∧
    (∀ now projected, s.fw.state ≠ .ready → exec (.powerLoopTick now projected) s = .next s) ∧
    (∀ projected, overLimit p (projected.getD 0 p.nowW) = true →
      let q : Power := if (highestLevel s) ≤ 550 then { p with loopCap := max 5 (p.loopCap - 5) }
        else { p with loopMv := max 550 (highestLevel s - 5 * stepsDown p projected) }
      loopAction projected s = { s with power := q }) ∧
    (∀ projected, overLimit p (projected.getD 0 p.nowW) = false → p.limitW * 97 ≤ p.avgW * 100 → loopAction projected s = s) ∧
    (∀ (q : Fin 4) (up : Bool), firmwareUp s = true →
      let r := s.rail (6 + q.val)
      let level := quarterLevel s q.val
      let moved (mv : Nat) : State := railsDone
        { s with power := { p with rails := p.rails.set (6 + q.val) { r with mv := mv, pulsedAt := some s.time } },
                 out := s.out ++ [.railPulse q.val up] }
      (pulseFree s r = false → exec (.railStep q up) s = .next s) ∧
      (r.on = true → r.good = true → pulseFree s r = true →
      (up = true → r.mv + 5 ≤ level → exec (.railStep q up) s = .next (moved (r.mv + 5))) ∧
      (up = false → level + 5 ≤ r.mv → exec (.railStep q up) s = .next (moved (r.mv - 5))) ∧
      (up = true → level < r.mv + 5 → exec (.railStep q up) s = .next s) ∧
      (up = false → r.mv < level + 5 → exec (.railStep q up) s = .next s))) ∧
    (∀ readings : List RailReading, s.fw.state = .ready → s.pins.clavePhase = 2 →
      nextWith (fun t => t.mem = s.mem ∧ ∀ r < 12, (t.rail r).mv = (s.rail r).mv ∧
          (t.rail r).reading = (if railReadable s r then (match readings[r]? with | some x => some x | none => (s.rail r).reading)
            else (s.rail r).reading))
        (exec (.railTelemetryPoll readings) s))) ∧
  (∀ s : State, s.power.domains.length = 325 →
    let put (i : Nat) (d : Domain) : State := { s with power := { s.power with domains := s.power.domains.set i d } }
    (∀ (i : Fin 325) (count : Nat),
      let d := s.domain i.val
      let n := targetMhz s i.val
      (d.state = .running →
        exec (.fllWindow i count) s = .next (put i.val { d with
          freqMhz := min count 65535,
          trim := if n + 1 < count then min 80 (d.trim + 4) else if count + 1 < n then d.trim - 1 else d.trim })) ∧
      (d.state ≠ .running → exec (.fllWindow i count) s = .next s) ∧
      (d.state = .clockStopped → s.pins.thermTripN = true →
        exec (.islandWake i) s = .next (put i.val { d with state := .running })) ∧
      (d.state ≠ .clockStopped → exec (.islandWake i) s = .next s)) ∧
    (∀ islands : List (Fin 325 × Nat),
      nextWith (fun t => t = { s with power := { s.power with domains := t.power.domains } } ∧
          (∀ x ∈ islands, (t.domain x.1.val).freqMhz ≤ x.2) ∧
          (∀ i, (∀ x ∈ islands, x.1.val ≠ i) → t.domain i = s.domain i) ∧
          ∀ i, (t.domain i).freqMhz ≤ (s.domain i).freqMhz ∧ (t.domain i).state = (s.domain i).state)
        (exec (.supplySag islands) s)))

/-- Heat and faults (R445 to R448, R527): a reading below the trip takes the stages; one at the trip begins the trip's
steps, and when the firmware gets through them it halts in `FAILED` with `E_THERMAL`, drives `THERM_TRIP_N` low and
switches the managed rails off; 200 µs after the reading the hub does what is left: the pin, the islands and the records
not posted; cooled islands rise by 5 %; a fault of an enabled managed rail halts with `E_POWER`; a warning is held by its
rail. A module that is pulled takes its port down. How often a stage acts and how far the firmware gets within the 200 µs
are the model's reading and a free value (logs 50, 51). -/
def Obligations.HeatAndFaultsStopTheDevice : Prop :=
  ∀ s : State,
    let off (t : State) : Prop := ∀ r, 6 ≤ r → (t.rail r).on = false
    let p := s.power
    (∀ deci : List Int, s.pins.devResetN = true → p.trippedAt = none →
      let sensors := (List.range 290).map fun i => deci.getD i (s.sensor i)
      let t := { s with power := { p with sensors := sensors } }
      ((∀ x ∈ sensors, x < 1150) → firmwareUp s = true →
        exec (.thermalSensorRead deci) s = .next (updateAlert (heatStages t))) ∧
      ((∀ x ∈ sensors, x < 1150) → firmwareUp s = false → exec (.thermalSensorRead deci) s = .next (updateAlert t)) ∧
      ((∃ x ∈ sensors, 1150 ≤ x) → firmwareUp s = true →
        nextWith (fun u => u.power.trippedAt = some s.time ∧ u.power.sensors = sensors ∧
          (Config.tripReach s.fresh = 0 → u.sched = s.sched ∧ u.fw = s.fw ∧ u.pins.thermTripN = s.pins.thermTripN) ∧
          (2 ≤ Config.tripReach s.fresh →
            u.fw.state = .failed ∧ u.fw.error = .thermal ∧ u.pins.thermTripN = false ∧ off u ∧ u.sched.jobs = [] ∧
            ∀ i < 300, (u.domain i).state = .off ∨ (u.domain i).state = .fusedOff))
          (exec (.thermalSensorRead deci) s)) ∧
      ((∃ x ∈ sensors, 1150 ≤ x) → firmwareUp s = false →
        exec (.thermalSensorRead deci) s = .next (updateAlert { t with power := { t.power with trippedAt := some s.time } }))) ∧
    (∀ target t floor d, target ≤ t → (heatIsland target t floor d).stage = 1 ∧ (heatIsland target t floor d).cap = max floor (d.cap - 5)) ∧
    (∀ target t floor d, t ≤ target - 30 → t < target →
      (heatIsland target t floor d).stage = 0 ∧ (heatIsland target t floor d).cap = d.cap) ∧
    (firmwareUp s = true →
      exec .thermalCapRelease s = .next { s with power := { p with
        domains := p.domains.map (fun d => if d.stage = 0 then { d with cap := min 100 (d.cap + 5) } else d),
        stage2Mv := (List.range 4).map fun q =>
          if p.stage2.getD q false then p.stage2Mv.getD q 900 else min 900 (p.stage2Mv.getD q 900 + 5) } }) ∧
    (∀ t0, p.trippedAt = some t0 → s.pins.thermTripN = true →
      (t0 + 200 ≤ s.time →
        nextWith (fun t => t.fw.state = .failed ∧ t.fw.error = .thermal ∧ t.pins.thermTripN = false ∧ t.pins.segKhz = [0, 0, 0, 0] ∧
          t.sched.jobs = [] ∧ t.pcie.up = false ∧ t.mem = s.mem ∧ t.log = s.log ∧ ∀ i, (t.domain i).state ≠ .running)
          (exec .tripTimeout s)) ∧
      (s.time < t0 + 200 → exec .tripTimeout s = .next s)) ∧
    (∀ rail : Fin 12, firmwareUp s = true → 6 ≤ rail.val → (s.rail rail.val).on = true →
      (p.trippedAt = none →
        nextWith (fun t => t.fw.state = .failed ∧ t.fw.error = .power ∧ off t ∧ t.sched.jobs = []) (exec (.regulatorFault rail) s)) ∧
      ∀ on, exec (.regulatorWarning rail on) s =
        .next (updateAlert { s with power := { p with rails := updAt p.rails rail.val fun x => { x with warning := on } } })) ∧
    (∀ (modules : List (Option Nat)) (k : Nat), s.fw.state = .ready → s.pins.clavePhase = 2 → k < 16 → s.fabric.ports.length = 16 →
      s.inv.portModule.length = 16 → s.inv.portStatus.length = 16 → s.inv.portStatus.getD k 0 = 1 → 0 < s.inv.portModule.getD k 0 →
      modules.getD k none = none →
      nextWith (fun t => (t.port k).state = .down ∧ t.inv.portModule.getD k 0 = 0 ∧ t.inv.portStatus.getD k 0 = 2)
        (exec (.cmisStatusPoll modules) s))
end

