-- ==== Sys2Proof/Laws/Memory.lean ====
section
/-! SUPPORT. Laws of the byte memories: every operation keeps the canonical form, a byte reads as it was last written, and
a write leaves every other byte alone. -/
namespace Sys2Proof.Machine

/-! ## The canonical form as a property of the list -/

/-- The condition on one listed cell. -/
def Memory.cellOk (m : Memory) (c : Host.Cell) : Prop := (m.undefAt c.1).isSome = true ∨ c.2 ≠ 0

/-- Addresses strictly rise. -/
def rising (cs : List Host.Cell) : Prop := cs.Pairwise fun a b => a.1 < b.1

theorem cellsWf_some (m : Memory) (l : Nat) (cs : List Host.Cell) :
    cellsWf m (some l) cs = true ↔ (∀ c ∈ cs, l < c.1) ∧ rising cs ∧ ∀ c ∈ cs, m.cellOk c := by
  induction cs generalizing l with
  | nil => simp [cellsWf, rising]
  | cons c cs ih =>
    obtain ⟨k, b⟩ := c
    simp only [cellsWf, Bool.and_eq_true, decide_eq_true_eq, ih, rising, List.pairwise_cons, List.forall_mem_cons,
      Memory.cellOk, Bool.or_eq_true, Bool.not_eq_true', beq_eq_false_iff_ne]
    constructor
    · rintro ⟨⟨h1, h2⟩, h3, h4, h5⟩
      exact ⟨⟨h1, fun c hc => lt_trans h1 (h3 c hc)⟩, ⟨h3, h4⟩, h2, h5⟩
    · rintro ⟨⟨h1, _⟩, ⟨h3, h4⟩, h2, h5⟩
      exact ⟨⟨h1, h2⟩, h3, h4, h5⟩

/-- The canonical form: addresses strictly rise, and every listed cell must be listed. -/
theorem Memory.wf_iff (m : Memory) : m.wf = true ↔ rising m.cells ∧ ∀ c ∈ m.cells, m.cellOk c := by
  unfold Memory.wf
  cases h : m.cells with
  | nil => simp [cellsWf, rising]
  | cons c cs =>
    obtain ⟨k, b⟩ := c
    simp only [cellsWf, Bool.and_eq_true, cellsWf_some, rising, List.pairwise_cons, List.forall_mem_cons,
      Memory.cellOk, Bool.or_eq_true, Bool.not_eq_true', beq_eq_false_iff_ne, true_and]
    tauto

theorem Memory.empty_wf : Memory.empty.wf = true := rfl

/-! ## Putting and dropping cells -/

theorem mem_putCell {cs : List Host.Cell} {a : Nat} {b : Byte} {c : Host.Cell} (h : c ∈ putCell cs a b) :
    c = (a, b) ∨ c ∈ cs := by
  induction cs with
  | nil => simpa [putCell] using h
  | cons d cs ih =>
    obtain ⟨k, x⟩ := d
    simp only [putCell] at h
    split at h
    · simpa using h
    · split at h
      · rcases List.mem_cons.1 h with rfl | h <;> simp [*]
      · rcases List.mem_cons.1 h with rfl | h
        · simp
        · rcases ih h with rfl | h <;> simp [*]

theorem mem_dropCell {cs : List Host.Cell} {a : Nat} {c : Host.Cell} (h : c ∈ dropCell cs a) : c ∈ cs := by
  induction cs with
  | nil => simp [dropCell] at h
  | cons d cs ih =>
    obtain ⟨k, x⟩ := d
    simp only [dropCell] at h
    split at h
    · exact h
    · split at h
      · exact List.mem_cons_of_mem _ h
      · rcases List.mem_cons.1 h with rfl | h
        · simp
        · exact List.mem_cons_of_mem _ (ih h)

theorem rising_putCell {cs : List Host.Cell} (a : Nat) (b : Byte) (h : rising cs) : rising (putCell cs a b) := by
  induction cs with
  | nil => simp [putCell, rising]
  | cons d cs ih =>
    obtain ⟨k, x⟩ := d
    simp only [rising, List.pairwise_cons] at h
    simp only [putCell]
    split
    · simp only [rising, List.pairwise_cons, List.forall_mem_cons]
      exact ⟨⟨by assumption, fun c hc => lt_trans (by assumption) (h.1 c hc)⟩, h⟩
    · split
      · subst_vars
        simp only [rising, List.pairwise_cons]
        exact h
      · simp only [rising, List.pairwise_cons]
        refine ⟨fun c hc => ?_, ih h.2⟩
        rcases mem_putCell hc with rfl | hc
        · show k < a
          omega
        · exact h.1 c hc

theorem rising_dropCell {cs : List Host.Cell} (a : Nat) (h : rising cs) : rising (dropCell cs a) := by
  induction cs with
  | nil => simp [dropCell, rising]
  | cons d cs ih =>
    obtain ⟨k, x⟩ := d
    have h' := h
    simp only [rising, List.pairwise_cons] at h
    simp only [dropCell]
    split
    · exact h'
    · split
      · exact h.2
      · simp only [rising, List.pairwise_cons]
        exact ⟨fun c hc => h.1 c (mem_dropCell hc), ih h.2⟩

theorem cellAt_putCell_same (cs : List Host.Cell) (a : Nat) (b : Byte) : cellAt (putCell cs a b) a = some b := by
  induction cs with
  | nil => simp [putCell, cellAt]
  | cons d cs ih =>
    obtain ⟨k, x⟩ := d
    simp only [putCell]
    split
    · simp [cellAt]
    · split
      · simp [cellAt]
      · simp only [cellAt]
        rw [if_neg (by assumption), if_neg (by assumption), ih]

theorem cellAt_none_of_lt {cs : List Host.Cell} {a : Nat} (h : ∀ c ∈ cs, a < c.1) : cellAt cs a = none := by
  cases cs with
  | nil => rfl
  | cons d cs =>
    obtain ⟨k, x⟩ := d
    have : a < k := h (k, x) (by simp)
    simp [cellAt, this]

theorem cellAt_putCell_other {cs : List Host.Cell} {a x : Nat} (b : Byte) (h : rising cs) (hx : x ≠ a) :
    cellAt (putCell cs a b) x = cellAt cs x := by
  induction cs with
  | nil =>
    simp only [putCell, cellAt]
    split <;> simp
  | cons d cs ih =>
    obtain ⟨k, y⟩ := d
    simp only [rising, List.pairwise_cons] at h
    simp only [putCell]
    split
    · rename_i hk
      simp only [cellAt]
      by_cases hxa : x < a
      · rw [if_pos hxa, if_pos (lt_trans hxa hk)]
      · rw [if_neg hxa, if_neg hx]
    · split
      · subst_vars
        simp only [cellAt]
        split <;> simp
      · simp only [cellAt, ih h.2]

theorem cellAt_dropCell_other {cs : List Host.Cell} {a x : Nat} (h : rising cs) (hx : x ≠ a) :
    cellAt (dropCell cs a) x = cellAt cs x := by
  induction cs with
  | nil => rfl
  | cons d cs ih =>
    obtain ⟨k, y⟩ := d
    simp only [rising, List.pairwise_cons] at h
    simp only [dropCell]
    split
    · rfl
    · split
      · subst_vars
        simp only [cellAt]
        rw [if_neg hx]
        split
        · exact cellAt_none_of_lt fun c hc => lt_trans (by assumption) (h.1 c hc)
        · rfl
      · simp only [cellAt, ih h.2]

theorem cellAt_dropCell_same {cs : List Host.Cell} {a : Nat} (h : rising cs) : cellAt (dropCell cs a) a = none := by
  induction cs with
  | nil => rfl
  | cons d cs ih =>
    obtain ⟨k, y⟩ := d
    simp only [rising, List.pairwise_cons] at h
    simp only [dropCell]
    split
    · simp [cellAt, *]
    · split
      · subst_vars
        exact cellAt_none_of_lt h.1
      · simp only [cellAt]
        rw [if_neg (by assumption), if_neg (by assumption), ih h.2]

/-! ## One byte -/

@[simp] theorem Memory.undefAt_write (m : Memory) (a : Nat) (b : Byte) (x : Nat) : (m.write a b).undefAt x = m.undefAt x := by
  unfold Memory.write
  split <;> rfl

@[simp] theorem Memory.unlisted_write (m : Memory) (a : Nat) (b : Byte) (x : Nat) : (m.write a b).unlisted x = m.unlisted x := by
  simp [Memory.unlisted]

/-- A write keeps the canonical form. -/
theorem Memory.write_wf {m : Memory} (a : Nat) (b : Byte) (h : m.wf = true) : (m.write a b).wf = true := by
  rw [Memory.wf_iff] at h ⊢
  unfold Memory.write
  split
  · exact ⟨rising_dropCell a h.1, fun c hc => h.2 c (mem_dropCell hc)⟩
  · rename_i hz
    refine ⟨rising_putCell a b h.1, fun c hc => ?_⟩
    rcases mem_putCell hc with rfl | hc
    · show (m.undefAt a).isSome = true ∨ b ≠ 0
      cases hu : m.undefAt a with
      | none => right; simpa [hu] using hz
      | some r => left; rfl
    · exact h.2 c hc

/-- A byte reads as it was last written. -/
theorem Memory.read_write_same {m : Memory} (a : Nat) (b : Byte) (h : m.wf = true) : (m.write a b).read a = b := by
  rw [Memory.wf_iff] at h
  unfold Memory.read
  rw [Memory.unlisted_write]
  unfold Memory.write
  split
  · rename_i hz
    simp only [Bool.and_eq_true, Option.isNone_iff_eq_none, beq_iff_eq] at hz
    simp [cellAt_dropCell_same h.1, Memory.unlisted, hz.1, hz.2]
  · simp [cellAt_putCell_same]

/-- A write leaves every other byte alone. -/
theorem Memory.read_write_other {m : Memory} {a x : Nat} (b : Byte) (h : m.wf = true) (hx : x ≠ a) :
    (m.write a b).read x = m.read x := by
  rw [Memory.wf_iff] at h
  unfold Memory.read
  rw [Memory.unlisted_write]
  unfold Memory.write
  split
  · simp [cellAt_dropCell_other h.1 hx]
  · simp [cellAt_putCell_other b h.1 hx]

/-! ## Runs of bytes -/

theorem Memory.writeBytes_wf (bs : List Byte) {m : Memory} (a : Nat) (h : m.wf = true) : (m.writeBytes a bs).wf = true := by
  induction bs generalizing m a with
  | nil => exact h
  | cons b bs ih => exact ih (a + 1) (Memory.write_wf a b h)

/-- A run leaves every byte outside it alone. -/
theorem Memory.read_writeBytes_outside (bs : List Byte) {m : Memory} {a x : Nat} (h : m.wf = true)
    (hx : x < a ∨ a + bs.length ≤ x) : (m.writeBytes a bs).read x = m.read x := by
  induction bs generalizing m a with
  | nil => rfl
  | cons b bs ih =>
    simp only [List.length_cons] at hx
    unfold Memory.writeBytes
    rw [ih (Memory.write_wf a b h) (by omega), Memory.read_write_other b h (by omega)]

/-- Byte `i` of a run reads as written. -/
theorem Memory.read_writeBytes_inside (bs : List Byte) {m : Memory} {a i : Nat} (h : m.wf = true) (hi : i < bs.length) :
    (m.writeBytes a bs).read (a + i) = bs[i] := by
  induction bs generalizing m a i with
  | nil => simp at hi
  | cons b bs ih =>
    unfold Memory.writeBytes
    cases i with
    | zero =>
      rw [Memory.read_writeBytes_outside bs (Memory.write_wf a b h) (by omega)]
      simpa using Memory.read_write_same a b h
    | succ i =>
      have := ih (m := m.write a b) (a := a + 1) (i := i) (Memory.write_wf a b h) (by simpa using hi)
      simpa [Nat.add_assoc, Nat.add_comm 1 i] using this

/-- A run reads back as written. -/
theorem Memory.readBytes_writeBytes (bs : List Byte) {m : Memory} (a : Nat) (h : m.wf = true) :
    (m.writeBytes a bs).readBytes a bs.length = bs := by
  apply List.ext_getElem
  · simp [Memory.readBytes]
  · intro i h1 h2
    simpa [Memory.readBytes] using Memory.read_writeBytes_inside bs h h2

/-! ## Elements -/

theorem Memory.writeElem_wf {m : Memory} (base : Nat) (f : Fmt) (i c : Nat) (h : m.wf = true) :
    (m.writeElem base f i c).wf = true := by
  unfold Memory.writeElem
  split <;> exact Memory.writeBytes_wf _ _ h

theorem Memory.writeElems_wf (cs : List Nat) {m : Memory} (base : Nat) (f : Fmt) (i : Nat) (h : m.wf = true) :
    (m.writeElems base f i cs).wf = true := by
  induction cs generalizing m i with
  | nil => exact h
  | cons c cs ih => exact ih (i + 1) (Memory.writeElem_wf base f i c h)

theorem Memory.writeRow_wf {m : Memory} (base : Nat) (f : Fmt) (n i : Nat) (cs : List Nat) (h : m.wf = true) :
    (m.writeRow base f n i cs).wf = true := by
  unfold Memory.writeRow
  dsimp only
  split
  · exact Memory.writeElems_wf _ _ _ _ (Memory.writeElems_wf _ _ _ _ h)
  · exact Memory.writeElems_wf _ _ _ _ h

/-- A fold of writes keeps the canonical form where each of them does. -/
theorem Memory.foldl_wf {α : Type} (put : Memory → α → Memory) (hput : ∀ m x, m.wf = true → (put m x).wf = true)
    (l : List α) {m : Memory} (h : m.wf = true) : (l.foldl put m).wf = true := by
  induction l generalizing m with
  | nil => exact h
  | cons x l ih => exact ih (hput m x h)

/-! ## Undefined and zeroed ranges -/

theorem rising_filter {cs : List Host.Cell} (p : Host.Cell → Bool) (h : rising cs) : rising (cs.filter p) :=
  List.Pairwise.filter p h

/-- A range's contents become undefined: the canonical form stays. -/
theorem Memory.forget_wf {m : Memory} (base size epoch : Nat) (h : m.wf = true) : (m.forget base size epoch).wf = true := by
  rw [Memory.wf_iff] at h ⊢
  refine ⟨rising_filter _ h.1, fun c hc => ?_⟩
  have hm := (List.mem_filter.1 hc).1
  rcases h.2 c hm with hu | hb
  · left
    simp only [Memory.undefAt, Memory.forget, List.find?_cons]
    split
    · rfl
    · exact hu
  · exact Or.inr hb

theorem Memory.undefAt_isSome (m : Memory) (x : Nat) :
    (m.undefAt x).isSome = true ↔ ∃ r ∈ m.undef, r.base ≤ x ∧ x < r.base + r.size := by
  simp [Memory.undefAt, List.find?_isSome]

/-- Outside a zeroed range the undefined ranges stay. -/
theorem Memory.undefAt_zeroRange {m : Memory} {base size x : Nat} (hx : x < base ∨ base + size ≤ x)
    (h : (m.undefAt x).isSome = true) : ((m.zeroRange base size).undefAt x).isSome = true := by
  rw [Memory.undefAt_isSome] at h ⊢
  obtain ⟨r, hr, h1, h2⟩ := h
  simp only [Memory.zeroRange, List.mem_flatMap]
  by_cases ho : overlaps r.base r.size base size = true
  · rcases hx with hx | hx
    · refine ⟨{ r with size := base - r.base }, ⟨r, hr, ?_⟩, h1, ?_⟩
      · rw [if_pos ho, if_pos (by omega)]
        simp
      · show x < r.base + (base - r.base)
        omega
    · refine ⟨{ r with base := base + size, size := r.base + r.size - (base + size) }, ⟨r, hr, ?_⟩, hx, ?_⟩
      · rw [if_pos ho, if_pos (show base + size < r.base + r.size by omega)]
        simp
      · show x < base + size + (r.base + r.size - (base + size))
        omega
  · exact ⟨r, ⟨r, hr, by rw [if_neg ho]; simp⟩, h1, h2⟩

/-- A range becomes zero: the canonical form stays. -/
theorem Memory.zeroRange_wf {m : Memory} (base size : Nat) (h : m.wf = true) : (m.zeroRange base size).wf = true := by
  rw [Memory.wf_iff] at h ⊢
  refine ⟨rising_filter _ h.1, fun c hc => ?_⟩
  obtain ⟨hm, hp⟩ := List.mem_filter.1 hc
  rcases h.2 c hm with hu | hb
  · left
    refine Memory.undefAt_zeroRange ?_ hu
    simp only [Bool.not_eq_true', Bool.and_eq_false_iff, decide_eq_false_iff_not] at hp
    omega
  · exact Or.inr hb

end Sys2Proof.Machine
end

