-- ==== Sys2Proof/Laws/State.lean ====
section
/-! SUPPORT. Laws of the state's updates: what each leaves, one lemma a field, and what a register file holds after one of
its elements is changed. -/
namespace Sys2Proof.Machine

/-! ## Lists with one element changed -/

theorem updAt_getD_same {α : Type} (l : List α) (i : Nat) (f : α → α) (d : α) (h : i < l.length) :
    (updAt l i f).getD i d = f (l.getD i d) := by
  simp [updAt, List.getD_eq_getElem?_getD, h]

theorem updAt_getD_other {α : Type} (l : List α) {i j : Nat} (f : α → α) (d : α) (h : j ≠ i) :
    (updAt l i f).getD j d = l.getD j d := by
  simp [updAt, List.getD_eq_getElem?_getD, Ne.symm h]

theorem updAt_slot_same {α : Type} (l : List (Option α)) (i : Nat) (f : Option α → Option α) (h : i < l.length) :
    slotAt (updAt l i f) i = f (slotAt l i) := by
  simp [slotAt, updAt, h]

theorem updAt_slot_other {α : Type} (l : List (Option α)) {i j : Nat} (f : Option α → Option α) (h : j ≠ i) :
    slotAt (updAt l i f) j = slotAt l j := by
  simp [slotAt, updAt, Ne.symm h]

@[simp] theorem length_updAt {α : Type} (l : List α) (i : Nat) (f : α → α) : (updAt l i f).length = l.length := by
  simp [updAt]

/-! ## updFunc -/

@[simp] theorem State.updFunc_funcs (s : State) (fn : Nat) (f : Func → Func) : (s.updFunc fn f).funcs = updAt s.funcs fn f := rfl
@[simp] theorem State.updFunc_pending (s : State) (fn : Nat) (f : Func → Func) : (s.updFunc fn f).pending = s.pending := rfl
@[simp] theorem State.updFunc_time (s : State) (fn : Nat) (f : Func → Func) : (s.updFunc fn f).time = s.time := rfl
@[simp] theorem State.updFunc_fresh (s : State) (fn : Nat) (f : Func → Func) : (s.updFunc fn f).fresh = s.fresh := rfl
@[simp] theorem State.updFunc_fuses (s : State) (fn : Nat) (f : Func → Func) : (s.updFunc fn f).fuses = s.fuses := rfl
@[simp] theorem State.updFunc_pins (s : State) (fn : Nat) (f : Func → Func) : (s.updFunc fn f).pins = s.pins := rfl
@[simp] theorem State.updFunc_fw (s : State) (fn : Nat) (f : Func → Func) : (s.updFunc fn f).fw = s.fw := rfl
@[simp] theorem State.updFunc_pcie (s : State) (fn : Nat) (f : Func → Func) : (s.updFunc fn f).pcie = s.pcie := rfl
@[simp] theorem State.updFunc_mem (s : State) (fn : Nat) (f : Func → Func) : (s.updFunc fn f).mem = s.mem := rfl
@[simp] theorem State.updFunc_host (s : State) (fn : Nat) (f : Func → Func) : (s.updFunc fn f).host = s.host := rfl
@[simp] theorem State.updFunc_channels (s : State) (fn : Nat) (f : Func → Func) : (s.updFunc fn f).channels = s.channels := rfl
@[simp] theorem State.updFunc_inv (s : State) (fn : Nat) (f : Func → Func) : (s.updFunc fn f).inv = s.inv := rfl
@[simp] theorem State.updFunc_cores (s : State) (fn : Nat) (f : Func → Func) : (s.updFunc fn f).cores = s.cores := rfl
@[simp] theorem State.updFunc_chips (s : State) (fn : Nat) (f : Func → Func) : (s.updFunc fn f).chips = s.chips := rfl
@[simp] theorem State.updFunc_chipFetch (s : State) (fn : Nat) (f : Func → Func) : (s.updFunc fn f).chipFetch = s.chipFetch := rfl
@[simp] theorem State.updFunc_gathers (s : State) (fn : Nat) (f : Func → Func) : (s.updFunc fn f).gathers = s.gathers := rfl
@[simp] theorem State.updFunc_tables (s : State) (fn : Nat) (f : Func → Func) : (s.updFunc fn f).tables = s.tables := rfl
@[simp] theorem State.updFunc_scores (s : State) (fn : Nat) (f : Func → Func) : (s.updFunc fn f).scores = s.scores := rfl
@[simp] theorem State.updFunc_resident (s : State) (fn : Nat) (f : Func → Func) : (s.updFunc fn f).resident = s.resident := rfl
@[simp] theorem State.updFunc_sched (s : State) (fn : Nat) (f : Func → Func) : (s.updFunc fn f).sched = s.sched := rfl
@[simp] theorem State.updFunc_staged (s : State) (fn : Nat) (f : Func → Func) : (s.updFunc fn f).staged = s.staged := rfl
@[simp] theorem State.updFunc_preempt (s : State) (fn : Nat) (f : Func → Func) : (s.updFunc fn f).preempt = s.preempt := rfl
@[simp] theorem State.updFunc_groups (s : State) (fn : Nat) (f : Func → Func) : (s.updFunc fn f).groups = s.groups := rfl
@[simp] theorem State.updFunc_fabric (s : State) (fn : Nat) (f : Func → Func) : (s.updFunc fn f).fabric = s.fabric := rfl
@[simp] theorem State.updFunc_codec (s : State) (fn : Nat) (f : Func → Func) : (s.updFunc fn f).codec = s.codec := rfl
@[simp] theorem State.updFunc_power (s : State) (fn : Nat) (f : Func → Func) : (s.updFunc fn f).power = s.power := rfl
@[simp] theorem State.updFunc_sec (s : State) (fn : Nat) (f : Func → Func) : (s.updFunc fn f).sec = s.sec := rfl
@[simp] theorem State.updFunc_log (s : State) (fn : Nat) (f : Func → Func) : (s.updFunc fn f).log = s.log := rfl
@[simp] theorem State.updFunc_test (s : State) (fn : Nat) (f : Func → Func) : (s.updFunc fn f).test = s.test := rfl
@[simp] theorem State.updFunc_bar2Held (s : State) (fn : Nat) (f : Func → Func) : (s.updFunc fn f).bar2Held = s.bar2Held := rfl
@[simp] theorem State.updFunc_doorbells (s : State) (fn : Nat) (f : Func → Func) : (s.updFunc fn f).doorbells = s.doorbells := rfl
@[simp] theorem State.updFunc_lastCaller (s : State) (fn : Nat) (f : Func → Func) : (s.updFunc fn f).lastCaller = s.lastCaller := rfl
@[simp] theorem State.updFunc_out (s : State) (fn : Nat) (f : Func → Func) : (s.updFunc fn f).out = s.out := rfl

/-! ## updMailbox -/

@[simp] theorem State.updMailbox_funcs (s : State) (fn : Nat) (f : Mailbox → Mailbox) : (s.updMailbox fn f).funcs = updAt s.funcs fn fun g => { g with mailbox := g.mailbox.map f } := rfl
@[simp] theorem State.updMailbox_pending (s : State) (fn : Nat) (f : Mailbox → Mailbox) : (s.updMailbox fn f).pending = s.pending := rfl
@[simp] theorem State.updMailbox_time (s : State) (fn : Nat) (f : Mailbox → Mailbox) : (s.updMailbox fn f).time = s.time := rfl
@[simp] theorem State.updMailbox_fresh (s : State) (fn : Nat) (f : Mailbox → Mailbox) : (s.updMailbox fn f).fresh = s.fresh := rfl
@[simp] theorem State.updMailbox_fuses (s : State) (fn : Nat) (f : Mailbox → Mailbox) : (s.updMailbox fn f).fuses = s.fuses := rfl
@[simp] theorem State.updMailbox_pins (s : State) (fn : Nat) (f : Mailbox → Mailbox) : (s.updMailbox fn f).pins = s.pins := rfl
@[simp] theorem State.updMailbox_fw (s : State) (fn : Nat) (f : Mailbox → Mailbox) : (s.updMailbox fn f).fw = s.fw := rfl
@[simp] theorem State.updMailbox_pcie (s : State) (fn : Nat) (f : Mailbox → Mailbox) : (s.updMailbox fn f).pcie = s.pcie := rfl
@[simp] theorem State.updMailbox_mem (s : State) (fn : Nat) (f : Mailbox → Mailbox) : (s.updMailbox fn f).mem = s.mem := rfl
@[simp] theorem State.updMailbox_host (s : State) (fn : Nat) (f : Mailbox → Mailbox) : (s.updMailbox fn f).host = s.host := rfl
@[simp] theorem State.updMailbox_channels (s : State) (fn : Nat) (f : Mailbox → Mailbox) : (s.updMailbox fn f).channels = s.channels := rfl
@[simp] theorem State.updMailbox_inv (s : State) (fn : Nat) (f : Mailbox → Mailbox) : (s.updMailbox fn f).inv = s.inv := rfl
@[simp] theorem State.updMailbox_cores (s : State) (fn : Nat) (f : Mailbox → Mailbox) : (s.updMailbox fn f).cores = s.cores := rfl
@[simp] theorem State.updMailbox_chips (s : State) (fn : Nat) (f : Mailbox → Mailbox) : (s.updMailbox fn f).chips = s.chips := rfl
@[simp] theorem State.updMailbox_chipFetch (s : State) (fn : Nat) (f : Mailbox → Mailbox) : (s.updMailbox fn f).chipFetch = s.chipFetch := rfl
@[simp] theorem State.updMailbox_gathers (s : State) (fn : Nat) (f : Mailbox → Mailbox) : (s.updMailbox fn f).gathers = s.gathers := rfl
@[simp] theorem State.updMailbox_tables (s : State) (fn : Nat) (f : Mailbox → Mailbox) : (s.updMailbox fn f).tables = s.tables := rfl
@[simp] theorem State.updMailbox_scores (s : State) (fn : Nat) (f : Mailbox → Mailbox) : (s.updMailbox fn f).scores = s.scores := rfl
@[simp] theorem State.updMailbox_resident (s : State) (fn : Nat) (f : Mailbox → Mailbox) : (s.updMailbox fn f).resident = s.resident := rfl
@[simp] theorem State.updMailbox_sched (s : State) (fn : Nat) (f : Mailbox → Mailbox) : (s.updMailbox fn f).sched = s.sched := rfl
@[simp] theorem State.updMailbox_staged (s : State) (fn : Nat) (f : Mailbox → Mailbox) : (s.updMailbox fn f).staged = s.staged := rfl
@[simp] theorem State.updMailbox_preempt (s : State) (fn : Nat) (f : Mailbox → Mailbox) : (s.updMailbox fn f).preempt = s.preempt := rfl
@[simp] theorem State.updMailbox_groups (s : State) (fn : Nat) (f : Mailbox → Mailbox) : (s.updMailbox fn f).groups = s.groups := rfl
@[simp] theorem State.updMailbox_fabric (s : State) (fn : Nat) (f : Mailbox → Mailbox) : (s.updMailbox fn f).fabric = s.fabric := rfl
@[simp] theorem State.updMailbox_codec (s : State) (fn : Nat) (f : Mailbox → Mailbox) : (s.updMailbox fn f).codec = s.codec := rfl
@[simp] theorem State.updMailbox_power (s : State) (fn : Nat) (f : Mailbox → Mailbox) : (s.updMailbox fn f).power = s.power := rfl
@[simp] theorem State.updMailbox_sec (s : State) (fn : Nat) (f : Mailbox → Mailbox) : (s.updMailbox fn f).sec = s.sec := rfl
@[simp] theorem State.updMailbox_log (s : State) (fn : Nat) (f : Mailbox → Mailbox) : (s.updMailbox fn f).log = s.log := rfl
@[simp] theorem State.updMailbox_test (s : State) (fn : Nat) (f : Mailbox → Mailbox) : (s.updMailbox fn f).test = s.test := rfl
@[simp] theorem State.updMailbox_bar2Held (s : State) (fn : Nat) (f : Mailbox → Mailbox) : (s.updMailbox fn f).bar2Held = s.bar2Held := rfl
@[simp] theorem State.updMailbox_doorbells (s : State) (fn : Nat) (f : Mailbox → Mailbox) : (s.updMailbox fn f).doorbells = s.doorbells := rfl
@[simp] theorem State.updMailbox_lastCaller (s : State) (fn : Nat) (f : Mailbox → Mailbox) : (s.updMailbox fn f).lastCaller = s.lastCaller := rfl
@[simp] theorem State.updMailbox_out (s : State) (fn : Nat) (f : Mailbox → Mailbox) : (s.updMailbox fn f).out = s.out := rfl

/-! ## updQueue -/

@[simp] theorem State.updQueue_pending (s : State) (fn q : Nat) (f : JobQueue → JobQueue) : (s.updQueue fn q f).pending = s.pending := rfl
@[simp] theorem State.updQueue_time (s : State) (fn q : Nat) (f : JobQueue → JobQueue) : (s.updQueue fn q f).time = s.time := rfl
@[simp] theorem State.updQueue_fresh (s : State) (fn q : Nat) (f : JobQueue → JobQueue) : (s.updQueue fn q f).fresh = s.fresh := rfl
@[simp] theorem State.updQueue_fuses (s : State) (fn q : Nat) (f : JobQueue → JobQueue) : (s.updQueue fn q f).fuses = s.fuses := rfl
@[simp] theorem State.updQueue_pins (s : State) (fn q : Nat) (f : JobQueue → JobQueue) : (s.updQueue fn q f).pins = s.pins := rfl
@[simp] theorem State.updQueue_fw (s : State) (fn q : Nat) (f : JobQueue → JobQueue) : (s.updQueue fn q f).fw = s.fw := rfl
@[simp] theorem State.updQueue_pcie (s : State) (fn q : Nat) (f : JobQueue → JobQueue) : (s.updQueue fn q f).pcie = s.pcie := rfl
@[simp] theorem State.updQueue_mem (s : State) (fn q : Nat) (f : JobQueue → JobQueue) : (s.updQueue fn q f).mem = s.mem := rfl
@[simp] theorem State.updQueue_host (s : State) (fn q : Nat) (f : JobQueue → JobQueue) : (s.updQueue fn q f).host = s.host := rfl
@[simp] theorem State.updQueue_channels (s : State) (fn q : Nat) (f : JobQueue → JobQueue) : (s.updQueue fn q f).channels = s.channels := rfl
@[simp] theorem State.updQueue_inv (s : State) (fn q : Nat) (f : JobQueue → JobQueue) : (s.updQueue fn q f).inv = s.inv := rfl
@[simp] theorem State.updQueue_cores (s : State) (fn q : Nat) (f : JobQueue → JobQueue) : (s.updQueue fn q f).cores = s.cores := rfl
@[simp] theorem State.updQueue_chips (s : State) (fn q : Nat) (f : JobQueue → JobQueue) : (s.updQueue fn q f).chips = s.chips := rfl
@[simp] theorem State.updQueue_chipFetch (s : State) (fn q : Nat) (f : JobQueue → JobQueue) : (s.updQueue fn q f).chipFetch = s.chipFetch := rfl
@[simp] theorem State.updQueue_gathers (s : State) (fn q : Nat) (f : JobQueue → JobQueue) : (s.updQueue fn q f).gathers = s.gathers := rfl
@[simp] theorem State.updQueue_tables (s : State) (fn q : Nat) (f : JobQueue → JobQueue) : (s.updQueue fn q f).tables = s.tables := rfl
@[simp] theorem State.updQueue_scores (s : State) (fn q : Nat) (f : JobQueue → JobQueue) : (s.updQueue fn q f).scores = s.scores := rfl
@[simp] theorem State.updQueue_resident (s : State) (fn q : Nat) (f : JobQueue → JobQueue) : (s.updQueue fn q f).resident = s.resident := rfl
@[simp] theorem State.updQueue_sched (s : State) (fn q : Nat) (f : JobQueue → JobQueue) : (s.updQueue fn q f).sched = s.sched := rfl
@[simp] theorem State.updQueue_staged (s : State) (fn q : Nat) (f : JobQueue → JobQueue) : (s.updQueue fn q f).staged = s.staged := rfl
@[simp] theorem State.updQueue_preempt (s : State) (fn q : Nat) (f : JobQueue → JobQueue) : (s.updQueue fn q f).preempt = s.preempt := rfl
@[simp] theorem State.updQueue_groups (s : State) (fn q : Nat) (f : JobQueue → JobQueue) : (s.updQueue fn q f).groups = s.groups := rfl
@[simp] theorem State.updQueue_fabric (s : State) (fn q : Nat) (f : JobQueue → JobQueue) : (s.updQueue fn q f).fabric = s.fabric := rfl
@[simp] theorem State.updQueue_codec (s : State) (fn q : Nat) (f : JobQueue → JobQueue) : (s.updQueue fn q f).codec = s.codec := rfl
@[simp] theorem State.updQueue_power (s : State) (fn q : Nat) (f : JobQueue → JobQueue) : (s.updQueue fn q f).power = s.power := rfl
@[simp] theorem State.updQueue_sec (s : State) (fn q : Nat) (f : JobQueue → JobQueue) : (s.updQueue fn q f).sec = s.sec := rfl
@[simp] theorem State.updQueue_log (s : State) (fn q : Nat) (f : JobQueue → JobQueue) : (s.updQueue fn q f).log = s.log := rfl
@[simp] theorem State.updQueue_test (s : State) (fn q : Nat) (f : JobQueue → JobQueue) : (s.updQueue fn q f).test = s.test := rfl
@[simp] theorem State.updQueue_bar2Held (s : State) (fn q : Nat) (f : JobQueue → JobQueue) : (s.updQueue fn q f).bar2Held = s.bar2Held := rfl
@[simp] theorem State.updQueue_doorbells (s : State) (fn q : Nat) (f : JobQueue → JobQueue) : (s.updQueue fn q f).doorbells = s.doorbells := rfl
@[simp] theorem State.updQueue_lastCaller (s : State) (fn q : Nat) (f : JobQueue → JobQueue) : (s.updQueue fn q f).lastCaller = s.lastCaller := rfl
@[simp] theorem State.updQueue_out (s : State) (fn q : Nat) (f : JobQueue → JobQueue) : (s.updQueue fn q f).out = s.out := rfl

/-! ## updCore -/

@[simp] theorem State.updCore_cores (s : State) (c : Nat) (f : Core → Core) : (s.updCore c f).cores = updAt s.cores c f := rfl
@[simp] theorem State.updCore_pending (s : State) (c : Nat) (f : Core → Core) : (s.updCore c f).pending = s.pending := rfl
@[simp] theorem State.updCore_time (s : State) (c : Nat) (f : Core → Core) : (s.updCore c f).time = s.time := rfl
@[simp] theorem State.updCore_fresh (s : State) (c : Nat) (f : Core → Core) : (s.updCore c f).fresh = s.fresh := rfl
@[simp] theorem State.updCore_fuses (s : State) (c : Nat) (f : Core → Core) : (s.updCore c f).fuses = s.fuses := rfl
@[simp] theorem State.updCore_pins (s : State) (c : Nat) (f : Core → Core) : (s.updCore c f).pins = s.pins := rfl
@[simp] theorem State.updCore_fw (s : State) (c : Nat) (f : Core → Core) : (s.updCore c f).fw = s.fw := rfl
@[simp] theorem State.updCore_pcie (s : State) (c : Nat) (f : Core → Core) : (s.updCore c f).pcie = s.pcie := rfl
@[simp] theorem State.updCore_funcs (s : State) (c : Nat) (f : Core → Core) : (s.updCore c f).funcs = s.funcs := rfl
@[simp] theorem State.updCore_mem (s : State) (c : Nat) (f : Core → Core) : (s.updCore c f).mem = s.mem := rfl
@[simp] theorem State.updCore_host (s : State) (c : Nat) (f : Core → Core) : (s.updCore c f).host = s.host := rfl
@[simp] theorem State.updCore_channels (s : State) (c : Nat) (f : Core → Core) : (s.updCore c f).channels = s.channels := rfl
@[simp] theorem State.updCore_inv (s : State) (c : Nat) (f : Core → Core) : (s.updCore c f).inv = s.inv := rfl
@[simp] theorem State.updCore_chips (s : State) (c : Nat) (f : Core → Core) : (s.updCore c f).chips = s.chips := rfl
@[simp] theorem State.updCore_chipFetch (s : State) (c : Nat) (f : Core → Core) : (s.updCore c f).chipFetch = s.chipFetch := rfl
@[simp] theorem State.updCore_gathers (s : State) (c : Nat) (f : Core → Core) : (s.updCore c f).gathers = s.gathers := rfl
@[simp] theorem State.updCore_tables (s : State) (c : Nat) (f : Core → Core) : (s.updCore c f).tables = s.tables := rfl
@[simp] theorem State.updCore_scores (s : State) (c : Nat) (f : Core → Core) : (s.updCore c f).scores = s.scores := rfl
@[simp] theorem State.updCore_resident (s : State) (c : Nat) (f : Core → Core) : (s.updCore c f).resident = s.resident := rfl
@[simp] theorem State.updCore_sched (s : State) (c : Nat) (f : Core → Core) : (s.updCore c f).sched = s.sched := rfl
@[simp] theorem State.updCore_staged (s : State) (c : Nat) (f : Core → Core) : (s.updCore c f).staged = s.staged := rfl
@[simp] theorem State.updCore_preempt (s : State) (c : Nat) (f : Core → Core) : (s.updCore c f).preempt = s.preempt := rfl
@[simp] theorem State.updCore_groups (s : State) (c : Nat) (f : Core → Core) : (s.updCore c f).groups = s.groups := rfl
@[simp] theorem State.updCore_fabric (s : State) (c : Nat) (f : Core → Core) : (s.updCore c f).fabric = s.fabric := rfl
@[simp] theorem State.updCore_codec (s : State) (c : Nat) (f : Core → Core) : (s.updCore c f).codec = s.codec := rfl
@[simp] theorem State.updCore_power (s : State) (c : Nat) (f : Core → Core) : (s.updCore c f).power = s.power := rfl
@[simp] theorem State.updCore_sec (s : State) (c : Nat) (f : Core → Core) : (s.updCore c f).sec = s.sec := rfl
@[simp] theorem State.updCore_log (s : State) (c : Nat) (f : Core → Core) : (s.updCore c f).log = s.log := rfl
@[simp] theorem State.updCore_test (s : State) (c : Nat) (f : Core → Core) : (s.updCore c f).test = s.test := rfl
@[simp] theorem State.updCore_bar2Held (s : State) (c : Nat) (f : Core → Core) : (s.updCore c f).bar2Held = s.bar2Held := rfl
@[simp] theorem State.updCore_doorbells (s : State) (c : Nat) (f : Core → Core) : (s.updCore c f).doorbells = s.doorbells := rfl
@[simp] theorem State.updCore_lastCaller (s : State) (c : Nat) (f : Core → Core) : (s.updCore c f).lastCaller = s.lastCaller := rfl
@[simp] theorem State.updCore_out (s : State) (c : Nat) (f : Core → Core) : (s.updCore c f).out = s.out := rfl

/-! ## updUnit -/

@[simp] theorem State.updUnit_pending (s : State) (u : UnitId) (f : UnitState → UnitState) : (s.updUnit u f).pending = s.pending := by cases u <;> rfl
@[simp] theorem State.updUnit_time (s : State) (u : UnitId) (f : UnitState → UnitState) : (s.updUnit u f).time = s.time := by cases u <;> rfl
@[simp] theorem State.updUnit_fresh (s : State) (u : UnitId) (f : UnitState → UnitState) : (s.updUnit u f).fresh = s.fresh := by cases u <;> rfl
@[simp] theorem State.updUnit_fuses (s : State) (u : UnitId) (f : UnitState → UnitState) : (s.updUnit u f).fuses = s.fuses := by cases u <;> rfl
@[simp] theorem State.updUnit_pins (s : State) (u : UnitId) (f : UnitState → UnitState) : (s.updUnit u f).pins = s.pins := by cases u <;> rfl
@[simp] theorem State.updUnit_fw (s : State) (u : UnitId) (f : UnitState → UnitState) : (s.updUnit u f).fw = s.fw := by cases u <;> rfl
@[simp] theorem State.updUnit_pcie (s : State) (u : UnitId) (f : UnitState → UnitState) : (s.updUnit u f).pcie = s.pcie := by cases u <;> rfl
@[simp] theorem State.updUnit_funcs (s : State) (u : UnitId) (f : UnitState → UnitState) : (s.updUnit u f).funcs = s.funcs := by cases u <;> rfl
@[simp] theorem State.updUnit_mem (s : State) (u : UnitId) (f : UnitState → UnitState) : (s.updUnit u f).mem = s.mem := by cases u <;> rfl
@[simp] theorem State.updUnit_host (s : State) (u : UnitId) (f : UnitState → UnitState) : (s.updUnit u f).host = s.host := by cases u <;> rfl
@[simp] theorem State.updUnit_channels (s : State) (u : UnitId) (f : UnitState → UnitState) : (s.updUnit u f).channels = s.channels := by cases u <;> rfl
@[simp] theorem State.updUnit_inv (s : State) (u : UnitId) (f : UnitState → UnitState) : (s.updUnit u f).inv = s.inv := by cases u <;> rfl
@[simp] theorem State.updUnit_chipFetch (s : State) (u : UnitId) (f : UnitState → UnitState) : (s.updUnit u f).chipFetch = s.chipFetch := by cases u <;> rfl
@[simp] theorem State.updUnit_gathers (s : State) (u : UnitId) (f : UnitState → UnitState) : (s.updUnit u f).gathers = s.gathers := by cases u <;> rfl
@[simp] theorem State.updUnit_tables (s : State) (u : UnitId) (f : UnitState → UnitState) : (s.updUnit u f).tables = s.tables := by cases u <;> rfl
@[simp] theorem State.updUnit_scores (s : State) (u : UnitId) (f : UnitState → UnitState) : (s.updUnit u f).scores = s.scores := by cases u <;> rfl
@[simp] theorem State.updUnit_resident (s : State) (u : UnitId) (f : UnitState → UnitState) : (s.updUnit u f).resident = s.resident := by cases u <;> rfl
@[simp] theorem State.updUnit_sched (s : State) (u : UnitId) (f : UnitState → UnitState) : (s.updUnit u f).sched = s.sched := by cases u <;> rfl
@[simp] theorem State.updUnit_staged (s : State) (u : UnitId) (f : UnitState → UnitState) : (s.updUnit u f).staged = s.staged := by cases u <;> rfl
@[simp] theorem State.updUnit_preempt (s : State) (u : UnitId) (f : UnitState → UnitState) : (s.updUnit u f).preempt = s.preempt := by cases u <;> rfl
@[simp] theorem State.updUnit_groups (s : State) (u : UnitId) (f : UnitState → UnitState) : (s.updUnit u f).groups = s.groups := by cases u <;> rfl
@[simp] theorem State.updUnit_fabric (s : State) (u : UnitId) (f : UnitState → UnitState) : (s.updUnit u f).fabric = s.fabric := by cases u <;> rfl
@[simp] theorem State.updUnit_codec (s : State) (u : UnitId) (f : UnitState → UnitState) : (s.updUnit u f).codec = s.codec := by cases u <;> rfl
@[simp] theorem State.updUnit_power (s : State) (u : UnitId) (f : UnitState → UnitState) : (s.updUnit u f).power = s.power := by cases u <;> rfl
@[simp] theorem State.updUnit_sec (s : State) (u : UnitId) (f : UnitState → UnitState) : (s.updUnit u f).sec = s.sec := by cases u <;> rfl
@[simp] theorem State.updUnit_log (s : State) (u : UnitId) (f : UnitState → UnitState) : (s.updUnit u f).log = s.log := by cases u <;> rfl
@[simp] theorem State.updUnit_test (s : State) (u : UnitId) (f : UnitState → UnitState) : (s.updUnit u f).test = s.test := by cases u <;> rfl
@[simp] theorem State.updUnit_bar2Held (s : State) (u : UnitId) (f : UnitState → UnitState) : (s.updUnit u f).bar2Held = s.bar2Held := by cases u <;> rfl
@[simp] theorem State.updUnit_doorbells (s : State) (u : UnitId) (f : UnitState → UnitState) : (s.updUnit u f).doorbells = s.doorbells := by cases u <;> rfl
@[simp] theorem State.updUnit_lastCaller (s : State) (u : UnitId) (f : UnitState → UnitState) : (s.updUnit u f).lastCaller = s.lastCaller := by cases u <;> rfl
@[simp] theorem State.updUnit_out (s : State) (u : UnitId) (f : UnitState → UnitState) : (s.updUnit u f).out = s.out := by cases u <;> rfl

/-! ## updFetcher -/

@[simp] theorem State.updFetcher_pending (s : State) (u : UnitId) (f : Fetcher → Fetcher) : (s.updFetcher u f).pending = s.pending := by cases u <;> rfl
@[simp] theorem State.updFetcher_time (s : State) (u : UnitId) (f : Fetcher → Fetcher) : (s.updFetcher u f).time = s.time := by cases u <;> rfl
@[simp] theorem State.updFetcher_fresh (s : State) (u : UnitId) (f : Fetcher → Fetcher) : (s.updFetcher u f).fresh = s.fresh := by cases u <;> rfl
@[simp] theorem State.updFetcher_fuses (s : State) (u : UnitId) (f : Fetcher → Fetcher) : (s.updFetcher u f).fuses = s.fuses := by cases u <;> rfl
@[simp] theorem State.updFetcher_pins (s : State) (u : UnitId) (f : Fetcher → Fetcher) : (s.updFetcher u f).pins = s.pins := by cases u <;> rfl
@[simp] theorem State.updFetcher_fw (s : State) (u : UnitId) (f : Fetcher → Fetcher) : (s.updFetcher u f).fw = s.fw := by cases u <;> rfl
@[simp] theorem State.updFetcher_pcie (s : State) (u : UnitId) (f : Fetcher → Fetcher) : (s.updFetcher u f).pcie = s.pcie := by cases u <;> rfl
@[simp] theorem State.updFetcher_funcs (s : State) (u : UnitId) (f : Fetcher → Fetcher) : (s.updFetcher u f).funcs = s.funcs := by cases u <;> rfl
@[simp] theorem State.updFetcher_mem (s : State) (u : UnitId) (f : Fetcher → Fetcher) : (s.updFetcher u f).mem = s.mem := by cases u <;> rfl
@[simp] theorem State.updFetcher_host (s : State) (u : UnitId) (f : Fetcher → Fetcher) : (s.updFetcher u f).host = s.host := by cases u <;> rfl
@[simp] theorem State.updFetcher_channels (s : State) (u : UnitId) (f : Fetcher → Fetcher) : (s.updFetcher u f).channels = s.channels := by cases u <;> rfl
@[simp] theorem State.updFetcher_inv (s : State) (u : UnitId) (f : Fetcher → Fetcher) : (s.updFetcher u f).inv = s.inv := by cases u <;> rfl
@[simp] theorem State.updFetcher_chips (s : State) (u : UnitId) (f : Fetcher → Fetcher) : (s.updFetcher u f).chips = s.chips := by cases u <;> rfl
@[simp] theorem State.updFetcher_gathers (s : State) (u : UnitId) (f : Fetcher → Fetcher) : (s.updFetcher u f).gathers = s.gathers := by cases u <;> rfl
@[simp] theorem State.updFetcher_tables (s : State) (u : UnitId) (f : Fetcher → Fetcher) : (s.updFetcher u f).tables = s.tables := by cases u <;> rfl
@[simp] theorem State.updFetcher_scores (s : State) (u : UnitId) (f : Fetcher → Fetcher) : (s.updFetcher u f).scores = s.scores := by cases u <;> rfl
@[simp] theorem State.updFetcher_resident (s : State) (u : UnitId) (f : Fetcher → Fetcher) : (s.updFetcher u f).resident = s.resident := by cases u <;> rfl
@[simp] theorem State.updFetcher_sched (s : State) (u : UnitId) (f : Fetcher → Fetcher) : (s.updFetcher u f).sched = s.sched := by cases u <;> rfl
@[simp] theorem State.updFetcher_staged (s : State) (u : UnitId) (f : Fetcher → Fetcher) : (s.updFetcher u f).staged = s.staged := by cases u <;> rfl
@[simp] theorem State.updFetcher_preempt (s : State) (u : UnitId) (f : Fetcher → Fetcher) : (s.updFetcher u f).preempt = s.preempt := by cases u <;> rfl
@[simp] theorem State.updFetcher_groups (s : State) (u : UnitId) (f : Fetcher → Fetcher) : (s.updFetcher u f).groups = s.groups := by cases u <;> rfl
@[simp] theorem State.updFetcher_fabric (s : State) (u : UnitId) (f : Fetcher → Fetcher) : (s.updFetcher u f).fabric = s.fabric := by cases u <;> rfl
@[simp] theorem State.updFetcher_codec (s : State) (u : UnitId) (f : Fetcher → Fetcher) : (s.updFetcher u f).codec = s.codec := by cases u <;> rfl
@[simp] theorem State.updFetcher_power (s : State) (u : UnitId) (f : Fetcher → Fetcher) : (s.updFetcher u f).power = s.power := by cases u <;> rfl
@[simp] theorem State.updFetcher_sec (s : State) (u : UnitId) (f : Fetcher → Fetcher) : (s.updFetcher u f).sec = s.sec := by cases u <;> rfl
@[simp] theorem State.updFetcher_log (s : State) (u : UnitId) (f : Fetcher → Fetcher) : (s.updFetcher u f).log = s.log := by cases u <;> rfl
@[simp] theorem State.updFetcher_test (s : State) (u : UnitId) (f : Fetcher → Fetcher) : (s.updFetcher u f).test = s.test := by cases u <;> rfl
@[simp] theorem State.updFetcher_bar2Held (s : State) (u : UnitId) (f : Fetcher → Fetcher) : (s.updFetcher u f).bar2Held = s.bar2Held := by cases u <;> rfl
@[simp] theorem State.updFetcher_doorbells (s : State) (u : UnitId) (f : Fetcher → Fetcher) : (s.updFetcher u f).doorbells = s.doorbells := by cases u <;> rfl
@[simp] theorem State.updFetcher_lastCaller (s : State) (u : UnitId) (f : Fetcher → Fetcher) : (s.updFetcher u f).lastCaller = s.lastCaller := by cases u <;> rfl
@[simp] theorem State.updFetcher_out (s : State) (u : UnitId) (f : Fetcher → Fetcher) : (s.updFetcher u f).out = s.out := by cases u <;> rfl

/-! ## updChan -/

@[simp] theorem State.updChan_channels (s : State) (ch : Nat) (f : Channel → Channel) : (s.updChan ch f).channels = updAt s.channels ch f := rfl
@[simp] theorem State.updChan_pending (s : State) (ch : Nat) (f : Channel → Channel) : (s.updChan ch f).pending = s.pending := rfl
@[simp] theorem State.updChan_time (s : State) (ch : Nat) (f : Channel → Channel) : (s.updChan ch f).time = s.time := rfl
@[simp] theorem State.updChan_fresh (s : State) (ch : Nat) (f : Channel → Channel) : (s.updChan ch f).fresh = s.fresh := rfl
@[simp] theorem State.updChan_fuses (s : State) (ch : Nat) (f : Channel → Channel) : (s.updChan ch f).fuses = s.fuses := rfl
@[simp] theorem State.updChan_pins (s : State) (ch : Nat) (f : Channel → Channel) : (s.updChan ch f).pins = s.pins := rfl
@[simp] theorem State.updChan_fw (s : State) (ch : Nat) (f : Channel → Channel) : (s.updChan ch f).fw = s.fw := rfl
@[simp] theorem State.updChan_pcie (s : State) (ch : Nat) (f : Channel → Channel) : (s.updChan ch f).pcie = s.pcie := rfl
@[simp] theorem State.updChan_funcs (s : State) (ch : Nat) (f : Channel → Channel) : (s.updChan ch f).funcs = s.funcs := rfl
@[simp] theorem State.updChan_mem (s : State) (ch : Nat) (f : Channel → Channel) : (s.updChan ch f).mem = s.mem := rfl
@[simp] theorem State.updChan_host (s : State) (ch : Nat) (f : Channel → Channel) : (s.updChan ch f).host = s.host := rfl
@[simp] theorem State.updChan_inv (s : State) (ch : Nat) (f : Channel → Channel) : (s.updChan ch f).inv = s.inv := rfl
@[simp] theorem State.updChan_cores (s : State) (ch : Nat) (f : Channel → Channel) : (s.updChan ch f).cores = s.cores := rfl
@[simp] theorem State.updChan_chips (s : State) (ch : Nat) (f : Channel → Channel) : (s.updChan ch f).chips = s.chips := rfl
@[simp] theorem State.updChan_chipFetch (s : State) (ch : Nat) (f : Channel → Channel) : (s.updChan ch f).chipFetch = s.chipFetch := rfl
@[simp] theorem State.updChan_gathers (s : State) (ch : Nat) (f : Channel → Channel) : (s.updChan ch f).gathers = s.gathers := rfl
@[simp] theorem State.updChan_tables (s : State) (ch : Nat) (f : Channel → Channel) : (s.updChan ch f).tables = s.tables := rfl
@[simp] theorem State.updChan_scores (s : State) (ch : Nat) (f : Channel → Channel) : (s.updChan ch f).scores = s.scores := rfl
@[simp] theorem State.updChan_resident (s : State) (ch : Nat) (f : Channel → Channel) : (s.updChan ch f).resident = s.resident := rfl
@[simp] theorem State.updChan_sched (s : State) (ch : Nat) (f : Channel → Channel) : (s.updChan ch f).sched = s.sched := rfl
@[simp] theorem State.updChan_staged (s : State) (ch : Nat) (f : Channel → Channel) : (s.updChan ch f).staged = s.staged := rfl
@[simp] theorem State.updChan_preempt (s : State) (ch : Nat) (f : Channel → Channel) : (s.updChan ch f).preempt = s.preempt := rfl
@[simp] theorem State.updChan_groups (s : State) (ch : Nat) (f : Channel → Channel) : (s.updChan ch f).groups = s.groups := rfl
@[simp] theorem State.updChan_fabric (s : State) (ch : Nat) (f : Channel → Channel) : (s.updChan ch f).fabric = s.fabric := rfl
@[simp] theorem State.updChan_codec (s : State) (ch : Nat) (f : Channel → Channel) : (s.updChan ch f).codec = s.codec := rfl
@[simp] theorem State.updChan_power (s : State) (ch : Nat) (f : Channel → Channel) : (s.updChan ch f).power = s.power := rfl
@[simp] theorem State.updChan_sec (s : State) (ch : Nat) (f : Channel → Channel) : (s.updChan ch f).sec = s.sec := rfl
@[simp] theorem State.updChan_log (s : State) (ch : Nat) (f : Channel → Channel) : (s.updChan ch f).log = s.log := rfl
@[simp] theorem State.updChan_test (s : State) (ch : Nat) (f : Channel → Channel) : (s.updChan ch f).test = s.test := rfl
@[simp] theorem State.updChan_bar2Held (s : State) (ch : Nat) (f : Channel → Channel) : (s.updChan ch f).bar2Held = s.bar2Held := rfl
@[simp] theorem State.updChan_doorbells (s : State) (ch : Nat) (f : Channel → Channel) : (s.updChan ch f).doorbells = s.doorbells := rfl
@[simp] theorem State.updChan_lastCaller (s : State) (ch : Nat) (f : Channel → Channel) : (s.updChan ch f).lastCaller = s.lastCaller := rfl
@[simp] theorem State.updChan_out (s : State) (ch : Nat) (f : Channel → Channel) : (s.updChan ch f).out = s.out := rfl

/-! ## updJob -/

@[simp] theorem State.updJob_pending (s : State) (id : Nat) (f : Job → Job) : (s.updJob id f).pending = s.pending := rfl
@[simp] theorem State.updJob_time (s : State) (id : Nat) (f : Job → Job) : (s.updJob id f).time = s.time := rfl
@[simp] theorem State.updJob_fresh (s : State) (id : Nat) (f : Job → Job) : (s.updJob id f).fresh = s.fresh := rfl
@[simp] theorem State.updJob_fuses (s : State) (id : Nat) (f : Job → Job) : (s.updJob id f).fuses = s.fuses := rfl
@[simp] theorem State.updJob_pins (s : State) (id : Nat) (f : Job → Job) : (s.updJob id f).pins = s.pins := rfl
@[simp] theorem State.updJob_fw (s : State) (id : Nat) (f : Job → Job) : (s.updJob id f).fw = s.fw := rfl
@[simp] theorem State.updJob_pcie (s : State) (id : Nat) (f : Job → Job) : (s.updJob id f).pcie = s.pcie := rfl
@[simp] theorem State.updJob_funcs (s : State) (id : Nat) (f : Job → Job) : (s.updJob id f).funcs = s.funcs := rfl
@[simp] theorem State.updJob_mem (s : State) (id : Nat) (f : Job → Job) : (s.updJob id f).mem = s.mem := rfl
@[simp] theorem State.updJob_host (s : State) (id : Nat) (f : Job → Job) : (s.updJob id f).host = s.host := rfl
@[simp] theorem State.updJob_channels (s : State) (id : Nat) (f : Job → Job) : (s.updJob id f).channels = s.channels := rfl
@[simp] theorem State.updJob_inv (s : State) (id : Nat) (f : Job → Job) : (s.updJob id f).inv = s.inv := rfl
@[simp] theorem State.updJob_cores (s : State) (id : Nat) (f : Job → Job) : (s.updJob id f).cores = s.cores := rfl
@[simp] theorem State.updJob_chips (s : State) (id : Nat) (f : Job → Job) : (s.updJob id f).chips = s.chips := rfl
@[simp] theorem State.updJob_chipFetch (s : State) (id : Nat) (f : Job → Job) : (s.updJob id f).chipFetch = s.chipFetch := rfl
@[simp] theorem State.updJob_gathers (s : State) (id : Nat) (f : Job → Job) : (s.updJob id f).gathers = s.gathers := rfl
@[simp] theorem State.updJob_tables (s : State) (id : Nat) (f : Job → Job) : (s.updJob id f).tables = s.tables := rfl
@[simp] theorem State.updJob_scores (s : State) (id : Nat) (f : Job → Job) : (s.updJob id f).scores = s.scores := rfl
@[simp] theorem State.updJob_resident (s : State) (id : Nat) (f : Job → Job) : (s.updJob id f).resident = s.resident := rfl
@[simp] theorem State.updJob_staged (s : State) (id : Nat) (f : Job → Job) : (s.updJob id f).staged = s.staged := rfl
@[simp] theorem State.updJob_preempt (s : State) (id : Nat) (f : Job → Job) : (s.updJob id f).preempt = s.preempt := rfl
@[simp] theorem State.updJob_groups (s : State) (id : Nat) (f : Job → Job) : (s.updJob id f).groups = s.groups := rfl
@[simp] theorem State.updJob_fabric (s : State) (id : Nat) (f : Job → Job) : (s.updJob id f).fabric = s.fabric := rfl
@[simp] theorem State.updJob_codec (s : State) (id : Nat) (f : Job → Job) : (s.updJob id f).codec = s.codec := rfl
@[simp] theorem State.updJob_power (s : State) (id : Nat) (f : Job → Job) : (s.updJob id f).power = s.power := rfl
@[simp] theorem State.updJob_sec (s : State) (id : Nat) (f : Job → Job) : (s.updJob id f).sec = s.sec := rfl
@[simp] theorem State.updJob_log (s : State) (id : Nat) (f : Job → Job) : (s.updJob id f).log = s.log := rfl
@[simp] theorem State.updJob_test (s : State) (id : Nat) (f : Job → Job) : (s.updJob id f).test = s.test := rfl
@[simp] theorem State.updJob_bar2Held (s : State) (id : Nat) (f : Job → Job) : (s.updJob id f).bar2Held = s.bar2Held := rfl
@[simp] theorem State.updJob_doorbells (s : State) (id : Nat) (f : Job → Job) : (s.updJob id f).doorbells = s.doorbells := rfl
@[simp] theorem State.updJob_lastCaller (s : State) (id : Nat) (f : Job → Job) : (s.updJob id f).lastCaller = s.lastCaller := rfl
@[simp] theorem State.updJob_out (s : State) (id : Nat) (f : Job → Job) : (s.updJob id f).out = s.out := rfl

/-! ## updPort -/

@[simp] theorem State.updPort_pending (s : State) (p : Nat) (f : Port → Port) : (s.updPort p f).pending = s.pending := rfl
@[simp] theorem State.updPort_time (s : State) (p : Nat) (f : Port → Port) : (s.updPort p f).time = s.time := rfl
@[simp] theorem State.updPort_fresh (s : State) (p : Nat) (f : Port → Port) : (s.updPort p f).fresh = s.fresh := rfl
@[simp] theorem State.updPort_fuses (s : State) (p : Nat) (f : Port → Port) : (s.updPort p f).fuses = s.fuses := rfl
@[simp] theorem State.updPort_pins (s : State) (p : Nat) (f : Port → Port) : (s.updPort p f).pins = s.pins := rfl
@[simp] theorem State.updPort_fw (s : State) (p : Nat) (f : Port → Port) : (s.updPort p f).fw = s.fw := rfl
@[simp] theorem State.updPort_pcie (s : State) (p : Nat) (f : Port → Port) : (s.updPort p f).pcie = s.pcie := rfl
@[simp] theorem State.updPort_funcs (s : State) (p : Nat) (f : Port → Port) : (s.updPort p f).funcs = s.funcs := rfl
@[simp] theorem State.updPort_mem (s : State) (p : Nat) (f : Port → Port) : (s.updPort p f).mem = s.mem := rfl
@[simp] theorem State.updPort_host (s : State) (p : Nat) (f : Port → Port) : (s.updPort p f).host = s.host := rfl
@[simp] theorem State.updPort_channels (s : State) (p : Nat) (f : Port → Port) : (s.updPort p f).channels = s.channels := rfl
@[simp] theorem State.updPort_inv (s : State) (p : Nat) (f : Port → Port) : (s.updPort p f).inv = s.inv := rfl
@[simp] theorem State.updPort_cores (s : State) (p : Nat) (f : Port → Port) : (s.updPort p f).cores = s.cores := rfl
@[simp] theorem State.updPort_chips (s : State) (p : Nat) (f : Port → Port) : (s.updPort p f).chips = s.chips := rfl
@[simp] theorem State.updPort_chipFetch (s : State) (p : Nat) (f : Port → Port) : (s.updPort p f).chipFetch = s.chipFetch := rfl
@[simp] theorem State.updPort_gathers (s : State) (p : Nat) (f : Port → Port) : (s.updPort p f).gathers = s.gathers := rfl
@[simp] theorem State.updPort_tables (s : State) (p : Nat) (f : Port → Port) : (s.updPort p f).tables = s.tables := rfl
@[simp] theorem State.updPort_scores (s : State) (p : Nat) (f : Port → Port) : (s.updPort p f).scores = s.scores := rfl
@[simp] theorem State.updPort_resident (s : State) (p : Nat) (f : Port → Port) : (s.updPort p f).resident = s.resident := rfl
@[simp] theorem State.updPort_sched (s : State) (p : Nat) (f : Port → Port) : (s.updPort p f).sched = s.sched := rfl
@[simp] theorem State.updPort_staged (s : State) (p : Nat) (f : Port → Port) : (s.updPort p f).staged = s.staged := rfl
@[simp] theorem State.updPort_preempt (s : State) (p : Nat) (f : Port → Port) : (s.updPort p f).preempt = s.preempt := rfl
@[simp] theorem State.updPort_groups (s : State) (p : Nat) (f : Port → Port) : (s.updPort p f).groups = s.groups := rfl
@[simp] theorem State.updPort_codec (s : State) (p : Nat) (f : Port → Port) : (s.updPort p f).codec = s.codec := rfl
@[simp] theorem State.updPort_power (s : State) (p : Nat) (f : Port → Port) : (s.updPort p f).power = s.power := rfl
@[simp] theorem State.updPort_sec (s : State) (p : Nat) (f : Port → Port) : (s.updPort p f).sec = s.sec := rfl
@[simp] theorem State.updPort_log (s : State) (p : Nat) (f : Port → Port) : (s.updPort p f).log = s.log := rfl
@[simp] theorem State.updPort_test (s : State) (p : Nat) (f : Port → Port) : (s.updPort p f).test = s.test := rfl
@[simp] theorem State.updPort_bar2Held (s : State) (p : Nat) (f : Port → Port) : (s.updPort p f).bar2Held = s.bar2Held := rfl
@[simp] theorem State.updPort_doorbells (s : State) (p : Nat) (f : Port → Port) : (s.updPort p f).doorbells = s.doorbells := rfl
@[simp] theorem State.updPort_lastCaller (s : State) (p : Nat) (f : Port → Port) : (s.updPort p f).lastCaller = s.lastCaller := rfl
@[simp] theorem State.updPort_out (s : State) (p : Nat) (f : Port → Port) : (s.updPort p f).out = s.out := rfl

/-! ## updGroup -/

@[simp] theorem State.updGroup_pending (s : State) (tag : Nat) (f : Group → Group) : (s.updGroup tag f).pending = s.pending := rfl
@[simp] theorem State.updGroup_time (s : State) (tag : Nat) (f : Group → Group) : (s.updGroup tag f).time = s.time := rfl
@[simp] theorem State.updGroup_fresh (s : State) (tag : Nat) (f : Group → Group) : (s.updGroup tag f).fresh = s.fresh := rfl
@[simp] theorem State.updGroup_fuses (s : State) (tag : Nat) (f : Group → Group) : (s.updGroup tag f).fuses = s.fuses := rfl
@[simp] theorem State.updGroup_pins (s : State) (tag : Nat) (f : Group → Group) : (s.updGroup tag f).pins = s.pins := rfl
@[simp] theorem State.updGroup_fw (s : State) (tag : Nat) (f : Group → Group) : (s.updGroup tag f).fw = s.fw := rfl
@[simp] theorem State.updGroup_pcie (s : State) (tag : Nat) (f : Group → Group) : (s.updGroup tag f).pcie = s.pcie := rfl
@[simp] theorem State.updGroup_funcs (s : State) (tag : Nat) (f : Group → Group) : (s.updGroup tag f).funcs = s.funcs := rfl
@[simp] theorem State.updGroup_mem (s : State) (tag : Nat) (f : Group → Group) : (s.updGroup tag f).mem = s.mem := rfl
@[simp] theorem State.updGroup_host (s : State) (tag : Nat) (f : Group → Group) : (s.updGroup tag f).host = s.host := rfl
@[simp] theorem State.updGroup_channels (s : State) (tag : Nat) (f : Group → Group) : (s.updGroup tag f).channels = s.channels := rfl
@[simp] theorem State.updGroup_inv (s : State) (tag : Nat) (f : Group → Group) : (s.updGroup tag f).inv = s.inv := rfl
@[simp] theorem State.updGroup_cores (s : State) (tag : Nat) (f : Group → Group) : (s.updGroup tag f).cores = s.cores := rfl
@[simp] theorem State.updGroup_chips (s : State) (tag : Nat) (f : Group → Group) : (s.updGroup tag f).chips = s.chips := rfl
@[simp] theorem State.updGroup_chipFetch (s : State) (tag : Nat) (f : Group → Group) : (s.updGroup tag f).chipFetch = s.chipFetch := rfl
@[simp] theorem State.updGroup_gathers (s : State) (tag : Nat) (f : Group → Group) : (s.updGroup tag f).gathers = s.gathers := rfl
@[simp] theorem State.updGroup_tables (s : State) (tag : Nat) (f : Group → Group) : (s.updGroup tag f).tables = s.tables := rfl
@[simp] theorem State.updGroup_scores (s : State) (tag : Nat) (f : Group → Group) : (s.updGroup tag f).scores = s.scores := rfl
@[simp] theorem State.updGroup_resident (s : State) (tag : Nat) (f : Group → Group) : (s.updGroup tag f).resident = s.resident := rfl
@[simp] theorem State.updGroup_sched (s : State) (tag : Nat) (f : Group → Group) : (s.updGroup tag f).sched = s.sched := rfl
@[simp] theorem State.updGroup_staged (s : State) (tag : Nat) (f : Group → Group) : (s.updGroup tag f).staged = s.staged := rfl
@[simp] theorem State.updGroup_preempt (s : State) (tag : Nat) (f : Group → Group) : (s.updGroup tag f).preempt = s.preempt := rfl
@[simp] theorem State.updGroup_fabric (s : State) (tag : Nat) (f : Group → Group) : (s.updGroup tag f).fabric = s.fabric := rfl
@[simp] theorem State.updGroup_codec (s : State) (tag : Nat) (f : Group → Group) : (s.updGroup tag f).codec = s.codec := rfl
@[simp] theorem State.updGroup_power (s : State) (tag : Nat) (f : Group → Group) : (s.updGroup tag f).power = s.power := rfl
@[simp] theorem State.updGroup_sec (s : State) (tag : Nat) (f : Group → Group) : (s.updGroup tag f).sec = s.sec := rfl
@[simp] theorem State.updGroup_log (s : State) (tag : Nat) (f : Group → Group) : (s.updGroup tag f).log = s.log := rfl
@[simp] theorem State.updGroup_test (s : State) (tag : Nat) (f : Group → Group) : (s.updGroup tag f).test = s.test := rfl
@[simp] theorem State.updGroup_bar2Held (s : State) (tag : Nat) (f : Group → Group) : (s.updGroup tag f).bar2Held = s.bar2Held := rfl
@[simp] theorem State.updGroup_doorbells (s : State) (tag : Nat) (f : Group → Group) : (s.updGroup tag f).doorbells = s.doorbells := rfl
@[simp] theorem State.updGroup_lastCaller (s : State) (tag : Nat) (f : Group → Group) : (s.updGroup tag f).lastCaller = s.lastCaller := rfl
@[simp] theorem State.updGroup_out (s : State) (tag : Nat) (f : Group → Group) : (s.updGroup tag f).out = s.out := rfl

/-! ## updSession -/

@[simp] theorem State.updSession_pending (s : State) (h : Nat) (f : Session → Session) : (s.updSession h f).pending = s.pending := rfl
@[simp] theorem State.updSession_time (s : State) (h : Nat) (f : Session → Session) : (s.updSession h f).time = s.time := rfl
@[simp] theorem State.updSession_fresh (s : State) (h : Nat) (f : Session → Session) : (s.updSession h f).fresh = s.fresh := rfl
@[simp] theorem State.updSession_fuses (s : State) (h : Nat) (f : Session → Session) : (s.updSession h f).fuses = s.fuses := rfl
@[simp] theorem State.updSession_pins (s : State) (h : Nat) (f : Session → Session) : (s.updSession h f).pins = s.pins := rfl
@[simp] theorem State.updSession_fw (s : State) (h : Nat) (f : Session → Session) : (s.updSession h f).fw = s.fw := rfl
@[simp] theorem State.updSession_pcie (s : State) (h : Nat) (f : Session → Session) : (s.updSession h f).pcie = s.pcie := rfl
@[simp] theorem State.updSession_funcs (s : State) (h : Nat) (f : Session → Session) : (s.updSession h f).funcs = s.funcs := rfl
@[simp] theorem State.updSession_mem (s : State) (h : Nat) (f : Session → Session) : (s.updSession h f).mem = s.mem := rfl
@[simp] theorem State.updSession_host (s : State) (h : Nat) (f : Session → Session) : (s.updSession h f).host = s.host := rfl
@[simp] theorem State.updSession_channels (s : State) (h : Nat) (f : Session → Session) : (s.updSession h f).channels = s.channels := rfl
@[simp] theorem State.updSession_inv (s : State) (h : Nat) (f : Session → Session) : (s.updSession h f).inv = s.inv := rfl
@[simp] theorem State.updSession_cores (s : State) (h : Nat) (f : Session → Session) : (s.updSession h f).cores = s.cores := rfl
@[simp] theorem State.updSession_chips (s : State) (h : Nat) (f : Session → Session) : (s.updSession h f).chips = s.chips := rfl
@[simp] theorem State.updSession_chipFetch (s : State) (h : Nat) (f : Session → Session) : (s.updSession h f).chipFetch = s.chipFetch := rfl
@[simp] theorem State.updSession_gathers (s : State) (h : Nat) (f : Session → Session) : (s.updSession h f).gathers = s.gathers := rfl
@[simp] theorem State.updSession_tables (s : State) (h : Nat) (f : Session → Session) : (s.updSession h f).tables = s.tables := rfl
@[simp] theorem State.updSession_scores (s : State) (h : Nat) (f : Session → Session) : (s.updSession h f).scores = s.scores := rfl
@[simp] theorem State.updSession_resident (s : State) (h : Nat) (f : Session → Session) : (s.updSession h f).resident = s.resident := rfl
@[simp] theorem State.updSession_sched (s : State) (h : Nat) (f : Session → Session) : (s.updSession h f).sched = s.sched := rfl
@[simp] theorem State.updSession_staged (s : State) (h : Nat) (f : Session → Session) : (s.updSession h f).staged = s.staged := rfl
@[simp] theorem State.updSession_preempt (s : State) (h : Nat) (f : Session → Session) : (s.updSession h f).preempt = s.preempt := rfl
@[simp] theorem State.updSession_groups (s : State) (h : Nat) (f : Session → Session) : (s.updSession h f).groups = s.groups := rfl
@[simp] theorem State.updSession_fabric (s : State) (h : Nat) (f : Session → Session) : (s.updSession h f).fabric = s.fabric := rfl
@[simp] theorem State.updSession_power (s : State) (h : Nat) (f : Session → Session) : (s.updSession h f).power = s.power := rfl
@[simp] theorem State.updSession_sec (s : State) (h : Nat) (f : Session → Session) : (s.updSession h f).sec = s.sec := rfl
@[simp] theorem State.updSession_log (s : State) (h : Nat) (f : Session → Session) : (s.updSession h f).log = s.log := rfl
@[simp] theorem State.updSession_test (s : State) (h : Nat) (f : Session → Session) : (s.updSession h f).test = s.test := rfl
@[simp] theorem State.updSession_bar2Held (s : State) (h : Nat) (f : Session → Session) : (s.updSession h f).bar2Held = s.bar2Held := rfl
@[simp] theorem State.updSession_doorbells (s : State) (h : Nat) (f : Session → Session) : (s.updSession h f).doorbells = s.doorbells := rfl
@[simp] theorem State.updSession_lastCaller (s : State) (h : Nat) (f : Session → Session) : (s.updSession h f).lastCaller = s.lastCaller := rfl
@[simp] theorem State.updSession_out (s : State) (h : Nat) (f : Session → Session) : (s.updSession h f).out = s.out := rfl

/-! ## updEngine -/

@[simp] theorem State.updEngine_pending (s : State) (e : Engine) (f : EngineState → EngineState) : (s.updEngine e f).pending = s.pending := by cases e <;> rfl
@[simp] theorem State.updEngine_time (s : State) (e : Engine) (f : EngineState → EngineState) : (s.updEngine e f).time = s.time := by cases e <;> rfl
@[simp] theorem State.updEngine_fresh (s : State) (e : Engine) (f : EngineState → EngineState) : (s.updEngine e f).fresh = s.fresh := by cases e <;> rfl
@[simp] theorem State.updEngine_fuses (s : State) (e : Engine) (f : EngineState → EngineState) : (s.updEngine e f).fuses = s.fuses := by cases e <;> rfl
@[simp] theorem State.updEngine_pins (s : State) (e : Engine) (f : EngineState → EngineState) : (s.updEngine e f).pins = s.pins := by cases e <;> rfl
@[simp] theorem State.updEngine_fw (s : State) (e : Engine) (f : EngineState → EngineState) : (s.updEngine e f).fw = s.fw := by cases e <;> rfl
@[simp] theorem State.updEngine_pcie (s : State) (e : Engine) (f : EngineState → EngineState) : (s.updEngine e f).pcie = s.pcie := by cases e <;> rfl
@[simp] theorem State.updEngine_funcs (s : State) (e : Engine) (f : EngineState → EngineState) : (s.updEngine e f).funcs = s.funcs := by cases e <;> rfl
@[simp] theorem State.updEngine_mem (s : State) (e : Engine) (f : EngineState → EngineState) : (s.updEngine e f).mem = s.mem := by cases e <;> rfl
@[simp] theorem State.updEngine_host (s : State) (e : Engine) (f : EngineState → EngineState) : (s.updEngine e f).host = s.host := by cases e <;> rfl
@[simp] theorem State.updEngine_channels (s : State) (e : Engine) (f : EngineState → EngineState) : (s.updEngine e f).channels = s.channels := by cases e <;> rfl
@[simp] theorem State.updEngine_inv (s : State) (e : Engine) (f : EngineState → EngineState) : (s.updEngine e f).inv = s.inv := by cases e <;> rfl
@[simp] theorem State.updEngine_cores (s : State) (e : Engine) (f : EngineState → EngineState) : (s.updEngine e f).cores = s.cores := by cases e <;> rfl
@[simp] theorem State.updEngine_chips (s : State) (e : Engine) (f : EngineState → EngineState) : (s.updEngine e f).chips = s.chips := by cases e <;> rfl
@[simp] theorem State.updEngine_chipFetch (s : State) (e : Engine) (f : EngineState → EngineState) : (s.updEngine e f).chipFetch = s.chipFetch := by cases e <;> rfl
@[simp] theorem State.updEngine_gathers (s : State) (e : Engine) (f : EngineState → EngineState) : (s.updEngine e f).gathers = s.gathers := by cases e <;> rfl
@[simp] theorem State.updEngine_tables (s : State) (e : Engine) (f : EngineState → EngineState) : (s.updEngine e f).tables = s.tables := by cases e <;> rfl
@[simp] theorem State.updEngine_scores (s : State) (e : Engine) (f : EngineState → EngineState) : (s.updEngine e f).scores = s.scores := by cases e <;> rfl
@[simp] theorem State.updEngine_resident (s : State) (e : Engine) (f : EngineState → EngineState) : (s.updEngine e f).resident = s.resident := by cases e <;> rfl
@[simp] theorem State.updEngine_sched (s : State) (e : Engine) (f : EngineState → EngineState) : (s.updEngine e f).sched = s.sched := by cases e <;> rfl
@[simp] theorem State.updEngine_staged (s : State) (e : Engine) (f : EngineState → EngineState) : (s.updEngine e f).staged = s.staged := by cases e <;> rfl
@[simp] theorem State.updEngine_preempt (s : State) (e : Engine) (f : EngineState → EngineState) : (s.updEngine e f).preempt = s.preempt := by cases e <;> rfl
@[simp] theorem State.updEngine_groups (s : State) (e : Engine) (f : EngineState → EngineState) : (s.updEngine e f).groups = s.groups := by cases e <;> rfl
@[simp] theorem State.updEngine_fabric (s : State) (e : Engine) (f : EngineState → EngineState) : (s.updEngine e f).fabric = s.fabric := by cases e <;> rfl
@[simp] theorem State.updEngine_power (s : State) (e : Engine) (f : EngineState → EngineState) : (s.updEngine e f).power = s.power := by cases e <;> rfl
@[simp] theorem State.updEngine_sec (s : State) (e : Engine) (f : EngineState → EngineState) : (s.updEngine e f).sec = s.sec := by cases e <;> rfl
@[simp] theorem State.updEngine_log (s : State) (e : Engine) (f : EngineState → EngineState) : (s.updEngine e f).log = s.log := by cases e <;> rfl
@[simp] theorem State.updEngine_test (s : State) (e : Engine) (f : EngineState → EngineState) : (s.updEngine e f).test = s.test := by cases e <;> rfl
@[simp] theorem State.updEngine_bar2Held (s : State) (e : Engine) (f : EngineState → EngineState) : (s.updEngine e f).bar2Held = s.bar2Held := by cases e <;> rfl
@[simp] theorem State.updEngine_doorbells (s : State) (e : Engine) (f : EngineState → EngineState) : (s.updEngine e f).doorbells = s.doorbells := by cases e <;> rfl
@[simp] theorem State.updEngine_lastCaller (s : State) (e : Engine) (f : EngineState → EngineState) : (s.updEngine e f).lastCaller = s.lastCaller := by cases e <;> rfl
@[simp] theorem State.updEngine_out (s : State) (e : Engine) (f : EngineState → EngineState) : (s.updEngine e f).out = s.out := by cases e <;> rfl

/-! ## updRail -/

@[simp] theorem State.updRail_pending (s : State) (r : Nat) (f : Rail → Rail) : (s.updRail r f).pending = s.pending := rfl
@[simp] theorem State.updRail_time (s : State) (r : Nat) (f : Rail → Rail) : (s.updRail r f).time = s.time := rfl
@[simp] theorem State.updRail_fresh (s : State) (r : Nat) (f : Rail → Rail) : (s.updRail r f).fresh = s.fresh := rfl
@[simp] theorem State.updRail_fuses (s : State) (r : Nat) (f : Rail → Rail) : (s.updRail r f).fuses = s.fuses := rfl
@[simp] theorem State.updRail_pins (s : State) (r : Nat) (f : Rail → Rail) : (s.updRail r f).pins = s.pins := rfl
@[simp] theorem State.updRail_fw (s : State) (r : Nat) (f : Rail → Rail) : (s.updRail r f).fw = s.fw := rfl
@[simp] theorem State.updRail_pcie (s : State) (r : Nat) (f : Rail → Rail) : (s.updRail r f).pcie = s.pcie := rfl
@[simp] theorem State.updRail_funcs (s : State) (r : Nat) (f : Rail → Rail) : (s.updRail r f).funcs = s.funcs := rfl
@[simp] theorem State.updRail_mem (s : State) (r : Nat) (f : Rail → Rail) : (s.updRail r f).mem = s.mem := rfl
@[simp] theorem State.updRail_host (s : State) (r : Nat) (f : Rail → Rail) : (s.updRail r f).host = s.host := rfl
@[simp] theorem State.updRail_channels (s : State) (r : Nat) (f : Rail → Rail) : (s.updRail r f).channels = s.channels := rfl
@[simp] theorem State.updRail_inv (s : State) (r : Nat) (f : Rail → Rail) : (s.updRail r f).inv = s.inv := rfl
@[simp] theorem State.updRail_cores (s : State) (r : Nat) (f : Rail → Rail) : (s.updRail r f).cores = s.cores := rfl
@[simp] theorem State.updRail_chips (s : State) (r : Nat) (f : Rail → Rail) : (s.updRail r f).chips = s.chips := rfl
@[simp] theorem State.updRail_chipFetch (s : State) (r : Nat) (f : Rail → Rail) : (s.updRail r f).chipFetch = s.chipFetch := rfl
@[simp] theorem State.updRail_gathers (s : State) (r : Nat) (f : Rail → Rail) : (s.updRail r f).gathers = s.gathers := rfl
@[simp] theorem State.updRail_tables (s : State) (r : Nat) (f : Rail → Rail) : (s.updRail r f).tables = s.tables := rfl
@[simp] theorem State.updRail_scores (s : State) (r : Nat) (f : Rail → Rail) : (s.updRail r f).scores = s.scores := rfl
@[simp] theorem State.updRail_resident (s : State) (r : Nat) (f : Rail → Rail) : (s.updRail r f).resident = s.resident := rfl
@[simp] theorem State.updRail_sched (s : State) (r : Nat) (f : Rail → Rail) : (s.updRail r f).sched = s.sched := rfl
@[simp] theorem State.updRail_staged (s : State) (r : Nat) (f : Rail → Rail) : (s.updRail r f).staged = s.staged := rfl
@[simp] theorem State.updRail_preempt (s : State) (r : Nat) (f : Rail → Rail) : (s.updRail r f).preempt = s.preempt := rfl
@[simp] theorem State.updRail_groups (s : State) (r : Nat) (f : Rail → Rail) : (s.updRail r f).groups = s.groups := rfl
@[simp] theorem State.updRail_fabric (s : State) (r : Nat) (f : Rail → Rail) : (s.updRail r f).fabric = s.fabric := rfl
@[simp] theorem State.updRail_codec (s : State) (r : Nat) (f : Rail → Rail) : (s.updRail r f).codec = s.codec := rfl
@[simp] theorem State.updRail_sec (s : State) (r : Nat) (f : Rail → Rail) : (s.updRail r f).sec = s.sec := rfl
@[simp] theorem State.updRail_log (s : State) (r : Nat) (f : Rail → Rail) : (s.updRail r f).log = s.log := rfl
@[simp] theorem State.updRail_test (s : State) (r : Nat) (f : Rail → Rail) : (s.updRail r f).test = s.test := rfl
@[simp] theorem State.updRail_bar2Held (s : State) (r : Nat) (f : Rail → Rail) : (s.updRail r f).bar2Held = s.bar2Held := rfl
@[simp] theorem State.updRail_doorbells (s : State) (r : Nat) (f : Rail → Rail) : (s.updRail r f).doorbells = s.doorbells := rfl
@[simp] theorem State.updRail_lastCaller (s : State) (r : Nat) (f : Rail → Rail) : (s.updRail r f).lastCaller = s.lastCaller := rfl
@[simp] theorem State.updRail_out (s : State) (r : Nat) (f : Rail → Rail) : (s.updRail r f).out = s.out := rfl

/-! ## emit -/

@[simp] theorem State.emit_out (s : State) (o : Out) : (s.emit o).out = s.out ++ [o] := rfl
@[simp] theorem State.emit_pending (s : State) (o : Out) : (s.emit o).pending = s.pending := rfl
@[simp] theorem State.emit_time (s : State) (o : Out) : (s.emit o).time = s.time := rfl
@[simp] theorem State.emit_fresh (s : State) (o : Out) : (s.emit o).fresh = s.fresh := rfl
@[simp] theorem State.emit_fuses (s : State) (o : Out) : (s.emit o).fuses = s.fuses := rfl
@[simp] theorem State.emit_pins (s : State) (o : Out) : (s.emit o).pins = s.pins := rfl
@[simp] theorem State.emit_fw (s : State) (o : Out) : (s.emit o).fw = s.fw := rfl
@[simp] theorem State.emit_pcie (s : State) (o : Out) : (s.emit o).pcie = s.pcie := rfl
@[simp] theorem State.emit_funcs (s : State) (o : Out) : (s.emit o).funcs = s.funcs := rfl
@[simp] theorem State.emit_mem (s : State) (o : Out) : (s.emit o).mem = s.mem := rfl
@[simp] theorem State.emit_host (s : State) (o : Out) : (s.emit o).host = s.host := rfl
@[simp] theorem State.emit_channels (s : State) (o : Out) : (s.emit o).channels = s.channels := rfl
@[simp] theorem State.emit_inv (s : State) (o : Out) : (s.emit o).inv = s.inv := rfl
@[simp] theorem State.emit_cores (s : State) (o : Out) : (s.emit o).cores = s.cores := rfl
@[simp] theorem State.emit_chips (s : State) (o : Out) : (s.emit o).chips = s.chips := rfl
@[simp] theorem State.emit_chipFetch (s : State) (o : Out) : (s.emit o).chipFetch = s.chipFetch := rfl
@[simp] theorem State.emit_gathers (s : State) (o : Out) : (s.emit o).gathers = s.gathers := rfl
@[simp] theorem State.emit_tables (s : State) (o : Out) : (s.emit o).tables = s.tables := rfl
@[simp] theorem State.emit_scores (s : State) (o : Out) : (s.emit o).scores = s.scores := rfl
@[simp] theorem State.emit_resident (s : State) (o : Out) : (s.emit o).resident = s.resident := rfl
@[simp] theorem State.emit_sched (s : State) (o : Out) : (s.emit o).sched = s.sched := rfl
@[simp] theorem State.emit_staged (s : State) (o : Out) : (s.emit o).staged = s.staged := rfl
@[simp] theorem State.emit_preempt (s : State) (o : Out) : (s.emit o).preempt = s.preempt := rfl
@[simp] theorem State.emit_groups (s : State) (o : Out) : (s.emit o).groups = s.groups := rfl
@[simp] theorem State.emit_fabric (s : State) (o : Out) : (s.emit o).fabric = s.fabric := rfl
@[simp] theorem State.emit_codec (s : State) (o : Out) : (s.emit o).codec = s.codec := rfl
@[simp] theorem State.emit_power (s : State) (o : Out) : (s.emit o).power = s.power := rfl
@[simp] theorem State.emit_sec (s : State) (o : Out) : (s.emit o).sec = s.sec := rfl
@[simp] theorem State.emit_log (s : State) (o : Out) : (s.emit o).log = s.log := rfl
@[simp] theorem State.emit_test (s : State) (o : Out) : (s.emit o).test = s.test := rfl
@[simp] theorem State.emit_bar2Held (s : State) (o : Out) : (s.emit o).bar2Held = s.bar2Held := rfl
@[simp] theorem State.emit_doorbells (s : State) (o : Out) : (s.emit o).doorbells = s.doorbells := rfl
@[simp] theorem State.emit_lastCaller (s : State) (o : Out) : (s.emit o).lastCaller = s.lastCaller := rfl

/-! ## What an element of a register file holds after a change -/

theorem func_updFunc_same (s : State) {fn : Nat} (f : Func → Func) (h : fn < s.funcs.length) :
    (s.updFunc fn f).func fn = f (s.func fn) := updAt_getD_same _ _ _ _ h
theorem func_updFunc_other (s : State) {fn k : Nat} (f : Func → Func) (h : k ≠ fn) : (s.updFunc fn f).func k = s.func k :=
  updAt_getD_other _ _ _ h
theorem core_updCore_same (s : State) {c : Nat} (f : Core → Core) (h : c < s.cores.length) :
    (s.updCore c f).core c = f (s.core c) := updAt_getD_same _ _ _ _ h
theorem core_updCore_other (s : State) {c k : Nat} (f : Core → Core) (h : k ≠ c) : (s.updCore c f).core k = s.core k :=
  updAt_getD_other _ _ _ h
theorem chan_updChan_same (s : State) {c : Nat} (f : Channel → Channel) (h : c < s.channels.length) :
    (s.updChan c f).chan c = f (s.chan c) := updAt_getD_same _ _ _ _ h
theorem chan_updChan_other (s : State) {c k : Nat} (f : Channel → Channel) (h : k ≠ c) : (s.updChan c f).chan k = s.chan k :=
  updAt_getD_other _ _ _ h
theorem port_updPort_same (s : State) {p : Nat} (f : Port → Port) (h : p < s.fabric.ports.length) :
    (s.updPort p f).port p = f (s.port p) := updAt_getD_same _ _ _ _ h
theorem port_updPort_other (s : State) {p k : Nat} (f : Port → Port) (h : k ≠ p) : (s.updPort p f).port k = s.port k :=
  updAt_getD_other _ _ _ h
theorem rail_updRail_same (s : State) {r : Nat} (f : Rail → Rail) (h : r < s.power.rails.length) :
    (s.updRail r f).rail r = f (s.rail r) := updAt_getD_same _ _ _ _ h
theorem rail_updRail_other (s : State) {r k : Nat} (f : Rail → Rail) (h : k ≠ r) : (s.updRail r f).rail k = s.rail k :=
  updAt_getD_other _ _ _ h

/-- A mailbox after it is changed. -/
theorem mailbox_updMailbox_same (s : State) {fn : Nat} (f : Mailbox → Mailbox) (h : fn < s.funcs.length) :
    (s.updMailbox fn f).mailbox fn = (s.mailbox fn).map f := by
  simp [State.mailbox, State.updMailbox, func_updFunc_same _ _ h]
theorem mailbox_updMailbox_other (s : State) {fn k : Nat} (f : Mailbox → Mailbox) (h : k ≠ fn) :
    (s.updMailbox fn f).mailbox k = s.mailbox k := by
  simp [State.mailbox, State.updMailbox, func_updFunc_other _ _ h]

/-- Only a function's mailbox changes. -/
@[simp] theorem irqStatus_updMailbox (s : State) (fn k : Nat) (f : Mailbox → Mailbox) :
    ((s.updMailbox fn f).func k).irqStatus = (s.func k).irqStatus := by
  by_cases h : k = fn
  · subst h
    by_cases hk : k < s.funcs.length
    · simp [State.updMailbox, func_updFunc_same _ _ hk]
    · simp [State.updMailbox, State.updFunc, State.func, updAt, List.getD_eq_getElem?_getD, hk]
  · simp [State.updMailbox, func_updFunc_other _ _ h]

/-- A core unit after it is changed. -/
theorem unit_updUnit_core_same (s : State) (c : Fin 256) (v : Fin 16) (f : UnitState → UnitState)
    (hc : c.val < s.cores.length) (hv : v.val - 1 < (s.core c.val).units.length) :
    (s.updUnit (.core c v) f).unit (.core c v) = f (s.unit (.core c v)) := by
  simp only [State.updUnit, State.unit, core_updCore_same _ _ hc]
  exact updAt_getD_same _ _ _ _ hv
theorem unit_updUnit_chip_same (s : State) (v : Fin 16) (f : UnitState → UnitState) (hv : v.val - 12 < s.chips.length) :
    (s.updUnit (.chip v) f).unit (.chip v) = f (s.unit (.chip v)) := updAt_getD_same _ _ _ _ hv

end Sys2Proof.Machine
end

