-- ==== Sys2Proof/Laws/Ops.lean ====
section
/-! SUPPORT. Laws of the shared operations: what each leaves, one lemma a field, and what an answer writes. -/
set_option linter.unusedTactic false
namespace Sys2Proof.Machine

theorem foldl_field {α β : Type} (g : State → β) (f : State → α → State) (h : ∀ s a, g (f s a) = g s) (l : List α) (s : State) :
    g (l.foldl f s) = g s := by
  induction l generalizing s with
  | nil => rfl
  | cons a l ih => rw [List.foldl_cons, ih, h]


/-! ## sendMsix -/

@[simp] theorem sendMsix_pending (fn bit : Nat) (s : State) : (sendMsix fn bit s).pending = s.pending := by
  unfold sendMsix
  (try dsimp only)
  (repeat' split) <;> simp
@[simp] theorem sendMsix_time (fn bit : Nat) (s : State) : (sendMsix fn bit s).time = s.time := by
  unfold sendMsix
  (try dsimp only)
  (repeat' split) <;> simp
@[simp] theorem sendMsix_fresh (fn bit : Nat) (s : State) : (sendMsix fn bit s).fresh = s.fresh := by
  unfold sendMsix
  (try dsimp only)
  (repeat' split) <;> simp
@[simp] theorem sendMsix_fuses (fn bit : Nat) (s : State) : (sendMsix fn bit s).fuses = s.fuses := by
  unfold sendMsix
  (try dsimp only)
  (repeat' split) <;> simp
@[simp] theorem sendMsix_pins (fn bit : Nat) (s : State) : (sendMsix fn bit s).pins = s.pins := by
  unfold sendMsix
  (try dsimp only)
  (repeat' split) <;> simp
@[simp] theorem sendMsix_fw (fn bit : Nat) (s : State) : (sendMsix fn bit s).fw = s.fw := by
  unfold sendMsix
  (try dsimp only)
  (repeat' split) <;> simp
@[simp] theorem sendMsix_pcie (fn bit : Nat) (s : State) : (sendMsix fn bit s).pcie = s.pcie := by
  unfold sendMsix
  (try dsimp only)
  (repeat' split) <;> simp
@[simp] theorem sendMsix_mem (fn bit : Nat) (s : State) : (sendMsix fn bit s).mem = s.mem := by
  unfold sendMsix
  (try dsimp only)
  (repeat' split) <;> simp
@[simp] theorem sendMsix_host (fn bit : Nat) (s : State) : (sendMsix fn bit s).host = s.host := by
  unfold sendMsix
  (try dsimp only)
  (repeat' split) <;> simp
@[simp] theorem sendMsix_channels (fn bit : Nat) (s : State) : (sendMsix fn bit s).channels = s.channels := by
  unfold sendMsix
  (try dsimp only)
  (repeat' split) <;> simp
@[simp] theorem sendMsix_inv (fn bit : Nat) (s : State) : (sendMsix fn bit s).inv = s.inv := by
  unfold sendMsix
  (try dsimp only)
  (repeat' split) <;> simp
@[simp] theorem sendMsix_cores (fn bit : Nat) (s : State) : (sendMsix fn bit s).cores = s.cores := by
  unfold sendMsix
  (try dsimp only)
  (repeat' split) <;> simp
@[simp] theorem sendMsix_chips (fn bit : Nat) (s : State) : (sendMsix fn bit s).chips = s.chips := by
  unfold sendMsix
  (try dsimp only)
  (repeat' split) <;> simp
@[simp] theorem sendMsix_chipFetch (fn bit : Nat) (s : State) : (sendMsix fn bit s).chipFetch = s.chipFetch := by
  unfold sendMsix
  (try dsimp only)
  (repeat' split) <;> simp
@[simp] theorem sendMsix_gathers (fn bit : Nat) (s : State) : (sendMsix fn bit s).gathers = s.gathers := by
  unfold sendMsix
  (try dsimp only)
  (repeat' split) <;> simp
@[simp] theorem sendMsix_tables (fn bit : Nat) (s : State) : (sendMsix fn bit s).tables = s.tables := by
  unfold sendMsix
  (try dsimp only)
  (repeat' split) <;> simp
@[simp] theorem sendMsix_scores (fn bit : Nat) (s : State) : (sendMsix fn bit s).scores = s.scores := by
  unfold sendMsix
  (try dsimp only)
  (repeat' split) <;> simp
@[simp] theorem sendMsix_resident (fn bit : Nat) (s : State) : (sendMsix fn bit s).resident = s.resident := by
  unfold sendMsix
  (try dsimp only)
  (repeat' split) <;> simp
@[simp] theorem sendMsix_sched (fn bit : Nat) (s : State) : (sendMsix fn bit s).sched = s.sched := by
  unfold sendMsix
  (try dsimp only)
  (repeat' split) <;> simp
@[simp] theorem sendMsix_staged (fn bit : Nat) (s : State) : (sendMsix fn bit s).staged = s.staged := by
  unfold sendMsix
  (try dsimp only)
  (repeat' split) <;> simp
@[simp] theorem sendMsix_preempt (fn bit : Nat) (s : State) : (sendMsix fn bit s).preempt = s.preempt := by
  unfold sendMsix
  (try dsimp only)
  (repeat' split) <;> simp
@[simp] theorem sendMsix_groups (fn bit : Nat) (s : State) : (sendMsix fn bit s).groups = s.groups := by
  unfold sendMsix
  (try dsimp only)
  (repeat' split) <;> simp
@[simp] theorem sendMsix_fabric (fn bit : Nat) (s : State) : (sendMsix fn bit s).fabric = s.fabric := by
  unfold sendMsix
  (try dsimp only)
  (repeat' split) <;> simp
@[simp] theorem sendMsix_codec (fn bit : Nat) (s : State) : (sendMsix fn bit s).codec = s.codec := by
  unfold sendMsix
  (try dsimp only)
  (repeat' split) <;> simp
@[simp] theorem sendMsix_power (fn bit : Nat) (s : State) : (sendMsix fn bit s).power = s.power := by
  unfold sendMsix
  (try dsimp only)
  (repeat' split) <;> simp
@[simp] theorem sendMsix_sec (fn bit : Nat) (s : State) : (sendMsix fn bit s).sec = s.sec := by
  unfold sendMsix
  (try dsimp only)
  (repeat' split) <;> simp
@[simp] theorem sendMsix_log (fn bit : Nat) (s : State) : (sendMsix fn bit s).log = s.log := by
  unfold sendMsix
  (try dsimp only)
  (repeat' split) <;> simp
@[simp] theorem sendMsix_test (fn bit : Nat) (s : State) : (sendMsix fn bit s).test = s.test := by
  unfold sendMsix
  (try dsimp only)
  (repeat' split) <;> simp
@[simp] theorem sendMsix_bar2Held (fn bit : Nat) (s : State) : (sendMsix fn bit s).bar2Held = s.bar2Held := by
  unfold sendMsix
  (try dsimp only)
  (repeat' split) <;> simp
@[simp] theorem sendMsix_doorbells (fn bit : Nat) (s : State) : (sendMsix fn bit s).doorbells = s.doorbells := by
  unfold sendMsix
  (try dsimp only)
  (repeat' split) <;> simp
@[simp] theorem sendMsix_lastCaller (fn bit : Nat) (s : State) : (sendMsix fn bit s).lastCaller = s.lastCaller := by
  unfold sendMsix
  (try dsimp only)
  (repeat' split) <;> simp

/-! ## raiseIrq -/

@[simp] theorem raiseIrq_pending (fn bit : Nat) (s : State) : (raiseIrq fn bit s).pending = s.pending := by
  unfold raiseIrq
  (try dsimp only)
  (repeat' split) <;> simp
@[simp] theorem raiseIrq_time (fn bit : Nat) (s : State) : (raiseIrq fn bit s).time = s.time := by
  unfold raiseIrq
  (try dsimp only)
  (repeat' split) <;> simp
@[simp] theorem raiseIrq_fresh (fn bit : Nat) (s : State) : (raiseIrq fn bit s).fresh = s.fresh := by
  unfold raiseIrq
  (try dsimp only)
  (repeat' split) <;> simp
@[simp] theorem raiseIrq_fuses (fn bit : Nat) (s : State) : (raiseIrq fn bit s).fuses = s.fuses := by
  unfold raiseIrq
  (try dsimp only)
  (repeat' split) <;> simp
@[simp] theorem raiseIrq_pins (fn bit : Nat) (s : State) : (raiseIrq fn bit s).pins = s.pins := by
  unfold raiseIrq
  (try dsimp only)
  (repeat' split) <;> simp
@[simp] theorem raiseIrq_fw (fn bit : Nat) (s : State) : (raiseIrq fn bit s).fw = s.fw := by
  unfold raiseIrq
  (try dsimp only)
  (repeat' split) <;> simp
@[simp] theorem raiseIrq_pcie (fn bit : Nat) (s : State) : (raiseIrq fn bit s).pcie = s.pcie := by
  unfold raiseIrq
  (try dsimp only)
  (repeat' split) <;> simp
@[simp] theorem raiseIrq_mem (fn bit : Nat) (s : State) : (raiseIrq fn bit s).mem = s.mem := by
  unfold raiseIrq
  (try dsimp only)
  (repeat' split) <;> simp
@[simp] theorem raiseIrq_host (fn bit : Nat) (s : State) : (raiseIrq fn bit s).host = s.host := by
  unfold raiseIrq
  (try dsimp only)
  (repeat' split) <;> simp
@[simp] theorem raiseIrq_channels (fn bit : Nat) (s : State) : (raiseIrq fn bit s).channels = s.channels := by
  unfold raiseIrq
  (try dsimp only)
  (repeat' split) <;> simp
@[simp] theorem raiseIrq_inv (fn bit : Nat) (s : State) : (raiseIrq fn bit s).inv = s.inv := by
  unfold raiseIrq
  (try dsimp only)
  (repeat' split) <;> simp
@[simp] theorem raiseIrq_cores (fn bit : Nat) (s : State) : (raiseIrq fn bit s).cores = s.cores := by
  unfold raiseIrq
  (try dsimp only)
  (repeat' split) <;> simp
@[simp] theorem raiseIrq_chips (fn bit : Nat) (s : State) : (raiseIrq fn bit s).chips = s.chips := by
  unfold raiseIrq
  (try dsimp only)
  (repeat' split) <;> simp
@[simp] theorem raiseIrq_chipFetch (fn bit : Nat) (s : State) : (raiseIrq fn bit s).chipFetch = s.chipFetch := by
  unfold raiseIrq
  (try dsimp only)
  (repeat' split) <;> simp
@[simp] theorem raiseIrq_gathers (fn bit : Nat) (s : State) : (raiseIrq fn bit s).gathers = s.gathers := by
  unfold raiseIrq
  (try dsimp only)
  (repeat' split) <;> simp
@[simp] theorem raiseIrq_tables (fn bit : Nat) (s : State) : (raiseIrq fn bit s).tables = s.tables := by
  unfold raiseIrq
  (try dsimp only)
  (repeat' split) <;> simp
@[simp] theorem raiseIrq_scores (fn bit : Nat) (s : State) : (raiseIrq fn bit s).scores = s.scores := by
  unfold raiseIrq
  (try dsimp only)
  (repeat' split) <;> simp
@[simp] theorem raiseIrq_resident (fn bit : Nat) (s : State) : (raiseIrq fn bit s).resident = s.resident := by
  unfold raiseIrq
  (try dsimp only)
  (repeat' split) <;> simp
@[simp] theorem raiseIrq_sched (fn bit : Nat) (s : State) : (raiseIrq fn bit s).sched = s.sched := by
  unfold raiseIrq
  (try dsimp only)
  (repeat' split) <;> simp
@[simp] theorem raiseIrq_staged (fn bit : Nat) (s : State) : (raiseIrq fn bit s).staged = s.staged := by
  unfold raiseIrq
  (try dsimp only)
  (repeat' split) <;> simp
@[simp] theorem raiseIrq_preempt (fn bit : Nat) (s : State) : (raiseIrq fn bit s).preempt = s.preempt := by
  unfold raiseIrq
  (try dsimp only)
  (repeat' split) <;> simp
@[simp] theorem raiseIrq_groups (fn bit : Nat) (s : State) : (raiseIrq fn bit s).groups = s.groups := by
  unfold raiseIrq
  (try dsimp only)
  (repeat' split) <;> simp
@[simp] theorem raiseIrq_fabric (fn bit : Nat) (s : State) : (raiseIrq fn bit s).fabric = s.fabric := by
  unfold raiseIrq
  (try dsimp only)
  (repeat' split) <;> simp
@[simp] theorem raiseIrq_codec (fn bit : Nat) (s : State) : (raiseIrq fn bit s).codec = s.codec := by
  unfold raiseIrq
  (try dsimp only)
  (repeat' split) <;> simp
@[simp] theorem raiseIrq_power (fn bit : Nat) (s : State) : (raiseIrq fn bit s).power = s.power := by
  unfold raiseIrq
  (try dsimp only)
  (repeat' split) <;> simp
@[simp] theorem raiseIrq_sec (fn bit : Nat) (s : State) : (raiseIrq fn bit s).sec = s.sec := by
  unfold raiseIrq
  (try dsimp only)
  (repeat' split) <;> simp
@[simp] theorem raiseIrq_log (fn bit : Nat) (s : State) : (raiseIrq fn bit s).log = s.log := by
  unfold raiseIrq
  (try dsimp only)
  (repeat' split) <;> simp
@[simp] theorem raiseIrq_test (fn bit : Nat) (s : State) : (raiseIrq fn bit s).test = s.test := by
  unfold raiseIrq
  (try dsimp only)
  (repeat' split) <;> simp
@[simp] theorem raiseIrq_bar2Held (fn bit : Nat) (s : State) : (raiseIrq fn bit s).bar2Held = s.bar2Held := by
  unfold raiseIrq
  (try dsimp only)
  (repeat' split) <;> simp
@[simp] theorem raiseIrq_doorbells (fn bit : Nat) (s : State) : (raiseIrq fn bit s).doorbells = s.doorbells := by
  unfold raiseIrq
  (try dsimp only)
  (repeat' split) <;> simp
@[simp] theorem raiseIrq_lastCaller (fn bit : Nat) (s : State) : (raiseIrq fn bit s).lastCaller = s.lastCaller := by
  unfold raiseIrq
  (try dsimp only)
  (repeat' split) <;> simp

/-! ## raiseIrqs -/

@[simp] theorem raiseIrqs_pending (fns : List Nat) (bit : Nat) (s : State) : (raiseIrqs fns bit s).pending = s.pending := foldl_field State.pending _ (fun _ _ => raiseIrq_pending _ _ _) _ _
@[simp] theorem raiseIrqs_time (fns : List Nat) (bit : Nat) (s : State) : (raiseIrqs fns bit s).time = s.time := foldl_field State.time _ (fun _ _ => raiseIrq_time _ _ _) _ _
@[simp] theorem raiseIrqs_fresh (fns : List Nat) (bit : Nat) (s : State) : (raiseIrqs fns bit s).fresh = s.fresh := foldl_field State.fresh _ (fun _ _ => raiseIrq_fresh _ _ _) _ _
@[simp] theorem raiseIrqs_fuses (fns : List Nat) (bit : Nat) (s : State) : (raiseIrqs fns bit s).fuses = s.fuses := foldl_field State.fuses _ (fun _ _ => raiseIrq_fuses _ _ _) _ _
@[simp] theorem raiseIrqs_pins (fns : List Nat) (bit : Nat) (s : State) : (raiseIrqs fns bit s).pins = s.pins := foldl_field State.pins _ (fun _ _ => raiseIrq_pins _ _ _) _ _
@[simp] theorem raiseIrqs_fw (fns : List Nat) (bit : Nat) (s : State) : (raiseIrqs fns bit s).fw = s.fw := foldl_field State.fw _ (fun _ _ => raiseIrq_fw _ _ _) _ _
@[simp] theorem raiseIrqs_pcie (fns : List Nat) (bit : Nat) (s : State) : (raiseIrqs fns bit s).pcie = s.pcie := foldl_field State.pcie _ (fun _ _ => raiseIrq_pcie _ _ _) _ _
@[simp] theorem raiseIrqs_mem (fns : List Nat) (bit : Nat) (s : State) : (raiseIrqs fns bit s).mem = s.mem := foldl_field State.mem _ (fun _ _ => raiseIrq_mem _ _ _) _ _
@[simp] theorem raiseIrqs_host (fns : List Nat) (bit : Nat) (s : State) : (raiseIrqs fns bit s).host = s.host := foldl_field State.host _ (fun _ _ => raiseIrq_host _ _ _) _ _
@[simp] theorem raiseIrqs_channels (fns : List Nat) (bit : Nat) (s : State) : (raiseIrqs fns bit s).channels = s.channels := foldl_field State.channels _ (fun _ _ => raiseIrq_channels _ _ _) _ _
@[simp] theorem raiseIrqs_inv (fns : List Nat) (bit : Nat) (s : State) : (raiseIrqs fns bit s).inv = s.inv := foldl_field State.inv _ (fun _ _ => raiseIrq_inv _ _ _) _ _
@[simp] theorem raiseIrqs_cores (fns : List Nat) (bit : Nat) (s : State) : (raiseIrqs fns bit s).cores = s.cores := foldl_field State.cores _ (fun _ _ => raiseIrq_cores _ _ _) _ _
@[simp] theorem raiseIrqs_chips (fns : List Nat) (bit : Nat) (s : State) : (raiseIrqs fns bit s).chips = s.chips := foldl_field State.chips _ (fun _ _ => raiseIrq_chips _ _ _) _ _
@[simp] theorem raiseIrqs_chipFetch (fns : List Nat) (bit : Nat) (s : State) : (raiseIrqs fns bit s).chipFetch = s.chipFetch := foldl_field State.chipFetch _ (fun _ _ => raiseIrq_chipFetch _ _ _) _ _
@[simp] theorem raiseIrqs_gathers (fns : List Nat) (bit : Nat) (s : State) : (raiseIrqs fns bit s).gathers = s.gathers := foldl_field State.gathers _ (fun _ _ => raiseIrq_gathers _ _ _) _ _
@[simp] theorem raiseIrqs_tables (fns : List Nat) (bit : Nat) (s : State) : (raiseIrqs fns bit s).tables = s.tables := foldl_field State.tables _ (fun _ _ => raiseIrq_tables _ _ _) _ _
@[simp] theorem raiseIrqs_scores (fns : List Nat) (bit : Nat) (s : State) : (raiseIrqs fns bit s).scores = s.scores := foldl_field State.scores _ (fun _ _ => raiseIrq_scores _ _ _) _ _
@[simp] theorem raiseIrqs_resident (fns : List Nat) (bit : Nat) (s : State) : (raiseIrqs fns bit s).resident = s.resident := foldl_field State.resident _ (fun _ _ => raiseIrq_resident _ _ _) _ _
@[simp] theorem raiseIrqs_sched (fns : List Nat) (bit : Nat) (s : State) : (raiseIrqs fns bit s).sched = s.sched := foldl_field State.sched _ (fun _ _ => raiseIrq_sched _ _ _) _ _
@[simp] theorem raiseIrqs_staged (fns : List Nat) (bit : Nat) (s : State) : (raiseIrqs fns bit s).staged = s.staged := foldl_field State.staged _ (fun _ _ => raiseIrq_staged _ _ _) _ _
@[simp] theorem raiseIrqs_preempt (fns : List Nat) (bit : Nat) (s : State) : (raiseIrqs fns bit s).preempt = s.preempt := foldl_field State.preempt _ (fun _ _ => raiseIrq_preempt _ _ _) _ _
@[simp] theorem raiseIrqs_groups (fns : List Nat) (bit : Nat) (s : State) : (raiseIrqs fns bit s).groups = s.groups := foldl_field State.groups _ (fun _ _ => raiseIrq_groups _ _ _) _ _
@[simp] theorem raiseIrqs_fabric (fns : List Nat) (bit : Nat) (s : State) : (raiseIrqs fns bit s).fabric = s.fabric := foldl_field State.fabric _ (fun _ _ => raiseIrq_fabric _ _ _) _ _
@[simp] theorem raiseIrqs_codec (fns : List Nat) (bit : Nat) (s : State) : (raiseIrqs fns bit s).codec = s.codec := foldl_field State.codec _ (fun _ _ => raiseIrq_codec _ _ _) _ _
@[simp] theorem raiseIrqs_power (fns : List Nat) (bit : Nat) (s : State) : (raiseIrqs fns bit s).power = s.power := foldl_field State.power _ (fun _ _ => raiseIrq_power _ _ _) _ _
@[simp] theorem raiseIrqs_sec (fns : List Nat) (bit : Nat) (s : State) : (raiseIrqs fns bit s).sec = s.sec := foldl_field State.sec _ (fun _ _ => raiseIrq_sec _ _ _) _ _
@[simp] theorem raiseIrqs_log (fns : List Nat) (bit : Nat) (s : State) : (raiseIrqs fns bit s).log = s.log := foldl_field State.log _ (fun _ _ => raiseIrq_log _ _ _) _ _
@[simp] theorem raiseIrqs_test (fns : List Nat) (bit : Nat) (s : State) : (raiseIrqs fns bit s).test = s.test := foldl_field State.test _ (fun _ _ => raiseIrq_test _ _ _) _ _
@[simp] theorem raiseIrqs_bar2Held (fns : List Nat) (bit : Nat) (s : State) : (raiseIrqs fns bit s).bar2Held = s.bar2Held := foldl_field State.bar2Held _ (fun _ _ => raiseIrq_bar2Held _ _ _) _ _
@[simp] theorem raiseIrqs_doorbells (fns : List Nat) (bit : Nat) (s : State) : (raiseIrqs fns bit s).doorbells = s.doorbells := foldl_field State.doorbells _ (fun _ _ => raiseIrq_doorbells _ _ _) _ _
@[simp] theorem raiseIrqs_lastCaller (fns : List Nat) (bit : Nat) (s : State) : (raiseIrqs fns bit s).lastCaller = s.lastCaller := foldl_field State.lastCaller _ (fun _ _ => raiseIrq_lastCaller _ _ _) _ _

/-! ## logError -/

@[simp] theorem logError_pending (src sev : Nat) (st : Status) (fn stave place d : Nat) (s : State) : (logError src sev st fn stave place d s).pending = s.pending := by
  unfold logError
  (try dsimp only)
  (repeat' split) <;> simp
@[simp] theorem logError_time (src sev : Nat) (st : Status) (fn stave place d : Nat) (s : State) : (logError src sev st fn stave place d s).time = s.time := by
  unfold logError
  (try dsimp only)
  (repeat' split) <;> simp
@[simp] theorem logError_fresh (src sev : Nat) (st : Status) (fn stave place d : Nat) (s : State) : (logError src sev st fn stave place d s).fresh = s.fresh := by
  unfold logError
  (try dsimp only)
  (repeat' split) <;> simp
@[simp] theorem logError_fuses (src sev : Nat) (st : Status) (fn stave place d : Nat) (s : State) : (logError src sev st fn stave place d s).fuses = s.fuses := by
  unfold logError
  (try dsimp only)
  (repeat' split) <;> simp
@[simp] theorem logError_pins (src sev : Nat) (st : Status) (fn stave place d : Nat) (s : State) : (logError src sev st fn stave place d s).pins = s.pins := by
  unfold logError
  (try dsimp only)
  (repeat' split) <;> simp
@[simp] theorem logError_fw (src sev : Nat) (st : Status) (fn stave place d : Nat) (s : State) : (logError src sev st fn stave place d s).fw = s.fw := by
  unfold logError
  (try dsimp only)
  (repeat' split) <;> simp
@[simp] theorem logError_pcie (src sev : Nat) (st : Status) (fn stave place d : Nat) (s : State) : (logError src sev st fn stave place d s).pcie = s.pcie := by
  unfold logError
  (try dsimp only)
  (repeat' split) <;> simp
@[simp] theorem logError_mem (src sev : Nat) (st : Status) (fn stave place d : Nat) (s : State) : (logError src sev st fn stave place d s).mem = s.mem := by
  unfold logError
  (try dsimp only)
  (repeat' split) <;> simp
@[simp] theorem logError_host (src sev : Nat) (st : Status) (fn stave place d : Nat) (s : State) : (logError src sev st fn stave place d s).host = s.host := by
  unfold logError
  (try dsimp only)
  (repeat' split) <;> simp
@[simp] theorem logError_channels (src sev : Nat) (st : Status) (fn stave place d : Nat) (s : State) : (logError src sev st fn stave place d s).channels = s.channels := by
  unfold logError
  (try dsimp only)
  (repeat' split) <;> simp
@[simp] theorem logError_inv (src sev : Nat) (st : Status) (fn stave place d : Nat) (s : State) : (logError src sev st fn stave place d s).inv = s.inv := by
  unfold logError
  (try dsimp only)
  (repeat' split) <;> simp
@[simp] theorem logError_cores (src sev : Nat) (st : Status) (fn stave place d : Nat) (s : State) : (logError src sev st fn stave place d s).cores = s.cores := by
  unfold logError
  (try dsimp only)
  (repeat' split) <;> simp
@[simp] theorem logError_chips (src sev : Nat) (st : Status) (fn stave place d : Nat) (s : State) : (logError src sev st fn stave place d s).chips = s.chips := by
  unfold logError
  (try dsimp only)
  (repeat' split) <;> simp
@[simp] theorem logError_chipFetch (src sev : Nat) (st : Status) (fn stave place d : Nat) (s : State) : (logError src sev st fn stave place d s).chipFetch = s.chipFetch := by
  unfold logError
  (try dsimp only)
  (repeat' split) <;> simp
@[simp] theorem logError_gathers (src sev : Nat) (st : Status) (fn stave place d : Nat) (s : State) : (logError src sev st fn stave place d s).gathers = s.gathers := by
  unfold logError
  (try dsimp only)
  (repeat' split) <;> simp
@[simp] theorem logError_tables (src sev : Nat) (st : Status) (fn stave place d : Nat) (s : State) : (logError src sev st fn stave place d s).tables = s.tables := by
  unfold logError
  (try dsimp only)
  (repeat' split) <;> simp
@[simp] theorem logError_scores (src sev : Nat) (st : Status) (fn stave place d : Nat) (s : State) : (logError src sev st fn stave place d s).scores = s.scores := by
  unfold logError
  (try dsimp only)
  (repeat' split) <;> simp
@[simp] theorem logError_resident (src sev : Nat) (st : Status) (fn stave place d : Nat) (s : State) : (logError src sev st fn stave place d s).resident = s.resident := by
  unfold logError
  (try dsimp only)
  (repeat' split) <;> simp
@[simp] theorem logError_sched (src sev : Nat) (st : Status) (fn stave place d : Nat) (s : State) : (logError src sev st fn stave place d s).sched = s.sched := by
  unfold logError
  (try dsimp only)
  (repeat' split) <;> simp
@[simp] theorem logError_staged (src sev : Nat) (st : Status) (fn stave place d : Nat) (s : State) : (logError src sev st fn stave place d s).staged = s.staged := by
  unfold logError
  (try dsimp only)
  (repeat' split) <;> simp
@[simp] theorem logError_preempt (src sev : Nat) (st : Status) (fn stave place d : Nat) (s : State) : (logError src sev st fn stave place d s).preempt = s.preempt := by
  unfold logError
  (try dsimp only)
  (repeat' split) <;> simp
@[simp] theorem logError_groups (src sev : Nat) (st : Status) (fn stave place d : Nat) (s : State) : (logError src sev st fn stave place d s).groups = s.groups := by
  unfold logError
  (try dsimp only)
  (repeat' split) <;> simp
@[simp] theorem logError_fabric (src sev : Nat) (st : Status) (fn stave place d : Nat) (s : State) : (logError src sev st fn stave place d s).fabric = s.fabric := by
  unfold logError
  (try dsimp only)
  (repeat' split) <;> simp
@[simp] theorem logError_codec (src sev : Nat) (st : Status) (fn stave place d : Nat) (s : State) : (logError src sev st fn stave place d s).codec = s.codec := by
  unfold logError
  (try dsimp only)
  (repeat' split) <;> simp
@[simp] theorem logError_power (src sev : Nat) (st : Status) (fn stave place d : Nat) (s : State) : (logError src sev st fn stave place d s).power = s.power := by
  unfold logError
  (try dsimp only)
  (repeat' split) <;> simp
@[simp] theorem logError_sec (src sev : Nat) (st : Status) (fn stave place d : Nat) (s : State) : (logError src sev st fn stave place d s).sec = s.sec := by
  unfold logError
  (try dsimp only)
  (repeat' split) <;> simp
@[simp] theorem logError_test (src sev : Nat) (st : Status) (fn stave place d : Nat) (s : State) : (logError src sev st fn stave place d s).test = s.test := by
  unfold logError
  (try dsimp only)
  (repeat' split) <;> simp
@[simp] theorem logError_bar2Held (src sev : Nat) (st : Status) (fn stave place d : Nat) (s : State) : (logError src sev st fn stave place d s).bar2Held = s.bar2Held := by
  unfold logError
  (try dsimp only)
  (repeat' split) <;> simp
@[simp] theorem logError_doorbells (src sev : Nat) (st : Status) (fn stave place d : Nat) (s : State) : (logError src sev st fn stave place d s).doorbells = s.doorbells := by
  unfold logError
  (try dsimp only)
  (repeat' split) <;> simp
@[simp] theorem logError_lastCaller (src sev : Nat) (st : Status) (fn stave place d : Nat) (s : State) : (logError src sev st fn stave place d s).lastCaller = s.lastCaller := by
  unfold logError
  (try dsimp only)
  (repeat' split) <;> simp

/-! ## logMisuse -/

@[simp] theorem logMisuse_pending (fn d : Nat) (s : State) : (logMisuse fn d s).pending = s.pending := by
  unfold logMisuse
  (try dsimp only)
  (repeat' split) <;> simp
@[simp] theorem logMisuse_time (fn d : Nat) (s : State) : (logMisuse fn d s).time = s.time := by
  unfold logMisuse
  (try dsimp only)
  (repeat' split) <;> simp
@[simp] theorem logMisuse_fresh (fn d : Nat) (s : State) : (logMisuse fn d s).fresh = s.fresh := by
  unfold logMisuse
  (try dsimp only)
  (repeat' split) <;> simp
@[simp] theorem logMisuse_fuses (fn d : Nat) (s : State) : (logMisuse fn d s).fuses = s.fuses := by
  unfold logMisuse
  (try dsimp only)
  (repeat' split) <;> simp
@[simp] theorem logMisuse_pins (fn d : Nat) (s : State) : (logMisuse fn d s).pins = s.pins := by
  unfold logMisuse
  (try dsimp only)
  (repeat' split) <;> simp
@[simp] theorem logMisuse_fw (fn d : Nat) (s : State) : (logMisuse fn d s).fw = s.fw := by
  unfold logMisuse
  (try dsimp only)
  (repeat' split) <;> simp
@[simp] theorem logMisuse_pcie (fn d : Nat) (s : State) : (logMisuse fn d s).pcie = s.pcie := by
  unfold logMisuse
  (try dsimp only)
  (repeat' split) <;> simp
@[simp] theorem logMisuse_mem (fn d : Nat) (s : State) : (logMisuse fn d s).mem = s.mem := by
  unfold logMisuse
  (try dsimp only)
  (repeat' split) <;> simp
@[simp] theorem logMisuse_host (fn d : Nat) (s : State) : (logMisuse fn d s).host = s.host := by
  unfold logMisuse
  (try dsimp only)
  (repeat' split) <;> simp
@[simp] theorem logMisuse_channels (fn d : Nat) (s : State) : (logMisuse fn d s).channels = s.channels := by
  unfold logMisuse
  (try dsimp only)
  (repeat' split) <;> simp
@[simp] theorem logMisuse_inv (fn d : Nat) (s : State) : (logMisuse fn d s).inv = s.inv := by
  unfold logMisuse
  (try dsimp only)
  (repeat' split) <;> simp
@[simp] theorem logMisuse_cores (fn d : Nat) (s : State) : (logMisuse fn d s).cores = s.cores := by
  unfold logMisuse
  (try dsimp only)
  (repeat' split) <;> simp
@[simp] theorem logMisuse_chips (fn d : Nat) (s : State) : (logMisuse fn d s).chips = s.chips := by
  unfold logMisuse
  (try dsimp only)
  (repeat' split) <;> simp
@[simp] theorem logMisuse_chipFetch (fn d : Nat) (s : State) : (logMisuse fn d s).chipFetch = s.chipFetch := by
  unfold logMisuse
  (try dsimp only)
  (repeat' split) <;> simp
@[simp] theorem logMisuse_gathers (fn d : Nat) (s : State) : (logMisuse fn d s).gathers = s.gathers := by
  unfold logMisuse
  (try dsimp only)
  (repeat' split) <;> simp
@[simp] theorem logMisuse_tables (fn d : Nat) (s : State) : (logMisuse fn d s).tables = s.tables := by
  unfold logMisuse
  (try dsimp only)
  (repeat' split) <;> simp
@[simp] theorem logMisuse_scores (fn d : Nat) (s : State) : (logMisuse fn d s).scores = s.scores := by
  unfold logMisuse
  (try dsimp only)
  (repeat' split) <;> simp
@[simp] theorem logMisuse_resident (fn d : Nat) (s : State) : (logMisuse fn d s).resident = s.resident := by
  unfold logMisuse
  (try dsimp only)
  (repeat' split) <;> simp
@[simp] theorem logMisuse_sched (fn d : Nat) (s : State) : (logMisuse fn d s).sched = s.sched := by
  unfold logMisuse
  (try dsimp only)
  (repeat' split) <;> simp
@[simp] theorem logMisuse_staged (fn d : Nat) (s : State) : (logMisuse fn d s).staged = s.staged := by
  unfold logMisuse
  (try dsimp only)
  (repeat' split) <;> simp
@[simp] theorem logMisuse_preempt (fn d : Nat) (s : State) : (logMisuse fn d s).preempt = s.preempt := by
  unfold logMisuse
  (try dsimp only)
  (repeat' split) <;> simp
@[simp] theorem logMisuse_groups (fn d : Nat) (s : State) : (logMisuse fn d s).groups = s.groups := by
  unfold logMisuse
  (try dsimp only)
  (repeat' split) <;> simp
@[simp] theorem logMisuse_fabric (fn d : Nat) (s : State) : (logMisuse fn d s).fabric = s.fabric := by
  unfold logMisuse
  (try dsimp only)
  (repeat' split) <;> simp
@[simp] theorem logMisuse_codec (fn d : Nat) (s : State) : (logMisuse fn d s).codec = s.codec := by
  unfold logMisuse
  (try dsimp only)
  (repeat' split) <;> simp
@[simp] theorem logMisuse_power (fn d : Nat) (s : State) : (logMisuse fn d s).power = s.power := by
  unfold logMisuse
  (try dsimp only)
  (repeat' split) <;> simp
@[simp] theorem logMisuse_sec (fn d : Nat) (s : State) : (logMisuse fn d s).sec = s.sec := by
  unfold logMisuse
  (try dsimp only)
  (repeat' split) <;> simp
@[simp] theorem logMisuse_test (fn d : Nat) (s : State) : (logMisuse fn d s).test = s.test := by
  unfold logMisuse
  (try dsimp only)
  (repeat' split) <;> simp
@[simp] theorem logMisuse_bar2Held (fn d : Nat) (s : State) : (logMisuse fn d s).bar2Held = s.bar2Held := by
  unfold logMisuse
  (try dsimp only)
  (repeat' split) <;> simp
@[simp] theorem logMisuse_doorbells (fn d : Nat) (s : State) : (logMisuse fn d s).doorbells = s.doorbells := by
  unfold logMisuse
  (try dsimp only)
  (repeat' split) <;> simp
@[simp] theorem logMisuse_lastCaller (fn d : Nat) (s : State) : (logMisuse fn d s).lastCaller = s.lastCaller := by
  unfold logMisuse
  (try dsimp only)
  (repeat' split) <;> simp

/-! ## setFwState -/

@[simp] theorem setFwState_pending (st : FwState) (err : Status) (s : State) : (setFwState st err s).pending = s.pending := by
  unfold setFwState
  (try dsimp only)
  (repeat' split) <;> simp
@[simp] theorem setFwState_time (st : FwState) (err : Status) (s : State) : (setFwState st err s).time = s.time := by
  unfold setFwState
  (try dsimp only)
  (repeat' split) <;> simp
@[simp] theorem setFwState_fresh (st : FwState) (err : Status) (s : State) : (setFwState st err s).fresh = s.fresh := by
  unfold setFwState
  (try dsimp only)
  (repeat' split) <;> simp
@[simp] theorem setFwState_fuses (st : FwState) (err : Status) (s : State) : (setFwState st err s).fuses = s.fuses := by
  unfold setFwState
  (try dsimp only)
  (repeat' split) <;> simp
@[simp] theorem setFwState_pins (st : FwState) (err : Status) (s : State) : (setFwState st err s).pins = s.pins := by
  unfold setFwState
  (try dsimp only)
  (repeat' split) <;> simp
@[simp] theorem setFwState_pcie (st : FwState) (err : Status) (s : State) : (setFwState st err s).pcie = s.pcie := by
  unfold setFwState
  (try dsimp only)
  (repeat' split) <;> simp
@[simp] theorem setFwState_mem (st : FwState) (err : Status) (s : State) : (setFwState st err s).mem = s.mem := by
  unfold setFwState
  (try dsimp only)
  (repeat' split) <;> simp
@[simp] theorem setFwState_host (st : FwState) (err : Status) (s : State) : (setFwState st err s).host = s.host := by
  unfold setFwState
  (try dsimp only)
  (repeat' split) <;> simp
@[simp] theorem setFwState_channels (st : FwState) (err : Status) (s : State) : (setFwState st err s).channels = s.channels := by
  unfold setFwState
  (try dsimp only)
  (repeat' split) <;> simp
@[simp] theorem setFwState_inv (st : FwState) (err : Status) (s : State) : (setFwState st err s).inv = s.inv := by
  unfold setFwState
  (try dsimp only)
  (repeat' split) <;> simp
@[simp] theorem setFwState_cores (st : FwState) (err : Status) (s : State) : (setFwState st err s).cores = s.cores := by
  unfold setFwState
  (try dsimp only)
  (repeat' split) <;> simp
@[simp] theorem setFwState_chips (st : FwState) (err : Status) (s : State) : (setFwState st err s).chips = s.chips := by
  unfold setFwState
  (try dsimp only)
  (repeat' split) <;> simp
@[simp] theorem setFwState_chipFetch (st : FwState) (err : Status) (s : State) : (setFwState st err s).chipFetch = s.chipFetch := by
  unfold setFwState
  (try dsimp only)
  (repeat' split) <;> simp
@[simp] theorem setFwState_gathers (st : FwState) (err : Status) (s : State) : (setFwState st err s).gathers = s.gathers := by
  unfold setFwState
  (try dsimp only)
  (repeat' split) <;> simp
@[simp] theorem setFwState_tables (st : FwState) (err : Status) (s : State) : (setFwState st err s).tables = s.tables := by
  unfold setFwState
  (try dsimp only)
  (repeat' split) <;> simp
@[simp] theorem setFwState_scores (st : FwState) (err : Status) (s : State) : (setFwState st err s).scores = s.scores := by
  unfold setFwState
  (try dsimp only)
  (repeat' split) <;> simp
@[simp] theorem setFwState_resident (st : FwState) (err : Status) (s : State) : (setFwState st err s).resident = s.resident := by
  unfold setFwState
  (try dsimp only)
  (repeat' split) <;> simp
@[simp] theorem setFwState_sched (st : FwState) (err : Status) (s : State) : (setFwState st err s).sched = s.sched := by
  unfold setFwState
  (try dsimp only)
  (repeat' split) <;> simp
@[simp] theorem setFwState_staged (st : FwState) (err : Status) (s : State) : (setFwState st err s).staged = s.staged := by
  unfold setFwState
  (try dsimp only)
  (repeat' split) <;> simp
@[simp] theorem setFwState_preempt (st : FwState) (err : Status) (s : State) : (setFwState st err s).preempt = s.preempt := by
  unfold setFwState
  (try dsimp only)
  (repeat' split) <;> simp
@[simp] theorem setFwState_groups (st : FwState) (err : Status) (s : State) : (setFwState st err s).groups = s.groups := by
  unfold setFwState
  (try dsimp only)
  (repeat' split) <;> simp
@[simp] theorem setFwState_fabric (st : FwState) (err : Status) (s : State) : (setFwState st err s).fabric = s.fabric := by
  unfold setFwState
  (try dsimp only)
  (repeat' split) <;> simp
@[simp] theorem setFwState_codec (st : FwState) (err : Status) (s : State) : (setFwState st err s).codec = s.codec := by
  unfold setFwState
  (try dsimp only)
  (repeat' split) <;> simp
@[simp] theorem setFwState_power (st : FwState) (err : Status) (s : State) : (setFwState st err s).power = s.power := by
  unfold setFwState
  (try dsimp only)
  (repeat' split) <;> simp
@[simp] theorem setFwState_sec (st : FwState) (err : Status) (s : State) : (setFwState st err s).sec = s.sec := by
  unfold setFwState
  (try dsimp only)
  (repeat' split) <;> simp
@[simp] theorem setFwState_log (st : FwState) (err : Status) (s : State) : (setFwState st err s).log = s.log := by
  unfold setFwState
  (try dsimp only)
  (repeat' split) <;> simp
@[simp] theorem setFwState_test (st : FwState) (err : Status) (s : State) : (setFwState st err s).test = s.test := by
  unfold setFwState
  (try dsimp only)
  (repeat' split) <;> simp
@[simp] theorem setFwState_bar2Held (st : FwState) (err : Status) (s : State) : (setFwState st err s).bar2Held = s.bar2Held := by
  unfold setFwState
  (try dsimp only)
  (repeat' split) <;> simp
@[simp] theorem setFwState_doorbells (st : FwState) (err : Status) (s : State) : (setFwState st err s).doorbells = s.doorbells := by
  unfold setFwState
  (try dsimp only)
  (repeat' split) <;> simp
@[simp] theorem setFwState_lastCaller (st : FwState) (err : Status) (s : State) : (setFwState st err s).lastCaller = s.lastCaller := by
  unfold setFwState
  (try dsimp only)
  (repeat' split) <;> simp

/-! ## hostWrite -/

@[simp] theorem hostWrite_pending (a : Nat) (bs : List Byte) (s : State) : (hostWrite a bs s).pending = s.pending := rfl
@[simp] theorem hostWrite_time (a : Nat) (bs : List Byte) (s : State) : (hostWrite a bs s).time = s.time := rfl
@[simp] theorem hostWrite_fresh (a : Nat) (bs : List Byte) (s : State) : (hostWrite a bs s).fresh = s.fresh := rfl
@[simp] theorem hostWrite_fuses (a : Nat) (bs : List Byte) (s : State) : (hostWrite a bs s).fuses = s.fuses := rfl
@[simp] theorem hostWrite_pins (a : Nat) (bs : List Byte) (s : State) : (hostWrite a bs s).pins = s.pins := rfl
@[simp] theorem hostWrite_fw (a : Nat) (bs : List Byte) (s : State) : (hostWrite a bs s).fw = s.fw := rfl
@[simp] theorem hostWrite_pcie (a : Nat) (bs : List Byte) (s : State) : (hostWrite a bs s).pcie = s.pcie := rfl
@[simp] theorem hostWrite_funcs (a : Nat) (bs : List Byte) (s : State) : (hostWrite a bs s).funcs = s.funcs := rfl
@[simp] theorem hostWrite_mem (a : Nat) (bs : List Byte) (s : State) : (hostWrite a bs s).mem = s.mem := rfl
@[simp] theorem hostWrite_channels (a : Nat) (bs : List Byte) (s : State) : (hostWrite a bs s).channels = s.channels := rfl
@[simp] theorem hostWrite_inv (a : Nat) (bs : List Byte) (s : State) : (hostWrite a bs s).inv = s.inv := rfl
@[simp] theorem hostWrite_cores (a : Nat) (bs : List Byte) (s : State) : (hostWrite a bs s).cores = s.cores := rfl
@[simp] theorem hostWrite_chips (a : Nat) (bs : List Byte) (s : State) : (hostWrite a bs s).chips = s.chips := rfl
@[simp] theorem hostWrite_chipFetch (a : Nat) (bs : List Byte) (s : State) : (hostWrite a bs s).chipFetch = s.chipFetch := rfl
@[simp] theorem hostWrite_gathers (a : Nat) (bs : List Byte) (s : State) : (hostWrite a bs s).gathers = s.gathers := rfl
@[simp] theorem hostWrite_tables (a : Nat) (bs : List Byte) (s : State) : (hostWrite a bs s).tables = s.tables := rfl
@[simp] theorem hostWrite_scores (a : Nat) (bs : List Byte) (s : State) : (hostWrite a bs s).scores = s.scores := rfl
@[simp] theorem hostWrite_resident (a : Nat) (bs : List Byte) (s : State) : (hostWrite a bs s).resident = s.resident := rfl
@[simp] theorem hostWrite_sched (a : Nat) (bs : List Byte) (s : State) : (hostWrite a bs s).sched = s.sched := rfl
@[simp] theorem hostWrite_staged (a : Nat) (bs : List Byte) (s : State) : (hostWrite a bs s).staged = s.staged := rfl
@[simp] theorem hostWrite_preempt (a : Nat) (bs : List Byte) (s : State) : (hostWrite a bs s).preempt = s.preempt := rfl
@[simp] theorem hostWrite_groups (a : Nat) (bs : List Byte) (s : State) : (hostWrite a bs s).groups = s.groups := rfl
@[simp] theorem hostWrite_fabric (a : Nat) (bs : List Byte) (s : State) : (hostWrite a bs s).fabric = s.fabric := rfl
@[simp] theorem hostWrite_codec (a : Nat) (bs : List Byte) (s : State) : (hostWrite a bs s).codec = s.codec := rfl
@[simp] theorem hostWrite_power (a : Nat) (bs : List Byte) (s : State) : (hostWrite a bs s).power = s.power := rfl
@[simp] theorem hostWrite_sec (a : Nat) (bs : List Byte) (s : State) : (hostWrite a bs s).sec = s.sec := rfl
@[simp] theorem hostWrite_log (a : Nat) (bs : List Byte) (s : State) : (hostWrite a bs s).log = s.log := rfl
@[simp] theorem hostWrite_test (a : Nat) (bs : List Byte) (s : State) : (hostWrite a bs s).test = s.test := rfl
@[simp] theorem hostWrite_bar2Held (a : Nat) (bs : List Byte) (s : State) : (hostWrite a bs s).bar2Held = s.bar2Held := rfl
@[simp] theorem hostWrite_doorbells (a : Nat) (bs : List Byte) (s : State) : (hostWrite a bs s).doorbells = s.doorbells := rfl
@[simp] theorem hostWrite_lastCaller (a : Nat) (bs : List Byte) (s : State) : (hostWrite a bs s).lastCaller = s.lastCaller := rfl
@[simp] theorem hostWrite_out (a : Nat) (bs : List Byte) (s : State) : (hostWrite a bs s).out = s.out := rfl

/-! ## forgetRange -/

@[simp] theorem forgetRange_pending (a n : Nat) (s : State) : (forgetRange a n s).pending = s.pending := rfl
@[simp] theorem forgetRange_time (a n : Nat) (s : State) : (forgetRange a n s).time = s.time := rfl
@[simp] theorem forgetRange_fuses (a n : Nat) (s : State) : (forgetRange a n s).fuses = s.fuses := rfl
@[simp] theorem forgetRange_pins (a n : Nat) (s : State) : (forgetRange a n s).pins = s.pins := rfl
@[simp] theorem forgetRange_fw (a n : Nat) (s : State) : (forgetRange a n s).fw = s.fw := rfl
@[simp] theorem forgetRange_pcie (a n : Nat) (s : State) : (forgetRange a n s).pcie = s.pcie := rfl
@[simp] theorem forgetRange_funcs (a n : Nat) (s : State) : (forgetRange a n s).funcs = s.funcs := rfl
@[simp] theorem forgetRange_host (a n : Nat) (s : State) : (forgetRange a n s).host = s.host := rfl
@[simp] theorem forgetRange_channels (a n : Nat) (s : State) : (forgetRange a n s).channels = s.channels := rfl
@[simp] theorem forgetRange_inv (a n : Nat) (s : State) : (forgetRange a n s).inv = s.inv := rfl
@[simp] theorem forgetRange_cores (a n : Nat) (s : State) : (forgetRange a n s).cores = s.cores := rfl
@[simp] theorem forgetRange_chips (a n : Nat) (s : State) : (forgetRange a n s).chips = s.chips := rfl
@[simp] theorem forgetRange_chipFetch (a n : Nat) (s : State) : (forgetRange a n s).chipFetch = s.chipFetch := rfl
@[simp] theorem forgetRange_gathers (a n : Nat) (s : State) : (forgetRange a n s).gathers = s.gathers := rfl
@[simp] theorem forgetRange_tables (a n : Nat) (s : State) : (forgetRange a n s).tables = s.tables := rfl
@[simp] theorem forgetRange_scores (a n : Nat) (s : State) : (forgetRange a n s).scores = s.scores := rfl
@[simp] theorem forgetRange_resident (a n : Nat) (s : State) : (forgetRange a n s).resident = s.resident := rfl
@[simp] theorem forgetRange_sched (a n : Nat) (s : State) : (forgetRange a n s).sched = s.sched := rfl
@[simp] theorem forgetRange_staged (a n : Nat) (s : State) : (forgetRange a n s).staged = s.staged := rfl
@[simp] theorem forgetRange_preempt (a n : Nat) (s : State) : (forgetRange a n s).preempt = s.preempt := rfl
@[simp] theorem forgetRange_groups (a n : Nat) (s : State) : (forgetRange a n s).groups = s.groups := rfl
@[simp] theorem forgetRange_fabric (a n : Nat) (s : State) : (forgetRange a n s).fabric = s.fabric := rfl
@[simp] theorem forgetRange_codec (a n : Nat) (s : State) : (forgetRange a n s).codec = s.codec := rfl
@[simp] theorem forgetRange_power (a n : Nat) (s : State) : (forgetRange a n s).power = s.power := rfl
@[simp] theorem forgetRange_sec (a n : Nat) (s : State) : (forgetRange a n s).sec = s.sec := rfl
@[simp] theorem forgetRange_log (a n : Nat) (s : State) : (forgetRange a n s).log = s.log := rfl
@[simp] theorem forgetRange_test (a n : Nat) (s : State) : (forgetRange a n s).test = s.test := rfl
@[simp] theorem forgetRange_bar2Held (a n : Nat) (s : State) : (forgetRange a n s).bar2Held = s.bar2Held := rfl
@[simp] theorem forgetRange_doorbells (a n : Nat) (s : State) : (forgetRange a n s).doorbells = s.doorbells := rfl
@[simp] theorem forgetRange_lastCaller (a n : Nat) (s : State) : (forgetRange a n s).lastCaller = s.lastCaller := rfl
@[simp] theorem forgetRange_out (a n : Nat) (s : State) : (forgetRange a n s).out = s.out := rfl

/-! ## closeStopped -/

@[simp] theorem closeStopped_pending (fn : Nat) (s : State) : (closeStopped fn s).pending = s.pending := by
  unfold closeStopped
  (try dsimp only)
  (repeat' split) <;> simp
@[simp] theorem closeStopped_time (fn : Nat) (s : State) : (closeStopped fn s).time = s.time := by
  unfold closeStopped
  (try dsimp only)
  (repeat' split) <;> simp
@[simp] theorem closeStopped_fresh (fn : Nat) (s : State) : (closeStopped fn s).fresh = s.fresh := by
  unfold closeStopped
  (try dsimp only)
  (repeat' split) <;> simp
@[simp] theorem closeStopped_fuses (fn : Nat) (s : State) : (closeStopped fn s).fuses = s.fuses := by
  unfold closeStopped
  (try dsimp only)
  (repeat' split) <;> simp
@[simp] theorem closeStopped_pins (fn : Nat) (s : State) : (closeStopped fn s).pins = s.pins := by
  unfold closeStopped
  (try dsimp only)
  (repeat' split) <;> simp
@[simp] theorem closeStopped_fw (fn : Nat) (s : State) : (closeStopped fn s).fw = s.fw := by
  unfold closeStopped
  (try dsimp only)
  (repeat' split) <;> simp
@[simp] theorem closeStopped_pcie (fn : Nat) (s : State) : (closeStopped fn s).pcie = s.pcie := by
  unfold closeStopped
  (try dsimp only)
  (repeat' split) <;> simp
@[simp] theorem closeStopped_mem (fn : Nat) (s : State) : (closeStopped fn s).mem = s.mem := by
  unfold closeStopped
  (try dsimp only)
  (repeat' split) <;> simp
@[simp] theorem closeStopped_host (fn : Nat) (s : State) : (closeStopped fn s).host = s.host := by
  unfold closeStopped
  (try dsimp only)
  (repeat' split) <;> simp
@[simp] theorem closeStopped_channels (fn : Nat) (s : State) : (closeStopped fn s).channels = s.channels := by
  unfold closeStopped
  (try dsimp only)
  (repeat' split) <;> simp
@[simp] theorem closeStopped_inv (fn : Nat) (s : State) : (closeStopped fn s).inv = s.inv := by
  unfold closeStopped
  (try dsimp only)
  (repeat' split) <;> simp
@[simp] theorem closeStopped_cores (fn : Nat) (s : State) : (closeStopped fn s).cores = s.cores := by
  unfold closeStopped
  (try dsimp only)
  (repeat' split) <;> simp
@[simp] theorem closeStopped_chips (fn : Nat) (s : State) : (closeStopped fn s).chips = s.chips := by
  unfold closeStopped
  (try dsimp only)
  (repeat' split) <;> simp
@[simp] theorem closeStopped_chipFetch (fn : Nat) (s : State) : (closeStopped fn s).chipFetch = s.chipFetch := by
  unfold closeStopped
  (try dsimp only)
  (repeat' split) <;> simp
@[simp] theorem closeStopped_gathers (fn : Nat) (s : State) : (closeStopped fn s).gathers = s.gathers := by
  unfold closeStopped
  (try dsimp only)
  (repeat' split) <;> simp
@[simp] theorem closeStopped_tables (fn : Nat) (s : State) : (closeStopped fn s).tables = s.tables := by
  unfold closeStopped
  (try dsimp only)
  (repeat' split) <;> simp
@[simp] theorem closeStopped_scores (fn : Nat) (s : State) : (closeStopped fn s).scores = s.scores := by
  unfold closeStopped
  (try dsimp only)
  (repeat' split) <;> simp
@[simp] theorem closeStopped_resident (fn : Nat) (s : State) : (closeStopped fn s).resident = s.resident := by
  unfold closeStopped
  (try dsimp only)
  (repeat' split) <;> simp
@[simp] theorem closeStopped_sched (fn : Nat) (s : State) : (closeStopped fn s).sched = s.sched := by
  unfold closeStopped
  (try dsimp only)
  (repeat' split) <;> simp
@[simp] theorem closeStopped_staged (fn : Nat) (s : State) : (closeStopped fn s).staged = s.staged := by
  unfold closeStopped
  (try dsimp only)
  (repeat' split) <;> simp
@[simp] theorem closeStopped_preempt (fn : Nat) (s : State) : (closeStopped fn s).preempt = s.preempt := by
  unfold closeStopped
  (try dsimp only)
  (repeat' split) <;> simp
@[simp] theorem closeStopped_groups (fn : Nat) (s : State) : (closeStopped fn s).groups = s.groups := by
  unfold closeStopped
  (try dsimp only)
  (repeat' split) <;> simp
@[simp] theorem closeStopped_fabric (fn : Nat) (s : State) : (closeStopped fn s).fabric = s.fabric := by
  unfold closeStopped
  (try dsimp only)
  (repeat' split) <;> simp
@[simp] theorem closeStopped_codec (fn : Nat) (s : State) : (closeStopped fn s).codec = s.codec := by
  unfold closeStopped
  (try dsimp only)
  (repeat' split) <;> simp
@[simp] theorem closeStopped_power (fn : Nat) (s : State) : (closeStopped fn s).power = s.power := by
  unfold closeStopped
  (try dsimp only)
  (repeat' split) <;> simp
@[simp] theorem closeStopped_sec (fn : Nat) (s : State) : (closeStopped fn s).sec = s.sec := by
  unfold closeStopped
  (try dsimp only)
  (repeat' split) <;> simp
@[simp] theorem closeStopped_log (fn : Nat) (s : State) : (closeStopped fn s).log = s.log := by
  unfold closeStopped
  (try dsimp only)
  (repeat' split) <;> simp
@[simp] theorem closeStopped_test (fn : Nat) (s : State) : (closeStopped fn s).test = s.test := by
  unfold closeStopped
  (try dsimp only)
  (repeat' split) <;> simp
@[simp] theorem closeStopped_bar2Held (fn : Nat) (s : State) : (closeStopped fn s).bar2Held = s.bar2Held := by
  unfold closeStopped
  (try dsimp only)
  (repeat' split) <;> simp
@[simp] theorem closeStopped_doorbells (fn : Nat) (s : State) : (closeStopped fn s).doorbells = s.doorbells := by
  unfold closeStopped
  (try dsimp only)
  (repeat' split) <;> simp
@[simp] theorem closeStopped_lastCaller (fn : Nat) (s : State) : (closeStopped fn s).lastCaller = s.lastCaller := by
  unfold closeStopped
  (try dsimp only)
  (repeat' split) <;> simp
@[simp] theorem closeStopped_out (fn : Nat) (s : State) : (closeStopped fn s).out = s.out := by
  unfold closeStopped
  (try dsimp only)
  (repeat' split) <;> simp

/-! ## writeResponse -/

@[simp] theorem writeResponse_pending (fn : Nat) (m : Mailbox) (r : Response) (s : State) : (writeResponse fn m r s).pending = s.pending := by
  unfold writeResponse
  (try dsimp only)
  (repeat' split) <;> simp
@[simp] theorem writeResponse_time (fn : Nat) (m : Mailbox) (r : Response) (s : State) : (writeResponse fn m r s).time = s.time := by
  unfold writeResponse
  (try dsimp only)
  (repeat' split) <;> simp
@[simp] theorem writeResponse_fresh (fn : Nat) (m : Mailbox) (r : Response) (s : State) : (writeResponse fn m r s).fresh = s.fresh := by
  unfold writeResponse
  (try dsimp only)
  (repeat' split) <;> simp
@[simp] theorem writeResponse_fuses (fn : Nat) (m : Mailbox) (r : Response) (s : State) : (writeResponse fn m r s).fuses = s.fuses := by
  unfold writeResponse
  (try dsimp only)
  (repeat' split) <;> simp
@[simp] theorem writeResponse_pins (fn : Nat) (m : Mailbox) (r : Response) (s : State) : (writeResponse fn m r s).pins = s.pins := by
  unfold writeResponse
  (try dsimp only)
  (repeat' split) <;> simp
@[simp] theorem writeResponse_fw (fn : Nat) (m : Mailbox) (r : Response) (s : State) : (writeResponse fn m r s).fw = s.fw := by
  unfold writeResponse
  (try dsimp only)
  (repeat' split) <;> simp
@[simp] theorem writeResponse_pcie (fn : Nat) (m : Mailbox) (r : Response) (s : State) : (writeResponse fn m r s).pcie = s.pcie := by
  unfold writeResponse
  (try dsimp only)
  (repeat' split) <;> simp
@[simp] theorem writeResponse_mem (fn : Nat) (m : Mailbox) (r : Response) (s : State) : (writeResponse fn m r s).mem = s.mem := by
  unfold writeResponse
  (try dsimp only)
  (repeat' split) <;> simp
@[simp] theorem writeResponse_channels (fn : Nat) (m : Mailbox) (r : Response) (s : State) : (writeResponse fn m r s).channels = s.channels := by
  unfold writeResponse
  (try dsimp only)
  (repeat' split) <;> simp
@[simp] theorem writeResponse_inv (fn : Nat) (m : Mailbox) (r : Response) (s : State) : (writeResponse fn m r s).inv = s.inv := by
  unfold writeResponse
  (try dsimp only)
  (repeat' split) <;> simp
@[simp] theorem writeResponse_cores (fn : Nat) (m : Mailbox) (r : Response) (s : State) : (writeResponse fn m r s).cores = s.cores := by
  unfold writeResponse
  (try dsimp only)
  (repeat' split) <;> simp
@[simp] theorem writeResponse_chips (fn : Nat) (m : Mailbox) (r : Response) (s : State) : (writeResponse fn m r s).chips = s.chips := by
  unfold writeResponse
  (try dsimp only)
  (repeat' split) <;> simp
@[simp] theorem writeResponse_chipFetch (fn : Nat) (m : Mailbox) (r : Response) (s : State) : (writeResponse fn m r s).chipFetch = s.chipFetch := by
  unfold writeResponse
  (try dsimp only)
  (repeat' split) <;> simp
@[simp] theorem writeResponse_gathers (fn : Nat) (m : Mailbox) (r : Response) (s : State) : (writeResponse fn m r s).gathers = s.gathers := by
  unfold writeResponse
  (try dsimp only)
  (repeat' split) <;> simp
@[simp] theorem writeResponse_tables (fn : Nat) (m : Mailbox) (r : Response) (s : State) : (writeResponse fn m r s).tables = s.tables := by
  unfold writeResponse
  (try dsimp only)
  (repeat' split) <;> simp
@[simp] theorem writeResponse_scores (fn : Nat) (m : Mailbox) (r : Response) (s : State) : (writeResponse fn m r s).scores = s.scores := by
  unfold writeResponse
  (try dsimp only)
  (repeat' split) <;> simp
@[simp] theorem writeResponse_resident (fn : Nat) (m : Mailbox) (r : Response) (s : State) : (writeResponse fn m r s).resident = s.resident := by
  unfold writeResponse
  (try dsimp only)
  (repeat' split) <;> simp
@[simp] theorem writeResponse_sched (fn : Nat) (m : Mailbox) (r : Response) (s : State) : (writeResponse fn m r s).sched = s.sched := by
  unfold writeResponse
  (try dsimp only)
  (repeat' split) <;> simp
@[simp] theorem writeResponse_staged (fn : Nat) (m : Mailbox) (r : Response) (s : State) : (writeResponse fn m r s).staged = s.staged := by
  unfold writeResponse
  (try dsimp only)
  (repeat' split) <;> simp
@[simp] theorem writeResponse_preempt (fn : Nat) (m : Mailbox) (r : Response) (s : State) : (writeResponse fn m r s).preempt = s.preempt := by
  unfold writeResponse
  (try dsimp only)
  (repeat' split) <;> simp
@[simp] theorem writeResponse_groups (fn : Nat) (m : Mailbox) (r : Response) (s : State) : (writeResponse fn m r s).groups = s.groups := by
  unfold writeResponse
  (try dsimp only)
  (repeat' split) <;> simp
@[simp] theorem writeResponse_fabric (fn : Nat) (m : Mailbox) (r : Response) (s : State) : (writeResponse fn m r s).fabric = s.fabric := by
  unfold writeResponse
  (try dsimp only)
  (repeat' split) <;> simp
@[simp] theorem writeResponse_codec (fn : Nat) (m : Mailbox) (r : Response) (s : State) : (writeResponse fn m r s).codec = s.codec := by
  unfold writeResponse
  (try dsimp only)
  (repeat' split) <;> simp
@[simp] theorem writeResponse_power (fn : Nat) (m : Mailbox) (r : Response) (s : State) : (writeResponse fn m r s).power = s.power := by
  unfold writeResponse
  (try dsimp only)
  (repeat' split) <;> simp
@[simp] theorem writeResponse_sec (fn : Nat) (m : Mailbox) (r : Response) (s : State) : (writeResponse fn m r s).sec = s.sec := by
  unfold writeResponse
  (try dsimp only)
  (repeat' split) <;> simp
@[simp] theorem writeResponse_log (fn : Nat) (m : Mailbox) (r : Response) (s : State) : (writeResponse fn m r s).log = s.log := by
  unfold writeResponse
  (try dsimp only)
  (repeat' split) <;> simp
@[simp] theorem writeResponse_test (fn : Nat) (m : Mailbox) (r : Response) (s : State) : (writeResponse fn m r s).test = s.test := by
  unfold writeResponse
  (try dsimp only)
  (repeat' split) <;> simp
@[simp] theorem writeResponse_bar2Held (fn : Nat) (m : Mailbox) (r : Response) (s : State) : (writeResponse fn m r s).bar2Held = s.bar2Held := by
  unfold writeResponse
  (try dsimp only)
  (repeat' split) <;> simp
@[simp] theorem writeResponse_doorbells (fn : Nat) (m : Mailbox) (r : Response) (s : State) : (writeResponse fn m r s).doorbells = s.doorbells := by
  unfold writeResponse
  (try dsimp only)
  (repeat' split) <;> simp
@[simp] theorem writeResponse_lastCaller (fn : Nat) (m : Mailbox) (r : Response) (s : State) : (writeResponse fn m r s).lastCaller = s.lastCaller := by
  unfold writeResponse
  (try dsimp only)
  (repeat' split) <;> simp

/-! ## postResponse -/

@[simp] theorem postResponse_pending (fn : Nat) (r : Response) (s : State) : (postResponse fn r s).pending = s.pending := by
  unfold postResponse
  (try dsimp only)
  (repeat' split) <;> simp
@[simp] theorem postResponse_time (fn : Nat) (r : Response) (s : State) : (postResponse fn r s).time = s.time := by
  unfold postResponse
  (try dsimp only)
  (repeat' split) <;> simp
@[simp] theorem postResponse_fresh (fn : Nat) (r : Response) (s : State) : (postResponse fn r s).fresh = s.fresh := by
  unfold postResponse
  (try dsimp only)
  (repeat' split) <;> simp
@[simp] theorem postResponse_fuses (fn : Nat) (r : Response) (s : State) : (postResponse fn r s).fuses = s.fuses := by
  unfold postResponse
  (try dsimp only)
  (repeat' split) <;> simp
@[simp] theorem postResponse_pins (fn : Nat) (r : Response) (s : State) : (postResponse fn r s).pins = s.pins := by
  unfold postResponse
  (try dsimp only)
  (repeat' split) <;> simp
@[simp] theorem postResponse_fw (fn : Nat) (r : Response) (s : State) : (postResponse fn r s).fw = s.fw := by
  unfold postResponse
  (try dsimp only)
  (repeat' split) <;> simp
@[simp] theorem postResponse_pcie (fn : Nat) (r : Response) (s : State) : (postResponse fn r s).pcie = s.pcie := by
  unfold postResponse
  (try dsimp only)
  (repeat' split) <;> simp
@[simp] theorem postResponse_mem (fn : Nat) (r : Response) (s : State) : (postResponse fn r s).mem = s.mem := by
  unfold postResponse
  (try dsimp only)
  (repeat' split) <;> simp
@[simp] theorem postResponse_channels (fn : Nat) (r : Response) (s : State) : (postResponse fn r s).channels = s.channels := by
  unfold postResponse
  (try dsimp only)
  (repeat' split) <;> simp
@[simp] theorem postResponse_inv (fn : Nat) (r : Response) (s : State) : (postResponse fn r s).inv = s.inv := by
  unfold postResponse
  (try dsimp only)
  (repeat' split) <;> simp
@[simp] theorem postResponse_cores (fn : Nat) (r : Response) (s : State) : (postResponse fn r s).cores = s.cores := by
  unfold postResponse
  (try dsimp only)
  (repeat' split) <;> simp
@[simp] theorem postResponse_chips (fn : Nat) (r : Response) (s : State) : (postResponse fn r s).chips = s.chips := by
  unfold postResponse
  (try dsimp only)
  (repeat' split) <;> simp
@[simp] theorem postResponse_chipFetch (fn : Nat) (r : Response) (s : State) : (postResponse fn r s).chipFetch = s.chipFetch := by
  unfold postResponse
  (try dsimp only)
  (repeat' split) <;> simp
@[simp] theorem postResponse_gathers (fn : Nat) (r : Response) (s : State) : (postResponse fn r s).gathers = s.gathers := by
  unfold postResponse
  (try dsimp only)
  (repeat' split) <;> simp
@[simp] theorem postResponse_tables (fn : Nat) (r : Response) (s : State) : (postResponse fn r s).tables = s.tables := by
  unfold postResponse
  (try dsimp only)
  (repeat' split) <;> simp
@[simp] theorem postResponse_scores (fn : Nat) (r : Response) (s : State) : (postResponse fn r s).scores = s.scores := by
  unfold postResponse
  (try dsimp only)
  (repeat' split) <;> simp
@[simp] theorem postResponse_resident (fn : Nat) (r : Response) (s : State) : (postResponse fn r s).resident = s.resident := by
  unfold postResponse
  (try dsimp only)
  (repeat' split) <;> simp
@[simp] theorem postResponse_sched (fn : Nat) (r : Response) (s : State) : (postResponse fn r s).sched = s.sched := by
  unfold postResponse
  (try dsimp only)
  (repeat' split) <;> simp
@[simp] theorem postResponse_staged (fn : Nat) (r : Response) (s : State) : (postResponse fn r s).staged = s.staged := by
  unfold postResponse
  (try dsimp only)
  (repeat' split) <;> simp
@[simp] theorem postResponse_preempt (fn : Nat) (r : Response) (s : State) : (postResponse fn r s).preempt = s.preempt := by
  unfold postResponse
  (try dsimp only)
  (repeat' split) <;> simp
@[simp] theorem postResponse_groups (fn : Nat) (r : Response) (s : State) : (postResponse fn r s).groups = s.groups := by
  unfold postResponse
  (try dsimp only)
  (repeat' split) <;> simp
@[simp] theorem postResponse_fabric (fn : Nat) (r : Response) (s : State) : (postResponse fn r s).fabric = s.fabric := by
  unfold postResponse
  (try dsimp only)
  (repeat' split) <;> simp
@[simp] theorem postResponse_codec (fn : Nat) (r : Response) (s : State) : (postResponse fn r s).codec = s.codec := by
  unfold postResponse
  (try dsimp only)
  (repeat' split) <;> simp
@[simp] theorem postResponse_power (fn : Nat) (r : Response) (s : State) : (postResponse fn r s).power = s.power := by
  unfold postResponse
  (try dsimp only)
  (repeat' split) <;> simp
@[simp] theorem postResponse_sec (fn : Nat) (r : Response) (s : State) : (postResponse fn r s).sec = s.sec := by
  unfold postResponse
  (try dsimp only)
  (repeat' split) <;> simp
@[simp] theorem postResponse_log (fn : Nat) (r : Response) (s : State) : (postResponse fn r s).log = s.log := by
  unfold postResponse
  (try dsimp only)
  (repeat' split) <;> simp
@[simp] theorem postResponse_test (fn : Nat) (r : Response) (s : State) : (postResponse fn r s).test = s.test := by
  unfold postResponse
  (try dsimp only)
  (repeat' split) <;> simp
@[simp] theorem postResponse_bar2Held (fn : Nat) (r : Response) (s : State) : (postResponse fn r s).bar2Held = s.bar2Held := by
  unfold postResponse
  (try dsimp only)
  (repeat' split) <;> simp
@[simp] theorem postResponse_doorbells (fn : Nat) (r : Response) (s : State) : (postResponse fn r s).doorbells = s.doorbells := by
  unfold postResponse
  (try dsimp only)
  (repeat' split) <;> simp
@[simp] theorem postResponse_lastCaller (fn : Nat) (r : Response) (s : State) : (postResponse fn r s).lastCaller = s.lastCaller := by
  unfold postResponse
  (try dsimp only)
  (repeat' split) <;> simp

/-! ## respond -/

@[simp] theorem respond_pending (fn : Nat) (tag : Word) (op : Nat) (st : Status) (res : Nat) (s : State) : (respond fn tag op st res s).pending = s.pending := by
  unfold respond
  (try dsimp only)
  (repeat' split) <;> simp
@[simp] theorem respond_time (fn : Nat) (tag : Word) (op : Nat) (st : Status) (res : Nat) (s : State) : (respond fn tag op st res s).time = s.time := by
  unfold respond
  (try dsimp only)
  (repeat' split) <;> simp
@[simp] theorem respond_fresh (fn : Nat) (tag : Word) (op : Nat) (st : Status) (res : Nat) (s : State) : (respond fn tag op st res s).fresh = s.fresh := by
  unfold respond
  (try dsimp only)
  (repeat' split) <;> simp
@[simp] theorem respond_fuses (fn : Nat) (tag : Word) (op : Nat) (st : Status) (res : Nat) (s : State) : (respond fn tag op st res s).fuses = s.fuses := by
  unfold respond
  (try dsimp only)
  (repeat' split) <;> simp
@[simp] theorem respond_pins (fn : Nat) (tag : Word) (op : Nat) (st : Status) (res : Nat) (s : State) : (respond fn tag op st res s).pins = s.pins := by
  unfold respond
  (try dsimp only)
  (repeat' split) <;> simp
@[simp] theorem respond_fw (fn : Nat) (tag : Word) (op : Nat) (st : Status) (res : Nat) (s : State) : (respond fn tag op st res s).fw = s.fw := by
  unfold respond
  (try dsimp only)
  (repeat' split) <;> simp
@[simp] theorem respond_pcie (fn : Nat) (tag : Word) (op : Nat) (st : Status) (res : Nat) (s : State) : (respond fn tag op st res s).pcie = s.pcie := by
  unfold respond
  (try dsimp only)
  (repeat' split) <;> simp
@[simp] theorem respond_mem (fn : Nat) (tag : Word) (op : Nat) (st : Status) (res : Nat) (s : State) : (respond fn tag op st res s).mem = s.mem := by
  unfold respond
  (try dsimp only)
  (repeat' split) <;> simp
@[simp] theorem respond_channels (fn : Nat) (tag : Word) (op : Nat) (st : Status) (res : Nat) (s : State) : (respond fn tag op st res s).channels = s.channels := by
  unfold respond
  (try dsimp only)
  (repeat' split) <;> simp
@[simp] theorem respond_inv (fn : Nat) (tag : Word) (op : Nat) (st : Status) (res : Nat) (s : State) : (respond fn tag op st res s).inv = s.inv := by
  unfold respond
  (try dsimp only)
  (repeat' split) <;> simp
@[simp] theorem respond_cores (fn : Nat) (tag : Word) (op : Nat) (st : Status) (res : Nat) (s : State) : (respond fn tag op st res s).cores = s.cores := by
  unfold respond
  (try dsimp only)
  (repeat' split) <;> simp
@[simp] theorem respond_chips (fn : Nat) (tag : Word) (op : Nat) (st : Status) (res : Nat) (s : State) : (respond fn tag op st res s).chips = s.chips := by
  unfold respond
  (try dsimp only)
  (repeat' split) <;> simp
@[simp] theorem respond_chipFetch (fn : Nat) (tag : Word) (op : Nat) (st : Status) (res : Nat) (s : State) : (respond fn tag op st res s).chipFetch = s.chipFetch := by
  unfold respond
  (try dsimp only)
  (repeat' split) <;> simp
@[simp] theorem respond_gathers (fn : Nat) (tag : Word) (op : Nat) (st : Status) (res : Nat) (s : State) : (respond fn tag op st res s).gathers = s.gathers := by
  unfold respond
  (try dsimp only)
  (repeat' split) <;> simp
@[simp] theorem respond_tables (fn : Nat) (tag : Word) (op : Nat) (st : Status) (res : Nat) (s : State) : (respond fn tag op st res s).tables = s.tables := by
  unfold respond
  (try dsimp only)
  (repeat' split) <;> simp
@[simp] theorem respond_scores (fn : Nat) (tag : Word) (op : Nat) (st : Status) (res : Nat) (s : State) : (respond fn tag op st res s).scores = s.scores := by
  unfold respond
  (try dsimp only)
  (repeat' split) <;> simp
@[simp] theorem respond_resident (fn : Nat) (tag : Word) (op : Nat) (st : Status) (res : Nat) (s : State) : (respond fn tag op st res s).resident = s.resident := by
  unfold respond
  (try dsimp only)
  (repeat' split) <;> simp
@[simp] theorem respond_sched (fn : Nat) (tag : Word) (op : Nat) (st : Status) (res : Nat) (s : State) : (respond fn tag op st res s).sched = s.sched := by
  unfold respond
  (try dsimp only)
  (repeat' split) <;> simp
@[simp] theorem respond_staged (fn : Nat) (tag : Word) (op : Nat) (st : Status) (res : Nat) (s : State) : (respond fn tag op st res s).staged = s.staged := by
  unfold respond
  (try dsimp only)
  (repeat' split) <;> simp
@[simp] theorem respond_preempt (fn : Nat) (tag : Word) (op : Nat) (st : Status) (res : Nat) (s : State) : (respond fn tag op st res s).preempt = s.preempt := by
  unfold respond
  (try dsimp only)
  (repeat' split) <;> simp
@[simp] theorem respond_groups (fn : Nat) (tag : Word) (op : Nat) (st : Status) (res : Nat) (s : State) : (respond fn tag op st res s).groups = s.groups := by
  unfold respond
  (try dsimp only)
  (repeat' split) <;> simp
@[simp] theorem respond_fabric (fn : Nat) (tag : Word) (op : Nat) (st : Status) (res : Nat) (s : State) : (respond fn tag op st res s).fabric = s.fabric := by
  unfold respond
  (try dsimp only)
  (repeat' split) <;> simp
@[simp] theorem respond_codec (fn : Nat) (tag : Word) (op : Nat) (st : Status) (res : Nat) (s : State) : (respond fn tag op st res s).codec = s.codec := by
  unfold respond
  (try dsimp only)
  (repeat' split) <;> simp
@[simp] theorem respond_power (fn : Nat) (tag : Word) (op : Nat) (st : Status) (res : Nat) (s : State) : (respond fn tag op st res s).power = s.power := by
  unfold respond
  (try dsimp only)
  (repeat' split) <;> simp
@[simp] theorem respond_sec (fn : Nat) (tag : Word) (op : Nat) (st : Status) (res : Nat) (s : State) : (respond fn tag op st res s).sec = s.sec := by
  unfold respond
  (try dsimp only)
  (repeat' split) <;> simp
@[simp] theorem respond_log (fn : Nat) (tag : Word) (op : Nat) (st : Status) (res : Nat) (s : State) : (respond fn tag op st res s).log = s.log := by
  unfold respond
  (try dsimp only)
  (repeat' split) <;> simp
@[simp] theorem respond_test (fn : Nat) (tag : Word) (op : Nat) (st : Status) (res : Nat) (s : State) : (respond fn tag op st res s).test = s.test := by
  unfold respond
  (try dsimp only)
  (repeat' split) <;> simp
@[simp] theorem respond_bar2Held (fn : Nat) (tag : Word) (op : Nat) (st : Status) (res : Nat) (s : State) : (respond fn tag op st res s).bar2Held = s.bar2Held := by
  unfold respond
  (try dsimp only)
  (repeat' split) <;> simp
@[simp] theorem respond_doorbells (fn : Nat) (tag : Word) (op : Nat) (st : Status) (res : Nat) (s : State) : (respond fn tag op st res s).doorbells = s.doorbells := by
  unfold respond
  (try dsimp only)
  (repeat' split) <;> simp
@[simp] theorem respond_lastCaller (fn : Nat) (tag : Word) (op : Nat) (st : Status) (res : Nat) (s : State) : (respond fn tag op st res s).lastCaller = s.lastCaller := by
  unfold respond
  (try dsimp only)
  (repeat' split) <;> simp

/-! ## takeRequest -/

@[simp] theorem takeRequest_pending (fn : Nat) (s : State) : (takeRequest fn s).pending = s.pending := by
  unfold takeRequest
  (try dsimp only)
  (repeat' split) <;> simp
@[simp] theorem takeRequest_time (fn : Nat) (s : State) : (takeRequest fn s).time = s.time := by
  unfold takeRequest
  (try dsimp only)
  (repeat' split) <;> simp
@[simp] theorem takeRequest_fresh (fn : Nat) (s : State) : (takeRequest fn s).fresh = s.fresh := by
  unfold takeRequest
  (try dsimp only)
  (repeat' split) <;> simp
@[simp] theorem takeRequest_fuses (fn : Nat) (s : State) : (takeRequest fn s).fuses = s.fuses := by
  unfold takeRequest
  (try dsimp only)
  (repeat' split) <;> simp
@[simp] theorem takeRequest_pins (fn : Nat) (s : State) : (takeRequest fn s).pins = s.pins := by
  unfold takeRequest
  (try dsimp only)
  (repeat' split) <;> simp
@[simp] theorem takeRequest_fw (fn : Nat) (s : State) : (takeRequest fn s).fw = s.fw := by
  unfold takeRequest
  (try dsimp only)
  (repeat' split) <;> simp
@[simp] theorem takeRequest_pcie (fn : Nat) (s : State) : (takeRequest fn s).pcie = s.pcie := by
  unfold takeRequest
  (try dsimp only)
  (repeat' split) <;> simp
@[simp] theorem takeRequest_mem (fn : Nat) (s : State) : (takeRequest fn s).mem = s.mem := by
  unfold takeRequest
  (try dsimp only)
  (repeat' split) <;> simp
@[simp] theorem takeRequest_host (fn : Nat) (s : State) : (takeRequest fn s).host = s.host := by
  unfold takeRequest
  (try dsimp only)
  (repeat' split) <;> simp
@[simp] theorem takeRequest_channels (fn : Nat) (s : State) : (takeRequest fn s).channels = s.channels := by
  unfold takeRequest
  (try dsimp only)
  (repeat' split) <;> simp
@[simp] theorem takeRequest_inv (fn : Nat) (s : State) : (takeRequest fn s).inv = s.inv := by
  unfold takeRequest
  (try dsimp only)
  (repeat' split) <;> simp
@[simp] theorem takeRequest_cores (fn : Nat) (s : State) : (takeRequest fn s).cores = s.cores := by
  unfold takeRequest
  (try dsimp only)
  (repeat' split) <;> simp
@[simp] theorem takeRequest_chips (fn : Nat) (s : State) : (takeRequest fn s).chips = s.chips := by
  unfold takeRequest
  (try dsimp only)
  (repeat' split) <;> simp
@[simp] theorem takeRequest_chipFetch (fn : Nat) (s : State) : (takeRequest fn s).chipFetch = s.chipFetch := by
  unfold takeRequest
  (try dsimp only)
  (repeat' split) <;> simp
@[simp] theorem takeRequest_gathers (fn : Nat) (s : State) : (takeRequest fn s).gathers = s.gathers := by
  unfold takeRequest
  (try dsimp only)
  (repeat' split) <;> simp
@[simp] theorem takeRequest_tables (fn : Nat) (s : State) : (takeRequest fn s).tables = s.tables := by
  unfold takeRequest
  (try dsimp only)
  (repeat' split) <;> simp
@[simp] theorem takeRequest_scores (fn : Nat) (s : State) : (takeRequest fn s).scores = s.scores := by
  unfold takeRequest
  (try dsimp only)
  (repeat' split) <;> simp
@[simp] theorem takeRequest_resident (fn : Nat) (s : State) : (takeRequest fn s).resident = s.resident := by
  unfold takeRequest
  (try dsimp only)
  (repeat' split) <;> simp
@[simp] theorem takeRequest_sched (fn : Nat) (s : State) : (takeRequest fn s).sched = s.sched := by
  unfold takeRequest
  (try dsimp only)
  (repeat' split) <;> simp
@[simp] theorem takeRequest_staged (fn : Nat) (s : State) : (takeRequest fn s).staged = s.staged := by
  unfold takeRequest
  (try dsimp only)
  (repeat' split) <;> simp
@[simp] theorem takeRequest_preempt (fn : Nat) (s : State) : (takeRequest fn s).preempt = s.preempt := by
  unfold takeRequest
  (try dsimp only)
  (repeat' split) <;> simp
@[simp] theorem takeRequest_groups (fn : Nat) (s : State) : (takeRequest fn s).groups = s.groups := by
  unfold takeRequest
  (try dsimp only)
  (repeat' split) <;> simp
@[simp] theorem takeRequest_fabric (fn : Nat) (s : State) : (takeRequest fn s).fabric = s.fabric := by
  unfold takeRequest
  (try dsimp only)
  (repeat' split) <;> simp
@[simp] theorem takeRequest_codec (fn : Nat) (s : State) : (takeRequest fn s).codec = s.codec := by
  unfold takeRequest
  (try dsimp only)
  (repeat' split) <;> simp
@[simp] theorem takeRequest_power (fn : Nat) (s : State) : (takeRequest fn s).power = s.power := by
  unfold takeRequest
  (try dsimp only)
  (repeat' split) <;> simp
@[simp] theorem takeRequest_sec (fn : Nat) (s : State) : (takeRequest fn s).sec = s.sec := by
  unfold takeRequest
  (try dsimp only)
  (repeat' split) <;> simp
@[simp] theorem takeRequest_log (fn : Nat) (s : State) : (takeRequest fn s).log = s.log := by
  unfold takeRequest
  (try dsimp only)
  (repeat' split) <;> simp
@[simp] theorem takeRequest_test (fn : Nat) (s : State) : (takeRequest fn s).test = s.test := by
  unfold takeRequest
  (try dsimp only)
  (repeat' split) <;> simp
@[simp] theorem takeRequest_bar2Held (fn : Nat) (s : State) : (takeRequest fn s).bar2Held = s.bar2Held := by
  unfold takeRequest
  (try dsimp only)
  (repeat' split) <;> simp
@[simp] theorem takeRequest_doorbells (fn : Nat) (s : State) : (takeRequest fn s).doorbells = s.doorbells := by
  unfold takeRequest
  (try dsimp only)
  (repeat' split) <;> simp
@[simp] theorem takeRequest_out (fn : Nat) (s : State) : (takeRequest fn s).out = s.out := by
  unfold takeRequest
  (try dsimp only)
  (repeat' split) <;> simp

/-! ## countEnd -/

@[simp] theorem countEnd_pending (fn q : Nat) (ok : Bool) (j : Job) (s : State) : (countEnd fn q ok j s).pending = s.pending := by
  unfold countEnd
  (try dsimp only)
  (repeat' split) <;> simp
@[simp] theorem countEnd_time (fn q : Nat) (ok : Bool) (j : Job) (s : State) : (countEnd fn q ok j s).time = s.time := by
  unfold countEnd
  (try dsimp only)
  (repeat' split) <;> simp
@[simp] theorem countEnd_fresh (fn q : Nat) (ok : Bool) (j : Job) (s : State) : (countEnd fn q ok j s).fresh = s.fresh := by
  unfold countEnd
  (try dsimp only)
  (repeat' split) <;> simp
@[simp] theorem countEnd_fuses (fn q : Nat) (ok : Bool) (j : Job) (s : State) : (countEnd fn q ok j s).fuses = s.fuses := by
  unfold countEnd
  (try dsimp only)
  (repeat' split) <;> simp
@[simp] theorem countEnd_pins (fn q : Nat) (ok : Bool) (j : Job) (s : State) : (countEnd fn q ok j s).pins = s.pins := by
  unfold countEnd
  (try dsimp only)
  (repeat' split) <;> simp
@[simp] theorem countEnd_fw (fn q : Nat) (ok : Bool) (j : Job) (s : State) : (countEnd fn q ok j s).fw = s.fw := by
  unfold countEnd
  (try dsimp only)
  (repeat' split) <;> simp
@[simp] theorem countEnd_pcie (fn q : Nat) (ok : Bool) (j : Job) (s : State) : (countEnd fn q ok j s).pcie = s.pcie := by
  unfold countEnd
  (try dsimp only)
  (repeat' split) <;> simp
@[simp] theorem countEnd_mem (fn q : Nat) (ok : Bool) (j : Job) (s : State) : (countEnd fn q ok j s).mem = s.mem := by
  unfold countEnd
  (try dsimp only)
  (repeat' split) <;> simp
@[simp] theorem countEnd_host (fn q : Nat) (ok : Bool) (j : Job) (s : State) : (countEnd fn q ok j s).host = s.host := by
  unfold countEnd
  (try dsimp only)
  (repeat' split) <;> simp
@[simp] theorem countEnd_channels (fn q : Nat) (ok : Bool) (j : Job) (s : State) : (countEnd fn q ok j s).channels = s.channels := by
  unfold countEnd
  (try dsimp only)
  (repeat' split) <;> simp
@[simp] theorem countEnd_inv (fn q : Nat) (ok : Bool) (j : Job) (s : State) : (countEnd fn q ok j s).inv = s.inv := by
  unfold countEnd
  (try dsimp only)
  (repeat' split) <;> simp
@[simp] theorem countEnd_cores (fn q : Nat) (ok : Bool) (j : Job) (s : State) : (countEnd fn q ok j s).cores = s.cores := by
  unfold countEnd
  (try dsimp only)
  (repeat' split) <;> simp
@[simp] theorem countEnd_chips (fn q : Nat) (ok : Bool) (j : Job) (s : State) : (countEnd fn q ok j s).chips = s.chips := by
  unfold countEnd
  (try dsimp only)
  (repeat' split) <;> simp
@[simp] theorem countEnd_chipFetch (fn q : Nat) (ok : Bool) (j : Job) (s : State) : (countEnd fn q ok j s).chipFetch = s.chipFetch := by
  unfold countEnd
  (try dsimp only)
  (repeat' split) <;> simp
@[simp] theorem countEnd_gathers (fn q : Nat) (ok : Bool) (j : Job) (s : State) : (countEnd fn q ok j s).gathers = s.gathers := by
  unfold countEnd
  (try dsimp only)
  (repeat' split) <;> simp
@[simp] theorem countEnd_tables (fn q : Nat) (ok : Bool) (j : Job) (s : State) : (countEnd fn q ok j s).tables = s.tables := by
  unfold countEnd
  (try dsimp only)
  (repeat' split) <;> simp
@[simp] theorem countEnd_scores (fn q : Nat) (ok : Bool) (j : Job) (s : State) : (countEnd fn q ok j s).scores = s.scores := by
  unfold countEnd
  (try dsimp only)
  (repeat' split) <;> simp
@[simp] theorem countEnd_resident (fn q : Nat) (ok : Bool) (j : Job) (s : State) : (countEnd fn q ok j s).resident = s.resident := by
  unfold countEnd
  (try dsimp only)
  (repeat' split) <;> simp
@[simp] theorem countEnd_staged (fn q : Nat) (ok : Bool) (j : Job) (s : State) : (countEnd fn q ok j s).staged = s.staged := by
  unfold countEnd
  (try dsimp only)
  (repeat' split) <;> simp
@[simp] theorem countEnd_preempt (fn q : Nat) (ok : Bool) (j : Job) (s : State) : (countEnd fn q ok j s).preempt = s.preempt := by
  unfold countEnd
  (try dsimp only)
  (repeat' split) <;> simp
@[simp] theorem countEnd_groups (fn q : Nat) (ok : Bool) (j : Job) (s : State) : (countEnd fn q ok j s).groups = s.groups := by
  unfold countEnd
  (try dsimp only)
  (repeat' split) <;> simp
@[simp] theorem countEnd_fabric (fn q : Nat) (ok : Bool) (j : Job) (s : State) : (countEnd fn q ok j s).fabric = s.fabric := by
  unfold countEnd
  (try dsimp only)
  (repeat' split) <;> simp
@[simp] theorem countEnd_codec (fn q : Nat) (ok : Bool) (j : Job) (s : State) : (countEnd fn q ok j s).codec = s.codec := by
  unfold countEnd
  (try dsimp only)
  (repeat' split) <;> simp
@[simp] theorem countEnd_power (fn q : Nat) (ok : Bool) (j : Job) (s : State) : (countEnd fn q ok j s).power = s.power := by
  unfold countEnd
  (try dsimp only)
  (repeat' split) <;> simp
@[simp] theorem countEnd_sec (fn q : Nat) (ok : Bool) (j : Job) (s : State) : (countEnd fn q ok j s).sec = s.sec := by
  unfold countEnd
  (try dsimp only)
  (repeat' split) <;> simp
@[simp] theorem countEnd_log (fn q : Nat) (ok : Bool) (j : Job) (s : State) : (countEnd fn q ok j s).log = s.log := by
  unfold countEnd
  (try dsimp only)
  (repeat' split) <;> simp
@[simp] theorem countEnd_test (fn q : Nat) (ok : Bool) (j : Job) (s : State) : (countEnd fn q ok j s).test = s.test := by
  unfold countEnd
  (try dsimp only)
  (repeat' split) <;> simp
@[simp] theorem countEnd_bar2Held (fn q : Nat) (ok : Bool) (j : Job) (s : State) : (countEnd fn q ok j s).bar2Held = s.bar2Held := by
  unfold countEnd
  (try dsimp only)
  (repeat' split) <;> simp
@[simp] theorem countEnd_doorbells (fn q : Nat) (ok : Bool) (j : Job) (s : State) : (countEnd fn q ok j s).doorbells = s.doorbells := by
  unfold countEnd
  (try dsimp only)
  (repeat' split) <;> simp
@[simp] theorem countEnd_lastCaller (fn q : Nat) (ok : Bool) (j : Job) (s : State) : (countEnd fn q ok j s).lastCaller = s.lastCaller := by
  unfold countEnd
  (try dsimp only)
  (repeat' split) <;> simp
@[simp] theorem countEnd_out (fn q : Nat) (ok : Bool) (j : Job) (s : State) : (countEnd fn q ok j s).out = s.out := by
  unfold countEnd
  (try dsimp only)
  (repeat' split) <;> simp

/-! ## writeRecord -/

@[simp] theorem writeRecord_pending (fn q : Nat) (k : JobQueue) (r : Record) (s : State) : (writeRecord fn q k r s).pending = s.pending := by
  unfold writeRecord
  (try dsimp only)
  (repeat' split) <;> simp
@[simp] theorem writeRecord_time (fn q : Nat) (k : JobQueue) (r : Record) (s : State) : (writeRecord fn q k r s).time = s.time := by
  unfold writeRecord
  (try dsimp only)
  (repeat' split) <;> simp
@[simp] theorem writeRecord_fresh (fn q : Nat) (k : JobQueue) (r : Record) (s : State) : (writeRecord fn q k r s).fresh = s.fresh := by
  unfold writeRecord
  (try dsimp only)
  (repeat' split) <;> simp
@[simp] theorem writeRecord_fuses (fn q : Nat) (k : JobQueue) (r : Record) (s : State) : (writeRecord fn q k r s).fuses = s.fuses := by
  unfold writeRecord
  (try dsimp only)
  (repeat' split) <;> simp
@[simp] theorem writeRecord_pins (fn q : Nat) (k : JobQueue) (r : Record) (s : State) : (writeRecord fn q k r s).pins = s.pins := by
  unfold writeRecord
  (try dsimp only)
  (repeat' split) <;> simp
@[simp] theorem writeRecord_fw (fn q : Nat) (k : JobQueue) (r : Record) (s : State) : (writeRecord fn q k r s).fw = s.fw := by
  unfold writeRecord
  (try dsimp only)
  (repeat' split) <;> simp
@[simp] theorem writeRecord_pcie (fn q : Nat) (k : JobQueue) (r : Record) (s : State) : (writeRecord fn q k r s).pcie = s.pcie := by
  unfold writeRecord
  (try dsimp only)
  (repeat' split) <;> simp
@[simp] theorem writeRecord_mem (fn q : Nat) (k : JobQueue) (r : Record) (s : State) : (writeRecord fn q k r s).mem = s.mem := by
  unfold writeRecord
  (try dsimp only)
  (repeat' split) <;> simp
@[simp] theorem writeRecord_channels (fn q : Nat) (k : JobQueue) (r : Record) (s : State) : (writeRecord fn q k r s).channels = s.channels := by
  unfold writeRecord
  (try dsimp only)
  (repeat' split) <;> simp
@[simp] theorem writeRecord_inv (fn q : Nat) (k : JobQueue) (r : Record) (s : State) : (writeRecord fn q k r s).inv = s.inv := by
  unfold writeRecord
  (try dsimp only)
  (repeat' split) <;> simp
@[simp] theorem writeRecord_cores (fn q : Nat) (k : JobQueue) (r : Record) (s : State) : (writeRecord fn q k r s).cores = s.cores := by
  unfold writeRecord
  (try dsimp only)
  (repeat' split) <;> simp
@[simp] theorem writeRecord_chips (fn q : Nat) (k : JobQueue) (r : Record) (s : State) : (writeRecord fn q k r s).chips = s.chips := by
  unfold writeRecord
  (try dsimp only)
  (repeat' split) <;> simp
@[simp] theorem writeRecord_chipFetch (fn q : Nat) (k : JobQueue) (r : Record) (s : State) : (writeRecord fn q k r s).chipFetch = s.chipFetch := by
  unfold writeRecord
  (try dsimp only)
  (repeat' split) <;> simp
@[simp] theorem writeRecord_gathers (fn q : Nat) (k : JobQueue) (r : Record) (s : State) : (writeRecord fn q k r s).gathers = s.gathers := by
  unfold writeRecord
  (try dsimp only)
  (repeat' split) <;> simp
@[simp] theorem writeRecord_tables (fn q : Nat) (k : JobQueue) (r : Record) (s : State) : (writeRecord fn q k r s).tables = s.tables := by
  unfold writeRecord
  (try dsimp only)
  (repeat' split) <;> simp
@[simp] theorem writeRecord_scores (fn q : Nat) (k : JobQueue) (r : Record) (s : State) : (writeRecord fn q k r s).scores = s.scores := by
  unfold writeRecord
  (try dsimp only)
  (repeat' split) <;> simp
@[simp] theorem writeRecord_resident (fn q : Nat) (k : JobQueue) (r : Record) (s : State) : (writeRecord fn q k r s).resident = s.resident := by
  unfold writeRecord
  (try dsimp only)
  (repeat' split) <;> simp
@[simp] theorem writeRecord_staged (fn q : Nat) (k : JobQueue) (r : Record) (s : State) : (writeRecord fn q k r s).staged = s.staged := by
  unfold writeRecord
  (try dsimp only)
  (repeat' split) <;> simp
@[simp] theorem writeRecord_preempt (fn q : Nat) (k : JobQueue) (r : Record) (s : State) : (writeRecord fn q k r s).preempt = s.preempt := by
  unfold writeRecord
  (try dsimp only)
  (repeat' split) <;> simp
@[simp] theorem writeRecord_groups (fn q : Nat) (k : JobQueue) (r : Record) (s : State) : (writeRecord fn q k r s).groups = s.groups := by
  unfold writeRecord
  (try dsimp only)
  (repeat' split) <;> simp
@[simp] theorem writeRecord_fabric (fn q : Nat) (k : JobQueue) (r : Record) (s : State) : (writeRecord fn q k r s).fabric = s.fabric := by
  unfold writeRecord
  (try dsimp only)
  (repeat' split) <;> simp
@[simp] theorem writeRecord_codec (fn q : Nat) (k : JobQueue) (r : Record) (s : State) : (writeRecord fn q k r s).codec = s.codec := by
  unfold writeRecord
  (try dsimp only)
  (repeat' split) <;> simp
@[simp] theorem writeRecord_power (fn q : Nat) (k : JobQueue) (r : Record) (s : State) : (writeRecord fn q k r s).power = s.power := by
  unfold writeRecord
  (try dsimp only)
  (repeat' split) <;> simp
@[simp] theorem writeRecord_sec (fn q : Nat) (k : JobQueue) (r : Record) (s : State) : (writeRecord fn q k r s).sec = s.sec := by
  unfold writeRecord
  (try dsimp only)
  (repeat' split) <;> simp
@[simp] theorem writeRecord_log (fn q : Nat) (k : JobQueue) (r : Record) (s : State) : (writeRecord fn q k r s).log = s.log := by
  unfold writeRecord
  (try dsimp only)
  (repeat' split) <;> simp
@[simp] theorem writeRecord_test (fn q : Nat) (k : JobQueue) (r : Record) (s : State) : (writeRecord fn q k r s).test = s.test := by
  unfold writeRecord
  (try dsimp only)
  (repeat' split) <;> simp
@[simp] theorem writeRecord_bar2Held (fn q : Nat) (k : JobQueue) (r : Record) (s : State) : (writeRecord fn q k r s).bar2Held = s.bar2Held := by
  unfold writeRecord
  (try dsimp only)
  (repeat' split) <;> simp
@[simp] theorem writeRecord_doorbells (fn q : Nat) (k : JobQueue) (r : Record) (s : State) : (writeRecord fn q k r s).doorbells = s.doorbells := by
  unfold writeRecord
  (try dsimp only)
  (repeat' split) <;> simp
@[simp] theorem writeRecord_lastCaller (fn q : Nat) (k : JobQueue) (r : Record) (s : State) : (writeRecord fn q k r s).lastCaller = s.lastCaller := by
  unfold writeRecord
  (try dsimp only)
  (repeat' split) <;> simp

/-! ## postRecord -/

@[simp] theorem postRecord_pending (fn q : Nat) (r : Record) (s : State) : (postRecord fn q r s).pending = s.pending := by
  unfold postRecord
  (try dsimp only)
  (repeat' split) <;> simp
@[simp] theorem postRecord_time (fn q : Nat) (r : Record) (s : State) : (postRecord fn q r s).time = s.time := by
  unfold postRecord
  (try dsimp only)
  (repeat' split) <;> simp
@[simp] theorem postRecord_fresh (fn q : Nat) (r : Record) (s : State) : (postRecord fn q r s).fresh = s.fresh := by
  unfold postRecord
  (try dsimp only)
  (repeat' split) <;> simp
@[simp] theorem postRecord_fuses (fn q : Nat) (r : Record) (s : State) : (postRecord fn q r s).fuses = s.fuses := by
  unfold postRecord
  (try dsimp only)
  (repeat' split) <;> simp
@[simp] theorem postRecord_pins (fn q : Nat) (r : Record) (s : State) : (postRecord fn q r s).pins = s.pins := by
  unfold postRecord
  (try dsimp only)
  (repeat' split) <;> simp
@[simp] theorem postRecord_fw (fn q : Nat) (r : Record) (s : State) : (postRecord fn q r s).fw = s.fw := by
  unfold postRecord
  (try dsimp only)
  (repeat' split) <;> simp
@[simp] theorem postRecord_pcie (fn q : Nat) (r : Record) (s : State) : (postRecord fn q r s).pcie = s.pcie := by
  unfold postRecord
  (try dsimp only)
  (repeat' split) <;> simp
@[simp] theorem postRecord_mem (fn q : Nat) (r : Record) (s : State) : (postRecord fn q r s).mem = s.mem := by
  unfold postRecord
  (try dsimp only)
  (repeat' split) <;> simp
@[simp] theorem postRecord_channels (fn q : Nat) (r : Record) (s : State) : (postRecord fn q r s).channels = s.channels := by
  unfold postRecord
  (try dsimp only)
  (repeat' split) <;> simp
@[simp] theorem postRecord_inv (fn q : Nat) (r : Record) (s : State) : (postRecord fn q r s).inv = s.inv := by
  unfold postRecord
  (try dsimp only)
  (repeat' split) <;> simp
@[simp] theorem postRecord_cores (fn q : Nat) (r : Record) (s : State) : (postRecord fn q r s).cores = s.cores := by
  unfold postRecord
  (try dsimp only)
  (repeat' split) <;> simp
@[simp] theorem postRecord_chips (fn q : Nat) (r : Record) (s : State) : (postRecord fn q r s).chips = s.chips := by
  unfold postRecord
  (try dsimp only)
  (repeat' split) <;> simp
@[simp] theorem postRecord_chipFetch (fn q : Nat) (r : Record) (s : State) : (postRecord fn q r s).chipFetch = s.chipFetch := by
  unfold postRecord
  (try dsimp only)
  (repeat' split) <;> simp
@[simp] theorem postRecord_gathers (fn q : Nat) (r : Record) (s : State) : (postRecord fn q r s).gathers = s.gathers := by
  unfold postRecord
  (try dsimp only)
  (repeat' split) <;> simp
@[simp] theorem postRecord_tables (fn q : Nat) (r : Record) (s : State) : (postRecord fn q r s).tables = s.tables := by
  unfold postRecord
  (try dsimp only)
  (repeat' split) <;> simp
@[simp] theorem postRecord_scores (fn q : Nat) (r : Record) (s : State) : (postRecord fn q r s).scores = s.scores := by
  unfold postRecord
  (try dsimp only)
  (repeat' split) <;> simp
@[simp] theorem postRecord_resident (fn q : Nat) (r : Record) (s : State) : (postRecord fn q r s).resident = s.resident := by
  unfold postRecord
  (try dsimp only)
  (repeat' split) <;> simp
@[simp] theorem postRecord_staged (fn q : Nat) (r : Record) (s : State) : (postRecord fn q r s).staged = s.staged := by
  unfold postRecord
  (try dsimp only)
  (repeat' split) <;> simp
@[simp] theorem postRecord_preempt (fn q : Nat) (r : Record) (s : State) : (postRecord fn q r s).preempt = s.preempt := by
  unfold postRecord
  (try dsimp only)
  (repeat' split) <;> simp
@[simp] theorem postRecord_groups (fn q : Nat) (r : Record) (s : State) : (postRecord fn q r s).groups = s.groups := by
  unfold postRecord
  (try dsimp only)
  (repeat' split) <;> simp
@[simp] theorem postRecord_fabric (fn q : Nat) (r : Record) (s : State) : (postRecord fn q r s).fabric = s.fabric := by
  unfold postRecord
  (try dsimp only)
  (repeat' split) <;> simp
@[simp] theorem postRecord_codec (fn q : Nat) (r : Record) (s : State) : (postRecord fn q r s).codec = s.codec := by
  unfold postRecord
  (try dsimp only)
  (repeat' split) <;> simp
@[simp] theorem postRecord_power (fn q : Nat) (r : Record) (s : State) : (postRecord fn q r s).power = s.power := by
  unfold postRecord
  (try dsimp only)
  (repeat' split) <;> simp
@[simp] theorem postRecord_sec (fn q : Nat) (r : Record) (s : State) : (postRecord fn q r s).sec = s.sec := by
  unfold postRecord
  (try dsimp only)
  (repeat' split) <;> simp
@[simp] theorem postRecord_log (fn q : Nat) (r : Record) (s : State) : (postRecord fn q r s).log = s.log := by
  unfold postRecord
  (try dsimp only)
  (repeat' split) <;> simp
@[simp] theorem postRecord_test (fn q : Nat) (r : Record) (s : State) : (postRecord fn q r s).test = s.test := by
  unfold postRecord
  (try dsimp only)
  (repeat' split) <;> simp
@[simp] theorem postRecord_bar2Held (fn q : Nat) (r : Record) (s : State) : (postRecord fn q r s).bar2Held = s.bar2Held := by
  unfold postRecord
  (try dsimp only)
  (repeat' split) <;> simp
@[simp] theorem postRecord_doorbells (fn q : Nat) (r : Record) (s : State) : (postRecord fn q r s).doorbells = s.doorbells := by
  unfold postRecord
  (try dsimp only)
  (repeat' split) <;> simp
@[simp] theorem postRecord_lastCaller (fn q : Nat) (r : Record) (s : State) : (postRecord fn q r s).lastCaller = s.lastCaller := by
  unfold postRecord
  (try dsimp only)
  (repeat' split) <;> simp

/-! ## idleUnits -/

@[simp] theorem idleUnits_pending  (s : State) : (idleUnits s).pending = s.pending := rfl
@[simp] theorem idleUnits_time  (s : State) : (idleUnits s).time = s.time := rfl
@[simp] theorem idleUnits_fresh  (s : State) : (idleUnits s).fresh = s.fresh := rfl
@[simp] theorem idleUnits_fuses  (s : State) : (idleUnits s).fuses = s.fuses := rfl
@[simp] theorem idleUnits_pins  (s : State) : (idleUnits s).pins = s.pins := rfl
@[simp] theorem idleUnits_fw  (s : State) : (idleUnits s).fw = s.fw := rfl
@[simp] theorem idleUnits_pcie  (s : State) : (idleUnits s).pcie = s.pcie := rfl
@[simp] theorem idleUnits_funcs  (s : State) : (idleUnits s).funcs = s.funcs := rfl
@[simp] theorem idleUnits_mem  (s : State) : (idleUnits s).mem = s.mem := rfl
@[simp] theorem idleUnits_host  (s : State) : (idleUnits s).host = s.host := rfl
@[simp] theorem idleUnits_channels  (s : State) : (idleUnits s).channels = s.channels := rfl
@[simp] theorem idleUnits_inv  (s : State) : (idleUnits s).inv = s.inv := rfl
@[simp] theorem idleUnits_tables  (s : State) : (idleUnits s).tables = s.tables := rfl
@[simp] theorem idleUnits_scores  (s : State) : (idleUnits s).scores = s.scores := rfl
@[simp] theorem idleUnits_resident  (s : State) : (idleUnits s).resident = s.resident := rfl
@[simp] theorem idleUnits_sched  (s : State) : (idleUnits s).sched = s.sched := rfl
@[simp] theorem idleUnits_staged  (s : State) : (idleUnits s).staged = s.staged := rfl
@[simp] theorem idleUnits_preempt  (s : State) : (idleUnits s).preempt = s.preempt := rfl
@[simp] theorem idleUnits_groups  (s : State) : (idleUnits s).groups = s.groups := rfl
@[simp] theorem idleUnits_fabric  (s : State) : (idleUnits s).fabric = s.fabric := rfl
@[simp] theorem idleUnits_codec  (s : State) : (idleUnits s).codec = s.codec := rfl
@[simp] theorem idleUnits_power  (s : State) : (idleUnits s).power = s.power := rfl
@[simp] theorem idleUnits_sec  (s : State) : (idleUnits s).sec = s.sec := rfl
@[simp] theorem idleUnits_log  (s : State) : (idleUnits s).log = s.log := rfl
@[simp] theorem idleUnits_test  (s : State) : (idleUnits s).test = s.test := rfl
@[simp] theorem idleUnits_bar2Held  (s : State) : (idleUnits s).bar2Held = s.bar2Held := rfl
@[simp] theorem idleUnits_doorbells  (s : State) : (idleUnits s).doorbells = s.doorbells := rfl
@[simp] theorem idleUnits_lastCaller  (s : State) : (idleUnits s).lastCaller = s.lastCaller := rfl
@[simp] theorem idleUnits_out  (s : State) : (idleUnits s).out = s.out := rfl

/-! ## oweCredit -/

@[simp] theorem oweCredit_pending (p : Nat) (vc : BitVec 6) (s : State) : (oweCredit p vc s).pending = s.pending := rfl
@[simp] theorem oweCredit_time (p : Nat) (vc : BitVec 6) (s : State) : (oweCredit p vc s).time = s.time := rfl
@[simp] theorem oweCredit_fresh (p : Nat) (vc : BitVec 6) (s : State) : (oweCredit p vc s).fresh = s.fresh := rfl
@[simp] theorem oweCredit_fuses (p : Nat) (vc : BitVec 6) (s : State) : (oweCredit p vc s).fuses = s.fuses := rfl
@[simp] theorem oweCredit_pins (p : Nat) (vc : BitVec 6) (s : State) : (oweCredit p vc s).pins = s.pins := rfl
@[simp] theorem oweCredit_fw (p : Nat) (vc : BitVec 6) (s : State) : (oweCredit p vc s).fw = s.fw := rfl
@[simp] theorem oweCredit_pcie (p : Nat) (vc : BitVec 6) (s : State) : (oweCredit p vc s).pcie = s.pcie := rfl
@[simp] theorem oweCredit_funcs (p : Nat) (vc : BitVec 6) (s : State) : (oweCredit p vc s).funcs = s.funcs := rfl
@[simp] theorem oweCredit_mem (p : Nat) (vc : BitVec 6) (s : State) : (oweCredit p vc s).mem = s.mem := rfl
@[simp] theorem oweCredit_host (p : Nat) (vc : BitVec 6) (s : State) : (oweCredit p vc s).host = s.host := rfl
@[simp] theorem oweCredit_channels (p : Nat) (vc : BitVec 6) (s : State) : (oweCredit p vc s).channels = s.channels := rfl
@[simp] theorem oweCredit_inv (p : Nat) (vc : BitVec 6) (s : State) : (oweCredit p vc s).inv = s.inv := rfl
@[simp] theorem oweCredit_cores (p : Nat) (vc : BitVec 6) (s : State) : (oweCredit p vc s).cores = s.cores := rfl
@[simp] theorem oweCredit_chips (p : Nat) (vc : BitVec 6) (s : State) : (oweCredit p vc s).chips = s.chips := rfl
@[simp] theorem oweCredit_chipFetch (p : Nat) (vc : BitVec 6) (s : State) : (oweCredit p vc s).chipFetch = s.chipFetch := rfl
@[simp] theorem oweCredit_gathers (p : Nat) (vc : BitVec 6) (s : State) : (oweCredit p vc s).gathers = s.gathers := rfl
@[simp] theorem oweCredit_tables (p : Nat) (vc : BitVec 6) (s : State) : (oweCredit p vc s).tables = s.tables := rfl
@[simp] theorem oweCredit_scores (p : Nat) (vc : BitVec 6) (s : State) : (oweCredit p vc s).scores = s.scores := rfl
@[simp] theorem oweCredit_resident (p : Nat) (vc : BitVec 6) (s : State) : (oweCredit p vc s).resident = s.resident := rfl
@[simp] theorem oweCredit_sched (p : Nat) (vc : BitVec 6) (s : State) : (oweCredit p vc s).sched = s.sched := rfl
@[simp] theorem oweCredit_staged (p : Nat) (vc : BitVec 6) (s : State) : (oweCredit p vc s).staged = s.staged := rfl
@[simp] theorem oweCredit_preempt (p : Nat) (vc : BitVec 6) (s : State) : (oweCredit p vc s).preempt = s.preempt := rfl
@[simp] theorem oweCredit_groups (p : Nat) (vc : BitVec 6) (s : State) : (oweCredit p vc s).groups = s.groups := rfl
@[simp] theorem oweCredit_codec (p : Nat) (vc : BitVec 6) (s : State) : (oweCredit p vc s).codec = s.codec := rfl
@[simp] theorem oweCredit_power (p : Nat) (vc : BitVec 6) (s : State) : (oweCredit p vc s).power = s.power := rfl
@[simp] theorem oweCredit_sec (p : Nat) (vc : BitVec 6) (s : State) : (oweCredit p vc s).sec = s.sec := rfl
@[simp] theorem oweCredit_log (p : Nat) (vc : BitVec 6) (s : State) : (oweCredit p vc s).log = s.log := rfl
@[simp] theorem oweCredit_test (p : Nat) (vc : BitVec 6) (s : State) : (oweCredit p vc s).test = s.test := rfl
@[simp] theorem oweCredit_bar2Held (p : Nat) (vc : BitVec 6) (s : State) : (oweCredit p vc s).bar2Held = s.bar2Held := rfl
@[simp] theorem oweCredit_doorbells (p : Nat) (vc : BitVec 6) (s : State) : (oweCredit p vc s).doorbells = s.doorbells := rfl
@[simp] theorem oweCredit_lastCaller (p : Nat) (vc : BitVec 6) (s : State) : (oweCredit p vc s).lastCaller = s.lastCaller := rfl
@[simp] theorem oweCredit_out (p : Nat) (vc : BitVec 6) (s : State) : (oweCredit p vc s).out = s.out := rfl

/-! ## dropWaiting -/

@[simp] theorem dropWaiting_pending (sel : Nat × BitVec 14 × Flit → Bool) (s : State) : (dropWaiting sel s).pending = s.pending := foldl_field State.pending _ (fun _ _ => oweCredit_pending _ _ _) _ _
@[simp] theorem dropWaiting_time (sel : Nat × BitVec 14 × Flit → Bool) (s : State) : (dropWaiting sel s).time = s.time := foldl_field State.time _ (fun _ _ => oweCredit_time _ _ _) _ _
@[simp] theorem dropWaiting_fresh (sel : Nat × BitVec 14 × Flit → Bool) (s : State) : (dropWaiting sel s).fresh = s.fresh := foldl_field State.fresh _ (fun _ _ => oweCredit_fresh _ _ _) _ _
@[simp] theorem dropWaiting_fuses (sel : Nat × BitVec 14 × Flit → Bool) (s : State) : (dropWaiting sel s).fuses = s.fuses := foldl_field State.fuses _ (fun _ _ => oweCredit_fuses _ _ _) _ _
@[simp] theorem dropWaiting_pins (sel : Nat × BitVec 14 × Flit → Bool) (s : State) : (dropWaiting sel s).pins = s.pins := foldl_field State.pins _ (fun _ _ => oweCredit_pins _ _ _) _ _
@[simp] theorem dropWaiting_fw (sel : Nat × BitVec 14 × Flit → Bool) (s : State) : (dropWaiting sel s).fw = s.fw := foldl_field State.fw _ (fun _ _ => oweCredit_fw _ _ _) _ _
@[simp] theorem dropWaiting_pcie (sel : Nat × BitVec 14 × Flit → Bool) (s : State) : (dropWaiting sel s).pcie = s.pcie := foldl_field State.pcie _ (fun _ _ => oweCredit_pcie _ _ _) _ _
@[simp] theorem dropWaiting_funcs (sel : Nat × BitVec 14 × Flit → Bool) (s : State) : (dropWaiting sel s).funcs = s.funcs := foldl_field State.funcs _ (fun _ _ => oweCredit_funcs _ _ _) _ _
@[simp] theorem dropWaiting_mem (sel : Nat × BitVec 14 × Flit → Bool) (s : State) : (dropWaiting sel s).mem = s.mem := foldl_field State.mem _ (fun _ _ => oweCredit_mem _ _ _) _ _
@[simp] theorem dropWaiting_host (sel : Nat × BitVec 14 × Flit → Bool) (s : State) : (dropWaiting sel s).host = s.host := foldl_field State.host _ (fun _ _ => oweCredit_host _ _ _) _ _
@[simp] theorem dropWaiting_channels (sel : Nat × BitVec 14 × Flit → Bool) (s : State) : (dropWaiting sel s).channels = s.channels := foldl_field State.channels _ (fun _ _ => oweCredit_channels _ _ _) _ _
@[simp] theorem dropWaiting_inv (sel : Nat × BitVec 14 × Flit → Bool) (s : State) : (dropWaiting sel s).inv = s.inv := foldl_field State.inv _ (fun _ _ => oweCredit_inv _ _ _) _ _
@[simp] theorem dropWaiting_cores (sel : Nat × BitVec 14 × Flit → Bool) (s : State) : (dropWaiting sel s).cores = s.cores := foldl_field State.cores _ (fun _ _ => oweCredit_cores _ _ _) _ _
@[simp] theorem dropWaiting_chips (sel : Nat × BitVec 14 × Flit → Bool) (s : State) : (dropWaiting sel s).chips = s.chips := foldl_field State.chips _ (fun _ _ => oweCredit_chips _ _ _) _ _
@[simp] theorem dropWaiting_chipFetch (sel : Nat × BitVec 14 × Flit → Bool) (s : State) : (dropWaiting sel s).chipFetch = s.chipFetch := foldl_field State.chipFetch _ (fun _ _ => oweCredit_chipFetch _ _ _) _ _
@[simp] theorem dropWaiting_gathers (sel : Nat × BitVec 14 × Flit → Bool) (s : State) : (dropWaiting sel s).gathers = s.gathers := foldl_field State.gathers _ (fun _ _ => oweCredit_gathers _ _ _) _ _
@[simp] theorem dropWaiting_tables (sel : Nat × BitVec 14 × Flit → Bool) (s : State) : (dropWaiting sel s).tables = s.tables := foldl_field State.tables _ (fun _ _ => oweCredit_tables _ _ _) _ _
@[simp] theorem dropWaiting_scores (sel : Nat × BitVec 14 × Flit → Bool) (s : State) : (dropWaiting sel s).scores = s.scores := foldl_field State.scores _ (fun _ _ => oweCredit_scores _ _ _) _ _
@[simp] theorem dropWaiting_resident (sel : Nat × BitVec 14 × Flit → Bool) (s : State) : (dropWaiting sel s).resident = s.resident := foldl_field State.resident _ (fun _ _ => oweCredit_resident _ _ _) _ _
@[simp] theorem dropWaiting_sched (sel : Nat × BitVec 14 × Flit → Bool) (s : State) : (dropWaiting sel s).sched = s.sched := foldl_field State.sched _ (fun _ _ => oweCredit_sched _ _ _) _ _
@[simp] theorem dropWaiting_staged (sel : Nat × BitVec 14 × Flit → Bool) (s : State) : (dropWaiting sel s).staged = s.staged := foldl_field State.staged _ (fun _ _ => oweCredit_staged _ _ _) _ _
@[simp] theorem dropWaiting_preempt (sel : Nat × BitVec 14 × Flit → Bool) (s : State) : (dropWaiting sel s).preempt = s.preempt := foldl_field State.preempt _ (fun _ _ => oweCredit_preempt _ _ _) _ _
@[simp] theorem dropWaiting_groups (sel : Nat × BitVec 14 × Flit → Bool) (s : State) : (dropWaiting sel s).groups = s.groups := foldl_field State.groups _ (fun _ _ => oweCredit_groups _ _ _) _ _
@[simp] theorem dropWaiting_codec (sel : Nat × BitVec 14 × Flit → Bool) (s : State) : (dropWaiting sel s).codec = s.codec := foldl_field State.codec _ (fun _ _ => oweCredit_codec _ _ _) _ _
@[simp] theorem dropWaiting_power (sel : Nat × BitVec 14 × Flit → Bool) (s : State) : (dropWaiting sel s).power = s.power := foldl_field State.power _ (fun _ _ => oweCredit_power _ _ _) _ _
@[simp] theorem dropWaiting_sec (sel : Nat × BitVec 14 × Flit → Bool) (s : State) : (dropWaiting sel s).sec = s.sec := foldl_field State.sec _ (fun _ _ => oweCredit_sec _ _ _) _ _
@[simp] theorem dropWaiting_log (sel : Nat × BitVec 14 × Flit → Bool) (s : State) : (dropWaiting sel s).log = s.log := foldl_field State.log _ (fun _ _ => oweCredit_log _ _ _) _ _
@[simp] theorem dropWaiting_test (sel : Nat × BitVec 14 × Flit → Bool) (s : State) : (dropWaiting sel s).test = s.test := foldl_field State.test _ (fun _ _ => oweCredit_test _ _ _) _ _
@[simp] theorem dropWaiting_bar2Held (sel : Nat × BitVec 14 × Flit → Bool) (s : State) : (dropWaiting sel s).bar2Held = s.bar2Held := foldl_field State.bar2Held _ (fun _ _ => oweCredit_bar2Held _ _ _) _ _
@[simp] theorem dropWaiting_doorbells (sel : Nat × BitVec 14 × Flit → Bool) (s : State) : (dropWaiting sel s).doorbells = s.doorbells := foldl_field State.doorbells _ (fun _ _ => oweCredit_doorbells _ _ _) _ _
@[simp] theorem dropWaiting_lastCaller (sel : Nat × BitVec 14 × Flit → Bool) (s : State) : (dropWaiting sel s).lastCaller = s.lastCaller := foldl_field State.lastCaller _ (fun _ _ => oweCredit_lastCaller _ _ _) _ _
@[simp] theorem dropWaiting_out (sel : Nat × BitVec 14 × Flit → Bool) (s : State) : (dropWaiting sel s).out = s.out := foldl_field State.out _ (fun _ _ => oweCredit_out _ _ _) _ _

/-! ## dropHeld -/

@[simp] theorem dropHeld_pending (j : Job) (s : State) : (dropHeld j s).pending = s.pending := dropWaiting_pending _ _
@[simp] theorem dropHeld_time (j : Job) (s : State) : (dropHeld j s).time = s.time := dropWaiting_time _ _
@[simp] theorem dropHeld_fresh (j : Job) (s : State) : (dropHeld j s).fresh = s.fresh := dropWaiting_fresh _ _
@[simp] theorem dropHeld_fuses (j : Job) (s : State) : (dropHeld j s).fuses = s.fuses := dropWaiting_fuses _ _
@[simp] theorem dropHeld_pins (j : Job) (s : State) : (dropHeld j s).pins = s.pins := dropWaiting_pins _ _
@[simp] theorem dropHeld_fw (j : Job) (s : State) : (dropHeld j s).fw = s.fw := dropWaiting_fw _ _
@[simp] theorem dropHeld_pcie (j : Job) (s : State) : (dropHeld j s).pcie = s.pcie := dropWaiting_pcie _ _
@[simp] theorem dropHeld_funcs (j : Job) (s : State) : (dropHeld j s).funcs = s.funcs := dropWaiting_funcs _ _
@[simp] theorem dropHeld_mem (j : Job) (s : State) : (dropHeld j s).mem = s.mem := dropWaiting_mem _ _
@[simp] theorem dropHeld_host (j : Job) (s : State) : (dropHeld j s).host = s.host := dropWaiting_host _ _
@[simp] theorem dropHeld_channels (j : Job) (s : State) : (dropHeld j s).channels = s.channels := dropWaiting_channels _ _
@[simp] theorem dropHeld_inv (j : Job) (s : State) : (dropHeld j s).inv = s.inv := dropWaiting_inv _ _
@[simp] theorem dropHeld_cores (j : Job) (s : State) : (dropHeld j s).cores = s.cores := dropWaiting_cores _ _
@[simp] theorem dropHeld_chips (j : Job) (s : State) : (dropHeld j s).chips = s.chips := dropWaiting_chips _ _
@[simp] theorem dropHeld_chipFetch (j : Job) (s : State) : (dropHeld j s).chipFetch = s.chipFetch := dropWaiting_chipFetch _ _
@[simp] theorem dropHeld_gathers (j : Job) (s : State) : (dropHeld j s).gathers = s.gathers := dropWaiting_gathers _ _
@[simp] theorem dropHeld_tables (j : Job) (s : State) : (dropHeld j s).tables = s.tables := dropWaiting_tables _ _
@[simp] theorem dropHeld_scores (j : Job) (s : State) : (dropHeld j s).scores = s.scores := dropWaiting_scores _ _
@[simp] theorem dropHeld_resident (j : Job) (s : State) : (dropHeld j s).resident = s.resident := dropWaiting_resident _ _
@[simp] theorem dropHeld_sched (j : Job) (s : State) : (dropHeld j s).sched = s.sched := dropWaiting_sched _ _
@[simp] theorem dropHeld_staged (j : Job) (s : State) : (dropHeld j s).staged = s.staged := dropWaiting_staged _ _
@[simp] theorem dropHeld_preempt (j : Job) (s : State) : (dropHeld j s).preempt = s.preempt := dropWaiting_preempt _ _
@[simp] theorem dropHeld_groups (j : Job) (s : State) : (dropHeld j s).groups = s.groups := dropWaiting_groups _ _
@[simp] theorem dropHeld_codec (j : Job) (s : State) : (dropHeld j s).codec = s.codec := dropWaiting_codec _ _
@[simp] theorem dropHeld_power (j : Job) (s : State) : (dropHeld j s).power = s.power := dropWaiting_power _ _
@[simp] theorem dropHeld_sec (j : Job) (s : State) : (dropHeld j s).sec = s.sec := dropWaiting_sec _ _
@[simp] theorem dropHeld_log (j : Job) (s : State) : (dropHeld j s).log = s.log := dropWaiting_log _ _
@[simp] theorem dropHeld_test (j : Job) (s : State) : (dropHeld j s).test = s.test := dropWaiting_test _ _
@[simp] theorem dropHeld_bar2Held (j : Job) (s : State) : (dropHeld j s).bar2Held = s.bar2Held := dropWaiting_bar2Held _ _
@[simp] theorem dropHeld_doorbells (j : Job) (s : State) : (dropHeld j s).doorbells = s.doorbells := dropWaiting_doorbells _ _
@[simp] theorem dropHeld_lastCaller (j : Job) (s : State) : (dropHeld j s).lastCaller = s.lastCaller := dropWaiting_lastCaller _ _
@[simp] theorem dropHeld_out (j : Job) (s : State) : (dropHeld j s).out = s.out := dropWaiting_out _ _

/-! ## closeWindows -/

@[simp] theorem closeWindows_pending (j : Job) (s : State) : (closeWindows j s).pending = s.pending := by
  unfold closeWindows
  (try dsimp only)
  (repeat' split) <;> simp
@[simp] theorem closeWindows_time (j : Job) (s : State) : (closeWindows j s).time = s.time := by
  unfold closeWindows
  (try dsimp only)
  (repeat' split) <;> simp
@[simp] theorem closeWindows_fresh (j : Job) (s : State) : (closeWindows j s).fresh = s.fresh := by
  unfold closeWindows
  (try dsimp only)
  (repeat' split) <;> simp
@[simp] theorem closeWindows_fuses (j : Job) (s : State) : (closeWindows j s).fuses = s.fuses := by
  unfold closeWindows
  (try dsimp only)
  (repeat' split) <;> simp
@[simp] theorem closeWindows_pins (j : Job) (s : State) : (closeWindows j s).pins = s.pins := by
  unfold closeWindows
  (try dsimp only)
  (repeat' split) <;> simp
@[simp] theorem closeWindows_fw (j : Job) (s : State) : (closeWindows j s).fw = s.fw := by
  unfold closeWindows
  (try dsimp only)
  (repeat' split) <;> simp
@[simp] theorem closeWindows_pcie (j : Job) (s : State) : (closeWindows j s).pcie = s.pcie := by
  unfold closeWindows
  (try dsimp only)
  (repeat' split) <;> simp
@[simp] theorem closeWindows_funcs (j : Job) (s : State) : (closeWindows j s).funcs = s.funcs := by
  unfold closeWindows
  (try dsimp only)
  (repeat' split) <;> simp
@[simp] theorem closeWindows_mem (j : Job) (s : State) : (closeWindows j s).mem = s.mem := by
  unfold closeWindows
  (try dsimp only)
  (repeat' split) <;> simp
@[simp] theorem closeWindows_host (j : Job) (s : State) : (closeWindows j s).host = s.host := by
  unfold closeWindows
  (try dsimp only)
  (repeat' split) <;> simp
@[simp] theorem closeWindows_channels (j : Job) (s : State) : (closeWindows j s).channels = s.channels := by
  unfold closeWindows
  (try dsimp only)
  (repeat' split) <;> simp
@[simp] theorem closeWindows_inv (j : Job) (s : State) : (closeWindows j s).inv = s.inv := by
  unfold closeWindows
  (try dsimp only)
  (repeat' split) <;> simp
@[simp] theorem closeWindows_cores (j : Job) (s : State) : (closeWindows j s).cores = s.cores := by
  unfold closeWindows
  (try dsimp only)
  (repeat' split) <;> simp
@[simp] theorem closeWindows_chips (j : Job) (s : State) : (closeWindows j s).chips = s.chips := by
  unfold closeWindows
  (try dsimp only)
  (repeat' split) <;> simp
@[simp] theorem closeWindows_chipFetch (j : Job) (s : State) : (closeWindows j s).chipFetch = s.chipFetch := by
  unfold closeWindows
  (try dsimp only)
  (repeat' split) <;> simp
@[simp] theorem closeWindows_gathers (j : Job) (s : State) : (closeWindows j s).gathers = s.gathers := by
  unfold closeWindows
  (try dsimp only)
  (repeat' split) <;> simp
@[simp] theorem closeWindows_tables (j : Job) (s : State) : (closeWindows j s).tables = s.tables := by
  unfold closeWindows
  (try dsimp only)
  (repeat' split) <;> simp
@[simp] theorem closeWindows_scores (j : Job) (s : State) : (closeWindows j s).scores = s.scores := by
  unfold closeWindows
  (try dsimp only)
  (repeat' split) <;> simp
@[simp] theorem closeWindows_resident (j : Job) (s : State) : (closeWindows j s).resident = s.resident := by
  unfold closeWindows
  (try dsimp only)
  (repeat' split) <;> simp
@[simp] theorem closeWindows_sched (j : Job) (s : State) : (closeWindows j s).sched = s.sched := by
  unfold closeWindows
  (try dsimp only)
  (repeat' split) <;> simp
@[simp] theorem closeWindows_staged (j : Job) (s : State) : (closeWindows j s).staged = s.staged := by
  unfold closeWindows
  (try dsimp only)
  (repeat' split) <;> simp
@[simp] theorem closeWindows_preempt (j : Job) (s : State) : (closeWindows j s).preempt = s.preempt := by
  unfold closeWindows
  (try dsimp only)
  (repeat' split) <;> simp
@[simp] theorem closeWindows_groups (j : Job) (s : State) : (closeWindows j s).groups = s.groups := by
  unfold closeWindows
  (try dsimp only)
  (repeat' split) <;> simp
@[simp] theorem closeWindows_codec (j : Job) (s : State) : (closeWindows j s).codec = s.codec := by
  unfold closeWindows
  (try dsimp only)
  (repeat' split) <;> simp
@[simp] theorem closeWindows_power (j : Job) (s : State) : (closeWindows j s).power = s.power := by
  unfold closeWindows
  (try dsimp only)
  (repeat' split) <;> simp
@[simp] theorem closeWindows_sec (j : Job) (s : State) : (closeWindows j s).sec = s.sec := by
  unfold closeWindows
  (try dsimp only)
  (repeat' split) <;> simp
@[simp] theorem closeWindows_log (j : Job) (s : State) : (closeWindows j s).log = s.log := by
  unfold closeWindows
  (try dsimp only)
  (repeat' split) <;> simp
@[simp] theorem closeWindows_test (j : Job) (s : State) : (closeWindows j s).test = s.test := by
  unfold closeWindows
  (try dsimp only)
  (repeat' split) <;> simp
@[simp] theorem closeWindows_bar2Held (j : Job) (s : State) : (closeWindows j s).bar2Held = s.bar2Held := by
  unfold closeWindows
  (try dsimp only)
  (repeat' split) <;> simp
@[simp] theorem closeWindows_doorbells (j : Job) (s : State) : (closeWindows j s).doorbells = s.doorbells := by
  unfold closeWindows
  (try dsimp only)
  (repeat' split) <;> simp
@[simp] theorem closeWindows_lastCaller (j : Job) (s : State) : (closeWindows j s).lastCaller = s.lastCaller := by
  unfold closeWindows
  (try dsimp only)
  (repeat' split) <;> simp
@[simp] theorem closeWindows_out (j : Job) (s : State) : (closeWindows j s).out = s.out := by
  unfold closeWindows
  (try dsimp only)
  (repeat' split) <;> simp

/-! ## dropFrames -/

@[simp] theorem dropFrames_pending (id : Nat) (s : State) : (dropFrames id s).pending = s.pending := rfl
@[simp] theorem dropFrames_time (id : Nat) (s : State) : (dropFrames id s).time = s.time := rfl
@[simp] theorem dropFrames_fresh (id : Nat) (s : State) : (dropFrames id s).fresh = s.fresh := rfl
@[simp] theorem dropFrames_fuses (id : Nat) (s : State) : (dropFrames id s).fuses = s.fuses := rfl
@[simp] theorem dropFrames_pins (id : Nat) (s : State) : (dropFrames id s).pins = s.pins := rfl
@[simp] theorem dropFrames_fw (id : Nat) (s : State) : (dropFrames id s).fw = s.fw := rfl
@[simp] theorem dropFrames_pcie (id : Nat) (s : State) : (dropFrames id s).pcie = s.pcie := rfl
@[simp] theorem dropFrames_funcs (id : Nat) (s : State) : (dropFrames id s).funcs = s.funcs := rfl
@[simp] theorem dropFrames_mem (id : Nat) (s : State) : (dropFrames id s).mem = s.mem := rfl
@[simp] theorem dropFrames_host (id : Nat) (s : State) : (dropFrames id s).host = s.host := rfl
@[simp] theorem dropFrames_channels (id : Nat) (s : State) : (dropFrames id s).channels = s.channels := rfl
@[simp] theorem dropFrames_inv (id : Nat) (s : State) : (dropFrames id s).inv = s.inv := rfl
@[simp] theorem dropFrames_cores (id : Nat) (s : State) : (dropFrames id s).cores = s.cores := rfl
@[simp] theorem dropFrames_chips (id : Nat) (s : State) : (dropFrames id s).chips = s.chips := rfl
@[simp] theorem dropFrames_chipFetch (id : Nat) (s : State) : (dropFrames id s).chipFetch = s.chipFetch := rfl
@[simp] theorem dropFrames_gathers (id : Nat) (s : State) : (dropFrames id s).gathers = s.gathers := rfl
@[simp] theorem dropFrames_tables (id : Nat) (s : State) : (dropFrames id s).tables = s.tables := rfl
@[simp] theorem dropFrames_scores (id : Nat) (s : State) : (dropFrames id s).scores = s.scores := rfl
@[simp] theorem dropFrames_resident (id : Nat) (s : State) : (dropFrames id s).resident = s.resident := rfl
@[simp] theorem dropFrames_sched (id : Nat) (s : State) : (dropFrames id s).sched = s.sched := rfl
@[simp] theorem dropFrames_staged (id : Nat) (s : State) : (dropFrames id s).staged = s.staged := rfl
@[simp] theorem dropFrames_preempt (id : Nat) (s : State) : (dropFrames id s).preempt = s.preempt := rfl
@[simp] theorem dropFrames_groups (id : Nat) (s : State) : (dropFrames id s).groups = s.groups := rfl
@[simp] theorem dropFrames_fabric (id : Nat) (s : State) : (dropFrames id s).fabric = s.fabric := rfl
@[simp] theorem dropFrames_power (id : Nat) (s : State) : (dropFrames id s).power = s.power := rfl
@[simp] theorem dropFrames_sec (id : Nat) (s : State) : (dropFrames id s).sec = s.sec := rfl
@[simp] theorem dropFrames_log (id : Nat) (s : State) : (dropFrames id s).log = s.log := rfl
@[simp] theorem dropFrames_test (id : Nat) (s : State) : (dropFrames id s).test = s.test := rfl
@[simp] theorem dropFrames_bar2Held (id : Nat) (s : State) : (dropFrames id s).bar2Held = s.bar2Held := rfl
@[simp] theorem dropFrames_doorbells (id : Nat) (s : State) : (dropFrames id s).doorbells = s.doorbells := rfl
@[simp] theorem dropFrames_lastCaller (id : Nat) (s : State) : (dropFrames id s).lastCaller = s.lastCaller := rfl
@[simp] theorem dropFrames_out (id : Nat) (s : State) : (dropFrames id s).out = s.out := rfl

/-! ## endJob -/

@[simp] theorem endJob_pending (j : Job) (st cause : Status) (kind : Nat) (d : BitVec 352) (s : State) : (endJob j st cause kind d s).pending = s.pending := by
  unfold endJob
  (try dsimp only)
  (repeat' split) <;> simp
@[simp] theorem endJob_time (j : Job) (st cause : Status) (kind : Nat) (d : BitVec 352) (s : State) : (endJob j st cause kind d s).time = s.time := by
  unfold endJob
  (try dsimp only)
  (repeat' split) <;> simp
@[simp] theorem endJob_fresh (j : Job) (st cause : Status) (kind : Nat) (d : BitVec 352) (s : State) : (endJob j st cause kind d s).fresh = s.fresh := by
  unfold endJob
  (try dsimp only)
  (repeat' split) <;> simp
@[simp] theorem endJob_fuses (j : Job) (st cause : Status) (kind : Nat) (d : BitVec 352) (s : State) : (endJob j st cause kind d s).fuses = s.fuses := by
  unfold endJob
  (try dsimp only)
  (repeat' split) <;> simp
@[simp] theorem endJob_pins (j : Job) (st cause : Status) (kind : Nat) (d : BitVec 352) (s : State) : (endJob j st cause kind d s).pins = s.pins := by
  unfold endJob
  (try dsimp only)
  (repeat' split) <;> simp
@[simp] theorem endJob_fw (j : Job) (st cause : Status) (kind : Nat) (d : BitVec 352) (s : State) : (endJob j st cause kind d s).fw = s.fw := by
  unfold endJob
  (try dsimp only)
  (repeat' split) <;> simp
@[simp] theorem endJob_pcie (j : Job) (st cause : Status) (kind : Nat) (d : BitVec 352) (s : State) : (endJob j st cause kind d s).pcie = s.pcie := by
  unfold endJob
  (try dsimp only)
  (repeat' split) <;> simp
@[simp] theorem endJob_mem (j : Job) (st cause : Status) (kind : Nat) (d : BitVec 352) (s : State) : (endJob j st cause kind d s).mem = s.mem := by
  unfold endJob
  (try dsimp only)
  (repeat' split) <;> simp
@[simp] theorem endJob_channels (j : Job) (st cause : Status) (kind : Nat) (d : BitVec 352) (s : State) : (endJob j st cause kind d s).channels = s.channels := by
  unfold endJob
  (try dsimp only)
  (repeat' split) <;> simp
@[simp] theorem endJob_inv (j : Job) (st cause : Status) (kind : Nat) (d : BitVec 352) (s : State) : (endJob j st cause kind d s).inv = s.inv := by
  unfold endJob
  (try dsimp only)
  (repeat' split) <;> simp
@[simp] theorem endJob_cores (j : Job) (st cause : Status) (kind : Nat) (d : BitVec 352) (s : State) : (endJob j st cause kind d s).cores = s.cores := by
  unfold endJob
  (try dsimp only)
  (repeat' split) <;> simp
@[simp] theorem endJob_chips (j : Job) (st cause : Status) (kind : Nat) (d : BitVec 352) (s : State) : (endJob j st cause kind d s).chips = s.chips := by
  unfold endJob
  (try dsimp only)
  (repeat' split) <;> simp
@[simp] theorem endJob_chipFetch (j : Job) (st cause : Status) (kind : Nat) (d : BitVec 352) (s : State) : (endJob j st cause kind d s).chipFetch = s.chipFetch := by
  unfold endJob
  (try dsimp only)
  (repeat' split) <;> simp
@[simp] theorem endJob_gathers (j : Job) (st cause : Status) (kind : Nat) (d : BitVec 352) (s : State) : (endJob j st cause kind d s).gathers = s.gathers := by
  unfold endJob
  (try dsimp only)
  (repeat' split) <;> simp
@[simp] theorem endJob_tables (j : Job) (st cause : Status) (kind : Nat) (d : BitVec 352) (s : State) : (endJob j st cause kind d s).tables = s.tables := by
  unfold endJob
  (try dsimp only)
  (repeat' split) <;> simp
@[simp] theorem endJob_scores (j : Job) (st cause : Status) (kind : Nat) (d : BitVec 352) (s : State) : (endJob j st cause kind d s).scores = s.scores := by
  unfold endJob
  (try dsimp only)
  (repeat' split) <;> simp
@[simp] theorem endJob_resident (j : Job) (st cause : Status) (kind : Nat) (d : BitVec 352) (s : State) : (endJob j st cause kind d s).resident = s.resident := by
  unfold endJob
  (try dsimp only)
  (repeat' split) <;> simp
@[simp] theorem endJob_staged (j : Job) (st cause : Status) (kind : Nat) (d : BitVec 352) (s : State) : (endJob j st cause kind d s).staged = s.staged := by
  unfold endJob
  (try dsimp only)
  (repeat' split) <;> simp
@[simp] theorem endJob_preempt (j : Job) (st cause : Status) (kind : Nat) (d : BitVec 352) (s : State) : (endJob j st cause kind d s).preempt = s.preempt := by
  unfold endJob
  (try dsimp only)
  (repeat' split) <;> simp
@[simp] theorem endJob_groups (j : Job) (st cause : Status) (kind : Nat) (d : BitVec 352) (s : State) : (endJob j st cause kind d s).groups = s.groups := by
  unfold endJob
  (try dsimp only)
  (repeat' split) <;> simp
@[simp] theorem endJob_fabric (j : Job) (st cause : Status) (kind : Nat) (d : BitVec 352) (s : State) : (endJob j st cause kind d s).fabric = s.fabric := by
  unfold endJob
  (try dsimp only)
  (repeat' split) <;> simp
@[simp] theorem endJob_codec (j : Job) (st cause : Status) (kind : Nat) (d : BitVec 352) (s : State) : (endJob j st cause kind d s).codec = s.codec := by
  unfold endJob
  (try dsimp only)
  (repeat' split) <;> simp
@[simp] theorem endJob_power (j : Job) (st cause : Status) (kind : Nat) (d : BitVec 352) (s : State) : (endJob j st cause kind d s).power = s.power := by
  unfold endJob
  (try dsimp only)
  (repeat' split) <;> simp
@[simp] theorem endJob_sec (j : Job) (st cause : Status) (kind : Nat) (d : BitVec 352) (s : State) : (endJob j st cause kind d s).sec = s.sec := by
  unfold endJob
  (try dsimp only)
  (repeat' split) <;> simp
@[simp] theorem endJob_log (j : Job) (st cause : Status) (kind : Nat) (d : BitVec 352) (s : State) : (endJob j st cause kind d s).log = s.log := by
  unfold endJob
  (try dsimp only)
  (repeat' split) <;> simp
@[simp] theorem endJob_test (j : Job) (st cause : Status) (kind : Nat) (d : BitVec 352) (s : State) : (endJob j st cause kind d s).test = s.test := by
  unfold endJob
  (try dsimp only)
  (repeat' split) <;> simp
@[simp] theorem endJob_bar2Held (j : Job) (st cause : Status) (kind : Nat) (d : BitVec 352) (s : State) : (endJob j st cause kind d s).bar2Held = s.bar2Held := by
  unfold endJob
  (try dsimp only)
  (repeat' split) <;> simp
@[simp] theorem endJob_doorbells (j : Job) (st cause : Status) (kind : Nat) (d : BitVec 352) (s : State) : (endJob j st cause kind d s).doorbells = s.doorbells := by
  unfold endJob
  (try dsimp only)
  (repeat' split) <;> simp
@[simp] theorem endJob_lastCaller (j : Job) (st cause : Status) (kind : Nat) (d : BitVec 352) (s : State) : (endJob j st cause kind d s).lastCaller = s.lastCaller := by
  unfold endJob
  (try dsimp only)
  (repeat' split) <;> simp

/-! ## freeUnits -/

@[simp] theorem freeUnits_pending  (s : State) : (freeUnits s).pending = s.pending := rfl
@[simp] theorem freeUnits_time  (s : State) : (freeUnits s).time = s.time := rfl
@[simp] theorem freeUnits_fresh  (s : State) : (freeUnits s).fresh = s.fresh := rfl
@[simp] theorem freeUnits_fuses  (s : State) : (freeUnits s).fuses = s.fuses := rfl
@[simp] theorem freeUnits_pins  (s : State) : (freeUnits s).pins = s.pins := rfl
@[simp] theorem freeUnits_fw  (s : State) : (freeUnits s).fw = s.fw := rfl
@[simp] theorem freeUnits_pcie  (s : State) : (freeUnits s).pcie = s.pcie := rfl
@[simp] theorem freeUnits_funcs  (s : State) : (freeUnits s).funcs = s.funcs := rfl
@[simp] theorem freeUnits_mem  (s : State) : (freeUnits s).mem = s.mem := rfl
@[simp] theorem freeUnits_host  (s : State) : (freeUnits s).host = s.host := rfl
@[simp] theorem freeUnits_channels  (s : State) : (freeUnits s).channels = s.channels := rfl
@[simp] theorem freeUnits_inv  (s : State) : (freeUnits s).inv = s.inv := rfl
@[simp] theorem freeUnits_cores  (s : State) : (freeUnits s).cores = s.cores := rfl
@[simp] theorem freeUnits_chips  (s : State) : (freeUnits s).chips = s.chips := rfl
@[simp] theorem freeUnits_chipFetch  (s : State) : (freeUnits s).chipFetch = s.chipFetch := rfl
@[simp] theorem freeUnits_gathers  (s : State) : (freeUnits s).gathers = s.gathers := rfl
@[simp] theorem freeUnits_tables  (s : State) : (freeUnits s).tables = s.tables := rfl
@[simp] theorem freeUnits_scores  (s : State) : (freeUnits s).scores = s.scores := rfl
@[simp] theorem freeUnits_resident  (s : State) : (freeUnits s).resident = s.resident := rfl
@[simp] theorem freeUnits_staged  (s : State) : (freeUnits s).staged = s.staged := rfl
@[simp] theorem freeUnits_preempt  (s : State) : (freeUnits s).preempt = s.preempt := rfl
@[simp] theorem freeUnits_groups  (s : State) : (freeUnits s).groups = s.groups := rfl
@[simp] theorem freeUnits_fabric  (s : State) : (freeUnits s).fabric = s.fabric := rfl
@[simp] theorem freeUnits_codec  (s : State) : (freeUnits s).codec = s.codec := rfl
@[simp] theorem freeUnits_power  (s : State) : (freeUnits s).power = s.power := rfl
@[simp] theorem freeUnits_sec  (s : State) : (freeUnits s).sec = s.sec := rfl
@[simp] theorem freeUnits_log  (s : State) : (freeUnits s).log = s.log := rfl
@[simp] theorem freeUnits_test  (s : State) : (freeUnits s).test = s.test := rfl
@[simp] theorem freeUnits_bar2Held  (s : State) : (freeUnits s).bar2Held = s.bar2Held := rfl
@[simp] theorem freeUnits_doorbells  (s : State) : (freeUnits s).doorbells = s.doorbells := rfl
@[simp] theorem freeUnits_lastCaller  (s : State) : (freeUnits s).lastCaller = s.lastCaller := rfl
@[simp] theorem freeUnits_out  (s : State) : (freeUnits s).out = s.out := rfl

/-! ## releaseSave -/

@[simp] theorem releaseSave_pending (id : Nat) (s : State) : (releaseSave id s).pending = s.pending := by
  unfold releaseSave
  (try dsimp only)
  (repeat' split) <;> simp
@[simp] theorem releaseSave_time (id : Nat) (s : State) : (releaseSave id s).time = s.time := by
  unfold releaseSave
  (try dsimp only)
  (repeat' split) <;> simp
@[simp] theorem releaseSave_fresh (id : Nat) (s : State) : (releaseSave id s).fresh = s.fresh := by
  unfold releaseSave
  (try dsimp only)
  (repeat' split) <;> simp
@[simp] theorem releaseSave_fuses (id : Nat) (s : State) : (releaseSave id s).fuses = s.fuses := by
  unfold releaseSave
  (try dsimp only)
  (repeat' split) <;> simp
@[simp] theorem releaseSave_pins (id : Nat) (s : State) : (releaseSave id s).pins = s.pins := by
  unfold releaseSave
  (try dsimp only)
  (repeat' split) <;> simp
@[simp] theorem releaseSave_fw (id : Nat) (s : State) : (releaseSave id s).fw = s.fw := by
  unfold releaseSave
  (try dsimp only)
  (repeat' split) <;> simp
@[simp] theorem releaseSave_pcie (id : Nat) (s : State) : (releaseSave id s).pcie = s.pcie := by
  unfold releaseSave
  (try dsimp only)
  (repeat' split) <;> simp
@[simp] theorem releaseSave_funcs (id : Nat) (s : State) : (releaseSave id s).funcs = s.funcs := by
  unfold releaseSave
  (try dsimp only)
  (repeat' split) <;> simp
@[simp] theorem releaseSave_mem (id : Nat) (s : State) : (releaseSave id s).mem = s.mem := by
  unfold releaseSave
  (try dsimp only)
  (repeat' split) <;> simp
@[simp] theorem releaseSave_host (id : Nat) (s : State) : (releaseSave id s).host = s.host := by
  unfold releaseSave
  (try dsimp only)
  (repeat' split) <;> simp
@[simp] theorem releaseSave_channels (id : Nat) (s : State) : (releaseSave id s).channels = s.channels := by
  unfold releaseSave
  (try dsimp only)
  (repeat' split) <;> simp
@[simp] theorem releaseSave_inv (id : Nat) (s : State) : (releaseSave id s).inv = s.inv := by
  unfold releaseSave
  (try dsimp only)
  (repeat' split) <;> simp
@[simp] theorem releaseSave_cores (id : Nat) (s : State) : (releaseSave id s).cores = s.cores := by
  unfold releaseSave
  (try dsimp only)
  (repeat' split) <;> simp
@[simp] theorem releaseSave_chips (id : Nat) (s : State) : (releaseSave id s).chips = s.chips := by
  unfold releaseSave
  (try dsimp only)
  (repeat' split) <;> simp
@[simp] theorem releaseSave_chipFetch (id : Nat) (s : State) : (releaseSave id s).chipFetch = s.chipFetch := by
  unfold releaseSave
  (try dsimp only)
  (repeat' split) <;> simp
@[simp] theorem releaseSave_gathers (id : Nat) (s : State) : (releaseSave id s).gathers = s.gathers := by
  unfold releaseSave
  (try dsimp only)
  (repeat' split) <;> simp
@[simp] theorem releaseSave_tables (id : Nat) (s : State) : (releaseSave id s).tables = s.tables := by
  unfold releaseSave
  (try dsimp only)
  (repeat' split) <;> simp
@[simp] theorem releaseSave_scores (id : Nat) (s : State) : (releaseSave id s).scores = s.scores := by
  unfold releaseSave
  (try dsimp only)
  (repeat' split) <;> simp
@[simp] theorem releaseSave_resident (id : Nat) (s : State) : (releaseSave id s).resident = s.resident := by
  unfold releaseSave
  (try dsimp only)
  (repeat' split) <;> simp
@[simp] theorem releaseSave_staged (id : Nat) (s : State) : (releaseSave id s).staged = s.staged := by
  unfold releaseSave
  (try dsimp only)
  (repeat' split) <;> simp
@[simp] theorem releaseSave_preempt (id : Nat) (s : State) : (releaseSave id s).preempt = s.preempt := by
  unfold releaseSave
  (try dsimp only)
  (repeat' split) <;> simp
@[simp] theorem releaseSave_groups (id : Nat) (s : State) : (releaseSave id s).groups = s.groups := by
  unfold releaseSave
  (try dsimp only)
  (repeat' split) <;> simp
@[simp] theorem releaseSave_fabric (id : Nat) (s : State) : (releaseSave id s).fabric = s.fabric := by
  unfold releaseSave
  (try dsimp only)
  (repeat' split) <;> simp
@[simp] theorem releaseSave_codec (id : Nat) (s : State) : (releaseSave id s).codec = s.codec := by
  unfold releaseSave
  (try dsimp only)
  (repeat' split) <;> simp
@[simp] theorem releaseSave_power (id : Nat) (s : State) : (releaseSave id s).power = s.power := by
  unfold releaseSave
  (try dsimp only)
  (repeat' split) <;> simp
@[simp] theorem releaseSave_sec (id : Nat) (s : State) : (releaseSave id s).sec = s.sec := by
  unfold releaseSave
  (try dsimp only)
  (repeat' split) <;> simp
@[simp] theorem releaseSave_log (id : Nat) (s : State) : (releaseSave id s).log = s.log := by
  unfold releaseSave
  (try dsimp only)
  (repeat' split) <;> simp
@[simp] theorem releaseSave_test (id : Nat) (s : State) : (releaseSave id s).test = s.test := by
  unfold releaseSave
  (try dsimp only)
  (repeat' split) <;> simp
@[simp] theorem releaseSave_bar2Held (id : Nat) (s : State) : (releaseSave id s).bar2Held = s.bar2Held := by
  unfold releaseSave
  (try dsimp only)
  (repeat' split) <;> simp
@[simp] theorem releaseSave_doorbells (id : Nat) (s : State) : (releaseSave id s).doorbells = s.doorbells := by
  unfold releaseSave
  (try dsimp only)
  (repeat' split) <;> simp
@[simp] theorem releaseSave_lastCaller (id : Nat) (s : State) : (releaseSave id s).lastCaller = s.lastCaller := by
  unfold releaseSave
  (try dsimp only)
  (repeat' split) <;> simp
@[simp] theorem releaseSave_out (id : Nat) (s : State) : (releaseSave id s).out = s.out := by
  unfold releaseSave
  (try dsimp only)
  (repeat' split) <;> simp

/-! ## dropBody -/

@[simp] theorem dropBody_pending (id : Nat) (s : State) : (dropBody id s).pending = s.pending := rfl
@[simp] theorem dropBody_time (id : Nat) (s : State) : (dropBody id s).time = s.time := rfl
@[simp] theorem dropBody_fresh (id : Nat) (s : State) : (dropBody id s).fresh = s.fresh := rfl
@[simp] theorem dropBody_fuses (id : Nat) (s : State) : (dropBody id s).fuses = s.fuses := rfl
@[simp] theorem dropBody_pins (id : Nat) (s : State) : (dropBody id s).pins = s.pins := rfl
@[simp] theorem dropBody_fw (id : Nat) (s : State) : (dropBody id s).fw = s.fw := rfl
@[simp] theorem dropBody_pcie (id : Nat) (s : State) : (dropBody id s).pcie = s.pcie := rfl
@[simp] theorem dropBody_funcs (id : Nat) (s : State) : (dropBody id s).funcs = s.funcs := rfl
@[simp] theorem dropBody_mem (id : Nat) (s : State) : (dropBody id s).mem = s.mem := rfl
@[simp] theorem dropBody_host (id : Nat) (s : State) : (dropBody id s).host = s.host := rfl
@[simp] theorem dropBody_channels (id : Nat) (s : State) : (dropBody id s).channels = s.channels := rfl
@[simp] theorem dropBody_inv (id : Nat) (s : State) : (dropBody id s).inv = s.inv := rfl
@[simp] theorem dropBody_cores (id : Nat) (s : State) : (dropBody id s).cores = s.cores := rfl
@[simp] theorem dropBody_chips (id : Nat) (s : State) : (dropBody id s).chips = s.chips := rfl
@[simp] theorem dropBody_chipFetch (id : Nat) (s : State) : (dropBody id s).chipFetch = s.chipFetch := rfl
@[simp] theorem dropBody_gathers (id : Nat) (s : State) : (dropBody id s).gathers = s.gathers := rfl
@[simp] theorem dropBody_tables (id : Nat) (s : State) : (dropBody id s).tables = s.tables := rfl
@[simp] theorem dropBody_scores (id : Nat) (s : State) : (dropBody id s).scores = s.scores := rfl
@[simp] theorem dropBody_resident (id : Nat) (s : State) : (dropBody id s).resident = s.resident := rfl
@[simp] theorem dropBody_sched (id : Nat) (s : State) : (dropBody id s).sched = s.sched := rfl
@[simp] theorem dropBody_staged (id : Nat) (s : State) : (dropBody id s).staged = s.staged := rfl
@[simp] theorem dropBody_preempt (id : Nat) (s : State) : (dropBody id s).preempt = s.preempt := rfl
@[simp] theorem dropBody_groups (id : Nat) (s : State) : (dropBody id s).groups = s.groups := rfl
@[simp] theorem dropBody_fabric (id : Nat) (s : State) : (dropBody id s).fabric = s.fabric := rfl
@[simp] theorem dropBody_codec (id : Nat) (s : State) : (dropBody id s).codec = s.codec := rfl
@[simp] theorem dropBody_power (id : Nat) (s : State) : (dropBody id s).power = s.power := rfl
@[simp] theorem dropBody_log (id : Nat) (s : State) : (dropBody id s).log = s.log := rfl
@[simp] theorem dropBody_test (id : Nat) (s : State) : (dropBody id s).test = s.test := rfl
@[simp] theorem dropBody_bar2Held (id : Nat) (s : State) : (dropBody id s).bar2Held = s.bar2Held := rfl
@[simp] theorem dropBody_doorbells (id : Nat) (s : State) : (dropBody id s).doorbells = s.doorbells := rfl
@[simp] theorem dropBody_lastCaller (id : Nat) (s : State) : (dropBody id s).lastCaller = s.lastCaller := rfl
@[simp] theorem dropBody_out (id : Nat) (s : State) : (dropBody id s).out = s.out := rfl

/-! ## restClocks -/

@[simp] theorem restClocks_pending  (s : State) : (restClocks s).pending = s.pending := rfl
@[simp] theorem restClocks_time  (s : State) : (restClocks s).time = s.time := rfl
@[simp] theorem restClocks_fresh  (s : State) : (restClocks s).fresh = s.fresh := rfl
@[simp] theorem restClocks_fuses  (s : State) : (restClocks s).fuses = s.fuses := rfl
@[simp] theorem restClocks_pins  (s : State) : (restClocks s).pins = s.pins := rfl
@[simp] theorem restClocks_fw  (s : State) : (restClocks s).fw = s.fw := rfl
@[simp] theorem restClocks_pcie  (s : State) : (restClocks s).pcie = s.pcie := rfl
@[simp] theorem restClocks_funcs  (s : State) : (restClocks s).funcs = s.funcs := rfl
@[simp] theorem restClocks_mem  (s : State) : (restClocks s).mem = s.mem := rfl
@[simp] theorem restClocks_host  (s : State) : (restClocks s).host = s.host := rfl
@[simp] theorem restClocks_channels  (s : State) : (restClocks s).channels = s.channels := rfl
@[simp] theorem restClocks_inv  (s : State) : (restClocks s).inv = s.inv := rfl
@[simp] theorem restClocks_cores  (s : State) : (restClocks s).cores = s.cores := rfl
@[simp] theorem restClocks_chips  (s : State) : (restClocks s).chips = s.chips := rfl
@[simp] theorem restClocks_chipFetch  (s : State) : (restClocks s).chipFetch = s.chipFetch := rfl
@[simp] theorem restClocks_gathers  (s : State) : (restClocks s).gathers = s.gathers := rfl
@[simp] theorem restClocks_tables  (s : State) : (restClocks s).tables = s.tables := rfl
@[simp] theorem restClocks_scores  (s : State) : (restClocks s).scores = s.scores := rfl
@[simp] theorem restClocks_resident  (s : State) : (restClocks s).resident = s.resident := rfl
@[simp] theorem restClocks_sched  (s : State) : (restClocks s).sched = s.sched := rfl
@[simp] theorem restClocks_staged  (s : State) : (restClocks s).staged = s.staged := rfl
@[simp] theorem restClocks_preempt  (s : State) : (restClocks s).preempt = s.preempt := rfl
@[simp] theorem restClocks_groups  (s : State) : (restClocks s).groups = s.groups := rfl
@[simp] theorem restClocks_fabric  (s : State) : (restClocks s).fabric = s.fabric := rfl
@[simp] theorem restClocks_codec  (s : State) : (restClocks s).codec = s.codec := rfl
@[simp] theorem restClocks_sec  (s : State) : (restClocks s).sec = s.sec := rfl
@[simp] theorem restClocks_log  (s : State) : (restClocks s).log = s.log := rfl
@[simp] theorem restClocks_test  (s : State) : (restClocks s).test = s.test := rfl
@[simp] theorem restClocks_bar2Held  (s : State) : (restClocks s).bar2Held = s.bar2Held := rfl
@[simp] theorem restClocks_doorbells  (s : State) : (restClocks s).doorbells = s.doorbells := rfl
@[simp] theorem restClocks_lastCaller  (s : State) : (restClocks s).lastCaller = s.lastCaller := rfl
@[simp] theorem restClocks_out  (s : State) : (restClocks s).out = s.out := rfl

/-! ## noteReady -/

@[simp] theorem noteReady_pending  (s : State) : (noteReady s).pending = s.pending := rfl
@[simp] theorem noteReady_time  (s : State) : (noteReady s).time = s.time := rfl
@[simp] theorem noteReady_fresh  (s : State) : (noteReady s).fresh = s.fresh := rfl
@[simp] theorem noteReady_fuses  (s : State) : (noteReady s).fuses = s.fuses := rfl
@[simp] theorem noteReady_pins  (s : State) : (noteReady s).pins = s.pins := rfl
@[simp] theorem noteReady_fw  (s : State) : (noteReady s).fw = s.fw := rfl
@[simp] theorem noteReady_pcie  (s : State) : (noteReady s).pcie = s.pcie := rfl
@[simp] theorem noteReady_funcs  (s : State) : (noteReady s).funcs = s.funcs := rfl
@[simp] theorem noteReady_mem  (s : State) : (noteReady s).mem = s.mem := rfl
@[simp] theorem noteReady_host  (s : State) : (noteReady s).host = s.host := rfl
@[simp] theorem noteReady_channels  (s : State) : (noteReady s).channels = s.channels := rfl
@[simp] theorem noteReady_inv  (s : State) : (noteReady s).inv = s.inv := rfl
@[simp] theorem noteReady_cores  (s : State) : (noteReady s).cores = s.cores := rfl
@[simp] theorem noteReady_chips  (s : State) : (noteReady s).chips = s.chips := rfl
@[simp] theorem noteReady_chipFetch  (s : State) : (noteReady s).chipFetch = s.chipFetch := rfl
@[simp] theorem noteReady_gathers  (s : State) : (noteReady s).gathers = s.gathers := rfl
@[simp] theorem noteReady_tables  (s : State) : (noteReady s).tables = s.tables := rfl
@[simp] theorem noteReady_scores  (s : State) : (noteReady s).scores = s.scores := rfl
@[simp] theorem noteReady_resident  (s : State) : (noteReady s).resident = s.resident := rfl
@[simp] theorem noteReady_staged  (s : State) : (noteReady s).staged = s.staged := rfl
@[simp] theorem noteReady_preempt  (s : State) : (noteReady s).preempt = s.preempt := rfl
@[simp] theorem noteReady_groups  (s : State) : (noteReady s).groups = s.groups := rfl
@[simp] theorem noteReady_fabric  (s : State) : (noteReady s).fabric = s.fabric := rfl
@[simp] theorem noteReady_codec  (s : State) : (noteReady s).codec = s.codec := rfl
@[simp] theorem noteReady_power  (s : State) : (noteReady s).power = s.power := rfl
@[simp] theorem noteReady_sec  (s : State) : (noteReady s).sec = s.sec := rfl
@[simp] theorem noteReady_log  (s : State) : (noteReady s).log = s.log := rfl
@[simp] theorem noteReady_test  (s : State) : (noteReady s).test = s.test := rfl
@[simp] theorem noteReady_bar2Held  (s : State) : (noteReady s).bar2Held = s.bar2Held := rfl
@[simp] theorem noteReady_doorbells  (s : State) : (noteReady s).doorbells = s.doorbells := rfl
@[simp] theorem noteReady_lastCaller  (s : State) : (noteReady s).lastCaller = s.lastCaller := rfl
@[simp] theorem noteReady_out  (s : State) : (noteReady s).out = s.out := rfl

/-! ## dropTiles -/

@[simp] theorem dropTiles_pending  (s : State) : (dropTiles s).pending = s.pending := rfl
@[simp] theorem dropTiles_time  (s : State) : (dropTiles s).time = s.time := rfl
@[simp] theorem dropTiles_fresh  (s : State) : (dropTiles s).fresh = s.fresh := rfl
@[simp] theorem dropTiles_fuses  (s : State) : (dropTiles s).fuses = s.fuses := rfl
@[simp] theorem dropTiles_pins  (s : State) : (dropTiles s).pins = s.pins := rfl
@[simp] theorem dropTiles_fw  (s : State) : (dropTiles s).fw = s.fw := rfl
@[simp] theorem dropTiles_pcie  (s : State) : (dropTiles s).pcie = s.pcie := rfl
@[simp] theorem dropTiles_funcs  (s : State) : (dropTiles s).funcs = s.funcs := rfl
@[simp] theorem dropTiles_mem  (s : State) : (dropTiles s).mem = s.mem := rfl
@[simp] theorem dropTiles_host  (s : State) : (dropTiles s).host = s.host := rfl
@[simp] theorem dropTiles_channels  (s : State) : (dropTiles s).channels = s.channels := rfl
@[simp] theorem dropTiles_inv  (s : State) : (dropTiles s).inv = s.inv := rfl
@[simp] theorem dropTiles_chips  (s : State) : (dropTiles s).chips = s.chips := rfl
@[simp] theorem dropTiles_chipFetch  (s : State) : (dropTiles s).chipFetch = s.chipFetch := rfl
@[simp] theorem dropTiles_gathers  (s : State) : (dropTiles s).gathers = s.gathers := rfl
@[simp] theorem dropTiles_tables  (s : State) : (dropTiles s).tables = s.tables := rfl
@[simp] theorem dropTiles_scores  (s : State) : (dropTiles s).scores = s.scores := rfl
@[simp] theorem dropTiles_resident  (s : State) : (dropTiles s).resident = s.resident := rfl
@[simp] theorem dropTiles_sched  (s : State) : (dropTiles s).sched = s.sched := rfl
@[simp] theorem dropTiles_staged  (s : State) : (dropTiles s).staged = s.staged := rfl
@[simp] theorem dropTiles_preempt  (s : State) : (dropTiles s).preempt = s.preempt := rfl
@[simp] theorem dropTiles_groups  (s : State) : (dropTiles s).groups = s.groups := rfl
@[simp] theorem dropTiles_fabric  (s : State) : (dropTiles s).fabric = s.fabric := rfl
@[simp] theorem dropTiles_codec  (s : State) : (dropTiles s).codec = s.codec := rfl
@[simp] theorem dropTiles_power  (s : State) : (dropTiles s).power = s.power := rfl
@[simp] theorem dropTiles_sec  (s : State) : (dropTiles s).sec = s.sec := rfl
@[simp] theorem dropTiles_log  (s : State) : (dropTiles s).log = s.log := rfl
@[simp] theorem dropTiles_test  (s : State) : (dropTiles s).test = s.test := rfl
@[simp] theorem dropTiles_bar2Held  (s : State) : (dropTiles s).bar2Held = s.bar2Held := rfl
@[simp] theorem dropTiles_doorbells  (s : State) : (dropTiles s).doorbells = s.doorbells := rfl
@[simp] theorem dropTiles_lastCaller  (s : State) : (dropTiles s).lastCaller = s.lastCaller := rfl
@[simp] theorem dropTiles_out  (s : State) : (dropTiles s).out = s.out := rfl

/-! ## beginKernel -/

@[simp] theorem beginKernel_pending (j : Job) (bar : Nat) (l : List LoopLevel) (s : State) : (beginKernel j bar l s).pending = s.pending := by
  unfold beginKernel
  (try dsimp only)
  (repeat' split) <;> simp
@[simp] theorem beginKernel_time (j : Job) (bar : Nat) (l : List LoopLevel) (s : State) : (beginKernel j bar l s).time = s.time := by
  unfold beginKernel
  (try dsimp only)
  (repeat' split) <;> simp
@[simp] theorem beginKernel_fresh (j : Job) (bar : Nat) (l : List LoopLevel) (s : State) : (beginKernel j bar l s).fresh = s.fresh := by
  unfold beginKernel
  (try dsimp only)
  (repeat' split) <;> simp
@[simp] theorem beginKernel_fuses (j : Job) (bar : Nat) (l : List LoopLevel) (s : State) : (beginKernel j bar l s).fuses = s.fuses := by
  unfold beginKernel
  (try dsimp only)
  (repeat' split) <;> simp
@[simp] theorem beginKernel_pins (j : Job) (bar : Nat) (l : List LoopLevel) (s : State) : (beginKernel j bar l s).pins = s.pins := by
  unfold beginKernel
  (try dsimp only)
  (repeat' split) <;> simp
@[simp] theorem beginKernel_fw (j : Job) (bar : Nat) (l : List LoopLevel) (s : State) : (beginKernel j bar l s).fw = s.fw := by
  unfold beginKernel
  (try dsimp only)
  (repeat' split) <;> simp
@[simp] theorem beginKernel_pcie (j : Job) (bar : Nat) (l : List LoopLevel) (s : State) : (beginKernel j bar l s).pcie = s.pcie := by
  unfold beginKernel
  (try dsimp only)
  (repeat' split) <;> simp
@[simp] theorem beginKernel_funcs (j : Job) (bar : Nat) (l : List LoopLevel) (s : State) : (beginKernel j bar l s).funcs = s.funcs := by
  unfold beginKernel
  (try dsimp only)
  (repeat' split) <;> simp
@[simp] theorem beginKernel_mem (j : Job) (bar : Nat) (l : List LoopLevel) (s : State) : (beginKernel j bar l s).mem = s.mem := by
  unfold beginKernel
  (try dsimp only)
  (repeat' split) <;> simp
@[simp] theorem beginKernel_host (j : Job) (bar : Nat) (l : List LoopLevel) (s : State) : (beginKernel j bar l s).host = s.host := by
  unfold beginKernel
  (try dsimp only)
  (repeat' split) <;> simp
@[simp] theorem beginKernel_channels (j : Job) (bar : Nat) (l : List LoopLevel) (s : State) : (beginKernel j bar l s).channels = s.channels := by
  unfold beginKernel
  (try dsimp only)
  (repeat' split) <;> simp
@[simp] theorem beginKernel_inv (j : Job) (bar : Nat) (l : List LoopLevel) (s : State) : (beginKernel j bar l s).inv = s.inv := by
  unfold beginKernel
  (try dsimp only)
  (repeat' split) <;> simp
@[simp] theorem beginKernel_tables (j : Job) (bar : Nat) (l : List LoopLevel) (s : State) : (beginKernel j bar l s).tables = s.tables := by
  unfold beginKernel
  (try dsimp only)
  (repeat' split) <;> simp
@[simp] theorem beginKernel_scores (j : Job) (bar : Nat) (l : List LoopLevel) (s : State) : (beginKernel j bar l s).scores = s.scores := by
  unfold beginKernel
  (try dsimp only)
  (repeat' split) <;> simp
@[simp] theorem beginKernel_resident (j : Job) (bar : Nat) (l : List LoopLevel) (s : State) : (beginKernel j bar l s).resident = s.resident := by
  unfold beginKernel
  (try dsimp only)
  (repeat' split) <;> simp
@[simp] theorem beginKernel_staged (j : Job) (bar : Nat) (l : List LoopLevel) (s : State) : (beginKernel j bar l s).staged = s.staged := by
  unfold beginKernel
  (try dsimp only)
  (repeat' split) <;> simp
@[simp] theorem beginKernel_preempt (j : Job) (bar : Nat) (l : List LoopLevel) (s : State) : (beginKernel j bar l s).preempt = s.preempt := by
  unfold beginKernel
  (try dsimp only)
  (repeat' split) <;> simp
@[simp] theorem beginKernel_groups (j : Job) (bar : Nat) (l : List LoopLevel) (s : State) : (beginKernel j bar l s).groups = s.groups := by
  unfold beginKernel
  (try dsimp only)
  (repeat' split) <;> simp
@[simp] theorem beginKernel_codec (j : Job) (bar : Nat) (l : List LoopLevel) (s : State) : (beginKernel j bar l s).codec = s.codec := by
  unfold beginKernel
  (try dsimp only)
  (repeat' split) <;> simp
@[simp] theorem beginKernel_sec (j : Job) (bar : Nat) (l : List LoopLevel) (s : State) : (beginKernel j bar l s).sec = s.sec := by
  unfold beginKernel
  (try dsimp only)
  (repeat' split) <;> simp
@[simp] theorem beginKernel_log (j : Job) (bar : Nat) (l : List LoopLevel) (s : State) : (beginKernel j bar l s).log = s.log := by
  unfold beginKernel
  (try dsimp only)
  (repeat' split) <;> simp
@[simp] theorem beginKernel_test (j : Job) (bar : Nat) (l : List LoopLevel) (s : State) : (beginKernel j bar l s).test = s.test := by
  unfold beginKernel
  (try dsimp only)
  (repeat' split) <;> simp
@[simp] theorem beginKernel_bar2Held (j : Job) (bar : Nat) (l : List LoopLevel) (s : State) : (beginKernel j bar l s).bar2Held = s.bar2Held := by
  unfold beginKernel
  (try dsimp only)
  (repeat' split) <;> simp
@[simp] theorem beginKernel_doorbells (j : Job) (bar : Nat) (l : List LoopLevel) (s : State) : (beginKernel j bar l s).doorbells = s.doorbells := by
  unfold beginKernel
  (try dsimp only)
  (repeat' split) <;> simp
@[simp] theorem beginKernel_lastCaller (j : Job) (bar : Nat) (l : List LoopLevel) (s : State) : (beginKernel j bar l s).lastCaller = s.lastCaller := by
  unfold beginKernel
  (try dsimp only)
  (repeat' split) <;> simp
@[simp] theorem beginKernel_out (j : Job) (bar : Nat) (l : List LoopLevel) (s : State) : (beginKernel j bar l s).out = s.out := by
  unfold beginKernel
  (try dsimp only)
  (repeat' split) <;> simp

/-! ## beginTurn -/

@[simp] theorem beginTurn_pending (j : Job) (bar : Nat) (l : List LoopLevel) (s : State) : (beginTurn j bar l s).pending = s.pending := by
  unfold beginTurn
  (try dsimp only)
  (repeat' split) <;> simp
@[simp] theorem beginTurn_time (j : Job) (bar : Nat) (l : List LoopLevel) (s : State) : (beginTurn j bar l s).time = s.time := by
  unfold beginTurn
  (try dsimp only)
  (repeat' split) <;> simp
@[simp] theorem beginTurn_fresh (j : Job) (bar : Nat) (l : List LoopLevel) (s : State) : (beginTurn j bar l s).fresh = s.fresh := by
  unfold beginTurn
  (try dsimp only)
  (repeat' split) <;> simp
@[simp] theorem beginTurn_fuses (j : Job) (bar : Nat) (l : List LoopLevel) (s : State) : (beginTurn j bar l s).fuses = s.fuses := by
  unfold beginTurn
  (try dsimp only)
  (repeat' split) <;> simp
@[simp] theorem beginTurn_pins (j : Job) (bar : Nat) (l : List LoopLevel) (s : State) : (beginTurn j bar l s).pins = s.pins := by
  unfold beginTurn
  (try dsimp only)
  (repeat' split) <;> simp
@[simp] theorem beginTurn_fw (j : Job) (bar : Nat) (l : List LoopLevel) (s : State) : (beginTurn j bar l s).fw = s.fw := by
  unfold beginTurn
  (try dsimp only)
  (repeat' split) <;> simp
@[simp] theorem beginTurn_pcie (j : Job) (bar : Nat) (l : List LoopLevel) (s : State) : (beginTurn j bar l s).pcie = s.pcie := by
  unfold beginTurn
  (try dsimp only)
  (repeat' split) <;> simp
@[simp] theorem beginTurn_funcs (j : Job) (bar : Nat) (l : List LoopLevel) (s : State) : (beginTurn j bar l s).funcs = s.funcs := by
  unfold beginTurn
  (try dsimp only)
  (repeat' split) <;> simp
@[simp] theorem beginTurn_mem (j : Job) (bar : Nat) (l : List LoopLevel) (s : State) : (beginTurn j bar l s).mem = s.mem := by
  unfold beginTurn
  (try dsimp only)
  (repeat' split) <;> simp
@[simp] theorem beginTurn_host (j : Job) (bar : Nat) (l : List LoopLevel) (s : State) : (beginTurn j bar l s).host = s.host := by
  unfold beginTurn
  (try dsimp only)
  (repeat' split) <;> simp
@[simp] theorem beginTurn_channels (j : Job) (bar : Nat) (l : List LoopLevel) (s : State) : (beginTurn j bar l s).channels = s.channels := by
  unfold beginTurn
  (try dsimp only)
  (repeat' split) <;> simp
@[simp] theorem beginTurn_inv (j : Job) (bar : Nat) (l : List LoopLevel) (s : State) : (beginTurn j bar l s).inv = s.inv := by
  unfold beginTurn
  (try dsimp only)
  (repeat' split) <;> simp
@[simp] theorem beginTurn_tables (j : Job) (bar : Nat) (l : List LoopLevel) (s : State) : (beginTurn j bar l s).tables = s.tables := by
  unfold beginTurn
  (try dsimp only)
  (repeat' split) <;> simp
@[simp] theorem beginTurn_scores (j : Job) (bar : Nat) (l : List LoopLevel) (s : State) : (beginTurn j bar l s).scores = s.scores := by
  unfold beginTurn
  (try dsimp only)
  (repeat' split) <;> simp
@[simp] theorem beginTurn_resident (j : Job) (bar : Nat) (l : List LoopLevel) (s : State) : (beginTurn j bar l s).resident = s.resident := by
  unfold beginTurn
  (try dsimp only)
  (repeat' split) <;> simp
@[simp] theorem beginTurn_staged (j : Job) (bar : Nat) (l : List LoopLevel) (s : State) : (beginTurn j bar l s).staged = s.staged := by
  unfold beginTurn
  (try dsimp only)
  (repeat' split) <;> simp
@[simp] theorem beginTurn_preempt (j : Job) (bar : Nat) (l : List LoopLevel) (s : State) : (beginTurn j bar l s).preempt = s.preempt := by
  unfold beginTurn
  (try dsimp only)
  (repeat' split) <;> simp
@[simp] theorem beginTurn_groups (j : Job) (bar : Nat) (l : List LoopLevel) (s : State) : (beginTurn j bar l s).groups = s.groups := by
  unfold beginTurn
  (try dsimp only)
  (repeat' split) <;> simp
@[simp] theorem beginTurn_codec (j : Job) (bar : Nat) (l : List LoopLevel) (s : State) : (beginTurn j bar l s).codec = s.codec := by
  unfold beginTurn
  (try dsimp only)
  (repeat' split) <;> simp
@[simp] theorem beginTurn_sec (j : Job) (bar : Nat) (l : List LoopLevel) (s : State) : (beginTurn j bar l s).sec = s.sec := by
  unfold beginTurn
  (try dsimp only)
  (repeat' split) <;> simp
@[simp] theorem beginTurn_log (j : Job) (bar : Nat) (l : List LoopLevel) (s : State) : (beginTurn j bar l s).log = s.log := by
  unfold beginTurn
  (try dsimp only)
  (repeat' split) <;> simp
@[simp] theorem beginTurn_test (j : Job) (bar : Nat) (l : List LoopLevel) (s : State) : (beginTurn j bar l s).test = s.test := by
  unfold beginTurn
  (try dsimp only)
  (repeat' split) <;> simp
@[simp] theorem beginTurn_bar2Held (j : Job) (bar : Nat) (l : List LoopLevel) (s : State) : (beginTurn j bar l s).bar2Held = s.bar2Held := by
  unfold beginTurn
  (try dsimp only)
  (repeat' split) <;> simp
@[simp] theorem beginTurn_doorbells (j : Job) (bar : Nat) (l : List LoopLevel) (s : State) : (beginTurn j bar l s).doorbells = s.doorbells := by
  unfold beginTurn
  (try dsimp only)
  (repeat' split) <;> simp
@[simp] theorem beginTurn_lastCaller (j : Job) (bar : Nat) (l : List LoopLevel) (s : State) : (beginTurn j bar l s).lastCaller = s.lastCaller := by
  unfold beginTurn
  (try dsimp only)
  (repeat' split) <;> simp
@[simp] theorem beginTurn_out (j : Job) (bar : Nat) (l : List LoopLevel) (s : State) : (beginTurn j bar l s).out = s.out := by
  unfold beginTurn
  (try dsimp only)
  (repeat' split) <;> simp

/-! ## beginWait -/

@[simp] theorem beginWait_pending (id : Nat) (st : JobStage) (s : State) : (beginWait id st s).pending = s.pending := rfl
@[simp] theorem beginWait_time (id : Nat) (st : JobStage) (s : State) : (beginWait id st s).time = s.time := rfl
@[simp] theorem beginWait_fresh (id : Nat) (st : JobStage) (s : State) : (beginWait id st s).fresh = s.fresh := rfl
@[simp] theorem beginWait_fuses (id : Nat) (st : JobStage) (s : State) : (beginWait id st s).fuses = s.fuses := rfl
@[simp] theorem beginWait_pins (id : Nat) (st : JobStage) (s : State) : (beginWait id st s).pins = s.pins := rfl
@[simp] theorem beginWait_fw (id : Nat) (st : JobStage) (s : State) : (beginWait id st s).fw = s.fw := rfl
@[simp] theorem beginWait_pcie (id : Nat) (st : JobStage) (s : State) : (beginWait id st s).pcie = s.pcie := rfl
@[simp] theorem beginWait_funcs (id : Nat) (st : JobStage) (s : State) : (beginWait id st s).funcs = s.funcs := rfl
@[simp] theorem beginWait_mem (id : Nat) (st : JobStage) (s : State) : (beginWait id st s).mem = s.mem := rfl
@[simp] theorem beginWait_host (id : Nat) (st : JobStage) (s : State) : (beginWait id st s).host = s.host := rfl
@[simp] theorem beginWait_channels (id : Nat) (st : JobStage) (s : State) : (beginWait id st s).channels = s.channels := rfl
@[simp] theorem beginWait_inv (id : Nat) (st : JobStage) (s : State) : (beginWait id st s).inv = s.inv := rfl
@[simp] theorem beginWait_cores (id : Nat) (st : JobStage) (s : State) : (beginWait id st s).cores = s.cores := rfl
@[simp] theorem beginWait_chips (id : Nat) (st : JobStage) (s : State) : (beginWait id st s).chips = s.chips := rfl
@[simp] theorem beginWait_chipFetch (id : Nat) (st : JobStage) (s : State) : (beginWait id st s).chipFetch = s.chipFetch := rfl
@[simp] theorem beginWait_gathers (id : Nat) (st : JobStage) (s : State) : (beginWait id st s).gathers = s.gathers := rfl
@[simp] theorem beginWait_tables (id : Nat) (st : JobStage) (s : State) : (beginWait id st s).tables = s.tables := rfl
@[simp] theorem beginWait_scores (id : Nat) (st : JobStage) (s : State) : (beginWait id st s).scores = s.scores := rfl
@[simp] theorem beginWait_resident (id : Nat) (st : JobStage) (s : State) : (beginWait id st s).resident = s.resident := rfl
@[simp] theorem beginWait_staged (id : Nat) (st : JobStage) (s : State) : (beginWait id st s).staged = s.staged := rfl
@[simp] theorem beginWait_preempt (id : Nat) (st : JobStage) (s : State) : (beginWait id st s).preempt = s.preempt := rfl
@[simp] theorem beginWait_groups (id : Nat) (st : JobStage) (s : State) : (beginWait id st s).groups = s.groups := rfl
@[simp] theorem beginWait_fabric (id : Nat) (st : JobStage) (s : State) : (beginWait id st s).fabric = s.fabric := rfl
@[simp] theorem beginWait_codec (id : Nat) (st : JobStage) (s : State) : (beginWait id st s).codec = s.codec := rfl
@[simp] theorem beginWait_power (id : Nat) (st : JobStage) (s : State) : (beginWait id st s).power = s.power := rfl
@[simp] theorem beginWait_sec (id : Nat) (st : JobStage) (s : State) : (beginWait id st s).sec = s.sec := rfl
@[simp] theorem beginWait_log (id : Nat) (st : JobStage) (s : State) : (beginWait id st s).log = s.log := rfl
@[simp] theorem beginWait_test (id : Nat) (st : JobStage) (s : State) : (beginWait id st s).test = s.test := rfl
@[simp] theorem beginWait_bar2Held (id : Nat) (st : JobStage) (s : State) : (beginWait id st s).bar2Held = s.bar2Held := rfl
@[simp] theorem beginWait_doorbells (id : Nat) (st : JobStage) (s : State) : (beginWait id st s).doorbells = s.doorbells := rfl
@[simp] theorem beginWait_lastCaller (id : Nat) (st : JobStage) (s : State) : (beginWait id st s).lastCaller = s.lastCaller := rfl
@[simp] theorem beginWait_out (id : Nat) (st : JobStage) (s : State) : (beginWait id st s).out = s.out := rfl

/-! ## resumeJob -/

@[simp] theorem resumeJob_pending (j : Job) (s : State) : (resumeJob j s).pending = s.pending := by
  unfold resumeJob
  (try dsimp only)
  (repeat' split) <;> simp
@[simp] theorem resumeJob_time (j : Job) (s : State) : (resumeJob j s).time = s.time := by
  unfold resumeJob
  (try dsimp only)
  (repeat' split) <;> simp
@[simp] theorem resumeJob_fresh (j : Job) (s : State) : (resumeJob j s).fresh = s.fresh := by
  unfold resumeJob
  (try dsimp only)
  (repeat' split) <;> simp
@[simp] theorem resumeJob_fuses (j : Job) (s : State) : (resumeJob j s).fuses = s.fuses := by
  unfold resumeJob
  (try dsimp only)
  (repeat' split) <;> simp
@[simp] theorem resumeJob_pins (j : Job) (s : State) : (resumeJob j s).pins = s.pins := by
  unfold resumeJob
  (try dsimp only)
  (repeat' split) <;> simp
@[simp] theorem resumeJob_fw (j : Job) (s : State) : (resumeJob j s).fw = s.fw := by
  unfold resumeJob
  (try dsimp only)
  (repeat' split) <;> simp
@[simp] theorem resumeJob_pcie (j : Job) (s : State) : (resumeJob j s).pcie = s.pcie := by
  unfold resumeJob
  (try dsimp only)
  (repeat' split) <;> simp
@[simp] theorem resumeJob_funcs (j : Job) (s : State) : (resumeJob j s).funcs = s.funcs := by
  unfold resumeJob
  (try dsimp only)
  (repeat' split) <;> simp
@[simp] theorem resumeJob_mem (j : Job) (s : State) : (resumeJob j s).mem = s.mem := by
  unfold resumeJob
  (try dsimp only)
  (repeat' split) <;> simp
@[simp] theorem resumeJob_host (j : Job) (s : State) : (resumeJob j s).host = s.host := by
  unfold resumeJob
  (try dsimp only)
  (repeat' split) <;> simp
@[simp] theorem resumeJob_channels (j : Job) (s : State) : (resumeJob j s).channels = s.channels := by
  unfold resumeJob
  (try dsimp only)
  (repeat' split) <;> simp
@[simp] theorem resumeJob_inv (j : Job) (s : State) : (resumeJob j s).inv = s.inv := by
  unfold resumeJob
  (try dsimp only)
  (repeat' split) <;> simp
@[simp] theorem resumeJob_tables (j : Job) (s : State) : (resumeJob j s).tables = s.tables := by
  unfold resumeJob
  (try dsimp only)
  (repeat' split) <;> simp
@[simp] theorem resumeJob_scores (j : Job) (s : State) : (resumeJob j s).scores = s.scores := by
  unfold resumeJob
  (try dsimp only)
  (repeat' split) <;> simp
@[simp] theorem resumeJob_resident (j : Job) (s : State) : (resumeJob j s).resident = s.resident := by
  unfold resumeJob
  (try dsimp only)
  (repeat' split) <;> simp
@[simp] theorem resumeJob_staged (j : Job) (s : State) : (resumeJob j s).staged = s.staged := by
  unfold resumeJob
  (try dsimp only)
  (repeat' split) <;> simp
@[simp] theorem resumeJob_preempt (j : Job) (s : State) : (resumeJob j s).preempt = s.preempt := by
  unfold resumeJob
  (try dsimp only)
  (repeat' split) <;> simp
@[simp] theorem resumeJob_groups (j : Job) (s : State) : (resumeJob j s).groups = s.groups := by
  unfold resumeJob
  (try dsimp only)
  (repeat' split) <;> simp
@[simp] theorem resumeJob_codec (j : Job) (s : State) : (resumeJob j s).codec = s.codec := by
  unfold resumeJob
  (try dsimp only)
  (repeat' split) <;> simp
@[simp] theorem resumeJob_sec (j : Job) (s : State) : (resumeJob j s).sec = s.sec := by
  unfold resumeJob
  (try dsimp only)
  (repeat' split) <;> simp
@[simp] theorem resumeJob_log (j : Job) (s : State) : (resumeJob j s).log = s.log := by
  unfold resumeJob
  (try dsimp only)
  (repeat' split) <;> simp
@[simp] theorem resumeJob_test (j : Job) (s : State) : (resumeJob j s).test = s.test := by
  unfold resumeJob
  (try dsimp only)
  (repeat' split) <;> simp
@[simp] theorem resumeJob_bar2Held (j : Job) (s : State) : (resumeJob j s).bar2Held = s.bar2Held := by
  unfold resumeJob
  (try dsimp only)
  (repeat' split) <;> simp
@[simp] theorem resumeJob_doorbells (j : Job) (s : State) : (resumeJob j s).doorbells = s.doorbells := by
  unfold resumeJob
  (try dsimp only)
  (repeat' split) <;> simp
@[simp] theorem resumeJob_lastCaller (j : Job) (s : State) : (resumeJob j s).lastCaller = s.lastCaller := by
  unfold resumeJob
  (try dsimp only)
  (repeat' split) <;> simp
@[simp] theorem resumeJob_out (j : Job) (s : State) : (resumeJob j s).out = s.out := by
  unfold resumeJob
  (try dsimp only)
  (repeat' split) <;> simp

/-! ## switchAway -/

@[simp] theorem switchAway_pending (j : Job) (s : State) : (switchAway j s).pending = s.pending := by
  unfold switchAway
  (try dsimp only)
  (repeat' split) <;> simp
@[simp] theorem switchAway_time (j : Job) (s : State) : (switchAway j s).time = s.time := by
  unfold switchAway
  (try dsimp only)
  (repeat' split) <;> simp
@[simp] theorem switchAway_fresh (j : Job) (s : State) : (switchAway j s).fresh = s.fresh := by
  unfold switchAway
  (try dsimp only)
  (repeat' split) <;> simp
@[simp] theorem switchAway_fuses (j : Job) (s : State) : (switchAway j s).fuses = s.fuses := by
  unfold switchAway
  (try dsimp only)
  (repeat' split) <;> simp
@[simp] theorem switchAway_pins (j : Job) (s : State) : (switchAway j s).pins = s.pins := by
  unfold switchAway
  (try dsimp only)
  (repeat' split) <;> simp
@[simp] theorem switchAway_fw (j : Job) (s : State) : (switchAway j s).fw = s.fw := by
  unfold switchAway
  (try dsimp only)
  (repeat' split) <;> simp
@[simp] theorem switchAway_pcie (j : Job) (s : State) : (switchAway j s).pcie = s.pcie := by
  unfold switchAway
  (try dsimp only)
  (repeat' split) <;> simp
@[simp] theorem switchAway_funcs (j : Job) (s : State) : (switchAway j s).funcs = s.funcs := by
  unfold switchAway
  (try dsimp only)
  (repeat' split) <;> simp
@[simp] theorem switchAway_mem (j : Job) (s : State) : (switchAway j s).mem = s.mem := by
  unfold switchAway
  (try dsimp only)
  (repeat' split) <;> simp
@[simp] theorem switchAway_host (j : Job) (s : State) : (switchAway j s).host = s.host := by
  unfold switchAway
  (try dsimp only)
  (repeat' split) <;> simp
@[simp] theorem switchAway_channels (j : Job) (s : State) : (switchAway j s).channels = s.channels := by
  unfold switchAway
  (try dsimp only)
  (repeat' split) <;> simp
@[simp] theorem switchAway_inv (j : Job) (s : State) : (switchAway j s).inv = s.inv := by
  unfold switchAway
  (try dsimp only)
  (repeat' split) <;> simp
@[simp] theorem switchAway_cores (j : Job) (s : State) : (switchAway j s).cores = s.cores := by
  unfold switchAway
  (try dsimp only)
  (repeat' split) <;> simp
@[simp] theorem switchAway_chips (j : Job) (s : State) : (switchAway j s).chips = s.chips := by
  unfold switchAway
  (try dsimp only)
  (repeat' split) <;> simp
@[simp] theorem switchAway_chipFetch (j : Job) (s : State) : (switchAway j s).chipFetch = s.chipFetch := by
  unfold switchAway
  (try dsimp only)
  (repeat' split) <;> simp
@[simp] theorem switchAway_gathers (j : Job) (s : State) : (switchAway j s).gathers = s.gathers := by
  unfold switchAway
  (try dsimp only)
  (repeat' split) <;> simp
@[simp] theorem switchAway_tables (j : Job) (s : State) : (switchAway j s).tables = s.tables := by
  unfold switchAway
  (try dsimp only)
  (repeat' split) <;> simp
@[simp] theorem switchAway_scores (j : Job) (s : State) : (switchAway j s).scores = s.scores := by
  unfold switchAway
  (try dsimp only)
  (repeat' split) <;> simp
@[simp] theorem switchAway_resident (j : Job) (s : State) : (switchAway j s).resident = s.resident := by
  unfold switchAway
  (try dsimp only)
  (repeat' split) <;> simp
@[simp] theorem switchAway_staged (j : Job) (s : State) : (switchAway j s).staged = s.staged := by
  unfold switchAway
  (try dsimp only)
  (repeat' split) <;> simp
@[simp] theorem switchAway_preempt (j : Job) (s : State) : (switchAway j s).preempt = s.preempt := by
  unfold switchAway
  (try dsimp only)
  (repeat' split) <;> simp
@[simp] theorem switchAway_groups (j : Job) (s : State) : (switchAway j s).groups = s.groups := by
  unfold switchAway
  (try dsimp only)
  (repeat' split) <;> simp
@[simp] theorem switchAway_fabric (j : Job) (s : State) : (switchAway j s).fabric = s.fabric := by
  unfold switchAway
  (try dsimp only)
  (repeat' split) <;> simp
@[simp] theorem switchAway_codec (j : Job) (s : State) : (switchAway j s).codec = s.codec := by
  unfold switchAway
  (try dsimp only)
  (repeat' split) <;> simp
@[simp] theorem switchAway_power (j : Job) (s : State) : (switchAway j s).power = s.power := by
  unfold switchAway
  (try dsimp only)
  (repeat' split) <;> simp
@[simp] theorem switchAway_sec (j : Job) (s : State) : (switchAway j s).sec = s.sec := by
  unfold switchAway
  (try dsimp only)
  (repeat' split) <;> simp
@[simp] theorem switchAway_log (j : Job) (s : State) : (switchAway j s).log = s.log := by
  unfold switchAway
  (try dsimp only)
  (repeat' split) <;> simp
@[simp] theorem switchAway_test (j : Job) (s : State) : (switchAway j s).test = s.test := by
  unfold switchAway
  (try dsimp only)
  (repeat' split) <;> simp
@[simp] theorem switchAway_bar2Held (j : Job) (s : State) : (switchAway j s).bar2Held = s.bar2Held := by
  unfold switchAway
  (try dsimp only)
  (repeat' split) <;> simp
@[simp] theorem switchAway_doorbells (j : Job) (s : State) : (switchAway j s).doorbells = s.doorbells := by
  unfold switchAway
  (try dsimp only)
  (repeat' split) <;> simp
@[simp] theorem switchAway_lastCaller (j : Job) (s : State) : (switchAway j s).lastCaller = s.lastCaller := by
  unfold switchAway
  (try dsimp only)
  (repeat' split) <;> simp
@[simp] theorem switchAway_out (j : Job) (s : State) : (switchAway j s).out = s.out := by
  unfold switchAway
  (try dsimp only)
  (repeat' split) <;> simp
/-! ## Mailboxes under interrupts and answers -/

@[simp] theorem mailbox_emit (s : State) (o : Out) (fn : Nat) : (s.emit o).mailbox fn = s.mailbox fn := rfl
@[simp] theorem mailbox_hostWrite (s : State) (a : Nat) (bs : List Byte) (fn : Nat) :
    (hostWrite a bs s).mailbox fn = s.mailbox fn := rfl

/-- A change that leaves the mailbox of every function. -/
theorem mailbox_updFunc_of (s : State) (fn k : Nat) (f : Func → Func) (hf : ∀ g, (f g).mailbox = g.mailbox) :
    (s.updFunc fn f).mailbox k = s.mailbox k := by
  by_cases h : k = fn
  · subst h
    by_cases hk : k < s.funcs.length
    · simp [State.mailbox, func_updFunc_same _ _ hk, hf]
    · simp [State.mailbox, State.updFunc, State.func, updAt, List.getD_eq_getElem?_getD, hk]
  · simp [State.mailbox, func_updFunc_other _ _ h]

@[simp] theorem mailbox_sendMsix (fn bit k : Nat) (s : State) : (sendMsix fn bit s).mailbox k = s.mailbox k := by
  unfold sendMsix
  split
  · exact mailbox_updFunc_of _ _ _ _ fun _ => rfl
  · rfl

@[simp] theorem mailbox_raiseIrq (fn bit k : Nat) (s : State) : (raiseIrq fn bit s).mailbox k = s.mailbox k := by
  unfold raiseIrq
  dsimp only
  split
  · rfl
  · split
    · rw [mailbox_sendMsix]
      exact mailbox_updFunc_of _ _ _ _ fun _ => rfl
    · exact mailbox_updFunc_of _ _ _ _ fun _ => rfl

/-- A response is written into the next free slot (R391, R392). -/
theorem respond_host {fn : Nat} {s : State} {m : Mailbox} (tag : Word) (op : Nat) (st : Status) (res : Nat)
    (hm : s.mailbox fn = some m) (hf : m.full = false) (hh : m.held = []) :
    (respond fn tag op st res s).host = s.host.writeBytes (m.rspBase + 64 * m.rspWrite)
      (responseBytes { tag := tag, status := st, opcode := BitVec.ofNat 16 op, result := BitVec.ofNat 352 res } m.rspPhase) := by
  simp [respond, postResponse, hm, hf, hh, writeResponse, hostWrite]

/-- What a mailbox keeps while a request is taken from it. -/
theorem mailbox_takeRequest {fn : Nat} {s : State} {m : Mailbox} (hm : s.mailbox fn = some m) :
    (takeRequest fn s).mailbox fn = some { m with ring := m.ring.drop 1, taken := m.taken + 1 } := by
  have hfn : fn < s.funcs.length := by
    by_contra h
    simp [State.mailbox, State.func, List.getD_eq_getElem?_getD, h, Func.reset] at hm
  have h := mailbox_updMailbox_same s (fun m => { m with ring := m.ring.drop 1, taken := m.taken + 1 }) hfn
  rw [hm] at h
  exact h

/-- A call that passes the common tests is its body, answered (R393, R536). -/
theorem serveCall_answer {row : CallRow} {r : Request} {bad : List Byte → Bool} {body : List Byte → State → State × CallEnd}
    {s u : State} {st : Status} {res : Nat} (h1 : mayTake r.fn.val s = true) (h2 : reqFormed r row.defer = true)
    (h3 : bad (reqArgs r) = false) (h4 : row.pf = true → r.fn.val = 0) (h5 : row.bare = true ∨ s.fw.state = .ready)
    (h6 : body (reqArgs r) (takeRequest r.fn.val s) = (u, .answer st res)) :
    serveCall row r bad body s = nextTurn (respond r.fn.val r.tag row.op st res u) := by
  have h7 : (row.pf && !(r.fn.val == 0)) = false := by
    cases hp : row.pf
    · rfl
    · simp [h4 hp]
  have h8 : (!row.bare && s.fw.state == .bare) = false := by
    rcases h5 with h | h <;> simp [h]
  unfold serveCall
  simp only [h1, if_true, h2, h3, h7, h8, takeRequest_fw, Bool.not_true, Bool.or_false, Bool.false_eq_true, if_false, h6]

/-- A call that passes the common tests and is answered later is its body, and Amior goes on to the next turn. -/
theorem serveCall_later {row : CallRow} {r : Request} {bad : List Byte → Bool} {body : List Byte → State → State × CallEnd}
    {s u : State} (h1 : mayTake r.fn.val s = true) (h2 : reqFormed r row.defer = true) (h3 : bad (reqArgs r) = false)
    (h4 : row.pf = true → r.fn.val = 0) (h5 : row.bare = true ∨ s.fw.state = .ready)
    (h6 : body (reqArgs r) (takeRequest r.fn.val s) = (u, .later)) : serveCall row r bad body s = nextTurn u := by
  have h7 : (row.pf && !(r.fn.val == 0)) = false := by
    cases hp : row.pf
    · rfl
    · simp [h4 hp]
  have h8 : (!row.bare && s.fw.state == .bare) = false := by
    rcases h5 with h | h <;> simp [h]
  unfold serveCall
  simp only [h1, if_true, h2, h3, h7, h8, takeRequest_fw, Bool.not_true, Bool.or_false, Bool.false_eq_true, if_false, h6]

end Sys2Proof.Machine
end

