-- ==== Sys2Proof/Laws/Answers.lean ====
section
/-! SUPPORT. Laws of the answer of a call: what a served request leaves. -/
namespace Sys2Proof.Machine

theorem mailbox_bound {s : State} {fn : Nat} {m : Mailbox} (h : s.mailbox fn = some m) : fn < s.funcs.length := by
  by_contra hc
  simp [State.mailbox, State.func, List.getD_eq_getElem?_getD, hc, Func.reset] at h

theorem leBytes_mod (n x : Nat) : leBytes n (x % 2 ^ (8 * n)) = leBytes n x := by
  induction n generalizing x with
  | zero => rfl
  | succ n ih =>
    have h1 : (BitVec.ofNat 8 (x % 2 ^ (8 * (n + 1)))) = BitVec.ofNat 8 x := by
      apply BitVec.eq_of_toNat_eq
      simp only [BitVec.toNat_ofNat]
      exact Nat.mod_mod_of_dvd _ (pow_dvd_pow 2 (by omega))
    have h2 : x % 2 ^ (8 * (n + 1)) / 256 = x / 256 % 2 ^ (8 * n) := by
      have : (2 : Nat) ^ (8 * (n + 1)) = 256 * 2 ^ (8 * n) := by
        rw [show 8 * (n + 1) = 8 + 8 * n by ring, pow_add]; norm_num
      rw [this, Nat.mod_mul_right_div_self]
    simp only [leBytes, h1, h2, ih]

theorem updAt_set {α : Type} (l : List α) (i : Nat) (f : α → α) (h : i < l.length) : updAt l i f = l.set i (f l[i]) := by
  apply List.ext_getElem?
  intro k
  by_cases hk : i = k
  · subst hk; simp [updAt, h]
  · simp [updAt, hk]

/-- A response posted to a free slot for a request just taken leaves what `answer` says. -/
theorem respond_takeRequest (r : Request) (op : Nat) (st : Status) (res : Nat) {m : Mailbox} {s : State}
    (he : (s.func r.fn.val).enabled = true) (hm : s.mailbox r.fn.val = some m) (hs : m.stopping = false) (hh : m.held = [])
    (hr : m.rspUnreleased + 1 < m.rspEntries) :
    respond r.fn.val r.tag op st res (takeRequest r.fn.val s) = answer r m op st res s := by
  have hb := mailbox_bound hm
  have hf : s.func r.fn.val = s.funcs[r.fn.val] := by simp [State.func, List.getD_eq_getElem?_getD, hb]
  have hmb : (s.funcs[r.fn.val]).mailbox = some m := by rw [← hf]; exact hm
  have hen : (s.funcs[r.fn.val]).enabled = true := by rw [← hf]; exact he
  have hw : writeResponse r.fn.val { m with ring := m.ring.drop 1, taken := m.taken + 1 }
      { tag := r.tag, status := st, opcode := BitVec.ofNat 16 op, result := BitVec.ofNat 352 res } (takeRequest r.fn.val s)
      = answer r m op st res s := by
    have e1 : leBytes 2 (BitVec.ofNat 16 op).toNat = leBytes 2 op := leBytes_mod 2 op
    have e2 : leBytes 44 (BitVec.ofNat 352 res).toNat = leBytes 44 res := leBytes_mod 44 res
    have c1 : ∀ g : Func → Func, updAt s.funcs r.fn.val g = s.funcs.set r.fn.val (g s.funcs[r.fn.val]) := fun g => updAt_set _ _ _ hb
    have c2 : ∀ (x : Func) (g : Func → Func), updAt (s.funcs.set r.fn.val x) r.fn.val g = s.funcs.set r.fn.val (g x) := by
      intro x g
      rw [updAt_set _ _ _ (by simpa using hb)]
      simp
    simp only [writeResponse, raiseIrq, takeRequest, hostWrite, State.updMailbox, State.updFunc, State.emit, State.func, c1, c2,
      List.getD_eq_getElem?_getD, answer, responseBytes, packBytes, e1, e2, hb, List.length_set,
      Option.getD_some, hen, Bool.not_true, Bool.false_eq_true, if_false, hmb, Option.map_some, Mailbox.posted, List.getElem?_eq_getElem,
      List.getElem_set_self]
    have b0 : BitVec.ofNat 11 (2 ^ 0) = 1 := rfl
    have b1 : ∀ x : BitVec 11, bitAt x 0 = x.getLsbD 0 := fun _ => rfl
    simp only [b0, b1, Nat.add_sub_cancel]
    have b2 : ∀ x : BitVec 16, bitAt x 0 = x.getLsbD 0 := fun _ => rfl
    have b3 : BitVec.ofNat 16 (2 ^ 0) = 1 := rfl
    cases h1 : s.funcs[r.fn.val].irqStatus.getLsbD 0 <;> cases h2 : s.funcs[r.fn.val].irqMask.getLsbD 0 <;>
      cases h3 : s.funcs[r.fn.val].vectorMask.getLsbD 0 <;>
      (have h4 := h3
       rw [BitVec.getLsbD_eq_getElem (by decide)] at h4
       simp [sendMsix, State.func, State.updFunc, State.emit, List.getD_eq_getElem?_getD, hb, b2, b3, h4, c2])
  have hfull : Mailbox.full { m with ring := m.ring.drop 1, taken := m.taken + 1 } = false := by
    simp [Mailbox.full]; omega
  unfold respond postResponse
  rw [mailbox_takeRequest hm]
  have hn : ({ m with ring := m.ring.drop 1, taken := m.taken + 1 } : Mailbox).held.isEmpty = true := by simp [hh]
  simp only [hfull, hn, Bool.not_true, Bool.or_false, Bool.false_eq_true, if_false]
  rw [hw]
  have hq : (answer r m op st res s).mailbox r.fn.val = some
      { m with ring := m.ring.drop 1, rspWrite := (m.rspWrite + 1) % m.rspEntries,
               rspPhase := if (m.rspWrite + 1) % m.rspEntries = 0 then !m.rspPhase else m.rspPhase,
               rspUnreleased := m.rspUnreleased + 1 } := by
    simp [State.mailbox, State.func, answer, List.getD_eq_getElem?_getD, hb]
  unfold closeStopped
  rw [hq]
  simp [hs]

/-- A served request that its call answers. -/
theorem served_answer {row : CallRow} {r : Request} {m : Mailbox} {s u : State} {bad : List Byte → Bool}
    {body : List Byte → State → State × CallEnd} {st : Status} {res : Nat} (h : Served row.pf row.bare row.defer r m s)
    (hbad : bad (reqArgs r) = false) (hm : u.mailbox r.fn.val = some m) (he : (u.func r.fn.val).enabled = true)
    (hbody : body (reqArgs r) (takeRequest r.fn.val s) = (takeRequest r.fn.val u, .answer st res)) :
    serveCall row r bad body s = answered r m row.op st res u := by
  have ht : mayTake r.fn.val s = true := by
    unfold mayTake serving
    rcases h.firmware with f | ⟨_, f⟩ <;> simp [f, h.turn]
  have hb : row.bare = true ∨ s.fw.state = .ready := by
    rcases h.firmware with f | ⟨f, _⟩
    · exact .inr f
    · exact .inl f
  rw [serveCall_answer ht h.formed hbad h.client hb hbody, respond_takeRequest r row.op st res he hm h.runs h.noneHeld h.room]
  rfl

/-- A served request whose answer changes nothing but what the call itself says of the rest. -/
theorem served_same {row : CallRow} {r : Request} {m : Mailbox} {s : State} {bad : List Byte → Bool}
    {body : List Byte → State → State × CallEnd} {st : Status} {res : Nat} (h : Served row.pf row.bare row.defer r m s)
    (hbad : bad (reqArgs r) = false)
    (hbody : body (reqArgs r) (takeRequest r.fn.val s) = (takeRequest r.fn.val s, .answer st res)) :
    serveCall row r bad body s = answered r m row.op st res s := served_answer h hbad h.mailbox h.enabled hbody

/-- A served request whose call looks at and changes everything but the functions and the turn. -/
theorem served_device {row : CallRow} {r : Request} {m : Mailbox} {s u : State} {bad : List Byte → Bool}
    {body : List Byte → State → State × CallEnd} {st : Status} {res : Nat} (h : Served row.pf row.bare row.defer r m s)
    (hbad : bad (reqArgs r) = false) (hu : u.funcs = s.funcs)
    (hbody : ∀ F n, body (reqArgs r) { s with funcs := F, lastCaller := n } = ({ u with funcs := F, lastCaller := n }, .answer st res)) :
    serveCall row r bad body s = answered r m row.op st res u := by
  have h1 : takeRequest r.fn.val u = { u with funcs := (takeRequest r.fn.val s).funcs, lastCaller := r.fn.val } := by
    simp only [takeRequest, State.updMailbox, State.updFunc, hu]
  refine served_answer h hbad ?_ ?_ ?_
  · rw [← h.mailbox]; simp only [State.mailbox, State.func, hu]
  · rw [← h.enabled]; simp only [State.func, hu]
  · rw [h1]; exact hbody (takeRequest r.fn.val s).funcs r.fn.val

/-! ## Blocks that do not depend on the functions -/

theorem infoRecord_funcs (fn : Nat) (s : State) (F : List Func) : infoRecord { s with funcs := F } fn = infoRecord s fn := by
  unfold infoRecord rollCallFields; rfl
theorem inventoryBlock_funcs (s : State) (F : List Func) : inventoryBlock { s with funcs := F } = inventoryBlock s := by
  unfold inventoryBlock; rfl
theorem telemetryBlock_funcs (s : State) (F : List Func) : telemetryBlock { s with funcs := F } = telemetryBlock s := by
  unfold telemetryBlock telemetryHead; rfl
theorem aliasCert_funcs (s : State) (F : List Func) : aliasCert { s with funcs := F } = aliasCert s := by
  unfold aliasCert; rfl
theorem quoteBody_funcs (fn seq : Nat) (n : List Byte) (s : State) (F : List Func) :
    quoteBody { s with funcs := F } fn seq n = quoteBody s fn seq n := by
  unfold quoteBody; rfl

/-! ## Parameters that are zero -/

theorem ofLe_zeros (l : List Byte) (h : ∀ b ∈ l, b = 0) : ofLe l = 0 := by
  induction l with
  | nil => rfl
  | cons b l ih =>
    have hb : b = 0 := h b (by simp)
    have hl : ofLe l = 0 := ih fun x hx => h x (by simp [hx])
    simp [ofLe, hb, hl]

/-- A field that lies in the zero rest of the parameters is 0. -/
theorem arg_zero {ps : List Byte} {k o : Nat} (n : Nat) (h : zeroFrom ps k = true) (hk : k ≤ o) : arg ps o n = 0 := by
  apply ofLe_zeros
  intro b hb
  have h1 : b ∈ ps.drop k := by
    have : b ∈ ps.drop o := List.mem_of_mem_take hb
    rw [show o = k + (o - k) by omega, ← List.drop_drop] at this
    exact List.mem_of_mem_drop this
  have := List.all_eq_true.mp h b h1
  simpa using this

theorem zeroFrom_mono {ps : List Byte} {k o : Nat} (h : zeroFrom ps k = true) (hk : k ≤ o) : zeroFrom ps o = true := by
  refine List.all_eq_true.mpr fun b hb => List.all_eq_true.mp h b ?_
  rw [show o = k + (o - k) by omega, ← List.drop_drop] at hb
  exact List.mem_of_mem_drop hb

/-- The common test of a host buffer's parameters. -/
theorem bufferBad_false {ps : List Byte} {k : Nat} (h1 : aligned (arg ps 0 8) 64 = true) (h2 : zeroFrom ps k = true) :
    bufferBad k ps = false := by
  unfold bufferBad; rw [h1, h2]; rfl

end Sys2Proof.Machine
end

