-- ==== Sys2Proof/Laws/Keeps.lean ====
section
/-! SUPPORT. What every operation keeps, as one relation between the state before and the state after: the queue, the
canonical form of the memories, the sizes of the register files, the length of the log, the fuses. -/
namespace Sys2Proof.Machine

/-- What `s` keeps of `r`. -/
structure Keeps (r s : State) : Prop where
  queue : s.pending = r.pending
  mem : r.mem.wf = true → s.mem.wf = true
  host : r.host.wf = true → s.host.wf = true
  sized : r.Sized → s.Sized
  log : r.logFits → s.logFits
  fuses : fusesStand r s

theorem fusesStand.rfl (s : State) : fusesStand s s := ⟨by rfl, by rfl, by rfl, by rfl, le_refl _⟩

theorem fusesStand.trans {r s t : State} (h : fusesStand r s) (k : fusesStand s t) : fusesStand r t :=
  ⟨k.1.trans h.1, k.2.1.trans h.2.1, k.2.2.1.trans h.2.2.1, k.2.2.2.1.trans h.2.2.2.1,
   le_trans h.2.2.2.2 k.2.2.2.2⟩

theorem Keeps.rfl (s : State) : Keeps s s := ⟨by rfl, id, id, id, id, fusesStand.rfl s⟩

theorem Keeps.trans {r s t : State} (h : Keeps r s) (k : Keeps s t) : Keeps r t :=
  ⟨k.queue.trans h.queue, k.mem ∘ h.mem, k.host ∘ h.host, k.sized ∘ h.sized, k.log ∘ h.log, h.fuses.trans k.fuses⟩

theorem length_foldl_upd {α β : Type} (g : List α → β → List α) (hg : ∀ l b, (g l b).length = l.length) (bs : List β)
    (l : List α) : (bs.foldl g l).length = l.length := by
  induction bs generalizing l with
  | nil => rfl
  | cons b bs ih => rw [List.foldl_cons, ih, hg]

/-- A fold keeps what each of its steps keeps. -/
theorem keeps_foldl {α : Type} {r : State} (f : State → α → State) (hf : ∀ s a, Keeps r s → Keeps r (f s a)) (l : List α) {s : State}
    (h : Keeps r s) : Keeps r (l.foldl f s) := by
  induction l generalizing s with
  | nil => exact h
  | cons a l ih => exact ih (hf s a h)

/-- What a state that may be missing keeps. -/
def KeepsO (r : State) : Option State → Prop
  | some t => Keeps r t
  | none => True

/-- The same where a value comes with it. -/
def KeepsOP {α : Type} (r : State) : Option (State × α) → Prop
  | some t => Keeps r t.1
  | none => True

/-- What the next state of an outcome keeps. -/
def KeepsR (r : State) : Host.Outcome State Fault Refusal → Prop
  | .next t => Keeps r t
  | _ => True

theorem keepsO_none (r : State) : KeepsO r none := trivial
theorem keepsOP_none {α : Type} (r : State) : KeepsOP (α := α) r none := trivial
theorem keepsO_some {r t : State} (h : Keeps r t) : KeepsO r (some t) := h
theorem keepsOP_some {α : Type} {r : State} {t : State × α} (h : Keeps r t.1) : KeepsOP r (some t) := h
theorem keepsR_next {r t : State} (h : Keeps r t) : KeepsR r (.next t) := h

theorem keepsO_map {α : Type} {r : State} {o : Option α} {f : α → State} (h : ∀ a, o = some a → Keeps r (f a)) :
    KeepsO r (o.map f) := by
  cases o with
  | none => trivial
  | some a => exact h a (by rfl)

theorem keepsO_get {r t : State} {o : Option State} (e : o = some t) (h : KeepsO r o) : Keeps r t := by subst e; exact h
theorem keepsP_get {α : Type} {r t : State} {p : State × α} {x : α} (e : p = (t, x)) (h : Keeps r p.1) : Keeps r t := by
  subst e; exact h
theorem keepsQ_get {α : Type} {r t : State} {p : α × State} {x : α} (e : p = (x, t)) (h : Keeps r p.2) : Keeps r t := by
  subst e; exact h
theorem keepsOP_get {α : Type} {r t : State} {p : Option (State × α)} {x : α} (e : p = some (t, x)) (h : KeepsOP r p) :
    Keeps r t := by subst e; exact h

/-! ### Memories: what an operation keeps under a premise -/

theorem imp_writeBytes {p : Prop} {m : Memory} {a : Nat} {bs : List Byte} (h : p → m.wf = true) :
    p → (m.writeBytes a bs).wf = true := fun x => Memory.writeBytes_wf bs a (h x)
theorem imp_write {p : Prop} {m : Memory} {a : Nat} {b : Byte} (h : p → m.wf = true) :
    p → (m.write a b).wf = true := fun x => Memory.write_wf a b (h x)
theorem imp_writeElem {p : Prop} {m : Memory} {a : Nat} {f : Fmt} {i c : Nat} (h : p → m.wf = true) :
    p → (m.writeElem a f i c).wf = true := fun x => Memory.writeElem_wf a f i c (h x)
theorem imp_writeElems {p : Prop} {m : Memory} {a : Nat} {f : Fmt} {i : Nat} {cs : List Nat} (h : p → m.wf = true) :
    p → (m.writeElems a f i cs).wf = true := fun x => Memory.writeElems_wf cs a f i (h x)
theorem imp_writeRow {p : Prop} {m : Memory} {a : Nat} {f : Fmt} {n i : Nat} {cs : List Nat} (h : p → m.wf = true) :
    p → (m.writeRow a f n i cs).wf = true := fun x => Memory.writeRow_wf a f n i cs (h x)
theorem imp_forget {p : Prop} {m : Memory} {a n e : Nat} (h : p → m.wf = true) :
    p → (m.forget a n e).wf = true := fun x => Memory.forget_wf a n e (h x)
theorem imp_zeroRange {p : Prop} {m : Memory} {a n : Nat} (h : p → m.wf = true) :
    p → (m.zeroRange a n).wf = true := fun x => Memory.zeroRange_wf a n (h x)
theorem imp_foldl {α : Type} {p : Prop} {put : Memory → α → Memory} (hput : ∀ m x, m.wf = true → (put m x).wf = true)
    {l : List α} {m : Memory} (h : p → m.wf = true) : p → (l.foldl put m).wf = true :=
  fun x => Memory.foldl_wf put hput l (h x)

/-- A record update keeps what its fields keep. -/
theorem Keeps.upd {r b : State} {time : Nat} {fresh : Nat} {fuses : Fuses} {pins : Pins} {fw : Firmware} {pcie : PcieLink} {funcs : List Func} {mem : Memory} {host : Memory} {channels : List Channel} {inv : Inventory} {cores : List Core} {chips : List UnitState} {chipFetch : List Fetcher} {gathers : List GatherLead} {tables : List TableSlot} {scores : List (Option Score)} {resident : Resident} {sched : Scheduler} {staged : Staged} {preempt : PreemptPolicy} {groups : List (Option Group)} {fabric : Fabric} {codec : Codec} {power : Power} {sec : Security} {log : ErrorLog} {test : Option Test} {bar2Held : List WindowAccess} {doorbells : List Doorbell} {lastCaller : Nat} {out : List Out}
    (h : Keeps r b)
    (hmem : b.mem.wf = true → mem.wf = true) (hhost : b.host.wf = true → host.wf = true)
    (hfuncs : b.funcs.length = 32 → funcs.length = 32)
    (hchannels : b.channels.length = 128 → channels.length = 128)
    (hcores : b.cores.length = 256 → cores.length = 256)
    (hchips : b.chips.length = 4 → chips.length = 4)
    (htables : b.tables.length = 8 → tables.length = 8)
    (hscores : b.scores.length = 16 → scores.length = 16)
    (hgroups : b.groups.length = 16 → groups.length = 16)
    (hports : b.fabric.ports.length = 16 → fabric.ports.length = 16)
    (hwindows : b.fabric.windows.length = 16 → fabric.windows.length = 16)
    (hsessions : b.codec.sessions.length = 64 → codec.sessions.length = 64)
    (hrails : b.power.rails.length = 12 → power.rails.length = 12)
    (hsupplies : b.power.supplies.length = 6 → power.supplies.length = 6)
    (hdomains : b.power.domains.length = 325 → power.domains.length = 325)
    (hsensors : b.power.sensors.length = 290 → power.sensors.length = 290)
    (hlog : b.log.entries.length ≤ 4096 → log.entries.length ≤ 4096)
    (hvar : fuses.variant = b.fuses.variant) (hstep : fuses.stepping = b.fuses.stepping) (hrep : fuses.repairs = b.fuses.repairs)
    (huds : fuses.uds = b.fuses.uds)
    (hsv : b.fuses.svBlown ≤ fuses.svBlown) :
    Keeps r (State.mk b.pending time fresh fuses pins fw pcie funcs mem host channels inv cores chips chipFetch gathers tables scores resident sched staged preempt groups fabric codec power sec log test bar2Held doorbells lastCaller out) :=
  ⟨h.queue, fun x => hmem (h.mem x), fun x => hhost (h.host x),
   fun x => let y := h.sized x
    ⟨hfuncs y.funcs, hchannels y.channels, hcores y.cores, hchips y.chips, htables y.tables, hscores y.scores, hgroups y.groups, hports y.ports, hwindows y.windows, hsessions y.sessions, hrails y.rails, hsupplies y.supplies, hdomains y.domains, hsensors y.sensors⟩,
   fun x => hlog (h.log x), h.fuses.trans ⟨hvar, hstep, hrep, huds, hsv⟩⟩

end Sys2Proof.Machine
end

