-- ==== Sys2Proof/Laws/KeepsFlags.lean ====
section
/-! SUPPORT. What the operations of Flags keep. -/
set_option linter.all false
namespace Sys2Proof.Machine

theorem keeps_State_updFunc (fn : ℕ) (f : Func → Func) {r s : State} (h : Keeps r s) :
    Keeps r (State.updFunc s fn f) := by
  unfold State.updFunc
  repeat' (first | with_reducible assumption | (with_reducible exact id) | (with_reducible exact Nat.le_refl _) | (with_reducible exact keepsO_none _) | (with_reducible exact keepsOP_none _) | (with_reducible apply keepsOP_some) | (with_reducible rfl) | (with_reducible refine keeps_foldl _ (fun _ _ _ => ?_) _ ?_) | (with_reducible apply keepsO_some) | (with_reducible apply keepsR_next) | (fail_if_no_progress extract_lets) | split | (with_reducible apply Keeps.upd) | (with_reducible refine keepsO_get (by assumption) ?_) | (with_reducible refine keepsP_get (by assumption) ?_) | (with_reducible refine keepsQ_get (by assumption) ?_) | (with_reducible refine keepsOP_get (by assumption) ?_) | (intro hz; simp [hz]; done))

theorem keeps_State_emit (o : Out) {r s : State} (h : Keeps r s) :
    Keeps r (State.emit s o) := by
  unfold State.emit
  repeat' (first | with_reducible assumption | (with_reducible exact id) | (with_reducible exact Nat.le_refl _) | (with_reducible exact keepsO_none _) | (with_reducible exact keepsOP_none _) | (with_reducible apply keepsOP_some) | (with_reducible rfl) | (with_reducible refine keeps_foldl _ (fun _ _ _ => ?_) _ ?_) | (with_reducible apply keepsO_some) | (with_reducible apply keepsR_next) | (fail_if_no_progress extract_lets) | split | (with_reducible apply Keeps.upd))

theorem keeps_sendMsix (fn : ℕ) (bit : ℕ) {r s : State} (h : Keeps r s) :
    Keeps r (sendMsix fn bit s) := by
  unfold sendMsix
  repeat' (first | with_reducible assumption | (with_reducible exact id) | (with_reducible exact Nat.le_refl _) | (with_reducible exact keepsO_none _) | (with_reducible exact keepsOP_none _) | (with_reducible apply keepsOP_some) | (with_reducible rfl) | (with_reducible refine keeps_foldl _ (fun _ _ _ => ?_) _ ?_) | (with_reducible apply keepsO_some) | (with_reducible apply keepsR_next) | (with_reducible apply keeps_State_updFunc) | (with_reducible apply keeps_State_emit) | (fail_if_no_progress extract_lets) | split)

theorem keeps_raiseIrq (fn : ℕ) (bit : ℕ) {r s : State} (h : Keeps r s) :
    Keeps r (raiseIrq fn bit s) := by
  unfold raiseIrq
  repeat' (first | with_reducible assumption | (with_reducible exact id) | (with_reducible exact Nat.le_refl _) | (with_reducible exact keepsO_none _) | (with_reducible exact keepsOP_none _) | (with_reducible apply keepsOP_some) | (with_reducible rfl) | (with_reducible refine keeps_foldl _ (fun _ _ _ => ?_) _ ?_) | (with_reducible apply keepsO_some) | (with_reducible apply keepsR_next) | (with_reducible apply keeps_State_updFunc) | (with_reducible apply keeps_sendMsix) | (fail_if_no_progress extract_lets) | split)

theorem keeps_raiseIrqs (fns : List ℕ) (bit : ℕ) {r s : State} (h : Keeps r s) :
    Keeps r (raiseIrqs fns bit s) := by
  unfold raiseIrqs
  repeat' (first | with_reducible assumption | (with_reducible exact id) | (with_reducible exact Nat.le_refl _) | (with_reducible exact keepsO_none _) | (with_reducible exact keepsOP_none _) | (with_reducible apply keepsOP_some) | (with_reducible rfl) | (with_reducible refine keeps_foldl _ (fun _ _ _ => ?_) _ ?_) | (with_reducible apply keepsO_some) | (with_reducible apply keepsR_next) | (with_reducible apply keeps_raiseIrq))

theorem keeps_logError (source severity : Nat) (st : Status) (fn stave place detail : Nat) {r s : State} (h : Keeps r s) :
    Keeps r (logError source severity st fn stave place detail s) := by
  unfold logError
  split
  · exact h
  refine keeps_raiseIrqs _ _ ?_
  refine Keeps.upd h id id id id id id id id id id id id id id id id ?_ rfl rfl rfl rfl (le_refl _)
  intro hz
  split
  · simp
    omega
  · rename_i hn
    simp at hn
    simp
    omega

theorem keeps_logMisuse (fn : ℕ) (detail : ℕ) {r s : State} (h : Keeps r s) :
    Keeps r (logMisuse fn detail s) := by
  unfold logMisuse
  repeat' (first | with_reducible assumption | (with_reducible exact id) | (with_reducible exact Nat.le_refl _) | (with_reducible exact keepsO_none _) | (with_reducible exact keepsOP_none _) | (with_reducible apply keepsOP_some) | (with_reducible rfl) | (with_reducible refine keeps_foldl _ (fun _ _ _ => ?_) _ ?_) | (with_reducible apply keepsO_some) | (with_reducible apply keepsR_next) | (with_reducible apply keeps_logError))

theorem keeps_setFwState (st : FwState) (err : Status) {r s : State} (h : Keeps r s) :
    Keeps r (setFwState st err s) := by
  unfold setFwState
  repeat' (first | with_reducible assumption | (with_reducible exact id) | (with_reducible exact Nat.le_refl _) | (with_reducible exact keepsO_none _) | (with_reducible exact keepsOP_none _) | (with_reducible apply keepsOP_some) | (with_reducible rfl) | (with_reducible refine keeps_foldl _ (fun _ _ _ => ?_) _ ?_) | (with_reducible apply keepsO_some) | (with_reducible apply keepsR_next) | (with_reducible apply keeps_raiseIrqs) | (fail_if_no_progress extract_lets) | split | (with_reducible apply Keeps.upd))

end Sys2Proof.Machine
end

