-- ==== Sys2Proof/Laws/KeepsOperands.lean ====
section
/-! SUPPORT. What the operations of Operands keep. -/
set_option linter.all false
namespace Sys2Proof.Machine

theorem keeps_State_updCore (c : ℕ) (f : Core → Core) {r s : State} (h : Keeps r s) :
    Keeps r (State.updCore s c f) := by
  unfold State.updCore
  repeat' (first | with_reducible assumption | (with_reducible exact id) | (with_reducible exact Nat.le_refl _) | (with_reducible exact keepsO_none _) | (with_reducible exact keepsOP_none _) | (with_reducible apply keepsOP_some) | (with_reducible rfl) | (with_reducible refine keeps_foldl _ (fun _ _ _ => ?_) _ ?_) | (with_reducible apply keepsO_some) | (with_reducible apply keepsR_next) | (fail_if_no_progress extract_lets) | split | (with_reducible apply Keeps.upd) | (with_reducible refine keepsO_get (by assumption) ?_) | (with_reducible refine keepsP_get (by assumption) ?_) | (with_reducible refine keepsQ_get (by assumption) ?_) | (with_reducible refine keepsOP_get (by assumption) ?_) | (intro hz; simp [hz]; done))

theorem keeps_State_updUnit (u : UnitId) (f : UnitState → UnitState) {r s : State} (h : Keeps r s) :
    Keeps r (State.updUnit s u f) := by
  unfold State.updUnit
  repeat' (first | with_reducible assumption | (with_reducible exact id) | (with_reducible exact Nat.le_refl _) | (with_reducible exact keepsO_none _) | (with_reducible exact keepsOP_none _) | (with_reducible apply keepsOP_some) | (with_reducible rfl) | (with_reducible refine keeps_foldl _ (fun _ _ _ => ?_) _ ?_) | (with_reducible apply keepsO_some) | (with_reducible apply keepsR_next) | (with_reducible apply keeps_State_updCore) | (fail_if_no_progress extract_lets) | split | (with_reducible apply Keeps.upd) | (with_reducible refine keepsO_get (by assumption) ?_) | (with_reducible refine keepsP_get (by assumption) ?_) | (with_reducible refine keepsQ_get (by assumption) ?_) | (with_reducible refine keepsOP_get (by assumption) ?_) | (intro hz; simp [hz]; done))

theorem keeps_State_updFetcher (u : UnitId) (f : Fetcher → Fetcher) {r s : State} (h : Keeps r s) :
    Keeps r (State.updFetcher s u f) := by
  unfold State.updFetcher
  repeat' (first | with_reducible assumption | (with_reducible exact id) | (with_reducible exact Nat.le_refl _) | (with_reducible exact keepsO_none _) | (with_reducible exact keepsOP_none _) | (with_reducible apply keepsOP_some) | (with_reducible rfl) | (with_reducible refine keeps_foldl _ (fun _ _ _ => ?_) _ ?_) | (with_reducible apply keepsO_some) | (with_reducible apply keepsR_next) | (with_reducible apply keeps_State_updCore) | (fail_if_no_progress extract_lets) | split | (with_reducible apply Keeps.upd))

theorem keeps_State_updChan (ch : ℕ) (f : Channel → Channel) {r s : State} (h : Keeps r s) :
    Keeps r (State.updChan s ch f) := by
  unfold State.updChan
  repeat' (first | with_reducible assumption | (with_reducible exact id) | (with_reducible exact Nat.le_refl _) | (with_reducible exact keepsO_none _) | (with_reducible exact keepsOP_none _) | (with_reducible apply keepsOP_some) | (with_reducible rfl) | (with_reducible refine keeps_foldl _ (fun _ _ _ => ?_) _ ?_) | (with_reducible apply keepsO_some) | (with_reducible apply keepsR_next) | (fail_if_no_progress extract_lets) | split | (with_reducible apply Keeps.upd) | (with_reducible refine keepsO_get (by assumption) ?_) | (with_reducible refine keepsP_get (by assumption) ?_) | (with_reducible refine keepsQ_get (by assumption) ?_) | (with_reducible refine keepsOP_get (by assumption) ?_) | (intro hz; simp [hz]; done))

theorem keeps_State_updJob (id : ℕ) (f : Job → Job) {r s : State} (h : Keeps r s) :
    Keeps r (State.updJob s id f) := by
  unfold State.updJob
  repeat' (first | with_reducible assumption | (with_reducible exact id) | (with_reducible exact Nat.le_refl _) | (with_reducible exact keepsO_none _) | (with_reducible exact keepsOP_none _) | (with_reducible apply keepsOP_some) | (with_reducible rfl) | (with_reducible refine keeps_foldl _ (fun _ _ _ => ?_) _ ?_) | (with_reducible apply keepsO_some) | (with_reducible apply keepsR_next) | (fail_if_no_progress extract_lets) | split | (with_reducible apply Keeps.upd) | (with_reducible refine keepsO_get (by assumption) ?_) | (with_reducible refine keepsP_get (by assumption) ?_) | (with_reducible refine keepsQ_get (by assumption) ?_) | (with_reducible refine keepsOP_get (by assumption) ?_) | (intro hz; simp [hz]; done))

theorem keeps_guardedWrite (fn stave : Nat) (a : Nat) (bs : List Byte) {r s : State} (h : Keeps r s) : Keeps r (guardedWrite fn stave s a bs) := by
  unfold guardedWrite
  dsimp only
  split
  · refine keeps_logError _ _ _ _ _ _ _ ?_
    refine Keeps.upd h (fun hz => Memory.foldl_wf _ (fun m x hm => ?_) _ hz) id id id id id id id id id id id id id id id id rfl rfl rfl rfl (le_refl _)
    split
    · exact hm
    · exact Memory.write_wf _ _ hm
  · exact Keeps.upd h (fun hz => Memory.writeBytes_wf _ _ hz) id id id id id id id id id id id id id id id id rfl rfl rfl rfl (le_refl _)

theorem keeps_unitWrite (stave : ℕ) (a : ℕ) (bs : List Byte) {r s : State} (h : Keeps r s) :
    Keeps r (unitWrite stave s a bs) := by
  unfold unitWrite
  repeat' (first | with_reducible assumption | (with_reducible exact id) | (with_reducible exact Nat.le_refl _) | (with_reducible exact keepsO_none _) | (with_reducible exact keepsOP_none _) | (with_reducible apply keepsOP_some) | (with_reducible rfl) | (with_reducible refine keeps_foldl _ (fun _ _ _ => ?_) _ ?_) | (with_reducible apply keepsO_some) | (with_reducible apply keepsR_next) | (with_reducible apply keeps_guardedWrite))

end Sys2Proof.Machine
end

