-- ==== Sys2Proof/Laws/KeepsOps.lean ====
section
/-! SUPPORT. What the operations of Ops keep. -/
set_option linter.all false
namespace Sys2Proof.Machine

theorem keeps_forgetRange (a n : Nat) {r s : State} (h : Keeps r s) : Keeps r (forgetRange a n s) := by
  unfold forgetRange
  exact Keeps.upd h (fun hz => Memory.forget_wf _ _ _ hz) id id id id id id id id id id id id id id id id rfl rfl rfl rfl (le_refl _)

theorem keeps_forgetOutside (rs : List (ℕ × ℕ)) (a : ℕ) (n : ℕ) {r s : State} (h : Keeps r s) :
    Keeps r (forgetOutside rs a n s) := by
  unfold forgetOutside
  repeat' (first | with_reducible assumption | (with_reducible exact id) | (with_reducible exact Nat.le_refl _) | (with_reducible exact keepsO_none _) | (with_reducible exact keepsOP_none _) | (with_reducible apply keepsOP_some) | (with_reducible rfl) | (with_reducible refine keeps_foldl _ (fun _ _ _ => ?_) _ ?_) | (with_reducible apply keepsO_some) | (with_reducible apply keepsR_next) | (with_reducible apply keeps_forgetRange))

theorem keeps_guardedForget (rs : List (ℕ × ℕ)) (fn : ℕ) (stave : ℕ) (a : ℕ) (n : ℕ) {r s : State} (h : Keeps r s) :
    Keeps r (guardedForget rs fn stave a n s) := by
  unfold guardedForget
  repeat' (first | with_reducible assumption | (with_reducible exact id) | (with_reducible exact Nat.le_refl _) | (with_reducible exact keepsO_none _) | (with_reducible exact keepsOP_none _) | (with_reducible apply keepsOP_some) | (with_reducible rfl) | (with_reducible refine keeps_foldl _ (fun _ _ _ => ?_) _ ?_) | (with_reducible apply keepsO_some) | (with_reducible apply keepsR_next) | (with_reducible apply keeps_forgetOutside) | (with_reducible apply keeps_logError) | (fail_if_no_progress extract_lets) | split)

theorem keeps_hostWrite (a : ℕ) (bs : List Byte) {r s : State} (h : Keeps r s) :
    Keeps r (hostWrite a bs s) := by
  unfold hostWrite
  repeat' (first | with_reducible assumption | (with_reducible exact id) | (with_reducible exact Nat.le_refl _) | (with_reducible exact keepsO_none _) | (with_reducible exact keepsOP_none _) | (with_reducible apply keepsOP_some) | (with_reducible rfl) | (with_reducible refine keeps_foldl _ (fun _ _ _ => ?_) _ ?_) | (with_reducible apply keepsO_some) | (with_reducible apply keepsR_next) | (fail_if_no_progress extract_lets) | split | (with_reducible apply Keeps.upd) | (with_reducible refine keepsO_get (by assumption) ?_) | (with_reducible refine keepsP_get (by assumption) ?_) | (with_reducible refine keepsQ_get (by assumption) ?_) | (with_reducible refine keepsOP_get (by assumption) ?_) | (with_reducible apply imp_writeBytes))

theorem keeps_State_updMailbox (fn : ℕ) (f : Mailbox → Mailbox) {r s : State} (h : Keeps r s) :
    Keeps r (State.updMailbox s fn f) := by
  unfold State.updMailbox
  repeat' (first | with_reducible assumption | (with_reducible exact id) | (with_reducible exact Nat.le_refl _) | (with_reducible exact keepsO_none _) | (with_reducible exact keepsOP_none _) | (with_reducible apply keepsOP_some) | (with_reducible rfl) | (with_reducible refine keeps_foldl _ (fun _ _ _ => ?_) _ ?_) | (with_reducible apply keepsO_some) | (with_reducible apply keepsR_next) | (with_reducible apply keeps_State_updFunc))

theorem keeps_writeResponse (fn : ℕ) (m : Mailbox) (r' : Response) {r s : State} (h : Keeps r s) :
    Keeps r (writeResponse fn m r' s) := by
  unfold writeResponse
  repeat' (first | with_reducible assumption | (with_reducible exact id) | (with_reducible exact Nat.le_refl _) | (with_reducible exact keepsO_none _) | (with_reducible exact keepsOP_none _) | (with_reducible apply keepsOP_some) | (with_reducible rfl) | (with_reducible refine keeps_foldl _ (fun _ _ _ => ?_) _ ?_) | (with_reducible apply keepsO_some) | (with_reducible apply keepsR_next) | (with_reducible apply keeps_raiseIrq) | (with_reducible apply keeps_State_updMailbox) | (with_reducible apply keeps_hostWrite))

theorem keeps_closeStopped (fn : ℕ) {r s : State} (h : Keeps r s) :
    Keeps r (closeStopped fn s) := by
  unfold closeStopped
  repeat' (first | with_reducible assumption | (with_reducible exact id) | (with_reducible exact Nat.le_refl _) | (with_reducible exact keepsO_none _) | (with_reducible exact keepsOP_none _) | (with_reducible apply keepsOP_some) | (with_reducible rfl) | (with_reducible refine keeps_foldl _ (fun _ _ _ => ?_) _ ?_) | (with_reducible apply keepsO_some) | (with_reducible apply keepsR_next) | (with_reducible apply keeps_State_updFunc) | (fail_if_no_progress extract_lets) | split)

theorem keeps_postResponse (fn : ℕ) (r' : Response) {r s : State} (h : Keeps r s) :
    Keeps r (postResponse fn r' s) := by
  unfold postResponse
  repeat' (first | with_reducible assumption | (with_reducible exact id) | (with_reducible exact Nat.le_refl _) | (with_reducible exact keepsO_none _) | (with_reducible exact keepsOP_none _) | (with_reducible apply keepsOP_some) | (with_reducible rfl) | (with_reducible refine keeps_foldl _ (fun _ _ _ => ?_) _ ?_) | (with_reducible apply keepsO_some) | (with_reducible apply keepsR_next) | (with_reducible apply keeps_State_updMailbox) | (with_reducible apply keeps_closeStopped) | (with_reducible apply keeps_writeResponse) | (fail_if_no_progress extract_lets) | split)

theorem keeps_drainResponses (fn n : Nat) {r s : State} (h : Keeps r s) : Keeps r (drainResponses fn n s) := by
  induction n generalizing s with
  | zero => exact h
  | succ n ih =>
    unfold drainResponses
    split
    · exact h
    · split
      · exact h
      · split
        · exact h
        · exact ih (keeps_closeStopped _ (keeps_writeResponse _ _ _ (keeps_State_updMailbox _ _ h)))

theorem keeps_respond (fn : ℕ) (tag : Word) (op : ℕ) (st : Status) (result : ℕ) {r s : State} (h : Keeps r s) :
    Keeps r (respond fn tag op st result s) := by
  unfold respond
  repeat' (first | with_reducible assumption | (with_reducible exact id) | (with_reducible exact Nat.le_refl _) | (with_reducible exact keepsO_none _) | (with_reducible exact keepsOP_none _) | (with_reducible apply keepsOP_some) | (with_reducible rfl) | (with_reducible refine keeps_foldl _ (fun _ _ _ => ?_) _ ?_) | (with_reducible apply keepsO_some) | (with_reducible apply keepsR_next) | (with_reducible apply keeps_postResponse))

theorem keeps_takeRequest (fn : ℕ) {r s : State} (h : Keeps r s) :
    Keeps r (takeRequest fn s) := by
  unfold takeRequest
  repeat' (first | with_reducible assumption | (with_reducible exact id) | (with_reducible exact Nat.le_refl _) | (with_reducible exact keepsO_none _) | (with_reducible exact keepsOP_none _) | (with_reducible apply keepsOP_some) | (with_reducible rfl) | (with_reducible refine keeps_foldl _ (fun _ _ _ => ?_) _ ?_) | (with_reducible apply keepsO_some) | (with_reducible apply keepsR_next) | (with_reducible apply keeps_State_updMailbox) | (fail_if_no_progress extract_lets) | split | (with_reducible apply Keeps.upd))

theorem keeps_refuseUnknown (n : Nat) {r s : State} (h : Keeps r s) : Keeps r (refuseUnknown n s) := by
  induction n generalizing s with
  | zero => exact h
  | succ n ih =>
    unfold refuseUnknown
    split
    · exact h
    · exact ih (keeps_respond _ _ _ _ _ (keeps_takeRequest _ h))

theorem keeps_nextTurn  {r s : State} (h : Keeps r s) :
    Keeps r (nextTurn s) := by
  unfold nextTurn
  repeat' (first | with_reducible assumption | (with_reducible exact id) | (with_reducible exact Nat.le_refl _) | (with_reducible exact keepsO_none _) | (with_reducible exact keepsOP_none _) | (with_reducible apply keepsOP_some) | (with_reducible rfl) | (with_reducible refine keeps_foldl _ (fun _ _ _ => ?_) _ ?_) | (with_reducible apply keepsO_some) | (with_reducible apply keepsR_next) | (with_reducible apply keeps_refuseUnknown))

theorem keeps_serveCall (row : CallRow) (q : Request) (bad : List Byte → Bool) (body : List Byte → State → State × CallEnd)
    {r s : State} (hb : ∀ ps t, Keeps r t → Keeps r (body ps t).1) (h : Keeps r s) :
    Keeps r (serveCall row q bad body s) := by
  have ht := keeps_takeRequest q.fn.val h
  have hx := hb (reqArgs q) _ ht
  unfold serveCall
  split
  · dsimp only
    split
    · exact keeps_nextTurn (keeps_respond _ _ _ _ _ ht)
    · split
      · exact keeps_nextTurn (keeps_respond _ _ _ _ _ ht)
      · split
        · exact keeps_nextTurn (keeps_respond _ _ _ _ _ ht)
        · split
          · rename_i e
            rw [e] at hx
            exact keeps_nextTurn (keeps_respond _ _ _ _ _ hx)
          · rename_i e
            rw [e] at hx
            exact keeps_nextTurn hx
  · exact h

theorem keeps_State_updQueue (fn : ℕ) (q : ℕ) (f : JobQueue → JobQueue) {r s : State} (h : Keeps r s) :
    Keeps r (State.updQueue s fn q f) := by
  unfold State.updQueue
  repeat' (first | with_reducible assumption | (with_reducible exact id) | (with_reducible exact Nat.le_refl _) | (with_reducible exact keepsO_none _) | (with_reducible exact keepsOP_none _) | (with_reducible apply keepsOP_some) | (with_reducible rfl) | (with_reducible refine keeps_foldl _ (fun _ _ _ => ?_) _ ?_) | (with_reducible apply keepsO_some) | (with_reducible apply keepsR_next) | (with_reducible apply keeps_State_updFunc))

theorem keeps_countEnd (fn : ℕ) (q : ℕ) (ok : Bool) (j : Job) {r s : State} (h : Keeps r s) :
    Keeps r (countEnd fn q ok j s) := by
  unfold countEnd
  repeat' (first | with_reducible assumption | (with_reducible exact id) | (with_reducible exact Nat.le_refl _) | (with_reducible exact keepsO_none _) | (with_reducible exact keepsOP_none _) | (with_reducible apply keepsOP_some) | (with_reducible rfl) | (with_reducible refine keeps_foldl _ (fun _ _ _ => ?_) _ ?_) | (with_reducible apply keepsO_some) | (with_reducible apply keepsR_next) | (with_reducible apply keeps_State_updFunc) | (with_reducible apply keeps_State_updQueue) | (fail_if_no_progress extract_lets) | split | (with_reducible apply Keeps.upd))

theorem keeps_writeRecord (fn : ℕ) (q : ℕ) (k : JobQueue) (r' : Record) {r s : State} (h : Keeps r s) :
    Keeps r (writeRecord fn q k r' s) := by
  unfold writeRecord
  repeat' (first | with_reducible assumption | (with_reducible exact id) | (with_reducible exact Nat.le_refl _) | (with_reducible exact keepsO_none _) | (with_reducible exact keepsOP_none _) | (with_reducible apply keepsOP_some) | (with_reducible rfl) | (with_reducible refine keeps_foldl _ (fun _ _ _ => ?_) _ ?_) | (with_reducible apply keepsO_some) | (with_reducible apply keepsR_next) | (with_reducible apply keeps_raiseIrq) | (with_reducible apply keeps_State_updQueue) | (with_reducible apply keeps_hostWrite) | (with_reducible apply keeps_countEnd) | (fail_if_no_progress extract_lets) | split)

theorem keeps_postRecord (fn : ℕ) (q : ℕ) (r' : Record) {r s : State} (h : Keeps r s) :
    Keeps r (postRecord fn q r' s) := by
  unfold postRecord
  repeat' (first | with_reducible assumption | (with_reducible exact id) | (with_reducible exact Nat.le_refl _) | (with_reducible exact keepsO_none _) | (with_reducible exact keepsOP_none _) | (with_reducible apply keepsOP_some) | (with_reducible rfl) | (with_reducible refine keeps_foldl _ (fun _ _ _ => ?_) _ ?_) | (with_reducible apply keepsO_some) | (with_reducible apply keepsR_next) | (with_reducible apply keeps_State_updQueue) | (with_reducible apply keeps_writeRecord) | (fail_if_no_progress extract_lets) | split | (with_reducible apply Keeps.upd))

theorem keeps_drainRecords (fn q n : Nat) {r s : State} (h : Keeps r s) : Keeps r (drainRecords fn q n s) := by
  induction n generalizing s with
  | zero => exact h
  | succ n ih =>
    unfold drainRecords
    split
    · exact h
    · split
      · exact h
      · split
        · exact h
        · exact ih (keeps_writeRecord _ _ _ _ (keeps_State_updQueue _ _ _ h))

theorem keeps_idleUnits  {r s : State} (h : Keeps r s) :
    Keeps r (idleUnits s) := by
  unfold idleUnits
  repeat' (first | with_reducible assumption | (with_reducible exact id) | (with_reducible exact Nat.le_refl _) | (with_reducible exact keepsO_none _) | (with_reducible exact keepsOP_none _) | (with_reducible apply keepsOP_some) | (with_reducible rfl) | (with_reducible refine keeps_foldl _ (fun _ _ _ => ?_) _ ?_) | (with_reducible apply keepsO_some) | (with_reducible apply keepsR_next) | (fail_if_no_progress extract_lets) | split | (with_reducible apply Keeps.upd) | (with_reducible refine keepsO_get (by assumption) ?_) | (with_reducible refine keepsP_get (by assumption) ?_) | (with_reducible refine keepsQ_get (by assumption) ?_) | (with_reducible refine keepsOP_get (by assumption) ?_) | (intro hz; simp [hz]; done))

theorem keeps_State_updPort (p : ℕ) (f : Port → Port) {r s : State} (h : Keeps r s) :
    Keeps r (State.updPort s p f) := by
  unfold State.updPort
  repeat' (first | with_reducible assumption | (with_reducible exact id) | (with_reducible exact Nat.le_refl _) | (with_reducible exact keepsO_none _) | (with_reducible exact keepsOP_none _) | (with_reducible apply keepsOP_some) | (with_reducible rfl) | (with_reducible refine keeps_foldl _ (fun _ _ _ => ?_) _ ?_) | (with_reducible apply keepsO_some) | (with_reducible apply keepsR_next) | (fail_if_no_progress extract_lets) | split | (with_reducible apply Keeps.upd) | (with_reducible refine keepsO_get (by assumption) ?_) | (with_reducible refine keepsP_get (by assumption) ?_) | (with_reducible refine keepsQ_get (by assumption) ?_) | (with_reducible refine keepsOP_get (by assumption) ?_) | (intro hz; simp [hz]; done))

theorem keeps_oweCredit (p : ℕ) (vc : BitVec 6) {r s : State} (h : Keeps r s) :
    Keeps r (oweCredit p vc s) := by
  unfold oweCredit
  repeat' (first | with_reducible assumption | (with_reducible exact id) | (with_reducible exact Nat.le_refl _) | (with_reducible exact keepsO_none _) | (with_reducible exact keepsOP_none _) | (with_reducible apply keepsOP_some) | (with_reducible rfl) | (with_reducible refine keeps_foldl _ (fun _ _ _ => ?_) _ ?_) | (with_reducible apply keepsO_some) | (with_reducible apply keepsR_next) | (with_reducible apply keeps_State_updPort))

theorem keeps_dropWaiting (sel : ℕ × BitVec 14 × Flit → Bool) {r s : State} (h : Keeps r s) :
    Keeps r (dropWaiting sel s) := by
  unfold dropWaiting
  repeat' (first | with_reducible assumption | (with_reducible exact id) | (with_reducible exact Nat.le_refl _) | (with_reducible exact keepsO_none _) | (with_reducible exact keepsOP_none _) | (with_reducible apply keepsOP_some) | (with_reducible rfl) | (with_reducible refine keeps_foldl _ (fun _ _ _ => ?_) _ ?_) | (with_reducible apply keepsO_some) | (with_reducible apply keepsR_next) | (with_reducible apply keeps_oweCredit) | (fail_if_no_progress extract_lets) | split | (with_reducible apply Keeps.upd))

theorem keeps_dropHeld (j : Job) {r s : State} (h : Keeps r s) :
    Keeps r (dropHeld j s) := by
  unfold dropHeld
  repeat' (first | with_reducible assumption | (with_reducible exact id) | (with_reducible exact Nat.le_refl _) | (with_reducible exact keepsO_none _) | (with_reducible exact keepsOP_none _) | (with_reducible apply keepsOP_some) | (with_reducible rfl) | (with_reducible refine keeps_foldl _ (fun _ _ _ => ?_) _ ?_) | (with_reducible apply keepsO_some) | (with_reducible apply keepsR_next) | (with_reducible apply keeps_dropWaiting))

theorem keeps_closeWindows (j : Job) {r s : State} (h : Keeps r s) :
    Keeps r (closeWindows j s) := by
  unfold closeWindows
  repeat' (first | with_reducible assumption | (with_reducible exact id) | (with_reducible exact Nat.le_refl _) | (with_reducible exact keepsO_none _) | (with_reducible exact keepsOP_none _) | (with_reducible apply keepsOP_some) | (with_reducible rfl) | (with_reducible refine keeps_foldl _ (fun _ _ _ => ?_) _ ?_) | (with_reducible apply keepsO_some) | (with_reducible apply keepsR_next) | (with_reducible apply keeps_dropHeld) | (fail_if_no_progress extract_lets) | split | (with_reducible apply Keeps.upd) | (with_reducible refine keepsO_get (by assumption) ?_) | (with_reducible refine keepsP_get (by assumption) ?_) | (with_reducible refine keepsQ_get (by assumption) ?_) | (with_reducible refine keepsOP_get (by assumption) ?_) | (intro hz; simp [hz]; done))

theorem keeps_dropFrames (id : ℕ) {r s : State} (h : Keeps r s) :
    Keeps r (dropFrames id s) := by
  unfold dropFrames
  repeat' (first | with_reducible assumption | (with_reducible exact id) | (with_reducible exact Nat.le_refl _) | (with_reducible exact keepsO_none _) | (with_reducible exact keepsOP_none _) | (with_reducible apply keepsOP_some) | (with_reducible rfl) | (with_reducible refine keeps_foldl _ (fun _ _ _ => ?_) _ ?_) | (with_reducible apply keepsO_some) | (with_reducible apply keepsR_next) | (fail_if_no_progress extract_lets) | split | (with_reducible apply Keeps.upd) | (with_reducible refine keepsO_get (by assumption) ?_) | (with_reducible refine keepsP_get (by assumption) ?_) | (with_reducible refine keepsQ_get (by assumption) ?_) | (with_reducible refine keepsOP_get (by assumption) ?_) | (intro hz; simp [hz]; done) | (intro hz; simp +zetaDelta [hz]; done))

theorem keeps_endJob (j : Job) (st : Status) (cause : Status) (kind : ℕ) (detail : BitVec 352) {r s : State} (h : Keeps r s) :
    Keeps r (endJob j st cause kind detail s) := by
  unfold endJob
  repeat' (first | with_reducible assumption | (with_reducible exact id) | (with_reducible exact Nat.le_refl _) | (with_reducible exact keepsO_none _) | (with_reducible exact keepsOP_none _) | (with_reducible apply keepsOP_some) | (with_reducible rfl) | (with_reducible refine keeps_foldl _ (fun _ _ _ => ?_) _ ?_) | (with_reducible apply keepsO_some) | (with_reducible apply keepsR_next) | (with_reducible apply keeps_postRecord) | (with_reducible apply keeps_State_updJob))

theorem keeps_freeUnits  {r s : State} (h : Keeps r s) :
    Keeps r (freeUnits s) := by
  unfold freeUnits
  repeat' (first | with_reducible assumption | (with_reducible exact id) | (with_reducible exact Nat.le_refl _) | (with_reducible exact keepsO_none _) | (with_reducible exact keepsOP_none _) | (with_reducible apply keepsOP_some) | (with_reducible rfl) | (with_reducible refine keeps_foldl _ (fun _ _ _ => ?_) _ ?_) | (with_reducible apply keepsO_some) | (with_reducible apply keepsR_next) | (fail_if_no_progress extract_lets) | split | (with_reducible apply Keeps.upd))

theorem keeps_forgetWritten (j : Job) {r s : State} (h : Keeps r s) :
    Keeps r (forgetWritten j s) := by
  unfold forgetWritten
  repeat' (first | with_reducible assumption | (with_reducible exact id) | (with_reducible exact Nat.le_refl _) | (with_reducible exact keepsO_none _) | (with_reducible exact keepsOP_none _) | (with_reducible apply keepsOP_some) | (with_reducible rfl) | (with_reducible refine keeps_foldl _ (fun _ _ _ => ?_) _ ?_) | (with_reducible apply keepsO_some) | (with_reducible apply keepsR_next) | (with_reducible apply keeps_forgetRange) | (with_reducible apply keeps_forgetOutside) | (fail_if_no_progress extract_lets) | split)

theorem keeps_releaseSave (id : ℕ) {r s : State} (h : Keeps r s) :
    Keeps r (releaseSave id s) := by
  unfold releaseSave
  repeat' (first | with_reducible assumption | (with_reducible exact id) | (with_reducible exact Nat.le_refl _) | (with_reducible exact keepsO_none _) | (with_reducible exact keepsOP_none _) | (with_reducible apply keepsOP_some) | (with_reducible rfl) | (with_reducible refine keeps_foldl _ (fun _ _ _ => ?_) _ ?_) | (with_reducible apply keepsO_some) | (with_reducible apply keepsR_next) | (fail_if_no_progress extract_lets) | split | (with_reducible apply Keeps.upd) | (with_reducible refine keepsO_get (by assumption) ?_) | (with_reducible refine keepsP_get (by assumption) ?_) | (with_reducible refine keepsQ_get (by assumption) ?_) | (with_reducible refine keepsOP_get (by assumption) ?_) | (intro hz; simp [hz]; done))

theorem keeps_endRunning (st : Status) (cause : Status) (kind : ℕ) (detail : BitVec 352) {r s : State} (h : Keeps r s) :
    Keeps r (endRunning st cause kind detail s) := by
  unfold endRunning
  repeat' (first | with_reducible assumption | (with_reducible exact id) | (with_reducible exact Nat.le_refl _) | (with_reducible exact keepsO_none _) | (with_reducible exact keepsOP_none _) | (with_reducible apply keepsOP_some) | (with_reducible rfl) | (with_reducible refine keeps_foldl _ (fun _ _ _ => ?_) _ ?_) | (with_reducible apply keepsO_some) | (with_reducible apply keepsR_next) | (with_reducible apply keeps_dropFrames) | (with_reducible apply keeps_closeWindows) | (with_reducible apply keeps_idleUnits) | (with_reducible apply keeps_freeUnits) | (with_reducible apply keeps_endJob) | (with_reducible apply keeps_dropHeld) | (with_reducible apply keeps_releaseSave) | (fail_if_no_progress extract_lets) | split | (with_reducible apply Keeps.upd))

theorem keeps_dropBody (id : ℕ) {r s : State} (h : Keeps r s) :
    Keeps r (dropBody id s) := by
  unfold dropBody
  repeat' (first | with_reducible assumption | (with_reducible exact id) | (with_reducible exact Nat.le_refl _) | (with_reducible exact keepsO_none _) | (with_reducible exact keepsOP_none _) | (with_reducible apply keepsOP_some) | (with_reducible rfl) | (with_reducible refine keeps_foldl _ (fun _ _ _ => ?_) _ ?_) | (with_reducible apply keepsO_some) | (with_reducible apply keepsR_next) | (fail_if_no_progress extract_lets) | split | (with_reducible apply Keeps.upd) | (with_reducible refine keepsO_get (by assumption) ?_) | (with_reducible refine keepsP_get (by assumption) ?_) | (with_reducible refine keepsQ_get (by assumption) ?_) | (with_reducible refine keepsOP_get (by assumption) ?_) | (intro hz; simp [hz]; done))

theorem keeps_endResting (j : Job) (st : Status) (cause : Status) (kind : ℕ) (detail : BitVec 352) {r s : State} (h : Keeps r s) :
    Keeps r (endResting j st cause kind detail s) := by
  unfold endResting
  repeat' (first | with_reducible assumption | (with_reducible exact id) | (with_reducible exact Nat.le_refl _) | (with_reducible exact keepsO_none _) | (with_reducible exact keepsOP_none _) | (with_reducible apply keepsOP_some) | (with_reducible rfl) | (with_reducible refine keeps_foldl _ (fun _ _ _ => ?_) _ ?_) | (with_reducible apply keepsO_some) | (with_reducible apply keepsR_next) | (with_reducible apply keeps_endJob) | (with_reducible apply keeps_dropHeld) | (with_reducible apply keeps_dropBody) | (with_reducible apply keeps_releaseSave))

theorem keeps_endAny (j : Job) (st : Status) (cause : Status) (kind : ℕ) (detail : BitVec 352) {r s : State} (h : Keeps r s) :
    Keeps r (endAny j st cause kind detail s) := by
  unfold endAny
  repeat' (first | with_reducible assumption | (with_reducible exact id) | (with_reducible exact Nat.le_refl _) | (with_reducible exact keepsO_none _) | (with_reducible exact keepsOP_none _) | (with_reducible apply keepsOP_some) | (with_reducible rfl) | (with_reducible refine keeps_foldl _ (fun _ _ _ => ?_) _ ?_) | (with_reducible apply keepsO_some) | (with_reducible apply keepsR_next) | (with_reducible apply keeps_endRunning) | (with_reducible apply keeps_endResting) | (fail_if_no_progress extract_lets) | split)

theorem keeps_restClocks  {r s : State} (h : Keeps r s) :
    Keeps r (restClocks s) := by
  unfold restClocks
  repeat' (first | with_reducible assumption | (with_reducible exact id) | (with_reducible exact Nat.le_refl _) | (with_reducible exact keepsO_none _) | (with_reducible exact keepsOP_none _) | (with_reducible apply keepsOP_some) | (with_reducible rfl) | (with_reducible refine keeps_foldl _ (fun _ _ _ => ?_) _ ?_) | (with_reducible apply keepsO_some) | (with_reducible apply keepsR_next) | (fail_if_no_progress extract_lets) | split | (with_reducible apply Keeps.upd) | (with_reducible refine keepsO_get (by assumption) ?_) | (with_reducible refine keepsP_get (by assumption) ?_) | (with_reducible refine keepsQ_get (by assumption) ?_) | (with_reducible refine keepsOP_get (by assumption) ?_) | (intro hz; simp [hz]; done))

end Sys2Proof.Machine
end

