-- ==== Sys2Proof/Laws/KeepsFabric.lean ====
section
/-! SUPPORT. What the operations of Fabric keep. -/
set_option linter.all false
namespace Sys2Proof.Machine

theorem keeps_transmitNow (p : ℕ) (w : ℕ × BitVec 6 × Flit) {r s : State} (h : Keeps r s) :
    Keeps r (transmitNow p w s) := by
  unfold transmitNow
  repeat' (first | with_reducible assumption | (with_reducible exact id) | (with_reducible exact Nat.le_refl _) | (with_reducible exact keepsO_none _) | (with_reducible exact keepsOP_none _) | (with_reducible apply keepsOP_some) | (with_reducible rfl) | (with_reducible refine keeps_foldl _ (fun _ _ _ => ?_) _ ?_) | (with_reducible apply keepsO_some) | (with_reducible apply keepsR_next) | (with_reducible apply keeps_State_updPort) | (with_reducible apply keeps_oweCredit) | (with_reducible apply keeps_State_emit))

theorem keeps_sendWaiting (p n : Nat) {r s : State} (h : Keeps r s) : Keeps r (sendWaiting p n s) := by
  induction n generalizing s with
  | zero => exact h
  | succ n ih =>
    unfold sendWaiting
    dsimp only
    split
    · exact h
    · split
      · exact h
      · split
        · exact h
        · exact ih (keeps_transmitNow _ _ (keeps_State_updPort _ _ h))

theorem keeps_flush (p : ℕ) {r s : State} (h : Keeps r s) :
    Keeps r (flush p s) := by
  unfold flush
  repeat' (first | with_reducible assumption | (with_reducible exact id) | (with_reducible exact Nat.le_refl _) | (with_reducible exact keepsO_none _) | (with_reducible exact keepsOP_none _) | (with_reducible apply keepsOP_some) | (with_reducible rfl) | (with_reducible refine keeps_foldl _ (fun _ _ _ => ?_) _ ?_) | (with_reducible apply keepsO_some) | (with_reducible apply keepsR_next) | (with_reducible apply keeps_sendWaiting))

theorem keeps_transmit (p : ℕ) (inPort : ℕ) (inVc : BitVec 6) (f : Flit) {r s : State} (h : Keeps r s) :
    Keeps r (transmit p inPort inVc f s) := by
  unfold transmit
  repeat' (first | with_reducible assumption | (with_reducible exact id) | (with_reducible exact Nat.le_refl _) | (with_reducible exact keepsO_none _) | (with_reducible exact keepsOP_none _) | (with_reducible apply keepsOP_some) | (with_reducible rfl) | (with_reducible refine keeps_foldl _ (fun _ _ _ => ?_) _ ?_) | (with_reducible apply keepsO_some) | (with_reducible apply keepsR_next) | (with_reducible apply keeps_flush) | (with_reducible apply keeps_State_updPort))

theorem keeps_sendLink (p : ℕ) (m : LinkMsg) {r s : State} (h : Keeps r s) :
    Keeps r (sendLink p m s) := by
  unfold sendLink
  repeat' (first | with_reducible assumption | (with_reducible exact id) | (with_reducible exact Nat.le_refl _) | (with_reducible exact keepsO_none _) | (with_reducible exact keepsOP_none _) | (with_reducible apply keepsOP_some) | (with_reducible rfl) | (with_reducible refine keeps_foldl _ (fun _ _ _ => ?_) _ ?_) | (with_reducible apply keepsO_some) | (with_reducible apply keepsR_next) | (with_reducible apply keeps_transmit))

theorem keeps_sendNack (p : ℕ) {r s : State} (h : Keeps r s) :
    Keeps r (sendNack p s) := by
  unfold sendNack
  repeat' (first | with_reducible assumption | (with_reducible exact id) | (with_reducible exact Nat.le_refl _) | (with_reducible exact keepsO_none _) | (with_reducible exact keepsOP_none _) | (with_reducible apply keepsOP_some) | (with_reducible rfl) | (with_reducible refine keeps_foldl _ (fun _ _ _ => ?_) _ ?_) | (with_reducible apply keepsO_some) | (with_reducible apply keepsR_next) | (with_reducible apply keeps_State_emit))

theorem keeps_sendIdle (p : ℕ) {r s : State} (h : Keeps r s) :
    Keeps r (sendIdle p s) := by
  unfold sendIdle
  repeat' (first | with_reducible assumption | (with_reducible exact id) | (with_reducible exact Nat.le_refl _) | (with_reducible exact keepsO_none _) | (with_reducible exact keepsOP_none _) | (with_reducible apply keepsOP_some) | (with_reducible rfl) | (with_reducible refine keeps_foldl _ (fun _ _ _ => ?_) _ ?_) | (with_reducible apply keepsO_some) | (with_reducible apply keepsR_next) | (with_reducible apply keeps_State_emit) | (with_reducible apply keeps_State_updPort))

theorem keeps_returnCredits (p : ℕ) {r s : State} (h : Keeps r s) :
    Keeps r (returnCredits p s) := by
  unfold returnCredits
  repeat' (first | with_reducible assumption | (with_reducible exact id) | (with_reducible exact Nat.le_refl _) | (with_reducible exact keepsO_none _) | (with_reducible exact keepsOP_none _) | (with_reducible apply keepsOP_some) | (with_reducible rfl) | (with_reducible refine keeps_foldl _ (fun _ _ _ => ?_) _ ?_) | (with_reducible apply keepsO_some) | (with_reducible apply keepsR_next) | (with_reducible apply keeps_sendLink) | (with_reducible apply keeps_State_updPort) | (with_reducible apply keeps_sendIdle) | (fail_if_no_progress extract_lets) | split)

theorem keeps_sendCredits  {r s : State} (h : Keeps r s) :
    Keeps r (sendCredits s) := by
  unfold sendCredits
  repeat' (first | with_reducible assumption | (with_reducible exact id) | (with_reducible exact Nat.le_refl _) | (with_reducible exact keepsO_none _) | (with_reducible exact keepsOP_none _) | (with_reducible apply keepsOP_some) | (with_reducible rfl) | (with_reducible refine keeps_foldl _ (fun _ _ _ => ?_) _ ?_) | (with_reducible apply keepsO_some) | (with_reducible apply keepsR_next) | (with_reducible apply keeps_returnCredits) | (fail_if_no_progress extract_lets) | split)

theorem keeps_answerPort (p : ℕ) {r s : State} (h : Keeps r s) :
    Keeps r (answerPort p s) := by
  unfold answerPort
  repeat' (first | with_reducible assumption | (with_reducible exact id) | (with_reducible exact Nat.le_refl _) | (with_reducible exact keepsO_none _) | (with_reducible exact keepsOP_none _) | (with_reducible apply keepsOP_some) | (with_reducible rfl) | (with_reducible refine keeps_foldl _ (fun _ _ _ => ?_) _ ?_) | (with_reducible apply keepsO_some) | (with_reducible apply keepsR_next) | (with_reducible apply keeps_sendCredits) | (with_reducible apply keeps_sendIdle) | (fail_if_no_progress extract_lets) | split)

theorem keeps_discardFlit (p : ℕ) (dest : ℕ) {r s : State} (h : Keeps r s) :
    Keeps r (discardFlit p dest s) := by
  unfold discardFlit
  repeat' (first | with_reducible assumption | (with_reducible exact id) | (with_reducible exact Nat.le_refl _) | (with_reducible exact keepsO_none _) | (with_reducible exact keepsOP_none _) | (with_reducible apply keepsOP_some) | (with_reducible rfl) | (with_reducible refine keeps_foldl _ (fun _ _ _ => ?_) _ ?_) | (with_reducible apply keepsO_some) | (with_reducible apply keepsR_next) | (with_reducible apply keeps_logError) | (with_reducible apply keeps_State_updPort) | (fail_if_no_progress extract_lets) | split)

theorem keeps_routeFrom (inPort : ℕ) (inVc : BitVec 6) (pair : ℕ) (f : Flit) {r s : State} (h : Keeps r s) :
    Keeps r (routeFrom inPort inVc pair f s) := by
  unfold routeFrom
  repeat' (first | with_reducible assumption | (with_reducible exact id) | (with_reducible exact Nat.le_refl _) | (with_reducible exact keepsO_none _) | (with_reducible exact keepsOP_none _) | (with_reducible apply keepsOP_some) | (with_reducible rfl) | (with_reducible refine keeps_foldl _ (fun _ _ _ => ?_) _ ?_) | (with_reducible apply keepsO_some) | (with_reducible apply keepsR_next) | (with_reducible apply keeps_oweCredit) | (with_reducible apply keeps_discardFlit) | (with_reducible apply keeps_transmit) | (fail_if_no_progress extract_lets) | split)

theorem keeps_routeFlit (inPort : ℕ) (pair : ℕ) (f : Flit) {r s : State} (h : Keeps r s) :
    Keeps r (routeFlit inPort pair f s) := by
  unfold routeFlit
  repeat' (first | with_reducible assumption | (with_reducible exact id) | (with_reducible exact Nat.le_refl _) | (with_reducible exact keepsO_none _) | (with_reducible exact keepsOP_none _) | (with_reducible apply keepsOP_some) | (with_reducible rfl) | (with_reducible refine keeps_foldl _ (fun _ _ _ => ?_) _ ?_) | (with_reducible apply keepsO_some) | (with_reducible apply keepsR_next) | (with_reducible apply keeps_routeFrom))

theorem keeps_setPhase (u : UnitId) (key : ℕ) (ph : Flight) {r s : State} (h : Keeps r s) :
    Keeps r (setPhase u key ph s) := by
  unfold setPhase
  repeat' (first | with_reducible assumption | (with_reducible exact id) | (with_reducible exact Nat.le_refl _) | (with_reducible exact keepsO_none _) | (with_reducible exact keepsOP_none _) | (with_reducible apply keepsOP_some) | (with_reducible rfl) | (with_reducible refine keeps_foldl _ (fun _ _ _ => ?_) _ ?_) | (with_reducible apply keepsO_some) | (with_reducible apply keepsR_next) | (with_reducible apply keeps_State_updUnit))

theorem keeps_addLink (job : ℕ) (peer : ℕ) (window : ℕ) (sent : Bool) (o : Digest × ℕ) {r s : State} (h : Keeps r s) :
    Keeps r (addLink job peer window sent o s) := by
  unfold addLink
  repeat' (first | with_reducible assumption | (with_reducible exact id) | (with_reducible exact Nat.le_refl _) | (with_reducible exact keepsO_none _) | (with_reducible exact keepsOP_none _) | (with_reducible apply keepsOP_some) | (with_reducible rfl) | (with_reducible refine keeps_foldl _ (fun _ _ _ => ?_) _ ?_) | (with_reducible apply keepsO_some) | (with_reducible apply keepsR_next) | (with_reducible apply keeps_State_updJob))

theorem keeps_ackSend (xtag : BitVec 7) (bytes : ℕ) (opening : Option (Digest × ℕ)) {r s : State} (h : Keeps r s) :
    Keeps r (ackSend xtag bytes opening s) := by
  unfold ackSend
  repeat' (first | with_reducible assumption | (with_reducible exact id) | (with_reducible exact Nat.le_refl _) | (with_reducible exact keepsO_none _) | (with_reducible exact keepsOP_none _) | (with_reducible apply keepsOP_some) | (with_reducible rfl) | (with_reducible refine keeps_foldl _ (fun _ _ _ => ?_) _ ?_) | (with_reducible apply keepsO_some) | (with_reducible apply keepsR_next) | (with_reducible apply keeps_addLink) | (with_reducible apply keeps_setPhase) | (fail_if_no_progress extract_lets) | split | (with_reducible apply Keeps.upd))

theorem keeps_returnAck (peer : ℕ) (xtag : BitVec 7) (bytes : ℕ) (opening : Option (Digest × ℕ)) {r s : State} (h : Keeps r s) :
    Keeps r (returnAck peer xtag bytes opening s) := by
  unfold returnAck
  repeat' (first | with_reducible assumption | (with_reducible exact id) | (with_reducible exact Nat.le_refl _) | (with_reducible exact keepsO_none _) | (with_reducible exact keepsOP_none _) | (with_reducible apply keepsOP_some) | (with_reducible rfl) | (with_reducible refine keeps_foldl _ (fun _ _ _ => ?_) _ ?_) | (with_reducible apply keepsO_some) | (with_reducible apply keepsR_next) | (with_reducible apply keeps_ackSend) | (with_reducible apply keeps_routeFlit) | (fail_if_no_progress extract_lets) | split)

theorem keeps_landBytes (w : Window) (f : Flit) {r s : State} (h : Keeps r s) :
    Keeps r (landBytes w f s) := by
  unfold landBytes
  repeat' (first | with_reducible assumption | (with_reducible exact id) | (with_reducible exact Nat.le_refl _) | (with_reducible exact keepsO_none _) | (with_reducible exact keepsOP_none _) | (with_reducible apply keepsOP_some) | (with_reducible rfl) | (with_reducible refine keeps_foldl _ (fun _ _ _ => ?_) _ ?_) | (with_reducible apply keepsO_some) | (with_reducible apply keepsR_next) | (with_reducible apply keeps_unitWrite))

theorem keeps_closeOpening (wi : ℕ) (w : Window) (last : ℕ) (xtag : BitVec 7) (bytes : ℕ) {r s : State} (h : Keeps r s) :
    Keeps r (closeOpening wi w last xtag bytes s) := by
  unfold closeOpening
  repeat' (first | with_reducible assumption | (with_reducible exact id) | (with_reducible exact Nat.le_refl _) | (with_reducible exact keepsO_none _) | (with_reducible exact keepsOP_none _) | (with_reducible apply keepsOP_some) | (with_reducible rfl) | (with_reducible refine keeps_foldl _ (fun _ _ _ => ?_) _ ?_) | (with_reducible apply keepsO_some) | (with_reducible apply keepsR_next) | (with_reducible apply keeps_addLink) | (with_reducible apply keeps_returnAck) | (with_reducible apply keeps_setPhase) | (fail_if_no_progress extract_lets) | split | (with_reducible apply Keeps.upd) | (with_reducible refine keepsO_get (by assumption) ?_) | (with_reducible refine keepsP_get (by assumption) ?_) | (with_reducible refine keepsQ_get (by assumption) ?_) | (with_reducible refine keepsOP_get (by assumption) ?_) | (intro hz; simp [hz]; done))

end Sys2Proof.Machine
end

