-- ==== Sys2Proof/Laws/KeepsCollective.lean ====
section
/-! SUPPORT. What the operations of Collective keep. -/
set_option linter.all false
namespace Sys2Proof.Machine

theorem keeps_State_updGroup (tag : ℕ) (f : Group → Group) {r s : State} (h : Keeps r s) :
    Keeps r (State.updGroup s tag f) := by
  unfold State.updGroup
  repeat' (first | with_reducible assumption | (with_reducible exact id) | (with_reducible exact Nat.le_refl _) | (with_reducible exact keepsO_none _) | (with_reducible exact keepsOP_none _) | (with_reducible apply keepsOP_some) | (with_reducible rfl) | (with_reducible refine keeps_foldl _ (fun _ _ _ => ?_) _ ?_) | (with_reducible apply keepsO_some) | (with_reducible apply keepsR_next) | (fail_if_no_progress extract_lets) | split | (with_reducible apply Keeps.upd) | (with_reducible refine keepsO_get (by assumption) ?_) | (with_reducible refine keepsP_get (by assumption) ?_) | (with_reducible refine keepsQ_get (by assumption) ?_) | (with_reducible refine keepsOP_get (by assumption) ?_) | (intro hz; simp [hz]; done))

theorem keeps_sendClap (g : Group) (toRank : ℕ) (m : ClapMsg) {r s : State} (h : Keeps r s) :
    Keeps r (sendClap g toRank m s) := by
  unfold sendClap
  repeat' (first | with_reducible assumption | (with_reducible exact id) | (with_reducible exact Nat.le_refl _) | (with_reducible exact keepsO_none _) | (with_reducible exact keepsOP_none _) | (with_reducible apply keepsOP_some) | (with_reducible rfl) | (with_reducible refine keeps_foldl _ (fun _ _ _ => ?_) _ ?_) | (with_reducible apply keepsO_some) | (with_reducible apply keepsR_next) | (with_reducible apply keeps_routeFlit))

theorem keeps_sendChildren (g : Group) (m : ClapMsg) {r s : State} (h : Keeps r s) :
    Keeps r (sendChildren g m s) := by
  unfold sendChildren
  repeat' (first | with_reducible assumption | (with_reducible exact id) | (with_reducible exact Nat.le_refl _) | (with_reducible exact keepsO_none _) | (with_reducible exact keepsOP_none _) | (with_reducible apply keepsOP_some) | (with_reducible rfl) | (with_reducible refine keeps_foldl _ (fun _ _ _ => ?_) _ ?_) | (with_reducible apply keepsO_some) | (with_reducible apply keepsR_next) | (with_reducible apply keeps_sendClap))

theorem keeps_dropStale (tag : ℕ) (a : ℕ) {r s : State} (h : Keeps r s) :
    Keeps r (dropStale tag a s) := by
  unfold dropStale
  repeat' (first | with_reducible assumption | (with_reducible exact id) | (with_reducible exact Nat.le_refl _) | (with_reducible exact keepsO_none _) | (with_reducible exact keepsOP_none _) | (with_reducible apply keepsOP_some) | (with_reducible rfl) | (with_reducible refine keeps_foldl _ (fun _ _ _ => ?_) _ ?_) | (with_reducible apply keepsO_some) | (with_reducible apply keepsR_next) | (with_reducible apply keeps_oweCredit) | (with_reducible apply keeps_dropWaiting) | (fail_if_no_progress extract_lets) | split | (with_reducible apply Keeps.upd) | (with_reducible refine keepsO_get (by assumption) ?_) | (with_reducible refine keepsP_get (by assumption) ?_) | (with_reducible refine keepsQ_get (by assumption) ?_) | (with_reducible refine keepsOP_get (by assumption) ?_) | (intro hz; simp [hz]; done))

theorem keeps_endAbort (source : ℕ) (g : Group) (seq : ℕ) (cause : ℕ) (origin : ℕ) {r s : State} (h : Keeps r s) :
    Keeps r (endAbort source g seq cause origin s) := by
  unfold endAbort
  repeat' (first | with_reducible assumption | (with_reducible exact id) | (with_reducible exact Nat.le_refl _) | (with_reducible exact keepsO_none _) | (with_reducible exact keepsOP_none _) | (with_reducible apply keepsOP_some) | (with_reducible rfl) | (with_reducible refine keeps_foldl _ (fun _ _ _ => ?_) _ ?_) | (with_reducible apply keepsO_some) | (with_reducible apply keepsR_next) | (with_reducible apply keeps_State_updGroup) | (with_reducible apply keeps_dropStale) | (with_reducible apply keeps_endAny) | (with_reducible apply keeps_logError))

theorem keeps_applyAbort (g : Group) (seq : ℕ) (cause : ℕ) (origin : ℕ) {r s : State} (h : Keeps r s) :
    Keeps r (applyAbort g seq cause origin s) := by
  unfold applyAbort
  repeat' (first | with_reducible assumption | (with_reducible exact id) | (with_reducible exact Nat.le_refl _) | (with_reducible exact keepsO_none _) | (with_reducible exact keepsOP_none _) | (with_reducible apply keepsOP_some) | (with_reducible rfl) | (with_reducible refine keeps_foldl _ (fun _ _ _ => ?_) _ ?_) | (with_reducible apply keepsO_some) | (with_reducible apply keepsR_next) | (with_reducible apply keeps_endAbort) | (with_reducible apply keeps_sendChildren))

theorem keeps_decideAbort (g : Group) (seq : ℕ) (cause : ℕ) (origin : ℕ) (own : Bool) {r s : State} (h : Keeps r s) :
    Keeps r (decideAbort g seq cause origin own s) := by
  unfold decideAbort
  repeat' (first | with_reducible assumption | (with_reducible exact id) | (with_reducible exact Nat.le_refl _) | (with_reducible exact keepsO_none _) | (with_reducible exact keepsOP_none _) | (with_reducible apply keepsOP_some) | (with_reducible rfl) | (with_reducible refine keeps_foldl _ (fun _ _ _ => ?_) _ ?_) | (with_reducible apply keepsO_some) | (with_reducible apply keepsR_next) | (with_reducible apply keeps_applyAbort) | (fail_if_no_progress extract_lets) | split)

theorem keeps_requestAbort (g : Group) (seq : ℕ) (cause : ℕ) {r s : State} (h : Keeps r s) :
    Keeps r (requestAbort g seq cause s) := by
  unfold requestAbort
  repeat' (first | with_reducible assumption | (with_reducible exact id) | (with_reducible exact Nat.le_refl _) | (with_reducible exact keepsO_none _) | (with_reducible exact keepsOP_none _) | (with_reducible apply keepsOP_some) | (with_reducible rfl) | (with_reducible refine keeps_foldl _ (fun _ _ _ => ?_) _ ?_) | (with_reducible apply keepsO_some) | (with_reducible apply keepsR_next) | (with_reducible apply keeps_decideAbort) | (with_reducible apply keeps_sendClap) | (with_reducible apply keeps_State_updGroup) | (fail_if_no_progress extract_lets) | split)

theorem keeps_raiseAbortOf (tag : ℕ) (seq : ℕ) (cause : ℕ) {r s : State} (h : Keeps r s) :
    Keeps r (raiseAbortOf tag seq cause s) := by
  unfold raiseAbortOf
  repeat' (first | with_reducible assumption | (with_reducible exact id) | (with_reducible exact Nat.le_refl _) | (with_reducible exact keepsO_none _) | (with_reducible exact keepsOP_none _) | (with_reducible apply keepsOP_some) | (with_reducible rfl) | (with_reducible refine keeps_foldl _ (fun _ _ _ => ?_) _ ?_) | (with_reducible apply keepsO_some) | (with_reducible apply keepsR_next) | (with_reducible apply keeps_requestAbort) | (fail_if_no_progress extract_lets) | split)

theorem keeps_raiseAbort (tag : ℕ) (cause : ℕ) {r s : State} (h : Keeps r s) :
    Keeps r (raiseAbort tag cause s) := by
  unfold raiseAbort
  repeat' (first | with_reducible assumption | (with_reducible exact id) | (with_reducible exact Nat.le_refl _) | (with_reducible exact keepsO_none _) | (with_reducible exact keepsOP_none _) | (with_reducible apply keepsOP_some) | (with_reducible rfl) | (with_reducible refine keeps_foldl _ (fun _ _ _ => ?_) _ ?_) | (with_reducible apply keepsO_some) | (with_reducible apply keepsR_next) | (with_reducible apply keeps_requestAbort) | (fail_if_no_progress extract_lets) | split)

theorem keeps_abortGroups (j : Job) (cause : ℕ) {r s : State} (h : Keeps r s) :
    Keeps r (abortGroups j cause s) := by
  unfold abortGroups
  repeat' (first | with_reducible assumption | (with_reducible exact id) | (with_reducible exact Nat.le_refl _) | (with_reducible exact keepsO_none _) | (with_reducible exact keepsOP_none _) | (with_reducible apply keepsOP_some) | (with_reducible rfl) | (with_reducible refine keeps_foldl _ (fun _ _ _ => ?_) _ ?_) | (with_reducible apply keepsO_some) | (with_reducible apply keepsR_next) | (with_reducible apply keeps_raiseAbort))

theorem keeps_strikeJob (j : Job) (cause : Status) (kind : ℕ) (detail : BitVec 352) {r s : State} (h : Keeps r s) :
    Keeps r (strikeJob j cause kind detail s) := by
  unfold strikeJob
  repeat' (first | with_reducible assumption | (with_reducible exact id) | (with_reducible exact Nat.le_refl _) | (with_reducible exact keepsO_none _) | (with_reducible exact keepsOP_none _) | (with_reducible apply keepsOP_some) | (with_reducible rfl) | (with_reducible refine keeps_foldl _ (fun _ _ _ => ?_) _ ?_) | (with_reducible apply keepsO_some) | (with_reducible apply keepsR_next) | (with_reducible apply keeps_abortGroups) | (with_reducible apply keeps_endAny) | (fail_if_no_progress extract_lets) | split)

theorem keeps_strikeRunning (cause : Status) (kind : ℕ) (detail : BitVec 352) {r s : State} (h : Keeps r s) :
    Keeps r (strikeRunning cause kind detail s) := by
  unfold strikeRunning
  repeat' (first | with_reducible assumption | (with_reducible exact id) | (with_reducible exact Nat.le_refl _) | (with_reducible exact keepsO_none _) | (with_reducible exact keepsOP_none _) | (with_reducible apply keepsOP_some) | (with_reducible rfl) | (with_reducible refine keeps_foldl _ (fun _ _ _ => ?_) _ ?_) | (with_reducible apply keepsO_some) | (with_reducible apply keepsR_next) | (with_reducible apply keeps_strikeJob) | (fail_if_no_progress extract_lets) | split)

theorem keeps_writeFinal (c : Collective) (i : ℕ) (ws : List Word) {r s : State} (h : Keeps r s) :
    Keeps r (writeFinal c i ws s) := by
  unfold writeFinal
  repeat' (first | with_reducible assumption | (with_reducible exact id) | (with_reducible exact Nat.le_refl _) | (with_reducible exact keepsO_none _) | (with_reducible exact keepsOP_none _) | (with_reducible apply keepsOP_some) | (with_reducible rfl) | (with_reducible refine keeps_foldl _ (fun _ _ _ => ?_) _ ?_) | (with_reducible apply keepsO_some) | (with_reducible apply keepsR_next) | (with_reducible apply keeps_unitWrite))

theorem keeps_sendCollFlit (g : Group) (c : Collective) (q : ℕ) (bs : List Byte) {r s : State} (h : Keeps r s) :
    Keeps r (sendCollFlit g c q bs s) := by
  unfold sendCollFlit
  repeat' (first | with_reducible assumption | (with_reducible exact id) | (with_reducible exact Nat.le_refl _) | (with_reducible exact keepsO_none _) | (with_reducible exact keepsOP_none _) | (with_reducible apply keepsOP_some) | (with_reducible rfl) | (with_reducible refine keeps_foldl _ (fun _ _ _ => ?_) _ ?_) | (with_reducible apply keepsO_some) | (with_reducible apply keepsR_next) | (with_reducible apply keeps_routeFlit) | (with_reducible apply keeps_discardFlit) | (fail_if_no_progress extract_lets) | split)

theorem keeps_sendChunk (g : Group) (c : Collective) (q : ℕ) (bs : List Byte) {r s : State} (h : Keeps r s) :
    Keeps r (sendChunk g c q bs s) := by
  unfold sendChunk
  repeat' (first | with_reducible assumption | (with_reducible exact id) | (with_reducible exact Nat.le_refl _) | (with_reducible exact keepsO_none _) | (with_reducible exact keepsOP_none _) | (with_reducible apply keepsOP_some) | (with_reducible rfl) | (with_reducible refine keeps_foldl _ (fun _ _ _ => ?_) _ ?_) | (with_reducible apply keepsO_some) | (with_reducible apply keepsR_next) | (with_reducible apply keeps_sendCollFlit))

theorem keeps_finishColl (tag : ℕ) (seq : ℕ) {r s : State} (h : Keeps r s) :
    Keeps r (finishColl tag seq s) := by
  unfold finishColl
  repeat' (first | with_reducible assumption | (with_reducible exact id) | (with_reducible exact Nat.le_refl _) | (with_reducible exact keepsO_none _) | (with_reducible exact keepsOP_none _) | (with_reducible apply keepsOP_some) | (with_reducible rfl) | (with_reducible refine keeps_foldl _ (fun _ _ _ => ?_) _ ?_) | (with_reducible apply keepsO_some) | (with_reducible apply keepsR_next) | (with_reducible apply keeps_State_updGroup) | (with_reducible apply keeps_setPhase) | (fail_if_no_progress extract_lets) | split)

theorem keeps_takeDown (g : Group) (c : Collective) (data : List Byte) {r s : State} (h : Keeps r s) :
    Keeps r (takeDown g c data s) := by
  unfold takeDown
  repeat' (first | with_reducible assumption | (with_reducible exact id) | (with_reducible exact Nat.le_refl _) | (with_reducible exact keepsO_none _) | (with_reducible exact keepsOP_none _) | (with_reducible apply keepsOP_some) | (with_reducible rfl) | (with_reducible refine keeps_foldl _ (fun _ _ _ => ?_) _ ?_) | (with_reducible apply keepsO_some) | (with_reducible apply keepsR_next) | (with_reducible apply keeps_sendChildren) | (with_reducible apply keeps_unitWrite) | (with_reducible apply keeps_finishColl) | (fail_if_no_progress extract_lets) | split)

theorem keeps_takeDone (g : Group) (seq : ℕ) {r s : State} (h : Keeps r s) :
    Keeps r (takeDone g seq s) := by
  unfold takeDone
  repeat' (first | with_reducible assumption | (with_reducible exact id) | (with_reducible exact Nat.le_refl _) | (with_reducible exact keepsO_none _) | (with_reducible exact keepsOP_none _) | (with_reducible apply keepsOP_some) | (with_reducible rfl) | (with_reducible refine keeps_foldl _ (fun _ _ _ => ?_) _ ?_) | (with_reducible apply keepsO_some) | (with_reducible apply keepsR_next) | (with_reducible apply keeps_finishColl) | (with_reducible apply keeps_sendChildren))

theorem keeps_tryUp (tag : ℕ) (seq : ℕ) {r s : State} (h : Keeps r s) :
    Keeps r (tryUp tag seq s) := by
  unfold tryUp
  repeat' (first | with_reducible assumption | (with_reducible exact id) | (with_reducible exact Nat.le_refl _) | (with_reducible exact keepsO_none _) | (with_reducible exact keepsOP_none _) | (with_reducible apply keepsOP_some) | (with_reducible rfl) | (with_reducible refine keeps_foldl _ (fun _ _ _ => ?_) _ ?_) | (with_reducible apply keepsO_some) | (with_reducible apply keepsR_next) | (with_reducible apply keeps_applyAbort) | (with_reducible apply keeps_takeDown) | (with_reducible apply keeps_takeDone) | (with_reducible apply keeps_sendClap) | (with_reducible apply keeps_State_updGroup) | (fail_if_no_progress extract_lets) | split)

theorem keeps_joinWave (tag : ℕ) (seq : ℕ) {r s : State} (h : Keeps r s) :
    Keeps r (joinWave tag seq s) := by
  unfold joinWave
  repeat' (first | with_reducible assumption | (with_reducible exact id) | (with_reducible exact Nat.le_refl _) | (with_reducible exact keepsO_none _) | (with_reducible exact keepsOP_none _) | (with_reducible apply keepsOP_some) | (with_reducible rfl) | (with_reducible refine keeps_foldl _ (fun _ _ _ => ?_) _ ?_) | (with_reducible apply keepsO_some) | (with_reducible apply keepsR_next) | (with_reducible apply keeps_tryUp) | (with_reducible apply keeps_State_updGroup) | (fail_if_no_progress extract_lets) | split)

theorem keeps_addWritten (tag : ℕ) (seq : ℕ) (n : ℕ) {r s : State} (h : Keeps r s) :
    Keeps r (addWritten tag seq n s) := by
  unfold addWritten
  repeat' (first | with_reducible assumption | (with_reducible exact id) | (with_reducible exact Nat.le_refl _) | (with_reducible exact keepsO_none _) | (with_reducible exact keepsOP_none _) | (with_reducible apply keepsOP_some) | (with_reducible rfl) | (with_reducible refine keeps_foldl _ (fun _ _ _ => ?_) _ ?_) | (with_reducible apply keepsO_some) | (with_reducible apply keepsR_next) | (with_reducible apply keeps_State_updGroup))

theorem keeps_takeChunk (g : Group) (c : Collective) (q : ℕ) (bs : List Byte) {r s : State} (h : Keeps r s) :
    Keeps r (takeChunk g c q bs s) := by
  unfold takeChunk
  repeat' (first | with_reducible assumption | (with_reducible exact id) | (with_reducible exact Nat.le_refl _) | (with_reducible exact keepsO_none _) | (with_reducible exact keepsOP_none _) | (with_reducible apply keepsOP_some) | (with_reducible rfl) | (with_reducible refine keeps_foldl _ (fun _ _ _ => ?_) _ ?_) | (with_reducible apply keepsO_some) | (with_reducible apply keepsR_next) | (with_reducible apply keeps_State_updGroup) | (with_reducible apply keeps_addWritten) | (with_reducible apply keeps_writeFinal) | (with_reducible apply keeps_sendCollFlit) | (with_reducible apply keeps_joinWave) | (with_reducible apply keeps_unitWrite) | (fail_if_no_progress extract_lets) | split | (with_reducible apply Keeps.upd))

theorem keeps_spill (g : Group) (seq8 : ℕ) (q : ℕ) (bs : List Byte) {r s : State} (h : Keeps r s) :
    Keeps r (spill g seq8 q bs s) := by
  unfold spill
  repeat' (first | with_reducible assumption | (with_reducible exact id) | (with_reducible exact Nat.le_refl _) | (with_reducible exact keepsO_none _) | (with_reducible exact keepsOP_none _) | (with_reducible apply keepsOP_some) | (with_reducible rfl) | (with_reducible refine keeps_foldl _ (fun _ _ _ => ?_) _ ?_) | (with_reducible apply keepsO_some) | (with_reducible apply keepsR_next) | (with_reducible apply keeps_State_updGroup) | (with_reducible apply keeps_guardedForget))

theorem keeps_deliverColl (f : Flit) {r s : State} (h : Keeps r s) :
    Keeps r (deliverColl f s).1 := by
  unfold deliverColl
  repeat' (first | with_reducible assumption | (with_reducible exact id) | (with_reducible exact Nat.le_refl _) | (with_reducible exact keepsO_none _) | (with_reducible exact keepsOP_none _) | (with_reducible apply keepsOP_some) | (with_reducible rfl) | (with_reducible refine keeps_foldl _ (fun _ _ _ => ?_) _ ?_) | (with_reducible apply keepsO_some) | (with_reducible apply keepsR_next) | (with_reducible apply keeps_takeChunk) | (with_reducible apply keeps_spill) | (fail_if_no_progress extract_lets) | split)

theorem keeps_deliverSend (src : BitVec 14) (f : Flit) {r s : State} (h : Keeps r s) :
    Keeps r (deliverSend src f s).1 := by
  unfold deliverSend
  repeat' (first | with_reducible assumption | (with_reducible exact id) | (with_reducible exact Nat.le_refl _) | (with_reducible exact keepsO_none _) | (with_reducible exact keepsOP_none _) | (with_reducible apply keepsOP_some) | (with_reducible rfl) | (with_reducible refine keeps_foldl _ (fun _ _ _ => ?_) _ ?_) | (with_reducible apply keepsO_some) | (with_reducible apply keepsR_next) | (with_reducible apply keeps_strikeRunning) | (with_reducible apply keeps_logError) | (with_reducible apply keeps_landBytes) | (with_reducible apply keeps_closeOpening) | (with_reducible apply keeps_returnAck) | (fail_if_no_progress extract_lets) | split | (with_reducible apply Keeps.upd) | (with_reducible refine keepsO_get (by assumption) ?_) | (with_reducible refine keepsP_get (by assumption) ?_) | (with_reducible refine keepsQ_get (by assumption) ?_) | (with_reducible refine keepsOP_get (by assumption) ?_) | (intro hz; simp [hz]; done))

theorem keeps_takeFlit (p : Nat) (src : BitVec 14) (f : Flit) {r s : State} (h : Keeps r s) : Keeps r (takeFlit p src f s).1 := by
  unfold takeFlit
  extract_lets x
  have hx : Keeps r x.1 := by
    simp only [x]
    split
    · exact keeps_deliverSend _ _ h
    · exact keeps_deliverColl _ h
    · exact h
  split
  · dsimp only
    split
    · exact keeps_oweCredit _ _ hx
    · exact hx
  · exact keeps_routeFlit _ _ _ h

theorem keeps_holdFlit (p : ℕ) (src : BitVec 14) (f : Flit) {r s : State} (h : Keeps r s) :
    Keeps r (holdFlit p src f s) := by
  unfold holdFlit
  repeat' (first | with_reducible assumption | (with_reducible exact id) | (with_reducible exact Nat.le_refl _) | (with_reducible exact keepsO_none _) | (with_reducible exact keepsOP_none _) | (with_reducible apply keepsOP_some) | (with_reducible rfl) | (with_reducible refine keeps_foldl _ (fun _ _ _ => ?_) _ ?_) | (with_reducible apply keepsO_some) | (with_reducible apply keepsR_next) | (fail_if_no_progress extract_lets) | split | (with_reducible apply Keeps.upd))

theorem keeps_offerFlit (p : Nat) (src : BitVec 14) (f : Flit) {r s : State} (h : Keeps r s) : Keeps r (offerFlit p src f s) := by
  unfold offerFlit
  have ht := keeps_takeFlit p src f h
  split
  · exact keeps_holdFlit _ _ _ h
  · split
    · rename_i e
      exact keepsP_get e ht
    · exact keeps_holdFlit _ _ _ h

theorem keeps_takeNext (l : List Nat) {r s : State} (h : Keeps r s) : KeepsO r (takeNext s l) := by
  induction l with
  | nil => trivial
  | cons i l ih =>
    unfold takeNext
    split
    · trivial
    · split
      · exact ih
      · split
        · rename_i e
          exact keepsO_some (keepsP_get e (keeps_takeFlit _ _ _
            (Keeps.upd h id id id id id id id id id id id id id id id id id rfl rfl rfl rfl (le_refl _))))
        · exact ih

theorem keeps_offerMany (n : Nat) {r s : State} (h : Keeps r s) : Keeps r (offerMany n s) := by
  induction n generalizing s with
  | zero => exact h
  | succ n ih =>
    unfold offerMany
    split
    · rename_i e
      exact ih (keepsO_get e (keeps_takeNext _ h))
    · exact h

theorem keeps_offerWaiting {r s : State} (h : Keeps r s) : Keeps r (offerWaiting s) := by
  exact keeps_offerMany _ h

theorem keeps_sendBytes (peer wi : Nat) (xtag : BitVec 7) (svc pairs i : Nat) (l : List (Nat × List Byte)) {r s : State} (h : Keeps r s) :
    Keeps r (sendBytes peer wi xtag svc pairs i l s) := by
  induction l generalizing s i with
  | nil => exact h
  | cons a rest ih =>
    obtain ⟨ofs, bs⟩ := a
    unfold sendBytes
    dsimp only
    split
    · exact ih _ (keeps_offerFlit _ _ _ h)
    · exact ih _ (keeps_routeFlit _ _ _ h)

theorem keeps_takeSpilled (tag seq : Nat) (l : List (Nat × Nat × List Byte)) {r s : State} (h : Keeps r s) : Keeps r (takeSpilled tag seq l s) := by
  induction l generalizing s with
  | nil => exact h
  | cons a rest ih =>
    obtain ⟨k, q, bs⟩ := a
    unfold takeSpilled
    split
    · exact ih (keeps_takeChunk _ _ _ _ h)
    · exact ih h

theorem keeps_startColl (tag : ℕ) (seq : ℕ) {r s : State} (h : Keeps r s) :
    Keeps r (startColl tag seq s) := by
  unfold startColl
  repeat' (first | with_reducible assumption | (with_reducible exact id) | (with_reducible exact Nat.le_refl _) | (with_reducible exact keepsO_none _) | (with_reducible exact keepsOP_none _) | (with_reducible apply keepsOP_some) | (with_reducible rfl) | (with_reducible refine keeps_foldl _ (fun _ _ _ => ?_) _ ?_) | (with_reducible apply keepsO_some) | (with_reducible apply keepsR_next) | (with_reducible apply keeps_State_updGroup) | (with_reducible apply keeps_addWritten) | (with_reducible apply keeps_writeFinal) | (with_reducible apply keeps_sendChunk) | (with_reducible apply keeps_unitWrite) | (with_reducible apply keeps_takeSpilled) | (with_reducible apply keeps_offerWaiting) | (with_reducible apply keeps_tryUp) | (with_reducible apply keeps_joinWave) | (fail_if_no_progress extract_lets) | split | (with_reducible apply Keeps.upd))

theorem keeps_takeEarly (tag : ℕ) (seq : ℕ) {r s : State} (h : Keeps r s) :
    Keeps r (takeEarly tag seq s) := by
  unfold takeEarly
  repeat' (first | with_reducible assumption | (with_reducible exact id) | (with_reducible exact Nat.le_refl _) | (with_reducible exact keepsO_none _) | (with_reducible exact keepsOP_none _) | (with_reducible apply keepsOP_some) | (with_reducible rfl) | (with_reducible refine keeps_foldl _ (fun _ _ _ => ?_) _ ?_) | (with_reducible apply keepsO_some) | (with_reducible apply keepsR_next) | (with_reducible apply keeps_State_updGroup) | (fail_if_no_progress extract_lets) | split)

theorem keeps_startChecked (tag : ℕ) {r s : State} (h : Keeps r s) :
    Keeps r (startChecked tag s) := by
  unfold startChecked
  repeat' (first | with_reducible assumption | (with_reducible exact id) | (with_reducible exact Nat.le_refl _) | (with_reducible exact keepsO_none _) | (with_reducible exact keepsOP_none _) | (with_reducible apply keepsOP_some) | (with_reducible rfl) | (with_reducible refine keeps_foldl _ (fun _ _ _ => ?_) _ ?_) | (with_reducible apply keepsO_some) | (with_reducible apply keepsR_next) | (with_reducible apply keeps_startColl) | (fail_if_no_progress extract_lets) | split)

theorem keeps_afterCheck (tag : ℕ) (seq : ℕ) {r s : State} (h : Keeps r s) :
    Keeps r (afterCheck tag seq s) := by
  unfold afterCheck
  repeat' (first | with_reducible assumption | (with_reducible exact id) | (with_reducible exact Nat.le_refl _) | (with_reducible exact keepsO_none _) | (with_reducible exact keepsOP_none _) | (with_reducible apply keepsOP_some) | (with_reducible rfl) | (with_reducible refine keeps_foldl _ (fun _ _ _ => ?_) _ ?_) | (with_reducible apply keepsO_some) | (with_reducible apply keepsR_next) | (with_reducible apply keeps_startChecked) | (fail_if_no_progress extract_lets) | split)

end Sys2Proof.Machine
end

