-- ==== Sys2Proof/Laws/KeepsBeats.lean ====
section
/-! SUPPORT. What the operations of Beats keep. -/
set_option linter.all false
namespace Sys2Proof.Machine

theorem keeps_fetchOnce (j : Job) (u : UnitId) {r s : State} (h : Keeps r s) :
    Keeps r (fetchOnce j u s) := by
  unfold fetchOnce
  repeat' (first | with_reducible assumption | (with_reducible exact id) | (with_reducible exact Nat.le_refl _) | (with_reducible exact keepsO_none _) | (with_reducible exact keepsOP_none _) | (with_reducible apply keepsOP_some) | (with_reducible rfl) | (with_reducible refine keeps_foldl _ (fun _ _ _ => ?_) _ ?_) | (with_reducible apply keepsO_some) | (with_reducible apply keepsR_next) | (with_reducible apply keeps_State_updFetcher) | (fail_if_no_progress extract_lets) | split)

theorem keeps_fired (u : UnitId) (b : BeatCtx) {r s : State} (h : Keeps r s) :
    Keeps r (fired u b s) := by
  unfold fired
  repeat' (first | with_reducible assumption | (with_reducible exact id) | (with_reducible exact Nat.le_refl _) | (with_reducible exact keepsO_none _) | (with_reducible exact keepsOP_none _) | (with_reducible apply keepsOP_some) | (with_reducible rfl) | (with_reducible refine keeps_foldl _ (fun _ _ _ => ?_) _ ?_) | (with_reducible apply keepsO_some) | (with_reducible apply keepsR_next) | (with_reducible apply keeps_State_updUnit) | (fail_if_no_progress extract_lets) | split | (with_reducible apply Keeps.upd))

theorem keeps_runStroke (u : UnitId) (op : Nat) (credit : BeatCtx → State → Bool) (body : BeatCtx → Nat → State → State) {r s : State}
    (hb : ∀ b k t, Keeps r t → Keeps r (body b k t)) (h : Keeps r s) : Keeps r (runStroke u op credit body s) := by
  unfold runStroke
  split
  · exact h
  · split
    · exact hb _ _ _ (keeps_fired _ _ h)
    · exact h

theorem keeps_updFlight (u : UnitId) (key : ℕ) (g : Inflight → Inflight) {r s : State} (h : Keeps r s) :
    Keeps r (updFlight u key g s) := by
  unfold updFlight
  repeat' (first | with_reducible assumption | (with_reducible exact id) | (with_reducible exact Nat.le_refl _) | (with_reducible exact keepsO_none _) | (with_reducible exact keepsOP_none _) | (with_reducible apply keepsOP_some) | (with_reducible rfl) | (with_reducible refine keeps_foldl _ (fun _ _ _ => ?_) _ ?_) | (with_reducible apply keepsO_some) | (with_reducible apply keepsR_next) | (with_reducible apply keeps_State_updUnit))

theorem keeps_doneStroke (u : UnitId) (key : ℕ) {r s : State} (h : Keeps r s) :
    Keeps r (doneStroke u key s) := by
  unfold doneStroke
  repeat' (first | with_reducible assumption | (with_reducible exact id) | (with_reducible exact Nat.le_refl _) | (with_reducible exact keepsO_none _) | (with_reducible exact keepsOP_none _) | (with_reducible apply keepsOP_some) | (with_reducible rfl) | (with_reducible refine keeps_foldl _ (fun _ _ _ => ?_) _ ?_) | (with_reducible apply keepsO_some) | (with_reducible apply keepsR_next) | (with_reducible apply keeps_setPhase))

theorem keeps_strikeOverflow (stave : ℕ) (core : ℕ) (bar : ℕ) {r s : State} (h : Keeps r s) :
    Keeps r (strikeOverflow stave core bar s) := by
  unfold strikeOverflow
  repeat' (first | with_reducible assumption | (with_reducible exact id) | (with_reducible exact Nat.le_refl _) | (with_reducible exact keepsO_none _) | (with_reducible exact keepsOP_none _) | (with_reducible apply keepsOP_some) | (with_reducible rfl) | (with_reducible refine keeps_foldl _ (fun _ _ _ => ?_) _ ?_) | (with_reducible apply keepsO_some) | (with_reducible apply keepsR_next) | (with_reducible apply keeps_logError) | (with_reducible apply keeps_strikeRunning))

theorem keeps_bumpCue (u : UnitId) (cue : ℕ) {r s : State} (h : Keeps r s) :
    Keeps r (bumpCue u cue s) := by
  unfold bumpCue
  repeat' (first | with_reducible assumption | (with_reducible exact id) | (with_reducible exact Nat.le_refl _) | (with_reducible exact keepsO_none _) | (with_reducible exact keepsOP_none _) | (with_reducible apply keepsOP_some) | (with_reducible rfl) | (with_reducible refine keeps_foldl _ (fun _ _ _ => ?_) _ ?_) | (with_reducible apply keepsO_some) | (with_reducible apply keepsR_next) | (with_reducible apply keeps_strikeOverflow) | (with_reducible apply keeps_State_updUnit) | (fail_if_no_progress extract_lets) | split)

theorem keeps_setLead (entry : ℕ) (core : ℕ) (n : ℕ) {r s : State} (h : Keeps r s) :
    Keeps r (setLead entry core n s) := by
  unfold setLead
  repeat' (first | with_reducible assumption | (with_reducible exact id) | (with_reducible exact Nat.le_refl _) | (with_reducible exact keepsO_none _) | (with_reducible exact keepsOP_none _) | (with_reducible apply keepsOP_some) | (with_reducible rfl) | (with_reducible refine keeps_foldl _ (fun _ _ _ => ?_) _ ?_) | (with_reducible apply keepsO_some) | (with_reducible apply keepsR_next) | (fail_if_no_progress extract_lets) | split | (with_reducible apply Keeps.upd))

theorem keeps_gatherSignal (entry : ℕ) (core : ℕ) (cores : List ℕ) (dests : List (ℕ × ℕ)) (bar : ℕ) {r s : State} (h : Keeps r s) :
    Keeps r (gatherSignal entry core cores dests bar s) := by
  unfold gatherSignal
  repeat' (first | with_reducible assumption | (with_reducible exact id) | (with_reducible exact Nat.le_refl _) | (with_reducible exact keepsO_none _) | (with_reducible exact keepsOP_none _) | (with_reducible apply keepsOP_some) | (with_reducible rfl) | (with_reducible refine keeps_foldl _ (fun _ _ _ => ?_) _ ?_) | (with_reducible apply keepsO_some) | (with_reducible apply keepsR_next) | (with_reducible apply keeps_strikeOverflow) | (with_reducible apply keeps_setLead) | (with_reducible apply keeps_bumpCue) | (fail_if_no_progress extract_lets) | split)

theorem keeps_sendSignal (a : ℕ) (u : UnitId) (bar : ℕ) (bit : ℕ) {r s : State} (h : Keeps r s) :
    Keeps r (sendSignal a u bar bit s) := by
  unfold sendSignal
  repeat' (first | with_reducible assumption | (with_reducible exact id) | (with_reducible exact Nat.le_refl _) | (with_reducible exact keepsO_none _) | (with_reducible exact keepsOP_none _) | (with_reducible apply keepsOP_some) | (with_reducible rfl) | (with_reducible refine keeps_foldl _ (fun _ _ _ => ?_) _ ?_) | (with_reducible apply keepsO_some) | (with_reducible apply keepsR_next) | (with_reducible apply keeps_bumpCue) | (with_reducible apply keeps_gatherSignal) | (fail_if_no_progress extract_lets) | split)

theorem keeps_sendSignals (a : ℕ) (u : UnitId) (bar : ℕ) (signal : ℕ) {r s : State} (h : Keeps r s) :
    Keeps r (sendSignals a u bar signal s) := by
  unfold sendSignals
  repeat' (first | with_reducible assumption | (with_reducible exact id) | (with_reducible exact Nat.le_refl _) | (with_reducible exact keepsO_none _) | (with_reducible exact keepsOP_none _) | (with_reducible apply keepsOP_some) | (with_reducible rfl) | (with_reducible refine keeps_foldl _ (fun _ _ _ => ?_) _ ?_) | (with_reducible apply keepsO_some) | (with_reducible apply keepsR_next) | (with_reducible apply keeps_sendSignal) | (fail_if_no_progress extract_lets) | split)

theorem keeps_strikeGang (j : Job) (u : UnitId) (i : Inflight) {r s : State} (h : Keeps r s) :
    Keeps r (strikeGang j u i s) := by
  unfold strikeGang
  repeat' (first | with_reducible assumption | (with_reducible exact id) | (with_reducible exact Nat.le_refl _) | (with_reducible exact keepsO_none _) | (with_reducible exact keepsOP_none _) | (with_reducible apply keepsOP_some) | (with_reducible rfl) | (with_reducible refine keeps_foldl _ (fun _ _ _ => ?_) _ ?_) | (with_reducible apply keepsO_some) | (with_reducible apply keepsR_next) | (with_reducible apply keeps_strikeRunning) | (fail_if_no_progress extract_lets) | split)

theorem keeps_completeStroke (u : UnitId) (slot : ℕ) {r s : State} (h : Keeps r s) :
    Keeps r (completeStroke u slot s) := by
  unfold completeStroke
  repeat' (first | with_reducible assumption | (with_reducible exact id) | (with_reducible exact Nat.le_refl _) | (with_reducible exact keepsO_none _) | (with_reducible exact keepsOP_none _) | (with_reducible apply keepsOP_some) | (with_reducible rfl) | (with_reducible refine keeps_foldl _ (fun _ _ _ => ?_) _ ?_) | (with_reducible apply keepsO_some) | (with_reducible apply keepsR_next) | (with_reducible apply keeps_sendSignals) | (with_reducible apply keeps_State_updUnit) | (with_reducible apply keeps_strikeGang) | (fail_if_no_progress extract_lets) | split)

end Sys2Proof.Machine
end

