-- ==== Sys2Proof/Laws/KeepsControl.lean ====
section
/-! SUPPORT. What the operations of Control keep. -/
set_option linter.all false
namespace Sys2Proof.Machine

theorem keeps_moveUnit (u : UnitId) (due : BeatCtx → UnitState → Bool) (move : BeatCtx → State → UnitState → UnitState) {r s : State} (h : Keeps r s) :
    Keeps r (moveUnit u due move s) := by
  unfold moveUnit
  repeat' (first | with_reducible assumption | (with_reducible exact id) | (with_reducible exact Nat.le_refl _) | (with_reducible exact keepsO_none _) | (with_reducible exact keepsOP_none _) | (with_reducible apply keepsOP_some) | (with_reducible rfl) | (with_reducible refine keeps_foldl _ (fun _ _ _ => ?_) _ ?_) | (with_reducible apply keepsO_some) | (with_reducible apply keepsR_next) | (with_reducible apply keeps_State_updUnit) | (fail_if_no_progress extract_lets) | split)

theorem keeps_execRest (u : UnitId) {r s : State} (h : Keeps r s) :
    KeepsR r (execRest u s) := by
  unfold execRest
  repeat' (first | with_reducible assumption | (with_reducible exact id) | (with_reducible exact Nat.le_refl _) | (with_reducible exact keepsO_none _) | (with_reducible exact keepsOP_none _) | (with_reducible apply keepsOP_some) | (with_reducible rfl) | (with_reducible refine keeps_foldl _ (fun _ _ _ => ?_) _ ?_) | (with_reducible apply keepsO_some) | (with_reducible apply keepsR_next) | (with_reducible apply keeps_moveUnit))

theorem keeps_execCue (u : UnitId) {r s : State} (h : Keeps r s) :
    KeepsR r (execCue u s) := by
  unfold execCue
  repeat' (first | with_reducible assumption | (with_reducible exact id) | (with_reducible exact Nat.le_refl _) | (with_reducible exact keepsO_none _) | (with_reducible exact keepsOP_none _) | (with_reducible apply keepsOP_some) | (with_reducible rfl) | (with_reducible refine keeps_foldl _ (fun _ _ _ => ?_) _ ?_) | (with_reducible apply keepsO_some) | (with_reducible apply keepsR_next) | (with_reducible refine keeps_runStroke _ _ _ _ (fun _ _ _ _ => ?_) ?_) | (with_reducible apply keeps_doneStroke) | (with_reducible apply keeps_completeStroke) | (fail_if_no_progress extract_lets) | split)

theorem keeps_execBar (u : UnitId) {r s : State} (h : Keeps r s) :
    KeepsR r (execBar u s) := by
  unfold execBar
  repeat' (first | with_reducible assumption | (with_reducible exact id) | (with_reducible exact Nat.le_refl _) | (with_reducible exact keepsO_none _) | (with_reducible exact keepsOP_none _) | (with_reducible apply keepsOP_some) | (with_reducible rfl) | (with_reducible refine keeps_foldl _ (fun _ _ _ => ?_) _ ?_) | (with_reducible apply keepsO_some) | (with_reducible apply keepsR_next) | (with_reducible apply keeps_moveUnit))

theorem keeps_execLoopBegin (u : UnitId) {r s : State} (h : Keeps r s) :
    KeepsR r (execLoopBegin u s) := by
  unfold execLoopBegin
  repeat' (first | with_reducible assumption | (with_reducible exact id) | (with_reducible exact Nat.le_refl _) | (with_reducible exact keepsO_none _) | (with_reducible exact keepsOP_none _) | (with_reducible apply keepsOP_some) | (with_reducible rfl) | (with_reducible refine keeps_foldl _ (fun _ _ _ => ?_) _ ?_) | (with_reducible apply keepsO_some) | (with_reducible apply keepsR_next) | (with_reducible apply keeps_moveUnit))

theorem keeps_execLoopEnd (u : UnitId) {r s : State} (h : Keeps r s) :
    KeepsR r (execLoopEnd u s) := by
  unfold execLoopEnd
  repeat' (first | with_reducible assumption | (with_reducible exact id) | (with_reducible exact Nat.le_refl _) | (with_reducible exact keepsO_none _) | (with_reducible exact keepsOP_none _) | (with_reducible apply keepsOP_some) | (with_reducible rfl) | (with_reducible refine keeps_foldl _ (fun _ _ _ => ?_) _ ?_) | (with_reducible apply keepsO_some) | (with_reducible apply keepsR_next) | (with_reducible apply keeps_moveUnit))

theorem keeps_execBrk (u : UnitId) {r s : State} (h : Keeps r s) :
    KeepsR r (execBrk u s) := by
  unfold execBrk
  repeat' (first | with_reducible assumption | (with_reducible exact id) | (with_reducible exact Nat.le_refl _) | (with_reducible exact keepsO_none _) | (with_reducible exact keepsOP_none _) | (with_reducible apply keepsOP_some) | (with_reducible rfl) | (with_reducible refine keeps_foldl _ (fun _ _ _ => ?_) _ ?_) | (with_reducible apply keepsO_some) | (with_reducible apply keepsR_next) | (with_reducible apply keeps_moveUnit))

theorem keeps_execSectionCtl (u : UnitId) {r s : State} (h : Keeps r s) :
    KeepsR r (execSectionCtl u s) := by
  unfold execSectionCtl
  repeat' (first | with_reducible assumption | (with_reducible exact id) | (with_reducible exact Nat.le_refl _) | (with_reducible exact keepsO_none _) | (with_reducible exact keepsOP_none _) | (with_reducible apply keepsOP_some) | (with_reducible rfl) | (with_reducible refine keeps_foldl _ (fun _ _ _ => ?_) _ ?_) | (with_reducible apply keepsO_some) | (with_reducible apply keepsR_next) | (with_reducible apply keeps_State_updUnit) | (with_reducible apply keeps_restClocks) | (fail_if_no_progress extract_lets) | split | (with_reducible apply Keeps.upd))

theorem keeps_execHalt (u : UnitId) {r s : State} (h : Keeps r s) :
    KeepsR r (execHalt u s) := by
  unfold execHalt
  repeat' (first | with_reducible assumption | (with_reducible exact id) | (with_reducible exact Nat.le_refl _) | (with_reducible exact keepsO_none _) | (with_reducible exact keepsOP_none _) | (with_reducible apply keepsOP_some) | (with_reducible rfl) | (with_reducible refine keeps_foldl _ (fun _ _ _ => ?_) _ ?_) | (with_reducible apply keepsO_some) | (with_reducible apply keepsR_next) | (with_reducible apply keeps_moveUnit))

end Sys2Proof.Machine
end

