-- ==== Sys2Proof/Laws/KeepsDma.lean ====
section
/-! SUPPORT. What the operations of Dma keep. -/
set_option linter.all false
namespace Sys2Proof.Machine

theorem keeps_dmaWrite (stave : ℕ) (a : ℕ) (rows : List (ℕ × List Byte)) {r s : State} (h : Keeps r s) :
    Keeps r (dmaWrite stave a rows s) := by
  unfold dmaWrite
  repeat' (first | with_reducible assumption | (with_reducible exact id) | (with_reducible exact Nat.le_refl _) | (with_reducible exact keepsO_none _) | (with_reducible exact keepsOP_none _) | (with_reducible apply keepsOP_some) | (with_reducible rfl) | (with_reducible refine keeps_foldl _ (fun _ _ _ => ?_) _ ?_) | (with_reducible apply keepsO_some) | (with_reducible apply keepsR_next) | (with_reducible apply keeps_unitWrite))

theorem keeps_dmaMove (u : UnitId) (copy : Bool) (b : BeatCtx) (key : ℕ) {r s : State} (h : Keeps r s) :
    Keeps r (dmaMove u copy b key s) := by
  unfold dmaMove
  repeat' (first | with_reducible assumption | (with_reducible exact id) | (with_reducible exact Nat.le_refl _) | (with_reducible exact keepsO_none _) | (with_reducible exact keepsOP_none _) | (with_reducible apply keepsOP_some) | (with_reducible rfl) | (with_reducible refine keeps_foldl _ (fun _ _ _ => ?_) _ ?_) | (with_reducible apply keepsO_some) | (with_reducible apply keepsR_next) | (with_reducible apply keeps_dmaWrite) | (with_reducible apply keeps_doneStroke))

theorem keeps_execCoreDmaCopy (c : Fin 256) {r s : State} (h : Keeps r s) :
    KeepsR r (execCoreDmaCopy c s) := by
  unfold execCoreDmaCopy
  repeat' (first | with_reducible assumption | (with_reducible exact id) | (with_reducible exact Nat.le_refl _) | (with_reducible exact keepsO_none _) | (with_reducible exact keepsOP_none _) | (with_reducible apply keepsOP_some) | (with_reducible rfl) | (with_reducible refine keeps_foldl _ (fun _ _ _ => ?_) _ ?_) | (with_reducible apply keepsO_some) | (with_reducible apply keepsR_next) | (with_reducible refine keeps_runStroke _ _ _ _ (fun _ _ _ _ => ?_) ?_) | (with_reducible apply keeps_dmaMove))

theorem keeps_execCoreDmaFill (c : Fin 256) {r s : State} (h : Keeps r s) :
    KeepsR r (execCoreDmaFill c s) := by
  unfold execCoreDmaFill
  repeat' (first | with_reducible assumption | (with_reducible exact id) | (with_reducible exact Nat.le_refl _) | (with_reducible exact keepsO_none _) | (with_reducible exact keepsOP_none _) | (with_reducible apply keepsOP_some) | (with_reducible rfl) | (with_reducible refine keeps_foldl _ (fun _ _ _ => ?_) _ ?_) | (with_reducible apply keepsO_some) | (with_reducible apply keepsR_next) | (with_reducible refine keeps_runStroke _ _ _ _ (fun _ _ _ _ => ?_) ?_) | (with_reducible apply keeps_dmaMove))

theorem keeps_execChipDmaCopy  {r s : State} (h : Keeps r s) :
    KeepsR r (execChipDmaCopy s) := by
  unfold execChipDmaCopy
  repeat' (first | with_reducible assumption | (with_reducible exact id) | (with_reducible exact Nat.le_refl _) | (with_reducible exact keepsO_none _) | (with_reducible exact keepsOP_none _) | (with_reducible apply keepsOP_some) | (with_reducible rfl) | (with_reducible refine keeps_foldl _ (fun _ _ _ => ?_) _ ?_) | (with_reducible apply keepsO_some) | (with_reducible apply keepsR_next) | (with_reducible refine keeps_runStroke _ _ _ _ (fun _ _ _ _ => ?_) ?_) | (with_reducible apply keeps_dmaMove))

theorem keeps_execChipDmaFill  {r s : State} (h : Keeps r s) :
    KeepsR r (execChipDmaFill s) := by
  unfold execChipDmaFill
  repeat' (first | with_reducible assumption | (with_reducible exact id) | (with_reducible exact Nat.le_refl _) | (with_reducible exact keepsO_none _) | (with_reducible exact keepsOP_none _) | (with_reducible apply keepsOP_some) | (with_reducible rfl) | (with_reducible refine keeps_foldl _ (fun _ _ _ => ?_) _ ?_) | (with_reducible apply keepsO_some) | (with_reducible apply keepsR_next) | (with_reducible refine keeps_runStroke _ _ _ _ (fun _ _ _ _ => ?_) ?_) | (with_reducible apply keeps_dmaMove))

end Sys2Proof.Machine
end

