-- ==== Sys2Proof/Laws/KeepsDescs.lean ====
section
/-! SUPPORT. What the operations of Descs keep. -/
set_option linter.all false
namespace Sys2Proof.Machine

theorem keeps_countCore (c : ℕ) (f : CoreCounters → CoreCounters) {r s : State} (h : Keeps r s) :
    Keeps r (countCore c f s) := by
  unfold countCore
  repeat' (first | with_reducible assumption | (with_reducible exact id) | (with_reducible exact Nat.le_refl _) | (with_reducible exact keepsO_none _) | (with_reducible exact keepsOP_none _) | (with_reducible apply keepsOP_some) | (with_reducible rfl) | (with_reducible refine keeps_foldl _ (fun _ _ _ => ?_) _ ?_) | (with_reducible apply keepsO_some) | (with_reducible apply keepsR_next) | (with_reducible apply keeps_State_updCore))

theorem keeps_countReserved (c : ℕ) (n : ℕ) {r s : State} (h : Keeps r s) :
    Keeps r (countReserved c n s) := by
  unfold countReserved
  repeat' (first | with_reducible assumption | (with_reducible exact id) | (with_reducible exact Nat.le_refl _) | (with_reducible exact keepsO_none _) | (with_reducible exact keepsOP_none _) | (with_reducible apply keepsOP_some) | (with_reducible rfl) | (with_reducible refine keeps_foldl _ (fun _ _ _ => ?_) _ ?_) | (with_reducible apply keepsO_some) | (with_reducible apply keepsR_next) | (with_reducible apply keeps_countCore))

theorem keeps_countNan (c : ℕ) (n : ℕ) {r s : State} (h : Keeps r s) :
    Keeps r (countNan c n s) := by
  unfold countNan
  repeat' (first | with_reducible assumption | (with_reducible exact id) | (with_reducible exact Nat.le_refl _) | (with_reducible exact keepsO_none _) | (with_reducible exact keepsOP_none _) | (with_reducible apply keepsOP_some) | (with_reducible rfl) | (with_reducible refine keeps_foldl _ (fun _ _ _ => ?_) _ ?_) | (with_reducible apply keepsO_some) | (with_reducible apply keepsR_next) | (with_reducible apply keeps_countCore))

end Sys2Proof.Machine
end

