-- ==== Sys2Proof/Laws/KeepsMatrix.lean ====
section
/-! SUPPORT. What the operations of Matrix keep. -/
set_option linter.all false
namespace Sys2Proof.Machine

theorem keeps_decideBlock (c : ℕ) (f : Fire) (d : MatDesc) (desc : ℕ) (bar : ℕ) (b : ℕ) (x : DamperDesc) {r s : State} (h : Keeps r s) :
    Keeps r (decideBlock c f d desc bar b x s) := by
  unfold decideBlock
  repeat' (first | with_reducible assumption | (with_reducible exact id) | (with_reducible exact Nat.le_refl _) | (with_reducible exact keepsO_none _) | (with_reducible exact keepsOP_none _) | (with_reducible apply keepsOP_some) | (with_reducible rfl) | (with_reducible refine keeps_foldl _ (fun _ _ _ => ?_) _ ?_) | (with_reducible apply keepsO_some) | (with_reducible apply keepsR_next) | (with_reducible apply keeps_unitWrite) | (with_reducible apply keeps_State_updJob) | (with_reducible apply keeps_State_updCore) | (fail_if_no_progress extract_lets) | split)

theorem keeps_enterMode (c : ℕ) (mu : ℕ) (gang : Bool) {r s : State} (h : Keeps r s) :
    Keeps r (enterMode c mu gang s) := by
  unfold enterMode
  repeat' (first | with_reducible assumption | (with_reducible exact id) | (with_reducible exact Nat.le_refl _) | (with_reducible exact keepsO_none _) | (with_reducible exact keepsOP_none _) | (with_reducible apply keepsOP_some) | (with_reducible rfl) | (with_reducible refine keeps_foldl _ (fun _ _ _ => ?_) _ ?_) | (with_reducible apply keepsO_some) | (with_reducible apply keepsR_next) | (with_reducible apply keeps_State_updCore) | (fail_if_no_progress extract_lets) | split)

theorem keeps_setTiles (c : ℕ) (mu : ℕ) (ts : List HeldTile) {r s : State} (h : Keeps r s) :
    Keeps r (setTiles c mu ts s) := by
  unfold setTiles
  repeat' (first | with_reducible assumption | (with_reducible exact id) | (with_reducible exact Nat.le_refl _) | (with_reducible exact keepsO_none _) | (with_reducible exact keepsOP_none _) | (with_reducible apply keepsOP_some) | (with_reducible rfl) | (with_reducible refine keeps_foldl _ (fun _ _ _ => ?_) _ ?_) | (with_reducible apply keepsO_some) | (with_reducible apply keepsR_next) | (with_reducible apply keeps_State_updCore))

end Sys2Proof.Machine
end

