-- ==== Sys2Proof/Laws/KeepsAttention.lean ====
section
/-! SUPPORT. What the operations of Attention keep. -/
set_option linter.all false
namespace Sys2Proof.Machine

theorem keeps_scatterRow (c : ℕ) (f : Fire) (x : ScatterDesc) (src : Memory) (r' : ℕ) {r s : State} (h : Keeps r s) :
    Keeps r (scatterRow c f x src s r') := by
  unfold scatterRow
  repeat' (first | with_reducible assumption | (with_reducible exact id) | (with_reducible exact Nat.le_refl _) | (with_reducible exact keepsO_none _) | (with_reducible exact keepsOP_none _) | (with_reducible apply keepsOP_some) | (with_reducible rfl) | (with_reducible refine keeps_foldl _ (fun _ _ _ => ?_) _ ?_) | (with_reducible apply keepsO_some) | (with_reducible apply keepsR_next) | (with_reducible apply keeps_countCore) | (with_reducible apply keeps_countNan) | (with_reducible apply keeps_unitWrite) | (fail_if_no_progress extract_lets) | split | (with_reducible apply Keeps.upd) | (with_reducible refine keepsO_get (by assumption) ?_) | (with_reducible refine keepsP_get (by assumption) ?_) | (with_reducible refine keepsQ_get (by assumption) ?_) | (with_reducible refine keepsOP_get (by assumption) ?_) | (intro hz; simp +zetaDelta [hz]; done) | (with_reducible apply imp_writeBytes) | (with_reducible apply imp_writeElem) | (with_reducible apply imp_writeElems) | (with_reducible apply imp_writeRow) | (with_reducible apply imp_write) | (with_reducible apply imp_forget) | (with_reducible apply imp_zeroRange) | (with_reducible refine imp_foldl (fun _ _ => ?_) ?_))

theorem keeps_scatterBody (c : ℕ) (b : BeatCtx) (key : ℕ) {r s : State} (h : Keeps r s) :
    Keeps r (scatterBody c b key s) := by
  unfold scatterBody
  repeat' (first | with_reducible assumption | (with_reducible exact id) | (with_reducible exact Nat.le_refl _) | (with_reducible exact keepsO_none _) | (with_reducible exact keepsOP_none _) | (with_reducible apply keepsOP_some) | (with_reducible rfl) | (with_reducible refine keeps_foldl _ (fun _ _ _ => ?_) _ ?_) | (with_reducible apply keepsO_some) | (with_reducible apply keepsR_next) | (with_reducible apply keeps_doneStroke) | (with_reducible apply keeps_scatterRow))

theorem keeps_execScatter (c : Fin 256) {r s : State} (h : Keeps r s) :
    KeepsR r (execScatter c s) := by
  unfold execScatter
  repeat' (first | with_reducible assumption | (with_reducible exact id) | (with_reducible exact Nat.le_refl _) | (with_reducible exact keepsO_none _) | (with_reducible exact keepsOP_none _) | (with_reducible apply keepsOP_some) | (with_reducible rfl) | (with_reducible refine keeps_foldl _ (fun _ _ _ => ?_) _ ?_) | (with_reducible apply keepsO_some) | (with_reducible apply keepsR_next) | (with_reducible refine keeps_runStroke _ _ _ _ (fun _ _ _ _ => ?_) ?_) | (with_reducible apply keeps_scatterBody))

end Sys2Proof.Machine
end

