-- ==== Sys2Proof/Laws/KeepsRoll.lean ====
section
/-! SUPPORT. What the operations of Roll keep. -/
set_option linter.all false
namespace Sys2Proof.Machine

theorem keeps_writeOut (f : Fire) (d : ChainDesc) (outs : List StageOut) (i : ℕ) (stage : ℕ) (m0 : Memory) {r s : State} (h : Keeps r s) :
    Keeps r (writeOut f d outs i stage m0 s) := by
  unfold writeOut
  repeat' (first | with_reducible assumption | (with_reducible exact id) | (with_reducible exact Nat.le_refl _) | (with_reducible exact keepsO_none _) | (with_reducible exact keepsOP_none _) | (with_reducible apply keepsOP_some) | (with_reducible rfl) | (with_reducible refine keeps_foldl _ (fun _ _ _ => ?_) _ ?_) | (with_reducible apply keepsO_some) | (with_reducible apply keepsR_next) | (fail_if_no_progress extract_lets) | split | (with_reducible apply Keeps.upd) | (with_reducible refine keepsO_get (by assumption) ?_) | (with_reducible refine keepsP_get (by assumption) ?_) | (with_reducible refine keepsQ_get (by assumption) ?_) | (with_reducible refine keepsOP_get (by assumption) ?_) | (intro hz; simp [hz]; done) | (intro hz; simp +zetaDelta [hz]; done) | (with_reducible apply imp_writeBytes) | (with_reducible apply imp_writeElem) | (with_reducible apply imp_writeElems) | (with_reducible apply imp_writeRow) | (with_reducible apply imp_write) | (with_reducible apply imp_forget) | (with_reducible apply imp_zeroRange) | (with_reducible refine imp_foldl (fun _ _ => ?_) ?_) | dsimp only | (dsimp +zetaDelta only))

theorem keeps_writeCounts (f : Fire) (d : ChainDesc) (outs : List StageOut) (m0 : Memory) {r s : State} (h : Keeps r s) :
    Keeps r (writeCounts f d outs m0 s) := by
  unfold writeCounts
  repeat' (first | with_reducible assumption | (with_reducible exact id) | (with_reducible exact Nat.le_refl _) | (with_reducible exact keepsO_none _) | (with_reducible exact keepsOP_none _) | (with_reducible apply keepsOP_some) | (with_reducible rfl) | (with_reducible refine keeps_foldl _ (fun _ _ _ => ?_) _ ?_) | (with_reducible apply keepsO_some) | (with_reducible apply keepsR_next) | (fail_if_no_progress extract_lets) | split | (with_reducible apply Keeps.upd) | (with_reducible refine keepsO_get (by assumption) ?_) | (with_reducible refine keepsP_get (by assumption) ?_) | (with_reducible refine keepsQ_get (by assumption) ?_) | (with_reducible refine keepsOP_get (by assumption) ?_) | (intro hz; simp +zetaDelta [hz]; done) | (with_reducible apply imp_writeBytes) | (with_reducible apply imp_writeElem) | (with_reducible apply imp_writeElems) | (with_reducible apply imp_writeRow) | (with_reducible apply imp_write) | (with_reducible apply imp_forget) | (with_reducible apply imp_zeroRange) | (with_reducible refine imp_foldl (fun _ _ => ?_) ?_))

theorem keeps_runChain (c : ℕ) (ctxs : List RattleCtx) (f : Fire) (d : ChainDesc) (win : Option (List WinVector)) {r s : State} (h : Keeps r s) :
    Keeps r (runChain c ctxs f d win s).1 := by
  unfold runChain
  repeat' (first | with_reducible assumption | (with_reducible exact id) | (with_reducible exact Nat.le_refl _) | (with_reducible exact keepsO_none _) | (with_reducible exact keepsOP_none _) | (with_reducible apply keepsOP_some) | (with_reducible rfl) | (with_reducible refine keeps_foldl _ (fun _ _ _ => ?_) _ ?_) | (with_reducible apply keepsO_some) | (with_reducible apply keepsR_next) | (with_reducible apply keeps_countNan) | (with_reducible apply keeps_countReserved) | (with_reducible apply keeps_countCore) | (with_reducible apply keeps_writeOut) | (with_reducible apply keeps_writeCounts))

theorem writeGrid_wf (x : Stream) (m0 : Memory) (f : Fire) (cols : Nat) (g : Grid) {m : Memory} (h : m.wf = true) :
    (writeGrid x m0 f cols g m).wf = true :=
  Memory.foldl_wf _ (fun _ _ hm => Memory.writeRow_wf _ _ _ _ _ hm) _ h

theorem keeps_stepBody (c : Nat) (b : BeatCtx) (key : Nat) {r s : State} (h : Keeps r s) : Keeps r (stepBody c b key s) := by
  unfold stepBody
  extract_lets f m x row ctx old eps new m1 hist m2
  refine keeps_doneStroke _ _ (Keeps.upd h (fun hm => ?_) id id id id id id id id id id id id id id id id rfl rfl rfl rfl (le_refl _))
  have h1 : m1.wf = true := writeGrid_wf _ _ _ _ _ hm
  show (if x.histEn then _ else m1).wf = true
  split
  · exact writeGrid_wf _ _ _ _ _ h1
  · exact h1

theorem keeps_execStepStroke (c : Fin 256) {r s : State} (h : Keeps r s) :
    KeepsR r (execStepStroke c s) := by
  unfold execStepStroke
  repeat' (first | with_reducible assumption | (with_reducible exact id) | (with_reducible exact Nat.le_refl _) | (with_reducible exact keepsO_none _) | (with_reducible exact keepsOP_none _) | (with_reducible apply keepsOP_some) | (with_reducible rfl) | (with_reducible refine keeps_foldl _ (fun _ _ _ => ?_) _ ?_) | (with_reducible apply keepsO_some) | (with_reducible apply keepsR_next) | (with_reducible refine keeps_runStroke _ _ _ _ (fun _ _ _ _ => ?_) ?_) | (with_reducible apply keeps_stepBody))

theorem keeps_execRattleSet (c : Fin 256) {r s : State} (h : Keeps r s) :
    KeepsR r (execRattleSet c s) := by
  unfold execRattleSet
  repeat' (first | with_reducible assumption | (with_reducible exact id) | (with_reducible exact Nat.le_refl _) | (with_reducible exact keepsO_none _) | (with_reducible exact keepsOP_none _) | (with_reducible apply keepsOP_some) | (with_reducible rfl) | (with_reducible refine keeps_foldl _ (fun _ _ _ => ?_) _ ?_) | (with_reducible apply keepsO_some) | (with_reducible apply keepsR_next) | (with_reducible refine keeps_runStroke _ _ _ _ (fun _ _ _ _ => ?_) ?_) | (with_reducible apply keeps_doneStroke) | (with_reducible apply keeps_State_updCore))

end Sys2Proof.Machine
end

