-- ==== Sys2Proof/Laws/KeepsLink.lean ====
section
/-! SUPPORT. What the operations of Link keep. -/
set_option linter.all false
namespace Sys2Proof.Machine

theorem keeps_strikePeer (stave : ℕ) (core : ℕ) (bar : ℕ) (desc : ℕ) (d : SendDesc) {r s : State} (h : Keeps r s) :
    Keeps r (strikePeer stave core bar desc d s) := by
  unfold strikePeer
  repeat' (first | with_reducible assumption | (with_reducible exact id) | (with_reducible exact Nat.le_refl _) | (with_reducible exact keepsO_none _) | (with_reducible exact keepsOP_none _) | (with_reducible apply keepsOP_some) | (with_reducible rfl) | (with_reducible refine keeps_foldl _ (fun _ _ _ => ?_) _ ?_) | (with_reducible apply keepsO_some) | (with_reducible apply keepsR_next) | (with_reducible apply keeps_logError) | (with_reducible apply keeps_strikeRunning))

theorem keeps_openSend (xtag : BitVec 7) (q : QueuedSend) (n : ℕ) {r s : State} (h : Keeps r s) :
    Keeps r (openSend xtag q n s) := by
  unfold openSend
  repeat' (first | with_reducible assumption | (with_reducible exact id) | (with_reducible exact Nat.le_refl _) | (with_reducible exact keepsO_none _) | (with_reducible exact keepsOP_none _) | (with_reducible apply keepsOP_some) | (with_reducible rfl) | (with_reducible refine keeps_foldl _ (fun _ _ _ => ?_) _ ?_) | (with_reducible apply keepsO_some) | (with_reducible apply keepsR_next) | (fail_if_no_progress extract_lets) | split | (with_reducible apply Keeps.upd))

theorem keeps_sendRuns (u : UnitId) (xtag : BitVec 7) (q : QueuedSend) {r s : State} (h : Keeps r s) :
    Keeps r (sendRuns u xtag q s) := by
  unfold sendRuns
  repeat' (first | with_reducible assumption | (with_reducible exact id) | (with_reducible exact Nat.le_refl _) | (with_reducible exact keepsO_none _) | (with_reducible exact keepsOP_none _) | (with_reducible apply keepsOP_some) | (with_reducible rfl) | (with_reducible refine keeps_foldl _ (fun _ _ _ => ?_) _ ?_) | (with_reducible apply keepsO_some) | (with_reducible apply keepsR_next) | (with_reducible apply keeps_sendBytes) | (with_reducible apply keeps_setPhase) | (fail_if_no_progress extract_lets) | split | (with_reducible apply Keeps.upd))

theorem keeps_sendUnder (xtag : BitVec 7) (q : QueuedSend) {r s : State} (h : Keeps r s) :
    Keeps r (sendUnder xtag q s) := by
  unfold sendUnder
  repeat' (first | with_reducible assumption | (with_reducible exact id) | (with_reducible exact Nat.le_refl _) | (with_reducible exact keepsO_none _) | (with_reducible exact keepsOP_none _) | (with_reducible apply keepsOP_some) | (with_reducible rfl) | (with_reducible refine keeps_foldl _ (fun _ _ _ => ?_) _ ?_) | (with_reducible apply keepsO_some) | (with_reducible apply keepsR_next) | (with_reducible apply keeps_sendRuns) | (with_reducible apply keeps_openSend) | (with_reducible apply keeps_setPhase) | (fail_if_no_progress extract_lets) | split | (with_reducible apply Keeps.upd))

theorem keeps_startSend (u : UnitId) (key : ℕ) (d : SendDesc) (peer : ℕ) (runs : List (ℕ × List Byte)) {r s : State} (h : Keeps r s) :
    Keeps r (startSend u key d peer runs s) := by
  unfold startSend
  repeat' (first | with_reducible assumption | (with_reducible exact id) | (with_reducible exact Nat.le_refl _) | (with_reducible exact keepsO_none _) | (with_reducible exact keepsOP_none _) | (with_reducible apply keepsOP_some) | (with_reducible rfl) | (with_reducible refine keeps_foldl _ (fun _ _ _ => ?_) _ ?_) | (with_reducible apply keepsO_some) | (with_reducible apply keepsR_next) | (with_reducible apply keeps_sendUnder) | (with_reducible apply keeps_setPhase) | (fail_if_no_progress extract_lets) | split | (with_reducible apply Keeps.upd))

theorem keeps_resumeSend (u : UnitId) (key : ℕ) {r s : State} (h : Keeps r s) :
    Keeps r (resumeSend u key s) := by
  unfold resumeSend
  repeat' (first | with_reducible assumption | (with_reducible exact id) | (with_reducible exact Nat.le_refl _) | (with_reducible exact keepsO_none _) | (with_reducible exact keepsOP_none _) | (with_reducible apply keepsOP_some) | (with_reducible rfl) | (with_reducible refine keeps_foldl _ (fun _ _ _ => ?_) _ ?_) | (with_reducible apply keepsO_some) | (with_reducible apply keepsR_next) | (with_reducible apply keeps_sendUnder) | (with_reducible apply keeps_setPhase) | (fail_if_no_progress extract_lets) | split | (with_reducible apply Keeps.upd))

theorem keeps_sendBody (b : BeatCtx) (key : ℕ) {r s : State} (h : Keeps r s) :
    Keeps r (sendBody b key s) := by
  unfold sendBody
  repeat' (first | with_reducible assumption | (with_reducible exact id) | (with_reducible exact Nat.le_refl _) | (with_reducible exact keepsO_none _) | (with_reducible exact keepsOP_none _) | (with_reducible apply keepsOP_some) | (with_reducible rfl) | (with_reducible refine keeps_foldl _ (fun _ _ _ => ?_) _ ?_) | (with_reducible apply keepsO_some) | (with_reducible apply keepsR_next) | (with_reducible apply keeps_strikePeer) | (with_reducible apply keeps_startSend) | (fail_if_no_progress extract_lets) | split)

theorem keeps_execSend  {r s : State} (h : Keeps r s) :
    KeepsR r (execSend s) := by
  unfold execSend
  repeat' (first | with_reducible assumption | (with_reducible exact id) | (with_reducible exact Nat.le_refl _) | (with_reducible exact keepsO_none _) | (with_reducible exact keepsOP_none _) | (with_reducible apply keepsOP_some) | (with_reducible rfl) | (with_reducible refine keeps_foldl _ (fun _ _ _ => ?_) _ ?_) | (with_reducible apply keepsO_some) | (with_reducible apply keepsR_next) | (with_reducible refine keeps_runStroke _ _ _ _ (fun _ _ _ _ => ?_) ?_) | (with_reducible apply keeps_sendBody))

theorem keeps_openWindow (wi : ℕ) (w : Window) {r s : State} (h : Keeps r s) :
    Keeps r (openWindow wi w s) := by
  unfold openWindow
  repeat' (first | with_reducible assumption | (with_reducible exact id) | (with_reducible exact Nat.le_refl _) | (with_reducible exact keepsO_none _) | (with_reducible exact keepsOP_none _) | (with_reducible apply keepsOP_some) | (with_reducible rfl) | (with_reducible refine keeps_foldl _ (fun _ _ _ => ?_) _ ?_) | (with_reducible apply keepsO_some) | (with_reducible apply keepsR_next) | (with_reducible apply keeps_offerWaiting) | (with_reducible apply keeps_State_updJob) | (fail_if_no_progress extract_lets) | split | (with_reducible apply Keeps.upd) | (with_reducible refine keepsO_get (by assumption) ?_) | (with_reducible refine keepsP_get (by assumption) ?_) | (with_reducible refine keepsQ_get (by assumption) ?_) | (with_reducible refine keepsOP_get (by assumption) ?_) | (intro hz; simp [hz]; done))

theorem keeps_recvBody (b : BeatCtx) (key : ℕ) {r s : State} (h : Keeps r s) :
    Keeps r (recvBody b key s) := by
  unfold recvBody
  repeat' (first | with_reducible assumption | (with_reducible exact id) | (with_reducible exact Nat.le_refl _) | (with_reducible exact keepsO_none _) | (with_reducible exact keepsOP_none _) | (with_reducible apply keepsOP_some) | (with_reducible rfl) | (with_reducible refine keeps_foldl _ (fun _ _ _ => ?_) _ ?_) | (with_reducible apply keepsO_some) | (with_reducible apply keepsR_next) | (with_reducible apply keeps_setPhase) | (with_reducible apply keeps_openWindow) | (fail_if_no_progress extract_lets) | split)

theorem keeps_execRecv  {r s : State} (h : Keeps r s) :
    KeepsR r (execRecv s) := by
  unfold execRecv
  repeat' (first | with_reducible assumption | (with_reducible exact id) | (with_reducible exact Nat.le_refl _) | (with_reducible exact keepsO_none _) | (with_reducible exact keepsOP_none _) | (with_reducible apply keepsOP_some) | (with_reducible rfl) | (with_reducible refine keeps_foldl _ (fun _ _ _ => ?_) _ ?_) | (with_reducible apply keepsO_some) | (with_reducible apply keepsR_next) | (with_reducible refine keeps_runStroke _ _ _ _ (fun _ _ _ _ => ?_) ?_) | (with_reducible apply keeps_recvBody))

theorem keeps_startCheck (tag : ℕ) {r s : State} (h : Keeps r s) :
    Keeps r (startCheck tag s) := by
  unfold startCheck
  repeat' (first | with_reducible assumption | (with_reducible exact id) | (with_reducible exact Nat.le_refl _) | (with_reducible exact keepsO_none _) | (with_reducible exact keepsOP_none _) | (with_reducible apply keepsOP_some) | (with_reducible rfl) | (with_reducible refine keeps_foldl _ (fun _ _ _ => ?_) _ ?_) | (with_reducible apply keepsO_some) | (with_reducible apply keepsR_next) | (with_reducible apply keeps_tryUp) | (with_reducible apply keeps_takeEarly) | (with_reducible apply keeps_State_updGroup) | (fail_if_no_progress extract_lets) | split)

theorem keeps_collBody (b : BeatCtx) (key : ℕ) {r s : State} (h : Keeps r s) :
    Keeps r (collBody b key s) := by
  unfold collBody
  repeat' (first | with_reducible assumption | (with_reducible exact id) | (with_reducible exact Nat.le_refl _) | (with_reducible exact keepsO_none _) | (with_reducible exact keepsOP_none _) | (with_reducible apply keepsOP_some) | (with_reducible rfl) | (with_reducible refine keeps_foldl _ (fun _ _ _ => ?_) _ ?_) | (with_reducible apply keepsO_some) | (with_reducible apply keepsR_next) | (with_reducible apply keeps_startCheck) | (with_reducible apply keeps_State_updGroup) | (with_reducible apply keeps_takeEarly) | (with_reducible apply keeps_startColl) | (fail_if_no_progress extract_lets) | split)

theorem keeps_execColl  {r s : State} (h : Keeps r s) :
    KeepsR r (execColl s) := by
  unfold execColl
  repeat' (first | with_reducible assumption | (with_reducible exact id) | (with_reducible exact Nat.le_refl _) | (with_reducible exact keepsO_none _) | (with_reducible exact keepsOP_none _) | (with_reducible apply keepsOP_some) | (with_reducible rfl) | (with_reducible refine keeps_foldl _ (fun _ _ _ => ?_) _ ?_) | (with_reducible apply keepsO_some) | (with_reducible apply keepsR_next) | (with_reducible refine keeps_runStroke _ _ _ _ (fun _ _ _ _ => ?_) ?_) | (with_reducible apply keeps_collBody))

end Sys2Proof.Machine
end

