-- ==== Sys2Proof/Laws/KeepsEpilogue.lean ====
section
/-! SUPPORT. What the operations of Epilogue keep. -/
set_option linter.all false
namespace Sys2Proof.Machine

theorem keeps_storeSet (f : Fire) (d : MatDesc) (desc : ℕ) (b : ℕ) (j : ℕ) (rows : List (List Word)) {r s : State} (h : Keeps r s) :
    Keeps r (storeSet f d desc b j rows s) := by
  unfold storeSet
  repeat' (first | with_reducible assumption | (with_reducible exact id) | (with_reducible exact Nat.le_refl _) | (with_reducible exact keepsO_none _) | (with_reducible exact keepsOP_none _) | (with_reducible apply keepsOP_some) | (with_reducible rfl) | (with_reducible refine keeps_foldl _ (fun _ _ _ => ?_) _ ?_) | (with_reducible apply keepsO_some) | (with_reducible apply keepsR_next) | (with_reducible apply keeps_unitWrite) | (fail_if_no_progress extract_lets) | split)

theorem placeY_wf (d : MatDesc) (w : WinDesc) (base row0 col0 : Nat) (codes : List (List Nat)) {m : Memory} (h : m.wf = true) :
    (placeY d w base row0 col0 codes m).wf = true := by
  unfold placeY
  refine Memory.foldl_wf _ (fun m x hm => ?_) _ h
  split
  · exact Memory.foldl_wf _ (fun _ _ hk => Memory.writeElem_wf _ _ _ _ hk) _ hm
  · exact Memory.writeRow_wf _ _ _ _ _ hm

theorem writeScales_wf (s0 : State) (f : Fire) (e : EpiDesc) (blk0 col0 blocks n : Nat) (scale : Nat → Nat → Nat) {m : Memory}
    (h : m.wf = true) : (writeScales s0 f e blk0 col0 blocks n scale m).wf = true :=
  Memory.foldl_wf _ (fun _ _ hm => Memory.writeBytes_wf _ _ hm) _ h

theorem keeps_writeY (f : Fire) (d : MatDesc) (row0 col0 : Nat) (codes : List (List Nat)) {r s : State} (h : Keeps r s) :
    Keeps r (writeY f d row0 col0 codes s) := by
  unfold writeY
  exact Keeps.upd h (imp_foldl (fun _ _ hm => placeY_wf _ _ _ _ _ _ hm) id) id id id id id id id id id id id id id id id id rfl rfl rfl rfl (le_refl _)

theorem keeps_blockQuantise (f : Fire) (d : MatDesc) (e : EpiDesc) (row0 col0 : Nat) (rows : List (List Word)) {r s : State} (h : Keeps r s) :
    Keeps r (blockQuantise f d e row0 col0 rows s) := by
  have h1 : ∀ n codes, Keeps r (countNan f.core n (writeY f d row0 col0 codes s)) := fun _ _ => keeps_countNan _ _ (keeps_writeY _ _ _ _ _ h)
  unfold blockQuantise
  dsimp only
  split
  · exact h1 _ _
  · exact Keeps.upd (h1 _ _) (imp_foldl (fun _ _ hm => writeScales_wf _ _ _ _ _ _ _ _ hm) id) id id id id id id id id id id id id id id id id
      rfl rfl rfl rfl (le_refl _)

theorem keeps_holdTile (f : Fire) (e : EpiDesc) (row0 : ℕ) (col0 : ℕ) (rows : List (List Word)) {r s : State} (h : Keeps r s) :
    Keeps r (holdTile f e row0 col0 rows s) := by
  unfold holdTile
  repeat' (first | with_reducible assumption | (with_reducible exact id) | (with_reducible exact Nat.le_refl _) | (with_reducible exact keepsO_none _) | (with_reducible exact keepsOP_none _) | (with_reducible apply keepsOP_some) | (with_reducible rfl) | (with_reducible refine keeps_foldl _ (fun _ _ _ => ?_) _ ?_) | (with_reducible apply keepsO_some) | (with_reducible apply keepsR_next) | (fail_if_no_progress extract_lets) | split | (with_reducible apply Keeps.upd) | (with_reducible refine keepsO_get (by assumption) ?_) | (with_reducible refine keepsP_get (by assumption) ?_) | (with_reducible refine keepsQ_get (by assumption) ?_) | (with_reducible refine keepsOP_get (by assumption) ?_) | (intro hz; simp +zetaDelta [hz]; done) | (with_reducible apply imp_writeBytes) | (with_reducible apply imp_writeElem) | (with_reducible apply imp_writeElems) | (with_reducible apply imp_writeRow) | (with_reducible apply imp_write) | (with_reducible apply imp_forget) | (with_reducible apply imp_zeroRange) | (with_reducible refine imp_foldl (fun _ _ => ?_) ?_))

theorem keeps_deferredQuantise (f : Fire) (d : MatDesc) (e : EpiDesc) (merged : List Word) {r s : State} (h : Keeps r s) :
    Keeps r (deferredQuantise f d e merged s) := by
  have h1 : ∀ n codes, Keeps r (countNan f.core n (writeY f d 0 0 codes s)) := fun _ _ => keeps_countNan _ _ (keeps_writeY _ _ _ _ _ h)
  unfold deferredQuantise
  exact Keeps.upd (h1 _ _) (fun hm => writeScales_wf _ _ _ _ _ _ _ _ hm) id id id id id id id id id id id id id id id id
      rfl rfl rfl rfl (le_refl _)

theorem keeps_sendTile (c key bar desc : Nat) (f : Fire) (d : MatDesc) (e : EpiDesc) (row0 col0 : Nat) (codes : List (List Nat)) {r s : State}
    (h : Keeps r s) : KeepsO r (sendTile c key bar desc f d e row0 col0 codes s) := by
  unfold sendTile
  extract_lets sd
  split
  · exact keepsO_some (keeps_strikePeer _ _ _ _ _ h)
  · rename_i peer _
    refine keepsO_map fun a ha => ?_
    have ht : Keeps r a.2.2 := by
      unfold tileSend at ha
      dsimp only at ha
      split at ha
      · cases ha; exact h
      · obtain ⟨g, _, rfl⟩ := Option.map_eq_some_iff.1 ha
        exact keeps_openSend _ _ _ h
    dsimp only
    refine keeps_sendRuns _ _ _ ?_
    split
    · exact keeps_writeY _ _ _ _ _ ht
    · exact ht

theorem keeps_drainChain (f : Fire) (d : MatDesc) (e : EpiDesc) (col0 : ℕ) (lo : List (List Word)) (hi : List (List Word)) {r s : State} (h : Keeps r s) :
    Keeps r (drainChain f d e col0 lo hi s) := by
  unfold drainChain
  repeat' (first | with_reducible assumption | (with_reducible exact id) | (with_reducible exact Nat.le_refl _) | (with_reducible exact keepsO_none _) | (with_reducible exact keepsOP_none _) | (with_reducible apply keepsOP_some) | (with_reducible rfl) | (with_reducible refine keeps_foldl _ (fun _ _ _ => ?_) _ ?_) | (with_reducible apply keepsO_some) | (with_reducible apply keepsR_next) | (with_reducible apply keeps_writeY) | (with_reducible apply keeps_unitWrite) | (fail_if_no_progress extract_lets) | split)

theorem keeps_quantiseBlock (f : Fire) (d : MatDesc) (e : EpiDesc) (key : ℕ) (mu : ℕ) (p : ℕ) (col0 : ℕ) (b : ℕ) (rows : List (List Word)) {r s : State} (h : Keeps r s) :
    Keeps r (quantiseBlock f d e key mu p col0 b rows s) := by
  unfold quantiseBlock
  repeat' (first | with_reducible assumption | (with_reducible exact id) | (with_reducible exact Nat.le_refl _) | (with_reducible exact keepsO_none _) | (with_reducible exact keepsOP_none _) | (with_reducible apply keepsOP_some) | (with_reducible rfl) | (with_reducible refine keeps_foldl _ (fun _ _ _ => ?_) _ ?_) | (with_reducible apply keepsO_some) | (with_reducible apply keepsR_next) | (with_reducible apply keeps_State_updCore) | (with_reducible apply keeps_blockQuantise) | (fail_if_no_progress extract_lets) | split)

theorem keeps_quantiseCells (f : Fire) (d : MatDesc) (e : EpiDesc) (key : ℕ) (mu : ℕ) (p : ℕ) (row0 : ℕ) (col0 : ℕ) (rows : List (List Word)) {r s : State} (h : Keeps r s) :
    Keeps r (quantiseCells f d e key mu p row0 col0 rows s) := by
  unfold quantiseCells
  repeat' (first | with_reducible assumption | (with_reducible exact id) | (with_reducible exact Nat.le_refl _) | (with_reducible exact keepsO_none _) | (with_reducible exact keepsOP_none _) | (with_reducible apply keepsOP_some) | (with_reducible rfl) | (with_reducible refine keeps_foldl _ (fun _ _ _ => ?_) _ ?_) | (with_reducible apply keepsO_some) | (with_reducible apply keepsR_next) | (with_reducible apply keeps_blockQuantise) | (with_reducible apply keeps_quantiseBlock) | (fail_if_no_progress extract_lets) | split)

theorem keeps_drainCells (f : Fire) (d : MatDesc) (key : ℕ) (mu : ℕ) (p : ℕ) (row0 : ℕ) (col0 : ℕ) (rows : List (List Word)) {r s : State} (h : Keeps r s) :
    Keeps r (drainCells f d key mu p row0 col0 rows s) := by
  unfold drainCells
  repeat' (first | with_reducible assumption | (with_reducible exact id) | (with_reducible exact Nat.le_refl _) | (with_reducible exact keepsO_none _) | (with_reducible exact keepsOP_none _) | (with_reducible apply keepsOP_some) | (with_reducible rfl) | (with_reducible refine keeps_foldl _ (fun _ _ _ => ?_) _ ?_) | (with_reducible apply keepsO_some) | (with_reducible apply keepsR_next) | (with_reducible apply keeps_writeY) | (with_reducible apply keeps_quantiseCells) | (fail_if_no_progress extract_lets) | split)

end Sys2Proof.Machine
end

