-- ==== Sys2Proof/Laws/KeepsReduce.lean ====
section
/-! SUPPORT. What the operations of Reduce keep. -/
set_option linter.all false
namespace Sys2Proof.Machine

theorem keeps_writeStats (s0 : State) (f : Fire) (d : RedDesc) (finals : List (List Word)) {r s : State} (h : Keeps r s) :
    Keeps r (writeStats s0 f d finals s) := by
  unfold writeStats
  exact keeps_foldl _ (fun _ _ hk => keeps_unitWrite _ _ _ hk) _ h

theorem keeps_countFinal (c : ℕ) (d : RedDesc) (n : ℕ) {r s : State} (h : Keeps r s) :
    Keeps r (countFinal c d n s) := by
  unfold countFinal
  repeat' (first | with_reducible assumption | (with_reducible exact id) | (with_reducible exact Nat.le_refl _) | (with_reducible exact keepsO_none _) | (with_reducible exact keepsOP_none _) | (with_reducible apply keepsOP_some) | (with_reducible rfl) | (with_reducible refine keeps_foldl _ (fun _ _ _ => ?_) _ ?_) | (with_reducible apply keepsO_some) | (with_reducible apply keepsR_next) | (with_reducible apply keeps_countCore))

end Sys2Proof.Machine
end

