-- ==== Sys2Proof/Laws/KeepsMerge.lean ====
section
/-! SUPPORT. What the operations of Merge keep. -/
set_option linter.all false
namespace Sys2Proof.Machine

theorem keeps_closeItem (i : MergeItem) (c : ℕ) {r s : State} (h : Keeps r s) :
    Keeps r (closeItem i s c) := by
  unfold closeItem
  repeat' (first | with_reducible assumption | (with_reducible exact id) | (with_reducible exact Nat.le_refl _) | (with_reducible exact keepsO_none _) | (with_reducible exact keepsOP_none _) | (with_reducible apply keepsOP_some) | (with_reducible rfl) | (with_reducible refine keeps_foldl _ (fun _ _ _ => ?_) _ ?_) | (with_reducible apply keepsO_some) | (with_reducible apply keepsR_next) | (with_reducible apply keeps_doneStroke) | (with_reducible apply keeps_State_updCore) | (fail_if_no_progress extract_lets) | split)

theorem keeps_finishRow (i : MergeItem) (merged : List Word) (c : ℕ) {r s : State} (h : Keeps r s) :
    Keeps r (finishRow i merged s c) := by
  unfold finishRow
  repeat' (first | with_reducible assumption | (with_reducible exact id) | (with_reducible exact Nat.le_refl _) | (with_reducible exact keepsO_none _) | (with_reducible exact keepsOP_none _) | (with_reducible apply keepsOP_some) | (with_reducible rfl) | (with_reducible refine keeps_foldl _ (fun _ _ _ => ?_) _ ?_) | (with_reducible apply keepsO_some) | (with_reducible apply keepsR_next) | (with_reducible apply keeps_closeItem) | (with_reducible apply keeps_deferredQuantise) | (fail_if_no_progress extract_lets) | split)

theorem keeps_finishArgmax (i : MergeItem) (merged : List (List Word)) (cores : List ℕ) {r s : State} (h : Keeps r s) :
    Keeps r (finishArgmax i merged cores s) := by
  unfold finishArgmax
  repeat' (first | with_reducible assumption | (with_reducible exact id) | (with_reducible exact Nat.le_refl _) | (with_reducible exact keepsO_none _) | (with_reducible exact keepsOP_none _) | (with_reducible apply keepsOP_some) | (with_reducible rfl) | (with_reducible refine keeps_foldl _ (fun _ _ _ => ?_) _ ?_) | (with_reducible apply keepsO_some) | (with_reducible apply keepsR_next) | (with_reducible apply keeps_closeItem) | (with_reducible apply keeps_unitWrite))

theorem keeps_finishAttn (i : MergeItem) (merged : List (List Word)) (c : ℕ) {r s : State} (h : Keeps r s) :
    Keeps r (finishAttn i merged c s) := by
  unfold finishAttn
  repeat' (first | with_reducible assumption | (with_reducible exact id) | (with_reducible exact Nat.le_refl _) | (with_reducible exact keepsO_none _) | (with_reducible exact keepsOP_none _) | (with_reducible apply keepsOP_some) | (with_reducible rfl) | (with_reducible refine keeps_foldl _ (fun _ _ _ => ?_) _ ?_) | (with_reducible apply keepsO_some) | (with_reducible apply keepsR_next) | (with_reducible apply keeps_unitWrite) | (fail_if_no_progress extract_lets) | split | (with_reducible apply Keeps.upd) | (with_reducible refine keepsO_get (by assumption) ?_) | (with_reducible refine keepsP_get (by assumption) ?_) | (with_reducible refine keepsQ_get (by assumption) ?_) | (with_reducible refine keepsOP_get (by assumption) ?_) | (intro hz; simp +zetaDelta [hz]; done) | (with_reducible apply imp_writeBytes) | (with_reducible apply imp_writeElem) | (with_reducible apply imp_writeElems) | (with_reducible apply imp_writeRow) | (with_reducible apply imp_write) | (with_reducible apply imp_forget) | (with_reducible apply imp_zeroRange) | (with_reducible refine imp_foldl (fun _ _ => ?_) ?_))

theorem keeps_closeWritten (fin : MergeItem) (c : ℕ) {r s : State} (h : Keeps r s) :
    Keeps r (closeWritten fin c s) := by
  unfold closeWritten
  repeat' (first | with_reducible assumption | (with_reducible exact id) | (with_reducible exact Nat.le_refl _) | (with_reducible exact keepsO_none _) | (with_reducible exact keepsOP_none _) | (with_reducible apply keepsOP_some) | (with_reducible rfl) | (with_reducible refine keeps_foldl _ (fun _ _ _ => ?_) _ ?_) | (with_reducible apply keepsO_some) | (with_reducible apply keepsR_next) | (with_reducible apply keeps_closeItem) | (fail_if_no_progress extract_lets) | split)

theorem keeps_groupWritten (i : MergeItem) (cores : List ℕ) (c : ℕ) {r s : State} (h : Keeps r s) :
    Keeps r (groupWritten i cores c s) := by
  unfold groupWritten
  repeat' (first | with_reducible assumption | (with_reducible exact id) | (with_reducible exact Nat.le_refl _) | (with_reducible exact keepsO_none _) | (with_reducible exact keepsOP_none _) | (with_reducible apply keepsOP_some) | (with_reducible rfl) | (with_reducible refine keeps_foldl _ (fun _ _ _ => ?_) _ ?_) | (with_reducible apply keepsO_some) | (with_reducible apply keepsR_next) | (with_reducible apply keeps_State_updCore) | (with_reducible apply keeps_closeWritten))

theorem keeps_finishStats (i : MergeItem) (merged : List (List Word)) (cores : List ℕ) (c : ℕ) {r s : State} (h : Keeps r s) :
    Keeps r (finishStats i merged cores c s) := by
  unfold finishStats
  repeat' (first | with_reducible assumption | (with_reducible exact id) | (with_reducible exact Nat.le_refl _) | (with_reducible exact keepsO_none _) | (with_reducible exact keepsOP_none _) | (with_reducible apply keepsOP_some) | (with_reducible rfl) | (with_reducible refine keeps_foldl _ (fun _ _ _ => ?_) _ ?_) | (with_reducible apply keepsO_some) | (with_reducible apply keepsR_next) | (with_reducible apply keeps_closeItem) | (with_reducible apply keeps_writeStats) | (with_reducible apply keeps_countFinal) | (fail_if_no_progress extract_lets) | split)

theorem keeps_finishMerge (c : ℕ) (i : MergeItem) (merged : List (List Word)) {r s : State} (h : Keeps r s) :
    Keeps r (finishMerge c i merged s) := by
  unfold finishMerge
  repeat' (first | with_reducible assumption | (with_reducible exact id) | (with_reducible exact Nat.le_refl _) | (with_reducible exact keepsO_none _) | (with_reducible exact keepsOP_none _) | (with_reducible apply keepsOP_some) | (with_reducible rfl) | (with_reducible refine keeps_foldl _ (fun _ _ _ => ?_) _ ?_) | (with_reducible apply keepsO_some) | (with_reducible apply keepsR_next) | (with_reducible apply keeps_finishRow) | (with_reducible apply keeps_finishArgmax) | (with_reducible apply keeps_groupWritten) | (with_reducible apply keeps_finishAttn) | (with_reducible apply keeps_finishStats) | (fail_if_no_progress extract_lets) | split)

theorem keeps_settleMerges (red : Bool) (n : Nat) {r s : State} (h : Keeps r s) : Keeps r (settleMerges red n s) := by
  induction n generalizing s with
  | zero => exact h
  | succ n ih =>
    unfold settleMerges
    split
    · exact h
    · split
      · exact h
      · exact ih (keeps_finishMerge _ _ _ h)

theorem keeps_pushMerge (c : ℕ) (i : MergeItem) {r s : State} (h : Keeps r s) :
    Keeps r (pushMerge c i s) := by
  unfold pushMerge
  repeat' (first | with_reducible assumption | (with_reducible exact id) | (with_reducible exact Nat.le_refl _) | (with_reducible exact keepsO_none _) | (with_reducible exact keepsOP_none _) | (with_reducible apply keepsOP_some) | (with_reducible rfl) | (with_reducible refine keeps_foldl _ (fun _ _ _ => ?_) _ ?_) | (with_reducible apply keepsO_some) | (with_reducible apply keepsR_next) | (with_reducible apply keeps_State_updCore) | (with_reducible apply keeps_setPhase) | (with_reducible apply keeps_settleMerges) | (fail_if_no_progress extract_lets) | split)

theorem keeps_writeProbs (f : Fire) (a : AttnDesc) (c : ℕ) (col0 : ℕ) (cols : List (List Word)) {r s : State} (h : Keeps r s) :
    Keeps r (writeProbs f a c col0 cols s) := by
  unfold writeProbs
  repeat' (first | with_reducible assumption | (with_reducible exact id) | (with_reducible exact Nat.le_refl _) | (with_reducible exact keepsO_none _) | (with_reducible exact keepsOP_none _) | (with_reducible apply keepsOP_some) | (with_reducible rfl) | (with_reducible refine keeps_foldl _ (fun _ _ _ => ?_) _ ?_) | (with_reducible apply keepsO_some) | (with_reducible apply keepsR_next) | (fail_if_no_progress extract_lets) | split | (with_reducible apply Keeps.upd) | (with_reducible refine keepsO_get (by assumption) ?_) | (with_reducible refine keepsP_get (by assumption) ?_) | (with_reducible refine keepsQ_get (by assumption) ?_) | (with_reducible refine keepsOP_get (by assumption) ?_) | (intro hz; simp +zetaDelta [hz]; done) | (with_reducible apply imp_writeBytes) | (with_reducible apply imp_writeElem) | (with_reducible apply imp_writeElems) | (with_reducible apply imp_writeRow) | (with_reducible apply imp_write) | (with_reducible apply imp_forget) | (with_reducible apply imp_zeroRange) | (with_reducible refine imp_foldl (fun _ _ => ?_) ?_) | dsimp only | (dsimp +zetaDelta only))

theorem keeps_sendPivots (c : ℕ) (key : ℕ) (desc : ℕ) (bar : ℕ) (mates : List ℕ) (ps : List Word) {r s : State} (h : Keeps r s) :
    Keeps r (sendPivots c key desc bar mates ps s) := by
  unfold sendPivots
  repeat' (first | with_reducible assumption | (with_reducible exact id) | (with_reducible exact Nat.le_refl _) | (with_reducible exact keepsO_none _) | (with_reducible exact keepsOP_none _) | (with_reducible apply keepsOP_some) | (with_reducible rfl) | (with_reducible refine keeps_foldl _ (fun _ _ _ => ?_) _ ?_) | (with_reducible apply keepsO_some) | (with_reducible apply keepsR_next) | (with_reducible apply keeps_State_updCore))

theorem keeps_runReduce (c : ℕ) (key : ℕ) (desc : ℕ) (bar : ℕ) (f : Fire) (d : RedDesc) (rows : List TapRow) (given : Option MergeItem) {r s : State} (h : Keeps r s) :
    Keeps r (runReduce c key desc bar f d rows given s) := by
  unfold runReduce
  repeat' (first | with_reducible assumption | (with_reducible exact id) | (with_reducible exact Nat.le_refl _) | (with_reducible exact keepsO_none _) | (with_reducible exact keepsOP_none _) | (with_reducible apply keepsOP_some) | (with_reducible rfl) | (with_reducible refine keeps_foldl _ (fun _ _ _ => ?_) _ ?_) | (with_reducible apply keepsO_some) | (with_reducible apply keepsR_next) | (with_reducible apply keeps_State_updCore) | (with_reducible apply keeps_sendPivots) | (with_reducible apply keeps_pushMerge) | (with_reducible apply keeps_writeStats) | (with_reducible apply keeps_countFinal) | (with_reducible apply keeps_closeWritten) | (fail_if_no_progress extract_lets) | split | (with_reducible apply Keeps.upd))

theorem keeps_mergeNext (c : ℕ) (red : Bool) {r s : State} (h : Keeps r s) :
    KeepsO r (mergeNext c red s) := by
  unfold mergeNext
  repeat' (first | with_reducible assumption | (with_reducible exact id) | (with_reducible exact Nat.le_refl _) | (with_reducible exact keepsO_none _) | (with_reducible exact keepsOP_none _) | (with_reducible apply keepsOP_some) | (with_reducible rfl) | (with_reducible refine keeps_foldl _ (fun _ _ _ => ?_) _ ?_) | (with_reducible apply keepsO_some) | (with_reducible apply keepsR_next) | (with_reducible apply keepsO_map; intro _ _) | (with_reducible apply keeps_settleMerges) | (with_reducible apply keeps_State_updCore) | (fail_if_no_progress extract_lets) | split)

theorem keeps_execMergePartialRx (c : Fin 256) {r s : State} (h : Keeps r s) : KeepsR r (execMergePartialRx c s) := by
  unfold execMergePartialRx
  refine keepsR_next ?_
  split
  · rename_i e
    exact keepsO_get e (keeps_mergeNext _ _ h)
  · cases e : mergeNext c.val true s with
    | none => exact h
    | some t => exact keepsO_get e (keeps_mergeNext _ _ h)

end Sys2Proof.Machine
end

