-- ==== Sys2Proof/Laws/KeepsStreams.lean ====
section
/-! SUPPORT. What the operations of Streams keep. -/
set_option linter.all false
namespace Sys2Proof.Machine

theorem keeps_pause (u : UnitId) (i : Inflight) {r s : State} (h : Keeps r s) :
    Keeps r (pause u i s) := by
  unfold pause
  repeat' (first | with_reducible assumption | (with_reducible exact id) | (with_reducible exact Nat.le_refl _) | (with_reducible exact keepsO_none _) | (with_reducible exact keepsOP_none _) | (with_reducible apply keepsOP_some) | (with_reducible rfl) | (with_reducible refine keeps_foldl _ (fun _ _ _ => ?_) _ ?_) | (with_reducible apply keepsO_some) | (with_reducible apply keepsR_next) | (with_reducible apply keeps_setPhase))

theorem keeps_giveOne (u : UnitId) (i : Inflight) (total : ℕ) {r s : State} (h : Keeps r s) :
    Keeps r (giveOne u i total s) := by
  unfold giveOne
  repeat' (first | with_reducible assumption | (with_reducible exact id) | (with_reducible exact Nat.le_refl _) | (with_reducible exact keepsO_none _) | (with_reducible exact keepsOP_none _) | (with_reducible apply keepsOP_some) | (with_reducible rfl) | (with_reducible refine keeps_foldl _ (fun _ _ _ => ?_) _ ?_) | (with_reducible apply keepsO_some) | (with_reducible apply keepsR_next) | (with_reducible apply keeps_updFlight))

theorem keeps_feedOn (c : ℕ) (i : Inflight) {r s : State} (h : Keeps r s) :
    Keeps r (feedOn c i s) := by
  unfold feedOn
  repeat' (first | with_reducible assumption | (with_reducible exact id) | (with_reducible exact Nat.le_refl _) | (with_reducible exact keepsO_none _) | (with_reducible exact keepsOP_none _) | (with_reducible apply keepsOP_some) | (with_reducible rfl) | (with_reducible refine keeps_foldl _ (fun _ _ _ => ?_) _ ?_) | (with_reducible apply keepsO_some) | (with_reducible apply keepsR_next) | (with_reducible apply keeps_updFlight))

theorem keeps_pushEntry (c : ℕ) (i : Inflight) (e : FeedEntry) {r s : State} (h : Keeps r s) :
    Keeps r (pushEntry c i e s) := by
  unfold pushEntry
  repeat' (first | with_reducible assumption | (with_reducible exact id) | (with_reducible exact Nat.le_refl _) | (with_reducible exact keepsO_none _) | (with_reducible exact keepsOP_none _) | (with_reducible apply keepsOP_some) | (with_reducible rfl) | (with_reducible refine keeps_foldl _ (fun _ _ _ => ?_) _ ?_) | (with_reducible apply keepsO_some) | (with_reducible apply keepsR_next) | (with_reducible apply keeps_pause) | (with_reducible apply keeps_feedOn) | (with_reducible apply keeps_State_updCore) | (fail_if_no_progress extract_lets) | split)

theorem keeps_pushWindow (c : ℕ) (i : Inflight) (v : WinVector) {r s : State} (h : Keeps r s) :
    Keeps r (pushWindow c i v s) := by
  unfold pushWindow
  repeat' (first | with_reducible assumption | (with_reducible exact id) | (with_reducible exact Nat.le_refl _) | (with_reducible exact keepsO_none _) | (with_reducible exact keepsOP_none _) | (with_reducible apply keepsOP_some) | (with_reducible rfl) | (with_reducible refine keeps_foldl _ (fun _ _ _ => ?_) _ ?_) | (with_reducible apply keepsO_some) | (with_reducible apply keepsR_next) | (with_reducible apply keeps_pause) | (with_reducible apply keeps_feedOn) | (with_reducible apply keeps_State_updCore) | (fail_if_no_progress extract_lets) | split)

theorem keeps_feedAt (c : ℕ) (f : Fire) (i : Inflight) (p : EntryPlace) {r s : State} (h : Keeps r s) :
    KeepsO r (feedAt c f i p s) := by
  unfold feedAt
  repeat' (first | with_reducible assumption | (with_reducible exact id) | (with_reducible exact Nat.le_refl _) | (with_reducible exact keepsO_none _) | (with_reducible exact keepsOP_none _) | (with_reducible apply keepsOP_some) | (with_reducible rfl) | (with_reducible refine keeps_foldl _ (fun _ _ _ => ?_) _ ?_) | (with_reducible apply keepsO_some) | (with_reducible apply keepsR_next) | (with_reducible apply keepsO_map; intro _ _) | (with_reducible apply keeps_feedOn) | (with_reducible apply keeps_pushEntry) | (with_reducible apply keeps_decideBlock) | (fail_if_no_progress extract_lets) | split | (with_reducible apply Keeps.upd))

theorem keeps_feedStep (c : ℕ) {r s : State} (h : Keeps r s) :
    KeepsO r (feedStep c s) := by
  unfold feedStep
  repeat' (first | with_reducible assumption | (with_reducible exact id) | (with_reducible exact Nat.le_refl _) | (with_reducible exact keepsO_none _) | (with_reducible exact keepsOP_none _) | (with_reducible apply keepsOP_some) | (with_reducible rfl) | (with_reducible refine keeps_foldl _ (fun _ _ _ => ?_) _ ?_) | (with_reducible apply keepsO_some) | (with_reducible apply keepsR_next) | (with_reducible apply keepsO_map; intro _ _) | (with_reducible apply keeps_pushWindow) | (with_reducible apply keeps_feedAt) | (fail_if_no_progress extract_lets) | split)

theorem keeps_feedClose (c : ℕ) {r s : State} (h : Keeps r s) :
    KeepsO r (feedClose c s) := by
  unfold feedClose
  repeat' (first | with_reducible assumption | (with_reducible exact id) | (with_reducible exact Nat.le_refl _) | (with_reducible exact keepsO_none _) | (with_reducible exact keepsOP_none _) | (with_reducible apply keepsOP_some) | (with_reducible rfl) | (with_reducible refine keeps_foldl _ (fun _ _ _ => ?_) _ ?_) | (with_reducible apply keepsO_some) | (with_reducible apply keepsR_next) | (with_reducible apply keepsO_map; intro _ _) | (with_reducible apply keeps_doneStroke) | (with_reducible apply keeps_State_updCore))

theorem keeps_takeEntry (c : ℕ) (mu : ℕ) (f : Fire) (i : Inflight) (e : FeedEntry) (set : AccSet) (others : List AccSet) {r s : State} (h : Keeps r s) :
    Keeps r (takeEntry c mu f i e set others s) := by
  unfold takeEntry
  repeat' (first | with_reducible assumption | (with_reducible exact id) | (with_reducible exact Nat.le_refl _) | (with_reducible exact keepsO_none _) | (with_reducible exact keepsOP_none _) | (with_reducible apply keepsOP_some) | (with_reducible rfl) | (with_reducible refine keeps_foldl _ (fun _ _ _ => ?_) _ ?_) | (with_reducible apply keepsO_some) | (with_reducible apply keepsR_next) | (with_reducible apply keeps_State_updCore) | (with_reducible apply keeps_updFlight) | (fail_if_no_progress extract_lets) | split)

theorem keeps_muStep (c : ℕ) (mu : ℕ) {r s : State} (h : Keeps r s) :
    KeepsO r (muStep c mu s) := by
  unfold muStep
  repeat' (first | with_reducible assumption | (with_reducible exact id) | (with_reducible exact Nat.le_refl _) | (with_reducible exact keepsO_none _) | (with_reducible exact keepsOP_none _) | (with_reducible apply keepsOP_some) | (with_reducible rfl) | (with_reducible refine keeps_foldl _ (fun _ _ _ => ?_) _ ?_) | (with_reducible apply keepsO_some) | (with_reducible apply keepsR_next) | (with_reducible apply keeps_enterMode) | (with_reducible apply keeps_takeEntry) | (with_reducible apply keeps_pause) | (fail_if_no_progress extract_lets) | split)

theorem keeps_dropSets (c : ℕ) (as : List AccSet) {r s : State} (h : Keeps r s) :
    Keeps r (dropSets c as s) := by
  unfold dropSets
  repeat' (first | with_reducible assumption | (with_reducible exact id) | (with_reducible exact Nat.le_refl _) | (with_reducible exact keepsO_none _) | (with_reducible exact keepsOP_none _) | (with_reducible apply keepsOP_some) | (with_reducible rfl) | (with_reducible refine keeps_foldl _ (fun _ _ _ => ?_) _ ?_) | (with_reducible apply keepsO_some) | (with_reducible apply keepsR_next) | (with_reducible apply keeps_State_updCore))

theorem keeps_putSet (c : ℕ) (a : AccSet) {r s : State} (h : Keeps r s) :
    Keeps r (putSet c a s) := by
  unfold putSet
  repeat' (first | with_reducible assumption | (with_reducible exact id) | (with_reducible exact Nat.le_refl _) | (with_reducible exact keepsO_none _) | (with_reducible exact keepsOP_none _) | (with_reducible apply keepsOP_some) | (with_reducible rfl) | (with_reducible refine keeps_foldl _ (fun _ _ _ => ?_) _ ?_) | (with_reducible apply keepsO_some) | (with_reducible apply keepsR_next) | (with_reducible apply keeps_State_updCore))

theorem keeps_stageStep (c : ℕ) {r s : State} (h : Keeps r s) :
    KeepsO r (stageStep c s) := by
  unfold stageStep
  repeat' (first | with_reducible assumption | (with_reducible exact id) | (with_reducible exact Nat.le_refl _) | (with_reducible exact keepsO_none _) | (with_reducible exact keepsOP_none _) | (with_reducible apply keepsOP_some) | (with_reducible rfl) | (with_reducible refine keeps_foldl _ (fun _ _ _ => ?_) _ ?_) | (with_reducible apply keepsO_some) | (with_reducible apply keepsR_next) | (with_reducible apply keeps_pause) | (with_reducible apply keeps_updFlight) | (with_reducible apply keeps_putSet) | (with_reducible apply keeps_giveOne) | (with_reducible apply keeps_setTiles) | (with_reducible apply keeps_dropSets) | (fail_if_no_progress extract_lets) | split)

theorem keeps_drainOn (c : ℕ) (i : Inflight) {r s : State} (h : Keeps r s) :
    Keeps r (drainOn c i s) := by
  unfold drainOn
  repeat' (first | with_reducible assumption | (with_reducible exact id) | (with_reducible exact Nat.le_refl _) | (with_reducible exact keepsO_none _) | (with_reducible exact keepsOP_none _) | (with_reducible apply keepsOP_some) | (with_reducible rfl) | (with_reducible refine keeps_foldl _ (fun _ _ _ => ?_) _ ?_) | (with_reducible apply keepsO_some) | (with_reducible apply keepsR_next) | (with_reducible apply keeps_updFlight))

theorem keeps_holdRows (c : ℕ) (key : ℕ) (rows : List (List Word)) {r s : State} (h : Keeps r s) :
    Keeps r (holdRows c key rows s) := by
  unfold holdRows
  repeat' (first | with_reducible assumption | (with_reducible exact id) | (with_reducible exact Nat.le_refl _) | (with_reducible exact keepsO_none _) | (with_reducible exact keepsOP_none _) | (with_reducible apply keepsOP_some) | (with_reducible rfl) | (with_reducible refine keeps_foldl _ (fun _ _ _ => ?_) _ ?_) | (with_reducible apply keepsO_some) | (with_reducible apply keepsR_next) | (with_reducible apply keeps_State_updCore))

theorem keeps_drainTile (c : ℕ) (f : Fire) (i : Inflight) (d : MatDesc) (row0 : ℕ) (col0 : ℕ) (set : List (List Word)) {r s : State} (h : Keeps r s) :
    KeepsO r (drainTile c f i d row0 col0 set s) := by
  unfold drainTile
  repeat' (first | with_reducible assumption | (with_reducible exact id) | (with_reducible exact Nat.le_refl _) | (with_reducible exact keepsO_none _) | (with_reducible exact keepsOP_none _) | (with_reducible apply keepsOP_some) | (with_reducible rfl) | (with_reducible refine keeps_foldl _ (fun _ _ _ => ?_) _ ?_) | (with_reducible apply keepsO_some) | (with_reducible apply keepsR_next) | (with_reducible apply keeps_writeY) | (with_reducible apply keeps_blockQuantise) | (with_reducible apply keeps_holdRows) | (with_reducible apply keeps_holdTile) | (with_reducible apply keeps_sendTile) | (fail_if_no_progress extract_lets) | split)

theorem keeps_drainRow (c : Nat) (f : Fire) (i : Inflight) {r s : State} (h : Keeps r s) : KeepsO r (drainRow c f i s) := by
  have hf : ∀ (m k x n : _) (t : Option State), KeepsO r t →
      KeepsO r (match t with | some q => some (giveOne (muUnit c m) x n (drainOn c k q)) | none => some (pause (drainUnit c) i s)) := by
    intro m k x n t ht
    cases t with
    | none => exact keepsO_some (keeps_pause _ _ h)
    | some q => exact keepsO_some (keeps_giveOne _ _ _ (keeps_drainOn _ _ ht))
  unfold drainRow
  dsimp only
  split
  · trivial
  · split
    · trivial
    · cases damperActive s.mem f (matAt s.mem f i.desc) i.desc with
      | none => trivial
      | some y => exact hf _ _ _ _ _ (keeps_drainTile _ _ _ _ _ _ _ h)
    · split
      · trivial
      · exact hf _ _ _ _ _ (keeps_drainTile _ _ _ _ _ _ _ (keeps_storeSet _ _ _ _ _ _ (keeps_dropSets _ _ h)))

theorem keeps_drainBlock (c : ℕ) (f : Fire) (i : Inflight) {r s : State} (h : Keeps r s) :
    KeepsO r (drainBlock c f i s) := by
  unfold drainBlock
  repeat' (first | with_reducible assumption | (with_reducible exact id) | (with_reducible exact Nat.le_refl _) | (with_reducible exact keepsO_none _) | (with_reducible exact keepsOP_none _) | (with_reducible apply keepsOP_some) | (with_reducible rfl) | (with_reducible refine keeps_foldl _ (fun _ _ _ => ?_) _ ?_) | (with_reducible apply keepsO_some) | (with_reducible apply keepsR_next) | (with_reducible apply keeps_giveOne) | (with_reducible apply keeps_drainOn) | (with_reducible apply keeps_dropSets) | (with_reducible apply keeps_drainChain) | (with_reducible apply keeps_holdRows) | (fail_if_no_progress extract_lets) | split)

theorem keeps_drainScores (c : ℕ) (f : Fire) (i : Inflight) {r s : State} (h : Keeps r s) :
    KeepsO r (drainScores c f i s) := by
  unfold drainScores
  repeat' (first | with_reducible assumption | (with_reducible exact id) | (with_reducible exact Nat.le_refl _) | (with_reducible exact keepsO_none _) | (with_reducible exact keepsOP_none _) | (with_reducible apply keepsOP_some) | (with_reducible rfl) | (with_reducible refine keeps_foldl _ (fun _ _ _ => ?_) _ ?_) | (with_reducible apply keepsO_some) | (with_reducible apply keepsR_next) | (with_reducible apply keeps_writeProbs) | (with_reducible apply keeps_giveOne) | (with_reducible apply keeps_drainOn) | (with_reducible apply keeps_dropSets) | (fail_if_no_progress extract_lets) | split)

theorem keeps_drainGang (c : ℕ) (f : Fire) (i : Inflight) {r s : State} (h : Keeps r s) :
    KeepsO r (drainGang c f i s) := by
  unfold drainGang
  repeat' (first | with_reducible assumption | (with_reducible exact id) | (with_reducible exact Nat.le_refl _) | (with_reducible exact keepsO_none _) | (with_reducible exact keepsOP_none _) | (with_reducible apply keepsOP_some) | (with_reducible rfl) | (with_reducible refine keeps_foldl _ (fun _ _ _ => ?_) _ ?_) | (with_reducible apply keepsO_some) | (with_reducible apply keepsR_next) | (with_reducible apply keeps_giveOne) | (with_reducible apply keeps_drainOn) | (with_reducible apply keeps_dropSets) | (with_reducible apply keeps_drainCells) | (fail_if_no_progress extract_lets) | split)

theorem keeps_drainStep (c : ℕ) {r s : State} (h : Keeps r s) :
    KeepsO r (drainStep c s) := by
  unfold drainStep
  repeat' (first | with_reducible assumption | (with_reducible exact id) | (with_reducible exact Nat.le_refl _) | (with_reducible exact keepsO_none _) | (with_reducible exact keepsOP_none _) | (with_reducible apply keepsOP_some) | (with_reducible rfl) | (with_reducible refine keeps_foldl _ (fun _ _ _ => ?_) _ ?_) | (with_reducible apply keepsO_some) | (with_reducible apply keepsR_next) | (with_reducible apply keeps_drainGang) | (with_reducible apply keeps_drainScores) | (with_reducible apply keeps_drainBlock) | (with_reducible apply keeps_drainRow) | (fail_if_no_progress extract_lets) | split)

theorem keeps_drainClose (c : ℕ) {r s : State} (h : Keeps r s) :
    KeepsO r (drainClose c s) := by
  unfold drainClose
  repeat' (first | with_reducible assumption | (with_reducible exact id) | (with_reducible exact Nat.le_refl _) | (with_reducible exact keepsO_none _) | (with_reducible exact keepsOP_none _) | (with_reducible apply keepsOP_some) | (with_reducible rfl) | (with_reducible refine keeps_foldl _ (fun _ _ _ => ?_) _ ?_) | (with_reducible apply keepsO_some) | (with_reducible apply keepsR_next) | (with_reducible apply keepsO_map; intro _ _) | (with_reducible apply keeps_State_updCore) | (with_reducible apply keeps_updFlight) | (with_reducible apply keeps_pushMerge) | (with_reducible apply keeps_doneStroke) | (fail_if_no_progress extract_lets) | split)

theorem keeps_chainStep (c : ℕ) {r s : State} (h : Keeps r s) :
    KeepsO r (chainStep c s) := by
  unfold chainStep
  repeat' (first | with_reducible assumption | (with_reducible exact id) | (with_reducible exact Nat.le_refl _) | (with_reducible exact keepsO_none _) | (with_reducible exact keepsOP_none _) | (with_reducible apply keepsOP_some) | (with_reducible rfl) | (with_reducible refine keeps_foldl _ (fun _ _ _ => ?_) _ ?_) | (with_reducible apply keepsO_some) | (with_reducible apply keepsR_next) | (with_reducible apply keepsO_map; intro _ _) | (with_reducible apply keeps_updFlight) | (with_reducible apply keeps_State_updCore) | (with_reducible apply keeps_runChain) | (with_reducible apply keeps_doneStroke) | (with_reducible apply keeps_pause) | (fail_if_no_progress extract_lets) | split)

theorem keeps_reduceStep (c : ℕ) {r s : State} (h : Keeps r s) :
    KeepsO r (reduceStep c s) := by
  unfold reduceStep
  repeat' (first | with_reducible assumption | (with_reducible exact id) | (with_reducible exact Nat.le_refl _) | (with_reducible exact keepsO_none _) | (with_reducible exact keepsOP_none _) | (with_reducible apply keepsOP_some) | (with_reducible rfl) | (with_reducible refine keeps_foldl _ (fun _ _ _ => ?_) _ ?_) | (with_reducible apply keepsO_some) | (with_reducible apply keepsR_next) | (with_reducible apply keepsO_map; intro _ _) | (with_reducible apply keeps_updFlight) | (with_reducible apply keeps_State_updCore) | (with_reducible apply keeps_runReduce) | (fail_if_no_progress extract_lets) | split)

theorem keeps_flowStep (c : Nat) {r s : State} (h : Keeps r s) : KeepsO r (flowStep c s) := by
  unfold flowStep
  have a := keeps_feedClose c h
  have b := fun mu => keeps_muStep c mu h
  have d := keeps_stageStep c h
  have e := keeps_drainStep c h
  have f := keeps_drainClose c h
  have g := keeps_reduceStep c h
  have i := keeps_chainStep c h
  split
  · exact keepsO_some (keepsO_get (by assumption) a)
  all_goals first | exact keepsO_some (keepsO_get (by assumption) (b _)) | skip
  · exact keepsO_some (keepsO_get (by assumption) d)
  · split
    · exact keepsO_some (keepsO_get (by assumption) e)
    · exact keepsO_some (keepsO_get (by assumption) f)
    · exact keepsO_some (keepsO_get (by assumption) g)
    · exact keepsO_some (keepsO_get (by assumption) i)
    · exact keeps_feedStep c h

theorem keeps_flow (cores : List Nat) (n : Nat) {r s : State} (h : Keeps r s) : Keeps r (flow cores n s) := by
  induction n generalizing s with
  | zero => exact h
  | succ n ih =>
    unfold flow
    split
    · exact h
    · split
      · rename_i e
        obtain ⟨c, _, hc⟩ := List.exists_of_findSome?_eq_some e
        exact ih (keepsO_get hc (keeps_flowStep c h))
      · exact h

theorem keeps_flowFrom (c : ℕ) {r s : State} (h : Keeps r s) :
    Keeps r (flowFrom c s) := by
  unfold flowFrom
  repeat' (first | with_reducible assumption | (with_reducible exact id) | (with_reducible exact Nat.le_refl _) | (with_reducible exact keepsO_none _) | (with_reducible exact keepsOP_none _) | (with_reducible apply keepsOP_some) | (with_reducible rfl) | (with_reducible refine keeps_foldl _ (fun _ _ _ => ?_) _ ?_) | (with_reducible apply keepsO_some) | (with_reducible apply keepsR_next) | (with_reducible apply keeps_flow))

theorem keeps_feedMmBody (c : ℕ) (b : BeatCtx) (x2 : ℕ) {r s : State} (h : Keeps r s) :
    Keeps r (feedMmBody c b x2 s) := by
  unfold feedMmBody
  repeat' (first | with_reducible assumption | (with_reducible exact id) | (with_reducible exact Nat.le_refl _) | (with_reducible exact keepsO_none _) | (with_reducible exact keepsOP_none _) | (with_reducible apply keepsOP_some) | (with_reducible rfl) | (with_reducible refine keeps_foldl _ (fun _ _ _ => ?_) _ ?_) | (with_reducible apply keepsO_some) | (with_reducible apply keepsR_next) | (with_reducible apply keeps_flowFrom) | (with_reducible apply keeps_countCore) | (with_reducible apply keeps_countReserved))

theorem keeps_execFeedMm (c : Fin 256) {r s : State} (h : Keeps r s) :
    KeepsR r (execFeedMm c s) := by
  unfold execFeedMm
  repeat' (first | with_reducible assumption | (with_reducible exact id) | (with_reducible exact Nat.le_refl _) | (with_reducible exact keepsO_none _) | (with_reducible exact keepsOP_none _) | (with_reducible apply keepsOP_some) | (with_reducible rfl) | (with_reducible refine keeps_foldl _ (fun _ _ _ => ?_) _ ?_) | (with_reducible apply keepsO_some) | (with_reducible apply keepsR_next) | (with_reducible refine keeps_runStroke _ _ _ _ (fun _ _ _ _ => ?_) ?_) | (with_reducible apply keeps_feedMmBody))

theorem keeps_feedGangBody (c : ℕ) (b : BeatCtx) (x2 : ℕ) {r s : State} (h : Keeps r s) :
    Keeps r (feedGangBody c b x2 s) := by
  unfold feedGangBody
  repeat' (first | with_reducible assumption | (with_reducible exact id) | (with_reducible exact Nat.le_refl _) | (with_reducible exact keepsO_none _) | (with_reducible exact keepsOP_none _) | (with_reducible apply keepsOP_some) | (with_reducible rfl) | (with_reducible refine keeps_foldl _ (fun _ _ _ => ?_) _ ?_) | (with_reducible apply keepsO_some) | (with_reducible apply keepsR_next) | (with_reducible apply keeps_flowFrom) | (with_reducible apply keeps_countReserved))

theorem keeps_execFeedGang (c : Fin 256) {r s : State} (h : Keeps r s) :
    KeepsR r (execFeedGang c s) := by
  unfold execFeedGang
  repeat' (first | with_reducible assumption | (with_reducible exact id) | (with_reducible exact Nat.le_refl _) | (with_reducible exact keepsO_none _) | (with_reducible exact keepsOP_none _) | (with_reducible apply keepsOP_some) | (with_reducible rfl) | (with_reducible refine keeps_foldl _ (fun _ _ _ => ?_) _ ?_) | (with_reducible apply keepsO_some) | (with_reducible apply keepsR_next) | (with_reducible refine keeps_runStroke _ _ _ _ (fun _ _ _ _ => ?_) ?_) | (with_reducible apply keeps_feedGangBody))

theorem keeps_feedWinBody (c : ℕ) (b : BeatCtx) (x2 : ℕ) {r s : State} (h : Keeps r s) :
    Keeps r (feedWinBody c b x2 s) := by
  unfold feedWinBody
  repeat' (first | with_reducible assumption | (with_reducible exact id) | (with_reducible exact Nat.le_refl _) | (with_reducible exact keepsO_none _) | (with_reducible exact keepsOP_none _) | (with_reducible apply keepsOP_some) | (with_reducible rfl) | (with_reducible refine keeps_foldl _ (fun _ _ _ => ?_) _ ?_) | (with_reducible apply keepsO_some) | (with_reducible apply keepsR_next) | (with_reducible apply keeps_flowFrom) | (with_reducible apply keeps_countReserved))

theorem keeps_execFeedWin (c : Fin 256) {r s : State} (h : Keeps r s) :
    KeepsR r (execFeedWin c s) := by
  unfold execFeedWin
  repeat' (first | with_reducible assumption | (with_reducible exact id) | (with_reducible exact Nat.le_refl _) | (with_reducible exact keepsO_none _) | (with_reducible exact keepsOP_none _) | (with_reducible apply keepsOP_some) | (with_reducible rfl) | (with_reducible refine keeps_foldl _ (fun _ _ _ => ?_) _ ?_) | (with_reducible apply keepsO_some) | (with_reducible apply keepsR_next) | (with_reducible refine keeps_runStroke _ _ _ _ (fun _ _ _ _ => ?_) ?_) | (with_reducible apply keeps_feedWinBody))

theorem keeps_feedAttnBody (c : ℕ) (b : BeatCtx) (x2 : ℕ) {r s : State} (h : Keeps r s) :
    Keeps r (feedAttnBody c b x2 s) := by
  unfold feedAttnBody
  repeat' (first | with_reducible assumption | (with_reducible exact id) | (with_reducible exact Nat.le_refl _) | (with_reducible exact keepsO_none _) | (with_reducible exact keepsOP_none _) | (with_reducible apply keepsOP_some) | (with_reducible rfl) | (with_reducible refine keeps_foldl _ (fun _ _ _ => ?_) _ ?_) | (with_reducible apply keepsO_some) | (with_reducible apply keepsR_next) | (with_reducible apply keeps_flowFrom) | (with_reducible apply keeps_countReserved))

theorem keeps_execFeedAttn (c : Fin 256) {r s : State} (h : Keeps r s) :
    KeepsR r (execFeedAttn c s) := by
  unfold execFeedAttn
  repeat' (first | with_reducible assumption | (with_reducible exact id) | (with_reducible exact Nat.le_refl _) | (with_reducible exact keepsO_none _) | (with_reducible exact keepsOP_none _) | (with_reducible apply keepsOP_some) | (with_reducible rfl) | (with_reducible refine keeps_foldl _ (fun _ _ _ => ?_) _ ?_) | (with_reducible apply keepsO_some) | (with_reducible apply keepsR_next) | (with_reducible refine keeps_runStroke _ _ _ _ (fun _ _ _ _ => ?_) ?_) | (with_reducible apply keeps_feedAttnBody))

theorem keeps_startMu (u : UnitId) (key : ℕ) (total : ℕ) {r s : State} (h : Keeps r s) :
    Keeps r (startMu u key total s) := by
  unfold startMu
  repeat' (first | with_reducible assumption | (with_reducible exact id) | (with_reducible exact Nat.le_refl _) | (with_reducible exact keepsO_none _) | (with_reducible exact keepsOP_none _) | (with_reducible apply keepsOP_some) | (with_reducible rfl) | (with_reducible refine keeps_foldl _ (fun _ _ _ => ?_) _ ?_) | (with_reducible apply keepsO_some) | (with_reducible apply keepsR_next) | (with_reducible apply keeps_doneStroke) | (fail_if_no_progress extract_lets) | split)

theorem keeps_mmBody (c : ℕ) (mu : ℕ) (b : BeatCtx) (key : ℕ) {r s : State} (h : Keeps r s) :
    Keeps r (mmBody c mu b key s) := by
  unfold mmBody
  repeat' (first | with_reducible assumption | (with_reducible exact id) | (with_reducible exact Nat.le_refl _) | (with_reducible exact keepsO_none _) | (with_reducible exact keepsOP_none _) | (with_reducible apply keepsOP_some) | (with_reducible rfl) | (with_reducible refine keeps_foldl _ (fun _ _ _ => ?_) _ ?_) | (with_reducible apply keepsO_some) | (with_reducible apply keepsR_next) | (with_reducible apply keeps_flowFrom) | (with_reducible apply keeps_startMu) | (with_reducible apply keeps_countReserved) | (with_reducible apply keeps_countCore) | (fail_if_no_progress extract_lets) | split)

theorem keeps_execMm (c : Fin 256) (mu : Fin 4) {r s : State} (h : Keeps r s) :
    KeepsR r (execMm c mu s) := by
  unfold execMm
  repeat' (first | with_reducible assumption | (with_reducible exact id) | (with_reducible exact Nat.le_refl _) | (with_reducible exact keepsO_none _) | (with_reducible exact keepsOP_none _) | (with_reducible apply keepsOP_some) | (with_reducible rfl) | (with_reducible refine keeps_foldl _ (fun _ _ _ => ?_) _ ?_) | (with_reducible apply keepsO_some) | (with_reducible apply keepsR_next) | (with_reducible refine keeps_runStroke _ _ _ _ (fun _ _ _ _ => ?_) ?_) | (with_reducible apply keeps_mmBody))

theorem keeps_gangBody (c : ℕ) (mu : ℕ) (b : BeatCtx) (key : ℕ) {r s : State} (h : Keeps r s) :
    Keeps r (gangBody c mu b key s) := by
  unfold gangBody
  repeat' (first | with_reducible assumption | (with_reducible exact id) | (with_reducible exact Nat.le_refl _) | (with_reducible exact keepsO_none _) | (with_reducible exact keepsOP_none _) | (with_reducible apply keepsOP_some) | (with_reducible rfl) | (with_reducible refine keeps_foldl _ (fun _ _ _ => ?_) _ ?_) | (with_reducible apply keepsO_some) | (with_reducible apply keepsR_next) | (with_reducible apply keeps_flowFrom) | (with_reducible apply keeps_startMu) | (with_reducible apply keeps_countReserved))

theorem keeps_execGang (c : Fin 256) (mu : Fin 4) {r s : State} (h : Keeps r s) :
    KeepsR r (execGang c mu s) := by
  unfold execGang
  repeat' (first | with_reducible assumption | (with_reducible exact id) | (with_reducible exact Nat.le_refl _) | (with_reducible exact keepsO_none _) | (with_reducible exact keepsOP_none _) | (with_reducible apply keepsOP_some) | (with_reducible rfl) | (with_reducible refine keeps_foldl _ (fun _ _ _ => ?_) _ ?_) | (with_reducible apply keepsO_some) | (with_reducible apply keepsR_next) | (with_reducible refine keeps_runStroke _ _ _ _ (fun _ _ _ _ => ?_) ?_) | (with_reducible apply keeps_gangBody))

theorem keeps_attnBody (c : ℕ) (mu : ℕ) (b : BeatCtx) (key : ℕ) {r s : State} (h : Keeps r s) :
    Keeps r (attnBody c mu b key s) := by
  unfold attnBody
  repeat' (first | with_reducible assumption | (with_reducible exact id) | (with_reducible exact Nat.le_refl _) | (with_reducible exact keepsO_none _) | (with_reducible exact keepsOP_none _) | (with_reducible apply keepsOP_some) | (with_reducible rfl) | (with_reducible refine keeps_foldl _ (fun _ _ _ => ?_) _ ?_) | (with_reducible apply keepsO_some) | (with_reducible apply keepsR_next) | (with_reducible apply keeps_flowFrom) | (with_reducible apply keeps_startMu) | (with_reducible apply keeps_countReserved))

theorem keeps_execAttn (c : Fin 256) (mu : Fin 4) {r s : State} (h : Keeps r s) :
    KeepsR r (execAttn c mu s) := by
  unfold execAttn
  repeat' (first | with_reducible assumption | (with_reducible exact id) | (with_reducible exact Nat.le_refl _) | (with_reducible exact keepsO_none _) | (with_reducible exact keepsOP_none _) | (with_reducible apply keepsOP_some) | (with_reducible rfl) | (with_reducible refine keeps_foldl _ (fun _ _ _ => ?_) _ ?_) | (with_reducible apply keepsO_some) | (with_reducible apply keepsR_next) | (with_reducible refine keeps_runStroke _ _ _ _ (fun _ _ _ _ => ?_) ?_) | (with_reducible apply keeps_attnBody))

theorem keeps_drainBody (c : ℕ) (x1 : BeatCtx) (x2 : ℕ) {r s : State} (h : Keeps r s) :
    Keeps r (drainBody c x1 x2 s) := by
  unfold drainBody
  repeat' (first | with_reducible assumption | (with_reducible exact id) | (with_reducible exact Nat.le_refl _) | (with_reducible exact keepsO_none _) | (with_reducible exact keepsOP_none _) | (with_reducible apply keepsOP_some) | (with_reducible rfl) | (with_reducible refine keeps_foldl _ (fun _ _ _ => ?_) _ ?_) | (with_reducible apply keepsO_some) | (with_reducible apply keepsR_next) | (with_reducible apply keeps_flowFrom))

theorem keeps_drainMmBody (c : ℕ) (b : BeatCtx) (key : ℕ) {r s : State} (h : Keeps r s) :
    Keeps r (drainMmBody c b key s) := by
  unfold drainMmBody
  repeat' (first | with_reducible assumption | (with_reducible exact id) | (with_reducible exact Nat.le_refl _) | (with_reducible exact keepsO_none _) | (with_reducible exact keepsOP_none _) | (with_reducible apply keepsOP_some) | (with_reducible rfl) | (with_reducible refine keeps_foldl _ (fun _ _ _ => ?_) _ ?_) | (with_reducible apply keepsO_some) | (with_reducible apply keepsR_next) | (with_reducible apply keeps_strikePeer) | (with_reducible apply keeps_drainBody) | (fail_if_no_progress extract_lets) | split)

theorem keeps_execDrainMm (c : Fin 256) {r s : State} (h : Keeps r s) :
    KeepsR r (execDrainMm c s) := by
  unfold execDrainMm
  repeat' (first | with_reducible assumption | (with_reducible exact id) | (with_reducible exact Nat.le_refl _) | (with_reducible exact keepsO_none _) | (with_reducible exact keepsOP_none _) | (with_reducible apply keepsOP_some) | (with_reducible rfl) | (with_reducible refine keeps_foldl _ (fun _ _ _ => ?_) _ ?_) | (with_reducible apply keepsO_some) | (with_reducible apply keepsR_next) | (with_reducible refine keeps_runStroke _ _ _ _ (fun _ _ _ _ => ?_) ?_) | (with_reducible apply keeps_drainMmBody))

theorem keeps_execDrainGang (c : Fin 256) {r s : State} (h : Keeps r s) :
    KeepsR r (execDrainGang c s) := by
  unfold execDrainGang
  repeat' (first | with_reducible assumption | (with_reducible exact id) | (with_reducible exact Nat.le_refl _) | (with_reducible exact keepsO_none _) | (with_reducible exact keepsOP_none _) | (with_reducible apply keepsOP_some) | (with_reducible rfl) | (with_reducible refine keeps_foldl _ (fun _ _ _ => ?_) _ ?_) | (with_reducible apply keepsO_some) | (with_reducible apply keepsR_next) | (with_reducible refine keeps_runStroke _ _ _ _ (fun _ _ _ _ => ?_) ?_) | (with_reducible apply keeps_drainBody))

theorem keeps_execDrainAttn (c : Fin 256) {r s : State} (h : Keeps r s) :
    KeepsR r (execDrainAttn c s) := by
  unfold execDrainAttn
  repeat' (first | with_reducible assumption | (with_reducible exact id) | (with_reducible exact Nat.le_refl _) | (with_reducible exact keepsO_none _) | (with_reducible exact keepsOP_none _) | (with_reducible apply keepsOP_some) | (with_reducible rfl) | (with_reducible refine keeps_foldl _ (fun _ _ _ => ?_) _ ?_) | (with_reducible apply keepsO_some) | (with_reducible apply keepsR_next) | (with_reducible refine keeps_runStroke _ _ _ _ (fun _ _ _ _ => ?_) ?_) | (with_reducible apply keeps_drainBody))

theorem keeps_chainBody (c : ℕ) (x1 : BeatCtx) (key : ℕ) {r s : State} (h : Keeps r s) :
    Keeps r (chainBody c x1 key s) := by
  unfold chainBody
  repeat' (first | with_reducible assumption | (with_reducible exact id) | (with_reducible exact Nat.le_refl _) | (with_reducible exact keepsO_none _) | (with_reducible exact keepsOP_none _) | (with_reducible apply keepsOP_some) | (with_reducible rfl) | (with_reducible refine keeps_foldl _ (fun _ _ _ => ?_) _ ?_) | (with_reducible apply keepsO_some) | (with_reducible apply keepsR_next) | (with_reducible apply keeps_flowFrom) | (with_reducible apply keeps_updFlight))

theorem keeps_execChain (c : Fin 256) {r s : State} (h : Keeps r s) :
    KeepsR r (execChain c s) := by
  unfold execChain
  repeat' (first | with_reducible assumption | (with_reducible exact id) | (with_reducible exact Nat.le_refl _) | (with_reducible exact keepsO_none _) | (with_reducible exact keepsOP_none _) | (with_reducible apply keepsOP_some) | (with_reducible rfl) | (with_reducible refine keeps_foldl _ (fun _ _ _ => ?_) _ ?_) | (with_reducible apply keepsO_some) | (with_reducible apply keepsR_next) | (with_reducible refine keeps_runStroke _ _ _ _ (fun _ _ _ _ => ?_) ?_) | (with_reducible apply keeps_chainBody))

theorem keeps_execReduce (c : Fin 256) {r s : State} (h : Keeps r s) :
    KeepsR r (execReduce c s) := by
  unfold execReduce
  repeat' (first | with_reducible assumption | (with_reducible exact id) | (with_reducible exact Nat.le_refl _) | (with_reducible exact keepsO_none _) | (with_reducible exact keepsOP_none _) | (with_reducible apply keepsOP_some) | (with_reducible rfl) | (with_reducible refine keeps_foldl _ (fun _ _ _ => ?_) _ ?_) | (with_reducible apply keepsO_some) | (with_reducible apply keepsR_next) | (with_reducible refine keeps_runStroke _ _ _ _ (fun _ _ _ _ => ?_) ?_) | (with_reducible apply keeps_flowFrom))

end Sys2Proof.Machine
end

