-- ==== Sys2Proof/Laws/KeepsCodec.lean ====
section
/-! SUPPORT. What the operations of Codec keep. -/
set_option linter.all false
namespace Sys2Proof.Machine

theorem keeps_State_updSession (h' : ℕ) (f : Session → Session) {r s : State} (h : Keeps r s) :
    Keeps r (State.updSession s h' f) := by
  unfold State.updSession
  repeat' (first | with_reducible assumption | (with_reducible exact id) | (with_reducible exact Nat.le_refl _) | (with_reducible exact keepsO_none _) | (with_reducible exact keepsOP_none _) | (with_reducible apply keepsOP_some) | (with_reducible rfl) | (with_reducible refine keeps_foldl _ (fun _ _ _ => ?_) _ ?_) | (with_reducible apply keepsO_some) | (with_reducible apply keepsR_next) | (fail_if_no_progress extract_lets) | split | (with_reducible apply Keeps.upd) | (with_reducible refine keepsO_get (by assumption) ?_) | (with_reducible refine keepsP_get (by assumption) ?_) | (with_reducible refine keepsQ_get (by assumption) ?_) | (with_reducible refine keepsOP_get (by assumption) ?_) | (intro hz; simp [hz]; done))

theorem keeps_State_updEngine (e : Engine) (f : EngineState → EngineState) {r s : State} (h : Keeps r s) :
    Keeps r (State.updEngine s e f) := by
  unfold State.updEngine
  repeat' (first | with_reducible assumption | (with_reducible exact id) | (with_reducible exact Nat.le_refl _) | (with_reducible exact keepsO_none _) | (with_reducible exact keepsOP_none _) | (with_reducible apply keepsOP_some) | (with_reducible rfl) | (with_reducible refine keeps_foldl _ (fun _ _ _ => ?_) _ ?_) | (with_reducible apply keepsO_some) | (with_reducible apply keepsR_next) | (fail_if_no_progress extract_lets) | split | (with_reducible apply Keeps.upd))

theorem keeps_writeContext (x : Session) {r s : State} (h : Keeps r s) :
    Keeps r (writeContext x s) := by
  unfold writeContext
  repeat' (first | with_reducible assumption | (with_reducible exact id) | (with_reducible exact Nat.le_refl _) | (with_reducible exact keepsO_none _) | (with_reducible exact keepsOP_none _) | (with_reducible apply keepsOP_some) | (with_reducible rfl) | (with_reducible refine keeps_foldl _ (fun _ _ _ => ?_) _ ?_) | (with_reducible apply keepsO_some) | (with_reducible apply keepsR_next) | (with_reducible apply keeps_guardedForget))

theorem keeps_unloadEngine (e : Engine) {r s : State} (h : Keeps r s) :
    Keeps r (unloadEngine e s) := by
  unfold unloadEngine
  repeat' (first | with_reducible assumption | (with_reducible exact id) | (with_reducible exact Nat.le_refl _) | (with_reducible exact keepsO_none _) | (with_reducible exact keepsOP_none _) | (with_reducible apply keepsOP_some) | (with_reducible rfl) | (with_reducible refine keeps_foldl _ (fun _ _ _ => ?_) _ ?_) | (with_reducible apply keepsO_some) | (with_reducible apply keepsR_next) | (with_reducible apply keeps_State_updEngine) | (with_reducible apply keeps_State_updSession) | (with_reducible apply keeps_writeContext) | (fail_if_no_progress extract_lets) | split)

theorem keeps_loadEngine (e : Engine) (h' : ℕ) (x : Session) {r s : State} (h : Keeps r s) :
    Keeps r (loadEngine e h' x s) := by
  unfold loadEngine
  repeat' (first | with_reducible assumption | (with_reducible exact id) | (with_reducible exact Nat.le_refl _) | (with_reducible exact keepsO_none _) | (with_reducible exact keepsOP_none _) | (with_reducible apply keepsOP_some) | (with_reducible rfl) | (with_reducible refine keeps_foldl _ (fun _ _ _ => ?_) _ ?_) | (with_reducible apply keepsO_some) | (with_reducible apply keepsR_next) | (with_reducible apply keeps_State_updEngine) | (with_reducible apply keeps_unloadEngine) | (fail_if_no_progress extract_lets) | split)

theorem keeps_commitFrame (x : Session) (c : Coding) {r s : State} (h : Keeps r s) :
    Keeps r (commitFrame x c s) := by
  unfold commitFrame
  repeat' (first | with_reducible assumption | (with_reducible exact id) | (with_reducible exact Nat.le_refl _) | (with_reducible exact keepsO_none _) | (with_reducible exact keepsOP_none _) | (with_reducible apply keepsOP_some) | (with_reducible rfl) | (with_reducible refine keeps_foldl _ (fun _ _ _ => ?_) _ ?_) | (with_reducible apply keepsO_some) | (with_reducible apply keepsR_next) | (with_reducible apply keeps_State_updEngine) | (with_reducible apply keeps_writeContext))

theorem keeps_encodeFrame (j : Job) (x : Session) (c : Coding) (d : EncDesc) {r s : State} (h : Keeps r s) :
    Keeps r (encodeFrame j x c d s) := by
  unfold encodeFrame
  repeat' (first | with_reducible assumption | (with_reducible exact id) | (with_reducible exact Nat.le_refl _) | (with_reducible exact keepsO_none _) | (with_reducible exact keepsOP_none _) | (with_reducible apply keepsOP_some) | (with_reducible rfl) | (with_reducible refine keeps_foldl _ (fun _ _ _ => ?_) _ ?_) | (with_reducible apply keepsO_some) | (with_reducible apply keepsR_next) | (with_reducible apply keeps_commitFrame) | (with_reducible apply keeps_unitWrite) | (fail_if_no_progress extract_lets) | split)

theorem keeps_decodeFrame (j : Job) (bar : ℕ) (descNo : ℕ) (x : Session) (c : Coding) (d : DecDesc) {r s : State} (h : Keeps r s) :
    Keeps r (decodeFrame j bar descNo x c d s) := by
  unfold decodeFrame
  repeat' (first | with_reducible assumption | (with_reducible exact id) | (with_reducible exact Nat.le_refl _) | (with_reducible exact keepsO_none _) | (with_reducible exact keepsOP_none _) | (with_reducible apply keepsOP_some) | (with_reducible rfl) | (with_reducible refine keeps_foldl _ (fun _ _ _ => ?_) _ ?_) | (with_reducible apply keepsO_some) | (with_reducible apply keepsR_next) | (with_reducible apply keeps_unitWrite) | (with_reducible apply keeps_commitFrame) | (with_reducible apply keeps_logError) | (with_reducible apply keeps_strikeRunning) | (fail_if_no_progress extract_lets) | split | (with_reducible apply Keeps.upd))

theorem keeps_codecBody (e : Engine) (b : BeatCtx) (key : ℕ) {r s : State} (h : Keeps r s) :
    Keeps r (codecBody e b key s) := by
  unfold codecBody
  repeat' (first | with_reducible assumption | (with_reducible exact id) | (with_reducible exact Nat.le_refl _) | (with_reducible exact keepsO_none _) | (with_reducible exact keepsOP_none _) | (with_reducible apply keepsOP_some) | (with_reducible rfl) | (with_reducible refine keeps_foldl _ (fun _ _ _ => ?_) _ ?_) | (with_reducible apply keepsO_some) | (with_reducible apply keepsR_next) | (with_reducible apply keeps_strikeRunning) | (with_reducible apply keeps_logError) | (with_reducible apply keeps_State_updEngine) | (fail_if_no_progress extract_lets) | split)

theorem keeps_execEncFrame  {r s : State} (h : Keeps r s) :
    KeepsR r (execEncFrame s) := by
  unfold execEncFrame
  repeat' (first | with_reducible assumption | (with_reducible exact id) | (with_reducible exact Nat.le_refl _) | (with_reducible exact keepsO_none _) | (with_reducible exact keepsOP_none _) | (with_reducible apply keepsOP_some) | (with_reducible rfl) | (with_reducible refine keeps_foldl _ (fun _ _ _ => ?_) _ ?_) | (with_reducible apply keepsO_some) | (with_reducible apply keepsR_next) | (with_reducible refine keeps_runStroke _ _ _ _ (fun _ _ _ _ => ?_) ?_) | (with_reducible apply keeps_codecBody))

theorem keeps_execDecFrame  {r s : State} (h : Keeps r s) :
    KeepsR r (execDecFrame s) := by
  unfold execDecFrame
  repeat' (first | with_reducible assumption | (with_reducible exact id) | (with_reducible exact Nat.le_refl _) | (with_reducible exact keepsO_none _) | (with_reducible exact keepsOP_none _) | (with_reducible apply keepsOP_some) | (with_reducible rfl) | (with_reducible refine keeps_foldl _ (fun _ _ _ => ?_) _ ?_) | (with_reducible apply keepsO_some) | (with_reducible apply keepsR_next) | (with_reducible refine keeps_runStroke _ _ _ _ (fun _ _ _ _ => ?_) ?_) | (with_reducible apply keeps_codecBody))

theorem keeps_serveFrame (e : Engine) {r s : State} (h : Keeps r s) :
    Keeps r (serveFrame e s) := by
  unfold serveFrame
  repeat' (first | with_reducible assumption | (with_reducible exact id) | (with_reducible exact Nat.le_refl _) | (with_reducible exact keepsO_none _) | (with_reducible exact keepsOP_none _) | (with_reducible apply keepsOP_some) | (with_reducible rfl) | (with_reducible refine keeps_foldl _ (fun _ _ _ => ?_) _ ?_) | (with_reducible apply keepsO_some) | (with_reducible apply keepsR_next) | (with_reducible apply keeps_State_updEngine) | (with_reducible apply keeps_loadEngine) | (with_reducible apply keeps_decodeFrame) | (with_reducible apply keeps_encodeFrame) | (with_reducible apply keeps_doneStroke) | (fail_if_no_progress extract_lets) | split)

theorem keeps_execCodecFrameDone (e : Engine) {r s : State} (h : Keeps r s) :
    KeepsR r (execCodecFrameDone e s) := by
  unfold execCodecFrameDone
  repeat' (first | with_reducible assumption | (with_reducible exact id) | (with_reducible exact Nat.le_refl _) | (with_reducible exact keepsO_none _) | (with_reducible exact keepsOP_none _) | (with_reducible apply keepsOP_some) | (with_reducible rfl) | (with_reducible refine keeps_foldl _ (fun _ _ _ => ?_) _ ?_) | (with_reducible apply keepsO_some) | (with_reducible apply keepsR_next) | (with_reducible apply keeps_serveFrame))

theorem keeps_closeSession (h' : ℕ) {r s : State} (h : Keeps r s) :
    Keeps r (closeSession h' s) := by
  unfold closeSession
  repeat' (first | with_reducible assumption | (with_reducible exact id) | (with_reducible exact Nat.le_refl _) | (with_reducible exact keepsO_none _) | (with_reducible exact keepsOP_none _) | (with_reducible apply keepsOP_some) | (with_reducible rfl) | (with_reducible refine keeps_foldl _ (fun _ _ _ => ?_) _ ?_) | (with_reducible apply keepsO_some) | (with_reducible apply keepsR_next) | (fail_if_no_progress extract_lets) | split | (with_reducible apply Keeps.upd) | (with_reducible refine keepsO_get (by assumption) ?_) | (with_reducible refine keepsP_get (by assumption) ?_) | (with_reducible refine keepsQ_get (by assumption) ?_) | (with_reducible refine keepsOP_get (by assumption) ?_) | (intro hz; simp [hz]; done))

theorem keeps_closeSessions (fn : ℕ) {r s : State} (h : Keeps r s) :
    Keeps r (closeSessions fn s) := by
  unfold closeSessions
  repeat' (first | with_reducible assumption | (with_reducible exact id) | (with_reducible exact Nat.le_refl _) | (with_reducible exact keepsO_none _) | (with_reducible exact keepsOP_none _) | (with_reducible apply keepsOP_some) | (with_reducible rfl) | (with_reducible refine keeps_foldl _ (fun _ _ _ => ?_) _ ?_) | (with_reducible apply keepsO_some) | (with_reducible apply keepsR_next) | (with_reducible apply keeps_closeSession) | (fail_if_no_progress extract_lets) | split)

end Sys2Proof.Machine
end

