-- ==== Sys2Proof/Laws/KeepsSched.lean ====
section
/-! SUPPORT. What the operations of Sched keep. -/
set_option linter.all false
namespace Sys2Proof.Machine

theorem keeps_noteReady  {r s : State} (h : Keeps r s) :
    Keeps r (noteReady s) := by
  unfold noteReady
  repeat' (first | with_reducible assumption | (with_reducible exact id) | (with_reducible exact Nat.le_refl _) | (with_reducible exact keepsO_none _) | (with_reducible exact keepsOP_none _) | (with_reducible apply keepsOP_some) | (with_reducible rfl) | (with_reducible refine keeps_foldl _ (fun _ _ _ => ?_) _ ?_) | (with_reducible apply keepsO_some) | (with_reducible apply keepsR_next) | (fail_if_no_progress extract_lets) | split | (with_reducible apply Keeps.upd))

theorem keeps_beginKernel (j : Job) (bar : ℕ) (loops : List LoopLevel) {r s : State} (h : Keeps r s) :
    Keeps r (beginKernel j bar loops s) := by
  unfold beginKernel
  repeat' (first | with_reducible assumption | (with_reducible exact id) | (with_reducible exact Nat.le_refl _) | (with_reducible exact keepsO_none _) | (with_reducible exact keepsOP_none _) | (with_reducible apply keepsOP_some) | (with_reducible rfl) | (with_reducible refine keeps_foldl _ (fun _ _ _ => ?_) _ ?_) | (with_reducible apply keepsO_some) | (with_reducible apply keepsR_next) | (with_reducible apply keeps_State_updJob) | (fail_if_no_progress extract_lets) | split | (with_reducible apply Keeps.upd) | (with_reducible refine keepsO_get (by assumption) ?_) | (with_reducible refine keepsP_get (by assumption) ?_) | (with_reducible refine keepsQ_get (by assumption) ?_) | (with_reducible refine keepsOP_get (by assumption) ?_) | (intro hz; simp [hz]; done))

theorem keeps_dropTiles  {r s : State} (h : Keeps r s) :
    Keeps r (dropTiles s) := by
  unfold dropTiles
  repeat' (first | with_reducible assumption | (with_reducible exact id) | (with_reducible exact Nat.le_refl _) | (with_reducible exact keepsO_none _) | (with_reducible exact keepsOP_none _) | (with_reducible apply keepsOP_some) | (with_reducible rfl) | (with_reducible refine keeps_foldl _ (fun _ _ _ => ?_) _ ?_) | (with_reducible apply keepsO_some) | (with_reducible apply keepsR_next) | (fail_if_no_progress extract_lets) | split | (with_reducible apply Keeps.upd) | (with_reducible refine keepsO_get (by assumption) ?_) | (with_reducible refine keepsP_get (by assumption) ?_) | (with_reducible refine keepsQ_get (by assumption) ?_) | (with_reducible refine keepsOP_get (by assumption) ?_) | (intro hz; simp [hz]; done))

theorem keeps_beginTurn (j : Job) (bar : ℕ) (loops : List LoopLevel) {r s : State} (h : Keeps r s) :
    Keeps r (beginTurn j bar loops s) := by
  unfold beginTurn
  repeat' (first | with_reducible assumption | (with_reducible exact id) | (with_reducible exact Nat.le_refl _) | (with_reducible exact keepsO_none _) | (with_reducible exact keepsOP_none _) | (with_reducible apply keepsOP_some) | (with_reducible rfl) | (with_reducible refine keeps_foldl _ (fun _ _ _ => ?_) _ ?_) | (with_reducible apply keepsO_some) | (with_reducible apply keepsR_next) | (with_reducible apply keeps_State_updJob) | (with_reducible apply keeps_beginKernel) | (with_reducible apply keeps_dropTiles))

theorem keeps_failStart (j : Job) (f : StartFault) {r s : State} (h : Keeps r s) :
    Keeps r (failStart j f s) := by
  unfold failStart
  repeat' (first | with_reducible assumption | (with_reducible exact id) | (with_reducible exact Nat.le_refl _) | (with_reducible exact keepsO_none _) | (with_reducible exact keepsOP_none _) | (with_reducible apply keepsOP_some) | (with_reducible rfl) | (with_reducible refine keeps_foldl _ (fun _ _ _ => ?_) _ ?_) | (with_reducible apply keepsO_some) | (with_reducible apply keepsR_next) | (with_reducible apply keeps_freeUnits) | (with_reducible apply keeps_endJob) | (with_reducible apply keeps_logError) | (with_reducible apply keeps_abortGroups) | (fail_if_no_progress extract_lets) | split)

theorem keeps_failSwapJob (j : Job) {r s : State} (h : Keeps r s) :
    Keeps r (failSwapJob j s) := by
  unfold failSwapJob
  repeat' (first | with_reducible assumption | (with_reducible exact id) | (with_reducible exact Nat.le_refl _) | (with_reducible exact keepsO_none _) | (with_reducible exact keepsOP_none _) | (with_reducible apply keepsOP_some) | (with_reducible rfl) | (with_reducible refine keeps_foldl _ (fun _ _ _ => ?_) _ ?_) | (with_reducible apply keepsO_some) | (with_reducible apply keepsR_next) | (with_reducible apply keeps_freeUnits) | (with_reducible apply keeps_endJob) | (with_reducible apply keeps_dropHeld) | (with_reducible apply keeps_releaseSave) | (with_reducible apply keeps_logError))

theorem keeps_beginWait (id : ℕ) (st : JobStage) {r s : State} (h : Keeps r s) :
    Keeps r (beginWait id st s) := by
  unfold beginWait
  repeat' (first | with_reducible assumption | (with_reducible exact id) | (with_reducible exact Nat.le_refl _) | (with_reducible exact keepsO_none _) | (with_reducible exact keepsOP_none _) | (with_reducible apply keepsOP_some) | (with_reducible rfl) | (with_reducible refine keeps_foldl _ (fun _ _ _ => ?_) _ ?_) | (with_reducible apply keepsO_some) | (with_reducible apply keepsR_next) | (with_reducible apply keeps_State_updJob))

theorem keeps_startJob (j : Job) {r s : State} (h : Keeps r s) :
    Keeps r (startJob j s) := by
  unfold startJob
  repeat' (first | with_reducible assumption | (with_reducible exact id) | (with_reducible exact Nat.le_refl _) | (with_reducible exact keepsO_none _) | (with_reducible exact keepsOP_none _) | (with_reducible apply keepsOP_some) | (with_reducible rfl) | (with_reducible refine keeps_foldl _ (fun _ _ _ => ?_) _ ?_) | (with_reducible apply keepsO_some) | (with_reducible apply keepsR_next) | (with_reducible apply keeps_State_updJob) | (with_reducible apply keeps_failStart) | (with_reducible apply keeps_beginWait) | (fail_if_no_progress extract_lets) | split | (with_reducible apply Keeps.upd))

theorem keeps_resumeJob (j : Job) {r s : State} (h : Keeps r s) :
    Keeps r (resumeJob j s) := by
  unfold resumeJob
  repeat' (first | with_reducible assumption | (with_reducible exact id) | (with_reducible exact Nat.le_refl _) | (with_reducible exact keepsO_none _) | (with_reducible exact keepsOP_none _) | (with_reducible apply keepsOP_some) | (with_reducible rfl) | (with_reducible refine keeps_foldl _ (fun _ _ _ => ?_) _ ?_) | (with_reducible apply keepsO_some) | (with_reducible apply keepsR_next) | (with_reducible apply keeps_beginWait) | (with_reducible apply keeps_beginTurn) | (fail_if_no_progress extract_lets) | split | (with_reducible apply Keeps.upd))

theorem keeps_serve (j : Job) {r s : State} (h : Keeps r s) :
    Keeps r (serve j s) := by
  unfold serve
  repeat' (first | with_reducible assumption | (with_reducible exact id) | (with_reducible exact Nat.le_refl _) | (with_reducible exact keepsO_none _) | (with_reducible exact keepsOP_none _) | (with_reducible apply keepsOP_some) | (with_reducible rfl) | (with_reducible refine keeps_foldl _ (fun _ _ _ => ?_) _ ?_) | (with_reducible apply keepsO_some) | (with_reducible apply keepsR_next) | (with_reducible apply keeps_startJob) | (with_reducible apply keeps_resumeJob) | (fail_if_no_progress extract_lets) | split | (with_reducible apply Keeps.upd))

theorem keeps_switchAway (j : Job) {r s : State} (h : Keeps r s) :
    Keeps r (switchAway j s) := by
  unfold switchAway
  repeat' (first | with_reducible assumption | (with_reducible exact id) | (with_reducible exact Nat.le_refl _) | (with_reducible exact keepsO_none _) | (with_reducible exact keepsOP_none _) | (with_reducible apply keepsOP_some) | (with_reducible rfl) | (with_reducible refine keeps_foldl _ (fun _ _ _ => ?_) _ ?_) | (with_reducible apply keepsO_some) | (with_reducible apply keepsR_next) | (with_reducible apply keeps_State_updJob) | (fail_if_no_progress extract_lets) | split | (with_reducible apply Keeps.upd))

theorem keeps_decideOnce {r s : State} (h : Keeps r s) : Keeps r (decideOnce s).1 := by
  unfold decideOnce
  split
  · split
    · exact keeps_serve _ h
    · exact h
  · split
    · exact h
    · split
      · exact h
      · extract_lets lj other
        clear_value other
        split
        · exact keeps_serve _ (keeps_switchAway _ h)
        · split
          · exact h
          · split
            · exact keeps_beginKernel _ _ _ h
            · split
              · exact keeps_resumeJob _ h
              · exact keeps_switchAway _ h

theorem keeps_decideAll (n : Nat) {r s : State} (h : Keeps r s) : Keeps r (decideAll n s) := by
  induction n generalizing s with
  | zero => exact h
  | succ n ih =>
    have hd := keeps_decideOnce h
    unfold decideAll
    split
    · exact h
    · split
      · rename_i e
        exact ih (keepsP_get e hd)
      · rename_i e
        exact keepsP_get e hd

theorem keeps_settle  {r s : State} (h : Keeps r s) :
    Keeps r (settle s) := by
  unfold settle
  repeat' (first | with_reducible assumption | (with_reducible exact id) | (with_reducible exact Nat.le_refl _) | (with_reducible exact keepsO_none _) | (with_reducible exact keepsOP_none _) | (with_reducible apply keepsOP_some) | (with_reducible rfl) | (with_reducible refine keeps_foldl _ (fun _ _ _ => ?_) _ ?_) | (with_reducible apply keepsO_some) | (with_reducible apply keepsR_next) | (with_reducible apply keeps_sendCredits) | (with_reducible apply keeps_offerWaiting) | (with_reducible apply keeps_restClocks) | (with_reducible apply keeps_noteReady) | (with_reducible apply keeps_decideAll))

end Sys2Proof.Machine
end

