-- ==== Sys2Proof/Laws/KeepsJobs.lean ====
section
/-! SUPPORT. What the operations of Jobs keep. -/
set_option linter.all false
namespace Sys2Proof.Machine

theorem keeps_takeSubmission (fn : ℕ) (q : ℕ) (x : Submission) {r s : State} (h : Keeps r s) :
    Keeps r (takeSubmission fn q s x) := by
  unfold takeSubmission
  repeat' (first | with_reducible assumption | (with_reducible exact id) | (with_reducible exact Nat.le_refl _) | (with_reducible exact keepsO_none _) | (with_reducible exact keepsOP_none _) | (with_reducible apply keepsOP_some) | (with_reducible rfl) | (with_reducible refine keeps_foldl _ (fun _ _ _ => ?_) _ ?_) | (with_reducible apply keepsO_some) | (with_reducible apply keepsR_next) | (with_reducible apply keeps_State_updFunc) | (with_reducible apply keeps_endResting) | (with_reducible apply keeps_abortGroups) | (fail_if_no_progress extract_lets) | split | (with_reducible apply Keeps.upd))

theorem keeps_ringSubmit (fn : ℕ) (value : DWord) (subs : List Submission) {r s : State} (h : Keeps r s) :
    Keeps r (ringSubmit fn value subs s) := by
  unfold ringSubmit
  repeat' (first | with_reducible assumption | (with_reducible exact id) | (with_reducible exact Nat.le_refl _) | (with_reducible exact keepsO_none _) | (with_reducible exact keepsOP_none _) | (with_reducible apply keepsOP_some) | (with_reducible rfl) | (with_reducible refine keeps_foldl _ (fun _ _ _ => ?_) _ ?_) | (with_reducible apply keepsO_some) | (with_reducible apply keepsR_next) | (with_reducible apply keeps_logMisuse) | (with_reducible apply keeps_State_updQueue) | (with_reducible apply keeps_settle) | (with_reducible apply keeps_takeSubmission) | (fail_if_no_progress extract_lets) | split)

theorem keeps_ringRelease (fn : ℕ) (value : DWord) {r s : State} (h : Keeps r s) :
    Keeps r (ringRelease fn value s) := by
  unfold ringRelease
  repeat' (first | with_reducible assumption | (with_reducible exact id) | (with_reducible exact Nat.le_refl _) | (with_reducible exact keepsO_none _) | (with_reducible exact keepsOP_none _) | (with_reducible apply keepsOP_some) | (with_reducible rfl) | (with_reducible refine keeps_foldl _ (fun _ _ _ => ?_) _ ?_) | (with_reducible apply keepsO_some) | (with_reducible apply keepsR_next) | (with_reducible apply keeps_logMisuse) | (with_reducible apply keeps_settle) | (with_reducible apply keeps_drainRecords) | (with_reducible apply keeps_State_updQueue) | (fail_if_no_progress extract_lets) | split)

theorem keeps_execFetchArrival (u : UnitId) {r s : State} (h : Keeps r s) :
    KeepsR r (execFetchArrival u s) := by
  unfold execFetchArrival
  repeat' (first | with_reducible assumption | (with_reducible exact id) | (with_reducible exact Nat.le_refl _) | (with_reducible exact keepsO_none _) | (with_reducible exact keepsOP_none _) | (with_reducible apply keepsOP_some) | (with_reducible rfl) | (with_reducible refine keeps_foldl _ (fun _ _ _ => ?_) _ ?_) | (with_reducible apply keepsO_some) | (with_reducible apply keepsR_next) | (with_reducible apply keeps_fetchOnce) | (fail_if_no_progress extract_lets) | split)

theorem keeps_flowAfter (u : UnitId) {r s : State} (h : Keeps r s) :
    Keeps r (flowAfter u s) := by
  unfold flowAfter
  repeat' (first | with_reducible assumption | (with_reducible exact id) | (with_reducible exact Nat.le_refl _) | (with_reducible exact keepsO_none _) | (with_reducible exact keepsOP_none _) | (with_reducible apply keepsOP_some) | (with_reducible rfl) | (with_reducible refine keeps_foldl _ (fun _ _ _ => ?_) _ ?_) | (with_reducible apply keepsO_some) | (with_reducible apply keepsR_next) | (with_reducible apply keeps_flowFrom) | (fail_if_no_progress extract_lets) | split)

theorem keeps_execStrokeComplete (u : UnitId) (slot : ℕ) {r s : State} (h : Keeps r s) :
    KeepsR r (execStrokeComplete u slot s) := by
  unfold execStrokeComplete
  repeat' (first | with_reducible assumption | (with_reducible exact id) | (with_reducible exact Nat.le_refl _) | (with_reducible exact keepsO_none _) | (with_reducible exact keepsOP_none _) | (with_reducible apply keepsOP_some) | (with_reducible rfl) | (with_reducible refine keeps_foldl _ (fun _ _ _ => ?_) _ ?_) | (with_reducible apply keepsO_some) | (with_reducible apply keepsR_next) | (with_reducible apply keeps_flowAfter) | (with_reducible apply keeps_completeStroke) | (fail_if_no_progress extract_lets) | split)

theorem keeps_postNotify (j : Job) (key : ℕ) (imm : ℕ) (bar : ℕ) (loops : List ℕ) {r s : State} (h : Keeps r s) :
    Keeps r (postNotify j key imm bar loops s) := by
  unfold postNotify
  repeat' (first | with_reducible assumption | (with_reducible exact id) | (with_reducible exact Nat.le_refl _) | (with_reducible exact keepsO_none _) | (with_reducible exact keepsOP_none _) | (with_reducible apply keepsOP_some) | (with_reducible rfl) | (with_reducible refine keeps_foldl _ (fun _ _ _ => ?_) _ ?_) | (with_reducible apply keepsO_some) | (with_reducible apply keepsR_next) | (with_reducible apply keeps_doneStroke) | (with_reducible apply keeps_setPhase) | (with_reducible apply keeps_postRecord) | (fail_if_no_progress extract_lets) | split)

theorem keeps_notifyBody (b : BeatCtx) (key : ℕ) {r s : State} (h : Keeps r s) :
    Keeps r (notifyBody b key s) := by
  unfold notifyBody
  repeat' (first | with_reducible assumption | (with_reducible exact id) | (with_reducible exact Nat.le_refl _) | (with_reducible exact keepsO_none _) | (with_reducible exact keepsOP_none _) | (with_reducible apply keepsOP_some) | (with_reducible rfl) | (with_reducible refine keeps_foldl _ (fun _ _ _ => ?_) _ ?_) | (with_reducible apply keepsO_some) | (with_reducible apply keepsR_next) | (with_reducible apply keeps_postNotify))

theorem keeps_resumeNotify (x0 : UnitId) (i : Inflight) {r s : State} (h : Keeps r s) :
    Keeps r (resumeNotify x0 i s) := by
  unfold resumeNotify
  repeat' (first | with_reducible assumption | (with_reducible exact id) | (with_reducible exact Nat.le_refl _) | (with_reducible exact keepsO_none _) | (with_reducible exact keepsOP_none _) | (with_reducible apply keepsOP_some) | (with_reducible rfl) | (with_reducible refine keeps_foldl _ (fun _ _ _ => ?_) _ ?_) | (with_reducible apply keepsO_some) | (with_reducible apply keepsR_next) | (with_reducible apply keeps_postNotify) | (fail_if_no_progress extract_lets) | split)

theorem keeps_execNotify  {r s : State} (h : Keeps r s) :
    KeepsR r (execNotify s) := by
  unfold execNotify
  repeat' (first | with_reducible assumption | (with_reducible exact id) | (with_reducible exact Nat.le_refl _) | (with_reducible exact keepsO_none _) | (with_reducible exact keepsOP_none _) | (with_reducible apply keepsOP_some) | (with_reducible rfl) | (with_reducible refine keeps_foldl _ (fun _ _ _ => ?_) _ ?_) | (with_reducible apply keepsO_some) | (with_reducible apply keepsR_next) | (with_reducible refine keeps_runStroke _ _ _ _ (fun _ _ _ _ => ?_) ?_) | (with_reducible apply keeps_notifyBody))

theorem keeps_resumeCore (u : UnitId) (i : Inflight) {r s : State} (h : Keeps r s) :
    Keeps r (resumeCore u i s) := by
  unfold resumeCore
  repeat' (first | with_reducible assumption | (with_reducible exact id) | (with_reducible exact Nat.le_refl _) | (with_reducible exact keepsO_none _) | (with_reducible exact keepsOP_none _) | (with_reducible apply keepsOP_some) | (with_reducible rfl) | (with_reducible refine keeps_foldl _ (fun _ _ _ => ?_) _ ?_) | (with_reducible apply keepsO_some) | (with_reducible apply keepsR_next) | (with_reducible apply keeps_flowFrom) | (with_reducible apply keeps_resumeSend) | (fail_if_no_progress extract_lets) | split)

theorem keeps_resumeStroke (u : UnitId) (i : Inflight) {r s : State} (h : Keeps r s) :
    Keeps r (resumeStroke u i s) := by
  unfold resumeStroke
  repeat' (first | with_reducible assumption | (with_reducible exact id) | (with_reducible exact Nat.le_refl _) | (with_reducible exact keepsO_none _) | (with_reducible exact keepsOP_none _) | (with_reducible apply keepsOP_some) | (with_reducible rfl) | (with_reducible refine keeps_foldl _ (fun _ _ _ => ?_) _ ?_) | (with_reducible apply keepsO_some) | (with_reducible apply keepsR_next) | (with_reducible apply keeps_resumeNotify) | (with_reducible apply keeps_openWindow) | (with_reducible apply keeps_setPhase) | (with_reducible apply keeps_resumeSend) | (with_reducible apply keeps_resumeCore) | (fail_if_no_progress extract_lets) | split)

theorem keeps_execStrokeResume (u : UnitId) (slot : ℕ) {r s : State} (h : Keeps r s) :
    KeepsR r (execStrokeResume u slot s) := by
  unfold execStrokeResume
  repeat' (first | with_reducible assumption | (with_reducible exact id) | (with_reducible exact Nat.le_refl _) | (with_reducible exact keepsO_none _) | (with_reducible exact keepsOP_none _) | (with_reducible apply keepsOP_some) | (with_reducible rfl) | (with_reducible refine keeps_foldl _ (fun _ _ _ => ?_) _ ?_) | (with_reducible apply keepsO_some) | (with_reducible apply keepsR_next) | (with_reducible apply keeps_resumeStroke) | (fail_if_no_progress extract_lets) | split)

theorem keeps_parkAtBreak (j : Job) {r s : State} (h : Keeps r s) :
    Keeps r (parkAtBreak j s) := by
  unfold parkAtBreak
  repeat' (first | with_reducible assumption | (with_reducible exact id) | (with_reducible exact Nat.le_refl _) | (with_reducible exact keepsO_none _) | (with_reducible exact keepsOP_none _) | (with_reducible apply keepsOP_some) | (with_reducible rfl) | (with_reducible refine keeps_foldl _ (fun _ _ _ => ?_) _ ?_) | (with_reducible apply keepsO_some) | (with_reducible apply keepsR_next) | (with_reducible apply keeps_State_updJob))

theorem keeps_strikeState (j : Job) {r s : State} (h : Keeps r s) :
    Keeps r (strikeState s j) := by
  unfold strikeState
  repeat' (first | with_reducible assumption | (with_reducible exact id) | (with_reducible exact Nat.le_refl _) | (with_reducible exact keepsO_none _) | (with_reducible exact keepsOP_none _) | (with_reducible apply keepsOP_some) | (with_reducible rfl) | (with_reducible refine keeps_foldl _ (fun _ _ _ => ?_) _ ?_) | (with_reducible apply keepsO_some) | (with_reducible apply keepsR_next) | (with_reducible apply keeps_strikeJob) | (with_reducible apply keeps_logError))

theorem keeps_reachBreak (j : Job) {r s : State} (h : Keeps r s) :
    Keeps r (reachBreak j s) := by
  unfold reachBreak
  repeat' (first | with_reducible assumption | (with_reducible exact id) | (with_reducible exact Nat.le_refl _) | (with_reducible exact keepsO_none _) | (with_reducible exact keepsOP_none _) | (with_reducible apply keepsOP_some) | (with_reducible rfl) | (with_reducible refine keeps_foldl _ (fun _ _ _ => ?_) _ ?_) | (with_reducible apply keepsO_some) | (with_reducible apply keepsR_next) | (with_reducible apply keeps_parkAtBreak) | (with_reducible apply keeps_strikeState) | (fail_if_no_progress extract_lets) | split)

theorem keeps_execKernelComplete  {r s : State} (h : Keeps r s) :
    KeepsR r (execKernelComplete s) := by
  unfold execKernelComplete
  repeat' (first | with_reducible assumption | (with_reducible exact id) | (with_reducible exact Nat.le_refl _) | (with_reducible exact keepsO_none _) | (with_reducible exact keepsOP_none _) | (with_reducible apply keepsOP_some) | (with_reducible rfl) | (with_reducible refine keeps_foldl _ (fun _ _ _ => ?_) _ ?_) | (with_reducible apply keepsO_some) | (with_reducible apply keepsR_next) | (with_reducible apply keeps_settle) | (with_reducible apply keeps_reachBreak) | (fail_if_no_progress extract_lets) | split)

theorem keeps_leaveUnits (j : Job) {r s : State} (h : Keeps r s) :
    Keeps r (leaveUnits j s) := by
  unfold leaveUnits
  repeat' (first | with_reducible assumption | (with_reducible exact id) | (with_reducible exact Nat.le_refl _) | (with_reducible exact keepsO_none _) | (with_reducible exact keepsOP_none _) | (with_reducible apply keepsOP_some) | (with_reducible rfl) | (with_reducible refine keeps_foldl _ (fun _ _ _ => ?_) _ ?_) | (with_reducible apply keepsO_some) | (with_reducible apply keepsR_next) | (with_reducible apply keeps_State_updJob) | (with_reducible apply keeps_closeWindows) | (with_reducible apply keeps_idleUnits) | (with_reducible apply keeps_freeUnits) | (fail_if_no_progress extract_lets) | split | (with_reducible apply Keeps.upd))

theorem keeps_keepDownbeat (before : State) {r s : State} (h : Keeps r s) : Keeps r (keepDownbeat before s) := by
  unfold keepDownbeat
  split
  · exact Keeps.upd h id id id id id id id id id id id id id id id id id rfl rfl rfl rfl (le_refl _)
  · exact h

theorem keeps_execJobHaltComplete  {r s : State} (h : Keeps r s) :
    KeepsR r (execJobHaltComplete s) := by
  unfold execJobHaltComplete
  repeat' (first | with_reducible assumption | (with_reducible exact id) | (with_reducible exact Nat.le_refl _) | (with_reducible exact keepsO_none _) | (with_reducible exact keepsOP_none _) | (with_reducible apply keepsOP_some) | (with_reducible rfl) | (with_reducible refine keeps_foldl _ (fun _ _ _ => ?_) _ ?_) | (with_reducible apply keepsO_some) | (with_reducible apply keepsR_next) | (with_reducible apply keeps_settle) | (with_reducible refine keeps_keepDownbeat _ ?_) | (with_reducible apply keeps_leaveUnits) | (fail_if_no_progress extract_lets) | split)

theorem keeps_execInputDigestsDone  {r s : State} (h : Keeps r s) :
    KeepsR r (execInputDigestsDone s) := by
  unfold execInputDigestsDone
  repeat' (first | with_reducible assumption | (with_reducible exact id) | (with_reducible exact Nat.le_refl _) | (with_reducible exact keepsO_none _) | (with_reducible exact keepsOP_none _) | (with_reducible apply keepsOP_some) | (with_reducible rfl) | (with_reducible refine keeps_foldl _ (fun _ _ _ => ?_) _ ?_) | (with_reducible apply keepsO_some) | (with_reducible apply keepsR_next) | (with_reducible apply keeps_State_updJob) | (with_reducible apply keeps_beginTurn) | (fail_if_no_progress extract_lets) | split)

theorem keeps_signBytes (ctx : String) (msg : List Byte) {r s : State} (h : Keeps r s) :
    Keeps r (signBytes ctx msg s).2 := by
  unfold signBytes
  repeat' (first | with_reducible assumption | (with_reducible exact id) | (with_reducible exact Nat.le_refl _) | (with_reducible exact keepsO_none _) | (with_reducible exact keepsOP_none _) | (with_reducible apply keepsOP_some) | (with_reducible rfl) | (with_reducible refine keeps_foldl _ (fun _ _ _ => ?_) _ ?_) | (with_reducible apply keepsO_some) | (with_reducible apply keepsR_next) | (fail_if_no_progress extract_lets) | split | (with_reducible apply Keeps.upd))

theorem keeps_endOk (j : Job) {r s : State} (h : Keeps r s) :
    Keeps r (endOk j s) := by
  unfold endOk
  repeat' (first | with_reducible assumption | (with_reducible exact id) | (with_reducible exact Nat.le_refl _) | (with_reducible exact keepsO_none _) | (with_reducible exact keepsOP_none _) | (with_reducible apply keepsOP_some) | (with_reducible rfl) | (with_reducible refine keeps_foldl _ (fun _ _ _ => ?_) _ ?_) | (with_reducible apply keepsO_some) | (with_reducible apply keepsR_next) | (with_reducible apply keeps_endJob))

theorem keeps_execOutputDigestsDone  {r s : State} (h : Keeps r s) :
    KeepsR r (execOutputDigestsDone s) := by
  unfold execOutputDigestsDone
  repeat' (first | with_reducible assumption | (with_reducible exact id) | (with_reducible exact Nat.le_refl _) | (with_reducible exact keepsO_none _) | (with_reducible exact keepsOP_none _) | (with_reducible apply keepsOP_some) | (with_reducible rfl) | (with_reducible refine keeps_foldl _ (fun _ _ _ => ?_) _ ?_) | (with_reducible apply keepsO_some) | (with_reducible apply keepsR_next) | (with_reducible apply keeps_guardedWrite) | (with_reducible apply keeps_State_updJob) | (with_reducible apply keeps_settle) | (with_reducible apply keeps_endOk) | (fail_if_no_progress extract_lets) | split | (with_reducible apply Keeps.upd))

theorem keeps_execBatchClose  {r s : State} (h : Keeps r s) :
    KeepsR r (execBatchClose s) := by
  unfold execBatchClose
  repeat' (first | with_reducible assumption | (with_reducible exact id) | (with_reducible exact Nat.le_refl _) | (with_reducible exact keepsO_none _) | (with_reducible exact keepsOP_none _) | (with_reducible apply keepsOP_some) | (with_reducible rfl) | (with_reducible refine keeps_foldl _ (fun _ _ _ => ?_) _ ?_) | (with_reducible apply keepsO_some) | (with_reducible apply keepsR_next) | (fail_if_no_progress extract_lets) | split | (with_reducible apply Keeps.upd))

theorem keeps_finishLeaf (sig : List Byte) (seq : ℕ) (leaves : List Digest) (p : ℕ × ℕ) {r s : State} (h : Keeps r s) :
    Keeps r (finishLeaf sig seq leaves s p) := by
  unfold finishLeaf
  repeat' (first | with_reducible assumption | (with_reducible exact id) | (with_reducible exact Nat.le_refl _) | (with_reducible exact keepsO_none _) | (with_reducible exact keepsOP_none _) | (with_reducible apply keepsOP_some) | (with_reducible rfl) | (with_reducible refine keeps_foldl _ (fun _ _ _ => ?_) _ ?_) | (with_reducible apply keepsO_some) | (with_reducible apply keepsR_next) | (with_reducible apply keeps_guardedWrite) | (with_reducible apply keeps_endOk) | (fail_if_no_progress extract_lets) | split)

theorem keeps_beginAreaWait (js : List Job) {r s : State} (h : Keeps r s) :
    Keeps r (beginAreaWait js s) := by
  unfold beginAreaWait
  repeat' (first | with_reducible assumption | (with_reducible exact id) | (with_reducible exact Nat.le_refl _) | (with_reducible exact keepsO_none _) | (with_reducible exact keepsOP_none _) | (with_reducible apply keepsOP_some) | (with_reducible rfl) | (with_reducible refine keeps_foldl _ (fun _ _ _ => ?_) _ ?_) | (with_reducible apply keepsO_some) | (with_reducible apply keepsR_next) | (with_reducible apply keeps_beginWait) | (fail_if_no_progress extract_lets) | split)

theorem keeps_finishQuote (fn : ℕ) (tag : Word) (addr : ℕ) (nonce : ℕ) {r s : State} (h : Keeps r s) :
    Keeps r (finishQuote fn tag addr nonce s) := by
  unfold finishQuote
  repeat' (first | with_reducible assumption | (with_reducible exact id) | (with_reducible exact Nat.le_refl _) | (with_reducible exact keepsO_none _) | (with_reducible exact keepsOP_none _) | (with_reducible apply keepsOP_some) | (with_reducible rfl) | (with_reducible refine keeps_foldl _ (fun _ _ _ => ?_) _ ?_) | (with_reducible apply keepsO_some) | (with_reducible apply keepsR_next) | (with_reducible apply keeps_signBytes) | (with_reducible apply keeps_nextTurn) | (with_reducible apply keeps_respond) | (with_reducible apply keeps_hostWrite) | (fail_if_no_progress extract_lets) | split | (with_reducible apply Keeps.upd))

theorem keeps_execBodySigned  {r s : State} (h : Keeps r s) :
    KeepsR r (execBodySigned s) := by
  unfold execBodySigned
  repeat' (first | with_reducible assumption | (with_reducible exact id) | (with_reducible exact Nat.le_refl _) | (with_reducible exact keepsO_none _) | (with_reducible exact keepsOP_none _) | (with_reducible apply keepsOP_some) | (with_reducible rfl) | (with_reducible refine keeps_foldl _ (fun _ _ _ => ?_) _ ?_) | (with_reducible apply keepsO_some) | (with_reducible apply keepsR_next) | (with_reducible apply keeps_beginAreaWait) | (with_reducible apply keeps_signBytes) | (with_reducible apply keeps_settle) | (with_reducible apply keeps_endOk) | (with_reducible apply keeps_guardedWrite) | (with_reducible apply keeps_finishLeaf) | (with_reducible apply keeps_finishQuote) | (fail_if_no_progress extract_lets) | split | (with_reducible apply Keeps.upd))

theorem keeps_execEvictionBegin  {r s : State} (h : Keeps r s) :
    KeepsR r (execEvictionBegin s) := by
  unfold execEvictionBegin
  repeat' (first | with_reducible assumption | (with_reducible exact id) | (with_reducible exact Nat.le_refl _) | (with_reducible exact keepsO_none _) | (with_reducible exact keepsOP_none _) | (with_reducible apply keepsOP_some) | (with_reducible rfl) | (with_reducible refine keeps_foldl _ (fun _ _ _ => ?_) _ ?_) | (with_reducible apply keepsO_some) | (with_reducible apply keepsR_next) | (with_reducible apply keeps_State_updJob) | (fail_if_no_progress extract_lets) | split | (with_reducible apply Keeps.upd))

theorem keeps_clearParks  {r s : State} (h : Keeps r s) :
    Keeps r (clearParks s) := by
  unfold clearParks
  repeat' (first | with_reducible assumption | (with_reducible exact id) | (with_reducible exact Nat.le_refl _) | (with_reducible exact keepsO_none _) | (with_reducible exact keepsOP_none _) | (with_reducible apply keepsOP_some) | (with_reducible rfl) | (with_reducible refine keeps_foldl _ (fun _ _ _ => ?_) _ ?_) | (with_reducible apply keepsO_some) | (with_reducible apply keepsR_next) | (fail_if_no_progress extract_lets) | split | (with_reducible apply Keeps.upd))

theorem keeps_execEvictionParked  {r s : State} (h : Keeps r s) :
    KeepsR r (execEvictionParked s) := by
  unfold execEvictionParked
  repeat' (first | with_reducible assumption | (with_reducible exact id) | (with_reducible exact Nat.le_refl _) | (with_reducible exact keepsO_none _) | (with_reducible exact keepsOP_none _) | (with_reducible apply keepsOP_some) | (with_reducible rfl) | (with_reducible refine keeps_foldl _ (fun _ _ _ => ?_) _ ?_) | (with_reducible apply keepsO_some) | (with_reducible apply keepsR_next) | (with_reducible apply keeps_State_updJob) | (with_reducible apply keeps_settle) | (with_reducible apply keeps_reachBreak) | (with_reducible apply keeps_clearParks) | (with_reducible apply keeps_leaveUnits) | (with_reducible apply keeps_idleUnits) | (with_reducible apply keeps_beginWait) | (fail_if_no_progress extract_lets) | split | (with_reducible apply Keeps.upd))

theorem keeps_execEvictionCopyDone  {r s : State} (h : Keeps r s) :
    KeepsR r (execEvictionCopyDone s) := by
  unfold execEvictionCopyDone
  repeat' (first | with_reducible assumption | (with_reducible exact id) | (with_reducible exact Nat.le_refl _) | (with_reducible exact keepsO_none _) | (with_reducible exact keepsOP_none _) | (with_reducible apply keepsOP_some) | (with_reducible rfl) | (with_reducible refine keeps_foldl _ (fun _ _ _ => ?_) _ ?_) | (with_reducible apply keepsO_some) | (with_reducible apply keepsR_next) | (with_reducible apply keeps_guardedForget) | (with_reducible apply keeps_State_updJob) | (with_reducible apply keeps_settle) | (with_reducible apply keeps_clearParks) | (fail_if_no_progress extract_lets) | split | (with_reducible apply Keeps.upd))

theorem keeps_restoreWork (x : (ℕ × Core) × ℕ × List Byte) {r s : State} (h : Keeps r s) :
    Keeps r (restoreWork s x) := by
  unfold restoreWork
  repeat' (first | with_reducible assumption | (with_reducible exact id) | (with_reducible exact Nat.le_refl _) | (with_reducible exact keepsO_none _) | (with_reducible exact keepsOP_none _) | (with_reducible apply keepsOP_some) | (with_reducible rfl) | (with_reducible refine keeps_foldl _ (fun _ _ _ => ?_) _ ?_) | (with_reducible apply keepsO_some) | (with_reducible apply keepsR_next) | (with_reducible apply keeps_forgetRange) | (fail_if_no_progress extract_lets) | split | (with_reducible apply Keeps.upd) | (with_reducible refine keepsO_get (by assumption) ?_) | (with_reducible refine keepsP_get (by assumption) ?_) | (with_reducible refine keepsQ_get (by assumption) ?_) | (with_reducible refine keepsOP_get (by assumption) ?_) | (with_reducible apply imp_writeBytes))

theorem keeps_restoreState (score : Nat) (a : SaveArea) {r s : State} (h : Keeps r s) : Keeps r (restoreState score a s) := by
  unfold restoreState
  extract_lets t limit cores back chips
  have ht : Keeps r t := keeps_foldl _ (fun _ _ hk => keeps_restoreWork _ hk) _ h
  have hlen : ∀ (g : Nat × Core → Core → Core) (l : List (Nat × Core)) (cs : List Core),
      (l.foldl (fun l c => updAt l c.1 (g c)) cs).length = cs.length := by
    intro g l
    induction l with
    | nil => exact fun _ => rfl
    | cons x l ih => intro cs; rw [List.foldl_cons, ih]; exact length_updAt _ _ _
  have hc : cores.length = t.cores.length := hlen (fun c k => k.restored (refetch t.mem score s.time limit c.2.units) c.2) _ _
  have hp : chips.length = t.chips.length := by
    have hf : ∀ (l : List ((Nat × Core) × Nat × List Byte)) (x : State), (l.foldl restoreWork x).chips = x.chips := by
      intro l
      induction l with
      | nil => exact fun _ => rfl
      | cons y l ih => intro x; rw [List.foldl_cons, ih]; unfold restoreWork; repeat' split <;> rfl
    have : t.chips = s.chips := hf _ _
    simp [chips, this]
  exact Keeps.upd ht id id id id (fun hz => by rw [hc]; exact hz) (fun hz => by rw [hp]; exact hz)
    id id id id id id id id id id id rfl rfl rfl rfl (le_refl _)

theorem keeps_execRestoreDone {r s : State} (h : Keeps r s) : KeepsR r (execRestoreDone s) := by
  refine keepsR_next ?_
  split
  · split
    · have h2 := keeps_State_updJob ‹Job›.id (fun x => { x with stage := .running, runSince := s.time })
        (keeps_restoreState (s.scoreAddr ‹Job›) ‹SaveArea› (keeps_dropTiles h))
      exact keeps_restClocks (Keeps.upd h2 id id id id id id id id id id id id id id id id id rfl rfl rfl rfl (le_refl _))
    · exact h
  · exact h

theorem keeps_fillCore (r' : ResidentImage) (c : ℕ) {r s : State} (h : Keeps r s) :
    Keeps r (fillCore r' c s) := by
  unfold fillCore
  repeat' (first | with_reducible assumption | (with_reducible exact id) | (with_reducible exact Nat.le_refl _) | (with_reducible exact keepsO_none _) | (with_reducible exact keepsOP_none _) | (with_reducible apply keepsOP_some) | (with_reducible rfl) | (with_reducible refine keeps_foldl _ (fun _ _ _ => ?_) _ ?_) | (with_reducible apply keepsO_some) | (with_reducible apply keepsR_next) | (fail_if_no_progress extract_lets) | split | (with_reducible apply Keeps.upd) | (with_reducible refine keepsO_get (by assumption) ?_) | (with_reducible refine keepsP_get (by assumption) ?_) | (with_reducible refine keepsQ_get (by assumption) ?_) | (with_reducible refine keepsOP_get (by assumption) ?_) | (intro hz; simp [hz]; done) | (intro hz; simp +zetaDelta [hz]; done) | (with_reducible apply imp_writeBytes))

theorem keeps_installResident (r' : ResidentImage) (listed : Bool) {r s : State} (h : Keeps r s) :
    Keeps r (installResident r' listed s) := by
  unfold installResident
  repeat' (first | with_reducible assumption | (with_reducible exact id) | (with_reducible exact Nat.le_refl _) | (with_reducible exact keepsO_none _) | (with_reducible exact keepsOP_none _) | (with_reducible apply keepsOP_some) | (with_reducible rfl) | (with_reducible refine keeps_foldl _ (fun _ _ _ => ?_) _ ?_) | (with_reducible apply keepsO_some) | (with_reducible apply keepsR_next) | (with_reducible apply keeps_fillCore) | (fail_if_no_progress extract_lets) | split | (with_reducible apply Keeps.upd))

theorem keeps_execResidentSwapStart  {r s : State} (h : Keeps r s) :
    KeepsR r (execResidentSwapStart s) := by
  unfold execResidentSwapStart
  repeat' (first | with_reducible assumption | (with_reducible exact id) | (with_reducible exact Nat.le_refl _) | (with_reducible exact keepsO_none _) | (with_reducible exact keepsOP_none _) | (with_reducible apply keepsOP_some) | (with_reducible rfl) | (with_reducible refine keeps_foldl _ (fun _ _ _ => ?_) _ ?_) | (with_reducible apply keepsO_some) | (with_reducible apply keepsR_next) | (with_reducible apply keeps_beginWait) | (fail_if_no_progress extract_lets) | split | (with_reducible apply Keeps.upd))

theorem keeps_afterSwap (j : Job) {r s : State} (h : Keeps r s) :
    Keeps r (afterSwap j s) := by
  unfold afterSwap
  repeat' (first | with_reducible assumption | (with_reducible exact id) | (with_reducible exact Nat.le_refl _) | (with_reducible exact keepsO_none _) | (with_reducible exact keepsOP_none _) | (with_reducible apply keepsOP_some) | (with_reducible rfl) | (with_reducible refine keeps_foldl _ (fun _ _ _ => ?_) _ ?_) | (with_reducible apply keepsO_some) | (with_reducible apply keepsR_next) | (with_reducible apply keeps_beginWait) | (with_reducible apply keeps_beginTurn) | (with_reducible apply keeps_State_updJob) | (fail_if_no_progress extract_lets) | split)

theorem keeps_spoilCore (r' : ResidentImage) (c : ℕ) {r s : State} (h : Keeps r s) :
    Keeps r (spoilCore r' s c) := by
  unfold spoilCore
  repeat' (first | with_reducible assumption | (with_reducible exact id) | (with_reducible exact Nat.le_refl _) | (with_reducible exact keepsO_none _) | (with_reducible exact keepsOP_none _) | (with_reducible apply keepsOP_some) | (with_reducible rfl) | (with_reducible refine keeps_foldl _ (fun _ _ _ => ?_) _ ?_) | (with_reducible apply keepsO_some) | (with_reducible apply keepsR_next) | (with_reducible apply keeps_forgetRange))

theorem keeps_failSwap (r' : ResidentImage) {r s : State} (h : Keeps r s) :
    Keeps r (failSwap r' s) := by
  unfold failSwap
  repeat' (first | with_reducible assumption | (with_reducible exact id) | (with_reducible exact Nat.le_refl _) | (with_reducible exact keepsO_none _) | (with_reducible exact keepsOP_none _) | (with_reducible apply keepsOP_some) | (with_reducible rfl) | (with_reducible refine keeps_foldl _ (fun _ _ _ => ?_) _ ?_) | (with_reducible apply keepsO_some) | (with_reducible apply keepsR_next) | (with_reducible apply keeps_spoilCore) | (fail_if_no_progress extract_lets) | split | (with_reducible apply Keeps.upd))

theorem keeps_finishCopy (r' : ResidentImage) {r s : State} (h : Keeps r s) :
    Keeps r (finishCopy r' s) := by
  unfold finishCopy
  repeat' (first | with_reducible assumption | (with_reducible exact id) | (with_reducible exact Nat.le_refl _) | (with_reducible exact keepsO_none _) | (with_reducible exact keepsOP_none _) | (with_reducible apply keepsOP_some) | (with_reducible rfl) | (with_reducible refine keeps_foldl _ (fun _ _ _ => ?_) _ ?_) | (with_reducible apply keepsO_some) | (with_reducible apply keepsR_next) | (with_reducible apply keeps_installResident) | (with_reducible apply keeps_failSwap) | (fail_if_no_progress extract_lets) | split)

theorem keeps_execResidentSwapDone  {r s : State} (h : Keeps r s) :
    KeepsR r (execResidentSwapDone s) := by
  unfold execResidentSwapDone
  repeat' (first | with_reducible assumption | (with_reducible exact id) | (with_reducible exact Nat.le_refl _) | (with_reducible exact keepsO_none _) | (with_reducible exact keepsOP_none _) | (with_reducible apply keepsOP_some) | (with_reducible rfl) | (with_reducible refine keeps_foldl _ (fun _ _ _ => ?_) _ ?_) | (with_reducible apply keepsO_some) | (with_reducible apply keepsR_next) | (with_reducible apply keeps_settle) | (with_reducible apply keeps_afterSwap) | (with_reducible apply keeps_installResident) | (with_reducible apply keeps_failSwapJob) | (with_reducible apply keeps_failSwap) | (with_reducible apply keeps_finishCopy) | (with_reducible apply keeps_respond) | (fail_if_no_progress extract_lets) | split | (with_reducible apply Keeps.upd))

theorem keeps_execDownbeatStart  {r s : State} (h : Keeps r s) :
    KeepsR r (execDownbeatStart s) := by
  unfold execDownbeatStart
  repeat' (first | with_reducible assumption | (with_reducible exact id) | (with_reducible exact Nat.le_refl _) | (with_reducible exact keepsO_none _) | (with_reducible exact keepsOP_none _) | (with_reducible apply keepsOP_some) | (with_reducible rfl) | (with_reducible refine keeps_foldl _ (fun _ _ _ => ?_) _ ?_) | (with_reducible apply keepsO_some) | (with_reducible apply keepsR_next) | (fail_if_no_progress extract_lets) | split | (with_reducible apply Keeps.upd))

theorem keeps_clearPort (st : PortState) (p : ℕ) {r s : State} (h : Keeps r s) :
    Keeps r (clearPort st p s) := by
  unfold clearPort
  repeat' (first | with_reducible assumption | (with_reducible exact id) | (with_reducible exact Nat.le_refl _) | (with_reducible exact keepsO_none _) | (with_reducible exact keepsOP_none _) | (with_reducible apply keepsOP_some) | (with_reducible rfl) | (with_reducible refine keeps_foldl _ (fun _ _ _ => ?_) _ ?_) | (with_reducible apply keepsO_some) | (with_reducible apply keepsR_next) | (with_reducible apply keeps_State_updPort) | (fail_if_no_progress extract_lets) | split | (with_reducible apply Keeps.upd) | (with_reducible refine keepsO_get (by assumption) ?_) | (with_reducible refine keepsP_get (by assumption) ?_) | (with_reducible refine keepsQ_get (by assumption) ?_) | (with_reducible refine keepsOP_get (by assumption) ?_) | (intro hz; simp [hz]; done))

theorem keeps_rerouteFlit (p : ℕ) (w : ℕ × BitVec 6 × Flit) {r s : State} (h : Keeps r s) :
    Keeps r (rerouteFlit p s w) := by
  unfold rerouteFlit
  repeat' (first | with_reducible assumption | (with_reducible exact id) | (with_reducible exact Nat.le_refl _) | (with_reducible exact keepsO_none _) | (with_reducible exact keepsOP_none _) | (with_reducible apply keepsOP_some) | (with_reducible rfl) | (with_reducible refine keeps_foldl _ (fun _ _ _ => ?_) _ ?_) | (with_reducible apply keepsO_some) | (with_reducible apply keepsR_next) | (with_reducible apply keeps_discardFlit) | (with_reducible apply keeps_routeFrom) | (fail_if_no_progress extract_lets) | split)

theorem keeps_dropPort (st : PortState) (p : ℕ) {r s : State} (h : Keeps r s) :
    Keeps r (dropPort st p s) := by
  unfold dropPort
  repeat' (first | with_reducible assumption | (with_reducible exact id) | (with_reducible exact Nat.le_refl _) | (with_reducible exact keepsO_none _) | (with_reducible exact keepsOP_none _) | (with_reducible apply keepsOP_some) | (with_reducible rfl) | (with_reducible refine keeps_foldl _ (fun _ _ _ => ?_) _ ?_) | (with_reducible apply keepsO_some) | (with_reducible apply keepsR_next) | (with_reducible apply keeps_rerouteFlit) | (with_reducible apply keeps_clearPort))

theorem keeps_stopPort (st : PortState) (p : ℕ) {r s : State} (h : Keeps r s) :
    Keeps r (stopPort st p s) := by
  unfold stopPort
  repeat' (first | with_reducible assumption | (with_reducible exact id) | (with_reducible exact Nat.le_refl _) | (with_reducible exact keepsO_none _) | (with_reducible exact keepsOP_none _) | (with_reducible apply keepsOP_some) | (with_reducible rfl) | (with_reducible refine keeps_foldl _ (fun _ _ _ => ?_) _ ?_) | (with_reducible apply keepsO_some) | (with_reducible apply keepsR_next) | (with_reducible apply keeps_oweCredit) | (with_reducible apply keeps_clearPort))

theorem keeps_disableLink  {r s : State} (h : Keeps r s) :
    Keeps r (disableLink s) := by
  unfold disableLink
  repeat' (first | with_reducible assumption | (with_reducible exact id) | (with_reducible exact Nat.le_refl _) | (with_reducible exact keepsO_none _) | (with_reducible exact keepsOP_none _) | (with_reducible apply keepsOP_some) | (with_reducible rfl) | (with_reducible refine keeps_foldl _ (fun _ _ _ => ?_) _ ?_) | (with_reducible apply keepsO_some) | (with_reducible apply keepsR_next) | (with_reducible apply keeps_dropPort) | (fail_if_no_progress extract_lets) | split | (with_reducible apply Keeps.upd) | (with_reducible refine keepsO_get (by assumption) ?_) | (with_reducible refine keepsP_get (by assumption) ?_) | (with_reducible refine keepsQ_get (by assumption) ?_) | (with_reducible refine keepsOP_get (by assumption) ?_) | (intro hz; simp [hz]; done))

theorem keeps_gateDomains (old new : Nat) {r s : State} (h : Keeps r s) : Keeps r (gateDomains old new s) := by
  unfold gateDomains
  refine keeps_foldl _ (fun s i h => ?_) _ h
  dsimp only
  have hl : ∀ (st : DomainState) (ds : List Nat), (ds.foldl (fun l d => updAt l d fun x => { x with state := st }) s.power.domains).length =
      s.power.domains.length := fun _ _ => length_foldl_upd _ (fun _ _ => length_updAt _ _ _) _ _
  split
  · exact Keeps.upd h id id id id id id id id id id id id id id (fun hd => (hl _ _).trans hd) id id rfl rfl rfl rfl (le_refl _)
  · split
    · exact Keeps.upd h id id id id id id id id id id id id id id (fun hd => (hl _ _).trans hd) id id rfl rfl rfl rfl (le_refl _)
    · exact h

theorem keeps_applyCommit  {r s : State} (h : Keeps r s) :
    Keeps r (applyCommit s) := by
  unfold applyCommit
  repeat' (first | with_reducible assumption | (with_reducible exact id) | (with_reducible exact Nat.le_refl _) | (with_reducible exact keepsO_none _) | (with_reducible exact keepsOP_none _) | (with_reducible apply keepsOP_some) | (with_reducible rfl) | (with_reducible refine keeps_foldl _ (fun _ _ _ => ?_) _ ?_) | (with_reducible apply keepsO_some) | (with_reducible apply keepsR_next) | (with_reducible apply keeps_gateDomains) | (with_reducible apply keeps_disableLink) | (fail_if_no_progress extract_lets) | split | (with_reducible apply Keeps.upd))

theorem keeps_commitNow  {r s : State} (h : Keeps r s) :
    Keeps r (commitNow s) := by
  unfold commitNow
  repeat' (first | with_reducible assumption | (with_reducible exact id) | (with_reducible exact Nat.le_refl _) | (with_reducible exact keepsO_none _) | (with_reducible exact keepsOP_none _) | (with_reducible apply keepsOP_some) | (with_reducible rfl) | (with_reducible refine keeps_foldl _ (fun _ _ _ => ?_) _ ?_) | (with_reducible apply keepsO_some) | (with_reducible apply keepsR_next) | (with_reducible apply keeps_respond) | (with_reducible apply keeps_applyCommit) | (fail_if_no_progress extract_lets) | split)

theorem keeps_swapTables  {r s : State} (h : Keeps r s) :
    Keeps r (swapTables s) := by
  unfold swapTables
  repeat' (first | with_reducible assumption | (with_reducible exact id) | (with_reducible exact Nat.le_refl _) | (with_reducible exact keepsO_none _) | (with_reducible exact keepsOP_none _) | (with_reducible apply keepsOP_some) | (with_reducible rfl) | (with_reducible refine keeps_foldl _ (fun _ _ _ => ?_) _ ?_) | (with_reducible apply keepsO_some) | (with_reducible apply keepsR_next) | (with_reducible apply keeps_respond) | (fail_if_no_progress extract_lets) | split | (with_reducible apply Keeps.upd) | (with_reducible refine keepsO_get (by assumption) ?_) | (with_reducible refine keepsP_get (by assumption) ?_) | (with_reducible refine keepsQ_get (by assumption) ?_) | (with_reducible refine keepsOP_get (by assumption) ?_) | (intro hz; simp [hz]; done))

theorem keeps_execDownbeatParked  {r s : State} (h : Keeps r s) :
    KeepsR r (execDownbeatParked s) := by
  unfold execDownbeatParked
  repeat' (first | with_reducible assumption | (with_reducible exact id) | (with_reducible exact Nat.le_refl _) | (with_reducible exact keepsO_none _) | (with_reducible exact keepsOP_none _) | (with_reducible apply keepsOP_some) | (with_reducible rfl) | (with_reducible refine keeps_foldl _ (fun _ _ _ => ?_) _ ?_) | (with_reducible apply keepsO_some) | (with_reducible apply keepsR_next) | (with_reducible apply keeps_swapTables) | (with_reducible apply keeps_commitNow) | (with_reducible apply keeps_settle) | (fail_if_no_progress extract_lets) | split | (with_reducible apply Keeps.upd))

theorem keeps_execStrikeParked  {r s : State} (h : Keeps r s) :
    KeepsR r (execStrikeParked s) := by
  unfold execStrikeParked
  repeat' (first | with_reducible assumption | (with_reducible exact id) | (with_reducible exact Nat.le_refl _) | (with_reducible exact keepsO_none _) | (with_reducible exact keepsOP_none _) | (with_reducible apply keepsOP_some) | (with_reducible rfl) | (with_reducible refine keeps_foldl _ (fun _ _ _ => ?_) _ ?_) | (with_reducible apply keepsO_some) | (with_reducible apply keepsR_next) | (with_reducible apply keeps_settle) | (with_reducible refine keeps_keepDownbeat _ ?_) | (with_reducible apply keeps_freeUnits) | (with_reducible apply keeps_endJob) | (with_reducible apply keeps_releaseSave) | (with_reducible apply keeps_forgetWritten) | (fail_if_no_progress extract_lets) | split)

end Sys2Proof.Machine
end

