-- ==== Sys2Proof/Laws/KeepsCallsInfo.lean ====
section
/-! SUPPORT. What the operations of CallsInfo keep. -/
set_option linter.all false
namespace Sys2Proof.Machine

theorem keeps_execGetInfo (r' : Request) {r s : State} (h : Keeps r s) :
    KeepsR r (execGetInfo r' s) := by
  unfold execGetInfo
  repeat' (first | with_reducible assumption | (with_reducible exact id) | (with_reducible exact Nat.le_refl _) | (with_reducible exact keepsO_none _) | (with_reducible exact keepsOP_none _) | (with_reducible apply keepsOP_some) | (with_reducible rfl) | (with_reducible refine keeps_foldl _ (fun _ _ _ => ?_) _ ?_) | (with_reducible apply keepsO_some) | (with_reducible apply keepsR_next) | (with_reducible refine keeps_serveCall _ _ _ _ (fun _ _ _ => ?_) ?_) | (with_reducible apply keeps_hostWrite))

theorem keeps_inventoryRow (r' : Request) {r s : State} (h : Keeps r s) :
    Keeps r (inventoryRow r' s) := by
  unfold inventoryRow
  repeat' (first | with_reducible assumption | (with_reducible exact id) | (with_reducible exact Nat.le_refl _) | (with_reducible exact keepsO_none _) | (with_reducible exact keepsOP_none _) | (with_reducible apply keepsOP_some) | (with_reducible rfl) | (with_reducible refine keeps_foldl _ (fun _ _ _ => ?_) _ ?_) | (with_reducible apply keepsO_some) | (with_reducible apply keepsR_next) | (with_reducible refine keeps_serveCall _ _ _ _ (fun _ _ _ => ?_) ?_) | (with_reducible apply keeps_hostWrite) | (fail_if_no_progress extract_lets) | split)

theorem keeps_execGetInventory (r' : Request) {r s : State} (h : Keeps r s) :
    KeepsR r (execGetInventory r' s) := by
  unfold execGetInventory
  repeat' (first | with_reducible assumption | (with_reducible exact id) | (with_reducible exact Nat.le_refl _) | (with_reducible exact keepsO_none _) | (with_reducible exact keepsOP_none _) | (with_reducible apply keepsOP_some) | (with_reducible rfl) | (with_reducible refine keeps_foldl _ (fun _ _ _ => ?_) _ ?_) | (with_reducible apply keepsO_some) | (with_reducible apply keepsR_next) | (with_reducible apply keeps_inventoryRow) | (fail_if_no_progress extract_lets) | split)

theorem keeps_execMemMapRead (r' : Request) {r s : State} (h : Keeps r s) :
    KeepsR r (execMemMapRead r' s) := by
  unfold execMemMapRead
  repeat' (first | with_reducible assumption | (with_reducible exact id) | (with_reducible exact Nat.le_refl _) | (with_reducible exact keepsO_none _) | (with_reducible exact keepsOP_none _) | (with_reducible apply keepsOP_some) | (with_reducible rfl) | (with_reducible refine keeps_foldl _ (fun _ _ _ => ?_) _ ?_) | (with_reducible apply keepsO_some) | (with_reducible apply keepsR_next) | (with_reducible refine keeps_serveCall _ _ _ _ (fun _ _ _ => ?_) ?_) | (with_reducible apply keeps_hostWrite))

theorem keeps_execJobCountRead (r' : Request) {r s : State} (h : Keeps r s) :
    KeepsR r (execJobCountRead r' s) := by
  unfold execJobCountRead
  repeat' (first | with_reducible assumption | (with_reducible exact id) | (with_reducible exact Nat.le_refl _) | (with_reducible exact keepsO_none _) | (with_reducible exact keepsOP_none _) | (with_reducible apply keepsOP_some) | (with_reducible rfl) | (with_reducible refine keeps_foldl _ (fun _ _ _ => ?_) _ ?_) | (with_reducible apply keepsO_some) | (with_reducible apply keepsR_next) | (with_reducible refine keeps_serveCall _ _ _ _ (fun _ _ _ => ?_) ?_) | (with_reducible apply keeps_State_updFunc) | (fail_if_no_progress extract_lets) | split | (with_reducible apply Keeps.upd))

theorem keeps_execTelemetryRead (r' : Request) {r s : State} (h : Keeps r s) :
    KeepsR r (execTelemetryRead r' s) := by
  unfold execTelemetryRead
  repeat' (first | with_reducible assumption | (with_reducible exact id) | (with_reducible exact Nat.le_refl _) | (with_reducible exact keepsO_none _) | (with_reducible exact keepsOP_none _) | (with_reducible apply keepsOP_some) | (with_reducible rfl) | (with_reducible refine keeps_foldl _ (fun _ _ _ => ?_) _ ?_) | (with_reducible apply keepsO_some) | (with_reducible apply keepsR_next) | (with_reducible refine keeps_serveCall _ _ _ _ (fun _ _ _ => ?_) ?_) | (with_reducible apply keeps_hostWrite) | (fail_if_no_progress extract_lets) | split | (with_reducible apply Keeps.upd) | (with_reducible refine keepsO_get (by assumption) ?_) | (with_reducible refine keepsP_get (by assumption) ?_) | (with_reducible refine keepsQ_get (by assumption) ?_) | (with_reducible refine keepsOP_get (by assumption) ?_) | (intro hz; simp [hz]; done))

theorem keeps_execErrorLogRead (r' : Request) {r s : State} (h : Keeps r s) :
    KeepsR r (execErrorLogRead r' s) := by
  unfold execErrorLogRead
  repeat' (first | with_reducible assumption | (with_reducible exact id) | (with_reducible exact Nat.le_refl _) | (with_reducible exact keepsO_none _) | (with_reducible exact keepsOP_none _) | (with_reducible apply keepsOP_some) | (with_reducible rfl) | (with_reducible refine keeps_foldl _ (fun _ _ _ => ?_) _ ?_) | (with_reducible apply keepsO_some) | (with_reducible apply keepsR_next) | (with_reducible refine keeps_serveCall _ _ _ _ (fun _ _ _ => ?_) ?_) | (with_reducible apply keeps_hostWrite) | (fail_if_no_progress extract_lets) | split)

theorem keeps_execIdentityRead (r' : Request) {r s : State} (h : Keeps r s) :
    KeepsR r (execIdentityRead r' s) := by
  unfold execIdentityRead
  repeat' (first | with_reducible assumption | (with_reducible exact id) | (with_reducible exact Nat.le_refl _) | (with_reducible exact keepsO_none _) | (with_reducible exact keepsOP_none _) | (with_reducible apply keepsOP_some) | (with_reducible rfl) | (with_reducible refine keeps_foldl _ (fun _ _ _ => ?_) _ ?_) | (with_reducible apply keepsO_some) | (with_reducible apply keepsR_next) | (with_reducible refine keeps_serveCall _ _ _ _ (fun _ _ _ => ?_) ?_) | (with_reducible apply keeps_hostWrite))

theorem keeps_execAttestQuote (r' : Request) {r s : State} (h : Keeps r s) :
    KeepsR r (execAttestQuote r' s) := by
  unfold execAttestQuote
  repeat' (first | with_reducible assumption | (with_reducible exact id) | (with_reducible exact Nat.le_refl _) | (with_reducible exact keepsO_none _) | (with_reducible exact keepsOP_none _) | (with_reducible apply keepsOP_some) | (with_reducible rfl) | (with_reducible refine keeps_foldl _ (fun _ _ _ => ?_) _ ?_) | (with_reducible apply keepsO_some) | (with_reducible apply keepsR_next) | (with_reducible refine keeps_serveCall _ _ _ _ (fun _ _ _ => ?_) ?_) | (fail_if_no_progress extract_lets) | split | (with_reducible apply Keeps.upd))

theorem keeps_retrainPort (p : ℕ) {r s : State} (h : Keeps r s) :
    Keeps r (retrainPort p s) := by
  unfold retrainPort
  repeat' (first | with_reducible assumption | (with_reducible exact id) | (with_reducible exact Nat.le_refl _) | (with_reducible exact keepsO_none _) | (with_reducible exact keepsOP_none _) | (with_reducible apply keepsOP_some) | (with_reducible rfl) | (with_reducible refine keeps_foldl _ (fun _ _ _ => ?_) _ ?_) | (with_reducible apply keepsO_some) | (with_reducible apply keepsR_next) | (with_reducible apply keeps_State_updPort) | (with_reducible apply keeps_dropPort) | (fail_if_no_progress extract_lets) | split)

theorem keeps_linkCall (r' : Request) {r s : State} (h : Keeps r s) :
    Keeps r (linkCall r' s) := by
  unfold linkCall
  repeat' (first | with_reducible assumption | (with_reducible exact id) | (with_reducible exact Nat.le_refl _) | (with_reducible exact keepsO_none _) | (with_reducible exact keepsOP_none _) | (with_reducible apply keepsOP_some) | (with_reducible rfl) | (with_reducible refine keeps_foldl _ (fun _ _ _ => ?_) _ ?_) | (with_reducible apply keepsO_some) | (with_reducible apply keepsR_next) | (with_reducible refine keeps_serveCall _ _ _ _ (fun _ _ _ => ?_) ?_) | (with_reducible apply keeps_retrainPort) | (with_reducible apply keeps_hostWrite) | (fail_if_no_progress extract_lets) | split)

theorem keeps_execLinkStatus (r' : Request) {r s : State} (h : Keeps r s) :
    KeepsR r (execLinkStatus r' s) := by
  unfold execLinkStatus
  repeat' (first | with_reducible assumption | (with_reducible exact id) | (with_reducible exact Nat.le_refl _) | (with_reducible exact keepsO_none _) | (with_reducible exact keepsOP_none _) | (with_reducible apply keepsOP_some) | (with_reducible rfl) | (with_reducible refine keeps_foldl _ (fun _ _ _ => ?_) _ ?_) | (with_reducible apply keepsO_some) | (with_reducible apply keepsR_next) | (with_reducible apply keeps_linkCall))

theorem keeps_execLinkRetrain (r' : Request) {r s : State} (h : Keeps r s) :
    KeepsR r (execLinkRetrain r' s) := by
  unfold execLinkRetrain
  repeat' (first | with_reducible assumption | (with_reducible exact id) | (with_reducible exact Nat.le_refl _) | (with_reducible exact keepsO_none _) | (with_reducible exact keepsOP_none _) | (with_reducible apply keepsOP_some) | (with_reducible rfl) | (with_reducible refine keeps_foldl _ (fun _ _ _ => ?_) _ ?_) | (with_reducible apply keepsO_some) | (with_reducible apply keepsR_next) | (with_reducible apply keeps_linkCall))

end Sys2Proof.Machine
end

