-- ==== Sys2Proof/Laws/KeepsCallsWork.lean ====
section
/-! SUPPORT. What the operations of CallsWork keep. -/
set_option linter.all false
namespace Sys2Proof.Machine

theorem keeps_execJobQueueCreate (r' : Request) {r s : State} (h : Keeps r s) :
    KeepsR r (execJobQueueCreate r' s) := by
  unfold execJobQueueCreate
  repeat' (first | with_reducible assumption | (with_reducible exact id) | (with_reducible exact Nat.le_refl _) | (with_reducible exact keepsO_none _) | (with_reducible exact keepsOP_none _) | (with_reducible apply keepsOP_some) | (with_reducible rfl) | (with_reducible refine keeps_foldl _ (fun _ _ _ => ?_) _ ?_) | (with_reducible apply keepsO_some) | (with_reducible apply keepsR_next) | (with_reducible refine keeps_serveCall _ _ _ _ (fun _ _ _ => ?_) ?_) | (with_reducible apply keeps_State_updFunc) | (fail_if_no_progress extract_lets) | split)

theorem keeps_execJobQueueDestroy (r' : Request) {r s : State} (h : Keeps r s) :
    KeepsR r (execJobQueueDestroy r' s) := by
  unfold execJobQueueDestroy
  repeat' (first | with_reducible assumption | (with_reducible exact id) | (with_reducible exact Nat.le_refl _) | (with_reducible exact keepsO_none _) | (with_reducible exact keepsOP_none _) | (with_reducible apply keepsOP_some) | (with_reducible rfl) | (with_reducible refine keeps_foldl _ (fun _ _ _ => ?_) _ ?_) | (with_reducible apply keepsO_some) | (with_reducible apply keepsR_next) | (with_reducible refine keeps_serveCall _ _ _ _ (fun _ _ _ => ?_) ?_) | (with_reducible apply keeps_State_updFunc) | (fail_if_no_progress extract_lets) | split)

theorem keeps_execPreemptPolicySet (r' : Request) {r s : State} (h : Keeps r s) :
    KeepsR r (execPreemptPolicySet r' s) := by
  unfold execPreemptPolicySet
  repeat' (first | with_reducible assumption | (with_reducible exact id) | (with_reducible exact Nat.le_refl _) | (with_reducible exact keepsO_none _) | (with_reducible exact keepsOP_none _) | (with_reducible apply keepsOP_some) | (with_reducible rfl) | (with_reducible refine keeps_foldl _ (fun _ _ _ => ?_) _ ?_) | (with_reducible apply keepsO_some) | (with_reducible apply keepsR_next) | (with_reducible apply keeps_settle) | (with_reducible refine keeps_serveCall _ _ _ _ (fun _ _ _ => ?_) ?_) | (fail_if_no_progress extract_lets) | split | (with_reducible apply Keeps.upd))

theorem keeps_execStageSet (r' : Request) {r s : State} (h : Keeps r s) :
    KeepsR r (execStageSet r' s) := by
  unfold execStageSet
  repeat' (first | with_reducible assumption | (with_reducible exact id) | (with_reducible exact Nat.le_refl _) | (with_reducible exact keepsO_none _) | (with_reducible exact keepsOP_none _) | (with_reducible apply keepsOP_some) | (with_reducible rfl) | (with_reducible refine keeps_foldl _ (fun _ _ _ => ?_) _ ?_) | (with_reducible apply keepsO_some) | (with_reducible apply keepsR_next) | (with_reducible refine keeps_serveCall _ _ _ _ (fun _ _ _ => ?_) ?_) | (fail_if_no_progress extract_lets) | split | (with_reducible apply Keeps.upd))

theorem keeps_execStageCheck (r' : Request) {r s : State} (h : Keeps r s) :
    KeepsR r (execStageCheck r' s) := by
  unfold execStageCheck
  repeat' (first | with_reducible assumption | (with_reducible exact id) | (with_reducible exact Nat.le_refl _) | (with_reducible exact keepsO_none _) | (with_reducible exact keepsOP_none _) | (with_reducible apply keepsOP_some) | (with_reducible rfl) | (with_reducible refine keeps_foldl _ (fun _ _ _ => ?_) _ ?_) | (with_reducible apply keepsO_some) | (with_reducible apply keepsR_next) | (with_reducible refine keeps_serveCall _ _ _ _ (fun _ _ _ => ?_) ?_) | (fail_if_no_progress extract_lets) | split)

theorem keeps_execStageCommit (r' : Request) {r s : State} (h : Keeps r s) :
    KeepsR r (execStageCommit r' s) := by
  unfold execStageCommit
  repeat' (first | with_reducible assumption | (with_reducible exact id) | (with_reducible exact Nat.le_refl _) | (with_reducible exact keepsO_none _) | (with_reducible exact keepsOP_none _) | (with_reducible apply keepsOP_some) | (with_reducible rfl) | (with_reducible refine keeps_foldl _ (fun _ _ _ => ?_) _ ?_) | (with_reducible apply keepsO_some) | (with_reducible apply keepsR_next) | (with_reducible apply keeps_settle) | (with_reducible refine keeps_serveCall _ _ _ _ (fun _ _ _ => ?_) ?_) | (fail_if_no_progress extract_lets) | split | (with_reducible apply Keeps.upd))

theorem keeps_discardStaged  {r s : State} (h : Keeps r s) :
    Keeps r (discardStaged s) := by
  unfold discardStaged
  repeat' (first | with_reducible assumption | (with_reducible exact id) | (with_reducible exact Nat.le_refl _) | (with_reducible exact keepsO_none _) | (with_reducible exact keepsOP_none _) | (with_reducible apply keepsOP_some) | (with_reducible rfl) | (with_reducible refine keeps_foldl _ (fun _ _ _ => ?_) _ ?_) | (with_reducible apply keepsO_some) | (with_reducible apply keepsR_next) | (with_reducible apply keeps_respond) | (fail_if_no_progress extract_lets) | split | (with_reducible apply Keeps.upd))

theorem keeps_execStageDiscard (r' : Request) {r s : State} (h : Keeps r s) :
    KeepsR r (execStageDiscard r' s) := by
  unfold execStageDiscard
  repeat' (first | with_reducible assumption | (with_reducible exact id) | (with_reducible exact Nat.le_refl _) | (with_reducible exact keepsO_none _) | (with_reducible exact keepsOP_none _) | (with_reducible apply keepsOP_some) | (with_reducible rfl) | (with_reducible refine keeps_foldl _ (fun _ _ _ => ?_) _ ?_) | (with_reducible apply keepsO_some) | (with_reducible apply keepsR_next) | (with_reducible apply keeps_settle) | (with_reducible refine keeps_serveCall _ _ _ _ (fun _ _ _ => ?_) ?_) | (with_reducible apply keeps_discardStaged))

theorem keeps_tableCall (r' : Request) (ps : List Byte) {r s : State} (h : Keeps r s) :
    Keeps r (tableCall r' ps s).1 := by
  unfold tableCall
  repeat' (first | with_reducible assumption | (with_reducible exact id) | (with_reducible exact Nat.le_refl _) | (with_reducible exact keepsO_none _) | (with_reducible exact keepsOP_none _) | (with_reducible apply keepsOP_some) | (with_reducible rfl) | (with_reducible refine keeps_foldl _ (fun _ _ _ => ?_) _ ?_) | (with_reducible apply keepsO_some) | (with_reducible apply keepsR_next) | (fail_if_no_progress extract_lets) | split | (with_reducible apply Keeps.upd) | (with_reducible refine keepsO_get (by assumption) ?_) | (with_reducible refine keepsP_get (by assumption) ?_) | (with_reducible refine keepsQ_get (by assumption) ?_) | (with_reducible refine keepsOP_get (by assumption) ?_) | (intro hz; simp [hz]; done))

theorem keeps_execTableLoad (r' : Request) {r s : State} (h : Keeps r s) :
    KeepsR r (execTableLoad r' s) := by
  unfold execTableLoad
  repeat' (first | with_reducible assumption | (with_reducible exact id) | (with_reducible exact Nat.le_refl _) | (with_reducible exact keepsO_none _) | (with_reducible exact keepsOP_none _) | (with_reducible apply keepsOP_some) | (with_reducible rfl) | (with_reducible refine keeps_foldl _ (fun _ _ _ => ?_) _ ?_) | (with_reducible apply keepsO_some) | (with_reducible apply keepsR_next) | (with_reducible apply keeps_settle) | (with_reducible refine keeps_serveCall _ _ _ _ (fun _ _ _ => ?_) ?_) | (with_reducible apply keeps_tableCall))

theorem keeps_residentCall (r' : Request) (ps : List Byte) {r s : State} (h : Keeps r s) :
    Keeps r (residentCall r' ps s).1 := by
  unfold residentCall
  repeat' (first | with_reducible assumption | (with_reducible exact id) | (with_reducible exact Nat.le_refl _) | (with_reducible exact keepsO_none _) | (with_reducible exact keepsOP_none _) | (with_reducible apply keepsOP_some) | (with_reducible rfl) | (with_reducible refine keeps_foldl _ (fun _ _ _ => ?_) _ ?_) | (with_reducible apply keepsO_some) | (with_reducible apply keepsR_next) | (fail_if_no_progress extract_lets) | split | (with_reducible apply Keeps.upd))

theorem keeps_execResidentLoad (r' : Request) {r s : State} (h : Keeps r s) :
    KeepsR r (execResidentLoad r' s) := by
  unfold execResidentLoad
  repeat' (first | with_reducible assumption | (with_reducible exact id) | (with_reducible exact Nat.le_refl _) | (with_reducible exact keepsO_none _) | (with_reducible exact keepsOP_none _) | (with_reducible apply keepsOP_some) | (with_reducible rfl) | (with_reducible refine keeps_foldl _ (fun _ _ _ => ?_) _ ?_) | (with_reducible apply keepsO_some) | (with_reducible apply keepsR_next) | (with_reducible apply keeps_settle) | (with_reducible refine keeps_serveCall _ _ _ _ (fun _ _ _ => ?_) ?_) | (with_reducible apply keeps_residentCall))

theorem keeps_execScoreUnload (r' : Request) {r s : State} (h : Keeps r s) :
    KeepsR r (execScoreUnload r' s) := by
  unfold execScoreUnload
  repeat' (first | with_reducible assumption | (with_reducible exact id) | (with_reducible exact Nat.le_refl _) | (with_reducible exact keepsO_none _) | (with_reducible exact keepsOP_none _) | (with_reducible apply keepsOP_some) | (with_reducible rfl) | (with_reducible refine keeps_foldl _ (fun _ _ _ => ?_) _ ?_) | (with_reducible apply keepsO_some) | (with_reducible apply keepsR_next) | (with_reducible refine keeps_serveCall _ _ _ _ (fun _ _ _ => ?_) ?_) | (fail_if_no_progress extract_lets) | split | (with_reducible apply Keeps.upd) | (with_reducible refine keepsO_get (by assumption) ?_) | (with_reducible refine keepsP_get (by assumption) ?_) | (with_reducible refine keepsQ_get (by assumption) ?_) | (with_reducible refine keepsOP_get (by assumption) ?_) | (intro hz; simp [hz]; done))

theorem keeps_groupDefine (ps : List Byte) {r s : State} (h : Keeps r s) :
    Keeps r (groupDefine ps s).1 := by
  unfold groupDefine
  repeat' (first | with_reducible assumption | (with_reducible exact id) | (with_reducible exact Nat.le_refl _) | (with_reducible exact keepsO_none _) | (with_reducible exact keepsOP_none _) | (with_reducible apply keepsOP_some) | (with_reducible rfl) | (with_reducible refine keeps_foldl _ (fun _ _ _ => ?_) _ ?_) | (with_reducible apply keepsO_some) | (with_reducible apply keepsR_next) | (fail_if_no_progress extract_lets) | split | (with_reducible apply Keeps.upd) | (with_reducible refine keepsO_get (by assumption) ?_) | (with_reducible refine keepsP_get (by assumption) ?_) | (with_reducible refine keepsQ_get (by assumption) ?_) | (with_reducible refine keepsOP_get (by assumption) ?_) | (intro hz; simp [hz]; done))

theorem keeps_execGroupDefine (r' : Request) {r s : State} (h : Keeps r s) :
    KeepsR r (execGroupDefine r' s) := by
  unfold execGroupDefine
  repeat' (first | with_reducible assumption | (with_reducible exact id) | (with_reducible exact Nat.le_refl _) | (with_reducible exact keepsO_none _) | (with_reducible exact keepsOP_none _) | (with_reducible apply keepsOP_some) | (with_reducible rfl) | (with_reducible refine keeps_foldl _ (fun _ _ _ => ?_) _ ?_) | (with_reducible apply keepsO_some) | (with_reducible apply keepsR_next) | (with_reducible refine keeps_serveCall _ _ _ _ (fun _ _ _ => ?_) ?_) | (with_reducible apply keeps_groupDefine))

theorem keeps_execGroupRelease (r' : Request) {r s : State} (h : Keeps r s) :
    KeepsR r (execGroupRelease r' s) := by
  unfold execGroupRelease
  repeat' (first | with_reducible assumption | (with_reducible exact id) | (with_reducible exact Nat.le_refl _) | (with_reducible exact keepsO_none _) | (with_reducible exact keepsOP_none _) | (with_reducible apply keepsOP_some) | (with_reducible rfl) | (with_reducible refine keeps_foldl _ (fun _ _ _ => ?_) _ ?_) | (with_reducible apply keepsO_some) | (with_reducible apply keepsR_next) | (with_reducible refine keeps_serveCall _ _ _ _ (fun _ _ _ => ?_) ?_) | (fail_if_no_progress extract_lets) | split | (with_reducible apply Keeps.upd) | (with_reducible refine keepsO_get (by assumption) ?_) | (with_reducible refine keepsP_get (by assumption) ?_) | (with_reducible refine keepsQ_get (by assumption) ?_) | (with_reducible refine keepsOP_get (by assumption) ?_) | (intro hz; simp [hz]; done))

theorem keeps_sessionOpen (fn : ℕ) (ps : List Byte) {r s : State} (h : Keeps r s) :
    Keeps r (sessionOpen fn ps s).1 := by
  unfold sessionOpen
  repeat' (first | with_reducible assumption | (with_reducible exact id) | (with_reducible exact Nat.le_refl _) | (with_reducible exact keepsO_none _) | (with_reducible exact keepsOP_none _) | (with_reducible apply keepsOP_some) | (with_reducible rfl) | (with_reducible refine keeps_foldl _ (fun _ _ _ => ?_) _ ?_) | (with_reducible apply keepsO_some) | (with_reducible apply keepsR_next) | (fail_if_no_progress extract_lets) | split | (with_reducible apply Keeps.upd) | (with_reducible refine keepsO_get (by assumption) ?_) | (with_reducible refine keepsP_get (by assumption) ?_) | (with_reducible refine keepsQ_get (by assumption) ?_) | (with_reducible refine keepsOP_get (by assumption) ?_) | (intro hz; simp [hz]; done))

theorem keeps_execCodecSessionOpen (r' : Request) {r s : State} (h : Keeps r s) :
    KeepsR r (execCodecSessionOpen r' s) := by
  unfold execCodecSessionOpen
  repeat' (first | with_reducible assumption | (with_reducible exact id) | (with_reducible exact Nat.le_refl _) | (with_reducible exact keepsO_none _) | (with_reducible exact keepsOP_none _) | (with_reducible apply keepsOP_some) | (with_reducible rfl) | (with_reducible refine keeps_foldl _ (fun _ _ _ => ?_) _ ?_) | (with_reducible apply keepsO_some) | (with_reducible apply keepsR_next) | (with_reducible refine keeps_serveCall _ _ _ _ (fun _ _ _ => ?_) ?_) | (with_reducible apply keeps_sessionOpen))

theorem keeps_execCodecSessionClose (r' : Request) {r s : State} (h : Keeps r s) :
    KeepsR r (execCodecSessionClose r' s) := by
  unfold execCodecSessionClose
  repeat' (first | with_reducible assumption | (with_reducible exact id) | (with_reducible exact Nat.le_refl _) | (with_reducible exact keepsO_none _) | (with_reducible exact keepsOP_none _) | (with_reducible apply keepsOP_some) | (with_reducible rfl) | (with_reducible refine keeps_foldl _ (fun _ _ _ => ?_) _ ?_) | (with_reducible apply keepsO_some) | (with_reducible apply keepsR_next) | (with_reducible refine keeps_serveCall _ _ _ _ (fun _ _ _ => ?_) ?_) | (with_reducible apply keeps_closeSession) | (fail_if_no_progress extract_lets) | split)

end Sys2Proof.Machine
end

