-- ==== Sys2Proof/Laws/KeepsChannels.lean ====
section
/-! SUPPORT. What the operations of Channels keep. -/
set_option linter.all false
namespace Sys2Proof.Machine

theorem keeps_strikeWhere (p : Job → Bool) (cause : Status) (kind : ℕ) (detail : BitVec 352) {r s : State} (h : Keeps r s) :
    Keeps r (strikeWhere p cause kind detail s) := by
  unfold strikeWhere
  repeat' (first | with_reducible assumption | (with_reducible exact id) | (with_reducible exact Nat.le_refl _) | (with_reducible exact keepsO_none _) | (with_reducible exact keepsOP_none _) | (with_reducible apply keepsOP_some) | (with_reducible rfl) | (with_reducible refine keeps_foldl _ (fun _ _ _ => ?_) _ ?_) | (with_reducible apply keepsO_some) | (with_reducible apply keepsR_next) | (with_reducible apply keeps_strikeJob))

theorem keeps_invalidateResident  {r s : State} (h : Keeps r s) :
    Keeps r (invalidateResident s) := by
  unfold invalidateResident
  repeat' (first | with_reducible assumption | (with_reducible exact id) | (with_reducible exact Nat.le_refl _) | (with_reducible exact keepsO_none _) | (with_reducible exact keepsOP_none _) | (with_reducible apply keepsOP_some) | (with_reducible rfl) | (with_reducible refine keeps_foldl _ (fun _ _ _ => ?_) _ ?_) | (with_reducible apply keepsO_some) | (with_reducible apply keepsR_next) | (with_reducible apply keeps_strikeWhere) | (fail_if_no_progress extract_lets) | split | (with_reducible apply Keeps.upd))

theorem keeps_updateAlert  {r s : State} (h : Keeps r s) :
    Keeps r (updateAlert s) := by
  unfold updateAlert
  repeat' (first | with_reducible assumption | (with_reducible exact id) | (with_reducible exact Nat.le_refl _) | (with_reducible exact keepsO_none _) | (with_reducible exact keepsOP_none _) | (with_reducible apply keepsOP_some) | (with_reducible rfl) | (with_reducible refine keeps_foldl _ (fun _ _ _ => ?_) _ ?_) | (with_reducible apply keepsO_some) | (with_reducible apply keepsR_next) | (fail_if_no_progress extract_lets) | split | (with_reducible apply Keeps.upd))

theorem keeps_beginRetrain (ch : ℕ) {r s : State} (h : Keeps r s) :
    Keeps r (beginRetrain ch s) := by
  unfold beginRetrain
  repeat' (first | with_reducible assumption | (with_reducible exact id) | (with_reducible exact Nat.le_refl _) | (with_reducible exact keepsO_none _) | (with_reducible exact keepsOP_none _) | (with_reducible apply keepsOP_some) | (with_reducible rfl) | (with_reducible refine keeps_foldl _ (fun _ _ _ => ?_) _ ?_) | (with_reducible apply keepsO_some) | (with_reducible apply keepsR_next) | (with_reducible apply keeps_State_updChan))

theorem keeps_gatePosition (p : ℕ) {r s : State} (h : Keeps r s) :
    Keeps r (gatePosition p s) := by
  unfold gatePosition
  repeat' (first | with_reducible assumption | (with_reducible exact id) | (with_reducible exact Nat.le_refl _) | (with_reducible exact keepsO_none _) | (with_reducible exact keepsOP_none _) | (with_reducible apply keepsOP_some) | (with_reducible rfl) | (with_reducible refine keeps_foldl _ (fun _ _ _ => ?_) _ ?_) | (with_reducible apply keepsO_some) | (with_reducible apply keepsR_next) | (with_reducible apply keeps_State_updChan) | (with_reducible apply keeps_beginRetrain) | (fail_if_no_progress extract_lets) | split | (with_reducible apply Keeps.upd) | (with_reducible refine keepsO_get (by assumption) ?_) | (with_reducible refine keepsP_get (by assumption) ?_) | (with_reducible refine keepsQ_get (by assumption) ?_) | (with_reducible refine keepsOP_get (by assumption) ?_) | (intro hz; simp [hz]; done))

theorem keeps_strikeScores (ch : ℕ) {r s : State} (h : Keeps r s) :
    Keeps r (strikeScores ch s) := by
  unfold strikeScores
  repeat' (first | with_reducible assumption | (with_reducible exact id) | (with_reducible exact Nat.le_refl _) | (with_reducible exact keepsO_none _) | (with_reducible exact keepsOP_none _) | (with_reducible apply keepsOP_some) | (with_reducible rfl) | (with_reducible refine keeps_foldl _ (fun _ _ _ => ?_) _ ?_) | (with_reducible apply keepsO_some) | (with_reducible apply keepsR_next) | (with_reducible apply keeps_abortGroups) | (with_reducible apply keeps_endResting) | (fail_if_no_progress extract_lets) | split | (with_reducible apply Keeps.upd) | (with_reducible refine keepsO_get (by assumption) ?_) | (with_reducible refine keepsP_get (by assumption) ?_) | (with_reducible refine keepsQ_get (by assumption) ?_) | (with_reducible refine keepsOP_get (by assumption) ?_) | (intro hz; simp [hz]; done))

theorem keeps_unbackResident (ch : ℕ) {r s : State} (h : Keeps r s) :
    Keeps r (unbackResident ch s) := by
  unfold unbackResident
  repeat' (first | with_reducible assumption | (with_reducible exact id) | (with_reducible exact Nat.le_refl _) | (with_reducible exact keepsO_none _) | (with_reducible exact keepsOP_none _) | (with_reducible apply keepsOP_some) | (with_reducible rfl) | (with_reducible refine keeps_foldl _ (fun _ _ _ => ?_) _ ?_) | (with_reducible apply keepsO_some) | (with_reducible apply keepsR_next) | (with_reducible apply keeps_respond) | (with_reducible apply keeps_failSwapJob) | (fail_if_no_progress extract_lets) | split | (with_reducible apply Keeps.upd))

theorem keeps_abandonFailed (e : Engine) (ch : ℕ) {r s : State} (h : Keeps r s) :
    Keeps r (abandonFailed e ch s) := by
  unfold abandonFailed
  repeat' (first | with_reducible assumption | (with_reducible exact id) | (with_reducible exact Nat.le_refl _) | (with_reducible exact keepsO_none _) | (with_reducible exact keepsOP_none _) | (with_reducible apply keepsOP_some) | (with_reducible rfl) | (with_reducible refine keeps_foldl _ (fun _ _ _ => ?_) _ ?_) | (with_reducible apply keepsO_some) | (with_reducible apply keepsR_next) | (with_reducible apply keeps_State_updEngine) | (with_reducible apply keeps_strikeJob) | (fail_if_no_progress extract_lets) | split)

theorem keeps_failSessions (ch : ℕ) {r s : State} (h : Keeps r s) :
    Keeps r (failSessions ch s) := by
  unfold failSessions
  repeat' (first | with_reducible assumption | (with_reducible exact id) | (with_reducible exact Nat.le_refl _) | (with_reducible exact keepsO_none _) | (with_reducible exact keepsOP_none _) | (with_reducible apply keepsOP_some) | (with_reducible rfl) | (with_reducible refine keeps_foldl _ (fun _ _ _ => ?_) _ ?_) | (with_reducible apply keepsO_some) | (with_reducible apply keepsR_next) | (with_reducible apply keeps_abandonFailed) | (fail_if_no_progress extract_lets) | split | (with_reducible apply Keeps.upd) | (with_reducible refine keepsO_get (by assumption) ?_) | (with_reducible refine keepsP_get (by assumption) ?_) | (with_reducible refine keepsQ_get (by assumption) ?_) | (with_reducible refine keepsOP_get (by assumption) ?_) | (intro hz; simp [hz]; done))

theorem keeps_dropSpills (ch : ℕ) {r s : State} (h : Keeps r s) :
    Keeps r (dropSpills ch s) := by
  unfold dropSpills
  repeat' (first | with_reducible assumption | (with_reducible exact id) | (with_reducible exact Nat.le_refl _) | (with_reducible exact keepsO_none _) | (with_reducible exact keepsOP_none _) | (with_reducible apply keepsOP_some) | (with_reducible rfl) | (with_reducible refine keeps_foldl _ (fun _ _ _ => ?_) _ ?_) | (with_reducible apply keepsO_some) | (with_reducible apply keepsR_next) | (fail_if_no_progress extract_lets) | split | (with_reducible apply Keeps.upd) | (with_reducible refine keepsO_get (by assumption) ?_) | (with_reducible refine keepsP_get (by assumption) ?_) | (with_reducible refine keepsQ_get (by assumption) ?_) | (with_reducible refine keepsOP_get (by assumption) ?_) | (intro hz; simp [hz]; done))

theorem keeps_leaveActive (ch : ℕ) (st : ChanState) {r s : State} (h : Keeps r s) :
    Keeps r (leaveActive ch st s) := by
  unfold leaveActive
  repeat' (first | with_reducible assumption | (with_reducible exact id) | (with_reducible exact Nat.le_refl _) | (with_reducible exact keepsO_none _) | (with_reducible exact keepsOP_none _) | (with_reducible apply keepsOP_some) | (with_reducible rfl) | (with_reducible refine keeps_foldl _ (fun _ _ _ => ?_) _ ?_) | (with_reducible apply keepsO_some) | (with_reducible apply keepsR_next) | (with_reducible apply keeps_State_updChan) | (with_reducible apply keeps_strikeWhere) | (with_reducible apply keeps_dropSpills) | (with_reducible apply keeps_failSessions) | (with_reducible apply keeps_unbackResident) | (with_reducible apply keeps_strikeScores) | (with_reducible apply keeps_gatePosition) | (with_reducible apply keeps_logError) | (fail_if_no_progress extract_lets) | split | (with_reducible apply Keeps.upd))

theorem keeps_retireChan (ch : ℕ) {r s : State} (h : Keeps r s) :
    Keeps r (retireChan ch s) := by
  unfold retireChan
  repeat' (first | with_reducible assumption | (with_reducible exact id) | (with_reducible exact Nat.le_refl _) | (with_reducible exact keepsO_none _) | (with_reducible exact keepsOP_none _) | (with_reducible apply keepsOP_some) | (with_reducible rfl) | (with_reducible refine keeps_foldl _ (fun _ _ _ => ?_) _ ?_) | (with_reducible apply keepsO_some) | (with_reducible apply keepsR_next) | (with_reducible apply keeps_leaveActive) | (with_reducible apply keeps_gatePosition) | (with_reducible apply keeps_State_updChan) | (fail_if_no_progress extract_lets) | split)

theorem keeps_notePosition (p : ℕ) (st : ℕ) {r s : State} (h : Keeps r s) :
    Keeps r (notePosition p st s) := by
  unfold notePosition
  repeat' (first | with_reducible assumption | (with_reducible exact id) | (with_reducible exact Nat.le_refl _) | (with_reducible exact keepsO_none _) | (with_reducible exact keepsOP_none _) | (with_reducible apply keepsOP_some) | (with_reducible rfl) | (with_reducible refine keeps_foldl _ (fun _ _ _ => ?_) _ ?_) | (with_reducible apply keepsO_some) | (with_reducible apply keepsR_next) | (fail_if_no_progress extract_lets) | split | (with_reducible apply Keeps.upd))

theorem keeps_retirePosition (p : ℕ) {r s : State} (h : Keeps r s) :
    Keeps r (retirePosition p s) := by
  unfold retirePosition
  repeat' (first | with_reducible assumption | (with_reducible exact id) | (with_reducible exact Nat.le_refl _) | (with_reducible exact keepsO_none _) | (with_reducible exact keepsOP_none _) | (with_reducible apply keepsOP_some) | (with_reducible rfl) | (with_reducible refine keeps_foldl _ (fun _ _ _ => ?_) _ ?_) | (with_reducible apply keepsO_some) | (with_reducible apply keepsR_next) | (with_reducible apply keeps_retireChan))

theorem keeps_restoreChan (ch : ℕ) {r s : State} (h : Keeps r s) :
    Keeps r (restoreChan ch s) := by
  unfold restoreChan
  repeat' (first | with_reducible assumption | (with_reducible exact id) | (with_reducible exact Nat.le_refl _) | (with_reducible exact keepsO_none _) | (with_reducible exact keepsOP_none _) | (with_reducible apply keepsOP_some) | (with_reducible rfl) | (with_reducible refine keeps_foldl _ (fun _ _ _ => ?_) _ ?_) | (with_reducible apply keepsO_some) | (with_reducible apply keepsR_next) | (with_reducible apply keeps_notePosition) | (with_reducible apply keeps_gatePosition) | (with_reducible apply keeps_forgetRange) | (with_reducible apply keeps_State_updChan))

theorem keeps_channelCall (ps : List Byte) {r s : State} (h : Keeps r s) : Keeps r (channelCall ps s).1 := by
  unfold channelCall
  extract_lets ch op force c ok
  clear_value op
  split
  · exact h
  · split
    · exact keeps_retireChan _ h
    · split
      · exact h
      · split
        · exact h
        · split
          · exact keeps_leaveActive _ _ h
          · exact keeps_gatePosition _ (keeps_State_updChan _ _ h)
          · exact h
    · split
      · exact h
      · split
        · exact h
        · exact keeps_restoreChan _ h

theorem keeps_channelRow (r' : Request) {r s : State} (h : Keeps r s) :
    Keeps r (channelRow r' s) := by
  unfold channelRow
  repeat' (first | with_reducible assumption | (with_reducible exact id) | (with_reducible exact Nat.le_refl _) | (with_reducible exact keepsO_none _) | (with_reducible exact keepsOP_none _) | (with_reducible apply keepsOP_some) | (with_reducible rfl) | (with_reducible refine keeps_foldl _ (fun _ _ _ => ?_) _ ?_) | (with_reducible apply keepsO_some) | (with_reducible apply keepsR_next) | (with_reducible apply keeps_settle) | (with_reducible refine keeps_serveCall _ _ _ _ (fun _ _ _ => ?_) ?_) | (with_reducible apply keeps_channelCall))

theorem keeps_execMemChannelRetire (r' : Request) {r s : State} (h : Keeps r s) :
    KeepsR r (execMemChannelRetire r' s) := by
  unfold execMemChannelRetire
  repeat' (first | with_reducible assumption | (with_reducible exact id) | (with_reducible exact Nat.le_refl _) | (with_reducible exact keepsO_none _) | (with_reducible exact keepsOP_none _) | (with_reducible apply keepsOP_some) | (with_reducible rfl) | (with_reducible refine keeps_foldl _ (fun _ _ _ => ?_) _ ?_) | (with_reducible apply keepsO_some) | (with_reducible apply keepsR_next) | (with_reducible apply keeps_channelRow))

theorem keeps_execMemChannelMaintenance (r' : Request) {r s : State} (h : Keeps r s) :
    KeepsR r (execMemChannelMaintenance r' s) := by
  unfold execMemChannelMaintenance
  repeat' (first | with_reducible assumption | (with_reducible exact id) | (with_reducible exact Nat.le_refl _) | (with_reducible exact keepsO_none _) | (with_reducible exact keepsOP_none _) | (with_reducible apply keepsOP_some) | (with_reducible rfl) | (with_reducible refine keeps_foldl _ (fun _ _ _ => ?_) _ ?_) | (with_reducible apply keepsO_some) | (with_reducible apply keepsR_next) | (with_reducible apply keeps_channelRow))

theorem keeps_execMemChannelRestore (r' : Request) {r s : State} (h : Keeps r s) :
    KeepsR r (execMemChannelRestore r' s) := by
  unfold execMemChannelRestore
  repeat' (first | with_reducible assumption | (with_reducible exact id) | (with_reducible exact Nat.le_refl _) | (with_reducible exact keepsO_none _) | (with_reducible exact keepsOP_none _) | (with_reducible apply keepsOP_some) | (with_reducible rfl) | (with_reducible refine keeps_foldl _ (fun _ _ _ => ?_) _ ?_) | (with_reducible apply keepsO_some) | (with_reducible apply keepsR_next) | (with_reducible apply keeps_channelRow))

theorem keeps_exerciseCall (r' : Request) (ps : List Byte) {r s : State} (h : Keeps r s) :
    Keeps r (exerciseCall r' ps s).1 := by
  unfold exerciseCall
  repeat' (first | with_reducible assumption | (with_reducible exact id) | (with_reducible exact Nat.le_refl _) | (with_reducible exact keepsO_none _) | (with_reducible exact keepsOP_none _) | (with_reducible apply keepsOP_some) | (with_reducible rfl) | (with_reducible refine keeps_foldl _ (fun _ _ _ => ?_) _ ?_) | (with_reducible apply keepsO_some) | (with_reducible apply keepsR_next) | (with_reducible apply keeps_State_updChan) | (fail_if_no_progress extract_lets) | split)

theorem keeps_exerciseRow (r' : Request) {r s : State} (h : Keeps r s) :
    Keeps r (exerciseRow r' s) := by
  unfold exerciseRow
  repeat' (first | with_reducible assumption | (with_reducible exact id) | (with_reducible exact Nat.le_refl _) | (with_reducible exact keepsO_none _) | (with_reducible exact keepsOP_none _) | (with_reducible apply keepsOP_some) | (with_reducible rfl) | (with_reducible refine keeps_foldl _ (fun _ _ _ => ?_) _ ?_) | (with_reducible apply keepsO_some) | (with_reducible apply keepsR_next) | (with_reducible refine keeps_serveCall _ _ _ _ (fun _ _ _ => ?_) ?_) | (with_reducible apply keeps_exerciseCall))

theorem keeps_execMemExercise (r' : Request) {r s : State} (h : Keeps r s) :
    KeepsR r (execMemExercise r' s) := by
  unfold execMemExercise
  repeat' (first | with_reducible assumption | (with_reducible exact id) | (with_reducible exact Nat.le_refl _) | (with_reducible exact keepsO_none _) | (with_reducible exact keepsOP_none _) | (with_reducible apply keepsOP_some) | (with_reducible rfl) | (with_reducible refine keeps_foldl _ (fun _ _ _ => ?_) _ ?_) | (with_reducible apply keepsO_some) | (with_reducible apply keepsR_next) | (with_reducible apply keeps_exerciseRow))

theorem keeps_execMemExerciseStop (r' : Request) {r s : State} (h : Keeps r s) :
    KeepsR r (execMemExerciseStop r' s) := by
  unfold execMemExerciseStop
  repeat' (first | with_reducible assumption | (with_reducible exact id) | (with_reducible exact Nat.le_refl _) | (with_reducible exact keepsO_none _) | (with_reducible exact keepsOP_none _) | (with_reducible apply keepsOP_some) | (with_reducible rfl) | (with_reducible refine keeps_foldl _ (fun _ _ _ => ?_) _ ?_) | (with_reducible apply keepsO_some) | (with_reducible apply keepsR_next) | (with_reducible apply keeps_exerciseRow))

theorem keeps_execMemExerciseDone (ch : Fin 128) (rep : ExerciseReport) {r s : State} (h : Keeps r s) :
    KeepsR r (execMemExerciseDone ch rep s) := by
  unfold execMemExerciseDone
  repeat' (first | with_reducible assumption | (with_reducible exact id) | (with_reducible exact Nat.le_refl _) | (with_reducible exact keepsO_none _) | (with_reducible exact keepsOP_none _) | (with_reducible apply keepsOP_some) | (with_reducible rfl) | (with_reducible refine keeps_foldl _ (fun _ _ _ => ?_) _ ?_) | (with_reducible apply keepsO_some) | (with_reducible apply keepsR_next) | (with_reducible apply keeps_State_updChan) | (with_reducible apply keeps_respond) | (with_reducible apply keeps_forgetRange) | (fail_if_no_progress extract_lets) | split)

theorem keeps_failCopy  {r s : State} (h : Keeps r s) :
    Keeps r (failCopy s) := by
  unfold failCopy
  repeat' (first | with_reducible assumption | (with_reducible exact id) | (with_reducible exact Nat.le_refl _) | (with_reducible exact keepsO_none _) | (with_reducible exact keepsOP_none _) | (with_reducible apply keepsOP_some) | (with_reducible rfl) | (with_reducible refine keeps_foldl _ (fun _ _ _ => ?_) _ ?_) | (with_reducible apply keepsO_some) | (with_reducible apply keepsR_next) | (with_reducible apply keeps_failSwap) | (with_reducible apply keeps_failSwapJob) | (with_reducible apply keeps_respond) | (fail_if_no_progress extract_lets) | split | (with_reducible apply Keeps.upd))

theorem keeps_exhaust (ch : ℕ) (who : MemRequester) {r s : State} (h : Keeps r s) :
    Keeps r (exhaust ch who s) := by
  unfold exhaust
  repeat' (first | with_reducible assumption | (with_reducible exact id) | (with_reducible exact Nat.le_refl _) | (with_reducible exact keepsO_none _) | (with_reducible exact keepsOP_none _) | (with_reducible apply keepsOP_some) | (with_reducible rfl) | (with_reducible refine keeps_foldl _ (fun _ _ _ => ?_) _ ?_) | (with_reducible apply keepsO_some) | (with_reducible apply keepsR_next) | (with_reducible apply keeps_strikeRunning) | (with_reducible apply keeps_State_emit) | (with_reducible apply keeps_invalidateResident) | (with_reducible apply keeps_strikeWhere) | (with_reducible apply keeps_State_updChan) | (with_reducible apply keeps_failCopy) | (fail_if_no_progress extract_lets) | split)

theorem keeps_execMemCrcRetry (ch : Fin 128) (who : MemRequester) (attempt : ℕ) {r s : State} (h : Keeps r s) :
    KeepsR r (execMemCrcRetry ch who attempt s) := by
  unfold execMemCrcRetry
  repeat' (first | with_reducible assumption | (with_reducible exact id) | (with_reducible exact Nat.le_refl _) | (with_reducible exact keepsO_none _) | (with_reducible exact keepsOP_none _) | (with_reducible apply keepsOP_some) | (with_reducible rfl) | (with_reducible refine keeps_foldl _ (fun _ _ _ => ?_) _ ?_) | (with_reducible apply keepsO_some) | (with_reducible apply keepsR_next) | (with_reducible apply keeps_State_updChan) | (with_reducible apply keeps_logError) | (with_reducible apply keeps_exhaust) | (with_reducible apply keeps_settle) | (with_reducible apply keeps_retireChan) | (fail_if_no_progress extract_lets) | split | (with_reducible apply Keeps.upd))

theorem keeps_pollChan (temps : List ℤ) (ch : ℕ) {r s : State} (h : Keeps r s) :
    Keeps r (pollChan temps s ch) := by
  unfold pollChan
  repeat' (first | with_reducible assumption | (with_reducible exact id) | (with_reducible exact Nat.le_refl _) | (with_reducible exact keepsO_none _) | (with_reducible exact keepsOP_none _) | (with_reducible apply keepsOP_some) | (with_reducible rfl) | (with_reducible refine keeps_foldl _ (fun _ _ _ => ?_) _ ?_) | (with_reducible apply keepsO_some) | (with_reducible apply keepsR_next) | (with_reducible apply keeps_State_updChan) | (with_reducible apply keeps_logError) | (with_reducible apply keeps_beginRetrain) | (fail_if_no_progress extract_lets) | split | (with_reducible apply Keeps.upd))

theorem keeps_execMemTempPoll (temps : List ℤ) {r s : State} (h : Keeps r s) :
    KeepsR r (execMemTempPoll temps s) := by
  unfold execMemTempPoll
  repeat' (first | with_reducible assumption | (with_reducible exact id) | (with_reducible exact Nat.le_refl _) | (with_reducible exact keepsO_none _) | (with_reducible exact keepsOP_none _) | (with_reducible apply keepsOP_some) | (with_reducible rfl) | (with_reducible refine keeps_foldl _ (fun _ _ _ => ?_) _ ?_) | (with_reducible apply keepsO_some) | (with_reducible apply keepsR_next) | (with_reducible apply keeps_updateAlert) | (with_reducible apply keeps_pollChan) | (fail_if_no_progress extract_lets) | split)

theorem keeps_execMemSuspendTimeout (ch : Fin 128) {r s : State} (h : Keeps r s) :
    KeepsR r (execMemSuspendTimeout ch s) := by
  unfold execMemSuspendTimeout
  repeat' (first | with_reducible assumption | (with_reducible exact id) | (with_reducible exact Nat.le_refl _) | (with_reducible exact keepsO_none _) | (with_reducible exact keepsOP_none _) | (with_reducible apply keepsOP_some) | (with_reducible rfl) | (with_reducible refine keeps_foldl _ (fun _ _ _ => ?_) _ ?_) | (with_reducible apply keepsO_some) | (with_reducible apply keepsR_next) | (with_reducible apply keeps_settle) | (with_reducible apply keeps_strikeWhere) | (with_reducible apply keeps_logError) | (fail_if_no_progress extract_lets) | split)

theorem keeps_execMemRetrain (ch : Fin 128) {r s : State} (h : Keeps r s) :
    KeepsR r (execMemRetrain ch s) := by
  unfold execMemRetrain
  repeat' (first | with_reducible assumption | (with_reducible exact id) | (with_reducible exact Nat.le_refl _) | (with_reducible exact keepsO_none _) | (with_reducible exact keepsOP_none _) | (with_reducible apply keepsOP_some) | (with_reducible rfl) | (with_reducible refine keeps_foldl _ (fun _ _ _ => ?_) _ ?_) | (with_reducible apply keepsO_some) | (with_reducible apply keepsR_next) | (with_reducible apply keeps_beginRetrain) | (fail_if_no_progress extract_lets) | split)

theorem keeps_execCammRecalibrate (ch : Fin 128) {r s : State} (h : Keeps r s) :
    KeepsR r (execCammRecalibrate ch s) := by
  unfold execCammRecalibrate
  repeat' (first | with_reducible assumption | (with_reducible exact id) | (with_reducible exact Nat.le_refl _) | (with_reducible exact keepsO_none _) | (with_reducible exact keepsOP_none _) | (with_reducible apply keepsOP_some) | (with_reducible rfl) | (with_reducible refine keeps_foldl _ (fun _ _ _ => ?_) _ ?_) | (with_reducible apply keepsO_some) | (with_reducible apply keepsR_next) | (with_reducible apply keeps_State_updChan) | (fail_if_no_progress extract_lets) | split)

theorem keeps_execMemRetrainDone (ch : Fin 128) (ok : Bool) (again : Bool) {r s : State} (h : Keeps r s) :
    KeepsR r (execMemRetrainDone ch ok again s) := by
  unfold execMemRetrainDone
  repeat' (first | with_reducible assumption | (with_reducible exact id) | (with_reducible exact Nat.le_refl _) | (with_reducible exact keepsO_none _) | (with_reducible exact keepsOP_none _) | (with_reducible apply keepsOP_some) | (with_reducible rfl) | (with_reducible refine keeps_foldl _ (fun _ _ _ => ?_) _ ?_) | (with_reducible apply keepsO_some) | (with_reducible apply keepsR_next) | (with_reducible apply keeps_logError) | (with_reducible apply keeps_State_updChan) | (with_reducible apply keeps_settle) | (with_reducible apply keeps_notePosition) | (with_reducible apply keeps_retireChan) | (fail_if_no_progress extract_lets) | split)

theorem keeps_execPatrolScrub (ch : Fin 128) (errorAddr : Option ℕ) {r s : State} (h : Keeps r s) :
    KeepsR r (execPatrolScrub ch errorAddr s) := by
  unfold execPatrolScrub
  repeat' (first | with_reducible assumption | (with_reducible exact id) | (with_reducible exact Nat.le_refl _) | (with_reducible exact keepsO_none _) | (with_reducible exact keepsOP_none _) | (with_reducible apply keepsOP_some) | (with_reducible rfl) | (with_reducible refine keeps_foldl _ (fun _ _ _ => ?_) _ ?_) | (with_reducible apply keepsO_some) | (with_reducible apply keepsR_next) | (with_reducible apply keeps_logError) | (fail_if_no_progress extract_lets) | split)

theorem keeps_execCammModuleLost (m : Fin 4) {r s : State} (h : Keeps r s) :
    KeepsR r (execCammModuleLost m s) := by
  unfold execCammModuleLost
  repeat' (first | with_reducible assumption | (with_reducible exact id) | (with_reducible exact Nat.le_refl _) | (with_reducible exact keepsO_none _) | (with_reducible exact keepsOP_none _) | (with_reducible apply keepsOP_some) | (with_reducible rfl) | (with_reducible refine keeps_foldl _ (fun _ _ _ => ?_) _ ?_) | (with_reducible apply keepsO_some) | (with_reducible apply keepsR_next) | (with_reducible apply keeps_retirePosition) | (with_reducible apply keeps_settle) | (with_reducible apply keeps_notePosition) | (fail_if_no_progress extract_lets) | split)

theorem keeps_execMemorySupplyFault (position : Fin 28) {r s : State} (h : Keeps r s) :
    KeepsR r (execMemorySupplyFault position s) := by
  unfold execMemorySupplyFault
  repeat' (first | with_reducible assumption | (with_reducible exact id) | (with_reducible exact Nat.le_refl _) | (with_reducible exact keepsO_none _) | (with_reducible exact keepsOP_none _) | (with_reducible apply keepsOP_some) | (with_reducible rfl) | (with_reducible refine keeps_foldl _ (fun _ _ _ => ?_) _ ?_) | (with_reducible apply keepsO_some) | (with_reducible apply keepsR_next) | (with_reducible apply keeps_settle) | (with_reducible apply keeps_notePosition) | (with_reducible apply keeps_retirePosition) | (fail_if_no_progress extract_lets) | split)

end Sys2Proof.Machine
end

