-- ==== Sys2Proof/Laws/KeepsParity.lean ====
section
/-! SUPPORT. What the operations of Parity keep. -/
set_option linter.all false
namespace Sys2Proof.Machine

theorem keeps_parityStrike (source : ℕ) (u : UnitId) (p : ℕ × ℕ) {r s : State} (h : Keeps r s) :
    Keeps r (parityStrike source u p s) := by
  unfold parityStrike
  repeat' (first | with_reducible assumption | (with_reducible exact id) | (with_reducible exact Nat.le_refl _) | (with_reducible exact keepsO_none _) | (with_reducible exact keepsOP_none _) | (with_reducible apply keepsOP_some) | (with_reducible rfl) | (with_reducible refine keeps_foldl _ (fun _ _ _ => ?_) _ ?_) | (with_reducible apply keepsO_some) | (with_reducible apply keepsR_next) | (with_reducible apply keeps_logError) | (with_reducible apply keeps_strikeRunning))

theorem keeps_execScratchParityError (c : Fin 256) (stave : Fin 16) {r s : State} (h : Keeps r s) :
    KeepsR r (execScratchParityError c stave s) := by
  unfold execScratchParityError
  repeat' (first | with_reducible assumption | (with_reducible exact id) | (with_reducible exact Nat.le_refl _) | (with_reducible exact keepsO_none _) | (with_reducible exact keepsOP_none _) | (with_reducible apply keepsOP_some) | (with_reducible rfl) | (with_reducible refine keeps_foldl _ (fun _ _ _ => ?_) _ ?_) | (with_reducible apply keepsO_some) | (with_reducible apply keepsR_next) | (with_reducible apply keeps_settle) | (with_reducible apply keeps_parityStrike))

theorem keeps_askRefill (c : ℕ) {r s : State} (h : Keeps r s) :
    Keeps r (askRefill c s) := by
  unfold askRefill
  repeat' (first | with_reducible assumption | (with_reducible exact id) | (with_reducible exact Nat.le_refl _) | (with_reducible exact keepsO_none _) | (with_reducible exact keepsOP_none _) | (with_reducible apply keepsOP_some) | (with_reducible rfl) | (with_reducible refine keeps_foldl _ (fun _ _ _ => ?_) _ ?_) | (with_reducible apply keepsO_some) | (with_reducible apply keepsR_next) | (with_reducible apply keeps_invalidateResident) | (fail_if_no_progress extract_lets) | split | (with_reducible apply Keeps.upd))

theorem keeps_execResidentParityError (c : Fin 256) (stave : Fin 16) {r s : State} (h : Keeps r s) :
    KeepsR r (execResidentParityError c stave s) := by
  unfold execResidentParityError
  repeat' (first | with_reducible assumption | (with_reducible exact id) | (with_reducible exact Nat.le_refl _) | (with_reducible exact keepsO_none _) | (with_reducible exact keepsOP_none _) | (with_reducible apply keepsOP_some) | (with_reducible rfl) | (with_reducible refine keeps_foldl _ (fun _ _ _ => ?_) _ ?_) | (with_reducible apply keepsO_some) | (with_reducible apply keepsR_next) | (with_reducible apply keeps_parityStrike) | (with_reducible apply keeps_logError) | (with_reducible apply keeps_settle) | (with_reducible apply keeps_askRefill) | (fail_if_no_progress extract_lets) | split | (with_reducible apply Keeps.upd))

theorem keeps_execResidentRefillDone (c : Fin 256) (ok : Bool) {r s : State} (h : Keeps r s) :
    KeepsR r (execResidentRefillDone c ok s) := by
  unfold execResidentRefillDone
  repeat' (first | with_reducible assumption | (with_reducible exact id) | (with_reducible exact Nat.le_refl _) | (with_reducible exact keepsO_none _) | (with_reducible exact keepsOP_none _) | (with_reducible apply keepsOP_some) | (with_reducible rfl) | (with_reducible refine keeps_foldl _ (fun _ _ _ => ?_) _ ?_) | (with_reducible apply keepsO_some) | (with_reducible apply keepsR_next) | (with_reducible apply keeps_settle) | (with_reducible apply keeps_fillCore) | (with_reducible apply keeps_invalidateResident) | (fail_if_no_progress extract_lets) | split | (with_reducible apply Keeps.upd))

theorem keeps_execMalletParityError (c : Fin 256) (mu : Fin 4) (unusedTile : Bool) {r s : State} (h : Keeps r s) :
    KeepsR r (execMalletParityError c mu unusedTile s) := by
  unfold execMalletParityError
  repeat' (first | with_reducible assumption | (with_reducible exact id) | (with_reducible exact Nat.le_refl _) | (with_reducible exact keepsO_none _) | (with_reducible exact keepsOP_none _) | (with_reducible apply keepsOP_some) | (with_reducible rfl) | (with_reducible refine keeps_foldl _ (fun _ _ _ => ?_) _ ?_) | (with_reducible apply keepsO_some) | (with_reducible apply keepsR_next) | (with_reducible apply keeps_State_updCore) | (with_reducible apply keeps_logError) | (with_reducible apply keeps_settle) | (with_reducible apply keeps_parityStrike) | (fail_if_no_progress extract_lets) | split)

theorem keeps_execGangParityError (c : Fin 256) (mu : Fin 4) (sa : Fin 8) {r s : State} (h : Keeps r s) :
    KeepsR r (execGangParityError c mu sa s) := by
  unfold execGangParityError
  repeat' (first | with_reducible assumption | (with_reducible exact id) | (with_reducible exact Nat.le_refl _) | (with_reducible exact keepsO_none _) | (with_reducible exact keepsOP_none _) | (with_reducible apply keepsOP_some) | (with_reducible rfl) | (with_reducible refine keeps_foldl _ (fun _ _ _ => ?_) _ ?_) | (with_reducible apply keepsO_some) | (with_reducible apply keepsR_next) | (with_reducible apply keeps_State_updCore) | (with_reducible apply keeps_logError) | (fail_if_no_progress extract_lets) | split)

theorem keeps_execStaveParityError (u : UnitId) (again : Bool) {r s : State} (h : Keeps r s) :
    KeepsR r (execStaveParityError u again s) := by
  unfold execStaveParityError
  repeat' (first | with_reducible assumption | (with_reducible exact id) | (with_reducible exact Nat.le_refl _) | (with_reducible exact keepsO_none _) | (with_reducible exact keepsOP_none _) | (with_reducible apply keepsOP_some) | (with_reducible rfl) | (with_reducible refine keeps_foldl _ (fun _ _ _ => ?_) _ ?_) | (with_reducible apply keepsO_some) | (with_reducible apply keepsR_next) | (with_reducible apply keeps_settle) | (with_reducible apply keeps_parityStrike) | (with_reducible apply keeps_logError) | (fail_if_no_progress extract_lets) | split)

theorem keeps_execChimeBankParityError (c : Fin 256) (slot : Fin 8) {r s : State} (h : Keeps r s) :
    KeepsR r (execChimeBankParityError c slot s) := by
  unfold execChimeBankParityError
  repeat' (first | with_reducible assumption | (with_reducible exact id) | (with_reducible exact Nat.le_refl _) | (with_reducible exact keepsO_none _) | (with_reducible exact keepsOP_none _) | (with_reducible apply keepsOP_some) | (with_reducible rfl) | (with_reducible refine keeps_foldl _ (fun _ _ _ => ?_) _ ?_) | (with_reducible apply keepsO_some) | (with_reducible apply keepsR_next) | (with_reducible apply keeps_logError) | (with_reducible apply keeps_settle) | (with_reducible apply keeps_strikeRunning))

theorem keeps_ownerMeets (source : ℕ) (owner : FlitOwner) (place : ℕ) {r s : State} (h : Keeps r s) :
    Keeps r (ownerMeets source owner place s) := by
  unfold ownerMeets
  repeat' (first | with_reducible assumption | (with_reducible exact id) | (with_reducible exact Nat.le_refl _) | (with_reducible exact keepsO_none _) | (with_reducible exact keepsOP_none _) | (with_reducible apply keepsOP_some) | (with_reducible rfl) | (with_reducible refine keeps_foldl _ (fun _ _ _ => ?_) _ ?_) | (with_reducible apply keepsO_some) | (with_reducible apply keepsR_next) | (with_reducible apply keeps_strikeRunning) | (with_reducible apply keeps_logError) | (with_reducible apply keeps_State_emit) | (fail_if_no_progress extract_lets) | split)

theorem keeps_execMeshFlitParityError (owner : FlitOwner) (row : Fin 16) {r s : State} (h : Keeps r s) :
    KeepsR r (execMeshFlitParityError owner row s) := by
  unfold execMeshFlitParityError
  repeat' (first | with_reducible assumption | (with_reducible exact id) | (with_reducible exact Nat.le_refl _) | (with_reducible exact keepsO_none _) | (with_reducible exact keepsOP_none _) | (with_reducible apply keepsOP_some) | (with_reducible rfl) | (with_reducible refine keeps_foldl _ (fun _ _ _ => ?_) _ ?_) | (with_reducible apply keepsO_some) | (with_reducible apply keepsR_next) | (with_reducible apply keeps_settle) | (with_reducible apply keeps_ownerMeets))

theorem keeps_dropOldest (p : ℕ) {r s : State} (h : Keeps r s) :
    Keeps r (dropOldest p s) := by
  unfold dropOldest
  repeat' (first | with_reducible assumption | (with_reducible exact id) | (with_reducible exact Nat.le_refl _) | (with_reducible exact keepsO_none _) | (with_reducible exact keepsOP_none _) | (with_reducible apply keepsOP_some) | (with_reducible rfl) | (with_reducible refine keeps_foldl _ (fun _ _ _ => ?_) _ ?_) | (with_reducible apply keepsO_some) | (with_reducible apply keepsR_next) | (with_reducible apply keeps_oweCredit) | (with_reducible apply keeps_discardFlit) | (with_reducible apply keeps_State_updPort) | (fail_if_no_progress extract_lets) | split | (with_reducible apply Keeps.upd))

theorem keeps_execFifoParityError (owner : FlitOwner) (domain : ℕ) {r s : State} (h : Keeps r s) :
    KeepsR r (execFifoParityError owner domain s) := by
  unfold execFifoParityError
  repeat' (first | with_reducible assumption | (with_reducible exact id) | (with_reducible exact Nat.le_refl _) | (with_reducible exact keepsO_none _) | (with_reducible exact keepsOP_none _) | (with_reducible apply keepsOP_some) | (with_reducible rfl) | (with_reducible refine keeps_foldl _ (fun _ _ _ => ?_) _ ?_) | (with_reducible apply keepsO_some) | (with_reducible apply keepsR_next) | (with_reducible apply keeps_ownerMeets) | (with_reducible apply keeps_settle) | (with_reducible apply keeps_dropOldest) | (fail_if_no_progress extract_lets) | split)

theorem keeps_execAmiorParityError  {r s : State} (h : Keeps r s) :
    KeepsR r (execAmiorParityError s) := by
  unfold execAmiorParityError
  repeat' (first | with_reducible assumption | (with_reducible exact id) | (with_reducible exact Nat.le_refl _) | (with_reducible exact keepsO_none _) | (with_reducible exact keepsOP_none _) | (with_reducible apply keepsOP_some) | (with_reducible rfl) | (with_reducible refine keeps_foldl _ (fun _ _ _ => ?_) _ ?_) | (with_reducible apply keepsO_some) | (with_reducible apply keepsR_next) | (with_reducible apply keeps_haltFirmware) | (fail_if_no_progress extract_lets) | split)

end Sys2Proof.Machine
end

