-- ==== Sys2Proof/Laws/KeepsPeal.lean ====
section
/-! SUPPORT. What the operations of Peal keep. -/
set_option linter.all false
namespace Sys2Proof.Machine

theorem keeps_execPortTrained (p : Fin 16) (rate : ℕ) {r s : State} (h : Keeps r s) :
    KeepsR r (execPortTrained p rate s) := by
  unfold execPortTrained
  repeat' (first | with_reducible assumption | (with_reducible exact id) | (with_reducible exact Nat.le_refl _) | (with_reducible exact keepsO_none _) | (with_reducible exact keepsOP_none _) | (with_reducible apply keepsOP_some) | (with_reducible rfl) | (with_reducible refine keeps_foldl _ (fun _ _ _ => ?_) _ ?_) | (with_reducible apply keepsO_some) | (with_reducible apply keepsR_next) | (with_reducible apply keeps_sendLink) | (with_reducible apply keeps_State_updPort) | (fail_if_no_progress extract_lets) | split)

theorem keeps_execPortRetryTrain (p : Fin 16) {r s : State} (h : Keeps r s) :
    KeepsR r (execPortRetryTrain p s) := by
  unfold execPortRetryTrain
  repeat' (first | with_reducible assumption | (with_reducible exact id) | (with_reducible exact Nat.le_refl _) | (with_reducible exact keepsO_none _) | (with_reducible exact keepsOP_none _) | (with_reducible apply keepsOP_some) | (with_reducible rfl) | (with_reducible refine keeps_foldl _ (fun _ _ _ => ?_) _ ?_) | (with_reducible apply keepsO_some) | (with_reducible apply keepsR_next) | (with_reducible apply keeps_State_updPort) | (fail_if_no_progress extract_lets) | split)

theorem keeps_execLinkDown (p : Fin 16) {r s : State} (h : Keeps r s) :
    KeepsR r (execLinkDown p s) := by
  unfold execLinkDown
  repeat' (first | with_reducible assumption | (with_reducible exact id) | (with_reducible exact Nat.le_refl _) | (with_reducible exact keepsO_none _) | (with_reducible exact keepsOP_none _) | (with_reducible apply keepsOP_some) | (with_reducible rfl) | (with_reducible refine keeps_foldl _ (fun _ _ _ => ?_) _ ?_) | (with_reducible apply keepsO_some) | (with_reducible apply keepsR_next) | (with_reducible apply keeps_dropPort) | (fail_if_no_progress extract_lets) | split)

theorem keeps_failPort (p : ℕ) {r s : State} (h : Keeps r s) :
    Keeps r (failPort p s) := by
  unfold failPort
  repeat' (first | with_reducible assumption | (with_reducible exact id) | (with_reducible exact Nat.le_refl _) | (with_reducible exact keepsO_none _) | (with_reducible exact keepsOP_none _) | (with_reducible apply keepsOP_some) | (with_reducible rfl) | (with_reducible refine keeps_foldl _ (fun _ _ _ => ?_) _ ?_) | (with_reducible apply keepsO_some) | (with_reducible apply keepsR_next) | (with_reducible apply keeps_State_updPort) | (with_reducible apply keeps_logError) | (with_reducible apply keeps_stopPort))

theorem keeps_takeCredit (p : ℕ) (vc : BitVec 6) (n : ℕ) {r s : State} (h : Keeps r s) :
    Keeps r (takeCredit p vc n s) := by
  unfold takeCredit
  repeat' (first | with_reducible assumption | (with_reducible exact id) | (with_reducible exact Nat.le_refl _) | (with_reducible exact keepsO_none _) | (with_reducible exact keepsOP_none _) | (with_reducible apply keepsOP_some) | (with_reducible rfl) | (with_reducible refine keeps_foldl _ (fun _ _ _ => ?_) _ ?_) | (with_reducible apply keepsO_some) | (with_reducible apply keepsR_next) | (with_reducible apply keeps_State_updPort) | (fail_if_no_progress extract_lets) | split)

theorem keeps_takeHeader (p : ℕ) (f : Flit) {r s : State} (h : Keeps r s) :
    Keeps r (takeHeader p f s) := by
  unfold takeHeader
  repeat' (first | with_reducible assumption | (with_reducible exact id) | (with_reducible exact Nat.le_refl _) | (with_reducible exact keepsO_none _) | (with_reducible exact keepsOP_none _) | (with_reducible apply keepsOP_some) | (with_reducible rfl) | (with_reducible refine keeps_foldl _ (fun _ _ _ => ?_) _ ?_) | (with_reducible apply keepsO_some) | (with_reducible apply keepsR_next) | (with_reducible apply keeps_State_updPort) | (with_reducible apply keeps_flush) | (with_reducible apply keeps_takeCredit) | (fail_if_no_progress extract_lets) | split)

theorem keeps_countCorrected (p : ℕ) (n : ℕ) {r s : State} (h : Keeps r s) :
    Keeps r (countCorrected p n s) := by
  unfold countCorrected
  repeat' (first | with_reducible assumption | (with_reducible exact id) | (with_reducible exact Nat.le_refl _) | (with_reducible exact keepsO_none _) | (with_reducible exact keepsOP_none _) | (with_reducible apply keepsOP_some) | (with_reducible rfl) | (with_reducible refine keeps_foldl _ (fun _ _ _ => ?_) _ ?_) | (with_reducible apply keepsO_some) | (with_reducible apply keepsR_next) | (with_reducible apply keeps_State_updPort))

theorem keeps_flitError (p : ℕ) (uncorrectable : Bool) {r s : State} (h : Keeps r s) :
    Keeps r (flitError p uncorrectable s) := by
  unfold flitError
  repeat' (first | with_reducible assumption | (with_reducible exact id) | (with_reducible exact Nat.le_refl _) | (with_reducible exact keepsO_none _) | (with_reducible exact keepsOP_none _) | (with_reducible apply keepsOP_some) | (with_reducible rfl) | (with_reducible refine keeps_foldl _ (fun _ _ _ => ?_) _ ?_) | (with_reducible apply keepsO_some) | (with_reducible apply keepsR_next) | (with_reducible apply keeps_State_updPort) | (with_reducible apply keeps_sendNack) | (fail_if_no_progress extract_lets) | split)

theorem keeps_receive (p : Nat) (w : WireFlit) (suits : Flit → Bool) (act : Flit → State → State) {r s : State}
    (ha : ∀ f t, Keeps r t → Keeps r (act f t)) (h : Keeps r s) : Keeps r (receive p w suits act s) := by
  unfold receive
  split
  · exact h
  · have ht := keeps_countCorrected p w.corrected h
    dsimp only
    split
    · exact keeps_flitError _ _ ht
    · split
      · split
        · exact ha _ _ ht
        · exact ht
      · exact ht

theorem keeps_takeSequenced (p : ℕ) (f : Flit) {r s : State} (h : Keeps r s) :
    KeepsO r (takeSequenced p f s) := by
  unfold takeSequenced
  repeat' (first | with_reducible assumption | (with_reducible exact id) | (with_reducible exact Nat.le_refl _) | (with_reducible exact keepsO_none _) | (with_reducible exact keepsOP_none _) | (with_reducible apply keepsOP_some) | (with_reducible rfl) | (with_reducible refine keeps_foldl _ (fun _ _ _ => ?_) _ ?_) | (with_reducible apply keepsO_some) | (with_reducible apply keepsR_next) | (with_reducible apply keeps_takeHeader) | (with_reducible apply keeps_State_updPort) | (fail_if_no_progress extract_lets) | split)

theorem keeps_inOrder (p : Nat) (act : Flit → State → State) (f : Flit) {r s : State} (ha : ∀ f t, Keeps r t → Keeps r (act f t)) (h : Keeps r s) :
    Keeps r (inOrder p act f s) := by
  have hs := keeps_takeSequenced p f h
  unfold inOrder
  split
  · rename_i e
    exact keeps_answerPort _ (ha _ _ (keepsO_get e hs))
  · exact h

theorem keeps_consume (p : Nat) (act : State → State) (f : Flit) {r s : State} (ha : ∀ t, Keeps r t → Keeps r (act t)) (h : Keeps r s) :
    Keeps r (consume p act f s) := by
  exact keeps_oweCredit _ _ (ha _ h)

theorem keeps_consumeHere (p : Nat) (act : State → State) (f : Flit) {r s : State} (ha : ∀ t, Keeps r t → Keeps r (act t)) (h : Keeps r s) :
    Keeps r (consumeHere p act f s) := by
  unfold consumeHere
  split
  · exact keeps_consume _ _ _ ha h
  · exact keeps_routeFlit _ _ _ h

theorem keeps_takeIdentity (p : ℕ) (who : Identity) {r s : State} (h : Keeps r s) :
    Keeps r (takeIdentity p who s) := by
  unfold takeIdentity
  repeat' (first | with_reducible assumption | (with_reducible exact id) | (with_reducible exact Nat.le_refl _) | (with_reducible exact keepsO_none _) | (with_reducible exact keepsOP_none _) | (with_reducible apply keepsOP_some) | (with_reducible rfl) | (with_reducible refine keeps_foldl _ (fun _ _ _ => ?_) _ ?_) | (with_reducible apply keepsO_some) | (with_reducible apply keepsR_next) | (with_reducible apply keeps_State_updPort) | (with_reducible apply keeps_logError) | (with_reducible apply keeps_stopPort) | (fail_if_no_progress extract_lets) | split)

theorem keeps_execIdentityExchange (w : PortFlit) (who : Identity) {r s : State} (h : Keeps r s) :
    KeepsR r (execIdentityExchange w who s) := by
  exact keeps_receive _ _ _ _ (fun _ _ ht => keeps_inOrder _ _ _ (fun _ _ ht => keeps_consume _ _ _ (fun _ ht => keeps_takeIdentity _ _ ht) ht) ht) h

theorem keeps_execIdleFlitRx (p : Fin 16) (w : WireFlit) {r s : State} (h : Keeps r s) : KeepsR r (execIdleFlitRx p w s) := by
  exact keeps_receive _ _ _ _ (fun _ _ ht => keeps_sendCredits (keeps_takeHeader _ _ ht)) h

theorem keeps_execLinkCredit (w : PortFlit) (credits : List (BitVec 6 × Nat)) {r s : State} (h : Keeps r s) :
    KeepsR r (execLinkCredit w credits s) := by
  exact keeps_receive _ _ _ _ (fun _ _ ht => keeps_inOrder _ _ _ (fun _ _ ht => keeps_consume _ _ _
    (fun _ ht => keeps_flush _ (keeps_foldl _ (fun _ _ hk => keeps_takeCredit _ _ _ hk) _ ht)) ht) ht) h

theorem keeps_goBack (p : ℕ) (seq : BitVec 8) {r s : State} (h : Keeps r s) :
    Keeps r (goBack p seq s) := by
  unfold goBack
  repeat' (first | with_reducible assumption | (with_reducible exact id) | (with_reducible exact Nat.le_refl _) | (with_reducible exact keepsO_none _) | (with_reducible exact keepsOP_none _) | (with_reducible apply keepsOP_some) | (with_reducible rfl) | (with_reducible refine keeps_foldl _ (fun _ _ _ => ?_) _ ?_) | (with_reducible apply keepsO_some) | (with_reducible apply keepsR_next) | (with_reducible apply keeps_State_updPort) | (with_reducible apply keeps_failPort) | (with_reducible apply keeps_State_emit) | (fail_if_no_progress extract_lets) | split)

theorem keeps_execLinkNack (w : PortFlit) (seq : BitVec 8) {r s : State} (h : Keeps r s) : KeepsR r (execLinkNack w seq s) := by
  exact keeps_receive _ _ _ _ (fun _ _ ht => keeps_goBack _ _ (keeps_takeHeader _ _ ht)) h

theorem keeps_execFlitCrcError (p : Fin 16) (uncorrectable : Bool) {r s : State} (h : Keeps r s) :
    KeepsR r (execFlitCrcError p uncorrectable s) := by
  unfold execFlitCrcError
  repeat' (first | with_reducible assumption | (with_reducible exact id) | (with_reducible exact Nat.le_refl _) | (with_reducible exact keepsO_none _) | (with_reducible exact keepsOP_none _) | (with_reducible apply keepsOP_some) | (with_reducible rfl) | (with_reducible refine keeps_foldl _ (fun _ _ _ => ?_) _ ?_) | (with_reducible apply keepsO_some) | (with_reducible apply keepsR_next) | (with_reducible apply keeps_flitError) | (fail_if_no_progress extract_lets) | split)

theorem keeps_execNackRepeat (p : Fin 16) {r s : State} (h : Keeps r s) :
    KeepsR r (execNackRepeat p s) := by
  unfold execNackRepeat
  repeat' (first | with_reducible assumption | (with_reducible exact id) | (with_reducible exact Nat.le_refl _) | (with_reducible exact keepsO_none _) | (with_reducible exact keepsOP_none _) | (with_reducible apply keepsOP_some) | (with_reducible rfl) | (with_reducible refine keeps_foldl _ (fun _ _ _ => ?_) _ ?_) | (with_reducible apply keepsO_some) | (with_reducible apply keepsR_next) | (with_reducible apply keeps_sendNack) | (fail_if_no_progress extract_lets) | split)

theorem keeps_execSendFlitRx (p : Fin 16) (src : BitVec 14) (w : WireFlit) {r s : State} (h : Keeps r s) : KeepsR r (execSendFlitRx p src w s) := by
  exact keeps_receive _ _ _ _ (fun _ _ ht => keeps_inOrder _ _ _ (fun _ _ ht => keeps_offerFlit _ _ _ ht) ht) h

theorem keeps_execSendAck (w : PortFlit) (xtag : BitVec 7) (landed : Landed) {r s : State} (h : Keeps r s) :
    KeepsR r (execSendAck w xtag landed s) := by
  exact keeps_receive _ _ _ _ (fun _ _ ht => keeps_inOrder _ _ _ (fun _ _ ht => keeps_consumeHere _ _ _
    (fun _ ht => keeps_ackSend _ _ _ ht) ht) ht) h

theorem keeps_execCollFlitRx (p : Fin 16) (w : WireFlit) {r s : State} (h : Keeps r s) : KeepsR r (execCollFlitRx p w s) := by
  exact keeps_settle (keeps_receive _ _ _ _ (fun _ _ ht => keeps_inOrder _ _ _ (fun _ _ ht => keeps_offerFlit _ _ _ ht) ht) h)

theorem keeps_clapArrives (w : PortFlit) (kind : Nat) (act : Group → ClapMsg → State → State) {r s : State}
    (ha : ∀ g m t, Keeps r t → Keeps r (act g m t)) (h : Keeps r s) : Keeps r (clapArrives w kind act s) := by
  unfold clapArrives
  refine keeps_receive _ _ _ _ (fun f t ht => keeps_inOrder _ _ _ (fun f t ht => keeps_consumeHere _ _ _ (fun t ht => ?_) ht) ht) h
  dsimp only
  split
  · exact ha _ _ _ ht
  · exact ht

theorem keeps_takeUp (g : Group) (m : ClapMsg) {r s : State} (h : Keeps r s) :
    Keeps r (takeUp g m s) := by
  unfold takeUp
  repeat' (first | with_reducible assumption | (with_reducible exact id) | (with_reducible exact Nat.le_refl _) | (with_reducible exact keepsO_none _) | (with_reducible exact keepsOP_none _) | (with_reducible apply keepsOP_some) | (with_reducible rfl) | (with_reducible refine keeps_foldl _ (fun _ _ _ => ?_) _ ?_) | (with_reducible apply keepsO_some) | (with_reducible apply keepsR_next) | (with_reducible apply keeps_afterCheck) | (with_reducible apply keeps_tryUp) | (with_reducible apply keeps_State_updGroup) | (fail_if_no_progress extract_lets) | split)

theorem keeps_execClapUp (w : PortFlit) {r s : State} (h : Keeps r s) :
    KeepsR r (execClapUp w s) := by
  unfold execClapUp
  repeat' (first | with_reducible assumption | (with_reducible exact id) | (with_reducible exact Nat.le_refl _) | (with_reducible exact keepsO_none _) | (with_reducible exact keepsOP_none _) | (with_reducible apply keepsOP_some) | (with_reducible rfl) | (with_reducible refine keeps_foldl _ (fun _ _ _ => ?_) _ ?_) | (with_reducible apply keepsO_some) | (with_reducible apply keepsR_next) | (with_reducible apply keeps_settle) | (with_reducible refine keeps_clapArrives _ _ _ (fun _ _ _ _ => ?_) ?_) | (with_reducible apply keeps_takeUp))

theorem keeps_takeResult (g : Group) (m : ClapMsg) {r s : State} (h : Keeps r s) :
    Keeps r (takeResult g m s) := by
  unfold takeResult
  repeat' (first | with_reducible assumption | (with_reducible exact id) | (with_reducible exact Nat.le_refl _) | (with_reducible exact keepsO_none _) | (with_reducible exact keepsOP_none _) | (with_reducible apply keepsOP_some) | (with_reducible rfl) | (with_reducible refine keeps_foldl _ (fun _ _ _ => ?_) _ ?_) | (with_reducible apply keepsO_some) | (with_reducible apply keepsR_next) | (with_reducible apply keeps_afterCheck) | (with_reducible apply keeps_takeDown) | (fail_if_no_progress extract_lets) | split)

theorem keeps_execClapDown (w : PortFlit) {r s : State} (h : Keeps r s) :
    KeepsR r (execClapDown w s) := by
  unfold execClapDown
  repeat' (first | with_reducible assumption | (with_reducible exact id) | (with_reducible exact Nat.le_refl _) | (with_reducible exact keepsO_none _) | (with_reducible exact keepsOP_none _) | (with_reducible apply keepsOP_some) | (with_reducible rfl) | (with_reducible refine keeps_foldl _ (fun _ _ _ => ?_) _ ?_) | (with_reducible apply keepsO_some) | (with_reducible apply keepsR_next) | (with_reducible apply keeps_settle) | (with_reducible refine keeps_clapArrives _ _ _ (fun _ _ _ _ => ?_) ?_) | (with_reducible apply keeps_takeResult))

theorem keeps_takeRequestUp (g : Group) (m : ClapMsg) {r s : State} (h : Keeps r s) :
    Keeps r (takeRequestUp g m s) := by
  unfold takeRequestUp
  repeat' (first | with_reducible assumption | (with_reducible exact id) | (with_reducible exact Nat.le_refl _) | (with_reducible exact keepsO_none _) | (with_reducible exact keepsOP_none _) | (with_reducible apply keepsOP_some) | (with_reducible rfl) | (with_reducible refine keeps_foldl _ (fun _ _ _ => ?_) _ ?_) | (with_reducible apply keepsO_some) | (with_reducible apply keepsR_next) | (with_reducible apply keeps_decideAbort) | (with_reducible apply keeps_sendClap) | (fail_if_no_progress extract_lets) | split)

theorem keeps_execClapAbortRequest (w : PortFlit) {r s : State} (h : Keeps r s) :
    KeepsR r (execClapAbortRequest w s) := by
  unfold execClapAbortRequest
  repeat' (first | with_reducible assumption | (with_reducible exact id) | (with_reducible exact Nat.le_refl _) | (with_reducible exact keepsO_none _) | (with_reducible exact keepsOP_none _) | (with_reducible apply keepsOP_some) | (with_reducible rfl) | (with_reducible refine keeps_foldl _ (fun _ _ _ => ?_) _ ?_) | (with_reducible apply keepsO_some) | (with_reducible apply keepsR_next) | (with_reducible apply keeps_settle) | (with_reducible refine keeps_clapArrives _ _ _ (fun _ _ _ _ => ?_) ?_) | (with_reducible apply keeps_takeRequestUp))

theorem keeps_takeDecision (g : Group) (m : ClapMsg) {r s : State} (h : Keeps r s) :
    Keeps r (takeDecision g m s) := by
  unfold takeDecision
  repeat' (first | with_reducible assumption | (with_reducible exact id) | (with_reducible exact Nat.le_refl _) | (with_reducible exact keepsO_none _) | (with_reducible exact keepsOP_none _) | (with_reducible apply keepsOP_some) | (with_reducible rfl) | (with_reducible refine keeps_foldl _ (fun _ _ _ => ?_) _ ?_) | (with_reducible apply keepsO_some) | (with_reducible apply keepsR_next) | (with_reducible apply keeps_afterCheck) | (with_reducible apply keeps_takeDone) | (with_reducible apply keeps_sendChildren) | (with_reducible apply keeps_State_updGroup) | (with_reducible apply keeps_applyAbort) | (fail_if_no_progress extract_lets) | split)

theorem keeps_execClapDecision (w : PortFlit) {r s : State} (h : Keeps r s) :
    KeepsR r (execClapDecision w s) := by
  unfold execClapDecision
  repeat' (first | with_reducible assumption | (with_reducible exact id) | (with_reducible exact Nat.le_refl _) | (with_reducible exact keepsO_none _) | (with_reducible exact keepsOP_none _) | (with_reducible apply keepsOP_some) | (with_reducible rfl) | (with_reducible refine keeps_foldl _ (fun _ _ _ => ?_) _ ?_) | (with_reducible apply keepsO_some) | (with_reducible apply keepsR_next) | (with_reducible apply keeps_settle) | (with_reducible refine keeps_clapArrives _ _ _ (fun _ _ _ _ => ?_) ?_) | (with_reducible apply keeps_takeDecision))

theorem keeps_execXferTimeout (u : UnitId) (slot : ℕ) {r s : State} (h : Keeps r s) :
    KeepsR r (execXferTimeout u slot s) := by
  unfold execXferTimeout
  repeat' (first | with_reducible assumption | (with_reducible exact id) | (with_reducible exact Nat.le_refl _) | (with_reducible exact keepsO_none _) | (with_reducible exact keepsOP_none _) | (with_reducible apply keepsOP_some) | (with_reducible rfl) | (with_reducible refine keeps_foldl _ (fun _ _ _ => ?_) _ ?_) | (with_reducible apply keepsO_some) | (with_reducible apply keepsR_next) | (with_reducible apply keeps_logError) | (with_reducible apply keeps_settle) | (with_reducible apply keeps_strikeRunning) | (fail_if_no_progress extract_lets) | split)

theorem keeps_execCollTimeout (tag : Word) {r s : State} (h : Keeps r s) :
    KeepsR r (execCollTimeout tag s) := by
  unfold execCollTimeout
  repeat' (first | with_reducible assumption | (with_reducible exact id) | (with_reducible exact Nat.le_refl _) | (with_reducible exact keepsO_none _) | (with_reducible exact keepsOP_none _) | (with_reducible apply keepsOP_some) | (with_reducible rfl) | (with_reducible refine keeps_foldl _ (fun _ _ _ => ?_) _ ?_) | (with_reducible apply keepsO_some) | (with_reducible apply keepsR_next) | (with_reducible apply keeps_settle) | (with_reducible apply keeps_requestAbort) | (fail_if_no_progress extract_lets) | split)

theorem keeps_execAbortNoDecision (tag : Word) {r s : State} (h : Keeps r s) :
    KeepsR r (execAbortNoDecision tag s) := by
  unfold execAbortNoDecision
  repeat' (first | with_reducible assumption | (with_reducible exact id) | (with_reducible exact Nat.le_refl _) | (with_reducible exact keepsO_none _) | (with_reducible exact keepsOP_none _) | (with_reducible apply keepsOP_some) | (with_reducible rfl) | (with_reducible refine keeps_foldl _ (fun _ _ _ => ?_) _ ?_) | (with_reducible apply keepsO_some) | (with_reducible apply keepsR_next) | (with_reducible apply keeps_settle) | (with_reducible apply keeps_endAbort) | (fail_if_no_progress extract_lets) | split)

end Sys2Proof.Machine
end

