-- ==== Sys2Proof/Laws/KeepsDoorbells.lean ====
section
/-! SUPPORT. What the operations of Doorbells keep. -/
set_option linter.all false
namespace Sys2Proof.Machine

theorem keeps_ringSetup (fn : ℕ) (value : DWord) (block : Desc) {r s : State} (h : Keeps r s) :
    Keeps r (ringSetup fn value block s) := by
  unfold ringSetup
  repeat' (first | with_reducible assumption | (with_reducible exact id) | (with_reducible exact Nat.le_refl _) | (with_reducible exact keepsO_none _) | (with_reducible exact keepsOP_none _) | (with_reducible apply keepsOP_some) | (with_reducible rfl) | (with_reducible refine keeps_foldl _ (fun _ _ _ => ?_) _ ?_) | (with_reducible apply keepsO_some) | (with_reducible apply keepsR_next) | (with_reducible apply keeps_logMisuse) | (with_reducible apply keeps_State_updFunc) | (fail_if_no_progress extract_lets) | split)

theorem keeps_ringTail (fn : ℕ) (value : DWord) (entries : List (Option UnknownRequest)) {r s : State} (h : Keeps r s) :
    Keeps r (ringTail fn value entries s) := by
  unfold ringTail
  repeat' (first | with_reducible assumption | (with_reducible exact id) | (with_reducible exact Nat.le_refl _) | (with_reducible exact keepsO_none _) | (with_reducible exact keepsOP_none _) | (with_reducible apply keepsOP_some) | (with_reducible rfl) | (with_reducible refine keeps_foldl _ (fun _ _ _ => ?_) _ ?_) | (with_reducible apply keepsO_some) | (with_reducible apply keepsR_next) | (with_reducible apply keeps_logMisuse) | (with_reducible apply keeps_nextTurn) | (with_reducible apply keeps_State_updMailbox) | (fail_if_no_progress extract_lets) | split)

theorem keeps_ringStop (fn : ℕ) (value : DWord) {r s : State} (h : Keeps r s) :
    Keeps r (ringStop fn value s) := by
  unfold ringStop
  repeat' (first | with_reducible assumption | (with_reducible exact id) | (with_reducible exact Nat.le_refl _) | (with_reducible exact keepsO_none _) | (with_reducible exact keepsOP_none _) | (with_reducible apply keepsOP_some) | (with_reducible rfl) | (with_reducible refine keeps_foldl _ (fun _ _ _ => ?_) _ ?_) | (with_reducible apply keepsO_some) | (with_reducible apply keepsR_next) | (with_reducible apply keeps_logMisuse) | (with_reducible apply keeps_nextTurn) | (with_reducible apply keeps_closeStopped) | (with_reducible apply keeps_State_updMailbox) | (fail_if_no_progress extract_lets) | split)

theorem keeps_ringHead (fn : ℕ) (value : DWord) {r s : State} (h : Keeps r s) :
    Keeps r (ringHead fn value s) := by
  unfold ringHead
  repeat' (first | with_reducible assumption | (with_reducible exact id) | (with_reducible exact Nat.le_refl _) | (with_reducible exact keepsO_none _) | (with_reducible exact keepsOP_none _) | (with_reducible apply keepsOP_some) | (with_reducible rfl) | (with_reducible refine keeps_foldl _ (fun _ _ _ => ?_) _ ?_) | (with_reducible apply keepsO_some) | (with_reducible apply keepsR_next) | (with_reducible apply keeps_logMisuse) | (with_reducible apply keeps_drainResponses) | (with_reducible apply keeps_State_updMailbox) | (fail_if_no_progress extract_lets) | split)

theorem keeps_ringDoorbell (d : Doorbell) {r s : State} (h : Keeps r s) :
    Keeps r (ringDoorbell d s) := by
  unfold ringDoorbell
  repeat' (first | with_reducible assumption | (with_reducible exact id) | (with_reducible exact Nat.le_refl _) | (with_reducible exact keepsO_none _) | (with_reducible exact keepsOP_none _) | (with_reducible apply keepsOP_some) | (with_reducible rfl) | (with_reducible refine keeps_foldl _ (fun _ _ _ => ?_) _ ?_) | (with_reducible apply keepsO_some) | (with_reducible apply keepsR_next) | (with_reducible apply keeps_ringSetup) | (with_reducible apply keeps_ringTail) | (with_reducible apply keeps_ringStop) | (with_reducible apply keeps_ringHead) | (with_reducible apply keeps_ringSubmit) | (with_reducible apply keeps_ringRelease) | (fail_if_no_progress extract_lets) | split)

theorem keeps_doorbell (d : Doorbell) {r s : State} (h : Keeps r s) :
    Keeps r (doorbell d s) := by
  unfold doorbell
  repeat' (first | with_reducible assumption | (with_reducible exact id) | (with_reducible exact Nat.le_refl _) | (with_reducible exact keepsO_none _) | (with_reducible exact keepsOP_none _) | (with_reducible apply keepsOP_some) | (with_reducible rfl) | (with_reducible refine keeps_foldl _ (fun _ _ _ => ?_) _ ?_) | (with_reducible apply keepsO_some) | (with_reducible apply keepsR_next) | (with_reducible apply keeps_ringDoorbell) | (fail_if_no_progress extract_lets) | split | (with_reducible apply Keeps.upd))

theorem keeps_ringWaiting  {r s : State} (h : Keeps r s) :
    Keeps r (ringWaiting s) := by
  unfold ringWaiting
  repeat' (first | with_reducible assumption | (with_reducible exact id) | (with_reducible exact Nat.le_refl _) | (with_reducible exact keepsO_none _) | (with_reducible exact keepsOP_none _) | (with_reducible apply keepsOP_some) | (with_reducible rfl) | (with_reducible refine keeps_foldl _ (fun _ _ _ => ?_) _ ?_) | (with_reducible apply keepsO_some) | (with_reducible apply keepsR_next) | (with_reducible apply keeps_ringDoorbell) | (fail_if_no_progress extract_lets) | split | (with_reducible apply Keeps.upd))

end Sys2Proof.Machine
end

