-- ==== Sys2Proof/Laws/KeepsWindow.lean ====
section
/-! SUPPORT. What the operations of Window keep. -/
set_option linter.all false
namespace Sys2Proof.Machine

theorem keeps_logAccess (a : ℕ) {r s : State} (h : Keeps r s) :
    Keeps r (logAccess a s) := by
  unfold logAccess
  repeat' (first | with_reducible assumption | (with_reducible exact id) | (with_reducible exact Nat.le_refl _) | (with_reducible exact keepsO_none _) | (with_reducible exact keepsOP_none _) | (with_reducible apply keepsOP_some) | (with_reducible rfl) | (with_reducible refine keeps_foldl _ (fun _ _ _ => ?_) _ ?_) | (with_reducible apply keepsO_some) | (with_reducible apply keepsR_next) | (with_reducible apply keeps_logError))

theorem keeps_windowRead (a : ℕ) (n : ℕ) {r s : State} (h : Keeps r s) :
    Keeps r (windowRead a n s) := by
  unfold windowRead
  repeat' (first | with_reducible assumption | (with_reducible exact id) | (with_reducible exact Nat.le_refl _) | (with_reducible exact keepsO_none _) | (with_reducible exact keepsOP_none _) | (with_reducible apply keepsOP_some) | (with_reducible rfl) | (with_reducible refine keeps_foldl _ (fun _ _ _ => ?_) _ ?_) | (with_reducible apply keepsO_some) | (with_reducible apply keepsR_next) | (with_reducible apply keeps_State_emit) | (with_reducible apply keeps_logAccess) | (fail_if_no_progress extract_lets) | split)

theorem keeps_writeUnprotected (rs : List (ℕ × ℕ)) (a : ℕ) (bs : List Byte) {r s : State} (h : Keeps r s) :
    Keeps r (writeUnprotected rs a bs s) := by
  unfold writeUnprotected
  repeat' (first | with_reducible assumption | (with_reducible exact id) | (with_reducible exact Nat.le_refl _) | (with_reducible exact keepsO_none _) | (with_reducible exact keepsOP_none _) | (with_reducible apply keepsOP_some) | (with_reducible rfl) | (with_reducible refine keeps_foldl _ (fun _ _ _ => ?_) _ ?_) | (with_reducible apply keepsO_some) | (with_reducible apply keepsR_next) | (with_reducible apply keeps_logAccess) | (fail_if_no_progress extract_lets) | split | (with_reducible apply Keeps.upd) | (with_reducible refine keepsO_get (by assumption) ?_) | (with_reducible refine keepsP_get (by assumption) ?_) | (with_reducible refine keepsQ_get (by assumption) ?_) | (with_reducible refine keepsOP_get (by assumption) ?_) | (intro hz; simp +zetaDelta [hz]; done) | (with_reducible apply imp_writeBytes) | (with_reducible apply imp_writeElem) | (with_reducible apply imp_writeElems) | (with_reducible apply imp_writeRow) | (with_reducible apply imp_write) | (with_reducible apply imp_forget) | (with_reducible apply imp_zeroRange) | (with_reducible refine imp_foldl (fun _ _ => ?_) ?_) | dsimp only | (dsimp +zetaDelta only))

theorem keeps_windowWrite (a : ℕ) (bs : List Byte) {r s : State} (h : Keeps r s) :
    Keeps r (windowWrite a bs s) := by
  unfold windowWrite
  repeat' (first | with_reducible assumption | (with_reducible exact id) | (with_reducible exact Nat.le_refl _) | (with_reducible exact keepsO_none _) | (with_reducible exact keepsOP_none _) | (with_reducible apply keepsOP_some) | (with_reducible rfl) | (with_reducible refine keeps_foldl _ (fun _ _ _ => ?_) _ ?_) | (with_reducible apply keepsO_some) | (with_reducible apply keepsR_next) | (with_reducible apply keeps_State_emit) | (with_reducible apply keeps_logAccess) | (with_reducible apply keeps_writeUnprotected) | (fail_if_no_progress extract_lets) | split)

theorem keeps_windowAccess (x : WindowAccess) {r s : State} (h : Keeps r s) :
    Keeps r (windowAccess x s) := by
  unfold windowAccess
  repeat' (first | with_reducible assumption | (with_reducible exact id) | (with_reducible exact Nat.le_refl _) | (with_reducible exact keepsO_none _) | (with_reducible exact keepsOP_none _) | (with_reducible apply keepsOP_some) | (with_reducible rfl) | (with_reducible refine keeps_foldl _ (fun _ _ _ => ?_) _ ?_) | (with_reducible apply keepsO_some) | (with_reducible apply keepsR_next) | (with_reducible apply keeps_windowRead) | (with_reducible apply keeps_windowWrite) | (fail_if_no_progress extract_lets) | split)

theorem keeps_releaseHeld  {r s : State} (h : Keeps r s) :
    Keeps r (releaseHeld s) := by
  unfold releaseHeld
  repeat' (first | with_reducible assumption | (with_reducible exact id) | (with_reducible exact Nat.le_refl _) | (with_reducible exact keepsO_none _) | (with_reducible exact keepsOP_none _) | (with_reducible apply keepsOP_some) | (with_reducible rfl) | (with_reducible refine keeps_foldl _ (fun _ _ _ => ?_) _ ?_) | (with_reducible apply keepsO_some) | (with_reducible apply keepsR_next) | (with_reducible apply keeps_ringWaiting) | (with_reducible apply keeps_windowAccess) | (fail_if_no_progress extract_lets) | split | (with_reducible apply Keeps.upd))

theorem keeps_bar2Access (x : WindowAccess) {r s : State} (h : Keeps r s) :
    Keeps r (bar2Access x s) := by
  unfold bar2Access
  repeat' (first | with_reducible assumption | (with_reducible exact id) | (with_reducible exact Nat.le_refl _) | (with_reducible exact keepsO_none _) | (with_reducible exact keepsOP_none _) | (with_reducible apply keepsOP_some) | (with_reducible rfl) | (with_reducible refine keeps_foldl _ (fun _ _ _ => ?_) _ ?_) | (with_reducible apply keepsO_some) | (with_reducible apply keepsR_next) | (with_reducible apply keeps_State_emit) | (with_reducible apply keeps_windowAccess) | (fail_if_no_progress extract_lets) | split | (with_reducible apply Keeps.upd))

end Sys2Proof.Machine
end

