-- ==== Sys2Proof/Laws/KeepsTests.lean ====
section
/-! SUPPORT. What the operations of Tests keep. -/
set_option linter.all false
namespace Sys2Proof.Machine

theorem keeps_beginTest (x : Test) {r s : State} (h : Keeps r s) :
    Keeps r (beginTest x s) := by
  unfold beginTest
  repeat' (first | with_reducible assumption | (with_reducible exact id) | (with_reducible exact Nat.le_refl _) | (with_reducible exact keepsO_none _) | (with_reducible exact keepsOP_none _) | (with_reducible apply keepsOP_some) | (with_reducible rfl) | (with_reducible refine keeps_foldl _ (fun _ _ _ => ?_) _ ?_) | (with_reducible apply keepsO_some) | (with_reducible apply keepsR_next) | (with_reducible apply keeps_State_updChan) | (fail_if_no_progress extract_lets) | split | (with_reducible apply Keeps.upd))

theorem keeps_testCall (calibrate : Bool) (r' : Request) (ps : List Byte) {r s : State} (h : Keeps r s) :
    Keeps r (testCall calibrate r' ps s).1 := by
  unfold testCall
  repeat' (first | with_reducible assumption | (with_reducible exact id) | (with_reducible exact Nat.le_refl _) | (with_reducible exact keepsO_none _) | (with_reducible exact keepsOP_none _) | (with_reducible apply keepsOP_some) | (with_reducible rfl) | (with_reducible refine keeps_foldl _ (fun _ _ _ => ?_) _ ?_) | (with_reducible apply keepsO_some) | (with_reducible apply keepsR_next) | (with_reducible apply keeps_beginTest) | (fail_if_no_progress extract_lets) | split | (with_reducible apply Keeps.upd))

theorem keeps_execSelftest (r' : Request) {r s : State} (h : Keeps r s) :
    KeepsR r (execSelftest r' s) := by
  unfold execSelftest
  repeat' (first | with_reducible assumption | (with_reducible exact id) | (with_reducible exact Nat.le_refl _) | (with_reducible exact keepsO_none _) | (with_reducible exact keepsOP_none _) | (with_reducible apply keepsOP_some) | (with_reducible rfl) | (with_reducible refine keeps_foldl _ (fun _ _ _ => ?_) _ ?_) | (with_reducible apply keepsO_some) | (with_reducible apply keepsR_next) | (with_reducible refine keeps_serveCall _ _ _ _ (fun _ _ _ => ?_) ?_) | (with_reducible apply keeps_testCall))

theorem keeps_execCalibrate (r' : Request) {r s : State} (h : Keeps r s) :
    KeepsR r (execCalibrate r' s) := by
  unfold execCalibrate
  repeat' (first | with_reducible assumption | (with_reducible exact id) | (with_reducible exact Nat.le_refl _) | (with_reducible exact keepsO_none _) | (with_reducible exact keepsOP_none _) | (with_reducible apply keepsOP_some) | (with_reducible rfl) | (with_reducible refine keeps_foldl _ (fun _ _ _ => ?_) _ ?_) | (with_reducible apply keepsO_some) | (with_reducible apply keepsR_next) | (with_reducible refine keeps_serveCall _ _ _ _ (fun _ _ _ => ?_) ?_) | (with_reducible apply keeps_testCall))

theorem keeps_execDeferredTestRun  {r s : State} (h : Keeps r s) :
    KeepsR r (execDeferredTestRun s) := by
  unfold execDeferredTestRun
  repeat' (first | with_reducible assumption | (with_reducible exact id) | (with_reducible exact Nat.le_refl _) | (with_reducible exact keepsO_none _) | (with_reducible exact keepsOP_none _) | (with_reducible apply keepsOP_some) | (with_reducible rfl) | (with_reducible refine keeps_foldl _ (fun _ _ _ => ?_) _ ?_) | (with_reducible apply keepsO_some) | (with_reducible apply keepsR_next) | (with_reducible apply keeps_beginTest) | (fail_if_no_progress extract_lets) | split)

theorem keeps_logFail (place : ℕ) {r s : State} (h : Keeps r s) :
    Keeps r (logFail place s) := by
  unfold logFail
  repeat' (first | with_reducible assumption | (with_reducible exact id) | (with_reducible exact Nat.le_refl _) | (with_reducible exact keepsO_none _) | (with_reducible exact keepsOP_none _) | (with_reducible apply keepsOP_some) | (with_reducible rfl) | (with_reducible refine keeps_foldl _ (fun _ _ _ => ?_) _ ?_) | (with_reducible apply keepsO_some) | (with_reducible apply keepsR_next) | (with_reducible apply keeps_logError))

theorem keeps_coreTested (c : ℕ) (fail : Bool) {r s : State} (h : Keeps r s) :
    Keeps r (coreTested c fail s) := by
  unfold coreTested
  repeat' (first | with_reducible assumption | (with_reducible exact id) | (with_reducible exact Nat.le_refl _) | (with_reducible exact keepsO_none _) | (with_reducible exact keepsOP_none _) | (with_reducible apply keepsOP_some) | (with_reducible rfl) | (with_reducible refine keeps_foldl _ (fun _ _ _ => ?_) _ ?_) | (with_reducible apply keepsO_some) | (with_reducible apply keepsR_next) | (with_reducible apply keeps_State_updCore) | (with_reducible apply keeps_zeroScratch) | (with_reducible apply keeps_askRefill) | (with_reducible apply keeps_logFail) | (fail_if_no_progress extract_lets) | split | (with_reducible apply Keeps.upd))

theorem keeps_strikeFenced  {r s : State} (h : Keeps r s) :
    Keeps r (strikeFenced s) := by
  unfold strikeFenced
  repeat' (first | with_reducible assumption | (with_reducible exact id) | (with_reducible exact Nat.le_refl _) | (with_reducible exact keepsO_none _) | (with_reducible exact keepsOP_none _) | (with_reducible apply keepsOP_some) | (with_reducible rfl) | (with_reducible refine keeps_foldl _ (fun _ _ _ => ?_) _ ?_) | (with_reducible apply keepsO_some) | (with_reducible apply keepsR_next) | (with_reducible apply keeps_strikeState))

theorem keeps_targetTested (target : ℕ) (i : ℕ) (fail : Bool) {r s : State} (h : Keeps r s) :
    Keeps r (targetTested target i fail s) := by
  unfold targetTested
  repeat' (first | with_reducible assumption | (with_reducible exact id) | (with_reducible exact Nat.le_refl _) | (with_reducible exact keepsO_none _) | (with_reducible exact keepsOP_none _) | (with_reducible apply keepsOP_some) | (with_reducible rfl) | (with_reducible refine keeps_foldl _ (fun _ _ _ => ?_) _ ?_) | (with_reducible apply keepsO_some) | (with_reducible apply keepsR_next) | (with_reducible apply keeps_coreTested) | (with_reducible apply keeps_forgetRange) | (with_reducible apply keeps_State_updChan) | (with_reducible apply keeps_logFail) | (with_reducible apply keeps_retireChan) | (with_reducible apply keeps_failPort) | (with_reducible apply keeps_dropPort) | (with_reducible apply keeps_State_updEngine) | (with_reducible apply keeps_unloadEngine) | (fail_if_no_progress extract_lets) | split)

theorem keeps_execSelftestDone (fails : BitVec 256) (durationUs : ℕ) {r s : State} (h : Keeps r s) :
    KeepsR r (execSelftestDone fails durationUs s) := by
  unfold execSelftestDone
  repeat' (first | with_reducible assumption | (with_reducible exact id) | (with_reducible exact Nat.le_refl _) | (with_reducible exact keepsO_none _) | (with_reducible exact keepsOP_none _) | (with_reducible apply keepsOP_some) | (with_reducible rfl) | (with_reducible refine keeps_foldl _ (fun _ _ _ => ?_) _ ?_) | (with_reducible apply keepsO_some) | (with_reducible apply keepsR_next) | (with_reducible apply keeps_targetTested) | (with_reducible apply keeps_strikeFenced) | (with_reducible apply keeps_settle) | (with_reducible apply keeps_respond) | (fail_if_no_progress extract_lets) | split | (with_reducible apply Keeps.upd))

theorem keeps_positionTrained (fails : BitVec 128) (p : ℕ) {r s : State} (h : Keeps r s) :
    Keeps r (positionTrained fails s p) := by
  unfold positionTrained
  repeat' (first | with_reducible assumption | (with_reducible exact id) | (with_reducible exact Nat.le_refl _) | (with_reducible exact keepsO_none _) | (with_reducible exact keepsOP_none _) | (with_reducible apply keepsOP_some) | (with_reducible rfl) | (with_reducible refine keeps_foldl _ (fun _ _ _ => ?_) _ ?_) | (with_reducible apply keepsO_some) | (with_reducible apply keepsR_next) | (with_reducible apply keeps_retireChan) | (with_reducible apply keeps_State_updChan) | (with_reducible apply keeps_logFail) | (with_reducible apply keeps_notePosition) | (fail_if_no_progress extract_lets) | split | (with_reducible apply Keeps.upd))

theorem keeps_execCalibrateDone (fails : BitVec 128) {r s : State} (h : Keeps r s) :
    KeepsR r (execCalibrateDone fails s) := by
  unfold execCalibrateDone
  repeat' (first | with_reducible assumption | (with_reducible exact id) | (with_reducible exact Nat.le_refl _) | (with_reducible exact keepsO_none _) | (with_reducible exact keepsOP_none _) | (with_reducible apply keepsOP_some) | (with_reducible rfl) | (with_reducible refine keeps_foldl _ (fun _ _ _ => ?_) _ ?_) | (with_reducible apply keepsO_some) | (with_reducible apply keepsR_next) | (with_reducible apply keeps_positionTrained) | (with_reducible apply keeps_releaseHeld) | (with_reducible apply keeps_settle) | (with_reducible apply keeps_respond) | (fail_if_no_progress extract_lets) | split | (with_reducible apply Keeps.upd))

end Sys2Proof.Machine
end

