-- ==== Sys2Proof/Laws/KeepsPower.lean ====
section
/-! SUPPORT. What the operations of Power keep. -/
set_option linter.all false
namespace Sys2Proof.Machine

theorem keeps_State_updRail (r' : ℕ) (f : Rail → Rail) {r s : State} (h : Keeps r s) :
    Keeps r (State.updRail s r' f) := by
  unfold State.updRail
  repeat' (first | with_reducible assumption | (with_reducible exact id) | (with_reducible exact Nat.le_refl _) | (with_reducible exact keepsO_none _) | (with_reducible exact keepsOP_none _) | (with_reducible apply keepsOP_some) | (with_reducible rfl) | (with_reducible refine keeps_foldl _ (fun _ _ _ => ?_) _ ?_) | (with_reducible apply keepsO_some) | (with_reducible apply keepsR_next) | (fail_if_no_progress extract_lets) | split | (with_reducible apply Keeps.upd) | (with_reducible refine keepsO_get (by assumption) ?_) | (with_reducible refine keepsP_get (by assumption) ?_) | (with_reducible refine keepsQ_get (by assumption) ?_) | (with_reducible refine keepsOP_get (by assumption) ?_) | (intro hz; simp [hz]; done))

theorem keeps_railsDone  {r s : State} (h : Keeps r s) :
    Keeps r (railsDone s) := by
  unfold railsDone
  repeat' (first | with_reducible assumption | (with_reducible exact id) | (with_reducible exact Nat.le_refl _) | (with_reducible exact keepsO_none _) | (with_reducible exact keepsOP_none _) | (with_reducible apply keepsOP_some) | (with_reducible rfl) | (with_reducible refine keeps_foldl _ (fun _ _ _ => ?_) _ ?_) | (with_reducible apply keepsO_some) | (with_reducible apply keepsR_next) | (fail_if_no_progress extract_lets) | split | (with_reducible apply Keeps.upd))

theorem keeps_execRailStep (q : Fin 4) (up : Bool) {r s : State} (h : Keeps r s) :
    KeepsR r (execRailStep q up s) := by
  unfold execRailStep
  repeat' (first | with_reducible assumption | (with_reducible exact id) | (with_reducible exact Nat.le_refl _) | (with_reducible exact keepsO_none _) | (with_reducible exact keepsOP_none _) | (with_reducible apply keepsOP_some) | (with_reducible rfl) | (with_reducible refine keeps_foldl _ (fun _ _ _ => ?_) _ ?_) | (with_reducible apply keepsO_some) | (with_reducible apply keepsR_next) | (with_reducible apply keeps_railsDone) | (with_reducible apply keeps_State_emit) | (with_reducible apply keeps_State_updRail) | (fail_if_no_progress extract_lets) | split)

theorem keeps_readRail (readings : List RailReading) (r' : ℕ) {r s : State} (h : Keeps r s) :
    Keeps r (readRail readings s r') := by
  unfold readRail
  repeat' (first | with_reducible assumption | (with_reducible exact id) | (with_reducible exact Nat.le_refl _) | (with_reducible exact keepsO_none _) | (with_reducible exact keepsOP_none _) | (with_reducible apply keepsOP_some) | (with_reducible rfl) | (with_reducible refine keeps_foldl _ (fun _ _ _ => ?_) _ ?_) | (with_reducible apply keepsO_some) | (with_reducible apply keepsR_next) | (with_reducible apply keeps_State_updRail) | (with_reducible apply keeps_logError) | (with_reducible apply keeps_State_emit) | (fail_if_no_progress extract_lets) | split)

theorem keeps_holdCurrents {r s : State} (h : Keeps r s) : Keeps r (holdCurrents s) := by
  unfold holdCurrents
  extract_lets pw t lower
  have ht : Keeps r t := by
    unfold t
    split
    · exact Keeps.upd h id id id id id id id id id id id id id id id id id rfl rfl rfl rfl (le_refl _)
    · exact h
  have hl : ∀ (is : List Nat) (l : List Domain), (is.foldl lower l).length = l.length :=
    fun is l => length_foldl_upd lower (fun l i => by unfold lower; exact length_updAt l i _) is l
  refine keeps_foldl _ (fun s x hk => ?_) _ ht
  exact Keeps.upd hk id id id id id id id id id id id id id id (fun hd => (hl _ _).trans hd) id id rfl rfl rfl rfl (le_refl _)

theorem keeps_execRailTelemetryPoll (readings : List RailReading) {r s : State} (h : Keeps r s) :
    KeepsR r (execRailTelemetryPoll readings s) := by
  unfold execRailTelemetryPoll
  repeat' (first | with_reducible assumption | (with_reducible exact id) | (with_reducible exact Nat.le_refl _) | (with_reducible exact keepsO_none _) | (with_reducible exact keepsOP_none _) | (with_reducible apply keepsOP_some) | (with_reducible rfl) | (with_reducible refine keeps_foldl _ (fun _ _ _ => ?_) _ ?_) | (with_reducible apply keepsO_some) | (with_reducible apply keepsR_next) | (with_reducible apply keeps_readRail) | (with_reducible apply keeps_holdCurrents) | (fail_if_no_progress extract_lets) | split)

theorem keeps_setDomains (p : ℕ → Bool) (st : DomainState) {r s : State} (h : Keeps r s) :
    Keeps r (setDomains p st s) := by
  unfold setDomains
  repeat' (first | with_reducible assumption | (with_reducible exact id) | (with_reducible exact Nat.le_refl _) | (with_reducible exact keepsO_none _) | (with_reducible exact keepsOP_none _) | (with_reducible apply keepsOP_some) | (with_reducible rfl) | (with_reducible refine keeps_foldl _ (fun _ _ _ => ?_) _ ?_) | (with_reducible apply keepsO_some) | (with_reducible apply keepsR_next) | (fail_if_no_progress extract_lets) | split | (with_reducible apply Keeps.upd) | (with_reducible refine keepsO_get (by assumption) ?_) | (with_reducible refine keepsP_get (by assumption) ?_) | (with_reducible refine keepsQ_get (by assumption) ?_) | (with_reducible refine keepsOP_get (by assumption) ?_) | (intro hz; simp [hz]; done))

theorem keeps_railsOff {r s : State} (h : Keeps r s) : Keeps r (railsOff s) := by
  unfold railsOff
  extract_lets s1 s2 rails
  have h1 : Keeps r s1 := by
    refine keeps_foldl _ (fun t i ht => ?_) _ h
    split
    · exact ht
    · exact keeps_State_emit _ ht
  have h2 : Keeps r s2 := by
    refine keeps_foldl _ (fun t i ht => ?_) _ h1
    split
    · exact keeps_State_emit _ ht
    · exact ht
  have hr : ∀ x : r.Sized, rails.length = 12 := fun x => by
    show (s.power.rails.mapIdx _).length = 12
    rw [List.length_mapIdx, (h.sized x).rails]
  refine keeps_setDomains _ _ ⟨h2.queue, h2.mem, h2.host, fun x => ?_, h2.log, h2.fuses⟩
  have y := h2.sized x
  exact ⟨y.funcs, y.channels, y.cores, y.chips, y.tables, y.scores, y.groups, y.ports, y.windows, y.sessions, hr x, by simp, y.domains,
    y.sensors⟩

theorem keeps_powerPolicyCall (ps : List Byte) {r s : State} (h : Keeps r s) :
    Keeps r (powerPolicyCall ps s).1 := by
  unfold powerPolicyCall
  repeat' (first | with_reducible assumption | (with_reducible exact id) | (with_reducible exact Nat.le_refl _) | (with_reducible exact keepsO_none _) | (with_reducible exact keepsOP_none _) | (with_reducible apply keepsOP_some) | (with_reducible rfl) | (with_reducible refine keeps_foldl _ (fun _ _ _ => ?_) _ ?_) | (with_reducible apply keepsO_some) | (with_reducible apply keepsR_next) | (with_reducible apply keeps_restClocks) | (fail_if_no_progress extract_lets) | split | (with_reducible apply Keeps.upd))

theorem keeps_execPowerPolicySet (r' : Request) {r s : State} (h : Keeps r s) :
    KeepsR r (execPowerPolicySet r' s) := by
  unfold execPowerPolicySet
  repeat' (first | with_reducible assumption | (with_reducible exact id) | (with_reducible exact Nat.le_refl _) | (with_reducible exact keepsO_none _) | (with_reducible exact keepsOP_none _) | (with_reducible apply keepsOP_some) | (with_reducible rfl) | (with_reducible refine keeps_foldl _ (fun _ _ _ => ?_) _ ?_) | (with_reducible apply keepsO_some) | (with_reducible apply keepsR_next) | (with_reducible refine keeps_serveCall _ _ _ _ (fun _ _ _ => ?_) ?_) | (with_reducible apply keeps_powerPolicyCall))

theorem keeps_loopAction (projected : List ℕ) {r s : State} (h : Keeps r s) :
    Keeps r (loopAction projected s) := by
  unfold loopAction
  repeat' (first | with_reducible assumption | (with_reducible exact id) | (with_reducible exact Nat.le_refl _) | (with_reducible exact keepsO_none _) | (with_reducible exact keepsOP_none _) | (with_reducible apply keepsOP_some) | (with_reducible rfl) | (with_reducible refine keeps_foldl _ (fun _ _ _ => ?_) _ ?_) | (with_reducible apply keepsO_some) | (with_reducible apply keepsR_next) | (fail_if_no_progress extract_lets) | split | (with_reducible apply Keeps.upd))

theorem keeps_execPowerLoopTick (now : ℕ) (projected : List ℕ) {r s : State} (h : Keeps r s) :
    KeepsR r (execPowerLoopTick now projected s) := by
  unfold execPowerLoopTick
  repeat' (first | with_reducible assumption | (with_reducible exact id) | (with_reducible exact Nat.le_refl _) | (with_reducible exact keepsO_none _) | (with_reducible exact keepsOP_none _) | (with_reducible apply keepsOP_some) | (with_reducible rfl) | (with_reducible refine keeps_foldl _ (fun _ _ _ => ?_) _ ?_) | (with_reducible apply keepsO_some) | (with_reducible apply keepsR_next) | (with_reducible apply keeps_loopAction) | (fail_if_no_progress extract_lets) | split | (with_reducible apply Keeps.upd))

theorem keeps_execFllWindow (island : Fin 325) (count : ℕ) {r s : State} (h : Keeps r s) :
    KeepsR r (execFllWindow island count s) := by
  unfold execFllWindow
  repeat' (first | with_reducible assumption | (with_reducible exact id) | (with_reducible exact Nat.le_refl _) | (with_reducible exact keepsO_none _) | (with_reducible exact keepsOP_none _) | (with_reducible apply keepsOP_some) | (with_reducible rfl) | (with_reducible refine keeps_foldl _ (fun _ _ _ => ?_) _ ?_) | (with_reducible apply keepsO_some) | (with_reducible apply keepsR_next) | (fail_if_no_progress extract_lets) | split | (with_reducible apply Keeps.upd) | (with_reducible refine keepsO_get (by assumption) ?_) | (with_reducible refine keepsP_get (by assumption) ?_) | (with_reducible refine keepsQ_get (by assumption) ?_) | (with_reducible refine keepsOP_get (by assumption) ?_) | (intro hz; simp [hz]; done))

theorem keeps_execIslandWake (island : Fin 325) {r s : State} (h : Keeps r s) :
    KeepsR r (execIslandWake island s) := by
  unfold execIslandWake
  repeat' (first | with_reducible assumption | (with_reducible exact id) | (with_reducible exact Nat.le_refl _) | (with_reducible exact keepsO_none _) | (with_reducible exact keepsOP_none _) | (with_reducible apply keepsOP_some) | (with_reducible rfl) | (with_reducible refine keeps_foldl _ (fun _ _ _ => ?_) _ ?_) | (with_reducible apply keepsO_some) | (with_reducible apply keepsR_next) | (fail_if_no_progress extract_lets) | split | (with_reducible apply Keeps.upd) | (with_reducible refine keepsO_get (by assumption) ?_) | (with_reducible refine keepsP_get (by assumption) ?_) | (with_reducible refine keepsQ_get (by assumption) ?_) | (with_reducible refine keepsOP_get (by assumption) ?_) | (intro hz; simp [hz]; done))

theorem keeps_execSupplySag (islands : List (Fin 325 × Nat)) {r s : State} (h : Keeps r s) : KeepsR r (execSupplySag islands s) := by
  unfold execSupplySag
  refine keepsR_next (Keeps.upd h id id id id id id id id id id id id id id (fun hd => ?_) id id rfl rfl rfl rfl (le_refl _))
  exact (length_foldl_upd _ (fun _ _ => length_updAt _ _ _) _ _).trans hd

theorem keeps_heatStages  {r s : State} (h : Keeps r s) :
    Keeps r (heatStages s) := by
  unfold heatStages
  repeat' (first | with_reducible assumption | (with_reducible exact id) | (with_reducible exact Nat.le_refl _) | (with_reducible exact keepsO_none _) | (with_reducible exact keepsOP_none _) | (with_reducible apply keepsOP_some) | (with_reducible rfl) | (with_reducible refine keeps_foldl _ (fun _ _ _ => ?_) _ ?_) | (with_reducible apply keepsO_some) | (with_reducible apply keepsR_next) | (fail_if_no_progress extract_lets) | split | (with_reducible apply Keeps.upd) | (with_reducible refine keepsO_get (by assumption) ?_) | (with_reducible refine keepsP_get (by assumption) ?_) | (with_reducible refine keepsQ_get (by assumption) ?_) | (with_reducible refine keepsOP_get (by assumption) ?_) | (intro hz; simp [hz]; done) | (intro hz; simp +zetaDelta [hz]; done))

theorem keeps_endNow (cause : Status) (j : Job) {r s : State} (h : Keeps r s) :
    Keeps r (endNow cause s j) := by
  unfold endNow
  repeat' (first | with_reducible assumption | (with_reducible exact id) | (with_reducible exact Nat.le_refl _) | (with_reducible exact keepsO_none _) | (with_reducible exact keepsOP_none _) | (with_reducible apply keepsOP_some) | (with_reducible rfl) | (with_reducible refine keeps_foldl _ (fun _ _ _ => ?_) _ ?_) | (with_reducible apply keepsO_some) | (with_reducible apply keepsR_next) | (with_reducible apply keeps_freeUnits) | (with_reducible apply keeps_dropFrames) | (with_reducible apply keeps_closeWindows) | (with_reducible apply keeps_idleUnits) | (with_reducible apply keeps_forgetWritten) | (with_reducible apply keeps_dropBody) | (with_reducible apply keeps_endJob) | (with_reducible apply keeps_dropHeld) | (with_reducible apply keeps_releaseSave) | (fail_if_no_progress extract_lets) | split | (with_reducible apply Keeps.upd))

theorem keeps_strikeAll (p : Job → Bool) (abortCause : ℕ) (cause : Status) {r s : State} (h : Keeps r s) :
    Keeps r (strikeAll p abortCause cause s) := by
  unfold strikeAll
  repeat' (first | with_reducible assumption | (with_reducible exact id) | (with_reducible exact Nat.le_refl _) | (with_reducible exact keepsO_none _) | (with_reducible exact keepsOP_none _) | (with_reducible apply keepsOP_some) | (with_reducible rfl) | (with_reducible refine keeps_foldl _ (fun _ _ _ => ?_) _ ?_) | (with_reducible apply keepsO_some) | (with_reducible apply keepsR_next) | (with_reducible apply keeps_endNow) | (with_reducible apply keeps_raiseAbort))

theorem keeps_dropCommit  {r s : State} (h : Keeps r s) :
    Keeps r (dropCommit s) := by
  unfold dropCommit
  repeat' (first | with_reducible assumption | (with_reducible exact id) | (with_reducible exact Nat.le_refl _) | (with_reducible exact keepsO_none _) | (with_reducible exact keepsOP_none _) | (with_reducible apply keepsOP_some) | (with_reducible rfl) | (with_reducible refine keeps_foldl _ (fun _ _ _ => ?_) _ ?_) | (with_reducible apply keepsO_some) | (with_reducible apply keepsR_next) | (with_reducible apply keeps_respond) | (fail_if_no_progress extract_lets) | split | (with_reducible apply Keeps.upd))

theorem keeps_tripStrikes  {r s : State} (h : Keeps r s) :
    Keeps r (tripStrikes s) := by
  unfold tripStrikes
  repeat' (first | with_reducible assumption | (with_reducible exact id) | (with_reducible exact Nat.le_refl _) | (with_reducible exact keepsO_none _) | (with_reducible exact keepsOP_none _) | (with_reducible apply keepsOP_some) | (with_reducible rfl) | (with_reducible refine keeps_foldl _ (fun _ _ _ => ?_) _ ?_) | (with_reducible apply keepsO_some) | (with_reducible apply keepsR_next) | (with_reducible apply keeps_dropCommit) | (with_reducible apply keeps_strikeAll))

theorem keeps_haltIslands (p : ℕ → Bool) {r s : State} (h : Keeps r s) :
    Keeps r (haltIslands p s) := by
  unfold haltIslands
  repeat' (first | with_reducible assumption | (with_reducible exact id) | (with_reducible exact Nat.le_refl _) | (with_reducible exact keepsO_none _) | (with_reducible exact keepsOP_none _) | (with_reducible apply keepsOP_some) | (with_reducible rfl) | (with_reducible refine keeps_foldl _ (fun _ _ _ => ?_) _ ?_) | (with_reducible apply keepsO_some) | (with_reducible apply keepsR_next) | (fail_if_no_progress extract_lets) | split | (with_reducible apply Keeps.upd) | (with_reducible refine keepsO_get (by assumption) ?_) | (with_reducible refine keepsP_get (by assumption) ?_) | (with_reducible refine keepsQ_get (by assumption) ?_) | (with_reducible refine keepsOP_get (by assumption) ?_) | (intro hz; simp [hz]; done))

theorem keeps_tripPin  {r s : State} (h : Keeps r s) :
    Keeps r (tripPin s) := by
  unfold tripPin
  repeat' (first | with_reducible assumption | (with_reducible exact id) | (with_reducible exact Nat.le_refl _) | (with_reducible exact keepsO_none _) | (with_reducible exact keepsOP_none _) | (with_reducible apply keepsOP_some) | (with_reducible rfl) | (with_reducible refine keeps_foldl _ (fun _ _ _ => ?_) _ ?_) | (with_reducible apply keepsO_some) | (with_reducible apply keepsR_next) | (fail_if_no_progress extract_lets) | split | (with_reducible apply Keeps.upd))

theorem keeps_tripNow  {r s : State} (h : Keeps r s) :
    Keeps r (tripNow s) := by
  unfold tripNow
  repeat' (first | with_reducible assumption | (with_reducible exact id) | (with_reducible exact Nat.le_refl _) | (with_reducible exact keepsO_none _) | (with_reducible exact keepsOP_none _) | (with_reducible apply keepsOP_some) | (with_reducible rfl) | (with_reducible refine keeps_foldl _ (fun _ _ _ => ?_) _ ?_) | (with_reducible apply keepsO_some) | (with_reducible apply keepsR_next) | (with_reducible apply keeps_tripPin) | (with_reducible apply keeps_haltIslands) | (with_reducible apply keeps_haltFirmware) | (with_reducible apply keeps_railsOff) | (with_reducible apply keeps_tripStrikes))

theorem keeps_tripBegin (sensor : ℕ) {r s : State} (h : Keeps r s) :
    Keeps r (tripBegin sensor s) := by
  unfold tripBegin
  repeat' (first | with_reducible assumption | (with_reducible exact id) | (with_reducible exact Nat.le_refl _) | (with_reducible exact keepsO_none _) | (with_reducible exact keepsOP_none _) | (with_reducible apply keepsOP_some) | (with_reducible rfl) | (with_reducible refine keeps_foldl _ (fun _ _ _ => ?_) _ ?_) | (with_reducible apply keepsO_some) | (with_reducible apply keepsR_next) | (with_reducible apply keeps_logError) | (with_reducible apply keeps_tripStrikes) | (with_reducible apply keeps_tripNow) | (fail_if_no_progress extract_lets) | split | (with_reducible apply Keeps.upd))

theorem keeps_execThermalSensorRead (deci : List ℤ) {r s : State} (h : Keeps r s) :
    KeepsR r (execThermalSensorRead deci s) := by
  unfold execThermalSensorRead
  repeat' (first | with_reducible assumption | (with_reducible exact id) | (with_reducible exact Nat.le_refl _) | (with_reducible exact keepsO_none _) | (with_reducible exact keepsOP_none _) | (with_reducible apply keepsOP_some) | (with_reducible rfl) | (with_reducible refine keeps_foldl _ (fun _ _ _ => ?_) _ ?_) | (with_reducible apply keepsO_some) | (with_reducible apply keepsR_next) | (with_reducible apply keeps_updateAlert) | (with_reducible apply keeps_tripBegin) | (with_reducible apply keeps_heatStages) | (fail_if_no_progress extract_lets) | split | (with_reducible apply Keeps.upd) | (with_reducible refine keepsO_get (by assumption) ?_) | (with_reducible refine keepsP_get (by assumption) ?_) | (with_reducible refine keepsQ_get (by assumption) ?_) | (with_reducible refine keepsOP_get (by assumption) ?_) | (intro hz; simp [hz]; done) | (intro hz; simp +zetaDelta [hz]; done))

theorem keeps_execTripTimeout  {r s : State} (h : Keeps r s) :
    KeepsR r (execTripTimeout s) := by
  unfold execTripTimeout
  repeat' (first | with_reducible assumption | (with_reducible exact id) | (with_reducible exact Nat.le_refl _) | (with_reducible exact keepsO_none _) | (with_reducible exact keepsOP_none _) | (with_reducible apply keepsOP_some) | (with_reducible rfl) | (with_reducible refine keeps_foldl _ (fun _ _ _ => ?_) _ ?_) | (with_reducible apply keepsO_some) | (with_reducible apply keepsR_next) | (with_reducible apply keeps_tripPin) | (with_reducible apply keeps_haltIslands) | (with_reducible apply keeps_endService) | (with_reducible apply keeps_idlePorts) | (fail_if_no_progress extract_lets) | split | (with_reducible apply Keeps.upd))

theorem keeps_execThermalCapRelease  {r s : State} (h : Keeps r s) :
    KeepsR r (execThermalCapRelease s) := by
  unfold execThermalCapRelease
  repeat' (first | with_reducible assumption | (with_reducible exact id) | (with_reducible exact Nat.le_refl _) | (with_reducible exact keepsO_none _) | (with_reducible exact keepsOP_none _) | (with_reducible apply keepsOP_some) | (with_reducible rfl) | (with_reducible refine keeps_foldl _ (fun _ _ _ => ?_) _ ?_) | (with_reducible apply keepsO_some) | (with_reducible apply keepsR_next) | (fail_if_no_progress extract_lets) | split | (with_reducible apply Keeps.upd) | (with_reducible refine keepsO_get (by assumption) ?_) | (with_reducible refine keepsP_get (by assumption) ?_) | (with_reducible refine keepsQ_get (by assumption) ?_) | (with_reducible refine keepsOP_get (by assumption) ?_) | (intro hz; simp [hz]; done) | (intro hz; simp +zetaDelta [hz]; done))

theorem keeps_execRegulatorFault (rail : Fin 12) {r s : State} (h : Keeps r s) :
    KeepsR r (execRegulatorFault rail s) := by
  unfold execRegulatorFault
  repeat' (first | with_reducible assumption | (with_reducible exact id) | (with_reducible exact Nat.le_refl _) | (with_reducible exact keepsO_none _) | (with_reducible exact keepsOP_none _) | (with_reducible apply keepsOP_some) | (with_reducible rfl) | (with_reducible refine keeps_foldl _ (fun _ _ _ => ?_) _ ?_) | (with_reducible apply keepsO_some) | (with_reducible apply keepsR_next) | (with_reducible apply keeps_updateAlert) | (with_reducible apply keeps_haltFirmware) | (with_reducible apply keeps_railsOff) | (with_reducible apply keeps_strikeAll) | (with_reducible apply keeps_logError) | (fail_if_no_progress extract_lets) | split)

theorem keeps_execRegulatorWarning (rail : Fin 12) (on : Bool) {r s : State} (h : Keeps r s) :
    KeepsR r (execRegulatorWarning rail on s) := by
  unfold execRegulatorWarning
  repeat' (first | with_reducible assumption | (with_reducible exact id) | (with_reducible exact Nat.le_refl _) | (with_reducible exact keepsO_none _) | (with_reducible exact keepsOP_none _) | (with_reducible apply keepsOP_some) | (with_reducible rfl) | (with_reducible refine keeps_foldl _ (fun _ _ _ => ?_) _ ?_) | (with_reducible apply keepsO_some) | (with_reducible apply keepsR_next) | (with_reducible apply keeps_updateAlert) | (with_reducible apply keeps_State_updRail) | (fail_if_no_progress extract_lets) | split)

end Sys2Proof.Machine
end

