-- ==== Sys2Proof/Laws/KeepsHost.lean ====
section
/-! SUPPORT. What the operations of Host keep. -/
set_option linter.all false
namespace Sys2Proof.Machine

theorem keeps_registerRead (fn : ℕ) (offset : ℕ) (widthBits : ℕ) {r s : State} (h : Keeps r s) :
    Keeps r (registerRead s fn offset widthBits).1 := by
  unfold registerRead
  repeat' (first | with_reducible assumption | (with_reducible exact id) | (with_reducible exact Nat.le_refl _) | (with_reducible exact keepsO_none _) | (with_reducible exact keepsOP_none _) | (with_reducible apply keepsOP_some) | (with_reducible rfl) | (with_reducible refine keeps_foldl _ (fun _ _ _ => ?_) _ ?_) | (with_reducible apply keepsO_some) | (with_reducible apply keepsR_next) | (with_reducible apply keeps_logMisuse) | (fail_if_no_progress extract_lets) | split)

theorem keeps_execIrqStatusWrite (fn : Fin 32) (value : Word) {r s : State} (h : Keeps r s) :
    KeepsR r (execIrqStatusWrite fn value s) := by
  unfold execIrqStatusWrite
  repeat' (first | with_reducible assumption | (with_reducible exact id) | (with_reducible exact Nat.le_refl _) | (with_reducible exact keepsO_none _) | (with_reducible exact keepsOP_none _) | (with_reducible apply keepsOP_some) | (with_reducible rfl) | (with_reducible refine keeps_foldl _ (fun _ _ _ => ?_) _ ?_) | (with_reducible apply keepsO_some) | (with_reducible apply keepsR_next) | (with_reducible apply keeps_State_updFunc) | (fail_if_no_progress extract_lets) | split)

theorem keeps_execIrqMaskWrite (fn : Fin 32) (value : Word) {r s : State} (h : Keeps r s) :
    KeepsR r (execIrqMaskWrite fn value s) := by
  unfold execIrqMaskWrite
  repeat' (first | with_reducible assumption | (with_reducible exact id) | (with_reducible exact Nat.le_refl _) | (with_reducible exact keepsO_none _) | (with_reducible exact keepsOP_none _) | (with_reducible apply keepsOP_some) | (with_reducible rfl) | (with_reducible refine keeps_foldl _ (fun _ _ _ => ?_) _ ?_) | (with_reducible apply keepsO_some) | (with_reducible apply keepsR_next) | (with_reducible apply keeps_State_updFunc) | (with_reducible apply keeps_sendMsix) | (fail_if_no_progress extract_lets) | split)

theorem keeps_execRegisterWriteOther (fn : Fin 32) (offset : ℕ) (widthBits : ℕ) (_value : DWord) {r s : State} (h : Keeps r s) :
    KeepsR r (execRegisterWriteOther fn offset widthBits _value s) := by
  unfold execRegisterWriteOther
  repeat' (first | with_reducible assumption | (with_reducible exact id) | (with_reducible exact Nat.le_refl _) | (with_reducible exact keepsO_none _) | (with_reducible exact keepsOP_none _) | (with_reducible apply keepsOP_some) | (with_reducible rfl) | (with_reducible refine keeps_foldl _ (fun _ _ _ => ?_) _ ?_) | (with_reducible apply keepsO_some) | (with_reducible apply keepsR_next) | (with_reducible apply keeps_logMisuse) | (fail_if_no_progress extract_lets) | split)

theorem keeps_execMbxSetup (fn : Fin 32) (value : DWord) (block : Desc) {r s : State} (h : Keeps r s) :
    KeepsR r (execMbxSetup fn value block s) := by
  unfold execMbxSetup
  repeat' (first | with_reducible assumption | (with_reducible exact id) | (with_reducible exact Nat.le_refl _) | (with_reducible exact keepsO_none _) | (with_reducible exact keepsOP_none _) | (with_reducible apply keepsOP_some) | (with_reducible rfl) | (with_reducible refine keeps_foldl _ (fun _ _ _ => ?_) _ ?_) | (with_reducible apply keepsO_some) | (with_reducible apply keepsR_next) | (with_reducible apply keeps_doorbell))

theorem keeps_execMbxReqTail (fn : Fin 32) (value : DWord) (entries : List (Option UnknownRequest)) {r s : State} (h : Keeps r s) :
    KeepsR r (execMbxReqTail fn value entries s) := by
  unfold execMbxReqTail
  repeat' (first | with_reducible assumption | (with_reducible exact id) | (with_reducible exact Nat.le_refl _) | (with_reducible exact keepsO_none _) | (with_reducible exact keepsOP_none _) | (with_reducible apply keepsOP_some) | (with_reducible rfl) | (with_reducible refine keeps_foldl _ (fun _ _ _ => ?_) _ ?_) | (with_reducible apply keepsO_some) | (with_reducible apply keepsR_next) | (with_reducible apply keeps_doorbell))

theorem keeps_execMbxStop (fn : Fin 32) (value : DWord) {r s : State} (h : Keeps r s) :
    KeepsR r (execMbxStop fn value s) := by
  unfold execMbxStop
  repeat' (first | with_reducible assumption | (with_reducible exact id) | (with_reducible exact Nat.le_refl _) | (with_reducible exact keepsO_none _) | (with_reducible exact keepsOP_none _) | (with_reducible apply keepsOP_some) | (with_reducible rfl) | (with_reducible refine keeps_foldl _ (fun _ _ _ => ?_) _ ?_) | (with_reducible apply keepsO_some) | (with_reducible apply keepsR_next) | (with_reducible apply keeps_doorbell))

theorem keeps_execMbxRspDb (fn : Fin 32) (value : DWord) {r s : State} (h : Keeps r s) :
    KeepsR r (execMbxRspDb fn value s) := by
  unfold execMbxRspDb
  repeat' (first | with_reducible assumption | (with_reducible exact id) | (with_reducible exact Nat.le_refl _) | (with_reducible exact keepsO_none _) | (with_reducible exact keepsOP_none _) | (with_reducible apply keepsOP_some) | (with_reducible rfl) | (with_reducible refine keeps_foldl _ (fun _ _ _ => ?_) _ ?_) | (with_reducible apply keepsO_some) | (with_reducible apply keepsR_next) | (with_reducible apply keeps_doorbell))

theorem keeps_execJqSubDb (fn : Fin 32) (value : DWord) (subs : List Submission) {r s : State} (h : Keeps r s) :
    KeepsR r (execJqSubDb fn value subs s) := by
  unfold execJqSubDb
  repeat' (first | with_reducible assumption | (with_reducible exact id) | (with_reducible exact Nat.le_refl _) | (with_reducible exact keepsO_none _) | (with_reducible exact keepsOP_none _) | (with_reducible apply keepsOP_some) | (with_reducible rfl) | (with_reducible refine keeps_foldl _ (fun _ _ _ => ?_) _ ?_) | (with_reducible apply keepsO_some) | (with_reducible apply keepsR_next) | (with_reducible apply keeps_doorbell))

theorem keeps_execJqCmpDb (fn : Fin 32) (value : DWord) {r s : State} (h : Keeps r s) :
    KeepsR r (execJqCmpDb fn value s) := by
  unfold execJqCmpDb
  repeat' (first | with_reducible assumption | (with_reducible exact id) | (with_reducible exact Nat.le_refl _) | (with_reducible exact keepsO_none _) | (with_reducible exact keepsOP_none _) | (with_reducible apply keepsOP_some) | (with_reducible rfl) | (with_reducible refine keeps_foldl _ (fun _ _ _ => ?_) _ ?_) | (with_reducible apply keepsO_some) | (with_reducible apply keepsR_next) | (with_reducible apply keeps_doorbell))

theorem keeps_execBar2Read (offset : ℕ) (len : ℕ) {r s : State} (h : Keeps r s) :
    KeepsR r (execBar2Read offset len s) := by
  unfold execBar2Read
  repeat' (first | with_reducible assumption | (with_reducible exact id) | (with_reducible exact Nat.le_refl _) | (with_reducible exact keepsO_none _) | (with_reducible exact keepsOP_none _) | (with_reducible apply keepsOP_some) | (with_reducible rfl) | (with_reducible refine keeps_foldl _ (fun _ _ _ => ?_) _ ?_) | (with_reducible apply keepsO_some) | (with_reducible apply keepsR_next) | (with_reducible apply keeps_bar2Access) | (fail_if_no_progress extract_lets) | split)

theorem keeps_execBar2Write (offset : ℕ) (data : List Byte) {r s : State} (h : Keeps r s) :
    KeepsR r (execBar2Write offset data s) := by
  unfold execBar2Write
  repeat' (first | with_reducible assumption | (with_reducible exact id) | (with_reducible exact Nat.le_refl _) | (with_reducible exact keepsO_none _) | (with_reducible exact keepsOP_none _) | (with_reducible apply keepsOP_some) | (with_reducible rfl) | (with_reducible refine keeps_foldl _ (fun _ _ _ => ?_) _ ?_) | (with_reducible apply keepsO_some) | (with_reducible apply keepsR_next) | (with_reducible apply keeps_bar2Access) | (fail_if_no_progress extract_lets) | split)

theorem keeps_execImageWindowStart (length : DWord) (start : Word) (image : List Byte) {r s : State} (h : Keeps r s) :
    KeepsR r (execImageWindowStart length start image s) := by
  unfold execImageWindowStart
  repeat' (first | with_reducible assumption | (with_reducible exact id) | (with_reducible exact Nat.le_refl _) | (with_reducible exact keepsO_none _) | (with_reducible exact keepsOP_none _) | (with_reducible apply keepsOP_some) | (with_reducible rfl) | (with_reducible refine keeps_foldl _ (fun _ _ _ => ?_) _ ?_) | (with_reducible apply keepsO_some) | (with_reducible apply keepsR_next) | (with_reducible apply keeps_setFwState) | (fail_if_no_progress extract_lets) | split | (with_reducible apply Keeps.upd))

theorem keeps_dropJob (j : Job) {r s : State} (h : Keeps r s) :
    Keeps r (dropJob s j) := by
  unfold dropJob
  repeat' (first | with_reducible assumption | (with_reducible exact id) | (with_reducible exact Nat.le_refl _) | (with_reducible exact keepsO_none _) | (with_reducible exact keepsOP_none _) | (with_reducible apply keepsOP_some) | (with_reducible rfl) | (with_reducible refine keeps_foldl _ (fun _ _ _ => ?_) _ ?_) | (with_reducible apply keepsO_some) | (with_reducible apply keepsR_next) | (with_reducible apply keeps_forgetWritten) | (with_reducible refine keeps_keepDownbeat _ ?_) | (with_reducible apply keeps_freeUnits) | (with_reducible apply keeps_dropFrames) | (with_reducible apply keeps_closeWindows) | (with_reducible apply keeps_idleUnits) | (with_reducible apply keeps_dropHeld) | (with_reducible apply keeps_dropBody) | (with_reducible apply keeps_releaseSave) | (fail_if_no_progress extract_lets) | split | (with_reducible apply Keeps.upd))

theorem keeps_dropPfWaits {r s : State} (h : Keeps r s) : Keeps r (dropPfWaits s) := by
  unfold dropPfWaits
  extract_lets res keep copying orphan cut ran t
  have ht : Keeps r t := by
    refine keeps_foldl _ (fun u i hu => ?_) _ h
    split
    · exact keeps_forgetRange _ _ hu
    · exact hu
  refine keeps_releaseHeld ⟨ht.queue, ht.mem, ht.host, fun x => ?_, ht.log, ht.fuses⟩
  have y := ht.sized x
  have z := h.sized x
  exact ⟨y.funcs, by simpa using z.channels, y.cores, y.chips, by simpa using z.tables, y.scores, y.groups, y.ports, y.windows, y.sessions,
    y.rails, y.supplies, y.domains, y.sensors⟩

theorem keeps_resetFunctions (fns : List Nat) {r s : State} (h : Keeps r s) : Keeps r (resetFunctions fns s) := by
  unfold resetFunctions
  extract_lets mine t lost u asked sec v
  have ht : Keeps r t := keeps_foldl _ (fun _ _ hk => keeps_abortGroups _ _ hk) _ (keeps_foldl _ (fun _ _ hk => keeps_dropJob _ hk) _ h)
  have hu : Keeps r u := keeps_foldl _ (fun _ _ hk => keeps_closeSessions _ hk) _
    (Keeps.upd ht id id id id id id id (fun hs => by simpa using hs) id id id id id id id id id rfl rfl rfl rfl (le_refl _))
  have hv : Keeps r v := Keeps.upd hu id id id id id id id id id id id id id id id id id rfl rfl rfl rfl (le_refl _)
  exact keeps_foldl _ (fun _ _ hk => keeps_State_updFunc _ _ hk) _ hv

theorem keeps_disableFuncs (fns : List ℕ) {r s : State} (h : Keeps r s) :
    Keeps r (disableFuncs fns s) := by
  unfold disableFuncs
  repeat' (first | with_reducible assumption | (with_reducible exact id) | (with_reducible exact Nat.le_refl _) | (with_reducible exact keepsO_none _) | (with_reducible exact keepsOP_none _) | (with_reducible apply keepsOP_some) | (with_reducible rfl) | (with_reducible refine keeps_foldl _ (fun _ _ _ => ?_) _ ?_) | (with_reducible apply keepsO_some) | (with_reducible apply keepsR_next) | (with_reducible apply keeps_State_updFunc) | (fail_if_no_progress extract_lets) | split | (with_reducible apply Keeps.upd))

theorem keeps_execVfEnable (n : Fin 32) {r s : State} (h : Keeps r s) :
    KeepsR r (execVfEnable n s) := by
  unfold execVfEnable
  repeat' (first | with_reducible assumption | (with_reducible exact id) | (with_reducible exact Nat.le_refl _) | (with_reducible exact keepsO_none _) | (with_reducible exact keepsOP_none _) | (with_reducible apply keepsOP_some) | (with_reducible rfl) | (with_reducible refine keeps_foldl _ (fun _ _ _ => ?_) _ ?_) | (with_reducible apply keepsO_some) | (with_reducible apply keepsR_next) | (with_reducible apply keeps_disableFuncs) | (with_reducible apply keeps_resetFunctions) | (with_reducible apply keeps_State_updFunc) | (with_reducible apply keeps_settle) | (with_reducible apply keeps_nextTurn) | (fail_if_no_progress extract_lets) | split | (with_reducible apply Keeps.upd))

theorem keeps_execFunctionLevelReset (fn : Fin 32) {r s : State} (h : Keeps r s) :
    KeepsR r (execFunctionLevelReset fn s) := by
  unfold execFunctionLevelReset
  repeat' (first | with_reducible assumption | (with_reducible exact id) | (with_reducible exact Nat.le_refl _) | (with_reducible exact keepsO_none _) | (with_reducible exact keepsOP_none _) | (with_reducible apply keepsOP_some) | (with_reducible rfl) | (with_reducible refine keeps_foldl _ (fun _ _ _ => ?_) _ ?_) | (with_reducible apply keepsO_some) | (with_reducible apply keepsR_next) | (with_reducible apply keeps_settle) | (with_reducible apply keeps_nextTurn) | (with_reducible apply keeps_disableFuncs) | (with_reducible apply keeps_dropPfWaits) | (with_reducible apply keeps_resetFunctions) | (fail_if_no_progress extract_lets) | split)

end Sys2Proof.Machine
end

