-- ==== Sys2Proof/Laws/KeepsBoot.lean ====
section
/-! SUPPORT. What the operations of Boot keep. -/
set_option linter.all false
namespace Sys2Proof.Machine

theorem keeps_afterReset (pins : Pins) {r s : State} (h : Keeps r s) : Keeps r (afterReset pins s) := by
  unfold afterReset
  refine ⟨h.queue, fun _ => rfl, h.host, fun _ => ?_, fun _ => Nat.zero_le _, h.fuses⟩
  exact ⟨rfl, List.length_replicate, List.length_replicate, rfl, rfl, rfl, rfl, rfl, rfl, List.length_replicate, rfl, rfl,
    by show (offDomains _).length = 325; unfold offDomains; rw [List.length_map, List.length_range], List.length_replicate⟩

theorem keeps_execDevResetAssert  {r s : State} (h : Keeps r s) :
    KeepsR r (execDevResetAssert s) := by
  unfold execDevResetAssert
  repeat' (first | with_reducible assumption | (with_reducible exact id) | (with_reducible exact Nat.le_refl _) | (with_reducible exact keepsO_none _) | (with_reducible exact keepsOP_none _) | (with_reducible apply keepsOP_some) | (with_reducible rfl) | (with_reducible refine keeps_foldl _ (fun _ _ _ => ?_) _ ?_) | (with_reducible apply keepsO_some) | (with_reducible apply keepsR_next) | (with_reducible apply keeps_afterReset))

theorem keeps_execDevResetRelease  {r s : State} (h : Keeps r s) :
    KeepsR r (execDevResetRelease s) := by
  unfold execDevResetRelease
  repeat' (first | with_reducible assumption | (with_reducible exact id) | (with_reducible exact Nat.le_refl _) | (with_reducible exact keepsO_none _) | (with_reducible exact keepsOP_none _) | (with_reducible apply keepsOP_some) | (with_reducible rfl) | (with_reducible refine keeps_foldl _ (fun _ _ _ => ?_) _ ?_) | (with_reducible apply keepsO_some) | (with_reducible apply keepsR_next) | (with_reducible apply keeps_setDomains) | (fail_if_no_progress extract_lets) | split | (with_reducible apply Keeps.upd))

theorem keeps_seekImage  {r s : State} (h : Keeps r s) :
    Keeps r (seekImage s) := by
  unfold seekImage
  repeat' (first | with_reducible assumption | (with_reducible exact id) | (with_reducible exact Nat.le_refl _) | (with_reducible exact keepsO_none _) | (with_reducible exact keepsOP_none _) | (with_reducible apply keepsOP_some) | (with_reducible rfl) | (with_reducible refine keeps_foldl _ (fun _ _ _ => ?_) _ ?_) | (with_reducible apply keepsO_some) | (with_reducible apply keepsR_next) | (with_reducible apply keeps_setFwState) | (fail_if_no_progress extract_lets) | split | (with_reducible apply Keeps.upd))

theorem keeps_trainLink (peer : LinkPartner) (bar2Log2 : ℕ) {r s : State} (h : Keeps r s) :
    Keeps r (trainLink peer bar2Log2 s) := by
  unfold trainLink
  repeat' (first | with_reducible assumption | (with_reducible exact id) | (with_reducible exact Nat.le_refl _) | (with_reducible exact keepsO_none _) | (with_reducible exact keepsOP_none _) | (with_reducible apply keepsOP_some) | (with_reducible rfl) | (with_reducible refine keeps_foldl _ (fun _ _ _ => ?_) _ ?_) | (with_reducible apply keepsO_some) | (with_reducible apply keepsR_next) | (fail_if_no_progress extract_lets) | split | (with_reducible apply Keeps.upd))

theorem keeps_startLink  {r s : State} (h : Keeps r s) :
    Keeps r (startLink s) := by
  unfold startLink
  repeat' (first | with_reducible assumption | (with_reducible exact id) | (with_reducible exact Nat.le_refl _) | (with_reducible exact keepsO_none _) | (with_reducible exact keepsOP_none _) | (with_reducible apply keepsOP_some) | (with_reducible rfl) | (with_reducible refine keeps_foldl _ (fun _ _ _ => ?_) _ ?_) | (with_reducible apply keepsO_some) | (with_reducible apply keepsR_next) | (with_reducible apply keeps_trainLink) | (fail_if_no_progress extract_lets) | split)

theorem keeps_execStrapSample (word : Half) {r s : State} (h : Keeps r s) :
    KeepsR r (execStrapSample word s) := by
  unfold execStrapSample
  repeat' (first | with_reducible assumption | (with_reducible exact id) | (with_reducible exact Nat.le_refl _) | (with_reducible exact keepsO_none _) | (with_reducible exact keepsOP_none _) | (with_reducible apply keepsOP_some) | (with_reducible rfl) | (with_reducible refine keeps_foldl _ (fun _ _ _ => ?_) _ ?_) | (with_reducible apply keepsO_some) | (with_reducible apply keepsR_next) | (with_reducible apply keeps_startLink) | (with_reducible apply keeps_seekImage) | (fail_if_no_progress extract_lets) | split | (with_reducible apply Keeps.upd))

theorem keeps_execPePerstRelease (peer : LinkPartner) (bar2Log2 : ℕ) {r s : State} (h : Keeps r s) :
    KeepsR r (execPePerstRelease peer bar2Log2 s) := by
  unfold execPePerstRelease
  repeat' (first | with_reducible assumption | (with_reducible exact id) | (with_reducible exact Nat.le_refl _) | (with_reducible exact keepsO_none _) | (with_reducible exact keepsOP_none _) | (with_reducible apply keepsOP_some) | (with_reducible rfl) | (with_reducible refine keeps_foldl _ (fun _ _ _ => ?_) _ ?_) | (with_reducible apply keepsO_some) | (with_reducible apply keepsR_next) | (with_reducible apply keeps_startLink) | (fail_if_no_progress extract_lets) | split | (with_reducible apply Keeps.upd))

theorem keeps_imageInHand (slot : ℕ) (rest : List ℕ) {r s : State} (h : Keeps r s) :
    Keeps r (imageInHand slot rest s) := by
  unfold imageInHand
  repeat' (first | with_reducible assumption | (with_reducible exact id) | (with_reducible exact Nat.le_refl _) | (with_reducible exact keepsO_none _) | (with_reducible exact keepsOP_none _) | (with_reducible apply keepsOP_some) | (with_reducible rfl) | (with_reducible refine keeps_foldl _ (fun _ _ _ => ?_) _ ?_) | (with_reducible apply keepsO_some) | (with_reducible apply keepsR_next) | (fail_if_no_progress extract_lets) | split | (with_reducible apply Keeps.upd))

theorem keeps_awaitHost  {r s : State} (h : Keeps r s) :
    Keeps r (awaitHost s) := by
  unfold awaitHost
  repeat' (first | with_reducible assumption | (with_reducible exact id) | (with_reducible exact Nat.le_refl _) | (with_reducible exact keepsO_none _) | (with_reducible exact keepsOP_none _) | (with_reducible apply keepsOP_some) | (with_reducible rfl) | (with_reducible refine keeps_foldl _ (fun _ _ _ => ?_) _ ?_) | (with_reducible apply keepsO_some) | (with_reducible apply keepsR_next) | (with_reducible apply keeps_setFwState) | (fail_if_no_progress extract_lets) | split | (with_reducible apply Keeps.upd))

theorem keeps_execFwImageRead (slot0 : FlashSlot) (slot1 : FlashSlot) {r s : State} (h : Keeps r s) :
    KeepsR r (execFwImageRead slot0 slot1 s) := by
  unfold execFwImageRead
  repeat' (first | with_reducible assumption | (with_reducible exact id) | (with_reducible exact Nat.le_refl _) | (with_reducible exact keepsO_none _) | (with_reducible exact keepsOP_none _) | (with_reducible apply keepsOP_some) | (with_reducible rfl) | (with_reducible refine keeps_foldl _ (fun _ _ _ => ?_) _ ?_) | (with_reducible apply keepsO_some) | (with_reducible apply keepsR_next) | (with_reducible apply keeps_awaitHost) | (with_reducible apply keeps_setFwState) | (with_reducible apply keeps_imageInHand) | (fail_if_no_progress extract_lets) | split | (with_reducible apply Keeps.upd))

theorem keeps_trainPorts  {r s : State} (h : Keeps r s) :
    Keeps r (trainPorts s) := by
  unfold trainPorts
  repeat' (first | with_reducible assumption | (with_reducible exact id) | (with_reducible exact Nat.le_refl _) | (with_reducible exact keepsO_none _) | (with_reducible exact keepsOP_none _) | (with_reducible apply keepsOP_some) | (with_reducible rfl) | (with_reducible refine keeps_foldl _ (fun _ _ _ => ?_) _ ?_) | (with_reducible apply keepsO_some) | (with_reducible apply keepsR_next) | (with_reducible apply keeps_State_updPort) | (fail_if_no_progress extract_lets) | split)

theorem keeps_startImage  {r s : State} (h : Keeps r s) :
    Keeps r (startImage s) := by
  unfold startImage
  repeat' (first | with_reducible assumption | (with_reducible exact id) | (with_reducible exact Nat.le_refl _) | (with_reducible exact keepsO_none _) | (with_reducible exact keepsOP_none _) | (with_reducible apply keepsOP_some) | (with_reducible rfl) | (with_reducible refine keeps_foldl _ (fun _ _ _ => ?_) _ ?_) | (with_reducible apply keepsO_some) | (with_reducible apply keepsR_next) | (fail_if_no_progress extract_lets) | split | (with_reducible apply Keeps.upd))

theorem keeps_startFirmware  {r s : State} (h : Keeps r s) :
    Keeps r (startFirmware s) := by
  unfold startFirmware
  repeat' (first | with_reducible assumption | (with_reducible exact id) | (with_reducible exact Nat.le_refl _) | (with_reducible exact keepsO_none _) | (with_reducible exact keepsOP_none _) | (with_reducible apply keepsOP_some) | (with_reducible rfl) | (with_reducible refine keeps_foldl _ (fun _ _ _ => ?_) _ ?_) | (with_reducible apply keepsO_some) | (with_reducible apply keepsR_next) | (with_reducible apply keeps_startImage) | (with_reducible apply keeps_setFwState) | (with_reducible apply keeps_trainPorts) | (fail_if_no_progress extract_lets) | split | (with_reducible apply Keeps.upd))

theorem keeps_execFwVerifyDone  {r s : State} (h : Keeps r s) :
    KeepsR r (execFwVerifyDone s) := by
  unfold execFwVerifyDone
  repeat' (first | with_reducible assumption | (with_reducible exact id) | (with_reducible exact Nat.le_refl _) | (with_reducible exact keepsO_none _) | (with_reducible exact keepsOP_none _) | (with_reducible apply keepsOP_some) | (with_reducible rfl) | (with_reducible refine keeps_foldl _ (fun _ _ _ => ?_) _ ?_) | (with_reducible apply keepsO_some) | (with_reducible apply keepsR_next) | (with_reducible apply keeps_startFirmware) | (with_reducible apply keeps_imageInHand) | (with_reducible apply keeps_awaitHost) | (fail_if_no_progress extract_lets) | split)

theorem keeps_enableRail (mv : ℕ) (r' : ℕ) {r s : State} (h : Keeps r s) :
    Keeps r (enableRail mv s r') := by
  unfold enableRail
  repeat' (first | with_reducible assumption | (with_reducible exact id) | (with_reducible exact Nat.le_refl _) | (with_reducible exact keepsO_none _) | (with_reducible exact keepsOP_none _) | (with_reducible apply keepsOP_some) | (with_reducible rfl) | (with_reducible refine keeps_foldl _ (fun _ _ _ => ?_) _ ?_) | (with_reducible apply keepsO_some) | (with_reducible apply keepsR_next) | (with_reducible apply keeps_State_emit) | (with_reducible apply keeps_State_updRail))

theorem keeps_railsUp  {r s : State} (h : Keeps r s) :
    Keeps r (railsUp s) := by
  unfold railsUp
  repeat' (first | with_reducible assumption | (with_reducible exact id) | (with_reducible exact Nat.le_refl _) | (with_reducible exact keepsO_none _) | (with_reducible exact keepsOP_none _) | (with_reducible apply keepsOP_some) | (with_reducible rfl) | (with_reducible refine keeps_foldl _ (fun _ _ _ => ?_) _ ?_) | (with_reducible apply keepsO_some) | (with_reducible apply keepsR_next) | (with_reducible apply keeps_enableRail))

theorem keeps_callSegments (rc : RollCall) (status : ℕ) {r s : State} (h : Keeps r s) :
    Keeps r (callSegments rc status s) := by
  unfold callSegments
  repeat' (first | with_reducible assumption | (with_reducible exact id) | (with_reducible exact Nat.le_refl _) | (with_reducible exact keepsO_none _) | (with_reducible exact keepsOP_none _) | (with_reducible apply keepsOP_some) | (with_reducible rfl) | (with_reducible refine keeps_foldl _ (fun _ _ _ => ?_) _ ?_) | (with_reducible apply keepsO_some) | (with_reducible apply keepsR_next) | (with_reducible apply keeps_logError) | (fail_if_no_progress extract_lets) | split | (with_reducible apply Keeps.upd))

theorem keeps_runPhase (rc : RollCall) {r s : State} (h : Keeps r s) :
    Keeps r (runPhase rc s) := by
  unfold runPhase
  repeat' (first | with_reducible assumption | (with_reducible exact id) | (with_reducible exact Nat.le_refl _) | (with_reducible exact keepsO_none _) | (with_reducible exact keepsOP_none _) | (with_reducible apply keepsOP_some) | (with_reducible rfl) | (with_reducible refine keeps_foldl _ (fun _ _ _ => ?_) _ ?_) | (with_reducible apply keepsO_some) | (with_reducible apply keepsR_next) | (fail_if_no_progress extract_lets) | split | (with_reducible apply Keeps.upd))

theorem keeps_barePhase  {r s : State} (h : Keeps r s) :
    Keeps r (barePhase s) := by
  unfold barePhase
  repeat' (first | with_reducible assumption | (with_reducible exact id) | (with_reducible exact Nat.le_refl _) | (with_reducible exact keepsO_none _) | (with_reducible exact keepsOP_none _) | (with_reducible apply keepsOP_some) | (with_reducible rfl) | (with_reducible refine keeps_foldl _ (fun _ _ _ => ?_) _ ?_) | (with_reducible apply keepsO_some) | (with_reducible apply keepsR_next) | (fail_if_no_progress extract_lets) | split | (with_reducible apply Keeps.upd))

theorem keeps_rollCallPasses (rc : RollCall) (d : BitVec 4096) (status : Nat × Nat) {r s : State} (h : Keeps r s) :
    Keeps r (rollCallPasses rc d status s) := by
  unfold rollCallPasses
  dsimp only
  have hp := keeps_runPhase rc h
  refine keeps_trainPorts (keeps_railsUp (keeps_setDomains _ _ ⟨hp.queue, hp.mem, hp.host, fun x => ?_, hp.log, hp.fuses⟩))
  have y := hp.sized x
  have z := h.sized x
  exact ⟨y.funcs, by rw [List.length_map, List.length_range], y.cores, y.chips, y.tables, y.scores, y.groups,
    by rw [List.length_mapIdx]; exact z.ports, z.windows, y.sessions, y.rails, y.supplies, y.domains, y.sensors⟩

theorem keeps_runRollCall (rc0 : RollCall) {r s : State} (h : Keeps r s) :
    Keeps r (runRollCall rc0 s).1 := by
  unfold runRollCall
  repeat' (first | with_reducible assumption | (with_reducible exact id) | (with_reducible exact Nat.le_refl _) | (with_reducible exact keepsO_none _) | (with_reducible exact keepsOP_none _) | (with_reducible apply keepsOP_some) | (with_reducible rfl) | (with_reducible refine keeps_foldl _ (fun _ _ _ => ?_) _ ?_) | (with_reducible apply keepsO_some) | (with_reducible apply keepsR_next) | (with_reducible apply keeps_callSegments) | (with_reducible apply keeps_rollCallPasses) | (with_reducible apply keeps_barePhase) | (fail_if_no_progress extract_lets) | split | (with_reducible apply Keeps.upd))

theorem keeps_execRollCall (rc : RollCall) {r s : State} (h : Keeps r s) : KeepsR r (execRollCall rc s) := by
  unfold execRollCall
  have hr := keeps_runRollCall rc h
  refine keepsR_next ?_
  split
  · exact h
  · split
    · rename_i e
      exact keepsP_get e hr
    · rename_i e
      exact keeps_setFwState _ _ (keepsP_get e hr)

theorem keeps_execInventoryRescan (r' : Request) (rc : RollCall) {r s : State} (h : Keeps r s) :
    KeepsR r (execInventoryRescan r' rc s) := by
  unfold execInventoryRescan
  repeat' (first | with_reducible assumption | (with_reducible exact id) | (with_reducible exact Nat.le_refl _) | (with_reducible exact keepsO_none _) | (with_reducible exact keepsOP_none _) | (with_reducible apply keepsOP_some) | (with_reducible rfl) | (with_reducible refine keeps_foldl _ (fun _ _ _ => ?_) _ ?_) | (with_reducible apply keepsO_some) | (with_reducible apply keepsR_next) | (with_reducible apply keeps_inventoryRow) | (with_reducible apply keeps_runRollCall) | (with_reducible apply keeps_takeRequest) | (with_reducible apply keeps_respond) | (with_reducible apply keeps_hostWrite) | (with_reducible apply keeps_nextTurn) | (with_reducible apply keeps_setFwState) | (fail_if_no_progress extract_lets) | split)

theorem keeps_suppliesUp  {r s : State} (h : Keeps r s) :
    Keeps r (suppliesUp s) := by
  unfold suppliesUp
  repeat' (first | with_reducible assumption | (with_reducible exact id) | (with_reducible exact Nat.le_refl _) | (with_reducible exact keepsO_none _) | (with_reducible exact keepsOP_none _) | (with_reducible apply keepsOP_some) | (with_reducible rfl) | (with_reducible refine keeps_foldl _ (fun _ _ _ => ?_) _ ?_) | (with_reducible apply keepsO_some) | (with_reducible apply keepsR_next) | (with_reducible apply keeps_State_emit) | (fail_if_no_progress extract_lets) | split | (with_reducible apply Keeps.upd) | (with_reducible refine keepsO_get (by assumption) ?_) | (with_reducible refine keepsP_get (by assumption) ?_) | (with_reducible refine keepsQ_get (by assumption) ?_) | (with_reducible refine keepsOP_get (by assumption) ?_) | (intro hz; simp [hz]; done))

theorem keeps_afterPowerGood  {r s : State} (h : Keeps r s) :
    Keeps r (afterPowerGood s) := by
  unfold afterPowerGood
  repeat' (first | with_reducible assumption | (with_reducible exact id) | (with_reducible exact Nat.le_refl _) | (with_reducible exact keepsO_none _) | (with_reducible exact keepsOP_none _) | (with_reducible apply keepsOP_some) | (with_reducible rfl) | (with_reducible refine keeps_foldl _ (fun _ _ _ => ?_) _ ?_) | (with_reducible apply keepsO_some) | (with_reducible apply keepsR_next) | (with_reducible apply keeps_enableRail) | (with_reducible apply keeps_setDomains) | (with_reducible apply keeps_suppliesUp) | (fail_if_no_progress extract_lets) | split)

theorem keeps_execRailPowerGood (rail : Fin 12) {r s : State} (h : Keeps r s) :
    KeepsR r (execRailPowerGood rail s) := by
  unfold execRailPowerGood
  repeat' (first | with_reducible assumption | (with_reducible exact id) | (with_reducible exact Nat.le_refl _) | (with_reducible exact keepsO_none _) | (with_reducible exact keepsOP_none _) | (with_reducible apply keepsOP_some) | (with_reducible rfl) | (with_reducible refine keeps_foldl _ (fun _ _ _ => ?_) _ ?_) | (with_reducible apply keepsO_some) | (with_reducible apply keepsR_next) | (with_reducible apply keeps_afterPowerGood) | (with_reducible apply keeps_State_updRail) | (fail_if_no_progress extract_lets) | split)

theorem keeps_execMemSupplyPgDelay (supply : Fin 6) {r s : State} (h : Keeps r s) :
    KeepsR r (execMemSupplyPgDelay supply s) := by
  unfold execMemSupplyPgDelay
  repeat' (first | with_reducible assumption | (with_reducible exact id) | (with_reducible exact Nat.le_refl _) | (with_reducible exact keepsO_none _) | (with_reducible exact keepsOP_none _) | (with_reducible apply keepsOP_some) | (with_reducible rfl) | (with_reducible refine keeps_foldl _ (fun _ _ _ => ?_) _ ?_) | (with_reducible apply keepsO_some) | (with_reducible apply keepsR_next) | (with_reducible apply keeps_railsDone) | (with_reducible apply keeps_setDomains) | (fail_if_no_progress extract_lets) | split | (with_reducible apply Keeps.upd) | (with_reducible refine keepsO_get (by assumption) ?_) | (with_reducible refine keepsP_get (by assumption) ?_) | (with_reducible refine keepsQ_get (by assumption) ?_) | (with_reducible refine keepsOP_get (by assumption) ?_) | (intro hz; simp [hz]; done))

theorem keeps_channelTrained (ok : BitVec 128) (rates : List ℕ) (ch : ℕ) {r s : State} (h : Keeps r s) :
    Keeps r (channelTrained ok rates s ch) := by
  unfold channelTrained
  repeat' (first | with_reducible assumption | (with_reducible exact id) | (with_reducible exact Nat.le_refl _) | (with_reducible exact keepsO_none _) | (with_reducible exact keepsOP_none _) | (with_reducible apply keepsOP_some) | (with_reducible rfl) | (with_reducible refine keeps_foldl _ (fun _ _ _ => ?_) _ ?_) | (with_reducible apply keepsO_some) | (with_reducible apply keepsR_next) | (with_reducible apply keeps_forgetRange) | (with_reducible apply keeps_State_updChan) | (fail_if_no_progress extract_lets) | split)

theorem keeps_noteTraining (ok : BitVec 128) (p : ℕ) {r s : State} (h : Keeps r s) :
    Keeps r (noteTraining ok s p) := by
  unfold noteTraining
  repeat' (first | with_reducible assumption | (with_reducible exact id) | (with_reducible exact Nat.le_refl _) | (with_reducible exact keepsO_none _) | (with_reducible exact keepsOP_none _) | (with_reducible apply keepsOP_some) | (with_reducible rfl) | (with_reducible refine keeps_foldl _ (fun _ _ _ => ?_) _ ?_) | (with_reducible apply keepsO_some) | (with_reducible apply keepsR_next) | (with_reducible apply keeps_gatePosition) | (with_reducible apply keeps_notePosition) | (fail_if_no_progress extract_lets) | split)

theorem keeps_execMemTrainingDone (ok : BitVec 128) (rates : List ℕ) {r s : State} (h : Keeps r s) :
    KeepsR r (execMemTrainingDone ok rates s) := by
  unfold execMemTrainingDone
  repeat' (first | with_reducible assumption | (with_reducible exact id) | (with_reducible exact Nat.le_refl _) | (with_reducible exact keepsO_none _) | (with_reducible exact keepsOP_none _) | (with_reducible apply keepsOP_some) | (with_reducible rfl) | (with_reducible refine keeps_foldl _ (fun _ _ _ => ?_) _ ?_) | (with_reducible apply keepsO_some) | (with_reducible apply keepsR_next) | (with_reducible apply keeps_noteTraining) | (with_reducible apply keeps_channelTrained) | (fail_if_no_progress extract_lets) | split | (with_reducible apply Keeps.upd))

theorem keeps_bootCore (fails : BitVec 256) (c : ℕ) {r s : State} (h : Keeps r s) :
    Keeps r (bootCore fails s c) := by
  unfold bootCore
  repeat' (first | with_reducible assumption | (with_reducible exact id) | (with_reducible exact Nat.le_refl _) | (with_reducible exact keepsO_none _) | (with_reducible exact keepsOP_none _) | (with_reducible apply keepsOP_some) | (with_reducible rfl) | (with_reducible refine keeps_foldl _ (fun _ _ _ => ?_) _ ?_) | (with_reducible apply keepsO_some) | (with_reducible apply keepsR_next) | (with_reducible apply keeps_State_updCore) | (with_reducible apply keeps_logFail) | (fail_if_no_progress extract_lets) | split)

theorem keeps_execBootCoreSelftestDone (fails : BitVec 256) {r s : State} (h : Keeps r s) :
    KeepsR r (execBootCoreSelftestDone fails s) := by
  unfold execBootCoreSelftestDone
  refine keepsR_next ?_
  split
  · have ht : Keeps r ((enabledCores s.fuses.variant).foldl (bootCore fails) (zeroCores s)) :=
      keeps_foldl _ (fun _ _ hu => keeps_bootCore _ _ hu) _ (keeps_zeroCores h)
    exact Keeps.upd ht id id id id id id (fun _ => by simp [builtinSlots]) id id id id id id id id id id rfl rfl rfl rfl (le_refl _)
  · exact h

theorem keeps_execBootReady  {r s : State} (h : Keeps r s) :
    KeepsR r (execBootReady s) := by
  unfold execBootReady
  repeat' (first | with_reducible assumption | (with_reducible exact id) | (with_reducible exact Nat.le_refl _) | (with_reducible exact keepsO_none _) | (with_reducible exact keepsOP_none _) | (with_reducible apply keepsOP_some) | (with_reducible rfl) | (with_reducible refine keeps_foldl _ (fun _ _ _ => ?_) _ ?_) | (with_reducible apply keepsO_some) | (with_reducible apply keepsR_next) | (with_reducible apply keeps_nextTurn) | (with_reducible apply keeps_restClocks) | (with_reducible apply keeps_setFwState) | (fail_if_no_progress extract_lets) | split | (with_reducible apply Keeps.upd))

theorem keeps_execSvCounterRise {r s : State} (h : Keeps r s) : KeepsR r (execSvCounterRise s) := by
  unfold execSvCounterRise
  refine keepsR_next ?_
  split
  · unfold rangeFrom
    have hk : ∀ (k a : Nat) {t : State}, Keeps r t → t.fuses.svBlown ≤ a →
        Keeps r (((List.range k).map (a + ·)).foldl
          (fun (acc : State) n => { acc with fuses := { acc.fuses with svBlown := n + 1 } }.emit (.fuse n)) t) := by
      intro k
      induction k with
      | zero => exact fun _ _ ht _ => ht
      | succ k ih =>
        intro a t ht ha
        rw [List.range_succ_eq_map, List.map_cons, List.foldl_cons, List.map_map]
        have e : ((a + ·) ∘ Nat.succ : Nat → Nat) = ((a + 1) + ·) := by
          funext x
          simp only [Function.comp_apply, Nat.succ_eq_add_one]
          omega
        rw [e]
        refine ih (a + 1) (keeps_State_emit _ (Keeps.upd ht id id id id id id id id id id id id id id id id id rfl rfl rfl rfl ?_)) (le_refl _)
        show t.fuses.svBlown ≤ a + 0 + 1
        omega
    exact hk _ _ h (le_refl _)
  · exact h

theorem keeps_abortFlying  {r s : State} (h : Keeps r s) :
    Keeps r (abortFlying s) := by
  unfold abortFlying
  repeat' (first | with_reducible assumption | (with_reducible exact id) | (with_reducible exact Nat.le_refl _) | (with_reducible exact keepsO_none _) | (with_reducible exact keepsOP_none _) | (with_reducible apply keepsOP_some) | (with_reducible rfl) | (with_reducible refine keeps_foldl _ (fun _ _ _ => ?_) _ ?_) | (with_reducible apply keepsO_some) | (with_reducible apply keepsR_next) | (with_reducible apply keeps_raiseAbortOf))

theorem keeps_warmBoot  {r s : State} (h : Keeps r s) :
    Keeps r (warmBoot s) := by
  unfold warmBoot
  repeat' (first | with_reducible assumption | (with_reducible exact id) | (with_reducible exact Nat.le_refl _) | (with_reducible exact keepsO_none _) | (with_reducible exact keepsOP_none _) | (with_reducible apply keepsOP_some) | (with_reducible rfl) | (with_reducible refine keeps_foldl _ (fun _ _ _ => ?_) _ ?_) | (with_reducible apply keepsO_some) | (with_reducible apply keepsR_next) | (with_reducible apply keeps_railsOff) | (with_reducible apply keeps_idlePorts) | (with_reducible apply keeps_abortFlying) | (with_reducible apply keeps_dropJobs) | (with_reducible apply keeps_setDomains) | (with_reducible apply keeps_afterReset) | (with_reducible apply keeps_seekImage) | (fail_if_no_progress extract_lets) | split | (with_reducible apply Keeps.upd))

theorem keeps_execWarmReset {r s : State} (h : Keeps r s) : KeepsR r (execWarmReset s) := by
  unfold execWarmReset
  refine keepsR_next ?_
  split
  · exact h
  · split
    · refine ⟨h.queue, h.mem, h.host, fun x => ?_, fun _ => Nat.zero_le _, h.fuses⟩
      have y := h.sized x
      exact ⟨rfl, y.channels, y.cores, y.chips, y.tables, y.scores, y.groups, y.ports, y.windows, y.sessions, y.rails, y.supplies,
        y.domains, y.sensors⟩
    · exact keeps_warmBoot h

theorem keeps_modulePolled (modules : List (Option ℕ)) (p : ℕ) {r s : State} (h : Keeps r s) :
    Keeps r (modulePolled modules s p) := by
  unfold modulePolled
  repeat' (first | with_reducible assumption | (with_reducible exact id) | (with_reducible exact Nat.le_refl _) | (with_reducible exact keepsO_none _) | (with_reducible exact keepsOP_none _) | (with_reducible apply keepsOP_some) | (with_reducible rfl) | (with_reducible refine keeps_foldl _ (fun _ _ _ => ?_) _ ?_) | (with_reducible apply keepsO_some) | (with_reducible apply keepsR_next) | (with_reducible apply keeps_setDomains) | (with_reducible apply keeps_State_updPort) | (with_reducible apply keeps_dropPort) | (fail_if_no_progress extract_lets) | split | (with_reducible apply Keeps.upd))

theorem keeps_execCmisStatusPoll (modules : List (Option ℕ)) {r s : State} (h : Keeps r s) :
    KeepsR r (execCmisStatusPoll modules s) := by
  unfold execCmisStatusPoll
  repeat' (first | with_reducible assumption | (with_reducible exact id) | (with_reducible exact Nat.le_refl _) | (with_reducible exact keepsO_none _) | (with_reducible exact keepsOP_none _) | (with_reducible apply keepsOP_some) | (with_reducible rfl) | (with_reducible refine keeps_foldl _ (fun _ _ _ => ?_) _ ?_) | (with_reducible apply keepsO_some) | (with_reducible apply keepsR_next) | (with_reducible apply keeps_modulePolled) | (fail_if_no_progress extract_lets) | split)

end Sys2Proof.Machine
end

