-- ==== Sys2Proof/Laws/KeepsFwUpdate.lean ====
section
/-! SUPPORT. What the operations of FwUpdate keep. -/
set_option linter.all false
namespace Sys2Proof.Machine

theorem keeps_stageImageCall (r' : Request) (ps : List Byte) {r s : State} (h : Keeps r s) :
    Keeps r (stageImageCall r' ps s).1 := by
  unfold stageImageCall
  repeat' (first | with_reducible assumption | (with_reducible exact id) | (with_reducible exact Nat.le_refl _) | (with_reducible exact keepsO_none _) | (with_reducible exact keepsOP_none _) | (with_reducible apply keepsOP_some) | (with_reducible rfl) | (with_reducible refine keeps_foldl _ (fun _ _ _ => ?_) _ ?_) | (with_reducible apply keepsO_some) | (with_reducible apply keepsR_next) | (fail_if_no_progress extract_lets) | split | (with_reducible apply Keeps.upd))

theorem keeps_execFwUpdateStage (r' : Request) {r s : State} (h : Keeps r s) :
    KeepsR r (execFwUpdateStage r' s) := by
  unfold execFwUpdateStage
  repeat' (first | with_reducible assumption | (with_reducible exact id) | (with_reducible exact Nat.le_refl _) | (with_reducible exact keepsO_none _) | (with_reducible exact keepsOP_none _) | (with_reducible apply keepsOP_some) | (with_reducible rfl) | (with_reducible refine keeps_foldl _ (fun _ _ _ => ?_) _ ?_) | (with_reducible apply keepsO_some) | (with_reducible apply keepsR_next) | (with_reducible refine keeps_serveCall _ _ _ _ (fun _ _ _ => ?_) ?_) | (with_reducible apply keeps_stageImageCall))

theorem keeps_execFwStagingDone  {r s : State} (h : Keeps r s) :
    KeepsR r (execFwStagingDone s) := by
  unfold execFwStagingDone
  repeat' (first | with_reducible assumption | (with_reducible exact id) | (with_reducible exact Nat.le_refl _) | (with_reducible exact keepsO_none _) | (with_reducible exact keepsOP_none _) | (with_reducible apply keepsOP_some) | (with_reducible rfl) | (with_reducible refine keeps_foldl _ (fun _ _ _ => ?_) _ ?_) | (with_reducible apply keepsO_some) | (with_reducible apply keepsR_next) | (with_reducible apply keeps_respond) | (fail_if_no_progress extract_lets) | split | (with_reducible apply Keeps.upd))

theorem keeps_activationReset (slot : ℕ) {r s : State} (h : Keeps r s) :
    Keeps r (activationReset slot s) := by
  unfold activationReset
  repeat' (first | with_reducible assumption | (with_reducible exact id) | (with_reducible exact Nat.le_refl _) | (with_reducible exact keepsO_none _) | (with_reducible exact keepsOP_none _) | (with_reducible apply keepsOP_some) | (with_reducible rfl) | (with_reducible refine keeps_foldl _ (fun _ _ _ => ?_) _ ?_) | (with_reducible apply keepsO_some) | (with_reducible apply keepsR_next) | (with_reducible apply keeps_setFwState) | (with_reducible apply keeps_idlePorts) | (with_reducible apply keeps_abortFlying) | (with_reducible apply keeps_dropJobs) | (with_reducible apply keeps_zeroCores) | (with_reducible apply keeps_firmwareLost) | (with_reducible apply keeps_imageInHand) | (fail_if_no_progress extract_lets) | split | (with_reducible apply Keeps.upd))

theorem keeps_markSlot (slot : ℕ) {r s : State} (h : Keeps r s) :
    Keeps r (markSlot slot s) := by
  unfold markSlot
  repeat' (first | with_reducible assumption | (with_reducible exact id) | (with_reducible exact Nat.le_refl _) | (with_reducible exact keepsO_none _) | (with_reducible exact keepsOP_none _) | (with_reducible apply keepsOP_some) | (with_reducible rfl) | (with_reducible refine keeps_foldl _ (fun _ _ _ => ?_) _ ?_) | (with_reducible apply keepsO_some) | (with_reducible apply keepsR_next) | (fail_if_no_progress extract_lets) | split | (with_reducible apply Keeps.upd))

theorem keeps_execFwUpdateActivate (r' : Request) {r s : State} (h : Keeps r s) :
    KeepsR r (execFwUpdateActivate r' s) := by
  unfold execFwUpdateActivate
  repeat' (first | with_reducible assumption | (with_reducible exact id) | (with_reducible exact Nat.le_refl _) | (with_reducible exact keepsO_none _) | (with_reducible exact keepsOP_none _) | (with_reducible apply keepsOP_some) | (with_reducible rfl) | (with_reducible refine keeps_foldl _ (fun _ _ _ => ?_) _ ?_) | (with_reducible apply keepsO_some) | (with_reducible apply keepsR_next) | (with_reducible refine keeps_serveCall _ _ _ _ (fun _ _ _ => ?_) ?_) | (with_reducible apply keeps_markSlot) | (with_reducible apply keeps_activationReset) | (fail_if_no_progress extract_lets) | split)

end Sys2Proof.Machine
end

