-- ==== Sys2Proof/Laws/PerInstr.lean ====
section
/-! SUPPORT. One law for each command, as syntax: the unit a command names, or whose stroke it is, lies on a stave that has
one (R60, R62). -/
namespace Sys2Proof.Laws.StaveOf

/-- The unit a command names, or whose stroke it is: each stroke belongs to one stave (R62), and a MM, GANG or ATTN to the
Mallet unit it names. -/
def unitNamed : Instr → Option UnitId
  | .rest u => some u
  | .cue u => some u
  | .bar u => some u
  | .loopBegin u => some u
  | .loopEnd u => some u
  | .brk u => some u
  | .sectionCtl u => some u
  | .halt u => some u
  | .mm c mu => some (.core c ⟨mu.val + 1, by omega⟩)
  | .gang c mu => some (.core c ⟨mu.val + 1, by omega⟩)
  | .feedMm c => some (.core c 7)
  | .feedGang c => some (.core c 7)
  | .feedWin c => some (.core c 7)
  | .drainMm c => some (.core c 8)
  | .drainGang c => some (.core c 8)
  | .chain c => some (.core c 5)
  | .stepStroke c => some (.core c 5)
  | .reduce c => some (.core c 6)
  | .rattleSet c => some (.core c 11)
  | .attn c mu => some (.core c ⟨mu.val + 1, by omega⟩)
  | .feedAttn c => some (.core c 7)
  | .drainAttn c => some (.core c 8)
  | .scatter c => some (.core c 9)
  | .coreDmaCopy c => some (.core c 10)
  | .coreDmaFill c => some (.core c 10)
  | .chipDmaCopy => some (.chip 12)
  | .chipDmaFill => some (.chip 12)
  | .send => some (.chip 13)
  | .recv => some (.chip 13)
  | .coll => some (.chip 13)
  | .encFrame => some (.chip 14)
  | .decFrame => some (.chip 14)
  | .notify => some (.chip 14)
  | .fetchArrival u => some u
  | .strokeResume u _ => some u
  | .strokeComplete u _ => some u
  | .scratchParityError c v => some (.core c v)
  | .residentParityError c v => some (.core c v)
  | .staveParityError u _ => some u
  | .xferTimeout u _ => some u
  | .getInfo _ | .getInventory _ | .inventoryRescan _ _ | .scoreLoad _ | .scoreUnload _ | .residentLoad _
  | .jobQueueCreate _ | .jobQueueDestroy _ | .jobCountRead _ | .preemptPolicySet _ | .stageSet _ | .stageCheck _
  | .stageCommit _ | .stageDiscard _ | .tableLoad _ | .memMapRead _ | .memChannelRetire _
  | .memChannelMaintenance _ | .memChannelRestore _ | .memExercise _ | .memExerciseStop _ | .memExerciseDone _ _
  | .groupDefine _ | .groupRelease _ | .linkStatus _ | .linkRetrain _ | .codecSessionOpen _
  | .codecSessionClose _ | .selftest _ | .calibrate _ | .deferredTestRun | .selftestDone _ _ | .calibrateDone _
  | .attestQuote _ | .identityRead _ | .fwUpdateStage _ | .fwUpdateActivate _ | .powerPolicySet _
  | .telemetryRead _ | .errorLogRead _ | .mbxSetup _ _ _ | .mbxReqTail _ _ _ | .mbxStop _ _ | .mbxRspDb _ _
  | .jqSubDb _ _ _ | .jqCmpDb _ _ | .irqStatusWrite _ _ | .irqMaskWrite _ _ | .registerWriteOther _ _ _ _
  | .bar2Read _ _ | .bar2Write _ _ | .imageWindowStart _ _ _ | .vfEnable _ | .functionLevelReset _ | .warmReset
  | .devResetAssert | .devResetRelease | .strapSample _ | .pePerstRelease _ _ | .fwImageRead _ _ | .fwVerifyDone
  | .rollCall _ | .railPowerGood _ | .memSupplyPgDelay _ | .memTrainingDone _ _ | .bootCoreSelftestDone _
  | .bootReady | .svCounterRise | .mergePartialRx _ | .codecFrameDone _ | .kernelComplete | .inputDigestsDone
  | .jobHaltComplete | .outputDigestsDone | .batchClose | .bodySigned | .evictionBegin | .evictionParked
  | .evictionCopyDone | .restoreDone | .residentSwapStart | .residentSwapDone | .downbeatStart | .downbeatParked
  | .strikeParked | .residentRefillDone _ _ | .malletParityError _ _ _ | .gangParityError _ _ _
  | .chimeBankParityError _ _ | .meshFlitParityError _ _ | .fifoParityError _ _ | .amiorParityError
  | .memCrcRetry _ _ _ | .memTempPoll _ | .memSuspendTimeout _ | .memRetrain _ | .memRetrainDone _ _ _
  | .cammRecalibrate _ | .patrolScrub _ _ | .cammModuleLost _ | .portTrained _ _ | .identityExchange _ _
  | .portRetryTrain _ | .linkDown _ | .idleFlitRx _ _ | .linkCredit _ _ | .linkNack _ _ | .flitCrcError _ _
  | .nackRepeat _ | .sendFlitRx _ _ _ | .sendAck _ _ _ | .collFlitRx _ _ | .clapUp _ | .clapDown _
  | .clapAbortRequest _ | .clapDecision _ | .collTimeout _ | .abortNoDecision _ | .powerLoopTick _ _
  | .railStep _ _ | .railTelemetryPoll _ | .fllWindow _ _ | .islandWake _ | .supplySag _ | .thermalSensorRead _
  | .thermalCapRelease | .tripTimeout | .regulatorFault _ | .regulatorWarning _ _ | .cmisStatusPoll _
  | .fwStagingDone | .memorySupplyFault _ => none

/-- A command a sender can form names a unit of the device. -/
def Statement (i : Instr) : Prop := i.wf = true → ∀ u, unitNamed i = some u → u.wf = true

theorem getInfo (r : Request) : Statement (.getInfo r) := by intro _ v hv; cases hv
theorem getInventory (r : Request) : Statement (.getInventory r) := by intro _ v hv; cases hv
theorem inventoryRescan (r : Request) (rc : RollCall) : Statement (.inventoryRescan r rc) := by intro _ v hv; cases hv
theorem scoreLoad (r : Request) : Statement (.scoreLoad r) := by intro _ v hv; cases hv
theorem scoreUnload (r : Request) : Statement (.scoreUnload r) := by intro _ v hv; cases hv
theorem residentLoad (r : Request) : Statement (.residentLoad r) := by intro _ v hv; cases hv
theorem jobQueueCreate (r : Request) : Statement (.jobQueueCreate r) := by intro _ v hv; cases hv
theorem jobQueueDestroy (r : Request) : Statement (.jobQueueDestroy r) := by intro _ v hv; cases hv
theorem jobCountRead (r : Request) : Statement (.jobCountRead r) := by intro _ v hv; cases hv
theorem preemptPolicySet (r : Request) : Statement (.preemptPolicySet r) := by intro _ v hv; cases hv
theorem stageSet (r : Request) : Statement (.stageSet r) := by intro _ v hv; cases hv
theorem stageCheck (r : Request) : Statement (.stageCheck r) := by intro _ v hv; cases hv
theorem stageCommit (r : Request) : Statement (.stageCommit r) := by intro _ v hv; cases hv
theorem stageDiscard (r : Request) : Statement (.stageDiscard r) := by intro _ v hv; cases hv
theorem tableLoad (r : Request) : Statement (.tableLoad r) := by intro _ v hv; cases hv
theorem memMapRead (r : Request) : Statement (.memMapRead r) := by intro _ v hv; cases hv
theorem memChannelRetire (r : Request) : Statement (.memChannelRetire r) := by intro _ v hv; cases hv
theorem memChannelMaintenance (r : Request) : Statement (.memChannelMaintenance r) := by intro _ v hv; cases hv
theorem memChannelRestore (r : Request) : Statement (.memChannelRestore r) := by intro _ v hv; cases hv
theorem memExercise (r : Request) : Statement (.memExercise r) := by intro _ v hv; cases hv
theorem memExerciseStop (r : Request) : Statement (.memExerciseStop r) := by intro _ v hv; cases hv
theorem memExerciseDone (ch : Fin 128) (rep : ExerciseReport) : Statement (.memExerciseDone ch rep) := by intro _ v hv; cases hv
theorem groupDefine (r : Request) : Statement (.groupDefine r) := by intro _ v hv; cases hv
theorem groupRelease (r : Request) : Statement (.groupRelease r) := by intro _ v hv; cases hv
theorem linkStatus (r : Request) : Statement (.linkStatus r) := by intro _ v hv; cases hv
theorem linkRetrain (r : Request) : Statement (.linkRetrain r) := by intro _ v hv; cases hv
theorem codecSessionOpen (r : Request) : Statement (.codecSessionOpen r) := by intro _ v hv; cases hv
theorem codecSessionClose (r : Request) : Statement (.codecSessionClose r) := by intro _ v hv; cases hv
theorem selftest (r : Request) : Statement (.selftest r) := by intro _ v hv; cases hv
theorem calibrate (r : Request) : Statement (.calibrate r) := by intro _ v hv; cases hv
theorem deferredTestRun : Statement .deferredTestRun := by intro _ v hv; cases hv
theorem selftestDone (fails : BitVec 256) (durationUs : Nat) : Statement (.selftestDone fails durationUs) := by intro _ v hv; cases hv
theorem calibrateDone (fails : BitVec 128) : Statement (.calibrateDone fails) := by intro _ v hv; cases hv
theorem attestQuote (r : Request) : Statement (.attestQuote r) := by intro _ v hv; cases hv
theorem identityRead (r : Request) : Statement (.identityRead r) := by intro _ v hv; cases hv
theorem fwUpdateStage (r : Request) : Statement (.fwUpdateStage r) := by intro _ v hv; cases hv
theorem fwUpdateActivate (r : Request) : Statement (.fwUpdateActivate r) := by intro _ v hv; cases hv
theorem powerPolicySet (r : Request) : Statement (.powerPolicySet r) := by intro _ v hv; cases hv
theorem telemetryRead (r : Request) : Statement (.telemetryRead r) := by intro _ v hv; cases hv
theorem errorLogRead (r : Request) : Statement (.errorLogRead r) := by intro _ v hv; cases hv
theorem mbxSetup (fn : Fin 32) (value : DWord) (block : Desc) : Statement (.mbxSetup fn value block) := by intro _ v hv; cases hv
theorem mbxReqTail (fn : Fin 32) (value : DWord) (unknown : List UnknownRequest) : Statement (.mbxReqTail fn value unknown) := by intro _ v hv; cases hv
theorem mbxStop (fn : Fin 32) (value : DWord) : Statement (.mbxStop fn value) := by intro _ v hv; cases hv
theorem mbxRspDb (fn : Fin 32) (value : DWord) : Statement (.mbxRspDb fn value) := by intro _ v hv; cases hv
theorem jqSubDb (fn : Fin 32) (value : DWord) (subs : List Submission) : Statement (.jqSubDb fn value subs) := by intro _ v hv; cases hv
theorem jqCmpDb (fn : Fin 32) (value : DWord) : Statement (.jqCmpDb fn value) := by intro _ v hv; cases hv
theorem irqStatusWrite (fn : Fin 32) (value : Word) : Statement (.irqStatusWrite fn value) := by intro _ v hv; cases hv
theorem irqMaskWrite (fn : Fin 32) (value : Word) : Statement (.irqMaskWrite fn value) := by intro _ v hv; cases hv
theorem registerWriteOther (fn : Fin 32) (offset : Nat) (widthBits : Nat) (value : DWord) : Statement (.registerWriteOther fn offset widthBits value) := by intro _ v hv; cases hv
theorem bar2Read (offset : Nat) (len : Nat) : Statement (.bar2Read offset len) := by intro _ v hv; cases hv
theorem bar2Write (offset : Nat) (data : List Byte) : Statement (.bar2Write offset data) := by intro _ v hv; cases hv
theorem imageWindowStart (length : DWord) (start : Word) (image : List Byte) : Statement (.imageWindowStart length start image) := by intro _ v hv; cases hv
theorem vfEnable (n : Fin 32) : Statement (.vfEnable n) := by intro _ v hv; cases hv
theorem functionLevelReset (fn : Fin 32) : Statement (.functionLevelReset fn) := by intro _ v hv; cases hv
theorem warmReset : Statement .warmReset := by intro _ v hv; cases hv
theorem devResetAssert : Statement .devResetAssert := by intro _ v hv; cases hv
theorem devResetRelease : Statement .devResetRelease := by intro _ v hv; cases hv
theorem strapSample (word : Half) : Statement (.strapSample word) := by intro _ v hv; cases hv
theorem pePerstRelease (peer : LinkPartner) (bar2Log2 : Nat) : Statement (.pePerstRelease peer bar2Log2) := by intro _ v hv; cases hv
theorem fwImageRead (slot0 slot1 : FlashSlot) : Statement (.fwImageRead slot0 slot1) := by intro _ v hv; cases hv
theorem fwVerifyDone : Statement .fwVerifyDone := by intro _ v hv; cases hv
theorem rollCall (rc : RollCall) : Statement (.rollCall rc) := by intro _ v hv; cases hv
theorem railPowerGood (rail : Fin 12) : Statement (.railPowerGood rail) := by intro _ v hv; cases hv
theorem memSupplyPgDelay (supply : Fin 6) : Statement (.memSupplyPgDelay supply) := by intro _ v hv; cases hv
theorem memTrainingDone (ok : BitVec 128) (rates : List Nat) : Statement (.memTrainingDone ok rates) := by intro _ v hv; cases hv
theorem bootCoreSelftestDone (fails : BitVec 256) : Statement (.bootCoreSelftestDone fails) := by intro _ v hv; cases hv
theorem bootReady : Statement .bootReady := by intro _ v hv; cases hv
theorem svCounterRise : Statement .svCounterRise := by intro _ v hv; cases hv
theorem rest (u : UnitId) : Statement (.rest u) := by intro h v hv; cases hv; exact h
theorem cue (u : UnitId) : Statement (.cue u) := by intro h v hv; cases hv; exact h
theorem bar (u : UnitId) : Statement (.bar u) := by intro h v hv; cases hv; exact h
theorem loopBegin (u : UnitId) : Statement (.loopBegin u) := by intro h v hv; cases hv; exact h
theorem loopEnd (u : UnitId) : Statement (.loopEnd u) := by intro h v hv; cases hv; exact h
theorem brk (u : UnitId) : Statement (.brk u) := by intro h v hv; cases hv; exact h
theorem sectionCtl (u : UnitId) : Statement (.sectionCtl u) := by intro h v hv; cases hv; exact h
theorem halt (u : UnitId) : Statement (.halt u) := by intro h v hv; cases hv; exact h
theorem mm (c : Fin 256) (mu : Fin 4) : Statement (.mm c mu) := by intro _ v hv; cases hv; simp [UnitId.wf]; omega
theorem gang (c : Fin 256) (mu : Fin 4) : Statement (.gang c mu) := by intro _ v hv; cases hv; simp [UnitId.wf]; omega
theorem feedMm (c : Fin 256) : Statement (.feedMm c) := by intro _ v hv; cases hv; rfl
theorem feedGang (c : Fin 256) : Statement (.feedGang c) := by intro _ v hv; cases hv; rfl
theorem feedWin (c : Fin 256) : Statement (.feedWin c) := by intro _ v hv; cases hv; rfl
theorem drainMm (c : Fin 256) : Statement (.drainMm c) := by intro _ v hv; cases hv; rfl
theorem drainGang (c : Fin 256) : Statement (.drainGang c) := by intro _ v hv; cases hv; rfl
theorem chain (c : Fin 256) : Statement (.chain c) := by intro _ v hv; cases hv; rfl
theorem stepStroke (c : Fin 256) : Statement (.stepStroke c) := by intro _ v hv; cases hv; rfl
theorem reduce (c : Fin 256) : Statement (.reduce c) := by intro _ v hv; cases hv; rfl
theorem mergePartialRx (c : Fin 256) : Statement (.mergePartialRx c) := by intro _ v hv; cases hv
theorem rattleSet (c : Fin 256) : Statement (.rattleSet c) := by intro _ v hv; cases hv; rfl
theorem attn (c : Fin 256) (mu : Fin 4) : Statement (.attn c mu) := by intro _ v hv; cases hv; simp [UnitId.wf]; omega
theorem feedAttn (c : Fin 256) : Statement (.feedAttn c) := by intro _ v hv; cases hv; rfl
theorem drainAttn (c : Fin 256) : Statement (.drainAttn c) := by intro _ v hv; cases hv; rfl
theorem scatter (c : Fin 256) : Statement (.scatter c) := by intro _ v hv; cases hv; rfl
theorem coreDmaCopy (c : Fin 256) : Statement (.coreDmaCopy c) := by intro _ v hv; cases hv; rfl
theorem coreDmaFill (c : Fin 256) : Statement (.coreDmaFill c) := by intro _ v hv; cases hv; rfl
theorem chipDmaCopy : Statement .chipDmaCopy := by intro _ v hv; cases hv; rfl
theorem chipDmaFill : Statement .chipDmaFill := by intro _ v hv; cases hv; rfl
theorem send : Statement .send := by intro _ v hv; cases hv; rfl
theorem recv : Statement .recv := by intro _ v hv; cases hv; rfl
theorem coll : Statement .coll := by intro _ v hv; cases hv; rfl
theorem encFrame : Statement .encFrame := by intro _ v hv; cases hv; rfl
theorem decFrame : Statement .decFrame := by intro _ v hv; cases hv; rfl
theorem codecFrameDone (e : Engine) : Statement (.codecFrameDone e) := by intro _ v hv; cases hv
theorem notify : Statement .notify := by intro _ v hv; cases hv; rfl
theorem fetchArrival (u : UnitId) : Statement (.fetchArrival u) := by intro h v hv; cases hv; exact h
theorem strokeResume (u : UnitId) (slot : Nat) : Statement (.strokeResume u slot) := by intro h v hv; cases hv; exact h
theorem strokeComplete (u : UnitId) (slot : Nat) : Statement (.strokeComplete u slot) := by intro h v hv; cases hv; exact h
theorem kernelComplete : Statement .kernelComplete := by intro _ v hv; cases hv
theorem inputDigestsDone : Statement .inputDigestsDone := by intro _ v hv; cases hv
theorem jobHaltComplete : Statement .jobHaltComplete := by intro _ v hv; cases hv
theorem outputDigestsDone : Statement .outputDigestsDone := by intro _ v hv; cases hv
theorem batchClose : Statement .batchClose := by intro _ v hv; cases hv
theorem bodySigned : Statement .bodySigned := by intro _ v hv; cases hv
theorem evictionBegin : Statement .evictionBegin := by intro _ v hv; cases hv
theorem evictionParked : Statement .evictionParked := by intro _ v hv; cases hv
theorem evictionCopyDone : Statement .evictionCopyDone := by intro _ v hv; cases hv
theorem restoreDone : Statement .restoreDone := by intro _ v hv; cases hv
theorem residentSwapStart : Statement .residentSwapStart := by intro _ v hv; cases hv
theorem residentSwapDone : Statement .residentSwapDone := by intro _ v hv; cases hv
theorem downbeatStart : Statement .downbeatStart := by intro _ v hv; cases hv
theorem downbeatParked : Statement .downbeatParked := by intro _ v hv; cases hv
theorem strikeParked : Statement .strikeParked := by intro _ v hv; cases hv
theorem scratchParityError (c : Fin 256) (stave : Fin 16) : Statement (.scratchParityError c stave) := by intro h v hv; cases hv; exact h
theorem residentParityError (c : Fin 256) (stave : Fin 16) : Statement (.residentParityError c stave) := by intro h v hv; cases hv; exact h
theorem residentRefillDone (c : Fin 256) (ok : Bool) : Statement (.residentRefillDone c ok) := by intro _ v hv; cases hv
theorem malletParityError (c : Fin 256) (mu : Fin 4) (unusedTile : Bool) : Statement (.malletParityError c mu unusedTile) := by intro _ v hv; cases hv
theorem gangParityError (c : Fin 256) (mu : Fin 4) (sa : Fin 8) : Statement (.gangParityError c mu sa) := by intro _ v hv; cases hv
theorem staveParityError (u : UnitId) (again : Bool) : Statement (.staveParityError u again) := by intro h v hv; cases hv; exact h
theorem chimeBankParityError (c : Fin 256) (slot : Fin 8) : Statement (.chimeBankParityError c slot) := by intro _ v hv; cases hv
theorem meshFlitParityError (owner : FlitOwner) (row : Fin 16) : Statement (.meshFlitParityError owner row) := by intro _ v hv; cases hv
theorem fifoParityError (owner : FlitOwner) (domain : Nat) : Statement (.fifoParityError owner domain) := by intro _ v hv; cases hv
theorem amiorParityError : Statement .amiorParityError := by intro _ v hv; cases hv
theorem memCrcRetry (ch : Fin 128) (who : MemRequester) (attempt : Nat) : Statement (.memCrcRetry ch who attempt) := by intro _ v hv; cases hv
theorem memTempPoll (temps : List Int) : Statement (.memTempPoll temps) := by intro _ v hv; cases hv
theorem memSuspendTimeout (ch : Fin 128) : Statement (.memSuspendTimeout ch) := by intro _ v hv; cases hv
theorem memRetrain (ch : Fin 128) : Statement (.memRetrain ch) := by intro _ v hv; cases hv
theorem memRetrainDone (ch : Fin 128) (ok : Bool) (again : Bool) : Statement (.memRetrainDone ch ok again) := by intro _ v hv; cases hv
theorem cammRecalibrate (ch : Fin 128) : Statement (.cammRecalibrate ch) := by intro _ v hv; cases hv
theorem patrolScrub (ch : Fin 128) (errorAddr : Option Nat) : Statement (.patrolScrub ch errorAddr) := by intro _ v hv; cases hv
theorem cammModuleLost (m : Fin 4) : Statement (.cammModuleLost m) := by intro _ v hv; cases hv
theorem portTrained (p : Fin 16) (rate : Nat) : Statement (.portTrained p rate) := by intro _ v hv; cases hv
theorem identityExchange (w : PortFlit) (who : Identity) : Statement (.identityExchange w who) := by intro _ v hv; cases hv
theorem portRetryTrain (p : Fin 16) : Statement (.portRetryTrain p) := by intro _ v hv; cases hv
theorem linkDown (p : Fin 16) : Statement (.linkDown p) := by intro _ v hv; cases hv
theorem idleFlitRx (p : Fin 16) (w : WireFlit) : Statement (.idleFlitRx p w) := by intro _ v hv; cases hv
theorem linkCredit (w : PortFlit) (credits : List (BitVec 6 × Nat)) : Statement (.linkCredit w credits) := by intro _ v hv; cases hv
theorem linkNack (w : PortFlit) (seq : BitVec 8) : Statement (.linkNack w seq) := by intro _ v hv; cases hv
theorem flitCrcError (p : Fin 16) (uncorrectable : Bool) : Statement (.flitCrcError p uncorrectable) := by intro _ v hv; cases hv
theorem nackRepeat (p : Fin 16) : Statement (.nackRepeat p) := by intro _ v hv; cases hv
theorem sendFlitRx (p : Fin 16) (src : BitVec 14) (w : WireFlit) : Statement (.sendFlitRx p src w) := by intro _ v hv; cases hv
theorem sendAck (w : PortFlit) (xtag : BitVec 7) (landed : Landed) : Statement (.sendAck w xtag landed) := by intro _ v hv; cases hv
theorem collFlitRx (p : Fin 16) (w : WireFlit) : Statement (.collFlitRx p w) := by intro _ v hv; cases hv
theorem clapUp (w : PortFlit) : Statement (.clapUp w) := by intro _ v hv; cases hv
theorem clapDown (w : PortFlit) : Statement (.clapDown w) := by intro _ v hv; cases hv
theorem clapAbortRequest (w : PortFlit) : Statement (.clapAbortRequest w) := by intro _ v hv; cases hv
theorem clapDecision (w : PortFlit) : Statement (.clapDecision w) := by intro _ v hv; cases hv
theorem xferTimeout (u : UnitId) (slot : Nat) : Statement (.xferTimeout u slot) := by intro h v hv; cases hv; exact h
theorem collTimeout (tag : Word) : Statement (.collTimeout tag) := by intro _ v hv; cases hv
theorem abortNoDecision (tag : Word) : Statement (.abortNoDecision tag) := by intro _ v hv; cases hv
theorem powerLoopTick (now : Nat) (projected : List Nat) : Statement (.powerLoopTick now projected) := by intro _ v hv; cases hv
theorem railStep (q : Fin 4) (up : Bool) : Statement (.railStep q up) := by intro _ v hv; cases hv
theorem railTelemetryPoll (readings : List RailReading) : Statement (.railTelemetryPoll readings) := by intro _ v hv; cases hv
theorem fllWindow (island : Fin 325) (count : Nat) : Statement (.fllWindow island count) := by intro _ v hv; cases hv
theorem islandWake (island : Fin 325) : Statement (.islandWake island) := by intro _ v hv; cases hv
theorem supplySag (islands : List (Fin 325 × Nat)) : Statement (.supplySag islands) := by intro _ v hv; cases hv
theorem thermalSensorRead (deci : List Int) : Statement (.thermalSensorRead deci) := by intro _ v hv; cases hv
theorem thermalCapRelease : Statement .thermalCapRelease := by intro _ v hv; cases hv
theorem tripTimeout : Statement .tripTimeout := by intro _ v hv; cases hv
theorem regulatorFault (rail : Fin 12) : Statement (.regulatorFault rail) := by intro _ v hv; cases hv
theorem regulatorWarning (rail : Fin 12) (on : Bool) : Statement (.regulatorWarning rail on) := by intro _ v hv; cases hv
theorem cmisStatusPoll (modules : List (Option Nat)) : Statement (.cmisStatusPoll modules) := by intro _ v hv; cases hv
theorem fwStagingDone : Statement .fwStagingDone := by intro _ v hv; cases hv
theorem memorySupplyFault (position : Fin 28) : Statement (.memorySupplyFault position) := by intro _ v hv; cases hv

end Sys2Proof.Laws.StaveOf
end

