-- ==== Sys2Proof/Laws/Strokes.lean ====
section
/-! SUPPORT. What a stroke does once it is due, and what firing leaves alone: the lemmas a proof about a stroke cites instead of
unfolding the firing test. -/
namespace Sys2Proof.Machine

/-- The firing test holds of a stroke that is due (R76). -/
theorem Due.fires {s : State} {u : UnitId} {op : Nat} {b : BeatCtx} (h : Due s u op b) :
    (b.word.op == op && !(b.raw == 0) && strokeDue b.ctl (s.unit u) && mayFire s u b (s.unit u)) = true := by
  have hc : cuesReady (s.unit u) b.word.wait = true := by
    simp only [cuesReady, List.all_eq_true, List.mem_range]
    intro c hlt
    by_cases hn : natBit b.word.wait c = true
    · have := h.cues c hlt hn
      simp only [Bool.or_eq_true, decide_eq_true_eq]
      exact Or.inr this
    · simp [hn]
  have hr : (b.raw == 0) = false := by simpa using h.present
  simp [h.opcode, hr, h.position, mayFire, parkRequested, h.parks, hc, h.depth]

/-- A stroke that is due fires, and `body` is taken on the state that firing leaves. -/
theorem run_due {s : State} {u : UnitId} {op : Nat} {b : BeatCtx} {credit : BeatCtx → State → Bool} (body : BeatCtx → Nat → State → State)
    (h : Due s u op b) (hc : credit b s = streamCredit u op b s) :
    runStroke u op credit body s = body b s.sched.nextKey (fired u b s) := by
  simp only [runStroke, h.beats, h.fires, hc, h.credit, Bool.and_true, if_true]

/-- A stroke that passes the firing test is due. -/
theorem due_of_fires {s : State} {u : UnitId} {op : Nat} {b : BeatCtx} {x : UnitState} (hb : beatOf s u = some (b, x))
    (hk : streamCredit u op b s = true)
    (h : (b.word.op == op && !(b.raw == 0) && strokeDue b.ctl x && mayFire s u b x) = true) : Due s u op b := by
  have hx : x = s.unit u := by
    unfold beatOf at hb
    split at hb
    · cases hb
    · dsimp only at hb
      split at hb
      · cases hb; rfl
      · cases hb
  subst hx
  simp only [mayFire, Bool.and_eq_true, Bool.not_eq_true', beq_eq_false_iff_ne, beq_iff_eq, decide_eq_true_eq] at h
  obtain ⟨⟨⟨h1, h2⟩, h3⟩, ⟨h4, h5⟩, h6⟩ := h
  refine ⟨hb, h1, h2, h3, ?_, ?_, h6, hk⟩
  · simpa [parkRequested] using h4
  · intro c hc hn
    simp only [cuesReady, List.all_eq_true, List.mem_range] at h5
    have := h5 c hc
    simpa [hn] using this

/-- A stroke that is not due changes nothing. -/
theorem run_undue {s : State} {u : UnitId} {op : Nat} {credit : BeatCtx → State → Bool} (body : BeatCtx → Nat → State → State)
    (hc : ∀ b, credit b s = streamCredit u op b s) (h : ∀ b, ¬ Due s u op b) : runStroke u op credit body s = s := by
  unfold runStroke
  split
  · rfl
  · rename_i b x hb
    split
    · rename_i hf
      rw [Bool.and_eq_true, hc] at hf
      exact absurd (due_of_fires hb hf.2 hf.1) (h b)
    · rfl

/-- The beat of a unit that makes one names the running job's score and the unit's own state. -/
theorem beatOf_eq {s : State} {u : UnitId} {b : BeatCtx} {x : UnitState} (h : beatOf s u = some (b, x)) :
    s.currentJob = some b.job ∧ x = s.unit u ∧ b.bar = x.bar ∧ b.fire.score = s.scoreAddr b.job ∧ b.fire.loops = x.counters ∧
      b.fire.params = b.job.params ∧ b.job.stage = .running ∧ fetched s (s.scoreAddr b.job) u = true := by
  unfold beatOf at h
  split at h
  · cases h
  · rename_i j hj
    dsimp only at h
    split at h
    · rename_i hc
      cases h
      simp only [Bool.and_eq_true, beq_iff_eq] at hc
      exact ⟨hj, rfl, rfl, rfl, rfl, rfl, hc.1, hc.2⟩
    · cases h

/-- Firing changes the units and the running number of strokes alone. -/
theorem fired_frame (u : UnitId) (b : BeatCtx) (s : State) :
    fired u b s = { s with cores := (fired u b s).cores, chips := (fired u b s).chips,
                           sched := { s.sched with nextKey := s.sched.nextKey + 1 } } := by
  cases u <;> rfl

@[simp] theorem fired_mem (u : UnitId) (b : BeatCtx) (s : State) : (fired u b s).mem = s.mem := by cases u <;> rfl

@[simp] theorem fired_tables (u : UnitId) (b : BeatCtx) (s : State) : (fired u b s).tables = s.tables := by cases u <;> rfl

/-- Of a core, firing changes the units alone. -/
theorem fired_core (u : UnitId) (b : BeatCtx) (s : State) (c : Nat) :
    (fired u b s).core c = { s.core c with units := ((fired u b s).core c).units } := by
  cases u with
  | chip v => rfl
  | core k v =>
    simp only [fired, State.updUnit, State.updCore, State.core, updAt, List.getD_eq_getElem?_getD, List.getElem?_modify]
    cases h : s.cores[c]? with
    | none => simp
    | some x => by_cases hk : k.val = c <;> simp [hk]

/-- A stroke that is done changes the phases of its unit's strokes alone. -/
theorem doneStroke_done (u : UnitId) (key : Nat) (s : State) : strokeDone u key (doneStroke u key s) := by
  have hl : ∀ l : List UnitState, ∀ i, ∀ y ∈ ((updAt l i fun x => { x with inflight := x.inflight.map fun i =>
      if i.key = key then { i with phase := Flight.done } else i }).getD i UnitState.idle).inflight, y.key = key → y.phase = .done := by
    intro l i y hy hk
    simp only [updAt, List.getD_eq_getElem?_getD, List.getElem?_modify, if_true] at hy
    cases h : l[i]? with
    | none => simp [h, UnitState.idle] at hy
    | some x =>
      simp only [h, Option.map_eq_map, Option.map_some, Option.getD_some, List.mem_map] at hy
      obtain ⟨z, _, rfl⟩ := hy
      by_cases hz : z.key = key
      · simp [hz]
      · simp [hz] at hk
  intro y hy hk
  cases u with
  | chip v => exact hl s.chips (v.val - 12) y hy hk
  | core c v =>
    simp only [doneStroke, setPhase, State.updUnit, State.updCore, State.unit, State.core, updAt, List.getD_eq_getElem?_getD,
      List.getElem?_modify, if_true] at hy
    cases h : s.cores[c.val]? with
    | none =>
      simp only [h, Option.map_eq_map, Option.map_none, Option.getD_none] at hy
      have : ∀ i : Nat, ((Core.reset.units)[i]?.getD UnitState.idle).inflight = [] := by
        intro i
        have hr : Core.reset.units = List.replicate 11 UnitState.idle := rfl
        rw [hr, List.getElem?_replicate]
        split <;> rfl
      rw [this] at hy; cases hy
    | some x =>
      simp only [h, Option.map_eq_map, Option.map_some, Option.getD_some] at hy
      refine hl x.units (v.val - 1) y ?_ hk
      simpa only [updAt, List.getD_eq_getElem?_getD] using hy

/-! ## The flow -/

/-- What the flow of some cores does: steps, until none of them has one, or a strike is pending, or the fuel is spent. -/
theorem flow_flows (cores : List Nat) (n : Nat) (s : State) :
    ∃ k ≤ n, Flows cores k s (flow cores n s) ∧
      (k = n ∨ strikePending (flow cores n s) = true ∨ ∀ c ∈ cores, flowStep c (flow cores n s) = none) := by
  induction n generalizing s with
  | zero => exact ⟨0, le_refl 0, .here s, Or.inl rfl⟩
  | succ n ih =>
    unfold flow
    split
    · rename_i h
      exact ⟨0, Nat.zero_le _, .here s, Or.inr (Or.inl h)⟩
    · rename_i h
      split
      · rename_i t ht
        obtain ⟨k, hk, hf, he⟩ := ih t
        obtain ⟨l, c, r, rfl, hc, hl⟩ := List.findSome?_eq_some_iff.1 ht
        refine ⟨k + 1, Nat.succ_le_succ hk, .step (c := c) ?_ hc (by simpa using h) hf, ?_⟩
        · rw [List.find?_append, List.find?_eq_none.2 (fun x hx => by simp [hl x hx])]
          simp [hc]
        · exact he.imp (congrArg (· + 1)) id
      · rename_i ht
        exact ⟨0, Nat.zero_le _, .here s, Or.inr (Or.inr fun c hc => List.findSome?_eq_none_iff.1 ht c hc)⟩

end Sys2Proof.Machine
end

