-- ==== Sys2Proof/Laws/Wire.lean ====
section
/-! SUPPORT. A flit comes back from its 256 bytes (R295). -/
namespace Sys2Proof.Machine

theorem leBytes_length (n v : Nat) : (leBytes n v).length = n := by
  induction n generalizing v with
  | zero => rfl
  | succ n ih => simp [leBytes, ih]

/-- A number that fits comes back from its bytes. -/
theorem ofLe_leBytes (n v : Nat) : ofLe (leBytes n v) = v % 256 ^ n := by
  induction n generalizing v with
  | zero => simp [leBytes, ofLe, Nat.mod_one]
  | succ n ih =>
    have h : v % 256 ^ (n + 1) = v % 256 + 256 * (v / 256 % 256 ^ n) := by
      rw [Nat.pow_succ, Nat.mul_comm, Nat.mod_mul]
    simp [leBytes, ofLe, ih, h]

theorem fitBytes_length (n : Nat) (bs : List Byte) : (fitBytes n bs).length = n := by
  simp only [fitBytes, List.length_append, List.length_take, List.length_replicate]
  omega

theorem fitBytes_take {n : Nat} {bs : List Byte} (h : bs.length ≤ n) : (fitBytes n bs).take bs.length = bs := by
  have e : bs.take n = bs := List.take_of_length_le h
  simp [fitBytes, e]

/-- A flit that has a place in 256 bytes: at most 236 bytes of payload, and one of the 20 channels, with its dateline class, unless idle. -/
def flitFits (f : Flit) : Bool :=
  decide (f.payload.length ≤ 236) && (f.kind == .idle || decide (f.vc.toNat % 32 < 20))

theorem typeCode_lt (k : FlitType) : typeCode k < 5 := by cases k <;> decide

theorem typeOfCode_typeCode (k : FlitType) : typeOfCode (typeCode k) = some k := by cases k <;> rfl

/-- The bytes of a flit carry their own CRC. -/
theorem crcHolds_flitBytes (f : Flit) : crcHolds (flitBytes f) = true := by
  have hl : (leBytes 16 (headerWord f) ++ fitBytes 236 f.payload).length = 252 := by
    simp [leBytes_length, fitBytes_length]
  have hc (x : Word) : ofLe (leBytes 4 x.toNat) = x.toNat := by
    rw [ofLe_leBytes]
    exact Nat.mod_eq_of_lt x.isLt
  simp only [crcHolds, flitBytes, List.length_append, leBytes_length, fitBytes_length, Bool.and_eq_true, beq_iff_eq]
  refine ⟨by decide, ?_⟩
  rw [← hl, List.take_left, List.drop_left, hc]

/-- The fields of a header are those of the flit. -/
theorem flitOf_flitBytes {f : Flit} (h : flitFits f = true) : flitOf (flitBytes f) = some f := by
  obtain ⟨kind, seq, ack, vc, credVc, credN, dest, route, payload⟩ := f
  simp only [flitFits, Bool.and_eq_true, decide_eq_true_eq, Bool.or_eq_true, beq_iff_eq] at h
  obtain ⟨hp, hv⟩ := h
  have hk := typeCode_lt kind
  have hr := typeOfCode_typeCode kind
  have hidle : typeCode kind = 0 ∨ vc.toNat % 32 < 20 := by
    rcases hv with rfl | hv
    · exact Or.inl rfl
    · exact Or.inr hv
  have h1 := seq.isLt; have h2 := (ack.getD 0).isLt; have h3 := vc.isLt; have h4 := credVc.isLt; have h5 := credN.isLt
  have h6 := dest.isLt; have h7 := route.isLt
  have htake : (flitBytes ⟨kind, seq, ack, vc, credVc, credN, dest, route, payload⟩).take 16
      = leBytes 16 (headerWord ⟨kind, seq, ack, vc, credVc, credN, dest, route, payload⟩) := by
    simp only [flitBytes, List.append_assoc]
    rw [List.take_append_of_le_length (by simp [leBytes_length])]
    exact List.take_of_length_le (by simp [leBytes_length])
  have hdrop : (((flitBytes ⟨kind, seq, ack, vc, credVc, credN, dest, route, payload⟩).drop 16).take payload.length) = payload := by
    simp only [flitBytes, List.append_assoc]
    rw [List.drop_append_of_le_length (by simp [leBytes_length]), List.drop_of_length_le (by simp [leBytes_length]), List.nil_append,
      List.take_append_of_le_length (by simpa [fitBytes_length] using hp)]
    exact fitBytes_take hp
  have hb : (if ack.isSome then 1 else 0 : Nat) < 2 := by split <;> omega
  have key : ∀ (H : Nat), H = headerWord ⟨kind, seq, ack, vc, credVc, credN, dest, route, payload⟩ →
      H < 2 ^ 128 ∧ H / 2 ^ 0 % 2 ^ 8 = seq.toNat ∧ H / 2 ^ 8 % 2 ^ 8 = (ack.getD 0).toNat ∧ H / 2 ^ 16 % 2 ^ 4 = typeCode kind ∧
      H / 2 ^ 20 % 2 = (if ack.isSome then 1 else 0) ∧ H / 2 ^ 21 % 2 ^ 3 = 0 ∧ H / 2 ^ 24 % 2 ^ 5 = vc.toNat % 32 ∧
      H / 2 ^ 24 % 2 ^ 6 = vc.toNat ∧ H / 2 ^ 30 % 2 ^ 2 = 0 ∧ H / 2 ^ 32 % 2 ^ 6 = credVc.toNat ∧ H / 2 ^ 38 % 2 ^ 2 = 0 ∧
      H / 2 ^ 40 % 2 ^ 8 = credN.toNat ∧ H / 2 ^ 48 % 2 ^ 14 = dest.toNat ∧ H / 2 ^ 62 % 2 ^ 2 = 0 ∧
      H / 2 ^ 64 % 2 ^ 8 = payload.length ∧ H / 2 ^ 72 % 2 ^ 56 = route.toNat := by
    intro H hH
    simp only [headerWord] at hH
    generalize (if ack.isSome then 1 else 0 : Nat) = a at hH hb ⊢
    generalize (ack.getD 0).toNat = b at hH h2 ⊢
    generalize seq.toNat = c at hH h1 ⊢
    generalize vc.toNat = d at hH h3 ⊢
    generalize credVc.toNat = e at hH h4 ⊢
    generalize credN.toNat = g at hH h5 ⊢
    generalize dest.toNat = i at hH h6 ⊢
    generalize route.toNat = j at hH h7 ⊢
    generalize typeCode kind = k at hH hk ⊢
    generalize payload.length = l at hH hp ⊢
    refine ⟨?_, ?_, ?_, ?_, ?_, ?_, ?_, ?_, ?_, ?_, ?_, ?_, ?_, ?_, ?_, ?_⟩ <;> omega
  obtain ⟨k0, k1, k2, k3, k4, k5, k6, k7, k8, k9, k10, k11, k12, k13, k14, k15⟩ := key _ rfl
  have hH : (BitVec.ofNat 128 (ofLe (leBytes 16 (headerWord ⟨kind, seq, ack, vc, credVc, credN, dest, route, payload⟩)))).toNat
      = headerWord ⟨kind, seq, ack, vc, credVc, credN, dest, route, payload⟩ := by
    rw [ofLe_leBytes, BitVec.toNat_ofNat, Nat.mod_eq_of_lt (a := headerWord _) (b := 256 ^ 16) (by simpa using k0)]
    exact Nat.mod_eq_of_lt k0
  have hbit : bitAt (BitVec.ofNat 128 (ofLe (leBytes 16 (headerWord ⟨kind, seq, ack, vc, credVc, credN, dest, route, payload⟩)))) 20
      = ack.isSome := by
    simp only [bitAt, hH, Nat.testBit_eq_decide_div_mod_eq, k4]
    cases ack <;> simp
  have field (lo n : Nat) : bitField (BitVec.ofNat 128
      (ofLe (leBytes 16 (headerWord ⟨kind, seq, ack, vc, credVc, credN, dest, route, payload⟩)))) lo n
      = headerWord ⟨kind, seq, ack, vc, credVc, credN, dest, route, payload⟩ / 2 ^ lo % 2 ^ n := by
    simp only [bitField, hH, Nat.shiftRight_eq_div_pow]
  simp only [flitOf, htake, field, hbit, k1, k2, k3, k5, k6, k7, k8, k9, k10, k11, k12, k13, k14, k15, hdrop, hr]
  have hclear : (true && decide (payload.length ≤ 236) && (typeCode kind == 0 || decide (vc.toNat % 32 < 20))) = true := by
    rcases hidle with h | h <;> simp [hp, h]
  simp only [beq_self_eq_true, Bool.and_true, Bool.true_and] at hclear ⊢
  rw [if_pos hclear]
  cases ack <;> simp

end Sys2Proof.Machine
end

