-- ==== Sys2Proof/Machine/Pins.lean ====
section
/-! DEFINITION. What the lands of the package do (R455 to R458, R460, R463, R464): a view of the state, with the supply of the I/O pins
and the test port's Shift states, which no command of the block changes, given beside it. -/
namespace Sys2Proof.Machine

/-- The signal lands of R455 in groups of one behaviour. -/
inductive PinGroup where
  | peLanes | peRefclk | pePerstN | peClkreqN
  | memory (position : Nat)                      -- `MGnn`, `MCm`: 0 to 23 GDDR, 24 to 27 CAMM2
  | peal (port : Nat)
  | refclk | devResetN | thermTripN | alertN
  | spi                                          -- `SPI_CLK`, `SPI_CS_N`, `SPI_IO`
  | testIn                                       -- `TCK`, `TMS`, `TDI`, `TRST_N`
  | tdo (shift : Bool)                           -- whether the test port is in a Shift state
  | clv (pin : Nat) | clvPu
  | testLand
  deriving DecidableEq, Repr

/-- What a group of pins does. -/
inductive PinDrive where
  | input                                        -- driven from outside
  | highZ                                        -- high impedance
  | released                                     -- an open drain that does not pull
  | low | high                                   -- driven to a level
  | electricalIdle                               -- transmitters idle
  | noSignal
  | carries                                      -- driven with signals
  | serial (khz : Nat)                           -- a two-wire line at a rate
  | unconnected
  deriving DecidableEq, Repr

/-- The supply that feeds a memory position: West and East GDDR, then one for each CAMM2 position (R473). -/
def positionSupply (p : Nat) : Nat := if p < 12 then 0 else if p < 24 then 1 else p - 22

/-- A Clave pin in the phase that the bus is in (R463, R464): the segments' lines are serial, of the others roll call reads `ALERT` and
`PRESENT`, and in the run phase the rail-step pins rest low between pulses. -/
def clavePin (s : State) (pin : Nat) : PinDrive :=
  match s.pins.clavePhase with
  | 0 => .highZ
  | 1 => if pin < 8 then .serial (s.pins.segKhz.getD (pin / 2) 0) else .input
  | _ =>
    if 8 ≤ pin then .low
    else if s.pins.segKhz.getD (pin / 2) 0 = 0 then .released
    else .serial (s.pins.segKhz.getD (pin / 2) 0)

/-- What a group of pins does, with VDDIO on or off (R458, R460, R464). `PE_CLKREQ_N` is used while the link is up (DESIGN CHOICE, log 117). -/
def pinState (vddio : Bool) (s : State) : PinGroup → PinDrive
  | .peLanes => if !vddio then .highZ else if s.pcie.up then .carries else .electricalIdle
  | .peRefclk | .pePerstN | .refclk | .devResetN | .testIn => .input
  | .peClkreqN => if vddio && s.pcie.up then .low else .released
  | .memory p => if vddio && !(s.power.supplies.getD (positionSupply p) 0 == 0) then .carries else .highZ
  | .peal p =>
    if vddio && ((s.port p).state == .training || (s.port p).state == .up || (s.port p).state == .held) then .carries else .noSignal
  | .thermTripN => if vddio && !s.pins.thermTripN then .low else .released
  | .alertN => if vddio && !s.pins.alertN then .low else .released
  | .spi => if vddio && s.pins.strapsValid && bootSource s.pins.straps == 0 then .carries else .highZ
  | .tdo shift => if vddio && shift then .carries else .highZ
  | .clv pin => if vddio then clavePin s pin else .highZ
  | .clvPu => if vddio && s.pins.clvPu then .high else .low
  | .testLand => .unconnected

/-! ## The pins of a GDDR position (R456) -/

/-- The pins of one channel, by number. -/
structure ChannelPins where
  dq : List Nat
  edc : List Nat
  wck : List Nat
  ca : List Nat
  deriving DecidableEq, Repr

/-- Channel `j` of a GDDR6 position, of two, or of a GDDR7 position, of four. -/
def channelPins (gddr6 : Bool) (j : Nat) : ChannelPins :=
  if gddr6 then
    { dq := rangeFrom (16 * j) 16, edc := rangeFrom (2 * j) 2, wck := [2 * j], ca := rangeFrom (10 * j) 10 }
  else { dq := rangeFrom (8 * j) 8, edc := [j], wck := [j], ca := rangeFrom (5 * j) 5 }

/-- The pairs of `WCK` that are driven to their idle level. -/
def idleWck (gddr6 : Bool) : List Nat := if gddr6 then [1, 3] else []

end Sys2Proof.Machine
end

