-- ==== Sys2Proof/Tests/Slice0.lean ====
section
/-! SUPPORT. Tests: each check of `WellFormed` refuses an ill-formed term; for each statement with hypotheses a concrete
state and operands that meet them; and values that the spec's tables and worked rules give. -/
namespace Sys2Proof.Tests
open Sys2Proof Sys2Proof.Machine

-- One theorem at a time: checking many at once would hold the memory of all of them.
set_option Elab.async false

/-! ## Terms and states the tests share -/

/-- Request parameters from fields: byte offset and value. -/
def params (l : List (Nat × Nat)) : BitVec 448 := BitVec.ofNat 448 (l.foldl (fun acc x => acc + x.2 * 256 ^ x.1) 0)

def rq (fn : Fin 32) (l : List (Nat × Nat)) : Request := { fn := fn, tag := 7, flags := 0, params := params l, block := [] }

/-- A mailbox with one request waiting, whose next response is the last slot of its ring. -/
def mbx : Mailbox :=
  { reqBase := 0x1000, rspBase := 0x2000, reqEntries := 16, rspEntries := 16, reqTail := 1, ring := [none], taken := 0, rspWrite := 15,
    rspUnreleased := 14, rspPhase := true, held := [], stopping := false }

def client : Func := { Func.reset true with mailbox := some mbx }

def gddr : Channel := { Channel.absent with kind := 1, state := .active, sizeMiB := 1024, tHigh := 85, tCrit := 95 }

/-- A device in `READY`: function 0 and VF 1 with a request waiting, one GDDR channel in service. -/
def up : State :=
  { State.reset with
    fw := { Firmware.reset with state := .ready, bootSlot := some 0 },
    pins := { State.reset.pins with devResetN := true, clavePhase := 2, strapsValid := true },
    pcie := { State.reset.pcie with up := true, gen := 5, width := 16 },
    funcs := [client, client] ++ List.replicate 30 (Func.reset false),
    inv := { Inventory.empty with portMaxRate := List.replicate 16 3, portModule := List.replicate 16 3, extents := [2, 1, 1, 1] },
    channels := gddr :: List.replicate 127 Channel.absent,
    resident := { Resident.reset with cur := some { addr := 0, size := 0, digest := 0, bounds := List.replicate 256 0 } } }

/-- A state in which the turn is at a function. -/
def turn (fn : Nat) (s : State) : State := { s with lastCaller := (fn + 31) % 32 }

/-- `Served` as a test, with the turn at the caller. -/
def servedB (pf bare defer : Bool) (r : Request) (m : Mailbox) (s : State) : Bool :=
  let s := turn r.fn.val s
  (s.fw.state == .ready || (bare && s.fw.state == .bare)) && (s.func r.fn.val).enabled && s.mailbox r.fn.val == some m
    && mailboxTurn s == some r.fn.val && !m.stopping && m.held.isEmpty && decide (m.rspUnreleased + 1 < m.rspEntries)
    && reqFormed r defer && (!pf || r.fn.val == 0)

theorem served {pf bare defer : Bool} {r : Request} {m : Mailbox} {s : State} (h : servedB pf bare defer r m s = true) :
    Served pf bare defer r m (turn r.fn.val s) := by
  simp only [servedB, Bool.and_eq_true, Bool.or_eq_true, beq_iff_eq, decide_eq_true_eq, Bool.not_eq_true',
    List.isEmpty_iff] at h
  obtain ⟨⟨⟨⟨⟨⟨⟨⟨h1, h2⟩, h3⟩, h4⟩, h5⟩, h6⟩, h7⟩, h8⟩, h9⟩ := h
  refine ⟨h1, h2, h3, h4, h5, h6, h7, h8, fun hp => ?_⟩
  rcases h9 with h | h
  · rw [hp] at h; cases h
  · exact h
/-! ## WellFormed -/

theorem test_unit_on_no_stave : (Instr.rest (.core 0 0)).wf = false ∧ (Instr.rest (.core 0 12)).wf = false ∧
    (Instr.rest (.chip 11)).wf = false ∧ (Instr.rest (.core 255 11)).wf = true := by decide
theorem test_request_block_too_long :
    (Instr.getInfo { rq 0 [] with block := List.replicate 4097 0 }).wf = false := by decide +kernel
theorem test_params_too_long : (Instr.jqSubDb 0 0 [{ desc := 0, params := List.replicate 257 0 }]).wf = false := by decide +kernel
theorem test_roll_call_answers_missing :
    (Instr.rollCall { descriptor := none, regulators := [], spd := List.replicate 4 none, modules := List.replicate 16 none,
                      present := List.replicate 4 true, alert := List.replicate 4 false, stuck := List.replicate 4 false }).wf =
      false ∧
    (Instr.rollCall { descriptor := none, regulators := List.replicate 18 true, spd := List.replicate 4 none,
                      modules := List.replicate 16 none, present := [], alert := [], stuck := [] }).wf = false := by decide
theorem test_rates_missing : (Instr.memTrainingDone 0 []).wf = false := by decide
theorem test_parity_stave : (Instr.scratchParityError 0 0).wf = false ∧ (Instr.residentParityError 0 12).wf = false := by decide
theorem test_readings_missing : (Instr.memTempPoll []).wf = false ∧ (Instr.powerLoopTick 0 [1]).wf = false ∧
    (Instr.railTelemetryPoll []).wf = false ∧ (Instr.thermalSensorRead [1]).wf = false ∧ (Instr.cmisStatusPoll []).wf = false := by
  decide
/-- A flit of a kind on channel 4, as it comes in order at a port that has just trained. -/
def flit (kind : FlitType) (bytes : List Byte) : Flit :=
  { kind := kind, seq := 0, ack := none, vc := 4, credVc := 0, credN := 0, dest := 0, route := 0, payload := bytes }

/-- A flit on the line. -/
def wire (f : Flit) : WireFlit := { bytes := flitBytes f, corrected := 0 }

theorem test_identity_fields :
    (Instr.identityExchange ⟨0, wire (flit .link [])⟩ { member := 0, port := 16, extents := [1, 1, 1, 1], torus := 0 }).wf = false ∧
    (Instr.identityExchange ⟨0, wire (flit .link [])⟩ { member := 0, port := 0, extents := [1], torus := 0 }).wf = false := by
  decide +kernel

theorem test_flit_length : (Instr.idleFlitRx 0 { bytes := List.replicate 255 0, corrected := 0 }).wf = false ∧
    (Instr.clapUp ⟨0, { bytes := [], corrected := 0 }⟩).wf = false ∧ (Instr.idleFlitRx 0 (wire (flit .idle []))).wf = true := by
  decide +kernel

theorem test_link_partner : (Instr.pePerstRelease { gen := 5, width := 8, flitMode := false } 36).wf = true ∧
    (Instr.pePerstRelease { gen := 5, width := 2, flitMode := false } 36).wf = false ∧
    (Instr.pePerstRelease { gen := 8, width := 8, flitMode := false } 36).wf = false ∧
    (Instr.pePerstRelease { gen := 5, width := 8, flitMode := false } 42).wf = false := by decide

theorem test_domain_and_rate : (Instr.fifoParityError .job 325).wf = false ∧ (Instr.portTrained 0 0).wf = false ∧
    (Instr.portTrained 0 4).wf = false := by decide
theorem test_no_row_has_bits : decodeTableWord 16 0x1234 = none := by decide

/-! ## The block -/

theorem witness_NoCommandStopsTheBlock : State.reset.pending = [] := rfl

/-- For the statements that every step keeps the three invariants and the fuses. -/
theorem witness_invariants : up.memForm ∧ up.Sized ∧ up.logFits ∧ step up = .next { up with time := 1 } :=
  ⟨⟨rfl, rfl⟩, by constructor <;> decide +kernel, by show _ ≤ 4096; decide, rfl⟩

/-- `up` with a score of one function in slot 0. -/
def scored : State :=
  { up with scores := some { fn := 0, addr := 0, size := 0x2000, digest := 0, struck := false } :: List.replicate 15 none }

theorem witness_MemoryIsWrittenWhereItMay : Memory.empty.wf = true ∧ scored.mem.wf = true ∧
    hitsAny (readOnlyRanges scored) 0x1FFF 1 = true ∧ hitsAny (readOnlyRanges scored) 0x2000 1 = false := by decide +kernel

/-! ## Amior calls -/

theorem witness_ReadingCallsWriteTheirBlock :
    (Served false false false (rq 0 [(0, 0x4040)]) mbx (turn 0 up) ∧ Served false true false (rq 0 [(0, 0x4040)]) mbx (turn 0 up) ∧
      aligned (arg (reqArgs (rq 0 [(0, 0x4040)])) 0 8) 64 = true ∧ zeroFrom (reqArgs (rq 0 [(0, 0x4040)])) 8 = true) ∧
    (∀ fn ∈ [0, 1], servedB false true false (rq fn [(0, 0x40), (8, 1)]) mbx up = true ∧
      aligned (arg (reqArgs (rq fn [(0, 0x40), (8, 1)])) 0 8) 64 = true ∧ arg (reqArgs (rq fn [(0, 0x40), (8, 1)])) 8 1 = 1 ∧
      zeroFrom (reqArgs (rq fn [(0, 0x40), (8, 1)])) 9 = true) ∧
    (Served false true false (rq 1 [(0, 0x40), (8, 5)]) mbx (turn 1 up) ∧
      aligned (arg (reqArgs (rq 1 [(0, 0x40), (8, 5)])) 0 8) 64 = true ∧ zeroFrom (reqArgs (rq 1 [(0, 0x40), (8, 5)])) 40 = true) :=
  ⟨⟨served (by decide +kernel), served (by decide +kernel), by decide +kernel, by decide +kernel⟩, by decide +kernel,
    served (by decide +kernel), by decide +kernel, by decide +kernel⟩

theorem witness_LogAndCountsAreRead :
    (∀ most ∈ [1, 1024], let r := rq 0 [(0, 0x40), (8, 1), (16, most)]
      servedB false true false r mbx up = true ∧ aligned (arg (reqArgs r) 0 8) 64 = true ∧ zeroFrom (reqArgs r) 18 = true ∧
      arg (reqArgs r) 16 2 = most) ∧
    (∀ x ∈ [((1 : Fin 32), 0), (0, 31), (0, 32), (1, 0xFF), (0, 1)], let r := rq x.1 [(0, x.2), (1, 1)]
      servedB false false false r mbx up = true ∧ zeroFrom (reqArgs r) 2 = true ∧ arg (reqArgs r) 1 1 ≤ 1 ∧ arg (reqArgs r) 0 1 = x.2) ∧
    (up.func 31).enabled = false ∧ (up.func 1).enabled = true := by decide +kernel

/-- `up` with every queue of function 0 in use, the first with an unposted job. -/
def queued : State :=
  let k : JobQueue := { subBase := 0x1000, cmpBase := 0x2000, subEntries := 16, cmpEntries := 16, priority := 3, subTail := 14,
                        unposted := 0, cmpWrite := 0, cmpUnreleased := 0, cmpPhase := true, held := [] }
  { up with funcs := { client with queues := some { k with unposted := 14 } :: List.replicate 7 (some k) } ::
                       client :: List.replicate 30 (Func.reset false) }

def queueRq (sub cmp : Nat) : Request := rq 0 [(0, sub), (8, 0x4000), (16, 16), (18, cmp), (20, 3)]

/-- A group request: tag 5, origin 0, extents 2, 1, 1, 1, stride 1, order x y z w, weight 1, timeout 0. -/
def groupRq (weight size : Nat) : Request :=
  rq 0 [(0, 5), (8, size), (9, 1), (10, 1), (11, 1), (12, 1), (13, 1), (14, 1), (15, 1), (16, 0xE4), (17, weight)]

/-- `up` with the group of `groupRq 1 2` defined in slot 3. -/
def grouped : State :=
  { up with groups := List.replicate 3 none ++ [some (groupOf up (reqArgs (groupRq 1 2)) 0)] ++ List.replicate 12 none }

theorem witness_QueuesAndGroupsAreMade :
    servedB false false false (queueRq 0x3000 4096) mbx up = true ∧ servedB false false false (queueRq 0x3000 4096) mbx queued = true ∧
    servedB true false false (groupRq 1 2) mbx up = true ∧ servedB true false false (groupRq 1 2) mbx grouped = true ∧
    (let ps := reqArgs (queueRq 0x3000 4096)
     zeroFrom ps 21 = true ∧ arg ps 0 8 % 4096 = 0 ∧ arg ps 8 8 % 4096 = 0 ∧ ringSizeOk (arg ps 16 2) = true ∧
     ringSizeOk (arg ps 18 2) = true ∧ arg ps 20 1 ≤ 3 ∧ freeSlot (up.func 0).queues = some 0 ∧ freeSlot (queued.func 0).queues = none) ∧
    ringSizeOk (arg (reqArgs (queueRq 0x3000 8192)) 18 2) = false ∧ arg (reqArgs (queueRq 0x3800 16)) 0 8 % 4096 ≠ 0 ∧
    (let ps := reqArgs (groupRq 1 2)
     zeroAt ps 18 2 = true ∧ zeroFrom ps 40 = true ∧ groupBad up ps = false ∧ groupBad grouped ps = false ∧
     (List.range (groupSize ps)).find? (fun k => groupMember up ps k == up.self) = some 0 ∧
     groupSlot up 5 = none ∧ freeSlot up.groups = some 0 ∧ groupSlot grouped 5 = some 3) ∧
    (slotAt grouped.groups 3).map (·.defn) = some (BitVec.ofNat 192 (ofLe ((reqArgs (groupRq 1 2)).take 24))) ∧
    (slotAt grouped.groups 3).map (·.defn) ≠ some (BitVec.ofNat 192 (ofLe ((reqArgs (groupRq 2 2)).take 24))) ∧
    groupBad up (reqArgs (groupRq 1 3)) = true ∧
    (let t := { up with groups := List.replicate 16 ((slotAt grouped.groups 3).map fun g => { g with tag := 6 }) }
     groupSlot t 5 = none ∧ freeSlot t.groups = none) := by decide +kernel


/-! ## Calls on scores, sessions and settings -/

/-- Memory with fields written: address, width in bytes and value. -/
def put (l : List (Nat × Nat × Nat)) (m : Memory) : Memory := l.foldl (fun m x => m.writeBytes x.1 (leBytes x.2.1 x.2.2)) m

/-- A score of two bars at address 0, `SECTION` and `HALT`, with the rest of the beat filled with `BAR` (R55 to R65). -/
def image : Memory :=
  put ([(0, 4, 0x43534D52), (4, 2, 0x0101), (8, 4, 2), (22, 1, 1), (23, 1, 1), (32, 8, 0x100), (40, 8, 0x200), (48, 8, 0x300),
        (56, 8, 0x900), (64, 8, 0x900), (72, 8, 0xA00), (80, 8, 0xD00), (88, 8, 0xD00), (96, 8, 0x1000), (104, 8, 0x2000),
        (0x1007, 1, 5), (0x100F, 1, 6)] ++ (List.range 30).map fun b => (0x1017 + 8 * b, 1, 1)) Memory.empty

def loadRq (a n : Nat) : Request := rq 1 [(0, a), (8, n)]

/-- An encode session of 64 by `height` pixels with `size` bytes of context. -/
def openRq (height size : Nat) : Request := rq 1 [(4, 8), (8, 64), (10, height), (14, 1), (32, 0x10000), (40, size)]

def session (fn : Nat) : Session := { sessionOf fn (reqArgs (openRq 64 0x110000)) with fn := fn }

/-- A running job of function 1 on the score in slot 0. -/
def job : Job :=
  { id := 1, fn := 1, queue := 0, tag := 9, handle := 0, entry := 0, signMode := 0, jobId := 1, paramBytes := 0, params := [],
    provAddr := 0, provSize := 0, stage := .running, parkBar := 0, parkLoops := [], layout := 0, readyAt := none, startedAt := 0,
    runSince := 0, readFrom := 0, readLimit := 0, tested := 0, reused := 0, kernels := 0, preemptions := 0, inputs := [], outputs := [], stepDigest := 0,
    tablesDigest := 0, links := [], opened := [], elapsed := none, body := [] }

def withJob (j : Job) (s : State) : State := { s with sched := { s.sched with jobs := [j], current := some j.id } }

/-- `up` with sessions of functions 1 and 0, and a job whose score names session 0 in its first bar. -/
def coding : State :=
  withJob job { scored with codec := { scored.codec with sessions := [some (session 1), some (session 0)] ++ List.replicate 62 none },
                            mem := put [(0x1000 + 14 * 256, 8, 0x10 * 2 ^ 56)] image }

def scoresFull : State :=
  { up with scores := List.replicate 16 (some { fn := 1, addr := 0x10000, size := 256, digest := 0, struck := false }) }

theorem witness_ScoresLoadAndSessionsOpen :
    (∀ n ∈ [256, 0x2000], servedB false false false (loadRq 0 n) mbx up = true ∧ servedB false false false (loadRq 0 n) mbx scoresFull = true ∧
      zeroFrom (reqArgs (loadRq 0 n)) 16 = true ∧ memoryFree scoresFull 0 n = true ∧ (loadFault up 0 n).isSome = true) ∧
    freeSlot up.scores = some 0 ∧ freeSlot scoresFull.scores = none ∧ memoryFree scored 0 256 = false ∧
    memoryFree up (2 ^ 30 - 256) 256 = true ∧ memoryFree up (2 ^ 30 - 256) 512 = false ∧
    (∀ x ∈ [(64, 0x110000), (64, 0x10FFFF), (62, 0x110000)], let ps := reqArgs (openRq x.1 x.2)
      servedB false false false (openRq x.1 x.2) mbx coding = true ∧ zeroAt ps 19 1 = true ∧ zeroFrom ps 48 = true ∧
      sessionFieldsOk ps = decide (64 ≤ x.1) ∧ contextBad up 0x10000 x.2 = false ∧ ctxNeeded false 0 8 64 64 (arg ps 15 1) = 0x110000) ∧
    freeSlot up.codec.sessions = some 0 ∧ freeSlot (List.replicate 64 (some (session 0))) = none ∧
    (coding.session 0).map (·.fn) = some 1 ∧ (coding.session 1).map (·.fn) = some 0 ∧ (coding.session 2).isNone = true ∧
    namesSession coding job 0 = true ∧ coding.sched.jobs.map (·.stage) = [.running] ∧ up.sched.jobs = [] := by
  decide +kernel

/-- Every byte from bar 0's stave 1 on is 0. -/
theorem image_ends (a : Nat) (h : 0x1100 ≤ a) : image.read a = 0 := by
  have hu : image.undef = [] := by decide +kernel
  have hc : ∀ c ∈ image.cells, c.1 < 0x1100 := by decide +kernel
  have hn : cellAt image.cells a = none := by
    generalize image.cells = l at hc
    induction l with
    | nil => rfl
    | cons c l ih =>
      have h1 := hc c List.mem_cons_self
      simp only [cellAt]
      rw [if_neg (by omega), if_neg (by omega)]
      exact ih fun x hx => hc x (List.mem_cons_of_mem _ hx)
  simp [Memory.read, hn, Memory.unlisted, Memory.undefAt, hu]

theorem image_staves (bar v : Nat) (hb : bar < 32) (hv : v ≠ 0) : scStave image 0 bar v = 0 := by
  have ho : scBodyOfs image 0 = 0x1000 := by decide +kernel
  have hr : ∀ a, 0x1100 ≤ a → image.readBytes a 8 = List.replicate 8 0 := by
    intro a h
    simp only [Memory.readBytes, show List.range 8 = [0, 1, 2, 3, 4, 5, 6, 7] from rfl, List.map_cons, List.map_nil]
    rw [image_ends _ (by omega), image_ends _ (by omega), image_ends _ (by omega), image_ends _ (by omega), image_ends _ (by omega),
      image_ends _ (by omega), image_ends _ (by omega), image_ends _ (by omega)]
    rfl
  simp only [scStave, ho, Memory.readNat]
  rw [hr _ (by omega)]
  rfl

/-- Check 0x0004 of a score of two bars without descriptors passes when each position holds what it may. -/
theorem encodingCheck_passes {m : Memory} {a : Nat} (hn : scBarCount m a = 2) (hd : scDescCount m a = 0)
    (h0 : ∀ bar < 32, (if 2 ≤ bar then !(scStave m a bar 0 == fillerWord 0) else !ctlFormed (scStave m a bar 0)) = false)
    (hv : ∀ bar < 32, ∀ v, v ≠ 0 → scStave m a bar v = 0) : encodingCheck m a = none := by
  have hs : ∀ bar < 32, ∀ v < 16, (if 2 ≤ bar then !(scStave m a bar v == fillerWord v)
      else if v = 0 then !ctlFormed (scStave m a bar v) else !strokeFormed m a v (scStave m a bar v)) = false := by
    intro bar hb v _
    by_cases h : v = 0
    · subst h; simpa using h0 bar hb
    · rw [hv bar hb v h]
      by_cases h2 : 2 ≤ bar <;> simp [h, h2, fillerWord, strokeFormed]
  simp only [encodingCheck, hn, hd, show ceilDiv 2 32 * 32 = 32 from rfl, List.range_zero, List.find?_nil, Option.map_none]
  rw [List.findSome?_eq_none_iff.mpr]
  intro bar hb
  rw [Option.map_eq_none_iff, List.find?_eq_none]
  intro v hv
  rw [hs bar (List.mem_range.mp hb) v (List.mem_range.mp hv)]
  decide

theorem image_encoding : encodingCheck image 0 = none :=
  encodingCheck_passes (by decide +kernel) (by decide +kernel) (by decide +kernel) fun bar hb v hv => image_staves bar v hb hv

/-- A load whose checks all pass (R100). -/
theorem loadFault_passes {s : State} {a n : Nat} (h1 : imageCheck s.mem a n = none)
    (h2 : firstReport [editionCheck s.mem a, limitsCheck s.mem a] = none) (h3 : encodingCheck s.mem a = none)
    (h4 : firstReport [sectionsCheck s.fuses.variant s.mem a, loopsCheck s.mem a, cueMapCheck s.mem a] = none)
    (h5 : firstReport [balanceCheck s a, buffersCheck s a, rangesCheck s a, formatsCheck s a, tilesCheck s a] = none)
    (h6 : firstReport [livenessCheck s a, collBreakCheck s a, scatterOrderCheck s a, overlapCheck s a, residentCheck s a,
      groupsCheck s a] = none) : loadFault s a n = none := by
  have h7 : firstReport [encodingCheck s.mem a, sectionsCheck s.fuses.variant s.mem a, loopsCheck s.mem a, cueMapCheck s.mem a] = none := by
    rw [firstReport, List.findSome?_cons, h3]
    exact h4
  simp only [loadFault, h1, h2, h7, h5, h6]

/-- `up` with `image` in memory. -/
def loadable : State := { up with mem := image }

/-- An image that fails no check of R100 (R55 to R65 give its fields). -/
theorem witness_loadable : memoryFree loadable 0 0x2000 = true ∧ loadFault loadable 0 0x2000 = none := by
  refine ⟨by decide +kernel, loadFault_passes (by decide +kernel) (by decide +kernel) ?_ (by decide +kernel) (by decide +kernel)
    (by decide +kernel)⟩
  have h : loadable.mem = image := by simp only [loadable]
  rw [h]
  exact image_encoding

theorem witness_ObjectsAreReleased :
    (∀ x ∈ [(up, 0), (queued, 0), (coding, 0), (grouped, 5), (grouped, 6)],
      servedB false false false (rq 0 [(0, x.2)]) mbx x.1 = true ∧ servedB true false false (rq 0 [(0, x.2)]) mbx x.1 = true ∧
      zeroFrom (reqArgs (rq 0 [(0, x.2)])) 1 = true) ∧
    (queued.queue 0 0).map (·.unposted) = some 14 ∧ (queued.queue 0 1).map (·.unposted) = some 0 ∧ (up.queue 0 0).isNone = true ∧
    (scored.score 0).map (·.fn) = some 0 ∧ scored.sched.jobs = [] ∧ coding.sched.jobs.map (·.handle) = [0] ∧
    (coding.score 0).map (·.fn) = some 0 ∧ (scored.score 1).isNone = true ∧
    groupSlot grouped 5 = some 3 ∧ (grouped.group 5).map (·.colls) = some [] ∧ groupSlot grouped 6 = none ∧
    scoreWhere grouped (fun a => (scGroups grouped.mem a).contains 5) = none ∧
    (let t := { grouped with scores := scored.scores, mem := put [(24, 1, 1), (0x900, 4, 5)] image }
     (scoreWhere t (fun a => (scGroups t.mem a).contains 5)).isSome = true) := by decide +kernel

/-- A STAGE_SET of `n` entries, the first of ID `id` and value `v`, the others of `PEAL_SEND_WEIGHT`. -/
def stageRq (fn : Fin 32) (n id v : Nat) : Request :=
  rq fn ([(0, n), (8, id), (16, v)] ++ (if 2 ≤ n then [(24, 4), (32, 1)] else []) ++ (if 3 ≤ n then [(40, 4), (48, 15)] else []))

theorem witness_SettingsJoinThePendingSet :
    (∀ x ∈ [((0 : Fin 32), 1, 3, 1000, true), (0, 3, 7, 7, true), (1, 1, 3, 1, true), (0, 3, 3, 1001, false), (0, 0, 3, 1, false),
            (0, 1, 8, 1, false), (0, 2, 6, 2 ^ 48, false)],
      let r := stageRq x.1 x.2.1 x.2.2.1 x.2.2.2.1
      let ps := reqArgs r
      let n := arg ps 0 1
      servedB false false false r mbx up = true ∧ (zeroAt ps 1 7 && zeroAt ps 10 6 && zeroAt ps 26 6 && zeroAt ps 42 6) = true ∧
      (decide (1 ≤ n) && zeroFrom ps (8 + 16 * n) && ((List.range n).map fun e => (arg ps (8 + 16 * e) 2, arg ps (16 + 16 * e) 8)).all
        fun e => settingOk up e.1 e.2) = x.2.2.2.2) ∧
    (let ps := reqArgs (stageRq 1 3 3 1); zeroFrom ps 56 = true) ∧
    up.staged.commit = none ∧ ([(1, 3), (4, 1)] : List (Nat × Nat)).Pairwise (fun a b => a.1 < b.1) := by decide +kernel

/-- `up` with a pending set, and with a commit that waits. -/
def pendingSet (l : List (Nat × Nat)) : State := { up with staged := { up.staged with pending := l } }

def committing : State := { up with staged := { up.staged with pending := [(4, 1)], commit := some { tag := 3, drain := false } } }

theorem witness_SettingsAreStaged :
    (∀ v ∈ [0, 1], let r := rq 0 [(0, v)]
      servedB true false false r mbx up = true ∧ servedB true false false r mbx committing = true ∧
      servedB true false false r mbx (pendingSet [(4, 1)]) = true ∧ servedB true false false r mbx (pendingSet [(6, 4096)]) = true ∧
      arg (reqArgs r) 0 1 = v ∧ zeroFrom (reqArgs r) 1 = true) ∧
    zeroFrom (reqArgs (rq 0 [])) 0 = true ∧ servedB true false false (rq 0 []) mbx committing = true ∧ committing.staged.commit.isSome = true ∧
    (∀ d ∈ [false, true], stageFault up d = none ∧ stageFault committing d = none ∧ stageFault (pendingSet [(4, 1)]) d = none ∧
      stageFault (pendingSet [(4, 1), (6, 4096)]) d = some { setting := 6, handle := 0xFF, fn := 0xFF, reason := 1 }) := by
  decide +kernel

/-- `up` with table 1 in slot 1. -/
def tabled : State := { up with tables := [{ cur := none, load := none }, { cur := some (builtinImage 1), load := none }] ++
                                         List.replicate 6 { cur := none, load := none } }

/-- `up` with a resident image whose header keeps R259 and whose bounds are all 0, at the address 0x10000. -/
def residing : State := { up with mem := put [(0x10000, 4, 0x5253444E), (0x10004, 1, 1)] Memory.empty }

/-- `tabled` with a loaded score whose one stroke, an ATTN, reads table 1, and a load waiting for slot 1. -/
def attended : State :=
  { tabled with scores := scored.scores, mem := put [(12, 4, 1), (0xD07, 1, 0x19), (0x1000 + 256, 8, 0x12 * 2 ^ 56)] image }

def loading : State :=
  { tabled with tables := tabled.tables.set 1 { cur := some (builtinImage 1), load := some { fn := 0, tag := 3, image := none, drain := false } } }

def tableRq (slot id drain : Nat) : Request := rq 0 [(0, slot), (1, id), (2, drain)]

theorem witness_ImageLoadsWait :
    (∀ x ∈ [(0, 0x0C), (1, 1), (0, 1), (7, 0x0C)], ∀ d ∈ [0, 1], let r := tableRq x.1 x.2 d
      servedB true false false r mbx tabled = true ∧ arg (reqArgs r) 2 2 = d ∧ zeroAt (reqArgs r) 4 4 = true ∧
      zeroFrom (reqArgs r) 16 = true ∧ (tabled.tables[x.1]?).isSome = true) ∧
    heldElsewhere tabled 0 0x0C = false ∧ heldElsewhere tabled 1 1 = false ∧ heldElsewhere tabled 0 1 = true ∧
    tabled.sched.jobs = [] ∧
    (∀ d ∈ [0, 1], ∀ s ∈ [tabled, attended, loading], servedB true false false (tableRq 1 0 d) mbx s = true) ∧
    heldElsewhere tabled 1 0 = false ∧ (tabled.tables[1]?).map (fun t => (t.cur.map (·.id), t.load)) = some (some 1, none) ∧
    (scoreWhere tabled fun x => usesTable tabled.mem x 1).isSome = false ∧
    (scoreWhere attended fun x => usesTable attended.mem x 1).isSome = true ∧
    (loading.tables[1]?).map (fun t => t.load.isSome) = some true ∧
    (withJob job attended).sched.jobs.any (fun j => j.active && usesTable attended.mem (attended.scoreAddr j) 1) = true ∧
    (let r := rq 0 [(0, 0x10000), (8, 1024)]
     servedB true false false r mbx residing = true ∧ zeroFrom (reqArgs r) 16 = true ∧ memoryFree residing 0x10000 1024 = true ∧
     residentHeaderOk residing 0x10000 1024 = true ∧ residing.resident.load.isNone = true ∧ residing.preempt.swap = 1 ∧
     servedB true false false r mbx (withJob job { residing with preempt := { residing.preempt with swap := 0 } }) = true) := by
  decide +kernel

theorem witness_builtin_image : tableImageOf tabled 1 0 = some (some (builtinImage 1)) ∧ (builtinImage 1).id = 1 ∧
    tableImageOf tabled 0x0C 0 = some (some (builtinImage 0x0C)) ∧ tableImageOf tabled 0 0 = some none := ⟨rfl, rfl, rfl, rfl⟩

/-! ## Calls on tests, firmware, channels and policies -/

/-- A SELFTEST or CALIBRATE of a target and a mask; `FLAGS` bit 1 is `DEFER`. -/
def testRq (target mask : Nat) (defer : Bool) : Request :=
  { rq 0 [(0, target), (8, mask)] with flags := if defer then 2 else 0 }

def tested : State := { up with test := some { fn := 0, tag := 3, calibrate := false, target := 0, mask := 1, running := true } }

/-- `up` with a job that holds core 0: its score's layout has section 0 of core 0. -/
def busy : State := withJob job { scored with mem := put [(0x200, 1, 1)] image }

theorem witness_TestsBeginOnIdleTargets :
    (∀ x ∈ [(true, 1, 0), (true, 0, 2 ^ 24), (false, 3, 3), (false, 0, 2 ^ 255), (false, 0, 1)], ∀ d ∈ [false, true],
      let r := testRq x.2.1 x.2.2 d
      let ps := reqArgs r
      servedB true false true r mbx up = true ∧ servedB true false true r mbx tested = true ∧
      arg ps 0 1 = x.2.1 ∧ arg ps 8 (if x.1 then 4 else 32) = x.2.2 ∧ zeroAt ps 1 7 = true ∧
      zeroFrom ps (if x.1 then 12 else 40) = true ∧ x.2.2 < 2 ^ maskBits x.1 x.2.1 ∧ reqDefer r = d ∧
      (namedBits (BitVec.ofNat 256 x.2.2)).all (fun i => targetIdle up x.1 x.2.1 i && !neverIdle up x.1 x.2.1 i) = true) ∧
    maskBits true 0 ≤ 28 ∧ maskBits false 3 = 2 ∧ up.test.isNone = true ∧
    servedB true false true (testRq 0 1 true) mbx busy = true ∧ targetIdle busy false 0 0 = false ∧
    neverIdle busy false 0 0 = false ∧ busy.sched.jobs.map (·.stage) = [.running] := by decide +kernel

/-- `up` with a staged image in slot 1, and a staging of 512 bytes that waits. -/
def stagedUp : State :=
  { up with fw := { up.fw with flash := [{ seq := 1, mark := 0x56414C44, image := [] }, { seq := 2, mark := markStaged, image := [] }],
                               staging := some { fn := 0, tag := 5, addr := 0, size := 512 } } }

def risen : State := { up with fw := { up.fw with commitSv := true, imageSv := 64 }, fuses := { up.fuses with svBlown := 63 } }

theorem witness_FirmwareIsStagedAndActivated :
    (∀ n ∈ [0, 33488896], let r := rq 0 [(0, 0x100), (8, n)]
      servedB true true false r mbx up = true ∧ servedB true true false r mbx stagedUp = true ∧ zeroFrom (reqArgs r) 16 = true ∧
      (n ≠ 0 → mapped up 0x100 n = true) ∧ arg (reqArgs r) 8 8 = n) ∧
    (let b := { up with fw := { up.fw with bootSlot := none } }
     servedB true true false (rq 0 [(0, 0x100), (8, 512)]) mbx b = true ∧ mapped b 0x100 512 = true) ∧
    (∀ v ∈ [0, 1], let r := rq 0 [(0, v)]
      servedB true true false r mbx stagedUp = true ∧ servedB true true false r mbx up = true ∧ arg (reqArgs r) 0 1 = v ∧
      zeroFrom (reqArgs r) 1 = true) ∧
    (let t := { stagedUp with channels := { gddr with heat := .suspended } :: List.replicate 127 Channel.absent }
     t.fw.staging.isSome = true ∧ onSuspended t [(0, 512)] = true ∧ onSuspended stagedUp [(0, 512)] = false) ∧
    stagedSlot stagedUp = some 1 ∧ stagedSlot up = none ∧ stagedUp.sched.jobs = [] ∧
    stagedUp.fw.staging = some { fn := 0, tag := 5, addr := 0, size := 512 } ∧ up.fw.staging.isNone = true ∧
    risen.fw.state = .ready ∧ risen.fw.commitSv = true ∧ risen.fuses.svBlown < risen.fw.imageSv ∧ up.fw.commitSv = false := by
  decide +kernel

def withChan (c : Channel) : State := { up with channels := c :: List.replicate 127 Channel.absent }
def resting (st : ChanState) : Channel := { gddr with state := st, fullPass := true }

def chanRq (op flags : Nat) : Request := rq 0 [(1, op), (2, flags)]

theorem witness_ChannelsChangeTheirState :
    (∀ x ∈ [(0, 0), (1, 0), (1, 1), (2, 0), (2, 1)], let r := chanRq x.1 x.2
      servedB true false false r mbx up = true ∧ arg (reqArgs r) 1 1 = x.1 ∧ arg (reqArgs r) 2 2 = x.2 ∧ zeroFrom (reqArgs r) 4 = true ∧
      servedB true false false r mbx scored = true ∧
      (∀ st ∈ [.maintenance, .retired], servedB true false false r mbx (withChan (resting st)) = true)) ∧
    (up.chan 0).state = .active ∧ (up.chan 0).run.isNone = true ∧ (up.chan 1).state = .absent ∧
    chanInUse scored 0 = true ∧ chanInUse up 0 = false ∧
    (∀ st ∈ [.maintenance, .retired], ((withChan (resting st)).chan 0).state = st ∧ ((withChan (resting st)).chan 0).fullPass = true ∧
      ((withChan (resting st)).chan 0).run.isNone = true) ∧
    chanBase 0 = 0 ∧ (up.chan 0).bytes = 2 ^ 30 := by decide +kernel

/-- A MEM_EXERCISE of the whole channel 0, or its stop. -/
def exRq (op passes : Nat) : Request := rq 0 [(1, op), (16, 2 ^ 30), (24, passes)]

def exRun (e : Option Nat) : ExerciserRun :=
  { fn := 0, tag := 5, ending := e, addrPat := 0, dataPat := 0, mix := 0, writePct := 0, stopOnError := true, rangeOfs := 0,
    rangeLen := 2 ^ 30, passes := 1, stride := 0, seed := 0 }

theorem witness_ExercisersRunOneAtATime :
    (∀ st ∈ [ChanState.maintenance, .retired], let s := withChan (resting st)
      (∀ n ∈ [0, 1, 65535, 65536], servedB true false false (exRq 0 n) mbx s = true ∧
        exerciseBad (s.chan 0) (reqArgs (exRq 0 n)) = !(n == 1 || n == 65535)) ∧
      servedB true false false (exRq 1 1) mbx s = true ∧ arg (reqArgs (exRq 1 1)) 1 1 = 1 ∧ arg (reqArgs (exRq 0 1)) 1 1 = 0 ∧
      (∀ e ∈ [none, some 3], let t := withChan { resting st with run := some (exRun e) }
        servedB true false false (exRq 0 1) mbx t = true ∧ servedB true false false (exRq 1 1) mbx t = true ∧
        (t.chan 0).run = some (exRun e) ∧ (t.chan 0).heat ≠ .suspended ∧ (t.chan 0).pausing = false) ∧
      (let t := withChan { resting st with run := some (exRun none), heat := .suspended }
       (t.chan 0).run = some (exRun none) ∧ (t.chan 0).heat = .suspended ∧ (exRun none).ending.isNone = true) ∧
      (s.chan 0).run.isNone = true) ∧
    (∀ st ∈ [false, true], let x := { exRun none with rangeLen := 64, mix := 2, stopOnError := st }
      (runOps x).map (·.write) = [true, false] ∧
      (firstMismatch x { made := 2, first := some (1, 3), actual := 5, mismatches := 1, retries := 0 }).isSome = true ∧
      (firstMismatch x { made := 2, first := some (0, 3), actual := 5, mismatches := 1, retries := 0 }).isNone = true) ∧
    arg (reqArgs (exRq 0 1)) 6 2 ≤ 1 ∧ zeroFrom (reqArgs (exRq 0 1)) 40 = true ∧
    servedB true false false (exRq 0 1) mbx up = true ∧
    (let r := rq 0 [(40, 1)]
     servedB true false false r mbx up = true ∧ zeroFrom (reqArgs r) 40 = false) := by decide +kernel

/-- PREEMPT_POLICY_SET with eviction on or off and `n` bytes of channel 0 as save area. -/
def policyRq (fn : Fin 32) (evict n : Nat) : Request := rq fn [(0, 10), (4, 10000000), (8, evict), (9, 2), (12, 1), (24, 65536), (32, n)]

/-- `up` with a channel that has room for a save area, and no memory in use. -/
def roomy : State := { withChan { gddr with sizeMiB := 2048 } with resident := Resident.reset }

def saving : State :=
  { roomy with sched := { roomy.sched with save := some { job := 1, cores := [], chips := [], gathers := [], work := [] } } }

theorem witness_PreemptPolicyIsSet :
    (∀ x ∈ [((0 : Fin 32), 0, 0), (0, 1, 1610874880), (0, 1, 65536), (1, 0, 0)], let r := policyRq x.1 x.2.1 x.2.2
      let ps := reqArgs r
      servedB (x.1 == 0) false false r mbx roomy = true ∧ servedB (x.1 == 0) false false r mbx saving = true ∧
      zeroAt ps 10 2 = true ∧ zeroFrom ps 40 = true ∧ arg ps 0 4 = 10 ∧ arg ps 4 4 = 10000000 ∧ arg ps 9 1 = 2 ∧ arg ps 24 8 = 65536) ∧
    (let p (n : Nat) : PreemptPolicy :=
       { breakWaitUs := 10, sliceUs := 10000000, evict := true, swap := 2, saveChannels := 1, saveOfs := 65536, saveBytes := n }
     saveAreaOk roomy (p 1610874880) = true ∧ saveAreaOk roomy (p 65536) = false ∧
     saveAreaOk { roomy with preempt := p 65536 } (p 65536) = false) ∧
    saving.sched.save.isSome = true ∧ saving.preempt.saveOfs = 0 := by decide +kernel

/-- A board descriptor that passes roll call: one member, the regulators of rails 6 to 11 alone (R473). -/
def board : BitVec 4096 :=
  BitVec.ofNat 4096 (([(0, 0x42444553), (4, 1), (6, 512), (20, 0x01010101), (508, 0x0B97EE62)] ++
    (List.range 6).map fun i => (200 + 4 * i, 0x02000016 + i)).foldl (fun acc (x : Nat × Nat) => acc + x.2 * 256 ^ x.1) 0)

def roll (d : Option (BitVec 4096)) : RollCall :=
  { descriptor := d, regulators := List.replicate 18 true, spd := List.replicate 4 none, modules := List.replicate 16 none,
    present := List.replicate 4 true, alert := List.replicate 4 false, stuck := List.replicate 4 false }

def bareUp : State := { up with fw := { up.fw with state := .bare } }

set_option maxRecDepth 100000 in
theorem test_board_passes : descriptorStatus (roll (some board)) = (0, 0xFF) := by decide +kernel

set_option maxRecDepth 100000 in
theorem witness_RollCallRunsAndRunsAgain :
    (let s := { State.reset with fw := { Firmware.reset with state := .init }, pins := { State.reset.pins with clavePhase := 1 } }
     s.fw.state = .init ∧ s.pins.clavePhase = 1) ∧
    (heard (roll none)).descriptor.isNone = true ∧ (descriptorStatus (heard (roll (some 0)))).1 ≠ 0 ∧
    (heard (roll (some board))).descriptor.isSome = true ∧ (descriptorStatus (heard (roll (some board)))).1 = 0 ∧ (Instr.rollCall (roll (some board))).wf = true ∧
    (∀ fn ∈ [(0 : Fin 32), 1], let r := rq fn [(0, 0x40), (8, 1)]
      servedB false true false r mbx bareUp = true ∧ servedB false true false r mbx up = true ∧
      aligned (arg (reqArgs r) 0 8) 64 = true ∧ arg (reqArgs r) 8 1 = 1 ∧ zeroFrom (reqArgs r) 9 = true) := by decide +kernel

/-- `up` with ports 0 and 2 cabled, port 0 up and holding a flit. -/
def cabled : State :=
  { up with inv := { up.inv with portsCabled := 5 },
            fabric := { up.fabric with ports := { Port.reset with state := .up, rate := 3, replay := [flit .idle []], waitTx := [(0, 4, flit .send [])] } ::
                                                List.replicate 15 { Port.reset with state := .down } } }

theorem witness_RetrainingMasksDropPorts :
    (∀ fn ∈ [(0 : Fin 32), 1], ∀ mask ∈ [1, 0xFFFF], let r := rq fn [(0, 0x40), (8, mask)]
      servedB false false false r mbx cabled = true ∧ aligned (arg (reqArgs r) 0 8) 64 = true ∧ zeroFrom (reqArgs r) 10 = true ∧
      arg (reqArgs r) 8 2 = mask) ∧
    portTrains cabled 0 = true ∧ portTrains cabled 2 = true ∧ portTrains cabled 1 = false ∧ cabled.fabric.ports.length = 16 ∧
    (cabled.port 0).waitTx.map (·.1) = [0] ∧ (cabled.port 2).waitTx = [] := by
  decide +kernel

def full : Mailbox := { mbx with rspUnreleased := 15 }
def fullUp : State := { up with funcs := { client with mailbox := some full } :: List.replicate 31 client }

/-- `up` with a full response ring and two responses held. -/
def heldUp : State :=
  let x (tag : Word) : Response := { tag := tag, status := .ok, opcode := 1, result := 0 }
  { up with funcs := { client with mailbox := some { full with held := [x 1, x 2], taken := 2 } } :: List.replicate 31 client }

/-- The ring is full at 15 unreleased slots (R392): a release of one slot posts one held response, and keeps the other. -/
theorem test_held_response : (∃ t, exec (.mbxRspDb 0 1) heldUp = .next t ∧
    (t.mailbox 0).map (fun m => (m.held.map (·.tag), m.rspUnreleased, m.rspWrite)) = some ([2], 15, 0) ∧
    t.host.readNat (0x2000 + 64 * 15) 4 = 1) := ⟨_, rfl, by decide +kernel⟩

theorem witness_RefusalsAndFullRings :
    (∀ x ∈ [((0 : Fin 32), [(7, 4)], true), (0, [(8, 1)], true), (0, [(7, 3)], false), (1, [], false)], let r := rq x.1 x.2.1
      servedB false true false r mbx bareUp = true ∧ servedB false true false r mbx up = true ∧
      (decide (4 ≤ arg (reqArgs r) 7 1) || !zeroFrom (reqArgs r) 8) = x.2.2) ∧
    (let r := { rq 0 [] with flags := 2 }
     reqFormed r false = false ∧ servedB false true true r mbx up = true) ∧
    (let m := { mbx with ring := [some { opcode := 0x7777, tag := 7 }] }
     let s : State := { up with funcs := { client with mailbox := some m } :: List.replicate 31 (Func.reset false) }
     servedB false true true (rq 0 []) m s = true ∧ m.ring.head? = some (some { opcode := 0x7777, tag := (rq 0 []).tag })) ∧
    fullUp.mailbox 0 = some full ∧ full.rspEntries ≤ full.rspUnreleased + 1 ∧
    (heldUp.mailbox 0).map (fun m => (m.held.length, m.taken)) = some (2, 2) ∧ (heldUp.func 0).enabled = true ∧
    doorbellsWait heldUp = false ∧ bitField (1 : DWord) 12 52 = 0 ∧ releaseCount 16 15 15 (bitField (0 : DWord) 0 12) = some 0 ∧
    releaseCount 16 15 15 (bitField (1 : DWord) 0 12) = some 1 ∧
    mayTake 0 State.reset = false ∧ mayTake 0 { up with fw := { up.fw with state := .failed } } = false := by decide +kernel

/-! ## Doorbells, registers and windows -/

/-- A mailbox setup block for rings of `q` requests and `p` responses. -/
def setup (base q p : Nat) : Desc := BitVec.ofNat 512 (base + 0x8000 * 256 ^ 8 + q * 256 ^ 16 + p * 256 ^ 18)

def entry : LogEntry :=
  { seq := 1, time := 0, source := 1, severity := 0, status := .ok, fn := 0, stave := 0, place := 0, detail := 0 }

/-- `up` whose mailbox of function 0 has nothing outstanding. -/
def quiet : State := { up with funcs := { client with mailbox := some { mbx with ring := [] } } :: List.replicate 31 client }

theorem witness_MailboxesAreSetUpAndMisuseLogged :
    doorbellsWait quiet = false ∧ doorbellsWait { up with bar2Held := [.write 0 [1]] } = true ∧
    doorbellsWait { up with bar2Held := [.read 0 4] } = false ∧ doorbellsWait { up with doorbells := [.mbxStop 0 0] } = true ∧
    (quiet.func 0).enabled = true ∧ quiet.pcie.up = true ∧ quiet.fw.state ≠ .failed ∧ (quiet.mailbox 0).map (·.ring) = some [] ∧
    (quiet.mailbox 0).map (·.taken) = some 0 ∧ (up.mailbox 0).map (·.ring) = some [none] ∧ (up.func 31).enabled = false ∧
    bitField (0x4000000000000000 : DWord) 62 2 = 1 ∧ bitField (0x4000000000000000 : DWord) 58 4 = 0 ∧
    bitField (0x4400000000000000 : DWord) 58 4 = 1 ∧
    (∀ x ∈ [(0x4000, 16, 16, true), (0x4000, 16, 4096, true), (0x4000, 4096, 4096, true), (0x4000, 32, 16, false), (0x4000, 8, 16, false),
            (0x4000, 16, 8192, false), (0x4000, 24, 32, false), (0x4800, 16, 16, false)],
      setupOk (setup x.1 x.2.1 x.2.2.1) = x.2.2.2) ∧
    (∀ n ∈ [4095, 4096], let t : State := { up with log := { up.log with entries := List.replicate n entry } }
      t.logFits) ∧
    registerMisuse 0x0 64 = true ∧ registerMisuse 0x10 32 = true ∧ registerMisuse 0x30 64 = false ∧ registerMisuse 0x8 32 = false := by
  refine ⟨by decide, by decide, by decide, by decide, by decide, by decide, by decide, by decide, by decide, by decide, by decide, by decide, by decide, by decide,
    by decide +kernel, ?_, by decide, by decide, by decide, by decide⟩
  intro n h
  show (List.replicate n entry).length ≤ 4096
  rw [List.length_replicate]
  simp only [List.mem_cons, List.not_mem_nil, or_false] at h
  omega

theorem witness_MailboxDoorbellsMoveTheRings :
    up.mailbox 0 = some mbx ∧ quiet.mailbox 0 = some { mbx with ring := [] } ∧ (up.func 0).enabled = true ∧ doorbellsWait up = false ∧
    (∀ x ∈ [((1 : DWord), 0), (15, 14), (0, 15)],
      let tail := bitField x.1 0 12
      bitField x.1 62 2 = 0 ∧ bitField x.1 12 50 = 0 ∧ tail < mbx.reqEntries ∧ (tail + mbx.reqEntries - mbx.reqTail) % mbx.reqEntries = x.2 ∧
      decide (mbx.ring.length + mbx.taken + x.2 < mbx.reqEntries) = decide (x.2 < 15)) ∧
    ¬ bitField (16 : DWord) 0 12 < mbx.reqEntries ∧
    bitField (0x8000000000000000 : DWord) 62 2 = 2 ∧ bitField (0x8000000000000000 : DWord) 0 62 = 0 ∧
    bitField (15 : DWord) 12 52 = 0 ∧ releaseCount 16 15 14 15 = some 14 ∧ releaseCount 16 15 14 1 = some 0 ∧
    releaseCount 16 15 14 0 = none ∧ releaseCount 16 15 14 16 = none := by decide +kernel

/-- A job descriptor with `tag` for entry `e` of handle 0, its provenance area at `prov` (R395). -/
def submission (tag e prov : Nat) : Submission := { desc := BitVec.ofNat 1024 (tag + e * 256 ^ 5 + prov * 256 ^ 32), params := [] }

/-- The first queue of function 0 with room for one entry more. -/
def queueOf (unposted : Nat) : JobQueue :=
  { subBase := 0x1000, cmpBase := 0x2000, subEntries := 16, cmpEntries := 16, priority := 3, subTail := 15, unposted := unposted,
    cmpWrite := 2, cmpUnreleased := 2, cmpPhase := true, held := [] }

def queueUp (unposted : Nat) : State :=
  { scored with mem := image, funcs := { client with queues := some (queueOf unposted) :: List.replicate 7 none } ::
                                         List.replicate 31 client }

theorem witness_JobDoorbellsQueueJobs :
    (∀ u ∈ [14, 15], let s := queueUp u
      (s.func 0).enabled = true ∧ s.pcie.up = true ∧ s.fw.state = .ready ∧ s.queue 0 0 = some (queueOf u) ∧
      (∀ x ∈ [((15 : DWord), 0), (0, 1), (1, 2)], bitField x.1 32 3 = 0 ∧ bitField x.1 12 20 = 0 ∧ bitField x.1 35 29 = 0 ∧
        bitField x.1 0 12 < 16 ∧ (bitField x.1 0 12 + 16 - 15) % 16 = x.2)) ∧
    (let r : Record := { tag := 1, status := .ok, cause := .ok, event := false, provAddr := 0, kind := 0, detail := 0, job := none }
     let k : JobQueue := { queueOf 15 with held := [r], cmpUnreleased := 15 }
     let s := { queueUp 15 with funcs := { client with queues := some k :: List.replicate 7 none } :: List.replicate 31 client }
     s.queue 0 0 = some k ∧ releaseCount 16 2 15 4 = some 1 ∧ doorbellsWait s = false) ∧
    14 + 1 < 16 ∧ 16 ≤ 15 + 1 ∧ 16 ≤ bitField (16 : DWord) 0 12 ∧ releaseCount 16 2 2 2 = some 2 ∧ releaseCount 16 2 2 3 = none ∧
    doorbellsWait (queueUp 0) = false ∧ ((queueUp 0).queue 0 (bitField (0x100000000 : DWord) 32 3)).isNone = true ∧
    descriptorBad (queueUp 0) 0 (submission 9 0 256) = false ∧ ((queueUp 0).score 0).map (·.struck) = some false ∧
    (queueUp 0).funcs.length = 32 := by decide +kernel

theorem witness_InterruptsAreRaisedAndWritten :
    (up.func 0).enabled = true ∧ up.pcie.up = true ∧ (up.func 31).enabled = false ∧ up.funcs.length = 32 ∧
    (∀ st m : BitVec 11, ({ up with funcs := up.funcs.set 0 { client with irqStatus := st, irqMask := m } } : State).pcie.up = true) :=
  ⟨by decide, by decide, by decide, by decide, fun _ _ => rfl⟩

/-- `up` whose channel 0 is suspended. -/
def suspended : State := withChan { gddr with heat := .suspended }

theorem witness_WindowsReachTheirTargets :
    up.pcie.up = true ∧ up.test.isNone = true ∧ 0 + 2 ^ 30 ≤ 2 ^ up.pcie.bar2Log2 ∧
    (∀ ofs ∈ [0, 2 ^ 30 - 64], placeOf up (up.staged.cur.bar2Base + ofs) 64 = .memory ∧
      placeOf suspended (suspended.staged.cur.bar2Base + ofs) 64 = .suspended ∧
      hitsAny (readOnlyRanges up ++ codecRanges up) ofs 64 = false) ∧
    (bareUp.fw.state = .bare) ∧ ({ up with fw := { up.fw with state := .updating } } : State).pcie.up = true ∧
    (let s := { up with fw := { up.fw with state := .awaitImage } }
     s.pcie.up = true ∧ s.fw.state = .awaitImage) ∧
    placeOf up (up.staged.cur.bar2Base + 2 ^ 30) 64 = .hole ∧ 2 ^ 30 + 64 ≤ 2 ^ up.pcie.bar2Log2 ∧ 2 ^ up.pcie.bar2Log2 < 2 ^ 41 + 1 ∧
    (33488896 : DWord).toNat ≤ 33488896 ∧ 33488896 < (33488897 : DWord).toNat := by decide +kernel

/-! ## Functions, resets and boot -/

theorem witness_FunctionsAreEnabledAndReset :
    up.pcie.up = true ∧ up.funcs.length = 32 ∧ (up.func 0).enabled = true ∧ (up.func 1).enabled = true ∧ (up.func 2).enabled = false ∧
    (withJob job scored).sched.jobs.map (·.fn) = [1] := by decide +kernel

theorem witness_ResetsLoseTheDevice :
    up.pins.devResetN = true ∧ up.power.trippedAt.isNone = true ∧ up.pins.strapsValid = true ∧
    (let t := { up with power := { up.power with trippedAt := some 5 } }
     t.pins.devResetN = true ∧ t.power.trippedAt.isSome = true) ∧
    strapsReserved 2 = true ∧ strapsReserved 0x1C = true ∧ strapsReserved 0 = false ∧ strapsReserved 1 = false ∧
    bootSource 0 = 0 ∧ bootSource 1 = 1 := by decide

theorem witness_RomStepsFollowTheStraps :
    State.reset.pins.devResetN = false ∧
    (let s := { State.reset with pins := { State.reset.pins with devResetN := true } }
     s.pins.devResetN = true ∧ s.pins.strapsValid = false ∧ s.fw.state = .rom ∧ s.pcie.up = false) ∧
    (let s := { State.reset with
       pins := { State.reset.pins with devResetN := true, pePerstN := true, partner := some (({ gen := 5, width := 8, flitMode := false } : LinkPartner), 36) },
       power := { State.reset.power with domains := State.reset.power.domains.map fun (d : Domain) => { d with state := .running } } }
     (s.domain 318).state = .running ∧ s.pins.pePerstN = true ∧ s.pins.partner.isSome = true ∧ s.pcie.up = false) ∧
    (let s := { State.reset with pins := { State.reset.pins with devResetN := true, strapsValid := true } }
     s.pins.devResetN = true ∧ s.pins.strapsValid = true ∧ s.pcie.up = false) := by decide +kernel

def slot (seq : Nat) (valid : Bool) : FlashSlot := { seq := seq, mark := if valid then 0x56414C44 else 0xFFFFFFFF, image := [] }

theorem witness_ImagesAreVerifiedInOrder :
    (let s := { State.reset with pins := { State.reset.pins with strapsValid := true } }
     s.fw.state = .rom ∧ s.pins.strapsValid = true ∧ strapsReserved s.pins.straps = false ∧ bootSource s.pins.straps = 0) ∧
    (slot 1 true).mark = 0x56414C44 ∧ (slot 1 true).seq ≤ (slot 1 true).seq ∧ (slot 1 true).seq < (slot 2 true).seq ∧
    (slot 9 false).mark ≠ 0x56414C44 ∧
    (let s := { State.reset with fw := { Firmware.reset with state := .verifying } }
     s.fw.state = .verifying ∧ s.pins.clavePhase = 0 ∧ imageOk 0 s.fw.image = false) := by decide +kernel

/-- `up` in `INIT`: a rail, a supply and the boot's own steps. -/
def booting : State :=
  { up with fw := { up.fw with state := .init },
            power := { up.power with rails := up.power.rails.map (fun r => { r with on := true, good := true }), supplies := [1, 2, 2, 2, 2, 2] } }
def ramped : State :=
  { booting with power := { booting.power with supplies := List.replicate 6 2, rails := booting.power.rails.map (fun r => { r with mv := 800 }) } }

theorem witness_BootBringsUpRailsMemoryAndCores :
    booting.fw.state = .init ∧ booting.power.rails.length = 12 ∧ booting.power.supplies[0]? = some 1 ∧
    (∀ x ∈ [(0, false), (5000, true)], let s := { booting with time := x.1, inv := { booting.inv with pgDelay := List.replicate 18 5 } }
      decide (s.power.supplyAt.getD 0 0 + 1000 * s.inv.pgDelay.getD 12 0 ≤ s.time) = x.2) ∧
    (let s := { booting with power := { booting.power with rails := booting.power.rails.set 6 { Rail.offRail with on := true } } }
     s.fw.state = .init ∧ (s.rail 6).on = true ∧ (s.rail 6).good = false ∧ s.power.rails.length = 12) ∧
    vcoreSettled ramped = true ∧ ramped.fw.state = .init ∧ ramped.fw.bootMemory = false ∧ ramped.channels.length = 128 ∧
    railsRamped ramped = true ∧ ramped.fw.bootTests = false ∧ ramped.cores.length = 256 ∧
    (let s := { booting with fw := { booting.fw with bootTests := true, bootMemory := true } }
     s.fw.state = .init ∧ s.fw.bootTests = true ∧ s.fw.bootMemory = true) := by decide +kernel

/-! ## Bars and strokes -/

/-- A stroke of an opcode stands before a unit and may fire, and `cond` holds of its beat. -/
def fires (s : State) (u : UnitId) (op : Nat) (cond : BeatCtx → Bool := fun _ => true) : Bool :=
  match beatOf s u with
  | none => false
  | some (b, x) => (b.word.op == op && !(b.raw == 0) && strokeDue b.ctl x && mayFire s u b x) && streamCredit u op b s && cond b

theorem due_of_test {s : State} {u : UnitId} {op : Nat} {cond : BeatCtx → Bool} (h : fires s u op cond = true) :
    ∃ b, Due s u op b ∧ cond b = true := by
  unfold fires at h
  split at h
  · cases h
  · rename_i b x hb
    simp only [Bool.and_eq_true] at h
    exact ⟨b, due_of_fires hb h.1.2 (by simpa only [Bool.and_eq_true] using h.1.1), h.2⟩

/-- A control stroke of an opcode stands before a unit, and `cond` holds of its beat. -/
def controls (s : State) (u : UnitId) (op : Nat) (cond : BeatCtx → UnitState → Bool := fun _ _ => true) : Bool :=
  match beatOf s u with
  | none => false
  | some (b, x) => (b.ctl.op == op && x.beat == (if op = 2 ∨ op = 5 then .control else .close)) && cond b x

theorem ctlDue_of_test {s : State} {u : UnitId} {op : Nat} {cond : BeatCtx → UnitState → Bool} (h : controls s u op cond = true) :
    ∃ b, CtlDue s u op b ∧ cond b (s.unit u) = true := by
  unfold controls at h
  split at h
  · cases h
  · rename_i b x hb
    obtain ⟨-, rfl, -⟩ := beatOf_eq hb
    simp only [Bool.and_eq_true, beq_iff_eq] at h
    exact ⟨b, ⟨hb, h.1.1, h.1.2⟩, h.2⟩

/-- A stroke's word (R61), a control word whose section mask is section 0 (R65), and a descriptor by its fields' low bits. -/
def W (op desc imm : Nat) : Nat := op * 2 ^ 56 + desc * 2 ^ 24 + imm
def K (op level imm : Nat) : Nat := op * 2 ^ 56 + level * 2 ^ 48 + 2 ^ 40 + imm
def D (l : List (Nat × Nat)) : Nat := l.foldl (fun acc x => acc + x.2 * 2 ^ x.1) 0

/-- A fetcher that has read bars ahead, with 16 descriptors in its cache. -/
def fetched : Fetcher := { Fetcher.idle with count := 100, cache := List.range 16 }

/-- Bar 0 of a running job whose section 0 is cores 0 and 1, every unit at `beat` with cue counters of 1: the control word, the
words of staves and the descriptors. Buffer 0 is attached memory at 0x10000. -/
def play (beat : Beat) (ctl : Nat) (words : List (Nat × Nat)) (descs : List (Nat × List (Nat × Nat))) : State :=
  let x : UnitState := { UnitState.idle with beat := beat, cues := List.replicate 8 1 }
  withJob job { scored with
    mem := put ([(0x1000, 8, ctl), (0x200, 1, 3), (0x900, 1, 2), (0x908, 8, 0x10000), (0x910, 8, 0x10000)]
      ++ words.map (fun w => (0x1000 + 256 * w.1, 8, w.2)) ++ descs.map (fun d => (0xD00 + 64 * d.1, 64, D d.2))) image,
    cores := List.replicate 256 { Core.reset with units := List.replicate 11 x, fetch := fetched }, chips := List.replicate 4 x,
    chipFetch := List.replicate 4 fetched }

/-- A `BAR` with the words of staves. -/
def bar (words : List (Nat × Nat)) (descs : List (Nat × List (Nat × Nat)) := []) : State := play .control (K 1 0 0) words descs

/-- Core `c` changed. -/
def withCore (c : Nat) (f : Core → Core) (s : State) : State := s.updCore c f

def flight (op : Nat) (phase : Flight) : Inflight :=
  { op := BitVec.ofNat 8 op, desc := 0, imm := 0, signal := 1, bar := 0, loops := [0, 0, 0, 0], firedAt := 0, timeout := 5, memLimit := 20, key := 4,
    taken := 0, given := 0, phase := phase, rattle := [] }

/-- A unit's strokes in flight. -/
def flying (u : UnitId) (l : List Inflight) (s : State) : State := s.updUnit u fun x => { x with inflight := l }

theorem witness_FiringTakesItsCues :
    (∀ u ∈ [UnitId.core 0 1, .core 255 11, .chip 12, .chip 15], u.wf = true) ∧ up.Sized ∧ (∀ k ∈ up.cores, k.units.length = 11) ∧
    (∀ u op b, ¬ Due up u op b) :=
  ⟨by decide, witness_invariants.2.1, by decide +kernel, fun u op b h => by
    have := h.beats
    have hn : beatOf up u = none := rfl
    rw [hn] at this
    cases this⟩

/-- A unit with an open loop at level 1, with its counter and its count. -/
def looping (u : UnitId) (n count : Nat) (s : State) : State :=
  s.updUnit u fun x => { x with loops := updAt x.loops 1 fun _ => { isOpen := true, count := count, counter := n, beginBar := 0 } }

/-- A LOOP_BEGIN whose count is a scalar that the job leaves 0, and its LOOP_END in bar 1. -/
def skipped : State :=
  let s := play .control (K 2 1 0 + 2 ^ 39) [] []
  { s with mem := put [(0x1008, 8, K 3 1 0)] s.mem }

theorem witness_ControlStrokesMoveTheirUnit :
    (∀ u ∈ [UnitId.core 0 1, .core 1 11, .chip 15],
      (match beatOf (bar []) u with | some (b, x) => b.raw == 0 && strokeDue b.ctl x | none => false) = true ∧
      controls (play .close (K 1 0 0) [] []) u 1 = true ∧
      controls (play .control (K 2 1 0) [] []) u 2 (fun b _ => loopCount b == 1) = true ∧
      controls (looping u 0 2 (play .close (K 3 1 0) [] [])) u 3
        (fun b x => let l := x.loops.getD b.ctl.level LoopLevel.closed; l.isOpen && decide (l.counter + 1 < l.count)) = true ∧
      controls (looping u 1 2 (play .close (K 3 1 0) [] [])) u 3
        (fun b x => let l := x.loops.getD b.ctl.level LoopLevel.closed; !decide (l.counter + 1 < l.count)) = true ∧
      controls (play .close (K 4 0 0) [] []) u 4 = true ∧ controls (play .close (K 6 0 0) [] []) u 6 = true ∧
      controls (play .control (K 5 0 7) [] []) u 5 = true ∧
      controls skipped u 2 (fun b _ => loopCount b == 0 &&
        (scLoopEnd skipped.mem b.fire.score b.ctl.level (scBarCount skipped.mem b.fire.score - b.bar) b.bar == some 1)) = true) := by
  decide +kernel

theorem witness_StrokesCompleteInBarOrder :
    (∀ u ∈ [UnitId.core 0 1, .chip 13],
      fires (bar [(1, W 1 0 0), (13, W 1 0 0)]) u 1 = true ∧
      fires (flying u [flight 0x10 .running] (bar [(1, W 1 0 0), (13, W 1 0 0)])) u 1 = true ∧
      ((flying u [flight 0x10 .done, flight 0x10 .done] (bar [])).unit u).inflight = [flight 0x10 .done, flight 0x10 .done] ∧
      ((flying u [flight 0x10 .running] (bar [])).unit u).inflight = [flight 0x10 .running] ∧
      ((flying u [flight 0x10 .paused] (bar [])).unit u).inflight = [flight 0x10 .paused]) ∧
    (bar []).currentJob = some job ∧ job.stage = .running ∧ strikePending (bar []) = false ∧ (bar []).fabric.sends = [] ∧
    (∀ n ∈ [254, 255], ((((bar []).updUnit (.core 0 1) fun x => { x with cues := [n] }).unit (.core 0 1)).cues.getD 0 0) = n) ∧
    (let u := UnitId.core 1 10
     let s := flying u [flight 0x10 .done] (bar [(10, W 0x10 0 0)] [(0, [(408, 64), (384, 4), (360, 1), (344, 1)])])
     onSuspended s (flightRuns s u (flight 0x10 .done)) = false ∧ (s.core 1).stoppedParts = [] ∧
     othersWritten u (flight 0x10 .done) s = true ∧
     onSuspended { s with channels := { gddr with heat := .suspended } :: List.replicate 127 Channel.absent }
       (flightRuns s u (flight 0x10 .done)) = true) ∧
    (withJob { job with stage := .parked } scored).currentJob = some { job with stage := .parked } := by decide +kernel

/-- `bar` with stroke 0x10 of descriptor 7 on stave 1, and the fetcher of the cores given. -/
def fetching (f : Fetcher) : State :=
  let s := bar [(1, W 0x10 7 0)]
  { s with cores := s.cores.map fun k => { k with fetch := f } }

theorem witness_fetches :
    (∀ x ∈ [({ fetched with cache := [] }, [7], true), ({ fetched with count := 0, ended := false }, [], true),
            ({ fetched with ended := true }, [], true), ({ fetched with count := 256, ended := false }, [], false)],
      let s := fetching x.1
      let us := fetchUnits (.core 0 1)
      (s.currentJob.map (·.stage)) = some .running ∧ s.fetcher (.core 0 1) = x.1 ∧
      (us.flatMap fun v => if (s.unit v).passed < x.1.count then
        (barDescs s (s.scoreAddr job) (s.unit v).bar v).filter fun d => !(x.1.cache.contains d) else []) = x.2.1 ∧
      (us.all fun v => decide (x.1.count < (s.unit v).passed + 256)) = x.2.2) ∧
    (let s := fetching { fetched with cache := [] }
     let t := { s with channels := { gddr with heat := .suspended } :: List.replicate 127 Channel.absent }
     onSuspended s (fetchRuns s (s.scoreAddr job) (.core 0 1)) = false ∧ onSuspended t (fetchRuns t (t.scoreAddr job) (.core 0 1)) = true) ∧
    (withJob { job with stage := .parked } scored).currentJob = some { job with stage := .parked } ∧
    (∀ op ∈ [1, 2, 3, 4, 6], (scCtl (play .control (K op 1 0) [] []).mem 0 0).op = op) ∧
    (let l := { LoopLevel.closed with isOpen := true, count := 2, counter := 0 }
     l.isOpen = true ∧ l.counter + 1 < l.count) := by decide +kernel

/-! ## Matrix work -/

/-- One product of one row, one position and `k` elements, of the units in `units`. -/
def product (combo units k : Nat) : List (Nat × Nat) := [(456, combo), (112, 1), (88, 1), (64, k), (16, units)]

/-- The words of one opcode for all four Mallet units. -/
def malletWords (op imm : Nat) : List (Nat × Nat) := [1, 2, 3, 4].map fun v => (v, W op 0 imm)

/-- The context of a stroke of core 0, an entry of the broadcast, a set, a partial at a merge port, a row of a tap. -/
def ctx0 : Fire := { score := 0, core := 0, rank := 0, loops := [0, 0, 0, 0], params := [] }

def feedEntry (units : List Nat) : FeedEntry :=
  { key := 3, op := 0x10, desc := 0, bar := 0, loops := [0, 0, 0, 0],
    place := { problem := 0, round := 0, block := 0, tile := 0, group := 0, col := 0 }, carried := .column [[Val.fin false 1 0]], units := units }

def accSet (op mu row0 : Nat) (full : Bool) : AccSet :=
  { key := 4, op := BitVec.ofNat 8 op, desc := 0, bar := 0, mu := mu, array := 0, row0 := row0, col0 := 0, tile := 0, rows := [[0]], full := full }

def merge (rank : Nat) (merged : Option (List (List Word))) : MergeItem :=
  { kind := .rowAmax, key := 3, desc := 0, bar := 0, rank := rank, own := [[1]], merged := merged }

def tapRow : TapRow := { chainDesc := 1, bar := 0, width := 0, stages := [[0]] }

/-- A bar with a stroke of an opcode in flight at units of core 0, and the core changed. -/
def working (op : Nat) (staves : List Nat) (words : List (Nat × Nat)) (desc : List (Nat × Nat)) (f : Core → Core) : State :=
  staves.foldl (fun s v => flying (.core 0 (Fin.ofNat 16 v)) [flight op .running] s) (withCore 0 f (bar words [(0, desc)]))

/-- An MM stroke on unit 0 with an entry for it, in a mode and with sets in use. -/
def mulling (gang : Bool) (sets : List AccSet) : State :=
  working 0x10 [1] [] (product 0 1 1) fun k => { k with feeds := [feedEntry [0, 1]], gangMode := [gang, false, false, false], accs := sets }

/-- A chained product whose first product is there for chain tile 0; `sets` are those that MU2 has in use. -/
def staging (sets : List AccSet) : State :=
  let s := working 0x10 [1, 2, 3, 4] [] ((480, 1) :: product 11 15 1) fun k => { k with accs := accSet 0x10 0 0 true :: accSet 0x10 1 64 true :: sets }
  { s with mem := put [(0xD00 + 64, 64, D [(0, 1)])] s.mem }

theorem witness_MalletUnitsComputeTheirProducts :
    (∀ combo ∈ [0, 10, 11], let s := bar (malletWords 0x10 0) [(0, product combo 1 1)]
      (fires s (muUnit 0 3) 0x10 fun b => let d := matAt s.mem b.fire b.word.desc; d.combo == combo && bandsOf d 3 == []) = true ∧
      (fires s (muUnit 0 0) 0x10 fun b => let d := matAt s.mem b.fire b.word.desc; d.combo == combo && bandsOf d 0 == [0]) = true) ∧
    (let s := let t := bar (malletWords 0x11 1) [(0, product 0 8 1)]; { t with mem := put [(0x21F, 1, 0x80)] t.mem }
     fires s (muUnit 255 3) 0x11 (fun b => b.word.imm % 16 == 1) = true) ∧
    (∀ mu ∈ [0, 3], fires (bar (malletWords 0x12 0)) (muUnit 0 mu) 0x12 = true) ∧
    (∀ x ∈ [(true, [], 0), (false, [accSet 0x10 0 64 true, accSet 0x10 0 128 true], 2), (false, [], 0), (false, [accSet 0x10 0 0 false], 1)],
      let s := mulling x.1 x.2.1
      ((s.core 0).feeds.find? fun y => y.units.contains 0) = some (feedEntry [0, 1]) ∧
      takerOf s 0 0 (feedEntry [0, 1]) = some (flight 0x10 .running) ∧ ((s.core 0).gangMode.getD 0 false) = x.1 ∧
      ((s.unit (muUnit 0 0)).inflight.head?.map (·.key)) = some 4 ∧ setsInUse (s.core 0) 0 0 = x.2.2) ∧
    (let s := flying (.core 0 1) [{ flight 0x10 .running with key := 5, desc := 1 }, flight 0x10 .running] (mulling true [])
     takerOf s 0 0 (feedEntry [0, 1]) = some (flight 0x10 .running) ∧ ((s.unit (muUnit 0 0)).inflight.head?.map (·.key)) = some 5) := by
  decide +kernel

theorem witness_stages :
    ∀ sets ∈ [[], [{ accSet 0x10 2 128 false with key := 5 }, { accSet 0x10 2 192 false with key := 5 }]],
      let s := staging sets
      let i := flight 0x10 .running
      (strokeAt s (muUnit 0 2) fun z => (z.op == 0x12 || (z.op == 0x10 && (matAt s.mem (fireOf s (muUnit 0 2) z) z.desc).combo == 11)) &&
        decide (z.taken < blockCount (chainLengths s.mem (fireOf s (muUnit 0 2) z) z).2)) = some i ∧
      muStroke s 0 3 0x10 i = some i ∧ muStroke s 0 0 0x10 i = some i ∧ muStroke s 0 1 0x10 i = some i ∧
      ((stageSet s 0 2 i (fireOf s (muUnit 0 2) i) 0).map (·.tile)) = (if sets.isEmpty then some 0 else none) ∧
      (stageSet s 0 3 i (fireOf s (muUnit 0 2) i) 0).isSome = true ∧
      (fullSet (s.core 0) 4 0 0 0).isSome = true ∧ (fullSet (s.core 0) 4 64 0 0).isSome = true := by decide +kernel

theorem witness_FeedStrokesDeliverTheirOperands :
    fires (bar [(7, W 0x10 0 0)] [(0, product 0 1 1)]) (feedUnit 0) 0x10 = true ∧
    fires (bar ((7, W 0x11 0 8) :: malletWords 0x11 8) [(0, product 0 1 1)]) (feedUnit 1) 0x11 = true ∧
    fires (bar [(7, W 0x13 0 0)]) (feedUnit 0) 0x13 = true ∧
    (let s := bar [(7, W 0x12 0 0), (5, W 0x10 1 0)] [(1, [(192, 2)])]
     fires s (feedUnit 0) 0x12 (fun b => (winStream s.mem b.fire b.bar).isSome) = true) ∧
    (∀ n ∈ [0, 16], let s := withCore 0 (fun k => { k with feedCredits := n, winCredits := n }) (bar [] [(0, product 0 1 33)])
      let d := matAt s.mem ctx0 0
      (s.core 0).feedCredits = n ∧ (s.core 0).winCredits = n ∧ d.combo = 0 ∧ d.damper = 0 ∧ roundUnits d 0 = [0] ∧ 63 < rowEntries d) ∧
    (feedEntry [0]).units = [0] := by decide +kernel

/-- A FEED_MM of one t-block has 32 entries: its FIFO holds 16, and then it pauses (R77). -/
theorem test_feed_pauses :
    (match exec (.feedMm 0) (bar [(7, W 0x10 0 0)] [(0, product 0 1 1)]) with
     | .next t => (t.core 0).feeds.length == 16 && (t.core 0).feedCredits == 0 &&
         ((t.unit (feedUnit 0)).inflight.map (·.phase)) == [.paused]
     | _ => false) = true := by decide +kernel

/-- A drain stroke of an opcode on core 0 with Mallet strokes in flight and the sets given. -/
def draining (op : Nat) (desc : List (Nat × Nat)) (sets : List AccSet) : State :=
  working op [1, 2, 3, 4, 8] [(1, W op 0 1)] desc fun k => { k with accs := sets }

/-- A drain stroke that has taken its last set. -/
def drained (op : Nat) (desc : List (Nat × Nat)) : State :=
  flying (drainUnit 0) [{ flight op .running with given := 100 }] (bar [] [(0, desc)])

theorem witness_DrainStrokesWriteTheirOutputs :
    (∀ op ∈ [0x10, 0x11, 0x12], fires (bar [(8, W op 0 1)]) (drainUnit 0) op = true) ∧
    (∀ x ∈ [(2048, false), (1024, true)], let r := bar [(8, W 0x10 0 1)] [(0, (412, 1) :: product 7 1 1), (1, [(440, 2)]), (2, [(498, x.1)])]
     let s := { r with fabric := { r.fabric with ports := { Port.reset with state := .up } :: List.replicate 15 Port.reset } }
     fires s (drainUnit 0) 0x10 (fun b => let d := matAt s.mem b.fire b.word.desc
       d.combo == 7 && (sendPeer s (SendDesc.ofDesc (descOf s.mem b.fire (epiAt s.mem b.fire d).send))).isSome == x.2) = true) ∧
    (∀ combo ∈ [0, 3, 4, 5, 9, 10], ∀ sets ∈ [[accSet 0x10 0 0 true], []],
      let s := draining 0x10 (product combo 1 1) sets
      let d := matAt s.mem ctx0 0
      d.combo = combo ∧ d.damper = 0 ∧ drainPlace d 0 = (0, 0, 0, 0) ∧
      muStroke s 0 0 0x10 (flight 0x10 .running) = some (flight 0x10 .running) ∧ fullSet (s.core 0) 4 0 0 0 = sets.head?) ∧
    (∀ x ∈ [(0x10, product 11 15 1, 2, 1), (0x12, [(24, 1)], 0, 0)],
      let sets := [accSet x.1 x.2.2.1 0 true, accSet x.1 (x.2.2.1 + 1) 64 true]
      let s := draining x.1 x.2.1 (sets.map fun a => { a with tile := x.2.2.2 })
      let i := flight x.1 .running
      muStroke s 0 x.2.2.1 (BitVec.ofNat 8 x.1) i = some i ∧ muStroke s 0 (x.2.2.1 + 1) (BitVec.ofNat 8 x.1) i = some i ∧
      ceilDiv (if x.1 = 0x10 then (epiAt s.mem ctx0 (matAt s.mem ctx0 0)).m else validKeys (attnAt s.mem ctx0 0) ctx0) 128 = x.2.2.2 ∧
      (fullSet (s.core 0) 4 0 0 x.2.2.2).isSome = true ∧ (fullSet (s.core 0) 4 64 0 x.2.2.2).isSome = true) ∧
    (let s := draining 0x11 (product 0 1 1) [{ accSet 0x11 0 0 true with array := 4 }]
     musHolding s.mem 0 0 0x11 0 = [0] ∧ gangTileAt s.mem ctx0 0 1 0 0 = (0, 0) ∧
     muStroke s 0 0 0x11 (flight 0x11 .running) = some (flight 0x11 .running) ∧
     ((s.core 0).accs.find? fun z => z.key == 4 && z.full && z.desc == 0 && z.array == gangArray (matAt s.mem ctx0 0) 0).isSome = true) ∧
    (∀ x ∈ [(0x10, product 0 1 1), (0x11, product 0 1 1), (0x12, [(24, 1)])],
      (strokeAt (drained x.1 x.2) (drainUnit 0) fun z => z.taken == 0 && decide (drainTotal (drained x.1 x.2).mem
        (fireOf (drained x.1 x.2) (drainUnit 0) z) z ≤ z.given)).isSome = true) := by decide +kernel

/-- REDUCE in flight on core 1, a merge with pivots over a chain of `n` rows, and rows tapped. -/
def reducing (n : Nat) (taps : List TapRow) : State :=
  flying (reduceUnit 1) [flight 0x10 .running] (withCore 1 (fun k => { k with taps := taps })
    (bar [] [(0, [(496, 1), (18, 1), (19, 3)]), (1, [(208, n)])]))

theorem witness_MergingStrokesPassTheirPartials :
    fires (bar [(6, W 0x10 0 0)]) (reduceUnit 0) 0x10 = true ∧
    (∀ x ∈ [(0x10, product 6 1 1), (0x10, product 7 1 1), (0x10, product 8 1 1), (0x12, [(24, 0)])],
      let s := drained x.1 x.2
      (strokeAt s (drainUnit 0) fun z => z.taken == 0 && decide (drainTotal s.mem (fireOf s (drainUnit 0) z) z ≤ z.given)).isSome = true ∧
      (s.core 0).damper = []) ∧
    (∀ x ∈ [(1, [tapRow]), (1, []), (0, [])], let s := reducing x.1 x.2
      let f := fireOf s (reduceUnit 1) (flight 0x10 .running)
      let d := RedDesc.ofDesc (descOf s.mem f 0)
      (strokeAt s (reduceUnit 1) fun z => z.given == 0) = some (flight 0x10 .running) ∧ d.merge = true ∧ d.pivot = 3 ∧ f.rank = 1 ∧
      ((s.core 1).taps.find? fun t => t.bar == 0 && t.chainDesc == d.chainDesc) = x.2.head? ∧ (s.core 1).merges.isEmpty = true ∧
      (chainAt s.mem f d.chainDesc).rows = x.1) ∧
    (∀ port ∈ [false, true], let kind := if port then MergeKind.stats else MergeKind.rowAmax
      let s := withCore 0 (fun k => { k with merges := [{ merge 0 (some [[1]]) with kind := kind }] })
        (withCore 1 (fun k => { k with merges := [{ merge 1 none with kind := kind }] }) (bar []))
      (headItem (s.core 1) port).map (·.rank) = some 1 ∧ ((headItem (s.core 1) port).map fun i => i.merged.isNone) = some true ∧
      ((mergeCores s 1 { merge 1 none with kind := kind })[1 - 1]?).getD 1 = 0 ∧
      ((headItem (s.core 0) port).map fun i => i.merged.isSome) = some true ∧ (!port || (mergeNext 1 false s).isNone) = true) ∧
    (headItem ((bar []).core 0) false).isNone = true ∧ (headItem ((bar []).core 0) true).isNone = true ∧
    ((List.range 256).all fun q => (mergeReady (bar []) false q).isNone && (mergeReady (bar []) true q).isNone) = true := by
  decide +kernel

/-! ## The other strokes -/

/-- A CHAIN of one row in flight on core 0, that has given `n`, with a core of a given kind; window vectors come with `win`. -/
def chaining (win n : Nat) (f : Core → Core) : State :=
  flying (rollUnit 0) [{ flight 0x10 .running with given := n }]
    (withCore 0 f (bar [] [(0, [(192, if win = 1 then 1 else 0xFFFF), (208, 1), (232, 1)]), (1, [(24, 1)])]))

theorem witness_RollStrokesWriteTheirStreams :
    (∀ x ∈ [(0x10, rollUnit 0, 5), (0x11, rollUnit 0, 5), (0x10, UnitId.core 0 11, 11)], fires (bar [(x.2.2, W x.1 0 0)]) x.2.1 x.1 = true) ∧
    (∀ x ∈ [(0, ([] : List WinEntry)), (1, []), (1, [{ key := 3, bar := 0, vector := ([], none, true) }])],
      let s := chaining x.1 0 fun k => { k with wins := x.2 }
      (strokeAt s (rollUnit 0) fun z => z.op == 0x10) = some (flight 0x10 .running) ∧
      ((s.core 0).wins.find? fun z => z.bar == 0) = x.2.head? ∧
      windowed s.mem (fireOf s (rollUnit 0) (flight 0x10 .running)) (chainAt s.mem (fireOf s (rollUnit 0) (flight 0x10 .running)) 0) = decide (x.1 = 1) ∧
      (chainAt s.mem (fireOf s (rollUnit 0) (flight 0x10 .running)) 0).rows = 1 ∧ s.cores.length = 256) ∧
    (∀ x ∈ [(([] : List TapRow), 16), ([tapRow], 0), ([tapRow], 16)],
      let s := chaining 0 1 fun k => { k with tapRows := x.1, tapCredits := x.2 }
      (strokeAt s (rollUnit 0) fun z => z.op == 0x10) = some { flight 0x10 .running with given := 1 } ∧ (s.core 0).tapRows = x.1 ∧
      (s.core 0).tapCredits = x.2) := by
  decide +kernel

/-- A COPY or FILL of one row of four bytes to buffer 0. -/
def oneRow : List (Nat × Nat) := [(408, 64), (384, 4), (360, 1), (344, 1)]

theorem witness_ScatterAndDmaMoveTheirRows :
    (let s := bar [(9, W 0x10 0 0)] [(0, [(25, 1), (348, 3), (268, 2), (292, 1), (244, 1), (228, 1), (316, 0)])]
     fires s (.core 0 9) 0x10 (fun b => let x := ScatterDesc.ofDesc (descOf s.mem b.fire b.word.desc)
       scatterPos s.mem b.fire x 0 == none && scatterPos s.mem b.fire x 1 == some 1 && scatterPos s.mem b.fire x 2 == none &&
       x.scrEn && !x.memEn && ((coresOf s b.fire x.destSection)[x.destRank0 + (1 - x.keyPos0) / x.m]? == some 0)) = true) ∧
    (∀ x ∈ [(UnitId.core 1 10, 0x10), (.core 1 10, 0x11), (.chip 12, 0x10), (.chip 12, 0x11)],
      let s := bar [(10, W x.2 0 0), (12, W x.2 0 0)] [(0, oneRow)]
      fires s x.1 x.2 (fun b => let d := DmaDesc.ofDesc (descOf s.mem b.fire b.word.desc)
        !d.rowList.isEmpty && (dmaTargets s b.fire d).all fun f => d.rowList.all fun r =>
          hitsAny (readOnlyRanges s) (bufAddr s.mem f d.dstBuf d.dstOfs + r.2) d.bytes == false) = true) := by decide +kernel

/-- A group of tag 5 whose member this device is at `rank` of 4, with its collectives in flight. -/
def groupAt (rank : Nat) (checked : Bool) (colls : List Collective) : Group :=
  { tag := 5, defn := 0, rank := rank, size := 4, members := [0, 1, 2, 3], weight := 1, timeoutUs := 20000, spillAddr := 0, spillSize := 100,
    checked := checked, nextSeq := 2, colls := colls, spilled := [], early := [], abortSent := [], aborted := none,
    late := none }

def coll (seq op firedAt : Nat) : Collective :=
  { seq := seq, key := none, op := op, red := 0, inFmt := 0, outFmt := 0, ctype := 0, count := 0, chunk := 0, root := 0, src := 0, dst := 0,
    firedAt := firedAt, recv := [], written := 0, value := none, children := [], sentUp := false, pairs := [] }

def withGroup (g : Group) (s : State) : State := { s with groups := some g :: List.replicate 15 none }

/-- A stroke of the link unit with one descriptor; port 0 is up, and the extents are 2, 1, 1, 1. -/
def linking (op : Nat) (desc : List (Nat × Nat)) : State :=
  let s := bar [(13, W op 0 0)] [(0, desc)]
  { s with fabric := { s.fabric with ports := { Port.reset with state := .up } :: List.replicate 15 Port.reset } }

/-- SEND of one row of `n` bytes to the member `peer`. -/
def sendTo (peer n : Nat) : List (Nat × Nat) := [(498, peer), (340, n), (316, 1)]

/-- A send in flight under a transfer tag. -/
def sendOf (tag peer : Nat) : SendState :=
  { xtag := BitVec.ofNat 7 tag, stave := 13, core := 0, key := 4, peer := peer, window := 0, bytes := 8, acked := 0, flits := 0 }

/-- Strokes that are paused, run out of time, or wait: `st` stands at the unit `u`. -/
theorem witness_FetchesPausesAndTimeouts :
    (∀ x ∈ [(UnitId.core 0 8, 0x10), (.chip 13, 0x11), (.chip 13, 0x10), (.chip 14, 0x20)],
      let s := flying x.1 [flight x.2 .paused] (bar [])
      (s.unit x.1).inflight[0]? = some (flight x.2 .paused) ∧ strikePending s = false ∧ s.currentJob = some job ∧
      s.fabric.queued = [] ∧ s.fabric.sends = [] ∧ slotAt s.fabric.windows 0 = none ∧
      recvWindow s.mem (fireOf s x.1 (flight x.2 .paused)) 0 = 0 ∧ recvBefore s 0 4 = false ∧ (headItem (s.core 0) false).isNone = true) ∧
    (let s := flying (.chip 13) [{ flight 0x11 .paused with key := 3 }, flight 0x11 .paused] (bar [])
     recvBefore s 0 4 = true ∧ flitsWait { s with fabric := { s.fabric with sends := [sendOf 2 1024] } } 2 = false) ∧
    (∀ t ∈ [4, 5], let s := { flying (.chip 13) [flight 0x10 .running] (bar []) with time := t }
      xferStroke s (.chip 13) (flight 0x10 .running) = true ∧
      decide ((flight 0x10 .running).firedAt + (flight 0x10 .running).timeout ≤ s.time) = decide (t = 5)) ∧
    xferStroke (bar []) (.chip 13) (flight 0x12 .running) = false ∧ (flight 0x10 .done).phase = .done ∧
    (∀ rank ∈ [0, 1], ∀ t ∈ [19999, 20000], let s := withGroup (groupAt rank true [coll 7 0 0]) { up with time := t }
      (s.group (5 : Word).toNat).isSome = true ∧
      (((groupAt rank true [coll 7 0 0]).colls.find? fun c => decide (c.firedAt + 20000 ≤ s.time)).map (·.seq)) =
        (if t = 20000 then some 7 else none)) ∧
    (∀ t ∈ [20004, 20005], let s := withGroup { groupAt 1 true [] with abortSent := [(5, 2), (6, 3)] } { up with time := t }
      ((s.group 5).map fun g => g.abortSent.find? fun a => decide (a.1 + g.timeoutUs ≤ s.time)) =
        some (if t = 20005 then some (5, 2) else none)) ∧
    (groupAt 1 true []).abortSent = [] := by decide +kernel

theorem witness_LinkStrokesStartTheirTransfers :
    (let s := linking 0x10 (sendTo 2048 236)
     fires s linkUnit 0x10 (fun b => sendPeer s (SendDesc.ofDesc (descOf s.mem b.fire b.word.desc)) == none) = true ∧ s.chips.length = 4) ∧
    (∀ n ∈ [1, 236], let s := linking 0x10 (sendTo 1024 n)
     fires s linkUnit 0x10 (fun b => let d := SendDesc.ofDesc (descOf s.mem b.fire b.word.desc)
       sendPeer s d == some 1024 && d.rows == 1 && d.bytes == n && (hopPort s 0 false (sendPair d.pairs 0) == some 0)) = true ∧ s.self = 0 ∧
     insideExtents s 1024 = true ∧ nextHop s 1024 = some (0, false) ∧ (s.port 0).waitTx = [] ∧ (s.port 0).replay = [] ∧ (s.port 0).credits = []) ∧
    (∀ wi ∈ [0, 15], let s := linking 0x11 [(28, wi)]
     fires s linkUnit 0x11 (fun b => fld (descOf s.mem b.fire b.word.desc) 31 28 == wi) = true ∧ (slotAt s.fabric.windows wi).isNone = true ∧
     (s.unit linkUnit).inflight = [] ∧ s.fabric.waiting = []) ∧
    (let s := linking 0x11 []
     let w : Window := { key := 3, dsts := [], size := 0, expect := 0, count := 0, peers := [] }
     let t := { s with fabric := { s.fabric with windows := some w :: List.replicate 15 none } }
     fires t linkUnit 0x11 = true ∧ (slotAt t.fabric.windows 0).isSome = true) ∧
    (let s := linking 0x10 (sendTo 1024 1)
     let t := { s with fabric := { s.fabric with sends := (List.range 128).map fun i => sendOf i 1024 } }
     freeTag s = some 0 ∧ freeTag t = none ∧ freeTag { t with fabric := { t.fabric with sends := t.fabric.sends.take 127 } } = some 127 ∧
     fires t linkUnit 0x10 (fun b => sendPeer t (SendDesc.ofDesc (descOf t.mem b.fire b.word.desc)) == some 1024) = true) ∧
    (∀ g ∈ [groupAt 0 true [], groupAt 0 false [coll 0 15 0]],
     let s := withGroup g (let s := linking 0x12 []; { s with mem := put [(24, 1, 1), (0x900, 4, 5)] s.mem })
     fires s linkUnit 0x12 (fun b => (scGroups s.mem b.fire.score).getD (fld (descOf s.mem b.fire b.word.desc) 16 13) 0 == 5) = true ∧
     ((s.group 5).map fun x => x.checked || (x.coll 0).isSome) = some true) := by decide +kernel

/-- A frame stroke of an engine for session 0, of 64 by 64 pixels; `fenced`, and the session. -/
def frame (op : Nat) (fenced : Bool) (x : Option Session) : State :=
  let s := bar [(14, W op 0 0)] [(0, [(380, 64), (364, 64)])]
  let e : EngineState := { EngineState.reset with fenced := fenced }
  { s with codec := { sessions := x :: List.replicate 63 none, encoder := e, decoder := e } }

/-- What a standard may say of a unit of 64 by 64 pixels that codes frame 5 by frame 4 and releases it. -/
def facts : Config.UnitFacts :=
  { headerBytes := 65536, profile := 0, level := 0, depth := 8, width := 64, height := 64, headerDamage := false, dataDamage := false,
    errOffset := 0, frames := [5], uses := [4], drops := [4], later := [], shown := some 5, ftype := 0, used := 10, work := 8192 + 16 }

theorem witness_CodecFramesAreServedInOrder :
    (∀ x ∈ [(Engine.encoder, 0x10, false), (.decoder, 0x11, true)],
      (let y := { session 1 with decode := x.2.2 }
       let s := frame x.2.1 false (some y)
       fires s codecUnit x.2.1 (fun b => let w := descOf s.mem b.fire b.word.desc
         fld w 31 26 == 0 && sessionFits s b.job (x.1 == .decoder) w) = true ∧ (s.engine x.1).fenced = false ∧
       ((s.session 0).map (·.failed)) = some false ∧ (s.engine x.1).queue = [] ∧
       let t := frame x.2.1 false (some { y with failed := true })
       fires t codecUnit x.2.1 = true ∧ ((t.session 0).map (·.failed)) = some true) ∧
      (let s := frame x.2.1 true none
       fires s codecUnit x.2.1 = true ∧ (s.engine x.1).fenced = true) ∧
      (let s := frame x.2.1 false none
       fires s codecUnit x.2.1 = true ∧ (s.session 0).isNone = true) ∧
      (let q : FrameJob := { session := 0, key := 3, desc := 0, job := 1 }
       let s := (frame x.2.1 false (some (session 1))).updEngine x.1 fun e => { e with queue := [q] }
       (s.engine x.1).queue = [q] ∧ (s.job 1).isSome = true ∧ ((s.session 0).map (·.decode)) = some false ∧
       let t := (frame x.2.1 false (some { session 1 with decode := true })).updEngine x.1 fun e =>
         { e with queue := [q], lastServed := some 1, loaded := some (session 1).coding }
       ((t.session 0).map (·.decode)) = some true ∧ (t.engine x.1).lastServed = some 1 ∧ (t.engine x.1).loaded.isSome = true)) ∧
    ((frame 0x11 false (some (session 1))).session 0).isSome = true ∧
    (let c : Coding := { frames := 1, token := 0, lastShown := [], held := [(4, [])], waiting := [4], keys := [] }
     c.waiting ≠ [] ∧ (session 1).coding.waiting = [] ∧ DecDesc.inBytes (DecDesc.ofDesc 0) = 0 ∧
     headerDamaged (session 1) facts = false ∧ headerDamaged (session 1) { facts with headerBytes := 65537 } = true ∧
     headerDamaged (session 1) { facts with width := 66 } = true ∧ headerDamaged (session 1) { facts with depth := 10 } = true ∧
     dataDamaged c facts 1 = false ∧ dataDamaged { c with held := [] } facts 1 = true ∧
     dataDamaged c { facts with work := 8192 + 17 } 1 = true ∧ facts.frames = [5] ∧ 5 ∉ facts.drops ∧
     ({ facts with shown := none } : Config.UnitFacts).shown = none) := by decide +kernel

/-! ## Jobs -/

/-- A job at a stage with the units past a BREAK or a HALT. -/
def atStage (st : JobStage) (beat : Beat) : State :=
  let s := withJob { job with stage := st } (bar [])
  let x : UnitState := { UnitState.idle with beat := beat, token := true }
  { s with cores := List.replicate 256 { Core.reset with units := List.replicate 11 x }, chips := List.replicate 4 x }

theorem witness_JobsGoFromTheirDigestsToTheirHalt :
    (∀ x ∈ [(JobStage.digesting, Beat.idle), (.running, .parked), (.running, .stopped)], let s := atStage x.1 x.2
      (s.currentJob.map (·.stage)) = some x.1 ∧ strikePending s = false ∧ s.sched.downbeat = false ∧
      (scoreCores s 0).all (fun c => !(s.core c).fenced) = true ∧ s.currentJob.map (noRefill s) = some true ∧
      s.currentJob.map (noRefill { s with resident := { s.resident with refills := [0] } }) = some false ∧
      (scoreCores s 0).any (fun c => ((withCore 0 (fun k => { k with fenced := true }) s).core c).fenced) = true ∧
      s.currentJob.map (fun j => onSuspended s (digestRuns s j 2)) = some false ∧
      tallied s .parked = decide (x.2 = .parked) ∧ tallied s .stopped = decide (x.2 = .stopped)) := by decide +kernel

def outputJob (sign : Nat) : Job := { job with stage := .outputs, signMode := sign, provAddr := 0x10000, provSize := 4096, body := [1] }

theorem witness_BodiesAreWrittenSignedAndPosted :
    (∀ sign ∈ [0, 1, 2], let s := { withJob (outputJob sign) scored with sec := { up.sec with sign := [.body 1] } }
      ((s.sched.jobs.find? fun x => x.stage == .outputs).map (·.signMode)) = some sign ∧ ((s.job 1).map (·.stage)) = some .outputs ∧
      hitsAny (readOnlyRanges s) 0x10000 4096 = false ∧ onSuspended s (areaRun s (outputJob sign) :: digestRuns s (outputJob sign) 3) = false ∧
      (signedJobs s).map (·.id) = [1] ∧
      (let t := { s with channels := { gddr with heat := .suspended } :: List.replicate 127 Channel.absent }
       onSuspended t ((signedJobs t).map (areaRun t)) = true)) ∧
    ((List.range 1).all fun _ => up.sched.jobs.all fun j => !(j.stage == .outputs)) = true ∧ up.sec.sign = [] ∧
    (∀ n ∈ [14, 15], let k : JobQueue := { queueOf 0 with cmpUnreleased := n }
      let s := { bar [(14, W 0x20 0 0)] with funcs := [client, { client with queues := some k :: List.replicate 7 none }] ++
                                                        List.replicate 30 (Func.reset false) }
      fires s codecUnit 0x20 (fun b => b.job.fn == 1 && b.job.queue == 0) = true ∧ ((s.queue 1 0).map (·.cmpUnreleased)) = some n) := by
  decide +kernel

theorem witness_BatchesCloseAndProveTheirBodies :
    (∀ x ∈ [(1, 9999, false), (1, 10000, true), (4095, 0, false), (4096, 0, true)],
      let s := { up with time := x.2.1, sec := { up.sec with open_ := List.replicate x.1 (1, []) } }
      (!s.sec.open_.isEmpty && (decide (4096 ≤ s.sec.open_.length) || decide (s.sec.openedAt + 10000 ≤ s.time))) = x.2.2) := by
  decide +kernel

/-- `queueUp` with a queued job of function 0. -/
def candidate : State :=
  let s := queueUp 0
  { s with sched := { s.sched with jobs := [{ job with fn := 0, stage := .queued }] } }

theorem witness_DecisionsServeTheHighestLevel :
    topLevel candidate none = some 3 ∧ ((nextReady candidate 3 none).map (·.id)) = some 1 ∧
    ((candidate.queue 0 0).map (·.priority)) = some 3 ∧ topLevel up none = none ∧
    decisionsHeld { up with sched := { up.sched with downbeat := true } } = true ∧
    (let s := withJob job scored
     s.sched.current = some 1 ∧ ((s.job 1).map (·.stage)) = some .running) := by decide +kernel

/-- A running job of level 0 below a ready one of level 3 that has waited for `us`; eviction into `saveBytes` of channel 0. -/
def evicting (us : Nat) (evict : Bool) (st : JobStage) : State :=
  let s := bar []
  let low : JobQueue := { queueOf 0 with priority := 0 }
  { s with time := us, channels := { gddr with sizeMiB := 2048 } :: List.replicate 127 Channel.absent,
           funcs := { client with queues := some (queueOf 0) :: List.replicate 7 none } ::
             { client with queues := some low :: List.replicate 7 none } :: List.replicate 30 (Func.reset false),
           preempt := { up.preempt with evict := evict, saveChannels := 1, saveOfs := 65536, saveBytes := 1610874880 },
           sched := { s.sched with jobs := [{ job with stage := st }, { job with id := 2, fn := 0, stage := .queued, readyAt := some 0 }] } }

def saved : SaveArea := { job := 1, cores := [(0, Core.reset)], chips := [], gathers := [], work := [(0x20000, [1])] }

theorem witness_EvictionsSaveAndRestore :
    (∀ us ∈ [2000, 2001], let s := evicting us true .running
      (s.currentJob.map (·.stage)) = some .running ∧ strikePending s = false ∧ tallied s .parked = false ∧ tallied s .stopped = false ∧
      (s.currentJob.map (evictorWaits s)) = some (decide (2000 < us)) ∧ saveAreaOk s s.preempt = true ∧ s.sched.save.isNone = true ∧
      s.sched.parks = [] ∧ s.sched.downbeat = false ∧ s.test.isNone = true) ∧
    (evicting 0 false .running).preempt.evict = false ∧
    (let s := evicting 0 true .evicting
     (s.currentJob.map (·.stage)) = some .evicting ∧ s.sched.save.isNone = true ∧
     ((activeUnits s).all fun u => (s.unit u).inflight.isEmpty) = true ∧
     tallied (s.updJob 1 fun x => { x with stage := .running }) .parked = false ∧
     tallied (s.updJob 1 fun x => { x with stage := .running }) .stopped = false) ∧
    (∀ st ∈ [JobStage.evicting, .restoring], let t := evicting 0 true st
     let s := { t with sched := { t.sched with save := some saved } }
     (s.currentJob.map (·.stage)) = some st ∧ (s.sched.save.map (·.job)) = some 1 ∧ onSuspended s (saveRanges s.preempt) = false ∧
     s.currentJob.map (noRefill s) = some true ∧ saved.work.length = saved.cores.length ∧ saved.work.all (fun w => !w.2.isEmpty) = true ∧
     (saveRanges s.preempt).any (fun r => hitsAny (imageRanges s) r.1 r.2) = false ∧
     let u := { s with scores := some { fn := 0, addr := 65536, size := 0x2000, digest := 0, struck := false } :: s.scores.drop 1 }
     (saveRanges u.preempt).any (fun r => hitsAny (imageRanges u) r.1 r.2) = true) := by decide +kernel

def noImage : ResidentImage := { addr := 0, size := 0, digest := 0, bounds := List.replicate 256 0 }

/-- `image` of a score that names a resident image by the digest 5. -/
def residing5 : Memory := put [(0xA00, 1, 5)] image

theorem witness_SwapsDownbeatsAndStrikesComplete :
    (let l : ResidentLoad := { fn := 0, tag := 3, image := { noImage with addr := 0x10000, size := 1024 } }
     let s := { up with resident := { up.resident with load := some l } }
     (swapDue s).isSome = true ∧ s.currentJob.isNone = true ∧ (swapDue up).isNone = true ∧
     (let v := withJob { job with stage := .swapping } { scored with mem := residing5 }
      let w := { v with resident := { scored.resident with catalogue := [{ noImage with digest := 5 }] } }
      w.currentJob.map (·.stage) = some .swapping ∧ (swapDue w).isSome = true) ∧
     let t := { s with resident := { s.resident with swap := some l.image } }
     (t.resident.swap.map (·.size)) = some 1024 ∧ t.currentJob.isNone = true ∧ t.resident.load.isSome = true ∧
     mapped t 0x10000 1024 = true) ∧
    (let s := withJob { job with stage := .swapping } { scored with resident := { scored.resident with swap := some noImage } }
     (s.currentJob.map (·.stage)) = some .swapping ∧ imageHolds s noImage = true) ∧
    (let s := committing
     s.fw.state = .ready ∧ downbeatDue s = true ∧ s.sched.downbeat = false ∧ downbeatWaits s = false ∧ commitDue s = true ∧
     s.staged.commit.isSome = true ∧
     let t := { s with sched := { s.sched with downbeat := true } }
     t.sched.downbeat = true ∧ allParked t (runsThrough t) = true) ∧
    (let s := bar []
     let t := { s with sched := { s.sched with parks := [.strike .struck .parity 3 0] } }
     (strikeOf t).isSome = true ∧ t.currentJob.isSome = true ∧ t.sched.downbeat = false ∧ (strikeOf s).isNone = true) := by
  decide +kernel

/-! ## Tests, parity and memory -/

/-- `up` with a test that waits or runs. -/
def testing (calibrate running : Bool) (target : Nat) : State :=
  { up with test := some { fn := 0, tag := 3, calibrate := calibrate, target := target, mask := 1, running := running } }

theorem witness_TestsEndWithTheirResults :
    (∀ target ∈ [0, 3], (∀ c ∈ [false, true], ((testing c true target).test.map (·.calibrate)) = some c ∧
      ((testing c false target).test.map (·.running)) = some false)) ∧
    (testing false false 0).currentJob.isNone = true ∧ (testing false false 0).sched.downbeat = false ∧
    downbeatDue (testing false false 0) = false ∧ downbeatDue committing = true ∧
    (up.chan 0).state = .active ∧ 0 ∈ posChans 0 ∧ bitAt (0 : BitVec 128) 0 = false ∧ bitAt (1 : BitVec 128) 0 = true ∧
    up.channels.length = 128 ∧ (up.core 255).boundary = 0 ∧ 255 < up.cores.length ∧ up.mem.wf = true ∧
    scratchBase 255 + (scratchSize - 1) < scratchBase 255 + scratchSize := by decide +kernel

/-- A GANG stroke in flight on unit 0 of core 0 whose one problem has sub-arrays 0 and 7. -/
def ganging : State :=
  flying (muUnit 0 0) [{ flight 0x11 .running with imm := 1 }] (bar (malletWords 0x11 1) [(0, (12, 0x81) :: product 0 1 1)])

theorem witness_ParityErrorsAreLoggedAndStrike :
    ((withCore 3 (fun k => { k with boundary := 95 }) up).core 3).boundary ≠ 0 ∧ (up.core 3).boundary = 0 ∧
    up.resident.unbacked = false ∧
    (let s := { up with resident := { up.resident with refills := [3, 7] } }
     s.resident.refills.contains 3 = true ∧ s.resident.swap.isNone = true ∧ s.resident.cur.isSome = true ∧ s.resident.unbacked = false) ∧
    (∀ sa ∈ [0, 7], ((ganging.currentJob.bind fun j => gangPartition ganging j (muUnit 0 0) sa).map (·.2)) = some 0) ∧
    (ganging.core 0).stoppedParts = [] ∧
    (up.fw.state = .ready ∧ up.pins.devResetN = true ∧ State.reset.pins.devResetN = false) ∧
    (∀ domain ∈ [300, 316], (domainBuffers domain).find? (holdsFlit cabled) = some 0) ∧
    (∀ domain ∈ [301, 315, 317, 272], (domainBuffers domain).all fun p => !holdsFlit cabled p) := by decide +kernel

theorem witness_ChannelEventsHaveTheirEffect :
    up.channels.length = 128 ∧ (up.chan 0).state ≠ .absent ∧ (up.chan 127).state = .absent ∧
    (withChan { gddr with exhausted := [0, 0] }).time < 0 + 86400000000 ∧
    (let s := withJob job { scored with channels := suspended.channels }
     (s.chan 0).heat = .suspended ∧ s.currentJob.isSome = true ∧ (exhaustEnds s .job).isSome = true) ∧
    (exhaustEnds up .job).isNone = true ∧
    (up.chan 0).heat ≠ .suspended ∧ (up.chan 0).pausing = false ∧ ((withChan { gddr with pausing := true }).chan 0).pausing = true ∧
    (let s := { up with channels := List.replicate 96 Channel.absent ++ List.replicate 32 { gddr with kind := 3 } }
     s.channels.length = 128 ∧ (∃ k ∈ posChans 24, (s.chan k).state ≠ .absent) ∧ (s.chan 96).state ≠ .absent ∧ (s.chan 96).heat ≠ .suspended ∧ (s.chan 127).pausing = false) ∧
    (∃ k ∈ posChans 0, (up.chan k).state ≠ .absent) ∧ (∀ k ∈ posChans 24, (up.chan k).state = .absent) ∧
    (up.fw.state ≠ .failed ∧ up.fw.state ≠ .bare ∧ bareUp.fw.state = .bare) := by decide +kernel

/-! ## Peal -/

/-- `cabled` with port 0 changed. -/
def port0 (f : Port → Port) : State := cabled.updPort 0 f

def idle8 (seq : BitVec 8) : Flit := { flit .idle [] with seq := seq }

/-- Flits that fit come whole where they are expected. -/
theorem comes {p : Nat} {f : Flit} {s : State} (hl : portLive s p = true) (hf : flitFits f = true) (he : f.seq = (s.port p).rxExpect) :
    Comes p (wire f) f s := ⟨hl, crcHolds_flitBytes f, flitOf_flitBytes hf, he⟩

/-- A LINK flit comes where sequence number 0 is expected. -/
theorem comes_link {s : State} (m : LinkMsg) (dest : Nat) (hl : portLive s 0 = true) (he : (s.port 0).rxExpect = 0) :
    Comes 0 (wire (linkFlit dest m)) (linkFlit dest m) s ∧ saysLink m (linkFlit dest m) = true := by
  refine ⟨comes hl ?_ he.symm, by simp [saysLink, linkFlit]⟩
  simp [flitFits, linkFlit]

def neighbour : Identity := { member := 1024, port := 2, extents := [2, 1, 1, 1], torus := 0 }

/-- `cabled` with port 0 in training at a rate. -/
def trained : State := port0 fun q => { q with state := .training }

theorem witness_PortsTrainAndFall :
    (let s := port0 fun q => { q with state := .training, rate := 0, waitTx := [], replay := [] }
     s.fabric.ports.length = 16 ∧ linkOn s = true ∧ (s.port 0).state = .training ∧ (s.port 0).rate = 0 ∧
     1 ≤ s.inv.portMaxRate.getD 0 0 ∧ 3 ≤ s.inv.portMaxRate.getD 0 0 ∧ 3 ≤ s.inv.portModule.getD 0 0 ∧
     (s.port 0).waitTx = [] ∧ (s.port 0).replay = [] ∧ countOf (s.port 0).credits 1 = 0) ∧
    (∀ who ∈ [neighbour, { neighbour with port := 3 }, { neighbour with member := 0 }],
      let f := linkFlit 0 (.identity who)
      let T := taken 0 (wire f) f trained
      (Comes 0 (wire f) f trained ∧ saysLink (.identity who) f = true) ∧ (T.port 0).state = .training ∧
      identityOk T 0 who = decide (who = neighbour)) ∧
    (let f := linkFlit 0 (.identity neighbour)
     (Comes 0 (wire f) f cabled ∧ saysLink (.identity neighbour) f = true) ∧ ((taken 0 (wire f) f cabled).port 0).state ≠ .training) ∧
    (∀ st ∈ [PortState.down, .held, .failed], let s := { port0 (fun q => { q with state := st, retryAt := 5 }) with time := 1000005 }
      portTrains s 0 = true ∧ s.fw.state = .ready ∧ (s.port 0).state = st ∧ staysFailed (s.port 0) = false ∧
      (s.port 0).retryAt + 1000000 ≤ s.time) ∧
    ((port0 fun q => { q with retryAt := 5 }).time < ((port0 fun q => { q with retryAt := 5 }).port 0).retryAt + 1000000) ∧
    (∀ st ∈ [PortState.up, .training, .held], ((port0 fun q => { q with state := st }).port 0).state = st) ∧
    (∀ x ∈ (cabled.port 0).waitTx, x.1 = 0) := by
  refine ⟨by decide +kernel, fun who h => ⟨comes_link _ _ (by decide +kernel) (by decide +kernel), ?_, ?_⟩,
    ⟨comes_link _ _ (by decide +kernel) (by decide +kernel), by decide +kernel⟩, by decide +kernel, by decide +kernel, by decide +kernel,
    by decide +kernel⟩
  · revert who; decide +kernel
  · revert who; decide +kernel

set_option maxRecDepth 100000 in
theorem witness_FlitsAreAcknowledgedAndRetried :
    (cabled.fabric.ports.length = 16 ∧ portLive cabled 0 = true ∧ (flit .idle []).kind = .idle ∧
      crcHolds (wire (flit .idle [])).bytes = true ∧ flitOf (wire (flit .idle [])).bytes = some (flit .idle [])) ∧
    (let s := port0 fun q => { q with waitTx := [] }
     portLive s 0 = true ∧ (s.port 0).waitTx = [] ∧ ({ flit .idle [] with ack := some 255, credN := 1 } : Flit).ack = some 255) ∧
    (let f := linkFlit 0 (.credits [(0, 3), (4, 1)])
     Comes 0 (wire f) f cabled ∧ saysLink (.credits [(0, 3), (4, 1)]) f = true) ∧
    (∀ x ∈ [(0, 15, true), (0, 16, false), (51, 15, true)], let g : Flit := { flit .send [1] with vc := BitVec.ofNat 6 x.1 }
      let s := port0 fun q => { q with waitTx := [(16, 0, g)], credits := [(g.vc, x.2.1)], replay := [] }
      portLive s 0 = true ∧ (s.port 0).waitTx = [(16, 0, g)] ∧ g.vc.toNat % 32 < 20 ∧ (s.port 0).replay.length < 64 ∧
      decide (countOf (s.port 0).credits g.vc < 16) = x.2.2) ∧
    (let s := port0 fun q => { q with waitTx := [(16, 0, flit .send [1])], replay := List.replicate 64 (flit .send [1]) }
     portLive s 0 = true ∧ 64 ≤ (s.port 0).replay.length) ∧
    (let f := linkFlit 0 (.nack 4)
     Comes 0 (wire f) f cabled ∧ saysLink (.nack 4) f = true) ∧
    (∀ n ∈ [6, 7], let s := port0 fun q => { q with replay := [idle8 3, idle8 4], resends := List.replicate n (4, 0) }
      portLive s 0 = true ∧ ((s.port 0).replay.dropWhile fun f => !(f.seq == 9)) = [] ∧
      ((s.port 0).replay.dropWhile fun f => !(f.seq == 4)) ≠ [] ∧
      decide (((((s.port 0).resends.filter fun (r : BitVec 8 × Nat) => decide (s.time < r.2 + 1000)) ++ [(4, s.time)]).filter fun (r : BitVec 8 × Nat) => r.1 == 4).length < 8) =
        decide (n < 7)) ∧
    crcHolds (List.replicate 256 0) = false ∧
    (let s := port0 fun q => { q with nacking := true }
     portLive s 0 = true ∧ (s.port 0).nacking = true ∧ (cabled.port 0).nacking = false) := by
  refine ⟨⟨by decide +kernel, by decide +kernel, rfl, crcHolds_flitBytes _, flitOf_flitBytes (by decide +kernel)⟩, by decide +kernel,
    comes_link _ _ (by decide +kernel) (by decide +kernel), by decide +kernel, by decide +kernel,
    comes_link _ _ (by decide +kernel) (by decide +kernel), by decide +kernel, by decide +kernel, by decide +kernel⟩

/-- A SEND flit of two bytes for window 0, and a chunk of collective 7 of group 5. -/
def sendFlit (ofs : Nat) (dest : BitVec 14) : Flit := { flit .send [1, 2] with route := BitVec.ofNat 56 ofs, dest := dest }
def chunk (dest : BitVec 14) : Flit := { flit .coll [1, 2] with route := 0x0700000005, dest := dest }

/-- `cabled` with window 0 open on 64 bytes, of which `count` have come, and a send of 8 bytes that waits. -/
def windowed (count : Nat) : State :=
  { cabled with fabric := { cabled.fabric with
      windows := some { key := 3, dsts := [0x10000, 0x20000], size := 64, expect := 64, count := count, peers := [] } :: List.replicate 15 none,
      sends := [sendOf 2 1024] } }

/-- A flit waits in channel 4 of port 0. -/
def behind : State := { cabled with fabric := { cabled.fabric with waiting := [(0, 0, sendFlit 62 0)] } }

/-- What a flit that comes at port 0 meets. -/
def meets (f : Flit) (s : State) : Bool := portLive s 0 && flitFits f && f.seq == (s.port 0).rxExpect

theorem comes_of_meets {f : Flit} {s : State} (h : meets f s = true) : Comes 0 (wire f) f s := by
  simp only [meets, Bool.and_eq_true, beq_iff_eq] at h
  exact comes h.1.1 h.1.2 h.2

theorem witness_SendsAndChunksArrive :
    (portLive cabled 0 = true ∧ flitFits { sendFlit 62 0 with seq := 1 } = true ∧ ({ sendFlit 62 0 with seq := 1 } : Flit).seq ≠ (cabled.port 0).rxExpect) ∧
    (∀ x ∈ [(62, 0, true), (62, 61, true), (62, 62, false), (63, 0, true)], let s := windowed x.2.1
      let f := sendFlit x.1 0
      let T := taken 0 (wire f) f s
      meets f s = true ∧ heldBefore T.fabric.waiting 0 f.vc = false ∧ f.dest = T.inv.member ∧ f.kind = .send ∧
      ((slotAt T.fabric.windows (sendWindow f)).map fun y => decide (y.count + 2 < y.expect)) = some x.2.2 ∧
      ((slotAt T.fabric.windows (sendWindow f)).map fun y => decide (sendOffset f + 2 ≤ y.size)) = some (x.1 == 62) ∧
      ((slotAt T.fabric.windows (sendWindow f)).map fun y => decide (y.count < y.expect)) = some true ∧
      ([0x10000, 0x20000].all fun d => !hitsAny (readOnlyRanges s) (d + sendOffset f) 2) = true) ∧
    (let f := sendFlit 62 0
     let T := taken 0 (wire f) f cabled
     meets f cabled = true ∧ f.dest = T.inv.member ∧ (slotAt T.fabric.windows (sendWindow f)).isNone = true) ∧
    (let f := sendFlit 62 1024
     meets f cabled = true ∧ f.dest ≠ (taken 0 (wire f) f cabled).inv.member) ∧
    (let f := sendFlit 62 0
     meets f behind = true ∧ heldBefore (taken 0 (wire f) f behind).fabric.waiting 0 f.vc = true) ∧
    (∀ dest ∈ [0, 1024], let f := linkFlit dest (.ack (BitVec.ofNat 14 dest) 2 8 none)
      (Comes 0 (wire f) f (windowed 0) ∧ saysLink (.ack (BitVec.ofNat 14 dest) 2 8 none) f = true) ∧ f.dest = BitVec.ofNat 14 dest ∧
      (taken 0 (wire f) f (windowed 0)).inv.member = 0) ∧
    (∀ x ∈ [({ groupAt 0 false [] with aborted := some 7 }, true, false, true),
            ({ groupAt 0 true [coll 7 0 0] with aborted := some 9 }, false, true, true), (groupAt 0 true [coll 7 0 0], false, true, true), (groupAt 0 false [coll 0 15 0], false, false, true),
            ({ groupAt 0 false [] with spillSize := 1 }, false, false, false)],
      let s := withGroup x.1 cabled
      let f := chunk 0
      let T := taken 0 (wire f) f s
      meets f s = true ∧ f.kind = .coll ∧ f.dest = T.inv.member ∧ heldBefore T.fabric.waiting 0 f.vc = false ∧
      (T.group (bitField f.route 0 32)) = some x.1 ∧ ((x.1.aborted.any fun a => staleFlit 5 a f) && !mayCome x.1 (bitField f.route 32 8)) = x.2.1 ∧
      (x.1.colls.find? fun c => c.seq % 256 == bitField f.route 32 8 && !(c.op == 15) && x.1.checked).isSome = x.2.2.1 ∧
      spillRoom x.1 2 = x.2.2.2) ∧
    (let s := withGroup (groupAt 0 true [coll 7 0 0]) cabled
     meets (chunk 1024) s = true ∧ (chunk 1024).dest ≠ (taken 0 (wire (chunk 1024)) (chunk 1024) s).inv.member) ∧
    (((windowed 0).fabric.sends.find? fun y => y.xtag == 2).map (·.bytes)) = some 8 := by
  refine ⟨by decide +kernel, by decide +kernel, by decide +kernel, by decide +kernel, by decide +kernel, fun dest h => ⟨?_, ?_, ?_⟩,
    by decide +kernel, by decide +kernel, by decide +kernel⟩
  · exact comes_link _ _ (by decide +kernel) (by decide +kernel)
  · rfl
  · revert dest; decide +kernel

/-- A clapper message of group 5, as a flit on channel 0. -/
def clap (kind cause : BitVec 8) (seq kid : Half) (dest : BitVec 14) : Flit :=
  { flit .clap (clapPayload { kind := kind, cop := 0, cause := cause, tag := 5, cseq := seq, srcRank := kid, originId := 3, data := [] })
    with vc := 0, dest := dest }

set_option maxRecDepth 100000 in
theorem witness_ClapperMessagesDecideCollectives :
    (∀ x ∈ [((0 : BitVec 8), (0 : BitVec 8), 0, (0 : BitVec 14)), (1, 0, 1, 0), (2, 1, 0, 1024), (3, 1, 1, 0)],
      let s := withGroup (groupAt x.2.2.1 true [coll 7 0 0]) cabled
      let f := clap x.1 x.2.1 7 1 x.2.2.2
      let T := taken 0 (wire f) f s
      meets f s = true ∧ f.kind = .clap ∧ (clapOf f.payload).kind = x.1 ∧ (clapOf f.payload).cause = x.2.1 ∧
      decide (f.dest = T.inv.member) = (x.2.2.2 == 0) ∧ T.group (clapOf f.payload).tag.toNat = some (groupAt x.2.2.1 true [coll 7 0 0]) ∧
      (clapOf f.payload).cseq.toNat = 7 ∧ (clapOf f.payload).srcRank.toNat = 1) ∧
    treeChildren 4 0 = [1, 2] ∧ treeChildren 4 1 = [3] ∧
    (let g := groupAt 0 true [coll 7 0 0]
     (g.coll 7).isSome = true ∧ (g.coll 2).isNone = true ∧ awaitsUp g 7 = true ∧ awaitsUp g 2 = true ∧ awaitsUp g 1 = false ∧
     undecided g 7 false = true ∧ undecided g 2 false = true ∧ undecided g 1 false = false) ∧
    (let g := { groupAt 1 false [] with aborted := some 7, late := some 7 }
     abortedHere g 7 = true ∧ abortedHere g 6 = true ∧ abortedHere g 8 = false ∧ abortedHere g 0 = false) := by decide +kernel

/-- Sequence numbers go from 65535 to 1 (R317): 1 is not yet started where 65535 is next, and 65535 is done where 1 is next. -/
theorem test_seq_wraps : undecided { groupAt 0 true [] with nextSeq := 65535 } 1 false = true ∧
    undecided { groupAt 0 true [] with nextSeq := 1 } 65535 false = false := by decide +kernel

/-! ## Power and heat -/

/-- A policy request: limit, window, clock cap, junction target and flags. -/
def powerRq (w ms mhz t fl : Nat) : Request := rq 0 [(0, w), (2, ms), (4, mhz), (6, t), (7, fl)]

/-- `up` whose average is the limit or below, and whose rails stand. -/
def powered (avg : Nat) : State :=
  { ramped with fw := up.fw, power := { ramped.power with avgW := avg, nowW := avg, samples := [avg] } }

/-- Quarter rail 0 at a voltage, and domain `i` in a state. -/
def railAt (mv : Nat) : State :=
  let p := (powered 0).power
  { powered 0 with power := { p with rails := p.rails.set 6 { on := true, good := true, mv := mv, reading := none, warning := false, pulsedAt := none, voutAt := none } } }

def domainAt (i : Nat) (st : DomainState) : State :=
  { up with power := { up.power with domains := up.power.domains.set i { Domain.offDomain with state := st } } }

theorem witness_PowerAndClocksFollowTheirRules :
    (∀ x ∈ [(0, 0, 0, 0, 3, true), (900, 1, 500, 85, 0, true), (1, 0, 0, 0, 2, false), (0, 101, 0, 0, 1, false), (0, 0, 0, 106, 0, false)],
      let r := powerRq x.1 x.2.1 x.2.2.1 x.2.2.2.1 x.2.2.2.2.1
      let ps := reqArgs r
      let ok (v lo hi : Nat) : Bool := v == 0 || (decide (lo ≤ v) && decide (v ≤ hi))
      servedB true false false r mbx up = true ∧ arg ps 7 1 ≤ 3 ∧ zeroFrom ps 8 = true ∧
      (ok (arg ps 0 2) 900 (maxPower up.fuses.variant) && ok (arg ps 2 2) 1 100 && ok (arg ps 4 2) 500 (maxClock up.fuses.variant) &&
        ok (arg ps 6 1) 85 105) = x.2.2.2.2.2) ∧
    up.power.rails.length = 12 ∧ up.fw.state = .ready ∧ bareUp.fw.state ≠ .ready ∧
    overLimit (powered 1651).power ([].getD 0 1651) = true ∧ overLimit (powered 1650).power ([].getD 0 1650) = false ∧
    (powered 1650).power.limitW * 97 ≤ 1650 * 100 ∧
    firmwareUp (powered 0) = true ∧ ((powered 0).rail 6).on = true ∧ ((powered 0).rail 6).good = true ∧
    (let level := quarterLevel (powered 0) 0
     ∀ mv ∈ [level - 5, level + 5], pulseFree (railAt mv) ((railAt mv).rail 6) = true ∧
       pulseFree (railAt mv) { (railAt mv).rail 6 with pulsedAt := some 0 } = false ∧ firmwareUp (railAt mv) = true ∧ quarterLevel (railAt mv) 0 = level ∧ ((railAt mv).rail 6).mv = mv) ∧
    (powered 0).fw.state = .ready ∧ up.pins.clavePhase = 2 ∧
    up.power.domains.length = 325 ∧
    (∀ i ∈ [0, 324], ((domainAt i .running).domain i).state = .running ∧ ((domainAt i .clockStopped).domain i).state = .clockStopped ∧
      (domainAt i .clockStopped).pins.thermTripN = true ∧ (domainAt i .running).power.domains.length = 325) := by decide +kernel

theorem witness_HeatAndFaultsStopTheDevice :
    up.pins.devResetN = true ∧ up.power.trippedAt.isNone = true ∧ firmwareUp up = true ∧ firmwareUp State.reset = false ∧
    ((List.range 290).all fun i => decide (([1149] : List Int).getD i (up.sensor i) < 1150)) = true ∧
    ((List.range 290).any fun i => decide (1150 ≤ ([1150] : List Int).getD i (up.sensor i))) = true ∧
    (∀ n ∈ [204, 205], let s := { up with time := n, power := { up.power with trippedAt := some 5 } }
     s.power.trippedAt = some 5 ∧ s.pins.thermTripN = true ∧ decide (5 + 200 ≤ s.time) = decide (n = 205)) ∧
    (∀ r ∈ [6, 11], (booting.rail r).on = true) ∧ firmwareUp booting = true ∧ booting.power.trippedAt.isNone = true ∧
    (let s := { cabled with inv := { cabled.inv with portStatus := List.replicate 16 1 } }
     s.fw.state = .ready ∧ s.pins.clavePhase = 2 ∧ s.fabric.ports.length = 16 ∧ s.inv.portModule.length = 16 ∧
     s.inv.portStatus.length = 16 ∧ s.inv.portStatus.getD 15 0 = 1 ∧ 0 < s.inv.portModule.getD 15 0 ∧
     ([] : List (Option Nat)).getD 15 none = none) := by decide +kernel

/-! ## Values that the spec gives -/

/-- The check value of the CRC-32 that R295 names, of the nine digits. -/
theorem test_crc32 : crc32 (ascii "123456789") = 0xCBF43926 := by decide +kernel

/-- The worked example "one block narrowed three ways" (R36 to R43): 1.30, -2.6, 1.40625, 1.25 and 21·2^-11. -/
theorem test_block_narrowed :
    let vs := ([0x3FA66666, 0xC0266666, 0x3FB40000, 0x3FA00000, 0x3C280000] : List Word).map ofF32
    Fmt.bg4.scaleByte (amax vs) = 0x81 ∧ (vs.map (Fmt.bg4.narrow 0x81)).eraseIdx 3 = [3, 13, 4, 0] ∧
    Fmt.fp4.scaleByte (amax vs) = 0x7E ∧ ((vs.map (Fmt.fp4.narrow 0x7E)).eraseIdx 4).eraseIdx 2 = [5, 15, 5] ∧
    Fmt.e4m3.scaleByte (amax vs) = 0x78 ∧ (vs.map (Fmt.e4m3.narrow 0x78)).eraseIdx 2 = [0x72, 0xFA, 0x72, 0x3B] ∧
    Fmt.e4m3.narrow 0x7F (ofF32 0x43FA0000) = 0x7E ∧ Fmt.e4m3.narrow 0x7F (.nan false) = 0x7F := by decide +kernel

/-- The worked example "a short last group" (R45, R47): each group rounds at its boundary, and Y is 3.0. -/
theorem test_short_last_group :
    dot false 40 ([.fin false 3 0, .fin false 1 (-30)] ++ List.replicate 30 Val.zero ++ [.fin false 1 (-23), .fin false 1 (-50)] ++
      List.replicate 6 Val.zero) (List.replicate 40 (.fin false 1 0)) = 0x40400000 := by decide +kernel

/-- The worked example "three equal values with and without a pivot" (R177, R179, R181): 4,097 three times. Without a pivot S1 is
12,291, S2 is 50,356,224, and the variance is delivered as +0 from a negative one; with it all sums are 0 and the mean is 4,097. -/
theorem test_three_equal_values :
    let d (pivot : Nat) := RedDesc.ofDesc (BitVec.ofNat 512 (D [(17, 1), (348, 3), (19, pivot)]))
    let k : Kept := { row0 := 0, rows := 1, col := none }
    let off := keptStats [] (d 0) 3 (fun _ _ => 0x45800800) (fun _ _ => true) 0 k
    let on_ := keptStats [] (d 1) 3 (fun _ _ => 0x45800800) (fun _ _ => true) 0x45800800 k
    off.take 2 = [0x46400C00, 0x4C401800] ∧ (finalStats [] (d 0) off).2 = true ∧ (finalStats [] (d 0) off).1.getD 1 1 = 0 ∧
    on_.take 2 = [0, 0] ∧ (finalStats [] (d 1) on_).2 = false ∧ (finalStats [] (d 1) on_).1.take 2 = [0x45800800, 0] := by
  decide +kernel

/-- The worked example "uniform values from vector 2" (R196): the words of elements 0 and 1. -/
theorem test_uniform_values : rattleUniform 0x9F3A21C4 = 0x3F1F3A21 ∧ rattleUniform 0x2C817E05 = 0x3E3205FA := by decide +kernel

/-- The example of a member ID (R10): (3, 10, 5, 2) is 0x0EAA. -/
theorem test_member_id : memberOf [3, 10, 5, 2] = 0x0EAA ∧ coordOf 0x0EAA = [3, 10, 5, 2] := by decide

/-- The worked example of a first job (R388, R389): the setup block of step 2 is taken, and step 5 names queue 2. -/
theorem test_first_job :
    (match exec (.mbxSetup 0 0x4000000040001000 (BitVec.ofNat 512 (0x1000000000 + 0x1000001000 * 256 ^ 8 + 64 * 256 ^ 16 + 64 * 256 ^ 18))) quiet with
      | .next t => (t.mailbox 0).map fun m => (m.reqBase, m.rspBase, m.reqEntries, m.rspPhase)
      | _ => none) = some (0x1000000000, 0x1000001000, 64, true) ∧
    bitField (0x200000001 : DWord) 32 3 = 2 ∧ bitField (0x200000001 : DWord) 0 12 = 1 := by decide +kernel

/-- The worked trace's number of active units (R89): cores 0 to 3 in section 0 make 48. -/
theorem test_active_units :
    (activeUnits (let s := bar []; { s with mem := put [(0x200, 1, 0xF)] s.mem })).length = 48 := by decide +kernel

/-- COPY and FILL of one row of four bytes (R272): from 16 to 64 of buffer 0, and the pattern at 64. -/
theorem test_copy_and_fill :
    (match exec .chipDmaCopy (let s := bar [(12, W 0x10 0 0)] [(0, (460, 16) :: oneRow)]; { s with mem := put [(0x10010, 4, 0x04030201)] s.mem }) with
      | .next t => t.mem.readNat 0x10040 4 | _ => 0) = 0x04030201 ∧
    (match exec .chipDmaFill (bar [(12, W 0x11 0 0)] [(0, (152, 0xDDCCBBAA) :: oneRow)]) with
      | .next t => t.mem.readNat 0x10040 4 | _ => 0) = 0xDDCCBBAA := by decide +kernel

/-- A cap of 1,000 MHz holds a core's island at 1,000 MHz (R435, R442, R444). -/
theorem test_clock_cap : (let s := { powered 0 with power := { (powered 0).power with clockCap := 1000 } }
    targetMhz s 0) = 1000 := by decide +kernel

end Sys2Proof.Tests
end

section
/-! PROOFS. The moves of a unit (R62, R66, R68 to R72, R90): the one rule of a unit that stands at the stroke named, and from it what
each control stroke makes of the unit. -/
namespace Sys2Proof.Machine

/-! ## A unit that stands at a stroke moves -/

/-- Two changes of an entry that make the same of what it holds make the same list. -/
theorem updAt_eq_of_eq {α : Type} {l : List α} {i : Nat} {f g : α → α} (d : α) (h : f (l.getD i d) = g (l.getD i d)) :
    updAt l i f = updAt l i g := by
  apply List.ext_getElem?
  intro k
  by_cases hk : i = k
  · subst hk
    cases hl : l[i]? with
    | none => simp [updAt, hl]
    | some y =>
      rw [List.getD_eq_getElem?_getD, hl, Option.getD_some] at h
      simp [updAt, hl, h]
  · simp [updAt, hk]

/-- Two changes that make the same of a unit's present state make the same device. -/
theorem updUnit_eq_of_eq {s : State} {u : UnitId} {f g : UnitState → UnitState} (h : f (s.unit u) = g (s.unit u)) :
    s.updUnit u f = s.updUnit u g := by
  cases u with
  | core c v =>
    have units : updAt (s.core c.val).units (v.val - 1) f = updAt (s.core c.val).units (v.val - 1) g :=
      updAt_eq_of_eq UnitState.idle h
    have cores : updAt s.cores c.val (fun k => { k with units := updAt k.units (v.val - 1) f }) =
        updAt s.cores c.val fun k => { k with units := updAt k.units (v.val - 1) g } :=
      updAt_eq_of_eq Core.reset (congrArg (fun l => { s.core c.val with units := l }) units)
    exact congrArg (fun l => { s with cores := l }) cores
  | chip v => exact congrArg (fun l => { s with chips := l }) (updAt_eq_of_eq UnitState.idle h)

/-- A unit that stands at the stroke named moves, and nothing else does. -/
theorem next_moveUnit_of_due {s : State} {u : UnitId} {b : BeatCtx} {due : BeatCtx → UnitState → Bool}
    {move : BeatCtx → State → UnitState → UnitState} {g : UnitState → UnitState} (hb : beatOf s u = some (b, s.unit u))
    (hd : due b (s.unit u) = true) (hm : move b s (s.unit u) = g (s.unit u)) :
    Host.Outcome.next (moveUnit u due move s) = (.next (s.updUnit u g) : Host.Outcome State Fault Refusal) := by
  simp only [moveUnit, hb, hd, if_true, updUnit_eq_of_eq hm]

/-- The model's test holds of a control stroke that is due (R68). -/
theorem CtlDue.test {s : State} {u : UnitId} {op : Nat} {b : BeatCtx} (h : CtlDue s u op b) : ctlDue op b (s.unit u) = true := by
  obtain ⟨-, hop, hpos⟩ := h
  by_cases ahead : op = 2 ∨ op = 5
  · rw [if_pos ahead] at hpos
    simp [ctlDue, hop, ahead, hpos]
  · rw [if_neg ahead] at hpos
    simp [ctlDue, closeDue, hop, not_or.mp ahead, hpos]

/-- `next_moveUnit_of_due` for a control stroke. -/
theorem CtlDue.moves {s : State} {u : UnitId} {op : Nat} {b : BeatCtx} {move : BeatCtx → State → UnitState → UnitState}
    {g : UnitState → UnitState} (h : CtlDue s u op b) (hm : move b s (s.unit u) = g (s.unit u)) :
    Host.Outcome.next (moveUnit u (ctlDue op) move s) = (.next (s.updUnit u g) : Host.Outcome State Fault Refusal) :=
  next_moveUnit_of_due h.beats h.test hm

/-- A unit that parks or stops gives its token when it has nothing in flight, and keeps one it gave (R90). -/
theorem giveToken_of_past {x : UnitState} (h : x.beat = .parked ∨ x.beat = .stopped) :
    giveToken x = { x with token := x.inflight.isEmpty || x.token } := by
  have past : (x.beat == .parked || x.beat == .stopped) = true := by simpa using h
  cases he : x.inflight.isEmpty <;> simp [giveToken, past, he]

/-! ## The strokes -/

section
variable {s : State} {u : UnitId} {b : BeatCtx}

/-- REST (R62): the unit goes on past its own stroke. -/
theorem exec_rest (hb : beatOf s u = some (b, s.unit u)) (hraw : b.raw = 0) (hd : strokeDue b.ctl (s.unit u) = true) :
    exec (.rest u) s = .next (s.updUnit u fun _ => afterStroke b.ctl (s.unit u)) :=
  next_moveUnit_of_due hb (by simp [hraw, hd]) rfl

/-- BAR (R66): the unit goes on to the next bar. -/
theorem exec_bar (h : CtlDue s u 1 b) : exec (.bar u) s = .next (s.updUnit u fun _ => (s.unit u).goTo (b.bar + 1)) :=
  h.moves rfl

/-- LOOP_BEGIN with turns to take (R69): its level opens at the counter 0. -/
theorem exec_loopBegin_of_turns (h : CtlDue s u 2 b) (hn : loopCount b ≠ 0) :
    exec (.loopBegin u) s = .next (s.updUnit u fun _ =>
      { s.unit u with beat := .stroke, loops := updAt (s.unit u).loops b.ctl.level fun _ =>
          { isOpen := true, count := loopCount b, counter := 0, beginBar := b.bar } }) :=
  h.moves (if_neg hn)

/-- LOOP_BEGIN with the count 0 (R71): the unit goes to the bar after the LOOP_END, and no loop level changes. -/
theorem exec_loopBegin_of_no_turns {e : Nat} (h : CtlDue s u 2 b) (hn : loopCount b = 0)
    (he : scLoopEnd s.mem b.fire.score b.ctl.level (scBarCount s.mem b.fire.score - b.bar) b.bar = some e) :
    exec (.loopBegin u) s = .next (s.updUnit u fun x => x.goTo (e + 1)) :=
  h.moves (g := fun x => x.goTo (e + 1)) (by simp only [hn, he, if_true])

/-- LOOP_END with a turn left (R70): the counter rises, and the unit is back at the LOOP_BEGIN bar's own stroke. -/
theorem exec_loopEnd_of_turn_left (h : CtlDue s u 3 b)
    (ho : ((s.unit u).loops.getD b.ctl.level LoopLevel.closed).isOpen = true)
    (hl : ((s.unit u).loops.getD b.ctl.level LoopLevel.closed).counter + 1 <
      ((s.unit u).loops.getD b.ctl.level LoopLevel.closed).count) :
    exec (.loopEnd u) s = .next (s.updUnit u fun _ =>
      { s.unit u with bar := ((s.unit u).loops.getD b.ctl.level LoopLevel.closed).beginBar, passed := (s.unit u).passed + 1,
                      beat := .stroke,
                      loops := updAt (s.unit u).loops b.ctl.level fun k => { k with counter := k.counter + 1 } }) :=
  h.moves (if_pos (by simp only [ho, hl, decide_true, Bool.and_true]))

/-- LOOP_END with no turn left (R70): the level closes, and the unit goes on to the next bar. -/
theorem exec_loopEnd_of_last_turn (h : CtlDue s u 3 b)
    (hl : ¬ (((s.unit u).loops.getD b.ctl.level LoopLevel.closed).isOpen = true ∧
      ((s.unit u).loops.getD b.ctl.level LoopLevel.closed).counter + 1 <
        ((s.unit u).loops.getD b.ctl.level LoopLevel.closed).count)) :
    exec (.loopEnd u) s = .next (s.updUnit u fun _ =>
      { s.unit u with loops := updAt (s.unit u).loops b.ctl.level fun _ => LoopLevel.closed }.goTo (b.bar + 1)) :=
  h.moves (if_neg (by simpa only [Bool.and_eq_true, decide_eq_true_eq] using hl))

/-- BREAK (R90): the unit parks. -/
theorem exec_brk (h : CtlDue s u 4 b) :
    exec (.brk u) s = .next (s.updUnit u fun _ =>
      { s.unit u with beat := .parked, token := (s.unit u).inflight.isEmpty || (s.unit u).token }) :=
  h.moves (giveToken_of_past (Or.inl rfl))

/-- HALT (R90): the unit stops. -/
theorem exec_halt (h : CtlDue s u 6 b) :
    exec (.halt u) s = .next (s.updUnit u fun _ =>
      { s.unit u with beat := .stopped, token := (s.unit u).inflight.isEmpty || (s.unit u).token }) :=
  h.moves (giveToken_of_past (Or.inr rfl))

/-- SECTION (R66, R74): the unit comes to the bar's own stroke, under the layout named; the clocks follow it. -/
theorem exec_sectionCtl (h : CtlDue s u 5 b) :
    exec (.sectionCtl u) s =
      .next (restClocks { s.updUnit u (fun _ => { s.unit u with beat := .stroke }) with
        sched := { s.sched with layout := b.ctl.imm % 8 } }) := by
  have moved : s.updUnit u (fun y => { y with beat := .stroke }) = s.updUnit u fun _ => { s.unit u with beat := .stroke } :=
    updUnit_eq_of_eq rfl
  change execSectionCtl u s = _
  simp only [execSectionCtl, h.beats, h.test, if_true, moved, State.updUnit_sched]

end

/-- Settles O35: each stroke's rule above, a REST by the kind of its bar. -/
theorem controlStrokesMoveTheirUnit : Obligations.ControlStrokesMoveTheirUnit := by
  unfold Obligations.ControlStrokesMoveTheirUnit
  refine ⟨fun u b s => ⟨?rest, exec_bar, exec_loopBegin_of_turns, exec_loopEnd_of_turn_left, exec_loopEnd_of_last_turn,
    exec_brk, exec_halt, exec_sectionCtl⟩, fun u b e s => exec_loopBegin_of_no_turns⟩
  intro hb hraw hd
  rw [exec_rest hb hraw hd]
  by_cases ahead : b.ctl.op = 2 ∨ b.ctl.op = 5 <;> simp [afterStroke, ahead]

end Sys2Proof.Machine
end

section
/-! PROOFS. The calls that free an object (R99, R318, R394): what each call finds of the device once Amior has taken its request, and
from it the answer of the call in each of its cases. -/
namespace Sys2Proof.Machine

/-! ## What a call finds once its request is taken -/

/-- An entry made free. -/
theorem updAt_none {α : Type} (l : List (Option α)) (i : Nat) : updAt l i (fun _ => none) = l.set i none :=
  (List.set_eq_modify none i l).symm

/-- The handles of the scores are those of the device (R98). -/
@[simp] theorem score_takeRequest (fn h : Nat) (s : State) : (takeRequest fn s).score h = s.score h := rfl

/-- The slots of the groups are those of the device (R314). -/
@[simp] theorem groupSlot_takeRequest (fn tag : Nat) (s : State) : groupSlot (takeRequest fn s) tag = groupSlot s tag := rfl

@[simp] theorem group_takeRequest (fn tag : Nat) (s : State) : (takeRequest fn s).group tag = s.group tag := rfl

@[simp] theorem scoreWhere_takeRequest (fn : Nat) (p : Nat → Bool) (s : State) :
    scoreWhere (takeRequest fn s) p = scoreWhere s p := rfl

/-- A change that leaves the queues of every function. -/
theorem queue_updFunc_of (s : State) (fn k q : Nat) (f : Func → Func) (hf : ∀ g, (f g).queues = g.queues) :
    (s.updFunc fn f).queue k q = s.queue k q := by
  by_cases h : k = fn
  · subst h
    by_cases hk : k < s.funcs.length
    · simp only [State.queue, func_updFunc_same _ _ hk, hf]
    · simp [State.queue, State.updFunc, State.func, updAt, List.getD_eq_getElem?_getD, hk]
  · simp only [State.queue, func_updFunc_other _ _ h]

/-- Taking a request leaves the job queues. -/
@[simp] theorem queue_takeRequest (fn k q : Nat) (s : State) : (takeRequest fn s).queue k q = s.queue k q :=
  queue_updFunc_of s fn k q _ fun _ => rfl

/-! ## JOB_QUEUE_DESTROY (R394) -/

/-- A queue of a function made free. -/
def freeQueue (q : Nat) (g : Func) : Func := { g with queues := updAt g.queues q fun _ => none }

/-- Taking a request and freeing a queue of its caller come to the same in either order. -/
theorem updFunc_freeQueue_takeRequest (fn q : Nat) (s : State) :
    (takeRequest fn s).updFunc fn (freeQueue q) = takeRequest fn (s.updFunc fn (freeQueue q)) := by
  simp only [takeRequest, State.updMailbox, State.updFunc, updAt, List.modify_modify_eq]
  rfl

/-- A device with a queue made free is the one that the function's entry says. -/
theorem updFunc_freeQueue {s : State} {fn : Nat} (q : Nat) (hb : fn < s.funcs.length) :
    s.updFunc fn (freeQueue q) =
      { s with funcs := s.funcs.set fn { s.func fn with queues := (s.func fn).queues.set q none } } := by
  have hf : s.funcs[fn] = s.func fn := by simp [State.func, List.getD_eq_getElem?_getD, hb]
  simp only [State.updFunc, updAt_set _ _ _ hb, hf, freeQueue, updAt_none]

section
variable {r : Request} {m : Mailbox} {s : State}

/-- A queue without unposted jobs is freed. -/
theorem exec_jobQueueDestroy_of_empty {k : JobQueue} (h : Served false false false r m s) (hz : zeroFrom (reqArgs r) 1 = true)
    (hq : s.queue r.fn.val (arg (reqArgs r) 0 1) = some k) (hk : k.unposted = 0) :
    exec (.jobQueueDestroy r) s = .next (answered r m 0x21 .ok 0
      { s with funcs := s.funcs.set r.fn.val { s.func r.fn.val with
          queues := (s.func r.fn.val).queues.set (arg (reqArgs r) 0 1) none } }) := by
  have hb := mailbox_bound h.mailbox
  rw [← updFunc_freeQueue _ hb]
  refine congrArg Host.Outcome.next (served_answer h (by simp [hz]) ?mailbox ?enabled ?body)
  case mailbox => exact (mailbox_updFunc_of _ _ _ (freeQueue _) fun _ => rfl).trans h.mailbox
  case enabled => exact (congrArg Func.enabled (func_updFunc_same _ _ hb)).trans h.enabled
  case body =>
    rw [← updFunc_freeQueue_takeRequest]
    simp only [queue_takeRequest, hq, hk, lt_self_iff_false, if_false]
    rfl

/-- A queue with unposted jobs stays, and the call answers `E_BUSY`. -/
theorem exec_jobQueueDestroy_of_unposted {k : JobQueue} (h : Served false false false r m s)
    (hz : zeroFrom (reqArgs r) 1 = true) (hq : s.queue r.fn.val (arg (reqArgs r) 0 1) = some k) (hk : 0 < k.unposted) :
    exec (.jobQueueDestroy r) s = .next (answered r m 0x21 .busy 0 s) :=
  congrArg Host.Outcome.next (served_same h (by simp [hz]) (by simp only [queue_takeRequest, hq, hk, if_true]))

/-- A queue that does not exist answers `E_INVALID`. -/
theorem exec_jobQueueDestroy_of_none (h : Served false false false r m s) (hz : zeroFrom (reqArgs r) 1 = true)
    (hq : s.queue r.fn.val (arg (reqArgs r) 0 1) = none) :
    exec (.jobQueueDestroy r) s = .next (answered r m 0x21 .invalid 0 s) :=
  congrArg Host.Outcome.next (served_same h (by simp [hz]) (by simp only [queue_takeRequest, hq]))

end

/-! ## SCORE_UNLOAD (R99) -/

/-- The caller holds the handle: its score is one that the caller loaded. -/
def holdsScore (s : State) (fn h : Nat) : Prop := ∃ x, s.score h = some x ∧ x.fn = fn

/-- A job of the caller uses the handle. -/
def usesScore (s : State) (fn h : Nat) : Prop := ∃ j ∈ s.sched.jobs, j.handle = h ∧ j.fn = fn

/-- The call's own test of the caller's handle. -/
theorem holdsScore_iff {s : State} {fn h : Nat} : (s.score h).map (·.fn) = some fn ↔ holdsScore s fn h :=
  Option.map_eq_some_iff

/-- The call's own test for a job of the caller that uses the handle. -/
theorem usesScore_iff {s : State} {fn h : Nat} :
    (s.sched.jobs.any fun j => j.handle == h && j.fn == fn) = true ↔ usesScore s fn h := by
  simp only [usesScore, List.any_eq_true, Bool.and_eq_true, beq_iff_eq]

section
variable {r : Request} {m : Mailbox} {s : State}

/-- The handle of the caller's own score that no job of it uses is freed. -/
theorem exec_scoreUnload_of_unused (h : Served false false false r m s) (hz : zeroFrom (reqArgs r) 2 = true)
    (hs : holdsScore s r.fn.val (arg (reqArgs r) 0 2)) (hu : ¬ usesScore s r.fn.val (arg (reqArgs r) 0 2)) :
    exec (.scoreUnload r) s =
      .next (answered r m 0x11 .ok 0 { s with scores := s.scores.set (arg (reqArgs r) 0 2) none }) := by
  rw [← holdsScore_iff] at hs
  rw [← usesScore_iff] at hu
  refine congrArg Host.Outcome.next (served_answer h (by simp [hz]) h.mailbox h.enabled ?_)
  simp only [score_takeRequest, takeRequest_sched, takeRequest_scores, hs, hu, updAt_none, beq_self_eq_true, Bool.not_true,
    Bool.false_eq_true, if_false]
  rfl

/-- A handle that a job of the caller uses stays, and the call answers `E_BUSY`. -/
theorem exec_scoreUnload_of_used (h : Served false false false r m s) (hz : zeroFrom (reqArgs r) 2 = true)
    (hs : holdsScore s r.fn.val (arg (reqArgs r) 0 2)) (hu : usesScore s r.fn.val (arg (reqArgs r) 0 2)) :
    exec (.scoreUnload r) s = .next (answered r m 0x11 .busy 0 s) := by
  rw [← holdsScore_iff] at hs
  rw [← usesScore_iff] at hu
  refine congrArg Host.Outcome.next (served_same h (by simp [hz]) ?_)
  simp only [score_takeRequest, takeRequest_sched, hs, hu, beq_self_eq_true, Bool.not_true, Bool.false_eq_true, if_false, if_true]

/-- A handle that the caller does not hold answers `E_INVALID`. -/
theorem exec_scoreUnload_of_not_held (h : Served false false false r m s) (hz : zeroFrom (reqArgs r) 2 = true)
    (hs : ¬ holdsScore s r.fn.val (arg (reqArgs r) 0 2)) :
    exec (.scoreUnload r) s = .next (answered r m 0x11 .invalid 0 s) := by
  rw [← holdsScore_iff, ← beq_iff_eq, Bool.not_eq_true] at hs
  refine congrArg Host.Outcome.next (served_same h (by simp [hz]) ?_)
  simp only [score_takeRequest, hs, Bool.not_false, if_true]

end

/-! ## GROUP_RELEASE (R318) -/

section
variable {r : Request} {m : Mailbox} {s : State}

/-- A group that no score names and that runs nothing is freed. -/
theorem exec_groupRelease_of_unused {i : Nat} {g : Group} (h : Served true false false r m s)
    (hz : zeroFrom (reqArgs r) 4 = true) (hi : groupSlot s (arg (reqArgs r) 0 4) = some i)
    (hg : s.group (arg (reqArgs r) 0 4) = some g) (hc : g.colls = [])
    (hn : scoreWhere s (fun a => (scGroups s.mem a).contains (arg (reqArgs r) 0 4)) = none) :
    exec (.groupRelease r) s = .next (answered r m 0x61 .ok 0 { s with groups := s.groups.set i none }) := by
  refine congrArg Host.Outcome.next (served_answer h (by simp [hz]) h.mailbox h.enabled ?_)
  simp only [groupSlot_takeRequest, group_takeRequest, scoreWhere_takeRequest, takeRequest_mem, takeRequest_groups, hi, hg, hn, hc,
    updAt_none, Option.isSome_none, List.isEmpty_nil, Bool.not_true, Bool.or_false, Bool.false_eq_true, if_false]
  rfl

/-- A group that a score names or that runs a collective stays, and the call answers `E_STATE`. -/
theorem exec_groupRelease_of_used {i : Nat} {g : Group} (h : Served true false false r m s)
    (hz : zeroFrom (reqArgs r) 4 = true) (hi : groupSlot s (arg (reqArgs r) 0 4) = some i)
    (hg : s.group (arg (reqArgs r) 0 4) = some g)
    (hu : g.colls ≠ [] ∨ (scoreWhere s (fun a => (scGroups s.mem a).contains (arg (reqArgs r) 0 4))).isSome = true) :
    exec (.groupRelease r) s = .next (answered r m 0x61 .state 0 s) := by
  have used : ((scoreWhere s fun a => (scGroups s.mem a).contains (arg (reqArgs r) 0 4)).isSome || !g.colls.isEmpty) = true := by
    simpa [or_comm] using hu
  refine congrArg Host.Outcome.next (served_same h (by simp [hz]) ?_)
  simp only [groupSlot_takeRequest, group_takeRequest, scoreWhere_takeRequest, takeRequest_mem, hi, hg, used, if_true]

/-- A tag that no group has answers `E_INVALID`. -/
theorem exec_groupRelease_of_unknown (h : Served true false false r m s) (hz : zeroFrom (reqArgs r) 4 = true)
    (hi : groupSlot s (arg (reqArgs r) 0 4) = none) :
    exec (.groupRelease r) s = .next (answered r m 0x61 .invalid 0 s) :=
  congrArg Host.Outcome.next (served_same h (by simp [hz]) (by simp only [groupSlot_takeRequest, hi]))

end

/-- Settles O12: each call's answers above, case by case (R394, R99, R318). -/
theorem objectsAreReleased : Obligations.ObjectsAreReleased := by
  unfold Obligations.ObjectsAreReleased
  exact ⟨
    fun _ _ _ h => ⟨fun _ => exec_jobQueueDestroy_of_empty h, fun _ => exec_jobQueueDestroy_of_unposted h,
      exec_jobQueueDestroy_of_none h⟩,
    fun _ _ _ h => ⟨exec_scoreUnload_of_unused h, exec_scoreUnload_of_used h, exec_scoreUnload_of_not_held h⟩,
    fun _ _ _ h => ⟨fun _ _ => exec_groupRelease_of_unused h, fun _ _ => exec_groupRelease_of_used h,
      exec_groupRelease_of_unknown h⟩⟩

end Sys2Proof.Machine
end

section
/-! PROOFS. The calls that set the device's policy and its pending settings (R413, R418, R422, R424): what a request gets that is
faulty or that is not its caller's to make, and from it the answer of each of the two calls in each of its cases. -/
namespace Sys2Proof.Machine

/-! ## The refusals that every call has (R393, R401, R536) -/

section
variable {pf : Bool} {row : CallRow} {r : Request} {m : Mailbox} {s : State} {bad : List Byte → Bool}
  {body : List Byte → State → State × CallEnd}

/-- Amior takes a request that is served. -/
theorem Served.mayTake {bare defer : Bool} (h : Served pf bare defer r m s) : mayTake r.fn.val s = true := by
  have serves : serving s = true := by
    rcases h.firmware with ready | ⟨-, bare⟩
    · simp [serving, ready]
    · simp [serving, bare]
  simp [Machine.mayTake, serves, h.turn]

/-- A request of the PF is served whether or not its opcode is of the PF alone. -/
theorem Served.of_pf {bare defer : Bool} (h : Served false bare defer r m s) (hfn : r.fn.val = 0) :
    Served pf bare defer r m s := { h with client := fun _ => hfn }

/-- Faulty parameters answer `E_INVALID`, whoever the caller is. -/
theorem served_faulty (h : Served pf row.bare row.defer r m s) (hbad : bad (reqArgs r) = true) :
    serveCall row r bad body s = answered r m row.op .invalid 0 s := by
  simp only [serveCall, h.mayTake, hbad, Bool.or_true, if_true,
    respond_takeRequest r row.op .invalid 0 h.enabled h.mailbox h.runs h.noneHeld h.room]
  rfl

/-- A VF's request of an opcode that is of the PF alone answers `E_AUTH`. -/
theorem served_of_vf (h : Served pf row.bare row.defer r m s) (hbad : bad (reqArgs r) = false) (hpf : row.pf = true)
    (hfn : r.fn.val ≠ 0) : serveCall row r bad body s = answered r m row.op .auth 0 s := by
  have vf : (r.fn.val == 0) = false := beq_false_of_ne hfn
  simp only [serveCall, h.mayTake, h.formed, hbad, hpf, vf, Bool.not_true, Bool.not_false, Bool.or_false, Bool.and_true,
    Bool.false_eq_true, if_true, if_false, respond_takeRequest r row.op .auth 0 h.enabled h.mailbox h.runs h.noneHeld h.room]
  rfl

end

/-! ## The pending set (R424) -/

/-- Settings in ascending ID, with one entry for each. -/
def Ascending (l : List (Nat × Nat)) : Prop := l.Pairwise fun a b => a.1 < b.1

theorem ascending_cons {p : Nat × Nat} {l : List (Nat × Nat)} :
    Ascending (p :: l) ↔ (∀ q ∈ l, p.1 < q.1) ∧ Ascending l := List.pairwise_cons

/-- Of an ascending set that got a setting, the setting's entry is the new one, and every other entry stands. -/
theorem mem_insertSetting {id v : Nat} {p : Nat × Nat} {l : List (Nat × Nat)} (hl : Ascending l) :
    p ∈ insertSetting id v l ↔ p = (id, v) ∨ (p ∈ l ∧ p.1 ≠ id) := by
  induction l with
  | nil => simp [insertSetting]
  | cons q rest ih =>
    obtain ⟨k, w⟩ := q
    obtain ⟨above, hrest⟩ := ascending_cons.mp hl
    have later (hp : p ∈ rest) : k < p.1 := above p hp
    rcases Nat.lt_trichotomy id k with lt | eq | gt
    · have stays : p ∈ (k, w) :: rest → p.1 ≠ id := by
        rintro (_ | ⟨_, hp⟩)
        · exact lt.ne'
        · exact (lt.trans (later hp)).ne'
      simp only [insertSetting, lt, if_true, List.mem_cons (a := p) (b := (id, v)), and_iff_left_of_imp stays]
    · subst eq
      have stays : p ∈ rest → p.1 ≠ id := fun hp => (later hp).ne'
      have replaced : p = (id, w) ∧ p.1 ≠ id ↔ False := by simp +contextual
      simp only [insertSetting, lt_irrefl, if_true, if_false, List.mem_cons, or_and_right, replaced, false_or,
        and_iff_left_of_imp stays]
    · have keeps : p = (k, w) → p.1 ≠ id := by rintro rfl; exact gt.ne
      simp only [insertSetting, gt.not_gt, gt.ne', if_false, List.mem_cons, ih hrest, or_and_right,
        and_iff_left_of_imp keeps, or_left_comm]

/-- A setting put into an ascending set leaves it ascending. -/
theorem insertSetting_ascending (id v : Nat) {l : List (Nat × Nat)} (hl : Ascending l) : Ascending (insertSetting id v l) := by
  induction l with
  | nil => simp [insertSetting, Ascending]
  | cons q rest ih =>
    obtain ⟨k, w⟩ := q
    obtain ⟨above, hrest⟩ := ascending_cons.mp hl
    rcases Nat.lt_trichotomy id k with lt | eq | gt
    · simp only [insertSetting, lt, if_true, ascending_cons (p := (id, v)), hl, and_true]
      rintro p (_ | ⟨_, hp⟩)
      · exact lt
      · exact lt.trans (above p hp)
    · subst eq
      simp only [insertSetting, lt_irrefl, if_true, if_false]
      exact ascending_cons.mpr ⟨above, hrest⟩
    · simp only [insertSetting, gt.not_gt, gt.ne', if_false]
      refine ascending_cons.mpr ⟨fun p hp => ?_, ih hrest⟩
      rcases (mem_insertSetting hrest).mp hp with rfl | ⟨hp, -⟩
      · exact gt
      · exact above p hp

/-! ## STAGE_SET (R422, R424) -/

/-- The call's own test of the reserved bytes of a request. -/
def setReserved (ps : List Byte) : Bool :=
  !zeroAt ps 1 7 || ((List.range 3).any fun e => !zeroAt ps (10 + 16 * e) 6) || !zeroFrom ps 56

/-- The call's own test of the count, the entries and the rest of a request. -/
def setRefused (s : State) (ps : List Byte) : Bool :=
  arg ps 0 1 = 0 || 3 < arg ps 0 1 || !((stageEntries ps).all fun e => settingOk s e.1 e.2) || !zeroFrom ps (8 + 16 * arg ps 0 1)

/-- The reserved bytes between the fields are zero. -/
def SetZeros (ps : List Byte) : Prop :=
  zeroAt ps 1 7 = true ∧ zeroAt ps 10 6 = true ∧ zeroAt ps 26 6 = true ∧ zeroAt ps 42 6 = true

/-- One to three entries, each a setting with a value in its range, and zero in every other byte. -/
def SetFormed (s : State) (ps : List Byte) : Prop :=
  SetZeros ps ∧ 1 ≤ arg ps 0 1 ∧ arg ps 0 1 ≤ 3 ∧ zeroFrom ps (8 + 16 * arg ps 0 1) = true ∧
    ∀ e ∈ stageEntries ps, settingOk s e.1 e.2 = true

theorem setReserved_eq_false_iff {ps : List Byte} : setReserved ps = false ↔ SetZeros ps ∧ zeroFrom ps 56 = true := by
  simp [setReserved, SetZeros, show List.range 3 = [0, 1, 2] from rfl, and_assoc]

theorem setRefused_eq_false_iff {s : State} {ps : List Byte} :
    setRefused s ps = false ↔ 1 ≤ arg ps 0 1 ∧ arg ps 0 1 ≤ 3 ∧ zeroFrom ps (8 + 16 * arg ps 0 1) = true ∧
      ∀ e ∈ stageEntries ps, settingOk s e.1 e.2 = true := by
  simp only [setRefused, Bool.or_eq_false_iff, decide_eq_false_iff_not, Bool.not_eq_false', List.all_eq_true, not_lt, and_assoc,
    Nat.one_le_iff_ne_zero, ne_eq, and_comm (a := zeroFrom _ _ = true)]

/-- A request is formed when it passes the call's two tests: no entry reaches past byte 56. -/
theorem setFormed_iff {s : State} {ps : List Byte} : SetFormed s ps ↔ setReserved ps = false ∧ setRefused s ps = false := by
  rw [setReserved_eq_false_iff, setRefused_eq_false_iff]
  constructor
  · rintro ⟨zeros, least, most, rest, ok⟩
    exact ⟨⟨zeros, zeroFrom_mono rest (by omega)⟩, least, most, rest, ok⟩
  · rintro ⟨⟨zeros, -⟩, formed⟩
    exact ⟨zeros, formed⟩

section
variable {r : Request} {m : Mailbox} {s : State}

/-- A VF's request answers `E_AUTH`. -/
theorem exec_stageSet_of_vf (h : Served false false false r m s) (hfn : r.fn.val ≠ 0) (hz : SetZeros (reqArgs r))
    (he : zeroFrom (reqArgs r) 56 = true) : exec (.stageSet r) s = .next (answered r m 0x30 .auth 0 s) :=
  congrArg Host.Outcome.next (served_of_vf h (setReserved_eq_false_iff.mpr ⟨hz, he⟩) rfl hfn)

/-- A request that is not formed answers `E_INVALID`, and adds nothing. -/
theorem exec_stageSet_of_not_formed (h : Served true false false r m s) (hf : ¬ SetFormed s (reqArgs r)) :
    exec (.stageSet r) s = .next (answered r m 0x30 .invalid 0 s) := by
  refine congrArg Host.Outcome.next ?_
  cases hz : setReserved (reqArgs r) with
  | true => exact served_faulty h hz
  | false =>
    have refused : setRefused s (reqArgs r) = true := by simpa [setFormed_iff, hz] using hf
    exact served_same h hz (if_pos refused)

/-- While a commit waits a formed request answers `E_BUSY`. -/
theorem exec_stageSet_of_commit (h : Served true false false r m s) (hf : SetFormed s (reqArgs r))
    (hc : s.staged.commit.isSome = true) : exec (.stageSet r) s = .next (answered r m 0x30 .busy 0 s) := by
  obtain ⟨hz, accepted⟩ := setFormed_iff.mp hf
  exact congrArg Host.Outcome.next (served_same h hz ((if_neg (ne_true_of_eq_false accepted)).trans (if_pos hc)))

/-- Else its entries go into the pending set one after the other, and the call answers the size of the set. -/
theorem exec_stageSet_of_no_commit (h : Served true false false r m s) (hf : SetFormed s (reqArgs r))
    (hc : s.staged.commit = none) :
    exec (.stageSet r) s =
      .next (answered r m 0x30 .ok
        ((stageEntries (reqArgs r)).foldl (fun acc e => insertSetting e.1 e.2 acc) s.staged.pending).length
        { s with staged := { s.staged with
            pending := (stageEntries (reqArgs r)).foldl (fun acc e => insertSetting e.1 e.2 acc) s.staged.pending } }) := by
  obtain ⟨hz, accepted⟩ := setFormed_iff.mp hf
  have waits : ¬ s.staged.commit.isSome = true := by simp [hc]
  exact congrArg Host.Outcome.next
    (served_answer h hz h.mailbox h.enabled ((if_neg (ne_true_of_eq_false accepted)).trans (if_neg waits)))

end

/-- Settles O13: each answer of the call above, case by case, and an insertion into an ascending set (R424). -/
theorem settingsJoinThePendingSet : Obligations.SettingsJoinThePendingSet := by
  unfold Obligations.SettingsJoinThePendingSet
  exact ⟨
    fun _ _ _ h => ⟨exec_stageSet_of_vf h, fun pf => exec_stageSet_of_not_formed (h.of_pf pf),
      fun pf => exec_stageSet_of_commit (h.of_pf pf), fun pf => exec_stageSet_of_no_commit (h.of_pf pf)⟩,
    fun id v _ hl => ⟨insertSetting_ascending id v hl, fun _ => mem_insertSetting hl⟩⟩

/-! ## PREEMPT_POLICY_SET (R413, R417, R418) -/

/-- Every field of the policy lies in its range (R417). -/
def PolicyFits (ps : List Byte) : Prop :=
  10 ≤ arg ps 0 4 ∧ arg ps 0 4 ≤ 10000000 ∧ arg ps 4 4 ≤ 10000000 ∧ arg ps 8 1 ≤ 1 ∧ arg ps 9 1 ≤ 2 ∧ arg ps 24 8 % 65536 = 0

/-- A policy that evicts names a save area that may be used (R413). -/
def PolicyUsable (s : State) (p : PreemptPolicy) : Prop := p.evict = true → saveAreaOk s p = true

/-- A policy names another save area than the one in use. -/
def PolicyMoves (s : State) (p : PreemptPolicy) : Prop :=
  s.sched.save.isSome = true ∧ ¬ (p.saveChannels = s.preempt.saveChannels ∧ p.saveOfs = s.preempt.saveOfs ∧
    p.saveBytes = s.preempt.saveBytes)

/-- The call's own test of the reserved bytes of a request. -/
def policyReserved (ps : List Byte) : Bool := !zeroAt ps 10 2 || !zeroFrom ps 40

/-- The call's own test of the policy of a request. -/
def policyRefused (s : State) (ps : List Byte) : Bool := policyBad ps || ((policyOf ps).evict && !saveAreaOk s (policyOf ps))

theorem policyBad_eq_false_iff {ps : List Byte} : policyBad ps = false ↔ PolicyFits ps := by
  simp only [policyBad, PolicyFits, aligned, Bool.or_eq_false_iff, decide_eq_false_iff_not, not_lt, Bool.not_eq_false', beq_iff_eq,
    and_assoc]

theorem policyRefused_eq_false_iff {s : State} {ps : List Byte} :
    policyRefused s ps = false ↔ PolicyFits ps ∧ PolicyUsable s (policyOf ps) := by
  simp [policyRefused, PolicyUsable, policyBad_eq_false_iff]

theorem sameArea_iff {p q : PreemptPolicy} :
    sameArea p q = true ↔ p.saveChannels = q.saveChannels ∧ p.saveOfs = q.saveOfs ∧ p.saveBytes = q.saveBytes := by
  simp only [sameArea, Bool.and_eq_true, beq_iff_eq, and_assoc]

/-- The call's own test of another save area while one is in use. -/
theorem policyMoves_iff {s : State} {p : PreemptPolicy} :
    (s.sched.save.isSome && !sameArea p s.preempt) = true ↔ PolicyMoves s p := by
  rw [PolicyMoves, ← sameArea_iff, Bool.and_eq_true, Bool.not_eq_true', Bool.not_eq_true]

theorem policyReserved_eq_false {ps : List Byte} (hz : zeroAt ps 10 2 = true) (he : zeroFrom ps 40 = true) :
    policyReserved ps = false := by simp [policyReserved, hz, he]

section
variable {r : Request} {m : Mailbox} {s : State}

/-- A policy that may be used is put in force, the call answers the bytes of its save area, and a decision follows. -/
theorem exec_preemptPolicySet_of_accepted (h : Served true false false r m s) (hz : policyReserved (reqArgs r) = false)
    (hf : PolicyFits (reqArgs r)) (hu : PolicyUsable s (policyOf (reqArgs r))) (hm : ¬ PolicyMoves s (policyOf (reqArgs r))) :
    exec (.preemptPolicySet r) s =
      .next (settle (answered r m 0x23 .ok (saveTotal (policyOf (reqArgs r)) % 2 ^ 64) { s with preempt := policyOf (reqArgs r) })) := by
  have accepted : policyRefused s (reqArgs r) = false := policyRefused_eq_false_iff.mpr ⟨hf, hu⟩
  exact congrArg (Host.Outcome.next ∘ settle) (served_answer h hz h.mailbox h.enabled
    ((if_neg (ne_true_of_eq_false accepted)).trans (if_neg (policyMoves_iff.not.mpr hm))))

/-- A field out of its range, or an eviction without a usable save area, answers `E_INVALID`. -/
theorem exec_preemptPolicySet_of_refused (h : Served true false false r m s) (hz : policyReserved (reqArgs r) = false)
    (hn : ¬ (PolicyFits (reqArgs r) ∧ PolicyUsable s (policyOf (reqArgs r)))) :
    exec (.preemptPolicySet r) s = .next (settle (answered r m 0x23 .invalid 0 s)) := by
  have refused : policyRefused s (reqArgs r) = true := by
    rwa [← policyRefused_eq_false_iff, Bool.not_eq_false] at hn
  exact congrArg (Host.Outcome.next ∘ settle) (served_same h hz (if_pos refused))

/-- Another save area while one is in use answers `E_BUSY`. -/
theorem exec_preemptPolicySet_of_moved (h : Served true false false r m s) (hz : policyReserved (reqArgs r) = false)
    (hf : PolicyFits (reqArgs r)) (hu : PolicyUsable s (policyOf (reqArgs r))) (hm : PolicyMoves s (policyOf (reqArgs r))) :
    exec (.preemptPolicySet r) s = .next (settle (answered r m 0x23 .busy 0 s)) := by
  have accepted : policyRefused s (reqArgs r) = false := policyRefused_eq_false_iff.mpr ⟨hf, hu⟩
  exact congrArg (Host.Outcome.next ∘ settle)
    (served_same h hz ((if_neg (ne_true_of_eq_false accepted)).trans (if_pos (policyMoves_iff.mpr hm))))

/-- A VF's request answers `E_AUTH`. -/
theorem exec_preemptPolicySet_of_vf (h : Served false false false r m s) (hz : policyReserved (reqArgs r) = false)
    (hfn : r.fn.val ≠ 0) : exec (.preemptPolicySet r) s = .next (settle (answered r m 0x23 .auth 0 s)) :=
  congrArg (Host.Outcome.next ∘ settle) (served_of_vf h hz rfl hfn)

end

/-- No eviction begins without a save area that may be used (R409, R413). -/
theorem exec_evictionBegin_of_unusable {s : State} (h : saveAreaOk s s.preempt = false) : exec .evictionBegin s = .next s := by
  change execEvictionBegin s = .next s
  cases hj : s.currentJob with
  | none => simp only [execEvictionBegin, hj]
  | some j => simp only [execEvictionBegin, hj, h, Bool.and_false, Bool.false_and, Bool.false_eq_true, if_false]

/-- Settles O20: each answer of the call above, case by case, and the eviction that does not begin (R409, R413, R418). -/
theorem preemptPolicyIsSet : Obligations.PreemptPolicyIsSet := by
  unfold Obligations.PreemptPolicyIsSet
  exact ⟨
    ⟨fun _ _ _ h hz he =>
      have reserved := policyReserved_eq_false hz he
      ⟨exec_preemptPolicySet_of_accepted h reserved, exec_preemptPolicySet_of_refused h reserved,
        exec_preemptPolicySet_of_moved h reserved⟩,
      fun _ _ _ h hz he => exec_preemptPolicySet_of_vf h (policyReserved_eq_false hz he)⟩,
    fun _ => exec_evictionBegin_of_unusable⟩

end Sys2Proof.Machine
end

section
/-! PROOFS. The batches (R514, R515): a batch closes by its own two conditions, and a body's path takes it up its batch's tree level by
level to the root. -/
namespace Sys2Proof.Machine

/-! ## The close of a batch -/

/-- The open batch is due when it holds a body and is full or 10 ms old. -/
def BatchDue (s : State) : Prop :=
  s.sec.open_ ≠ [] ∧ (4096 ≤ s.sec.open_.length ∨ s.sec.openedAt + 10000 ≤ s.time)

theorem batchDue_iff {s : State} :
    (!s.sec.open_.isEmpty && (decide (4096 ≤ s.sec.open_.length) || decide (s.sec.openedAt + 10000 ≤ s.time))) = true ↔
      BatchDue s := by
  simp [BatchDue]

/-- The first 4,096 bodies of a batch that is due wait for its signature, and the others open the next batch. -/
theorem exec_batchClose_of_due {s : State} (h : BatchDue s) :
    exec .batchClose s =
      .next { s with sec := { s.sec with
        batchSeq := s.sec.batchSeq + 1, open_ := s.sec.open_.drop 4096, openedAt := s.time,
        sign := s.sec.sign ++
          [.batch ((s.sec.open_.take 4096).map (·.1)) (s.sec.batchSeq + 1) ((s.sec.open_.take 4096).map (·.2))] } } :=
  congrArg Host.Outcome.next (if_pos (batchDue_iff.mpr h))

theorem exec_batchClose_of_not_due {s : State} (h : ¬ BatchDue s) : exec .batchClose s = .next s :=
  congrArg Host.Outcome.next (if_neg (batchDue_iff.not.mpr h))

/-! ## The nodes above a level -/

theorem length_batchUp (l : List Digest) : (batchUp l).length = (l.length + 1) / 2 := by
  fun_induction batchUp l with
  | case1 a b rest ih => simp only [List.length_cons, ih]; omega
  | case2 l short =>
    match l, short with
    | [], _ => rfl
    | [_], _ => simp
    | a :: b :: rest, short => exact absurd rfl (short a b rest)

/-- Two neighbours join in the node above them. -/
theorem getD_batchUp_of_pair (l : List Digest) (j : Nat) (h : 2 * j + 1 < l.length) :
    (batchUp l).getD j 0 = batchNode (l.getD (2 * j) 0) (l.getD (2 * j + 1) 0) := by
  induction j generalizing l with
  | zero => match l, h with | a :: b :: rest, _ => rfl
  | succ j ih =>
    match l, h with
    | a :: b :: rest, h => exact ih rest (by simp only [List.length_cons] at h; omega)

/-- The last node of a level of odd length passes up unchanged. -/
theorem getD_batchUp_of_last (l : List Digest) (j : Nat) (h : l.length = 2 * j + 1) :
    (batchUp l).getD j 0 = l.getD (2 * j) 0 := by
  induction j generalizing l with
  | zero =>
    obtain ⟨a, rfl⟩ := List.length_eq_one_iff.mp h
    simp [batchUp]
  | succ j ih =>
    match l, h with
    | a :: b :: rest, h => exact ih rest (by simp only [List.length_cons] at h; omega)

/-! ## The check of a body against its path -/

/-- One turn of R515's check: the node's digest and index, the number of nodes on its level and the siblings not yet used. -/
def checkTurn (acc : Digest × Nat × Nat × List Digest) : Digest × Nat × Nat × List Digest :=
  let (h, i, n, p) := acc
  if n ≤ 1 then acc
  else if i % 2 = 1 then (batchNode (p.headD 0) h, i / 2, (n + 1) / 2, p.drop 1)
  else if i + 1 < n then (batchNode h (p.headD 0), i / 2, (n + 1) / 2, p.drop 1)
  else (h, i / 2, (n + 1) / 2, p)

/-- The check as it stands at node `i` of the level `l`, with `k` levels above it at the most. -/
def checkAt (k i : Nat) (l : List Digest) : Digest × Nat × Nat × List Digest :=
  (l.getD i 0, i, l.length, batchPath k i l)

/-- A turn takes the check from a node to the node above it. -/
theorem checkTurn_checkAt {k i : Nat} {l : List Digest} (hi : i < l.length) (hl : 1 < l.length) :
    checkTurn (checkAt (k + 1) i l) = checkAt k (i / 2) (batchUp l) := by
  have more : ¬ l.length ≤ 1 := by omega
  rw [checkAt, checkAt, length_batchUp, batchPath, if_neg more, checkTurn, if_neg more]
  by_cases odd : i % 2 = 1
  · have before : 2 * (i / 2) = i - 1 := by omega
    have self : i - 1 + 1 = i := by omega
    rw [if_pos odd, if_pos odd, getD_batchUp_of_pair l (i / 2) (by omega), before, self]
    rfl
  · have twice : 2 * (i / 2) = i := by omega
    rw [if_neg odd, if_neg odd]
    by_cases pair : i + 1 < l.length
    · rw [if_pos pair, if_pos pair, getD_batchUp_of_pair l (i / 2) (by omega), twice]
      rfl
    · rw [if_neg pair, if_neg pair, getD_batchUp_of_last l (i / 2) (by omega), twice]
      rfl

/-- A check that has come to the one node of the top level stays there. -/
theorem checkTurn_of_top {h : Digest} {i n : Nat} {p : List Digest} (top : n ≤ 1) :
    checkTurn (h, i, n, p) = (h, i, n, p) := if_pos top

/-- The one node of a top level is the root, with no sibling to come. -/
theorem checkAt_of_top (k : Nat) {i : Nat} {l : List Digest} (hi : i < l.length) (top : l.length ≤ 1) :
    checkAt k i l = (batchRoot k l, 0, 1, []) := by
  obtain ⟨a, rfl⟩ : ∃ a, l = [a] := List.length_eq_one_iff.mp (by omega)
  obtain rfl : i = 0 := by simpa using hi
  cases k <;> simp [checkAt, batchPath, batchRoot]

/-- As many turns as the tree may have levels end at the root with the whole path used. -/
theorem iterate_checkTurn (k : Nat) {i : Nat} {l : List Digest} (hi : i < l.length) (hk : l.length ≤ 2 ^ k) :
    checkTurn^[k] (checkAt k i l) = (batchRoot k l, 0, 1, []) := by
  induction k generalizing i l with
  | zero => exact checkAt_of_top 0 hi hk
  | succ k ih =>
    by_cases top : l.length ≤ 1
    · rw [checkAt_of_top (k + 1) hi top]
      exact Function.iterate_fixed (checkTurn_of_top le_rfl) (k + 1)
    · have up := length_batchUp l
      rw [Function.iterate_succ_apply, checkTurn_checkAt hi (by omega), batchRoot, if_neg top]
      exact ih (by omega) (by rw [Nat.pow_succ] at hk; omega)

/-- Each body of a batch of at most 4,096, checked against its path in 13 turns, gives the batch's root. The turn is any function
that does what `checkTurn` does, so that a statement may write it out. -/
theorem foldl_turn_leaf {turn : Digest × Nat × Nat × List Digest → Nat → Digest × Nat × Nat × List Digest}
    (ht : ∀ acc k, turn acc k = checkTurn acc) {bodies : List (List Byte)} {i : Nat} (hi : i < bodies.length)
    (hn : bodies.length ≤ 4096) :
    (List.range 13).foldl turn (batchLeaf (bodies.getD i []), i, bodies.length, batchPath 13 i (bodies.map batchLeaf)) =
      (batchRoot 13 (bodies.map batchLeaf), 0, 1, []) := by
  have leaf : (bodies.map batchLeaf).getD i 0 = batchLeaf (bodies.getD i []) := by
    simp [List.getD_eq_getElem?_getD, hi]
  have start := iterate_checkTurn 13 (i := i) (l := bodies.map batchLeaf) (by simpa using hi) (by simp; omega)
  obtain rfl : turn = fun acc _ => checkTurn acc := funext₂ ht
  rw [List.foldl_const, List.length_range]
  rwa [checkAt, leaf, List.length_map] at start

/-- Settles O48: an open batch closes just when it is due, and each body's check ends at the root with no sibling left (R515). -/
theorem batchesCloseAndProveTheirBodies : Obligations.BatchesCloseAndProveTheirBodies := by
  unfold Obligations.BatchesCloseAndProveTheirBodies
  refine ⟨fun _ => ⟨exec_batchClose_of_due, exec_batchClose_of_not_due⟩, fun bodies i hi hn => ?_⟩
  intro leaves
  beta_reduce
  rw [foldl_turn_leaf _ hi hn]
  exact fun _ _ => rfl

end Sys2Proof.Machine
end

section
/-! PROOFS. The two calls that read what the device keeps of its errors and its jobs (R421, R529, R530): the part of the log that a
call may read, the counters of a function, and from them the answer of each call in each of its cases. -/
namespace Sys2Proof.Machine

/-! ## ERROR_LOG_READ (R529, R530) -/

/-- The function may read the entry (R529). -/
def mayReadEntry (fn : Nat) (e : LogEntry) : Bool := fn == 0 || e.fn == fn || e.fn == 0xFF

/-- What the call writes: the entries from `start` on that the function may read, at most `most` of them. -/
def logRead (s : State) (fn start most : Nat) : List LogEntry :=
  (s.log.entries.filter fun e => mayReadEntry fn e && decide (start ≤ e.seq)).take most

/-- `NEXT_SEQ` after the entries `es` are written. -/
def logNext (start : Nat) (es : List LogEntry) : Nat :=
  match es.getLast? with
  | some e => e.seq + 1
  | none => start

/-- `OLDEST_SEQ`. -/
def logOldest (s : State) : Nat :=
  match s.log.entries with
  | [] => s.log.nextSeq
  | e :: _ => e.seq

/-- The call's own expression of `OLDEST_SEQ`. -/
theorem head_seq_eq_logOldest (s : State) : ((s.log.entries.head?).map (·.seq)).getD s.log.nextSeq = logOldest s := by
  rw [logOldest]
  cases s.log.entries with
  | nil => rfl
  | cons e es => rfl

/-- The entries that the caller may read go to its buffer, and the call answers how far it came. -/
theorem exec_errorLogRead {r : Request} {m : Mailbox} {s : State} (h : Served false true false r m s)
    (ha : aligned (arg (reqArgs r) 0 8) 64 = true) (hz : zeroFrom (reqArgs r) 18 = true) (hl : 1 ≤ arg (reqArgs r) 16 2)
    (hu : arg (reqArgs r) 16 2 ≤ 1024) :
    let start := arg (reqArgs r) 8 8
    let es := logRead s r.fn.val start (arg (reqArgs r) 16 2)
    exec (.errorLogRead r) s =
      .next (answered r m 0xC0 .ok
        (packFields [(2, es.length), (2, 0), (8, logNext start es), (8, logOldest s), (4, s.log.lost)])
        (buffered (arg (reqArgs r) 0 8) (es.flatMap logEntryBytes) s)) := by
  have inRange : ¬ (decide (arg (reqArgs r) 16 2 = 0) || decide (1024 < arg (reqArgs r) 16 2)) = true := by
    simp only [Bool.or_eq_true, decide_eq_true_eq]
    omega
  refine congrArg Host.Outcome.next (served_device h (bufferBad_false ha hz) rfl fun F n => (if_neg inRange).trans ?_)
  dsimp only
  rw [head_seq_eq_logOldest]
  rfl

/-! ## JOB_COUNT_READ (R421) -/

/-- What the change `f` leaves of a function stands in every function after it. -/
theorem func_updFunc_of {α : Type} (p : Func → α) (f : Func → Func) (hp : ∀ g, p (f g) = p g) (fn k : Nat) (s : State) :
    p ((s.updFunc fn f).func k) = p (s.func k) := by
  by_cases hk : k = fn
  · subst hk
    by_cases hb : k < s.funcs.length
    · rw [func_updFunc_same _ _ hb, hp]
    · simp [State.updFunc, State.func, updAt, List.getD_eq_getElem?_getD, hb]
  · rw [func_updFunc_other _ _ hk]

@[simp] theorem enabled_takeRequest (fn k : Nat) (s : State) : ((takeRequest fn s).func k).enabled = (s.func k).enabled :=
  func_updFunc_of Func.enabled (fun g => { g with mailbox := g.mailbox.map _ }) (fun _ => rfl) fn k s

/-- An enabled function is one of the device's. -/
theorem func_bound_of_enabled {s : State} {k : Nat} (h : (s.func k).enabled = true) : k < s.funcs.length := by
  by_contra hc
  simp [State.func, List.getD_eq_getElem?_getD, hc, Func.reset] at h

/-- The function that the call names, 0xFF standing for its caller. -/
def namedFunc (r : Request) : Nat := if arg (reqArgs r) 0 1 = 0xFF then r.fn.val else arg (reqArgs r) 0 1

/-- The counters of a function as the result holds them. -/
def countFields (f : Func) : Nat :=
  packFields [(8, f.submitted.toNat), (8, f.completed.toNat), (8, f.struck.toNat), (8, f.preempted.toNat)]

/-- A function with its counters cleared. -/
def clearCounts (g : Func) : Func := { g with submitted := 0, completed := 0, struck := 0, preempted := 0 }

/-- The device after the call: with `CLEAR` the counters of function `k` are cleared. -/
def countsRead (clear : Bool) (k : Nat) (s : State) : State := if clear then s.updFunc k clearCounts else s

/-- Clearing a function's counters and taking a request come to the same in either order. -/
theorem updFunc_clearCounts_takeRequest (fn k : Nat) (s : State) :
    (takeRequest fn s).updFunc k clearCounts = takeRequest fn (s.updFunc k clearCounts) := by
  have lists (f : Mailbox → Mailbox) :
      updAt (updAt s.funcs fn fun g => { g with mailbox := g.mailbox.map f }) k clearCounts =
        updAt (updAt s.funcs k clearCounts) fn fun g => { g with mailbox := g.mailbox.map f } := by
    by_cases hk : fn = k
    · subst hk
      simp only [updAt, List.modify_modify_eq]
      rfl
    · exact List.modify_modify_ne _ _ _ hk
  simp only [takeRequest, State.updMailbox, State.updFunc, lists]

/-- Taking a request leaves the counters of every function. -/
theorem countFields_takeRequest (fn k : Nat) (s : State) :
    countFields ((takeRequest fn s).func k) = countFields (s.func k) :=
  func_updFunc_of countFields (fun g => { g with mailbox := g.mailbox.map _ }) (fun _ => rfl) fn k s

theorem countsRead_takeRequest (clear : Bool) (fn k : Nat) (s : State) :
    countsRead clear k (takeRequest fn s) = takeRequest fn (countsRead clear k s) := by
  cases clear with
  | false => rfl
  | true => exact updFunc_clearCounts_takeRequest fn k s

/-- A change of one of the device's functions, as the function's entry says. -/
theorem updFunc_eq_set {s : State} {k : Nat} (f : Func → Func) (hb : k < s.funcs.length) :
    s.updFunc k f = { s with funcs := s.funcs.set k (f (s.func k)) } := by
  have entry : s.funcs[k] = s.func k := by simp [State.func, List.getD_eq_getElem?_getD, hb]
  simp only [State.updFunc, updAt_set _ _ _ hb, entry]

@[simp] theorem mailbox_countsRead (clear : Bool) (k fn : Nat) (s : State) :
    (countsRead clear k s).mailbox fn = s.mailbox fn := by
  cases clear with
  | false => rfl
  | true => exact mailbox_updFunc_of s k fn clearCounts fun _ => rfl

@[simp] theorem enabled_countsRead (clear : Bool) (k fn : Nat) (s : State) :
    ((countsRead clear k s).func fn).enabled = (s.func fn).enabled := by
  cases clear with
  | false => rfl
  | true => exact func_updFunc_of Func.enabled clearCounts (fun _ => rfl) k fn s

section
variable {r : Request} {m : Mailbox} {s : State}

/-- The call's own test of its parameters. -/
theorem countParams_ok {ps : List Byte} (hz : zeroFrom ps 2 = true) (hf : arg ps 1 1 ≤ 1) :
    (!zeroFrom ps 2 || decide (2 ≤ arg ps 1 1)) = false := by
  simp only [hz, Bool.not_true, Bool.false_or, decide_eq_false_iff_not]
  omega

/-- The call's own test for a caller that may not read the function named. -/
theorem foreignFunc_iff {fn k : Nat} : (!(fn == 0) && !(k == fn)) = true ↔ ¬ (fn = 0 ∨ k = fn) := by
  simp

/-- The call's own test for a function that is not there to be read. -/
theorem absentFunc_iff {f : Func} {k : Nat} : (decide (32 ≤ k) || !f.enabled) = true ↔ 32 ≤ k ∨ f.enabled = false := by
  simp

/-- The device after the call, by the value of `FLAGS`. -/
theorem countsRead_of_flags {flags k : Nat} (hf : flags ≤ 1) (he : (s.func k).enabled = true) :
    countsRead (natBit flags 0) k s =
      if flags = 1 then { s with funcs := s.funcs.set k (clearCounts (s.func k)) } else s := by
  rw [← updFunc_eq_set clearCounts (func_bound_of_enabled he)]
  obtain rfl | rfl := Nat.le_one_iff_eq_zero_or_eq_one.mp hf <;> rfl

/-- A VF that names another function gets `E_AUTH`. -/
theorem exec_jobCountRead_of_foreign (h : Served false false false r m s) (hz : zeroFrom (reqArgs r) 2 = true)
    (hf : arg (reqArgs r) 1 1 ≤ 1) (hn : ¬ (r.fn.val = 0 ∨ namedFunc r = r.fn.val)) :
    exec (.jobCountRead r) s = .next (answered r m 0x22 .auth 0 s) :=
  congrArg Host.Outcome.next (served_same h (countParams_ok hz hf) (if_pos (foreignFunc_iff.mpr hn)))

/-- A function that is not enabled gets `E_INVALID`. -/
theorem exec_jobCountRead_of_absent (h : Served false false false r m s) (hz : zeroFrom (reqArgs r) 2 = true)
    (hf : arg (reqArgs r) 1 1 ≤ 1) (hn : r.fn.val = 0 ∨ namedFunc r = r.fn.val)
    (ha : 32 ≤ namedFunc r ∨ (s.func (namedFunc r)).enabled = false) :
    exec (.jobCountRead r) s = .next (answered r m 0x22 .invalid 0 s) := by
  rw [← enabled_takeRequest r.fn.val] at ha
  exact congrArg Host.Outcome.next (served_same h (countParams_ok hz hf)
    ((if_neg (not_not_intro hn ∘ foreignFunc_iff.mp)).trans (if_pos (absentFunc_iff.mpr ha))))

/-- Else the call answers the function's counters, which `CLEAR` then zeroes. -/
theorem exec_jobCountRead_of_present (h : Served false false false r m s) (hz : zeroFrom (reqArgs r) 2 = true)
    (hf : arg (reqArgs r) 1 1 ≤ 1) (hn : r.fn.val = 0 ∨ namedFunc r = r.fn.val) (hk : namedFunc r < 32)
    (he : (s.func (namedFunc r)).enabled = true) :
    exec (.jobCountRead r) s = .next (answered r m 0x22 .ok (countFields (s.func (namedFunc r)))
      (if arg (reqArgs r) 1 1 = 1 then { s with funcs := s.funcs.set (namedFunc r) (clearCounts (s.func (namedFunc r))) }
       else s)) := by
  have present : ¬ (32 ≤ namedFunc r ∨ ((takeRequest r.fn.val s).func (namedFunc r)).enabled = false) := by
    simp [he, hk]
  rw [← countsRead_of_flags hf he]
  refine congrArg Host.Outcome.next (served_answer h (countParams_ok hz hf) (by simp [h.mailbox]) (by simp [h.enabled])
    ((if_neg (not_not_intro hn ∘ foreignFunc_iff.mp)).trans ((if_neg (present ∘ absentFunc_iff.mp)).trans ?_)))
  rw [← countsRead_takeRequest]
  exact congrArg (fun x => (_, CallEnd.answer .ok x)) (countFields_takeRequest _ _ s)

end

/-- Settles O9: the answer of ERROR_LOG_READ, and each answer of JOB_COUNT_READ, case by case (R421, R530). -/
theorem logAndCountsAreRead : Obligations.LogAndCountsAreRead := by
  unfold Obligations.LogAndCountsAreRead
  exact ⟨
    fun _ _ _ h => exec_errorLogRead h,
    fun _ _ _ h hz hf => ⟨exec_jobCountRead_of_foreign h hz hf, exec_jobCountRead_of_absent h hz hf,
      exec_jobCountRead_of_present h hz hf⟩⟩

end Sys2Proof.Machine
end

section
/-! PROOFS. The invariants of the block: every command answers a next state, which keeps the queue, the canonical form of both memories,
the sizes of the register files, the length of the log and the fuses; and what the state after reset is. -/
namespace Sys2Proof.Machine

/-! ## Every command -/

/-- What a command keeps, arm by arm: each arm's own law. -/
theorem keeps_exec {r s : State} (h : Keeps r s) (i : Instr) : KeepsR r (exec i s) :=
  match i with
  | .getInfo r => keeps_execGetInfo r h
  | .getInventory r => keeps_execGetInventory r h
  | .inventoryRescan r rc => keeps_execInventoryRescan r rc h
  | .scoreLoad r => keeps_execScoreLoad r h
  | .scoreUnload r => keeps_execScoreUnload r h
  | .residentLoad r => keeps_execResidentLoad r h
  | .jobQueueCreate r => keeps_execJobQueueCreate r h
  | .jobQueueDestroy r => keeps_execJobQueueDestroy r h
  | .jobCountRead r => keeps_execJobCountRead r h
  | .preemptPolicySet r => keeps_execPreemptPolicySet r h
  | .stageSet r => keeps_execStageSet r h
  | .stageCheck r => keeps_execStageCheck r h
  | .stageCommit r => keeps_execStageCommit r h
  | .stageDiscard r => keeps_execStageDiscard r h
  | .tableLoad r => keeps_execTableLoad r h
  | .memMapRead r => keeps_execMemMapRead r h
  | .memChannelRetire r => keeps_execMemChannelRetire r h
  | .memChannelMaintenance r => keeps_execMemChannelMaintenance r h
  | .memChannelRestore r => keeps_execMemChannelRestore r h
  | .memExercise r => keeps_execMemExercise r h
  | .memExerciseStop r => keeps_execMemExerciseStop r h
  | .memExerciseDone ch rep => keeps_execMemExerciseDone ch rep h
  | .groupDefine r => keeps_execGroupDefine r h
  | .groupRelease r => keeps_execGroupRelease r h
  | .linkStatus r => keeps_execLinkStatus r h
  | .linkRetrain r => keeps_execLinkRetrain r h
  | .codecSessionOpen r => keeps_execCodecSessionOpen r h
  | .codecSessionClose r => keeps_execCodecSessionClose r h
  | .selftest r => keeps_execSelftest r h
  | .calibrate r => keeps_execCalibrate r h
  | .deferredTestRun => keeps_execDeferredTestRun h
  | .selftestDone fails durationUs => keeps_execSelftestDone fails durationUs h
  | .calibrateDone fails => keeps_execCalibrateDone fails h
  | .attestQuote r => keeps_execAttestQuote r h
  | .identityRead r => keeps_execIdentityRead r h
  | .fwUpdateStage r => keeps_execFwUpdateStage r h
  | .fwUpdateActivate r => keeps_execFwUpdateActivate r h
  | .powerPolicySet r => keeps_execPowerPolicySet r h
  | .telemetryRead r => keeps_execTelemetryRead r h
  | .errorLogRead r => keeps_execErrorLogRead r h
  | .mbxSetup fn value block => keeps_execMbxSetup fn value block h
  | .mbxReqTail fn value entries => keeps_execMbxReqTail fn value entries h
  | .mbxStop fn value => keeps_execMbxStop fn value h
  | .mbxRspDb fn value => keeps_execMbxRspDb fn value h
  | .jqSubDb fn value subs => keeps_execJqSubDb fn value subs h
  | .jqCmpDb fn value => keeps_execJqCmpDb fn value h
  | .irqStatusWrite fn value => keeps_execIrqStatusWrite fn value h
  | .irqMaskWrite fn value => keeps_execIrqMaskWrite fn value h
  | .registerWriteOther fn offset widthBits value => keeps_execRegisterWriteOther fn offset widthBits value h
  | .bar2Read offset len => keeps_execBar2Read offset len h
  | .bar2Write offset data => keeps_execBar2Write offset data h
  | .imageWindowStart length start image => keeps_execImageWindowStart length start image h
  | .vfEnable n => keeps_execVfEnable n h
  | .functionLevelReset fn => keeps_execFunctionLevelReset fn h
  | .warmReset => keeps_execWarmReset h
  | .devResetAssert => keeps_execDevResetAssert h
  | .devResetRelease => keeps_execDevResetRelease h
  | .strapSample word => keeps_execStrapSample word h
  | .pePerstRelease peer bar2Log2 => keeps_execPePerstRelease peer bar2Log2 h
  | .fwImageRead slot0 slot1 => keeps_execFwImageRead slot0 slot1 h
  | .fwVerifyDone => keeps_execFwVerifyDone h
  | .rollCall rc => keeps_execRollCall rc h
  | .railPowerGood rail => keeps_execRailPowerGood rail h
  | .memSupplyPgDelay supply => keeps_execMemSupplyPgDelay supply h
  | .memTrainingDone ok rates => keeps_execMemTrainingDone ok rates h
  | .bootCoreSelftestDone fails => keeps_execBootCoreSelftestDone fails h
  | .bootReady => keeps_execBootReady h
  | .svCounterRise => keeps_execSvCounterRise h
  | .rest u => keeps_execRest u h
  | .cue u => keeps_execCue u h
  | .bar u => keeps_execBar u h
  | .loopBegin u => keeps_execLoopBegin u h
  | .loopEnd u => keeps_execLoopEnd u h
  | .brk u => keeps_execBrk u h
  | .sectionCtl u => keeps_execSectionCtl u h
  | .halt u => keeps_execHalt u h
  | .mm c mu => keeps_execMm c mu h
  | .gang c mu => keeps_execGang c mu h
  | .feedMm c => keeps_execFeedMm c h
  | .feedGang c => keeps_execFeedGang c h
  | .feedWin c => keeps_execFeedWin c h
  | .drainMm c => keeps_execDrainMm c h
  | .drainGang c => keeps_execDrainGang c h
  | .chain c => keeps_execChain c h
  | .stepStroke c => keeps_execStepStroke c h
  | .reduce c => keeps_execReduce c h
  | .mergePartialRx c => keeps_execMergePartialRx c h
  | .rattleSet c => keeps_execRattleSet c h
  | .attn c mu => keeps_execAttn c mu h
  | .feedAttn c => keeps_execFeedAttn c h
  | .drainAttn c => keeps_execDrainAttn c h
  | .scatter c => keeps_execScatter c h
  | .coreDmaCopy c => keeps_execCoreDmaCopy c h
  | .coreDmaFill c => keeps_execCoreDmaFill c h
  | .chipDmaCopy => keeps_execChipDmaCopy h
  | .chipDmaFill => keeps_execChipDmaFill h
  | .send => keeps_execSend h
  | .recv => keeps_execRecv h
  | .coll => keeps_execColl h
  | .encFrame => keeps_execEncFrame h
  | .decFrame => keeps_execDecFrame h
  | .codecFrameDone e => keeps_execCodecFrameDone e h
  | .notify => keeps_execNotify h
  | .fetchArrival u => keeps_execFetchArrival u h
  | .strokeResume u slot => keeps_execStrokeResume u slot h
  | .strokeComplete u slot => keeps_execStrokeComplete u slot h
  | .kernelComplete => keeps_execKernelComplete h
  | .inputDigestsDone => keeps_execInputDigestsDone h
  | .jobHaltComplete => keeps_execJobHaltComplete h
  | .outputDigestsDone => keeps_execOutputDigestsDone h
  | .batchClose => keeps_execBatchClose h
  | .bodySigned => keeps_execBodySigned h
  | .evictionBegin => keeps_execEvictionBegin h
  | .evictionParked => keeps_execEvictionParked h
  | .evictionCopyDone => keeps_execEvictionCopyDone h
  | .restoreDone => keeps_execRestoreDone h
  | .residentSwapStart => keeps_execResidentSwapStart h
  | .residentSwapDone => keeps_execResidentSwapDone h
  | .downbeatStart => keeps_execDownbeatStart h
  | .downbeatParked => keeps_execDownbeatParked h
  | .strikeParked => keeps_execStrikeParked h
  | .scratchParityError c stave => keeps_execScratchParityError c stave h
  | .residentParityError c stave => keeps_execResidentParityError c stave h
  | .residentRefillDone c ok => keeps_execResidentRefillDone c ok h
  | .malletParityError c mu unusedTile => keeps_execMalletParityError c mu unusedTile h
  | .gangParityError c mu sa => keeps_execGangParityError c mu sa h
  | .staveParityError u again => keeps_execStaveParityError u again h
  | .chimeBankParityError c slot => keeps_execChimeBankParityError c slot h
  | .meshFlitParityError owner row => keeps_execMeshFlitParityError owner row h
  | .fifoParityError owner domain => keeps_execFifoParityError owner domain h
  | .amiorParityError => keeps_execAmiorParityError h
  | .memCrcRetry ch who attempt => keeps_execMemCrcRetry ch who attempt h
  | .memTempPoll temps => keeps_execMemTempPoll temps h
  | .memSuspendTimeout ch => keeps_execMemSuspendTimeout ch h
  | .memRetrain ch => keeps_execMemRetrain ch h
  | .memRetrainDone ch ok again => keeps_execMemRetrainDone ch ok again h
  | .cammRecalibrate ch => keeps_execCammRecalibrate ch h
  | .patrolScrub ch errorAddr => keeps_execPatrolScrub ch errorAddr h
  | .cammModuleLost m => keeps_execCammModuleLost m h
  | .portTrained p rate => keeps_execPortTrained p rate h
  | .identityExchange w who => keeps_execIdentityExchange w who h
  | .portRetryTrain p => keeps_execPortRetryTrain p h
  | .linkDown p => keeps_execLinkDown p h
  | .idleFlitRx p w => keeps_execIdleFlitRx p w h
  | .linkCredit w credits => keeps_execLinkCredit w credits h
  | .linkNack w seq => keeps_execLinkNack w seq h
  | .flitCrcError p uncorrectable => keeps_execFlitCrcError p uncorrectable h
  | .nackRepeat p => keeps_execNackRepeat p h
  | .sendFlitRx p src w => keeps_execSendFlitRx p src w h
  | .sendAck w xtag landed => keeps_execSendAck w xtag landed h
  | .collFlitRx p w => keeps_execCollFlitRx p w h
  | .clapUp w => keeps_execClapUp w h
  | .clapDown w => keeps_execClapDown w h
  | .clapAbortRequest w => keeps_execClapAbortRequest w h
  | .clapDecision w => keeps_execClapDecision w h
  | .xferTimeout u slot => keeps_execXferTimeout u slot h
  | .collTimeout tag => keeps_execCollTimeout tag h
  | .abortNoDecision tag => keeps_execAbortNoDecision tag h
  | .powerLoopTick now projected => keeps_execPowerLoopTick now projected h
  | .railStep q up => keeps_execRailStep q up h
  | .railTelemetryPoll readings => keeps_execRailTelemetryPoll readings h
  | .fllWindow island count => keeps_execFllWindow island count h
  | .islandWake island => keeps_execIslandWake island h
  | .supplySag islands => keeps_execSupplySag islands h
  | .thermalSensorRead deci => keeps_execThermalSensorRead deci h
  | .thermalCapRelease => keeps_execThermalCapRelease h
  | .tripTimeout => keeps_execTripTimeout h
  | .regulatorFault rail => keeps_execRegulatorFault rail h
  | .regulatorWarning rail on => keeps_execRegulatorWarning rail on h
  | .cmisStatusPoll modules => keeps_execCmisStatusPoll modules h
  | .fwStagingDone => keeps_execFwStagingDone h
  | .memorySupplyFault position => keeps_execMemorySupplyFault position h

/-- Every command answers a next state. -/
theorem exec_next (i : Instr) (s : State) : ∃ t, exec i s = .next t := by
  cases i <;> exact ⟨_, rfl⟩

/-- The next state of a command keeps what `Keeps` names. -/
theorem keeps_of_exec {i : Instr} {s t : State} (e : exec i s = .next t) : Keeps s t := by
  have kept := keeps_exec (Keeps.rfl s) i
  rwa [e] at kept

/-! ## Every step -/

/-- A step on an empty queue lets one microsecond pass. -/
theorem step_of_empty {s : State} (h : s.pending = []) : step s = .next { s with time := s.time + 1 } := by
  unfold step
  split
  · rfl
  · rename_i cons
    rw [h] at cons
    cases cons

/-- A step on another queue is the front command on the rest of it. -/
theorem step_of_cons {s : State} {c : Instr} {rest : List Instr} (h : s.pending = c :: rest) :
    step s = exec c { s with pending := rest } := by
  simp only [step, h]

/-- What a step keeps, whatever stands in the queue: the state it starts from stands for it with the front command taken. -/
theorem keeps_of_step {s t : State} (e : step s = .next t) : ∃ q, Keeps { s with pending := q } t := by
  cases hq : s.pending with
  | nil =>
    rw [step_of_empty hq] at e
    cases e
    exact ⟨s.pending, rfl, id, id, fun h => { h with }, id, .rfl s⟩
  | cons c rest =>
    rw [step_of_cons hq] at e
    exact ⟨rest, keeps_of_exec e⟩

/-- The sizes do not look at the queue. -/
theorem State.Sized.withPending {s : State} (h : s.Sized) (q : List Instr) : { s with pending := q }.Sized :=
  { h with }

/-- Settles O1: a step is `exec` of the front command by definition. -/
theorem stepRunsFrontCommand : Obligations.StepRunsFrontCommand := by
  unfold Obligations.StepRunsFrontCommand
  exact fun _ _ _ => step_of_cons rfl

/-- Settles O2: every command answers a next state that keeps the queue; on an empty queue only time passes. -/
theorem noCommandStopsTheBlock : Obligations.NoCommandStopsTheBlock := by
  unfold Obligations.NoCommandStopsTheBlock
  refine ⟨fun i s => ?_, fun s => step_of_empty⟩
  obtain ⟨t, e⟩ := exec_next i s
  exact ⟨t, e, (keeps_of_exec e).queue⟩

/-- Settles O3: the command in front of the queue keeps both memories in canonical form. -/
theorem memoriesStayCanonical : Obligations.MemoriesStayCanonical := by
  unfold Obligations.MemoriesStayCanonical
  intro s t h e
  obtain ⟨q, k⟩ := keeps_of_step e
  exact ⟨k.mem h.1, k.host h.2⟩

/-- Settles O4: the command in front of the queue keeps the sizes. -/
theorem registerFilesKeepTheirSizes : Obligations.RegisterFilesKeepTheirSizes := by
  unfold Obligations.RegisterFilesKeepTheirSizes
  intro s t h e
  obtain ⟨q, k⟩ := keeps_of_step e
  exact k.sized (h.withPending q)

/-- Settles O5: the command in front of the queue keeps the log within its length, and the fuses. -/
theorem logFitsAndFusesStand : Obligations.LogFitsAndFusesStand := by
  unfold Obligations.LogFitsAndFusesStand
  refine ⟨fun s t h e => ?_, fun s t e => ?_⟩ <;> obtain ⟨q, k⟩ := keeps_of_step e
  · exact k.log h
  · exact k.fuses

/-! ## The state after reset -/

/-- Settles O6: the values of the state after reset. -/
theorem resetMeetsTheInvariants : Obligations.ResetMeetsTheInvariants := by
  unfold Obligations.ResetMeetsTheInvariants
  refine ⟨⟨rfl, rfl⟩, ?sized, ?log, ?funcs, rfl, rfl, rfl, rfl, rfl, rfl, rfl, rfl, rfl, rfl, rfl, rfl⟩
  case sized => constructor <;> decide +kernel
  case log => exact Nat.zero_le _
  case funcs =>
    intro f hf
    have clean : State.reset.funcs.all fun f => f.irqStatus == 0 && f.irqMask == BitVec.allOnes 11 && f.mailbox.isNone := by
      decide +kernel
    simpa [and_assoc] using List.all_eq_true.mp clean f hf

end Sys2Proof.Machine
end

section
/-! PROOFS. Where a unit's write lands (R96, R262, R412): a byte outside the run and a byte of a read-only range stand. -/
namespace Sys2Proof.Machine

/-! ## Ranges that hold an address -/

/-- A range of one byte meets a range just when it lies in it. -/
theorem overlaps_one {b n x : Nat} : overlaps b n x 1 = true ↔ b ≤ x ∧ x < b + n := by
  simp only [overlaps, Bool.and_eq_true, decide_eq_true_eq]
  omega

/-- A run meets the ranges that one of its bytes meets. -/
theorem hitsAny_of_byte {rs : List (Nat × Nat)} {a n x : Nat} (h : hitsAny rs x 1 = true) (ha : a ≤ x) (hn : x < a + n) :
    hitsAny rs a n = true := by
  obtain ⟨r, hr, hx⟩ := List.any_eq_true.mp h
  obtain ⟨hb, he⟩ := overlaps_one.mp hx
  refine List.any_eq_true.mpr ⟨r, hr, ?_⟩
  simp only [overlaps, Bool.and_eq_true, decide_eq_true_eq]
  omega

theorem mem_rangeFrom {a n x : Nat} : x ∈ rangeFrom a n ↔ a ≤ x ∧ x < a + n := by
  simp only [rangeFrom, List.mem_map, List.mem_range]
  constructor
  · rintro ⟨i, hi, rfl⟩
    omega
  · exact fun h => ⟨x - a, by omega, by omega⟩

/-! ## A guarded write -/

/-- One byte of a guarded write: in a protected range it is discarded. -/
def putOutside (rs : List (Nat × Nat)) (m : Memory) (p : Nat × Byte) : Memory :=
  if hitsAny rs p.1 1 then m else m.write p.1 p.2

/-- A byte that is protected, or that none of the writes is for, stands. -/
theorem read_foldl_putOutside {rs : List (Nat × Nat)} {x : Nat} (l : List (Nat × Byte)) {m : Memory} (h : m.wf = true)
    (hx : hitsAny rs x 1 = true ∨ ∀ p ∈ l, p.1 ≠ x) : (l.foldl (putOutside rs) m).read x = m.read x := by
  induction l generalizing m with
  | nil => rfl
  | cons p l ih =>
    have rest : hitsAny rs x 1 = true ∨ ∀ q ∈ l, q.1 ≠ x := hx.imp id fun hl q hq => hl q (List.mem_cons_of_mem p hq)
    by_cases hp : hitsAny rs p.1 1 = true
    · rw [List.foldl_cons, putOutside, if_pos hp]
      exact ih h rest
    · have other : x ≠ p.1 := by
        rintro rfl
        exact hx.elim hp fun hl => hl p List.mem_cons_self rfl
      rw [List.foldl_cons, putOutside, if_neg hp, ih (Memory.write_wf _ _ h) rest, Memory.read_write_other _ h other]

/-- What a guarded write leaves of memory: a protected byte, and every byte outside the run. -/
theorem read_guardedWrite {s : State} (fn stave : Nat) {a x : Nat} {bs : List Byte} (h : s.mem.wf = true)
    (hx : hitsAny (readOnlyRanges s) x 1 = true ∨ x < a ∨ a + bs.length ≤ x) :
    (guardedWrite fn stave s a bs).mem.read x = s.mem.read x := by
  unfold guardedWrite
  dsimp only
  split
  · rw [logError_mem]
    refine read_foldl_putOutside _ h (hx.imp id fun outside p hp => ?_)
    have := mem_rangeFrom.mp (List.of_mem_zip hp).1
    omega
  · rename_i free
    refine Memory.read_writeBytes_outside _ h (hx.elim (fun hit => ?_) id)
    by_contra inside
    exact free (hitsAny_of_byte hit (by omega) (by omega))

/-- Settles O7: the laws of a run of bytes, and of a guarded write. -/
theorem memoryIsWrittenWhereItMay : Obligations.MemoryIsWrittenWhereItMay := by
  unfold Obligations.MemoryIsWrittenWhereItMay
  exact ⟨fun m a bs h => ⟨Memory.writeBytes_wf bs a h, Memory.readBytes_writeBytes bs a h,
    fun x => Memory.read_writeBytes_outside bs h⟩, fun s stave a bs x h => read_guardedWrite _ stave h⟩

end Sys2Proof.Machine
end

section
/-! PROOFS. The calls that read the device (R282, R343, R402, R450, R488, R505 to R507): what each writes to the host's buffer and
answers; and the quote, which waits for its signature. -/
namespace Sys2Proof.Machine

/-! ## Calls whose answer comes later -/

/-- A request taken of a function with a mailbox. -/
theorem takeRequest_eq_awaiting {r : Request} {m : Mailbox} {s : State} (hm : s.mailbox r.fn.val = some m) :
    takeRequest r.fn.val s = awaiting r m s := by
  have hb := mailbox_bound hm
  simp only [takeRequest, awaiting, State.updMailbox, updFunc_eq_set _ hb]
  simp only [State.mailbox] at hm
  simp only [hm, Option.map_some]

/-- A served request that its call leaves to be answered later. -/
theorem served_later {row : CallRow} {r : Request} {m : Mailbox} {s u : State} {bad : List Byte → Bool}
    {body : List Byte → State → State × CallEnd} (h : Served row.pf row.bare row.defer r m s) (hbad : bad (reqArgs r) = false)
    (hbody : body (reqArgs r) (awaiting r m s) = (u, .later)) : serveCall row r bad body s = nextTurn u := by
  refine serveCall_later h.mayTake h.formed hbad h.client ?_ (by rw [takeRequest_eq_awaiting h.mailbox, hbody])
  rcases h.firmware with ready | ⟨bare, -⟩
  · exact Or.inr ready
  · exact Or.inl bare

/-! ## Calls that write one block -/

/-- `s` as a call finds it, with a request taken: other functions' entries, and another caller. -/
def withCaller (F : List Func) (n : Nat) (s : State) : State := { s with funcs := F, lastCaller := n }

theorem infoRecord_withCaller (fn : Nat) (F : List Func) (n : Nat) (s : State) :
    infoRecord (withCaller F n s) fn = infoRecord s fn := infoRecord_funcs fn { s with lastCaller := n } F
theorem inventoryBlock_withCaller (F : List Func) (n : Nat) (s : State) :
    inventoryBlock (withCaller F n s) = inventoryBlock s := inventoryBlock_funcs { s with lastCaller := n } F
theorem telemetryBlock_withCaller (F : List Func) (n : Nat) (s : State) :
    telemetryBlock (withCaller F n s) = telemetryBlock s := telemetryBlock_funcs { s with lastCaller := n } F
theorem aliasCert_withCaller (F : List Func) (n : Nat) (s : State) :
    aliasCert (withCaller F n s) = aliasCert s := aliasCert_funcs { s with lastCaller := n } F

/-- A served request that writes a block of the device to the buffer it names. -/
theorem served_block {row : CallRow} {r : Request} {m : Mailbox} {s : State} {bad : List Byte → Bool}
    {body : List Byte → State → State × CallEnd} {block : State → List Byte} {res : State → Nat}
    (h : Served row.pf row.bare row.defer r m s) (hbad : bad (reqArgs r) = false)
    (hbody : ∀ t, body (reqArgs r) t = (hostWrite (arg (reqArgs r) 0 8) (block t) t, .answer .ok (res t)))
    (hblock : ∀ F n, block (withCaller F n s) = block s) (hres : ∀ F n, res (withCaller F n s) = res s) :
    serveCall row r bad body s = answered r m row.op .ok (res s) (buffered (arg (reqArgs r) 0 8) (block s) s) := by
  refine served_device h hbad rfl fun F n => ?_
  rw [hbody]
  change (hostWrite _ (block (withCaller F n s)) _, CallEnd.answer _ (res (withCaller F n s))) = _
  rw [hblock, hres]
  rfl

section
variable {r : Request} {m : Mailbox} {s : State}

theorem exec_getInfo (h : Served false true false r m s) (ha : aligned (arg (reqArgs r) 0 8) 64 = true)
    (hz : zeroFrom (reqArgs r) 8 = true) :
    exec (.getInfo r) s = .next (answered r m 0x01 .ok (packFields [(2, 1), (2, s.fw.ifRev.toNat), (2, 256)])
      (buffered (arg (reqArgs r) 0 8) (infoRecord s r.fn.val) s)) :=
  congrArg Host.Outcome.next (served_block (block := fun t => infoRecord t r.fn.val)
    (res := fun t => packFields [(2, 1), (2, t.fw.ifRev.toNat), (2, 256)]) h (bufferBad_false ha hz) (fun _ => rfl)
    (fun F n => infoRecord_withCaller _ F n s) fun _ _ => rfl)

/-- Without flags the call's own test finds nothing. -/
theorem inventoryBad_eq_false {ps : List Byte} (ha : aligned (arg ps 0 8) 64 = true) (hz : zeroFrom ps 8 = true) :
    inventoryBad ps = false := by
  simp [inventoryBad, bufferBad_false ha (zeroFrom_mono hz (Nat.le_succ 8)), arg_zero 1 hz le_rfl]

theorem exec_getInventory (h : Served false true false r m s) (ha : aligned (arg (reqArgs r) 0 8) 64 = true)
    (hz : zeroFrom (reqArgs r) 8 = true) :
    exec (.getInventory r) s = .next (answered r m 0x02 .ok 1024 (buffered (arg (reqArgs r) 0 8) (inventoryBlock s) s)) := by
  have noRescan : natBit (arg (reqArgs r) 8 1) 0 = false := by rw [arg_zero 1 hz le_rfl]; rfl
  have row : inventoryRow r s = answered r m 0x02 .ok 1024 (buffered (arg (reqArgs r) 0 8) (inventoryBlock s) s) :=
    served_block (block := inventoryBlock) (res := fun _ => 1024) h (inventoryBad_eq_false ha hz)
      (fun _ => if_neg (ne_true_of_eq_false noRescan)) (fun F n => inventoryBlock_withCaller F n s) fun _ _ => rfl
  change execGetInventory r s = _
  simp only [execGetInventory, noRescan, Bool.and_false, Bool.false_and, Bool.false_eq_true, if_false, row]

theorem exec_memMapRead (h : Served false false false r m s) (ha : aligned (arg (reqArgs r) 0 8) 64 = true)
    (hz : zeroFrom (reqArgs r) 8 = true) :
    exec (.memMapRead r) s = .next (answered r m 0x50 .ok
      (packFields [(8, activeBytes s 0 96), (8, activeBytes s 96 32), (1, countState s .active), (1, countState s .maintenance),
                   (1, countState s .retired)])
      (buffered (arg (reqArgs r) 0 8) (s.channels.flatMap channelEntry) s)) :=
  congrArg Host.Outcome.next (served_block (block := fun t => t.channels.flatMap channelEntry)
    (res := fun t => packFields [(8, activeBytes t 0 96), (8, activeBytes t 96 32), (1, countState t .active),
      (1, countState t .maintenance), (1, countState t .retired)])
    h (bufferBad_false ha hz) (fun _ => rfl) (fun _ _ => rfl) fun _ _ => rfl)

theorem exec_identityRead (h : Served false true false r m s) (ha : aligned (arg (reqArgs r) 0 8) 64 = true)
    (hz : zeroFrom (reqArgs r) 8 = true) :
    exec (.identityRead r) s = .next (answered r m 0x91 .ok (packFields [(32, digestHead (identityDigest s)), (2, 5440), (2, 3)])
      (buffered (arg (reqArgs r) 0 8) (identityRecord s ++ aliasCert s) s)) :=
  congrArg Host.Outcome.next (served_block (block := fun t => identityRecord t ++ aliasCert t)
    (res := fun t => packFields [(32, digestHead (identityDigest t)), (2, 5440), (2, 3)]) h (bufferBad_false ha hz)
    (fun _ => rfl) (fun F n => congrArg (identityRecord s ++ ·) (aliasCert_withCaller F n s)) fun _ _ => rfl)

/-! ## TELEMETRY_READ (R450) -/

/-- The call's own test of its parameters. -/
theorem telemetryParams_ok {ps : List Byte} (ha : aligned (arg ps 0 8) 64 = true) (hz : zeroFrom ps 9 = true)
    (hf : arg ps 8 1 ≤ 1) : (bufferBad 9 ps || decide (2 ≤ arg ps 8 1)) = false := by
  simp only [bufferBad_false ha hz, Bool.false_or, decide_eq_false_iff_not]
  omega

theorem exec_telemetryRead (h : Served false true false r m s) (ha : aligned (arg (reqArgs r) 0 8) 64 = true)
    (hz : zeroFrom (reqArgs r) 8 = true) :
    exec (.telemetryRead r) s = .next (answered r m 0xB1 .ok 12288 (buffered (arg (reqArgs r) 0 8) (telemetryBlock s) s)) := by
  have none : arg (reqArgs r) 8 1 = 0 := arg_zero 1 hz le_rfl
  refine congrArg Host.Outcome.next (served_block (block := telemetryBlock) (res := fun _ => 12288) h
    (telemetryParams_ok ha (zeroFrom_mono hz (Nat.le_succ 8)) (none ▸ Nat.zero_le 1)) (fun t => ?_)
    (fun F n => telemetryBlock_withCaller F n s) fun _ _ => rfl)
  have noClear : natBit (arg (reqArgs r) 8 1) 0 = false := by rw [none]; rfl
  simp only [noClear, Bool.false_and, Bool.false_eq_true, if_false]

/-- `CLEAR` of the PF: the block is written, and then every core's counters are zero. -/
theorem exec_telemetryRead_of_clear (h : Served false true false r m s) (ha : aligned (arg (reqArgs r) 0 8) 64 = true)
    (hc : arg (reqArgs r) 8 1 = 1) (hz : zeroFrom (reqArgs r) 9 = true) (hfn : r.fn.val = 0) :
    exec (.telemetryRead r) s = .next (answered r m 0xB1 .ok 12288
      { buffered (arg (reqArgs r) 0 8) (telemetryBlock s) s with
        cores := s.cores.map fun k => { k with counters := CoreCounters.zero } }) := by
  refine congrArg Host.Outcome.next (served_device h (telemetryParams_ok ha hz hc.le) rfl fun F n => ?_)
  have clear : natBit (arg (reqArgs r) 8 1) 0 = true := by rw [hc]; rfl
  have pf : (r.fn.val == 0) = true := beq_iff_eq.mpr hfn
  have block := telemetryBlock_withCaller F n s
  unfold withCaller at block
  simp only [clear, pf, block, Bool.not_true, Bool.and_false, Bool.false_eq_true, if_false, if_true]
  rfl

/-- `CLEAR` of a VF. -/
theorem exec_telemetryRead_of_vf_clear (h : Served false true false r m s) (ha : aligned (arg (reqArgs r) 0 8) 64 = true)
    (hc : arg (reqArgs r) 8 1 = 1) (hz : zeroFrom (reqArgs r) 9 = true) (hfn : r.fn.val ≠ 0) :
    exec (.telemetryRead r) s = .next (answered r m 0xB1 .auth 0 s) := by
  refine congrArg Host.Outcome.next (served_same h (telemetryParams_ok ha hz hc.le) ?_)
  have clear : natBit (arg (reqArgs r) 8 1) 0 = true := by rw [hc]; rfl
  have vf : (r.fn.val == 0) = false := beq_false_of_ne hfn
  simp only [clear, vf, Bool.not_false, Bool.and_self, if_true]

/-! ## LINK_STATUS (R343) -/

/-- The ports of a mask retrain, in ascending order. -/
def retrainPorts (mask : Nat) (s : State) : State :=
  (List.range 16).foldl (fun acc p => if natBit mask p then retrainPort p acc else acc) s

/-- An empty mask retrains no port. -/
theorem retrainPorts_zero (s : State) : retrainPorts 0 s = s := by
  have none (l : List Nat) : l.foldl (fun acc p => if natBit 0 p then retrainPort p acc else acc) s = s := by
    induction l with
    | nil => rfl
    | cons p l ih => simp [natBit]
  exact none _

theorem exec_linkStatus (h : Served false false false r m s) (ha : aligned (arg (reqArgs r) 0 8) 64 = true)
    (hz : zeroFrom (reqArgs r) 8 = true) :
    exec (.linkStatus r) s = .next (answered r m 0x62 .ok (linkResult s)
      (buffered (arg (reqArgs r) 0 8) (s.fabric.ports.flatMap portEntry) s)) := by
  refine congrArg Host.Outcome.next (served_device h (bufferBad_false ha (zeroFrom_mono hz (by omega))) rfl fun F n => ?_)
  have stands := retrainPorts_zero { s with funcs := F, lastCaller := n }
  unfold retrainPorts at stands
  simp only [arg_zero 2 hz le_rfl, beq_self_eq_true, Bool.not_true, Bool.false_and, Bool.false_eq_true, if_false, stands]
  rfl

/-! ## ATTEST_QUOTE (R507, R514) -/

/-- The quote waits behind what waits to be signed. -/
theorem exec_attestQuote (h : Served false true false r m s) (ha : aligned (arg (reqArgs r) 0 8) 64 = true)
    (hz : zeroFrom (reqArgs r) 40 = true) :
    exec (.attestQuote r) s = .next (nextTurn { awaiting r m s with
      sec := { s.sec with sign := s.sec.sign ++ [.quote r.fn.val r.tag (arg (reqArgs r) 0 8) (arg (reqArgs r) 8 32)] } }) :=
  congrArg Host.Outcome.next (served_later h (bufferBad_false ha hz) rfl)

end

/-- No request of a quote waits on a suspended channel: it goes to host memory. -/
theorem onSuspended_nil (s : State) : onSuspended s [] = false := by
  simp [onSuspended, anyTouches]

theorem quoteBody_sec (s : State) (sec : Security) (fn seq : Nat) (nonce : List Byte) :
    quoteBody { s with sec := sec } fn seq nonce = quoteBody s fn seq nonce := by
  unfold quoteBody
  rfl

/-- The quote whose turn it is: its body is formed with the next sequence number, signed and written, and its call responds. -/
theorem exec_bodySigned_of_quote {fn : Nat} {tag : Word} {addr nonce : Nat} {rest : List SignItem} {s : State}
    (h : s.sec.sign = .quote fn tag addr nonce :: rest) :
    exec .bodySigned s =
      .next (nextTurn (respond fn tag 0x90 .ok (s.sec.quoteSeq + 1)
        { buffered addr (quoteBody s fn (s.sec.quoteSeq + 1) (leBytes 32 nonce) ++
            fitBytes 3309 (Config.signature s.fresh (ascii "grx-quote") (quoteBody s fn (s.sec.quoteSeq + 1) (leBytes 32 nonce)))) s with
          sec := { s.sec with sign := rest, quoteSeq := s.sec.quoteSeq + 1 }, fresh := s.fresh + 1 })) := by
  have noArea : (signedJobs s).map (areaRun s) = [] := by simp only [signedJobs, h, List.map_nil]
  change execBodySigned s = _
  simp only [execBodySigned, noArea, onSuspended_nil, Bool.false_eq_true, if_false, h, finishQuote, signBytes, quoteBody_sec, hostWrite, buffered]

/-- Settles O8: each call's block above, and the quote's two steps. -/
theorem readingCallsWriteTheirBlock : Obligations.ReadingCallsWriteTheirBlock := by
  unfold Obligations.ReadingCallsWriteTheirBlock
  refine ⟨fun _ _ _ => ⟨exec_getInfo, exec_getInventory, exec_memMapRead, exec_telemetryRead, exec_identityRead, exec_linkStatus⟩,
    fun _ _ _ h ha hc hz => ?clear, fun _ _ _ => exec_attestQuote, fun _ _ _ _ _ _ => exec_bodySigned_of_quote⟩
  case clear =>
    split
    · exact exec_telemetryRead_of_clear h ha hc hz ‹_›
    · exact exec_telemetryRead_of_vf_clear h ha hc hz ‹_›

end Sys2Proof.Machine
end

section
/-! PROOFS. The calls that make a queue and a group (R314 to R317, R394): each case of each call. -/
namespace Sys2Proof.Machine

/-- An entry put in the place of another. -/
theorem updAt_const {α : Type} (l : List α) (i : Nat) (x : α) : updAt l i (fun _ => x) = l.set i x :=
  (List.set_eq_modify x i l).symm

/-! ## JOB_QUEUE_CREATE (R394) -/

/-- Both rings lie on pages of 4 KiB and are of a size that a ring may have. -/
def QueueFits (ps : List Byte) : Prop :=
  arg ps 0 8 % 4096 = 0 ∧ arg ps 8 8 % 4096 = 0 ∧ ringSizeOk (arg ps 16 2) = true ∧ ringSizeOk (arg ps 18 2) = true

/-- The call's own test of what a malformed request holds. -/
def queueReserved (ps : List Byte) : Bool := !(zeroFrom ps 21 && aligned (arg ps 0 8) 4096 && aligned (arg ps 8 8) 4096)

/-- The call's own test of the rings' sizes and the priority. -/
def queueSized (ps : List Byte) : Bool := ringSizeOk (arg ps 16 2) && ringSizeOk (arg ps 18 2) && decide (arg ps 20 1 ≤ 3)

theorem queueReserved_eq_false_iff {ps : List Byte} :
    queueReserved ps = false ↔ zeroFrom ps 21 = true ∧ arg ps 0 8 % 4096 = 0 ∧ arg ps 8 8 % 4096 = 0 := by
  simp [queueReserved, aligned, and_assoc]

theorem queueReserved_iff {ps : List Byte} :
    queueReserved ps = true ↔ zeroFrom ps 21 = false ∨ ¬ arg ps 0 8 % 4096 = 0 ∨ ¬ arg ps 8 8 % 4096 = 0 := by
  rw [← Bool.not_eq_false, queueReserved_eq_false_iff, not_and_or, not_and_or, Bool.not_eq_true]

theorem queueSized_iff {ps : List Byte} (h : queueReserved ps = false) :
    queueSized ps = true ↔ QueueFits ps ∧ arg ps 20 1 ≤ 3 := by
  obtain ⟨-, sub, cmp⟩ := queueReserved_eq_false_iff.mp h
  simp only [queueSized, QueueFits, sub, cmp, Bool.and_eq_true, decide_eq_true_eq, true_and]

/-- A queue of a function put into its slot. -/
def putQueue (q : Nat) (k : JobQueue) (g : Func) : Func := { g with queues := updAt g.queues q fun _ => some k }

/-- Taking a request and putting a queue of its caller into its slot come to the same in either order. -/
theorem updFunc_putQueue_takeRequest (fn q : Nat) (k : JobQueue) (s : State) :
    (takeRequest fn s).updFunc fn (putQueue q k) = takeRequest fn (s.updFunc fn (putQueue q k)) := by
  simp only [takeRequest, State.updMailbox, State.updFunc, updAt, List.modify_modify_eq]
  rfl

/-- Taking a request leaves the queues of every function. -/
@[simp] theorem queues_takeRequest (fn k : Nat) (s : State) : ((takeRequest fn s).func k).queues = (s.func k).queues :=
  func_updFunc_of Func.queues (fun g => { g with mailbox := g.mailbox.map _ }) (fun _ => rfl) fn k s

section
variable {r : Request} {m : Mailbox} {s : State}

/-- The queue goes into the lowest free slot of its caller. -/
theorem exec_jobQueueCreate_of_free {q : Nat} (h : Served false false false r m s) (hz : zeroFrom (reqArgs r) 21 = true)
    (hf : QueueFits (reqArgs r)) (hp : arg (reqArgs r) 20 1 ≤ 3) (hq : freeSlot (s.func r.fn.val).queues = some q) :
    exec (.jobQueueCreate r) s = .next (answered r m 0x20 .ok q
      { s with funcs := s.funcs.set r.fn.val { s.func r.fn.val with
          queues := (s.func r.fn.val).queues.set q (some (queueOf (reqArgs r))) } }) := by
  have hb := mailbox_bound h.mailbox
  have formed : queueReserved (reqArgs r) = false := queueReserved_eq_false_iff.mpr ⟨hz, hf.1, hf.2.1⟩
  have made := updFunc_eq_set (putQueue q (queueOf (reqArgs r))) hb
  simp only [putQueue, updAt_const] at made
  rw [← made]
  refine congrArg Host.Outcome.next (served_answer h formed ?mailbox ?enabled ?body)
  case mailbox => exact (mailbox_updFunc_of _ _ _ (putQueue q _) fun _ => rfl).trans h.mailbox
  case enabled => exact (congrArg Func.enabled (func_updFunc_same _ _ hb)).trans h.enabled
  case body =>
    have sized : (ringSizeOk (queueOf (reqArgs r)).subEntries && ringSizeOk (queueOf (reqArgs r)).cmpEntries &&
        decide ((queueOf (reqArgs r)).priority ≤ 3)) = true := (queueSized_iff formed).mpr ⟨hf, hp⟩
    simp only [queues_takeRequest, hq, sized, if_true]
    exact congrArg (·, CallEnd.answer .ok q) (updFunc_putQueue_takeRequest r.fn.val q _ s)

/-- With every queue in use the call answers `E_NO_RESOURCE`. -/
theorem exec_jobQueueCreate_of_full (h : Served false false false r m s) (hz : zeroFrom (reqArgs r) 21 = true)
    (hs : arg (reqArgs r) 0 8 % 4096 = 0) (hc : arg (reqArgs r) 8 8 % 4096 = 0)
    (hq : freeSlot (s.func r.fn.val).queues = none) :
    exec (.jobQueueCreate r) s = .next (answered r m 0x20 .noResource 0 s) :=
  congrArg Host.Outcome.next (served_same h (queueReserved_eq_false_iff.mpr ⟨hz, hs, hc⟩) (by simp only [queues_takeRequest, hq]))

/-- A malformed request, and with a slot free a ring or a priority out of range, answers `E_INVALID`. -/
theorem exec_jobQueueCreate_of_unfit (h : Served false false false r m s)
    (hn : zeroFrom (reqArgs r) 21 = false ∨ ¬ arg (reqArgs r) 0 8 % 4096 = 0 ∨ ¬ arg (reqArgs r) 8 8 % 4096 = 0 ∨
      ((freeSlot (s.func r.fn.val).queues).isSome = true ∧ ¬ (QueueFits (reqArgs r) ∧ arg (reqArgs r) 20 1 ≤ 3))) :
    exec (.jobQueueCreate r) s = .next (answered r m 0x20 .invalid 0 s) := by
  refine congrArg Host.Outcome.next ?_
  cases hf : queueReserved (reqArgs r) with
  | true => exact served_faulty h hf
  | false =>
    obtain ⟨hz, hs, hc⟩ := queueReserved_eq_false_iff.mp hf
    have unfit := hn
    simp only [hz, hs, hc, Bool.true_eq_false, not_true_eq_false, false_or] at unfit
    obtain ⟨free, unfit⟩ := unfit
    obtain ⟨q, hq⟩ := Option.isSome_iff_exists.mp free
    have unsized : ¬ (ringSizeOk (queueOf (reqArgs r)).subEntries && ringSizeOk (queueOf (reqArgs r)).cmpEntries &&
        decide ((queueOf (reqArgs r)).priority ≤ 3)) = true := mt (queueSized_iff hf).mp unfit
    exact served_same h hf (by simp only [queues_takeRequest, hq, unsized, Bool.false_eq_true, if_false])

end

/-! ## GROUP_DEFINE (R314 to R317) -/

/-- A run of bytes holds a number of its length. -/
theorem ofLe_lt (l : List Byte) : ofLe l < 256 ^ l.length := by
  induction l with
  | nil => simp [ofLe]
  | cons b l ih =>
    have hb := b.isLt
    simp only [ofLe, List.length_cons, Nat.pow_succ]
    omega

/-- A field of the parameters is a number of its bytes. -/
theorem arg_lt (ps : List Byte) (o n : Nat) : arg ps o n < 256 ^ n :=
  (ofLe_lt _).trans_le (Nat.pow_le_pow_right (by omega) (by simp))

/-- The tag of a group is the one that its definition names. -/
theorem groupOf_tag (s : State) (ps : List Byte) (k : Nat) : (groupOf s ps k).tag.toNat = arg ps 0 4 := by
  have tag := arg_lt ps 0 4
  simp only [groupOf, BitVec.toNat_ofNat]
  omega

/-- The rank at which the device itself stands among the members (R315). -/
def ownRank (s : State) (ps : List Byte) : Option Nat :=
  (List.range (groupSize ps)).find? fun k => groupMember s ps k == s.self

/-- The parameters are a definition: its reserved bytes zero and its fields in range. -/
def GroupFormed (s : State) (ps : List Byte) : Prop :=
  zeroAt ps 18 2 = true ∧ zeroFrom ps 40 = true ∧ groupBad s ps = false

/-- The call's own test of the reserved bytes. -/
def groupReserved (ps : List Byte) : Bool := !zeroAt ps 18 2 || !zeroFrom ps 40

theorem groupFormed_iff {s : State} {ps : List Byte} : GroupFormed s ps ↔ groupReserved ps = false ∧ groupBad s ps = false := by
  simp [GroupFormed, groupReserved, and_assoc]

/-- A group defined anew keeps of the old one all but the spill area. -/
def respilled (ps : List Byte) (g : Group) : Group :=
  { g with spillAddr := arg ps 24 8, spillSize := if arg ps 24 8 = 0 then 0 else arg ps 32 8 }

/-- The members of a definition, and what is wrong with it, do not depend on the functions. -/
@[simp] theorem groupMember_takeRequest (ps : List Byte) (fn k : Nat) (s : State) :
    groupMember (takeRequest fn s) ps k = groupMember s ps k := by
  unfold groupMember
  rfl

/-- What is mapped is a matter of the channels alone. -/
theorem mappedRange_congr {s t : State} (h : t.channels = s.channels) (k a n : Nat) : mappedRange t k a n = mappedRange s k a n := by
  induction k generalizing a n with
  | zero => rfl
  | succ k ih =>
    unfold mappedRange State.chan
    simp only [h, ih]

theorem mapped_congr {s t : State} (h : t.channels = s.channels) (a n : Nat) : mapped t a n = mapped s a n :=
  mappedRange_congr h 130 a n

/-- What a score may declare is a matter of the channels and the loaded scores. -/
theorem memoryFree_congr {s t : State} (h : t.channels = s.channels) (hs : t.scores = s.scores) (a n : Nat) :
    memoryFree t a n = memoryFree s a n := by
  simp only [memoryFree, mapped_congr h, hs]

@[simp] theorem memoryFree_takeRequest (fn a n : Nat) (s : State) : memoryFree (takeRequest fn s) a n = memoryFree s a n := by
  rw [memoryFree_congr (s := s) (takeRequest_channels fn s) (takeRequest_scores fn s)]

@[simp] theorem dimOk_takeRequest (ps : List Byte) (fn : Nat) (s : State) : dimOk (takeRequest fn s) ps = dimOk s ps := by
  unfold dimOk
  rfl

@[simp] theorem groupBad_takeRequest (ps : List Byte) (fn : Nat) (s : State) : groupBad (takeRequest fn s) ps = groupBad s ps := by
  simp only [groupBad, dimOk_takeRequest, memoryFree_takeRequest]

@[simp] theorem groupOf_takeRequest (ps : List Byte) (fn k : Nat) (s : State) :
    groupOf (takeRequest fn s) ps k = groupOf s ps k := by
  unfold groupOf
  simp only [groupMember_takeRequest]

@[simp] theorem self_takeRequest (fn : Nat) (s : State) : (takeRequest fn s).self = s.self := rfl

section
variable {r : Request} {m : Mailbox} {s : State}

/-- The call's body on a definition that is formed and has the device as its member of rank `k`. -/
theorem groupDefine_of_formed {k : Nat} (fn : Nat) (hf : GroupFormed s (reqArgs r)) (hk : ownRank s (reqArgs r) = some k) :
    groupDefine (reqArgs r) (takeRequest fn s) =
      match groupSlot s (arg (reqArgs r) 0 4) with
      | some i =>
        match slotAt s.groups i with
        | some old =>
          if old.defn = (groupOf s (reqArgs r) k).defn then
            (takeRequest fn { s with groups := s.groups.set i (some (respilled (reqArgs r) old)) },
             .answer .ok (groupResult i (groupOf s (reqArgs r) k)))
          else (takeRequest fn s, .answer .state 0)
        | none => (takeRequest fn s, .answer .state 0)
      | none =>
        match freeSlot s.groups with
        | none => (takeRequest fn s, .answer .noResource 0)
        | some i => (takeRequest fn { s with groups := s.groups.set i (some (groupOf s (reqArgs r) k)) },
            .answer .ok (groupResult i (groupOf s (reqArgs r) k))) := by
  unfold ownRank at hk
  simp only [groupDefine, groupBad_takeRequest, hf.2.2, Bool.false_eq_true, if_false, groupMember_takeRequest, self_takeRequest, hk,
    groupOf_takeRequest, groupOf_tag, groupSlot_takeRequest, takeRequest_groups, updAt_const]
  rfl

/-- A request that the call does not refuse for its reserved bytes. -/
theorem GroupFormed.unreserved (hf : GroupFormed s (reqArgs r)) : groupReserved (reqArgs r) = false := (groupFormed_iff.mp hf).1

/-- A new group goes into the lowest free slot. -/
theorem exec_groupDefine_of_new {k i : Nat} (h : Served true false false r m s) (hf : GroupFormed s (reqArgs r))
    (hk : ownRank s (reqArgs r) = some k) (hg : groupSlot s (arg (reqArgs r) 0 4) = none) (hi : freeSlot s.groups = some i) :
    exec (.groupDefine r) s = .next (answered r m 0x60 .ok (groupResult i (groupOf s (reqArgs r) k))
      { s with groups := s.groups.set i (some (groupOf s (reqArgs r) k)) }) :=
  congrArg Host.Outcome.next (served_answer h hf.unreserved h.mailbox h.enabled
    (by rw [groupDefine_of_formed _ hf hk]; simp only [hg, hi]))

/-- Another definition of a tag is refused. -/
theorem exec_groupDefine_of_other {k i : Nat} {g : Group} (h : Served true false false r m s) (hf : GroupFormed s (reqArgs r))
    (hk : ownRank s (reqArgs r) = some k) (hg : groupSlot s (arg (reqArgs r) 0 4) = some i) (hi : slotAt s.groups i = some g)
    (hd : g.defn ≠ (groupOf s (reqArgs r) k).defn) :
    exec (.groupDefine r) s = .next (answered r m 0x60 .state 0 s) :=
  congrArg Host.Outcome.next (served_same h hf.unreserved
    (by rw [groupDefine_of_formed _ hf hk]; simp only [hg, hi, hd, if_false]))

/-- The same definition again takes the new spill area. -/
theorem exec_groupDefine_of_same {k i : Nat} {g : Group} (h : Served true false false r m s) (hf : GroupFormed s (reqArgs r))
    (hk : ownRank s (reqArgs r) = some k) (hg : groupSlot s (arg (reqArgs r) 0 4) = some i) (hi : slotAt s.groups i = some g)
    (hd : g.defn = (groupOf s (reqArgs r) k).defn) :
    exec (.groupDefine r) s = .next (answered r m 0x60 .ok (groupResult i (groupOf s (reqArgs r) k))
      { s with groups := s.groups.set i (some (respilled (reqArgs r) g)) }) :=
  congrArg Host.Outcome.next (served_answer h hf.unreserved h.mailbox h.enabled
    (by rw [groupDefine_of_formed _ hf hk]; simp only [hg, hi, hd, if_true]))

/-- With every slot in use the call answers `E_NO_RESOURCE`. -/
theorem exec_groupDefine_of_full {k : Nat} (h : Served true false false r m s) (hf : GroupFormed s (reqArgs r))
    (hk : ownRank s (reqArgs r) = some k) (hg : groupSlot s (arg (reqArgs r) 0 4) = none) (hi : freeSlot s.groups = none) :
    exec (.groupDefine r) s = .next (answered r m 0x60 .noResource 0 s) :=
  congrArg Host.Outcome.next (served_same h hf.unreserved (by rw [groupDefine_of_formed _ hf hk]; simp only [hg, hi]))

/-- A field out of range, or a definition that the device is no member of, answers `E_INVALID`. -/
theorem exec_groupDefine_of_unfit (h : Served true false false r m s)
    (hn : ¬ GroupFormed s (reqArgs r) ∨ ownRank s (reqArgs r) = none) :
    exec (.groupDefine r) s = .next (answered r m 0x60 .invalid 0 s) := by
  refine congrArg Host.Outcome.next ?_
  cases hz : groupReserved (reqArgs r) with
  | true => exact served_faulty h hz
  | false =>
    refine served_same h hz ?_
    cases hb : groupBad s (reqArgs r) with
    | true => simp only [groupDefine, groupBad_takeRequest, hb, if_true]
    | false =>
      have none : ownRank s (reqArgs r) = none := hn.resolve_left (not_not_intro (groupFormed_iff.mpr ⟨hz, hb⟩))
      unfold ownRank at none
      simp only [groupDefine, groupBad_takeRequest, hb, Bool.false_eq_true, if_false, groupMember_takeRequest, self_takeRequest, none]

end

/-- Settles O10: each call's answers above, case by case, and the fields of a group's definition. -/
theorem queuesAndGroupsAreMade : Obligations.QueuesAndGroupsAreMade := by
  unfold Obligations.QueuesAndGroupsAreMade
  exact ⟨
    fun _ _ _ h => ⟨fun _ => exec_jobQueueCreate_of_free h, exec_jobQueueCreate_of_full h, exec_jobQueueCreate_of_unfit h⟩,
    fun _ _ _ h => ⟨fun _ _ => exec_groupDefine_of_new h, fun _ _ _ => exec_groupDefine_of_other h,
      fun _ _ _ => exec_groupDefine_of_same h, fun _ => exec_groupDefine_of_full h, exec_groupDefine_of_unfit h⟩,
    fun s ps k => ⟨rfl, rfl, by simp [groupOf], rfl, rfl, rfl, rfl⟩⟩

end Sys2Proof.Machine
end

section
/-! PROOFS. SCORE_LOAD, CODEC_SESSION_OPEN and CODEC_SESSION_CLOSE (R97 to R101, R346 to R350): the loader's checks do not look at the
functions; what each call answers in each of its cases. -/
namespace Sys2Proof.Machine

/-! ## The loader does not look at the functions -/

section
variable (F : List Func) (n : Nat) (s : State)

theorem workDone_withCaller (acts : List Act) (r : Rehearsal) (k : Nat) :
    workDone (withCaller F n s) acts r k = workDone s acts r k := by
  induction k with
  | zero => rfl
  | succ k ih => funext p; simp only [workDone, ih]; rfl

theorem canComplete_withCaller (acts : List Act) (r : Rehearsal) :
    canComplete (withCaller F n s) acts r = canComplete s acts r := by
  funext p
  simp only [canComplete, workDone_withCaller]
  rfl

theorem move_withCaller (acts : List Act) (r : Rehearsal) :
    Rehearsal.move (withCaller F n s) acts r = Rehearsal.move s acts r := by
  simp only [Rehearsal.move, Rehearsal.completeOne, canComplete_withCaller]
  rfl

theorem run_withCaller (acts : List Act) (k : Nat) (r : Rehearsal) :
    Rehearsal.run (withCaller F n s) acts k r = Rehearsal.run s acts k r := by
  induction k generalizing r with
  | zero => rfl
  | succ k ih => simp only [Rehearsal.run, move_withCaller, ih]

theorem actsOf_withCaller (a : Nat) (ps : List Byte) (k : List Place) : actsOf (withCaller F n s) a ps k = actsOf s a ps k := by
  unfold actsOf; rfl

theorem rehearse_withCaller (a : Nat) (ps : List Byte) (k : List Place) (x y : Option Act) :
    rehearse (withCaller F n s) a ps k x y = rehearse s a ps k x y := by
  simp only [rehearse, actsOf_withCaller, run_withCaller]

theorem readRuns_withCaller : readRuns (withCaller F n s) = readRuns s := by
  funext known x
  unfold readRuns accessesOf; rfl

theorem writeRuns_withCaller : writeRuns (withCaller F n s) = writeRuns s := by
  funext known x
  unfold writeRuns accessesOf; rfl

theorem follows_withCaller : follows (withCaller F n s) = follows s := by
  funext a ps k x y
  simp only [follows, rehearse_withCaller]

theorem firesAfter_withCaller : firesAfter (withCaller F n s) = firesAfter s := by
  funext a ps k x y
  simp only [firesAfter, rehearse_withCaller]

theorem balanceFault_withCaller : balanceFault (withCaller F n s) = balanceFault s := by
  unfold balanceFault; rfl

theorem balanceCheck_withCaller (a : Nat) : balanceCheck (withCaller F n s) a = balanceCheck s a := by
  have c : kernelFault (withCaller F n s) = kernelFault s := by
    funext a e p
    simp only [kernelFault, balanceFault_withCaller, rehearse_withCaller]
  simp only [balanceCheck, balanceFault_withCaller, c]
  rfl

theorem formatsOf_withCaller : formatsOf (withCaller F n s) = formatsOf s := by
  unfold formatsOf; rfl

theorem tilesHold_withCaller : tilesHold (withCaller F n s) = tilesHold s := by
  unfold tilesHold; rfl

theorem firstUnmapped_withCaller (k a m : Nat) : firstUnmapped (withCaller F n s) k a m = firstUnmapped s k a m := by
  induction k generalizing a m with
  | zero => rfl
  | succ k ih => simp only [firstUnmapped, ih]; rfl

theorem memoryFree_withCaller : memoryFree (withCaller F n s) = memoryFree s :=
  funext₂ (memoryFree_congr rfl rfl)

theorem buffersCheck_withCaller (a : Nat) : buffersCheck (withCaller F n s) a = buffersCheck s a := by
  have fault : bufferFault (withCaller F n s) = bufferFault s := by
    funext a i
    simp only [bufferFault, memoryFree_withCaller, firstForbidden, firstUnmapped_withCaller]
    rfl
  simp only [buffersCheck, fault]
  rfl

theorem rattleFault_withCaller : rattleFault (withCaller F n s) = rattleFault s := by
  funext a z e k
  simp only [rattleFault, actsOf_withCaller, follows_withCaller, firesAfter_withCaller]
  rfl

theorem tilesCheck_withCaller (a : Nat) : tilesCheck (withCaller F n s) a = tilesCheck s a := by
  simp only [tilesCheck, rattleFault_withCaller]
  rfl

theorem livenessCheck_withCaller (a : Nat) : livenessCheck (withCaller F n s) a = livenessCheck s a := by
  have fault : staleFault (withCaller F n s) = staleFault s := by
    funext a z e k
    simp only [staleFault, actsOf_withCaller, follows_withCaller, readRuns_withCaller, writeRuns_withCaller]
    rfl
  simp only [livenessCheck, fault]
  rfl

theorem scatterOrderCheck_withCaller (a : Nat) : scatterOrderCheck (withCaller F n s) a = scatterOrderCheck s a := by
  have fault : scatterFault (withCaller F n s) = scatterFault s := by
    funext a z e k
    simp only [scatterFault, actsOf_withCaller, ordered, follows_withCaller, readRuns_withCaller, writeRuns_withCaller]
    rfl
  simp only [scatterOrderCheck, fault]
  rfl

theorem overlapCheck_withCaller (a : Nat) : overlapCheck (withCaller F n s) a = overlapCheck s a := by
  have fault : overlapFault (withCaller F n s) = overlapFault s := by
    funext a z e k
    simp only [overlapFault, actsOf_withCaller, clash, follows_withCaller, readRuns_withCaller, writeRuns_withCaller]
  simp only [overlapCheck, fault]
  rfl

theorem formatsCheck_withCaller (a : Nat) : formatsCheck (withCaller F n s) a = formatsCheck s a := by
  unfold formatsCheck
  rfl

theorem rangesCheck_withCaller (a : Nat) : rangesCheck (withCaller F n s) a = rangesCheck s a := by
  unfold rangesCheck
  rfl

theorem collBreakCheck_withCaller (a : Nat) : collBreakCheck (withCaller F n s) a = collBreakCheck s a := by
  unfold collBreakCheck
  rfl

theorem loadFault_withCaller (a k : Nat) : loadFault (withCaller F n s) a k = loadFault s a k := by
  simp only [loadFault, balanceCheck_withCaller, buffersCheck_withCaller, rangesCheck_withCaller, formatsCheck_withCaller,
    tilesCheck_withCaller, livenessCheck_withCaller, collBreakCheck_withCaller, scatterOrderCheck_withCaller,
    overlapCheck_withCaller]
  rfl

end

/-! ## SCORE_LOAD (R98, R99) -/

/-- The parameters name an aligned range that a score may lie in, and the rest is zero. -/
def ScoreLoads (s : State) (ps : List Byte) : Prop :=
  zeroFrom ps 16 = true ∧ arg ps 0 8 % 256 = 0 ∧ memoryFree s (arg ps 0 8) (arg ps 8 8) = true

/-- The call's own test of the range. -/
theorem scoreRange_ok {s : State} {ps : List Byte} :
    (!aligned (arg ps 0 8) 256 || !memoryFree s (arg ps 0 8) (arg ps 8 8)) = false ↔
      arg ps 0 8 % 256 = 0 ∧ memoryFree s (arg ps 0 8) (arg ps 8 8) = true := by
  simp [aligned]

section
variable {r : Request} {m : Mailbox} {s : State}

/-- The call's body on a range that a score may lie in. -/
theorem scoreLoadCall_of_loads (F : List Func) (n fn : Nat) (hl : ScoreLoads s (reqArgs r)) :
    scoreLoadCall fn (reqArgs r) (withCaller F n s) =
      match freeSlot s.scores with
      | none => (withCaller F n s, .answer .noResource 0)
      | some h =>
        match loadFault s (arg (reqArgs r) 0 8) (arg (reqArgs r) 8 8) with
        | some v => (withCaller F n s, .answer .verify v.number)
        | none => (withCaller F n { s with
            scores := s.scores.set h (some (scoreAt s fn (arg (reqArgs r) 0 8) (arg (reqArgs r) 8 8))) }, .answer .ok h) := by
  have range := scoreRange_ok.mpr hl.2
  simp only [scoreLoadCall, memoryFree_withCaller, range, Bool.false_eq_true, if_false, loadFault_withCaller, updAt_const]
  rfl

theorem ScoreLoads.unreserved (hl : ScoreLoads s (reqArgs r)) : (!zeroFrom (reqArgs r) 16) = false := by rw [hl.1]; rfl

/-- An image that fails no check is recorded at the lowest free handle. -/
theorem exec_scoreLoad_of_sound {h : Nat} (hs : Served false false false r m s) (hl : ScoreLoads s (reqArgs r))
    (hh : freeSlot s.scores = some h) (hv : loadFault s (arg (reqArgs r) 0 8) (arg (reqArgs r) 8 8) = none) :
    exec (.scoreLoad r) s = .next (answered r m 0x10 .ok h { s with
      scores := s.scores.set h (some (scoreAt s r.fn.val (arg (reqArgs r) 0 8) (arg (reqArgs r) 8 8))) }) :=
  congrArg Host.Outcome.next (served_device hs hl.unreserved rfl fun F n =>
    (scoreLoadCall_of_loads F n _ hl).trans (by simp only [hh, hv]; rfl))

/-- An image that fails a check is refused with the report of the lowest. -/
theorem exec_scoreLoad_of_fault {h : Nat} {v : VerifyReport} (hs : Served false false false r m s)
    (hl : ScoreLoads s (reqArgs r)) (hh : freeSlot s.scores = some h)
    (hv : loadFault s (arg (reqArgs r) 0 8) (arg (reqArgs r) 8 8) = some v) :
    exec (.scoreLoad r) s = .next (answered r m 0x10 .verify v.number s) :=
  congrArg Host.Outcome.next (served_device hs hl.unreserved rfl fun F n =>
    (scoreLoadCall_of_loads F n _ hl).trans (by simp only [hh, hv]; rfl))

/-- With every handle in use the call answers `E_NO_RESOURCE`. -/
theorem exec_scoreLoad_of_full (hs : Served false false false r m s) (hl : ScoreLoads s (reqArgs r))
    (hh : freeSlot s.scores = none) : exec (.scoreLoad r) s = .next (answered r m 0x10 .noResource 0 s) :=
  congrArg Host.Outcome.next (served_device hs hl.unreserved rfl fun F n =>
    (scoreLoadCall_of_loads F n _ hl).trans (by simp only [hh]; rfl))

/-- Another range answers `E_INVALID`. -/
theorem exec_scoreLoad_of_unfit (hs : Served false false false r m s) (hl : ¬ ScoreLoads s (reqArgs r)) :
    exec (.scoreLoad r) s = .next (answered r m 0x10 .invalid 0 s) := by
  refine congrArg Host.Outcome.next ?_
  cases hz : zeroFrom (reqArgs r) 16 with
  | false => exact served_faulty hs (by rw [hz]; rfl)
  | true =>
    have range := mt (fun h => ⟨hz, scoreRange_ok.mp h⟩) hl
    rw [Bool.not_eq_false] at range
    exact served_same hs (by rw [hz]; rfl) (by simp only [scoreLoadCall, memoryFree_takeRequest, range, if_true])

end

/-! ## CODEC_SESSION_OPEN (R346 to R348) -/

/-- The parameters are a session: reserved bytes zero, fields in range, and a context that may be used. -/
def SessionFormed (s : State) (fn : Nat) (ps : List Byte) : Prop :=
  zeroAt ps 19 1 = true ∧ zeroFrom ps 48 = true ∧ sessionFieldsOk ps = true ∧
    contextBad s (sessionOf fn ps).ctxAddr (sessionOf fn ps).ctxSize = false

/-- The bytes that the context of a session needs. -/
def sessionNeed (fn : Nat) (ps : List Byte) : Nat :=
  ctxNeeded (sessionOf fn ps).decode (sessionOf fn ps).codec (sessionOf fn ps).bitDepth (sessionOf fn ps).width
    (sessionOf fn ps).height (arg ps 15 1)

/-- The call's own test of the reserved bytes, and of the fields and the context. -/
def sessionReserved (ps : List Byte) : Bool := !zeroAt ps 19 1 || !zeroFrom ps 48

def sessionRefused (s : State) (fn : Nat) (ps : List Byte) : Bool :=
  !sessionFieldsOk ps || contextBad s (sessionOf fn ps).ctxAddr (sessionOf fn ps).ctxSize

theorem sessionFormed_iff {s : State} {fn : Nat} {ps : List Byte} :
    SessionFormed s fn ps ↔ sessionReserved ps = false ∧ sessionRefused s fn ps = false := by
  simp [SessionFormed, sessionReserved, sessionRefused, and_assoc]

@[simp] theorem contextBad_takeRequest (fn a n : Nat) (s : State) : contextBad (takeRequest fn s) a n = contextBad s a n := by
  simp only [contextBad, memoryFree_takeRequest]
  rfl

section
variable {r : Request} {m : Mailbox} {s : State}

/-- The call's body on a session that is formed. -/
theorem sessionOpen_of_formed (hf : SessionFormed s r.fn.val (reqArgs r)) :
    sessionOpen r.fn.val (reqArgs r) (takeRequest r.fn.val s) =
      match freeSlot s.codec.sessions with
      | none => (takeRequest r.fn.val s, .answer .noResource (packFields [(4, 0), (8, sessionNeed r.fn.val (reqArgs r))]))
      | some h =>
        if (sessionOf r.fn.val (reqArgs r)).ctxSize < sessionNeed r.fn.val (reqArgs r) then
          (takeRequest r.fn.val s, .answer .noResource (packFields [(4, 0), (8, sessionNeed r.fn.val (reqArgs r))]))
        else (takeRequest r.fn.val { s with codec := { s.codec with
            sessions := s.codec.sessions.set h (some (sessionOf r.fn.val (reqArgs r))) } },
          .answer .ok (packFields [(4, h), (8, sessionNeed r.fn.val (reqArgs r))])) := by
  have accepted := (sessionFormed_iff.mp hf).2
  unfold sessionRefused at accepted
  simp only [sessionOpen, contextBad_takeRequest, accepted, Bool.false_eq_true, if_false, takeRequest_codec, updAt_const]
  rfl

/-- The session goes into the lowest free slot. -/
theorem exec_codecSessionOpen_of_fits {h : Nat} (hs : Served false false false r m s)
    (hf : SessionFormed s r.fn.val (reqArgs r)) (hh : freeSlot s.codec.sessions = some h)
    (hn : sessionNeed r.fn.val (reqArgs r) ≤ (sessionOf r.fn.val (reqArgs r)).ctxSize) :
    exec (.codecSessionOpen r) s = .next (answered r m 0x70 .ok (packFields [(4, h), (8, sessionNeed r.fn.val (reqArgs r))])
      { s with codec := { s.codec with sessions := s.codec.sessions.set h (some (sessionOf r.fn.val (reqArgs r))) } }) :=
  congrArg Host.Outcome.next (served_answer hs (sessionFormed_iff.mp hf).1 hs.mailbox hs.enabled
    ((sessionOpen_of_formed hf).trans (by simp only [hh, if_neg (not_lt.mpr hn)])))

/-- No session free, or a context too small. -/
theorem exec_codecSessionOpen_of_full (hs : Served false false false r m s) (hf : SessionFormed s r.fn.val (reqArgs r))
    (hn : freeSlot s.codec.sessions = none ∨ (sessionOf r.fn.val (reqArgs r)).ctxSize < sessionNeed r.fn.val (reqArgs r)) :
    exec (.codecSessionOpen r) s =
      .next (answered r m 0x70 .noResource (packFields [(4, 0), (8, sessionNeed r.fn.val (reqArgs r))]) s) := by
  refine congrArg Host.Outcome.next (served_same hs (sessionFormed_iff.mp hf).1 ((sessionOpen_of_formed hf).trans ?_))
  cases hh : freeSlot s.codec.sessions with
  | none => rfl
  | some h => exact if_pos (hn.resolve_left (by rw [hh]; exact Option.some_ne_none h))

/-- A field or a context out of order. -/
theorem exec_codecSessionOpen_of_unfit (hs : Served false false false r m s) (hf : ¬ SessionFormed s r.fn.val (reqArgs r)) :
    exec (.codecSessionOpen r) s = .next (answered r m 0x70 .invalid 0 s) := by
  refine congrArg Host.Outcome.next ?_
  cases hz : sessionReserved (reqArgs r) with
  | true => exact served_faulty hs hz
  | false =>
    have refused := mt (fun h => sessionFormed_iff.mpr ⟨hz, h⟩) hf
    rw [Bool.not_eq_false, sessionRefused] at refused
    exact served_same hs hz (by simp only [sessionOpen, contextBad_takeRequest, refused, if_true])

end

/-! ## CODEC_SESSION_CLOSE (R349, R350) -/

/-- A job that has not ended names the session. -/
def sessionNamed (s : State) (h : Nat) : Prop := ∃ j ∈ s.sched.jobs, j.stage ≠ .recorded ∧ namesSession s j h = true

/-- The call's own test for a job that names the session. -/
theorem sessionNamed_iff {s : State} {h : Nat} :
    (s.sched.jobs.any fun j => !(j.stage == .recorded) && namesSession s j h) = true ↔ sessionNamed s h := by
  simp [sessionNamed]

@[simp] theorem namesSession_takeRequest (fn h : Nat) (j : Job) (s : State) :
    namesSession (takeRequest fn s) j h = namesSession s j h := by
  unfold namesSession
  rfl

@[simp] theorem session_takeRequest (fn h : Nat) (s : State) : (takeRequest fn s).session h = s.session h := rfl

section
variable {r : Request} {m : Mailbox} {s : State} {y : Session}

/-- A session of the caller that no live job names is closed. -/
theorem exec_codecSessionClose_of_unnamed (h : Served false false false r m s) (hz : zeroFrom (reqArgs r) 1 = true)
    (hy : s.session (arg (reqArgs r) 0 1) = some y) (hfn : y.fn = r.fn.val) (hn : ¬ sessionNamed s (arg (reqArgs r) 0 1)) :
    exec (.codecSessionClose r) s = .next (answered r m 0x71 .ok 0 (closeSession (arg (reqArgs r) 0 1) s)) := by
  rw [← sessionNamed_iff] at hn
  refine congrArg Host.Outcome.next (served_answer h (by simp [hz]) h.mailbox h.enabled ?_)
  simp only [session_takeRequest, hy, Option.map_some, hfn, beq_self_eq_true, Bool.not_true, Bool.false_eq_true, if_false,
    takeRequest_sched, namesSession_takeRequest, hn]
  rfl

/-- One that such a job names stays. -/
theorem exec_codecSessionClose_of_named (h : Served false false false r m s) (hz : zeroFrom (reqArgs r) 1 = true)
    (hy : s.session (arg (reqArgs r) 0 1) = some y) (hfn : y.fn = r.fn.val) (hn : sessionNamed s (arg (reqArgs r) 0 1)) :
    exec (.codecSessionClose r) s = .next (answered r m 0x71 .busy 0 s) := by
  rw [← sessionNamed_iff] at hn
  refine congrArg Host.Outcome.next (served_same h (by simp [hz]) ?_)
  simp only [session_takeRequest, hy, Option.map_some, hfn, beq_self_eq_true, Bool.not_true, Bool.false_eq_true, if_false,
    takeRequest_sched, namesSession_takeRequest, hn, if_true]

/-- A handle that the caller does not hold answers `E_INVALID`. -/
theorem exec_codecSessionClose_of_foreign (h : Served false false false r m s) (hz : zeroFrom (reqArgs r) 1 = true)
    (hy : (s.session (arg (reqArgs r) 0 1)).map (·.fn) ≠ some r.fn.val) :
    exec (.codecSessionClose r) s = .next (answered r m 0x71 .invalid 0 s) :=
  congrArg Host.Outcome.next (served_same h (by simp [hz])
    (by simp only [session_takeRequest, beq_false_of_ne hy, Bool.not_false, if_true]))

end

/-- Settles O11: each call's answers above, case by case. -/
theorem scoresLoadAndSessionsOpen : Obligations.ScoresLoadAndSessionsOpen := by
  unfold Obligations.ScoresLoadAndSessionsOpen
  refine ⟨
    fun _ _ _ h => ⟨fun _ => exec_scoreLoad_of_sound h, fun _ _ => exec_scoreLoad_of_fault h, exec_scoreLoad_of_full h,
      exec_scoreLoad_of_unfit h⟩,
    fun _ _ _ h => ⟨fun _ => exec_codecSessionOpen_of_fits h, exec_codecSessionOpen_of_full h, exec_codecSessionOpen_of_unfit h⟩,
    fun r m s h => ⟨fun y hz hy hfn hn => ?close, fun _ => exec_codecSessionClose_of_named h, fun y hz hy hfn => ?foreign,
      fun hz hy => ?free⟩⟩
  case close =>
    rw [exec_codecSessionClose_of_unnamed h hz hy hfn hn, closeSession, updAt_none]
  case foreign => exact exec_codecSessionClose_of_foreign h hz (by rw [hy]; simpa using hfn)
  case free => exact exec_codecSessionClose_of_foreign h hz (by rw [hy]; simp)

end Sys2Proof.Machine
end

section
/-! PROOFS. Staged settings (R425 to R427), and the loads of tables and of the resident image (R185, R190 to R192, R259 to R261, R415):
what each call answers, or leaves to wait. -/
namespace Sys2Proof.Machine

/-! ## STAGE_CHECK, STAGE_COMMIT and STAGE_DISCARD (R425, R426) -/

/-- `FLAGS` with bit 0 alone, and zero after it. -/
def FlagsFormed (ps : List Byte) : Prop := arg ps 0 1 ≤ 1 ∧ zeroFrom ps 1 = true

theorem drainBad_eq_false {ps : List Byte} (h : FlagsFormed ps) : drainBad ps = false := by
  have := h.1
  simp only [drainBad, h.2, Bool.not_true, Bool.or_false, decide_eq_false_iff_not]
  omega

/-- Bit 0 of a field that holds nothing else. -/
theorem natBit_zero_of_le {n : Nat} (h : n ≤ 1) : natBit n 0 = decide (n = 1) := by
  obtain rfl | rfl := Nat.le_one_iff_eq_zero_or_eq_one.mp h <;> rfl

@[simp] theorem stageFault_takeRequest (fn : Nat) (drain : Bool) (s : State) :
    stageFault (takeRequest fn s) drain = stageFault s drain := by
  unfold stageFault
  rfl

/-- A setting staged by a call whose request is taken. -/
theorem takeRequest_with_staged {r : Request} {m : Mailbox} {s : State} (x : Staged) (hm : s.mailbox r.fn.val = some m) :
    { takeRequest r.fn.val s with staged := x } = { awaiting r m s with staged := x } := by
  rw [takeRequest_eq_awaiting hm]

section
variable {r : Request} {m : Mailbox} {s : State}

/-- What STAGE_CHECK and STAGE_COMMIT look for. -/
theorem stageFault_of_flags (hf : FlagsFormed (reqArgs r)) (fn : Nat) :
    stageFault (takeRequest fn s) (natBit (arg (reqArgs r) 0 1) 0) = stageFault s (arg (reqArgs r) 0 1 = 1) := by
  rw [stageFault_takeRequest, natBit_zero_of_le hf.1]

theorem exec_stageCheck_of_sound (h : Served true false false r m s) (hf : FlagsFormed (reqArgs r))
    (hs : stageFault s (arg (reqArgs r) 0 1 = 1) = none) : exec (.stageCheck r) s = .next (answered r m 0x31 .ok 0 s) :=
  congrArg Host.Outcome.next (served_same h (drainBad_eq_false hf) (by simp only [stageFault_of_flags hf, hs]))

theorem exec_stageCheck_of_fault {f : StageFault} (h : Served true false false r m s) (hf : FlagsFormed (reqArgs r))
    (hs : stageFault s (arg (reqArgs r) 0 1 = 1) = some f) :
    exec (.stageCheck r) s = .next (answered r m 0x31 .consistency f.number s) :=
  congrArg Host.Outcome.next (served_same h (drainBad_eq_false hf) (by simp only [stageFault_of_flags hf, hs]))

/-- A commit without conflict waits for its downbeat. -/
theorem exec_stageCommit_of_sound (h : Served true false false r m s) (hf : FlagsFormed (reqArgs r))
    (hs : stageFault s (arg (reqArgs r) 0 1 = 1) = none) (hc : s.staged.commit = none) :
    exec (.stageCommit r) s = .next (settle (nextTurn { awaiting r m s with
      staged := { s.staged with commit := some { tag := r.tag, drain := arg (reqArgs r) 0 1 = 1 } } })) := by
  refine congrArg (Host.Outcome.next ∘ settle) (served_later h (drainBad_eq_false hf) ?_)
  simp only [← takeRequest_eq_awaiting h.mailbox, natBit_zero_of_le hf.1, stageFault_takeRequest, hs, takeRequest_staged, hc,
    Option.isSome_none, Bool.false_eq_true, if_false]

theorem exec_stageCommit_of_fault {f : StageFault} (h : Served true false false r m s) (hf : FlagsFormed (reqArgs r))
    (hs : stageFault s (arg (reqArgs r) 0 1 = 1) = some f) :
    exec (.stageCommit r) s = .next (settle (answered r m 0x32 .consistency f.number s)) :=
  congrArg (Host.Outcome.next ∘ settle) (served_same h (drainBad_eq_false hf) (by simp only [stageFault_of_flags hf, hs]))

theorem exec_stageCommit_of_waiting (h : Served true false false r m s) (hf : FlagsFormed (reqArgs r))
    (hs : stageFault s (arg (reqArgs r) 0 1 = 1) = none) (hc : s.staged.commit.isSome = true) :
    exec (.stageCommit r) s = .next (settle (answered r m 0x32 .busy 0 s)) :=
  congrArg (Host.Outcome.next ∘ settle) (served_same h (drainBad_eq_false hf)
    (by simp only [stageFault_of_flags hf, hs, takeRequest_staged, hc, if_true]))

/-- With no commit waiting the pending set alone is emptied. -/
theorem exec_stageDiscard_of_none (h : Served true false false r m s) (hz : zeroFrom (reqArgs r) 0 = true)
    (hc : s.staged.commit = none) :
    exec (.stageDiscard r) s = .next (settle (answered r m 0x33 .ok 0 { s with staged := { s.staged with pending := [] } })) := by
  refine congrArg (Host.Outcome.next ∘ settle) (served_answer h (by simp [hz]) h.mailbox h.enabled ?_)
  simp only [discardStaged, takeRequest_staged, hc]
  rfl

/-- A commit that waits responds before the call does. -/
theorem exec_stageDiscard_of_commit {c : Commit} (h : Served true false false r m s) (hz : zeroFrom (reqArgs r) 0 = true)
    (hc : s.staged.commit = some c) :
    exec (.stageDiscard r) s = .next (settle (nextTurn (respond 0 r.tag 0x33 .ok 0 (respond 0 c.tag 0x32 .state 0
      { awaiting r m s with staged := { s.staged with pending := [], commit := none } })))) := by
  have pf : r.fn.val = 0 := h.client rfl
  refine congrArg (Host.Outcome.next ∘ settle)
    ((serveCall_answer h.mayTake h.formed (by simp [hz]) h.client ?serves rfl).trans ?answer)
  case serves =>
    rcases h.firmware with ready | ⟨bare, -⟩
    · exact Or.inr ready
    · exact Or.inl bare
  case answer =>
    rw [← takeRequest_with_staged _ h.mailbox]
    simp only [discardStaged, takeRequest_staged, hc, pf]

end

/-- Settles O14: each call's answers above, case by case. -/
theorem settingsAreStaged : Obligations.SettingsAreStaged := by
  unfold Obligations.SettingsAreStaged
  exact fun _ _ _ h => ⟨exec_stageCheck_of_sound h, fun _ => exec_stageCheck_of_fault h, exec_stageCommit_of_sound h,
    fun _ => exec_stageCommit_of_fault h, exec_stageCommit_of_waiting h, exec_stageDiscard_of_none h,
    fun _ => exec_stageDiscard_of_commit h⟩

/-! ## TABLE_LOAD (R185, R190 to R192) -/

/-- An entry that is there, changed. -/
theorem updAt_of_getElem? {α : Type} {l : List α} {i : Nat} {x : α} (h : l[i]? = some x) (f : α → α) :
    updAt l i f = l.set i (f x) := by
  obtain ⟨bound, rfl⟩ := List.getElem?_eq_some_iff.mp h
  exact updAt_set l i f bound

@[simp] theorem mapped_takeRequest (fn a n : Nat) (s : State) : mapped (takeRequest fn s) a n = mapped s a n :=
  mapped_congr (takeRequest_channels fn s) a n

@[simp] theorem tableImageOf_takeRequest (fn id a : Nat) (s : State) :
    tableImageOf (takeRequest fn s) id a = tableImageOf s id a := by
  simp only [tableImageOf, mapped_takeRequest, takeRequest_mem]

@[simp] theorem heldElsewhere_takeRequest (fn slot id : Nat) (s : State) :
    heldElsewhere (takeRequest fn s) slot id = heldElsewhere s slot id := by
  simp only [heldElsewhere, takeRequest_tables]

@[simp] theorem scoreAddr_takeRequest (fn : Nat) (j : Job) (s : State) : (takeRequest fn s).scoreAddr j = s.scoreAddr j := by
  simp only [State.scoreAddr, score_takeRequest]

/-- The parameters of TABLE_LOAD: a flag, and zeros where nothing stands. -/
def TableFormed (ps : List Byte) : Prop := arg ps 2 2 ≤ 1 ∧ zeroAt ps 4 4 = true ∧ zeroFrom ps 16 = true

/-- The call's own test of its parameters. -/
theorem tableBad_eq_false {ps : List Byte} (h : TableFormed ps) :
    (decide (2 ≤ arg ps 2 2) || !zeroAt ps 4 4 || !zeroFrom ps 16) = false := by
  obtain ⟨flag, gap, rest⟩ := h
  simp only [gap, rest, Bool.not_true, Bool.or_false, decide_eq_false_iff_not]
  omega

/-- A loaded score names table `i` (R192). -/
def TableNamed (s : State) (i : Nat) : Prop := (scoreWhere s fun x => usesTable s.mem x i).isSome = true

/-- An active job uses table `i` (R191). -/
def TableInUse (s : State) (i : Nat) : Prop := ∃ j ∈ s.sched.jobs, j.active = true ∧ usesTable s.mem (s.scoreAddr j) i = true

/-- The table that a load puts beside the one in force, and its slot. -/
def tableLoadOf (r : Request) (image : Option TableImage) : TableLoad :=
  { fn := r.fn.val, tag := r.tag, image := image, drain := arg (reqArgs r) 2 2 = 1 }

/-- The ID of what stands in force in a slot, 0 for an empty one. -/
def TableSlot.curId (t : TableSlot) : Nat := (t.cur.map (·.id)).getD 0

/-- The call's own search for an active job that uses the table. -/
theorem any_active_usesTable (s : State) (i : Nat) :
    (s.sched.jobs.any fun j => j.active && usesTable s.mem (s.scoreAddr j) i) = true ↔ TableInUse s i := by
  simp only [List.any_eq_true, Bool.and_eq_true, TableInUse]

section
variable {r : Request} {m : Mailbox} {s : State} {t : TableSlot} {image : Option TableImage}

/-- A slot and an image that are there, and no other slot holds the ID: what TABLE_LOAD asks in turn. -/
structure TableNames (r : Request) (s : State) (t : TableSlot) (image : Option TableImage) : Prop where
  formed : TableFormed (reqArgs r)
  slot : s.tables[arg (reqArgs r) 0 1]? = some t
  image : tableImageOf s (arg (reqArgs r) 1 1) (arg (reqArgs r) 8 8) = some image

/-- The ID that stands in the slot is not taken away from a loaded score. -/
def TableSpared (r : Request) (s : State) (t : TableSlot) : Prop :=
  t.curId = 0 ∨ arg (reqArgs r) 1 1 = t.curId ∨ ¬ TableNamed s t.curId

/-- No job uses what stands in the slot, or the call says to drain. -/
def TableFree (r : Request) (s : State) (t : TableSlot) : Prop :=
  arg (reqArgs r) 2 2 = 1 ∨ t.curId = 0 ∨ ¬ TableInUse s t.curId

/-- The call's test of a loaded score that would lose its table. -/
def tableTaken (r : Request) (s : State) (t : TableSlot) : Bool :=
  !(t.curId == 0) && !(arg (reqArgs r) 1 1 == t.curId) && (scoreWhere s fun x => usesTable s.mem x t.curId).isSome

theorem tableTaken_iff (r : Request) (s : State) (t : TableSlot) :
    tableTaken r s t = true ↔
      ¬ TableSpared r s t := by
  simp only [tableTaken, TableSpared, TableNamed, Bool.and_eq_true, Bool.not_eq_true', beq_eq_false_iff_ne, ne_eq, not_or, not_not, and_assoc]

/-- The call's test of a slot in use. -/
def tableBusy (r : Request) (s : State) (t : TableSlot) : Bool :=
  t.load.isSome || (!natBit (arg (reqArgs r) 2 2) 0 && !(t.curId == 0) &&
    s.sched.jobs.any fun j => j.active && usesTable s.mem (s.scoreAddr j) t.curId)

theorem tableBusy_iff (s : State) (hf : TableFormed (reqArgs r)) (t : TableSlot) :
    tableBusy r s t = true ↔ t.load.isSome = true ∨ ¬ TableFree r s t := by
  simp only [tableBusy, natBit_zero_of_le hf.1, Bool.or_eq_true, Bool.and_eq_true, any_active_usesTable, Bool.not_eq_true', decide_eq_false_iff_not,
    beq_eq_false_iff_ne, ne_eq, TableFree, not_or, not_not, and_assoc]

/-- What TABLE_LOAD asks of a named slot and image, in the order in which it asks. -/
theorem tableCall_of_names (h : TableNames r s t image) (fn : Nat) :
    tableCall r (reqArgs r) (takeRequest fn s) =
      if heldElsewhere s (arg (reqArgs r) 0 1) (arg (reqArgs r) 1 1) then (takeRequest fn s, .answer .invalid 0)
      else if tableTaken r s t = true then
        (takeRequest fn s, .answer .consistency 0)
      else if tableBusy r s t = true then
        (takeRequest fn s, .answer .busy 0)
      else if image.map (·.digest) = t.cur.map (·.digest) then
        (takeRequest fn s, .answer .ok ((image.map fun x => digestHead x.digest).getD 0))
      else ({ takeRequest fn s with
        tables := s.tables.set (arg (reqArgs r) 0 1) { t with load := some (tableLoadOf r image) } }, .later) := by
  simp only [tableCall, takeRequest_tables, h.slot, tableImageOf_takeRequest, h.image, heldElsewhere_takeRequest, scoreWhere_takeRequest,
    takeRequest_mem, takeRequest_sched, scoreAddr_takeRequest, natBit_zero_of_le h.formed.1, updAt_of_getElem? h.slot,
    tableTaken, tableBusy, tableLoadOf, TableSlot.curId, Bool.and_assoc]

theorem exec_tableLoad_of_held (h : Served true false false r m s) (hn : TableNames r s t image)
    (hh : heldElsewhere s (arg (reqArgs r) 0 1) (arg (reqArgs r) 1 1) = true) :
    exec (.tableLoad r) s = .next (settle (answered r m 0x40 .invalid 0 s)) :=
  congrArg (Host.Outcome.next ∘ settle) (served_same h (tableBad_eq_false hn.formed) (by simp only [tableCall_of_names hn, hh, if_true]))

theorem exec_tableLoad_of_taken (h : Served true false false r m s) (hn : TableNames r s t image)
    (hh : heldElsewhere s (arg (reqArgs r) 0 1) (arg (reqArgs r) 1 1) = false) (hs : ¬ TableSpared r s t) :
    exec (.tableLoad r) s = .next (settle (answered r m 0x40 .consistency 0 s)) :=
  congrArg (Host.Outcome.next ∘ settle) (served_same h (tableBad_eq_false hn.formed)
    (by simp only [tableCall_of_names hn, hh, tableTaken_iff, hs, not_false_eq_true, Bool.false_eq_true, if_false, if_true]))

theorem exec_tableLoad_of_busy (h : Served true false false r m s) (hn : TableNames r s t image)
    (hh : heldElsewhere s (arg (reqArgs r) 0 1) (arg (reqArgs r) 1 1) = false) (hs : TableSpared r s t)
    (hb : t.load.isSome = true ∨ ¬ TableFree r s t) :
    exec (.tableLoad r) s = .next (settle (answered r m 0x40 .busy 0 s)) :=
  congrArg (Host.Outcome.next ∘ settle) (served_same h (tableBad_eq_false hn.formed)
    (by simp only [tableCall_of_names hn, hh, tableTaken_iff, hs, tableBusy_iff s hn.formed, hb, not_true_eq_false, Bool.false_eq_true,
          if_false, if_true]))

theorem exec_tableLoad_of_same {i : TableImage} (h : Served true false false r m s) (hn : TableNames r s t (some i))
    (hh : heldElsewhere s (arg (reqArgs r) 0 1) (arg (reqArgs r) 1 1) = false) (hs : TableSpared r s t)
    (hl : t.load = none) (hf : TableFree r s t) (hc : t.cur = some i) :
    exec (.tableLoad r) s = .next (settle (answered r m 0x40 .ok (digestHead i.digest) s)) :=
  congrArg (Host.Outcome.next ∘ settle) (served_same h (tableBad_eq_false hn.formed)
    (by simp only [tableCall_of_names hn, hh, tableTaken_iff, hs, tableBusy_iff s hn.formed, hl, hf, hc, Option.map_some, Option.getD_some,
          Option.isSome_none, not_true_eq_false, or_self, Bool.false_eq_true, if_false, if_true]))

/-- A load that nothing refuses waits for its downbeat. -/
theorem exec_tableLoad_of_free (h : Served true false false r m s) (hn : TableNames r s t image)
    (hh : heldElsewhere s (arg (reqArgs r) 0 1) (arg (reqArgs r) 1 1) = false) (hs : TableSpared r s t)
    (hl : t.load = none) (hf : TableFree r s t) (hd : image.map (·.digest) ≠ t.cur.map (·.digest)) :
    exec (.tableLoad r) s = .next (settle (nextTurn { awaiting r m s with
      tables := s.tables.set (arg (reqArgs r) 0 1) { t with load := some (tableLoadOf r image) } })) := by
  refine congrArg (Host.Outcome.next ∘ settle) (served_later h (tableBad_eq_false hn.formed) ?_)
  simp only [← takeRequest_eq_awaiting h.mailbox, tableCall_of_names hn, hh, tableTaken_iff, hs, tableBusy_iff s hn.formed, hl, hf, hd,
    Option.isSome_none, not_true_eq_false, or_self, Bool.false_eq_true, if_false]

end

/-! ## RESIDENT_LOAD (R259, R260, R415) -/

@[simp] theorem residentHeaderOk_takeRequest (fn a n : Nat) (s : State) :
    residentHeaderOk (takeRequest fn s) a n = residentHeaderOk s a n := by
  simp only [residentHeaderOk, takeRequest_mem, takeRequest_fuses]

/-- A request whose image keeps R259. -/
structure ResidentFits (s : State) (ps : List Byte) : Prop where
  rest : zeroFrom ps 16 = true
  aligned : arg ps 0 8 % 256 = 0
  size : 1024 ≤ arg ps 8 8
  free : memoryFree s (arg ps 0 8) (arg ps 8 8) = true
  header : residentHeaderOk s (arg ps 0 8) (arg ps 8 8) = true

/-- The image that a request names, as it stands. -/
def residentImageOf (s : State) (ps : List Byte) : ResidentImage :=
  { addr := arg ps 0 8, size := arg ps 8 8, digest := shake256 (s.mem.readBytes (arg ps 0 8) (arg ps 8 8)),
    bounds := imageBounds s.mem (arg ps 0 8) }

section
variable {r : Request} {m : Mailbox} {s : State}

/-- What RESIDENT_LOAD asks once its image keeps R259. -/
theorem residentCall_of_fits (h : ResidentFits s (reqArgs r)) (fn : Nat) :
    residentCall r (reqArgs r) (takeRequest fn s) =
      if s.resident.load.isSome then (takeRequest fn s, .answer .busy 0)
      else if (decide (s.preempt.swap = 0) && s.sched.jobs.any Job.active) = true then (takeRequest fn s, .answer .state 0)
      else ({ takeRequest fn s with resident := { s.resident with
        load := some { fn := r.fn.val, tag := r.tag, image := residentImageOf s (reqArgs r) } } }, .later) := by
  obtain ⟨-, aligned, size, free, header⟩ := h
  have small : ¬ arg (reqArgs r) 8 8 < 1024 := by omega
  simp only [residentCall, Machine.aligned, aligned, beq_self_eq_true, small, memoryFree_takeRequest, free, residentHeaderOk_takeRequest,
    header, takeRequest_resident, takeRequest_preempt, takeRequest_sched, takeRequest_mem, Bool.not_true, decide_false, Bool.or_self,
    Bool.false_eq_true, if_false]
  rfl

theorem residentBad_eq_false (h : ResidentFits s (reqArgs r)) : (!zeroFrom (reqArgs r) 16) = false := by rw [h.rest]; rfl

/-- An image that nothing refuses waits to be copied. -/
theorem exec_residentLoad_of_free (h : Served true false false r m s) (hf : ResidentFits s (reqArgs r)) (hl : s.resident.load = none)
    (hj : s.preempt.swap ≠ 0 ∨ s.sched.jobs = []) :
    exec (.residentLoad r) s = .next (settle (nextTurn { awaiting r m s with resident := { s.resident with
      load := some { fn := r.fn.val, tag := r.tag, image := residentImageOf s (reqArgs r) } } })) := by
  have idle : (decide (s.preempt.swap = 0) && s.sched.jobs.any Job.active) = false := by
    rcases hj with swap | none
    · simp only [swap, decide_false, Bool.false_and]
    · simp only [none, List.any_nil, Bool.and_false]
  refine congrArg (Host.Outcome.next ∘ settle) (served_later h (residentBad_eq_false hf) ?_)
  simp only [← takeRequest_eq_awaiting h.mailbox, residentCall_of_fits hf, hl, idle, Option.isSome_none, Bool.false_eq_true, if_false]

theorem exec_residentLoad_of_waiting (h : Served true false false r m s) (hf : ResidentFits s (reqArgs r))
    (hl : s.resident.load.isSome = true) :
    exec (.residentLoad r) s = .next (settle (answered r m 0x12 .busy 0 s)) :=
  congrArg (Host.Outcome.next ∘ settle) (served_same h (residentBad_eq_false hf) (by simp only [residentCall_of_fits hf, hl, if_true]))

theorem exec_residentLoad_of_never (h : Served true false false r m s) (hf : ResidentFits s (reqArgs r)) (hl : s.resident.load = none)
    (hp : s.preempt.swap = 0) (hj : ∃ j ∈ s.sched.jobs, j.stage ≠ .queued) :
    exec (.residentLoad r) s = .next (settle (answered r m 0x12 .state 0 s)) := by
  have active : (decide (s.preempt.swap = 0) && s.sched.jobs.any Job.active) = true := by
    simpa [hp, Job.active] using hj
  exact congrArg (Host.Outcome.next ∘ settle) (served_same h (residentBad_eq_false hf)
    (by simp only [residentCall_of_fits hf, hl, active, Option.isSome_none, Bool.false_eq_true, if_false, if_true]))

end

/-- Settles O15: what the two loads ask in turn, at each of the answers. -/
theorem imageLoadsWait : Obligations.ImageLoadsWait := by
  unfold Obligations.ImageLoadsWait
  intro r m s h
  have notActive {t : TableSlot} (none : s.sched.jobs = []) : TableFree r s t :=
    Or.inr (Or.inr fun ⟨j, hj, _⟩ => by simp [none] at hj)
  refine ⟨?empty, ?change, ?taken, ?busy, ?same, ?held, ?resident, ?waiting, ?never⟩
  case empty =>
    intro t i hf ht hc hl hi hh
    have id : t.curId = 0 := by simp [TableSlot.curId, hc]
    exact exec_tableLoad_of_free h ⟨hf, ht, hi⟩ hh (Or.inl id) hl (Or.inr (Or.inl id)) (by simp [hc])
  case change =>
    intro t c image hf ht hc hl hi hh hd hs hu
    have id : t.curId = c.id := by simp [TableSlot.curId, hc]
    exact exec_tableLoad_of_free h ⟨hf, ht, hi⟩ hh (Or.inr (id ▸ hs)) hl (hu.imp_right (Or.inr <| id ▸ ·)) (by simpa [hc] using hd)
  case taken =>
    intro t c image hf ht hc h0 hi hh hd hs
    have id : t.curId = c.id := by simp [TableSlot.curId, hc]
    exact exec_tableLoad_of_taken h ⟨hf, ht, hi⟩ hh (by rw [TableSpared, id]; exact fun spared => spared.elim h0 (·.elim hd (· hs)))
  case busy =>
    intro t c image hf ht hc h0 hi hh hs hb
    have id : t.curId = c.id := by simp [TableSlot.curId, hc]
    refine exec_tableLoad_of_busy h ⟨hf, ht, hi⟩ hh (Or.inr (id ▸ hs)) (hb.imp_right ?_)
    rintro ⟨flag, used⟩ (drain | zero | free)
    · omega
    · exact h0 (id ▸ zero)
    · exact free (id ▸ used)
  case same =>
    intro t i hf ht hc hl h0 he hi hh hd
    have id : t.curId = i.id := by simp [TableSlot.curId, hc]
    exact exec_tableLoad_of_same h ⟨hf, ht, hi⟩ hh (Or.inr (Or.inl (by rw [id, he]))) hl (hd.elim Or.inl notActive) hc
  case held => exact fun t i hf ht hi hh => exec_tableLoad_of_held h ⟨hf, ht, hi⟩ hh
  case resident => exact fun ⟨hz, ha, hn, hm, hh⟩ => exec_residentLoad_of_free h ⟨hz, ha, hn, hm, hh⟩
  case waiting => exact fun ⟨hz, ha, hn, hm, hh⟩ => exec_residentLoad_of_waiting h ⟨hz, ha, hn, hm, hh⟩
  case never => exact fun ⟨hz, ha, hn, hm, hh⟩ => exec_residentLoad_of_never h ⟨hz, ha, hn, hm, hh⟩

end Sys2Proof.Machine
end

section
/-! PROOFS. Tests that begin (R490, R492, R493), and firmware that is staged, activated and counted (R498, R499, R501, R503). -/
namespace Sys2Proof.Machine

/-! ## SELFTEST and CALIBRATE -/

@[simp] theorem chanIdle_takeRequest (fn : Nat) (s : State) : chanIdle (takeRequest fn s) = chanIdle s := by
  funext i
  simp only [chanIdle, State.chan, takeRequest_channels]

@[simp] theorem coreIdle_takeRequest (fn : Nat) (s : State) : coreIdle (takeRequest fn s) = coreIdle s := by
  funext i
  simp only [coreIdle, holdsCores, scoreAddr_takeRequest, takeRequest_sched, takeRequest_fuses, takeRequest_mem]

@[simp] theorem targetIdle_takeRequest (fn : Nat) (s : State) (calibrate : Bool) (target : Nat) :
    targetIdle (takeRequest fn s) calibrate target = targetIdle s calibrate target := by
  funext i
  simp only [targetIdle, coreIdle_takeRequest, chanIdle_takeRequest, State.port, takeRequest_fabric, takeRequest_codec]

@[simp] theorem neverIdle_takeRequest (fn : Nat) (s : State) (calibrate : Bool) (target : Nat) :
    neverIdle (takeRequest fn s) calibrate target = neverIdle s calibrate target := by
  funext i
  simp only [neverIdle, chanIdle_takeRequest, State.port, takeRequest_fabric]

/-- The row that a test's call names. -/
def testOf (calibrate : Bool) (r : Request) : Test :=
  { fn := r.fn.val, tag := r.tag, calibrate := calibrate, target := arg (reqArgs r) 0 1,
    mask := BitVec.ofNat 256 (arg (reqArgs r) 8 (if calibrate then 4 else 32)), running := false }

/-- The two commands of a test. -/
def testInstr (calibrate : Bool) (r : Request) : Instr := if calibrate then .calibrate r else .selftest r

/-- The opcode of each. -/
def testOp (calibrate : Bool) : Nat := if calibrate then 0x81 else 0x80

/-- Zeros where nothing stands in the parameters of a test. -/
def TestFormed (calibrate : Bool) (ps : List Byte) : Prop :=
  zeroAt ps 1 7 = true ∧ zeroFrom ps (if calibrate then 12 else 40) = true

/-- A target, and a mask of the bits that it has (log 46). -/
def TestInRange (calibrate : Bool) (ps : List Byte) : Prop :=
  arg ps 0 1 ≤ (if calibrate then 1 else 3) ∧ arg ps 8 (if calibrate then 4 else 32) < 2 ^ maskBits calibrate (arg ps 0 1)

/-- Both commands are one call. -/
theorem exec_testInstr (calibrate : Bool) (r : Request) (s : State) :
    exec (testInstr calibrate r) s =
      .next (serveCall { op := testOp calibrate, pf := true, bare := false, defer := true } r
        (fun ps => !zeroAt ps 1 7 || !zeroFrom ps (if calibrate then 12 else 40)) (testCall calibrate r) s) := by
  cases calibrate <;> rfl

theorem testBad_eq_false {calibrate : Bool} {ps : List Byte} (h : TestFormed calibrate ps) :
    (!zeroAt ps 1 7 || !zeroFrom ps (if calibrate then 12 else 40)) = false := by
  rw [h.1, h.2]
  rfl

section
variable {calibrate : Bool} {r : Request} {m : Mailbox} {s : State}

/-- What a test's call asks, in the order in which it asks. -/
theorem testCall_takeRequest (calibrate : Bool) (r : Request) (fn : Nat) (s : State) :
    testCall calibrate r (reqArgs r) (takeRequest fn s) =
      if (if calibrate then 1 else 3) < arg (reqArgs r) 0 1 ∨
          2 ^ maskBits calibrate (arg (reqArgs r) 0 1) ≤ arg (reqArgs r) 8 (if calibrate then 4 else 32) then
        (takeRequest fn s, .answer .invalid 0)
      else if (s.test.isSome || (namedBits (testOf calibrate r).mask).any (neverIdle s calibrate (arg (reqArgs r) 0 1))) = true then
        (takeRequest fn s, .answer .busy 0)
      else if (namedBits (testOf calibrate r).mask).all (targetIdle s calibrate (arg (reqArgs r) 0 1)) = true then
        (beginTest (testOf calibrate r) (takeRequest fn s), .later)
      else if !reqDefer r then (takeRequest fn s, .answer .busy 0)
      else if s.sched.jobs.any Job.active then ({ takeRequest fn s with test := some (testOf calibrate r) }, .later)
      else (beginTest (testOf calibrate r) (takeRequest fn s), .later) := by
  simp only [testCall, testOf, takeRequest_test, neverIdle_takeRequest, targetIdle_takeRequest, takeRequest_sched, Bool.or_eq_true,
    decide_eq_true_eq]

theorem exec_testInstr_of_unranged (h : Served true false true r m s) (hf : TestFormed calibrate (reqArgs r))
    (hr : ¬ TestInRange calibrate (reqArgs r)) :
    exec (testInstr calibrate r) s = .next (answered r m (testOp calibrate) .invalid 0 s) := by
  rw [TestInRange, not_and_or, Nat.not_le, Nat.not_lt] at hr
  rw [exec_testInstr]
  exact congrArg Host.Outcome.next (served_same h (testBad_eq_false hf) (by rw [testCall_takeRequest, if_pos hr]))

/-- In range, the call goes on to its targets. -/
theorem testCall_of_inRange (hr : TestInRange calibrate (reqArgs r)) :
    ¬ ((if calibrate then 1 else 3) < arg (reqArgs r) 0 1 ∨
      2 ^ maskBits calibrate (arg (reqArgs r) 0 1) ≤ arg (reqArgs r) 8 (if calibrate then 4 else 32)) := by
  obtain ⟨target, mask⟩ := hr
  exact fun out => out.elim (Nat.not_lt.mpr target) (Nat.not_le.mpr mask)

theorem exec_testInstr_of_waiting (h : Served true false true r m s) (hf : TestFormed calibrate (reqArgs r))
    (hr : TestInRange calibrate (reqArgs r)) (ht : s.test.isSome = true) :
    exec (testInstr calibrate r) s = .next (answered r m (testOp calibrate) .busy 0 s) := by
  rw [exec_testInstr]
  exact congrArg Host.Outcome.next (served_same h (testBad_eq_false hf)
    (by rw [testCall_takeRequest, if_neg (testCall_of_inRange hr), ht, Bool.true_or, if_pos rfl]))

/-- No named target is one that never idles. -/
theorem none_neverIdle (hn : ∀ i ∈ namedBits (testOf calibrate r).mask, neverIdle s calibrate (arg (reqArgs r) 0 1) i = false)
    (ht : s.test = none) :
    ¬ (s.test.isSome || (namedBits (testOf calibrate r).mask).any (neverIdle s calibrate (arg (reqArgs r) 0 1))) = true := by
  rw [ht, Option.isSome_none, Bool.false_or, Bool.not_eq_true, List.any_eq_false]
  exact fun i hi => Bool.not_eq_true _ ▸ hn i hi

/-- On idle targets the test begins at once. -/
theorem exec_testInstr_of_idle (h : Served true false true r m s) (hf : TestFormed calibrate (reqArgs r))
    (hr : TestInRange calibrate (reqArgs r)) (ht : s.test = none)
    (hi : ∀ i ∈ namedBits (testOf calibrate r).mask, targetIdle s calibrate (arg (reqArgs r) 0 1) i = true ∧
      neverIdle s calibrate (arg (reqArgs r) 0 1) i = false) :
    exec (testInstr calibrate r) s = .next (nextTurn (beginTest (testOf calibrate r) (awaiting r m s))) := by
  rw [exec_testInstr]
  refine congrArg Host.Outcome.next (served_later h (testBad_eq_false hf) ?_)
  rw [← takeRequest_eq_awaiting h.mailbox, testCall_takeRequest, if_neg (testCall_of_inRange hr),
    if_neg (none_neverIdle (fun i k => (hi i k).2) ht), if_pos (List.all_eq_true.mpr fun i k => (hi i k).1)]

/-- On targets in use a test that defers waits for its break. -/
theorem exec_testInstr_of_defer (h : Served true false true r m s) (hf : TestFormed calibrate (reqArgs r))
    (hr : TestInRange calibrate (reqArgs r)) (ht : s.test = none)
    (hn : ∀ i ∈ namedBits (testOf calibrate r).mask, neverIdle s calibrate (arg (reqArgs r) 0 1) i = false)
    (hu : ∃ i ∈ namedBits (testOf calibrate r).mask, targetIdle s calibrate (arg (reqArgs r) 0 1) i = false)
    (hd : reqDefer r = true) (hj : ∃ j ∈ s.sched.jobs, j.stage ≠ .queued) :
    exec (testInstr calibrate r) s = .next (nextTurn { awaiting r m s with test := some (testOf calibrate r) }) := by
  have active : s.sched.jobs.any Job.active = true := by simpa [Job.active] using hj
  have inUse : ¬ (namedBits (testOf calibrate r).mask).all (targetIdle s calibrate (arg (reqArgs r) 0 1)) = true := by
    simpa using hu
  rw [exec_testInstr]
  refine congrArg Host.Outcome.next (served_later h (testBad_eq_false hf) ?_)
  rw [← takeRequest_eq_awaiting h.mailbox, testCall_takeRequest, if_neg (testCall_of_inRange hr), if_neg (none_neverIdle hn ht),
    if_neg inUse, hd, if_neg (by simp), if_pos active]

end

/-- Settles O16: what the one call asks in turn, at each of the four answers. -/
theorem testsBeginOnIdleTargets : Obligations.TestsBeginOnIdleTargets := by
  unfold Obligations.TestsBeginOnIdleTargets
  exact fun _ _ _ _ h => ⟨exec_testInstr_of_unranged h, exec_testInstr_of_waiting h, exec_testInstr_of_idle h, exec_testInstr_of_defer h⟩

/-! ## FW_UPDATE_STAGE and FW_UPDATE_ACTIVATE (R498, R499) -/

/-- Requests that are refused leave the firmware as it stands. -/
theorem refuseUnknown_fw (n : Nat) (s : State) : (refuseUnknown n s).fw = s.fw := by
  induction n generalizing s with
  | zero => rfl
  | succ n ih =>
    unfold refuseUnknown
    split
    · rfl
    · rw [ih, respond_fw, takeRequest_fw]

@[simp] theorem nextTurn_fw (s : State) : (nextTurn s).fw = s.fw := refuseUnknown_fw _ s

/-- An image that a staging may name. -/
structure StageFits (s : State) (ps : List Byte) : Prop where
  rest : zeroFrom ps 16 = true
  aligned : arg ps 0 8 % 256 = 0
  mapped : mapped s (arg ps 0 8) (arg ps 8 8) = true
  size : arg ps 8 8 ≤ 33488896

section
variable {r : Request} {m : Mailbox} {s : State}

/-- What FW_UPDATE_STAGE asks once its image fits. -/
theorem stageImageCall_of_fits (h : StageFits s (reqArgs r)) (fn : Nat) :
    stageImageCall r (reqArgs r) (takeRequest fn s) =
      if s.fw.bootSlot.isNone then (takeRequest fn s, .answer .state 0)
      else if s.fw.staging.isSome then (takeRequest fn s, .answer .busy 0)
      else ({ takeRequest fn s with fw := { s.fw with
        staging := some { fn := r.fn.val, tag := r.tag, addr := arg (reqArgs r) 0 8, size := arg (reqArgs r) 8 8 } } }, .later) := by
  obtain ⟨-, aligned, mapped, size⟩ := h
  have short : ¬ longestImage < arg (reqArgs r) 8 8 := Nat.not_lt.mpr size
  simp only [stageImageCall, Machine.aligned, aligned, beq_self_eq_true, mapped_takeRequest, mapped, short, takeRequest_fw, Bool.not_true,
    decide_false, Bool.or_self, Bool.false_eq_true, if_false]

theorem stageBad_eq_false (h : StageFits s (reqArgs r)) : (!zeroFrom (reqArgs r) 16) = false := by rw [h.rest]; rfl

theorem exec_fwUpdateStage_of_free (h : Served true true false r m s) (hf : StageFits s (reqArgs r))
    (hb : s.fw.bootSlot.isSome = true) (hs : s.fw.staging = none) :
    exec (.fwUpdateStage r) s = .next (nextTurn { awaiting r m s with fw := { s.fw with
      staging := some { fn := r.fn.val, tag := r.tag, addr := arg (reqArgs r) 0 8, size := arg (reqArgs r) 8 8 } } }) := by
  refine congrArg Host.Outcome.next (served_later h (stageBad_eq_false hf) ?_)
  obtain ⟨i, hi⟩ := Option.isSome_iff_exists.mp hb
  simp only [← takeRequest_eq_awaiting h.mailbox, stageImageCall_of_fits hf, hi, hs, Option.isNone_some, Option.isSome_none,
    Bool.false_eq_true, if_false]

theorem exec_fwUpdateStage_of_waiting (h : Served true true false r m s) (hf : StageFits s (reqArgs r))
    (hb : s.fw.bootSlot.isSome = true) (hs : s.fw.staging.isSome = true) :
    exec (.fwUpdateStage r) s = .next (answered r m 0xA0 .busy 0 s) := by
  obtain ⟨i, hi⟩ := Option.isSome_iff_exists.mp hb
  exact congrArg Host.Outcome.next (served_same h (stageBad_eq_false hf)
    (by simp only [stageImageCall_of_fits hf, hi, hs, Option.isNone_some, Bool.false_eq_true, if_false, if_true]))

theorem exec_fwUpdateStage_of_unbooted (h : Served true true false r m s) (hf : StageFits s (reqArgs r))
    (hb : s.fw.bootSlot = none) :
    exec (.fwUpdateStage r) s = .next (answered r m 0xA0 .state 0 s) :=
  congrArg Host.Outcome.next (served_same h (stageBad_eq_false hf)
    (by simp only [stageImageCall_of_fits hf, hb, Option.isNone_none, if_true]))

/-- A slot marked valid is no staged slot. -/
theorem stagedSlot_markSlot (i : Nat) (s : State) : stagedSlot (markSlot i s) ≠ some i := by
  intro found
  have mark := List.find?_some found
  simp only [markSlot, updAt, Bool.and_eq_true, beq_iff_eq, List.getD_eq_getElem?_getD, List.getElem?_modify_eq] at mark
  cases hi : s.fw.flash[i]? <;> simp [hi, emptySlot, markValid, markStaged] at mark

/-- What an activation does when its call answers `t`. -/
def activateAfter (now : Bool) (s t : State) : State :=
  match stagedSlot s with
  | some i => if now && !(stagedSlot t == some i) then activationReset i t else t
  | none => t

@[simp] theorem stagedSlot_takeRequest (fn : Nat) (s : State) : stagedSlot (takeRequest fn s) = stagedSlot s := by
  simp only [stagedSlot, takeRequest_fw]

/-- The activation's call with a slot staged that no active job keeps from its reset: the slot is marked valid. -/
theorem exec_fwUpdateActivate_of_staged {i : Nat} (h : Served true true false r m s) (hf : FlagsFormed (reqArgs r))
    (hs : stagedSlot s = some i) (hj : (decide (arg (reqArgs r) 0 1 = 1) && s.sched.jobs.any Job.active) = false) :
    exec (.fwUpdateActivate r) s =
      .next (activateAfter (decide (arg (reqArgs r) 0 1 = 1)) s (answered r m 0xA1 .ok 0 (markSlot i s))) := by
  refine congrArg Host.Outcome.next ((congrArg₂ (activateAfter · s ·) (natBit_zero_of_le hf.1) ?served))
  case served =>
    refine served_answer (row := ⟨0xA1, true, true, false⟩) h (drainBad_eq_false hf) h.mailbox h.enabled ?_
    simp only [stagedSlot_takeRequest, hs, natBit_zero_of_le hf.1, takeRequest_sched, hj, Bool.false_eq_true, if_false]
    rfl

theorem exec_fwUpdateActivate_of_later {i : Nat} (h : Served true true false r m s) (hf : FlagsFormed (reqArgs r))
    (ha : arg (reqArgs r) 0 1 = 0) (hs : stagedSlot s = some i) :
    exec (.fwUpdateActivate r) s = .next (answered r m 0xA1 .ok 0 (markSlot i s)) := by
  rw [exec_fwUpdateActivate_of_staged h hf hs (by simp [ha])]
  simp [activateAfter, hs, ha]

/-- With `NOW`, and no active job, the device resets itself into the slot. -/
theorem exec_fwUpdateActivate_of_now {i : Nat} (h : Served true true false r m s) (hf : FlagsFormed (reqArgs r))
    (ha : arg (reqArgs r) 0 1 = 1) (hs : stagedSlot s = some i) (hj : ∀ j ∈ s.sched.jobs, j.stage = .queued) :
    exec (.fwUpdateActivate r) s = .next (activationReset i (answered r m 0xA1 .ok 0 (markSlot i s))) := by
  have idle : s.sched.jobs.any Job.active = false := by simpa [Job.active] using hj
  have gone : ¬ stagedSlot (answered r m 0xA1 .ok 0 (markSlot i s)) = some i := by
    have same : (answered r m 0xA1 .ok 0 (markSlot i s)).fw = (markSlot i s).fw := nextTurn_fw _
    have slot := stagedSlot_markSlot i s
    simpa only [stagedSlot, same] using slot
  rw [exec_fwUpdateActivate_of_staged h hf hs (by simp [idle])]
  simp [activateAfter, hs, ha, gone]

theorem exec_fwUpdateActivate_of_none (h : Served true true false r m s) (hf : FlagsFormed (reqArgs r))
    (hs : stagedSlot s = none) :
    exec (.fwUpdateActivate r) s = .next (answered r m 0xA1 .state 0 s) := by
  have after (now : Bool) (t : State) : activateAfter now s t = t := by simp only [activateAfter, hs]
  refine congrArg Host.Outcome.next ((after _ _).trans ?_)
  exact served_same (row := ⟨0xA1, true, true, false⟩) h (drainBad_eq_false hf) (by simp only [stagedSlot_takeRequest, hs])

end

/-! ## FW_STAGING_DONE and SV_COUNTER_RISE (R498, R501, R503) -/

section
variable {x : Staging} {s : State}

theorem exec_fwStagingDone_of_suspended (hx : s.fw.staging = some x) (hs : onSuspended s [(x.addr, x.size)] = true) :
    exec .fwStagingDone s = .next s := by
  change execFwStagingDone s = _
  simp only [execFwStagingDone, hx, hs, if_true]

/-- The slot that did not boot. -/
theorem otherSlot_eq (s : State) : otherSlot s = if s.fw.bootSlot = some 0 then 1 else 0 := by
  unfold otherSlot
  split
  case h_1 h => rw [if_pos h]
  case h_2 h => rw [if_neg h]

/-- A staging that ends is answered, and an image that passes R503 is in the other slot then. -/
theorem exec_fwStagingDone_of_present (hx : s.fw.staging = some x) (hs : onSuspended s [(x.addr, x.size)] = false) :
    exec .fwStagingDone s = .next
      (if mapped s x.addr x.size = true ∧ imageOk s.fuses.svBlown (s.mem.readBytes x.addr x.size) = true then
        respond x.fn x.tag 0xA0 .ok (stagingResult (otherSlot s) (nextSeq s) (s.mem.readBytes x.addr x.size))
          { s with fw := { s.fw with
              staging := none,
              flash := s.fw.flash.set (otherSlot s)
                { seq := nextSeq s, mark := markStaged, image := s.mem.readBytes x.addr x.size } } }
      else respond x.fn x.tag 0xA0 .auth 0 { s with fw := { s.fw with staging := none } }) := by
  change execFwStagingDone s = _
  simp only [execFwStagingDone, hx, hs, Bool.false_eq_true, if_false, updAt_const, Bool.and_eq_true]

end

theorem rangeFrom_succ (n k : Nat) : rangeFrom n (k + 1) = n :: rangeFrom (n + 1) k := by
  simp only [rangeFrom, List.range_succ_eq_map, List.map_cons, List.map_map, Nat.add_zero, List.cons.injEq, true_and]
  exact List.map_congr_left fun i _ => by simp only [Function.comp_apply]; omega

/-- Fuses blown one by one from the counter on. -/
theorem foldl_blow (k n : Nat) (s : State) (h : s.fuses.svBlown = n) :
    (rangeFrom n k).foldl (fun (acc : State) i => { acc with fuses := { acc.fuses with svBlown := i + 1 } }.emit (.fuse i)) s =
      { s with fuses := { s.fuses with svBlown := n + k }, out := s.out ++ (rangeFrom n k).map fun i => .fuse i } := by
  induction k generalizing n s with
  | zero => subst h; simp [rangeFrom]
  | succ k ih =>
    rw [rangeFrom_succ, List.foldl_cons, ih (n + 1) _ rfl]
    simp [State.emit, Nat.add_assoc, Nat.add_comm 1 k]

theorem exec_svCounterRise_of_lower {s : State} (hr : s.fw.state = .ready) (hc : s.fw.commitSv = true)
    (hl : s.fuses.svBlown < s.fw.imageSv) :
    exec .svCounterRise s = .next { s with
      fuses := { s.fuses with svBlown := s.fw.imageSv },
      out := s.out ++ (rangeFrom s.fuses.svBlown (s.fw.imageSv - s.fuses.svBlown)).map fun n => .fuse n } := by
  change execSvCounterRise s = _
  simp only [execSvCounterRise, hr, hc, hl, decide_true, beq_self_eq_true, Bool.and_self, if_true]
  rw [foldl_blow _ _ s rfl, Nat.add_sub_cancel' hl.le]

theorem exec_svCounterRise_of_not {s : State}
    (h : ¬ (s.fw.state = .ready ∧ s.fw.commitSv = true ∧ s.fuses.svBlown < s.fw.imageSv)) : exec .svCounterRise s = .next s := by
  change execSvCounterRise s = _
  rw [execSvCounterRise, if_neg]
  simpa [and_assoc] using h

/-- Settles O17: each call, the end of a staging, and the counter. -/
theorem firmwareIsStagedAndActivated : Obligations.FirmwareIsStagedAndActivated := by
  unfold Obligations.FirmwareIsStagedAndActivated
  refine ⟨fun r m s h => ⟨?stage, ?waiting, ?unbooted, ?later, ?now, ?none⟩, fun _ _ => exec_fwStagingDone_of_suspended, ?done,
    fun _ => ⟨exec_svCounterRise_of_lower, exec_svCounterRise_of_not⟩⟩
  case stage => exact fun ⟨hz, ha, hm, hn⟩ => exec_fwUpdateStage_of_free h ⟨hz, ha, hm, hn⟩
  case waiting => exact fun ⟨hz, ha, hm, hn⟩ => exec_fwUpdateStage_of_waiting h ⟨hz, ha, hm, hn⟩
  case unbooted => exact fun ⟨hz, ha, hm, hn⟩ => exec_fwUpdateStage_of_unbooted h ⟨hz, ha, hm, hn⟩
  case later => exact fun i hf => exec_fwUpdateActivate_of_later h hf
  case now => exact fun i hf => exec_fwUpdateActivate_of_now h hf
  case none => exact exec_fwUpdateActivate_of_none h
  case done =>
    intro x s hx hs
    rw [exec_fwStagingDone_of_present hx hs, nextSeq, otherSlot_eq]
    rfl

end Sys2Proof.Machine
end

section
/-! PROOFS. What flits, ended jobs and strikes leave alone, of every part of the state at once: the state with the parts that they may
change put to their reset values is the same before and after. -/
namespace Sys2Proof.Machine

/-! ## Flits -/

/-- The state but for what a flit on its way may change: the ports, and the log with its interrupts. -/
def State.offFabric (s : State) : State := { s with funcs := [], fabric := State.reset.fabric, log := State.reset.log, out := [] }

@[simp] theorem offFabric_emit (o : Out) (s : State) : (s.emit o).offFabric = s.offFabric := by simp [State.offFabric]
@[simp] theorem offFabric_updPort (p : Nat) (f : Port → Port) (s : State) : (s.updPort p f).offFabric = s.offFabric := by
  simp [State.offFabric]
@[simp] theorem offFabric_logError (src sev : Nat) (st : Status) (fn stave place d : Nat) (s : State) :
    (logError src sev st fn stave place d s).offFabric = s.offFabric := by
  simp [State.offFabric]
@[simp] theorem offFabric_oweCredit (p : Nat) (vc : BitVec 6) (s : State) : (oweCredit p vc s).offFabric = s.offFabric := by
  simp [State.offFabric]
@[simp] theorem offFabric_dropWaiting (gone : Nat × BitVec 14 × Flit → Bool) (s : State) :
    (dropWaiting gone s).offFabric = s.offFabric := by
  simp [State.offFabric]

@[simp] theorem offFabric_transmitNow (p : Nat) (w : Nat × BitVec 6 × Flit) (s : State) :
    (transmitNow p w s).offFabric = s.offFabric := by
  simp only [transmitNow, offFabric_oweCredit, offFabric_emit, offFabric_updPort]

@[simp] theorem offFabric_sendWaiting (p n : Nat) (s : State) : (sendWaiting p n s).offFabric = s.offFabric := by
  induction n generalizing s with
  | zero => rfl
  | succ n ih =>
    rw [sendWaiting]
    split
    · rfl
    · split
      · rfl
      · split
        · rfl
        · rw [ih, offFabric_transmitNow, offFabric_updPort]

@[simp] theorem offFabric_flush (p : Nat) (s : State) : (flush p s).offFabric = s.offFabric := offFabric_sendWaiting p _ s

@[simp] theorem offFabric_transmit (p q : Nat) (vc : BitVec 6) (f : Flit) (s : State) :
    (transmit p q vc f s).offFabric = s.offFabric := by
  rw [transmit, offFabric_flush, offFabric_updPort]

@[simp] theorem offFabric_discardFlit (p dest : Nat) (s : State) : (discardFlit p dest s).offFabric = s.offFabric := by
  rw [discardFlit, offFabric_logError]
  split
  · exact offFabric_updPort ..
  · rfl

@[simp] theorem offFabric_routeFrom (p : Nat) (vc : BitVec 6) (pair : Nat) (f : Flit) (s : State) :
    (routeFrom p vc pair f s).offFabric = s.offFabric := by
  unfold routeFrom
  split
  · rw [offFabric_oweCredit, offFabric_discardFlit]
  · split
    · exact offFabric_oweCredit ..
    · split
      · rw [offFabric_oweCredit, offFabric_discardFlit]
      · exact offFabric_transmit ..

@[simp] theorem offFabric_routeFlit (p pair : Nat) (f : Flit) (s : State) : (routeFlit p pair f s).offFabric = s.offFabric :=
  offFabric_routeFrom ..

@[simp] theorem offFabric_sendClap (g : Group) (k : Nat) (m : ClapMsg) (s : State) : (sendClap g k m s).offFabric = s.offFabric :=
  offFabric_routeFlit ..

@[simp] theorem offFabric_sendChildren (g : Group) (m : ClapMsg) (s : State) : (sendChildren g m s).offFabric = s.offFabric :=
  foldl_field State.offFabric _ (fun _ _ => offFabric_sendClap ..) _ s

@[simp] theorem offFabric_sendLink (p : Nat) (m : LinkMsg) (s : State) : (sendLink p m s).offFabric = s.offFabric :=
  offFabric_transmit ..

@[simp] theorem offFabric_sendNack (p : Nat) (s : State) : (sendNack p s).offFabric = s.offFabric := offFabric_emit ..

@[simp] theorem offFabric_sendIdle (p : Nat) (s : State) : (sendIdle p s).offFabric = s.offFabric := by
  rw [sendIdle, offFabric_emit, offFabric_updPort]

@[simp] theorem offFabric_returnCredits (p : Nat) (s : State) : (returnCredits p s).offFabric = s.offFabric := by
  simp only [returnCredits]
  split
  · rw [offFabric_sendLink, offFabric_updPort]
  · exact foldl_field State.offFabric _ (fun _ _ => offFabric_sendIdle ..) _ s

@[simp] theorem offFabric_sendCredits (s : State) : (sendCredits s).offFabric = s.offFabric := by
  refine foldl_field State.offFabric _ (fun t p => ?_) _ s
  split
  · rfl
  · exact offFabric_returnCredits ..

@[simp] theorem offFabric_answerPort (p : Nat) (s : State) : (answerPort p s).offFabric = s.offFabric := by
  rw [answerPort, offFabric_sendCredits]
  split
  · exact offFabric_sendIdle ..
  · rfl

@[simp] theorem offFabric_dropStale (tag a : Nat) (s : State) : (dropStale tag a s).offFabric = s.offFabric := by
  rw [dropStale, foldl_field State.offFabric _ fun _ _ => offFabric_oweCredit .., offFabric_dropWaiting]
  rfl

/-! ## Jobs that end -/

/-- The state but for what the end of a job may change: the jobs and the units, what waits for them or was told of them. -/
def State.offJobs (s : State) : State :=
  { s with funcs := [], host := State.reset.host, cores := [], chips := [], chipFetch := State.reset.chipFetch,
           gathers := State.reset.gathers, sched := State.reset.sched, groups := [], fabric := State.reset.fabric,
           codec := State.reset.codec, sec := State.reset.sec, log := State.reset.log, out := [] }

/-- What flits leave alone the end of a job does too. -/
theorem offJobs_of_offFabric {s t : State} (h : t.offFabric = s.offFabric) : t.offJobs = s.offJobs :=
  (congrArg State.offJobs h : t.offFabric.offJobs = s.offFabric.offJobs)

@[simp] theorem offJobs_logError (src sev : Nat) (st : Status) (fn stave place d : Nat) (s : State) :
    (logError src sev st fn stave place d s).offJobs = s.offJobs := offJobs_of_offFabric (offFabric_logError ..)
@[simp] theorem offJobs_sendClap (g : Group) (k : Nat) (m : ClapMsg) (s : State) : (sendClap g k m s).offJobs = s.offJobs :=
  offJobs_of_offFabric (offFabric_sendClap ..)
@[simp] theorem offJobs_sendChildren (g : Group) (m : ClapMsg) (s : State) : (sendChildren g m s).offJobs = s.offJobs :=
  offJobs_of_offFabric (offFabric_sendChildren ..)
@[simp] theorem offJobs_dropStale (tag a : Nat) (s : State) : (dropStale tag a s).offJobs = s.offJobs :=
  offJobs_of_offFabric (offFabric_dropStale ..)
@[simp] theorem offJobs_updGroup (tag : Nat) (f : Group → Group) (s : State) : (s.updGroup tag f).offJobs = s.offJobs := by
  simp [State.offJobs]
@[simp] theorem offJobs_endJob (j : Job) (st cause : Status) (kind : Nat) (d : BitVec 352) (s : State) :
    (endJob j st cause kind d s).offJobs = s.offJobs := by
  simp [State.offJobs]
@[simp] theorem offJobs_dropHeld (j : Job) (s : State) : (dropHeld j s).offJobs = s.offJobs := by simp [State.offJobs]
@[simp] theorem offJobs_dropBody (id : Nat) (s : State) : (dropBody id s).offJobs = s.offJobs := by simp [State.offJobs]
@[simp] theorem offJobs_releaseSave (id : Nat) (s : State) : (releaseSave id s).offJobs = s.offJobs := by simp [State.offJobs]
@[simp] theorem offJobs_freeUnits (s : State) : (freeUnits s).offJobs = s.offJobs := by simp [State.offJobs]
@[simp] theorem offJobs_idleUnits (s : State) : (idleUnits s).offJobs = s.offJobs := by simp [State.offJobs]
@[simp] theorem offJobs_closeWindows (j : Job) (s : State) : (closeWindows j s).offJobs = s.offJobs := by simp [State.offJobs]
@[simp] theorem offJobs_dropFrames (id : Nat) (s : State) : (dropFrames id s).offJobs = s.offJobs := by simp [State.offJobs]
@[simp] theorem offJobs_respond (fn : Nat) (tag : Word) (op : Nat) (st : Status) (res : Nat) (s : State) :
    (respond fn tag op st res s).offJobs = s.offJobs := by
  simp [State.offJobs]

@[simp] theorem offJobs_endResting (j : Job) (st cause : Status) (kind : Nat) (d : BitVec 352) (s : State) :
    (endResting j st cause kind d s).offJobs = s.offJobs := by
  simp only [endResting, offJobs_endJob, offJobs_dropHeld, offJobs_dropBody, offJobs_releaseSave]

@[simp] theorem offJobs_failSwapJob (j : Job) (s : State) : (failSwapJob j s).offJobs = s.offJobs := by
  simp only [failSwapJob, offJobs_freeUnits, offJobs_endJob, offJobs_dropHeld, offJobs_releaseSave, offJobs_logError]

@[simp] theorem offJobs_endRunning (st cause : Status) (kind : Nat) (d : BitVec 352) (s : State) :
    (endRunning st cause kind d s).offJobs = s.offJobs := by
  unfold endRunning
  split
  case h_1 => rfl
  case h_2 j _ =>
    split
    · rfl
    · split
      · change (dropFrames j.id (closeWindows j (idleUnits s))).offJobs = _
        rw [offJobs_dropFrames, offJobs_closeWindows, offJobs_idleUnits]
      · rw [offJobs_freeUnits, offJobs_endJob, offJobs_dropHeld, offJobs_releaseSave]

@[simp] theorem offJobs_endAny (j : Job) (st cause : Status) (kind : Nat) (d : BitVec 352) (s : State) :
    (endAny j st cause kind d s).offJobs = s.offJobs := by
  unfold endAny
  split
  · exact offJobs_endRunning ..
  · split
    · rfl
    · exact offJobs_endResting ..

/-! ## Aborts and strikes -/

@[simp] theorem offJobs_endAbort (source : Nat) (g : Group) (seq cause origin : Nat) (s : State) :
    (endAbort source g seq cause origin s).offJobs = s.offJobs := by
  simp only [endAbort, offJobs_logError]
  rw [foldl_field State.offJobs _ fun _ _ => offJobs_endAny .., offJobs_dropStale, offJobs_updGroup]

@[simp] theorem offJobs_requestAbort (g : Group) (seq cause : Nat) (s : State) : (requestAbort g seq cause s).offJobs = s.offJobs := by
  unfold requestAbort
  split
  · unfold decideAbort
    split
    · rw [applyAbort, offJobs_endAbort, offJobs_sendChildren]
    · rfl
  · rw [offJobs_sendClap, offJobs_updGroup]

@[simp] theorem offJobs_raiseAbortOf (tag seq cause : Nat) (s : State) : (raiseAbortOf tag seq cause s).offJobs = s.offJobs := by
  unfold raiseAbortOf
  split
  · rfl
  · exact offJobs_requestAbort ..

@[simp] theorem offJobs_raiseAbort (tag cause : Nat) (s : State) : (raiseAbort tag cause s).offJobs = s.offJobs := by
  unfold raiseAbort
  split
  · rfl
  · exact offJobs_requestAbort ..

@[simp] theorem offJobs_abortGroups (j : Job) (cause : Nat) (s : State) : (abortGroups j cause s).offJobs = s.offJobs :=
  foldl_field State.offJobs _ (fun _ _ => offJobs_raiseAbort ..) _ s

@[simp] theorem offJobs_strikeJob (j : Job) (cause : Status) (kind : Nat) (d : BitVec 352) (s : State) :
    (strikeJob j cause kind d s).offJobs = s.offJobs := by
  unfold strikeJob
  split
  · rfl
  · rw [offJobs_abortGroups, offJobs_endAny]

@[simp] theorem offJobs_strikeRunning (cause : Status) (kind : Nat) (d : BitVec 352) (s : State) :
    (strikeRunning cause kind d s).offJobs = s.offJobs := by
  unfold strikeRunning
  split
  · rfl
  · exact offJobs_strikeJob ..

@[simp] theorem offJobs_strikeWhere (p : Job → Bool) (cause : Status) (kind : Nat) (d : BitVec 352) (s : State) :
    (strikeWhere p cause kind d s).offJobs = s.offJobs :=
  foldl_field State.offJobs _ (fun _ _ => offJobs_strikeJob ..) _ s

@[simp] theorem offJobs_strikeState (j : Job) (s : State) : (strikeState s j).offJobs = s.offJobs := by
  rw [strikeState, offJobs_strikeJob, offJobs_logError]

end Sys2Proof.Machine
end

section
/-! PROOFS. Channels that change their state (R281, R431, R432) and exercisers (R287 to R290). -/
namespace Sys2Proof.Machine

/-! ## A restored channel's range -/

@[simp] theorem mem_gatePosition (p : Nat) (s : State) : (gatePosition p s).mem = s.mem := by
  simp only [gatePosition]
  split
  · exact foldl_field State.mem (fun acc c => acc.updChan c losesTraining) (fun _ _ => rfl) _ _
  · split
    · exact foldl_field State.mem (fun acc c => beginRetrain c acc) (fun _ _ => rfl) _ _
    · rfl

@[simp] theorem mem_restoreChan (ch : Nat) (s : State) :
    (restoreChan ch s).mem = s.mem.forget (chanBase ch) (s.chan ch).bytes s.fresh :=
  mem_gatePosition _ _

/-- A channel of 1 MiB, and a memory that lists its first byte before one at a lower address. -/
def unorderedState : State :=
  { State.reset with channels := [Channel.absent, { Channel.absent with sizeMiB := 1 }],
                     mem := { cells := [(chanBase 1, 1), (3, 1)], undef := [] } }

/-- Address 3 lies below channel 1, and reads otherwise once the channel is restored: its listed byte stood behind one of a higher
address, which the restore takes away. -/
theorem read_restoreChan_unordered : (restoreChan 1 unorderedState).mem.read 3 ≠ unorderedState.mem.read 3 := by
  rw [mem_restoreChan]
  decide

/-- Refutes O18: where memory is not in canonical form, a byte outside the range of a restored channel can read otherwise. -/
theorem not_channelsChangeTheirState : ¬ Obligations.ChannelsChangeTheirState := by
  unfold Obligations.ChannelsChangeTheirState
  rintro ⟨-, changes⟩
  obtain ⟨-, -, -, -, -, -, outside, -⟩ := changes unorderedState 1 (by decide)
  exact read_restoreChan_unordered (outside 3 (Or.inl (by decide)))

/-! ## MEM_EXERCISE and MEM_EXERCISE_STOP (R287, R288) -/

@[simp] theorem chan_takeRequest (fn ch : Nat) (s : State) : (takeRequest fn s).chan ch = s.chan ch := by
  simp only [State.chan, takeRequest_channels]

/-- A channel that is not absent is in the table. -/
theorem getElem?_channels {s : State} {ch : Nat} (h : s.chan ch ≠ Channel.absent) : s.channels[ch]? = some (s.chan ch) := by
  unfold State.chan at h ⊢
  rw [List.getD_eq_getElem?_getD] at h ⊢
  cases hc : s.channels[ch]? with
  | none => simp [hc] at h
  | some c => rfl

/-- A channel that is there, changed. -/
theorem updChan_eq_set {s : State} {ch : Nat} (h : s.chan ch ≠ Channel.absent) (f : Channel → Channel) :
    s.updChan ch f = { s with channels := s.channels.set ch (f (s.chan ch)) } := by
  rw [State.updChan, updAt_of_getElem? (getElem?_channels h)]

/-- The parameters of an exercise: a flag, zeros where nothing stands, a channel. -/
def ExerciseFormed (ps : List Byte) : Prop := arg ps 6 2 ≤ 1 ∧ zeroFrom ps 40 = true ∧ arg ps 0 1 < 128

/-- Out of service. -/
def Channel.Resting (c : Channel) : Prop := c.state = .maintenance ∨ c.state = .retired

theorem Channel.Resting.ne_absent {c : Channel} (h : c.Resting) : c ≠ Channel.absent := by
  rintro rfl
  rcases h with h | h <;> cases h

/-- Neither in service nor absent: the call's own test. -/
theorem Channel.Resting.serves {c : Channel} (h : c.Resting) : (c.state == .active || c.state == .absent) = false := by
  rcases h with h | h <;> rw [h] <;> rfl

/-- The run that a start names. -/
def runOf (r : Request) : ExerciserRun :=
  { fn := r.fn.val, tag := r.tag, ending := none, addrPat := arg (reqArgs r) 2 1, dataPat := arg (reqArgs r) 3 1,
    mix := arg (reqArgs r) 4 1, writePct := arg (reqArgs r) 5 1, stopOnError := arg (reqArgs r) 6 2 == 1,
    rangeOfs := arg (reqArgs r) 8 8, rangeLen := arg (reqArgs r) 16 8, passes := arg (reqArgs r) 24 4,
    stride := arg (reqArgs r) 28 4, seed := arg (reqArgs r) 32 8 }

/-- A run that is to stop: the outcome that was due first stands. -/
def ExerciserRun.stopped (x : ExerciserRun) : ExerciserRun := { x with ending := some (x.ending.getD 2) }

theorem exerciseBadFields_eq_false {ps : List Byte} (h : ExerciseFormed ps) :
    (decide (2 ≤ arg ps 6 2) || !zeroFrom ps 40) = false := by
  obtain ⟨flag, rest, -⟩ := h
  simp only [rest, Bool.not_true, Bool.or_false, decide_eq_false_iff_not]
  omega

section
variable {r : Request} {m : Mailbox} {s : State}

/-- What the exercise row asks of a channel out of service, in the order in which it asks. -/
theorem exerciseCall_of_resting (hf : ExerciseFormed (reqArgs r)) (hc : (s.chan (arg (reqArgs r) 0 1)).Resting) (fn : Nat) :
    exerciseCall r (reqArgs r) (takeRequest fn s) =
      if arg (reqArgs r) 1 1 = 1 then
        if (s.chan (arg (reqArgs r) 0 1)).run.isNone then (takeRequest fn s, .answer .invalid 0)
        else ((takeRequest fn s).updChan (arg (reqArgs r) 0 1) fun x => { x with run := x.run.map ExerciserRun.stopped }, .answer .ok 0)
      else if (decide (1 < arg (reqArgs r) 1 1) || exerciseBad (s.chan (arg (reqArgs r) 0 1)) (reqArgs r)) = true then
        (takeRequest fn s, .answer .invalid 0)
      else if (s.chan (arg (reqArgs r) 0 1)).run.isSome then (takeRequest fn s, .answer .busy 0)
      else ((takeRequest fn s).updChan (arg (reqArgs r) 0 1) fun x => { x with run := some (runOf r), fullPass := false }, .later) := by
  obtain ⟨flag, -, bound⟩ := hf
  simp only [exerciseCall, runOf, chan_takeRequest, Nat.not_le.mpr bound, hc.serves, natBit_zero_of_le flag,
    Bool.false_eq_true, if_false]
  rfl

theorem exec_memExercise_of_free (h : Served true false false r m s) (hf : ExerciseFormed (reqArgs r)) (ho : arg (reqArgs r) 1 1 = 0)
    (hc : (s.chan (arg (reqArgs r) 0 1)).Resting) (hr : (s.chan (arg (reqArgs r) 0 1)).run = none)
    (hb : exerciseBad (s.chan (arg (reqArgs r) 0 1)) (reqArgs r) = false) :
    exec (.memExercise r) s = .next (nextTurn { awaiting r m s with
      channels := s.channels.set (arg (reqArgs r) 0 1) { s.chan (arg (reqArgs r) 0 1) with run := some (runOf r), fullPass := false } }) := by
  refine congrArg Host.Outcome.next (served_later h (exerciseBadFields_eq_false hf) ?_)
  rw [← takeRequest_eq_awaiting h.mailbox, exerciseCall_of_resting hf hc,
    updChan_eq_set (by rw [chan_takeRequest]; exact hc.ne_absent) fun x => { x with run := some (runOf r), fullPass := false }]
  simp [ho, hb, hr]

theorem exec_memExercise_of_bad (h : Served true false false r m s) (hf : ExerciseFormed (reqArgs r)) (ho : arg (reqArgs r) 1 1 = 0)
    (hc : (s.chan (arg (reqArgs r) 0 1)).Resting) (hb : exerciseBad (s.chan (arg (reqArgs r) 0 1)) (reqArgs r) = true) :
    exec (.memExercise r) s = .next (answered r m 0x52 .invalid 0 s) :=
  congrArg Host.Outcome.next (served_same h (exerciseBadFields_eq_false hf) (by simp [exerciseCall_of_resting hf hc, ho, hb]))

theorem exec_memExercise_of_running (h : Served true false false r m s) (hf : ExerciseFormed (reqArgs r))
    (ho : arg (reqArgs r) 1 1 = 0) (hc : (s.chan (arg (reqArgs r) 0 1)).Resting)
    (hr : (s.chan (arg (reqArgs r) 0 1)).run.isSome = true)
    (hb : exerciseBad (s.chan (arg (reqArgs r) 0 1)) (reqArgs r) = false) :
    exec (.memExercise r) s = .next (answered r m 0x52 .busy 0 s) :=
  congrArg Host.Outcome.next (served_same h (exerciseBadFields_eq_false hf) (by simp [exerciseCall_of_resting hf hc, ho, hb, hr]))

theorem exec_memExercise_of_unformed (h : Served true false false r m s) (hf : ¬ ExerciseFormed (reqArgs r)) :
    exec (.memExercise r) s = .next (answered r m 0x52 .invalid 0 s) := by
  refine congrArg Host.Outcome.next ?_
  cases hb : decide (2 ≤ arg (reqArgs r) 6 2) || !zeroFrom (reqArgs r) 40 with
  | true => exact served_faulty h hb
  | false =>
    have past : 128 ≤ arg (reqArgs r) 0 1 := by
      simp only [Bool.or_eq_false_iff, decide_eq_false_iff_not, Bool.not_eq_false'] at hb
      obtain ⟨flag, rest⟩ := hb
      by_contra bound
      exact hf ⟨by omega, rest, by omega⟩
    exact served_same h hb (by simp only [exerciseCall, past, if_true])

theorem exec_memExercise_of_serving (h : Served true false false r m s) (hf : ExerciseFormed (reqArgs r))
    (hc : (s.chan (arg (reqArgs r) 0 1)).state = .active ∨ (s.chan (arg (reqArgs r) 0 1)).state = .absent) :
    exec (.memExercise r) s = .next (answered r m 0x52 .busy 0 s) := by
  have serves : ((s.chan (arg (reqArgs r) 0 1)).state == .active || (s.chan (arg (reqArgs r) 0 1)).state == .absent) = true := by
    simpa using hc
  exact congrArg Host.Outcome.next (served_same h (exerciseBadFields_eq_false hf)
    (by simp only [exerciseCall, Nat.not_le.mpr hf.2.2, chan_takeRequest, serves, if_false, if_true]))

theorem exec_memExerciseStop_of_running {x : ExerciserRun} (h : Served true false false r m s) (hf : ExerciseFormed (reqArgs r))
    (ho : arg (reqArgs r) 1 1 = 1) (hc : (s.chan (arg (reqArgs r) 0 1)).Resting)
    (hr : (s.chan (arg (reqArgs r) 0 1)).run = some x) :
    exec (.memExerciseStop r) s = .next (answered r m 0x52 .ok 0 { s with
      channels := s.channels.set (arg (reqArgs r) 0 1) { s.chan (arg (reqArgs r) 0 1) with run := some x.stopped } }) := by
  refine congrArg Host.Outcome.next (served_answer h (exerciseBadFields_eq_false hf) h.mailbox h.enabled ?_)
  rw [exerciseCall_of_resting hf hc, updChan_eq_set (by rw [chan_takeRequest]; exact hc.ne_absent)]
  simp only [ho, hr, chan_takeRequest, takeRequest_channels, Option.isNone_some, Option.map_some, Bool.false_eq_true, if_false, if_true]
  rfl

theorem exec_memExerciseStop_of_none (h : Served true false false r m s) (hf : ExerciseFormed (reqArgs r))
    (ho : arg (reqArgs r) 1 1 = 1) (hc : (s.chan (arg (reqArgs r) 0 1)).Resting)
    (hr : (s.chan (arg (reqArgs r) 0 1)).run = none) :
    exec (.memExerciseStop r) s = .next (answered r m 0x52 .invalid 0 s) :=
  congrArg Host.Outcome.next (served_same h (exerciseBadFields_eq_false hf) (by simp [exerciseCall_of_resting hf hc, ho, hr]))

end

/-! ## MEM_EXERCISE_DONE (R289, R290) -/

section
variable {ch : Fin 128} {x : ExerciserRun} {s : State}

theorem exec_memExerciseDone_of_none (rep : ExerciseReport) (hr : (s.chan ch.val).run = none) :
    exec (.memExerciseDone ch rep) s = .next s := by
  change execMemExerciseDone ch rep s = _
  simp only [execMemExerciseDone, hr]

theorem exec_memExerciseDone_of_waiting (rep : ExerciseReport) (hr : (s.chan ch.val).run = some x)
    (hw : (s.chan ch.val).heat = .suspended ∨ (s.chan ch.val).pausing = true) (he : x.ending = none) :
    exec (.memExerciseDone ch rep) s = .next s := by
  change execMemExerciseDone ch rep s = _
  have waits : (((s.chan ch.val).heat == .suspended || (s.chan ch.val).pausing) && x.ending.isNone) = true := by
    simpa [he] using hw
  simp only [execMemExerciseDone, hr, waits, if_true]

theorem exec_memExerciseDone_of_ended (rep : ExerciseReport) (hr : (s.chan ch.val).run = some x)
    (he : x.ending.isSome = true ∨ ((s.chan ch.val).heat ≠ .suspended ∧ (s.chan ch.val).pausing = false)) :
    exec (.memExerciseDone ch rep) s = .next (respond x.fn x.tag 0x52 .ok (exerciseResult ch.val x rep)
      (forgetRange (chanBase ch.val + x.rangeOfs) x.rangeLen { s with
        channels := s.channels.set ch.val { s.chan ch.val with run := none, fullPass := exerciseOutcome x rep == 0 } })) := by
  have there : s.chan ch.val ≠ Channel.absent := fun absent => by simp [absent, Channel.absent] at hr
  have goes : (((s.chan ch.val).heat == .suspended || (s.chan ch.val).pausing) && x.ending.isNone) = false := by
    rcases he with ends | ⟨cool, still⟩
    · obtain ⟨n, hn⟩ := Option.isSome_iff_exists.mp ends
      simp [hn]
    · simp [cool, still]
  change execMemExerciseDone ch rep s = _
  simp only [execMemExerciseDone, hr, goes, Bool.false_eq_true, if_false, updChan_eq_set there]

end

/-- Settles O19: the answers of the row, and the end of a run. -/
theorem exercisersRunOneAtATime : Obligations.ExercisersRunOneAtATime := by
  unfold Obligations.ExercisersRunOneAtATime
  exact ⟨fun _ _ _ h => ⟨exec_memExercise_of_free h, exec_memExercise_of_bad h, exec_memExercise_of_unformed h,
      exec_memExercise_of_running h, exec_memExercise_of_serving h, fun _ => exec_memExerciseStop_of_running h,
      exec_memExerciseStop_of_none h⟩,
    fun _ rep _ => ⟨fun _ => exec_memExerciseDone_of_waiting rep, fun _ => exec_memExerciseDone_of_ended rep,
      exec_memExerciseDone_of_none rep⟩⟩

end Sys2Proof.Machine
end

section
/-! PROOFS. Roll call (R463, R464, R472, R480, R488, R489), and the ports that a mask retrains (R305, R343). -/
namespace Sys2Proof.Machine

/-- The firmware's state and error are put in place, the rest of what it holds stands. -/
@[simp] theorem setFwState_fw (st : FwState) (err : Status) (s : State) :
    (setFwState st err s).fw = { s.fw with state := st, error := err } := by
  rw [setFwState, raiseIrqs_fw]

/-! ## Roll call -/

/-- The state but for what roll call does to the board's parts: rails, ports, the log and what leaves the device. -/
def State.offBoard (s : State) : State :=
  { s with funcs := [], fabric := State.reset.fabric, power := State.reset.power, log := State.reset.log, out := [] }

theorem pins_of_offBoard {s t : State} (h : t.offBoard = s.offBoard) : t.pins = s.pins :=
  (congrArg State.pins h : t.offBoard.pins = s.offBoard.pins)
theorem fw_of_offBoard {s t : State} (h : t.offBoard = s.offBoard) : t.fw = s.fw :=
  (congrArg State.fw h : t.offBoard.fw = s.offBoard.fw)
theorem inv_of_offBoard {s t : State} (h : t.offBoard = s.offBoard) : t.inv = s.inv :=
  (congrArg State.inv h : t.offBoard.inv = s.offBoard.inv)

theorem offBoard_trainPorts (s : State) : (trainPorts s).offBoard = s.offBoard := by
  refine foldl_field State.offBoard _ (fun t p => ?_) _ s
  split <;> rfl

theorem offBoard_railsUp (s : State) : (railsUp s).offBoard = s.offBoard :=
  foldl_field State.offBoard (enableRail 620) (fun _ _ => rfl) _ s

/-- The lines of the segments are taken in, and reads leave on the bus. -/
theorem offBoard_callSegments (rc : RollCall) (status : Nat) (s : State) :
    (callSegments rc status s).offBoard =
      { s with pins := { s.pins with segPresent := rc.present, segAlert := rc.alert } }.offBoard :=
  foldl_field State.offBoard (fun (acc : State) k => logError 0x51 2 .inventory 0xFF 0xFF k 0 acc)
    (fun t _ => by simp [State.offBoard]) ((List.range 4).filter fun k => rc.stuck.getD k false) _

section
variable {rc : RollCall} {s : State}

/-- What roll call finds is bad: no descriptor, or one that does not pass (R473). -/
def RollCallFails (rc : RollCall) : Prop := (heard rc).descriptor = none ∨ (descriptorStatus (heard rc)).1 ≠ 0

theorem runRollCall_of_fails (h : RollCallFails rc) :
    runRollCall rc s =
      ({ barePhase (callSegments rc (descriptorStatus (heard rc)).1 s) with
        inv := failedInventory (heard rc) (descriptorStatus (heard rc)) }, false) := by
  cases hd : (heard rc).descriptor with
  | none => simp only [runRollCall, hd]
  | some d =>
    have bad : (descriptorStatus (heard rc)).1 ≠ 0 := h.resolve_left (by rw [hd]; exact Option.some_ne_none d)
    simp only [runRollCall, hd, bad, if_false]

theorem runRollCall_of_passes {d : BitVec 4096} (hd : (heard rc).descriptor = some d) (h : (descriptorStatus (heard rc)).1 = 0) :
    runRollCall rc s = (rollCallPasses (heard rc) d (descriptorStatus (heard rc))
      (callSegments rc (descriptorStatus (heard rc)).1 s), true) := by
  simp only [runRollCall, hd, h, if_true]

theorem pins_callSegments (rc : RollCall) (status : Nat) (s : State) :
    (callSegments rc status s).pins = { s.pins with segPresent := rc.present, segAlert := rc.alert } :=
  pins_of_offBoard (s := { s with pins := { s.pins with segPresent := rc.present, segAlert := rc.alert } })
    (offBoard_callSegments rc status s)

theorem fw_callSegments (rc : RollCall) (status : Nat) (s : State) : (callSegments rc status s).fw = s.fw :=
  fw_of_offBoard (s := { s with pins := { s.pins with segPresent := rc.present, segAlert := rc.alert } })
    (offBoard_callSegments rc status s)

/-- A roll call that passes leaves the pins in the run phase, -/
theorem pins_rollCallPasses (rc : RollCall) (d : BitVec 4096) (status : Nat × Nat) (s : State) :
    (rollCallPasses rc d status s).pins = (runPhase rc s).pins := by
  simp only [rollCallPasses, pins_of_offBoard (offBoard_trainPorts _), pins_of_offBoard (offBoard_railsUp _), setDomains]

/-- shows progress 8, -/
theorem fw_rollCallPasses (rc : RollCall) (d : BitVec 4096) (status : Nat × Nat) (s : State) :
    (rollCallPasses rc d status s).fw = { s.fw with progress := 8 } := by
  simp only [rollCallPasses, fw_of_offBoard (offBoard_trainPorts _), fw_of_offBoard (offBoard_railsUp _), setDomains, runPhase]

/-- and has the descriptor's inventory. -/
theorem inv_rollCallPasses (rc : RollCall) (d : BitVec 4096) (status : Nat × Nat) (s : State) :
    (rollCallPasses rc d status s).inv = inventoryOf s.pins.straps rc d status := by
  simp only [rollCallPasses, inv_of_offBoard (offBoard_trainPorts _), inv_of_offBoard (offBoard_railsUp _), setDomains]

/-- Roll call in `INIT`, with the Clave bus in its reset phase. -/
theorem exec_rollCall (hi : s.fw.state = .init) (hp : s.pins.clavePhase = 1) :
    exec (.rollCall rc) s =
      .next (if (runRollCall rc s).2 then (runRollCall rc s).1 else setFwState .bare .inventory (runRollCall rc s).1) := by
  change execRollCall rc s = _
  simp only [execRollCall, hi, hp, beq_self_eq_true, decide_true, Bool.not_true, Bool.or_self, Bool.false_eq_true, if_false]
  cases hr : runRollCall rc s with
  | mk t passes => cases passes <;> rfl

theorem exec_rollCall_of_fails (hi : s.fw.state = .init) (hp : s.pins.clavePhase = 1) (h : RollCallFails rc) :
    nextWith (fun t => t.pins.clavePhase = 2 ∧ t.pins.segPresent = rc.present ∧ t.pins.segAlert = rc.alert ∧
      t.fw.state = .bare ∧ t.fw.error = .inventory) (exec (.rollCall rc) s) := by
  refine ⟨_, exec_rollCall hi hp, ?_⟩
  simp [runRollCall_of_fails h, barePhase, pins_callSegments]

theorem exec_rollCall_of_passes {d : BitVec 4096} (hi : s.fw.state = .init) (hp : s.pins.clavePhase = 1)
    (hd : (heard rc).descriptor = some d) (h : (descriptorStatus (heard rc)).1 = 0) :
    nextWith (fun t => t.pins.clavePhase = 2 ∧ t.pins.segPresent = rc.present ∧ t.pins.segAlert = rc.alert ∧
      t.fw.state = .init ∧ t.fw.progress = 8 ∧ t.inv.descStatus = 0) (exec (.rollCall rc) s) := by
  refine ⟨_, exec_rollCall hi hp, ?_⟩
  rw [runRollCall_of_passes hd h]
  simp [pins_rollCallPasses, fw_rollCallPasses, inv_rollCallPasses, runPhase, pins_callSegments, fw_callSegments, hi, inventoryOf, h]

end

/-! ## INVENTORY_RESCAN (R488, R489) -/

/-- A buffer, and `RESCAN`. -/
def RescanFormed (ps : List Byte) : Prop := aligned (arg ps 0 8) 64 = true ∧ arg ps 8 1 = 1 ∧ zeroFrom ps 9 = true

theorem RescanFormed.fits {ps : List Byte} (h : RescanFormed ps) : inventoryBad ps = false := by
  obtain ⟨buffer, flag, rest⟩ := h
  simp only [inventoryBad, bufferBad_false buffer rest, flag, Bool.false_or, decide_eq_false_iff_not]
  omega

/-- `RESCAN` is set. -/
theorem RescanFormed.rescan {ps : List Byte} (h : RescanFormed ps) : natBit (arg ps 8 1) 0 = true := by rw [h.2.1]; rfl

section
variable {r : Request} {rc : RollCall} {m : Mailbox} {s : State}

theorem exec_inventoryRescan_of_bare (h : Served false true false r m s) (hf : RescanFormed (reqArgs r)) (hb : s.fw.state = .bare)
    (hp : r.fn.val = 0) :
    exec (.inventoryRescan r rc) s = .next (nextTurn (
      if (runRollCall rc (awaiting r m s)).2 then
        setFwState .init .ok (respond r.fn.val r.tag 0x02 .ok 1024 (buffered (arg (reqArgs r) 0 8)
          (inventoryBlock (runRollCall rc (awaiting r m s)).1) (runRollCall rc (awaiting r m s)).1))
      else respond r.fn.val r.tag 0x02 .ok 1024 (buffered (arg (reqArgs r) 0 8)
          (inventoryBlock (runRollCall rc (awaiting r m s)).1) (runRollCall rc (awaiting r m s)).1))) := by
  have pf : (r.fn.val == 0) = true := by simp [hp]
  change execInventoryRescan r rc s = _
  simp only [execInventoryRescan, hb, pf, hf.rescan, h.formed, hf.fits, h.mayTake, takeRequest_eq_awaiting h.mailbox,
    beq_self_eq_true, Bool.and_self, Bool.not_true, Bool.not_false, Bool.false_eq_true, if_false]
  rfl

/-- A rescan that is none of this command's is refused as GET_INVENTORY refuses it. -/
theorem exec_inventoryRescan_of_refused {st : Status} (h : Served false true false r m s) (hf : RescanFormed (reqArgs r))
    (hn : (s.fw.state == .bare && r.fn.val == 0) = false) (hs : st = if s.fw.state == .bare then .auth else .state) :
    exec (.inventoryRescan r rc) s = .next (answered r m 0x02 st 0 s) := by
  subst hs
  change execInventoryRescan r rc s = _
  simp only [execInventoryRescan, hn, Bool.false_and, Bool.not_false, if_true]
  exact congrArg Host.Outcome.next (served_same (row := ⟨0x02, false, true, false⟩) h (hf.fits)
    (by simp only [hf.rescan, takeRequest_fw, if_true]))

end

/-- Settles O21: a roll call that fails or passes, and a rescan's three answers. -/
theorem rollCallRunsAndRunsAgain : Obligations.RollCallRunsAndRunsAgain := by
  unfold Obligations.RollCallRunsAndRunsAgain
  refine ⟨fun rc s hi hp => ?call, fun r rc m s h => ⟨?bare, ?vf, ?ready⟩⟩
  case call =>
    by_cases fails : RollCallFails rc
    · obtain ⟨t, ht, phase, present, alert, state, error⟩ := exec_rollCall_of_fails hi hp fails
      refine ⟨t, ht, phase, present, alert, fun _ => ⟨state, error⟩, fun ⟨d, hd⟩ passes => ?_⟩
      exact absurd fails (by rw [RollCallFails, hd]; simp [passes])
    · obtain ⟨found, passes⟩ := not_or.mp fails
      obtain ⟨d, hd⟩ := Option.ne_none_iff_exists'.mp found
      obtain ⟨t, ht, phase, present, alert, rest⟩ := exec_rollCall_of_passes hi hp hd (not_not.mp passes)
      exact ⟨t, ht, phase, present, alert, fun bad => absurd bad fails, fun _ _ => rest⟩
  case bare => exact fun hf hb hp => exec_inventoryRescan_of_bare h hf hb hp
  case vf => exact fun hf hb hp => exec_inventoryRescan_of_refused h hf (by simp [hp]) (by rw [hb]; rfl)
  case ready => exact fun hf hr => exec_inventoryRescan_of_refused h hf (by rw [hr]; rfl) (by rw [hr]; rfl)

/-! ## Flits and interrupts beside the mailboxes

What flits, ports and the log do is the same before and after a request is taken, and leaves every function enabled as it was, with its
mailbox. -/

/-- What the answer of a call asks of its function. -/
def State.mailPart (fn : Nat) (s : State) : Bool × Option Mailbox := ((s.func fn).enabled, (s.func fn).mailbox)

/-- Changes of two functions' entries that commute do so in the list. -/
theorem updFunc_comm (s : State) (j k : Nat) {f g : Func → Func} (h : ∀ x, f (g x) = g (f x)) :
    (s.updFunc k g).updFunc j f = (s.updFunc j f).updFunc k g := by
  have lists : updAt (updAt s.funcs k g) j f = updAt (updAt s.funcs j f) k g := by
    apply List.ext_getElem?
    intro i
    by_cases hj : j = i <;> by_cases hk : k = i <;> simp [updAt, hj, hk, Function.comp_def, h]
  simp only [State.updFunc, lists]

/-- A function's entry with a request of its ring taken. -/
def takeFrom (g : Func) : Func := { g with mailbox := g.mailbox.map fun m => { m with ring := m.ring.drop 1, taken := m.taken + 1 } }

/-- A change of a function's entry beside its mailbox. -/
theorem updFunc_takeRequest (fn k : Nat) (f : Func → Func) (h : ∀ g, f (takeFrom g) = takeFrom (f g)) (s : State) :
    (takeRequest fn s).updFunc k f = takeRequest fn (s.updFunc k f) :=
  congrArg (fun t : State => { t with lastCaller := fn }) (updFunc_comm s k fn h)

theorem mailPart_updFunc (fn k : Nat) (f : Func → Func) (h : ∀ g, ((f g).enabled, (f g).mailbox) = (g.enabled, g.mailbox)) (s : State) :
    (s.updFunc k f).mailPart fn = s.mailPart fn :=
  func_updFunc_of (fun g => (g.enabled, g.mailbox)) f h k fn s

/-- A vector that is pending. -/
def pendVector (bit : Nat) (g : Func) : Func := { g with vectorPending := g.vectorPending ||| BitVec.ofNat 16 (2 ^ bit) }

/-- A cause that has risen. -/
def riseCause (bit : Nat) (g : Func) : Func := { g with irqStatus := g.irqStatus ||| BitVec.ofNat 11 (2 ^ bit) }

@[simp] theorem emit_takeRequest (fn : Nat) (o : Out) (s : State) : (takeRequest fn s).emit o = takeRequest fn (s.emit o) := rfl
@[simp] theorem updPort_takeRequest (fn p : Nat) (f : Port → Port) (s : State) :
    (takeRequest fn s).updPort p f = takeRequest fn (s.updPort p f) := rfl
@[simp] theorem port_takeRequest (fn p : Nat) (s : State) : (takeRequest fn s).port p = s.port p := rfl
@[simp] theorem mailPart_emit (fn : Nat) (o : Out) (s : State) : (s.emit o).mailPart fn = s.mailPart fn := rfl
@[simp] theorem mailPart_updPort (fn p : Nat) (f : Port → Port) (s : State) : (s.updPort p f).mailPart fn = s.mailPart fn := rfl

/-- A part of a function's entry beside its mailbox. -/
theorem func_takeRequest_of {α : Type} (p : Func → α) (h : ∀ g, p (takeFrom g) = p g) (fn k : Nat) (s : State) :
    p ((takeRequest fn s).func k) = p (s.func k) :=
  func_updFunc_of p takeFrom h fn k s

theorem sendMsix_takeRequest (fn k bit : Nat) (s : State) : sendMsix k bit (takeRequest fn s) = takeRequest fn (sendMsix k bit s) := by
  simp only [sendMsix, func_takeRequest_of Func.vectorMask (fun _ => rfl)]
  split
  · exact updFunc_takeRequest fn k (pendVector bit) (fun _ => rfl) s
  · rfl

theorem raiseIrq_takeRequest (fn k bit : Nat) (s : State) : raiseIrq k bit (takeRequest fn s) = takeRequest fn (raiseIrq k bit s) := by
  have risen := updFunc_takeRequest fn k (riseCause bit) (fun _ => rfl) s
  unfold riseCause at risen
  simp only [raiseIrq, func_takeRequest_of Func.enabled (fun _ => rfl), func_takeRequest_of Func.irqStatus (fun _ => rfl),
    func_takeRequest_of Func.irqMask (fun _ => rfl), risen, sendMsix_takeRequest]
  split
  · rfl
  · split <;> rfl

/-- Steps that each commute with the taking of a request do so together. -/
theorem foldl_takeRequest {α : Type} (fn : Nat) {f : State → α → State} (h : ∀ s x, f (takeRequest fn s) x = takeRequest fn (f s x))
    (l : List α) (s : State) : l.foldl f (takeRequest fn s) = takeRequest fn (l.foldl f s) :=
  List.foldl_hom (takeRequest fn) h

theorem raiseIrqs_takeRequest (fn bit : Nat) (fns : List Nat) (s : State) :
    raiseIrqs fns bit (takeRequest fn s) = takeRequest fn (raiseIrqs fns bit s) :=
  foldl_takeRequest fn (f := fun t k => raiseIrq k bit t) (fun t k => raiseIrq_takeRequest fn k bit t) fns s

/-- The log with one more entry, before its interrupts. -/
def entered (src sev : Nat) (st : Status) (fn stave place d : Nat) (s : State) : State :=
  let e : LogEntry := { seq := s.log.nextSeq, time := s.time, source := src, severity := sev, status := st, fn := fn, stave := stave,
                        place := place, detail := d }
  let full := decide (4096 ≤ s.log.entries.length)
  { s with log := { entries := (if full then s.log.entries.drop 1 else s.log.entries) ++ [e], nextSeq := s.log.nextSeq + 1,
                    lost := if full then satAdd 32 s.log.lost 1 else s.log.lost } }

theorem logError_eq (src sev : Nat) (st : Status) (fn stave place d : Nat) (s : State) :
    logError src sev st fn stave place d s =
      if s.fw.state = .failed then s else raiseIrqs (logReaders fn) 10 (entered src sev st fn stave place d s) := rfl

@[simp] theorem logError_takeRequest (fn src sev : Nat) (st : Status) (f stave place d : Nat) (s : State) :
    logError src sev st f stave place d (takeRequest fn s) = takeRequest fn (logError src sev st f stave place d s) := by
  rw [logError_eq, logError_eq, takeRequest_fw]
  split
  · rfl
  · exact raiseIrqs_takeRequest fn 10 (logReaders f) (entered src sev st f stave place d s)

theorem mailPart_sendMsix (fn k bit : Nat) (s : State) : (sendMsix k bit s).mailPart fn = s.mailPart fn := by
  unfold sendMsix
  split
  · exact mailPart_updFunc fn k (pendVector bit) (fun _ => rfl) s
  · rfl

theorem mailPart_raiseIrq (fn k bit : Nat) (s : State) : (raiseIrq k bit s).mailPart fn = s.mailPart fn := by
  simp only [raiseIrq]
  split
  · rfl
  · split
    · exact (mailPart_sendMsix ..).trans (mailPart_updFunc fn k (riseCause bit) (fun _ => rfl) s)
    · exact mailPart_updFunc fn k (riseCause bit) (fun _ => rfl) s

@[simp] theorem mailPart_logError (fn src sev : Nat) (st : Status) (f stave place d : Nat) (s : State) :
    (logError src sev st f stave place d s).mailPart fn = s.mailPart fn := by
  rw [logError_eq]
  split
  · rfl
  · exact foldl_field (State.mailPart fn) (fun t k => raiseIrq k 10 t) (fun t k => mailPart_raiseIrq fn k 10 t) (logReaders f)
      (entered src sev st f stave place d s)

@[simp] theorem oweCredit_takeRequest (fn p : Nat) (vc : BitVec 6) (s : State) :
    oweCredit p vc (takeRequest fn s) = takeRequest fn (oweCredit p vc s) := rfl
@[simp] theorem mailPart_oweCredit (fn p : Nat) (vc : BitVec 6) (s : State) : (oweCredit p vc s).mailPart fn = s.mailPart fn := rfl

@[simp] theorem transmitNow_takeRequest (fn p : Nat) (w : Nat × BitVec 6 × Flit) (s : State) :
    transmitNow p w (takeRequest fn s) = takeRequest fn (transmitNow p w s) := rfl
@[simp] theorem mailPart_transmitNow (fn p : Nat) (w : Nat × BitVec 6 × Flit) (s : State) :
    (transmitNow p w s).mailPart fn = s.mailPart fn := rfl

theorem nextClass_takeRequest (fn : Nat) (s : State) (q : Port) : nextClass (takeRequest fn s) q = nextClass s q := by
  have weight (c : Nat) : classWeight (takeRequest fn s) c = classWeight s c := rfl
  simp only [nextClass, weight]

theorem sendWaiting_takeRequest (fn p n : Nat) (s : State) :
    sendWaiting p n (takeRequest fn s) = takeRequest fn (sendWaiting p n s) := by
  induction n generalizing s with
  | zero => rfl
  | succ n ih =>
    simp only [sendWaiting, port_takeRequest, nextClass_takeRequest]
    split
    · rfl
    · split
      · rfl
      · split
        · rfl
        · rw [updPort_takeRequest, transmitNow_takeRequest, ih]

theorem mailPart_sendWaiting (fn p n : Nat) (s : State) : (sendWaiting p n s).mailPart fn = s.mailPart fn := by
  induction n generalizing s with
  | zero => rfl
  | succ n ih =>
    simp only [sendWaiting]
    split
    · rfl
    · split
      · rfl
      · split
        · rfl
        · rw [ih, mailPart_transmitNow, mailPart_updPort]

@[simp] theorem transmit_takeRequest (fn p q : Nat) (vc : BitVec 6) (f : Flit) (s : State) :
    transmit p q vc f (takeRequest fn s) = takeRequest fn (transmit p q vc f s) := by
  rw [transmit, updPort_takeRequest, flush, port_takeRequest, sendWaiting_takeRequest, ← flush, ← transmit]
@[simp] theorem mailPart_transmit (fn p q : Nat) (vc : BitVec 6) (f : Flit) (s : State) :
    (transmit p q vc f s).mailPart fn = s.mailPart fn := by
  rw [transmit, flush, mailPart_sendWaiting, mailPart_updPort]

@[simp] theorem discardFlit_takeRequest (fn p dest : Nat) (s : State) :
    discardFlit p dest (takeRequest fn s) = takeRequest fn (discardFlit p dest s) := by
  simp only [discardFlit, updPort_takeRequest]
  split <;> rw [logError_takeRequest]
@[simp] theorem mailPart_discardFlit (fn p dest : Nat) (s : State) : (discardFlit p dest s).mailPart fn = s.mailPart fn := by
  rw [discardFlit, mailPart_logError]
  split <;> rfl

@[simp] theorem routeFrom_takeRequest (fn p : Nat) (vc : BitVec 6) (pair : Nat) (f : Flit) (s : State) :
    routeFrom p vc pair f (takeRequest fn s) = takeRequest fn (routeFrom p vc pair f s) := by
  have inside : insideExtents (takeRequest fn s) f.dest.toNat = insideExtents s f.dest.toNat := rfl
  have hop : nextHop (takeRequest fn s) f.dest.toNat = nextHop s f.dest.toNat := rfl
  have port (dim : Nat) (minus : Bool) : hopPort (takeRequest fn s) dim minus pair = hopPort s dim minus pair := rfl
  have channel (d : Option Nat) (dim : Nat) (minus : Bool) : hopVc (takeRequest fn s) d dim minus f.vc = hopVc s d dim minus f.vc := rfl
  simp only [routeFrom, inside, hop, port, channel, takeRequest_fw, discardFlit_takeRequest, oweCredit_takeRequest, transmit_takeRequest]
  split
  · rfl
  · split
    · rfl
    · split <;> rfl
@[simp] theorem mailPart_routeFrom (fn p : Nat) (vc : BitVec 6) (pair : Nat) (f : Flit) (s : State) :
    (routeFrom p vc pair f s).mailPart fn = s.mailPart fn := by
  unfold routeFrom
  split
  · rw [mailPart_oweCredit, mailPart_discardFlit]
  · split
    · exact mailPart_oweCredit ..
    · split
      · rw [mailPart_oweCredit, mailPart_discardFlit]
      · exact mailPart_transmit ..

theorem rerouteFlit_takeRequest (fn p : Nat) (s : State) (w : Nat × BitVec 6 × Flit) :
    rerouteFlit p (takeRequest fn s) w = takeRequest fn (rerouteFlit p s w) := by
  simp only [rerouteFlit, discardFlit_takeRequest, routeFrom_takeRequest]
  split <;> rfl
theorem mailPart_rerouteFlit (fn p : Nat) (s : State) (w : Nat × BitVec 6 × Flit) :
    (rerouteFlit p s w).mailPart fn = s.mailPart fn := by
  unfold rerouteFlit
  split
  · exact mailPart_discardFlit ..
  · exact mailPart_routeFrom ..

theorem dropPort_takeRequest (fn : Nat) (st : PortState) (p : Nat) (s : State) :
    dropPort st p (takeRequest fn s) = takeRequest fn (dropPort st p s) :=
  foldl_takeRequest fn (rerouteFlit_takeRequest fn p) _ (clearPort st p s)
theorem mailPart_dropPort (fn : Nat) (st : PortState) (p : Nat) (s : State) : (dropPort st p s).mailPart fn = s.mailPart fn :=
  foldl_field (State.mailPart fn) _ (mailPart_rerouteFlit fn p) _ (clearPort st p s)

theorem retrainPort_takeRequest (fn p : Nat) (s : State) : retrainPort p (takeRequest fn s) = takeRequest fn (retrainPort p s) := by
  have trains : portTrains (takeRequest fn s) p = portTrains s p := rfl
  simp only [retrainPort, trains, dropPort_takeRequest, updPort_takeRequest]
  split <;> rfl
theorem mailPart_retrainPort (fn p : Nat) (s : State) : (retrainPort p s).mailPart fn = s.mailPart fn := by
  unfold retrainPort
  split
  · rfl
  · rw [mailPart_updPort, mailPart_dropPort]

theorem retrainPorts_takeRequest (fn mask : Nat) (s : State) :
    retrainPorts mask (takeRequest fn s) = takeRequest fn (retrainPorts mask s) := by
  refine foldl_takeRequest fn (fun t p => ?_) _ s
  split
  · exact retrainPort_takeRequest fn p t
  · rfl
theorem mailPart_retrainPorts (fn mask : Nat) (s : State) : (retrainPorts mask s).mailPart fn = s.mailPart fn := by
  refine foldl_field (State.mailPart fn) _ (fun t p => ?_) _ s
  split
  · exact mailPart_retrainPort fn p t
  · rfl

/-! ## LINK_STATUS with a mask (R343) -/

section
variable {r : Request} {m : Mailbox} {s : State}

/-- From the PF the ports of the mask retrain, and then the entries are written. -/
theorem exec_linkRetrain_of_pf (h : Served false false false r m s) (ha : aligned (arg (reqArgs r) 0 8) 64 = true)
    (hz : zeroFrom (reqArgs r) 10 = true) (hp : r.fn.val = 0) :
    exec (.linkRetrain r) s =
      .next (answered r m 0x62 .ok (linkResult (retrainPorts (arg (reqArgs r) 8 2) s)) (buffered (arg (reqArgs r) 0 8)
        ((retrainPorts (arg (reqArgs r) 8 2) s).fabric.ports.flatMap portEntry) (retrainPorts (arg (reqArgs r) 8 2) s))) := by
  have kept := mailPart_retrainPorts r.fn.val (arg (reqArgs r) 8 2) s
  refine congrArg Host.Outcome.next (served_answer h (bufferBad_false ha hz) ?mailbox ?enabled ?body)
  case mailbox => exact (congrArg Prod.snd kept).trans h.mailbox
  case enabled => exact (congrArg Prod.fst kept).trans h.enabled
  case body =>
    have ports := retrainPorts_takeRequest r.fn.val (arg (reqArgs r) 8 2) s
    unfold retrainPorts at ports ⊢
    simp only [hp, beq_self_eq_true, Bool.not_true, Bool.and_false, Bool.false_eq_true, if_false] at ports ⊢
    rw [ports]
    rfl

theorem exec_linkRetrain_of_vf (h : Served false false false r m s) (ha : aligned (arg (reqArgs r) 0 8) 64 = true)
    (hz : zeroFrom (reqArgs r) 10 = true) (hm : arg (reqArgs r) 8 2 ≠ 0) (hp : r.fn.val ≠ 0) :
    exec (.linkRetrain r) s = .next (answered r m 0x62 .auth 0 s) :=
  congrArg Host.Outcome.next (served_same h (bufferBad_false ha hz) (by simp [hm, hp]))

end

/-! ## A port that retrains -/

/-- With nothing from elsewhere waiting to leave by it, a port is cleared. -/
theorem dropPort_of_own {st : PortState} {p : Nat} {s : State} (h : ∀ w ∈ (s.port p).waitTx, w.1 = p) :
    dropPort st p s = clearPort st p s := by
  have none : ((s.port p).waitTx.filter fun w => !(w.1 == p)) = [] :=
    List.filter_eq_nil_iff.mpr fun w hw => by simp [h w hw]
  simp only [dropPort, none, List.foldl_nil]

/-- The flits that came in by a port are lost at every port. -/
theorem port_clearPort_other (st : PortState) {p q : Nat} (h : q ≠ p) (s : State) :
    (clearPort st p s).port q = { s.port q with waitTx := (s.port q).waitTx.filter fun w => !(w.1 == p) } := by
  simp only [clearPort, State.port, State.updPort, List.getD_eq_getElem?_getD, List.getElem?_map, updAt,
    List.getElem?_modify_ne _ _ (Ne.symm h)]
  cases s.fabric.ports[q]? <;> rfl

theorem port_clearPort_same (st : PortState) {p : Nat} {s : State} (h : p < s.fabric.ports.length) :
    (clearPort st p s).port p =
      { s.port p with
        state := st, rate := 0, neighbour := none, replay := [], waitTx := [], served := [], credits := [], owed := [], txSeq := 0,
        rxExpect := 0, nacking := false, resends := [],
        downEvents := if (s.port p).state == .up then (s.port p).downEvents + 1 else (s.port p).downEvents, retryAt := s.time } := by
  simp [clearPort, State.port, State.updPort, List.getD_eq_getElem?_getD, updAt, h]

/-- Settles O22: the mask's two answers, and the port that retrains. -/
theorem retrainingMasksDropPorts : Obligations.RetrainingMasksDropPorts := by
  unfold Obligations.RetrainingMasksDropPorts
  refine ⟨fun _ _ _ h ha hz hm => ⟨exec_linkRetrain_of_pf h ha hz, exec_linkRetrain_of_vf h ha hz hm⟩, fun s p hp ht hw => ?_⟩
  have retrained : retrainPort p s = (clearPort .training p s).updPort p fun x => { x with failedAt := [] } := by
    simp only [retrainPort, ht, dropPort_of_own hw, Bool.not_true, Bool.false_eq_true, if_false]
  have bound : p < (clearPort .training p s).fabric.ports.length := by simpa [clearPort, State.updPort] using hp
  have same := port_updPort_same (clearPort .training p s) (fun x => { x with failedAt := [] }) bound
  rw [port_clearPort_same .training hp] at same
  simp only [retrained, same, true_and]
  exact ⟨fun q hq => (port_updPort_other _ _ hq).trans (port_clearPort_other .training hq s), rfl⟩

end Sys2Proof.Machine
end

section
/-! PROOFS. Interrupt causes and their messages (R386, R387). -/
namespace Sys2Proof.Machine

theorem bitAt_eq {w : Nat} (x : BitVec w) (b : Nat) : bitAt x b = x.getLsbD b := rfl

/-- One bit set. -/
theorem getLsbD_or_twoPow {w : Nat} (x : BitVec w) (i b : Nat) (h : i < w) :
    (x ||| BitVec.ofNat w (2 ^ i)).getLsbD b = (x.getLsbD b || b == i) := by
  have one : (BitVec.ofNat w (2 ^ i)).getLsbD b = (b == i) := by
    rw [BitVec.getLsbD_ofNat, Nat.testBit_two_pow]
    by_cases hb : b = i
    · simp [hb, h]
    · simp [hb, Ne.symm hb]
  rw [BitVec.getLsbD_or, one]

/-- The entry of a function, changed in its place. -/
theorem funcs_set_set (s : State) (k : Nat) (f g : Func) :
    { s with funcs := (s.funcs.set k f).set k g } = { s with funcs := s.funcs.set k g } := by rw [List.set_set]

/-- A function's entry after it is put in its place. -/
theorem func_of_set {s t : State} {k : Nat} {f : Func} (h : t.funcs = s.funcs.set k f) (hb : k < s.funcs.length) : t.func k = f := by
  simp [State.func, h, List.getD_eq_getElem?_getD, hb]

theorem func_of_set_ne {s t : State} {k j : Nat} {f : Func} (h : t.funcs = s.funcs.set k f) (hj : j ≠ k) : t.func j = s.func j := by
  simp [State.func, h, List.getD_eq_getElem?_getD, Ne.symm hj]

/-- A function's own entry put in its place. -/
theorem funcs_set_self {s : State} {k : Nat} (hb : k < s.funcs.length) : s.funcs.set k (s.func k) = s.funcs := by
  simp [State.func, List.getD_eq_getElem?_getD, hb]

/-! ## Messages -/

/-- A function's entry once it is told of a cause: a vector masked in the table stays pending. -/
def Func.told (f : Func) (bit : Nat) : Func := if f.vectorMask.getLsbD bit then pendVector bit f else f

theorem sendMsix_eq {fn : Nat} {s : State} (bit : Nat) (hb : fn < s.funcs.length) :
    sendMsix fn bit s =
      { s with funcs := s.funcs.set fn ((s.func fn).told bit),
               out := s.out ++ if (s.func fn).vectorMask.getLsbD bit then [] else [.msix fn bit] } := by
  unfold sendMsix Func.told
  rw [bitAt_eq]
  split
  · exact (updFunc_eq_set (pendVector bit) hb).trans (by rw [List.append_nil])
  · rw [funcs_set_self hb]
    rfl

/-- The pending vectors after the messages of some causes: a masked one stays pending. -/
def pendingAfter (mask : BitVec 16) (causes : List Nat) (p : BitVec 16) : BitVec 16 :=
  causes.foldl (fun p b => if mask.getLsbD b then p ||| BitVec.ofNat 16 (2 ^ b) else p) p

theorem pendingAfter_cons (mask : BitVec 16) (c : Nat) (causes : List Nat) (p : BitVec 16) :
    pendingAfter mask (c :: causes) p =
      pendingAfter mask causes (if mask.getLsbD c then p ||| BitVec.ofNat 16 (2 ^ c) else p) := rfl

theorem getLsbD_pendingAfter (mask : BitVec 16) (causes : List Nat) (p : BitVec 16) (b : Nat) :
    (pendingAfter mask causes p).getLsbD b = (p.getLsbD b || (causes.contains b && mask.getLsbD b)) := by
  induction causes generalizing p with
  | nil => simp [pendingAfter]
  | cons c causes ih =>
    rw [pendingAfter_cons, ih, List.contains_cons]
    by_cases hb : b = c
    · subst hb
      cases hm : mask.getLsbD b with
      | true =>
        rw [if_pos rfl, getLsbD_or_twoPow p b b (BitVec.lt_of_getLsbD hm)]
        simp
      | false => simp
    · have other : (b == c) = false := beq_false_of_ne hb
      rw [other, Bool.false_or]
      split
      case isTrue hm => rw [getLsbD_or_twoPow p c b (BitVec.lt_of_getLsbD hm), other, Bool.or_false]
      case isFalse => rfl

theorem foldl_told (causes : List Nat) (f : Func) :
    causes.foldl Func.told f = { f with vectorPending := pendingAfter f.vectorMask causes f.vectorPending } := by
  induction causes generalizing f with
  | nil => rfl
  | cons c causes ih =>
    rw [List.foldl_cons, ih, pendingAfter_cons, Func.told]
    split <;> rfl

/-- The messages of some causes of a function, in their order. -/
theorem foldl_sendMsix {fn : Nat} {s : State} (causes : List Nat) (hb : fn < s.funcs.length) :
    causes.foldl (fun (acc : State) b => sendMsix fn b acc) s =
      { s with funcs := s.funcs.set fn (causes.foldl Func.told (s.func fn)),
               out := s.out ++ (causes.filter fun b => !(s.func fn).vectorMask.getLsbD b).map fun b => .msix fn b } := by
  induction causes generalizing s with
  | nil => simp [funcs_set_self hb]
  | cons c causes ih =>
    have told := sendMsix_eq c hb
    have entry : (sendMsix fn c s).func fn = (s.func fn).told c := func_of_set (congrArg State.funcs told) hb
    have mask : ((s.func fn).told c).vectorMask = (s.func fn).vectorMask := by
      unfold Func.told
      split <;> rfl
    rw [List.foldl_cons, ih (by rw [told]; simpa using hb), entry, mask, told]
    cases hm : (s.func fn).vectorMask.getLsbD c <;> simp [hm]

/-! ## A cause that rises -/

/-- A cause sends its message: its bit was clear, and is not masked (R386). -/
def Func.sends (f : Func) (bit : Nat) : Bool := !f.irqStatus.getLsbD bit && !f.irqMask.getLsbD bit

/-- The entry after a cause has risen. -/
def Func.raised (f : Func) (bit : Nat) : Func :=
  { f with irqStatus := f.irqStatus ||| BitVec.ofNat 11 (2 ^ bit),
           vectorPending := if f.sends bit && f.vectorMask.getLsbD bit then f.vectorPending ||| BitVec.ofNat 16 (2 ^ bit)
             else f.vectorPending }

/-- The message that leaves with it. -/
def Func.message (f : Func) (fn bit : Nat) : List Out := if f.sends bit && !f.vectorMask.getLsbD bit then [.msix fn bit] else []

theorem raiseIrq_of_disabled {fn : Nat} {s : State} (bit : Nat) (h : (s.func fn).enabled = false) : raiseIrq fn bit s = s := by
  simp only [raiseIrq, h, Bool.not_false, if_true]

theorem raiseIrq_eq {fn : Nat} {s : State} (bit : Nat) (h : (s.func fn).enabled = true) :
    raiseIrq fn bit s = if (s.func fn).sends bit then sendMsix fn bit (s.updFunc fn (riseCause bit)) else s.updFunc fn (riseCause bit) := by
  simp only [raiseIrq, h, bitAt_eq, Bool.not_true, Bool.false_eq_true, if_false]
  rfl

theorem raiseIrq_of_enabled {fn : Nat} {s : State} (bit : Nat) (h : (s.func fn).enabled = true) :
    raiseIrq fn bit s =
      { s with funcs := s.funcs.set fn ((s.func fn).raised bit), out := s.out ++ (s.func fn).message fn bit } := by
  have hb := func_bound_of_enabled h
  have risen := updFunc_eq_set (s := s) (riseCause bit) hb
  have entry := func_of_set (congrArg State.funcs risen) hb
  rw [raiseIrq_eq bit h]
  cases hs : (s.func fn).sends bit with
  | false => simp [risen, Func.raised, Func.message, hs, riseCause]
  | true =>
    rw [if_pos rfl, sendMsix_eq bit (by simpa [State.updFunc] using hb), entry, risen]
    cases hm : (s.func fn).vectorMask.getLsbD bit <;>
      simp [Func.raised, Func.message, Func.told, hs, hm, riseCause, pendVector]

/-! ## IRQ_STATUS_WRITE and IRQ_MASK_WRITE -/

section
variable {fn : Fin 32} {s : State}

/-- A function's entry with the bits of its status cleared that are written as 1. -/
def Func.cleared (f : Func) (value : Word) : Func := { f with irqStatus := f.irqStatus &&& ~~~(BitVec.ofNat 11 value.toNat) }

/-- The low bits of a register's value. -/
theorem getLsbD_low (value : Word) {w b : Nat} (h : b < w) : (BitVec.ofNat w value.toNat).getLsbD b = value.getLsbD b := by
  rw [BitVec.getLsbD_ofNat, BitVec.testBit_toNat, decide_eq_true h, Bool.true_and]

theorem irqStatus_cleared (f : Func) (value : Word) {b : Nat} (h : b < 11) :
    (f.cleared value).irqStatus.getLsbD b = (f.irqStatus.getLsbD b && !value.getLsbD b) := by
  simp only [Func.cleared, BitVec.getLsbD_and, BitVec.getLsbD_not, getLsbD_low value h, decide_eq_true h, Bool.true_and]

theorem exec_irqStatusWrite (value : Word) (h : (s.func fn.val).enabled = true) (hu : s.pcie.up = true) :
    exec (.irqStatusWrite fn value) s = .next { s with funcs := s.funcs.set fn.val ((s.func fn.val).cleared value) } := by
  change execIrqStatusWrite fn value s = _
  rw [execIrqStatusWrite, reaches, if_pos (by rw [h, hu]; rfl)]
  exact congrArg Host.Outcome.next (updFunc_eq_set (Func.cleared · value) (func_bound_of_enabled h))

/-- A cause that a write of the mask unmasks while its status bit is 1. -/
def Func.unmasks (f : Func) (value : Word) (b : Nat) : Bool := f.irqMask.getLsbD b && !value.getLsbD b && f.irqStatus.getLsbD b

/-- The causes that such a write tells of. -/
def Func.dueCauses (f : Func) (value : Word) : List Nat := (List.range 11).filter (f.unmasks value)

theorem exec_irqMaskWrite (value : Word) (h : (s.func fn.val).enabled = true) (hu : s.pcie.up = true) :
    exec (.irqMaskWrite fn value) s = .next { s with
      funcs := s.funcs.set fn.val
        { s.func fn.val with
          irqMask := value.setWidth 11,
          vectorPending := pendingAfter (s.func fn.val).vectorMask ((s.func fn.val).dueCauses value) (s.func fn.val).vectorPending },
      out := s.out ++ (((s.func fn.val).dueCauses value).filter fun b => !(s.func fn.val).vectorMask.getLsbD b).map fun b => .msix fn.val b } := by
  have hb := func_bound_of_enabled h
  have causes : ((List.range 11).filter fun b => bitAt (s.func fn.val).irqMask b && !bitAt (BitVec.ofNat 11 value.toNat) b &&
      bitAt (s.func fn.val).irqStatus b) = (s.func fn.val).dueCauses value :=
    List.filter_congr fun b hb => by
      simp only [bitAt_eq, getLsbD_low value (List.mem_range.mp hb)]
      rfl
  have masked := updFunc_eq_set (s := s) (fun g => { g with irqMask := BitVec.ofNat 11 value.toNat }) hb
  have entry := func_of_set (congrArg State.funcs masked) hb
  change execIrqMaskWrite fn value s = _
  rw [execIrqMaskWrite, reaches, if_pos (by rw [h, hu]; rfl)]
  simp only [causes]
  rw [foldl_sendMsix _ (by rw [masked]; simpa using hb), entry, foldl_told, masked]
  simp only [List.set_set, BitVec.ofNat_toNat]

end

/-- Settles O27: the two writes above, and a cause that rises. -/
theorem interruptsAreRaisedAndWritten : Obligations.InterruptsAreRaisedAndWritten := by
  unfold Obligations.InterruptsAreRaisedAndWritten
  refine ⟨fun fn value s h hu => ⟨?cleared, ?masked, _, exec_irqStatusWrite value h hu⟩,
    fun fn bit s hb hbit => ⟨raiseIrq_of_disabled bit, fun h => ⟨_, _, ?set, ?others, ?pending, raiseIrq_of_enabled bit h⟩⟩⟩
  case cleared =>
    intro t ht
    cases (exec_irqStatusWrite value h hu).symm.trans ht
    have entry := func_of_set (t := { s with funcs := s.funcs.set fn.val ((s.func fn.val).cleared value) }) rfl (func_bound_of_enabled h)
    rw [entry]
    exact ⟨fun b hb => irqStatus_cleared _ value hb, rfl⟩
  case masked =>
    have causes : (s.func fn.val).dueCauses value = (List.range 11).filter ((s.func fn.val).unmasks value) := rfl
    refine ⟨pendingAfter (s.func fn.val).vectorMask ((s.func fn.val).dueCauses value) (s.func fn.val).vectorPending, fun b _ => ?_, ?_⟩
    · rw [getLsbD_pendingAfter, causes]
      simp [Func.unmasks, Bool.and_assoc]
    · rw [exec_irqMaskWrite value h hu, causes, List.filter_filter]
      simp only [Func.unmasks, Bool.and_comm]
  case set => exact (getLsbD_or_twoPow _ bit bit hbit).trans (by simp)
  case others => exact fun b hb => (getLsbD_or_twoPow _ bit b hbit).trans (by simp [hb])
  case pending =>
    intro b hb
    rw [Bool.and_assoc]
    change (if ((s.func fn).sends bit && (s.func fn).vectorMask.getLsbD bit) = true then _ else _ : BitVec 16).getLsbD b =
      (_ || (b == bit && ((s.func fn).sends bit && (s.func fn).vectorMask.getLsbD bit)))
    cases hs : (s.func fn).sends bit && (s.func fn).vectorMask.getLsbD bit with
    | true => rw [if_pos rfl, getLsbD_or_twoPow _ bit b (by omega), Bool.and_true]
    | false => rw [if_neg Bool.false_ne_true, Bool.and_false, Bool.or_false]

end Sys2Proof.Machine
end

section
/-! PROOFS. What refuses a request, full response rings, and the doorbells of the mailboxes (R382, R384, R388 to R393, R528, R529). -/
namespace Sys2Proof.Machine

/-! ## Refusals (R393, R536) -/

section
variable {r : Request} {m : Mailbox} {s : State}

/-- A request that has its turn, and whose answer has room, whatever it asks. -/
structure Waits (r : Request) (m : Mailbox) (s : State) : Prop where
  firmware : s.fw.state = .ready ∨ s.fw.state = .bare
  enabled : (s.func r.fn.val).enabled = true
  mailbox : s.mailbox r.fn.val = some m
  turn : mailboxTurn s = some r.fn.val
  runs : m.stopping = false
  noneHeld : m.held = []
  room : m.rspUnreleased + 1 < m.rspEntries

theorem Waits.serving (h : Waits r m s) : serving s = true := by
  rcases h.firmware with f | f <;> simp [Machine.serving, f]

theorem Waits.mayTake (h : Waits r m s) : mayTake r.fn.val s = true := by
  simp only [Machine.mayTake, h.serving, h.turn, beq_self_eq_true, Bool.and_self]

/-- The answer of a request as it is taken. -/
theorem Waits.answer (h : Waits r m s) (op : Nat) (st : Status) :
    nextTurn (respond r.fn.val r.tag op st 0 (takeRequest r.fn.val s)) = answered r m op st 0 s :=
  congrArg nextTurn (respond_takeRequest r op st 0 h.enabled h.mailbox h.runs h.noneHeld h.room)

/-- What is wrong with the parameters of POWER_POLICY_SET, or with the request itself. -/
def PolicyMalformed (r : Request) : Prop := reqFormed r false = false ∨ 4 ≤ arg (reqArgs r) 7 1 ∨ zeroFrom (reqArgs r) 8 = false

/-- The service's own test of a malformed POWER_POLICY_SET. -/
theorem policyMalformed_iff (r : Request) :
    (!reqFormed r false || (decide (4 ≤ arg (reqArgs r) 7 1) || !zeroFrom (reqArgs r) 8)) = true ↔ PolicyMalformed r := by
  simp [PolicyMalformed]

theorem exec_powerPolicySet_of_malformed (h : Waits r m s) (hb : PolicyMalformed r) :
    exec (.powerPolicySet r) s = .next (answered r m 0xB0 .invalid 0 s) := by
  refine congrArg Host.Outcome.next ?_
  simp only [serveCall, h.mayTake, (policyMalformed_iff r).mpr hb, if_true, h.answer]

theorem exec_powerPolicySet_of_vf (h : Waits r m s) (hb : ¬ PolicyMalformed r) (hf : r.fn.val ≠ 0) :
    exec (.powerPolicySet r) s = .next (answered r m 0xB0 .auth 0 s) := by
  have vf : (r.fn.val == 0) = false := beq_false_of_ne hf
  refine congrArg Host.Outcome.next ?_
  simp only [serveCall, h.mayTake, mt (policyMalformed_iff r).mp hb, vf, Bool.false_eq_true, if_true, if_false, Bool.not_false, Bool.and_self, h.answer]

theorem exec_powerPolicySet_of_bare (h : Waits r m s) (hb : ¬ PolicyMalformed r) (hf : r.fn.val = 0) (hs : s.fw.state = .bare) :
    exec (.powerPolicySet r) s = .next (answered r m 0xB0 .inventory 0 s) := by
  have pf : (r.fn.val == 0) = true := by simp [hf]
  refine congrArg Host.Outcome.next ?_
  simp only [serveCall, h.mayTake, mt (policyMalformed_iff r).mp hb, pf, takeRequest_fw, hs, if_true, if_false, Bool.not_true, Bool.and_false,
    Bool.not_false, beq_self_eq_true, Bool.and_self, Bool.false_eq_true, h.answer]

end

/-! ## Requests of unknown opcodes (R392, R393) -/

section
variable {r : Request} {m : Mailbox} {s : State}

theorem sum_set_of_getElem {l : List Nat} {i : Nat} (h : i < l.length) (x : Nat) : (l.set i x).sum + l[i] = l.sum + x := by
  induction l generalizing i with
  | nil => simp at h
  | cons a l ih =>
    cases i with
    | zero => simp only [List.set_cons_zero, List.sum_cons, List.getElem_cons_zero]; omega
    | succ i =>
      have := ih (i := i) (by simpa using h)
      simp only [List.set_cons_succ, List.sum_cons, List.getElem_cons_succ]
      omega

/-- An answer takes one request from the rings. -/
theorem ringLoad_answer (op : Nat) (st : Status) (res : Nat) (hm : s.mailbox r.fn.val = some m) (hr : m.ring ≠ []) :
    ringLoad (answer r m op st res s) + 1 = ringLoad s := by
  have hb := mailbox_bound hm
  have entry : s.funcs[r.fn.val].mailbox = some m := by
    simpa [State.mailbox, State.func, List.getD_eq_getElem?_getD, hb] using hm
  have lengths := List.length_pos_iff.mpr hr
  have sums := sum_set_of_getElem (l := s.funcs.map fun f => (f.mailbox.map fun m => m.ring.length).getD 0) (i := r.fn.val)
    (by simpa using hb) (m.ring.length - 1)
  simp only [List.getElem_map, entry, Option.map_some, Option.getD_some] at sums
  have load : ringLoad (answer r m op st res s) =
      ((s.funcs.map fun f => (f.mailbox.map fun m => m.ring.length).getD 0).set r.fn.val (m.ring.length - 1)).sum := by
    simp [ringLoad, answer, List.map_set]
  have whole : ringLoad s = (s.funcs.map fun f => (f.mailbox.map fun m => m.ring.length).getD 0).sum := rfl
  omega

/-- An unknown request in front of the ring whose turn it is. -/
theorem nextTurn_of_unknown {op : Half} (h : Served false true true r m s)
    (hu : m.ring.head? = some (some { opcode := op, tag := r.tag })) : nextTurn s = answered r m op.toNat .invalid 0 s := by
  have serves : serving s = true := by
    rcases h.firmware with f | ⟨-, f⟩ <;> simp [Machine.serving, f]
  have front : unknownNext s = some (r.fn.val, { opcode := op, tag := r.tag }) := by
    simp [unknownNext, serves, h.turn, h.mailbox, hu]
  have load := ringLoad_answer (r := r) op.toNat .invalid 0 h.mailbox fun none => by simp [none] at hu
  rw [nextTurn, ← load, refuseUnknown, front]
  simp only [respond_takeRequest r op.toNat .invalid 0 h.enabled h.mailbox h.runs h.noneHeld h.room]
  rfl

end

/-! ## Held responses (R392) -/

/-- The functions with a mailbox put in place of another. -/
def State.withMailbox (fn : Nat) (o : Option Mailbox) (s : State) : State :=
  { s with funcs := s.funcs.set fn { s.func fn with mailbox := o } }

theorem updMailbox_eq {s : State} {fn : Nat} {m : Mailbox} (hm : s.mailbox fn = some m) (f : Mailbox → Mailbox) :
    s.updMailbox fn f = s.withMailbox fn (some (f m)) := by
  have hm' : (s.func fn).mailbox = some m := hm
  rw [State.updMailbox, updFunc_eq_set _ (mailbox_bound hm), hm']
  rfl

theorem func_withMailbox {s : State} {fn : Nat} (o : Option Mailbox) (hb : fn < s.funcs.length) :
    (s.withMailbox fn o).func fn = { s.func fn with mailbox := o } :=
  func_of_set (s := s) rfl hb

theorem func_hostWrite (a : Nat) (bs : List Byte) (s : State) (k : Nat) : (hostWrite a bs s).func k = s.func k := rfl

/-- While the ring is full a response is held. -/
theorem respond_of_full {fn : Nat} {m : Mailbox} {s : State} (tag : Word) (op : Nat) (st : Status) (result : Nat)
    (hm : s.mailbox fn = some m) (hf : m.rspEntries ≤ m.rspUnreleased + 1) :
    respond fn tag op st result s = s.withMailbox fn (some { m with
      held := m.held ++ [{ tag := tag, status := st, opcode := BitVec.ofNat 16 op, result := BitVec.ofNat 352 result }] }) := by
  have full : (m.full || !m.held.isEmpty) = true := by simp [Mailbox.full, hf]
  simp only [respond, postResponse, hm, full, if_true, updMailbox_eq hm]

/-- A mailbox and host memory once a response is written into the next slot: the entry has the phase of its slot. -/
def putResponse (p : Mailbox × Memory) (r : Response) : Mailbox × Memory :=
  ({ p.1.posted with held := p.1.held.drop 1 }, p.2.writeBytes (p.1.rspBase + 64 * p.1.rspWrite) (responseBytes r p.1.rspPhase))

/-- Slots of a response ring that may be written. -/
def Mailbox.slots (m : Mailbox) : Nat := m.rspEntries - 1 - m.rspUnreleased

theorem held_foldl_putResponse (l : List Response) (p : Mailbox × Memory) :
    (l.foldl putResponse p).1.held = p.1.held.drop l.length := by
  induction l generalizing p with
  | nil => rfl
  | cons x l ih => rw [List.foldl_cons, ih]; simp [putResponse]

theorem stopping_foldl_putResponse (l : List Response) (p : Mailbox × Memory) :
    (l.foldl putResponse p).1.stopping = p.1.stopping := by
  induction l generalizing p with
  | nil => rfl
  | cons x l ih => exact ih _

/-- `u` is `s` but for host memory, which is `h`, the entry of function `fn`, which has mailbox `p`, and what leaves. -/
structure Posting (fn : Nat) (s : State) (p : Mailbox) (h : Memory) (u : State) : Prop where
  host : u.host = h
  mailbox : u.mailbox fn = some p
  enabled : (u.func fn).enabled = true
  others : ∀ j, j ≠ fn → u.func j = s.func j
  frame : u = { s with host := u.host, funcs := u.funcs, out := u.out }

/-- The mailbox is left, but for one that stops and owes nothing more. -/
def leftMailbox (wrote : Bool) (p : Mailbox) : Option Mailbox :=
  if wrote = true ∧ p.stopping = true ∧ p.taken = 0 ∧ p.held = [] then none else some p

/-- What stands once held responses have been posted. -/
structure Drained (fn : Nat) (s : State) (wrote : Bool) (p : Mailbox) (h : Memory) (t : State) : Prop where
  host : t.host = h
  mailbox : t.mailbox fn = leftMailbox wrote p
  others : ∀ j, j ≠ fn → t.func j = s.func j
  frame : t = { s with host := t.host, funcs := t.funcs, out := t.out }

/-- A response written into the next slot, with what its cause sends. -/
theorem writeResponse_eq {fn : Nat} {q : Mailbox} {u : State} (p : Mailbox) (r : Response) (hm : u.mailbox fn = some q)
    (he : (u.func fn).enabled = true) :
    writeResponse fn p r u =
      { u with
        host := u.host.writeBytes (p.rspBase + 64 * p.rspWrite) (responseBytes r p.rspPhase),
        funcs := u.funcs.set fn (Func.raised { u.func fn with mailbox := some q.posted } 0),
        out := u.out ++ (u.func fn).message fn 0 } := by
  have hb := mailbox_bound hm
  rw [writeResponse]
  generalize responseBytes r p.rspPhase = bs
  generalize p.rspBase + 64 * p.rspWrite = a
  have posted := updMailbox_eq (s := hostWrite a bs u) hm Mailbox.posted
  have entry := func_withMailbox (s := hostWrite a bs u) (some q.posted) hb
  rw [func_hostWrite] at entry
  rw [posted, raiseIrq_of_enabled 0 (by rw [entry]; exact he), entry]
  simp [State.withMailbox, hostWrite, Func.message, Func.sends]

section
variable {fn : Nat} {s u : State} {p : Mailbox} {h : Memory}

/-- One response written: the mailbox and host memory are those of `putResponse`, and cause bit 0 is set. -/
theorem Posting.write (hp : Posting fn s p h u) (r : Response) :
    Posting fn s (putResponse (p, h) r).1 (putResponse (p, h) r).2
      (writeResponse fn p r (u.updMailbox fn fun x => { x with held := p.held.drop 1 })) ∧
    ((writeResponse fn p r (u.updMailbox fn fun x => { x with held := p.held.drop 1 })).func fn).irqStatus.getLsbD 0 = true := by
  have hb := mailbox_bound hp.mailbox
  have taken := updMailbox_eq hp.mailbox fun x => { x with held := p.held.drop 1 }
  have entry := func_withMailbox (some { p with held := p.held.drop 1 }) hb
  rw [taken, writeResponse_eq p r (congrArg Func.mailbox entry) ((congrArg Func.enabled entry).trans hp.enabled), entry]
  simp only [State.withMailbox, List.set_set]
  have written (v : State) (hv : v.funcs = u.funcs.set fn
      (Func.raised { u.func fn with mailbox := some { p with held := p.held.drop 1 }.posted } 0)) :
      v.func fn = Func.raised { u.func fn with mailbox := some { p with held := p.held.drop 1 }.posted } 0 := func_of_set hv hb
  refine ⟨⟨?host, ?mailbox, ?enabled, fun j hj => ?others, ?frame⟩, ?cause⟩
  case host => simp only [hp.host, putResponse]
  case mailbox => exact congrArg Func.mailbox (written _ rfl)
  case enabled => exact (congrArg Func.enabled (written _ rfl)).trans hp.enabled
  case others => exact (func_of_set_ne rfl hj).trans (hp.others j hj)
  case frame => rw [hp.frame]
  case cause =>
    rw [written _ rfl]
    exact (getLsbD_or_twoPow _ 0 0 (by omega)).trans (by simp)

/-- A mailbox that stops is closed after a response that leaves nothing owed. -/
theorem closeStopped_eq (hm : u.mailbox fn = some p) :
    closeStopped fn u = if p.stopping = true ∧ p.taken = 0 ∧ p.held = [] then u.withMailbox fn none else u := by
  have test : (p.stopping && p.taken == 0 && p.held.isEmpty) = true ↔ p.stopping = true ∧ p.taken = 0 ∧ p.held = [] := by
    simp [and_assoc]
  simp only [closeStopped, hm, test]
  split
  · exact updFunc_eq_set _ (mailbox_bound hm)
  · rfl

/-- Nothing more is written. -/
theorem Posting.drained (hp : Posting fn s p h u) : Drained fn s (decide (p.held ≠ [])) p h u :=
  ⟨hp.host, hp.mailbox.trans (if_neg fun ⟨owes, _, _, empty⟩ => of_decide_eq_true owes empty).symm, hp.others, hp.frame⟩

/-- A mailbox closed after the last response. -/
theorem Posting.closed (hp : Posting fn s p h u) (hc : p.stopping = true ∧ p.taken = 0 ∧ p.held = []) :
    Drained fn s true p h (u.withMailbox fn none) := by
  have hb := mailbox_bound hp.mailbox
  refine ⟨hp.host, ?_, fun j hj => (func_of_set_ne rfl hj).trans (hp.others j hj), ?_⟩
  · rw [leftMailbox, if_pos ⟨rfl, hc⟩]
    exact congrArg Func.mailbox (func_withMailbox none hb)
  · rw [hp.frame]
    rfl

/-- A mailbox that is not to be closed is left, whether a response was written or not. -/
theorem leftMailbox_of_open {p q : Mailbox} {b c : Bool} (h : q.stopping = p.stopping)
    (ho : p.held ≠ [] → b = c) (hn : p.held = [] → q = p) (hc : ¬ (p.stopping = true ∧ p.taken = 0 ∧ p.held = [])) :
    leftMailbox b q = leftMailbox c q := by
  by_cases empty : p.held = []
  · obtain rfl := hn empty
    simp only [leftMailbox, hc, and_false]
  · rw [ho empty]

/-- The cause bit of a function stands. -/
def told (fn : Nat) (t : State) : Prop := (t.func fn).irqStatus.getLsbD 0 = true

/-- Held responses are written in their order while slots are free, and a mailbox that stops is closed once it owes nothing more. -/
theorem drainResponses_drained (n : Nat) (hn : p.held.length ≤ n) (hp : Posting fn s p h u) :
    Drained fn s (decide (p.held ≠ [])) ((p.held.take p.slots).foldl putResponse (p, h)).1
        ((p.held.take p.slots).foldl putResponse (p, h)).2 (drainResponses fn n u) ∧
      ((told fn u ∨ (p.held ≠ [] ∧ 0 < p.slots)) → told fn (drainResponses fn n u)) := by
  induction n generalizing p h u with
  | zero =>
    have none : p.held = [] := List.length_eq_zero_iff.mp (by omega)
    simpa [none, drainResponses] using hp.drained
  | succ n ih =>
    cases hh : p.held with
    | nil => simpa [drainResponses, hp.mailbox, hh] using hp.drained
    | cons r rest =>
      by_cases hf : p.full = true
      · have noSlot : p.slots = 0 := by
          simp only [Mailbox.full, decide_eq_true_eq] at hf
          simp only [Mailbox.slots]
          omega
        simpa [drainResponses, hp.mailbox, hh, hf, noSlot] using hp.drained
      · have slot : ∃ k, p.slots = k + 1 ∧ (putResponse (p, h) r).1.slots = k := by
          simp only [Mailbox.full, decide_eq_true_eq] at hf
          refine ⟨p.slots - 1, ?_, ?_⟩ <;> simp only [Mailbox.slots, putResponse, Mailbox.posted] <;> omega
        obtain ⟨k, slots, left⟩ := slot
        obtain ⟨written, cause⟩ := hp.write r
        have held : (putResponse (p, h) r).1.held = rest := by simp [putResponse, hh]
        have dropped : p.held.drop 1 = rest := by rw [hh]; rfl
        rw [dropped] at written cause
        have unfolded : drainResponses fn (n + 1) u = drainResponses fn n (closeStopped fn
            (writeResponse fn p r (u.updMailbox fn fun x => { x with held := rest }))) := by
          simp only [drainResponses, hp.mailbox, hh, hf, Bool.false_eq_true, if_false]
        have stops := stopping_foldl_putResponse (rest.take k) (putResponse (p, h) r)
        rw [unfolded, closeStopped_eq written.mailbox, slots, List.take_succ_cons, List.foldl_cons]
        generalize putResponse (p, h) r = q at *
        generalize writeResponse fn p r (u.updMailbox fn fun x => { x with held := rest }) = v at *
        split
        case isTrue hc =>
          obtain rfl := held.symm.trans hc.2.2
          have closed := written.closed hc
          have ends : drainResponses fn n (v.withMailbox fn none) = v.withMailbox fn none := by
            cases n with
            | zero => rfl
            | succ n =>
              have none := closed.mailbox
              rw [leftMailbox, if_pos ⟨rfl, hc⟩] at none
              simp only [drainResponses, none]
          rw [ends]
          refine ⟨by simpa using closed, fun _ => ?_⟩
          exact (congrArg (fun f : Func => f.irqStatus.getLsbD 0) (func_withMailbox none (mailbox_bound written.mailbox))).trans cause
        case isFalse hc =>
          obtain ⟨drained, tells⟩ := ih (by rw [held]; simpa [hh] using hn) written
          rw [held, left] at drained
          refine ⟨⟨drained.host, drained.mailbox.trans ?_, drained.others, drained.frame⟩, fun _ => tells (Or.inl cause)⟩
          refine leftMailbox_of_open stops (fun some => ?_) (fun empty => ?_) hc
          · rw [held] at some
            simp [some]
          · rw [held] at empty
            simp [empty]

end

/-! ## MBX_RSP_DB (R388, R392) -/

section
variable {fn : Nat} {m : Mailbox} {s : State}

theorem reaches_of (he : (s.func fn).enabled = true) (hu : s.pcie.up = true) : reaches s fn = true := by
  rw [reaches, he, hu]
  rfl

theorem serving_of (h : s.fw.state = .ready ∨ s.fw.state = .bare) : serving s = true := by
  rcases h with h | h <;> simp [serving, h]

/-- The head that a doorbell names releases slots, and held responses follow. -/
theorem ringHead_of_release {value : DWord} {k : Nat} (he : (s.func fn).enabled = true) (hu : s.pcie.up = true)
    (hf : s.fw.state = .ready ∨ s.fw.state = .bare) (hm : s.mailbox fn = some m) (hz : bitField value 12 52 = 0)
    (hk : releaseCount m.rspEntries m.rspWrite m.rspUnreleased (bitField value 0 12) = some k) :
    ringHead fn value s =
      drainResponses fn (m.held.length + 1) (s.withMailbox fn (some { m with rspUnreleased := m.rspUnreleased - k })) := by
  simp only [ringHead, reaches_of he hu, serving_of hf, hm, hz, hk, beq_self_eq_true, Bool.not_true, Bool.or_self, Bool.false_eq_true,
    if_false, updMailbox_eq hm]

/-- The state as slots are released. -/
theorem posting_released (he : (s.func fn).enabled = true) (hm : s.mailbox fn = some m) (k : Nat) :
    Posting fn s { m with rspUnreleased := m.rspUnreleased - k } s.host
      (s.withMailbox fn (some { m with rspUnreleased := m.rspUnreleased - k })) := by
  have entry := func_withMailbox (some { m with rspUnreleased := m.rspUnreleased - k }) (mailbox_bound hm)
  exact ⟨rfl, congrArg Func.mailbox entry, (congrArg Func.enabled entry).trans he, fun _ hj => func_of_set_ne rfl hj, rfl⟩

end

theorem exec_mbxRspDb {fn : Fin 32} {value : DWord} {s : State} (hw : doorbellsWait s = false) :
    exec (.mbxRspDb fn value) s = .next (ringHead fn.val value s) := by
  change execMbxRspDb fn value s = _
  simp only [execMbxRspDb, doorbell, hw, Bool.false_eq_true, if_false, ringDoorbell]

/-- Held responses leave as the host releases slots. -/
theorem exec_mbxRspDb_of_held {fn : Fin 32} {value : DWord} {m : Mailbox} {k : Nat} {s : State} (he : (s.func fn.val).enabled = true)
    (hu : s.pcie.up = true) (hf : s.fw.state = .ready ∨ s.fw.state = .bare) (hw : doorbellsWait s = false)
    (hm : s.mailbox fn.val = some m) (hh : m.held ≠ []) (hz : bitField value 12 52 = 0)
    (hk : releaseCount m.rspEntries m.rspWrite m.rspUnreleased (bitField value 0 12) = some k) :
    let room := m.rspEntries - 1 - (m.rspUnreleased - k)
    let q := (m.held.take room).foldl putResponse ({ m with rspUnreleased := m.rspUnreleased - k }, s.host)
    q.1.held = m.held.drop room ∧
      nextWith (fun t => t.host = q.2 ∧
        t.mailbox fn.val = (if m.stopping = true ∧ q.1.taken = 0 ∧ q.1.held = [] then none else some q.1) ∧
        (0 < room → (t.func fn.val).irqStatus.getLsbD 0 = true) ∧ (∀ j, j ≠ fn.val → t.func j = s.func j) ∧
        t = { s with host := t.host, funcs := t.funcs, out := t.out }) (exec (.mbxRspDb fn value) s) := by
  intro room q
  have stops : q.1.stopping = m.stopping := stopping_foldl_putResponse _ _
  obtain ⟨⟨host, mailbox, others, frame⟩, tells⟩ :=
    drainResponses_drained (p := { m with rspUnreleased := m.rspUnreleased - k }) (m.held.length + 1) (Nat.le_succ _)
      (posting_released he hm k)
  refine ⟨?held, _, (exec_mbxRspDb hw).trans (congrArg _ (ringHead_of_release he hu hf hm hz hk)), host, mailbox.trans ?_,
    fun some => tells (Or.inr ⟨hh, some⟩), others, frame⟩
  case held =>
    refine (held_foldl_putResponse (m.held.take room) _).trans ?_
    rcases Nat.le_total room m.held.length with short | long
    · rw [List.length_take_of_le short]
    · rw [List.take_of_length_le long, List.drop_length, List.drop_eq_nil_of_le long]
  · change leftMailbox (decide (m.held ≠ [])) q.1 = _
    rw [leftMailbox, stops, decide_eq_true hh]
    simp only [true_and]

/-! ## Calls out of turn (R384, R392) -/

section
variable {r : Request} {s : State}

theorem serveCall_of_notTaken (h : mayTake r.fn.val s = false) (row : CallRow) (bad : List Byte → Bool)
    (body : List Byte → State → State × CallEnd) : serveCall row r bad body s = s := by
  simp only [serveCall, h, Bool.false_eq_true, if_false]

/-- A command that is one call. -/
theorem exec_of_notTaken {c : Instr} {row : CallRow} {bad : List Byte → Bool} {body : List Byte → State → State × CallEnd}
    (h : mayTake r.fn.val s = false) (hc : exec c s = .next (serveCall row r bad body s)) : exec c s = .next s := by
  rw [hc, serveCall_of_notTaken h]

/-- A command that is one call, and the decision that follows. -/
theorem exec_settle_of_notTaken {c : Instr} {row : CallRow} {bad : List Byte → Bool} {body : List Byte → State → State × CallEnd}
    (h : mayTake r.fn.val s = false) (hc : exec c s = .next (settle (serveCall row r bad body s))) : exec c s = .next (settle s) := by
  rw [hc, serveCall_of_notTaken h]

theorem inventoryRow_of_notTaken (h : mayTake r.fn.val s = false) : inventoryRow r s = s := serveCall_of_notTaken h _ _ _

theorem exec_getInventory_of_notTaken (h : mayTake r.fn.val s = false) : exec (.getInventory r) s = .next s := by
  change execGetInventory r s = _
  rw [execGetInventory, inventoryRow_of_notTaken h, ite_self]

theorem exec_inventoryRescan_of_notTaken (h : mayTake r.fn.val s = false) (rc : RollCall) :
    exec (.inventoryRescan r rc) s = .next s := by
  change execInventoryRescan r rc s = _
  simp only [execInventoryRescan, inventoryRow_of_notTaken h, h, Bool.not_false, if_true, ite_self]

theorem exec_fwUpdateActivate_of_notTaken (h : mayTake r.fn.val s = false) : exec (.fwUpdateActivate r) s = .next s := by
  refine congrArg Host.Outcome.next (?_ : activateAfter _ s (serveCall _ r _ _ s) = s)
  rw [serveCall_of_notTaken h, activateAfter]
  split
  case h_1 i hi => simp [hi]
  case h_2 => rfl

end

/-- Settles O23: refusals, the requests of unknown opcodes, held responses, and calls out of turn. -/
theorem refusalsAndFullRings : Obligations.RefusalsAndFullRings := by
  unfold Obligations.RefusalsAndFullRings
  refine ⟨fun r m s hf he hm ht hs hh hr => ?refusals, fun _ _ _ _ => nextTurn_of_unknown,
    fun _ tag op st result _ _ => respond_of_full tag op st result,
    fun _ _ _ _ _ he hu hf hw hm hh hz hk => exec_mbxRspDb_of_held he hu hf hw hm hh hz hk,
    fun r s h => ⟨?calls, ?settling, exec_inventoryRescan_of_notTaken h⟩⟩
  case refusals =>
    have waits : Waits r m s := ⟨hf, he, hm, ht, hs, hh, hr⟩
    exact ⟨exec_powerPolicySet_of_malformed waits, exec_powerPolicySet_of_vf waits, exec_powerPolicySet_of_bare waits⟩
  case calls =>
    simp only [List.mem_cons, List.not_mem_nil, or_false, forall_eq_or_imp, forall_eq]
    exact ⟨exec_of_notTaken h rfl, exec_of_notTaken h rfl, exec_of_notTaken h rfl, exec_of_notTaken h rfl, exec_of_notTaken h rfl,
      exec_of_notTaken h rfl, exec_of_notTaken h rfl, exec_of_notTaken h rfl, exec_of_notTaken h rfl, exec_of_notTaken h rfl,
      exec_of_notTaken h rfl, exec_of_notTaken h rfl, exec_of_notTaken h rfl, exec_of_notTaken h rfl, exec_of_notTaken h rfl,
      exec_of_notTaken h rfl, exec_of_notTaken h rfl, exec_of_notTaken h rfl, exec_of_notTaken h rfl, exec_of_notTaken h rfl,
      exec_of_notTaken h rfl, exec_of_notTaken h rfl, exec_fwUpdateActivate_of_notTaken h, exec_of_notTaken h rfl,
      exec_of_notTaken h rfl, exec_of_notTaken h rfl, exec_getInventory_of_notTaken h⟩
  case settling =>
    simp only [List.mem_cons, List.not_mem_nil, or_false, forall_eq_or_imp, forall_eq]
    exact ⟨exec_settle_of_notTaken h rfl, exec_settle_of_notTaken h rfl, exec_settle_of_notTaken h rfl, exec_settle_of_notTaken h rfl,
      exec_settle_of_notTaken h rfl, exec_settle_of_notTaken h rfl, exec_settle_of_notTaken h rfl, exec_settle_of_notTaken h rfl⟩

end Sys2Proof.Machine
end

section
/-! PROOFS. The setup of mailboxes, misuse in the log, and the mailbox doorbells (R382, R388, R389, R392, R528, R529). -/
namespace Sys2Proof.Machine

/-! ## Doorbells that wait, and those that act -/

section
variable {fn : Fin 32} {value : DWord} {s : State}

theorem doorbell_of_waiting (d : Doorbell) (h : doorbellsWait s = true) : doorbell d s = { s with doorbells := s.doorbells ++ [d] } := by
  rw [doorbell, if_pos h]

theorem doorbell_of_free (d : Doorbell) (h : doorbellsWait s = false) : doorbell d s = ringDoorbell d s := by
  rw [doorbell, if_neg (by rw [h]; exact Bool.false_ne_true)]

/-! ## MBX_SETUP (R377, R388, R389) -/

/-- The ring sizes are powers of two from 16 to 4,096 (R389, R394). -/
theorem ringSizeOk_iff (n : Nat) : ringSizeOk n = true ↔ ∃ i, 4 ≤ i ∧ i ≤ 12 ∧ n = 2 ^ i := by
  simp only [ringSizeOk, isPow2, Bool.and_eq_true, Bool.not_eq_true', beq_eq_false_iff_ne, beq_iff_eq, decide_eq_true_eq]
  constructor
  · rintro ⟨⟨⟨-, power⟩, low⟩, high⟩
    rw [power] at low high
    exact ⟨n.log2, (Nat.pow_le_pow_iff_right (by omega : 1 < 2)).mp (show 2 ^ 4 ≤ 2 ^ n.log2 from low),
      (Nat.pow_le_pow_iff_right (by omega : 1 < 2)).mp (show 2 ^ n.log2 ≤ 2 ^ 12 from high), power⟩
  · rintro ⟨i, low, high, rfl⟩
    have least : 2 ^ 4 ≤ 2 ^ i := Nat.pow_le_pow_right (by omega) low
    have most : 2 ^ i ≤ 2 ^ 12 := Nat.pow_le_pow_right (by omega) high
    exact ⟨⟨⟨by omega, by rw [Nat.log2_two_pow]⟩, least⟩, most⟩

/-- A setup reaches its function, in a state that keeps it. -/
theorem setupReached_iff :
    (!reaches s fn.val || s.fw.state == .failed) = false ↔
      (s.func fn.val).enabled = true ∧ s.pcie.up = true ∧ s.fw.state ≠ .failed := by
  simp [reaches, and_assoc]

/-- No request of the function is outstanding. -/
theorem outstanding_eq_false_iff :
    outstanding (s.mailbox fn.val) = false ↔ ∀ m, s.mailbox fn.val = some m → m.ring = [] ∧ m.taken = 0 := by
  cases s.mailbox fn.val with
  | none => simp [outstanding]
  | some m => simp [outstanding, Mailbox.outstanding]

/-- A doorbell and a block that set a mailbox up. -/
def SetupFormed (value : DWord) (block : Desc) : Prop := bitField value 62 2 = 1 ∧ bitField value 58 4 = 0 ∧ setupOk block = true

/-- The setup's own test of what it takes. -/
theorem setupRefused_iff (block : Desc) :
    (!(doorbellCmd value == 1) || !(bitField value 58 4 == 0) || outstanding (s.mailbox fn.val) || !setupOk block) = false ↔
      (∀ m, s.mailbox fn.val = some m → m.ring = [] ∧ m.taken = 0) ∧ SetupFormed value block := by
  rw [← outstanding_eq_false_iff]
  simp only [Bool.or_eq_false_iff, Bool.not_eq_false', beq_iff_eq, doorbellCmd, SetupFormed]
  tauto

theorem exec_mbxSetup_of_unreached (block : Desc) (hw : doorbellsWait s = false)
    (hr : ¬ ((s.func fn.val).enabled = true ∧ s.pcie.up = true ∧ s.fw.state ≠ .failed)) :
    exec (.mbxSetup fn value block) s = .next s := by
  have unreached := Bool.eq_true_of_not_eq_false (mt setupReached_iff.mp hr)
  refine congrArg Host.Outcome.next ((doorbell_of_free _ hw).trans ?_)
  simp only [ringDoorbell, ringSetup, unreached, if_true]

theorem exec_mbxSetup_of_formed (block : Desc) (hw : doorbellsWait s = false)
    (hr : (s.func fn.val).enabled = true ∧ s.pcie.up = true ∧ s.fw.state ≠ .failed)
    (hi : ∀ m, s.mailbox fn.val = some m → m.ring = [] ∧ m.taken = 0) (hf : SetupFormed value block) :
    exec (.mbxSetup fn value block) s = .next (s.withMailbox fn.val (some (mailboxOf block))) := by
  refine congrArg Host.Outcome.next ((doorbell_of_free _ hw).trans ?_)
  simp only [ringDoorbell, ringSetup, setupReached_iff.mpr hr, (setupRefused_iff block).mpr ⟨hi, hf⟩, Bool.false_eq_true, if_false]
  exact updFunc_eq_set _ (func_bound_of_enabled hr.1)

theorem exec_mbxSetup_of_faulty (block : Desc) (hw : doorbellsWait s = false)
    (hr : (s.func fn.val).enabled = true ∧ s.pcie.up = true ∧ s.fw.state ≠ .failed)
    (hn : ¬ ((∀ m, s.mailbox fn.val = some m → m.ring = [] ∧ m.taken = 0) ∧ SetupFormed value block)) :
    exec (.mbxSetup fn value block) s = .next (logMisuse fn.val value.toNat s) := by
  have refused := Bool.eq_true_of_not_eq_false (mt (setupRefused_iff block).mp hn)
  refine congrArg Host.Outcome.next ((doorbell_of_free _ hw).trans ?_)
  simp only [ringDoorbell, ringSetup, setupReached_iff.mpr hr, refused, Bool.false_eq_true, if_false, if_true]

end

/-- What a block that is accepted holds. -/
theorem setupOk_iff (b : Desc) : setupOk b = true ↔
    (byteField b 0 8 % 4096 = 0 ∧ byteField b 8 8 % 4096 = 0 ∧ byteField b 16 2 ≤ byteField b 18 2 ∧ byteField b 20 44 = 0 ∧
      (∃ i, 4 ≤ i ∧ i ≤ 12 ∧ byteField b 16 2 = 2 ^ i) ∧ (∃ i, 4 ≤ i ∧ i ≤ 12 ∧ byteField b 18 2 = 2 ^ i)) := by
  simp only [setupOk, aligned, Bool.and_eq_true, beq_iff_eq, decide_eq_true_eq, ← ringSizeOk_iff]
  constructor
  · exact fun ⟨⟨⟨⟨⟨req, rsp⟩, reqSize⟩, rspSize⟩, fits⟩, rest⟩ => ⟨req, rsp, fits, rest, reqSize, rspSize⟩
  · exact fun ⟨req, rsp, fits, rest, reqSize, rspSize⟩ => ⟨⟨⟨⟨⟨req, rsp⟩, reqSize⟩, rspSize⟩, fits⟩, rest⟩

/-! ## Misuse in the log (R528, R529) -/

section
variable {fn detail : Nat} {s : State}

theorem logMisuse_of_failed (h : s.fw.state = .failed) : logMisuse fn detail s = s := by rw [logMisuse, logError_eq, if_pos h]

theorem logMisuse_of_running (h : s.fw.state ≠ .failed) :
    logMisuse fn detail s = raiseIrqs (logReaders fn) 10 (entered 0x50 0 .invalid fn 0xFF 0xFFFF detail s) := by
  rw [logMisuse, logError_eq, if_neg h]

/-- Interrupts change the functions and what leaves alone. -/
theorem raiseIrqs_frame (fns : List Nat) (bit : Nat) (s : State) :
    raiseIrqs fns bit s = { s with funcs := (raiseIrqs fns bit s).funcs, out := (raiseIrqs fns bit s).out } := by
  have kept : { raiseIrqs fns bit s with funcs := [], out := [] } = { s with funcs := [], out := [] } := by simp
  have whole := congrArg (fun t : State => { t with funcs := (raiseIrqs fns bit s).funcs, out := (raiseIrqs fns bit s).out }) kept
  exact whole

/-- A function that is not told of a cause stands. -/
theorem func_raiseIrq_other {k : Nat} (bit : Nat) (s : State) (h : k ≠ fn) : (raiseIrq fn bit s).func k = s.func k := by
  cases he : (s.func fn).enabled with
  | false => rw [raiseIrq_of_disabled bit he]
  | true => exact func_of_set_ne (congrArg State.funcs (raiseIrq_of_enabled bit he)) h

theorem func_raiseIrq_same (bit : Nat) (h : (s.func fn).enabled = true) : (raiseIrq fn bit s).func fn = (s.func fn).raised bit :=
  func_of_set (congrArg State.funcs (raiseIrq_of_enabled bit h)) (func_bound_of_enabled h)

theorem func_raiseIrqs_other {k bit : Nat} {fns : List Nat} (s : State) (h : k ∉ fns) : (raiseIrqs fns bit s).func k = s.func k := by
  induction fns generalizing s with
  | nil => rfl
  | cons c fns ih =>
    simp only [List.mem_cons, not_or] at h
    obtain ⟨hc, hfns⟩ := h
    rw [raiseIrqs, List.foldl_cons, ← raiseIrqs, ih _ hfns, func_raiseIrq_other bit s hc]

/-- A cause stays risen. -/
theorem irqStatus_raised (f : Func) {bit b : Nat} (hb : bit < 11) (h : b = bit ∨ f.irqStatus.getLsbD b = true) :
    (f.raised bit).irqStatus.getLsbD b = true := by
  rw [Func.raised, getLsbD_or_twoPow _ _ _ hb]
  rcases h with h | h <;> simp [h]

/-- A function that is told of a cause has it in its status. -/
theorem irqStatus_raiseIrqs {k bit : Nat} {fns : List Nat} {s : State} (hb : bit < 11) (he : (s.func k).enabled = true)
    (h : k ∈ fns ∨ (s.func k).irqStatus.getLsbD bit = true) : ((raiseIrqs fns bit s).func k).irqStatus.getLsbD bit = true := by
  induction fns generalizing s with
  | nil => simpa [raiseIrqs] using h
  | cons c fns ih =>
    rw [raiseIrqs, List.foldl_cons, ← raiseIrqs]
    by_cases hc : k = c
    · subst hc
      have same := func_raiseIrq_same bit he
      refine ih (by rw [same]; exact he) (Or.inr ?_)
      rw [same]
      exact irqStatus_raised _ hb (Or.inl rfl)
    · have other := func_raiseIrq_other bit s hc
      refine ih (by rw [other]; exact he) ?_
      rw [other]
      simpa [hc] using h

/-- The functions that may read an entry of a function. -/
theorem mem_logReaders {k : Nat} (h : fn ≠ 0xFF) : k ∈ logReaders fn ↔ k = 0 ∨ k = fn := by
  unfold logReaders
  rw [if_neg h]
  split
  case isTrue h0 => simp [h0]
  case isFalse => simp

end

/-! ## MBX_REQ_TAIL, MBX_STOP and MBX_RSP_DB (R388, R392) -/

section
variable {fn : Fin 32} {value : DWord} {m : Mailbox} {s : State}

/-- A doorbell that the firmware hears from a function with a mailbox. -/
structure Heard (fn : Fin 32) (m : Mailbox) (s : State) : Prop where
  enabled : (s.func fn.val).enabled = true
  up : s.pcie.up = true
  firmware : s.fw.state = .ready ∨ s.fw.state = .bare
  mailbox : s.mailbox fn.val = some m
  free : doorbellsWait s = false

/-- The request tail, and how many requests it adds. -/
def tailOf (value : DWord) : Nat := bitField value 0 12

def newRequests (value : DWord) (m : Mailbox) : Nat := (tailOf value + m.reqEntries - m.reqTail) % m.reqEntries

/-- A tail that the ring has room for. -/
def TailFits (value : DWord) (m : Mailbox) : Prop :=
  (bitField value 62 2 = 0 ∧ bitField value 12 50 = 0) ∧
    tailOf value < m.reqEntries ∧ m.ring.length + m.taken + newRequests value m < m.reqEntries

/-- The doorbell's own test. -/
theorem tailRefused_iff :
    (!(doorbellCmd value == 0) || !(bitField value 12 50 == 0) || decide (m.reqEntries ≤ bitField value 0 12) ||
      decide (m.reqEntries ≤ m.outstanding + newRequests value m)) = false ↔ TailFits value m := by
  have load : m.ring.length + m.taken = m.outstanding := rfl
  rw [TailFits, tailOf, load]
  simp [doorbellCmd, and_assoc]

theorem exec_mbxReqTail (h : Heard fn m s) (entries : List (Option UnknownRequest)) :
    exec (.mbxReqTail fn value entries) s = .next (
      if (!(doorbellCmd value == 0) || !(bitField value 12 50 == 0) || decide (m.reqEntries ≤ bitField value 0 12) ||
          decide (m.reqEntries ≤ m.outstanding + newRequests value m)) = true then logMisuse fn.val value.toNat s
      else nextTurn (s.withMailbox fn.val (some { m with
        reqTail := tailOf value, ring := m.ring ++ fitEntries (newRequests value m) entries }))) := by
  refine congrArg Host.Outcome.next ((doorbell_of_free _ h.free).trans ?_)
  simp only [ringDoorbell, ringTail, reaches_of h.enabled h.up, serving_of h.firmware, h.mailbox, updMailbox_eq h.mailbox, Bool.not_true,
    Bool.or_self, Bool.false_eq_true, if_false]
  rfl

theorem exec_mbxReqTail_of_fits (h : Heard fn m s) (entries : List (Option UnknownRequest)) (hf : TailFits value m) :
    exec (.mbxReqTail fn value entries) s = .next (nextTurn (s.withMailbox fn.val (some { m with
      reqTail := tailOf value, ring := m.ring ++ fitEntries (newRequests value m) entries }))) := by
  rw [exec_mbxReqTail h, tailRefused_iff.mpr hf, if_neg Bool.false_ne_true]

theorem exec_mbxReqTail_of_misuse (h : Heard fn m s) (entries : List (Option UnknownRequest)) (hf : ¬ TailFits value m) :
    exec (.mbxReqTail fn value entries) s = .next (logMisuse fn.val value.toNat s) := by
  rw [exec_mbxReqTail h, if_pos (Bool.eq_true_of_not_eq_false (mt tailRefused_iff.mp hf))]

/-- A mailbox that stops is gone at once where it owes nothing. -/
theorem exec_mbxStop_of_formed (h : Heard fn m s) (hc : bitField value 62 2 = 2) (hz : bitField value 0 62 = 0) :
    exec (.mbxStop fn value) s = .next (nextTurn (
      if m.taken = 0 ∧ m.held = [] then s.withMailbox fn.val none else s.withMailbox fn.val (some { m with stopping := true }))) := by
  refine congrArg Host.Outcome.next ((doorbell_of_free _ h.free).trans ?_)
  have stops : (s.withMailbox fn.val (some { m with stopping := true })).mailbox fn.val = some { m with stopping := true } :=
    congrArg Func.mailbox (func_withMailbox (some { m with stopping := true }) (mailbox_bound h.mailbox))
  have again : (s.withMailbox fn.val (some { m with stopping := true })).withMailbox fn.val none = s.withMailbox fn.val none := by
    have entry := func_withMailbox (some { m with stopping := true }) (mailbox_bound h.mailbox)
    rw [State.withMailbox, entry]
    simp only [State.withMailbox, List.set_set]
  simp only [ringDoorbell, ringStop, reaches_of h.enabled h.up, serving_of h.firmware, doorbellCmd, hc, hz, updMailbox_eq h.mailbox,
    closeStopped_eq stops, again, beq_self_eq_true, Bool.not_true, Bool.or_self, Bool.false_eq_true, if_false, true_and]

theorem exec_mbxRspDb_of_free {k : Nat} (h : Heard fn m s) (hz : bitField value 12 52 = 0)
    (hk : releaseCount m.rspEntries m.rspWrite m.rspUnreleased (tailOf value) = some k) (hh : m.held = []) :
    exec (.mbxRspDb fn value) s = .next (s.withMailbox fn.val (some { m with rspUnreleased := m.rspUnreleased - k })) := by
  rw [exec_mbxRspDb h.free, ringHead_of_release h.enabled h.up h.firmware h.mailbox hz hk, drainResponses,
    (posting_released h.enabled h.mailbox k).mailbox]
  simp only [hh]

theorem exec_mbxRspDb_of_misuse (h : Heard fn m s) (hz : bitField value 12 52 = 0)
    (hk : releaseCount m.rspEntries m.rspWrite m.rspUnreleased (tailOf value) = none) :
    exec (.mbxRspDb fn value) s = .next (logMisuse fn.val value.toNat s) := by
  rw [tailOf] at hk
  rw [exec_mbxRspDb h.free]
  simp only [ringHead, reaches_of h.enabled h.up, serving_of h.firmware, h.mailbox, hz, hk, beq_self_eq_true, Bool.not_true, Bool.or_self,
    Bool.false_eq_true, if_false]

end

/-- Settles O24: waiting doorbells, the setup's three answers, and what misuse leaves. -/
theorem mailboxesAreSetUpAndMisuseLogged : Obligations.MailboxesAreSetUpAndMisuseLogged := by
  unfold Obligations.MailboxesAreSetUpAndMisuseLogged
  refine ⟨fun fn value block entries subs s h => ?waiting, fun fn value block s hw => ⟨?setUp, ?faulty, exec_mbxSetup_of_unreached block hw⟩,
    setupOk_iff, fun _ _ _ => logMisuse_of_failed, fun fn detail s h => ?logged, fun fn offset width value s => ?other⟩
  case waiting =>
    have waits (d : Doorbell) : (Host.Outcome.next (doorbell d s) : Host.Outcome State Fault Refusal) =
        .next { s with doorbells := s.doorbells ++ [d] } := by rw [doorbell_of_waiting d h]
    exact ⟨waits _, waits _, waits _, waits _, waits _, waits _⟩
  case setUp => exact fun hr hi hf => exec_mbxSetup_of_formed block hw hr hi hf
  case faulty => exact fun hr hn => exec_mbxSetup_of_faulty block hw hr hn
  case logged =>
    have running := logMisuse_of_running (fn := fn) (detail := detail) h
    have frame := raiseIrqs_frame (logReaders fn) 10 (entered 0x50 0 .invalid fn 0xFF 0xFFFF detail s)
    have log := congrArg State.log frame
    simp only [running]
    refine ⟨?entries, ?next, ?lost, fun _ hn he => ?told, fun k h0 hk hn => ?others, ?frame⟩
    case entries => rw [log]; simp [entered]
    case next => rw [log]; rfl
    case lost => rw [log]; simp [entered, satAdd]
    case told => exact irqStatus_raiseIrqs (by omega) he (Or.inl ((mem_logReaders hn).mpr (Or.inr rfl)))
    case others =>
      exact func_raiseIrqs_other (entered 0x50 0 .invalid fn 0xFF 0xFFFF detail s) fun told => ((mem_logReaders hn).mp told).elim h0 hk
    case frame =>
      conv => lhs; rw [frame]
      rw [log]
      rfl
  case other =>
    change execRegisterWriteOther fn offset width value s = _
    simp only [execRegisterWriteOther, reaches, Bool.and_eq_true]

/-- Settles O25: each doorbell's answers. -/
theorem mailboxDoorbellsMoveTheRings : Obligations.MailboxDoorbellsMoveTheRings := by
  unfold Obligations.MailboxDoorbellsMoveTheRings
  intro fn value m s he hu hf hm hw
  have h : Heard fn m s := ⟨he, hu, hf, hm, hw⟩
  refine ⟨fun entries formed fits => ?tail, fun entries hn => exec_mbxReqTail_of_misuse h entries hn, exec_mbxStop_of_formed h,
    fun _ => exec_mbxRspDb_of_free h, exec_mbxRspDb_of_misuse h⟩
  case tail =>
    rw [exec_mbxReqTail_of_fits h entries ⟨formed, fits⟩, fitEntries, ← List.append_assoc]
    rfl

end Sys2Proof.Machine
end

section
/-! PROOFS. The job doorbells (R388, R395 to R398): submissions taken, completion slots released, held records posted. -/
namespace Sys2Proof.Machine

/-! ## A queue put in its place -/

/-- The functions with a job queue put in place of another. -/
def State.withQueue (fn q : Nat) (x : JobQueue) (s : State) : State :=
  { s with funcs := s.funcs.set fn { s.func fn with queues := (s.func fn).queues.set q (some x) } }

section
variable {fn q : Nat} {k : JobQueue} {s : State}

theorem queue_bounds (h : s.queue fn q = some k) : fn < s.funcs.length ∧ (s.func fn).queues[q]? = some (some k) := by
  have slot : (s.func fn).queues[q]? = some (some k) := by
    simp only [State.queue, slotAt] at h
    cases hq : (s.func fn).queues[q]? with
    | none => simp [hq] at h
    | some o => simpa [hq] using h
  refine ⟨?_, slot⟩
  by_contra out
  have listed := List.mem_of_getElem? slot
  simp [State.func, List.getD_eq_getElem?_getD, out, Func.reset] at listed

theorem updQueue_eq (h : s.queue fn q = some k) (f : JobQueue → JobQueue) : s.updQueue fn q f = s.withQueue fn q (f k) := by
  obtain ⟨hb, slot⟩ := queue_bounds h
  rw [State.updQueue, updFunc_eq_set _ hb, updAt_of_getElem? slot]
  rfl

theorem func_withQueue (x : JobQueue) (hb : fn < s.funcs.length) :
    (s.withQueue fn q x).func fn = { s.func fn with queues := (s.func fn).queues.set q (some x) } :=
  func_of_set (s := s) rfl hb

theorem func_withQueue_other {j : Nat} (x : JobQueue) (hj : j ≠ fn) : (s.withQueue fn q x).func j = s.func j :=
  func_of_set_ne rfl hj

theorem queue_withQueue (h : s.queue fn q = some k) (x : JobQueue) : (s.withQueue fn q x).queue fn q = some x := by
  obtain ⟨hb, slot⟩ := queue_bounds h
  obtain ⟨bound, -⟩ := List.getElem?_eq_some_iff.mp slot
  simp [State.queue, slotAt, func_withQueue x hb, bound]

theorem withQueue_withQueue (h : s.queue fn q = some k) (x y : JobQueue) :
    (s.withQueue fn q x).withQueue fn q y = s.withQueue fn q y := by
  rw [State.withQueue, func_withQueue x (queue_bounds h).1]
  simp only [State.withQueue, List.set_set]

end

/-! ## Records written (R398) -/

/-- A completion ring and host memory once a record is written into the next slot: the entry has the phase of its slot. -/
def putRecord (q : Nat) (p : JobQueue × Memory) (r : Record) : JobQueue × Memory :=
  (p.1.posted, p.2.writeBytes (p.1.cmpBase + 64 * p.1.cmpWrite) (recordBytes r q p.1.cmpPhase))

/-- Slots of a completion ring that may be written. -/
def JobQueue.slots (k : JobQueue) : Nat := k.cmpEntries - 1 - k.cmpUnreleased

/-- The jobs that some records do not end. -/
def unended (records : List Record) (jobs : List Job) : List Job := jobs.filter fun j => !(records.any fun r => r.job == some j.id)

theorem unended_cons (r : Record) (records : List Record) (jobs : List Job) :
    unended (r :: records) jobs = unended records (unended [r] jobs) := by
  simp only [unended, List.filter_filter, List.any_cons, List.any_nil, Bool.or_false]
  exact List.filter_congr fun j _ => by rw [Bool.not_or, Bool.and_comm]

/-- `u` is `s` but for host memory, which is `h`, the jobs, which are `jobs`, the entry of function `fn`, whose queue `q` is `k` with
records `held` and some count of unposted jobs, and what leaves. -/
structure Recording (fn q : Nat) (s : State) (k : JobQueue) (held : List Record) (h : Memory) (jobs : List Job) (u : State) : Prop where
  host : u.host = h
  queue : ∃ n, u.queue fn q = some { k with held := held, unposted := n }
  enabled : (u.func fn).enabled = true
  jobs : u.sched.jobs = jobs
  others : ∀ j, j ≠ fn → u.func j = s.func j
  mem : u.mem = s.mem

/-- Cause bit `1 + q` of a function stands. -/
def toldOf (fn q : Nat) (t : State) : Prop := (t.func fn).irqStatus.getLsbD (1 + q) = true

section
variable {fn q : Nat} {k x : JobQueue} {s u : State} {held : List Record} {h : Memory} {jobs : List Job}

/-- A queue put into an entry of a function. -/
theorem queue_of_set {v : State} {f : Func} (hv : v.funcs = u.funcs.set fn f) (hq : u.queue fn q = some x)
    (hf : f.queues = (u.func fn).queues.set q (some k)) : v.queue fn q = some k := by
  obtain ⟨hb, slot⟩ := queue_bounds hq
  obtain ⟨bound, -⟩ := List.getElem?_eq_some_iff.mp slot
  simp [State.queue, slotAt, func_of_set hv hb, hf, bound]

/-- The entry of a function with the end of a job counted (R420). -/
def Func.counted (g : Func) (ok : Bool) (j : Job) : Func :=
  { g with completed := if ok then g.completed + 1 else g.completed, struck := if ok then g.struck else g.struck + 1,
           preempted := if 0 < j.preemptions then g.preempted + 1 else g.preempted }

theorem countEnd_eq (hq : u.queue fn q = some x) (ok : Bool) (j : Job) :
    countEnd fn q ok j u =
      { u with
        funcs := u.funcs.set fn { (u.func fn).counted ok j with
          queues := (u.func fn).queues.set q (some { x with unposted := x.unposted - 1 }) },
        sched := { u.sched with jobs := u.sched.jobs.filter fun y => !(y.id == j.id) } } := by
  have hb := (queue_bounds hq).1
  have counted := updFunc_eq_set (s := u) (Func.counted · ok j) hb
  have entry := func_of_set (congrArg State.funcs counted) hb
  have queue : (u.updFunc fn (Func.counted · ok j)).queue fn q = some x := by
    rw [State.queue, entry]
    exact hq
  have freed := updQueue_eq queue fun k => { k with unposted := k.unposted - 1 }
  have whole : (u.updFunc fn (Func.counted · ok j)).withQueue fn q { x with unposted := x.unposted - 1 } =
      { u with funcs := u.funcs.set fn { (u.func fn).counted ok j with
          queues := (u.func fn).queues.set q (some { x with unposted := x.unposted - 1 }) } } := by
    rw [State.withQueue, entry, counted]
    simp only [List.set_set]
    rfl
  exact congrArg (fun v : State => { v with sched := { v.sched with jobs := v.sched.jobs.filter fun y => !(y.id == j.id) } })
    (freed.trans whole)

/-- A job has ended: its slot is free, and it is gone. -/
theorem Recording.countEnd (hr : Recording fn q s k held h jobs u) (ok : Bool) (j : Job) :
    Recording fn q s k held h (jobs.filter fun x => !(x.id == j.id)) (countEnd fn q ok j u) ∧
      (toldOf fn q u → toldOf fn q (Machine.countEnd fn q ok j u)) := by
  obtain ⟨n, queue⟩ := hr.queue
  have hb := (queue_bounds queue).1
  rw [toldOf, toldOf, countEnd_eq queue]
  refine ⟨⟨hr.host, ⟨n - 1, queue_of_set rfl queue rfl⟩, ?enabled, ?jobs, fun i hi => (func_of_set_ne rfl hi).trans (hr.others i hi),
    hr.mem⟩, fun told => ?told⟩
  case enabled => rw [func_of_set rfl hb]; exact hr.enabled
  case jobs => rw [← hr.jobs]
  case told => rw [func_of_set rfl hb]; exact told

/-- A record in its slot, with what its cause sends. -/
theorem postedRecord_eq (hq : u.queue fn q = some x) (he : (u.func fn).enabled = true) (a : Nat) (bs : List Byte) :
    raiseIrq fn (1 + q) ((hostWrite a bs u).updQueue fn q JobQueue.posted) =
      { u with
        host := u.host.writeBytes a bs,
        funcs := u.funcs.set fn (Func.raised { u.func fn with queues := (u.func fn).queues.set q (some x.posted) } (1 + q)),
        out := u.out ++ (u.func fn).message fn (1 + q) } := by
  have hb := (queue_bounds hq).1
  have posted := updQueue_eq (s := hostWrite a bs u) hq JobQueue.posted
  have entry := func_withQueue (q := q) (s := hostWrite a bs u) x.posted hb
  rw [func_hostWrite] at entry
  rw [posted, raiseIrq_of_enabled (1 + q) (by rw [entry]; exact he), entry]
  simp [State.withQueue, hostWrite, Func.message, Func.sends]

/-- A record in its slot, before the job it ends is ended. -/
theorem Recording.post {r : Record} {rest : List Record} (hr : Recording fn q s k rest h jobs u) (hq : q < 8) :
    Recording fn q s (putRecord q (k, h) r).1 rest (putRecord q (k, h) r).2 jobs
        (raiseIrq fn (1 + q) ((hostWrite (k.cmpBase + 64 * k.cmpWrite) (recordBytes r q k.cmpPhase) u).updQueue fn q JobQueue.posted)) ∧
      toldOf fn q
        (raiseIrq fn (1 + q) ((hostWrite (k.cmpBase + 64 * k.cmpWrite) (recordBytes r q k.cmpPhase) u).updQueue fn q JobQueue.posted)) := by
  obtain ⟨n, queue⟩ := hr.queue
  have hb := (queue_bounds queue).1
  rw [postedRecord_eq queue hr.enabled, putRecord, toldOf]
  refine ⟨⟨?host, ⟨n, queue_of_set rfl queue rfl⟩, ?enabled, hr.jobs, fun i hi => (func_of_set_ne rfl hi).trans (hr.others i hi), hr.mem⟩,
    ?told⟩
  case host => simp only [hr.host]
  case enabled => rw [func_of_set rfl hb]; exact hr.enabled
  case told => rw [func_of_set rfl hb]; exact irqStatus_raised _ (by omega) (Or.inl rfl)

/-- One record written: ring and host memory are those of `putRecord`, its job is ended, and its cause bit is set. -/
theorem Recording.write {r : Record} {rest : List Record} {y : JobQueue} (hr : Recording fn q s k (r :: rest) h jobs u)
    (hy : u.queue fn q = some y) (hq : q < 8) :
    Recording fn q s (putRecord q (k, h) r).1 rest (putRecord q (k, h) r).2 (unended [r] jobs)
        (writeRecord fn q y r (u.updQueue fn q fun x => { x with held := rest })) ∧
      toldOf fn q (writeRecord fn q y r (u.updQueue fn q fun x => { x with held := rest })) := by
  obtain ⟨n, queue⟩ := hr.queue
  have hb := (queue_bounds queue).1
  obtain rfl := Option.some.inj (queue.symm.trans hy)
  have first : Recording fn q s k rest h jobs (u.withQueue fn q { k with held := rest, unposted := n }) :=
    ⟨hr.host, ⟨n, queue_withQueue queue _⟩, (congrArg Func.enabled (func_withQueue _ hb)).trans hr.enabled, hr.jobs,
      fun i hi => (func_withQueue_other _ hi).trans (hr.others i hi), hr.mem⟩
  obtain ⟨posted, told⟩ := first.post (r := r) hq
  rw [updQueue_eq queue]
  simp only [writeRecord]
  generalize raiseIrq fn (1 + q) _ = v at *
  have left : (r.job.bind v.job = none → unended [r] jobs = jobs) ∧
      (∀ j, r.job.bind v.job = some j → unended [r] jobs = jobs.filter fun x => !(x.id == j.id)) := by
    simp only [unended, List.any_cons, List.any_nil, Bool.or_false]
    cases hj : r.job with
    | none => simp
    | some i =>
      simp only [Option.bind_some, State.job, posted.jobs]
      refine ⟨fun gone => List.filter_eq_self.mpr fun x hx => ?_, fun j found => List.filter_congr fun x _ => ?_⟩
      · have other := List.find?_eq_none.mp gone x hx
        simp only [beq_iff_eq] at other
        simp [Ne.symm other]
      · have same := List.find?_some found
        simp only [beq_iff_eq] at same
        subst same
        simp [eq_comm]
  split
  case h_1 j found =>
    obtain ⟨ended, stays⟩ := posted.countEnd (r.status == .ok) j
    rw [left.2 j found]
    exact ⟨ended, stays told⟩
  case h_2 none =>
    rw [left.1 none]
    exact ⟨posted, told⟩

/-- Held records are written in their order while slots are free, which ends their jobs. -/
theorem drainRecords_recording (n : Nat) (hn : held.length ≤ n) (hq : q < 8) (hr : Recording fn q s k held h jobs u) :
    Recording fn q s ((held.take k.slots).foldl (putRecord q) (k, h)).1 (held.drop k.slots)
        ((held.take k.slots).foldl (putRecord q) (k, h)).2 (unended (held.take k.slots) jobs) (drainRecords fn q n u) ∧
      ((toldOf fn q u ∨ (held ≠ [] ∧ 0 < k.slots)) → toldOf fn q (drainRecords fn q n u)) := by
  have nothing : unended [] jobs = jobs := by simp [unended]
  induction n generalizing held k h jobs u with
  | zero =>
    obtain rfl := List.length_eq_zero_iff.mp (Nat.le_zero.mp hn)
    simpa [drainRecords, nothing] using hr
  | succ n ih =>
    obtain ⟨c, queue⟩ := hr.queue
    cases held with
    | nil => simpa [drainRecords, queue, nothing] using hr
    | cons r rest =>
      by_cases hf : k.full = true
      · have noSlot : k.slots = 0 := by
          simp only [JobQueue.full, decide_eq_true_eq] at hf
          simp only [JobQueue.slots]
          omega
        have full : ({ k with held := r :: rest, unposted := c } : JobQueue).full = true := hf
        simpa [drainRecords, queue, full, noSlot, nothing] using hr
      · have slot : ∃ i, k.slots = i + 1 ∧ (putRecord q (k, h) r).1.slots = i := by
          simp only [JobQueue.full, decide_eq_true_eq] at hf
          refine ⟨k.slots - 1, ?_, ?_⟩ <;> simp only [JobQueue.slots, putRecord, JobQueue.posted] <;> omega
        obtain ⟨i, slots, left⟩ := slot
        obtain ⟨written, told⟩ := hr.write queue hq
        have notFull : ({ k with held := r :: rest, unposted := c } : JobQueue).full = false := Bool.eq_false_iff.mpr hf
        have unfolded : drainRecords fn q (n + 1) u = drainRecords fn q n
            (writeRecord fn q { k with held := r :: rest, unposted := c } r (u.updQueue fn q fun x => { x with held := rest })) := by
          simp only [drainRecords, queue, notFull, Bool.false_eq_true, if_false]
        rw [unfolded, slots, List.take_succ_cons, List.drop_succ_cons, List.foldl_cons, unended_cons]
        generalize putRecord q (k, h) r = p at *
        generalize writeRecord fn q _ r _ = v at *
        obtain ⟨drained, tells⟩ := ih (Nat.le_of_succ_le_succ hn) written (by simp [unended])
        rw [left] at drained
        exact ⟨drained, fun _ => tells (Or.inl told)⟩

end

/-! ## JQ_CMP_DB (R388, R398) -/

/-- A doorbell of a job queue that the firmware hears, its reserved bits zero. -/
structure QueueHeard (fn : Fin 32) (value : DWord) (k : JobQueue) (s : State) : Prop where
  enabled : (s.func fn.val).enabled = true
  up : s.pcie.up = true
  firmware : s.fw.state = .ready ∨ s.fw.state = .bare
  free : doorbellsWait s = false
  queue : s.queue fn.val (bitField value 32 3) = some k
  low : bitField value 12 20 = 0
  high : bitField value 35 29 = 0

section
variable {fn : Fin 32} {value : DWord} {k : JobQueue} {s : State}

theorem queueNumber_lt (value : DWord) : bitField value 32 3 < 8 := Nat.mod_lt _ (by omega)

/-- The slots that a head releases, and the records that follow. -/
theorem exec_jqCmpDb_of_release {d : Nat} (h : QueueHeard fn value k s)
    (hd : releaseCount k.cmpEntries k.cmpWrite k.cmpUnreleased (bitField value 0 12) = some d) :
    exec (.jqCmpDb fn value) s = .next (settle (drainRecords fn.val (bitField value 32 3) (k.held.length + 1)
      (s.withQueue fn.val (bitField value 32 3) { k with cmpUnreleased := k.cmpUnreleased - d }))) := by
  refine congrArg Host.Outcome.next ((doorbell_of_free _ h.free).trans ?_)
  simp only [ringDoorbell, ringRelease, reaches_of h.enabled h.up, serving_of h.firmware, h.queue, h.low, h.high, hd, updQueue_eq h.queue,
    beq_self_eq_true, Bool.not_true, Bool.or_self, Bool.false_eq_true, if_false]

theorem exec_jqCmpDb_of_misuse (h : QueueHeard fn value k s)
    (hd : releaseCount k.cmpEntries k.cmpWrite k.cmpUnreleased (bitField value 0 12) = none) :
    exec (.jqCmpDb fn value) s = .next (logMisuse fn.val value.toNat s) := by
  refine congrArg Host.Outcome.next ((doorbell_of_free _ h.free).trans ?_)
  simp only [ringDoorbell, ringRelease, reaches_of h.enabled h.up, serving_of h.firmware, h.queue, h.low, h.high, hd,
    beq_self_eq_true, Bool.not_true, Bool.or_self, Bool.false_eq_true, if_false]

theorem exec_jqCmpDb_of_none_held {d : Nat} (h : QueueHeard fn value k s)
    (hd : releaseCount k.cmpEntries k.cmpWrite k.cmpUnreleased (bitField value 0 12) = some d) (hh : k.held = []) :
    exec (.jqCmpDb fn value) s = .next (settle (s.withQueue fn.val (bitField value 32 3) { k with cmpUnreleased := k.cmpUnreleased - d })) := by
  rw [exec_jqCmpDb_of_release h hd, drainRecords, queue_withQueue h.queue]
  simp only [hh]

/-- The state as completion slots are released. -/
theorem recording_released (h : QueueHeard fn value k s) (d : Nat) :
    Recording fn.val (bitField value 32 3) s { k with cmpUnreleased := k.cmpUnreleased - d } k.held s.host s.sched.jobs
      (s.withQueue fn.val (bitField value 32 3) { k with cmpUnreleased := k.cmpUnreleased - d }) :=
  ⟨rfl, ⟨k.unposted, queue_withQueue h.queue _⟩,
    (congrArg Func.enabled (func_withQueue _ (queue_bounds h.queue).1)).trans h.enabled, rfl, fun _ hj => func_withQueue_other _ hj, rfl⟩

/-- Held records leave as the host releases slots. -/
theorem exec_jqCmpDb_of_held {d : Nat} (h : QueueHeard fn value k s)
    (hd : releaseCount k.cmpEntries k.cmpWrite k.cmpUnreleased (bitField value 0 12) = some d) (hh : k.held ≠ []) :
    let q := bitField value 32 3
    let room := k.cmpEntries - 1 - (k.cmpUnreleased - d)
    let z := (k.held.take room).foldl (putRecord q) ({ k with cmpUnreleased := k.cmpUnreleased - d }, s.host)
    ∃ t x, exec (.jqCmpDb fn value) s = .next (settle t) ∧ t.host = z.2 ∧ t.queue fn.val q = some x ∧
      x = { z.1 with held := k.held.drop room, unposted := x.unposted } ∧ (0 < room → (t.func fn.val).irqStatus.getLsbD (1 + q) = true) ∧
      t.sched.jobs = s.sched.jobs.filter (fun j => !((k.held.take room).any fun r => r.job == some j.id)) ∧
      (∀ c, c ≠ fn.val → t.func c = s.func c) ∧ t.mem = s.mem := by
  obtain ⟨drained, tells⟩ := drainRecords_recording (k.held.length + 1) (Nat.le_succ _) (queueNumber_lt value) (recording_released h d)
  obtain ⟨n, queue⟩ := drained.queue
  exact ⟨_, _, exec_jqCmpDb_of_release h hd, drained.host, queue, rfl, fun room => tells (Or.inr ⟨hh, room⟩), drained.jobs, drained.others,
    drained.mem⟩

/-! ## JQ_SUB_DB (R383, R388, R396) -/

/-- The new entries that a tail names. -/
def newEntries (value : DWord) (k : JobQueue) : Nat := (bitField value 0 12 + k.subEntries - k.subTail) % k.subEntries

theorem exec_jqSubDb_of_fits (h : QueueHeard fn value k s) (subs : List Submission) (ht : bitField value 0 12 < k.subEntries)
    (hf : k.unposted + newEntries value k < k.subEntries) :
    exec (.jqSubDb fn value subs) s = .next (settle ((fitSubs (newEntries value k) subs).foldl (takeSubmission fn.val (bitField value 32 3))
      (s.withQueue fn.val (bitField value 32 3)
        { k with subTail := bitField value 0 12, unposted := k.unposted + newEntries value k }))) := by
  refine congrArg Host.Outcome.next ((doorbell_of_free _ h.free).trans ?_)
  unfold newEntries at hf ⊢
  simp only [ringDoorbell, ringSubmit, reaches_of h.enabled h.up, serving_of h.firmware, h.queue, h.low, h.high, updQueue_eq h.queue,
    Nat.not_le.mpr ht, Nat.not_le.mpr hf, beq_self_eq_true, Bool.not_true, Bool.or_self, decide_false, Bool.false_eq_true, if_false]

theorem exec_jqSubDb_of_misuse (h : QueueHeard fn value k s) (subs : List Submission)
    (hn : k.subEntries ≤ bitField value 0 12 ∨ k.subEntries ≤ k.unposted + newEntries value k) :
    exec (.jqSubDb fn value subs) s = .next (logMisuse fn.val value.toNat s) := by
  refine congrArg Host.Outcome.next ((doorbell_of_free _ h.free).trans ?_)
  unfold newEntries at hn
  have misuse : (decide (k.subEntries ≤ bitField value 0 12) || decide (k.subEntries ≤ k.unposted +
      (bitField value 0 12 + k.subEntries - k.subTail) % k.subEntries)) = true := by simpa using hn
  simp only [ringDoorbell, ringSubmit, reaches_of h.enabled h.up, serving_of h.firmware, h.queue, h.low, h.high, misuse, Bool.or_assoc,
    Bool.or_true, beq_self_eq_true, Bool.not_true, Bool.or_self, Bool.false_eq_true, if_false, if_true]

/-- A doorbell for a queue that does not exist. -/
theorem exec_jobDoorbells_of_none (he : (s.func fn.val).enabled = true) (hu : s.pcie.up = true)
    (hf : s.fw.state = .ready ∨ s.fw.state = .bare) (hw : doorbellsWait s = false) (hq : s.queue fn.val (bitField value 32 3) = none)
    (subs : List Submission) :
    exec (.jqSubDb fn value subs) s = .next (logMisuse fn.val value.toNat s) ∧
      exec (.jqCmpDb fn value) s = .next (logMisuse fn.val value.toNat s) := by
  constructor <;> refine congrArg Host.Outcome.next ((doorbell_of_free _ hw).trans ?_)
  · simp only [ringDoorbell, ringSubmit, reaches_of he hu, serving_of hf, hq, Bool.not_true, Bool.or_self, Bool.false_eq_true, if_false]
  · simp only [ringDoorbell, ringRelease, reaches_of he hu, serving_of hf, hq, Bool.not_true, Bool.or_self, Bool.false_eq_true, if_false]

end

/-! ## A descriptor that joins its queue (R395, R397) -/

section
variable {fn q : Nat} {x : Submission} {s : State}

/-- A descriptor that R397 allows names a score of its function. -/
theorem handle_jobOf (h : descriptorBad s fn x = false) : (jobOf s fn q x).handle = subField x 4 1 := by
  cases held : ((s.score (subField x 4 1)).map (·.fn)) == some fn with
  | false => simp [descriptorBad, held] at h
  | true => simp only [jobOf, held, if_true]

theorem takeSubmission_of_good (hb : fn < s.funcs.length) (h : descriptorBad s fn x = false)
    (hs : ∀ y, s.score (subField x 4 1) = some y → y.struck = false) :
    takeSubmission fn q s x =
      { s with funcs := s.funcs.set fn { s.func fn with submitted := (s.func fn).submitted + 1 },
               sched := { s.sched with jobs := s.sched.jobs ++ [jobOf s fn q x], nextId := s.sched.nextId + 1 } } := by
  have unstruck : (((s.score (jobOf s fn q x).handle).map (·.struck)) == some true) = false := by
    rw [handle_jobOf h]
    cases hy : s.score (subField x 4 1) with
    | none => rfl
    | some y => simp [hs y hy]
  simp only [takeSubmission, h, unstruck, Bool.false_eq_true, if_false, updFunc_eq_set _ hb]

end

/-- Settles O26: the two doorbells' answers, and a descriptor that joins its queue. -/
theorem jobDoorbellsQueueJobs : Obligations.JobDoorbellsQueueJobs := by
  unfold Obligations.JobDoorbellsQueueJobs
  refine ⟨fun fn value k s he hu hf hw hq hl hz => ?rings, fun _ _ subs _ he hu hf hw hq => exec_jobDoorbells_of_none he hu hf hw hq subs,
    fun fn q x s hb hg hs => ⟨takeSubmission_of_good hb hg hs, rfl, rfl, handle_jobOf hg, rfl, rfl, ?params⟩⟩
  case rings =>
    have h : QueueHeard fn value k s := ⟨he, hu, hf, hw, hq, hl, hz⟩
    refine ⟨fun ht hn room => ?none, fun subs hn => exec_jqSubDb_of_misuse h subs hn, fun x ht hn room => ?one,
      fun _ hd hh => exec_jqCmpDb_of_none_held h hd hh, fun _ hd hh => exec_jqCmpDb_of_held h hd hh, exec_jqCmpDb_of_misuse h⟩
    case none =>
      have none : newEntries value k = 0 := hn
      rw [exec_jqSubDb_of_fits h [] ht (by rw [none]; exact room), none]
      rfl
    case one =>
      have one : newEntries value k = 1 := hn
      rw [exec_jqSubDb_of_fits h [x] ht (by rw [one]; exact room), one]
      rfl
  case params => exact fitBytes_length (subField x 24 2) x.params

end Sys2Proof.Machine
end

section
/-! PROOFS. Accesses through BAR2 and the image window (R263, R268, R284, R381, R482 to R484). -/
namespace Sys2Proof.Machine

/-! ## BAR2 -/

section
variable {ofs : Nat} {s : State}

/-- The address that an offset into BAR2 reaches. -/
def bar2Addr (ofs : Nat) (s : State) : Nat := s.staged.cur.bar2Base + ofs

theorem exec_bar2Read (len : Nat) (hu : s.pcie.up = true) :
    exec (.bar2Read ofs len) s = .next (if ofs + len ≤ 2 ^ s.pcie.bar2Log2 then bar2Access (.read (bar2Addr ofs s) len) s else s) := by
  change execBar2Read ofs len s = _
  by_cases fits : ofs + len ≤ 2 ^ s.pcie.bar2Log2
  · rw [if_pos fits, execBar2Read, if_pos (by simp [hu, bar2Size, fits])]
    rfl
  · rw [if_neg fits, execBar2Read, if_neg (by simp [bar2Size, fits])]

theorem exec_bar2Write (data : List Byte) (hu : s.pcie.up = true) :
    exec (.bar2Write ofs data) s =
      .next (if ofs + data.length ≤ 2 ^ s.pcie.bar2Log2 then bar2Access (.write (bar2Addr ofs s) data) s else s) := by
  change execBar2Write ofs data s = _
  by_cases fits : ofs + data.length ≤ 2 ^ s.pcie.bar2Log2
  · rw [if_pos fits, execBar2Write, if_pos (by simp [hu, bar2Size, fits])]
    rfl
  · rw [if_neg fits, execBar2Write, if_neg (by simp [bar2Size, fits])]

/-- Outside `READY` and `BARE` an access meets the boot function. -/
theorem bar2Access_of_boot (x : WindowAccess) (h : ¬ (s.fw.state = .ready ∨ s.fw.state = .bare)) : bar2Access x s = s.emit .bar2Ur := by
  have boot : (s.fw.state == .ready || s.fw.state == .bare) = false := by simpa using h
  simp only [bar2Access, boot, Bool.not_false, if_true]

/-- With no test in hand an access is made at once. -/
theorem bar2Access_of_serving (x : WindowAccess) (h : s.fw.state = .ready ∨ s.fw.state = .bare) (ht : s.test = none) :
    bar2Access x s = windowAccess x s := by
  have serves : (s.fw.state == .ready || s.fw.state == .bare) = true := by simpa using h
  simp only [bar2Access, serves, underCalibration, ht, Bool.not_true, Bool.false_eq_true, if_false]

/-- A write of memory outside the protected ranges. -/
theorem windowWrite_of_memory {a : Nat} {bs : List Byte} (hp : placeOf s a bs.length = .memory)
    (hr : hitsAny (readOnlyRanges s ++ codecRanges s) a bs.length = false) :
    windowWrite a bs s = { s with mem := s.mem.writeBytes a bs } := by
  simp only [windowWrite, hp, writeUnprotected, hr, Bool.false_eq_true, if_false]

end

/-! ## IMAGE_WINDOW_START -/

section
variable {length : DWord} {start : Word} {image : List Byte} {s : State}

/-- What IMAGE_WINDOW_START does while the ROM waits for an image. -/
theorem exec_imageWindowStart (hu : s.pcie.up = true) (hf : s.fw.state = .awaitImage) :
    exec (.imageWindowStart length start image) s = .next (
      if start ≠ 1 then { s with fw := { s.fw with window := image, windowLength := length, windowStart := start } }
      else if 33488896 < length.toNat then
        { s with fw := { s.fw with window := image, windowLength := length, error := .invalid, windowStart := 0 } }
      else setFwState .verifying .ok
        { s with fw := { s.fw with window := image, windowLength := length, windowStart := start, image := fitBytes length.toNat image,
                                   imageSlot := none, progress := 6 } }) := by
  change execImageWindowStart length start image s = _
  simp only [execImageWindowStart, hu, hf, longestImage, beq_self_eq_true, Bool.not_true, Bool.or_self, Bool.false_eq_true, if_false,
    Bool.not_eq_true', beq_eq_false_iff_ne]

/-- An image of the length given is taken as it is. -/
theorem fitBytes_self {n : Nat} {bs : List Byte} (h : bs.length = n) : fitBytes n bs = bs := by
  subst h
  simp [fitBytes]

end

/-- Settles O28: where an access goes, by the firmware's state and the place of its bytes; and the three ways of the image window. -/
theorem windowsReachTheirTargets : Obligations.WindowsReachTheirTargets := by
  unfold Obligations.WindowsReachTheirTargets
  refine ⟨fun ofs s hu => ⟨fun len hl hs ht hp => ?readMemory, fun data hl hs ht hp hr => ?writeMemory, fun len hl hn => ?readBoot,
    fun data hl hn => ?writeBoot, fun len hl => ?readPast, fun data hl => ?writePast, fun len hl hs ht hp => ?readSuspended,
    fun data hl hs ht hp => ?writeSuspended, fun len hl hs ht hp => ?readHole, fun data hl hs ht hp => ?writeHole⟩,
    fun length start image s hu hf => ⟨fun h1 hl hi => ?take, fun h1 hl => ?long, fun h1 => ?keep⟩⟩
  case readMemory =>
    rw [exec_bar2Read len hu, if_pos hl, bar2Access_of_serving _ hs ht, windowAccess, windowRead, bar2Addr, hp]
    rfl
  case writeMemory =>
    rw [exec_bar2Write data hu, if_pos hl, bar2Access_of_serving _ hs ht, windowAccess, bar2Addr, windowWrite_of_memory hp hr]
  case readBoot => rw [exec_bar2Read len hu, if_pos hl, bar2Access_of_boot _ hn]; rfl
  case writeBoot => rw [exec_bar2Write data hu, if_pos hl, bar2Access_of_boot _ hn]; rfl
  case readPast => rw [exec_bar2Read len hu, if_neg (Nat.not_le.mpr hl)]
  case writePast => rw [exec_bar2Write data hu, if_neg (Nat.not_le.mpr hl)]
  case readSuspended =>
    rw [exec_bar2Read len hu, if_pos hl, bar2Access_of_serving _ hs ht, windowAccess, windowRead, bar2Addr, hp]
    rfl
  case writeSuspended =>
    rw [exec_bar2Write data hu, if_pos hl, bar2Access_of_serving _ hs ht, windowAccess, windowWrite, bar2Addr, hp]
    rfl
  case readHole =>
    rw [exec_bar2Read len hu, if_pos hl, bar2Access_of_serving _ hs ht, windowAccess, windowRead, bar2Addr, hp]
    rfl
  case writeHole =>
    rw [exec_bar2Write data hu, if_pos hl, bar2Access_of_serving _ hs ht, windowAccess, windowWrite, bar2Addr, hp]
    rfl
  case take =>
    rw [exec_imageWindowStart hu hf, if_neg (not_not.mpr h1), if_neg (Nat.not_lt.mpr hl), fitBytes_self hi, h1]
  case long => rw [exec_imageWindowStart hu hf, if_neg (not_not.mpr h1), if_pos hl]
  case keep => rw [exec_imageWindowStart hu hf, if_pos h1]

end Sys2Proof.Machine
end

section
/-! PROOFS. Device resets (R448, R464, R495, R496): what a reset keeps, and that what comes before it leaves that alone. -/
namespace Sys2Proof.Machine

/-! ## What a reset keeps -/

/-- The state with only what a reset keeps: the fuses, the boot flash, what the host holds and its end of the link. -/
def State.kept (s : State) : State :=
  { State.reset with
    pending := s.pending, fresh := s.fresh, fuses := s.fuses, host := s.host,
    fw := { State.reset.fw with flash := s.fw.flash },
    pcie := { State.reset.pcie with bar2Log2 := s.pcie.bar2Log2 } }

/-- The state after a reset of a state of which only what a reset keeps is left. -/
def State.wiped (pins : Pins) (out : List Out) (k : State) : State :=
  let v := k.fuses.variant
  let p := Power.reset (maxPower v) (maxClock v)
  { k with pins := pins, out := out, power := { p with domains := offDomains v } }

theorem afterReset_eq (pins : Pins) (s : State) : afterReset pins s = s.kept.wiped pins s.out := rfl

theorem kept_of_offFabric {s t : State} (h : t.offFabric = s.offFabric) : t.kept = s.kept :=
  (congrArg State.kept h : t.offFabric.kept = s.offFabric.kept)

theorem kept_sendClap (g : Group) (k : Nat) (m : ClapMsg) (s : State) : (sendClap g k m s).kept = s.kept :=
  kept_of_offFabric (offFabric_sendClap ..)

/-! ## What comes before a warm reset -/

/-- What a reset keeps, with the jobs: with no job left, an abort changes neither. -/
def State.keptJobs (s : State) : State × Scheduler := (s.kept, s.sched)

theorem keptJobs_of_offFabric {s t : State} (h : t.offFabric = s.offFabric) : t.keptJobs = s.keptJobs :=
  (congrArg State.keptJobs h : t.offFabric.keptJobs = s.offFabric.keptJobs)

theorem keptJobs_updGroup (tag : Nat) (f : Group → Group) (s : State) : (s.updGroup tag f).keptJobs = s.keptJobs := rfl

theorem jobs_of_keptJobs {s t : State} (h : t.keptJobs = s.keptJobs) : t.sched.jobs = s.sched.jobs :=
  congrArg (fun p : State × Scheduler => p.2.jobs) h

/-- An abort with no job left ends none. -/
theorem keptJobs_endAbort (source : Nat) (g : Group) (seq cause origin : Nat) (s : State) (none_ : s.sched.jobs = []) :
    (endAbort source g seq cause origin s).keptJobs = s.keptJobs := by
  have dropped : ∀ t : State, (dropStale g.tag.toNat seq t).sched = t.sched := fun t =>
    (congrArg State.sched (offFabric_dropStale g.tag.toNat seq t) : (dropStale g.tag.toNat seq t).offFabric.sched = t.offFabric.sched)
  simp only [endAbort, dropped, State.updGroup, none_, List.filter_nil, List.foldl_nil]
  rw [keptJobs_of_offFabric (offFabric_logError ..), keptJobs_of_offFabric (offFabric_dropStale ..)]
  rfl

theorem keptJobs_requestAbort (g : Group) (seq cause : Nat) (s : State) (none_ : s.sched.jobs = []) :
    (requestAbort g seq cause s).keptJobs = s.keptJobs := by
  unfold requestAbort
  split
  · unfold decideAbort
    split
    · have sent := keptJobs_of_offFabric (offFabric_sendChildren g (clapMsg g 3 0 cause seq s.self []) s)
      rw [applyAbort, keptJobs_endAbort _ _ _ _ _ _ ((jobs_of_keptJobs sent).trans none_), sent]
    · rfl
  · rw [keptJobs_of_offFabric (offFabric_sendClap ..), keptJobs_updGroup]

theorem keptJobs_raiseAbortOf (tag seq cause : Nat) (s : State) (none_ : s.sched.jobs = []) :
    (raiseAbortOf tag seq cause s).keptJobs = s.keptJobs := by
  unfold raiseAbortOf
  split
  · rfl
  · exact keptJobs_requestAbort _ _ _ _ none_

theorem keptJobs_foldl_raiseAbortOf (l : List (Nat × Nat)) (s : State) (none_ : s.sched.jobs = []) :
    (l.foldl (fun acc x => raiseAbortOf x.1 x.2 2 acc) s).keptJobs = s.keptJobs := by
  induction l generalizing s with
  | nil => rfl
  | cons x l ih =>
    have one := keptJobs_raiseAbortOf x.1 x.2 2 s none_
    rw [List.foldl_cons, ih _ ((jobs_of_keptJobs one).trans none_), one]

theorem kept_abortFlying (s : State) (none_ : s.sched.jobs = []) : (abortFlying s).kept = s.kept :=
  congrArg Prod.fst (keptJobs_foldl_raiseAbortOf _ s none_)

theorem kept_dropHeld (j : Job) (s : State) : (dropHeld j s).kept = s.kept := kept_of_offFabric (offFabric_dropWaiting ..)

theorem kept_dropJobs (s : State) : (dropJobs s).kept = s.kept := by
  change (s.sched.jobs.foldl (fun acc j => dropHeld j acc) (idleUnits s)).kept = s.kept
  rw [foldl_field State.kept _ fun t j => kept_dropHeld j t]
  rfl

theorem jobs_dropJobs (s : State) : (dropJobs s).sched.jobs = [] := rfl

theorem kept_stopPort (st : PortState) (p : Nat) (s : State) : (stopPort st p s).kept = s.kept := by
  rw [stopPort, foldl_field State.kept _ fun t w => kept_of_offFabric (offFabric_oweCredit ..)]
  rfl

theorem kept_idlePorts (s : State) : (idlePorts s).kept = s.kept := by
  refine foldl_field State.kept _ (fun t p => ?_) _ s
  split
  · rfl
  · exact kept_stopPort ..

theorem kept_railsOff (s : State) : (railsOff s).kept = s.kept := by
  have supplies : ∀ (acc : State) (i : Nat),
      (if s.power.supplies.getD i 0 = 0 then acc else acc.emit (supplyOut s i false)).kept = acc.kept := fun acc i => by
    split <;> rfl
  have rails : ∀ (acc : State) (r : Nat), (if (s.rail r).on then acc.emit (pmbusOut s r none) else acc).kept = acc.kept :=
    fun acc r => by split <;> rfl
  exact (foldl_field State.kept _ rails _ _).trans (foldl_field State.kept _ supplies _ s)

/-- What a warm reset does before it loses the state leaves what a reset keeps. -/
theorem kept_left (s : State) :
    (railsOff (if firmwareUp s then idlePorts (abortFlying (dropJobs s)) else s)).kept = s.kept := by
  rw [kept_railsOff]
  split
  · rw [kept_idlePorts, kept_abortFlying _ (jobs_dropJobs s), kept_dropJobs]
  · rfl

/-! ## The resets -/

section
variable {s : State}

/-- The state as a warm reset leaves it, before the ROM looks at the straps. -/
def State.warm (s : State) : State :=
  setDomains baseDomain .running
    (s.kept.wiped { State.reset.pins with devResetN := true, straps := s.pins.straps, strapsValid := s.pins.strapsValid }
      (railsOff (if firmwareUp s then idlePorts (abortFlying (dropJobs s)) else s)).out)

theorem exec_warmReset_of_up (up : s.pins.devResetN = true) (cool : s.power.trippedAt = none) :
    exec .warmReset s = .next (
      if !s.pins.strapsValid then { s.warm with fw := { s.warm.fw with progress := s.fw.progress } }
      else if strapsReserved s.pins.straps then { s.warm with fw := { s.warm.fw with progress := 3, error := .invalid } }
      else seekImage s.warm) := by
  change execWarmReset s = _
  simp only [execWarmReset, up, cool, Bool.not_true, Bool.false_eq_true, if_false, Option.isSome_none, warmBoot, afterReset_eq,
    kept_left, State.warm]

/-- The ROM looks for its image after a reset. -/
theorem seekImage_of_flash (flash : bootSource s.pins.straps ≠ 1) :
    seekImage s = { s with fw := { s.fw with progress := max 5 s.fw.progress } } := by
  rw [seekImage]
  exact if_neg flash

theorem seekImage_of_host (host : bootSource s.pins.straps = 1) :
    seekImage s = setFwState .awaitImage .ok { s with fw := { s.fw with progress := max 5 s.fw.progress } } := by
  rw [seekImage]
  exact if_pos host

theorem exec_warmReset_of_tripped (up : s.pins.devResetN = true) (hot : s.power.trippedAt.isSome = true) :
    exec .warmReset s = .next { s with
      pcie := { State.reset.pcie with bar2Log2 := s.pcie.bar2Log2 }, pins := { s.pins with pePerstN := false, partner := none },
      funcs := State.reset.funcs, log := State.reset.log } := by
  change execWarmReset s = _
  rw [execWarmReset, if_neg (by simp [up]), if_pos hot]
  rfl

theorem exec_warmReset_of_down (down : s.pins.devResetN = false) : exec .warmReset s = .next s := by
  change execWarmReset s = _
  rw [execWarmReset, if_pos (by simp [down])]

end

/-- Settles O30: with no job left the aborts change nothing that a reset keeps, so the state after a warm reset is that of the state
before, and its cases are those of the straps. -/
theorem resetsLoseTheDevice : Obligations.ResetsLoseTheDevice := by
  unfold Obligations.ResetsLoseTheDevice
  intro s v p blank
  refine ⟨rfl, fun up cool => ?_, exec_warmReset_of_tripped, exec_warmReset_of_down⟩
  have warm := exec_warmReset_of_up up cool
  refine ⟨fun none_ => ?_, fun sampled reserved => ?_, fun sampled free flash => ?_, fun sampled free host => ?_⟩
  · rw [warm, if_pos (by simp [none_])]
    rfl
  · rw [warm, if_neg (by simp [sampled]), if_pos reserved]
    rfl
  · rw [warm, if_neg (by simp [sampled]), if_neg (by simp [free]), seekImage_of_flash (s := s.warm) flash]
    rfl
  · rw [warm, if_neg (by simp [sampled]), if_neg (by simp [free]), seekImage_of_host (s := s.warm) host]
    rfl

end Sys2Proof.Machine
end

section
/-! PROOFS. The boot ROM's first steps and the choice of an image (R375, R380, R480, R482, R503). -/
namespace Sys2Proof.Machine

theorem nextWith_next {p : State → Prop} {o : Host.Outcome State Fault Refusal} {t : State} (next : o = .next t) (holds : p t) :
    nextWith p o := ⟨t, next, holds⟩

/-! ## Domains and link training -/

theorem domain_setDomains_of {p : Nat → Bool} {st : DomainState} {s : State} {i : Nat} (chosen : p i = true)
    (bound : i < s.power.domains.length) (able : (s.domain i).state ≠ .fusedOff) : ((setDomains p st s).domain i).state = st := by
  simp only [State.domain, setDomains, List.getD_eq_getElem?_getD, List.getElem?_mapIdx] at able ⊢
  rw [List.getElem?_eq_getElem bound] at able ⊢
  simp only [Option.getD_some] at able
  simp [chosen, able]

section
variable {s : State}

/-- The link can train with an end and a BAR2 size: what training waits for is there, and the width is one that trains. -/
structure LinkReady (s : State) (q : LinkPartner × Nat) : Prop where
  released : s.pins.devResetN = true
  sampled : s.pins.strapsValid = true
  high : s.pins.pePerstN = true
  down : s.pcie.up = false
  clock : (s.domain 318).state = .running
  partner : s.pins.partner = some q

/-- The link after training (R375, R380). -/
def PcieLink.trained (straps : Half) (q : LinkPartner × Nat) (x : PcieLink) : PcieLink :=
  let gen := max 1 (min q.1.gen (7 - bitField straps 2 3))
  { x with up := true, gen := gen, width := q.1.width, flitMode := decide (6 ≤ gen) || q.1.flitMode,
           reversed := straps.getLsbD 5, bar2Log2 := max 30 (min 41 q.2) }

theorem trainLink_of_width (q : LinkPartner × Nat) (width : q.1.width = 4 ∨ q.1.width = 8 ∨ q.1.width = 16) :
    trainLink q.1 q.2 s =
      { s with pcie := s.pcie.trained s.pins.straps q, fw := { s.fw with progress := max 4 s.fw.progress } } := by
  rw [trainLink, if_neg (by rcases width with h | h | h <;> simp [h])]
  rfl

theorem trainLink_of_other (q : LinkPartner × Nat) (width : ¬ (q.1.width = 4 ∨ q.1.width = 8 ∨ q.1.width = 16)) :
    trainLink q.1 q.2 s = s := by
  rw [trainLink, if_pos (by simpa [and_assoc] using width)]

theorem startLink_of_ready {q : LinkPartner × Nat} (ready : LinkReady s q) : startLink s = trainLink q.1 q.2 s := by
  obtain ⟨released, sampled, high, down, clock, partner⟩ := ready
  simp [startLink, released, sampled, high, down, clock, partner]

/-- Without a host's end, or with `PE_PERST_N` low or the straps not sampled, the link does not train. -/
theorem startLink_of_waiting (waiting : ∀ q, ¬ (s.pins.strapsValid = true ∧ s.pins.pePerstN = true ∧ s.pins.partner = some q)) :
    startLink s = s := by
  unfold startLink
  split
  case h_1 q partner =>
    refine if_neg fun ready => waiting q ?_
    simp only [Bool.and_eq_true] at ready
    exact ⟨ready.1.1.1.2, ready.1.1.2, partner⟩
  case h_2 => rfl

/-! ## The ROM's first steps -/

theorem exec_devResetRelease_of_low (low : s.pins.devResetN = false) :
    exec .devResetRelease s = .next (setDomains baseDomain .running
      { s with pins := { s.pins with devResetN := true }, fw := { s.fw with progress := 2 } }) := by
  change execDevResetRelease s = _
  rw [execDevResetRelease, if_neg (by simp [low])]

/-- The straps are latched. -/
def State.sampled (word : Half) (s : State) : State :=
  { s with pins := { s.pins with straps := word, strapsValid := true }, fw := { s.fw with progress := 3 } }

/-- What the ROM does once the straps are latched and the link has had its chance. -/
def afterStraps (word : Half) (t : State) : State :=
  if strapsReserved word then { t with fw := { t.fw with error := .invalid } } else seekImage t

theorem exec_strapSample (word : Half) (released : s.pins.devResetN = true) (fresh_ : s.pins.strapsValid = false)
    (rom : s.fw.state = .rom) :
    exec (.strapSample word) s = .next (afterStraps word (startLink (s.sampled word))) := by
  change execStrapSample word s = _
  rw [execStrapSample, if_neg (by simp [released, fresh_])]
  exact congrArg Host.Outcome.next (if_neg (by simp [rom]))

/-- `PE_PERST_N` is high, and the host's end is there. -/
def State.withEnd (peer : LinkPartner) (bar2Log2 : Nat) (s : State) : State :=
  { s with pins := { s.pins with pePerstN := true, partner := some (peer, bar2Log2) } }

theorem exec_pePerstRelease (peer : LinkPartner) (bar2Log2 : Nat) (down : s.pcie.up = false) :
    exec (.pePerstRelease peer bar2Log2) s =
      .next (startLink (s.withEnd peer bar2Log2)) := by
  change execPePerstRelease peer bar2Log2 s = _
  rw [execPePerstRelease, if_neg (by simp [down]), State.withEnd]

/-- Once the straps are sampled the link is as before, or has trained with the host's end. -/
theorem startLink_sampled (word : Half) (released : s.pins.devResetN = true) (down : s.pcie.up = false)
    (clock : (s.domain 318).state = .running) :
    (∀ q, s.pins.pePerstN = true ∧ s.pins.partner = some q ∧ q.1.width ∈ [4, 8, 16] →
      startLink (s.sampled word) = { s.sampled word with
        pcie := s.pcie.trained word q
        fw := { s.fw with progress := 4 } }) ∧
    ((¬ ∃ q, s.pins.pePerstN = true ∧ s.pins.partner = some q ∧ q.1.width ∈ [4, 8, 16]) →
      startLink (s.sampled word) = s.sampled word) := by
  constructor
  · rintro q ⟨high, partner, width⟩
    rw [startLink_of_ready (s := s.sampled word) (q := q) ⟨released, rfl, high, down, clock, partner⟩, trainLink_of_width q (by simpa using width)]
    rfl
  · intro waiting
    by_cases able : ∃ q, s.pins.pePerstN = true ∧ s.pins.partner = some q
    · obtain ⟨q, high, partner⟩ := able
      rw [startLink_of_ready (s := s.sampled word) (q := q) ⟨released, rfl, high, down, clock, partner⟩,
        trainLink_of_other q fun width => waiting ⟨q, high, partner, by simpa using width⟩]
    · exact startLink_of_waiting fun q ⟨_, high, partner⟩ => able ⟨q, high, partner⟩

theorem afterStraps_pins (word : Half) (t : State) : (afterStraps word t).pins = t.pins := by
  unfold afterStraps seekImage
  split
  · rfl
  · simp only []
    split
    · exact setFwState_pins ..
    · rfl

theorem afterStraps_pcie (word : Half) (t : State) : (afterStraps word t).pcie = t.pcie := by
  unfold afterStraps seekImage
  split
  · rfl
  · simp only []
    split
    · exact setFwState_pcie ..
    · rfl

theorem afterStraps_of_reserved {word : Half} (reserved : strapsReserved word = true) (t : State) :
    (afterStraps word t).fw = { t.fw with error := .invalid } := by
  rw [afterStraps, if_pos reserved]

theorem afterStraps_of_flash {word : Half} {t : State} (valid : strapsReserved word = false) (flash : bootSource t.pins.straps = 0) :
    (afterStraps word t).fw = { t.fw with progress := max 5 t.fw.progress } := by
  rw [afterStraps, if_neg (by simp [valid]), seekImage_of_flash (by simp [flash])]

theorem afterStraps_of_host {word : Half} {t : State} (valid : strapsReserved word = false) (host : bootSource t.pins.straps = 1) :
    (afterStraps word t).fw = { t.fw with progress := max 5 t.fw.progress, state := .awaitImage, error := .ok } := by
  rw [afterStraps, if_neg (by simp [valid]), seekImage_of_host host, setFwState_fw]

end

/-- Settles O31: the straps are sampled, the link trains where what it waits for is there, and the ROM turns to its image. -/
theorem romStepsFollowTheStraps : Obligations.RomStepsFollowTheStraps := by
  unfold Obligations.RomStepsFollowTheStraps
  intro word peer bar2Log2 s
  refine ⟨fun low => ⟨_, exec_devResetRelease_of_low low, rfl, rfl, fun i base bound able =>
      domain_setDomains_of (by simp [baseDomain, base]) bound able⟩, ?_, ?_, ?_⟩
  · intro released fresh_ rom down clock ready
    obtain ⟨trains, waits⟩ := startLink_sampled word released down clock
    refine ⟨_, exec_strapSample word released fresh_ rom, ?_⟩
    simp only [afterStraps_pins]
    by_cases able : ∃ q, ready q
    · obtain ⟨q, hq⟩ := able
      have only : ∀ q', ready q' → q' = q := fun q' hq' => Option.some.inj (hq'.2.1.symm.trans hq.2.1)
      rw [trains q hq]
      refine ⟨rfl, fun reserved => ?_, fun valid flash => ?_, fun valid host => ?_, fun q' hq' => ?_, fun no => absurd ⟨q, hq⟩ no⟩
      · rw [afterStraps_of_reserved reserved]
        exact ⟨rfl, fun _ => rfl, fun no => absurd ⟨q, hq⟩ no⟩
      · exact afterStraps_of_flash valid flash
      · exact afterStraps_of_host valid host
      · rw [only q' hq']
        exact afterStraps_pcie ..
    · rw [waits able]
      refine ⟨rfl, fun reserved => ?_, fun valid flash => ?_, fun valid host => ?_, fun q hq => absurd ⟨q, hq⟩ able, fun _ => ?_⟩
      · rw [afterStraps_of_reserved reserved]
        exact ⟨rfl, fun yes => absurd yes able, fun _ => rfl⟩
      · exact afterStraps_of_flash valid flash
      · exact afterStraps_of_host valid host
      · exact afterStraps_pcie ..
  · intro released fresh_ down
    rw [exec_pePerstRelease _ _ down, startLink_of_waiting (by simp [State.withEnd, fresh_])]
    rfl
  · intro released sampled down clock
    rw [exec_pePerstRelease _ _ down]
    refine congrArg Host.Outcome.next ((startLink_of_ready (s := s.withEnd peer bar2Log2) (q := (peer, bar2Log2)) ⟨released, sampled, rfl, down, clock, rfl⟩).trans ?_)
    split
    case isTrue width => exact trainLink_of_width (peer, bar2Log2) width
    case isFalse width => exact trainLink_of_other (peer, bar2Log2) width

/-! ## The choice of an image -/

section
variable {a b : FlashSlot} {s : State}

/-- The ROM reads its image from the flash. -/
def ReadsFlash (s : State) : Prop :=
  s.fw.state = .rom ∧ s.pins.strapsValid = true ∧ strapsReserved s.pins.straps = false ∧ bootSource s.pins.straps = 0

/-- The valid slots of two, the one to try first in front. -/
theorem validSlots_pair :
    validSlots [a, b] =
      if a.seq < b.seq then [1, 0].filter fun i => (([a, b] : List FlashSlot).getD i emptySlot).mark == markValid
      else [0, 1].filter fun i => (([a, b] : List FlashSlot).getD i emptySlot).mark == markValid := by
  unfold validSlots
  simp only [List.getD_cons_zero, List.getD_cons_succ]
  split <;> rfl

theorem validSlots_first (good : a.mark = markValid) (first : b.mark ≠ markValid ∨ b.seq ≤ a.seq) :
    ∃ rest, validSlots [a, b] = 0 :: rest := by
  rw [validSlots_pair]
  by_cases later : a.seq < b.seq
  · have bad : b.mark ≠ markValid := first.resolve_right (by omega)
    exact ⟨[], by simp [later, good, bad]⟩
  · exact ⟨_, by rw [if_neg later, List.filter_cons_of_pos (by simp [good])]⟩

theorem validSlots_second (good : b.mark = markValid) (first : a.mark ≠ markValid ∨ a.seq < b.seq) :
    ∃ rest, validSlots [a, b] = 1 :: rest := by
  rw [validSlots_pair]
  by_cases later : a.seq < b.seq
  · exact ⟨_, by rw [if_pos later, List.filter_cons_of_pos (by simp [good])]⟩
  · have bad : a.mark ≠ markValid := first.resolve_right later
    exact ⟨[], by simp [later, good, bad]⟩

theorem validSlots_none (badA : a.mark ≠ markValid) (badB : b.mark ≠ markValid) : validSlots [a, b] = [] := by
  rw [validSlots_pair]
  split <;> simp [badA, badB]

/-- The flash as it was read. -/
def State.flashed (a b : FlashSlot) (s : State) : State := { s with fw := { s.fw with flash := [a, b] } }

theorem exec_fwImageRead_of_valid {i : Nat} {rest : List Nat} (reads : ReadsFlash s) (valid : validSlots [a, b] = i :: rest) :
    exec (.fwImageRead a b) s = .next (setFwState .verifying .ok (imageInHand i rest (s.flashed a b))) := by
  obtain ⟨rom, sampled, free, flash⟩ := reads
  change execFwImageRead a b s = _
  rw [execFwImageRead, if_neg (by simp [rom, sampled, free, flash])]
  simp only [valid]
  rfl

theorem exec_fwImageRead_of_none (reads : ReadsFlash s) (none_ : validSlots [a, b] = []) :
    exec (.fwImageRead a b) s = .next (awaitHost (s.flashed a b)) := by
  obtain ⟨rom, sampled, free, flash⟩ := reads
  change execFwImageRead a b s = _
  rw [execFwImageRead, if_neg (by simp [rom, sampled, free, flash])]
  simp only [none_]
  rfl

theorem exec_fwVerifyDone_of_ok (verifying : s.fw.state = .verifying) (passes : imageOk s.fuses.svBlown s.fw.image = true) :
    exec .fwVerifyDone s = .next (startFirmware s) := by
  change execFwVerifyDone s = _
  exact congrArg Host.Outcome.next ((if_neg (by simp [verifying])).trans (if_pos passes))

theorem exec_fwVerifyDone_of_next {i : Nat} {rest : List Nat} (verifying : s.fw.state = .verifying)
    (fails : ¬ imageOk s.fuses.svBlown s.fw.image = true) (candidates : s.fw.candidates = i :: rest) :
    exec .fwVerifyDone s = .next (imageInHand i rest s) := by
  change execFwVerifyDone s = _
  refine congrArg Host.Outcome.next ((if_neg (by simp [verifying])).trans ((if_neg fails).trans ?_))
  simp only [candidates]

theorem exec_fwVerifyDone_of_none (verifying : s.fw.state = .verifying)
    (fails : ¬ imageOk s.fuses.svBlown s.fw.image = true) (candidates : s.fw.candidates = []) :
    exec .fwVerifyDone s = .next (awaitHost s) := by
  change execFwVerifyDone s = _
  refine congrArg Host.Outcome.next ((if_neg (by simp [verifying])).trans ((if_neg fails).trans ?_))
  simp only [candidates]

theorem awaitHost_fw : (awaitHost s).fw =
    { s.fw with imageSlot := none, windowStart := 0, progress := 5, state := .awaitImage, error := .auth } := by
  rw [awaitHost, setFwState_fw]

/-- After a reset the image starts in `INIT`. -/
theorem startFirmware_of_reset (phase : s.pins.clavePhase = 0) :
    (startFirmware s).fw = { (startImage s).fw with state := .init, error := .ok, progress := 7 } ∧
    (startFirmware s).resident = Resident.reset := by
  rw [startFirmware, if_pos phase]
  constructor
  · simp only [setFwState_fw]
  · have kept := setFwState_resident .init .ok (startImage s)
    generalize setFwState .init .ok (startImage s) = u at kept ⊢
    exact kept

end

/-- Settles O32: the first of the valid slots is read, and what the image's checks give decides what comes next. -/
theorem imagesAreVerifiedInOrder : Obligations.ImagesAreVerifiedInOrder := by
  unfold Obligations.ImagesAreVerifiedInOrder
  intro a b s reads good
  refine ⟨fun hr ha first => ?_, fun hr hb first => ?_, fun hr ha hb => ?_, fun verifying => ?_⟩
  · obtain ⟨rest, valid⟩ := validSlots_first ha first
    refine nextWith_next (exec_fwImageRead_of_valid hr valid) ?_
    rw [setFwState_fw]
    exact ⟨rfl, rfl, rfl, rfl⟩
  · obtain ⟨rest, valid⟩ := validSlots_second hb first
    refine nextWith_next (exec_fwImageRead_of_valid hr valid) ?_
    rw [setFwState_fw]
    exact ⟨rfl, rfl, rfl, rfl⟩
  · refine nextWith_next (exec_fwImageRead_of_none hr (validSlots_none ha hb)) ?_
    rw [awaitHost_fw]
    exact ⟨rfl, rfl, rfl⟩
  · by_cases passes : imageOk s.fuses.svBlown s.fw.image = true
    · refine nextWith_next (exec_fwVerifyDone_of_ok verifying passes) ?_
      rw [if_pos passes]
      intro phase
      obtain ⟨fw, resident⟩ := startFirmware_of_reset phase
      rw [fw, resident]
      exact ⟨rfl, rfl, rfl, rfl, rfl⟩
    · cases candidates : s.fw.candidates with
      | cons i rest =>
        refine nextWith_next (exec_fwVerifyDone_of_next verifying passes candidates) ?_
        rw [if_neg passes]
        exact ⟨rfl, rfl, rfl⟩
      | nil =>
        refine nextWith_next (exec_fwVerifyDone_of_none verifying passes candidates) ?_
        rw [if_neg passes, awaitHost_fw]
        exact ⟨rfl, rfl⟩

end Sys2Proof.Machine
end

section
/-! PROOFS. Memory training at boot (R264, R281, R432, R439, R480 step 9). -/
namespace Sys2Proof.Machine

/-- A channel of no size that holds the pass of a test made before. -/
def passedEmpty : Channel := { Channel.absent with fullPass := true }

/-- A device that boots with its rails at their level, every domain on, and 128 such channels. -/
def bootWithPasses : State :=
  { State.reset with
    fw := { Firmware.reset with state := .init }
    channels := List.replicate 128 passedEmpty
    power := { State.reset.power with
               rails := List.replicate 12 { Rail.offRail with good := true, mv := 0 }, loopMv := 0,
               domains := List.replicate 325 { Domain.offDomain with state := .running } } }

theorem vcoreSettled_bootWithPasses : vcoreSettled bootWithPasses = true := by decide

/-- Memory training is over. -/
def State.memoryUp (t : State) : State := { t with fw := { t.fw with bootMemory := true } }

theorem chan_memoryUp (t : State) (c : Nat) : t.memoryUp.chan c = t.chan c := rfl

/-- The state of that device once its training is over. -/
def bootTrained : State :=
  ((List.range 28).foldl (noteTraining 0) ((List.range 128).foldl (channelTrained 0 []) bootWithPasses)).memoryUp

theorem exec_memTrainingDone_bootWithPasses : exec (.memTrainingDone 0 []) bootWithPasses = .next bootTrained := by
  change execMemTrainingDone 0 [] bootWithPasses = _
  rw [execMemTrainingDone, if_pos (by rw [vcoreSettled_bootWithPasses]; rfl)]
  rfl

/-! ### No channel gains a pass -/

/-- A channel without a pass is without one after a change that gives none. -/
theorem fullPass_updChan {f : Channel → Channel} (ch c : Nat) (s : State) (gives : ∀ x, x.fullPass = false → (f x).fullPass = false)
    (without : (s.chan c).fullPass = false) : ((s.updChan ch f).chan c).fullPass = false := by
  by_cases same : ch = c
  · by_cases bound : c < s.channels.length
    · rw [same, chan_updChan_same s f bound]
      exact gives _ without
    · rw [State.chan, State.updChan, List.getD_eq_getElem?_getD, List.getElem?_eq_none (by rw [length_updAt]; omega)]
      rfl
  · rwa [chan_updChan_other s f (Ne.symm same)]

theorem fullPass_foldl_updChan (f : Channel → Channel) (gives : ∀ x, x.fullPass = false → (f x).fullPass = false) (l : List Nat)
    (c : Nat) (s : State) (without : (s.chan c).fullPass = false) :
    ((l.foldl (fun (acc : State) ch => acc.updChan ch f) s).chan c).fullPass = false := by
  induction l generalizing s with
  | nil => exact without
  | cons ch l ih => exact ih _ (fullPass_updChan ch c s gives without)

theorem fullPass_gatePosition (p c : Nat) (s : State) (without : (s.chan c).fullPass = false) :
    ((gatePosition p s).chan c).fullPass = false := by
  rw [gatePosition]
  split
  · exact fullPass_foldl_updChan losesTraining (fun _ _ => rfl) _ c _ without
  · split
    · exact fullPass_foldl_updChan (fun x => { x with pausing := true, retrains := x.retrains + 1 }) (fun _ h => h) _ c _ without
    · exact without

theorem fullPass_noteTraining (ok : BitVec 128) (p c : Nat) (s : State) (without : (s.chan c).fullPass = false) :
    ((noteTraining ok s p).chan c).fullPass = false := by
  rw [noteTraining]
  split
  · exact fullPass_gatePosition p c s without
  · exact fullPass_gatePosition p c s without

theorem fullPass_foldl_noteTraining (ok : BitVec 128) (l : List Nat) (c : Nat) (s : State) (without : (s.chan c).fullPass = false) :
    ((l.foldl (noteTraining ok) s).chan c).fullPass = false := by
  induction l generalizing s with
  | nil => exact without
  | cons p l ih => exact ih _ (fullPass_noteTraining ok p c s without)

/-- Channels of no size do not train. -/
theorem foldl_channelTrained_of_empty (ok : BitVec 128) (rates l : List Nat) (s : State) (empty : ∀ ch ∈ l, (s.chan ch).sizeMiB = 0) :
    l.foldl (channelTrained ok rates) s = s := by
  induction l with
  | nil => rfl
  | cons ch l ih =>
    rw [List.foldl_cons, channelTrained, if_pos (empty ch List.mem_cons_self)]
    exact ih fun c hc => empty c (List.mem_cons_of_mem _ hc)

/-! ### The counterexample -/

theorem chan_bootWithPasses {ch : Nat} (bound : ch < 128) : bootWithPasses.chan ch = passedEmpty := by
  rw [State.chan, bootWithPasses, List.getD_eq_getElem?_getD, List.getElem?_replicate_of_lt bound, Option.getD_some]

/-- Position 0 is switched off, and the pass that its first channel held counts no more. -/
theorem fullPass_gatePosition_zero : ((gatePosition 0 bootWithPasses).chan 0).fullPass = false := by decide

theorem fullPass_bootTrained : (bootTrained.chan 0).fullPass = false := by
  have none_ := foldl_channelTrained_of_empty 0 [] (List.range 128) bootWithPasses fun ch hc => by
    rw [chan_bootWithPasses (List.mem_range.1 hc)]
    rfl
  have first : ((noteTraining 0 bootWithPasses 0).chan 0).fullPass = false := by
    rw [noteTraining]
    split <;> exact fullPass_gatePosition_zero
  have positions : List.range 28 = 0 :: rangeFrom 1 27 := by decide
  have gated : bootTrained = ((0 :: rangeFrom 1 27).foldl (noteTraining 0) bootWithPasses).memoryUp := by
    rw [← positions]
    exact congrArg (fun u => ((List.range 28).foldl (noteTraining 0) u).memoryUp) none_
  rw [gated, chan_memoryUp, List.foldl_cons]
  exact fullPass_foldl_noteTraining 0 (rangeFrom 1 27) 0 _ first

/-- Refutes O33: of a position that is switched off because no channel of it trained, every channel loses the pass of an earlier
test, one of no size too, so such a channel does not stand as it was. -/
theorem not_bootBringsUpRailsMemoryAndCores : ¬ Obligations.BootBringsUpRailsMemoryAndCores := by
  unfold Obligations.BootBringsUpRailsMemoryAndCores
  intro holds
  obtain ⟨-, -, training, -⟩ := holds bootWithPasses rfl
  obtain ⟨t, next, -, -, stand⟩ := training 0 [] vcoreSettled_bootWithPasses rfl rfl
  rw [exec_memTrainingDone_bootWithPasses] at next
  obtain rfl : bootTrained = t := Host.Outcome.next.inj next
  have stood := stand 0 (by omega) (by rw [chan_bootWithPasses (by omega)]; rfl)
  have pass : (bootTrained.chan 0).fullPass = true := by
    rw [stood, chan_bootWithPasses (by omega)]
    rfl
  rw [fullPass_bootTrained] at pass
  exact Bool.noConfusion pass

end Sys2Proof.Machine
end

section
/-! PROOFS. The firing of a stroke (R62, R67, R68, R76). -/
namespace Sys2Proof.Machine

/-! ## A unit after it, or another, is changed -/

theorem unit_updUnit_same {s : State} {u : UnitId} (f : UnitState → UnitState) (form : u.wf = true) (sized : s.Sized)
    (full : ∀ k ∈ s.cores, k.units.length = 11) : (s.updUnit u f).unit u = f (s.unit u) := by
  cases u with
  | core c v =>
    have core : c.val < s.cores.length := by have := sized.cores; omega
    refine unit_updUnit_core_same s c v f core ?_
    have units : (s.core c.val).units.length = 11 := by
      rw [State.core, List.getD_eq_getElem?_getD, List.getElem?_eq_getElem core]
      exact full _ (List.getElem_mem core)
    simp only [UnitId.wf, Bool.and_eq_true, decide_eq_true_eq] at form
    omega
  | chip v =>
    exact unit_updUnit_chip_same s v f (by have := sized.chips; omega)

theorem updCore_of_length_le {s : State} {c : Nat} (f : Core → Core) (out : s.cores.length ≤ c) : s.updCore c f = s := by
  rw [State.updCore, updAt, List.modify_eq_self out]

theorem unit_updUnit_other {s : State} {u v : UnitId} (f : UnitState → UnitState) (formU : u.wf = true) (formV : v.wf = true)
    (other : v ≠ u) : (s.updUnit u f).unit v = s.unit v := by
  cases u with
  | core c x =>
    cases v with
    | core k y =>
      simp only [UnitId.wf, Bool.and_eq_true, decide_eq_true_eq] at formU formV
      simp only [State.unit, State.updUnit]
      by_cases same : k.val = c.val
      · have apart : y.val - 1 ≠ x.val - 1 := fun equal => other (by
          rw [Fin.ext same, Fin.ext (show y.val = x.val by omega)])
        rw [same]
        by_cases bound : c.val < s.cores.length
        · rw [core_updCore_same _ _ bound, updAt_getD_other _ _ _ apart]
        · rw [updCore_of_length_le _ (by omega)]
      · rw [core_updCore_other _ _ same]
    | chip y => rfl
  | chip x =>
    cases v with
    | core k y => rfl
    | chip y =>
      simp only [UnitId.wf, decide_eq_true_eq] at formU formV
      exact updAt_getD_other _ _ _ fun equal => other (by rw [Fin.ext (show y.val = x.val by omega)])

/-! ## What firing does -/

/-- The stroke that firing puts in flight (R76). -/
def firedFlight (b : BeatCtx) (s : State) : Inflight :=
  { op := BitVec.ofNat 8 b.word.op, desc := b.word.desc, imm := BitVec.ofNat 24 b.word.imm, signal := BitVec.ofNat 8 b.word.signal,
    bar := b.bar, loops := b.fire.loops, firedAt := s.time, timeout := xferTimeoutUs s, memLimit := s.staged.cur.memSuspendLimit,
    key := s.sched.nextKey, taken := 0, given := 0, phase := .running, rattle := [] }

/-- A unit that has fired a stroke. -/
def UnitState.fires (b : BeatCtx) (i : Inflight) (x : UnitState) : UnitState :=
  afterStroke b.ctl
    { x with cues := x.cues.mapIdx fun c n => if natBit b.word.wait c then n - 1 else n, inflight := x.inflight ++ [i] }

theorem unit_fired {s : State} (u v : UnitId) (b : BeatCtx) :
    (fired u b s).unit v = (s.updUnit u (UnitState.fires b (firedFlight b s))).unit v := by
  cases v <;> rfl

theorem afterStroke_eq (ctl : CtlWord) (x : UnitState) :
    afterStroke ctl x = if ctl.op = 2 ∨ ctl.op = 5 then { x with bar := x.bar + 1, passed := x.passed + 1, beat := .control }
      else { x with beat := .close } := by
  simp [afterStroke]

/-! ## A stroke that is not due -/

/-- The credits of a Mallet unit's strokes. -/
theorem streamCredit_mu (c : Fin 256) (mu : Fin 4) (op : Nat) (b : BeatCtx) (s : State) (stroke : op ≠ 1) :
    streamCredit (muUnit c.val mu.val) op b s = if op = 0x11 then gangCredit c.val mu.val b s else setCredit c.val mu.val b s := by
  have core : unitCore (muUnit c.val mu.val) = c.val := by simp [muUnit, unitCore]
  have stave : unitStave (muUnit c.val mu.val) = mu.val + 1 := by
    simp only [muUnit, unitStave, Fin.val_ofNat]
    omega
  rw [streamCredit, core, stave, if_neg stroke, if_pos (by omega)]
  rfl

theorem feedUnit_val (c : Fin 256) : feedUnit c.val = .core c 7 := by simp [feedUnit]
theorem drainUnit_val (c : Fin 256) : drainUnit c.val = .core c 8 := by simp [drainUnit]
theorem rollUnit_val (c : Fin 256) : rollUnit c.val = .core c 5 := by simp [rollUnit]
theorem reduceUnit_val (c : Fin 256) : reduceUnit c.val = .core c 6 := by simp [reduceUnit]

section
variable {s : State} {u : UnitId} {op : Nat}

theorem next_of_undue {credit : BeatCtx → State → Bool} {body : BeatCtx → Nat → State → State}
    (credits : ∀ b, credit b s = streamCredit u op b s) (undue : ∀ b, ¬ Due s u op b) :
    Host.Outcome.next (runStroke u op credit body s) = (.next s : Host.Outcome State Fault Refusal) :=
  congrArg Host.Outcome.next (run_undue body credits undue)

/-- The same of a unit that the model names by its core's number. -/
theorem next_of_undue_named {v : UnitId} {credit : BeatCtx → State → Bool} {body : BeatCtx → Nat → State → State} (named : v = u)
    (credits : ∀ b, credit b s = streamCredit u op b s) (undue : ∀ b, ¬ Due s u op b) :
    Host.Outcome.next (runStroke v op credit body s) = (.next s : Host.Outcome State Fault Refusal) :=
  named ▸ next_of_undue credits undue

end

/-- Settles O34: firing changes its own unit and the running number of strokes alone, and what is not due does not fire. -/
theorem firingTakesItsCues : Obligations.FiringTakesItsCues := by
  unfold Obligations.FiringTakesItsCues
  constructor
  · intro u b s form sized full x y
    have own : y = x.fires b (firedFlight b s) := (unit_fired u u b).trans (unit_updUnit_same _ form sized full)
    rw [own, UnitState.fires, afterStroke_eq]
    refine ⟨?_, ⟨firedFlight b s, ?_, rfl, rfl, rfl, rfl, rfl, rfl⟩, ?_, ?_, fun v formV other => ?_, fired_frame u b s⟩
    · split <;> rfl
    · split <;> rfl
    · split <;> rfl
    · split <;> rfl
    · exact (unit_fired u v b).trans (unit_updUnit_other _ form formV other)
  · intro c mu s
    have mallet (op : Nat) (stroke : op ≠ 1) := fun b => (streamCredit_mu c mu op b s stroke).symm
    simp only [List.forall_mem_cons, List.not_mem_nil, false_implies, implies_true, and_true]
    refine ⟨next_of_undue (mallet 0x10 (by decide)), next_of_undue (mallet 0x11 (by decide)), next_of_undue (mallet 0x12 (by decide)),
      next_of_undue_named (feedUnit_val c) fun _ => rfl,
      next_of_undue_named (feedUnit_val c) fun _ => rfl,
      next_of_undue_named (feedUnit_val c) fun _ => rfl,
      next_of_undue_named (feedUnit_val c) fun _ => rfl,
      next_of_undue_named (drainUnit_val c) fun _ => rfl,
      next_of_undue_named (drainUnit_val c) fun _ => rfl,
      next_of_undue_named (drainUnit_val c) fun _ => rfl,
      next_of_undue_named (rollUnit_val c) fun _ => rfl,
      next_of_undue_named (rollUnit_val c) fun _ => rfl,
      next_of_undue_named (reduceUnit_val c) fun _ => rfl,
      next_of_undue fun _ => rfl, next_of_undue fun _ => rfl, next_of_undue fun _ => rfl, next_of_undue fun _ => rfl,
      next_of_undue fun _ => rfl, next_of_undue fun _ => rfl, next_of_undue fun _ => rfl, next_of_undue fun _ => rfl,
      next_of_undue fun _ => rfl, next_of_undue fun _ => rfl, next_of_undue fun _ => rfl, next_of_undue fun _ => rfl⟩

end Sys2Proof.Machine
end

section
/-! PROOFS. The completion of strokes and their signals (R63, R64, R78 to R80, R90, R123). -/
namespace Sys2Proof.Machine

section
variable {s : State} {u : UnitId} {slot : Nat} {j : Job} {i : Inflight}

/-! ## CUE -/

theorem exec_cue_of_due {b : BeatCtx} (due : Due s u 1 b) :
    exec (.cue u) s = .next (
      let t := doneStroke u s.sched.nextKey (fired u b s)
      if (s.unit u).inflight.length = 0 ∨ unitStave u = 13 then completeStroke u (s.unit u).inflight.length t else t) := by
  change execCue u s = _
  rw [execCue, run_due (credit := noStream) _ due rfl]
  simp

/-! ## The turn of a stroke -/

/-- A stroke is done, and its turn to complete has come (R64, R518). -/
structure Turn (u : UnitId) (slot : Nat) (i : Inflight) (s : State) : Prop where
  done : i.phase = .done
  order : slot = 0 ∨ unitStave u = 13
  calm : strikePending s = false
  written : othersWritten u i s = true

theorem mayComplete_iff : mayComplete u slot i s = true ↔ Turn u slot i s := by
  simp only [mayComplete, Bool.and_eq_true, Bool.or_eq_true, beq_iff_eq, Bool.not_eq_true']
  exact ⟨fun ⟨⟨⟨done, order⟩, calm⟩, written⟩ => ⟨done, order, calm, written⟩,
    fun ⟨done, order, calm, written⟩ => ⟨⟨⟨done, order⟩, calm⟩, written⟩⟩

/-- The state that the completion of a stroke leaves, before its stopped partitions are reported. -/
def signalled (u : UnitId) (slot : Nat) (j : Job) (i : Inflight) (s : State) : State :=
  (sendSignals (s.scoreAddr j) u i.bar i.signal.toNat
    (s.updUnit u fun x => { x with inflight := x.inflight.eraseIdx slot })).updUnit u giveToken

/-- The state that the completion of a stroke leaves. -/
def completed (u : UnitId) (slot : Nat) (j : Job) (i : Inflight) (s : State) : State :=
  if i.op = 0x11 ∧ unitStave u ≤ 4 then strikeGang j u i (signalled u slot j i s) else signalled u slot j i s

theorem op_toNat_eq (x : Byte) (n : Nat) (small : n < 256) : (x.toNat == n) = decide (x = BitVec.ofNat 8 n) := by
  rw [Bool.eq_iff_iff, beq_iff_eq, decide_eq_true_eq, ← BitVec.toNat_inj, BitVec.toNat_ofNat, Nat.mod_eq_of_lt small]

theorem completeStroke_of_turn (running : s.currentJob = some j) (flight : (s.unit u).inflight[slot]? = some i) (turn : Turn u slot i s) :
    completeStroke u slot s = completed u slot j i s := by
  simp only [completeStroke, running, flight]
  rw [if_pos (mayComplete_iff.2 turn), completed, op_toNat_eq _ _ (by decide)]
  simp only [Bool.and_eq_true, decide_eq_true_eq]
  rfl

theorem exec_strokeComplete (flight : (s.unit u).inflight[slot]? = some i) :
    exec (.strokeComplete u slot) s =
      .next (if mayComplete u slot i s && !onSuspended s (flightRuns s u i) then flowAfter u (completeStroke u slot s) else s) := by
  change execStrokeComplete u slot s = _
  rw [execStrokeComplete, flight]

theorem exec_strokeComplete_of_turn (running : s.currentJob = some j) (flight : (s.unit u).inflight[slot]? = some i)
    (turn : Turn u slot i s) (served : onSuspended s (flightRuns s u i) = false) :
    exec (.strokeComplete u slot) s =
      .next (if unitStave u ≤ 4 then flowFrom (unitCore u) (completed u slot j i s) else completed u slot j i s) := by
  rw [exec_strokeComplete flight, if_pos (by rw [mayComplete_iff.2 turn, served]; rfl), completeStroke_of_turn running flight turn, flowAfter]

theorem exec_strokeComplete_of_waiting (flight : (s.unit u).inflight[slot]? = some i)
    (waiting : ¬ Turn u slot i s ∨ onSuspended s (flightRuns s u i) = true) : exec (.strokeComplete u slot) s = .next s := by
  rw [exec_strokeComplete flight, if_neg]
  rw [Bool.and_eq_true, mayComplete_iff, Bool.not_eq_true']
  rintro ⟨turn, served⟩
  rcases waiting with waits | waits
  · exact waits turn
  · exact Bool.noConfusion (waits.symm.trans served)

/-- A GANG stroke with no stopped partition reports none. -/
theorem strikeGang_of_none (none_ : ∀ p ∈ (s.core (unitCore u)).stoppedParts, p.1 ≠ i.key) : strikeGang j u i s = s := by
  have mine : ((s.core (unitCore u)).stoppedParts.filter fun p => p.1 == i.key) = [] :=
    List.filter_eq_nil_iff.2 fun p hp => by simpa using none_ p hp
  simp [strikeGang, mine]

theorem othersWritten_of_none
    (none_ : ¬ (i.op = 0x11 ∧ unitStave u ≤ 4) ∨ ∀ p ∈ (s.core (unitCore u)).stoppedParts, p.1 ≠ i.key) : othersWritten u i s = true := by
  rw [othersWritten, Bool.or_eq_true]
  left
  rcases none_ with other | none_
  · have gang : (i.op == 0x11 && decide (unitStave u ≤ 4)) = false := by
      rw [Bool.eq_false_iff]
      simpa only [ne_eq, Bool.and_eq_true, beq_iff_eq, decide_eq_true_eq] using other
    rw [gang, Bool.false_and, Bool.not_false]
  · have any : ((s.core (unitCore u)).stoppedParts.any fun p => p.1 == i.key) = false :=
      List.any_eq_false.2 fun p hp => by simpa using none_ p hp
    rw [any, Bool.and_false, Bool.not_false]

end

/-- Settles O36: a stroke that is done completes in its turn, and nothing completes out of it. -/
theorem strokesCompleteInBarOrder : Obligations.StrokesCompleteInBarOrder := by
  unfold Obligations.StrokesCompleteInBarOrder
  refine ⟨fun u b s due => ?_, fun u slot j i s running flight => ?_, fun u cue s => ⟨fun room => ?_, fun full => ?_⟩⟩
  · rw [exec_cue_of_due due]
    exact ⟨fun now => congrArg Host.Outcome.next (if_pos now),
      fun behind other => congrArg Host.Outcome.next (if_neg (not_or_intro behind other))⟩
  · refine ⟨?_, ?_, ?_, fun t => strikeGang_of_none, othersWritten_of_none⟩
    · rintro ⟨done, order, calm, written⟩
      exact completeStroke_of_turn running flight ⟨done, order, calm, written⟩
    · rintro ⟨done, order, calm, written⟩ served
      exact exec_strokeComplete_of_turn running flight ⟨done, order, calm, written⟩ served
    · intro waiting
      exact exec_strokeComplete_of_waiting flight (waiting.imp_left fun no ⟨done, order, calm, written⟩ => no ⟨done, order, calm, written⟩)
  · exact if_neg (by omega)
  · exact if_pos full

end Sys2Proof.Machine
end

section
/-! PROOFS. Fetches that arrive, paused strokes that go on, and waits that time out (R77, R95, R97, R307, R312, R330 to R333). -/
namespace Sys2Proof.Machine

/-! ## Stave fetch -/

section
variable {u : UnitId} {j : Job} {s : State}

/-- No more than 255 bars lie between a fetcher and a unit, however many it serves. -/
theorem sub_foldl_min_lt_iff (count bound : Nat) (l : List Nat) (pos : 0 < bound) :
    count - l.foldl min count < bound ↔ ∀ n ∈ l, count < n + bound := by
  suffices general : ∀ m, m ≤ count → (count - l.foldl min m < bound ↔ count < m + bound ∧ ∀ n ∈ l, count < n + bound) by
    rw [general count le_rfl]
    exact and_iff_right (by omega)
  induction l with
  | nil =>
    intro m le
    simp only [List.foldl_nil, List.not_mem_nil, false_implies, implies_true, and_true]
    omega
  | cons n l ih =>
    intro m le
    rw [List.foldl_cons, ih (min m n) (by omega), List.forall_mem_cons, ← and_assoc]
    exact and_congr_left' (by omega)

theorem fetchAhead_iff :
    fetchAhead s u = true ↔
      (s.fetcher u).ended = false ∧ ∀ v ∈ fetchUnits u, (s.fetcher u).count < (s.unit v).passed + 256 := by
  simp only [fetchAhead, Bool.and_eq_true, Bool.not_eq_true']
  refine and_congr_right fun _ => ?_
  rw [decide_eq_true_iff, sub_foldl_min_lt_iff _ _ _ (by decide), List.forall_mem_map]
  rfl

/-- A fetcher once its read has arrived (R285). -/
def Fetcher.dated (s : State) (y : Fetcher) : Fetcher := { y with since := s.time, limit := s.staged.cur.memSuspendLimit }

theorem fetchOnce_of_missing (missing : fetchMissing s (s.scoreAddr j) u ≠ []) :
    fetchOnce j u s = s.updFetcher u fun y => (y.bring (fetchMissing s (s.scoreAddr j) u)).dated s := by
  rw [fetchOnce]
  exact if_pos (by simpa using missing)

theorem fetchOnce_of_ahead (none_ : fetchMissing s (s.scoreAddr j) u = []) (ahead : fetchAhead s u = true) :
    fetchOnce j u s = s.updFetcher u fun y =>
      ((y.bring ((fetchUnits u).flatMap (barDescs s (s.scoreAddr j) y.bar))).next s.mem (s.scoreAddr j) j.params).dated s := by
  rw [fetchOnce]
  exact (if_neg (by simp [none_])).trans (if_pos ahead)

theorem fetchOnce_of_still (none_ : fetchMissing s (s.scoreAddr j) u = []) (still : fetchAhead s u = false) : fetchOnce j u s = s := by
  rw [fetchOnce]
  exact (if_neg (by simp [none_])).trans (if_neg (by simp [still]))

/-- A fetcher may read: its job runs, and no read of it waits on a suspended channel. -/
def FetchReads (u : UnitId) (j : Job) (s : State) : Prop :=
  j.stage = .running ∧ onSuspended s (fetchRuns s (s.scoreAddr j) u) = false

theorem exec_fetchArrival_of_reads (current : s.currentJob = some j) (reads : FetchReads u j s) :
    exec (.fetchArrival u) s = .next (fetchOnce j u s) := by
  change execFetchArrival u s = _
  simp only [execFetchArrival, current]
  rw [if_pos (by simp [reads.1, reads.2])]

theorem exec_fetchArrival_of_waits (current : s.currentJob = some j) (waits : ¬ FetchReads u j s) :
    exec (.fetchArrival u) s = .next s := by
  change execFetchArrival u s = _
  simp only [execFetchArrival, current]
  rw [if_neg (by simpa [FetchReads] using waits)]

end

section
variable (m : Memory) (a : Nat) (params : List Byte) (x : Fetcher)

/-- A fetcher behind a bar that is no end of a loop and no beginning of one. -/
theorem next_of_straight (noBegin : (scCtl m a x.bar).op ≠ 2) (noEnd : (scCtl m a x.bar).op ≠ 3) :
    x.next m a params =
      { x with bar := x.bar + 1, again := false, count := x.count + 1,
               ended := x.ended || (scCtl m a x.bar).op == 4 || (scCtl m a x.bar).op == 6 } := by
  simp only [Fetcher.next]
  split
  case h_1 op => exact absurd op noBegin
  case h_2 op => exact absurd op noEnd
  case h_3 op => simp [op]
  case h_4 op => simp [op]
  case h_5 no4 no6 => simp [beq_false_of_ne no4, beq_false_of_ne no6]

theorem next_count : (x.next m a params).count = x.count + 1 := by
  by_cases begins : (scCtl m a x.bar).op = 2
  · simp only [Fetcher.next, begins]
    split
    · rfl
    · split
      · split <;> rfl
      · rfl
  · by_cases ends : (scCtl m a x.bar).op = 3
    · simp only [Fetcher.next, ends]
      split <;> rfl
    · rw [next_of_straight _ _ _ _ begins ends]

theorem next_bar_of_straight (noBegin : (scCtl m a x.bar).op ≠ 2) (noEnd : (scCtl m a x.bar).op ≠ 3) :
    (x.next m a params).bar = x.bar + 1 := by
  rw [next_of_straight _ _ _ _ noBegin noEnd]

theorem next_ended_of_break (ends : (scCtl m a x.bar).op = 4 ∨ (scCtl m a x.bar).op = 6) : (x.next m a params).ended = true := by
  rw [next_of_straight _ _ _ _ (by omega) (by omega)]
  rcases ends with op | op <;> simp [op]

theorem next_bar_of_loopEnd (op : (scCtl m a x.bar).op = 3) :
    let l := x.loops.getD (scCtl m a x.bar).level LoopLevel.closed
    (x.next m a params).bar = if l.isOpen = true ∧ l.counter + 1 < l.count then l.beginBar else x.bar + 1 := by
  simp only [Fetcher.next, op, Bool.and_eq_true, decide_eq_true_eq]
  split <;> rfl

end

/-! ## Paused strokes -/

section
variable {u : UnitId} {slot : Nat} {i : Inflight} {s : State}

theorem exec_strokeResume (flight : (s.unit u).inflight[slot]? = some i) :
    exec (.strokeResume u slot) s = .next (if i.phase == .paused && !strikePending s then resumeStroke u i s else s) := by
  change execStrokeResume u slot s = _
  rw [execStrokeResume, flight]

theorem exec_strokeResume_of_paused (flight : (s.unit u).inflight[slot]? = some i) (paused : i.phase = .paused)
    (calm : strikePending s = false) : exec (.strokeResume u slot) s = .next (resumeStroke u i s) := by
  rw [exec_strokeResume flight, if_pos (by simp [paused, calm])]

theorem resumeStroke_of_notify {j : Job} (codec : unitStave u = 14) (current : s.currentJob = some j) :
    resumeStroke u i s = postNotify j i.key i.imm.toNat i.bar i.loops s := by
  rw [resumeStroke, if_pos codec, resumeNotify, current]

theorem resumeStroke_of_recv (link : unitStave u = 13) (op : i.op = 0x11) :
    resumeStroke u i s =
      if (slotAt s.fabric.windows (recvWindow s.mem (fireOf s u i) i.desc)).isSome ||
        recvBefore s (recvWindow s.mem (fireOf s u i) i.desc) i.key then s
      else openWindow (recvWindow s.mem (fireOf s u i) i.desc) (windowFor s (fireOf s u i) i.desc i.key) (setPhase u i.key .running s) := by
  rw [resumeStroke, if_neg (by omega), if_pos link, if_pos op]

/-- A stroke none of whose bytes waits for a tag or for credit runs again. -/
theorem resumeSend_of_sent {key : Nat} (untagged : ∀ q ∈ s.fabric.queued, q.key ≠ key)
    (sent : ∀ x ∈ s.fabric.sends, x.key = key → flitsWait s x.xtag = false) : resumeSend u key s = setPhase u key .running s := by
  have queued : s.fabric.queued.find? (fun q => q.key == key) = none :=
    List.find?_eq_none.2 fun q hq => by simpa using untagged q hq
  have sends : (s.fabric.sends.any fun x => x.key == key && flitsWait s x.xtag) = false :=
    List.any_eq_false.2 fun x hx => by
      rw [Bool.and_eq_true, beq_iff_eq]
      rintro ⟨same, waits⟩
      exact Bool.noConfusion (waits.symm.trans (sent x hx same))
  rw [resumeSend, queued]
  exact if_neg (by simp [sends])

theorem resumeCore_of_head (head : ∀ h, headItem (s.core (unitCore u)) (unitStave u == 6) = some h → h.key = i.key) :
    resumeCore u i s = flowFrom (unitCore u) (resumeSend u i.key s) := by
  rw [resumeCore]
  refine if_neg ?_
  split
  case h_1 h item => simp [head h item]
  case h_2 => exact Bool.false_ne_true

theorem resumeStroke_of_stream (noNotify : unitStave u ≠ 14) (noRecv : unitStave u = 13 → i.op ≠ 0x11)
    (head : unitStave u ≠ 13 → ∀ h, headItem (s.core (unitCore u)) (unitStave u == 6) = some h → h.key = i.key)
    (untagged : ∀ q ∈ s.fabric.queued, q.key ≠ i.key)
    (sent : ∀ x ∈ s.fabric.sends, x.key = i.key → flitsWait s x.xtag = false) :
    resumeStroke u i s =
      if unitStave u = 13 then setPhase u i.key .running s else flowFrom (unitCore u) (setPhase u i.key .running s) := by
  rw [resumeStroke, if_neg noNotify]
  by_cases link : unitStave u = 13
  · rw [if_pos link, if_pos link, if_neg (noRecv link), resumeSend_of_sent untagged sent]
  · rw [if_neg link, if_neg link, resumeCore_of_head (head link), resumeSend_of_sent untagged sent]

/-! ## Timeouts -/

theorem exec_xferTimeout (flight : (s.unit u).inflight[slot]? = some i) :
    exec (.xferTimeout u slot) s = .next (
      if xferStroke s u i && !(i.phase == .done) && decide (i.firedAt + i.timeout ≤ s.time) then
        settle (strikeRunning .collTimeout 3 (detailPlace (unitStave u) 0xFF (unitCore u) i.bar i.desc 0 0xFF)
          (logError 0x23 1 .struck (runningFn s) (unitStave u) (unitCore u) i.bar s))
      else s) := by
  change execXferTimeout u slot s = _
  rw [execXferTimeout, flight]

theorem xferStroke_of_link (link : unitStave u = 13) (op : i.op = 0x10 ∨ i.op = 0x11) : xferStroke s u i = true := by
  rw [xferStroke, Bool.or_eq_true]
  left
  rcases op with op | op <;> simp [link, op]

end

section
variable {tag : Word} {g : Group} {s : State}

/-- A collective of a group is late, and no request for it stands. -/
def lateColl (s : State) (g : Group) (c : Collective) : Bool :=
  decide (c.firedAt + g.timeoutUs ≤ s.time) && !(g.abortSent.any fun a => a.2 == c.seq)

theorem exec_collTimeout_of_late {c : Collective} (group : s.group tag.toNat = some g) (late : g.colls.find? (lateColl s g) = some c) :
    exec (.collTimeout tag) s = .next (settle (requestAbort g c.seq 1 s)) := by
  change execCollTimeout tag s = _
  unfold lateColl at late
  simp only [execCollTimeout, group, late]

theorem exec_collTimeout_of_none (group : s.group tag.toNat = some g) (none_ : ∀ c ∈ g.colls, lateColl s g c = false) :
    exec (.collTimeout tag) s = .next s := by
  change execCollTimeout tag s = _
  have find : g.colls.find? (lateColl s g) = none := List.find?_eq_none.2 fun c hc => by simp [none_ c hc]
  unfold lateColl at find
  simp only [execCollTimeout, group, find]

/-- At the root a collective in flight is not yet decided. -/
theorem requestAbort_of_root {c : Collective} (root : g.rank = 0) (checked : g.checked = true) (flight : c ∈ g.colls) (cause : Nat) :
    requestAbort g c.seq cause s = applyAbort g c.seq cause s.self s := by
  have found : (g.coll c.seq).isSome = true := List.find?_isSome.2 ⟨c, flight, beq_self_eq_true _⟩
  rw [requestAbort, if_pos root, decideAbort, if_pos]
  rw [undecided, if_pos checked, found, Bool.true_or]

theorem noteRequest_of_new {time : Nat} {c : Collective} (new_ : (g.abortSent.any fun a => a.2 == c.seq) = false) :
    (noteRequest time c.seq g).abortSent = g.abortSent ++ [(time, c.seq)] := by
  rw [noteRequest]
  exact if_neg (by simp [new_])

theorem exec_abortNoDecision_of_late {t n : Nat} (group : s.group tag.toNat = some g)
    (late : (g.abortSent.find? fun a => decide (a.1 + g.timeoutUs ≤ s.time)) = some (t, n)) :
    exec (.abortNoDecision tag) s = .next (settle (endAbort 0x25 g n 1 s.self s)) := by
  change execAbortNoDecision tag s = _
  simp only [execAbortNoDecision, group, late]

theorem exec_abortNoDecision_of_none (group : s.group tag.toNat = some g) (young : ∀ a ∈ g.abortSent, s.time < a.1 + g.timeoutUs) :
    exec (.abortNoDecision tag) s = .next s := by
  change execAbortNoDecision tag s = _
  have find : (g.abortSent.find? fun a => decide (a.1 + g.timeoutUs ≤ s.time)) = none :=
    List.find?_eq_none.2 fun a ha => by simpa using young a ha
  simp only [execAbortNoDecision, group, find]

end

/-- Settles O37: each wait goes on where what it waits for has come, or ends where its time has passed. -/
theorem fetchesPausesAndTimeouts : Obligations.FetchesPausesAndTimeouts := by
  unfold Obligations.FetchesPausesAndTimeouts
  refine ⟨fun u j s current => ?_, fun m a params x => ⟨next_count m a params x, next_bar_of_straight m a params x,
    next_ended_of_break m a params x, next_bar_of_loopEnd m a params x⟩, fun u slot i s flight => ?_, fun u slot i s flight => ?_,
    fun tag g s group => ?_⟩
  · intro a x us missing near reads dated
    refine ⟨fun r some_ => ?_, fun r none_ goes close => ?_, fun r none_ still => ?_, exec_fetchArrival_of_waits current⟩
    · rw [exec_fetchArrival_of_reads current r, fetchOnce_of_missing some_]
      rfl
    · rw [exec_fetchArrival_of_reads current r, fetchOnce_of_ahead none_ (fetchAhead_iff.2 ⟨goes, close⟩)]
      rfl
    · rw [exec_fetchArrival_of_reads current r, fetchOnce_of_still none_]
      rw [Bool.eq_false_iff, Ne, fetchAhead_iff]
      rintro ⟨goes, close⟩
      rcases still with ended | far
      · exact Bool.noConfusion (ended.symm.trans goes)
      · exact far close
  · intro goes f wi
    refine ⟨fun stands => ?_, fun paused calm => ?_⟩
    · rw [exec_strokeResume flight, if_neg]
      rw [Bool.and_eq_true, beq_iff_eq, Bool.not_eq_true']
      rintro ⟨paused, calm⟩
      rcases stands with other | strikes
      · exact other paused
      · exact Bool.noConfusion (strikes.symm.trans calm)
    · rw [exec_strokeResume_of_paused flight paused calm]
      refine ⟨fun j codec current => ?_, fun link op free first => ?_, fun link op waits => ?_,
        fun noNotify noRecv head untagged sent => ?_⟩
      · rw [resumeStroke_of_notify codec current]
      · rw [resumeStroke_of_recv link op, if_neg (by simp [wi, f] at free first; simp [free, first])]
        rfl
      · rw [resumeStroke_of_recv link op, if_pos (by simpa using waits)]
      · rw [resumeStroke_of_stream noNotify noRecv head untagged sent]
        rfl
  · intro due
    rw [exec_xferTimeout flight]
    refine ⟨fun xfer passed => ?_, fun stands => ?_, xferStroke_of_link⟩
    · rw [if_pos (by simpa [xfer] using passed)]
    · rw [if_neg]
      simp only [Bool.and_eq_true, Bool.not_eq_true', beq_eq_false_iff_ne, decide_eq_true_eq]
      rintro ⟨⟨xfer, undone⟩, passed⟩
      rcases stands with other | early
      · exact Bool.noConfusion (other.symm.trans xfer)
      · exact early ⟨undone, passed⟩
  · intro late
    refine ⟨fun c found => ?_, fun none_ => exec_collTimeout_of_none group none_,
      fun t n => exec_abortNoDecision_of_late group, exec_abortNoDecision_of_none group⟩
    have isLate : late c = true := List.find?_some found
    have new_ : (g.abortSent.any fun a => a.2 == c.seq) = false := by
      simpa only [Bool.not_eq_true'] using (Bool.and_eq_true_iff.1 isLate).2
    rw [exec_collTimeout_of_late group found]
    refine ⟨fun member => ?_, fun root checked => ?_, noteRequest_of_new new_⟩
    · rw [requestAbort, if_neg member]
    · rw [requestAbort_of_root root checked (List.mem_of_find?_eq_some found)]

end Sys2Proof.Machine
end

section
/-! PROOFS. The Mallet units: firing, the entries they take, and the products they make (R45, R48, R105 to R107, R113, R115, R119 to R124,
R155, R156). -/
namespace Sys2Proof.Machine

/-! ## A core after one of its units is changed -/

theorem updUnit_core (u : UnitId) (f : UnitState → UnitState) (s : State) (c : Nat) :
    (s.updUnit u f).core c = { s.core c with units := ((s.updUnit u f).core c).units } := by
  cases u with
  | chip v => rfl
  | core k v =>
    by_cases same : c = k.val
    · by_cases bound : c < s.cores.length
      · rw [same] at bound ⊢
        rw [State.updUnit, core_updCore_same _ _ bound]
      · have out : s.cores.length ≤ k.val := by omega
        rw [State.updUnit, updCore_of_length_le _ out]
    · rw [State.updUnit, core_updCore_other _ _ same]

section
variable (u : UnitId) (f : UnitState → UnitState) (g : Inflight → Inflight) (key c : Nat) (s : State)

@[simp] theorem updUnit_core_accs : ((s.updUnit u f).core c).accs = (s.core c).accs := by rw [updUnit_core]
@[simp] theorem updUnit_core_feeds : ((s.updUnit u f).core c).feeds = (s.core c).feeds := by rw [updUnit_core]
@[simp] theorem updUnit_core_feedCredits : ((s.updUnit u f).core c).feedCredits = (s.core c).feedCredits := by rw [updUnit_core]
@[simp] theorem updUnit_core_tiles : ((s.updUnit u f).core c).tiles = (s.core c).tiles := by rw [updUnit_core]

@[simp] theorem updUnit_core_wins : ((s.updUnit u f).core c).wins = (s.core c).wins := by rw [updUnit_core]
@[simp] theorem updUnit_core_winCredits : ((s.updUnit u f).core c).winCredits = (s.core c).winCredits := by rw [updUnit_core]

@[simp] theorem updFlight_core_wins : ((updFlight u key g s).core c).wins = (s.core c).wins := updUnit_core_wins ..
@[simp] theorem updFlight_core_winCredits : ((updFlight u key g s).core c).winCredits = (s.core c).winCredits :=
  updUnit_core_winCredits ..
@[simp] theorem updFlight_core_accs : ((updFlight u key g s).core c).accs = (s.core c).accs := updUnit_core_accs ..
@[simp] theorem updFlight_core_feeds : ((updFlight u key g s).core c).feeds = (s.core c).feeds := updUnit_core_feeds ..
@[simp] theorem updFlight_core_feedCredits : ((updFlight u key g s).core c).feedCredits = (s.core c).feedCredits :=
  updUnit_core_feedCredits ..
@[simp] theorem updFlight_mem : (updFlight u key g s).mem = s.mem := State.updUnit_mem ..

@[simp] theorem fired_core_tiles (b : BeatCtx) : ((fired u b s).core c).tiles = (s.core c).tiles := by rw [fired_core]

end

/-- A part of a core that a change of one core keeps. -/
theorem updCore_core_kept {β : Type} (part : Core → β) {f : Core → Core} (keeps : ∀ k, part (f k) = part k) (c j : Nat) (s : State) :
    part ((s.updCore c f).core j) = part (s.core j) := by
  by_cases same : j = c
  · by_cases bound : j < s.cores.length
    · rw [same] at bound ⊢
      rw [core_updCore_same _ _ bound, keeps]
    · rw [updCore_of_length_le _ (by omega)]
  · rw [core_updCore_other _ _ same]

/-! ## What the strokes of a Mallet unit do as they fire -/

section
variable {c : Fin 256} {mu : Fin 4} {b : BeatCtx} {s : State}

theorem run_mallet {op : Nat} {credit : BeatCtx → State → Bool} (body : BeatCtx → Nat → State → State) (stroke : op ≠ 1)
    (credits : (if op = 0x11 then gangCredit c.val mu.val b s else setCredit c.val mu.val b s) = credit b s)
    (due : Due s (muUnit c.val mu.val) op b) :
    runStroke (muUnit c.val mu.val) op credit body s = body b s.sched.nextKey (fired (muUnit c.val mu.val) b s) :=
  run_due body due (credits.symm.trans (streamCredit_mu c mu op b s stroke).symm)

theorem exec_mm_of_due (due : Due s (muUnit c.val mu.val) 0x10 b) :
    exec (.mm c mu) s = .next (mmBody c.val mu.val b s.sched.nextKey (fired (muUnit c.val mu.val) b s)) :=
  congrArg Host.Outcome.next (run_mallet _ (by decide) rfl due)

theorem exec_gang_of_due (due : Due s (muUnit c.val mu.val) 0x11 b) :
    exec (.gang c mu) s = .next (gangBody c.val mu.val b s.sched.nextKey (fired (muUnit c.val mu.val) b s)) :=
  congrArg Host.Outcome.next (run_mallet _ (by decide) rfl due)

theorem exec_attn_of_due (due : Due s (muUnit c.val mu.val) 0x12 b) :
    exec (.attn c mu) s = .next (attnBody c.val mu.val b s.sched.nextKey (fired (muUnit c.val mu.val) b s)) :=
  congrArg Host.Outcome.next (run_mallet _ (by decide) rfl due)

end

/-! ## The entries that a Mallet unit takes -/

section
variable {c mu : Nat} {e : FeedEntry} {i : Inflight} {s : State}

theorem acceptEntry_credits (mu : Nat) (e : FeedEntry) (k : Core) :
    (acceptEntry mu e k).feeds.length + (acceptEntry mu e k).feedCredits = k.feeds.length + k.feedCredits := by
  simp only [acceptEntry]
  have fewer : ∀ l : List FeedEntry, (l.filter fun x => !x.units.isEmpty).length ≤ l.length := fun l => List.length_filter_le _ _
  have left := fewer (k.feeds.map fun x => if x = e then { x with units := e.units.filter fun u => !(u == mu) } else x)
  rw [List.length_map] at left
  omega

/-- An entry that a unit has accepted is no longer the entry that it was. -/
theorem notMem_acceptEntry (mu : Nat) (e : FeedEntry) (k : Core) (waits : mu ∈ e.units) : e ∉ (acceptEntry mu e k).feeds := by
  simp only [acceptEntry]
  intro mem
  obtain ⟨x, -, same⟩ := List.mem_map.1 (List.mem_of_mem_filter mem)
  split at same
  · have units := congrArg FeedEntry.units same
    rw [← units] at waits
    simp at waits
  · exact absurd same ‹_›

/-- The sets of an entry's block that a unit's stroke is filling. -/
def fillsBlock (b a : AccSet) : Bool :=
  a.key == b.key && a.array == b.array && a.row0 == b.row0 && a.col0 == b.col0 && a.tile == b.tile && !a.full

/-- A Mallet unit that comes to an entry for a stroke that does not pause: its mode, its sets. -/
theorem muStep_eq (entry : ((s.core c).feeds.find? fun x => x.units.contains mu) = some e) (taker : takerOf s c mu e = some i)
    (goes : i.phase ≠ .paused) :
    muStep c mu s =
      if !((s.core c).gangMode.getD mu false == (i.op == 0x11)) then
        if ((s.unit (muUnit c mu)).inflight.head?.map (·.key)) == some i.key then some (enterMode c mu (i.op == 0x11) s) else none
      else
        match (s.core c).accs.find? (fillsBlock (blankSet s.mem (fireOf s (muUnit c mu) i) i mu e)) with
        | some a => some (takeEntry c mu (fireOf s (muUnit c mu) i) i e a
            ((s.core c).accs.filter fun x => !fillsBlock (blankSet s.mem (fireOf s (muUnit c mu) i) i mu e) x) s)
        | none =>
          if 2 ≤ setsInUse (s.core c) mu (blankSet s.mem (fireOf s (muUnit c mu) i) i mu e).array then some (pause (muUnit c mu) i s)
          else some (takeEntry c mu (fireOf s (muUnit c mu) i) i e (blankSet s.mem (fireOf s (muUnit c mu) i) i mu e) (s.core c).accs s) := by
  simp only [muStep, entry, taker]
  rw [if_neg (by simpa using goes)]
  rfl

/-- What taking an entry into a set leaves. -/
theorem takeEntry_core (bound : c < s.cores.length) (f : Fire) (set : AccSet) (others : List AccSet) :
    let r := addEntry s.mem f i mu e set.rows ((s.core c).tiles.getD mu [])
    let t := takeEntry c mu f i e set others s
    t.mem = s.mem ∧ (t.core c).accs = others ++ [{ set with rows := r.1, full := lastEntry s.mem f i e }] ∧
      (t.core c).feeds = (acceptEntry mu e (s.core c)).feeds ∧ (t.core c).feedCredits = (acceptEntry mu e (s.core c)).feedCredits := by
  simp only [takeEntry]
  split
  · simp only [updFlight_mem, State.updCore_mem, updFlight_core_accs, updFlight_core_feeds, updFlight_core_feedCredits,
      core_updCore_same _ _ bound]
    exact ⟨trivial, rfl, rfl, rfl⟩
  · simp only [State.updCore_mem, core_updCore_same _ _ bound]
    exact ⟨trivial, rfl, rfl, rfl⟩

end

/-! ## A column of a row-mode product -/

theorem addColumn_getD {ints : Bool} {col : Nat} {ws : List (List (List Val))} {xs : List (List Val)} {rows : List (List Word)} {l : Nat}
    {r : List Word} (row : rows[l]? = some r) :
    (addColumn ints col ws xs rows).getD l [] = updAt r col fun a => addGroups ints a (ws.map fun g => g.getD l []) xs := by
  rw [addColumn, List.getD_eq_getElem?_getD, List.getElem?_mapIdx, row, Option.map_some, Option.getD_some]

theorem addGroups_map (ints : Bool) (a : Word) (l : Nat) (ws : List (List (List Val))) (xs : List (List Val)) :
    addGroups ints a (ws.map fun g => g.getD l []) xs = (ws.zip xs).foldl (fun a p => addGroup ints a (p.1.getD l []) p.2) a := by
  rw [addGroups, List.zip_map_left, List.foldl_map]
  rfl

/-! ## The groups of a whole row -/

/-- Group `g` of a row of values. -/
def rowGroup (l : List Val) (g : Nat) : List Val := (l.drop (32 * g)).take 32

/-- The groups that entry `n` of a row carries. -/
def entryGroups (k p n : Nat) : List Nat := rangeFrom (n * p) (min p (ceilDiv k 32 - n * p))

theorem addGroups_rowGroup (ints : Bool) (a : Word) (gs : List Nat) (ws xs : List Val) :
    addGroups ints a (gs.map (rowGroup ws)) (gs.map (rowGroup xs)) =
      gs.foldl (fun a g => addGroup ints a (rowGroup ws g) (rowGroup xs g)) a := by
  rw [addGroups, List.zip_map', List.foldl_map]

theorem range_append_rangeFrom (a n : Nat) : List.range a ++ rangeFrom a n = List.range (a + n) := by
  rw [rangeFrom, List.range_add]

/-- The first `m` entries carry the groups in ascending order. -/
theorem flatMap_entryGroups (k p m : Nat) : (List.range m).flatMap (entryGroups k p) = List.range (min (m * p) (ceilDiv k 32)) := by
  induction m with
  | zero => simp
  | succ m ih =>
    rw [List.range_succ, List.flatMap_append, ih, List.flatMap_singleton, entryGroups]
    rcases Nat.le_total (m * p) (ceilDiv k 32) with within | past
    · rw [Nat.min_eq_left within, range_append_rangeFrom, Nat.succ_mul]
      congr 1
      omega
    · have none_ : min p (ceilDiv k 32 - m * p) = 0 := by omega
      rw [none_, Nat.succ_mul, Nat.min_eq_right past, Nat.min_eq_right (by omega)]
      simp [rangeFrom]

theorem le_ceilDiv_mul (n p : Nat) (pos : 1 ≤ p) : n ≤ ceilDiv n p * p := by
  have rem := Nat.mod_lt (n + p - 1) pos
  have split := Nat.div_add_mod (n + p - 1) p
  rw [Nat.mul_comm] at split
  unfold ceilDiv
  omega

theorem foldl_flatMap_range {β : Type} (f : β → Nat → β) (gs : Nat → List Nat) (l : List Nat) (b : β) :
    l.foldl (fun b n => (gs n).foldl f b) b = (l.flatMap gs).foldl f b := by
  induction l generalizing b with
  | nil => rfl
  | cons n l ih => rw [List.foldl_cons, ih, List.flatMap_cons, List.foldl_append]

/-- Entry after entry, the groups of a row are added in ascending order. -/
theorem foldl_addGroups (ints : Bool) (k p : Nat) (ws xs : List Val) (pos : 1 ≤ p) :
    (List.range (stepCount k p)).foldl
        (fun a n => addGroups ints a ((entryGroups k p n).map (rowGroup ws)) ((entryGroups k p n).map (rowGroup xs))) 0 =
      (List.range (ceilDiv k 32)).foldl (fun a g => addGroup ints a (rowGroup ws g) (rowGroup xs g)) 0 := by
  simp only [addGroups_rowGroup]
  rw [foldl_flatMap_range, flatMap_entryGroups, stepCount, Nat.min_eq_right (le_ceilDiv_mul _ p pos)]

theorem rowGroup_drop (l : List Val) (g : Nat) : rowGroup (l.drop 32) g = rowGroup l (g + 1) := by
  rw [rowGroup, rowGroup, List.drop_drop, Nat.mul_succ, Nat.add_comm]

theorem dotGroups_eq_foldl (n : Nat) (ws xs : List Val) (a : Word) :
    dotGroups a n ws xs = (List.range n).foldl (fun a g => addGroup false a (rowGroup ws g) (rowGroup xs g)) a := by
  induction n generalizing a ws xs with
  | zero => rfl
  | succ n ih =>
    rw [dotGroups, ih, List.range_succ_eq_map, List.foldl_cons, List.foldl_map]
    simp only [rowGroup_drop]
    rfl

/-- The integer product of a row, group by group. -/
theorem dotInt_eq_foldl (n : Nat) (ws xs : List Val) (a : Word) (short : ws.length ≤ 32 * n) :
    (List.range n).foldl (fun a g => addGroup true a (rowGroup ws g) (rowGroup xs g)) a = a + dotInt ws xs := by
  induction n generalizing a ws xs with
  | zero =>
    obtain rfl : ws = [] := List.length_eq_zero_iff.1 (by omega)
    simp [dotInt]
  | succ n ih =>
    rw [List.range_succ_eq_map, List.foldl_cons, List.foldl_map]
    simp only [Nat.succ_eq_add_one, ← rowGroup_drop]
    rw [ih (ws.drop 32) (xs.drop 32) _ (by rw [List.length_drop]; omega), addGroup, if_pos rfl, BitVec.add_assoc]
    congr 1
    have halves : dotInt ws xs = dotInt (ws.take 32) (xs.take 32) + dotInt (ws.drop 32) (xs.drop 32) := by
      have zip : ws.zip xs = (ws.take 32).zip (xs.take 32) ++ (ws.drop 32).zip (xs.drop 32) := by
        rw [← List.take_append_drop 32 (ws.zip xs), List.zip, List.take_zipWith, List.drop_zipWith]
      rw [dotInt, zip, List.map_append, List.sum_append, BitVec.ofInt_add]
      rfl
    exact halves.symm

theorem dot_eq_foldl (ints : Bool) (k : Nat) (ws xs : List Val) (length : ws.length = k) :
    (List.range (ceilDiv k 32)).foldl (fun a g => addGroup ints a (rowGroup ws g) (rowGroup xs g)) 0 = dot ints k ws xs := by
  cases ints with
  | true =>
    have short := le_ceilDiv_mul k 32 (by omega)
    exact (dotInt_eq_foldl _ _ _ _ (by omega)).trans (BitVec.zero_add _)
  | false => exact (dotGroups_eq_foldl ..).symm

/-! ## The second stage of a chained product -/

section
variable {c : Nat} {i j x y : Inflight} {s : State}

/-- A stroke of MU2 that still has t-blocks to work on in a chained product or an attention. -/
def stages (c : Nat) (s : State) (z : Inflight) : Bool :=
  (z.op == 0x12 || (z.op == 0x10 && (matAt s.mem (fireOf s (muUnit c 2) z) z.desc).combo == 11)) &&
    decide (z.taken < blockCount (chainLengths s.mem (fireOf s (muUnit c 2) z) z).2)

/-- The strokes of the second stage, both at work. -/
structure StagePair (c : Nat) (s : State) (i j : Inflight) : Prop where
  first : strokeAt s (muUnit c 2) (stages c s) = some i
  second : muStroke s c 3 i.op i = some j
  firstGoes : i.phase ≠ .paused
  secondGoes : j.phase ≠ .paused

theorem stageStep_of_noSet (pair : StagePair c s i j) (noSet : stageSet s c 2 i (fireOf s (muUnit c 2) i) i.taken = none) :
    stageStep c s = some (setPhase (muUnit c 2) i.key .paused s) := by
  obtain ⟨first, second, firstGoes, secondGoes⟩ := pair
  unfold stages at first
  simp only [stageStep, first, second]
  rw [if_neg (by simp [firstGoes, secondGoes])]
  simp only [noSet]
  rfl

/-- The set that MU2 or MU3 holds after a chain tile: the tile next, and its rows with what the sets of MU0 and MU1 add. -/
def stagedSet (s : State) (c mu : Nat) (i r : Inflight) (lo hi z : AccSet) : AccSet :=
  let f := fireOf s (muUnit c 2) i
  let ok (t k : Nat) : Bool := if i.op = 0x12 then allowedKey s.mem f (attnAt s.mem f i.desc) t k else true
  let tile := (stageTile s.mem f r mu i.taken z.tile ((s.core c).tiles.getD mu [])).1
  { z with tile := z.tile + 1, rows := chainBlock s.tables (chainInOf s.mem f i mu tile) ok z.col0 z.tile lo.rows hi.rows z.rows }

theorem setTiles_core_accs (mu k : Nat) (ts : List HeldTile) : ((setTiles c mu ts s).core k).accs = (s.core k).accs :=
  updCore_core_kept Core.accs (fun _ => by rfl) ..
theorem setTiles_core_feeds (mu k : Nat) (ts : List HeldTile) : ((setTiles c mu ts s).core k).feeds = (s.core k).feeds :=
  updCore_core_kept Core.feeds (fun _ => by rfl) ..
theorem putSet_core_feeds (k : Nat) (a : AccSet) : ((putSet c a s).core k).feeds = (s.core k).feeds :=
  updCore_core_kept Core.feeds (fun _ => by rfl) ..
theorem dropSets_core_feeds (k : Nat) (as : List AccSet) : ((dropSets c as s).core k).feeds = (s.core k).feeds :=
  updCore_core_kept Core.feeds (fun _ => by rfl) ..

theorem putSet_mem_accs (bound : c < s.cores.length) (a : AccSet) : a ∈ ((putSet c a s).core c).accs := by
  rw [putSet, core_updCore_same _ _ bound]
  exact List.mem_append_right _ (List.mem_singleton_self a)

theorem stageStep_of_sets {a b lo hi : AccSet} (pair : StagePair c s i j) (bound : c < s.cores.length)
    (feeds0 : muStroke s c 0 i.op i = some x) (feeds1 : muStroke s c 1 i.op i = some y)
    (setA : stageSet s c 2 i (fireOf s (muUnit c 2) i) i.taken = some a) (setB : stageSet s c 3 j (fireOf s (muUnit c 2) i) i.taken = some b)
    (more : a.tile < ceilDiv (chainLengths s.mem (fireOf s (muUnit c 2) i) i).1 128)
    (low : fullSet (s.core c) x.key 0 a.col0 a.tile = some lo) (high : fullSet (s.core c) y.key 64 a.col0 a.tile = some hi) :
    ∃ t, stageStep c s = some t ∧ t.mem = s.mem ∧ stagedSet s c 2 i i lo hi a ∈ (t.core c).accs ∧ (t.core c).feeds = (s.core c).feeds := by
  obtain ⟨first, second, firstGoes, secondGoes⟩ := pair
  unfold stages at first
  simp only [stageStep, first, second]
  rw [if_neg (by simp [firstGoes, secondGoes])]
  simp only [setA, setB, if_neg (Nat.ne_of_lt more), feeds0, feeds1, low, high]
  refine ⟨_, rfl, ?_, ?_, ?_⟩
  · simp only [giveOne, updFlight_mem, setTiles, putSet, dropSets, State.updCore_mem]
  · simp only [giveOne, updFlight_core_accs]
    rw [setTiles_core_accs, setTiles_core_accs]
    refine putSet_mem_accs ?_ _
    simpa only [putSet, dropSets, State.updCore_cores, length_updAt] using bound
  · simp only [giveOne, updFlight_core_feeds, setTiles_core_feeds, putSet_core_feeds, dropSets_core_feeds]

end

/-- Settles O38: a stroke of a Mallet unit fires, takes its entries and adds their groups in order, and its sets are handed on. -/
theorem malletUnitsComputeTheirProducts : Obligations.MalletUnitsComputeTheirProducts := by
  unfold Obligations.MalletUnitsComputeTheirProducts
  refine ⟨fun c mu b s => ?_, fun c mu e i s bound full entry taker goes => ?_, fun ints col ws xs rows l r row => ?_,
    fun ints k p ws xs pos lw lx => ?_, fun c i j x y s bound full => ?_⟩
  · intro u key F f d e a problems begins rows misses
    have memF : F.mem = s.mem := fired_mem ..
    have tilesF : (F.core c.val).tiles = (s.core c.val).tiles := fired_core_tiles ..
    refine ⟨fun due other => ?_, fun due chain => ?_, fun due => ?_, fun due => ?_⟩
    · rw [exec_mm_of_due due]
      change Host.Outcome.next (mmBody c.val mu.val b key F) = _
      simp only [mmBody, memF, tilesF]
      rw [if_neg other]
      rfl
    · rw [exec_mm_of_due due]
      change Host.Outcome.next (mmBody c.val mu.val b key F) = _
      simp only [mmBody, memF, tilesF]
      rw [if_pos chain]
      rfl
    · rw [exec_gang_of_due due]
      change Host.Outcome.next (gangBody c.val mu.val b key F) = _
      simp only [gangBody, memF]
      rfl
    · rw [exec_attn_of_due due]
      change Host.Outcome.next (attnBody c.val mu.val b key F) = _
      simp only [attnBody, memF]
      rfl
  · intro u k gang f b filling ready
    have step := muStep_eq entry taker goes
    have inside : c < s.cores.length := by omega
    have mode (isReady : ready) : (!((s.core c).gangMode.getD mu false == (i.op == 0x11))) = false := by simpa [ready, k, gang] using isReady
    have changes (notReady : ¬ ready) : (!((s.core c).gangMode.getD mu false == (i.op == 0x11))) = true := by
      simpa [ready, k, gang] using notReady
    refine ⟨fun notReady head => ?_, fun notReady head => ?_, fun isReady none_ used => ?_, fun isReady a chosen => ?_⟩
    · rw [step, if_pos (changes notReady), if_pos (by simpa using head), enterMode, if_neg (by simpa using changes notReady)]
    · rw [step, if_pos (changes notReady), if_neg (by simpa using head)]
    · rw [step, if_neg (by rw [mode isReady]; exact Bool.false_ne_true)]
      change (match k.accs.find? filling with | some a => _ | none => _) = _
      rw [none_]
      exact if_pos used
    · have others : muStep c mu s = some (takeEntry c mu f i e a (k.accs.filter fun x => !filling x) s) := by
        rw [step, if_neg (by rw [mode isReady]; exact Bool.false_ne_true)]
        change (match k.accs.find? filling with | some a => _ | none => _) = _
        rcases chosen with found | ⟨none_, free, rfl⟩
        · rw [found]
          rfl
        · rw [none_]
          have all : (k.accs.filter fun x => !filling x) = k.accs :=
            List.filter_eq_self.2 fun x hx => by simpa using List.find?_eq_none.1 none_ x hx
          rw [all]
          exact if_neg (Nat.not_le.2 free)
      obtain ⟨mem, accs, feeds, credits⟩ := takeEntry_core (c := c) (mu := mu) (e := e) (i := i) inside f a (k.accs.filter fun x => !filling x)
      refine ⟨_, _, others, mem, accs, rfl, rfl, ?_, ?_⟩
      · rw [feeds, credits]
        exact acceptEntry_credits mu e k
      · rw [feeds]
        exact notMem_acceptEntry mu e k (by simpa using List.find?_some entry)
  · intro new
    have eq : new = updAt r col fun a => addGroups ints a (ws.map fun g => g.getD l []) xs := addColumn_getD row
    rw [eq]
    refine ⟨length_updAt .., fun n other => updAt_getD_other _ _ _ other, fun inside => ?_⟩
    rw [updAt_getD_same _ _ _ _ inside, addGroups_map]
  · exact (foldl_addGroups ints k p ws xs pos).trans (dot_eq_foldl ints k ws xs lw)
  · intro f len first second feeds0 feeds1 firstGoes secondGoes
    have pair : StagePair c s i j := ⟨first, second, firstGoes, secondGoes⟩
    refine ⟨stageStep_of_noSet pair, fun a b lo hi setA setB more low high => ?_⟩
    exact stageStep_of_sets pair (by omega) feeds0 feeds1 setA setB more low high

end Sys2Proof.Machine
end

section
/-! PROOFS. The feed stick: firing, the order of its entries, its credits, and the flow of a core's units (R23, R24, R77, R113, R114, R122,
R134, R208). -/
namespace Sys2Proof.Machine

/-! ## What the feed strokes do as they fire -/

section
variable {c : Fin 256} {b : BeatCtx} {s : State}

/-- A stroke that is due fires at a unit that the model names by its core's number. -/
theorem run_due_named {u v : UnitId} (named : v = u) {op : Nat} {credit : BeatCtx → State → Bool} (body : BeatCtx → Nat → State → State)
    (due : Due s v op b) (credits : credit b s = streamCredit u op b s) :
    runStroke v op credit body s = body b s.sched.nextKey (fired v b s) :=
  run_due body due (credits.trans (by rw [named]))

theorem exec_feedMm_of_due (due : Due s (feedUnit c.val) 0x10 b) :
    exec (.feedMm c) s = .next (feedMmBody c.val b s.sched.nextKey (fired (feedUnit c.val) b s)) :=
  congrArg Host.Outcome.next (run_due_named (feedUnit_val c) (credit := feedCredit c.val) _ due rfl)

theorem exec_feedGang_of_due (due : Due s (feedUnit c.val) 0x11 b) :
    exec (.feedGang c) s = .next (feedGangBody c.val b s.sched.nextKey (fired (feedUnit c.val) b s)) :=
  congrArg Host.Outcome.next (run_due_named (feedUnit_val c) (credit := feedCredit c.val) _ due rfl)

theorem exec_feedWin_of_due (due : Due s (feedUnit c.val) 0x12 b) :
    exec (.feedWin c) s = .next (feedWinBody c.val b s.sched.nextKey (fired (feedUnit c.val) b s)) :=
  congrArg Host.Outcome.next (run_due_named (feedUnit_val c) (credit := winCredit c.val) _ due rfl)

theorem exec_feedAttn_of_due (due : Due s (feedUnit c.val) 0x13 b) :
    exec (.feedAttn c) s = .next (feedAttnBody c.val b s.sched.nextKey (fired (feedUnit c.val) b s)) :=
  congrArg Host.Outcome.next (run_due_named (feedUnit_val c) (credit := feedCredit c.val) _ due rfl)

end

/-! ## The order of the entries -/

/-- The number of an entry from its place: rounds, t-blocks, groups, columns, the last innermost. -/
theorem rowPlace_spec {d : MatDesc} {n : Nat} (bound : n < rowEntries d) :
    let p := groupsPerEntry d.wFmt d.xFmt
    let x := rowPlace d n
    ∃ g < stepCount d.k p, x.group = g * p ∧ x.col < 32 ∧ x.block < blockCount d.t ∧ x.round < roundCount d ∧
      n = ((x.round * blockCount d.t + x.block) * stepCount d.k p + g) * 32 + x.col := by
  intro p x
  simp only [rowEntries] at bound
  change n < roundCount d * blockCount d.t * stepCount d.k p * 32 at bound
  have pos : 0 < roundCount d * blockCount d.t * stepCount d.k p := Nat.pos_of_ne_zero fun zero => by rw [zero] at bound; omega
  have steps : 0 < stepCount d.k p := Nat.pos_of_mul_pos_left pos
  have blocks : 0 < blockCount d.t := Nat.pos_of_mul_pos_left (Nat.pos_of_mul_pos_right pos)
  have outer : n / (32 * stepCount d.k p) = n / 32 / stepCount d.k p := (Nat.div_div_eq_div_mul ..).symm
  refine ⟨n / 32 % stepCount d.k p, Nat.mod_lt _ steps, rfl, Nat.mod_lt _ (by omega), Nat.mod_lt _ blocks, ?_, ?_⟩
  · refine Nat.div_lt_of_lt_mul ?_
    calc n < roundCount d * blockCount d.t * stepCount d.k p * 32 := bound
      _ = 32 * stepCount d.k p * blockCount d.t * roundCount d := by ring
  · change n = ((n / (32 * stepCount d.k p * blockCount d.t) * blockCount d.t + n / (32 * stepCount d.k p) % blockCount d.t) *
      stepCount d.k p + n / 32 % stepCount d.k p) * 32 + n % 32
    rw [← Nat.div_div_eq_div_mul n (32 * stepCount d.k p), Nat.div_add_mod', outer, Nat.div_add_mod', Nat.div_add_mod']

/-! ## Entries and window vectors on their FIFOs -/

section
variable {c : Nat} {f : Fire} {i : Inflight} {s : State}

/-- Without Damper no block is reused. -/
theorem blockVerdict_of_plain {k : Core} {m : Memory} {d : MatDesc} (plain : d.damper = 0) (desc bar b : Nat) :
    blockVerdict k m f d desc bar b = some false := by
  have none_ : damperActive m f d desc = none := by simp [damperActive, damperAt, plain]
  rw [blockVerdict, none_]

theorem pushEntry_of_none (e : FeedEntry) (none_ : (s.core c).feedCredits = 0) : pushEntry c i e s = setPhase (feedUnit c) i.key .paused s :=
  if_pos none_

theorem pushEntry_core (e : FeedEntry) (bound : c < s.cores.length) (credit : 0 < (s.core c).feedCredits) :
    (pushEntry c i e s).mem = s.mem ∧ ((pushEntry c i e s).core c).feeds = (s.core c).feeds ++ [e] ∧
      ((pushEntry c i e s).core c).feedCredits + 1 = (s.core c).feedCredits ∧ ((pushEntry c i e s).core c).accs = (s.core c).accs := by
  rw [pushEntry, if_neg (Nat.ne_of_gt credit)]
  simp only [feedOn, updFlight_mem, State.updCore_mem, updFlight_core_feeds, updFlight_core_feedCredits, updFlight_core_accs,
    core_updCore_same _ _ bound, true_and, and_true]
  omega

/-- The entry that a row-mode feed stroke sends at a place. -/
def rowEntry (s : State) (f : Fire) (i : Inflight) (p : EntryPlace) : FeedEntry :=
  { key := i.key, op := i.op, desc := i.desc + p.problem, bar := i.bar, loops := i.loops, place := p,
    carried := feedCarried s.mem f i p, units := feedTakers s.mem f i p }

theorem feedTakers_of_row {m : Memory} {p : EntryPlace} (op : i.op = 0x10) (plain : (matAt m f i.desc).combo ≠ 11) :
    feedTakers m f i p = roundUnits (matAt m f i.desc) p.round := by
  rw [feedTakers, if_pos op]
  exact if_neg plain

theorem feedAt_of_row {p : EntryPlace} (op : i.op = 0x10) (plain : (matAt s.mem f i.desc).combo ≠ 11)
    (damper : (matAt s.mem f i.desc).damper = 0) (some_ : roundUnits (matAt s.mem f i.desc) p.round ≠ []) :
    feedAt c f i p s = some (pushEntry c i (rowEntry s f i p) s) := by
  have takers : (feedTakers s.mem f i p).isEmpty = false := by
    rw [feedTakers_of_row op plain]
    simpa using some_
  simp only [feedAt]
  rw [if_pos op, blockVerdict_of_plain damper]
  simp only [takers]
  rfl

theorem pushWindow_of_none (v : WinVector) (none_ : (s.core c).winCredits = 0) : pushWindow c i v s = setPhase (feedUnit c) i.key .paused s :=
  if_pos none_

theorem pushWindow_core (v : WinVector) (bound : c < s.cores.length) (credit : 0 < (s.core c).winCredits) :
    ((pushWindow c i v s).core c).wins = (s.core c).wins ++ [{ key := i.key, bar := i.bar, vector := v }] ∧
      ((pushWindow c i v s).core c).winCredits + 1 = (s.core c).winCredits ∧ (pushWindow c i v s).mem = s.mem := by
  rw [pushWindow, if_neg (Nat.ne_of_gt credit)]
  simp only [feedOn, updFlight_mem, State.updCore_mem, updFlight_core_wins, updFlight_core_winCredits, core_updCore_same _ _ bound,
    true_and, and_true]
  omega

end

/-- Settles O39: the entries of a feed stroke go out in their order, each for a credit, and the units then take their steps. -/
theorem feedStrokesDeliverTheirOperands : Obligations.FeedStrokesDeliverTheirOperands := by
  unfold Obligations.FeedStrokesDeliverTheirOperands
  refine ⟨fun c b s => ?_, fun d n bound => rowPlace_spec bound, fun c f i p s inside full => ?_, fun c i v s inside full => ?_,
    fun mu e k => ⟨acceptEntry_credits mu e k, fun only => notMem_acceptEntry mu e k (by simp [only]), rfl⟩, fun c s => ?_⟩
  · intro u F f d e a misses bad
    have memF : F.mem = s.mem := fired_mem ..
    refine ⟨fun due => ?_, fun due => ?_, fun x due stream => ?_, fun due => ?_⟩
    · rw [exec_feedMm_of_due due]
      change Host.Outcome.next (feedMmBody c.val b s.sched.nextKey F) = _
      simp only [feedMmBody, memF]
      simp [misses, d, e, f]
    · rw [exec_feedGang_of_due due]
      change Host.Outcome.next (feedGangBody c.val b s.sched.nextKey F) = _
      simp only [feedGangBody, memF]
      rfl
    · rw [exec_feedWin_of_due due]
      change Host.Outcome.next (feedWinBody c.val b s.sched.nextKey F) = _
      simp only [feedWinBody, memF]
      rw [stream]
    · rw [exec_feedAttn_of_due due]
      change Host.Outcome.next (feedAttnBody c.val b s.sched.nextKey F) = _
      simp only [feedAttnBody, memF]
      rfl
  · intro d k n op small damper some_
    have sends : feedAt c f i p s = some (pushEntry c i (rowEntry s f i p) s) := feedAt_of_row op (Nat.ne_of_lt small) damper some_
    refine ⟨fun none_ => ?_, fun credit => ?_⟩
    · rw [sends, pushEntry_of_none _ none_]
    · obtain ⟨mem, feeds, credits, accs⟩ := pushEntry_core (i := i) (rowEntry s f i p) (show c < s.cores.length by omega) credit
      refine ⟨_, _, sends, mem, feeds, credits, accs, rfl, rfl, feedTakers_of_row op (Nat.ne_of_lt small), ?_⟩
      rw [rowEntry, feedCarried, if_pos op]
      rfl
  · exact ⟨pushWindow_of_none v, pushWindow_core v (by omega)⟩
  · exact flow_flows _ _ s

end Sys2Proof.Machine
end

section
/-! PROOFS. The drain stick: firing, the sets it takes and the outputs it writes (R115, R121, R123, R136, R141, R146, R147, R157, R226,
R309). -/
namespace Sys2Proof.Machine

/-! ## What an output depends on -/

/-- A core but for the strokes its units hold and its accumulator sets. -/
def Core.still (k : Core) : Core := { k with units := [], accs := [] }

/-- The state but for the strokes that the units of the cores hold and the accumulator sets: outputs do not depend on them. -/
def State.still (s : State) : State := { s with cores := s.cores.map Core.still }

theorem mem_of_still {s t : State} (same : t.still = s.still) : t.mem = s.mem := (congrArg State.mem same :)

theorem updAt_map {α β : Type} (g : α → β) {f : α → α} {h : β → β} (commutes : ∀ a, g (f a) = h (g a)) (l : List α) (i : Nat) :
    (updAt l i f).map g = updAt (l.map g) i h := by
  refine List.ext_getElem? fun j => ?_
  simp only [updAt, List.getElem?_map, List.getElem?_modify]
  cases l[j]? with
  | none => rfl
  | some a =>
    simp only [Option.map_some, Option.map_eq_map]
    split
    · rw [commutes]
    · rfl

theorem still_updCore {f : Core → Core} (commutes : ∀ k, (f k).still = f k.still) (c : Nat) (s : State) :
    (s.updCore c f).still = s.still.updCore c f := by
  rw [State.still, State.still, State.updCore, State.updCore, updAt_map Core.still commutes]

/-- A change of a core's strokes and sets alone does not show. -/
theorem still_updCore_of_still {f : Core → Core} (hidden : ∀ k, (f k).still = k.still) (c : Nat) (s : State) :
    (s.updCore c f).still = s.still := by
  have id_ : ∀ k : Core, (f k).still = id k.still := hidden
  have same : (updAt s.cores c f).map Core.still = s.cores.map Core.still := by
    rw [updAt_map Core.still id_, updAt, List.modify_id]
  rw [State.still, State.updCore, same, State.still]

theorem still_updFlight (c : Fin 256) (v : Fin 16) (key : Nat) (g : Inflight → Inflight) (s : State) :
    (updFlight (.core c v) key g s).still = s.still :=
  still_updCore_of_still (fun _ => by rfl) c.val s

theorem still_dropSets (c : Nat) (as : List AccSet) (s : State) : (dropSets c as s).still = s.still :=
  still_updCore_of_still (fun _ => by rfl) c s

theorem still_giveOne_mu (c mu : Nat) (i : Inflight) (total : Nat) (s : State) : (giveOne (muUnit c mu) i total s).still = s.still :=
  still_updFlight ..

theorem still_drainOn (c : Nat) (i : Inflight) (s : State) : (drainOn c i s).still = s.still := still_updFlight ..

theorem partials_still (c : Nat) (s : State) : (s.still.core c).partials = (s.core c).partials := by
  simp only [State.core, State.still, List.getD_eq_getElem?_getD, List.getElem?_map]
  cases s.cores[c]? <;> rfl

theorem still_writeY (f : Fire) (d : MatDesc) (row0 col0 : Nat) (codes : List (List Nat)) (s : State) :
    (writeY f d row0 col0 codes s).still = writeY f d row0 col0 codes s.still := rfl

theorem still_countNan (c n : Nat) (s : State) : (countNan c n s).still = countNan c n s.still := still_updCore (fun _ => by rfl) c s

theorem still_blockQuantise (f : Fire) (d : MatDesc) (e : EpiDesc) (row0 col0 : Nat) (rows : List (List Word)) (s : State) :
    (blockQuantise f d e row0 col0 rows s).still = blockQuantise f d e row0 col0 rows s.still := by
  have counted (n : Nat) (codes : List (List Nat)) : (countNan f.core n (writeY f d row0 col0 codes s)).still =
      countNan f.core n (writeY f d row0 col0 codes s.still) := by
    rw [still_countNan, still_writeY]
  simp only [blockQuantise, ← counted]
  split <;> rfl

theorem still_quantiseBlock (f : Fire) (d : MatDesc) (e : EpiDesc) (key mu p col0 b : Nat) (rows : List (List Word)) (s : State) :
    (quantiseBlock f d e key mu p col0 b rows s).still = quantiseBlock f d e key mu p col0 b rows s.still := by
  simp only [quantiseBlock, partials_still]
  split
  · rw [still_blockQuantise, still_updCore]
    exact fun _ => rfl
  · rw [still_updCore, still_updCore]
    · exact fun _ => rfl
    · exact fun _ => rfl

theorem still_foldl {α : Type} {F : State → α → State} (commutes : ∀ s a, (F s a).still = F s.still a) (l : List α) (s : State) :
    (l.foldl F s).still = l.foldl F s.still := by
  induction l generalizing s with
  | nil => rfl
  | cons a l ih => rw [List.foldl_cons, List.foldl_cons, ih, commutes]

theorem still_quantiseCells (f : Fire) (d : MatDesc) (e : EpiDesc) (key mu p row0 col0 : Nat) (rows : List (List Word)) (s : State) :
    (quantiseCells f d e key mu p row0 col0 rows s).still = quantiseCells f d e key mu p row0 col0 rows s.still := by
  unfold quantiseCells
  split
  · exact still_blockQuantise ..
  · refine still_foldl (fun t b => ?_) _ s
    exact still_quantiseBlock ..

theorem still_drainCells (f : Fire) (d : MatDesc) (key mu p row0 col0 : Nat) (rows : List (List Word)) (s : State) :
    (drainCells f d key mu p row0 col0 rows s).still = drainCells f d key mu p row0 col0 rows s.still := by
  simp only [drainCells]
  split
  · exact still_writeY ..
  · split
    · exact still_quantiseCells ..
    · exact still_writeY ..

theorem drainCells_mem_of_still {s t : State} (same : t.still = s.still) (f : Fire) (d : MatDesc) (key mu p row0 col0 : Nat)
    (rows : List (List Word)) : (drainCells f d key mu p row0 col0 rows t).mem = (drainCells f d key mu p row0 col0 rows s).mem := by
  have both := (still_drainCells f d key mu p row0 col0 rows t).trans (same ▸ (still_drainCells f d key mu p row0 col0 rows s).symm)
  exact (congrArg State.mem both :)

theorem writeProbs_mem_of_mem {s t : State} (same : t.mem = s.mem) (f : Fire) (a : AttnDesc) (c col0 : Nat) (cols : List (List Word)) :
    (writeProbs f a c col0 cols t).mem = (writeProbs f a c col0 cols s).mem := by
  simp only [writeProbs, same]

/-- What a guarded write puts into memory. -/
theorem guardedWrite_mem (fn stave a : Nat) (bs : List Byte) (s : State) :
    (guardedWrite fn stave s a bs).mem =
      if hitsAny (readOnlyRanges s) a bs.length then
        ((rangeFrom a bs.length).zip bs).foldl
          (fun m p => if hitsAny (readOnlyRanges s) p.1 1 then m else m.write p.1 p.2) s.mem
      else s.mem.writeBytes a bs := by
  simp only [guardedWrite]
  split
  · rw [logError_mem]
  · rfl

theorem guardedWrite_mem_still (fn stave a : Nat) (bs : List Byte) (s : State) :
    (guardedWrite fn stave s.still a bs).mem = (guardedWrite fn stave s a bs).mem := by
  rw [guardedWrite_mem, guardedWrite_mem]
  rfl

theorem drainChain_mem_still (f : Fire) (d : MatDesc) (e : EpiDesc) (col0 : Nat) (lo hi : List (List Word)) (s : State) :
    (drainChain f d e col0 lo hi s.still).mem = (drainChain f d e col0 lo hi s).mem := by
  simp only [drainChain]
  split
  · exact guardedWrite_mem_still _ _ _ _ (writeY f d 0 col0 _ s)
  · rfl

theorem drainChain_mem_of_still {s t : State} (same : t.still = s.still) (f : Fire) (d : MatDesc) (e : EpiDesc) (col0 : Nat)
    (lo hi : List (List Word)) : (drainChain f d e col0 lo hi t).mem = (drainChain f d e col0 lo hi s).mem := by
  rw [← drainChain_mem_still, same, drainChain_mem_still]

/-! ## Outputs leave the accumulators alone -/

theorem cores_guardedWrite (fn stave a : Nat) (bs : List Byte) (s : State) : (guardedWrite fn stave s a bs).cores = s.cores := by
  simp only [guardedWrite]
  split
  · rw [logError_cores]
  · rfl

theorem cores_drainChain (f : Fire) (d : MatDesc) (e : EpiDesc) (col0 : Nat) (lo hi : List (List Word)) (s : State) :
    (drainChain f d e col0 lo hi s).cores = s.cores := by
  simp only [drainChain]
  split
  · exact cores_guardedWrite ..
  · rfl

theorem accs_blockQuantise (c : Nat) (f : Fire) (d : MatDesc) (e : EpiDesc) (row0 col0 : Nat) (rows : List (List Word)) (s : State) :
    ((blockQuantise f d e row0 col0 rows s).core c).accs = (s.core c).accs := by
  have counted (n : Nat) (t : State) : ((countNan f.core n t).core c).accs = (t.core c).accs :=
    updCore_core_kept Core.accs (fun _ => by rfl) ..
  simp only [blockQuantise]
  split <;> exact counted ..

theorem accs_quantiseBlock (c : Nat) (f : Fire) (d : MatDesc) (e : EpiDesc) (key mu p col0 b : Nat) (rows : List (List Word)) (s : State) :
    ((quantiseBlock f d e key mu p col0 b rows s).core c).accs = (s.core c).accs := by
  simp only [quantiseBlock]
  split
  · rw [accs_blockQuantise]
    exact updCore_core_kept Core.accs (fun _ => by rfl) ..
  · refine (updCore_core_kept Core.accs ?_ f.core c _).trans (updCore_core_kept Core.accs ?_ f.core c s)
    · exact fun _ => rfl
    · exact fun _ => rfl

theorem accs_drainCells (c : Nat) (f : Fire) (d : MatDesc) (key mu p row0 col0 : Nat) (rows : List (List Word)) (s : State) :
    ((drainCells f d key mu p row0 col0 rows s).core c).accs = (s.core c).accs := by
  simp only [drainCells]
  split
  · rfl
  · split
    · unfold quantiseCells
      split
      · exact accs_blockQuantise ..
      · exact foldl_field (fun t : State => (t.core c).accs) _ (fun t b => accs_quantiseBlock ..) _ s
    · rfl

/-! ## What the drain strokes do as they fire -/

section
variable {c : Fin 256} {b : BeatCtx} {s : State}

/-- The peer that a combination 7 names. -/
def peerSend (s : State) (b : BeatCtx) : SendDesc :=
  SendDesc.ofDesc (descOf s.mem b.fire (epiAt s.mem b.fire (matAt s.mem b.fire b.word.desc)).send)

theorem sendPeer_fired (u : UnitId) (d : SendDesc) : sendPeer (fired u b s) d = sendPeer s d := by cases u <;> rfl

theorem drainMmBody_fired (c : Nat) (u : UnitId) (b : BeatCtx) (key : Nat) (s : State) :
    drainMmBody c b key (fired u b s) =
      if (matAt s.mem b.fire b.word.desc).combo = 7 ∧ sendPeer s (peerSend s b) = none then
        strikePeer 8 c b.bar b.word.desc (peerSend s b) (fired u b s)
      else flowFrom c (fired u b s) := by
  have peer : SendDesc.ofDesc (descOf (fired u b s).mem b.fire
      (epiAt (fired u b s).mem b.fire (matAt (fired u b s).mem b.fire b.word.desc)).send) = peerSend s b := by
    rw [fired_mem, peerSend]
  rw [drainMmBody, peer, sendPeer_fired, fired_mem]
  simp only [Bool.and_eq_true, decide_eq_true_eq, Option.isNone_iff_eq_none]
  rfl

theorem exec_drainMm_of_due (due : Due s (drainUnit c.val) 0x10 b) :
    exec (.drainMm c) s = .next (
      if (matAt s.mem b.fire b.word.desc).combo = 7 ∧ sendPeer s (peerSend s b) = none then
        strikePeer 8 c.val b.bar b.word.desc (peerSend s b) (fired (drainUnit c.val) b s)
      else flowFrom c.val (fired (drainUnit c.val) b s)) := by
  have run := run_due_named (drainUnit_val c) (credit := drainCredit) (drainMmBody c.val) due rfl
  rw [drainMmBody_fired] at run
  exact congrArg Host.Outcome.next run

theorem exec_drainGang_of_due (due : Due s (drainUnit c.val) 0x11 b) :
    exec (.drainGang c) s = .next (flowFrom c.val (fired (drainUnit c.val) b s)) :=
  congrArg Host.Outcome.next (run_due_named (drainUnit_val c) (credit := noStream) (drainBody c.val) due rfl)

theorem exec_drainAttn_of_due (due : Due s (drainUnit c.val) 0x12 b) :
    exec (.drainAttn c) s = .next (flowFrom c.val (fired (drainUnit c.val) b s)) :=
  congrArg Host.Outcome.next (run_due_named (drainUnit_val c) (credit := noStream) (drainBody c.val) due rfl)

end

/-! ## The sets that a drain stroke takes -/

/-- Sets that have been dropped are gone. -/
theorem notMem_dropSets {a : AccSet} {as : List AccSet} (c : Nat) (s : State) (mem : a ∈ as) (bound : c < s.cores.length) :
    a ∉ ((dropSets c as s).core c).accs := by
  rw [dropSets, core_updCore_same _ _ bound, List.mem_filter]
  rintro ⟨-, kept⟩
  simp [mem] at kept

/-- A core that holds a set is there. -/
theorem bound_of_set {c : Nat} {p : AccSet → Bool} {a : AccSet} {s : State} (found : (s.core c).accs.find? p = some a) :
    c < s.cores.length := by
  by_contra out
  have none_ : s.core c = Core.reset := by
    rw [State.core, List.getD_eq_getElem?_getD, List.getElem?_eq_none (by omega), Option.getD_none]
  rw [none_] at found
  exact absurd found (by simp [Core.reset])

theorem bound_of_fullSet {c key row0 col0 tile : Nat} {a : AccSet} {s : State} (found : fullSet (s.core c) key row0 col0 tile = some a) :
    c < s.cores.length := bound_of_set found

section
variable {c mu : Nat} {f : Fire} {i x y : Inflight} {a lo hi : AccSet} {s : State}

/-- The set that a row-mode drain stroke takes next: its rows' first, its positions' first, its accumulators within the product, and the
state once it has left its unit. -/
def rowSet (d : MatDesc) (row0 col0 : Nat) (a : AccSet) : List (List Word) := setRows d.n d.t row0 col0 a.rows

theorem storeSet_of_plain {d : MatDesc} (plain : d.damper = 0) (desc b j : Nat) (rows : List (List Word)) (t : State) :
    storeSet f d desc b j rows t = t := by
  have none_ : damperActive t.mem f d desc = none := by simp [damperActive, damperAt, plain]
  rw [storeSet, none_]

theorem drainRow_of_none (unit : muStroke s c (drainPlace (matAt s.mem f i.desc) i.given).2.2.1 0x10 i = some x)
    (plain : (matAt s.mem f i.desc).damper = 0)
    (none_ : fullSet (s.core c) x.key (64 * (drainPlace (matAt s.mem f i.desc) i.given).2.2.2)
      (32 * (drainPlace (matAt s.mem f i.desc) i.given).2.1) 0 = none) : drainRow c f i s = none := by
  simp only [drainRow, unit, blockVerdict_of_plain plain, none_]

/-- A drain stroke takes a full set: its unit counts it given, and the output stage writes what it holds. -/
theorem drainRow_of_set (unit : muStroke s c (drainPlace (matAt s.mem f i.desc) i.given).2.2.1 0x10 i = some x)
    (plain : (matAt s.mem f i.desc).damper = 0)
    (set : fullSet (s.core c) x.key (64 * (drainPlace (matAt s.mem f i.desc) i.given).2.2.2)
      (32 * (drainPlace (matAt s.mem f i.desc) i.given).2.1) 0 = some a) {t : State}
    (tile : drainTile c f i (matAt s.mem f i.desc) (64 * (drainPlace (matAt s.mem f i.desc) i.given).2.2.2)
      (32 * (drainPlace (matAt s.mem f i.desc) i.given).2.1) a.rows (dropSets c [a] s) = some t) :
    drainRow c f i s = some (giveOne (muUnit c (drainPlace (matAt s.mem f i.desc) i.given).2.2.1) x
      ((bandsOf (matAt s.mem f i.desc) (drainPlace (matAt s.mem f i.desc) i.given).2.2.1).length * blockCount (matAt s.mem f i.desc).t)
      (drainOn c i t)) := by
  simp only [drainRow, unit, blockVerdict_of_plain plain, set, storeSet_of_plain plain, tile]

theorem drainTile_of_raw {d : MatDesc} (combo : d.combo = 0) (row0 col0 : Nat) (rows : List (List Word)) (t : State) :
    drainTile c f i d row0 col0 rows t = some (writeY f d row0 col0 (rawRows d (setRows d.n d.t row0 col0 rows)) t) := by
  rw [drainTile]
  exact if_pos combo

theorem drainTile_of_store {d : MatDesc} (combo : d.combo = 1 ∨ d.combo = 2 ∨ d.combo = 3 ∨ d.combo = 9 ∨ d.combo = 10) (row0 col0 : Nat)
    (rows : List (List Word)) (t : State) :
    drainTile c f i d row0 col0 rows t = some (writeY f d row0 col0
      (storeRows d (epiRows t.mem t.tables f d (epiAt t.mem f d) row0 col0 (setRows d.n d.t row0 col0 rows))) t) := by
  simp only [drainTile]
  rw [if_neg (by omega)]
  rcases combo with h | h | h | h | h <;> simp only [h]

theorem drainTile_of_quantise {d : MatDesc} (combo : d.combo = 4 ∨ d.combo = 5) (row0 col0 : Nat) (rows : List (List Word)) (t : State) :
    drainTile c f i d row0 col0 rows t = some (blockQuantise f d (epiAt t.mem f d) row0 col0
      (epiRows t.mem t.tables f d (epiAt t.mem f d) row0 col0 (setRows d.n d.t row0 col0 rows)) t) := by
  simp only [drainTile]
  rw [if_neg (by omega)]
  rcases combo with h | h <;> simp only [h]

/-! ## Chained products, gang strokes, attentions -/

/-- The state once a drain stroke has taken two sets of Mallet units. -/
def pairTaken (c mu nu total : Nat) (i x y : Inflight) (lo hi : AccSet) (s : State) : State :=
  giveOne (muUnit c mu) x total (giveOne (muUnit c nu) y total (drainOn c i (dropSets c [lo, hi] s)))

theorem still_pairTaken (mu nu total : Nat) : (pairTaken c mu nu total i x y lo hi s).still = s.still := by
  rw [pairTaken, still_giveOne_mu, still_giveOne_mu, still_drainOn, still_dropSets]

theorem accs_giveOne (u : UnitId) (total : Nat) (t : State) : ((giveOne u x total t).core c).accs = (t.core c).accs :=
  updFlight_core_accs ..

theorem accs_drainOn (t : State) : ((drainOn c i t).core c).accs = (t.core c).accs := updFlight_core_accs ..

theorem accs_pairTaken (mu nu total : Nat) : ((pairTaken c mu nu total i x y lo hi s).core c).accs = ((dropSets c [lo, hi] s).core c).accs := by
  rw [pairTaken, accs_giveOne, accs_giveOne, accs_drainOn]

theorem drainBlock_of_chain (op : i.op = 0x10) (unit2 : muStroke s c 2 0x10 i = some x) (unit3 : muStroke s c 3 0x10 i = some y)
    (low : fullSet (s.core c) x.key 0 (32 * i.given) (ceilDiv (epiAt s.mem f (matAt s.mem f i.desc)).m 128) = some lo)
    (high : fullSet (s.core c) y.key 64 (32 * i.given) (ceilDiv (epiAt s.mem f (matAt s.mem f i.desc)).m 128) = some hi) :
    ∃ t : State, t.still = s.still ∧ (t.core c).accs = ((dropSets c [lo, hi] s).core c).accs ∧
      drainBlock c f i s = some (drainChain f (matAt s.mem f i.desc) (epiAt s.mem f (matAt s.mem f i.desc)) (32 * i.given) lo.rows hi.rows t) := by
  have lengths : (chainLengths s.mem f i).1 = (epiAt s.mem f (matAt s.mem f i.desc)).m := by rw [chainLengths, if_pos op]
  refine ⟨pairTaken c 2 3 (blockCount (chainLengths s.mem f i).2) i x y lo hi s, still_pairTaken .., accs_pairTaken .., ?_⟩
  rw [← op] at unit2 unit3
  rw [← lengths] at low high
  simp only [drainBlock, unit2, unit3, low, high]
  exact if_pos op

/-- A unit holds a gang's tile that is full. -/
def gangSet (s : State) (c key desc array : Nat) : Option AccSet :=
  (s.core c).accs.find? fun z => z.key == key && z.full && z.desc == desc && z.array == array

theorem drainGang_of_set {p n : Nat} (alone : musHolding s.mem f.score i.bar 0x11 i.desc = [mu])
    (tile : gangTileAt s.mem f i.desc (i.imm.toNat % 16) 0 i.given = (p, n)) (unit : muStroke s c mu 0x11 i = some x)
    (set : gangSet s c x.key (i.desc + p) (gangArray (matAt s.mem f (i.desc + p)) n) = some a) :
    ∃ t : State, t.still = s.still ∧ (t.core c).accs = ((dropSets c [a] s).core c).accs ∧
      drainGang c f i s = some (if partitionStopped (s.core c) mu x.key (matAt s.mem f (i.desc + p)) then t
        else drainCells f (matAt s.mem f (i.desc + p)) i.key mu p a.row0 a.col0 a.rows t) := by
  refine ⟨giveOne (muUnit c mu) x (drainTotal s.mem f i / 1) (drainOn c i (dropSets c [a] s)), ?_, ?_, ?_⟩
  · rw [still_giveOne_mu, still_drainOn, still_dropSets]
  · rw [accs_giveOne, accs_drainOn]
  · unfold gangSet at set
    simp only [drainGang, alone, List.length_singleton, Nat.mod_one, List.getD_cons_zero, Nat.div_one, tile, unit, set]

/-- The probabilities that a drain stroke recomputes from the scores of a chain tile. -/
def tileProbs (s : State) (f : Fire) (a : AttnDesc) (b k : Nat) (lo hi : AccSet) : List (List Word) :=
  (List.range (min 32 (a.t - 32 * b))).map fun n =>
    attnProbs s.tables s.mem f a (32 * b + n) k (((lo.rows ++ hi.rows).map fun r => r.getD n 0).take (validKeys a f - 128 * k))

theorem drainScores_of_sets (unit0 : muStroke s c 0 0x12 i = some x) (unit1 : muStroke s c 1 0x12 i = some y)
    (low : fullSet (s.core c) x.key 0 (32 * (i.given / ceilDiv (validKeys (attnAt s.mem f i.desc) f) 128))
      (i.given % ceilDiv (validKeys (attnAt s.mem f i.desc) f) 128) = some lo)
    (high : fullSet (s.core c) y.key 64 (32 * (i.given / ceilDiv (validKeys (attnAt s.mem f i.desc) f) 128))
      (i.given % ceilDiv (validKeys (attnAt s.mem f i.desc) f) 128) = some hi) :
    let a := attnAt s.mem f i.desc
    let b := i.given / ceilDiv (validKeys a f) 128
    let k := i.given % ceilDiv (validKeys a f) 128
    ∃ t : State, t.mem = s.mem ∧ (t.core c).accs = ((dropSets c [lo, hi] s).core c).accs ∧
      drainScores c f i s = some (writeProbs f a k (32 * b) (tileProbs s f a b k lo hi) t) := by
  intro a b k
  refine ⟨pairTaken c 0 1 (blockCount a.t * ceilDiv (validKeys a f) 128) i x y lo hi s,
    mem_of_still (still_pairTaken ..), accs_pairTaken .., ?_⟩
  simp only [drainScores, unit0, unit1, low, high]
  rfl

/-! ## The last set -/

/-- The core once a drain stroke has taken its last set: what the stroke held back has gone with it. -/
def drainEnds (c : Nat) (i : Inflight) (s : State) : State :=
  (updFlight (drainUnit c) i.key (fun x => { x with taken := 1 }) s).updCore c fun k =>
    { (if i.op = 0x10 then closeBits i.desc i.bar i.loops k else k) with partials := k.partials.filter fun x => !(x.key == i.key) }

/-- A drain stroke that has taken its last set. -/
def DrainCloses (c : Nat) (i : Inflight) (s : State) : Prop :=
  (strokeAt s (drainUnit c) fun z => z.taken == 0 && decide (drainTotal s.mem (fireOf s (drainUnit c) z) z ≤ z.given)) = some i

theorem drainClose_eq (closes : DrainCloses c i s) :
    let f := fireOf s (drainUnit c) i
    let combo := (matAt s.mem f i.desc).combo
    let a := attnAt s.mem f i.desc
    let merge (kind : MergeKind) (rank : Nat) : State :=
      pushMerge c (partialOf kind i.key i.desc i.bar rank (heldRows (s.core c) i.key)) (drainEnds c i s)
    drainClose c s = some (
      if i.op = 0x12 ∧ a.pass1 = false then merge .attn (groupRank a f)
      else if i.op = 0x10 ∧ combo = 6 then merge .rowAmax f.rank
      else if i.op = 0x10 ∧ combo = 8 then merge .argmax f.rank
      else if i.op = 0x10 ∧ combo = 7 then drainEnds c i s
      else doneStroke (drainUnit c) i.key (drainEnds c i s)) := by
  unfold DrainCloses at closes
  simp only [drainClose, closes, Option.map_some, Bool.and_eq_true, decide_eq_true_eq, Bool.not_eq_true']
  rfl

theorem drainClose_of_done (closes : DrainCloses c i s)
    (plain : i.op = 0x11 ∨
      (i.op = 0x10 ∧ (matAt s.mem (fireOf s (drainUnit c) i) i.desc).combo ≠ 6 ∧ (matAt s.mem (fireOf s (drainUnit c) i) i.desc).combo ≠ 7 ∧
        (matAt s.mem (fireOf s (drainUnit c) i) i.desc).combo ≠ 8) ∨
      (i.op = 0x12 ∧ (attnAt s.mem (fireOf s (drainUnit c) i) i.desc).pass1 = true)) :
    drainClose c s = some (doneStroke (drainUnit c) i.key (drainEnds c i s)) := by
  rw [drainClose_eq closes]
  rcases plain with gang | ⟨mm, no6, no7, no8⟩ | ⟨attn, pass1⟩
  · simp [gang]
  · simp [mm, no6, no7, no8]
  · simp [attn, pass1]

end

/-- Settles O40: a drain stroke takes its sets in order and writes what they hold; units and accumulators do not show in what is written. -/
theorem drainStrokesWriteTheirOutputs : Obligations.DrainStrokesWriteTheirOutputs := by
  unfold Obligations.DrainStrokesWriteTheirOutputs
  refine ⟨fun c b s => ?_, fun c f i x a s => ?_, fun c f i x y lo hi s => ?_, fun c mu p n f i x a s alone tile unit => ?_,
    fun c f i x y lo hi s => ?_, fun c i s closes => ?_⟩
  · intro u d sd
    refine ⟨?_, fun due combo none_ => ?_⟩
    · simp only [List.forall_mem_cons, List.not_mem_nil, false_implies, implies_true, and_true]
      refine ⟨fun due peer => ?_, fun due _ => exec_drainGang_of_due due, fun due _ => exec_drainAttn_of_due due⟩
      rw [exec_drainMm_of_due due, if_neg]
      rintro ⟨combo, none_⟩
      have some_ := peer trivial combo
      rw [show sendPeer s sd = none from none_] at some_
      exact Bool.noConfusion some_
    · rw [exec_drainMm_of_due due, if_pos ⟨combo, none_⟩]
      rfl
  · intro d e p mu row0 col0 accs v gives left unit plain
    refine ⟨drainRow_of_none unit plain, fun set => ⟨?_, ?_⟩⟩
    · rintro (combo | combo)
      · rw [if_pos combo]
        exact drainRow_of_set unit plain set (drainTile_of_raw combo ..)
      · rw [if_neg (by omega)]
        exact drainRow_of_set unit plain set (drainTile_of_store combo ..)
    · exact fun combo => drainRow_of_set unit plain set (drainTile_of_quantise combo ..)
  · intro d e tiles op unit2 unit3 low high
    obtain ⟨t, same, accs, drained⟩ := drainBlock_of_chain op unit2 unit3 low high
    have bound := bound_of_fullSet low
    have core : ((drainChain f d e (32 * i.given) lo.rows hi.rows t).core c).accs = ((dropSets c [lo, hi] s).core c).accs := by
      rw [State.core, cores_drainChain]
      exact accs
    refine ⟨_, drained, drainChain_mem_of_still same .., ?_, ?_⟩
    · rw [core]
      exact notMem_dropSets c s (by simp) bound
    · rw [core]
      exact notMem_dropSets c s (by simp) bound
  · intro d set
    obtain ⟨t, same, accs, drained⟩ := drainGang_of_set alone tile unit set
    have bound : c < s.cores.length := bound_of_set set
    refine ⟨_, drained, ?_, ?_⟩
    · have gone : a ∉ (t.core c).accs := by
        rw [accs]
        exact notMem_dropSets c s (by simp) bound
      split
      · exact gone
      · rwa [accs_drainCells]
    · split
      · exact mem_of_still same
      · exact drainCells_mem_of_still same ..
  · intro a tiles b k unit0 unit1 low high
    obtain ⟨t, mem, accs, drained⟩ := drainScores_of_sets unit0 unit1 low high
    have bound := bound_of_fullSet low
    refine ⟨_, drained, ?_, ?_, writeProbs_mem_of_mem mem ..⟩
    · change lo ∉ (t.core c).accs
      rw [accs]
      exact notMem_dropSets c s (by simp) bound
    · change hi ∉ (t.core c).accs
      rw [accs]
      exact notMem_dropSets c s (by simp) bound
  · intro d plain
    refine ⟨_, drainClose_of_done closes plain, ?_, fun x hx => doneStroke_done _ _ _ x hx⟩
    exact (State.updUnit_mem ..).trans (State.updUnit_mem ..)

end Sys2Proof.Machine
end

section
/-! PROOFS. Merges across cores: partials that join their queue, reductions, and what comes from the next lower rank (R148, R149, R151,
R175 to R184, R217). -/
namespace Sys2Proof.Machine

/-! ## A core that is changed to what it was -/

/-- Two changes that make the same of a core's present state make the same device. -/
theorem updCore_eq_of_eq {s : State} {c : Nat} {f g : Core → Core} (same : f (s.core c) = g (s.core c)) : s.updCore c f = s.updCore c g := by
  rw [State.updCore, State.updCore, updAt_eq_of_eq Core.reset same]

theorem updCore_self (s : State) (c : Nat) : s.updCore c (fun k => k) = s := by
  have same : updAt s.cores c (fun k => k) = s.cores := List.modify_id c s.cores
  rw [State.updCore, same]

section
variable {c : Nat} {i : Inflight} {s : State}

/-! ## Drain strokes that merge -/

/-- A core without Damper's bits of an operation has none to close. -/
theorem closeBits_of_none {k : Core} (none_ : ∀ x ∈ k.damper, sameBits i.desc i.bar i.loops x = false) :
    closeBits i.desc i.bar i.loops k = k := by
  have same : (k.damper.map fun x => if sameBits i.desc i.bar i.loops x then { x with ends := x.ends + 1 } else x) = k.damper :=
    (List.map_congr_left (g := id) fun x hx => by simp [none_ x hx]).trans (List.map_id _)
  have kept : (k.damper.filter fun x => !(sameBits i.desc i.bar i.loops x && x.ends == 2)) = k.damper :=
    List.filter_eq_self.2 fun x hx => by simp [none_ x hx]
  rw [closeBits, same, kept]

/-- What a drain stroke held back is gone. -/
def drainFreed (c : Nat) (i : Inflight) (s : State) : State :=
  (updFlight (drainUnit c) i.key (fun x => { x with taken := 1 }) s).updCore c fun k =>
    { k with partials := k.partials.filter fun x => !(x.key == i.key) }

theorem drainEnds_of_other (other : i.op ≠ 0x10) : drainEnds c i s = drainFreed c i s := by
  simp only [drainEnds, if_neg other]
  rfl

theorem drainEnds_of_none (none_ : ∀ x ∈ (s.core c).damper, sameBits i.desc i.bar i.loops x = false) :
    drainEnds c i s = drainFreed c i s := by
  refine updCore_eq_of_eq ?_
  have damper : ((updFlight (drainUnit c) i.key (fun x => { x with taken := 1 }) s).core c).damper = (s.core c).damper := by
    rw [updFlight, updUnit_core]
  rw [← damper] at none_
  simp only [closeBits_of_none none_, ite_self]

end

/-! ## Reductions -/

section
variable {c : Nat} {i : Inflight} {s : State}

/-- The reduction of a stroke. -/
def redOf (s : State) (c : Nat) (i : Inflight) : RedDesc := RedDesc.ofDesc (descOf s.mem (fireOf s (reduceUnit c) i) i.desc)

/-- The rows that a reduction takes. -/
def redRows (s : State) (c : Nat) (i : Inflight) : Nat := (chainAt s.mem (fireOf s (reduceUnit c) i) (redOf s c i).chainDesc).rows

theorem reduceStep_of_rows (works : (strokeAt s (reduceUnit c) fun z => z.given == 0) = some i) (goes : i.phase ≠ .paused)
    (more : i.taken < redRows s c i) :
    reduceStep c s = ((s.core c).taps.find? fun t => t.bar == i.bar && t.chainDesc == (redOf s c i).chainDesc).map fun t =>
      updFlight (reduceUnit c) i.key (fun x => { x with taken := i.taken + 1 })
        (s.updCore c fun y => { y with taps := y.taps.erase t, tapCredits := y.tapCredits + 1, tapHeld := y.tapHeld ++ [t] }) := by
  simp only [reduceStep, works]
  rw [if_neg (by simpa using goes)]
  exact if_pos more

theorem reduceStep_of_noPivots (works : (strokeAt s (reduceUnit c) fun z => z.given == 0) = some i) (goes : i.phase ≠ .paused)
    (all : redRows s c i ≤ i.taken) (due : pivotsDue (redOf s c i) (fireOf s (reduceUnit c) i) = true)
    (none_ : pivotsFor (s.core c) i.desc i.bar = none) : reduceStep c s = none := by
  simp only [reduceStep, works]
  rw [if_neg (by simpa using goes)]
  refine (if_neg (Nat.not_lt.2 all)).trans (if_pos ?_)
  rw [none_]
  exact Bool.and_eq_true_iff.2 ⟨due, rfl⟩

end

section
variable (c key desc bar : Nat) (f : Fire) (x : RedDesc) (rows : List TapRow) (s : State)

/-- The statistics that a core forms itself, with its own pivots (R176 to R178, R183). -/
def ownStats : List (List Word) :=
  let grid := rows.map fun r => r.stages.getD x.tap []
  let masks := rows.map fun r => r.stages.getD x.mstage []
  let width := (rows.head?.map (·.width)).getD 0
  let val (i j : Nat) : Word := tapValue width (Grid.at grid i j)
  let cols := (grid.headD []).length
  let supplied (i : Nat) : Word := (needStream s.mem f x.pivotDesc).word 0 s.mem f 0 i
  (keptOf x grid.length cols).zipIdx.map fun q =>
    keptStats s.tables x cols val (fun i j => !(Grid.at masks i j == 0)) (pivotOf x val supplied q.2 q.1) q.1

/-- A value for each element of a list, looked up by the element's place, is that element's. -/
theorem map_zipIdx_getD {α β γ : Type} (l : List α) (g : α × Nat → β) (d : β) (h : α × Nat → β → γ) :
    (l.zipIdx.map fun q => h q ((l.zipIdx.map g).getD q.2 d)) = l.zipIdx.map fun q => h q (g q) := by
  refine List.map_congr_left fun q mem => ?_
  have place : l.zipIdx[q.2]? = some q := by
    obtain ⟨bound, eq⟩ := List.mem_zipIdx' mem
    rw [List.getElem?_zipIdx, List.getElem?_eq_getElem bound]
    simp [← eq]
  rw [List.getD_eq_getElem?_getD, List.getElem?_map, place, Option.map_some, Option.getD_some]

theorem runReduce_own :
    runReduce c key desc bar f x rows none s =
      let s2 := if x.merge && !(x.pivot == 0) && f.rank == 0 then
          sendPivots c key desc bar (sectionMates s f.score c) ((keptOf x (rows.map fun r => r.stages.getD x.tap []).length
            ((rows.map fun r => r.stages.getD x.tap []).headD []).length).zipIdx.map fun k =>
              pivotOf x (fun i j => tapValue ((rows.head?.map (·.width)).getD 0) (Grid.at (rows.map fun r => r.stages.getD x.tap []) i j))
                (fun i => (needStream s.mem f x.pivotDesc).word 0 s.mem f 0 i) k.2 k.1) s
        else s
      if x.merge then pushMerge c (partialOf (if x.smax then .smax else .stats) key desc bar f.rank (ownStats f x rows s)) s2
      else
        let fins := (ownStats f x rows s).map (finalStats s.tables x)
        closeWritten (partialOf .statsDone key desc bar f.rank []) c
          ((writeStats s f x (fins.map (·.1)) (countFinal c x ((fins.filter (·.2)).length) s2)).updCore c fun y =>
            { y with merges := y.merges ++ [partialOf .statsDone key desc bar f.rank []] }) := by
  have kept : (s.updCore c fun k => { k with merges := k.merges }) = s := updCore_self s c
  simp only [runReduce, kept, ownStats, map_zipIdx_getD _ _ _
    (fun (q : Kept × Nat) p => keptStats s.tables x ((rows.map fun r => r.stages.getD x.tap []).headD []).length
      (fun i j => tapValue ((rows.head?.map (·.width)).getD 0) (Grid.at (rows.map fun r => r.stages.getD x.tap []) i j))
      (fun i j => !(Grid.at (rows.map fun r => r.stages.getD x.mstage []) i j == 0)) p q.1)]

theorem runReduce_of_alone (alone : x.merge = false) :
    runReduce c key desc bar f x rows none s =
      closeWritten (partialOf .statsDone key desc bar f.rank []) c
        ((writeStats s f x (((ownStats f x rows s).map (finalStats s.tables x)).map (·.1))
          (countFinal c x ((((ownStats f x rows s).map (finalStats s.tables x)).filter (·.2)).length) s)).updCore c fun y =>
            { y with merges := y.merges ++ [partialOf .statsDone key desc bar f.rank []] }) := by
  rw [runReduce_own]
  simp only [alone, Bool.false_and, Bool.false_eq_true, if_false]

theorem runReduce_of_merge (merges : x.merge = true) (pivot : x.pivot = 0) :
    runReduce c key desc bar f x rows none s =
      pushMerge c (partialOf (if x.smax then .smax else .stats) key desc bar f.rank (ownStats f x rows s)) s := by
  rw [runReduce_own]
  simp only [merges, pivot, beq_self_eq_true, Bool.not_true, Bool.and_false, Bool.false_and, Bool.false_eq_true, if_false, if_true]

end

/-! ## Partials from the next lower rank -/

section
variable {c : Nat} {red : Bool} {i j : MergeItem} {m : List (List Word)} {s : State}

/-- An item's merged value arrives. -/
def mergedWith (c : Nat) (i : MergeItem) (m : List (List Word)) (s : State) : State :=
  s.updCore c fun y => { y with merges := y.merges.map fun z =>
    if z.kind = i.kind ∧ z.desc = i.desc ∧ z.bar = i.bar ∧ z.key = i.key then
      { z with merged := some (combineItem s.tables i.kind m i.own) } else z }

theorem mergeNext_of_due (head : headItem (s.core c) red = some i) (waits : i.merged = none) (rank : 0 < i.rank)
    (lower : headItem (s.core (((mergeCores s c i)[i.rank - 1]?).getD c)) red = some j) (same : sameMerge i j = true)
    (merged : j.merged = some m) : mergeNext c red s = some (settleMerges red 512 (mergedWith c i m s)) := by
  simp only [mergeNext, head, lower]
  rw [if_pos (by simp [waits, rank, same]), merged, Option.map_some, mergedWith]
  have items : (fun y : MergeItem => if sameMerge i y && y.key == i.key then
        { y with merged := some (combineItem s.tables i.kind m i.own) } else y) =
      fun z => if z.kind = i.kind ∧ z.desc = i.desc ∧ z.bar = i.bar ∧ z.key = i.key then
        { z with merged := some (combineItem s.tables i.kind m i.own) } else z := by
    funext z
    refine if_congr ?_ rfl rfl
    simp only [sameMerge, Bool.and_eq_true, beq_iff_eq]
    exact ⟨fun ⟨⟨⟨kind, desc⟩, bar⟩, key⟩ => ⟨kind.symm, desc.symm, bar.symm, key⟩,
      fun ⟨kind, desc, bar, key⟩ => ⟨⟨⟨kind.symm, desc.symm⟩, bar.symm⟩, key⟩⟩
  rw [items]

theorem mergeNext_of_noHead (none_ : headItem (s.core c) red = none) : mergeNext c red s = none := by
  simp only [mergeNext, none_]

/-- A section one of whose cores has yet to write is not closed. -/
theorem closeWritten_of_waiting {fin : MergeItem} (waiting : ∃ q ∈ sectionMates s (jobScore s) c, ∀ z ∈ (s.core q).merges, sameMerge fin z = false) :
    closeWritten fin c s = s := by
  obtain ⟨q, mate, none_⟩ := waiting
  refine if_neg fun all => ?_
  obtain ⟨z, mem, same⟩ := List.any_eq_true.1 (List.all_eq_true.1 all q mate)
  exact Bool.noConfusion ((none_ z mem).symm.trans same)

theorem settleMerges_of_none {n : Nat} (none_ : ∀ q < 256, mergeReady s red q = none) : settleMerges red n s = s := by
  cases n with
  | zero => rfl
  | succ n =>
    have find : ((enabledCores s.fuses.variant).find? fun q => (mergeReady s red q).isSome) = none :=
      List.find?_eq_none.2 fun q mem => by simp [none_ q (List.mem_range.1 (List.mem_of_mem_filter mem))]
    rw [settleMerges, find]

end

/-- Settles O41: partials join their queue in order of rank, and a reduction forms its statistics from the rows that it has taken. -/
theorem mergingStrokesPassTheirPartials : Obligations.MergingStrokesPassTheirPartials := by
  unfold Obligations.MergingStrokesPassTheirPartials
  refine ⟨fun c b s due => ?_, fun c i t => ⟨fun busy => ?_, fun free => ?_⟩, fun c i s closes => ?_, fun c i s works goes => ?_,
    fun c key desc bar f x rows s => ⟨runReduce_of_alone c key desc bar f x rows s, runReduce_of_merge c key desc bar f x rows s⟩,
    fun c s full => ?_⟩
  · exact congrArg Host.Outcome.next (run_due_named (reduceUnit_val c) (credit := noStream) _ due rfl)
  · rw [pushMerge]
    exact congrArg (settleMerges _ 512) (if_pos busy)
  · rw [pushMerge]
    exact congrArg (settleMerges _ 512) (if_neg (by simp [free]))
  · intro f d a own taken freed item
    have ends := drainClose_eq (c := c) (i := i) (s := s) closes
    have attn (op : i.op = 0x10) : ¬ (i.op = 0x12 ∧ a.pass1 = false) := fun both => absurd (op.symm.trans both.1) (by decide)
    refine ⟨fun op none_ => ⟨fun combo => ?_, fun combo => ?_, fun combo => ?_⟩, fun op pass => ?_⟩
    · refine (ends.trans (congrArg some ((if_neg (attn op)).trans (if_pos ⟨op, combo⟩)))).trans ?_
      rw [drainEnds_of_none none_]
      rfl
    · have no6 : ¬ (i.op = 0x10 ∧ d.combo = 6) := fun other => absurd (combo.symm.trans other.2) (by decide)
      refine (ends.trans (congrArg some ((if_neg (attn op)).trans ((if_neg no6).trans (if_pos ⟨op, combo⟩))))).trans ?_
      rw [drainEnds_of_none none_]
      rfl
    · have no6 : ¬ (i.op = 0x10 ∧ d.combo = 6) := fun other => absurd (combo.symm.trans other.2) (by decide)
      have no8 : ¬ (i.op = 0x10 ∧ d.combo = 8) := fun other => absurd (combo.symm.trans other.2) (by decide)
      refine (ends.trans (congrArg some ((if_neg (attn op)).trans
        ((if_neg no6).trans ((if_neg no8).trans (if_pos ⟨op, combo⟩)))))).trans ?_
      rw [drainEnds_of_none none_]
      rfl
    · refine (ends.trans (congrArg some (if_pos ⟨op, pass⟩))).trans ?_
      rw [drainEnds_of_other (by rw [op]; decide)]
      rfl
  · intro f x k
    refine ⟨fun more => ⟨fun t found => ?_, fun none_ => ?_⟩, fun all merges pivot rank none_ => ?_⟩
    · exact (reduceStep_of_rows works goes more).trans (congrArg (Option.map _) found)
    · exact (reduceStep_of_rows works goes more).trans (congrArg (Option.map _) none_)
    · have due : pivotsDue x f = true := by
        rw [pivotsDue, merges]
        simp [pivot, rank]
      exact reduceStep_of_noPivots works goes all due none_
  · intro k
    refine ⟨fun port i j m first head waits rank lower same merged => ?_, fun none0 none1 => ?_,
      fun fin t => closeWritten_of_waiting, fun port n t => settleMerges_of_none⟩
    · have due := mergeNext_of_due head waits rank lower same merged
      change execMergePartialRx c s = _
      rw [execMergePartialRx]
      cases port with
      | false => rw [due]; rfl
      | true => rw [first rfl, due]; rfl
    · change execMergePartialRx c s = _
      rw [execMergePartialRx, mergeNext_of_noHead none0, mergeNext_of_noHead none1]
      rfl

end Sys2Proof.Machine
end

section
/-! PROOFS. The roll engine's strokes: chains, denoising steps and Rattle contexts (R134, R164 to R174, R197, R203, R237 to R239, R537). -/
namespace Sys2Proof.Machine

/-! ## Chains -/

theorem updFlight_core (u : UnitId) (key : Nat) (g : Inflight → Inflight) (s : State) (c : Nat) :
    (updFlight u key g s).core c = { s.core c with units := ((updFlight u key g s).core c).units } := updUnit_core ..

theorem writeOut_mem_of_mem {s t : State} (same : t.mem = s.mem) (f : Fire) (d : ChainDesc) (outs : List StageOut) (i stage : Nat)
    (m0 : Memory) : (writeOut f d outs i stage m0 t).mem = (writeOut f d outs i stage m0 s).mem := by
  simp only [writeOut]
  split
  · exact same
  · simp only [same]

theorem writeCounts_mem_of_mem {s t : State} (same : t.mem = s.mem) (f : Fire) (d : ChainDesc) (outs : List StageOut) (m0 : Memory) :
    (writeCounts f d outs m0 t).mem = (writeCounts f d outs m0 s).mem := by
  simp only [writeCounts]
  split
  · simp only [same]
  · exact same

/-- The stages of a chain over its inputs. -/
def chainOuts (s : State) (ctxs : List RattleCtx) (f : Fire) (d : ChainDesc) (win : Option (List WinVector)) : List StageOut :=
  let e := chainEnv s ctxs f d win
  runStages { e with a := if d.cmode = 2 then (expandGrid s.mem f e (maskRows (runStages e) d.cstage)).1 else e.a }

theorem chainStages_fst (s : State) (ctxs : List RattleCtx) (f : Fire) (d : ChainDesc) (win : Option (List WinVector)) :
    (chainStages s ctxs f d win).1 = chainOuts s ctxs f d win := by
  simp only [chainStages, chainOuts]
  split <;> rfl

theorem runChain_snd (c : Nat) (ctxs : List RattleCtx) (f : Fire) (d : ChainDesc) (win : Option (List WinVector)) (s : State) :
    (runChain c ctxs f d win s).2 = chainOuts s ctxs f d win := chainStages_fst ..

theorem runChain_mem (c : Nat) (ctxs : List RattleCtx) (f : Fire) (d : ChainDesc) (win : Option (List WinVector)) (s : State) :
    let outs := chainOuts s ctxs f d win
    (runChain c ctxs f d win s).1.mem =
      (writeCounts f d outs s.mem (writeOut f d outs d.outQ d.qStage s.mem (writeOut f d outs d.outP d.pStage s.mem s))).mem := by
  intro outs
  have stages : (chainStages s ctxs f d win).1 = outs := chainStages_fst ..
  simp only [runChain, stages]
  refine writeCounts_mem_of_mem (writeOut_mem_of_mem (writeOut_mem_of_mem ?_ _ _ _ _ _ _) _ _ _ _ _ _) _ _ _ _
  rfl

theorem runChain_length (c : Nat) (ctxs : List RattleCtx) (f : Fire) (d : ChainDesc) (win : Option (List WinVector)) (s : State) :
    (runChain c ctxs f d win s).1.cores.length = s.cores.length := by
  have out (outs : List StageOut) (i stage : Nat) (t : State) : (writeOut f d outs i stage s.mem t).cores = t.cores := by
    unfold writeOut
    split <;> rfl
  have counts (outs : List StageOut) (t : State) : (writeCounts f d outs s.mem t).cores = t.cores := by
    unfold writeCounts
    split <;> rfl
  simp only [runChain, counts, out, countCore, countReserved, countNan, State.updCore_cores, length_updAt]

section
variable {c : Nat} {i : Inflight} {s : State}

/-- A chain at work: its descriptor and what it reads by. -/
def chainOf (s : State) (c : Nat) (i : Inflight) : ChainDesc := chainAt s.mem (fireOf s (rollUnit c) i) i.desc

/-- The vectors that a chain's window stream gave it, if its input A is one. -/
def chainWin (s : State) (c : Nat) (i : Inflight) : Option (List WinVector) :=
  if windowed s.mem (fireOf s (rollUnit c) i) (chainOf s c i) then some (s.core c).winHeld else none

theorem chainStep_of_window (works : (strokeAt s (rollUnit c) fun z => z.op == 0x10) = some i) (goes : i.phase ≠ .paused)
    (start : i.given = 0) (win : windowed s.mem (fireOf s (rollUnit c) i) (chainOf s c i) = true) (more : i.taken < (chainOf s c i).rows) :
    chainStep c s = ((s.core c).wins.find? fun w => w.bar == i.bar).map fun w =>
      updFlight (rollUnit c) i.key (fun x => { x with taken := i.taken + 1 })
        (s.updCore c fun y => { y with wins := y.wins.erase w, winCredits := y.winCredits + 1, winHeld := y.winHeld ++ [w.vector] }) := by
  simp only [chainStep, works]
  rw [if_neg (by simpa using goes), if_pos start]
  exact if_pos (Bool.and_eq_true_iff.2 ⟨win, decide_eq_true more⟩)

theorem chainStep_of_whole (works : (strokeAt s (rollUnit c) fun z => z.op == 0x10) = some i) (goes : i.phase ≠ .paused)
    (start : i.given = 0) (whole : windowed s.mem (fireOf s (rollUnit c) i) (chainOf s c i) = true → (chainOf s c i).rows ≤ i.taken) :
    let r := runChain c i.rattle (fireOf s (rollUnit c) i) (chainOf s c i) (chainWin s c i) s
    chainStep c s = some (updFlight (rollUnit c) i.key (fun x => { x with given := 1 })
      (r.1.updCore c fun y => { y with
        winHeld := [], tapRows := if tapped s.mem (fireOf s (rollUnit c) i) i.bar i.desc then tapRowsOf (chainOf s c i) i.desc i.bar r.2 else [] })) := by
  simp only [chainStep, works]
  rw [if_neg (by simpa using goes), if_pos start]
  refine if_neg fun both => ?_
  obtain ⟨win, more⟩ := Bool.and_eq_true_iff.1 both
  exact absurd (of_decide_eq_true more) (Nat.not_lt.2 (whole win))

theorem chainStep_of_sent (works : (strokeAt s (rollUnit c) fun z => z.op == 0x10) = some i) (goes : i.phase ≠ .paused)
    (ran : i.given ≠ 0) :
    chainStep c s = match (s.core c).tapRows with
      | [] => some (doneStroke (rollUnit c) i.key s)
      | r :: rest =>
        if (s.core c).tapCredits = 0 then some (setPhase (rollUnit c) i.key .paused s)
        else some (s.updCore c fun y => { y with taps := y.taps ++ [r], tapCredits := y.tapCredits - 1, tapRows := rest }) := by
  simp only [chainStep, works]
  rw [if_neg (by simpa using goes), if_neg ran]
  rfl

end

/-! ## What the strokes do as they fire -/

section
variable {c : Fin 256} {b : BeatCtx} {s : State}

theorem exec_chain_of_due (due : Due s (rollUnit c.val) 0x10 b) :
    exec (.chain c) s = .next (chainBody c.val b s.sched.nextKey (fired (rollUnit c.val) b s)) :=
  congrArg Host.Outcome.next (run_due_named (rollUnit_val c) (credit := tapCredit c.val) _ due rfl)

theorem exec_stepStroke_of_due (due : Due s (rollUnit c.val) 0x11 b) :
    exec (.stepStroke c) s = .next (stepBody c.val b s.sched.nextKey (fired (rollUnit c.val) b s)) :=
  congrArg Host.Outcome.next (run_due_named (rollUnit_val c) (credit := noStream) _ due rfl)

theorem exec_rattleSet_of_due (due : Due s (.core c 11) 0x10 b) :
    exec (.rattleSet c) s = .next (doneStroke (.core c 11) s.sched.nextKey
      ((fired (.core c 11) b s).updCore c.val fun k => { k with
        rattle := updAt k.rattle (fld (descOf s.mem b.fire b.word.desc) 1 0) fun _ => rattleOf (descOf s.mem b.fire b.word.desc) })) := by
  refine (congrArg Host.Outcome.next (run_due (credit := noStream) _ due rfl)).trans ?_
  simp only [fired_mem]

theorem fired_core_rattle (u : UnitId) (k : Nat) : ((fired u b s).core k).rattle = (s.core k).rattle := by rw [fired_core]

end

/-- Settles O42: a chain takes its vectors, computes and sends its tapped rows; STEP and RATTLE_SET write what they name. -/
theorem rollStrokesWriteTheirStreams : Obligations.RollStrokesWriteTheirStreams := by
  unfold Obligations.RollStrokesWriteTheirStreams
  refine ⟨fun c b s full => ?_, fun c i s inside full works goes => ?_⟩
  · intro f key u k x r old eps new hist m1 w
    have memF : (fired u b s).mem = s.mem := fired_mem ..
    have rattleF : ((fired u b s).core c.val).rattle = k.rattle := fired_core_rattle ..
    refine ⟨fun due => ?_, fun due => ?_, fun due => exec_rattleSet_of_due due⟩
    · rw [exec_chain_of_due due]
      change Host.Outcome.next (chainBody c.val b key (fired u b s)) = _
      rw [chainBody, rattleF]
    · rw [exec_stepStroke_of_due due]
      change Host.Outcome.next (stepBody c.val b key (fired u b s)) = _
      simp only [stepBody, memF, rattleF]
      rfl
  · intro u f d k takes e outs
    refine ⟨fun start win more => ⟨fun v found => ?_, fun none_ => ?_⟩, fun start whole => ?_, fun ran none_ => ?_,
      fun r rest ran rows => ⟨fun none_ => ?_, fun credit => ?_⟩⟩
    · have step := (chainStep_of_window works goes start win more).trans (congrArg (Option.map _) found)
      refine ⟨_, step, ?_, ?_, ?_, ?_⟩
      · rw [updFlight_core, core_updCore_same _ _ (by omega)]
      · rw [updFlight_core, core_updCore_same _ _ (by omega)]
      · rw [updFlight_core, core_updCore_same _ _ (by omega)]
      · rw [updFlight_mem, State.updCore_mem]
    · exact (chainStep_of_window works goes start win more).trans (congrArg (Option.map _) none_)
    · have step := chainStep_of_whole works goes start whole
      have bound : c < (runChain c i.rattle (fireOf s (rollUnit c) i) (chainOf s c i) (chainWin s c i) s).1.cores.length := by
        rw [runChain_length]
        omega
      refine ⟨_, step, ?_, ?_, ?_⟩
      · rw [updFlight_core, core_updCore_same _ _ bound]
      · rw [updFlight_mem, State.updCore_mem]
        exact runChain_mem ..
      · rw [updFlight_core, core_updCore_same _ _ bound, runChain_snd]
        rfl
    · rw [chainStep_of_sent works goes ran, show (s.core c).tapRows = [] from none_]
    · rw [chainStep_of_sent works goes ran, show (s.core c).tapRows = r :: rest from rows]
      exact if_pos none_
    · have step := chainStep_of_sent works goes ran
      rw [show (s.core c).tapRows = r :: rest from rows] at step
      refine ⟨_, step.trans (if_neg (Nat.ne_of_gt credit)), rfl, ?_⟩
      rw [core_updCore_same _ _ (by omega)]
      exact ⟨rfl, Nat.sub_add_cancel credit, rfl⟩

end Sys2Proof.Machine
end

section
/-! PROOFS. SCATTER and the DMA strokes: what rows they move and where. -/
namespace Sys2Proof.Machine

/-! ## SCATTER -/

theorem exec_scatter_of_due {c : Fin 256} {b : BeatCtx} {s : State} (due : Due s (.core c 9) 0x10 b) :
    exec (.scatter c) s = .next (scatterBody c.val b s.sched.nextKey (fired (.core c 9) b s)) :=
  congrArg Host.Outcome.next (run_due (credit := noStream) _ due rfl)

theorem scatterBody_fired (c : Fin 256) (b : BeatCtx) (s : State) (key : Nat) :
    let x := ScatterDesc.ofDesc (descOf s.mem b.fire b.word.desc)
    scatterBody c.val b key (fired (.core c 9) b s) =
      doneStroke (.core c 9) key ((List.range x.rows).foldl (scatterRow c.val b.fire x s.mem) (fired (.core c 9) b s)) := by
  have named : Fin.ofNat 256 c.val = c := Fin.ofNat_val_eq_self c
  simp only [scatterBody, named, fired_mem]

theorem scatterRow_mem_of_dropped {c : Nat} {f : Fire} {x : ScatterDesc} {m : Memory} {r : Nat} (t : State)
    (dropped : scatterPos m f x r = none) : (scatterRow c f x m t r).mem = t.mem := by
  simp only [scatterRow, dropped]
  rfl

/-- A row that is kept and goes to the scratch of its owner alone. -/
theorem scatterRow_mem_of_owner {c : Nat} {f : Fire} {x : ScatterDesc} {m : Memory} {r p owner : Nat} (t : State)
    (kept : scatterPos m f x r = some p) (scratch : x.scrEn = true) (image : x.memEn = false)
    (owned : (coresOf t f x.destSection)[x.destRank0 + (p - x.keyPos0) / x.m]? = some owner) :
    let st := needStream m f x.src
    let row := narrowRow x.kvFmt ((List.range x.d).map fun j => if x.srcT then st.val m f j r else st.val m f r j)
    let dst := needStream m f x.dest
    let g := { f with core := owner }
    let i := (p - x.keyPos0) % x.m
    (scatterRow c f x m t r).mem =
      row.2.1.zipIdx.foldl (fun m' q => m'.write (dst.scaleAddr m g i (32 * q.2)) (BitVec.ofNat 8 q.1))
        (t.mem.writeRow (dst.row m g i) x.kvFmt x.d 0 row.1) := by
  simp only [scatterRow, kept, scratch, image, owned, if_true, Bool.false_eq_true, if_false]
  rfl

/-! ## DMA -/

section
variable {stave a : Nat} {s : State}

theorem unitWrite_of_free {bs : List Byte} (free : hitsAny (readOnlyRanges s) a bs.length = false) :
    unitWrite stave s a bs = { s with mem := s.mem.writeBytes a bs } := by
  rw [unitWrite, guardedWrite, if_neg (by simp [free])]

theorem dmaWrite_of_free (rows : List (Nat × List Byte)) (m : Memory)
    (free : ∀ r ∈ rows, hitsAny (readOnlyRanges s) (a + r.1) r.2.length = false) :
    dmaWrite stave a rows { s with mem := m } =
      { s with mem := rows.foldl (fun m r => m.writeBytes (a + r.1) r.2) m } := by
  induction rows generalizing m with
  | nil => rfl
  | cons r rows ih =>
    simp only [List.forall_mem_cons] at free
    exact (congrArg (dmaWrite stave a rows) (unitWrite_of_free (s := { s with mem := m }) free.1)).trans (ih _ free.2)

theorem foldl_dmaWrite_of_free (at_ : Fire → Nat) (rows : List (Nat × List Byte)) (fs : List Fire) (m : Memory)
    (free : ∀ f ∈ fs, ∀ r ∈ rows, hitsAny (readOnlyRanges s) (at_ f + r.1) r.2.length = false) :
    fs.foldl (fun acc f => dmaWrite stave (at_ f) rows acc) { s with mem := m } =
      { s with mem := fs.foldl (fun m f => rows.foldl (fun m r => m.writeBytes (at_ f + r.1) r.2) m) m } := by
  induction fs generalizing m with
  | nil => rfl
  | cons f fs ih =>
    simp only [List.forall_mem_cons] at free
    rw [List.foldl_cons, dmaWrite_of_free rows m free.1, ih _ free.2, List.foldl_cons]

end

/-- The bytes of one row of a DMA stroke: of a copy those that stand at the source, of a fill the pattern's. -/
def dmaBytes (s : State) (b : BeatCtx) (copy : Bool) (r : Nat × Nat) : List Byte :=
  let d := DmaDesc.ofDesc (descOf s.mem b.fire b.word.desc)
  if copy then s.mem.readBytes (bufAddr s.mem b.fire d.srcBuf d.srcOfs + r.1) d.bytes
  else (List.range d.bytes).map fun i => BitVec.ofNat 8 (d.fill / 256 ^ (i % 4))

theorem dmaBytes_length (s : State) (b : BeatCtx) (copy : Bool) (r : Nat × Nat) :
    (dmaBytes s b copy r).length = (DmaDesc.ofDesc (descOf s.mem b.fire b.word.desc)).bytes := by
  cases copy <;> simp [dmaBytes, Memory.readBytes]

/-- Byte `i` of the pattern is byte `i` of the fill word. -/
theorem leBytes_four (v i : Nat) (small : i < 4) : (leBytes 4 v).getD i 0 = BitVec.ofNat 8 (v / 256 ^ i) := by
  have cases_ : i = 0 ∨ i = 1 ∨ i = 2 ∨ i = 3 := by omega
  rcases cases_ with rfl | rfl | rfl | rfl <;> simp [leBytes, Nat.div_div_eq_div_mul]

theorem dmaRows (s : State) (b : BeatCtx) (copy : Bool) :
    let d := DmaDesc.ofDesc (descOf s.mem b.fire b.word.desc)
    (if copy then dmaRead s.mem b.fire d else dmaPattern d) = d.rowList.map fun r => (r.2, dmaBytes s b copy r) := by
  intro d
  cases copy with
  | true => rfl
  | false =>
    refine congrArg (fun row => d.rowList.map fun r => (r.2, row)) (List.map_congr_left fun i _ => ?_)
    exact leBytes_four _ _ (Nat.mod_lt _ (by decide))

theorem readOnlyRanges_fired (u : UnitId) (b : BeatCtx) (s : State) : readOnlyRanges (fired u b s) = readOnlyRanges s := by
  rw [fired_frame]
  rfl

theorem dmaTargets_fired (u : UnitId) (b : BeatCtx) (s : State) (f : Fire) (d : DmaDesc) :
    dmaTargets (fired u b s) f d = dmaTargets s f d := by
  rw [fired_frame]
  rfl

/-- The move of a stroke that has fired, none of whose rows meets a read-only range. -/
theorem dmaMove_fired {u : UnitId} {b : BeatCtx} {s : State} (copy : Bool) (key : Nat) :
    let d := DmaDesc.ofDesc (descOf s.mem b.fire b.word.desc)
    let dst (f : Fire) : Nat := bufAddr s.mem f d.dstBuf d.dstOfs
    (∀ f ∈ dmaTargets s b.fire d, ∀ r ∈ d.rowList, hitsAny (readOnlyRanges s) (dst f + r.2) d.bytes = false) →
    dmaMove u copy b key (fired u b s) = doneStroke u key { fired u b s with
      mem := (dmaTargets s b.fire d).foldl
        (fun m f => d.rowList.foldl (fun a r => a.writeBytes (dst f + r.2) (dmaBytes s b copy r)) m) s.mem } := by
  intro d dst free
  have rows := dmaRows s b copy
  have written := foldl_dmaWrite_of_free (stave := unitStave u) (s := fired u b s) dst
    (d.rowList.map fun r => (r.2, dmaBytes s b copy r)) (dmaTargets s b.fire d) s.mem (by
      intro f hf r hr
      obtain ⟨q, hq, rfl⟩ := List.mem_map.mp hr
      rw [readOnlyRanges_fired, dmaBytes_length]
      exact free f hf q hq)
  have whole : { fired u b s with mem := s.mem } = fired u b s := by rw [← fired_mem u b s]
  rw [whole] at written
  simp only [List.foldl_map] at written
  simp only [dmaMove, fired_mem, dmaTargets_fired, rows]
  exact congrArg (doneStroke u key) written

/-- Settles O43: a row is dropped or written at its owner's place, and the DMA's rows are written at each destination. -/
theorem scatterAndDmaMoveTheirRows : Obligations.ScatterAndDmaMoveTheirRows := by
  unfold Obligations.ScatterAndDmaMoveTheirRows
  refine ⟨fun c b s _ => ⟨fun due => ?_, fun r t dropped => scatterRow_mem_of_dropped t dropped,
    fun r p t owner kept scratch image owned => scatterRow_mem_of_owner t kept scratch image owned⟩, ?_⟩
  · exact (exec_scatter_of_due due).trans (congrArg Host.Outcome.next (scatterBody_fired ..))
  · intro c b s p place
    simp only [List.mem_cons, List.not_mem_nil, or_false] at place
    rcases place with rfl | rfl | rfl | rfl
    · exact fun due free => congrArg Host.Outcome.next
        ((run_due (credit := noStream) _ due rfl).trans (dmaMove_fired true _ free))
    · exact fun due free => congrArg Host.Outcome.next
        ((run_due (credit := noStream) _ due rfl).trans (dmaMove_fired false _ free))
    · exact fun due free => congrArg Host.Outcome.next
        ((run_due (credit := noStream) _ due rfl).trans (dmaMove_fired true _ free))
    · exact fun due free => congrArg Host.Outcome.next
        ((run_due (credit := noStream) _ due rfl).trans (dmaMove_fired false _ free))

end Sys2Proof.Machine
end

section
/-! PROOFS. The link unit's strokes: a send cut into flits and sent, a window opened, a collective begun. -/
namespace Sys2Proof.Machine

/-! ## What flits on their way leave of the fabric -/

/-- The fabric but for its ports: windows, transfers and the flits that wait at this end. -/
def State.transfers (s : State) : Fabric := { s.fabric with ports := [] }

@[simp] theorem transfers_transmitNow (p : Nat) (w : Nat × BitVec 6 × Flit) (s : State) :
    (transmitNow p w s).transfers = s.transfers := rfl

@[simp] theorem transfers_sendWaiting (p n : Nat) (s : State) : (sendWaiting p n s).transfers = s.transfers := by
  induction n generalizing s with
  | zero => rfl
  | succ n ih =>
    rw [sendWaiting]
    split
    · rfl
    · split
      · rfl
      · split
        · rfl
        · exact ih _

@[simp] theorem transfers_transmit (p q : Nat) (vc : BitVec 6) (f : Flit) (s : State) :
    (transmit p q vc f s).transfers = s.transfers := transfers_sendWaiting ..

@[simp] theorem transfers_discardFlit (p dest : Nat) (s : State) : (discardFlit p dest s).transfers = s.transfers := by
  rw [discardFlit, State.transfers, logError_fabric]
  split <;> rfl

@[simp] theorem transfers_oweCredit (p : Nat) (vc : BitVec 6) (s : State) : (oweCredit p vc s).transfers = s.transfers := rfl

@[simp] theorem transfers_routeFrom (p : Nat) (vc : BitVec 6) (pair : Nat) (f : Flit) (s : State) :
    (routeFrom p vc pair f s).transfers = s.transfers := by
  unfold routeFrom
  split
  · rw [transfers_oweCredit, transfers_discardFlit]
  · split
    · exact transfers_oweCredit ..
    · split
      · rw [transfers_oweCredit, transfers_discardFlit]
      · exact transfers_transmit ..

@[simp] theorem transfers_routeFlit (p pair : Nat) (f : Flit) (s : State) : (routeFlit p pair f s).transfers = s.transfers :=
  transfers_routeFrom ..

section
variable {peer wi : Nat} {xtag : BitVec 7} {svc pairs : Nat} {s : State}

theorem sendBytes_cons_of_peer (far : peer ≠ s.self) (i ofs : Nat) (bs : List Byte) (rest : List (Nat × List Byte)) :
    sendBytes peer wi xtag svc pairs i ((ofs, bs) :: rest) s =
      sendBytes peer wi xtag svc pairs (i + 1) rest (routeFlit 16 (sendPair pairs i) (sendFlit peer wi xtag svc ofs bs) s) := by
  simp only [sendBytes, if_neg far]

/-- Bytes sent to another device leave all but the ports as it was. -/
theorem sendBytes_of_peer (far : peer ≠ s.self) (i : Nat) (runs : List (Nat × List Byte)) :
    (sendBytes peer wi xtag svc pairs i runs s).offFabric = s.offFabric ∧
    (sendBytes peer wi xtag svc pairs i runs s).transfers = s.transfers := by
  induction runs generalizing i s with
  | nil => exact ⟨rfl, rfl⟩
  | cons r runs ih =>
    rw [sendBytes_cons_of_peer far]
    set t := routeFlit 16 (sendPair pairs i) (sendFlit peer wi xtag svc r.1 r.2) s with ht
    have off : t.offFabric = s.offFabric := offFabric_routeFlit ..
    have self : t.self = s.self := (congrArg State.self off :)
    obtain ⟨rest, transfers⟩ := ih (s := t) (by rw [self]; exact far) (i + 1)
    exact ⟨rest.trans off, transfers.trans (transfers_routeFlit ..)⟩

end

/-! ## Runs cut into flits -/

theorem cutFlits_length (n ofs : Nat) (bs : List Byte) (whole : ceilDiv bs.length 236 = n) : (cutFlits n ofs bs).length = n := by
  induction n generalizing ofs bs with
  | zero => rfl
  | succ n ih =>
    simp only [ceilDiv] at whole ih
    have some_ : bs.isEmpty = false := by
      cases bs with
      | nil => simp at whole
      | cons b bs => rfl
    simp only [cutFlits, some_, Bool.false_eq_true, if_false, List.length_cons]
    rw [ih _ _ (by simp only [List.length_drop]; omega)]

theorem cutFlits_one {ofs : Nat} {bs : List Byte} (some_ : 1 ≤ bs.length) (small : bs.length ≤ 236) :
    cutFlits (ceilDiv bs.length 236) ofs bs = [(ofs, bs)] := by
  have one : ceilDiv bs.length 236 = 1 := by unfold ceilDiv; omega
  have full : bs.isEmpty = false := by
    cases bs with
    | nil => simp at some_
    | cons b bs => rfl
  rw [one]
  simp only [cutFlits, full, Bool.false_eq_true, if_false, List.take_of_length_le small]

/-- Runs of one length give as many flits each. -/
theorem flatMap_cutFlits_length {n : Nat} (runs : List (Nat × List Byte)) (even_ : ∀ r ∈ runs, r.2.length = n) :
    (runs.flatMap fun r => cutFlits (ceilDiv r.2.length 236) r.1 r.2).length = runs.length * ceilDiv n 236 := by
  induction runs with
  | nil => simp
  | cons r runs ih =>
    simp only [List.forall_mem_cons] at even_
    simp only [List.flatMap_cons, List.length_append, cutFlits_length (ceilDiv n 236) r.1 r.2 (by rw [even_.1]), ih even_.2, even_.1, List.length_cons, Nat.succ_mul]
    omega

theorem sum_length {n : Nat} (runs : List (Nat × List Byte)) (even_ : ∀ r ∈ runs, r.2.length = n) :
    (runs.map fun r => r.2.length).sum = runs.length * n := by
  induction runs with
  | nil => simp
  | cons r runs ih =>
    simp only [List.forall_mem_cons] at even_
    simp only [List.map_cons, List.sum_cons, ih even_.2, even_.1, List.length_cons, Nat.succ_mul]
    omega

/-! ## A send under its tag -/

theorem freeTag_free {s : State} {x : BitVec 7} (free : freeTag s = some x) : ∀ y ∈ s.fabric.sends, y.xtag ≠ x := by
  have found := List.find?_some free
  simpa using found

section
variable {q : QueuedSend} {s : State} {x : BitVec 7}

/-- The flits of a queued send. -/
def flitsOf (q : QueuedSend) : List (Nat × List Byte) := q.runs.flatMap fun r => cutFlits (ceilDiv r.2.length 236) r.1 r.2

theorem sendUnder_link (link : q.stave = 13) (some_ : 0 < (q.runs.map fun r => r.2.length).sum) :
    sendUnder x q s = sendRuns linkUnit x q (openSend x q (q.runs.map fun r => r.2.length).sum s) := by
  simp only [sendUnder, link, if_true, if_neg (Nat.ne_of_gt some_)]

theorem sendRuns_eq (u : UnitId) (free : ∀ y ∈ s.fabric.sends, y.xtag ≠ x) (n : Nat) :
    let new : SendState := { xtag := x, stave := q.stave, core := q.core, key := q.key, peer := q.peer, window := q.window,
                             bytes := n, acked := 0, flits := (flitsOf q).length }
    let t := openSend x q n s
    let r := sendBytes q.peer q.window x q.svc q.pairs 0 (flitsOf q) { t with fabric := { t.fabric with sends := s.fabric.sends ++ [new] } }
    sendRuns u x q t = if flitsWait r x then setPhase u q.key .paused r else r := by
  intro new t r
  have none_ : s.fabric.sends.find? (fun y => y.xtag == x) = none := by simpa using free
  have kept : (s.fabric.sends.map fun y => if y.xtag = x then { y with flits := 0 + (flitsOf q).length } else y) = s.fabric.sends := by
    conv_rhs => rw [← List.map_id s.fabric.sends]
    exact List.map_congr_left fun y hy => if_neg (free y hy)
  simp only [sendRuns, t, openSend, List.find?_append, none_, List.find?_cons_of_pos, beq_self_eq_true, Option.none_or, Option.map_some,
    Option.getD_some, List.map_append, List.map_cons, List.map_nil, if_true]
  rw [show (q.runs.flatMap fun r => cutFlits (ceilDiv r.2.length 236) r.1 r.2) = flitsOf q from rfl, kept]
  simp only [Nat.zero_add]
  rfl

end

/-! ## SEND -/

section
variable {b : BeatCtx} {s : State}

theorem exec_send_of_due (due : Due s linkUnit 0x10 b) :
    exec .send s = .next (sendBody b s.sched.nextKey (fired linkUnit b s)) :=
  congrArg Host.Outcome.next (run_due (credit := sendCredit) _ due rfl)

/-- The runs that a SEND reads. -/
def sendRows (s : State) (b : BeatCtx) : List (Nat × List Byte) :=
  let d := SendDesc.ofDesc (descOf s.mem b.fire b.word.desc)
  (List.range d.rows).map fun r =>
    (d.remoteOfs + r * d.dstRow, s.mem.readBytes (bufAddr s.mem b.fire d.srcBuf d.srcOfs + r * d.srcRow) d.bytes)

theorem sendRows_length (s : State) (b : BeatCtx) :
    (sendRows s b).length = (SendDesc.ofDesc (descOf s.mem b.fire b.word.desc)).rows := by
  simp [sendRows]

theorem sendRows_even (s : State) (b : BeatCtx) :
    ∀ r ∈ sendRows s b, r.2.length = (SendDesc.ofDesc (descOf s.mem b.fire b.word.desc)).bytes := by
  intro r hr
  obtain ⟨i, -, rfl⟩ := List.mem_map.mp hr
  simp [Memory.readBytes]

/-- The transfer of a SEND. -/
def sendQueued (s : State) (b : BeatCtx) (peer : Nat) : QueuedSend :=
  let d := SendDesc.ofDesc (descOf s.mem b.fire b.word.desc)
  { stave := 13, core := 0, key := s.sched.nextKey, peer := peer, window := d.window, svc := d.svc, pairs := d.pairs,
    runs := sendRows s b }

theorem sendBody_of_outside (outside : sendPeer s (SendDesc.ofDesc (descOf s.mem b.fire b.word.desc)) = none) (key : Nat) :
    sendBody b key (fired linkUnit b s) =
      strikePeer 13 0xFFFF b.bar b.word.desc (SendDesc.ofDesc (descOf s.mem b.fire b.word.desc)) (fired linkUnit b s) := by
  have same : sendPeer (fired linkUnit b s) = sendPeer s := rfl
  simp only [sendBody, fired_mem, same, outside]

theorem sendBody_of_free {peer : Nat} {x : BitVec 7}
    (inside : sendPeer s (SendDesc.ofDesc (descOf s.mem b.fire b.word.desc)) = some peer) (free : freeTag s = some x) :
    sendBody b s.sched.nextKey (fired linkUnit b s) = sendUnder x (sendQueued s b peer) (fired linkUnit b s) := by
  have same : sendPeer (fired linkUnit b s) = sendPeer s := rfl
  have tag : freeTag (fired linkUnit b s) = some x := free
  simp only [sendBody, fired_mem, same, inside, startSend, tag]
  rfl

theorem sendBody_of_full {peer : Nat}
    (inside : sendPeer s (SendDesc.ofDesc (descOf s.mem b.fire b.word.desc)) = some peer) (full : freeTag s = none) :
    sendBody b s.sched.nextKey (fired linkUnit b s) = setPhase linkUnit s.sched.nextKey .paused { fired linkUnit b s with
      fabric := { s.fabric with queued := s.fabric.queued ++ [sendQueued s b peer] } } := by
  have same : sendPeer (fired linkUnit b s) = sendPeer s := rfl
  have tag : freeTag (fired linkUnit b s) = none := full
  simp only [sendBody, fired_mem, same, inside, startSend, tag]
  rfl

end

/-- A transfer of at least one byte: what is sent, and the stroke's phase after it. -/
theorem sendUnder_eq {q : QueuedSend} {s : State} {x : BitVec 7} (link : q.stave = 13)
    (some_ : 0 < (q.runs.map fun r => r.2.length).sum) (free : ∀ y ∈ s.fabric.sends, y.xtag ≠ x) :
    let n := (q.runs.map fun r => r.2.length).sum
    let new : SendState := { xtag := x, stave := q.stave, core := q.core, key := q.key, peer := q.peer, window := q.window,
                             bytes := n, acked := 0, flits := (flitsOf q).length }
    let t := openSend x q n s
    let r := sendBytes q.peer q.window x q.svc q.pairs 0 (flitsOf q) { t with fabric := { t.fabric with sends := s.fabric.sends ++ [new] } }
    sendUnder x q s = if flitsWait r x then setPhase linkUnit q.key .paused r else r :=
  (sendUnder_link link some_).trans (sendRuns_eq linkUnit free _)

/-- A transfer to another device changes what is sent alone. -/
theorem sendUnder_of_peer {q : QueuedSend} {s : State} {x : BitVec 7} (link : q.stave = 13)
    (some_ : 0 < (q.runs.map fun r => r.2.length).sum) (free : ∀ y ∈ s.fabric.sends, y.xtag ≠ x) (far : q.peer ≠ s.self) :
    let t := sendUnder x q s
    t.mem = s.mem ∧ t.fabric.nextXtag = x + 1 ∧ t.sched = s.sched ∧
    t.fabric.sends = s.fabric.sends ++ [{ xtag := x, stave := q.stave, core := q.core, key := q.key, peer := q.peer,
                                          window := q.window, bytes := (q.runs.map fun r => r.2.length).sum, acked := 0, flits := (flitsOf q).length }] := by
  intro t
  have whole := sendUnder_eq link some_ free
  simp only at whole
  set before : State := { openSend x q (q.runs.map fun r => r.2.length).sum s with fabric := _ } with hb
  obtain ⟨off, transfers⟩ := sendBytes_of_peer (s := before) (wi := q.window) (xtag := x) (svc := q.svc) (pairs := q.pairs)
    (peer := q.peer) far 0 (flitsOf q)
  set r := sendBytes q.peer q.window x q.svc q.pairs 0 (flitsOf q) before
  have mem : r.mem = s.mem := (congrArg State.mem off :)
  have sched : r.sched = s.sched := (congrArg State.sched off :)
  have tag : r.fabric.nextXtag = x + 1 := (congrArg Fabric.nextXtag transfers :)
  have sends : r.fabric.sends = before.fabric.sends := (congrArg Fabric.sends transfers :)
  have same : t.mem = r.mem ∧ t.fabric = r.fabric ∧ t.sched = r.sched := by
    rw [show t = _ from whole]
    split <;> exact ⟨rfl, rfl, rfl⟩
  obtain ⟨hm, hf, hs⟩ := same
  exact ⟨hm.trans mem, by rw [hf, tag], hs.trans sched, by rw [hf, sends]⟩

/-! ## A flit that leaves at once -/

section
variable {p : Nat} {s : State} {w : Nat × BitVec 6 × Flit}

theorem readyClasses_one {q : Port} (waits : q.waitTx = [w]) (small : serviceClass w.2.2 < 20) (may : maySend q w.2.2 = true) :
    readyClasses q = [serviceClass w.2.2] := by
  have one : (fun c => q.waitTx.any fun x => serviceClass x.2.2 == c && maySend q x.2.2) = fun c => serviceClass w.2.2 == c := by
    funext c
    simp [waits, may]
  rw [readyClasses, one]
  generalize serviceClass w.2.2 = c at small
  revert c
  decide

theorem nextClass_one {q : Port} (ready : readyClasses q = [serviceClass w.2.2]) :
    ∃ fresh, nextClass s q = some (serviceClass w.2.2, fresh) := by
  simp only [nextClass, ready]
  split
  · exact ⟨_, rfl⟩
  · cases found : [serviceClass w.2.2].find? fun x => decide (servedOf q x < classWeight s x) with
    | none => exact ⟨true, rfl⟩
    | some y =>
      have only : y = serviceClass w.2.2 := by simpa using List.mem_of_find?_eq_some found
      exact ⟨false, by rw [only]⟩

/-- What service counts at a port leaves the port as it was, but for the counts. -/
theorem countServed_rest (c : Nat) (fresh : Bool) (q : Port) :
    (countServed c fresh q).txSeq = q.txSeq ∧ lastReceived (countServed c fresh q) = lastReceived q ∧
    (countServed c fresh q).owed = q.owed := by
  unfold countServed
  (repeat' split) <;> exact ⟨rfl, rfl, rfl⟩

/-- The one flit that waits at a port leaves where it may be sent. -/
theorem flush_one (waits : (s.port p).waitTx = [w]) (small : serviceClass w.2.2 < 20) (may : maySend (s.port p) w.2.2 = true) :
    let q := s.port p
    (flush p s).out = s.out ++ [.flit p { w.2.2 with seq := q.txSeq, ack := lastReceived q, credVc := (q.owed.headD (0, 0)).1,
                                                     credN := BitVec.ofNat 8 (min (q.owed.headD (0, 0)).2 255) }] := by
  intro q
  have there : p < s.fabric.ports.length := by
    refine Nat.lt_of_not_le fun beyond => ?_
    have reset : s.port p = Port.reset := by
      rw [State.port, List.getD_eq_getElem?_getD, List.getElem?_eq_none beyond]
      rfl
    rw [reset] at waits
    exact absurd waits nofun
  obtain ⟨fresh, next⟩ := nextClass_one (s := s) (readyClasses_one waits small may)
  have first : q.waitTx.findIdx? (fun x => serviceClass x.2.2 == serviceClass w.2.2 && maySend q x.2.2) = some 0 := by
    rw [show q.waitTx = [w] from waits]
    simp [show maySend q w.2.2 = true from may]
  set served := s.updPort p fun x => countServed (serviceClass w.2.2) fresh { x with waitTx := x.waitTx.eraseIdx 0 } with hserved
  have sent : flush p s = transmitNow p w served := by
    rw [flush, waits, List.length_singleton]
    simp only [sendWaiting, next]
    rw [show (s.port p).waitTx.findIdx? (fun x => serviceClass x.2.2 == serviceClass w.2.2 && maySend (s.port p) x.2.2) = some 0 from first]
    simp only [waits, List.getElem?_cons_zero]
    rfl
  obtain ⟨seq, ack, owed⟩ := countServed_rest (serviceClass w.2.2) fresh { q with waitTx := q.waitTx.eraseIdx 0 }
  have port : served.port p = countServed (serviceClass w.2.2) fresh { q with waitTx := q.waitTx.eraseIdx 0 } :=
    port_updPort_same s _ there
  rw [sent]
  change s.out ++ [.flit p _] = _
  simp only [port, seq, ack, owed]
  rfl

/-- A flit stays where it may not be sent. -/
theorem flush_of_blocked (waits : (s.port p).waitTx = [w]) (may : maySend (s.port p) w.2.2 = false) : flush p s = s := by
  have ready : readyClasses (s.port p) = [] := by simp [readyClasses, waits, may]
  rw [flush, waits, List.length_singleton]
  simp only [sendWaiting, nextClass, ready]

/-- A flit at a port where none waits goes out where it may be sent. -/
theorem transmit_out {f : Flit} (inPort : Nat) (vc : BitVec 6) (there : p < s.fabric.ports.length) (idle : (s.port p).waitTx = [])
    (small : serviceClass f < 20) (may : maySend (s.port p) f = true) :
    ∃ g, (transmit p inPort vc f s).out = s.out ++ [.flit p g] ∧ g.kind = f.kind ∧ g.vc = f.vc ∧ g.seq = (s.port p).txSeq ∧
      g.dest = f.dest ∧ g.payload = f.payload := by
  have port : (s.updPort p fun x => { x with waitTx := x.waitTx ++ [(inPort, vc, f)] }).port p =
      { s.port p with waitTx := [(inPort, vc, f)] } := by
    rw [port_updPort_same s _ there, idle, List.nil_append]
  have out := flush_one (p := p) (s := s.updPort p fun x => { x with waitTx := x.waitTx ++ [(inPort, vc, f)] }) (w := (inPort, vc, f))
    (by rw [port]) small (by rw [port]; exact may)
  rw [port] at out
  exact ⟨_, out, rfl, rfl, rfl, rfl, rfl⟩

end

/-- The route of a flit of this device whose hop is up. -/
theorem routeFlit_of_hop {s : State} {f : Flit} {dim p pair : Nat} {minus : Bool} (inside : insideExtents s f.dest.toNat = true)
    (hop : nextHop s f.dest.toNat = some (dim, minus)) (port : hopPort s dim minus pair = some p) :
    routeFlit 16 pair f s = transmit p 16 f.vc { f with vc := hopVc s none dim minus f.vc } s := by
  rw [routeFlit, routeFrom, if_neg (by simp [inside])]
  simp only [hop, port]
  rfl

/-- A hop keeps the channel of a flit but for its dateline class. -/
theorem serviceClass_hop {svc : Nat} (channel : svc < 2) (s : State) (dim : Nat) (minus : Bool) (f : Flit)
    (vc : f.vc = hopVc s none dim minus (BitVec.ofNat 6 (2 + svc))) : serviceClass f = 2 := by
  have low : f.vc.toNat % 32 = 2 + svc := by
    rw [vc, hopVc]
    simp only [BitVec.toNat_ofNat]
    split <;> omega
  rw [serviceClass, low]
  split <;> omega

theorem hopPort_there {s : State} {dim p pair : Nat} {minus : Bool} (port : hopPort s dim minus pair = some p) :
    p < s.fabric.ports.length := by
  have up : portUp s p = true := by
    unfold hopPort at port
    split at port
    case isTrue up => exact Option.some.inj port ▸ up
    case isFalse =>
      split at port
      case isTrue up => exact Option.some.inj port ▸ up
      case isFalse => exact absurd port nofun
  refine Nat.lt_of_not_le fun beyond => ?_
  have reset : s.port p = Port.reset := by
    rw [State.port, List.getD_eq_getElem?_getD, List.getElem?_eq_none beyond]
    rfl
  simp [portUp, reset, Port.reset] at up

/-- The one flit of a small send leaves by its port. -/
theorem sendUnder_out {q : QueuedSend} {s : State} {x : BitVec 7} {ofs : Nat} {bs : List Byte} {dim p : Nat} {minus : Bool}
    (link : q.stave = 13) (one : q.runs = [(ofs, bs)]) (some_ : 1 ≤ bs.length) (small : bs.length ≤ 236)
    (free : ∀ y ∈ s.fabric.sends, y.xtag ≠ x) (far : q.peer ≠ s.self) (named : q.peer < 2 ^ 14) (channel : q.svc < 2)
    (inside : insideExtents s q.peer = true) (hop : nextHop s q.peer = some (dim, minus))
    (port : hopPort s dim minus (sendPair q.pairs 0) = some p) (idle : (s.port p).waitTx = [])
    (room : (s.port p).replay.length < 64) (credit : (s.port p).credits = []) :
    ∃ g, (sendUnder x q s).out = s.out ++ [.flit p g] ∧ g.kind = .send ∧ g.seq = (s.port p).txSeq ∧ g.dest.toNat = q.peer ∧
      g.payload = bs := by
  have bytes : (q.runs.map fun r => r.2.length).sum = bs.length := by simp [one]
  have whole := sendUnder_eq link (by rw [bytes]; exact some_) free
  simp only at whole
  set before : State := { openSend x q (q.runs.map fun r => r.2.length).sum s with fabric := _ } with hb
  have flits : flitsOf q = [(ofs, bs)] := by
    simp only [flitsOf, one, List.flatMap_cons, List.flatMap_nil, List.append_nil]
    exact cutFlits_one some_ small
  have dest : (sendFlit q.peer q.window x q.svc ofs bs).dest.toNat = q.peer := by
    simp only [sendFlit, BitVec.toNat_ofNat]
    exact Nat.mod_eq_of_lt named
  rw [flits, sendBytes_cons_of_peer (s := before) far,
    routeFlit_of_hop (s := before) (by rw [dest]; exact inside) (by rw [dest]; exact hop) port] at whole
  set f := { sendFlit q.peer q.window x q.svc ofs bs with
    vc := hopVc before none dim minus (sendFlit q.peer q.window x q.svc ofs bs).vc } with hf
  have may : maySend (before.port p) f = true := by
    have none_ : (before.port p).credits = [] := credit
    have few : (before.port p).replay.length < 64 := room
    simp [maySend, none_, countOf, few]
  obtain ⟨g, out, kind, -, seq, gdest, payload⟩ := transmit_out (s := before) (p := p) (f := f) 16
    (sendFlit q.peer q.window x q.svc ofs bs).vc (hopPort_there port) idle
    (by rw [serviceClass_hop channel before dim minus f rfl]; decide) may
  refine ⟨g, ?_, kind, seq, by rw [gdest, dest], payload⟩
  rw [whole]
  split
  · exact out
  · exact out

/-! ## RECV -/

section
variable {b : BeatCtx} {s : State}

theorem exec_recv_of_due (due : Due s linkUnit 0x11 b) :
    exec .recv s = .next (recvBody b s.sched.nextKey (fired linkUnit b s)) :=
  congrArg Host.Outcome.next (run_due (credit := noStream) _ due rfl)

theorem recvBody_of_open (key : Nat) (open_ : (slotAt s.fabric.windows (recvWindow s.mem b.fire b.word.desc)).isSome = true) :
    recvBody b key (fired linkUnit b s) = setPhase linkUnit key .paused (fired linkUnit b s) := by
  have same : (fired linkUnit b s).fabric = s.fabric := rfl
  simp only [recvBody, fired_mem, same, open_, Bool.true_or, if_true]

/-- Firing puts the stroke behind those in flight. -/
theorem fired_inflight (chips : s.chips.length = 4) :
    ((fired linkUnit b s).unit linkUnit).inflight = (s.unit linkUnit).inflight ++ [firedFlight b s] := by
  have fires : (fired linkUnit b s).unit linkUnit = (s.unit linkUnit).fires b (firedFlight b s) :=
    (unit_fired linkUnit linkUnit b).trans (unit_updUnit_chip_same s 13 _ (by rw [chips]; decide))
  rw [fires, UnitState.fires, afterStroke]
  split <;> rfl

/-- No RECV has fired before the one that fires, where none is in flight. -/
theorem recvBefore_fired (chips : s.chips.length = 4) (none_ : ∀ i ∈ (s.unit linkUnit).inflight, i.op ≠ 0x11) (wi : Nat) :
    recvBefore (fired linkUnit b s) wi s.sched.nextKey = false := by
  rw [recvBefore, fired_inflight chips]
  refine List.any_eq_false.mpr fun i hi => ?_
  have differs : i.key ≠ s.sched.nextKey := by simpa using List.mem_takeWhile_imp hi
  rcases List.mem_append.mp (List.takeWhile_subset _ hi) with old | new
  · simpa using fun recv => absurd recv (none_ i old)
  · exact absurd (by rw [List.mem_singleton.mp new]; rfl) differs

theorem recvBody_of_closed (key : Nat) (closed : slotAt s.fabric.windows (recvWindow s.mem b.fire b.word.desc) = none)
    (first : recvBefore (fired linkUnit b s) (recvWindow s.mem b.fire b.word.desc) key = false) :
    recvBody b key (fired linkUnit b s) =
      openWindow (recvWindow s.mem b.fire b.word.desc) (windowFor s b.fire b.word.desc key) (fired linkUnit b s) := by
  have same : (fired linkUnit b s).fabric = s.fabric := rfl
  simp only [recvBody, fired_mem, same, closed, first, Option.isSome_none, Bool.or_self, Bool.false_eq_true, if_false]
  rfl

/-- A window opens where no flit waits for it. -/
theorem openWindow_of_none {t : State} (none_ : t.fabric.waiting = []) (wi : Nat) (w : Window) :
    let r := openWindow wi w t
    r.fabric.windows = updAt t.fabric.windows wi (fun _ => some w) ∧ r.mem = t.mem ∧ r.out = t.out ∧ r.chips = t.chips ∧
      r.cores = t.cores := by
  have quiet (u : State) (none_ : u.fabric.waiting = []) : offerWaiting u = u := by
    rw [offerWaiting, none_]
    rfl
  cases current : t.sched.current with
  | none =>
    simp only [openWindow, current]
    rw [quiet]
    exacts [⟨rfl, rfl, rfl, rfl, rfl⟩, none_]
  | some id =>
    simp only [openWindow, current]
    rw [quiet]
    exacts [⟨rfl, rfl, rfl, rfl, rfl⟩, none_]

/-! ## COLL -/

theorem exec_coll_of_due (due : Due s linkUnit 0x12 b) :
    exec .coll s = .next (collBody b s.sched.nextKey (fired linkUnit b s)) :=
  congrArg Host.Outcome.next (run_due (credit := collCredit) _ due rfl)

theorem startCheck_of_begun {t : State} {tag : Nat} {g : Group} (group : t.group tag = some g)
    (begun : g.checked = true ∨ (g.coll 0).isSome = true) : startCheck tag t = t := by
  simp only [startCheck, group]
  exact if_pos (by simpa using begun)

theorem collBody_of_begun {t : State} {key tag : Nat} {g : Group} (quiet : t.sched.parks = [])
    (named : (scGroups t.mem b.fire.score).getD (fld (descOf t.mem b.fire b.word.desc) 16 13) 0 = tag)
    (group : t.group tag = some g) (begun : g.checked = true ∨ (g.coll 0).isSome = true) :
    let waits := takeEarly tag g.nextSeq (t.updGroup tag fun y =>
      { y with nextSeq := if g.nextSeq = 65535 then 1 else g.nextSeq + 1,
               colls := y.colls ++ [collectiveFor t b.fire b.word.desc key g.nextSeq] })
    collBody b key t = if g.checked then startColl tag g.nextSeq waits else waits := by
  have calm : strikePending t = false := by simp [strikePending, quiet]
  simp only [collBody, named, startCheck_of_begun group begun, calm, Bool.false_eq_true, if_false, group]
  rfl

end

/-- Settles O44: what each stroke of the link unit does as it fires, by whether a tag, the peer, the window or the group is there. -/
theorem linkStrokesStartTheirTransfers : Obligations.LinkStrokesStartTheirTransfers := by
  unfold Obligations.LinkStrokesStartTheirTransfers
  intro b s chips f key F w d base wi dst win tag
  refine ⟨fun due outside => ?_, fun peer x due inside far rows bytes free => ?_, fun peer due inside full => ?_,
    fun x free => freeTag_free free, fun peer dim minus p x due inside far named one some_ small within hop port idle room credit free => ?_,
    fun due closed none_ => ?_, fun due open_ => ?_, fun g due group begun => ?_⟩
  · exact (exec_send_of_due due).trans (congrArg Host.Outcome.next (sendBody_of_outside outside key))
  · refine nextWith_next ((exec_send_of_due due).trans (congrArg Host.Outcome.next (sendBody_of_free inside free))) ?_
    have total : ((sendRows s b).map fun r => r.2.length).sum = d.rows * d.bytes := by
      rw [sum_length _ (sendRows_even s b), sendRows_length]
    have flits : (flitsOf (sendQueued s b peer)).length = d.rows * ceilDiv d.bytes 236 :=
      (flatMap_cutFlits_length _ (sendRows_even s b)).trans (by rw [sendRows_length])
    obtain ⟨mem, tags, sched, sends⟩ := sendUnder_of_peer (q := sendQueued s b peer) (s := fired linkUnit b s) rfl
      (by rw [show (sendQueued s b peer).runs = sendRows s b from rfl, total]; exact Nat.mul_pos rows bytes) (freeTag_free free) far
    refine ⟨mem, tags, sched, sends.trans ?_⟩
    rw [flits, show (sendQueued s b peer).runs = sendRows s b from rfl, total]
    rfl
  · exact (exec_send_of_due due).trans (congrArg Host.Outcome.next (sendBody_of_full inside full))
  · refine nextWith_next ((exec_send_of_due due).trans (congrArg Host.Outcome.next (sendBody_of_free inside free))) ?_
    have runs : (sendQueued s b peer).runs = [(d.remoteOfs + 0 * d.dstRow, s.mem.readBytes (base + 0 * d.srcRow) d.bytes)] := by
      change sendRows s b = _
      rw [sendRows, show (SendDesc.ofDesc (descOf s.mem b.fire b.word.desc)).rows = 1 from one]
      rfl
    have length : (s.mem.readBytes (base + 0 * d.srcRow) d.bytes).length = d.bytes := by simp [Memory.readBytes]
    obtain ⟨g, out, kind, seq, dest, payload⟩ := sendUnder_out (q := sendQueued s b peer) (s := fired linkUnit b s) rfl runs
      (by rw [length]; exact some_) (by rw [length]; exact small) (freeTag_free free) far named
      (Nat.mod_lt _ (by decide)) within hop port idle room credit
    exact ⟨g, out, kind, seq, dest, payload.trans (by rw [Nat.zero_mul, Nat.add_zero])⟩
  · have opens : exec .recv s = .next (openWindow wi win F) :=
      (exec_recv_of_due due).trans (congrArg Host.Outcome.next (recvBody_of_closed key closed (recvBefore_fired chips none_ wi)))
    exact ⟨opens, fun calm => nextWith_next opens (openWindow_of_none (t := F) calm wi win)⟩
  · exact (exec_recv_of_due due).trans (congrArg Host.Outcome.next (recvBody_of_open key open_))
  · exact (exec_coll_of_due due).trans (congrArg Host.Outcome.next
      (collBody_of_begun (t := F) (key := key) due.parks rfl group begun))

end Sys2Proof.Machine
end

section
/-! PROOFS. The codec: frames queued for an engine, engines that switch, and what a unit of a stream becomes. -/
namespace Sys2Proof.Machine

/-! ## The codec's strokes -/

section
variable {e : Engine} {b : BeatCtx} {s : State}

/-- A codec stroke strikes its job (R373). -/
def codecStruck (source : Nat) (cause : Status) (b : BeatCtx) (t : State) : State :=
  strikeRunning cause 3 (detailPlace 14 0xFF 0xFFFF b.bar b.word.desc 0 0xFF) (logError source 1 .struck (runningFn t) 14 0xFFFF b.bar t)

theorem exec_frame_of_due (due : Due s codecUnit (if e = .encoder then 0x10 else 0x11) b) :
    exec (if e = .encoder then Instr.encFrame else Instr.decFrame) s =
      .next (codecBody e b s.sched.nextKey (fired codecUnit b s)) := by
  cases e with
  | encoder => exact congrArg Host.Outcome.next (run_due (credit := noStream) _ due rfl)
  | decoder => exact congrArg Host.Outcome.next (run_due (credit := noStream) _ due rfl)

theorem codecBody_of_fenced (key : Nat) (fenced : (s.engine e).fenced = true) :
    codecBody e b key s = codecStruck 0x42 .state b s := by
  rw [codecBody, if_pos fenced]
  rfl

theorem codecBody_of_failed {x : Session} (key : Nat) (fenced : (s.engine e).fenced = false)
    (session : s.session (fld (descOf s.mem b.fire b.word.desc) 31 26) = some x) (failed : x.failed = true) :
    codecBody e b key s = codecStruck 0x11 .channelRetired b s := by
  rw [codecBody, if_neg (by simp [fenced]), if_pos (by simp [session, failed])]
  rfl

theorem codecBody_of_unfit (key : Nat) (fenced : (s.engine e).fenced = false)
    (sound : ∀ x, s.session (fld (descOf s.mem b.fire b.word.desc) 31 26) = some x → x.failed = false)
    (unfit : sessionFits s b.job (e == .decoder) (descOf s.mem b.fire b.word.desc) = false) :
    codecBody e b key s = codecStruck 0x39 .invalid b s := by
  have notFailed : ¬ ((s.session (fld (descOf s.mem b.fire b.word.desc) 31 26)).map (·.failed) == some true) = true := by
    cases session : s.session (fld (descOf s.mem b.fire b.word.desc) 31 26) with
    | none => simp
    | some x => simp [sound x session]
  rw [codecBody, if_neg (by simp [fenced]), if_neg notFailed, if_pos (by simp [unfit])]
  rfl

theorem codecBody_of_fit {x : Session} (key : Nat) (fenced : (s.engine e).fenced = false)
    (session : s.session (fld (descOf s.mem b.fire b.word.desc) 31 26) = some x) (sound : x.failed = false)
    (fits : sessionFits s b.job (e == .decoder) (descOf s.mem b.fire b.word.desc) = true) :
    codecBody e b key s = s.updEngine e fun g =>
      { g with queue := g.queue ++ [{ session := fld (descOf s.mem b.fire b.word.desc) 31 26, key := key,
                                      desc := descOf s.mem b.fire b.word.desc, job := b.job.id }] } := by
  rw [codecBody, if_neg (by simp [fenced]), if_neg (by simp [session, sound]), if_neg (by simp [fits])]

theorem sessionFits_of_none {j : Job} {decode : Bool} {d : Desc} (none_ : s.session (fld d 31 26) = none) :
    sessionFits s j decode d = false := by
  simp only [sessionFits, none_]

end

/-! ## A frame that is served -/

section
variable {e : Engine} {q : FrameJob} {rest : List FrameJob} {j : Job} {x : Session} {s : State}

theorem serveFrame_of_none (none_ : (s.engine e).queue = []) : serveFrame e s = s := by
  simp only [serveFrame, none_]

/-- The state in which a frame is served: it has left the queue, and its session is loaded. -/
def loadedFor (e : Engine) (q : FrameJob) (rest : List FrameJob) (x : Session) (s : State) : State :=
  loadEngine e q.session x (s.updEngine e fun g => { g with queue := rest })

theorem serveFrame_of_first (first : (s.engine e).queue = q :: rest) (job : s.job q.job = some j)
    (session : s.session q.session = some x) :
    let t := loadedFor e q rest x s
    let k := (t.engine e).loaded.getD x.coding
    let i := inflightOf t codecUnit q.key
    serveFrame e s = doneStroke codecUnit q.key (
      if x.decode then decodeFrame j ((i.map (·.bar)).getD noDesc) ((i.map (·.desc)).getD noDesc) x k (DecDesc.ofDesc q.desc) t
      else encodeFrame j x k (EncDesc.ofDesc q.desc) t) := by
  have sameJob : (s.updEngine e fun g => { g with queue := rest }).job q.job = some j := by
    cases e <;> exact job
  have session : (s.updEngine e fun g => { g with queue := rest }).session q.session = some x := by
    cases e <;> exact session
  simp only [serveFrame, first, sameJob, session]
  rfl

/-- What an encoder makes of a frame. -/
def madeOf (x : Session) (k : Coding) (d : EncDesc) (planes : List (Plane Nat)) : List Nat × List Byte :=
  encodeBytes x k planes.flatten (keyFrame x k d.forceKey) d.last

/-- The report of an encoded frame (R372). -/
def encodeReport (x : Session) (k : Coding) (d : EncDesc) (p : List (Plane Nat) × Nat × Nat) (status : Nat) : Report :=
  { status := status,
    ftype := if keyFrame x k d.forceKey then 0
      else 1 + Config.encodeType x.params k.token p.1.flatten (keyFrame x k d.forceKey) d.last % 2,
    shown := false, bytes := (madeOf x k d p.1).2.length, frameNum := k.frames, nans := p.2.1, clamps := p.2.2, work := 0, budget := 0,
    errOfs := 0 }

/-- The session's state after a frame is encoded. -/
def encodedCoding (x : Session) (k : Coding) (d : EncDesc) (planes : List (Plane Nat)) : Coding :=
  { k with frames := k.frames + 1, keys := (madeOf x k d planes).1,
           token := Config.encodeState x.params k.token planes.flatten (keyFrame x k d.forceKey) d.last }

theorem encodeFrame_eq (j : Job) (x : Session) (k : Coding) (d : EncDesc) (t : State) :
    let f := frameFire t j
    let p := preprocess t.mem (bufAddr t.mem f d.inBuf d.inOfs) d x
    let bs := (madeOf x k d p.1).2
    encodeFrame j x k d t = unitWrite 14
      (if decide (bs.length ≤ d.outSize) then commitFrame x (encodedCoding x k d p.1) (unitWrite 14 t (bufAddr t.mem f d.outBuf d.outOfs) bs)
       else t)
      (bufAddr t.mem f d.repBuf d.repOfs)
      (reportBytes (encodeReport x k d p (if decide (bs.length ≤ d.outSize) then 0 else 2))) := rfl

theorem encodeFrame_of_fits {k : Coding} {d : EncDesc} {t : State} :
    let f := frameFire t j
    let p := preprocess t.mem (bufAddr t.mem f d.inBuf d.inOfs) d x
    let bs := (madeOf x k d p.1).2
    bs.length ≤ d.outSize →
    encodeFrame j x k d t = unitWrite 14
      (commitFrame x (encodedCoding x k d p.1) (unitWrite 14 t (bufAddr t.mem f d.outBuf d.outOfs) bs))
      (bufAddr t.mem f d.repBuf d.repOfs) (reportBytes (encodeReport x k d p 0)) := by
  intro f p bs fits
  rw [encodeFrame_eq, if_pos (decide_eq_true fits), if_pos (decide_eq_true fits)]

theorem encodeFrame_of_overflow {k : Coding} {d : EncDesc} {t : State} :
    let f := frameFire t j
    let p := preprocess t.mem (bufAddr t.mem f d.inBuf d.inOfs) d x
    d.outSize < (madeOf x k d p.1).2.length →
    encodeFrame j x k d t = unitWrite 14 t (bufAddr t.mem f d.repBuf d.repOfs) (reportBytes (encodeReport x k d p 2)) := by
  intro f p beyond
  have not_ : ¬ decide ((madeOf x k d p.1).2.length ≤ d.outSize) = true := by simpa using beyond
  rw [encodeFrame_eq, if_neg not_, if_neg not_]

end

/-! ## A unit of no bytes -/

theorem flushUnit_of_waiting {x : Session} {c : Coding} (some_ : c.waiting ≠ []) :
    ∃ n ∈ c.waiting, (flushUnit x c).planes = ((c.held.find? fun y => y.1 == n).map (·.2)) ∧
      (flushUnit x c).next.waiting = c.waiting.filter fun k => !(n == k) := by
  have next : ∃ n ∈ c.waiting,
      ((Config.decodeFacts x.params c.token []).shown.filter c.waiting.contains).or c.waiting.head? = some n := by
    cases shown : (Config.decodeFacts x.params c.token []).shown.filter c.waiting.contains with
    | some n => exact ⟨n, by simpa using (Option.filter_eq_some_iff.mp shown).2, rfl⟩
    | none => exact ⟨c.waiting.head some_, List.head_mem some_, List.head?_eq_some_head some_⟩
  obtain ⟨n, waits, next⟩ := next
  refine ⟨n, waits, ?_, ?_⟩
  · simp only [flushUnit, next, Option.bind_some]
  · simp only [flushUnit, next]
    exact List.filter_congr fun k _ => by simp [bne]

theorem flushUnit_of_none {x : Session} {c : Coding} (none_ : c.waiting = []) :
    flushUnit x c = { status := 0, planes := none, next := { c with frames := c.frames + 1 } } := by
  have next : ((Config.decodeFacts x.params c.token []).shown.filter c.waiting.contains).or c.waiting.head? = none := by
    rw [none_]
    cases (Config.decodeFacts x.params c.token []).shown <;> rfl
  simp only [flushUnit, next, Option.bind_none, Option.getD_none]
  rw [none_]
  rfl

/-- A unit of no bytes of a session that holds nothing for output. -/
theorem decodeFrame_of_empty {j : Job} {bar descNo : Nat} {x : Session} {k : Coding} {d : DecDesc} {t : State} (none_ : k.waiting = [])
    (empty : d.inBytes = 0) :
    let place := bufAddr t.mem (frameFire t j) d.repBuf d.repOfs
    let u := Config.decodeFacts x.params k.token []
    overlaps place 64 x.ctxAddr x.ctxSize = false →
    decodeFrame j bar descNo x k d t =
      unitWrite 14 (commitFrame x { k with frames := k.frames + 1 } t) place (reportBytes
        { status := 0, ftype := u.ftype % 3, shown := false, bytes := 0, frameNum := k.frames, nans := 0, clamps := 0, work := 0,
          budget := 2 * (u.width * u.height), errOfs := 0xFFFFFFFF }) := by
  intro place u free
  have bytes (a : Nat) : t.mem.readBytes a d.inBytes = [] := by rw [empty]; rfl
  have fits (base cbase : Nat) :
      planesFit x base d.outSize (planeRows base cbase d.stride d.cStride x.bitDepth ((none : Option (List (Plane Nat))).getD [])) = true := rfl
  simp only [decodeFrame, bytes, List.isEmpty_nil, if_true, flushUnit_of_none none_, fits, Bool.and_true]
  rw [show overlaps (bufAddr t.mem (frameFire t j) d.repBuf d.repOfs) 64 x.ctxAddr x.ctxSize = false from free]
  simp only [empty, Bool.not_false, if_true, Nat.min_zero]
  rfl

/-! ## Engines that switch -/

section
variable {e : Engine} {h old : Nat} {x y : Session} {k : Coding} {s : State}

theorem engine_updEngine (f : EngineState → EngineState) : (s.updEngine e f).engine e = f (s.engine e) := by cases e <;> rfl

theorem session_updEngine (f : EngineState → EngineState) (h : Nat) : (s.updEngine e f).session h = s.session h := by cases e <;> rfl

theorem session_updSession {n : Nat} (f : Session → Session) (there : s.session n = some y) :
    (s.updSession n f).session n = some (f y) := by
  change slotAt (updAt s.codec.sessions n (Option.map f)) n = _
  have there : (s.codec.sessions[n]?).getD none = some y := there
  rw [slotAt, updAt, List.getElem?_modify_eq]
  cases found : s.codec.sessions[n]? with
  | none => rw [found] at there; exact absurd there nofun
  | some z =>
    rw [found] at there
    rw [show z = some y from there]
    rfl

theorem writeContext_codec (x : Session) (s : State) : (writeContext x s).codec = s.codec := by
  simp only [writeContext, guardedForget, forgetOutside]
  refine (foldl_field State.codec _ (fun _ _ => forgetRange_codec ..) _ _).trans ?_
  split
  · exact logError_codec ..
  · rfl

theorem loadEngine_of_same (served : (s.engine e).lastServed = some h) (loaded : (s.engine e).loaded = some k) :
    loadEngine e h x s = s := by
  rw [loadEngine, if_pos (by simp [served, loaded])]

/-- A switch of the engine: the state that it served goes to its session. -/
theorem loadEngine_of_other (served : (s.engine e).lastServed = some old) (loaded : (s.engine e).loaded = some k) (other : old ≠ h)
    (session : s.session old = some y) :
    let t := loadEngine e h x s
    t.session old = some { y with coding := k } ∧ (t.engine e).lastServed = some h ∧ (t.engine e).loaded = some x.coding := by
  intro t
  set w := s.updEngine e fun g => { g with lastServed := none, loaded := none } with hw
  have kept : w.session old = some y := (session_updEngine _ _).trans session
  have switched : t = ((writeContext y w).updSession old fun z => { z with coding := k }).updEngine e
      fun g => { g with lastServed := some h, loaded := some x.coding } := by
    change loadEngine e h x s = _
    rw [loadEngine, if_neg (by simp [served, other])]
    simp only [unloadEngine, served, loaded, ← hw, kept]
  rw [switched]
  refine ⟨?_, by rw [engine_updEngine], by rw [engine_updEngine]⟩
  rw [session_updEngine]
  refine session_updSession _ (Eq.trans ?_ kept)
  rw [State.session, writeContext_codec]
  rfl

end

/-! ## Units of a stream -/

section
variable {x : Session} {c : Coding} {bs : List Byte}

/-- A frame that a unit codes, and that the session keeps, is held by its name. -/
theorem held_of_kept {names drops waits : List Nat} {planes : Nat → List (Plane Nat)} {n : Nat} (coded : n ∈ names)
    (kept : n ∉ drops ∨ n ∈ waits) :
    (n, planes n) ∈ (holdFrames c names planes).filter fun y => !(drops.contains y.1) || waits.contains y.1 := by
  refine List.mem_filter.mpr ⟨List.mem_append_right _ (List.mem_map.mpr ⟨n, coded, rfl⟩), ?_⟩
  simpa using kept

theorem decodeUnit_of_damage (header : headerDamaged x (Config.decodeFacts x.params c.token bs) = false)
    (damage : dataDamaged c (Config.decodeFacts x.params c.token bs) bs.length = true) :
    let u := Config.decodeFacts x.params c.token bs
    let r := decodeUnit x c bs
    r.status = 1 ∧ r.planes = some (concealed x c u) ∧
    ∀ n ∈ u.frames, n ∉ u.drops ∨ n ∈ r.next.waiting → (n, concealed x c u) ∈ r.next.held := by
  simp only [decodeUnit, header, damage, Bool.false_eq_true, if_false, if_true]
  exact ⟨trivial, trivial, fun n coded kept => held_of_kept (planes := fun _ => _) coded kept⟩

theorem decodeUnit_of_sound (header : headerDamaged x (Config.decodeFacts x.params c.token bs) = false)
    (sound : dataDamaged c (Config.decodeFacts x.params c.token bs) bs.length = false) :
    let u := Config.decodeFacts x.params c.token bs
    let r := decodeUnit x c bs
    r.status = 0 ∧ (u.shown = none → r.planes = none) ∧
    ∀ n ∈ u.frames, n ∉ u.drops ∨ n ∈ r.next.waiting → (n, Config.decodePlanes x.params c.token c.held bs n) ∈ r.next.held := by
  simp only [decodeUnit, header, sound, Bool.false_eq_true, if_false]
  refine ⟨trivial, fun shown => ?_, fun n coded kept => held_of_kept (planes := Config.decodePlanes x.params c.token c.held bs) coded kept⟩
  rw [shown]
  rfl

end

/-- Settles O45: a frame joins its engine's queue or strikes; the oldest is served in its session's state; and what a unit becomes goes by
where it is damaged. -/
theorem codecFramesAreServedInOrder : Obligations.CodecFramesAreServedInOrder := by
  unfold Obligations.CodecFramesAreServedInOrder
  refine ⟨fun e b s => ?_, fun e h old x y k s served loaded => ⟨fun same => ?_, fun other session => ?_⟩, fun x c bs => ?_, fun x c => ?_⟩
  · intro i op w h F struck
    have fires (due : Due s codecUnit op b) : exec i s = .next (codecBody e b s.sched.nextKey F) := exec_frame_of_due due
    have engine : F.engine e = s.engine e := by cases e <;> rfl
    refine ⟨fun x due free session sound fits => ?_, fun x due free session sound unfit => ?_, fun due fenced => ?_,
      fun x due free session failed => ?_, fun due free none_ => ?_, fun none_ => ?_, fun q rest j x first job session => ?_⟩
    · exact (fires due).trans (congrArg Host.Outcome.next (codecBody_of_fit (s := F) _ (by rw [engine]; exact free) session sound fits))
    · exact (fires due).trans (congrArg Host.Outcome.next (codecBody_of_unfit (s := F) _ (by rw [engine]; exact free)
        (fun y hy => by rw [← Option.some.inj (session.symm.trans hy)]; exact sound) unfit))
    · exact (fires due).trans (congrArg Host.Outcome.next (codecBody_of_fenced (s := F) _ (by rw [engine]; exact fenced)))
    · exact (fires due).trans (congrArg Host.Outcome.next
        (codecBody_of_failed (s := F) _ (by rw [engine]; exact free) session failed))
    · exact (fires due).trans (congrArg Host.Outcome.next (codecBody_of_unfit (s := F) _ (by rw [engine]; exact free)
        (fun y hy => absurd (none_.symm.trans hy) nofun) (sessionFits_of_none none_)))
    · exact congrArg Host.Outcome.next (serveFrame_of_none none_)
    · intro t k f ends
      have served := serveFrame_of_first first job session
      refine ⟨fun encode => ?_, fun decode => ?_, fun decode idle => ?_⟩
      · intro d p key made bs rep place next
        have made_ : exec (.codecFrameDone e) s = ends (encodeFrame j x k d t) := by
          refine congrArg Host.Outcome.next (served.trans ?_)
          rw [if_neg (by simp [encode])]
          rfl
        exact ⟨fun fits => made_.trans (congrArg ends (encodeFrame_of_fits fits)),
          fun beyond => made_.trans (congrArg ends (encodeFrame_of_overflow beyond))⟩
      · refine congrArg Host.Outcome.next (served.trans ?_)
        rw [if_pos decode]
        rfl
      · intro d place u empty free
        refine congrArg Host.Outcome.next (served.trans (congrArg (doneStroke codecUnit q.key) ?_))
        rw [if_pos decode]
        exact decodeFrame_of_empty idle empty free
  · exact loadEngine_of_same (same ▸ served) loaded
  · exact loadEngine_of_other served loaded other session
  · refine ⟨fun header => ?_, fun header damage => decodeUnit_of_damage header damage, fun header sound => decodeUnit_of_sound header sound⟩
    rw [decodeUnit, if_pos header]
  · refine ⟨rfl, rfl, rfl, fun none_ => ?_, flushUnit_of_waiting⟩
    rw [flushUnit_of_none none_]

end Sys2Proof.Machine
end

section
/-! PROOFS. A job from its input digests to its HALT. -/
namespace Sys2Proof.Machine

/-! ## Jobs by their number -/

section
variable {s : State} {id k : Nat} {j : Job} {f : Job → Job}

theorem job_id (job : s.job id = some j) : j.id = id := by simpa using List.find?_some job

theorem job_updJob (keeps : ∀ x, (f x).id = x.id) : (s.updJob id f).job k = (s.job k).map fun x => if x.id = id then f x else x := by
  have same : ((fun x => x.id == k) ∘ fun x => if x.id = id then f x else x) = fun x => x.id == k := by
    funext x
    simp only [Function.comp]
    split
    · rw [keeps]
    · rfl
  simp only [State.job, State.updJob, List.find?_map, same]

theorem job_updJob_same (keeps : ∀ x, (f x).id = x.id) (job : s.job id = some j) : (s.updJob id f).job id = some (f j) := by
  rw [job_updJob keeps, job, Option.map_some, if_pos (job_id job)]

theorem current_of_job (current : s.currentJob = some j) : s.sched.current = some j.id ∧ s.job j.id = some j := by
  obtain ⟨id, current, job⟩ := Option.bind_eq_some_iff.mp current
  rw [job_id job]
  exact ⟨current, job⟩

end

/-! ## The input digests -/

section
variable {s : State} {j : Job}

/-- The input digests of the running job can stand. -/
def DigestsStand (s : State) (j : Job) : Prop :=
  j.stage = .digesting ∧ s.sched.downbeat = false ∧ onSuspended s (digestRuns s j 2) = false ∧ noRefill s j = true

theorem exec_inputDigestsDone_of_stand (current : s.currentJob = some j) (stand : DigestsStand s j) :
    exec .inputDigestsDone s = .next (beginTurn j (scFirstBar s.mem (s.scoreAddr j) j.entry) (List.replicate 4 LoopLevel.closed)
      (s.updJob j.id fun x => { x with inputs := bufferDigests s j 2, stepDigest := stepTableDigest s j })) := by
  obtain ⟨stage, beat, reads, refill⟩ := stand
  change execInputDigestsDone s = _
  simp only [execInputDigestsDone, current]
  rw [if_pos (by simp [stage, beat, reads, refill])]

theorem exec_inputDigestsDone_of_waits (current : s.currentJob = some j) (waits : ¬ DigestsStand s j) :
    exec .inputDigestsDone s = .next s := by
  change execInputDigestsDone s = _
  simp only [execInputDigestsDone, current]
  rw [if_neg (by simpa [DigestsStand, and_assoc] using waits)]

/-- A turn begins at a bar: the job runs, and its chip units stand before the bar. -/
theorem beginTurn_begins (job : s.job j.id = some j) (bar : Nat) (loops : List LoopLevel) (a : List (Nat × Nat × Digest)) (d : Digest) :
    let t := beginTurn j bar loops (s.updJob j.id fun x => { x with inputs := a, stepDigest := d })
    t.mem = s.mem ∧ (∀ c ∈ t.chips, c = unitAtBar bar loops) ∧ t.sched.current = some j.id ∧
    ∃ k, t.job j.id = some k ∧ k.stage = .running ∧ k.inputs = a ∧ k.stepDigest = d ∧ k.runSince = s.time := by
  intro t
  refine ⟨rfl, fun c hc => ?_, rfl, ?_⟩
  · obtain ⟨-, -, rfl⟩ := List.mem_map.mp hc
    rfl
  · have digested := job_updJob_same (f := fun x => { x with inputs := a, stepDigest := d }) (fun _ => rfl) job
    set r := s.updJob j.id fun x => { x with inputs := a, stepDigest := d } with hr
    have begun := job_updJob_same (s := { dropTiles r with sched := { r.sched with layout := layoutAt (dropTiles r) j bar, current := some j.id } })
      (f := fun y => { y with stage := .running, layout := layoutAt (dropTiles r) j bar }) (fun _ => rfl) digested
    exact ⟨_, job_updJob_same (f := fun x => { x with runSince := r.time }) (s := beginKernel j bar loops (dropTiles r)) (fun _ => rfl) begun,
      rfl, rfl, rfl, rfl⟩

/-! ## Breaks -/

theorem exec_kernelComplete_of_tally (current : s.currentJob = some j) (quiet : strikePending s = false)
    (past : tallied s .parked = true) : exec .kernelComplete s = .next (settle (reachBreak j s)) := by
  change execKernelComplete s = _
  simp only [execKernelComplete, current]
  rw [if_pos (by simp [past, quiet])]

theorem exec_kernelComplete_of_none (current : s.currentJob = some j) (before : tallied s .parked = false) :
    exec .kernelComplete s = .next s := by
  change execKernelComplete s = _
  simp only [execKernelComplete, current]
  rw [if_neg (by simp [before])]

/-- A job as it is parked at its break (R92, R93). -/
def parkedJob (s : State) (x : Job) : Job :=
  { x with stage := .parked, kernels := x.kernels + 1, parkBar := (restingUnit s).bar + 1, parkLoops := (restingUnit s).loops,
           layout := s.sched.layout }

theorem reachBreak_eq (job : s.job j.id = some j) :
    reachBreak j s = if onFence s j then strikeState (parkAtBreak j s) (parkedJob s j) else parkAtBreak j s := by
  have parked : (parkAtBreak j s).job j.id = some (parkedJob s j) := job_updJob_same (f := parkedJob s) (fun _ => rfl) job
  simp only [reachBreak, parked]
  rfl

/-! ## HALT -/

theorem exec_jobHaltComplete_of_tally (current : s.currentJob = some j) (quiet : strikePending s = false)
    (past : tallied s .stopped = true) (beat : s.sched.downbeat = false) :
    exec .jobHaltComplete s = .next (settle (leaveUnits j s)) := by
  change execJobHaltComplete s = _
  simp only [execJobHaltComplete, current]
  rw [if_pos (by simp [past, quiet]), keepDownbeat, if_neg (by simp [beat])]

theorem exec_jobHaltComplete_of_none (current : s.currentJob = some j) (before : tallied s .stopped = false) :
    exec .jobHaltComplete s = .next s := by
  change execJobHaltComplete s = _
  simp only [execJobHaltComplete, current]
  rw [if_neg (by simp [before])]

/-- A job as it leaves the units (R516). -/
def haltedJob (s : State) (j x : Job) : Job :=
  { x with stage := .outputs, kernels := x.kernels + 1, elapsed := some (elapsedOf s j), tablesDigest := tablesDigest s,
           readFrom := s.time, readLimit := s.staged.cur.memSuspendLimit }

/-- The jobs of one number put behind the others: the first of them stays the first. -/
theorem find_reordered (l : List Job) (id : Nat) :
    ((l.filter fun x => !(x.id == id)) ++ l.filter fun x => x.id == id).find? (fun x => x.id == id) = l.find? fun x => x.id == id := by
  have others : (l.filter fun x => !(x.id == id)).find? (fun x => x.id == id) = none := by simp
  rw [List.find?_append, others, Option.none_or, List.find?_filter]
  exact congrArg (fun p => l.find? p) (funext fun x => by simp only [and_self, Bool.decide_eq_true])

theorem leaveUnits_job (job : s.job j.id = some j) : (leaveUnits j s).job j.id = some (haltedJob s j j) := by
  have jobs : (closeWindows j (idleUnits s)).job j.id = some j := by
    rw [State.job, closeWindows, dropHeld_sched]
    exact job
  exact (find_reordered _ _).trans (job_updJob_same (f := haltedJob s j) (fun _ => rfl) jobs)

theorem leaveUnits_windows : ∀ w ∈ (leaveUnits j s).fabric.windows, w = none := by
  have closed : (leaveUnits j s).fabric.windows = s.fabric.windows.map fun _ => none :=
    foldl_field (fun t : State => t.fabric.windows) (fun t (w : Nat × BitVec 14 × Flit) => oweCredit w.1 w.2.2.vc t) (fun _ _ => rfl) _ _
  rw [closed]
  intro w hw
  obtain ⟨-, -, rfl⟩ := List.mem_map.mp hw
  rfl

theorem leaveUnits_mem : (leaveUnits j s).mem = s.mem := by
  change (closeWindows j (idleUnits s)).mem = _
  rw [closeWindows, dropHeld_mem]
  rfl

end

/-- Settles O46: the digests start the first beat, a break parks or strikes the job, and the HALT takes it from the units. -/
theorem jobsGoFromTheirDigestsToTheirHalt : Obligations.JobsGoFromTheirDigestsToTheirHalt := by
  unfold Obligations.JobsGoFromTheirDigestsToTheirHalt
  intro s j current quiet u first
  obtain ⟨_, job⟩ := current_of_job current
  refine ⟨fun stage beat reads refill => ?_, fun waits => ?_, fun past => ?_, fun before => exec_kernelComplete_of_none current before,
    fun past beat => ?_, fun before => exec_jobHaltComplete_of_none current before⟩
  · exact nextWith_next (exec_inputDigestsDone_of_stand current ⟨stage, beat, reads, refill⟩) (beginTurn_begins job _ _ _ _)
  · refine exec_inputDigestsDone_of_waits current fun ⟨stage, beat, reads, refill⟩ => ?_
    rcases waits with h | h | h | h
    · exact h stage
    · simp [beat] at h
    · simp [reads] at h
    · simp [refill] at h
  · have completes := exec_kernelComplete_of_tally current quiet past
    rw [reachBreak_eq job] at completes
    refine ⟨fun sound => ?_, fun fenced => ?_⟩
    · rw [if_neg (by simpa [onFence] using sound)] at completes
      exact completes
    · rw [if_pos (by simpa [onFence] using fenced)] at completes
      exact completes
  · exact ⟨exec_jobHaltComplete_of_tally current quiet past beat, ⟨_, leaveUnits_job job, rfl, rfl, rfl, rfl, rfl⟩, rfl,
      leaveUnits_windows, leaveUnits_mem⟩

end Sys2Proof.Machine
end

section
/-! PROOFS. After HALT: the body and its area, its signature, and the event record of NOTIFY. -/
namespace Sys2Proof.Machine

/-! ## A write, and what it leaves -/

section
variable {fn stave a : Nat} {bs : List Byte} {s : State}

/-- A write changes memory, the log and the functions alone. -/
theorem guardedWrite_rest : { guardedWrite fn stave s a bs with mem := s.mem }.offFabric = s.offFabric := by
  simp only [guardedWrite]
  split
  · exact (congrArg (fun t : State => { t with mem := s.mem }) (offFabric_logError ..) :)
  · rfl

theorem guardedWrite_sched : (guardedWrite fn stave s a bs).sched = s.sched := (congrArg State.sched guardedWrite_rest :)
theorem guardedWrite_sec : (guardedWrite fn stave s a bs).sec = s.sec := (congrArg State.sec guardedWrite_rest :)
theorem guardedWrite_time : (guardedWrite fn stave s a bs).time = s.time := (congrArg State.time guardedWrite_rest :)

theorem guardedWrite_mem_of_free (free : hitsAny (readOnlyRanges s) a bs.length = false) :
    (guardedWrite fn stave s a bs).mem = s.mem.writeBytes a bs := by
  rw [guardedWrite_mem, if_neg (by simp [free])]

end

theorem areaHeader_length (kind path body leaf count seq : Nat) : (areaHeader kind path body leaf count seq).length = 64 := by
  simp only [areaHeader, packBytes, List.length_append, leBytes_length, List.length_nil]

/-! ## The output digests -/

section
variable {s : State} {j : Job}

/-- The oldest job that waits for its output digests. -/
def OutputsDue (s : State) (j : Job) : Prop :=
  (s.sched.jobs.find? fun x => x.stage == .outputs) = some j ∧ onSuspended s (areaRun s j :: digestRuns s j 3) = false

/-- A job with its output digests and its body (R511). -/
def bodiedJob (s : State) (j : Job) : Job :=
  { j with outputs := bufferDigests s j 3, body := provBody s { j with outputs := bufferDigests s j 3 } }

/-- The state with a job's body and the head of its area written. -/
def bodyWritten (s : State) (j : Job) : State :=
  let k := bodiedJob s j
  guardedWrite j.fn 0xFF (s.updJob j.id fun _ => k) j.provAddr (areaHeader (sigKind j.signMode) 0 k.body.length 0 0 0 ++ k.body)

theorem exec_outputDigestsDone_of_none (none_ : ∀ j ∈ s.sched.jobs, j.stage ≠ .outputs) : exec .outputDigestsDone s = .next s := by
  have found : (s.sched.jobs.find? fun x => x.stage == .outputs) = none := by simpa using none_
  change execOutputDigestsDone s = _
  simp only [execOutputDigestsDone, found]

theorem exec_outputDigestsDone_of_suspended (oldest : (s.sched.jobs.find? fun x => x.stage == .outputs) = some j)
    (waits : onSuspended s (areaRun s j :: digestRuns s j 3) = true) : exec .outputDigestsDone s = .next s := by
  change execOutputDigestsDone s = _
  simp only [execOutputDigestsDone, oldest]
  rw [if_pos waits]

theorem exec_outputDigestsDone_of_unsigned (due : OutputsDue s j) (mode : j.signMode = 2) :
    exec .outputDigestsDone s = .next (settle (endOk (bodiedJob s j)
      (guardedWrite j.fn 0xFF (bodyWritten s j) (j.provAddr + 64 + (bodiedJob s j).body.length) (List.replicate 3312 0)))) := by
  change execOutputDigestsDone s = _
  simp only [execOutputDigestsDone, due.1]
  rw [if_neg (by simp [due.2]), if_pos mode]
  rfl

theorem exec_outputDigestsDone_of_signing (due : OutputsDue s j) (mode : j.signMode = 0) :
    exec .outputDigestsDone s = .next { (bodyWritten s j).updJob j.id fun x => { x with stage := .signing, readLimit := 0 } with
      sec := { (bodyWritten s j).sec with sign := (bodyWritten s j).sec.sign ++ [.body j.id] } } := by
  change execOutputDigestsDone s = _
  simp only [execOutputDigestsDone, due.1]
  rw [if_neg (by simp [due.2]), if_neg (by simp [mode]), if_pos mode]
  rfl

theorem exec_outputDigestsDone_of_batch (due : OutputsDue s j) (mode : j.signMode = 1) :
    exec .outputDigestsDone s = .next { (bodyWritten s j).updJob j.id fun x => { x with stage := .batched, readLimit := 0 } with
      sec := { (bodyWritten s j).sec with
        open_ := (bodyWritten s j).sec.open_ ++ [(j.id, (bodiedJob s j).body)],
        openedAt := if (bodyWritten s j).sec.open_.isEmpty then (bodyWritten s j).time else (bodyWritten s j).sec.openedAt } } := by
  change execOutputDigestsDone s = _
  simp only [execOutputDigestsDone, due.1]
  rw [if_neg (by simp [due.2]), if_neg (by simp [mode]), if_neg (by simp [mode])]
  rfl

theorem bodyWritten_mem (free : hitsAny (readOnlyRanges s) j.provAddr (64 + (bodiedJob s j).body.length) = false) :
    (bodyWritten s j).mem = s.mem.writeBytes j.provAddr
      (areaHeader (sigKind j.signMode) 0 (bodiedJob s j).body.length 0 0 0 ++ (bodiedJob s j).body) := by
  refine guardedWrite_mem_of_free (s := s.updJob j.id fun _ => bodiedJob s j) ?_
  rw [List.length_append, areaHeader_length]
  exact free

/-- The job waits with its body, in the stage that its signing mode gives. -/
theorem bodyWritten_job (job : s.job j.id = some j) (stage : JobStage) :
    ∃ k, ((bodyWritten s j).updJob j.id fun x => { x with stage := stage, readLimit := 0 }).job j.id = some k ∧ k.stage = stage ∧
      k.body = (bodiedJob s j).body ∧ k.outputs = bufferDigests s j 3 := by
  have found : (s.updJob j.id fun _ => bodiedJob s j).job j.id = some (bodiedJob s j) := by
    have named : ((fun x => x.id == j.id) ∘ fun x => if x.id = j.id then bodiedJob s j else x) = fun x : Job => x.id == j.id := by
      funext x
      simp only [Function.comp]
      split
      next same => rw [same]; rfl
      next => rfl
    simp only [State.job, State.updJob, List.find?_map, named]
    rw [show (s.sched.jobs.find? fun x => x.id == j.id) = some j from job]
    exact congrArg some (if_pos rfl)
  have written : (bodyWritten s j).job j.id = some (bodiedJob s j) := by
    rw [State.job, bodyWritten, guardedWrite_sched]
    exact found
  exact ⟨_, job_updJob_same (fun _ => rfl) written, rfl, rfl, rfl⟩

theorem bodyWritten_sec : (bodyWritten s j).sec = s.sec := guardedWrite_sec
theorem bodyWritten_time : (bodyWritten s j).time = s.time := guardedWrite_time

/-! ## The signature -/

theorem exec_bodySigned_of_suspended (waits : onSuspended s ((signedJobs s).map (areaRun s)) = true) :
    exec .bodySigned s = .next (beginAreaWait (signedJobs s) s) := by
  change execBodySigned s = _
  rw [execBodySigned, if_pos waits]

theorem exec_bodySigned_of_none (none_ : s.sec.sign = []) : exec .bodySigned s = .next s := by
  have free : onSuspended s ((signedJobs s).map (areaRun s)) = false := by
    rw [signedJobs, none_]
    exact onSuspended_nil s
  change execBodySigned s = _
  rw [execBodySigned, if_neg (by simp [free])]
  simp only [none_]

theorem exec_bodySigned_of_body {id : Nat} {rest : List SignItem} (next : s.sec.sign = .body id :: rest) (job : s.job id = some j)
    (free : onSuspended s [areaRun s j] = false) :
    exec .bodySigned s = .next (settle (endOk j (guardedWrite j.fn 0xFF { s with sec := { s.sec with sign := rest }, fresh := s.fresh + 1 }
      (j.provAddr + 64 + j.body.length)
      (fitBytes 3312 (fitBytes 3309 (Config.signature s.fresh (ascii "grx-prov") j.body)))))) := by
  have jobs : signedJobs s = [j] := by
    rw [signedJobs, next]
    simp only [job, Option.toList]
  have same : State.job { s with sec := { s.sec with sign := rest } } id = some j := job
  change execBodySigned s = _
  rw [execBodySigned, if_neg (by simp [jobs, free])]
  simp only [next, same]
  rfl

/-! ## NOTIFY -/

variable {b : BeatCtx} {k : JobQueue}

theorem exec_notify_of_due (due : Due s codecUnit 0x20 b) :
    exec .notify s = .next (notifyBody b s.sched.nextKey (fired codecUnit b s)) :=
  congrArg Host.Outcome.next (run_due (credit := noStream) _ due rfl)

theorem postNotify_of_room {key imm bar : Nat} {loops : List Nat} (queue : s.queue j.fn j.queue = some k)
    (room : k.cmpUnreleased + 1 < k.cmpEntries) (none_ : k.held = []) :
    postNotify j key imm bar loops s = doneStroke codecUnit key (postRecord j.fn j.queue (notifyRecord j imm bar loops) s) := by
  simp only [postNotify, queue]
  rw [if_neg (by simp [JobQueue.full, none_, room])]

theorem postNotify_of_full {key imm bar : Nat} {loops : List Nat} (queue : s.queue j.fn j.queue = some k)
    (full : k.cmpEntries ≤ k.cmpUnreleased + 1) : postNotify j key imm bar loops s = setPhase codecUnit key .paused s := by
  simp only [postNotify, queue]
  rw [if_pos (by simp [JobQueue.full, full])]

end

/-- Settles O47: the oldest job gets its body and goes by its signing mode; a signed body ends its job; a NOTIFY posts or pauses. -/
theorem bodiesAreWrittenSignedAndPosted : Obligations.BodiesAreWrittenSignedAndPosted := by
  unfold Obligations.BodiesAreWrittenSignedAndPosted
  intro s
  refine ⟨fun j oldest job free => ?_, exec_outputDigestsDone_of_none,
    fun j oldest waits => exec_outputDigestsDone_of_suspended oldest waits, exec_bodySigned_of_suspended,
    fun id rest j next job free => exec_bodySigned_of_body next job free, exec_bodySigned_of_none, fun b k due queue => ?_⟩
  · intro done body kept area
    refine ⟨fun mode => ?_, fun mode => ?_, fun mode => ?_⟩
    · refine nextWith_next (exec_outputDigestsDone_of_signing ⟨oldest, free⟩ mode) ⟨fun clear => ?_, bodyWritten_job job .signing, ?_⟩
      · exact (bodyWritten_mem clear).trans (by rw [mode]; rfl)
      · rw [bodyWritten_sec]
    · refine nextWith_next (exec_outputDigestsDone_of_batch ⟨oldest, free⟩ mode) ⟨fun clear => ?_, bodyWritten_job job .batched, ?_, ?_⟩
      · exact (bodyWritten_mem clear).trans (by rw [mode]; rfl)
      · rw [bodyWritten_sec]
        rfl
      · rw [bodyWritten_sec, bodyWritten_time]
        simp only [List.isEmpty_iff]
    · have ends := exec_outputDigestsDone_of_unsigned ⟨oldest, free⟩ mode
      rw [bodyWritten, mode, show sigKind 2 = 0 from rfl] at ends
      exact ends
  · exact ⟨fun room none_ => (exec_notify_of_due due).trans (congrArg Host.Outcome.next (postNotify_of_room queue room none_)),
      fun full => (exec_notify_of_due due).trans (congrArg Host.Outcome.next (postNotify_of_full queue full))⟩

end Sys2Proof.Machine
end

section
/-! PROOFS. The scheduling decision (R406, R407): the highest level that has a ready candidate is served. -/
namespace Sys2Proof.Machine

theorem mem_afterLast {n last x : Nat} : x ∈ afterLast n last ↔ x < n := by
  constructor
  · intro mem
    obtain ⟨i, hi, rfl⟩ := List.mem_map.mp mem
    exact Nat.mod_lt _ (Nat.zero_lt_of_lt (List.mem_range.mp hi))
  · intro small
    have pos : 0 < n := Nat.zero_lt_of_lt small
    have start : (last + 1) % n < n := Nat.mod_lt _ pos
    refine List.mem_map.mpr ⟨(x + (n - (last + 1) % n)) % n, List.mem_range.mpr (Nat.mod_lt _ pos), ?_⟩
    have split_ : (last + 1) % n + (x + (n - (last + 1) % n)) = x + n := by omega
    rw [Nat.add_mod_mod, ← Nat.mod_add_mod, split_, Nat.add_mod_right, Nat.mod_eq_of_lt small]

/-- The first of a descending list that meets a condition is the greatest that does. -/
theorem le_of_find_descending {q : Nat → Bool} {l p : Nat} {levels : List Nat} (descending : levels.Pairwise (· ≥ ·))
    (found : levels.find? q = some l) (mem : p ∈ levels) (meets : q p = true) : p ≤ l := by
  induction levels with
  | nil => exact absurd mem nofun
  | cons a rest ih =>
    obtain ⟨first, tail⟩ := List.pairwise_cons.mp descending
    by_cases here : q a = true
    · rw [List.find?_cons_of_pos here] at found
      obtain rfl := Option.some.inj found
      rcases List.mem_cons.mp mem with rfl | later
      · exact Nat.le_refl _
      · exact first p later
    · rw [List.find?_cons_of_neg here] at found
      rcases List.mem_cons.mp mem with rfl | later
      · exact absurd meets here
      · exact ih tail found later

section
variable {s : State} {l fn q : Nat} {j k : Job} {e : JobQueue}

/-- A ready job that a level would be given to: a candidate of one of the level's queues. -/
theorem nextReady_some (found : nextReady s l none = some k) :
    ready s k = true ∧ ∃ fn < 32, ∃ q < 8, candidateOf s fn q = some k ∧ ∃ e, s.queue fn q = some e ∧ e.priority = l := by
  obtain ⟨fn, client, found⟩ := List.exists_of_findSome?_eq_some found
  obtain ⟨q, queue, found⟩ := List.exists_of_findSome?_eq_some found
  split at found
  case h_1 => exact absurd found nofun
  case h_2 e named =>
    split at found
    case isFalse => exact absurd found nofun
    case isTrue level =>
      split at found
      case h_2 => exact absurd found nofun
      case h_1 x candidate =>
        split at found
        case isFalse => exact absurd found nofun
        case isTrue ready_ =>
          obtain rfl := Option.some.inj found
          exact ⟨by simpa using ready_, fn, mem_afterLast.mp client, q, mem_afterLast.mp queue, candidate, e, named, level⟩

/-- A level with a ready candidate has a job to serve. -/
theorem nextReady_isSome (client : fn < 32) (small : q < 8) (queue : s.queue fn q = some e) (candidate : candidateOf s fn q = some j)
    (ready_ : ready s j = true) : (nextReady s e.priority none).isSome = true := by
  unfold nextReady
  refine List.findSome?_isSome_iff.mpr ⟨fn, mem_afterLast.mpr client, List.findSome?_isSome_iff.mpr ⟨q, mem_afterLast.mpr small, ?_⟩⟩
  simp [queue, candidate, ready_]

theorem le_topLevel (top : topLevel s none = some l) (client : fn < 32) (small : q < 8) (queue : s.queue fn q = some e)
    (level : e.priority ≤ 3) (candidate : candidateOf s fn q = some j) (ready_ : ready s j = true) : e.priority ≤ l :=
  le_of_find_descending (by decide) top (by simp; omega) (nextReady_isSome client small queue candidate ready_)

theorem not_ready_of_topLevel_none (none_ : topLevel s none = none) (client : fn < 32) (small : q < 8) (queue : s.queue fn q = some e)
    (level : e.priority ≤ 3) (candidate : candidateOf s fn q = some j) : ready s j = false := by
  refine Bool.eq_false_iff.mpr fun ready_ => ?_
  have empty := List.find?_eq_none.mp none_ e.priority (by simp; omega)
  exact empty (nextReady_isSome client small queue candidate ready_)

theorem decideAll_of_held (held : decisionsHeld s = true) (n : Nat) : decideAll n s = s := by
  cases n with
  | zero => rfl
  | succ n => rw [decideAll, if_pos held]

/-- A job that runs, and is not parked, keeps the units. -/
theorem decideAll_of_running {id : Nat} (current : s.sched.current = some id) (job : s.job id = some j) (running : j.stage ≠ .parked)
    (n : Nat) : decideAll n s = s := by
  have once : decideOnce s = (s, false) := by
    simp only [decideOnce, current, job]
    rw [if_pos (by simpa using running)]
  cases n with
  | zero => rfl
  | succ n =>
    simp only [decideAll, once]
    split <;> rfl

end

/-- Settles O49: by the levels in descending order, each with the queues in their turn. -/
theorem decisionsServeTheHighestLevel : Obligations.DecisionsServeTheHighestLevel := by
  unfold Obligations.DecisionsServeTheHighestLevel
  intro s
  refine ⟨fun l k top found => ?_, fun none_ fn client q small e x queue level candidate =>
      not_ready_of_topLevel_none none_ client small queue level candidate,
    fun n held => decideAll_of_held held n, fun n id j current job running => decideAll_of_running current job running n⟩
  obtain ⟨ready_, chosen⟩ := nextReady_some found
  exact ⟨ready_, chosen, fun fn client q small e x queue level candidate ready_ =>
    le_topLevel top client small queue level candidate ready_⟩

end Sys2Proof.Machine
end

section
/-! PROOFS. Evictions (R409, R410): a running job's state is saved, and restored. -/
namespace Sys2Proof.Machine

section
variable {s : State} {j : Job} {a : SaveArea}

/-! ## The beginning -/

/-- An eviction of the running job may begin. -/
structure MayEvict (s : State) (j : Job) : Prop where
  stage : j.stage = .running
  kernel : tallied s .parked = false
  halt : tallied s .stopped = false
  above : evictorWaits s j = true
  policy : s.preempt.evict = true
  area : saveAreaOk s s.preempt = true
  unsaved : s.sched.save = none
  quiet : s.sched.parks = []
  beat : s.sched.downbeat = false
  untested : s.test = none

theorem exec_evictionBegin_of_may (current : s.currentJob = some j) (may : MayEvict s j) :
    exec .evictionBegin s = .next { s with sched := { s.sched with
      parks := [.eviction], jobs := s.sched.jobs.map fun x => if x.id = j.id then { x with stage := .evicting } else x } } := by
  obtain ⟨stage, kernel, halt, above, policy, area, unsaved, quiet, beat, untested⟩ := may
  change execEvictionBegin s = _
  simp only [execEvictionBegin, current]
  rw [if_pos (by simp [stage, kernel, halt, above, policy, area, unsaved, quiet, beat, untested])]
  rfl

theorem exec_evictionBegin_of_policy (current : s.currentJob = some j) (never : s.preempt.evict = false) :
    exec .evictionBegin s = .next s := by
  change execEvictionBegin s = _
  simp only [execEvictionBegin, current]
  rw [if_neg (by simp [never])]

/-! ## The units parked -/

/-- The units of a job that is evicted have parked at no break. -/
structure EvictionParked (s : State) (j : Job) : Prop where
  stage : j.stage = .evicting
  quiet : strikePending s = false
  unsaved : s.sched.save = none
  parked : ∀ u ∈ activeUnits s, (s.unit u).inflight = []
  kernel : tallied (s.updJob j.id fun x => { x with stage := .running }) .parked = false
  halt : tallied (s.updJob j.id fun x => { x with stage := .running }) .stopped = false

theorem exec_evictionParked (current : s.currentJob = some j) (parked : EvictionParked s j) :
    exec .evictionParked s = .next (
      if !saveAreaOk s s.preempt || !s.preempt.evict then clearParks (s.updJob j.id fun x => { x with stage := .running })
      else
        let v := idleUnits ((beginWait j.id .evicting s).updJob j.id fun x => { x with layout := s.sched.layout })
        { v with sched := { v.sched with save := some (saveState s j) } }) := by
  obtain ⟨stage, quiet, unsaved, parked, kernel, halt⟩ := parked
  have all : allParked s (fun _ _ => false) = true := by
    refine List.all_eq_true.mpr fun u hu => ?_
    rw [parked u hu]
    rfl
  change execEvictionParked s = _
  simp only [execEvictionParked, current]
  rw [if_pos (by simp [stage, quiet, unsaved, all]), if_neg (by simp [kernel]), if_neg (by simp [halt])]

theorem idleUnits_units (t : State) : ∀ k ∈ (idleUnits t).cores, ∀ u ∈ k.units, u = UnitState.idle := by
  intro k hk u hu
  obtain ⟨k, -, rfl⟩ := List.mem_map.mp hk
  obtain ⟨-, -, rfl⟩ := List.mem_map.mp hu
  rfl

/-! ## The copy -/

/-- The copy to the save area is done. -/
structure EvictionCopied (s : State) (j : Job) (a : SaveArea) : Prop where
  stage : j.stage = .evicting
  quiet : strikePending s = false
  saved : s.sched.save = some a
  free : onSuspended s (saveRanges s.preempt) = false

/-- The state of an eviction whose copy is done. -/
def evictedState (j : Job) (a : SaveArea) (lost : Bool) (s : State) : State :=
  let work := a.cores.map fun c =>
    ((workingRange s c.1).1, if lost then [] else s.mem.readBytes (workingRange s c.1).1 (workingRange s c.1).2)
  let t := (saveRanges s.preempt).foldl (fun acc r => guardedForget (imageRanges s) j.fn 0xFF r.1 r.2 acc) s
  { t with sched := { t.sched with
      jobs := t.sched.jobs.map (fun x => if x.id = j.id then { x with stage := .evicted, preemptions := x.preemptions + 1 } else x),
      save := some { a with work := work }, current := none, parks := [] } }

theorem exec_evictionCopyDone (current : s.currentJob = some j) (copied : EvictionCopied s j a) :
    exec .evictionCopyDone s =
      .next (settle (evictedState j a ((saveRanges s.preempt).any fun r => hitsAny (imageRanges s) r.1 r.2) s)) := by
  obtain ⟨stage, quiet, saved, free⟩ := copied
  change execEvictionCopyDone s = _
  simp only [execEvictionCopyDone, current, saved]
  rw [if_pos (by simp [stage, quiet, free])]
  rfl

/-- A range that meets no image is forgotten whole. -/
theorem guardedForget_of_free {rs : List (Nat × Nat)} {base size : Nat} (free : hitsAny rs base size = false) (fn stave : Nat) (t : State) :
    guardedForget rs fn stave base size t = forgetRange base size t := by
  have whole : rs.foldl (fun l r => l.flatMap (cutRun r)) [(base, size)] = [(base, size)] := by
    clear t
    induction rs with
    | nil => rfl
    | cons r rs ih =>
      simp only [hitsAny, List.any_cons, Bool.or_eq_false_iff] at free
      rw [List.foldl_cons, List.flatMap_singleton, cutRun, if_neg (by simp [free.1])]
      exact ih free.2
  rw [guardedForget, forgetOutside, whole, if_neg (by simp [free])]
  rfl

theorem foldl_guardedForget_of_free {rs ranges : List (Nat × Nat)} (free : ∀ r ∈ ranges, hitsAny rs r.1 r.2 = false) (fn stave : Nat)
    (t : State) :
    ranges.foldl (fun acc r => guardedForget rs fn stave r.1 r.2 acc) t = ranges.foldl (fun acc r => forgetRange r.1 r.2 acc) t := by
  induction ranges generalizing t with
  | nil => rfl
  | cons r ranges ih =>
    simp only [List.forall_mem_cons] at free
    rw [List.foldl_cons, List.foldl_cons, guardedForget_of_free free.1, ih free.2]

theorem foldl_forgetRange_sched (ranges : List (Nat × Nat)) (t : State) :
    (ranges.foldl (fun acc r => forgetRange r.1 r.2 acc) t).sched = t.sched :=
  foldl_field State.sched (fun acc (r : Nat × Nat) => forgetRange r.1 r.2 acc) (fun _ _ => rfl) ranges t

/-! ## The restore -/

/-- The copy from the save area is done. -/
structure Restored (s : State) (j : Job) (a : SaveArea) : Prop where
  stage : j.stage = .restoring
  quiet : strikePending s = false
  saved : s.sched.save = some a
  own : a.job = j.id
  free : onSuspended s (saveRanges s.preempt) = false
  refilled : noRefill s j = true

theorem exec_restoreDone (current : s.currentJob = some j) (restored : Restored s j a) :
    exec .restoreDone s = .next (restClocks { (restoreState (s.scoreAddr j) a (dropTiles s)).updJob j.id
        fun x => { x with stage := .running, runSince := s.time } with
      sched := { ((restoreState (s.scoreAddr j) a (dropTiles s)).updJob j.id fun x => { x with stage := .running, runSince := s.time }).sched with
        save := none, layout := j.layout } }) := by
  obtain ⟨stage, quiet, saved, own, free, refilled⟩ := restored
  change execRestoreDone s = _
  simp only [execRestoreDone, current, saved]
  rw [if_pos (by simp [stage, own, quiet, free, refilled])]

/-- Working regions that the save area holds are written back. -/
theorem foldl_restoreWork (cores : List (Nat × Core)) (work : List (Nat × List Byte)) (even_ : work.length = cores.length)
    (held : ∀ w ∈ work, w.2 ≠ []) (t : State) :
    (cores.zip work).foldl restoreWork t = { t with mem := work.foldl (fun m w => m.writeBytes w.1 w.2) t.mem } := by
  induction cores generalizing work t with
  | nil =>
    rw [List.length_eq_zero_iff.mp even_]
    rfl
  | cons c cores ih =>
    cases work with
    | nil => exact absurd even_ nofun
    | cons w work =>
      simp only [List.forall_mem_cons] at held
      have back : restoreWork t (c, w) = { t with mem := t.mem.writeBytes w.1 w.2 } := if_neg (by simpa using held.1)
      rw [List.zip_cons_cons, List.foldl_cons, back, ih work (by simpa using even_) held.2]
      rfl

theorem restoreState_rest (score : Nat) (even_ : a.work.length = a.cores.length) (held : ∀ w ∈ a.work, w.2 ≠ []) (t : State) :
    (restoreState score a t).mem = a.work.foldl (fun m w => m.writeBytes w.1 w.2) t.mem ∧ (restoreState score a t).sched = t.sched := by
  have back := foldl_restoreWork a.cores a.work even_ held t
  exact ⟨(congrArg State.mem back :), (congrArg State.sched back :)⟩

end

/-- Settles O50: each of an eviction's commands takes its step where the step is due, and the copy's images decide what is lost. -/
theorem evictionsSaveAndRestore : Obligations.EvictionsSaveAndRestore := by
  unfold Obligations.EvictionsSaveAndRestore
  intro s j current quiet stage
  obtain ⟨_, job⟩ := current_of_job current
  refine ⟨fun running kernel halt above policy area unsaved parks beat untested =>
      exec_evictionBegin_of_may current ⟨running, kernel, halt, above, policy, area, unsaved, parks, beat, untested⟩,
    fun _ never => exec_evictionBegin_of_policy current never, fun evicting unsaved parked kernel halt area policy => ?_,
    fun evicting unsaved parked kernel halt never => ?_, fun a evicting saved free clear => ?_, fun a evicting saved free meets => ?_,
    fun a restoring saved own free refilled even_ held => ?_⟩
  · have parks := exec_evictionParked current ⟨evicting, quiet, unsaved, parked, kernel, halt⟩
    rw [if_neg (by simp [area, policy])] at parks
    exact nextWith_next parks ⟨rfl, idleUnits_units _, rfl, saveState s j, rfl, rfl, rfl, rfl, rfl⟩
  · refine (exec_evictionParked current ⟨evicting, quiet, unsaved, parked, kernel, halt⟩).trans (congrArg Host.Outcome.next ?_)
    exact if_pos (by simpa using never)
  · have whole : ((saveRanges s.preempt).any fun r => hitsAny (imageRanges s) r.1 r.2) = false := by simpa using clear
    have copied := exec_evictionCopyDone current ⟨evicting, quiet, saved, free⟩
    rw [whole, evictedState, foldl_guardedForget_of_free clear] at copied
    simp only [foldl_forgetRange_sched, Bool.false_eq_true, if_false] at copied
    exact copied
  · have lost : ((saveRanges s.preempt).any fun r => hitsAny (imageRanges s) r.1 r.2) = true := by simpa using meets
    have copied := exec_evictionCopyDone current ⟨evicting, quiet, saved, free⟩
    rw [lost] at copied
    exact copied
  · obtain ⟨mem, sched⟩ := restoreState_rest (s.scoreAddr j) even_ held (dropTiles s)
    have back : (restoreState (s.scoreAddr j) a (dropTiles s)).job j.id = some j := by
      rw [State.job, sched]
      exact job
    exact nextWith_next (exec_restoreDone current ⟨restoring, quiet, saved, own, free, refilled⟩)
      ⟨mem, rfl, rfl, _, job_updJob_same (f := fun x => { x with stage := .running, runSince := s.time }) (fun _ => rfl) back, rfl, rfl⟩

end Sys2Proof.Machine
end

section
/-! PROOFS. Resident swaps, downbeats and the end of a strike: each takes the step that is due. -/
namespace Sys2Proof.Machine

/-! ## Ports that leave service -/

@[simp] theorem offFabric_clearPort (st : PortState) (p : Nat) (s : State) : (clearPort st p s).offFabric = s.offFabric := rfl

@[simp] theorem offFabric_rerouteFlit (p : Nat) (s : State) (w : Nat × BitVec 6 × Flit) : (rerouteFlit p s w).offFabric = s.offFabric := by
  unfold rerouteFlit
  split
  · exact offFabric_discardFlit ..
  · exact offFabric_routeFrom ..

@[simp] theorem offFabric_dropPort (st : PortState) (p : Nat) (s : State) : (dropPort st p s).offFabric = s.offFabric :=
  (foldl_field State.offFabric _ (fun _ _ => offFabric_rerouteFlit ..) _ _).trans (offFabric_clearPort ..)

theorem disableLink_staged (s : State) : (disableLink s).staged = s.staged := by
  simp only [disableLink]
  generalize List.range 16 = ports
  refine foldl_field State.staged _ (fun t p => ?_) ports s
  split
  · rfl
  · exact (congrArg State.staged (offFabric_dropPort .down p t) :)

theorem gateDomains_staged (old new : Nat) (s : State) : (gateDomains old new s).staged = s.staged := by
  refine foldl_field State.staged _ (fun t i => ?_) (List.range 3) s
  simp only []
  split
  · rfl
  · split <;> rfl

theorem applyCommit_staged (s : State) :
    (applyCommit s).staged = { cur := s.staged.pending.foldl applySetting s.staged.cur, pending := [], commit := none } := by
  simp only [applyCommit]
  split
  · rw [disableLink_staged, gateDomains_staged]
  · rw [gateDomains_staged]

section
variable {s : State} {r : ResidentImage} {j : Job}

/-! ## Resident swaps -/

theorem exec_residentSwapStart_of_none (none_ : swapDue s = none) : exec .residentSwapStart s = .next s := by
  change execResidentSwapStart s = _
  simp only [execResidentSwapStart, none_]

theorem exec_residentSwapStart_of_load (due : swapDue s = some r) (load : ∀ j, s.currentJob = some j → j.stage ≠ .swapping) :
    exec .residentSwapStart s = .next { s with resident := { s.resident with swap := some r } } := by
  change execResidentSwapStart s = _
  simp only [execResidentSwapStart, due]
  cases current : s.currentJob with
  | none =>
    have same : State.currentJob { s with resident := { s.resident with swap := some r } } = none := current
    simp only []
  | some j => exact congrArg Host.Outcome.next (if_neg (by simpa using load j current))

theorem exec_residentSwapStart_of_job (due : swapDue s = some r) (current : s.currentJob = some j) (stage : j.stage = .swapping) :
    exec .residentSwapStart s = .next (beginWait j.id .swapping { s with resident := { s.resident with swap := some r } }) := by
  change execResidentSwapStart s = _
  simp only [execResidentSwapStart, due, current]
  rw [if_pos (by simp [stage])]

theorem exec_residentSwapDone_of_none (none_ : s.resident.swap = none) : exec .residentSwapDone s = .next s := by
  change execResidentSwapDone s = _
  simp only [execResidentSwapDone, none_]

theorem exec_residentSwapDone_of_suspended (swap : s.resident.swap = some r) (waits : onSuspended s [(r.addr, r.size)] = true) :
    exec .residentSwapDone s = .next s := by
  change execResidentSwapDone s = _
  simp only [execResidentSwapDone, swap]
  rw [if_pos waits]

theorem exec_residentSwapDone_of_job (swap : s.resident.swap = some r) (current : s.currentJob = some j) (stage : j.stage = .swapping)
    (free : onSuspended s [(r.addr, r.size)] = false) :
    exec .residentSwapDone s = .next (settle (
      if imageHolds s r then afterSwap j (installResident r false { s with resident := { s.resident with swap := none } })
      else failSwapJob j (failSwap r { s with resident := { s.resident with swap := none } }))) := by
  have job : (s.currentJob.filter fun j => j.stage == .swapping) = some j := by simp [current, stage]
  change execResidentSwapDone s = _
  simp only [execResidentSwapDone, swap]
  rw [if_neg (by simp [free])]
  simp only [job]

theorem exec_residentSwapDone_of_load {l : ResidentLoad} (swap : s.resident.swap = some r) (current : s.currentJob = none)
    (load : s.resident.load = some l) (image : l.image = r) (whole : mapped s r.addr r.size = true)
    (free : onSuspended s [(r.addr, r.size)] = false) :
    exec .residentSwapDone s = .next (settle (respond l.fn l.tag 0x12 .ok (digestHead r.digest)
      (installResident r true { s with resident := { s.resident with swap := none, load := none } }))) := by
  have job : (s.currentJob.filter fun j => j.stage == .swapping) = none := by rw [current]; rfl
  have own : (s.resident.load.filter fun l => l.image == r) = some l := by simp [load, image]
  change execResidentSwapDone s = _
  simp only [execResidentSwapDone, swap]
  rw [if_neg (by simp [free])]
  simp only [job, own]
  rw [if_pos whole]
  rfl

theorem installResident_resident (r : ResidentImage) (listed : Bool) (t : State) :
    (installResident r listed t).resident.cur = some r ∧ (installResident r listed t).resident.invalid = false ∧
    (listed = true → (installResident r listed t).resident.catalogue.head? = some r) := by
  simp only [installResident]
  exact ⟨trivial, trivial, fun yes => by rw [if_pos yes]; rfl⟩

/-! ## Downbeats -/

/-- A downbeat may start. -/
def DownbeatStarts (s : State) : Prop :=
  s.fw.state = .ready ∧ downbeatDue s = true ∧ s.sched.downbeat = false ∧ downbeatWaits s = false

theorem exec_downbeatStart_of_due (due : DownbeatStarts s) :
    exec .downbeatStart s = .next { s with sched := { s.sched with downbeat := true, parks := s.sched.parks ++ [.downbeat] } } := by
  obtain ⟨fw, beat, idle, free⟩ := due
  change execDownbeatStart s = _
  rw [execDownbeatStart, if_pos (by simp [fw, beat, idle, free])]

theorem exec_downbeatStart_of_undue (undue : ¬ DownbeatStarts s) : exec .downbeatStart s = .next s := by
  change execDownbeatStart s = _
  rw [execDownbeatStart, if_neg (by simpa [DownbeatStarts, and_assoc] using undue)]

theorem exec_downbeatParked_of_parked (beat : s.sched.downbeat = true) (parked : allParked s (runsThrough s) = true) :
    let t := swapTables (commitNow s)
    exec .downbeatParked s = .next (settle { t with
      sched := { t.sched with downbeat := false, parks := t.sched.parks.filter fun p => !(p == .downbeat) } }) := by
  change execDownbeatParked s = _
  rw [execDownbeatParked, if_pos (by simp [beat, parked])]

theorem commitNow_of_due {c : Commit} (waits : s.staged.commit = some c) (due : commitDue s = true) :
    commitNow s = respond 0 c.tag 0x32 .ok 0 (applyCommit s) := by
  simp only [commitNow, waits]
  rw [if_pos due]

/-! ## Strikes -/

theorem exec_strikeParked_of_strike {st cause : Status} {kind : Nat} {detail : BitVec 352} (current : s.currentJob = some j)
    (strike : strikeOf s = some (st, cause, kind, detail)) (beat : s.sched.downbeat = false) :
    exec .strikeParked s = .next (settle (freeUnits (endJob j st cause kind (if kind = 0 then detailNow s j else detail)
      (releaseSave j.id (forgetWritten j s))))) := by
  change execStrikeParked s = _
  simp only [execStrikeParked, current, strike]
  rw [keepDownbeat, if_neg (by simp [beat])]

theorem exec_strikeParked_of_none (none_ : strikeOf s = none) : exec .strikeParked s = .next s := by
  change execStrikeParked s = _
  cases current : s.currentJob <;> simp only [execStrikeParked, current, none_]

end

/-- Settles O51: a swap, a downbeat and the end of a strike take the step that is due, and none else. -/
theorem swapsDownbeatsAndStrikesComplete : Obligations.SwapsDownbeatsAndStrikesComplete := by
  unfold Obligations.SwapsDownbeatsAndStrikesComplete
  intro s
  refine ⟨fun r due => ⟨exec_residentSwapStart_of_load due, fun j current stage => exec_residentSwapStart_of_job due current stage⟩,
    exec_residentSwapStart_of_none, fun r l swap current load image whole free =>
      exec_residentSwapDone_of_load swap current load image whole free,
    fun r j swap current stage free => exec_residentSwapDone_of_job swap current stage free, exec_residentSwapDone_of_none,
    fun r swap waits => exec_residentSwapDone_of_suspended swap waits, installResident_resident,
    ⟨exec_downbeatStart_of_due, exec_downbeatStart_of_undue⟩, exec_downbeatParked_of_parked,
    fun c waits due => ⟨commitNow_of_due waits due, applyCommit_staged s⟩,
    fun j st cause kind detail current strike beat => exec_strikeParked_of_strike current strike beat, exec_strikeParked_of_none⟩

end Sys2Proof.Machine
end

section
/-! PROOFS. Channels that are retired, and what of the others stands (R280, R431, R432). -/
namespace Sys2Proof.Machine

section
variable {s : State} {c d p : Nat}

/-! ## One channel changed -/

/-- What a change keeps of a channel it keeps of every channel. -/
theorem chan_updChan_keeps {β : Type} (g : Channel → β) {f : Channel → Channel} (keeps : ∀ x, g (f x) = g x) (s : State) (d c : Nat) :
    g ((s.updChan d f).chan c) = g (s.chan c) := by
  by_cases same : c = d
  · subst same
    by_cases there : c < s.channels.length
    · rw [chan_updChan_same s f there, keeps]
    · rw [State.updChan, updAt, List.modify_eq_self (by omega)]
  · rw [chan_updChan_other s f same]

theorem chan_foldl_keeps {β : Type} (g : Channel → β) {f : Channel → Channel} (keeps : ∀ x, g (f x) = g x) (l : List Nat) (s : State)
    (c : Nat) : g ((l.foldl (fun acc k => acc.updChan k f) s).chan c) = g (s.chan c) :=
  foldl_field (fun t : State => g (t.chan c)) (fun acc (k : Nat) => acc.updChan k f) (fun t k => chan_updChan_keeps g keeps t k c) l s

theorem chan_foldl_other {f : Channel → Channel} {l : List Nat} (other : c ∉ l) (s : State) :
    (l.foldl (fun acc k => acc.updChan k f) s).chan c = s.chan c := by
  induction l generalizing s with
  | nil => rfl
  | cons k l ih =>
    simp only [List.mem_cons, not_or] at other
    rw [List.foldl_cons, ih other.2, chan_updChan_other s f other.1]

theorem chan_of_channels {t : State} (same : t.channels = s.channels) (c : Nat) : t.chan c = s.chan c := by rw [State.chan, same, State.chan]

/-- A channel that is present stands in the list of channels. -/
theorem chan_there (present : (s.chan c).state ≠ .absent) : c < s.channels.length := by
  refine Nat.lt_of_not_le fun beyond => present ?_
  rw [State.chan, List.getD_eq_getElem?_getD, List.getElem?_eq_none beyond]
  rfl

/-! ## The domain of a position -/

/-- What a position's domain keeps of a channel that its training leaves alone. -/
theorem gatePosition_keeps {β : Type} (g : Channel → β) (loses : ∀ x, g (losesTraining x) = g x)
    (retrains : ∀ x : Channel, g { x with pausing := true, retrains := x.retrains + 1 } = g x) (p : Nat) (s : State) (c : Nat) :
    g ((gatePosition p s).chan c) = g (s.chan c) := by
  simp only [gatePosition]
  split
  · exact chan_foldl_keeps g loses _ _ c
  · split
    · exact chan_foldl_keeps g retrains _ _ c
    · rfl

theorem gatePosition_state (p : Nat) (s : State) (c : Nat) : ((gatePosition p s).chan c).state = (s.chan c).state :=
  gatePosition_keeps (·.state) (fun _ => rfl) (fun _ => rfl) p s c

theorem gatePosition_temp (p : Nat) (s : State) (c : Nat) : ((gatePosition p s).chan c).temp = (s.chan c).temp :=
  gatePosition_keeps (·.temp) (fun _ => rfl) (fun _ => rfl) p s c

/-- An active channel keeps its training: its position is not off. -/
theorem gatePosition_trainTemp (active : (s.chan c).state = .active) (p : Nat) :
    ((gatePosition p s).chan c).trainTemp = (s.chan c).trainTemp := by
  simp only [gatePosition]
  split
  case isTrue off =>
    have other : c ∉ posChans p := by
      intro mem
      have gone := List.all_eq_true.mp (Bool.and_eq_true_iff.mp off).1 c mem
      simp [active] at gone
    rw [chan_foldl_other other]
    rfl
  case isFalse =>
    split
    · exact chan_foldl_keeps (·.trainTemp) (f := fun x => { x with pausing := true, retrains := x.retrains + 1 }) (fun _ => rfl) _ _ c
    · rfl

/-! ## A channel leaves the active state -/

theorem strikeScores_channels (ch : Nat) (s : State) : (strikeScores ch s).channels = s.channels := by
  have one (t : State) (j : Job) :
      (abortGroups j 2 (endResting j .struck .channelRetired 0 (detailJob j) t)).channels = t.channels := by
    have groups : (abortGroups j 2 (endResting j .struck .channelRetired 0 (detailJob j) t)).channels =
        (endResting j .struck .channelRetired 0 (detailJob j) t).channels := (congrArg State.channels (offJobs_abortGroups ..) :)
    exact groups.trans (congrArg State.channels (offJobs_endResting ..) :)
  simp only [strikeScores]
  exact foldl_field State.channels (fun acc j => abortGroups j 2 (endResting j .struck .channelRetired 0 (detailJob j) acc)) one _ _

theorem unbackResident_channels (ch : Nat) (s : State) : (unbackResident ch s).channels = s.channels := by
  have job (j : Job) (t : State) : (failSwapJob j t).channels = t.channels := (congrArg State.channels (offJobs_failSwapJob j t) :)
  have refused (o : Option ResidentLoad) (lost : Bool) (t : State) :
      (match o with | some l => if lost then respond l.fn l.tag 0x12 .invalid 0 t else t | none => t).channels = t.channels := by
    cases o with
    | none => rfl
    | some l =>
      cases lost with
      | false => rfl
      | true => exact (congrArg State.channels (offJobs_respond ..) :)
  unfold unbackResident
  dsimp only
  split
  · exact (job _ _).trans (refused ..)
  · exact refused ..

theorem abandonFailed_channels (e : Engine) (ch : Nat) (s : State) : (abandonFailed e ch s).channels = s.channels := by
  unfold abandonFailed
  split
  · rfl
  · split
    · simp only []
      split
      · exact (congrArg State.channels (offJobs_strikeJob ..) :).trans (State.updEngine_channels ..)
      · exact State.updEngine_channels ..
    · rfl

theorem failSessions_channels (ch : Nat) (s : State) : (failSessions ch s).channels = s.channels := by
  rw [failSessions, abandonFailed_channels, abandonFailed_channels]

/-- A channel that leaves the active state: the channels are as its position's domain leaves them. -/
theorem leaveActive_gated (ch : Nat) (st : ChanState) (s : State) :
    ∃ u, leaveActive ch st s = gatePosition (chanPos ch) u ∧
      u.channels = (s.updChan ch fun c => { c with state := st, fullPass := false }).channels := by
  refine ⟨_, rfl, ?_⟩
  rw [logError_channels]
  have lost (t : State) : (strikeWhere (jobLost t ch) .channelRetired 3 (detailChannel ch) t).channels = t.channels :=
    (congrArg State.channels (offJobs_strikeWhere ..) :)
  have steps (t : State) : (dropSpills ch (failSessions ch (unbackResident ch (strikeScores ch t)))).channels = t.channels := by
    change (failSessions ch (unbackResident ch (strikeScores ch t))).channels = _
    rw [failSessions_channels, unbackResident_channels, strikeScores_channels]
  split
  · exact (steps _).trans (lost _)
  · exact (steps _).trans (lost _)

/-- Retirement of another channel leaves a channel's state. -/
theorem retireChan_state_other (other : c ≠ d) (s : State) : ((retireChan d s).chan c).state = (s.chan c).state := by
  unfold retireChan
  split
  · obtain ⟨u, gated, channels⟩ := leaveActive_gated d .retired s
    rw [gated, gatePosition_state, chan_of_channels channels, chan_updChan_other s _ other]
  · rw [gatePosition_state, chan_updChan_other s _ other]
  · rfl

theorem retireChan_temp (s : State) : ((retireChan d s).chan c).temp = (s.chan c).temp := by
  unfold retireChan
  split
  · obtain ⟨u, gated, channels⟩ := leaveActive_gated d .retired s
    rw [gated, gatePosition_temp, chan_of_channels channels]
    exact chan_updChan_keeps (·.temp) (f := fun x => { x with state := .retired, fullPass := false }) (fun _ => rfl) s d c
  · rw [gatePosition_temp]
    exact chan_updChan_keeps (·.temp) (f := fun x => { x with state := .retired }) (fun _ => rfl) s d c
  · rfl

/-- An active channel keeps its training when another is retired. -/
theorem retireChan_trainTemp (active : (s.chan c).state = .active) (other : c ≠ d) :
    ((retireChan d s).chan c).trainTemp = (s.chan c).trainTemp := by
  unfold retireChan
  split
  · obtain ⟨u, gated, channels⟩ := leaveActive_gated d .retired s
    have same : u.chan c = s.chan c := (chan_of_channels channels c).trans (chan_updChan_other s _ other)
    rw [gated, gatePosition_trainTemp (by rw [same]; exact active), same]
  · have same := chan_updChan_other s (c := d) (fun c => { c with state := .retired }) other
    rw [gatePosition_trainTemp (by rw [same]; exact active), same]
  · rfl

/-- An active channel that is retired is. -/
theorem retireChan_state_of_active (active : (s.chan c).state = .active) : ((retireChan c s).chan c).state = .retired := by
  obtain ⟨u, gated, channels⟩ := leaveActive_gated c .retired s
  have there : c < s.channels.length := chan_there (by rw [active]; decide)
  unfold retireChan
  rw [active]
  change ((leaveActive c .retired s).chan c).state = _
  rw [gated, gatePosition_state, chan_of_channels channels, chan_updChan_same s _ there]

theorem retireChan_of_retired (retired : (s.chan c).state = .retired) : retireChan c s = s := by
  unfold retireChan
  rw [retired]

end

end Sys2Proof.Machine
end

section
/-! PROOFS. Self-tests and calibrations: when a test runs, and what its end leaves (R490 to R494). -/
namespace Sys2Proof.Machine

/-! ## Zeroed ranges -/

theorem cellAt_mem {cells : List Host.Cell} {a : Nat} {b : Byte} (found : cellAt cells a = some b) : (a, b) ∈ cells := by
  induction cells with
  | nil => exact absurd found nofun
  | cons cell rest ih =>
    obtain ⟨k, x⟩ := cell
    simp only [cellAt] at found
    split at found
    · exact absurd found nofun
    · split at found
      case isTrue same =>
        rw [same, Option.some.inj found]
        exact List.mem_cons_self
      case isFalse => exact List.mem_cons_of_mem _ (ih found)

theorem Memory.undefAt_zeroRange_inside {m : Memory} {base size a : Nat} (low : base ≤ a) (high : a < base + size) :
    (m.zeroRange base size).undefAt a = none := by
  refine List.find?_eq_none.mpr fun r hr => ?_
  obtain ⟨x, -, hr⟩ := List.mem_flatMap.mp hr
  simp only [Bool.and_eq_true, decide_eq_true_eq, not_and, Nat.not_lt]
  intro reaches
  split at hr
  case isTrue =>
    rcases List.mem_append.mp hr with below | above
    · split at below
      · rw [List.mem_singleton.mp below] at reaches ⊢
        simp only at reaches ⊢
        omega
      · exact absurd below nofun
    · split at above
      · rw [List.mem_singleton.mp above] at reaches ⊢
        simp only at reaches ⊢
        omega
      · exact absurd above nofun
  case isFalse apart =>
    rw [List.mem_singleton.mp hr] at reaches ⊢
    simp only [overlaps, Bool.and_eq_true, decide_eq_true_eq] at apart
    omega

/-- A zeroed range reads as zero. -/
theorem Memory.read_zeroRange {m : Memory} {base size a : Nat} (low : base ≤ a) (high : a < base + size) :
    (m.zeroRange base size).read a = 0 := by
  have unlisted : cellAt (m.zeroRange base size).cells a = none := by
    refine Option.eq_none_iff_forall_not_mem.mpr fun b hb => ?_
    have kept := (List.mem_filter.mp (cellAt_mem hb)).2
    simp only [Bool.not_eq_true', Bool.and_eq_false_iff, decide_eq_false_iff_not] at kept
    omega
  rw [Memory.read, unlisted, Memory.unlisted, Memory.undefAt_zeroRange_inside low high]
  rfl

/-! ## A deferred test -/

section
variable {x : Test} {s : State}

/-- A test that waits may begin (R493, R494). -/
def TestBegins (x : Test) (s : State) : Prop :=
  x.running = false ∧ (∀ j, s.currentJob = some j → j.stage = .parked) ∧ s.sched.downbeat = false ∧ downbeatDue s = false

theorem exec_deferredTestRun_of_due (test : s.test = some x) (begins : TestBegins x s) :
    exec .deferredTestRun s = .next (beginTest x s) := by
  obtain ⟨waits, free, beat, undue⟩ := begins
  change execDeferredTestRun s = _
  cases current : s.currentJob with
  | none =>
    simp only [execDeferredTestRun, test, current]
    rw [if_pos (by simp [waits, beat, undue])]
  | some j =>
    simp only [execDeferredTestRun, test, current]
    rw [if_pos (by simp [waits, beat, undue, free j current])]

theorem exec_deferredTestRun_of_undue (test : s.test = some x) (undue : ¬ TestBegins x s) : exec .deferredTestRun s = .next s := by
  change execDeferredTestRun s = _
  cases current : s.currentJob with
  | none =>
    simp only [execDeferredTestRun, test, current]
    exact congrArg Host.Outcome.next (if_neg fun yes => undue (by simpa [TestBegins, current, and_assoc] using yes))
  | some j =>
    simp only [execDeferredTestRun, test, current]
    exact congrArg Host.Outcome.next (if_neg fun yes => undue (by simpa [TestBegins, current, and_assoc] using yes))

/-! ## The end of a self-test -/

theorem exec_selftestDone_of_running (test : s.test = some x) (running : x.running = true) (selftest : x.calibrate = false)
    (fails : BitVec 256) (us : Nat) :
    let t := (namedBits x.mask).foldl (fun acc i => targetTested x.target i (bitAt (fails &&& x.mask) i) acc) { s with test := none }
    exec (.selftestDone fails us) s = .next (settle (respond x.fn x.tag 0x80 .ok (selftestResult (fails &&& x.mask) us)
      (if x.target = 0 then strikeFenced t else t))) := by
  change execSelftestDone fails us s = _
  simp only [execSelftestDone, test]
  rw [if_neg (by simp [running, selftest])]

theorem exec_selftestDone_of_calibrate (test : s.test = some x) (calibrate : x.calibrate = true) (fails : BitVec 256) (us : Nat) :
    exec (.selftestDone fails us) s = .next s := by
  change execSelftestDone fails us s = _
  simp only [execSelftestDone, test]
  rw [if_pos (by simp [calibrate])]

/-- A tested core whose resident region is empty. -/
theorem coreTested_of_bare {c : Nat} {t : State} (bare : (t.core c).boundary = 0) (fail : Bool) :
    ∃ u, (coreTested c fail t).cores = u.cores ∧ (coreTested c fail t).mem = u.mem ∧
      u = (zeroScratch c t).updCore c fun k =>
        { k with fenced := fail, tiles := k.tiles.map fun _ => [], rattle := k.rattle.map fun _ => RattleCtx.zero } := by
  refine ⟨_, ?_, ?_, rfl⟩
  · simp only [coreTested, if_pos bare]
    cases fail with
    | true => exact logError_cores ..
    | false => rfl
  · simp only [coreTested, if_pos bare]
    cases fail with
    | true => exact logError_mem ..
    | false => rfl

theorem coreTested_rest {c : Nat} {t : State} (there : c < t.cores.length) (bare : (t.core c).boundary = 0) (fail : Bool) :
    ((coreTested c fail t).core c).fenced = fail ∧ (∀ k, k ≠ c → (coreTested c fail t).core k = t.core k) ∧
    ∀ a, scratchBase c ≤ a → a < scratchBase c + scratchSize → (coreTested c fail t).mem.read a = 0 := by
  obtain ⟨u, cores, mem, tested⟩ := coreTested_of_bare bare fail
  have core (k : Nat) : (coreTested c fail t).core k = u.core k := by rw [State.core, cores, State.core]
  refine ⟨?_, fun k other => ?_, fun a low high => ?_⟩
  · rw [core, tested, core_updCore_same (zeroScratch c t) _ there]
  · rw [core, tested, core_updCore_other _ _ other]
    rfl
  · rw [mem, tested]
    exact Memory.read_zeroRange low high

/-! ## The end of a calibration -/

theorem exec_calibrateDone_of_running (test : s.test = some x) (running : x.running = true) (calibrate : x.calibrate = true)
    (fails : BitVec 128) :
    exec (.calibrateDone fails) s = .next (
      let ps := if x.target = 0 then namedBits x.mask else []
      let bad := if x.target = 0 then failedPositions s x.mask fails else []
      releaseHeld (settle (respond x.fn x.tag 0x81 .ok (packFields [(1, if bad.isEmpty then 0 else 1), (3, 0), (4, (bad.map fun p => 2 ^ p).sum)])
        (ps.foldl (positionTrained fails) { s with test := none })))) := by
  change execCalibrateDone fails s = _
  simp only [execCalibrateDone, test]
  rw [if_neg (by simp [running, calibrate])]

theorem exec_calibrateDone_of_selftest (test : s.test = some x) (selftest : x.calibrate = false) (fails : BitVec 128) :
    exec (.calibrateDone fails) s = .next s := by
  change execCalibrateDone fails s = _
  simp only [execCalibrateDone, test]
  rw [if_pos (by simp [selftest])]

end

/-! ## A position trained again -/

section
variable {fails : BitVec 128} {c : Nat}

/-- What the training of one channel does: it is retired where it fails, and else takes the training. -/
def trainChan (fails : BitVec 128) (s : State) (d : Nat) : State :=
  if bitAt fails d then retireChan d s else s.updChan d fun x => { x with trainTemp := x.temp, pausing := false }

theorem trainChan_state_other {d : Nat} (other : c ≠ d) (s : State) : ((trainChan fails s d).chan c).state = (s.chan c).state := by
  unfold trainChan
  split
  · exact retireChan_state_other other s
  · rw [chan_updChan_other s _ other]

theorem trainChan_temp (s : State) (d : Nat) : ((trainChan fails s d).chan c).temp = (s.chan c).temp := by
  unfold trainChan
  split
  · exact retireChan_temp s
  · exact chan_updChan_keeps (·.temp) (f := fun x => { x with trainTemp := x.temp, pausing := false }) (fun _ => rfl) s d c

/-- A channel that passes is active as before, and keeps the training of an earlier turn. -/
theorem trainChan_of_pass {s : State} (active : (s.chan c).state = .active) (passes : bitAt fails c = false) (d : Nat) :
    ((trainChan fails s d).chan c).state = .active ∧
    ((s.chan c).trainTemp = (s.chan c).temp ∨ d = c → ((trainChan fails s d).chan c).trainTemp = (s.chan c).temp) := by
  by_cases same : c = d
  · subst same
    have there : c < s.channels.length := chan_there (by rw [active]; decide)
    rw [trainChan, if_neg (by simp [passes]), chan_updChan_same s _ there]
    exact ⟨active, fun _ => rfl⟩
  · refine ⟨(trainChan_state_other same s).trans active, fun trained => ?_⟩
    have trained := trained.resolve_right fun equal => same equal.symm
    unfold trainChan
    split
    · rw [retireChan_trainTemp active same, trained]
    · rw [chan_updChan_other s _ same, trained]

theorem foldl_trainChan_of_pass (l : List Nat) {s : State} (active : (s.chan c).state = .active) (passes : bitAt fails c = false) :
    ((l.foldl (trainChan fails) s).chan c).state = .active ∧
    ((s.chan c).trainTemp = (s.chan c).temp ∨ c ∈ l → ((l.foldl (trainChan fails) s).chan c).trainTemp = (s.chan c).temp) := by
  induction l generalizing s with
  | nil => exact ⟨active, fun trained => trained.resolve_right nofun⟩
  | cons d l ih =>
    obtain ⟨still, trained⟩ := trainChan_of_pass active passes d
    obtain ⟨ends, rest⟩ := ih still
    refine ⟨ends, fun before => ?_⟩
    rw [trainChan_temp] at rest
    refine rest ?_
    rcases before with old | mem
    · exact Or.inl (trained (Or.inl old))
    · rcases List.mem_cons.mp mem with first | later
      · exact Or.inl (trained (Or.inr first.symm))
      · exact Or.inr later

theorem foldl_trainChan_retired (l : List Nat) {s : State} (retired : (s.chan c).state = .retired) (bad : bitAt fails c = true) :
    ((l.foldl (trainChan fails) s).chan c).state = .retired := by
  induction l generalizing s with
  | nil => exact retired
  | cons d l ih =>
    refine ih ?_
    by_cases same : c = d
    · subst same
      rw [trainChan, if_pos bad, retireChan_of_retired retired]
      exact retired
    · exact (trainChan_state_other same s).trans retired

theorem foldl_trainChan_of_fail {l : List Nat} {s : State} (active : (s.chan c).state = .active) (bad : bitAt fails c = true)
    (mem : c ∈ l) : ((l.foldl (trainChan fails) s).chan c).state = .retired := by
  induction l generalizing s with
  | nil => exact absurd mem nofun
  | cons d l ih =>
    by_cases same : c = d
    · subst same
      refine foldl_trainChan_retired l ?_ bad
      rw [trainChan, if_pos bad]
      exact retireChan_state_of_active active
    · exact ih ((trainChan_state_other same s).trans active) ((List.mem_cons.mp mem).resolve_left same)

/-- The channels of a position after its training: those of its fitted channels' training. -/
theorem positionTrained_chan (fails : BitVec 128) (t : State) (p c : Nat) :
    (positionTrained fails t p).chan c =
      ((((posChans p).filter fun c => !((t.chan c).state == .absent)).foldl (trainChan fails) t).chan c) := by
  simp only [positionTrained]
  split
  · exact chan_of_channels (logError_channels ..) c
  · rfl

theorem fitted_of_active {t : State} {p : Nat} (mem : c ∈ posChans p) (active : (t.chan c).state = .active) :
    c ∈ (posChans p).filter fun c => !((t.chan c).state == .absent) :=
  List.mem_filter.mpr ⟨mem, by simp [active]⟩

end

/-- Settles O52: a test begins and ends by its own command, and what it tested follows the result. -/
theorem testsEndWithTheirResults : Obligations.TestsEndWithTheirResults := by
  unfold Obligations.TestsEndWithTheirResults
  intro x s test
  refine ⟨exec_deferredTestRun_of_due test, exec_deferredTestRun_of_undue test,
    fun fails us running selftest => exec_selftestDone_of_running test running selftest fails us, fun c fail t there bare => ?_,
    fun fails running calibrate target => ?_, fun fails running calibrate target => ?_,
    fun p fails t _ _ => ⟨fun c mem active passes => ?_, fun c mem active bad => ?_⟩,
    fun calibrate fails us => exec_selftestDone_of_calibrate test calibrate fails us,
    fun selftest fails => exec_calibrateDone_of_selftest test selftest fails⟩
  · obtain ⟨fenced, others, zero⟩ := coreTested_rest there bare fail
    exact ⟨fenced, others, fun _ => zero⟩
  · have done := exec_calibrateDone_of_running test running calibrate fails
    simp only [if_pos target, List.isEmpty_iff] at done
    exact done
  · have done := exec_calibrateDone_of_running test running calibrate fails
    simp only [if_neg target] at done
    exact done
  · obtain ⟨still, trained⟩ := foldl_trainChan_of_pass ((posChans p).filter fun c => !((t.chan c).state == .absent)) active passes
    rw [positionTrained_chan]
    exact ⟨still, trained (Or.inr (fitted_of_active mem active))⟩
  · rw [positionTrained_chan]
    exact foldl_trainChan_of_fail active bad (fitted_of_active mem active)

end Sys2Proof.Machine
end

section
/-! PROOFS. Parity errors: what is logged, what is struck, and the halt of the firmware (R520 to R523). -/
namespace Sys2Proof.Machine

/-! ## Units and tables -/

section
variable {c : Fin 256} {s : State}

theorem detectedAt_eq (u : UnitId) (s : State) :
    detectedAt (s.unit u) =
      match (s.unit u).inflight.head? with | some i => (i.bar, i.desc) | none => ((s.unit u).bar, noDesc) := by
  unfold detectedAt
  split <;> simp_all

theorem coreUnit_mu (c : Fin 256) (mu : Fin 4) : coreUnit c (Fin.ofNat 16 (mu.val + 1)) = muUnit c.val mu.val := by
  rw [coreUnit, muUnit, show Fin.ofNat 256 c.val = c from Fin.ofNat_val_eq_self c]

theorem exec_residentParityError_of_region (v : Fin 16) (region : (s.core c.val).boundary ≠ 0) :
    exec (.residentParityError c v) s = .next (settle (askRefill c.val
      (if inRunningLayout s c.val then parityStrike 0x02 (.core c v) (detectedAt (s.unit (.core c v))) s
       else logError 0x02 0 .ok 0xFF v.val c.val 0 s))) :=
  congrArg Host.Outcome.next (if_neg region)

theorem exec_residentParityError_of_none (v : Fin 16) (none_ : (s.core c.val).boundary = 0) :
    exec (.residentParityError c v) s = .next s :=
  congrArg Host.Outcome.next (if_pos none_)

theorem askRefill_of_backed {t : State} (k : Nat) (backed : t.resident.unbacked = false) :
    (askRefill k t).resident.refills.contains k = true ∧ (askRefill k t).sched = t.sched := by
  rw [askRefill, if_neg (by simp [backed])]
  split
  case isTrue asked => exact ⟨asked, rfl⟩
  case isFalse => simp

/-- A refill of a core's resident region is due to end. -/
structure RefillEnds (s : State) (k : Nat) (r : ResidentImage) : Prop where
  asked : s.resident.refills.contains k = true
  free : s.resident.swap = none
  image : s.resident.cur = some r
  reads : onSuspended s [segmentAt r k] = false

/-- The state in which a refill has ended. -/
def refilled (s : State) (k : Nat) : State :=
  { s with resident := { s.resident with refills := s.resident.refills.filter fun x => !(x == k) } }

theorem exec_residentRefillDone {r : ResidentImage} (ends : RefillEnds s c.val r) (ok : Bool) :
    exec (.residentRefillDone c ok) s = .next (settle (
      if ok && !s.resident.unbacked then fillCore r c.val (refilled s c.val) else invalidateResident (refilled s c.val))) := by
  obtain ⟨asked, free, image, reads⟩ := ends
  change execResidentRefillDone c ok s = _
  simp only [execResidentRefillDone, image]
  rw [if_neg (by simp only [asked, free, reads]; decide)]
  simp only [refilled, image]

theorem exec_malletParityError_of_unused (mu : Fin 4) :
    exec (.malletParityError c mu true) s =
      .next ((logError 0x03 0 .ok 0xFF (mu.val + 1) c.val 0 s).updCore c.val fun k => { k with tiles := updAt k.tiles mu.val fun _ => [] }) := by
  have stave : (Fin.ofNat 16 (mu.val + 1)).val = mu.val + 1 := Nat.mod_eq_of_lt (by omega)
  change execMalletParityError c mu true s = _
  simp only [execMalletParityError, if_true, stave]

theorem exec_malletParityError_of_used (mu : Fin 4) :
    exec (.malletParityError c mu false) s =
      .next (settle (parityStrike 0x03 (muUnit c.val mu.val) (detectedAt (s.unit (muUnit c.val mu.val))) s)) := by
  change execMalletParityError c mu false s = _
  simp only [execMalletParityError, Bool.false_eq_true, if_false, coreUnit_mu]

theorem exec_gangParityError_of_running {mu : Fin 4} {sa : Fin 8} {j : Job} {i : Inflight} {low : Nat} (current : s.currentJob = some j)
    (partition : gangPartition s j (muUnit c.val mu.val) sa.val = some (i, low))
    (running : (i.key, mu.val * 8 + low) ∉ (s.core c.val).stoppedParts) :
    exec (.gangParityError c mu sa) s =
      .next ((logError 0x04 1 .struck (runningFn s) (mu.val + 1) (mu.val * 8 + low) i.bar s).updCore c.val fun k =>
        { k with stoppedParts := k.stoppedParts ++ [(i.key, mu.val * 8 + low)] }) := by
  change execGangParityError c mu sa s = _
  simp only [execGangParityError, coreUnit_mu, current, Option.bind_some, partition]
  rw [if_neg (by simpa using running)]

theorem exec_staveParityError_again (u : UnitId) :
    exec (.staveParityError u true) s = .next (settle (parityStrike 0x05 u ((s.unit u).bar, noDesc) s)) := rfl

theorem exec_staveParityError_once (u : UnitId) :
    exec (.staveParityError u false) s = .next (logError 0x05 0 .ok 0xFF (unitStave u) (unitCore u) (s.unit u).bar s) := rfl

/-! ## Flits and FIFO entries -/

theorem exec_fifoParityError_of_held {domain p : Nat} (found : (domainBuffers domain).find? (holdsFlit s) = some p) :
    exec (.fifoParityError .peal domain) s = .next (settle (dropOldest p (ownerMeets 0x08 .peal domain s))) := by
  change execFifoParityError .peal domain s = _
  simp only [execFifoParityError, found]

theorem exec_fifoParityError_of_none {owner : FlitOwner} {domain : Nat}
    (none_ : owner ≠ .peal ∨ ∀ p ∈ domainBuffers domain, holdsFlit s p = false) :
    exec (.fifoParityError owner domain) s = .next (settle (ownerMeets 0x08 owner domain s)) := by
  change execFifoParityError owner domain s = _
  cases owner with
  | job => rfl
  | bar2 => rfl
  | peal =>
    have empty : (domainBuffers domain).find? (holdsFlit s) = none := by simpa using none_
    simp only [execFifoParityError, empty]

end

/-! ## Amior -/

section
variable {s : State}

/-- Every function is without a mailbox and without queues. -/
def NoRings (s : State) : Prop := ∀ f ∈ s.funcs, f.mailbox = none ∧ ∀ q ∈ f.queues, q = none

theorem noRings_updFunc {f : Func → Func} (keeps : ∀ g, (f g).mailbox = g.mailbox ∧ (f g).queues = g.queues) (fn : Nat)
    (clear : NoRings s) : NoRings (s.updFunc fn f) := by
  intro g hg
  obtain ⟨i, hi, rfl⟩ := List.mem_iff_getElem.mp hg
  simp only [State.updFunc, updAt, List.length_modify] at hi
  have old := clear _ (List.getElem_mem hi)
  simp only [State.updFunc, updAt, List.getElem_modify]
  split
  · rw [(keeps _).1, (keeps _).2]
    exact old
  · exact old

theorem noRings_raiseIrq (fn bit : Nat) (clear : NoRings s) : NoRings (raiseIrq fn bit s) := by
  unfold raiseIrq
  dsimp only
  split
  · exact clear
  · have raised := noRings_updFunc (s := s) (f := fun g => { g with irqStatus := g.irqStatus ||| BitVec.ofNat 11 (2 ^ bit) })
      (fun _ => ⟨rfl, rfl⟩) fn clear
    split
    · unfold sendMsix
      split
      · exact noRings_updFunc (f := fun g => { g with vectorPending := g.vectorPending ||| BitVec.ofNat 16 (2 ^ bit) }) (fun _ => ⟨rfl, rfl⟩) fn raised
      · exact raised
    · exact raised

theorem noRings_raiseIrqs (fns : List Nat) (bit : Nat) (clear : NoRings s) : NoRings (raiseIrqs fns bit s) := by
  induction fns generalizing s with
  | nil => exact clear
  | cons fn fns ih => exact ih (noRings_raiseIrq fn bit clear)

theorem noRings_setFwState (st : FwState) (err : Status) (clear : NoRings s) : NoRings (setFwState st err s) :=
  noRings_raiseIrqs _ _ clear

theorem noRings_dropRings (s : State) : NoRings (dropRings s) := by
  intro f hf
  obtain ⟨g, -, rfl⟩ := List.mem_map.mp hf
  exact ⟨rfl, fun q hq => List.eq_of_mem_replicate hq⟩

/-- The state but for the ports and what is in flight there. -/
def State.offPorts (s : State) : State := { s with fabric := State.reset.fabric }

theorem offPorts_stopPort (st : PortState) (p : Nat) (s : State) : (stopPort st p s).offPorts = s.offPorts :=
  foldl_field State.offPorts (fun acc (w : Nat × BitVec 6 × Flit) => oweCredit w.1 w.2.1 acc) (fun _ _ => rfl) _ _

theorem offPorts_idlePorts (s : State) : (idlePorts s).offPorts = s.offPorts := by
  simp only [idlePorts]
  generalize List.range 16 = ports
  refine foldl_field State.offPorts _ (fun t p => ?_) ports s
  split
  · rfl
  · exact offPorts_stopPort ..

theorem offPorts_dropHeld (j : Job) (s : State) : (dropHeld j s).offPorts = s.offPorts :=
  foldl_field State.offPorts (fun acc (w : Nat × BitVec 14 × Flit) => oweCredit w.1 w.2.2.vc acc) (fun _ _ => rfl) _ _

theorem offPorts_foldl_dropHeld (l : List Job) (s : State) : (l.foldl (fun acc j => dropHeld j acc) s).offPorts = s.offPorts :=
  foldl_field State.offPorts _ (fun _ _ => offPorts_dropHeld ..) l s

/-- The end of the service: rings and jobs are gone, memory and the log stand. -/
theorem endService_rest (s : State) :
    let t := endService s
    t.log = s.log ∧ t.mem = s.mem ∧ t.host = s.host ∧ t.sched.jobs = [] ∧ t.sched.current = none ∧ NoRings t := by
  have held := offPorts_foldl_dropHeld (dropRings s).sched.jobs (idleUnits (dropRings s))
  refine ⟨(congrArg State.log held :), (congrArg State.mem held :), (congrArg State.host held :), rfl, rfl, fun f hf => ?_⟩
  have funcs : (endService s).funcs = (dropRings s).funcs := (congrArg State.funcs held :)
  rw [funcs] at hf
  exact noRings_dropRings s f hf

theorem rest_of_offPorts {t : State} (same : t.offPorts = s.offPorts) : t.log = s.log ∧ t.mem = s.mem ∧ t.host = s.host :=
  ⟨(congrArg State.log same :), (congrArg State.mem same :), (congrArg State.host same :)⟩

theorem haltFirmware_rest (err : Status) (s : State) :
    let t := haltFirmware err s
    t.fw.state = .failed ∧ t.fw.error = err ∧ t.log = s.log ∧ t.sched.jobs = [] ∧ t.sched.current = none ∧ t.mem = s.mem ∧
    t.host = s.host ∧ NoRings t := by
  obtain ⟨log, mem, host, jobs, current, rings⟩ := endService_rest (idlePorts s)
  obtain ⟨log', mem', host'⟩ := rest_of_offPorts (offPorts_idlePorts s)
  simp only [haltFirmware]
  generalize endService (idlePorts s) = u at log mem host jobs current rings ⊢
  rw [setFwState_fw, setFwState_log, setFwState_sched, setFwState_mem, setFwState_host]
  refine ⟨rfl, rfl, log.trans log', jobs, current, mem.trans mem', host.trans host', ?_⟩
  have kept := noRings_setFwState .failed err rings
  generalize setFwState .failed err u = w at kept ⊢
  exact kept

theorem exec_amiorParityError_of_alive (reset : s.pins.devResetN = true) (alive : s.fw.state ≠ .failed) :
    exec .amiorParityError s = .next (haltFirmware .parity s) :=
  congrArg Host.Outcome.next (if_neg (by simp [reset, alive]))

theorem exec_amiorParityError_of_halted (halted : ¬ (s.pins.devResetN = true ∧ s.fw.state ≠ .failed)) :
    exec .amiorParityError s = .next s :=
  congrArg Host.Outcome.next (if_pos (by
    cases reset : s.pins.devResetN with
    | false => rfl
    | true => simpa [reset] using halted))

end

/-- Settles O53: each error by where it stands, with its entry in the log and what it strikes; of Amior the firmware halts. -/
theorem parityErrorsAreLoggedAndStrike : Obligations.ParityErrorsAreLoggedAndStrike := by
  unfold Obligations.ParityErrorsAreLoggedAndStrike
  refine ⟨fun c s => ?_, fun owner s => ?_⟩
  · intro struckAt struck
    have struck_eq (source : Nat) (u : UnitId) : parityStrike source u (detectedAt (s.unit u)) s = struck source u := by
      rw [detectedAt_eq]
      rfl
    refine ⟨fun v => ?_, fun v region => ?_, fun v none_ => exec_residentParityError_of_none v none_,
      fun t backed => askRefill_of_backed c.val backed, fun r asked free image reads => ?_, fun mu => ⟨exec_malletParityError_of_unused mu, ?_⟩,
      fun mu sa j i low current partition running => exec_gangParityError_of_running current partition running,
      fun u => ⟨exec_staveParityError_again u, exec_staveParityError_once u⟩, fun slot => rfl⟩
    · rw [← struck_eq]
      rfl
    · rw [← struck_eq]
      exact exec_residentParityError_of_region v region
    · intro t
      refine ⟨fun backed => ⟨?_, rfl⟩, ?_⟩
      · rw [exec_residentRefillDone ⟨asked, free, image, reads⟩, if_pos (by simp [backed])]
        rfl
      · rw [exec_residentRefillDone ⟨asked, free, image, reads⟩, if_neg (by simp)]
        rfl
    · rw [← struck_eq]
      exact exec_malletParityError_of_used mu
  · intro met alive
    have met_eq (source place : Nat) : ownerMeets source owner place s = met source place := by
      simp only [met, ownerMeets]
      cases owner <;> cases s.currentJob <;> rfl
    refine ⟨fun row => ?_, fun domain => ⟨fun p own found => ?_, fun other => ?_⟩, fun alive => ?_, exec_amiorParityError_of_halted⟩
    · rw [← met_eq]
      rfl
    · rw [← met_eq]
      subst own
      exact exec_fifoParityError_of_held found
    · rw [← met_eq]
      exact exec_fifoParityError_of_none other
    · exact nextWith_next (exec_amiorParityError_of_alive alive.1 alive.2) (haltFirmware_rest .parity s)

end Sys2Proof.Machine
end

section
/-! PROOFS. Events of a memory channel: retries, heat, retraining and losses (R282 to R286, R524, R525). -/
namespace Sys2Proof.Machine

section
variable {ch : Fin 128} {s : State}

/-- A channel changed is a channel put in its place. -/
theorem updChan_eq (f : Channel → Channel) (there : ch.val < s.channels.length) :
    s.updChan ch.val f = { s with channels := s.channels.set ch.val (f (s.chan ch.val)) } := by
  have same : s.channels[ch.val] = s.chan ch.val := by
    rw [State.chan, List.getD_eq_getElem?_getD, List.getElem?_eq_getElem there]
    rfl
  rw [State.updChan, updAt_set _ _ _ there, same]

/-! ## Retries -/

theorem exec_memCrcRetry_of_retry (who : MemRequester) {n : Nat} (present : (s.chan ch.val).state ≠ .absent) (first : 1 ≤ n)
    (last : n ≤ 8) : exec (.memCrcRetry ch who n) s = .next (s.updChan ch.val fun c => { c with retries := satAdd 16 c.retries 1 }) := by
  change execMemCrcRetry ch who n s = _
  rw [execMemCrcRetry, if_neg (by simp [present]; omega), if_pos last]

theorem exec_memCrcRetry_of_exhausted (who : MemRequester) (present : (s.chan ch.val).state ≠ .absent) :
    let t := exhaust ch.val who (match exhaustEnds s who with
      | some j => logError 0x10 1 (if who = .swapCopy then .verify else .struck) j.fn 0xFF ch.val (chanBase ch.val) s
      | none => logError 0x10 0 .memUncorrectable 0xFF 0xFF ch.val (chanBase ch.val) s)
    let recent := ((s.chan ch.val).exhausted.filter fun x => decide (s.time < x + 86400000000)) ++ [s.time]
    let u := t.updChan ch.val fun x => { x with exhausted := recent }
    exec (.memCrcRetry ch who 9) s = .next (settle (if 3 ≤ recent.length then retireChan ch.val u else u)) := by
  change execMemCrcRetry ch who 9 s = _
  rw [execMemCrcRetry, if_neg (by simp [present]), if_neg (by decide)]
  cases exhaustEnds s who <;> rfl

/-! ## Heat -/

theorem updChan_id (s : State) (k : Nat) : s.updChan k (fun x => x) = s := by
  rw [State.updChan, updAt, show (fun x : Channel => x) = id from rfl, List.modify_id]

theorem updChan_updChan (s : State) (k : Nat) (f g : Channel → Channel) :
    (s.updChan k f).updChan k g = s.updChan k fun x => g (f x) := by
  simp only [State.updChan, updAt, List.modify_modify_eq]
  rfl

/-- A change of heat may be logged. -/
def MayLog (k : Nat) (s t : State) : Prop := t = s ∨ ∃ h, t = logError 0x12 0 .ok 0xFF 0xFF k h s

/-- What a poll does to a channel that is present: it takes the reading and the heat after it, which may be logged, and may begin to
retrain. -/
theorem pollChan_of_present (temps : List Int) {k : Nat} (present : (s.chan k).state ≠ .absent) :
    ∃ (f g : Channel → Channel) (u : State), pollChan temps s k = u.updChan k g ∧ MayLog k (s.updChan k f) u ∧
      (∀ x, (f x).temp = temps.getD (chanPos k) (s.chan k).temp ∧
        (f x).heat = heatAfter (s.chan k) (temps.getD (chanPos k) (s.chan k).temp)) ∧
      ∀ x, (g x).temp = x.temp ∧ (g x).heat = x.heat := by
  set t := temps.getD (chanPos k) (s.chan k).temp with ht
  set h := heatAfter (s.chan k) t with hh
  have reading : ∃ f : Channel → Channel, (∀ x, (f x).temp = t ∧ (f x).heat = h) ∧
      (if h == .suspended && !((s.chan k).heat == .suspended) then
        (s.updChan k fun x => { x with temp := t, heat := h }).updChan k fun x =>
          { x with suspendedAt := s.time, suspendLimit := s.staged.cur.memSuspendLimit }
       else s.updChan k fun x => { x with temp := t, heat := h }) = s.updChan k f := by
    split
    · exact ⟨_, fun _ => ⟨rfl, rfl⟩, updChan_updChan ..⟩
    · exact ⟨_, fun _ => ⟨rfl, rfl⟩, rfl⟩
  obtain ⟨f, reads, reading⟩ := reading
  have polled : pollChan temps s k =
      if !(h == .suspended) && !(s.chan k).pausing &&
          (decide (k < 96) && decide (8 ≤ (t - (s.chan k).trainTemp).natAbs) || (s.chan k).heat == .suspended)
      then beginRetrain k (if h = (s.chan k).heat then s.updChan k f else logError 0x12 0 .ok 0xFF 0xFF k h.code (s.updChan k f))
      else if h = (s.chan k).heat then s.updChan k f else logError 0x12 0 .ok 0xFF 0xFF k h.code (s.updChan k f) := by
    rw [← reading]
    exact if_neg (by simpa using present)
  have log : MayLog k (s.updChan k f)
      (if h = (s.chan k).heat then s.updChan k f else logError 0x12 0 .ok 0xFF 0xFF k h.code (s.updChan k f)) := by
    split
    · exact Or.inl rfl
    · exact Or.inr ⟨_, rfl⟩
  rw [polled]
  split
  · exact ⟨f, _, _, rfl, log, reads, fun _ => ⟨rfl, rfl⟩⟩
  · exact ⟨f, _, _, (updChan_id _ k).symm, log, reads, fun _ => ⟨rfl, rfl⟩⟩

theorem pollChan_of_absent (temps : List Int) {k : Nat} (absent : (s.chan k).state = .absent) : pollChan temps s k = s :=
  if_pos (by simp [absent])

theorem MayLog.rest {k : Nat} {t : State} (log : MayLog k s t) : t.mem = s.mem ∧ t.sched = s.sched ∧ t.channels = s.channels := by
  rcases log with rfl | ⟨h, rfl⟩
  · exact ⟨rfl, rfl, rfl⟩
  · exact ⟨logError_mem .., logError_sched .., logError_channels ..⟩

theorem pollChan_rest (temps : List Int) (s : State) (k : Nat) :
    (pollChan temps s k).mem = s.mem ∧ (pollChan temps s k).sched = s.sched ∧
    ∀ c, c ≠ k → (pollChan temps s k).chan c = s.chan c := by
  by_cases absent : (s.chan k).state = .absent
  · rw [pollChan_of_absent temps absent]
    exact ⟨rfl, rfl, fun _ _ => rfl⟩
  · obtain ⟨f, g, u, polled, log, -, -⟩ := pollChan_of_present temps absent
    obtain ⟨mem, sched, channels⟩ := log.rest
    rw [polled]
    refine ⟨mem, sched, fun c other => ?_⟩
    rw [chan_updChan_other _ _ other, chan_of_channels channels, chan_updChan_other _ _ other]

theorem pollChan_same (temps : List Int) {k : Nat} (present : (s.chan k).state ≠ .absent) :
    ((pollChan temps s k).chan k).temp = temps.getD (chanPos k) (s.chan k).temp ∧
    ((pollChan temps s k).chan k).heat = heatAfter (s.chan k) (temps.getD (chanPos k) (s.chan k).temp) := by
  have there := chan_there present
  obtain ⟨f, g, u, polled, log, reads, keeps⟩ := pollChan_of_present temps present
  obtain ⟨-, -, channels⟩ := log.rest
  have thereU : k < u.channels.length := by
    rw [channels, State.updChan, updAt, List.length_modify]
    exact there
  rw [polled, chan_updChan_same u g thereU, (keeps _).1, (keeps _).2, chan_of_channels channels, chan_updChan_same s f there]
  exact reads _

theorem foldl_pollChan_rest (temps : List Int) (l : List Nat) (s : State) :
    (l.foldl (pollChan temps) s).mem = s.mem ∧ (l.foldl (pollChan temps) s).sched = s.sched ∧
    ∀ c, c ∉ l → (l.foldl (pollChan temps) s).chan c = s.chan c := by
  induction l generalizing s with
  | nil => exact ⟨rfl, rfl, fun _ _ => rfl⟩
  | cons k l ih =>
    obtain ⟨mem, sched, others⟩ := ih (pollChan temps s k)
    obtain ⟨mem', sched', others'⟩ := pollChan_rest temps s k
    refine ⟨mem.trans mem', sched.trans sched', fun c other => ?_⟩
    simp only [List.mem_cons, not_or] at other
    exact (others c other.2).trans (others' c other.1)

/-- Each channel is read once. -/
theorem foldl_pollChan_same (temps : List Int) {l : List Nat} (once : l.Nodup) {k : Nat} (mem : k ∈ l)
    (present : (s.chan k).state ≠ .absent) :
    ((l.foldl (pollChan temps) s).chan k).temp = temps.getD (chanPos k) (s.chan k).temp ∧
    ((l.foldl (pollChan temps) s).chan k).heat = heatAfter (s.chan k) (temps.getD (chanPos k) (s.chan k).temp) := by
  induction l generalizing s with
  | nil => exact absurd mem nofun
  | cons d l ih =>
    obtain ⟨first, once⟩ := List.nodup_cons.mp once
    rw [List.foldl_cons]
    rcases List.mem_cons.mp mem with rfl | later
    · rw [(foldl_pollChan_rest temps l _).2.2 k first]
      exact pollChan_same temps present
    · have other : k ≠ d := fun same => first (same ▸ later)
      have before := (pollChan_rest temps s d).2.2 k other
      have rest := ih once later (s := pollChan temps s d) (by rw [before]; exact present)
      rw [before] at rest
      exact rest

/-- What a poll of some channels leaves, and what it reads. -/
theorem polled_rest (temps : List Int) {l : List Nat} (once : l.Nodup) :
    let t := updateAlert (l.foldl (pollChan temps) s)
    t.mem = s.mem ∧ t.sched = s.sched ∧ ∀ k ∈ l, (s.chan k).state ≠ .absent →
      (t.chan k).temp = temps.getD (chanPos k) (s.chan k).temp ∧ (t.chan k).heat = heatAfter (s.chan k) (t.chan k).temp := by
  obtain ⟨mem, sched, -⟩ := foldl_pollChan_rest temps l s
  refine ⟨mem, sched, fun k mem present => ?_⟩
  obtain ⟨temp, heat⟩ := foldl_pollChan_same temps once mem present
  exact ⟨temp, heat.trans (congrArg (heatAfter (s.chan k)) temp.symm)⟩

theorem exec_memTempPoll_of_stopped (temps : List Int) (stopped : s.fw.state = .failed ∨ s.fw.state = .bare) :
    exec (.memTempPoll temps) s = .next s :=
  congrArg Host.Outcome.next (if_pos (by rcases stopped with h | h <;> simp [h]))

theorem exec_memTempPoll_of_reads (temps : List Int) (running : s.fw.state ≠ .failed) (full : s.fw.state ≠ .bare) :
    exec (.memTempPoll temps) s = .next (updateAlert ((List.range 128).foldl (pollChan temps) s)) :=
  congrArg Host.Outcome.next (if_neg (by simp [running, full]))

/-! ## Waits on a suspended channel -/

theorem exec_memSuspendTimeout_of_late (suspended : (s.chan ch.val).heat = .suspended)
    (late : ∃ j ∈ s.sched.jobs, jobWaitsTooLong s ch.val j = true) :
    exec (.memSuspendTimeout ch) s = .next (settle (strikeWhere (jobWaitsTooLong s ch.val) .thermal 3 (detailChannel ch.val)
      ((s.sched.jobs.filter (jobWaitsTooLong s ch.val)).foldl
        (fun acc j => logError 0x12 1 .struck j.fn 0xFF ch.val (chanBase ch.val) acc) s))) :=
  congrArg Host.Outcome.next (if_pos (by simpa [suspended] using late))

theorem exec_memSuspendTimeout_of_none
    (none_ : (s.chan ch.val).heat ≠ .suspended ∨ ∀ j ∈ s.sched.jobs, jobWaitsTooLong s ch.val j = false) :
    exec (.memSuspendTimeout ch) s = .next s := by
  refine congrArg Host.Outcome.next (if_neg fun yes => ?_)
  simp only [Bool.and_eq_true, beq_iff_eq, List.any_eq_true] at yes
  obtain ⟨suspended, j, mem, late⟩ := yes
  rcases none_ with heat | all
  · exact heat suspended
  · simp [all j mem] at late

/-- A stroke in flight that has waited past its limit makes its job late. -/
theorem jobWaitsTooLong_of_stroke {j : Job} {u : UnitId} {i : Inflight} {k : Nat} (current : s.sched.current = some j.id)
    (running : j.stage = .running) (active : u ∈ activeUnits s) (flight : i ∈ (s.unit u).inflight)
    (touches : anyTouches k (flightRuns s u i) = true) (since : (s.chan k).suspendedAt ≤ i.firedAt)
    (past : 1000 * i.memLimit < s.time - i.firedAt) : jobWaitsTooLong s k j = true := by
  have waited : waitedTooLong s k i.firedAt i.memLimit = true := by
    rw [waitedTooLong]
    simpa only [if_pos since, Nat.max_eq_left since, decide_eq_true_eq] using past
  have some_ : ((activeUnits s).any fun u => (s.unit u).inflight.any fun i =>
      waitedTooLong s k i.firedAt i.memLimit && anyTouches k (flightRuns s u i)) = true :=
    List.any_eq_true.mpr ⟨u, active, List.any_eq_true.mpr ⟨i, flight, by rw [waited, touches]; rfl⟩⟩
  simp only [jobWaitsTooLong, current, running, some_]
  simp

/-! ## Retraining -/

/-- A channel may be trained again. -/
def MayRetrain (s : State) (k : Nat) : Prop :=
  (s.chan k).state ≠ .absent ∧ (s.chan k).heat ≠ .suspended ∧ (s.chan k).pausing = false

theorem exec_memRetrain_of_gddr (gddr : ch.val < 96) (may : MayRetrain s ch.val) :
    exec (.memRetrain ch) s = .next (beginRetrain ch.val s) := by
  obtain ⟨present, cool, idle⟩ := may
  exact congrArg Host.Outcome.next (if_pos (by simp [gddr, present, cool, idle]))

theorem exec_cammRecalibrate_of_camm (camm : 96 ≤ ch.val) (may : MayRetrain s ch.val) :
    exec (.cammRecalibrate ch) s = .next (s.updChan ch.val fun x => { x with pausing := true }) := by
  obtain ⟨present, cool, idle⟩ := may
  exact congrArg Host.Outcome.next (if_pos (by simp [camm, present, cool, idle]))

/-- A failed training is logged. -/
def trainingFailed (ch : Fin 128) (t : State) : State := logError 0x13 0 .ok 0xFF 0xFF ch.val (chanBase ch.val) t

theorem exec_memRetrainDone_of_pausing (pausing : (s.chan ch.val).pausing = true) (ok again : Bool) :
    let back := s.updChan ch.val fun c => { c with pausing := false, trainTemp := c.temp }
    exec (.memRetrainDone ch ok again) s = .next (
      if ok then back else if again then trainingFailed ch back
      else settle (notePosition (chanPos ch.val) 3 (retireChan ch.val (trainingFailed ch (trainingFailed ch back))))) :=
  congrArg Host.Outcome.next (if_neg (by simp [pausing]))

/-! ## Modules and supplies lost -/

theorem any_fitted_iff (p : Nat) : ((posChans p).any fun c => !((s.chan c).state == .absent)) = true ↔
    ∃ k ∈ posChans p, (s.chan k).state ≠ .absent := by
  simp

theorem exec_cammModuleLost_of_fitted {m : Fin 4} (fitted : ∃ k ∈ posChans (24 + m.val), (s.chan k).state ≠ .absent) :
    exec (.cammModuleLost m) s = .next (settle (notePosition (24 + m.val) 4 (retirePosition (24 + m.val) s))) :=
  congrArg (fun t => Host.Outcome.next (settle t)) (if_pos ((any_fitted_iff _).mpr fitted))

theorem exec_cammModuleLost_of_empty {m : Fin 4} (empty : ∀ k ∈ posChans (24 + m.val), (s.chan k).state = .absent) :
    exec (.cammModuleLost m) s = .next (settle (retirePosition (24 + m.val) s)) :=
  congrArg (fun t => Host.Outcome.next (settle t)) (if_neg fun yes => by
    obtain ⟨k, mem, present⟩ := (any_fitted_iff _).mp yes
    exact present (empty k mem))

theorem exec_memorySupplyFault_of_fitted {p : Fin 28} (fitted : ∃ k ∈ posChans p.val, (s.chan k).state ≠ .absent) :
    exec (.memorySupplyFault p) s = .next (settle (
      if p.val < 24 then notePosition p.val 4 (retirePosition p.val s) else retirePosition p.val s)) :=
  congrArg Host.Outcome.next (if_neg (by rw [(any_fitted_iff _).mpr fitted]; decide))

end

/-- Settles O54: each event of a channel by the state of the channel that it meets. -/
theorem channelEventsHaveTheirEffect : Obligations.ChannelEventsHaveTheirEffect := by
  unfold Obligations.ChannelEventsHaveTheirEffect
  intro ch s full c put logged
  have there : ch.val < s.channels.length := by rw [full]; exact ch.isLt
  refine ⟨fun who n present first last => ?_, fun who present => exec_memCrcRetry_of_exhausted who present,
    fun temps stopped => exec_memTempPoll_of_stopped temps stopped, fun temps running served => ?_, ?_,
    fun gddr present cool idle => ?_, fun camm present cool idle => ?_, fun pausing => ?_, fun p st t => ⟨?_, rfl⟩, fun a active => ?_, rfl,
    fun m fitted => exec_cammModuleLost_of_fitted fitted, fun m empty => exec_cammModuleLost_of_empty empty, fun p fitted => ?_⟩
  · rw [exec_memCrcRetry_of_retry who present first last, updChan_eq _ there]
    rfl
  · obtain ⟨mem, sched, read⟩ := polled_rest (s := s) temps List.nodup_range
    exact nextWith_next (exec_memTempPoll_of_reads temps running served)
      ⟨mem, sched, fun k small => read k (List.mem_range.mpr small)⟩
  · exact ⟨exec_memSuspendTimeout_of_late, exec_memSuspendTimeout_of_none,
      fun j u i current running active flight touches since past =>
        jobWaitsTooLong_of_stroke current running active flight touches since past⟩
  · rw [exec_memRetrain_of_gddr gddr ⟨present, cool, idle⟩, beginRetrain, updChan_eq _ there]
  · rw [exec_cammRecalibrate_of_camm camm ⟨present, cool, idle⟩, updChan_eq _ there]
  · have done := exec_memRetrainDone_of_pausing pausing
    rw [updChan_eq _ there] at done
    exact ⟨done true, done false true, done false false⟩
  · rfl
  · exact congrArg Host.Outcome.next (if_pos (by simpa using active))
  · rw [exec_memorySupplyFault_of_fitted fitted]
    rcases Nat.lt_or_ge p.val 24 with low | high
    · simp only [if_pos low, notePosition]
    · simp only [if_neg (Nat.not_lt.mpr high)]

end Sys2Proof.Machine
end

section
/-! PROOFS. Ports: what a flit that comes in order does, training and identity, and a link that goes down (R292 to R305). -/
namespace Sys2Proof.Machine

/-! ## Ports of the fabric -/

section
variable {p : Nat} {s : State}

theorem port_beyond (beyond : s.fabric.ports.length ≤ p) : s.port p = Port.reset := by
  rw [State.port, List.getD_eq_getElem?_getD, List.getElem?_eq_none beyond]
  rfl

theorem there_of_live (live : portLive s p = true) : p < s.fabric.ports.length := by
  refine Nat.lt_of_not_le fun beyond => ?_
  simp [portLive, port_beyond beyond, Port.reset] at live

/-- A change of a port is a port put in its place. -/
theorem updPort_eq (f : Port → Port) (there : p < s.fabric.ports.length) :
    s.updPort p f = { s with fabric := { s.fabric with ports := s.fabric.ports.set p (f (s.port p)) } } := by
  have same : s.fabric.ports[p] = s.port p := (List.getD_eq_getElem _ _ there).symm
  rw [State.updPort, updAt_set _ _ _ there, same]

theorem updPort_updPort (f g : Port → Port) : (s.updPort p f).updPort p g = s.updPort p fun x => g (f x) := by
  simp only [State.updPort, updAt, List.modify_modify_eq]
  rfl

/-- A port after a change of some port is what it was, or changed. -/
theorem port_updPort_or (k : Nat) (f : Port → Port) (s : State) :
    (s.updPort k f).port p = s.port p ∨ (s.updPort k f).port p = f (s.port p) := by
  by_cases same : p = k
  · subst same
    rcases Nat.lt_or_ge p s.fabric.ports.length with there | beyond
    · exact .inr (port_updPort_same s f there)
    · exact .inl ((port_beyond (by simpa [State.updPort] using beyond)).trans (port_beyond beyond).symm)
  · exact .inl (port_updPort_other s f same)

theorem port_logError (src sev : Nat) (st : Status) (fn stave place d : Nat) :
    (logError src sev st fn stave place d s).port p = s.port p := by
  rw [State.port, logError_fabric, State.port]

end

/-! ## A flit that comes -/

section
variable {p : Nat} {w : WireFlit} {f : Flit} {s : State} {suits : Flit → Bool}

/-- What a port does with a whole flit of the kind that its command names. -/
theorem receive_of_whole (act : Flit → State → State) (live : portLive s p = true) (whole : crcHolds w.bytes = true)
    (reads : flitOf w.bytes = some f) (suit : suits f = true) :
    receive p w suits act s = act f (countCorrected p w.corrected s) := by
  simp only [receive, live, whole, reads, suit, Bool.not_true, Bool.false_eq_true, if_false, if_true]

theorem rxExpect_countCorrected (n : Nat) : ((countCorrected p n s).port p).rxExpect = (s.port p).rxExpect := by
  rcases port_updPort_or (p := p) p (fun x => { x with fecCorrected := satAdd 32 x.fecCorrected n }) s with same | changed
  · exact congrArg Port.rxExpect same
  · exact (congrArg Port.rxExpect changed :)

/-- A flit in order is taken, acted on, and answered. -/
theorem receive_of_comes (act : Flit → State → State) (comes : Comes p w f s) (suit : suits f = true) :
    receive p w suits (inOrder p act) s = answerPort p (act f (taken p w f s)) := by
  have next : f.seq == ((countCorrected p w.corrected s).port p).rxExpect := by
    rw [rxExpect_countCorrected, comes.expected, beq_self_eq_true]
  have takes : takeSequenced p f (countCorrected p w.corrected s) = some (taken p w f s) := if_pos next
  rw [receive_of_whole _ comes.live comes.whole comes.reads suit]
  simp only [inOrder, takes]

/-- A flit out of order is discarded. -/
theorem receive_of_disorder (act : Flit → State → State) (live : portLive s p = true) (whole : crcHolds w.bytes = true)
    (reads : flitOf w.bytes = some f) (suit : suits f = true) (disorder : f.seq ≠ (s.port p).rxExpect) :
    receive p w suits (inOrder p act) s = countCorrected p w.corrected s := by
  have other : takeSequenced p f (countCorrected p w.corrected s) = none := by
    refine if_neg ?_
    rw [rxExpect_countCorrected, beq_iff_eq]
    exact disorder
  rw [receive_of_whole _ live whole reads suit]
  simp only [inOrder, other]

/-- A damaged flit is counted and discarded. -/
theorem receive_of_damaged (act : Flit → State → State) (live : portLive s p = true) (damaged : crcHolds w.bytes = false) :
    receive p w suits act s = flitError p false (countCorrected p w.corrected s) := by
  simp only [receive, live, damaged, Bool.not_true, Bool.not_false, Bool.false_eq_true, if_false, if_true]

/-- A flit of this device is consumed. -/
theorem consumeHere_of_own {act : State → State} {t : State} (own : f.dest = t.inv.member) :
    consumeHere p act f t = oweCredit p f.vc (act t) := if_pos own

theorem consumeHere_of_other {act : State → State} {t : State} (other : f.dest ≠ t.inv.member) :
    consumeHere p act f t = routeFlit p (transitPair p f) f t := if_neg other

theorem kind_of_saysLink {m : LinkMsg} (said : saysLink m f = true) : f.kind = .link := by
  simp only [saysLink, Bool.and_eq_true, beq_iff_eq] at said
  exact said.1

end

/-! ## Training and identity -/

section
variable {p : Fin 16} {s : State}

theorem exec_portTrained_of_rate {rate : Nat} (on : linkOn s = true) (training : (s.port p.val).state = .training)
    (fresh : (s.port p.val).rate = 0) (some_ : 1 ≤ rate) (most : rate ≤ s.inv.portMaxRate.getD p.val 0)
    (module_ : rate ≤ s.inv.portModule.getD p.val 0) :
    exec (.portTrained p rate) s = .next (sendLink p.val (.identity (ownIdentity s p.val)) (s.updPort p.val fun x => { x with rate := rate })) := by
  refine congrArg Host.Outcome.next (if_pos ?_)
  rw [on, training, fresh, decide_eq_true some_, decide_eq_true (Nat.le_min.mpr ⟨most, module_⟩)]
  rfl

/-- A LINK flit for the neighbour leaves at a port where nothing waits. -/
theorem sendLink_out {p : Nat} (m : LinkMsg) (there : p < s.fabric.ports.length) (idle : (s.port p).waitTx = [])
    (room : (s.port p).replay.length < 64) (credit : countOf (s.port p).credits 1 < 16) :
    ∃ g, (sendLink p m s).out = s.out ++ [.flit p g] ∧ g.kind = .link ∧ g.vc = 1 ∧ g.seq = (s.port p).txSeq ∧
      g.dest = BitVec.ofNat 14 (namedNeighbour s p) ∧ g.payload = (Config.linkBytes m).take 236 :=
  transmit_out (f := linkFlit (namedNeighbour s p) m) 16 1 there idle
    (show serviceClass (linkFlit (namedNeighbour s p) m) < 20 from (by decide : 1 < 20))
    (by rw [maySend, decide_eq_true room, show (linkFlit (namedNeighbour s p) m).vc = 1 from rfl, decide_eq_true credit]; rfl)

theorem takeIdentity_of_named {p : Nat} {who : Identity} (training : (s.port p).state = .training)
    (named : identityOk s p who = true) :
    takeIdentity p who s = s.updPort p fun x => { x with state := .up, neighbour := some who } := by
  simp only [takeIdentity, training, named, beq_self_eq_true, Bool.not_true, Bool.false_eq_true, if_false, if_true]

theorem takeIdentity_of_stranger {p : Nat} {who : Identity} (training : (s.port p).state = .training)
    (stranger : identityOk s p who = false) :
    takeIdentity p who s = logError 0x20 0 .ok 0xFF 0xFF p who.member.toNat
      ((stopPort .held p s).updPort p fun x => { x with neighbour := some who }) := by
  simp only [takeIdentity, training, stranger, beq_self_eq_true, Bool.not_true, Bool.false_eq_true, if_false]

theorem takeIdentity_of_other {p : Nat} {who : Identity} (other : (s.port p).state ≠ .training) : takeIdentity p who s = s :=
  if_pos (by simpa using other)

theorem exec_identityExchange_of_comes {w : WireFlit} {f : Flit} {who : Identity} (comes : Comes p.val w f s)
    (said : saysLink (.identity who) f = true) :
    exec (.identityExchange ⟨p, w⟩ who) s =
      .next (answerPort p.val (oweCredit p.val f.vc (takeIdentity p.val who (taken p.val w f s)))) :=
  congrArg Host.Outcome.next (receive_of_comes _ comes said)

theorem exec_portRetryTrain_of_idle (there : p.val < s.fabric.ports.length) (trains : portTrains s p.val = true)
    (serves : s.fw.state = .ready ∨ s.fw.state = .init)
    (idle : (s.port p.val).state = .down ∨ (s.port p.val).state = .held ∨ (s.port p.val).state = .failed)
    (stays : staysFailed (s.port p.val) = false) (due : (s.port p.val).retryAt + 1000000 ≤ s.time) :
    exec (.portRetryTrain p) s = .next { s with fabric := { s.fabric with
      ports := s.fabric.ports.set p.val { s.port p.val with state := .training, rate := 0, neighbour := none } } } := by
  refine congrArg Host.Outcome.next ((if_pos ?_).trans (updPort_eq _ there))
  simp [trains, serves, idle, stays, due, or_assoc]

theorem exec_portRetryTrain_of_early (early : s.time < (s.port p.val).retryAt + 1000000 ∨
    ¬((s.port p.val).state = .down ∨ (s.port p.val).state = .held ∨ (s.port p.val).state = .failed)) :
    exec (.portRetryTrain p) s = .next s := by
  refine congrArg Host.Outcome.next (if_neg ?_)
  rcases early with soon | busy
  · simp [soon]
  · simp only [not_or] at busy
    simp [busy]

end

/-! ## A link that goes down -/

/-- A port that is down and holds no flit to send or to send again. -/
structure Silent (p : Nat) (s : State) : Prop where
  down : (s.port p).state = .down
  none_ : (s.port p).replay = []
  empty : (s.port p).waitTx = []

section
variable {p : Nat} {s : State}

theorem silent_of_port {t : State} (silent : Silent p s) (down : (t.port p).state = (s.port p).state)
    (replay : (t.port p).replay = (s.port p).replay) (waits : (t.port p).waitTx = (s.port p).waitTx) : Silent p t :=
  ⟨down.trans silent.down, replay.trans silent.none_, waits.trans silent.empty⟩

theorem silent_updPort_other {k : Nat} (f : Port → Port) (other : k ≠ p) (silent : Silent p s) : Silent p (s.updPort k f) := by
  have same := port_updPort_other s f other.symm
  exact silent_of_port silent (congrArg _ same) (congrArg _ same) (congrArg _ same)

/-- What leaves a port's state and flits alone leaves it silent. -/
theorem silent_updPort {k : Nat} {f : Port → Port}
    (keeps : ∀ x, (f x).state = x.state ∧ (f x).replay = x.replay ∧ (f x).waitTx = x.waitTx) (silent : Silent p s) :
    Silent p (s.updPort k f) := by
  rcases port_updPort_or (p := p) k f s with same | changed
  · exact silent_of_port silent (congrArg _ same) (congrArg _ same) (congrArg _ same)
  · obtain ⟨down, replay, waits⟩ := keeps (s.port p)
    exact silent_of_port silent ((congrArg _ changed).trans down) ((congrArg _ changed).trans replay) ((congrArg _ changed).trans waits)

theorem silent_emit (o : Out) (silent : Silent p s) : Silent p (s.emit o) := silent_of_port silent rfl rfl rfl

theorem silent_oweCredit (k : Nat) (vc : BitVec 6) (silent : Silent p s) : Silent p (oweCredit k vc s) :=
  silent_updPort (fun _ => ⟨rfl, rfl, rfl⟩) silent

theorem silent_discardFlit (k dest : Nat) (silent : Silent p s) : Silent p (discardFlit k dest s) := by
  have counted : Silent p (if k < 16 then s.updPort k fun x => { x with discards := satAdd 32 x.discards 1 } else s) := by
    split
    · exact silent_updPort (fun _ => ⟨rfl, rfl, rfl⟩) silent
    · exact silent
  have same := port_logError (p := p) (s := if k < 16 then s.updPort k fun x => { x with discards := satAdd 32 x.discards 1 } else s)
    0x22 0 .ok 0xFF 0xFF (if k < 16 then k else 0xFFFF) dest
  exact silent_of_port counted (congrArg _ same) (congrArg _ same) (congrArg _ same)

theorem silent_sendWaiting {k : Nat} (other : k ≠ p) (n : Nat) (silent : Silent p s) : Silent p (sendWaiting k n s) := by
  induction n generalizing s with
  | zero => exact silent
  | succ n ih =>
    rw [sendWaiting]
    split
    · exact silent
    · split
      · exact silent
      · split
        · exact silent
        · exact ih (silent_oweCredit _ _ (silent_emit _ (silent_updPort_other _ other (silent_updPort_other _ other silent))))

theorem silent_transmit {k : Nat} (other : k ≠ p) (inPort : Nat) (vc : BitVec 6) (f : Flit) (silent : Silent p s) :
    Silent p (transmit k inPort vc f s) :=
  silent_sendWaiting other _ (silent_updPort_other _ other silent)

theorem hopPort_up {dim pair k : Nat} {minus : Bool} (port : hopPort s dim minus pair = some k) : portUp s k = true := by
  unfold hopPort at port
  split at port
  case isTrue up => exact Option.some.inj port ▸ up
  case isFalse =>
    split at port
    case isTrue up => exact Option.some.inj port ▸ up
    case isFalse => exact absurd port nofun

/-- A route never leads to a port that is down. -/
theorem silent_routeFrom (inPort : Nat) (vc : BitVec 6) (pair : Nat) (f : Flit) (silent : Silent p s) :
    Silent p (routeFrom inPort vc pair f s) := by
  unfold routeFrom
  split
  · exact silent_oweCredit _ _ (silent_discardFlit _ _ silent)
  · split
    · exact silent_oweCredit _ _ silent
    · split
      · exact silent_oweCredit _ _ (silent_discardFlit _ _ silent)
      case h_2 k port =>
        refine silent_transmit ?_ _ _ _ silent
        rintro rfl
        simpa [portUp, silent.down] using hopPort_up port

theorem silent_rerouteFlit (k : Nat) (w : Nat × BitVec 6 × Flit) (silent : Silent p s) : Silent p (rerouteFlit k s w) := by
  unfold rerouteFlit
  split
  · exact silent_discardFlit _ _ silent
  · exact silent_routeFrom _ _ _ _ silent

theorem silent_dropPort (there : p < s.fabric.ports.length) : Silent p (dropPort .down p s) := by
  have cleared : Silent p (clearPort .down p s) := by
    constructor <;> rw [port_clearPort_same .down there]
  rw [dropPort]
  generalize (s.port p).waitTx.filter (fun w => !(w.1 == p)) = kept
  generalize clearPort .down p s = t at cleared
  induction kept generalizing t with
  | nil => exact cleared
  | cons w kept ih => exact ih _ (silent_rerouteFlit _ w cleared)

theorem exec_linkDown_of_linked {p : Fin 16}
    (linked : (s.port p.val).state = .up ∨ (s.port p.val).state = .training ∨ (s.port p.val).state = .held) :
    exec (.linkDown p) s = .next (dropPort .down p.val s) :=
  congrArg Host.Outcome.next (if_pos (by simpa [or_assoc] using linked))

end

/-- Settles O55: training, identity, retraining after a second, and a link that goes down. -/
theorem portsTrainAndFall : Obligations.PortsTrainAndFall := by
  unfold Obligations.PortsTrainAndFall
  intro p s ports q put own idle
  have there : p.val < s.fabric.ports.length := by rw [ports]; exact p.isLt
  refine ⟨fun rate on training fresh some_ most module_ => ?_, ?_,
    fun trains serves idle stays due => exec_portRetryTrain_of_idle there trains serves idle stays due,
    exec_portRetryTrain_of_early, fun linked => ?_⟩
  · have trained : s.updPort p.val (fun x => { x with rate := rate }) = put { q with rate := rate } := updPort_eq _ there
    have sent := exec_portTrained_of_rate on training fresh some_ most module_
    rw [trained] at sent
    refine ⟨sent, fun quiet room credit => nextWith_next sent ?_⟩
    have port : (put { q with rate := rate }).port p.val = { q with rate := rate } := by
      rw [← trained]
      exact port_updPort_same s _ there
    obtain ⟨g, out, kind, vc, seq, dest, payload⟩ := sendLink_out (s := put { q with rate := rate }) (p := p.val) (.identity own)
      (by simpa [put] using there) (by rw [port]; exact quiet) (by rw [port]; exact room) (by rw [port]; exact credit)
    exact ⟨g, out, kind, vc, seq.trans (by rw [port]), dest, payload⟩
  · intro w f who comes said T ends
    have exchanged := exec_identityExchange_of_comes comes said
    refine ⟨fun training named => ?_, fun training stranger => ?_, fun other => ?_⟩
    · exact exchanged.trans (congrArg (fun t => Host.Outcome.next (ends t)) (takeIdentity_of_named training named))
    · exact exchanged.trans (congrArg (fun t => Host.Outcome.next (ends t)) (takeIdentity_of_stranger training stranger))
    · exact exchanged.trans (congrArg (fun t => Host.Outcome.next (ends t)) (takeIdentity_of_other other))
  · have fallen := exec_linkDown_of_linked linked
    have silent := silent_dropPort there
    refine ⟨nextWith_next fallen ⟨silent.down, silent.none_, silent.empty, (congrArg State.mem (offFabric_dropPort .down p.val s) :)⟩,
      fun own => nextWith_next fallen ?_⟩
    rw [dropPort_of_own own]
    refine ⟨(port_clearPort_same .down there).trans ?_, fun k other => port_clearPort_other .down other s, rfl, rfl⟩
    simp only [beq_iff_eq]
    rfl

end Sys2Proof.Machine
end

section
/-! PROOFS. Acknowledgements, credits and retries at a port that receives (R299, R300). -/
namespace Sys2Proof.Machine

section
variable {p : Nat} {s : State}

/-- A port put in its place again changes nothing. -/
theorem set_port : { s with fabric := { s.fabric with ports := s.fabric.ports.set p (s.port p) } } = s := by
  have same : s.fabric.ports.set p (s.port p) = s.fabric.ports := by
    rcases Nat.lt_or_ge p s.fabric.ports.length with there | beyond
    · rw [State.port, List.getD_eq_getElem _ _ there, List.set_getElem_self]
    · exact List.set_eq_of_length_le beyond
  rw [same]

/-! ## What a header carries -/

theorem flush_of_none (quiet : (s.port p).waitTx = []) : flush p s = s := by
  rw [flush, quiet]
  rfl

/-- The port after the acknowledgement of a header. -/
def ackedPort (f : Flit) (q : Port) : Port :=
  { q with replay := match f.ack with | some a => coverAck a q.replay | none => q.replay }

/-- The port after the credits of a header. -/
def creditedPort (f : Flit) (q : Port) : Port :=
  { q with credits := if f.credN = 0 then q.credits else setCount q.credits f.credVc (countOf q.credits f.credVc - f.credN.toNat) }

theorem acked_eq (f : Flit) (there : p < s.fabric.ports.length) :
    (match f.ack with
      | some a => s.updPort p fun x => { x with replay := coverAck a x.replay }
      | none => s) = s.updPort p (ackedPort f) := by
  unfold ackedPort
  cases f.ack with
  | some a => rfl
  | none => exact ((updPort_eq _ there).trans set_port).symm

theorem takeCredit_eq (f : Flit) (there : p < s.fabric.ports.length) :
    takeCredit p f.credVc f.credN.toNat s = s.updPort p (creditedPort f) := by
  unfold takeCredit creditedPort
  by_cases none_ : f.credN = 0
  · rw [if_pos (by rw [none_]; rfl)]
    simp only [if_pos none_]
    exact ((updPort_eq _ there).trans set_port).symm
  · have some_ : f.credN.toNat ≠ 0 := fun zero => none_ (BitVec.eq_of_toNat_eq zero)
    simp only [if_neg none_, if_neg some_]

/-- What a header carries is acted on, and what may now leave leaves. -/
theorem takeHeader_eq (f : Flit) (there : p < s.fabric.ports.length) :
    takeHeader p f s = flush p (s.updPort p fun x => creditedPort f (ackedPort f x)) := by
  have counted : p < (s.updPort p (ackedPort f)).fabric.ports.length := by simpa [State.updPort] using there
  rw [← updPort_updPort, ← takeCredit_eq f counted, ← acked_eq f there]
  rfl

theorem takeHeader_of_none (f : Flit) (there : p < s.fabric.ports.length) (quiet : (s.port p).waitTx = []) :
    takeHeader p f s = { s with fabric := { s.fabric with
      ports := s.fabric.ports.set p (creditedPort f (ackedPort f (s.port p))) } } := by
  rw [takeHeader_eq f there, flush_of_none, updPort_eq _ there]
  · rw [port_updPort_same s _ there]
    exact quiet

/-! ## Going back -/

theorem foldl_emit {α : Type} (g : α → Out) (l : List α) (s : State) :
    l.foldl (fun acc f => acc.emit (g f)) s = { s with out := s.out ++ l.map g } := by
  induction l generalizing s with
  | nil => simp
  | cons f l ih =>
    rw [List.foldl_cons, ih]
    simp [State.emit]

theorem satAdd_one (n : Nat) : satAdd 32 n 1 = min (n + 1) (2 ^ 32 - 1) := rfl

theorem resentTooOften_iff (l : List (BitVec 8 × Nat)) :
    resentTooOften l = true ↔ ∃ r ∈ l, 8 ≤ (l.filter fun y => y.1 == r.1).length := by
  simp [resentTooOften]

variable (seq : BitVec 8)

/-- The flits that go out again. -/
def againOf (q : Port) (seq : BitVec 8) : List Flit := q.replay.dropWhile fun f => !(f.seq == seq)

/-- The port once they are counted. -/
def resentPort (s : State) (q : Port) (seq : BitVec 8) : Port :=
  { q with retries := min (q.retries + 1) (2 ^ 32 - 1), resends := resendsNow s q (againOf q seq) }

theorem goBack_of_none (none_ : againOf (s.port p) seq = []) : goBack p seq s = s :=
  if_pos (List.isEmpty_iff.mpr none_)

theorem goBack_eq (some_ : againOf (s.port p) seq ≠ []) (there : p < s.fabric.ports.length) :
    goBack p seq s =
      let q := s.port p
      let x := { s with fabric := { s.fabric with ports := s.fabric.ports.set p (resentPort s q seq) } }
      if resentTooOften (resendsNow s q (againOf q seq)) then failPort p x
      else { x with out := s.out ++ (againOf q seq).map fun f => .flit p { f with ack := lastReceived q } } := by
  have counted : (s.updPort p fun x => { x with retries := satAdd 32 x.retries 1, resends := resendsNow s (s.port p) (againOf (s.port p) seq) }) =
      { s with fabric := { s.fabric with ports := s.fabric.ports.set p (resentPort s (s.port p) seq) } } := updPort_eq _ there
  refine (if_neg fun none_ => some_ (List.isEmpty_iff.mp none_)).trans ?_
  simp only []
  rw [show (s.port p).replay.dropWhile (fun f => !(f.seq == seq)) = againOf (s.port p) seq from rfl, counted]
  exact congrArg (ite _ _) (foldl_emit (fun f : Flit => Out.flit p { f with ack := lastReceived (s.port p) }) _ _)

/-! ## Damaged flits and their NACK -/

/-- The NACK of a port. -/
def nackOf (s : State) (p : Nat) : Flit :=
  { linkFlit (namedNeighbour s p) (.nack (s.port p).rxExpect) with seq := Config.idleSeq, ack := lastReceived (s.port p) }

theorem sendNack_eq : sendNack p s = { s with out := s.out ++ [.flit p (nackOf s p)] } := rfl

/-- The port once a damaged flit is counted. -/
def damagedPort (hard : Bool) (q : Port) : Port :=
  if hard then { q with nacking := true, fecUncorrectable := min (q.fecUncorrectable + 1) (2 ^ 32 - 1) }
  else { q with nacking := true, crcErrors := min (q.crcErrors + 1) (2 ^ 32 - 1) }

theorem damagedPort_rest (hard : Bool) (q : Port) :
    (damagedPort hard q).rxExpect = q.rxExpect ∧ lastReceived (damagedPort hard q) = lastReceived q := by
  cases hard
  · exact ⟨rfl, rfl⟩
  · exact ⟨rfl, rfl⟩

theorem flitError_eq (hard : Bool) (there : p < s.fabric.ports.length) :
    flitError p hard s =
      let x := { s with fabric := { s.fabric with ports := s.fabric.ports.set p (damagedPort hard (s.port p)) } }
      if (s.port p).nacking then x else { x with out := s.out ++ [.flit p (nackOf s p)] } := by
  have counted := updPort_eq (s := s) (damagedPort hard) there
  have port : (s.updPort p (damagedPort hard)).port p = damagedPort hard (s.port p) := port_updPort_same s _ there
  obtain ⟨expect, received⟩ := damagedPort_rest hard (s.port p)
  have named : nackOf (s.updPort p (damagedPort hard)) p = nackOf s p := by
    rw [nackOf, nackOf, port, expect, received]
    rfl
  have error : flitError p hard s =
      if (s.port p).nacking then s.updPort p (damagedPort hard) else sendNack p (s.updPort p (damagedPort hard)) := rfl
  rw [error, sendNack_eq, named, counted]

end

section
variable {p : Fin 16} {s : State} {w : WireFlit}

theorem exec_idleFlitRx_of_idle {f : Flit} (live : portLive s p.val = true) (whole : crcHolds w.bytes = true)
    (reads : flitOf w.bytes = some f) (idle : f.kind = .idle) :
    exec (.idleFlitRx p w) s = .next (sendCredits (takeHeader p.val f (countCorrected p.val w.corrected s))) :=
  congrArg Host.Outcome.next (receive_of_whole _ live whole reads (by rw [idle, beq_self_eq_true]))

theorem exec_linkNack_of_nack {f : Flit} {seq : BitVec 8} (live : portLive s p.val = true) (whole : crcHolds w.bytes = true)
    (reads : flitOf w.bytes = some f) (said : saysLink (.nack seq) f = true) :
    exec (.linkNack ⟨p, w⟩ seq) s = .next (goBack p.val seq (takeHeader p.val f (countCorrected p.val w.corrected s))) :=
  congrArg Host.Outcome.next (receive_of_whole _ live whole reads said)

theorem exec_linkCredit_of_comes {f : Flit} {credits : List (BitVec 6 × Nat)} (comes : Comes p.val w f s)
    (said : saysLink (.credits credits) f = true) :
    exec (.linkCredit ⟨p, w⟩ credits) s = .next (answerPort p.val (oweCredit p.val f.vc (flush p.val
      (credits.foldl (fun acc c => takeCredit p.val c.1 c.2 acc) (taken p.val w f s))))) :=
  congrArg Host.Outcome.next (receive_of_comes _ comes said)

theorem exec_damaged (live : portLive s p.val = true) (damaged : crcHolds w.bytes = false) (credits : List (BitVec 6 × Nat))
    (src : BitVec 14) :
    ∀ c ∈ [Instr.idleFlitRx p w, .linkCredit ⟨p, w⟩ credits, .sendFlitRx p src w],
      exec c s = .next (flitError p.val false (countCorrected p.val w.corrected s)) := by
  simp only [List.forall_mem_cons]
  exact ⟨congrArg Host.Outcome.next (receive_of_damaged _ live damaged), congrArg Host.Outcome.next (receive_of_damaged _ live damaged),
    congrArg Host.Outcome.next (receive_of_damaged _ live damaged), fun _ none_ => absurd none_ List.not_mem_nil⟩

end

/-- Settles O56: each clause is what its command does at a port that receives. -/
theorem flitsAreAcknowledgedAndRetried : Obligations.FlitsAreAcknowledgedAndRetried := by
  unfold Obligations.FlitsAreAcknowledgedAndRetried
  intro p s ports live q put most nack
  have there : p.val < s.fabric.ports.length := there_of_live live
  refine ⟨fun w f whole reads idle => exec_idleFlitRx_of_idle live whole reads idle, fun f quiet => takeHeader_of_none f there quiet,
    fun w f credits comes said => exec_linkCredit_of_comes comes said, fun i v g waits small => ⟨fun credit room => ?_, fun full => ?_⟩,
    fun w f seq whole reads said => exec_linkNack_of_nack live whole reads said, ?_, fun hard => ?_,
    fun w credits src damaged => exec_damaged live damaged credits src, fun nacking => ?_, fun calm => ?_⟩
  · have class_ : serviceClass g < 20 := by
      unfold serviceClass
      split
      · decide
      · exact small
    have may : maySend q g = true := by rw [maySend, decide_eq_true credit, decide_eq_true room]; rfl
    exact ⟨_, flush_one waits class_ may, rfl, rfl, rfl, rfl, rfl, rfl, rfl⟩
  · have may : maySend q g = false := by
      rcases full with spent | held
      · rw [maySend, decide_eq_false (Nat.not_lt.mpr spent), Bool.false_and]
      · rw [maySend, decide_eq_false (Nat.not_lt.mpr held), Bool.and_false]
    exact flush_of_blocked waits may
  · intro seq again recent x often
    refine ⟨goBack_of_none seq, fun some_ seldom => ?_, fun some_ many => ?_⟩
    · exact (goBack_eq seq some_ there).trans (if_neg fun h => seldom ((resentTooOften_iff _).mp h))
    · exact (goBack_eq seq some_ there).trans (if_pos ((resentTooOften_iff _).mpr many))
  · intro x
    have error := flitError_eq (s := s) hard there
    exact ⟨(congrArg Host.Outcome.next (if_pos live)).trans (congrArg Host.Outcome.next error), error⟩
  · exact congrArg Host.Outcome.next (if_pos (by rw [live, nacking]; rfl))
  · exact congrArg Host.Outcome.next (if_neg (by rw [calm, Bool.and_false]; decide))

end Sys2Proof.Machine
end

section
/-! PROOFS. Sends and chunks that come in order: they land, are taken or spilled, wait, or go on (R301 to R311, R322). -/
namespace Sys2Proof.Machine

/-! ## A flit offered to its device -/

section
variable {p : Nat} {src : BitVec 14} {f : Flit} {t : State}

theorem offerFlit_of_held (held : heldBefore t.fabric.waiting p f.vc = true) : offerFlit p src f t = holdFlit p src f t :=
  if_pos held

theorem offerFlit_of_head (head : heldBefore t.fabric.waiting p f.vc = false) :
    offerFlit p src f t = if (takeFlit p src f t).2 then (takeFlit p src f t).1 else holdFlit p src f t := by
  rw [offerFlit, if_neg (by simp [head])]
  rcases takeFlit p src f t with ⟨u, _ | _⟩
  · rfl
  · rfl

theorem offerFlit_of_taken {u : State} (head : heldBefore t.fabric.waiting p f.vc = false) (taken : takeFlit p src f t = (u, true)) :
    offerFlit p src f t = u := by
  rw [offerFlit_of_head head, taken]
  rfl

theorem offerFlit_of_kept {u : State} (head : heldBefore t.fabric.waiting p f.vc = false) (kept : takeFlit p src f t = (u, false)) :
    offerFlit p src f t = holdFlit p src f t := by
  rw [offerFlit_of_head head, kept]
  rfl

theorem takeFlit_of_other (other : f.dest ≠ t.inv.member) : takeFlit p src f t = (routeFlit p (transitPair p f) f t, true) :=
  if_neg other

theorem takeFlit_of_send (own : f.dest = t.inv.member) (send : f.kind = .send) :
    takeFlit p src f t =
      (if (deliverSend src f t).2 then oweCredit p f.vc (deliverSend src f t).1 else (deliverSend src f t).1, (deliverSend src f t).2) := by
  simp only [takeFlit, if_pos own, send]

theorem takeFlit_of_coll (own : f.dest = t.inv.member) (coll : f.kind = .coll) :
    takeFlit p src f t =
      (if (deliverColl f t).2 then oweCredit p f.vc (deliverColl f t).1 else (deliverColl f t).1, (deliverColl f t).2) := by
  simp only [takeFlit, if_pos own, coll]

/-- A SEND flit for this device is taken with what its window makes of it. -/
theorem offerFlit_of_delivered {u : State} (head : heldBefore t.fabric.waiting p f.vc = false) (own : f.dest = t.inv.member)
    (send : f.kind = .send) (delivered : deliverSend src f t = (u, true)) : offerFlit p src f t = oweCredit p f.vc u :=
  offerFlit_of_taken head (by rw [takeFlit_of_send own send, delivered]; rfl)

theorem offerFlit_of_collected {u : State} (head : heldBefore t.fabric.waiting p f.vc = false) (own : f.dest = t.inv.member)
    (coll : f.kind = .coll) (delivered : deliverColl f t = (u, true)) : offerFlit p src f t = oweCredit p f.vc u :=
  offerFlit_of_taken head (by rw [takeFlit_of_coll own coll, delivered]; rfl)

/-! ## SEND flits at their window -/

/-- A window once a flit that landed in it is counted. -/
def countLanded (src : BitVec 14) (x : Window) (f : Flit) (t : State) : State :=
  let y : Window := { x with count := x.count + f.payload.length, peers := withSender src.toNat (sendXtag f) x.peers }
  { t with fabric := { t.fabric with windows := updAt t.fabric.windows (sendWindow f) fun _ => some y } }

theorem deliverSend_of_closed (closed : slotAt t.fabric.windows (sendWindow f) = none) : deliverSend src f t = (t, false) := by
  simp only [deliverSend, closed]

variable {x : Window} (window : slotAt t.fabric.windows (sendWindow f) = some x) (waits : x.count < x.expect)
include window waits

theorem deliverSend_of_beyond (beyond : x.size < sendOffset f + f.payload.length) :
    deliverSend src f t = (strikeRunning .invalid 3 (detailPlace 13 0xFF 0xFFFF noDesc noDesc 0 0xFF)
      (logError 0x26 1 .struck (runningFn t) 13 0xFFFF f.dest.toNat t), true) := by
  simp only [deliverSend, window, if_neg (Nat.not_le.mpr waits), if_pos beyond]

theorem deliverSend_of_more (within : sendOffset f + f.payload.length ≤ x.size) (more : x.count + f.payload.length < x.expect) :
    deliverSend src f t = (returnAck src.toNat (sendXtag f) f.payload.length none (countLanded src x f (landBytes x f t)), true) := by
  simp only [deliverSend, window, if_neg (Nat.not_le.mpr waits), if_neg (Nat.not_lt.mpr within), if_neg (Nat.not_le.mpr more)]
  rfl

theorem deliverSend_of_last (within : sendOffset f + f.payload.length ≤ x.size) (last : x.expect ≤ x.count + f.payload.length) :
    deliverSend src f t = (closeOpening (sendWindow f) x src.toNat (sendXtag f) f.payload.length (landBytes x f t), true) := by
  simp only [deliverSend, window, if_neg (Nat.not_le.mpr waits), if_neg (Nat.not_lt.mpr within), if_pos last]

end

theorem landBytes_mem (f : Flit) (s : State) (dsts : List Nat) (m : Memory)
    (free : ∀ d ∈ dsts, hitsAny (readOnlyRanges s) (d + sendOffset f) f.payload.length = false) :
    (dsts.foldl (fun acc d => unitWrite 13 acc (d + sendOffset f) f.payload) { s with mem := m }).mem =
      dsts.foldl (fun m d => m.writeBytes (d + sendOffset f) f.payload) m := by
  induction dsts generalizing m with
  | nil => rfl
  | cons d dsts ih =>
    simp only [List.forall_mem_cons] at free
    rw [List.foldl_cons, List.foldl_cons, ← ih _ free.2]
    exact congrArg (fun t => (dsts.foldl (fun acc d => unitWrite 13 acc (d + sendOffset f) f.payload) t).mem)
      (unitWrite_of_free (s := { s with mem := m }) free.1)

/-! ## Chunks at their collective -/

section
variable {f : Flit} {g : Group} {t : State}

/-- The flit belongs to an aborted collective, or to one before it, and to none that may come. -/
def staleHere (g : Group) (f : Flit) : Prop :=
  (∃ a, g.aborted = some a ∧ staleFlit (bitField f.route 0 32) a f = true) ∧ mayCome g (bitField f.route 32 8) = false

theorem staleHere_iff (g : Group) (f : Flit) :
    ((g.aborted.any fun a => staleFlit (bitField f.route 0 32) a f) && !mayCome g (bitField f.route 32 8)) = true ↔ staleHere g f := by
  simp [staleHere, Option.any_eq_true]

/-- The collective that takes a flit. -/
def collTaker (g : Group) (f : Flit) : Option Collective :=
  g.colls.find? fun c => c.seq % 256 == bitField f.route 32 8 && !(c.op == 15) && g.checked

variable (group : t.group (bitField f.route 0 32) = some g)
include group

theorem deliverColl_of_stale (stale : staleHere g f) : deliverColl f t = (t, true) := by
  simp only [deliverColl, group, if_pos ((staleHere_iff g f).mpr stale)]

theorem deliverColl_of_fresh (fresh : ¬staleHere g f) :
    deliverColl f t = match collTaker g f with
      | some c => (takeChunk g c (bitField f.route 40 16) f.payload t, true)
      | none => if spillRoom g f.payload.length then
          (spill g (bitField f.route 32 8) (bitField f.route 40 16) f.payload t, true) else (t, false) := by
  simp only [deliverColl, group, if_neg (mt (staleHere_iff g f).mp fresh)]
  rfl

end

/-! ## The commands -/

section
variable {p : Fin 16} {w : WireFlit} {f : Flit} {s : State} (comes : Comes p.val w f s)
include comes

theorem exec_sendFlitRx_of_comes (src : BitVec 14) (send : f.kind = .send) :
    exec (.sendFlitRx p src w) s = .next (answerPort p.val (offerFlit p.val src f (taken p.val w f s))) :=
  congrArg Host.Outcome.next (receive_of_comes _ comes (by rw [send, beq_self_eq_true]))

theorem exec_collFlitRx_of_comes (coll : f.kind = .coll) :
    exec (.collFlitRx p w) s = .next (settle (answerPort p.val (offerFlit p.val 0 f (taken p.val w f s)))) :=
  congrArg (fun t => Host.Outcome.next (settle t)) (receive_of_comes _ comes (by rw [coll, beq_self_eq_true]))

theorem exec_sendAck_of_comes {xtag : BitVec 7} {bytes : Nat} {opening : Option (Digest × Nat)}
    (said : saysLink (.ack f.dest xtag bytes opening) f = true) :
    exec (.sendAck ⟨p, w⟩ xtag ⟨bytes, opening⟩) s =
      .next (answerPort p.val (consumeHere p.val (ackSend xtag bytes opening) f (taken p.val w f s))) :=
  congrArg Host.Outcome.next (receive_of_comes _ comes said)

end

theorem transitPair_link {p : Nat} {f : Flit} (link : f.kind = .link) : transitPair p f = 0 := by
  simp only [transitPair, link]

theorem transitPair_send {p : Nat} {f : Flit} (send : f.kind = .send) : transitPair p f = p % 2 := by
  simp only [transitPair, send]

theorem transitPair_coll {p : Nat} {f : Flit} (coll : f.kind = .coll) : transitPair p f = bitField f.route 40 16 % 2 := by
  simp only [transitPair, coll]

/-! ## Acknowledgements of a send -/

/-- A phase that strokes of the link unit take leaves every stroke of the key in it. -/
theorem strokeDone_setPhase (key : Nat) (s : State) : strokeDone linkUnit key (setPhase linkUnit key .done s) := by
  intro i hi same
  rcases Nat.lt_or_ge 1 s.chips.length with there | beyond
  · rw [setPhase, linkUnit, unit_updUnit_chip_same s 13 _ there] at hi
    obtain ⟨j, -, rfl⟩ := List.mem_map.mp hi
    split at same
    case isTrue named => rw [if_pos named]
    case isFalse other => exact absurd same other
  · have idle : (setPhase linkUnit key .done s).unit linkUnit = UnitState.idle := by
      change List.getD _ (13 - 12) _ = _
      rw [List.getD_eq_getElem?_getD, List.getElem?_eq_none]
      · rfl
      · simpa [setPhase, linkUnit, State.updUnit] using beyond
    rw [idle] at hi
    exact absurd hi List.not_mem_nil

/-- The state once the link record of an acknowledged opening is counted. -/
def countAcked (xtag : BitVec 7) (opening : Option (Digest × Nat)) (s : State) : State :=
  match s.fabric.tagged.find? fun x => x.1 == xtag, opening with
  | some x, some o => addLink x.2.2.2 x.2.1 x.2.2.1 true o s
  | _, _ => s

theorem countAcked_rest (xtag : BitVec 7) (opening : Option (Digest × Nat)) (s : State) :
    (countAcked xtag opening s).mem = s.mem ∧ (countAcked xtag opening s).fabric = s.fabric := by
  unfold countAcked
  split
  · exact ⟨rfl, rfl⟩
  · exact ⟨rfl, rfl⟩

/-- The unit of a send's stroke. -/
def senderUnit (x : SendState) : UnitId := if x.stave = 13 then linkUnit else .core (Fin.ofNat 256 x.core) (Fin.ofNat 16 x.stave)

section
variable {xtag : BitVec 7} {bytes : Nat} {opening : Option (Digest × Nat)} {x : SendState} {s : State}
  (found : (s.fabric.sends.find? fun y => y.xtag == xtag) = some x)
include found

theorem ackSend_of_last (last : x.bytes ≤ x.acked + bytes) :
    ackSend xtag bytes opening s = setPhase (senderUnit x) x.key .done { countAcked xtag opening s with
      fabric := { s.fabric with sends := s.fabric.sends.filter fun y => !(y.xtag == xtag) } } := by
  have same := (countAcked_rest xtag opening s).2
  rw [← same] at found ⊢
  change (match (countAcked xtag opening s).fabric.sends.find? fun y => y.xtag == xtag with | none => _ | some x => _) = _
  rw [found]
  simp only [if_pos last]
  rfl

theorem ackSend_of_more (more : x.acked + bytes < x.bytes) :
    ackSend xtag bytes opening s = { countAcked xtag opening s with
      fabric := { s.fabric with
        sends := s.fabric.sends.map fun y => if y.xtag = xtag then { y with acked := x.acked + bytes } else y } } := by
  have same := (countAcked_rest xtag opening s).2
  rw [← same] at found ⊢
  change (match (countAcked xtag opening s).fabric.sends.find? fun y => y.xtag == xtag with | none => _ | some x => _) = _
  rw [found]
  simp only [if_neg (Nat.not_le.mpr more)]
  rfl

end

/-- Settles O57: a flit that comes in order is offered to its device, which lands, takes, spills, holds or passes it on. -/
theorem sendsAndChunksArrive : Obligations.SendsAndChunksArrive := by
  unfold Obligations.SendsAndChunksArrive
  refine ⟨fun p src w f s live whole reads send disorder => congrArg Host.Outcome.next
      (receive_of_disorder _ live whole reads (by rw [send, beq_self_eq_true]) disorder),
    fun p w f s comes => ?_, fun x f s free => landBytes_mem f s x.dsts s.mem free, fun xtag bytes opening x s found => ?_⟩
  · intro T answers ends wi ofs n
    refine ⟨fun src send head own => ⟨fun closed => ?_, fun x window waits => ?_⟩, fun src send head other => ?_, fun src send held => ?_,
      fun xtag bytes opening said => ⟨fun own => ?_, fun other => ?_⟩, fun coll head => ?_⟩
    · refine (exec_sendFlitRx_of_comes comes src send).trans (congrArg (fun t => Host.Outcome.next (answers t)) ?_)
      exact offerFlit_of_kept head (by rw [takeFlit_of_send own send, deliverSend_of_closed closed])
    · intro landed
      have taken_ {u : State} (delivered : deliverSend src f T = (u, true)) : exec (.sendFlitRx p src w) s = .next (ends u) :=
        (exec_sendFlitRx_of_comes comes src send).trans
          (congrArg (fun t => Host.Outcome.next (answers t)) (offerFlit_of_delivered head own send delivered))
      exact ⟨fun beyond => taken_ (deliverSend_of_beyond window waits beyond),
        fun within more => taken_ (deliverSend_of_more window waits within more),
        fun within last => taken_ (deliverSend_of_last window waits within last)⟩
    · refine (exec_sendFlitRx_of_comes comes src send).trans (congrArg (fun t => Host.Outcome.next (answers t)) ?_)
      rw [offerFlit_of_taken head (takeFlit_of_other other)]
      exact congrArg (fun k => routeFlit p.val k f T) (transitPair_send send)
    · exact (exec_sendFlitRx_of_comes comes src send).trans
        (congrArg (fun t => Host.Outcome.next (answers t)) (offerFlit_of_held held))
    · exact (exec_sendAck_of_comes comes said).trans (congrArg (fun t => Host.Outcome.next (answers t)) (consumeHere_of_own own))
    · refine (exec_sendAck_of_comes comes said).trans (congrArg (fun t => Host.Outcome.next (answers t)) ?_)
      rw [consumeHere_of_other other, transitPair_link (kind_of_saysLink said)]
    · intro seq8 no
      have collected {u : State} (own : f.dest = T.inv.member) (delivered : deliverColl f T = (u, true)) :
          exec (.collFlitRx p w) s = .next (settle (ends u)) :=
        (exec_collFlitRx_of_comes comes coll).trans
          (congrArg (fun t => Host.Outcome.next (settle (answers t))) (offerFlit_of_collected head own coll delivered))
      refine ⟨?_, fun other => ?_⟩
      · intro g own group stale taker
        refine ⟨fun old => collected own (deliverColl_of_stale group old), fun c fresh found => collected own ?_,
          fun fresh none_ room => collected own ?_, fun fresh none_ full => ?_⟩
        · rw [deliverColl_of_fresh group fresh, show collTaker g f = some c from found]
        · rw [deliverColl_of_fresh group fresh, show collTaker g f = none from none_]
          exact if_pos room
        · refine (exec_collFlitRx_of_comes comes coll).trans (congrArg (fun t => Host.Outcome.next (settle (answers t))) ?_)
          refine offerFlit_of_kept (u := T) head ?_
          have kept : deliverColl f T = (T, false) := by
            rw [deliverColl_of_fresh group fresh, show collTaker g f = none from none_]
            exact if_neg (by rw [show spillRoom g f.payload.length = false from full]; decide)
          rw [takeFlit_of_coll own coll, kept]
          rfl
      · refine (exec_collFlitRx_of_comes comes coll).trans (congrArg (fun t => Host.Outcome.next (settle (answers t))) ?_)
        rw [offerFlit_of_taken head (takeFlit_of_other other)]
        exact congrArg (fun k => routeFlit p.val k f T) (transitPair_coll coll)
  · intro t
    obtain ⟨mem, -⟩ := countAcked_rest xtag opening s
    refine ⟨?_, fun last => ?_, fun more => ?_⟩
    · rcases Nat.lt_or_ge (x.acked + bytes) x.bytes with more | last
      · exact (congrArg State.mem (ackSend_of_more found more)).trans mem
      · rw [show t = _ from ackSend_of_last found last, setPhase, State.updUnit_mem]
        exact mem
    · rw [show t = _ from ackSend_of_last found last]
      refine ⟨by rw [setPhase, State.updUnit_fabric], fun link => ?_⟩
      rw [senderUnit, if_pos link]
      exact strokeDone_setPhase _ _
    · rw [show t = _ from ackSend_of_more found more]

end Sys2Proof.Machine
end

section
/-! PROOFS. Clapper messages that come to their member, and what done decisions and aborts leave of the groups (R326 to R332). -/
namespace Sys2Proof.Machine

/-! ## What becomes of the groups -/

theorem endRunning_groups (st cause : Status) (kind : Nat) (d : BitVec 352) (s : State) :
    (endRunning st cause kind d s).groups = s.groups := by
  unfold endRunning
  split
  case h_1 => rfl
  case h_2 j _ =>
    split
    · rfl
    · split
      · change (dropFrames j.id (closeWindows j (idleUnits s))).groups = _
        rw [dropFrames_groups, closeWindows_groups, idleUnits_groups]
      · rw [freeUnits_groups, endJob_groups, dropHeld_groups, releaseSave_groups]

theorem endAny_groups (j : Job) (st cause : Status) (kind : Nat) (d : BitVec 352) (s : State) :
    (endAny j st cause kind d s).groups = s.groups := by
  unfold endAny
  split
  · exact endRunning_groups ..
  · split
    · rfl
    · rw [endResting, endJob_groups, dropHeld_groups, dropBody_groups, releaseSave_groups]

/-- What an abort leaves of a group. -/
def abortedGroup (source seq : Nat) (x : Group) : Group :=
  { x with checked := false, nextSeq := 1, colls := [], spilled := [], early := [], abortSent := [], aborted := some seq,
           late := if source = 0x25 then some seq else none }

/-- The end of the jobs and of the flits leaves the groups as the abort left them. -/
theorem endAbort_groups (source : Nat) (g : Group) (seq cause origin : Nat) (s : State) :
    (endAbort source g seq cause origin s).groups = (s.updGroup g.tag.toNat (abortedGroup source seq)).groups := by
  simp only [endAbort, logError_groups]
  rw [foldl_field State.groups _ fun _ _ => endAny_groups ..]
  exact (congrArg State.groups (offFabric_dropStale g.tag.toNat seq (s.updGroup g.tag.toNat (abortedGroup source seq))) :)

theorem setPhase_groups (u : UnitId) (key : Nat) (ph : Flight) (s : State) : (setPhase u key ph s).groups = s.groups :=
  State.updUnit_groups ..

/-- What a done decision leaves of the collective's group. -/
def finishedGroup (seq : Nat) (c : Collective) (x : Group) : Group :=
  { x with colls := x.colls.filter fun y => !(y.seq == seq), checked := x.checked || c.op == 15,
           late := if c.op = 15 then none else x.late, abortSent := x.abortSent.filter fun a => !(a.2 == seq) }

theorem finishColl_groups {tag seq : Nat} {g : Group} {c : Collective} {s : State} (group : s.group tag = some g)
    (coll : g.coll seq = some c) : (finishColl tag seq s).groups = (s.updGroup tag (finishedGroup seq c)).groups := by
  have found : ((s.group tag).bind fun g => g.coll seq) = some c := by rw [group]; exact coll
  simp only [finishColl, found, beq_iff_eq]
  cases c.key with
  | some k => exact setPhase_groups ..
  | none => rfl

/-! ## What each message does at its group -/

section
variable {g : Group} {m : ClapMsg} {t : State}

theorem takeUp_of_ignored (ignored : m.srcRank.toNat ∉ treeChildren g.size g.rank ∨ awaitsUp g m.cseq.toNat = false) :
    takeUp g m t = t := by
  refine if_pos ?_
  rcases ignored with stranger | decided
  · simp [stranger]
  · simp [decided]

variable (child : m.srcRank.toNat ∈ treeChildren g.size g.rank) (awaited : awaitsUp g m.cseq.toNat = true)
include child awaited

theorem takeUp_of_started (started : (g.coll m.cseq.toNat).isSome = true) :
    takeUp g m t = afterCheck g.tag.toNat m.cseq.toNat (tryUp g.tag.toNat m.cseq.toNat (t.updGroup g.tag.toNat fun x =>
      x.updColl m.cseq.toNat fun c =>
        { c with children := (c.children.filter fun k => !(k.1 == m.srcRank.toNat)) ++ [(m.srcRank.toNat, m.data)] })) :=
  (if_neg (by simp [child, awaited])).trans (if_pos started)

theorem takeUp_of_early (early : g.coll m.cseq.toNat = none) :
    takeUp g m t = t.updGroup g.tag.toNat fun x =>
      { x with early := (x.early.filter fun e => !(e.1 == m.cseq.toNat && e.2.1 == m.srcRank.toNat)) ++
          [(m.cseq.toNat, m.srcRank.toNat, m.data)] } :=
  (if_neg (by simp [child, awaited])).trans (if_neg (by simp [early]))

end

section
variable {g : Group} {m : ClapMsg} {t : State}

theorem takeResult_of_some {c : Collective} (coll : g.coll m.cseq.toNat = some c) :
    takeResult g m t = afterCheck g.tag.toNat m.cseq.toNat (takeDown g c m.data t) := by
  simp only [takeResult, coll]

theorem takeResult_of_none (coll : g.coll m.cseq.toNat = none) : takeResult g m t = t := by
  simp only [takeResult, coll]

theorem takeRequestUp_of_root (root : g.rank = 0) :
    takeRequestUp g m t = if undecided g m.cseq.toNat false then applyAbort g m.cseq.toNat m.cause.toNat m.originId.toNat t else t :=
  if_pos root

theorem takeRequestUp_of_member (member_ : g.rank ≠ 0) :
    takeRequestUp g m t = sendClap g (treeParent g.rank) (clapMsg g 2 0 m.cause.toNat m.cseq.toNat m.originId.toNat []) t :=
  if_neg member_

theorem takeDecision_of_done (done : m.cause = 0) :
    takeDecision g m t = afterCheck g.tag.toNat m.cseq.toNat (takeDone g m.cseq.toNat t) :=
  if_pos done

theorem takeDecision_of_abort (abort : m.cause ≠ 0) (first : abortedHere g m.cseq.toNat = false) :
    takeDecision g m t = applyAbort g m.cseq.toNat m.cause.toNat m.originId.toNat t :=
  (if_neg abort).trans (if_neg (by simp [first]))

theorem takeDecision_of_late (abort : m.cause ≠ 0) (late : abortedHere g m.cseq.toNat = true) :
    takeDecision g m t = sendChildren g (clapMsg g 3 0 m.cause.toNat m.cseq.toNat m.originId.toNat [])
      (t.updGroup g.tag.toNat fun x => { x with late := none }) :=
  (if_neg abort).trans (if_pos late)

end

/-! ## A message that comes -/

theorem transitPair_clap {p : Nat} {f : Flit} (clap : f.kind = .clap) : transitPair p f = 0 := by
  simp only [transitPair, clap]

section
variable {p : Fin 16} {w : WireFlit} {f : Flit} {s : State} {kind : Nat} (comes : Comes p.val w f s) (clap : f.kind = .clap)
  (named : (clapOf f.payload).kind.toNat = kind) (act : Group → ClapMsg → State → State)
include comes clap named

/-- A message of the kind that its command names is consumed here or goes on. -/
theorem clapArrives_eq :
    clapArrives ⟨p, w⟩ kind act s = answerPort p.val (consumeHere p.val
      (fun t => match t.group (clapOf f.payload).tag.toNat with
        | some g => act g (clapOf f.payload) t
        | none => t) f (taken p.val w f s)) :=
  receive_of_comes _ comes (by rw [saysClap, clap, named, beq_self_eq_true, beq_self_eq_true]; rfl)

theorem clapArrives_of_own {g : Group} (own : f.dest = (taken p.val w f s).inv.member)
    (group : (taken p.val w f s).group (clapOf f.payload).tag.toNat = some g) :
    clapArrives ⟨p, w⟩ kind act s = answerPort p.val (oweCredit p.val f.vc (act g (clapOf f.payload) (taken p.val w f s))) := by
  rw [clapArrives_eq comes clap named act, consumeHere_of_own own, group]

theorem clapArrives_of_other (other : f.dest ≠ (taken p.val w f s).inv.member) :
    clapArrives ⟨p, w⟩ kind act s = answerPort p.val (routeFlit p.val 0 f (taken p.val w f s)) := by
  rw [clapArrives_eq comes clap named act, consumeHere_of_other other, transitPair_clap clap]

end

/-- Settles O58: each kind of message at its member, and what a decision leaves of the group. -/
theorem clapperMessagesDecideCollectives : Obligations.ClapperMessagesDecideCollectives := by
  unfold Obligations.ClapperMessagesDecideCollectives
  refine ⟨fun p w f s comes clap => ?_, fun tag seq g c s group coll => finishColl_groups group coll,
    fun source g seq cause origin s => endAbort_groups source g seq cause origin s⟩
  intro m T answers ends seq kid cause origin
  refine ⟨?_, fun other => ?_⟩
  · intro g own group tag
    have acts {kind : Nat} {act : Group → ClapMsg → State → State} {u : State} (named : m.kind.toNat = kind) (does : act g m T = u) :
        settle (clapArrives ⟨p, w⟩ kind act s) = ends u := by
      rw [clapArrives_of_own comes clap named act own group]
      exact congrArg ends does
    refine ⟨fun up => ⟨fun child started awaited => ?_, fun child none_ awaited => ?_, fun ignored => ?_⟩,
      fun down => ⟨fun c coll => ?_, fun none_ => ?_⟩,
      fun request => ⟨fun root open_ => ?_, fun root decided => ?_, fun member_ => ?_⟩,
      fun decision => ⟨fun done => ?_, fun abort first => ?_, fun abort late => ?_⟩⟩
    · exact congrArg Host.Outcome.next (acts up (takeUp_of_started child awaited started))
    · exact congrArg Host.Outcome.next (acts up (takeUp_of_early child awaited none_))
    · exact congrArg Host.Outcome.next (acts up (takeUp_of_ignored ignored))
    · exact congrArg Host.Outcome.next (acts down (takeResult_of_some coll))
    · exact congrArg Host.Outcome.next (acts down (takeResult_of_none none_))
    · exact congrArg Host.Outcome.next (acts request ((takeRequestUp_of_root root).trans (if_pos open_)))
    · exact congrArg Host.Outcome.next (acts request ((takeRequestUp_of_root root).trans (if_neg (Bool.eq_false_iff.mp decided))))
    · exact congrArg Host.Outcome.next (acts request (takeRequestUp_of_member member_))
    · exact congrArg Host.Outcome.next (acts decision (takeDecision_of_done done))
    · exact congrArg Host.Outcome.next (acts decision (takeDecision_of_abort abort first))
    · exact congrArg Host.Outcome.next (acts decision (takeDecision_of_late abort late))
  · simp only [List.forall_mem_cons]
    have passes (kind : Nat) (act : Group → ClapMsg → State → State) (named : m.kind.toNat = kind) :
        settle (clapArrives ⟨p, w⟩ kind act s) = answers (routeFlit p.val 0 f T) :=
      congrArg settle (clapArrives_of_other comes clap named act other)
    exact ⟨fun named => congrArg Host.Outcome.next (passes 0 takeUp named), fun named => congrArg Host.Outcome.next (passes 1 takeResult named),
      fun named => congrArg Host.Outcome.next (passes 2 takeRequestUp named),
      fun named => congrArg Host.Outcome.next (passes 3 takeDecision named), fun _ none_ => absurd none_ List.not_mem_nil⟩

end Sys2Proof.Machine
end

section
/-! PROOFS. The power policy, the power loop and its rails, and the clock islands (R432 to R443). -/
namespace Sys2Proof.Machine

/-! ## The policy -/

/-- A value is not given, or lies in its range. -/
def keptOrWithin (x lo hi : Nat) : Prop := x = 0 ∨ (lo ≤ x ∧ x ≤ hi)

theorem outside_eq_false_iff (x lo hi : Nat) :
    (!(x == 0) && (decide (x < lo) || decide (hi < x))) = false ↔ keptOrWithin x lo hi := by
  rw [keptOrWithin, Bool.and_eq_false_iff, Bool.or_eq_false_iff, decide_eq_false_iff_not, decide_eq_false_iff_not, Nat.not_lt, Nat.not_lt,
    Bool.not_eq_false', beq_iff_eq]

theorem powerPolicyBad_eq_false_iff (v : Variant) (ps : List Byte) :
    powerPolicyBad v ps = false ↔ keptOrWithin (arg ps 0 2) 900 (maxPower v) ∧ keptOrWithin (arg ps 2 2) 1 100 ∧
      keptOrWithin (arg ps 4 2) 500 (maxClock v) ∧ keptOrWithin (arg ps 6 1) 85 105 := by
  simp only [powerPolicyBad, Bool.or_eq_false_iff, outside_eq_false_iff, and_assoc]

/-- The policy of a call's parameters. -/
def givenPolicy (ps : List Byte) (p : Power) : Power :=
  let keep (x old : Nat) : Nat := if x = 0 then old else x
  { p with limitW := keep (arg ps 0 2) p.limitW, windowMs := keep (arg ps 2 2) p.windowMs, clockCap := keep (arg ps 4 2) p.clockCap,
           tjTarget := keep (arg ps 6 1) p.tjTarget,
           idleStop := if arg ps 7 1 = 2 ∨ arg ps 7 1 = 3 then p.idleStop else arg ps 7 1 = 1,
           samples := p.samples.take (20 * keep (arg ps 2 2) p.windowMs) }

theorem idleStop_of_flags {flags : Nat} (few : flags ≤ 3) (old : Bool) :
    (if natBit flags 1 then old else natBit flags 0) = if flags = 2 ∨ flags = 3 then old else decide (flags = 1) := by
  interval_cases flags <;> rfl

theorem powerPolicyCall_of_inRange {ps : List Byte} (few : arg ps 7 1 ≤ 3) {t : State} (fits : powerPolicyBad t.fuses.variant ps = false) :
    powerPolicyCall ps t = (restClocks { t with power := givenPolicy ps t.power },
      .answer .ok (packFields [(2, (givenPolicy ps t.power).limitW), (2, (givenPolicy ps t.power).clockCap), (1, (givenPolicy ps t.power).tjTarget)])) := by
  simp only [powerPolicyCall, fits, Bool.false_eq_true, if_false, idleStop_of_flags few, windowSamples, Nat.mul_comm _ 20]
  rfl

section
variable {r : Request} {m : Mailbox} {s : State}

theorem exec_powerPolicySet_of_inRange (served : Served true false false r m s) (few : arg (reqArgs r) 7 1 ≤ 3)
    (zero : zeroFrom (reqArgs r) 8 = true) (fits : powerPolicyBad s.fuses.variant (reqArgs r) = false) :
    let q := givenPolicy (reqArgs r) s.power
    exec (.powerPolicySet r) s = .next (answered r m 0xB0 .ok (packFields [(2, q.limitW), (2, q.clockCap), (1, q.tjTarget)])
      (restClocks { s with power := q })) :=
  congrArg Host.Outcome.next (served_device served (by simp [zero]; omega) rfl fun F n =>
    powerPolicyCall_of_inRange (t := { s with funcs := F, lastCaller := n }) few fits)

theorem exec_powerPolicySet_of_outside (served : Served true false false r m s) (few : arg (reqArgs r) 7 1 ≤ 3)
    (zero : zeroFrom (reqArgs r) 8 = true) (outside : powerPolicyBad s.fuses.variant (reqArgs r) = true) :
    exec (.powerPolicySet r) s = .next (answered r m 0xB0 .invalid 0 s) :=
  congrArg Host.Outcome.next (served_device served (by simp [zero]; omega) rfl fun F n => if_pos outside)

end

/-! ## The loop -/

section
variable {s : State}

theorem exec_powerLoopTick_of_ready (ready : s.fw.state = .ready) (now : Nat) (projected : List Nat) :
    let l := (now :: s.power.samples).take (20 * s.power.windowMs)
    exec (.powerLoopTick now projected) s = .next (loopAction projected { s with power :=
      { s.power with nowW := now, samples := l, avgW := if l = [] then 0 else l.sum / l.length, energy20 := s.power.energy20 + now } }) := by
  intro l
  refine congrArg Host.Outcome.next ((if_neg (by simp [ready])).trans ?_)
  simp only [windowSamples, averageOf, Nat.mul_comm _ 20, List.isEmpty_iff]
  rfl

theorem exec_powerLoopTick_of_other (other : s.fw.state ≠ .ready) (now : Nat) (projected : List Nat) :
    exec (.powerLoopTick now projected) s = .next s :=
  congrArg Host.Outcome.next (if_pos (by simp [other]))

/-- The loop's level, or at the lowest level its cap, once it has fallen. -/
def loweredPower (projected : List Nat) (s : State) : Power :=
  if highestLevel s ≤ 550 then { s.power with loopCap := max 5 (s.power.loopCap - 5) }
  else { s.power with loopMv := max 550 (highestLevel s - 5 * stepsDown s.power projected) }

theorem loopAction_of_above {projected : List Nat} (above : overLimit s.power (projected.getD 0 s.power.nowW) = true) :
    loopAction projected s = { s with power := loweredPower projected s } := by
  unfold loweredPower
  refine (if_pos above).trans ?_
  split
  · rfl
  · rfl

theorem loopAction_of_near {projected : List Nat} (within : overLimit s.power (projected.getD 0 s.power.nowW) = false)
    (near : s.power.limitW * 97 ≤ s.power.avgW * 100) : loopAction projected s = s :=
  (if_neg (by rw [within]; decide)).trans (if_neg (Nat.not_lt.mpr near))

/-! ## Pulses -/

theorem updRail_eq {r : Nat} (f : Rail → Rail) (there : r < s.power.rails.length) :
    s.updRail r f = { s with power := { s.power with rails := s.power.rails.set r (f (s.rail r)) } } := by
  have same : s.power.rails[r] = s.rail r := (List.getD_eq_getElem _ _ there).symm
  rw [State.updRail, updAt_set _ _ _ there, same]

variable (q : Fin 4)

/-- A rail once a pulse has moved it. -/
def pulsed (s : State) (q : Fin 4) (up : Bool) (mv : Nat) : State :=
  railsDone { s with power := { s.power with
                       rails := s.power.rails.set (6 + q.val) { s.rail (6 + q.val) with mv := mv, pulsedAt := some s.time } },
                     out := s.out ++ [.railPulse q.val up] }

theorem exec_railStep_eq (rails : s.power.rails.length = 12) (runs : firmwareUp s = true) (up : Bool) :
    let r := s.rail (6 + q.val)
    exec (.railStep q up) s = .next (if r.on && r.good &&
        (if up then decide (r.mv + 5 ≤ quarterLevel s q.val) else decide (quarterLevel s q.val + 5 ≤ r.mv)) && pulseFree s r then
      pulsed s q up (if up then r.mv + 5 else r.mv - 5) else s) := by
  intro r
  have moved := updRail_eq (s := s) (r := 6 + q.val)
    (fun x => { x with mv := if up then x.mv + 5 else x.mv - 5, pulsedAt := some s.time }) (by rw [rails]; omega)
  change Host.Outcome.next _ = _
  simp only [runs, Bool.and_true, moved]
  rfl

theorem exec_railStep_of_busy (rails : s.power.rails.length = 12) (runs : firmwareUp s = true) {up : Bool}
    (busy : pulseFree s (s.rail (6 + q.val)) = false) : exec (.railStep q up) s = .next s :=
  (exec_railStep_eq q rails runs up).trans (congrArg Host.Outcome.next (if_neg (by simp [busy])))

section
variable (rails : s.power.rails.length = 12) (runs : firmwareUp s = true) (on : (s.rail (6 + q.val)).on = true)
  (good : (s.rail (6 + q.val)).good = true) (free : pulseFree s (s.rail (6 + q.val)) = true)
include rails runs on good free

theorem exec_railStep_up :
    exec (.railStep q true) s = .next (if (s.rail (6 + q.val)).mv + 5 ≤ quarterLevel s q.val then
      pulsed s q true ((s.rail (6 + q.val)).mv + 5) else s) := by
  rw [exec_railStep_eq q rails runs true]
  simp [on, good, free]

theorem exec_railStep_down :
    exec (.railStep q false) s = .next (if quarterLevel s q.val + 5 ≤ (s.rail (6 + q.val)).mv then
      pulsed s q false ((s.rail (6 + q.val)).mv - 5) else s) := by
  rw [exec_railStep_eq q rails runs false]
  simp [on, good, free]

end

/-! ## Readings -/

/-- The reading that a poll leaves of a rail. -/
def polledReading (readings : List RailReading) (s : State) (r : Nat) : Option RailReading :=
  if railReadable s r then (match readings[r]? with | some x => some x | none => (s.rail r).reading) else (s.rail r).reading

/-- What reading a rail keeps of every other part that a poll's statement speaks of. -/
structure Polled (readings : List RailReading) (s t : State) (r : Nat) : Prop where
  mem : t.mem = s.mem
  inv : t.inv = s.inv
  rails : t.power.rails.length = s.power.rails.length
  mv : ∀ k, (t.rail k).mv = (s.rail k).mv
  other : ∀ k, k ≠ r → (t.rail k).reading = (s.rail k).reading
  read : r < s.power.rails.length → (t.rail r).reading = polledReading readings s r

theorem power_logError (src sev : Nat) (st : Status) (fn stave place d : Nat) (t : State) :
    (logError src sev st fn stave place d t).power = t.power := logError_power ..

theorem rail_updRail_keeps {β : Type} (g : Rail → β) {f : Rail → Rail} (keeps : ∀ x, g (f x) = g x) (s : State) (r k : Nat) :
    g ((s.updRail r f).rail k) = g (s.rail k) := by
  rcases eq_or_ne k r with rfl | other
  · rcases Nat.lt_or_ge k s.power.rails.length with there | beyond
    · rw [rail_updRail_same s f there, keeps]
    · have same : updAt s.power.rails k f = s.power.rails := List.modify_eq_self beyond
      rw [State.rail, State.updRail, same, State.rail]
  · rw [rail_updRail_other s f other]

theorem polled_readRail (readings : List RailReading) (r : Nat) : Polled readings s (readRail readings s r) r := by
  unfold readRail
  split
  case h_1 none_ =>
    refine ⟨rfl, rfl, rfl, fun _ => rfl, fun _ _ => rfl, fun _ => ?_⟩
    rw [polledReading, none_]
    split <;> rfl
  case h_2 x some_ =>
    by_cases readable : railReadable s r = true
    case neg =>
      rw [if_pos (by simpa using readable)]
      exact ⟨rfl, rfl, rfl, fun _ => rfl, fun _ _ => rfl, fun _ => by rw [polledReading, if_neg readable]⟩
    rw [if_neg (by simpa using readable)]
    dsimp only
    have whole {f : Rail → Rail} {t : State} (power : t.power = (s.updRail r f).power) (mem : t.mem = s.mem) (inv : t.inv = s.inv)
        (mv : ∀ y, (f y).mv = y.mv) (reading : ∀ y, (f y).reading = some x) : Polled readings s t r := by
      have rail (k : Nat) : t.rail k = (s.updRail r f).rail k := by rw [State.rail, power]; rfl
      refine ⟨mem, inv, by rw [power]; simp [State.updRail], fun k => ?_, fun k other => ?_, fun there => ?_⟩
      · rw [rail]
        exact rail_updRail_keeps Rail.mv mv s r k
      · rw [rail, rail_updRail_other s f other]
      · rw [rail, rail_updRail_same s f there, reading, polledReading, if_pos readable, some_]
    split
    · refine whole (f := fun y => { y with reading := some x, voutAt := some s.time }) ?_ ?_ ?_ (fun _ => rfl) (fun _ => rfl)
      · rw [logError_power]
        simp only [State.emit, State.updRail, updAt, List.modify_modify_eq]
        rfl
      · rw [logError_mem]
        rfl
      · rw [logError_inv]
        rfl
    · exact whole (f := fun y => { y with reading := some x }) rfl rfl rfl (fun _ => rfl) (fun _ => rfl)

theorem polled_foldl (readings : List RailReading) (n : Nat) (sized : n ≤ s.power.rails.length) :
    let t := (List.range n).foldl (readRail readings) s
    t.mem = s.mem ∧ t.inv = s.inv ∧ t.power.rails.length = s.power.rails.length ∧ (∀ k, (t.rail k).mv = (s.rail k).mv) ∧
    ∀ k, (t.rail k).reading = if k < n then polledReading readings s k else (s.rail k).reading := by
  induction n with
  | zero => exact ⟨rfl, rfl, rfl, fun _ => rfl, fun _ => rfl⟩
  | succ n ih =>
    obtain ⟨mem, inv, rails, mv, reading⟩ := ih (by omega)
    simp only [List.range_succ, List.foldl_append, List.foldl_cons, List.foldl_nil]
    set u := (List.range n).foldl (readRail readings) s with hu
    have one := polled_readRail (s := u) readings n
    refine ⟨one.mem.trans mem, one.inv.trans inv, one.rails.trans rails, fun k => (one.mv k).trans (mv k), fun k => ?_⟩
    rcases eq_or_ne k n with rfl | other
    · rw [if_pos (Nat.lt_succ_self k), one.read (by rw [rails]; omega)]
      have before : (u.rail k).reading = (s.rail k).reading := by rw [reading k, if_neg (Nat.lt_irrefl k)]
      rw [polledReading, polledReading, before, railReadable, inv]
      rfl
    · rw [one.other k other, reading k]
      have same : k < n ↔ k < n + 1 := by omega
      simp only [same]

/-- The caps of a rail's memory islands fall. -/
def cappedRim (t : State) (r : Nat) : State :=
  { t with power := { t.power with
    domains := (rimIslands r).foldl (fun l i => updAt l i fun d => { d with cap := max 25 (d.cap - 5) }) t.power.domains } }

/-- Holding the currents touches no rail. -/
theorem holdCurrents_rest (s : State) : (holdCurrents s).mem = s.mem ∧ (holdCurrents s).power.rails = s.power.rails := by
  have t : ∀ u : State, u = (if (rangeFrom 6 4).any (overCurrent s) then
      { s with power := { s.power with loopMv := max 550 (highestLevel s - 5) } } else s) → u.mem = s.mem ∧ u.power.rails = s.power.rails := by
    rintro u rfl
    split
    · exact ⟨rfl, rfl⟩
    · exact ⟨rfl, rfl⟩
  obtain ⟨mem, rails⟩ := t _ rfl
  exact ⟨(foldl_field State.mem cappedRim (fun _ _ => rfl) _ _).trans mem,
    (foldl_field (fun u : State => u.power.rails) cappedRim (fun _ _ => rfl) _ _).trans rails⟩

theorem exec_railTelemetryPoll_of_ready (readings : List RailReading) (ready : s.fw.state = .ready) (phase : s.pins.clavePhase = 2) :
    exec (.railTelemetryPoll readings) s = .next (
      let t := (List.range 12).foldl (readRail readings) s
      if s.fw.state == .ready then holdCurrents t else t) :=
  congrArg Host.Outcome.next (if_pos (by simp [firmwareUp, ready, phase]))

end

/-! ## Clock islands -/

section
variable {s : State}

/-- An island put in its place. -/
theorem updDomain_eq {i : Nat} (f : Domain → Domain) (there : i < s.power.domains.length) :
    updAt s.power.domains i f = s.power.domains.set i (f (s.domain i)) := by
  have same : s.power.domains[i] = s.domain i := (List.getD_eq_getElem _ _ there).symm
  rw [updAt_set _ _ _ there, same]

theorem exec_fllWindow_of_running (domains : s.power.domains.length = 325) {i : Fin 325} (count : Nat)
    (running : (s.domain i.val).state = .running) :
    let d := s.domain i.val
    let n := targetMhz s i.val
    exec (.fllWindow i count) s = .next { s with power := { s.power with domains := s.power.domains.set i.val { d with
      freqMhz := min count 65535,
      trim := if n + 1 < count then min 80 (d.trim + 4) else if count + 1 < n then d.trim - 1 else d.trim } } } := by
  intro d n
  refine congrArg Host.Outcome.next ((if_neg (by simp [running])).trans ?_)
  exact congrArg (fun l => { s with power := { s.power with domains := l } }) (updDomain_eq _ (by rw [domains]; exact i.isLt))

theorem exec_fllWindow_of_other {i : Fin 325} (count : Nat) (other : (s.domain i.val).state ≠ .running) :
    exec (.fllWindow i count) s = .next s :=
  congrArg Host.Outcome.next (if_pos (by simp [other]))

theorem exec_islandWake_of_stopped (domains : s.power.domains.length = 325) {i : Fin 325}
    (stopped : (s.domain i.val).state = .clockStopped) (pin : s.pins.thermTripN = true) :
    exec (.islandWake i) s = .next { s with power := { s.power with
      domains := s.power.domains.set i.val { s.domain i.val with state := .running } } } := by
  refine congrArg Host.Outcome.next ((if_pos (by simp [stopped, pin])).trans ?_)
  exact congrArg (fun l => { s with power := { s.power with domains := l } }) (updDomain_eq _ (by rw [domains]; exact i.isLt))

theorem exec_islandWake_of_other {i : Fin 325} (other : (s.domain i.val).state ≠ .clockStopped) :
    exec (.islandWake i) s = .next s :=
  congrArg Host.Outcome.next (if_neg (by simp [other]))

/-- One named island falls to its rate. -/
def slowed (l : List Domain) (x : Fin 325 × Nat) : List Domain := updAt l x.1.val fun d => { d with freqMhz := min d.freqMhz x.2 }

theorem slowed_other (l : List Domain) (x : Fin 325 × Nat) {i : Nat} (other : i ≠ x.1.val) :
    (slowed l x).getD i Domain.offDomain = l.getD i Domain.offDomain := updAt_getD_other _ _ _ other

theorem slowed_falls (l : List Domain) (x : Fin 325 × Nat) (i : Nat) :
    ((slowed l x).getD i Domain.offDomain).freqMhz ≤ (l.getD i Domain.offDomain).freqMhz ∧
    ((slowed l x).getD i Domain.offDomain).state = (l.getD i Domain.offDomain).state := by
  rcases eq_or_ne i x.1.val with rfl | other
  · rcases Nat.lt_or_ge x.1.val l.length with there | beyond
    · rw [slowed, updAt_getD_same _ _ _ _ there]
      exact ⟨Nat.min_le_left _ _, rfl⟩
    · have same : slowed l x = l := List.modify_eq_self beyond
      rw [same]
      exact ⟨Nat.le_refl _, rfl⟩
  · rw [slowed_other l x other]
    exact ⟨Nat.le_refl _, rfl⟩

theorem slowed_named (l : List Domain) (x : Fin 325 × Nat) (there : x.1.val < l.length) :
    ((slowed l x).getD x.1.val Domain.offDomain).freqMhz ≤ x.2 := by
  rw [slowed, updAt_getD_same _ _ _ _ there]
  exact Nat.min_le_right _ _

theorem foldl_slowed (islands : List (Fin 325 × Nat)) (l : List Domain) (length : l.length = 325) :
    let r := islands.foldl slowed l
    (∀ x ∈ islands, (r.getD x.1.val Domain.offDomain).freqMhz ≤ x.2) ∧
    (∀ i, (∀ x ∈ islands, x.1.val ≠ i) → r.getD i Domain.offDomain = l.getD i Domain.offDomain) ∧
    ∀ i, (r.getD i Domain.offDomain).freqMhz ≤ (l.getD i Domain.offDomain).freqMhz ∧
      (r.getD i Domain.offDomain).state = (l.getD i Domain.offDomain).state := by
  induction islands generalizing l with
  | nil => exact ⟨fun _ none_ => absurd none_ List.not_mem_nil, fun _ _ => rfl, fun _ => ⟨Nat.le_refl _, rfl⟩⟩
  | cons x xs ih =>
    obtain ⟨named, other, falls⟩ := ih (slowed l x) ((length_updAt ..).trans length)
    refine ⟨List.forall_mem_cons.mpr ⟨?_, named⟩, fun i hi => ?_, fun i => ?_⟩
    · exact (falls x.1.val).1.trans (slowed_named l x (by rw [length]; exact x.1.isLt))
    · simp only [List.forall_mem_cons] at hi
      exact (other i hi.2).trans (slowed_other l x hi.1.symm)
    · obtain ⟨freq, state⟩ := falls i
      obtain ⟨freq1, state1⟩ := slowed_falls l x i
      exact ⟨freq.trans freq1, state.trans state1⟩

theorem exec_supplySag (islands : List (Fin 325 × Nat)) :
    exec (.supplySag islands) s = .next { s with power := { s.power with domains := islands.foldl slowed s.power.domains } } := rfl

end

/-- Settles O59: the policy call, the loop's actions, pulses and readings of rails, and the islands' clocks. -/
theorem powerAndClocksFollowTheirRules : Obligations.PowerAndClocksFollowTheirRules := by
  unfold Obligations.PowerAndClocksFollowTheirRules
  refine ⟨fun r m s served => ?_, fun s rails => ?_, fun s domains => ?_⟩
  · intro ps p keep flags q ok inRange
    refine ⟨fun few zero within => exec_powerPolicySet_of_inRange served few zero ((powerPolicyBad_eq_false_iff _ _).mpr within),
      fun few zero outside => exec_powerPolicySet_of_outside served few zero ?_⟩
    exact (Bool.not_eq_false _).mp fun fits => outside ((powerPolicyBad_eq_false_iff _ _).mp fits)
  · intro p
    refine ⟨fun now projected ready => exec_powerLoopTick_of_ready ready now projected,
      fun now projected other => exec_powerLoopTick_of_other other now projected, fun projected above => loopAction_of_above above,
      fun projected within near => loopAction_of_near within near, fun q up runs => ?_, fun readings ready phase => ?_⟩
    · intro r level moved
      refine ⟨exec_railStep_of_busy q rails runs, fun on good free => ⟨?_, ?_, ?_, ?_⟩⟩
      · rintro rfl below
        exact (exec_railStep_up q rails runs on good free).trans (congrArg Host.Outcome.next (if_pos below))
      · rintro rfl above
        exact (exec_railStep_down q rails runs on good free).trans (congrArg Host.Outcome.next (if_pos above))
      · rintro rfl there
        exact (exec_railStep_up q rails runs on good free).trans (congrArg Host.Outcome.next (if_neg (Nat.not_le.mpr there)))
      · rintro rfl there
        exact (exec_railStep_down q rails runs on good free).trans (congrArg Host.Outcome.next (if_neg (Nat.not_le.mpr there)))
    · obtain ⟨mem, -, -, mv, reading⟩ := polled_foldl (s := s) readings 12 (by rw [rails])
      refine nextWith_next (exec_railTelemetryPoll_of_ready readings ready phase) ?_
      simp only [ready, beq_self_eq_true, if_true]
      generalize (List.range 12).foldl (readRail readings) s = t at mem mv reading
      obtain ⟨held, same⟩ := holdCurrents_rest t
      have rail (r : Nat) : (holdCurrents t).rail r = t.rail r := by rw [State.rail, same, State.rail]
      exact ⟨held.trans mem, fun r hr => ⟨by rw [rail]; exact mv r, by rw [rail, reading r, if_pos hr]; rfl⟩⟩
  · intro put
    refine ⟨fun i count => ⟨exec_fllWindow_of_running domains count, exec_fllWindow_of_other count,
      exec_islandWake_of_stopped domains, exec_islandWake_of_other⟩, fun islands => ?_⟩
    obtain ⟨named, other, falls⟩ := foldl_slowed islands s.power.domains domains
    exact nextWith_next (exec_supplySag islands) ⟨rfl, named, other, falls⟩

end Sys2Proof.Machine
end

section
/-! PROOFS. Heat and faults: thermal readings, the trip and its time-out, regulator faults and warnings, and cable modules (R445 to R448,
R470, R527). -/
namespace Sys2Proof.Machine

/-! ## What strikes and halts leave of the rails and islands -/

section
variable (s : State)

theorem forgetOutside_power (rs : List (Nat × Nat)) (a n : Nat) : (forgetOutside rs a n s).power = s.power :=
  foldl_field State.power (fun acc (x : Nat × Nat) => forgetRange x.1 x.2 acc) (fun _ _ => rfl) _ s

theorem forgetWritten_power (j : Job) : (forgetWritten j s).power = s.power := by
  refine foldl_field State.power _ (fun t i => ?_) _ s
  dsimp only
  split
  · rfl
  · split
    · exact foldl_field State.power (fun x c => forgetRange _ _ x) (fun _ _ => rfl) _ t
    · rfl
    · exact forgetOutside_power ..
    · exact forgetOutside_power ..

theorem endNow_power (cause : Status) (j : Job) : (endNow cause s j).power = s.power := by
  unfold endNow
  split
  · rfl
  · simp only [endJob_power, dropHeld_power, releaseSave_power]
    split
    · rw [freeUnits_power, dropFrames_power, closeWindows_power, idleUnits_power]
      split
      · exact forgetWritten_power s j
      · rfl
    · exact dropBody_power ..

theorem strikeAll_power (p : Job → Bool) (abortCause : Nat) (cause : Status) : (strikeAll p abortCause cause s).power = s.power :=
  (foldl_field State.power (fun acc g => raiseAbort g abortCause acc)
      (fun t g => (congrArg State.power (offJobs_raiseAbort g abortCause t) :)) _ _).trans
    (foldl_field State.power (endNow cause) (fun t j => endNow_power t cause j) _ s)

theorem dropCommit_power : (dropCommit s).power = s.power := by
  unfold dropCommit
  split
  · exact respond_power ..
  · rfl

theorem tripStrikes_power : (tripStrikes s).power = s.power := (dropCommit_power _).trans (strikeAll_power ..)

theorem power_of_offPorts {t : State} (same : t.offPorts = s.offPorts) : t.power = s.power := (congrArg State.power same :)

theorem idlePorts_power : (idlePorts s).power = s.power := power_of_offPorts s (offPorts_idlePorts s)

theorem endService_power : (endService s).power = s.power := by
  have held := power_of_offPorts _ (offPorts_foldl_dropHeld (dropRings s).sched.jobs (idleUnits (dropRings s)))
  exact held

theorem haltFirmware_power (err : Status) : (haltFirmware err s).power = s.power := by
  have same := setFwState_power .failed err (endService (idlePorts s))
  rw [endService_power, idlePorts_power] at same
  simp only [haltFirmware]
  generalize setFwState .failed err (endService (idlePorts s)) = u at same ⊢
  exact same

/-- The alert pin alone follows the alerts. -/
theorem updateAlert_rest :
    let t := updateAlert s
    t.power = s.power ∧ t.fw = s.fw ∧ t.sched = s.sched ∧ t.pins.thermTripN = s.pins.thermTripN ∧ t.fabric = s.fabric ∧ t.inv = s.inv :=
  ⟨rfl, rfl, rfl, rfl, rfl, rfl⟩

/-! ## The managed rails go off -/

theorem railsOff_power :
    ∃ put : Nat → Domain → Domain,
      (railsOff s).power = { s.power with
        rails := s.power.rails.mapIdx fun r x => if 6 ≤ r then Rail.offRail else x, supplies := List.replicate 6 0,
        domains := s.power.domains.mapIdx put } ∧
      ∀ i < 300, ∀ d, (put i d).state = .off ∨ (put i d).state = .fusedOff := by
  refine ⟨fun i d => if decide (i < 300) then (if d.state == .fusedOff then d else { d with state := .off }) else d, ?_, fun i hi d => ?_⟩
  · have emits {α : Type} (c : State → α → State) (keeps : ∀ t a, (c t a).power = t.power) (l : List α) (t : State) :
        (l.foldl c t).power = t.power := foldl_field State.power c keeps l t
    simp only [railsOff, setDomains]
    rw [emits _ (fun t r => by split <;> rfl), emits _ (fun t i => by split <;> rfl)]
  · simp only [decide_eq_true hi, if_true]
    split
    case isTrue fused => exact .inr (by simpa using fused)
    case isFalse => exact .inl rfl

theorem rail_railsOff {r : Nat} (managed : 6 ≤ r) : ((railsOff s).rail r).on = false := by
  obtain ⟨put, power, -⟩ := railsOff_power s
  simp only [State.rail, power, List.getD_eq_getElem?_getD, List.getElem?_mapIdx]
  cases s.power.rails[r]? with
  | none => rfl
  | some x => simp [managed, Rail.offRail]

theorem domain_railsOff {i : Nat} (fed : i < 300) :
    ((railsOff s).domain i).state = .off ∨ ((railsOff s).domain i).state = .fusedOff := by
  obtain ⟨put, power, off⟩ := railsOff_power s
  simp only [State.domain, power, List.getD_eq_getElem?_getD, List.getElem?_mapIdx]
  cases s.power.domains[i]? with
  | none => exact .inl rfl
  | some d => exact off i fed d

theorem railsOff_trip : (railsOff s).power.trippedAt = s.power.trippedAt ∧ (railsOff s).power.sensors = s.power.sensors := by
  obtain ⟨put, power, -⟩ := railsOff_power s
  rw [power]
  exact ⟨rfl, rfl⟩

/-- A halted oscillator does not run, and one that did not run stands. -/
theorem domain_haltIslands (p : Nat → Bool) (i : Nat) :
    (((haltIslands p s).domain i).state ≠ .running ∨ p i = false) ∧
    ((s.domain i).state ≠ .running → (haltIslands p s).domain i = s.domain i) := by
  simp only [State.domain, haltIslands, List.getD_eq_getElem?_getD, List.getElem?_mapIdx]
  cases s.power.domains[i]? with
  | none => exact ⟨.inl (by simp [Domain.offDomain]), fun _ => rfl⟩
  | some d =>
    simp only [Option.map_some, Option.getD_some]
    by_cases halts : (d.state == .running && p i) = true
    · rw [if_pos halts]
      simp only [Bool.and_eq_true, beq_iff_eq] at halts
      exact ⟨.inl (by simp), fun other => absurd halts.1 other⟩
    · rw [if_neg halts]
      simp only [Bool.and_eq_true, beq_iff_eq, not_and_or, Bool.not_eq_true] at halts
      exact ⟨halts, fun _ => rfl⟩

end

/-! ## Readings of the sensors -/

section
variable {s : State}

/-- The readings that the sensors stand at after a reading. -/
def readSensors (deci : List Int) (s : State) : List Int := (List.range 290).map fun i => deci.getD i (s.sensor i)

/-- The state with them. -/
def sensed (deci : List Int) (s : State) : State := { s with power := { s.power with sensors := readSensors deci s } }

theorem sensor_sensed (deci : List Int) {i : Nat} (there : i < 290) : (sensed deci s).sensor i ∈ readSensors deci s := by
  have length : (readSensors deci s).length = 290 := by simp [readSensors]
  rw [State.sensor, sensed, List.getD_eq_getElem _ _ (by rw [length]; exact there)]
  exact List.getElem_mem _

theorem hottest_none {deci : List Int} (cool : ∀ x ∈ readSensors deci s, x < 1150) :
    (List.range 290).find? (fun i => decide (1150 ≤ (sensed deci s).sensor i)) = none := by
  refine List.find?_eq_none.mpr fun i hi => ?_
  rw [decide_eq_true_eq, Int.not_le]
  exact cool _ (sensor_sensed deci (List.mem_range.mp hi))

theorem hottest_some {deci : List Int} (hot : ∃ x ∈ readSensors deci s, 1150 ≤ x) :
    ∃ i, (List.range 290).find? (fun i => decide (1150 ≤ (sensed deci s).sensor i)) = some i := by
  cases found : (List.range 290).find? (fun i => decide (1150 ≤ (sensed deci s).sensor i)) with
  | some i => exact ⟨i, rfl⟩
  | none =>
    obtain ⟨x, member_, high⟩ := hot
    obtain ⟨i, there, rfl⟩ := List.getElem_of_mem member_
    have bound : i < 290 := by simpa [readSensors] using there
    have cold := List.find?_eq_none.mp found i (List.mem_range.mpr bound)
    rw [decide_eq_true_eq, State.sensor, sensed, List.getD_eq_getElem _ _ there] at cold
    exact absurd high cold

section
variable (deci : List Int) (reset : s.pins.devResetN = true) (calm : s.power.trippedAt = none)
include reset calm

theorem exec_thermalSensorRead_of_cool (cool : ∀ x ∈ readSensors deci s, x < 1150) :
    exec (.thermalSensorRead deci) s = .next (updateAlert (if firmwareUp s then heatStages (sensed deci s) else sensed deci s)) := by
  refine congrArg Host.Outcome.next ((if_neg (by simp [reset, calm])).trans (congrArg updateAlert ?_))
  have none_ := hottest_none cool
  unfold sensed readSensors at none_
  simp only [none_]
  rfl

theorem exec_thermalSensorRead_of_hot (hot : ∃ x ∈ readSensors deci s, 1150 ≤ x) :
    ∃ i, exec (.thermalSensorRead deci) s = .next (updateAlert (
      let u : State := { sensed deci s with power := { (sensed deci s).power with trippedAt := some s.time } }
      if firmwareUp s then tripBegin i u else u)) := by
  obtain ⟨i, some_⟩ := hottest_some hot
  refine ⟨i, congrArg Host.Outcome.next ((if_neg (by simp [reset, calm])).trans (congrArg updateAlert ?_))⟩
  unfold sensed readSensors at some_ ⊢
  simp only [some_]
  rfl

end

/-! ## The trip -/

/-- What all steps of a trip leave. -/
theorem tripNow_rest (t : State) :
    let u := tripNow t
    u.power.trippedAt = t.power.trippedAt ∧ u.power.sensors = t.power.sensors ∧ u.fw.state = .failed ∧ u.fw.error = .thermal ∧
    u.pins.thermTripN = false ∧ (∀ r, 6 ≤ r → (u.rail r).on = false) ∧ u.sched.jobs = [] ∧
    ∀ i < 300, (u.domain i).state = .off ∨ (u.domain i).state = .fusedOff := by
  obtain ⟨tripped, sensors⟩ := railsOff_trip (tripStrikes t)
  rw [tripStrikes_power] at tripped sensors
  have rails (r : Nat) (managed : 6 ≤ r) := rail_railsOff (tripStrikes t) managed
  have idle (i : Nat) (fed : i < 300) := domain_railsOff (tripStrikes t) fed
  simp only [tripNow]
  generalize railsOff (tripStrikes t) = off at tripped sensors rails idle ⊢
  have power := haltFirmware_power off .thermal
  obtain ⟨state, error, -, jobs, -⟩ := haltFirmware_rest .thermal off
  generalize haltFirmware .thermal off = halted at power state error jobs ⊢
  refine ⟨(congrArg Power.trippedAt power).trans tripped, (congrArg Power.sensors power).trans sensors, state, error, rfl,
    fun r managed => ?_, jobs, fun i fed => ?_⟩
  · have rail : halted.rail r = off.rail r := congrArg (fun p : Power => p.rails.getD r Rail.offRail) power
    exact (congrArg Rail.on rail).trans (rails r managed)
  · have domain : halted.domain i = off.domain i := congrArg (fun p : Power => p.domains.getD i Domain.offDomain) power
    have still := idle i fed
    rw [← domain] at still
    have stands := (domain_haltIslands halted (fun i => !(i == 318) && !(i == 319)) i).2 (by rcases still with h | h <;> simp [h])
    rw [← stands] at still
    exact still

/-- What a trip that begins leaves, as far as the firmware comes. -/
theorem tripBegin_rest (i : Nat) (t : State) :
    let u := tripBegin i t
    u.power.trippedAt = t.power.trippedAt ∧ u.power.sensors = t.power.sensors ∧
    (Config.tripReach t.fresh = 0 → u.sched = t.sched ∧ u.fw = t.fw ∧ u.pins = t.pins) ∧
    (2 ≤ Config.tripReach t.fresh → u.fw.state = .failed ∧ u.fw.error = .thermal ∧ u.pins.thermTripN = false ∧
      (∀ r, 6 ≤ r → (u.rail r).on = false) ∧ u.sched.jobs = [] ∧
      ∀ i < 300, (u.domain i).state = .off ∨ (u.domain i).state = .fusedOff) := by
  have power := logError_power 0x32 3 .thermal 0xFF 0xFF i 0 t
  have sched := logError_sched 0x32 3 .thermal 0xFF 0xFF i 0 t
  have fw := logError_fw 0x32 3 .thermal 0xFF 0xFF i 0 t
  have pins := logError_pins 0x32 3 .thermal 0xFF 0xFF i 0 t
  simp only [tripBegin]
  generalize logError 0x32 3 .thermal 0xFF 0xFF i 0 t = logged at power sched fw pins ⊢
  match Config.tripReach t.fresh with
  | 0 =>
    exact ⟨congrArg Power.trippedAt power, congrArg Power.sensors power, fun _ => ⟨sched, fw, pins⟩, fun far => absurd far (by decide)⟩
  | 1 =>
    have struck := (tripStrikes_power { logged with fresh := t.fresh + 1 }).trans power
    exact ⟨congrArg Power.trippedAt struck, congrArg Power.sensors struck, fun none_ => absurd none_ (by decide),
      fun far => absurd far (by decide)⟩
  | n + 2 =>
    obtain ⟨tripped, sensors, rest⟩ := tripNow_rest { logged with fresh := t.fresh + 1 }
    exact ⟨tripped.trans (congrArg Power.trippedAt power), sensors.trans (congrArg Power.sensors power),
      fun none_ => absurd none_ (Nat.succ_ne_zero _), fun _ => rest⟩

theorem exec_tripTimeout_of_due {t0 : Nat} (tripped : s.power.trippedAt = some t0) (pin : s.pins.thermTripN = true)
    (due : t0 + 200 ≤ s.time) :
    exec .tripTimeout s = .next (
      let t := tripPin (haltIslands (fun _ => true) (endService (idlePorts s)))
      { t with fw := { t.fw with state := .failed, error := .thermal }, pcie := { t.pcie with up := false },
               pins := { t.pins with segKhz := [0, 0, 0, 0] } }) :=
  congrArg Host.Outcome.next (if_pos (by simp [longSince, tripped, pin, due]))

theorem exec_tripTimeout_of_early {t0 : Nat} (tripped : s.power.trippedAt = some t0) (early : s.time < t0 + 200) :
    exec .tripTimeout s = .next s :=
  congrArg Host.Outcome.next (if_neg (by simp [longSince, tripped, Nat.not_le.mpr early]))

/-! ## Regulators -/

section
variable {rail : Fin 12} (runs : firmwareUp s = true) (managed : 6 ≤ rail.val) (on : (s.rail rail.val).on = true)
include runs managed on

theorem exec_regulatorFault_of_on (calm : s.power.trippedAt = none) :
    exec (.regulatorFault rail) s = .next (updateAlert (haltFirmware .power
      (railsOff (strikeAll (fun _ => true) 2 .power (logError 0x30 3 .power 0xFF 0xFF rail.val 0 s))))) :=
  congrArg Host.Outcome.next (if_pos (by simp [runs, managed, on, calm]))

theorem exec_regulatorWarning_of_on (warns : Bool) :
    exec (.regulatorWarning rail warns) s = .next (updateAlert { s with power :=
      { s.power with rails := updAt s.power.rails rail.val fun x => { x with warning := warns } } }) :=
  congrArg Host.Outcome.next (if_pos (by simp [runs, managed, on]))

end

theorem exec_thermalCapRelease_of_up (runs : firmwareUp s = true) :
    exec .thermalCapRelease s = .next { s with power := { s.power with
      domains := s.power.domains.map (fun d => if d.stage = 0 then { d with cap := min 100 (d.cap + 5) } else d),
      stage2Mv := (List.range 4).map fun q =>
        if s.power.stage2.getD q false then s.power.stage2Mv.getD q 900 else min 900 (s.power.stage2Mv.getD q 900 + 5) } } :=
  congrArg Host.Outcome.next (if_neg (by simp [runs]))

end

/-! ## Ports counted -/

/-- The number of ports. -/
def State.portCount (s : State) : Nat := s.fabric.ports.length

section
variable (s : State)

theorem portCount_updPort (p : Nat) (f : Port → Port) : (s.updPort p f).portCount = s.portCount := length_updAt ..

theorem portCount_logError (src sev : Nat) (st : Status) (fn stave place d : Nat) :
    (logError src sev st fn stave place d s).portCount = s.portCount := by
  rw [State.portCount, logError_fabric, State.portCount]

theorem portCount_discardFlit (p dest : Nat) : (discardFlit p dest s).portCount = s.portCount := by
  unfold discardFlit
  rw [portCount_logError]
  split
  · exact portCount_updPort ..
  · rfl

theorem portCount_transmitNow (p : Nat) (w : Nat × BitVec 6 × Flit) : (transmitNow p w s).portCount = s.portCount := by
  simp [State.portCount, transmitNow, oweCredit, State.updPort, State.emit]

theorem portCount_sendWaiting (p n : Nat) : (sendWaiting p n s).portCount = s.portCount := by
  induction n generalizing s with
  | zero => rfl
  | succ n ih =>
    rw [sendWaiting]
    split
    · rfl
    · split
      · rfl
      · split
        · rfl
        · rw [ih, portCount_transmitNow, portCount_updPort]

theorem portCount_routeFrom (p : Nat) (vc : BitVec 6) (pair : Nat) (f : Flit) : (routeFrom p vc pair f s).portCount = s.portCount := by
  unfold routeFrom
  split
  · exact (portCount_updPort ..).trans (portCount_discardFlit ..)
  · split
    · exact portCount_updPort ..
    · split
      · exact (portCount_updPort ..).trans (portCount_discardFlit ..)
      · exact (portCount_sendWaiting ..).trans (portCount_updPort ..)

theorem portCount_dropPort (st : PortState) (p : Nat) : (dropPort st p s).portCount = s.portCount := by
  refine (foldl_field State.portCount (rerouteFlit p) (fun t w => ?_) _ _).trans ?_
  · unfold rerouteFlit
    split
    · exact portCount_discardFlit ..
    · exact portCount_routeFrom ..
  · exact (List.length_map _).trans (portCount_updPort ..)

end

/-! ## Cable modules -/

/-- What a port that leaves service leaves of another that is silent. -/
theorem silent_dropPort_other {k p : Nat} (other : k ≠ p) {s : State} (silent : Silent k s) (st : PortState) : Silent k (dropPort st p s) := by
  have cleared : Silent k (clearPort st p s) := by
    have port := port_clearPort_other st other s
    exact ⟨(congrArg Port.state port).trans silent.down, (congrArg Port.replay port).trans silent.none_,
      (congrArg Port.waitTx port).trans (by rw [silent.empty]; rfl)⟩
  rw [dropPort]
  generalize (s.port p).waitTx.filter (fun w => !(w.1 == p)) = kept
  generalize clearPort st p s = t at cleared
  induction kept generalizing t with
  | nil => exact cleared
  | cons w kept ih => exact ih _ (silent_rerouteFlit p w cleared)

/-- The inventory once the status of a module has been read. -/
def statusRead (modules : List (Option Nat)) (p : Nat) (s : State) : State :=
  let rate := moduleRate (modules.getD p none)
  let now := match modules.getD p none with | none => 2 | some _ => if rate = 0 then 3 else 1
  { s with inv := { s.inv with portModule := updAt s.inv.portModule p fun _ => rate,
                               portStatus := updAt s.inv.portStatus p fun _ => now } }

/-- The state once the domain of a port whose module has appeared is on. -/
def roused (modules : List (Option Nat)) (p : Nat) (s : State) : State :=
  if natBit s.staged.cur.featureEnable 2 then setDomains (fun i => i == 300 + p) .running (statusRead modules p s)
  else statusRead modules p s

/-- A port's module is polled where the port is enabled, cabled and has a rate. -/
def skipped (status : Nat) : Bool := status = 5 || status = 0 || status = 4

section
variable {modules : List (Option Nat)} {p : Nat} {s : State}

theorem modulePolled_of_skipped (skip : skipped (s.inv.portStatus.getD p 0) = true) : modulePolled modules s p = s := if_pos skip

theorem modulePolled_of_polled (poll : skipped (s.inv.portStatus.getD p 0) = false) :
    modulePolled modules s p =
      let rate := moduleRate (modules.getD p none)
      let old := s.inv.portModule.getD p 0
      let u := roused modules p s
      if old = 0 && 0 < rate then
        if portTrains u p && (u.port p).state == .down then u.updPort p fun x => { x with state := .training, rate := 0, neighbour := none }
        else u
      else if 0 < old && rate = 0 then setDomains (fun i => i == 300 + p) .off (dropPort .down p (statusRead modules p s))
      else statusRead modules p s :=
  if_neg (Bool.eq_false_iff.mp poll)

/-- A poll leaves a port as it was, or its status is read, and then it may train or leave service. -/
theorem modulePolled_cases (C : State → Prop) (stands : C s) (read : C (statusRead modules p s))
    (powered : ∀ st t, C t → C (setDomains (fun i => i == 300 + p) st t))
    (trains : ∀ t, C t → C (t.updPort p fun x => { x with state := .training, rate := 0, neighbour := none }))
    (falls : ∀ t, C t → C (dropPort .down p t)) : C (modulePolled modules s p) := by
  have on : C (roused modules p s) := by
    unfold roused
    split
    · exact powered _ _ read
    · exact read
  cases poll : skipped (s.inv.portStatus.getD p 0) with
  | true =>
    rw [modulePolled_of_skipped poll]
    exact stands
  | false =>
    rw [modulePolled_of_polled poll]
    dsimp only
    split
    · split
      · exact trains _ on
      · exact on
    · split
      · exact powered _ _ (falls _ read)
      · exact read

end

/-- The inventory's entries of a port, and that every port has its place. -/
structure PortFound (k rate status : Nat) (t : State) : Prop where
  ports : t.portCount = 16
  modules_ : t.inv.portModule.length = 16
  statuses : t.inv.portStatus.length = 16
  rate : t.inv.portModule.getD k 0 = rate
  status : t.inv.portStatus.getD k 0 = status

section
variable {modules : List (Option Nat)} {k p rate status : Nat} {s : State}

theorem portFound_congr {t : State} (inv : t.inv = s.inv) (ports : t.portCount = s.portCount) (found : PortFound k rate status s) :
    PortFound k rate status t := by
  obtain ⟨count, modules_, statuses, hrate, hstatus⟩ := found
  exact ⟨ports.trans count, by rw [inv]; exact modules_, by rw [inv]; exact statuses, by rw [inv]; exact hrate, by rw [inv]; exact hstatus⟩

theorem inv_dropPort (st : PortState) (p : Nat) (t : State) : (dropPort st p t).inv = t.inv :=
  (congrArg State.inv (offFabric_dropPort st p t) :)

theorem portFound_modulePolled_other (other : k ≠ p) (found : PortFound k rate status s) :
    PortFound k rate status (modulePolled modules s p) := by
  refine modulePolled_cases (PortFound k rate status) found ?_ (fun st t h => portFound_congr (s := t) rfl rfl h)
    (fun t h => portFound_congr (s := t) rfl (portCount_updPort ..) h)
    (fun t h => portFound_congr (s := t) (inv_dropPort ..) (portCount_dropPort ..) h)
  obtain ⟨count, modules_, statuses, hrate, hstatus⟩ := found
  exact ⟨count, (length_updAt ..).trans modules_, (length_updAt ..).trans statuses,
    (updAt_getD_other _ _ _ other).trans hrate, (updAt_getD_other _ _ _ other).trans hstatus⟩

theorem silent_modulePolled_other (other : k ≠ p) (silent : Silent k s) : Silent k (modulePolled modules s p) :=
  modulePolled_cases (Silent k) silent (silent_of_port silent rfl rfl rfl) (fun _ _ h => silent_of_port h rfl rfl rfl)
    (fun _ h => silent_updPort_other _ other.symm h) (fun _ h => silent_dropPort_other other h .down)

/-- A module that is gone takes its port down. -/
theorem modulePolled_of_gone (found : PortFound k rate 1 s) (there : k < 16) (some_ : 0 < rate) (gone : modules.getD k none = none) :
    Silent k (modulePolled modules s k) ∧ PortFound k 0 2 (modulePolled modules s k) := by
  obtain ⟨count, modules_, statuses, hrate, hstatus⟩ := found
  have polled : modulePolled modules s k = setDomains (fun i => i == 300 + k) .off (dropPort .down k (statusRead modules k s)) := by
    rw [modulePolled_of_polled (by rw [hstatus]; rfl)]
    dsimp only
    rw [hrate, gone, if_neg (by simp [moduleRate]), if_pos (by simp [moduleRate, some_])]
  have read : PortFound k 0 2 (statusRead modules k s) := by
    refine ⟨count, (length_updAt ..).trans modules_, (length_updAt ..).trans statuses,
      (updAt_getD_same _ _ _ _ (by rw [modules_]; exact there)).trans (by rw [gone]; rfl),
      (updAt_getD_same _ _ _ _ (by rw [statuses]; exact there)).trans (by rw [gone])⟩
  rw [polled]
  have silent : Silent k (dropPort .down k (statusRead modules k s)) :=
    silent_dropPort (lt_of_lt_of_eq there (read.ports.symm :))
  exact ⟨silent_of_port silent rfl rfl rfl,
    portFound_congr (s := statusRead modules k s) (inv_dropPort ..) (portCount_dropPort ..) read⟩

/-- Polling other ports leaves a port whose module is gone. -/
theorem foldl_modulePolled_other (l : List Nat) (t : State) (fresh : k ∉ l) (silent : Silent k t) (found : PortFound k rate status t) :
    Silent k (l.foldl (modulePolled modules) t) ∧ PortFound k rate status (l.foldl (modulePolled modules) t) := by
  induction l generalizing t with
  | nil => exact ⟨silent, found⟩
  | cons q l ih =>
    obtain ⟨differs, rest⟩ := not_or.mp (mt List.mem_cons.mpr fresh)
    exact ih _ rest (silent_modulePolled_other differs silent) (portFound_modulePolled_other differs found)

/-- Polling a run of ports in turn takes down the one whose module is gone. -/
theorem foldl_modulePolled_of_gone (l : List Nat) (t : State) (nodup : l.Nodup) (found : PortFound k rate 1 t) (named : k ∈ l)
    (there : k < 16) (some_ : 0 < rate) (gone : modules.getD k none = none) :
    Silent k (l.foldl (modulePolled modules) t) ∧ PortFound k 0 2 (l.foldl (modulePolled modules) t) := by
  induction l generalizing t with
  | nil => exact absurd named List.not_mem_nil
  | cons p l ih =>
    obtain ⟨fresh, nodup⟩ := List.nodup_cons.mp nodup
    rcases List.mem_cons.mp named with rfl | later
    · obtain ⟨silent, unplugged⟩ := modulePolled_of_gone found there some_ gone
      exact foldl_modulePolled_other l _ fresh silent unplugged
    · exact ih _ nodup (portFound_modulePolled_other (fun same => fresh (same ▸ later)) found) later

theorem exec_cmisStatusPoll_of_ready (modules : List (Option Nat)) (ready : s.fw.state = .ready) (phase : s.pins.clavePhase = 2) :
    exec (.cmisStatusPoll modules) s = .next ((List.range 16).foldl (modulePolled modules) s) :=
  congrArg Host.Outcome.next (if_pos (by simp [ready, phase]))

end

theorem heatIsland_of_hot {target t : Int} (hot : target ≤ t) (floor : Nat) (d : Domain) :
    (heatIsland target t floor d).stage = 1 ∧ (heatIsland target t floor d).cap = max floor (d.cap - 5) := by
  simp [heatIsland, hot]

theorem heatIsland_of_cool {target t : Int} (cool : t ≤ target - 30) (floor : Nat) (d : Domain) :
    (heatIsland target t floor d).stage = 0 ∧ (heatIsland target t floor d).cap = d.cap := by
  have below : ¬target ≤ t := by omega
  simp [heatIsland, below, cool]

/-- Settles O60: each reading, fault and poll by what it meets. -/
theorem heatAndFaultsStopTheDevice : Obligations.HeatAndFaultsStopTheDevice := by
  unfold Obligations.HeatAndFaultsStopTheDevice
  intro s off p
  refine ⟨fun deci reset calm => ?_, fun target t floor d hot => heatIsland_of_hot hot floor d,
    fun target t floor d cool _ => heatIsland_of_cool cool floor d, exec_thermalCapRelease_of_up,
    fun t0 tripped pin => ⟨fun due => ?_, exec_tripTimeout_of_early tripped⟩,
    fun rail runs managed on => ⟨fun calm => ?_, exec_regulatorWarning_of_on runs managed on⟩, ?_⟩
  · intro sensors t
    refine ⟨fun cool runs => ?_, fun cool stopped => ?_, fun hot runs => ?_, fun hot stopped => ?_⟩
    · exact (exec_thermalSensorRead_of_cool deci reset calm cool).trans
        (congrArg (fun u => Host.Outcome.next (updateAlert u)) (if_pos runs))
    · exact (exec_thermalSensorRead_of_cool deci reset calm cool).trans
        (congrArg (fun u => Host.Outcome.next (updateAlert u)) (if_neg (Bool.eq_false_iff.mp stopped)))
    · obtain ⟨i, read⟩ := exec_thermalSensorRead_of_hot deci reset calm hot
      have begins := read.trans (congrArg (fun u => Host.Outcome.next (updateAlert u)) (if_pos runs))
      obtain ⟨tripped, felt, none_, far⟩ := tripBegin_rest i { t with power := { t.power with trippedAt := some s.time } }
      refine nextWith_next begins ⟨tripped, felt, fun reach => ?_, far⟩
      obtain ⟨sched, fw, pins⟩ := none_ reach
      exact ⟨sched, fw, (congrArg Pins.thermTripN pins :)⟩
    · obtain ⟨i, read⟩ := exec_thermalSensorRead_of_hot deci reset calm hot
      exact read.trans (congrArg (fun u => Host.Outcome.next (updateAlert u)) (if_neg (Bool.eq_false_iff.mp stopped)))
  · refine nextWith_next (exec_tripTimeout_of_due tripped pin due) ?_
    obtain ⟨log, mem, -, jobs, -⟩ := endService_rest (idlePorts s)
    obtain ⟨log', mem', -⟩ := rest_of_offPorts (offPorts_idlePorts s)
    generalize endService (idlePorts s) = u at log mem jobs ⊢
    exact ⟨rfl, rfl, rfl, rfl, jobs, rfl, mem.trans mem', log.trans log',
      fun i => ((domain_haltIslands u (fun _ => true) i).1).resolve_right (by decide)⟩
  · refine nextWith_next (exec_regulatorFault_of_on runs managed on calm) ?_
    generalize strikeAll _ _ _ _ = struck
    have rails (r : Nat) (managed : 6 ≤ r) := rail_railsOff struck managed
    generalize railsOff struck = dark at rails
    have power := haltFirmware_power dark .power
    obtain ⟨state, error, -, jobs, -⟩ := haltFirmware_rest .power dark
    generalize haltFirmware .power dark = halted at power state error jobs ⊢
    exact ⟨state, error, fun r managed =>
      (congrArg (fun p : Power => (p.rails.getD r Rail.offRail).on) power).trans (rails r managed), jobs⟩
  · intro modules k ready phase there ports modules_ statuses cabled rate gone
    refine nextWith_next (exec_cmisStatusPoll_of_ready modules ready phase) ?_
    have nodup : (List.range 16).Nodup := List.nodup_range
    have named : k ∈ List.range 16 := List.mem_range.mpr there
    generalize List.range 16 = l at nodup named ⊢
    obtain ⟨silent, unplugged⟩ := foldl_modulePolled_of_gone l s nodup ⟨ports, modules_, statuses, rfl, cabled⟩ named there rate gone
    exact ⟨silent.down, unplugged.rate, unplugged.status⟩

end Sys2Proof.Machine
end

section
/-! PROOFS. What follows a Function Level Reset writes no entry of a BAR2 access: flits that are taken log otherwise, and raise nothing at a
function without queues. -/
namespace Sys2Proof.Machine

/-! ## What flits on their way leave of the functions and the log -/

/-- The functions and the log. -/
def State.recorded (s : State) : List Func × ErrorLog := (s.funcs, s.log)

section
variable (s : State)

theorem recorded_transmitNow (p : Nat) (w : Nat × BitVec 6 × Flit) : (transmitNow p w s).recorded = s.recorded := rfl

theorem recorded_sendWaiting (p n : Nat) : (sendWaiting p n s).recorded = s.recorded := by
  induction n generalizing s with
  | zero => rfl
  | succ n ih =>
    rw [sendWaiting]
    split
    · rfl
    · split
      · rfl
      · split
        · rfl
        · rw [ih, recorded_transmitNow]
          rfl

theorem recorded_transmit (p q : Nat) (vc : BitVec 6) (f : Flit) : (transmit p q vc f s).recorded = s.recorded :=
  recorded_sendWaiting ..

theorem recorded_returnCredits (p : Nat) : (returnCredits p s).recorded = s.recorded := by
  unfold returnCredits
  dsimp only
  split
  · exact recorded_transmit ..
  · exact foldl_field State.recorded (fun acc (_ : BitVec 6 × Nat) => sendIdle p acc) (fun _ _ => rfl) _ s

theorem recorded_sendCredits : (sendCredits s).recorded = s.recorded := by
  simp only [sendCredits]
  generalize List.range 16 = ports
  refine foldl_field State.recorded _ (fun t p => ?_) ports s
  split
  · rfl
  · exact recorded_returnCredits ..

theorem recorded_dropWaiting (sel : Nat × BitVec 14 × Flit → Bool) : (dropWaiting sel s).recorded = s.recorded := by
  rw [State.recorded, dropWaiting_funcs, dropWaiting_log, State.recorded]

theorem recorded_dropStale (tag a : Nat) : (dropStale tag a s).recorded = s.recorded := by
  unfold dropStale
  exact (foldl_field State.recorded (fun acc (w : Nat × BitVec 6 × Flit) => oweCredit w.1 w.2.1 acc) (fun _ _ => rfl) _ _).trans
    (recorded_dropWaiting ..)

theorem recorded_setPhase (u : UnitId) (key : Nat) (ph : Flight) : (setPhase u key ph s).recorded = s.recorded := by
  rw [setPhase, State.recorded, State.updUnit_funcs, State.updUnit_log, State.recorded]

theorem recorded_forgetOutside (rs : List (Nat × Nat)) (a n : Nat) : (forgetOutside rs a n s).recorded = s.recorded :=
  foldl_field State.recorded (fun acc (x : Nat × Nat) => forgetRange x.1 x.2 acc) (fun _ _ => rfl) _ s

end

/-! ## No access logged -/

/-- An entry of a BAR2 access: it is of the physical function, and of no stave. -/
def OfAccess (e : LogEntry) : Prop := e.fn = 0 ∧ e.stave = 0xFF

/-- The log is `L` and the physical function stands at its reset values, or the last entry of the log is of no BAR2 access. -/
def Quiet (L : ErrorLog) (s : State) : Prop :=
  (s.log = L ∧ s.func 0 = Func.reset true) ∨ ∃ e, s.log.entries.getLast? = some e ∧ ¬OfAccess e

section
variable {L : ErrorLog} {s : State} (quiet : Quiet L s)
include quiet

theorem quiet_of_log {t : State} (log : t.log = s.log) (func : s.func 0 = Func.reset true → t.func 0 = s.func 0) : Quiet L t := by
  rcases quiet with ⟨same, reset⟩ | other
  · exact .inl ⟨log.trans same, (func reset).trans reset⟩
  · exact .inr (by rw [log]; exact other)

theorem quiet_of_recorded {t : State} (same : t.recorded = s.recorded) : Quiet L t := by
  obtain ⟨funcs, log⟩ := Prod.mk.inj same
  exact quiet_of_log quiet log fun _ => by rw [State.func, funcs, State.func]

theorem quiet_logError (src sev : Nat) (st : Status) {fn stave : Nat} (other : ¬(fn = 0 ∧ stave = 0xFF)) (place d : Nat) :
    Quiet L (logError src sev st fn stave place d s) := by
  by_cases halted : s.fw.state = .failed
  · rw [logError, if_pos halted]
    exact quiet
  · have entries : ∃ l e, (logError src sev st fn stave place d s).log.entries = l ++ [e] ∧ e.fn = fn ∧ e.stave = stave := by
      rw [logError, if_neg halted]
      dsimp only
      rw [raiseIrqs_log]
      exact ⟨_, _, rfl, rfl, rfl⟩
    obtain ⟨l, e, entries, hfn, hstave⟩ := entries
    refine .inr ⟨e, by rw [entries, List.getLast?_concat], ?_⟩
    rw [OfAccess, hfn, hstave]
    exact other

theorem quiet_updGroup (tag : Nat) (f : Group → Group) : Quiet L (s.updGroup tag f) := quiet_of_recorded quiet rfl

theorem quiet_oweCredit (p : Nat) (vc : BitVec 6) : Quiet L (oweCredit p vc s) := quiet_of_recorded quiet rfl

theorem quiet_fabric (f : Fabric) : Quiet L { s with fabric := f } := quiet_of_recorded quiet rfl

theorem quiet_mem (m : Memory) : Quiet L { s with mem := m } := quiet_of_recorded quiet rfl

omit quiet in
theorem quiet_foldl {α : Type} {f : State → α → State} (step : ∀ t a, Quiet L t → Quiet L (f t a)) (l : List α) {t : State}
    (start : Quiet L t) : Quiet L (l.foldl f t) := by
  induction l generalizing t with
  | nil => exact start
  | cons a l ih => exact ih (step t a start)

/-! ## The end of a job -/

omit quiet in
/-- A function at its reset values has no queue. -/
theorem queue_of_reset {fn q : Nat} (reset : s.func fn = Func.reset true) : s.queue fn q = none := by
  rw [State.queue, reset]
  rcases Nat.lt_or_ge q 8 with there | beyond
  · rw [slotAt, Func.reset, List.getElem?_replicate, if_pos there]
    rfl
  · rw [slotAt, Func.reset, List.getElem?_replicate, if_neg (Nat.not_lt.mpr beyond)]
    rfl

omit quiet in
/-- A record is told to its function alone. -/
theorem func_postRecord_other {fn k : Nat} (other : k ≠ fn) (q : Nat) (r : Record) (s : State) :
    (postRecord fn q r s).func k = s.func k := by
  have queue (f : JobQueue → JobQueue) (t : State) : (t.updQueue fn q f).func k = t.func k := func_updFunc_other t _ other
  have ended (ok : Bool) (j : Job) (t : State) : (countEnd fn q ok j t).func k = t.func k :=
    (queue _ _).trans (func_updFunc_other t _ other)
  have written (x : JobQueue) (t : State) : (writeRecord fn q x r t).func k = t.func k := by
    have host (a : Nat) (bs : List Byte) : (hostWrite a bs t).func k = t.func k := by rw [State.func, hostWrite_funcs, State.func]
    have told := (func_raiseIrq_other (1 + q) _ other).trans
      ((queue JobQueue.posted _).trans (host (x.cmpBase + 64 * x.cmpWrite) (recordBytes r q x.cmpPhase)))
    unfold writeRecord
    dsimp only
    generalize raiseIrq fn (1 + q) _ = u at told ⊢
    split
    · exact (ended _ _ u).trans told
    · exact told
  unfold postRecord
  split
  · rfl
  · split
    · exact queue _ _
    · exact written _ _

theorem quiet_postRecord (fn q : Nat) (r : Record) : Quiet L (postRecord fn q r s) := by
  refine quiet_of_log quiet (postRecord_log ..) fun reset => ?_
  rcases eq_or_ne fn 0 with rfl | other
  · rw [postRecord, queue_of_reset reset]
    rfl
  · exact func_postRecord_other other.symm q r s

theorem quiet_endJob (j : Job) (st cause : Status) (kind : Nat) (d : BitVec 352) : Quiet L (endJob j st cause kind d s) :=
  quiet_postRecord (s := s.updJob j.id fun x => { x with stage := .recorded }) (quiet_of_recorded quiet rfl) _ _ _

theorem quiet_endResting (j : Job) (st cause : Status) (kind : Nat) (d : BitVec 352) : Quiet L (endResting j st cause kind d s) := by
  refine quiet_endJob (quiet_of_recorded (t := dropHeld j (dropBody j.id (releaseSave j.id s))) quiet ?_) ..
  simp only [State.recorded, dropHeld_funcs, dropHeld_log, dropBody_funcs, dropBody_log, releaseSave_funcs, releaseSave_log]

theorem quiet_endRunning (st cause : Status) (kind : Nat) (d : BitVec 352) : Quiet L (endRunning st cause kind d s) := by
  unfold endRunning
  split
  case h_1 => exact quiet
  case h_2 j _ =>
    split
    · exact quiet
    · split
      · refine quiet_of_recorded quiet ?_
        change (dropFrames j.id (closeWindows j (idleUnits s))).recorded = _
        simp only [State.recorded, dropFrames_funcs, dropFrames_log, closeWindows_funcs, closeWindows_log, idleUnits_funcs, idleUnits_log]
      · have held : Quiet L (dropHeld j (releaseSave j.id s)) := by
          refine quiet_of_recorded quiet ?_
          simp only [State.recorded, dropHeld_funcs, dropHeld_log, releaseSave_funcs, releaseSave_log]
        exact quiet_of_recorded (quiet_endJob held j st cause kind d) rfl

theorem quiet_endAny (j : Job) (st cause : Status) (kind : Nat) (d : BitVec 352) : Quiet L (endAny j st cause kind d s) := by
  unfold endAny
  split
  · exact quiet_endRunning quiet ..
  · split
    · exact quiet
    · exact quiet_endResting quiet ..

/-! ## Routes and messages -/

theorem quiet_discardFlit (p dest : Nat) : Quiet L (discardFlit p dest s) := by
  have counted : Quiet L (if p < 16 then s.updPort p fun x => { x with discards := satAdd 32 x.discards 1 } else s) := by
    split
    · exact quiet_of_recorded quiet rfl
    · exact quiet
  exact quiet_logError counted _ _ _ (by decide) _ _

theorem quiet_routeFrom (p : Nat) (vc : BitVec 6) (pair : Nat) (f : Flit) : Quiet L (routeFrom p vc pair f s) := by
  unfold routeFrom
  split
  · exact quiet_oweCredit (quiet_discardFlit quiet _ _) _ _
  · split
    · exact quiet_oweCredit quiet _ _
    · split
      · exact quiet_oweCredit (quiet_discardFlit quiet _ _) _ _
      · exact quiet_of_recorded quiet (recorded_transmit ..)

theorem quiet_sendChildren (g : Group) (m : ClapMsg) : Quiet L (sendChildren g m s) :=
  quiet_foldl (f := fun acc k => sendClap g k m acc) (fun _ _ h => quiet_routeFrom h ..) _ quiet

/-! ## Aborts and strikes -/

theorem quiet_endAbort (source : Nat) (g : Group) (seq cause origin : Nat) : Quiet L (endAbort source g seq cause origin s) := by
  have stale : Quiet L (dropStale g.tag.toNat seq (s.updGroup g.tag.toNat (abortedGroup source seq))) :=
    quiet_of_recorded (quiet_updGroup quiet ..) (recorded_dropStale ..)
  exact quiet_logError (quiet_foldl (fun _ _ h => quiet_endAny h ..) _ stale) _ _ _ (by decide) _ _

theorem quiet_applyAbort (g : Group) (seq cause origin : Nat) : Quiet L (applyAbort g seq cause origin s) :=
  quiet_endAbort (quiet_sendChildren quiet ..) ..

theorem quiet_requestAbort (g : Group) (seq cause : Nat) : Quiet L (requestAbort g seq cause s) := by
  unfold requestAbort
  split
  · unfold decideAbort
    split
    · exact quiet_applyAbort quiet ..
    · exact quiet
  · exact quiet_routeFrom (quiet_updGroup quiet ..) ..

theorem quiet_raiseAbort (tag cause : Nat) : Quiet L (raiseAbort tag cause s) := by
  unfold raiseAbort
  split
  · exact quiet
  · exact quiet_requestAbort quiet ..

theorem quiet_strikeRunning (cause : Status) (kind : Nat) (d : BitVec 352) : Quiet L (strikeRunning cause kind d s) := by
  unfold strikeRunning
  split
  · exact quiet
  · unfold strikeJob
    split
    · exact quiet
    · exact quiet_foldl (f := fun acc t => raiseAbort t 2 acc) (fun _ _ h => quiet_raiseAbort h ..) _ (quiet_endAny quiet ..)

/-! ## Sends that land -/

theorem quiet_ackSend (xtag : BitVec 7) (bytes : Nat) (opening : Option (Digest × Nat)) : Quiet L (ackSend xtag bytes opening s) := by
  have counted : Quiet L (countAcked xtag opening s) := by
    unfold countAcked
    split
    · exact quiet_of_recorded quiet rfl
    · exact quiet
  change Quiet L (match (countAcked xtag opening s).fabric.sends.find? fun x => x.xtag == xtag with | none => _ | some x => _)
  cases (countAcked xtag opening s).fabric.sends.find? fun x => x.xtag == xtag with
  | none => exact counted
  | some x =>
    dsimp only
    split
    · exact quiet_of_recorded counted (recorded_setPhase ..)
    · exact quiet_of_recorded counted rfl

theorem quiet_returnAck (peer : Nat) (xtag : BitVec 7) (bytes : Nat) (opening : Option (Digest × Nat)) :
    Quiet L (returnAck peer xtag bytes opening s) := by
  unfold returnAck
  split
  · exact quiet_ackSend quiet ..
  · exact quiet_routeFrom quiet ..

theorem quiet_unitWrite (a : Nat) (bs : List Byte) : Quiet L (unitWrite 13 s a bs) := by
  unfold unitWrite guardedWrite
  dsimp only
  split
  · exact quiet_logError (quiet_mem quiet _) _ _ _ (fun h => absurd h.2 (by decide)) _ _
  · exact quiet_mem quiet _

theorem quiet_landBytes (w : Window) (f : Flit) : Quiet L (landBytes w f s) :=
  quiet_foldl (f := fun acc d => unitWrite 13 acc (d + sendOffset f) f.payload) (fun _ _ h => quiet_unitWrite h ..) _ quiet

theorem quiet_closeOpening (wi : Nat) (w : Window) (last : Nat) (xtag : BitVec 7) (bytes : Nat) :
    Quiet L (closeOpening wi w last xtag bytes s) := by
  refine quiet_of_recorded (quiet_returnAck (quiet_foldl (fun _ _ h => quiet_returnAck h ..) _ (quiet_foldl (fun _ _ h => ?_) _ ?_)) ..)
    (recorded_setPhase ..)
  · exact quiet_of_recorded h rfl
  · exact quiet_of_recorded quiet rfl

theorem quiet_deliverSend (src : BitVec 14) (f : Flit) : Quiet L (deliverSend src f s).1 := by
  unfold deliverSend
  dsimp only
  split
  · exact quiet
  · split
    · exact quiet
    · split
      · exact quiet_strikeRunning (quiet_logError quiet _ _ _ (fun h => absurd h.2 (by decide)) _ _) ..
      · split
        · exact quiet_closeOpening (quiet_landBytes quiet ..) ..
        · exact quiet_returnAck (quiet_fabric (quiet_landBytes quiet _ _) _) ..

/-! ## Chunks that are taken -/

theorem quiet_sendCollFlit (g : Group) (c : Collective) (q : Nat) (bs : List Byte) : Quiet L (sendCollFlit g c q bs s) := by
  unfold sendCollFlit
  dsimp only
  split
  · split
    · exact quiet_routeFrom quiet ..
    · exact quiet_discardFlit quiet ..
  · exact quiet

theorem quiet_finishColl (tag seq : Nat) : Quiet L (finishColl tag seq s) := by
  unfold finishColl
  split
  · exact quiet
  · dsimp only
    split
    · exact quiet_of_recorded quiet (recorded_setPhase ..)
    · exact quiet_of_recorded quiet rfl

theorem quiet_takeDown (g : Group) (c : Collective) (data : List Byte) : Quiet L (takeDown g c data s) := by
  unfold takeDown
  dsimp only
  refine quiet_finishColl ?_ ..
  split
  · exact quiet_unitWrite (quiet_sendChildren quiet ..) ..
  · exact quiet_sendChildren quiet ..

theorem quiet_tryUp (tag seq : Nat) : Quiet L (tryUp tag seq s) := by
  unfold tryUp
  split
  · exact quiet
  · split
    · exact quiet
    · dsimp only
      split
      · exact quiet
      · split
        · exact quiet
        · split
          · split
            · exact quiet_applyAbort quiet ..
            · split
              · exact quiet_takeDown quiet ..
              · exact quiet_finishColl (quiet_sendChildren quiet ..) ..
          · exact quiet_routeFrom (quiet_updGroup quiet ..) ..

theorem quiet_joinWave (tag seq : Nat) : Quiet L (joinWave tag seq s) := by
  unfold joinWave
  split
  · exact quiet
  · split
    · exact quiet
    · split
      · exact quiet_tryUp (quiet_updGroup quiet ..) ..
      · exact quiet

theorem quiet_written (tag seq n a : Nat) (bs : List Byte) : Quiet L (addWritten tag seq n (unitWrite 13 s a bs)) :=
  quiet_of_recorded (quiet_unitWrite quiet a bs) rfl

/-- A chunk that goes on, or has come to its last member. -/
theorem quiet_passed (last : Prop) [Decidable last] (g : Group) (c : Collective) (q : Nat) (bs : List Byte) :
    Quiet L (if last then s else sendCollFlit g c q bs s) := by
  split
  · exact quiet
  · exact quiet_sendCollFlit quiet ..

theorem quiet_takeChunk (g : Group) (c : Collective) (q : Nat) (bs : List Byte) : Quiet L (takeChunk g c q bs s) := by
  have counted (f : Group → Group) : Quiet L (s.updGroup g.tag.toNat f) := quiet_updGroup quiet ..
  have reduced (f : Group → Group) (i n : Nat) (ws : List Word) :
      Quiet L (addWritten g.tag.toNat c.seq n (writeFinal c i ws (s.updGroup g.tag.toNat f))) :=
    quiet_written (counted f) ..
  have added (f : Group → Group) (again : Prop) [Decidable again] (first final : Prop) [Decidable first] [Decidable final] (i j n : Nat)
      (sum value : List Word) (sent passed : List Byte) (last : Prop) [Decidable last] :
      Quiet L (if first then
          if final then joinWave g.tag.toNat c.seq
            (if again then sendCollFlit g c q sent (addWritten g.tag.toNat c.seq n (writeFinal c i sum (s.updGroup g.tag.toNat f)))
             else addWritten g.tag.toNat c.seq n (writeFinal c i sum (s.updGroup g.tag.toNat f)))
          else sendCollFlit g c q sent (s.updGroup g.tag.toNat f)
        else joinWave g.tag.toNat c.seq
          (if last then addWritten g.tag.toNat c.seq n (writeFinal c j value (s.updGroup g.tag.toNat f))
           else sendCollFlit g c q passed (addWritten g.tag.toNat c.seq n (writeFinal c j value (s.updGroup g.tag.toNat f))))) := by
    split
    · split
      · refine quiet_joinWave ?_ ..
        split
        · exact quiet_sendCollFlit (reduced ..) ..
        · exact reduced ..
      · exact quiet_sendCollFlit (counted f) ..
    · exact quiet_joinWave (quiet_passed (reduced ..) ..) ..
  unfold takeChunk
  dsimp only
  split
  · exact added ..
  · exact added ..
  · exact quiet_joinWave (quiet_passed (quiet_written (counted _) ..) ..) ..
  · exact quiet_joinWave (quiet_passed (quiet_written (counted _) ..) ..) ..
  · exact counted _

theorem quiet_spill (g : Group) (seq8 q : Nat) (bs : List Byte) : Quiet L (spill g seq8 q bs s) := by
  unfold spill guardedForget
  refine quiet_of_recorded ?_ (recorded_forgetOutside ..)
  split
  · exact quiet_logError (quiet_updGroup quiet ..) _ _ _ (fun h => absurd h.2 (by decide)) _ _
  · exact quiet_updGroup quiet ..

theorem quiet_deliverColl (f : Flit) : Quiet L (deliverColl f s).1 := by
  unfold deliverColl
  dsimp only
  split
  · exact quiet
  · split
    · exact quiet
    · split
      · exact quiet_takeChunk quiet ..
      · split
        · exact quiet_spill quiet ..
        · exact quiet

/-! ## Flits that wait -/

theorem quiet_takeFlit (p : Nat) (src : BitVec 14) (f : Flit) : Quiet L (takeFlit p src f s).1 := by
  have freed (r : State × Bool) (delivered : Quiet L r.1) : Quiet L (if r.2 then oweCredit p f.vc r.1 else r.1) := by
    split
    · exact quiet_oweCredit delivered _ _
    · exact delivered
  by_cases own : f.dest = s.inv.member
  · cases kind : f.kind with
    | send =>
      rw [takeFlit_of_send own kind]
      exact freed _ (quiet_deliverSend quiet ..)
    | coll =>
      rw [takeFlit_of_coll own kind]
      exact freed _ (quiet_deliverColl quiet ..)
    | _ =>
      simp only [takeFlit, if_pos own, kind]
      exact freed (s, true) quiet
  · rw [takeFlit_of_other own]
    exact quiet_routeFrom quiet ..

theorem quiet_takeNext {t : State} (l : List Nat) (taken : takeNext s l = some t) : Quiet L t := by
  induction l with
  | nil => exact absurd taken nofun
  | cons i rest ih =>
    rw [takeNext] at taken
    cases waits : s.fabric.waiting[i]? with
    | none =>
      rw [waits] at taken
      exact absurd taken nofun
    | some w =>
      obtain ⟨p, src, f⟩ := w
      simp only [waits] at taken
      have offered := quiet_takeFlit (quiet_fabric quiet { s.fabric with waiting := s.fabric.waiting.eraseIdx i }) p src f
      generalize takeFlit p src f _ = r at taken offered
      obtain ⟨u, _ | _⟩ := r
      · simp only [ite_self] at taken
        exact ih taken
      · simp only [] at taken
        split at taken
        · exact ih taken
        · exact Option.some.inj taken ▸ offered

theorem quiet_offerMany (n : Nat) : Quiet L (offerMany n s) := by
  induction n generalizing s with
  | zero => exact quiet
  | succ n ih =>
    rw [offerMany]
    split
    case h_1 t taken => exact ih (quiet_takeNext quiet _ taken)
    case h_2 => exact quiet

end

/-- Where no decision is taken, what follows a change of readiness is the clocks' and the flits'. -/
theorem settle_of_held {s : State} (held : s.fw.state ≠ .ready) :
    settle s = sendCredits (offerWaiting (restClocks (noteReady (noteReady s)))) := by
  have waits : decideAll (s.sched.jobs.length + 1) (noteReady s) = noteReady s := by
    have held_ : decisionsHeld (noteReady s) = true := by
      simp [decisionsHeld, held]
    rw [decideAll, if_pos held_]
  rw [settle, waits]

theorem recorded_restClocks_noteReady (s : State) : (restClocks (noteReady (noteReady s))).recorded = s.recorded := rfl

/-- Where the firmware serves no mailbox, no request of an unknown opcode is refused. -/
theorem nextTurn_of_unserved {s : State} (unserved : serving s = false) : nextTurn s = s := by
  unfold nextTurn
  have none_ : unknownNext s = none := by rw [unknownNext, if_neg (by rw [unserved]; decide)]
  cases ringLoad s with
  | zero => rfl
  | succ n => simp only [refuseUnknown, none_]

/-- What follows a reset while the firmware does not serve stays quiet. -/
theorem quiet_settle_nextTurn {L : ErrorLog} {s : State} (quiet : Quiet L s) (boots : s.fw.state = .init) :
    Quiet L (settle (nextTurn s)) := by
  rw [nextTurn_of_unserved (by simp [serving, boots]), settle_of_held (by simp [boots])]
  have rested : Quiet L (restClocks (noteReady (noteReady s))) := quiet_of_recorded quiet (recorded_restClocks_noteReady s)
  exact quiet_of_recorded (quiet_offerMany rested _) (recorded_sendCredits _)

end Sys2Proof.Machine
end

section
/-! PROOFS. The Function Level Reset of the physical function while a BAR2 access of a hole waits: the access goes ahead after the registers
are at their reset values, and raises a cause again. -/
namespace Sys2Proof.Machine

/-! ## What the reset of functions leaves -/

/-- The client state of a function at its reset values. -/
def resetFunc (s : State) (fn : Nat) : State := s.updFunc fn fun f => Func.reset f.enabled

section
variable {s : State}

theorem func_foldl_resetFunc {fn : Nat} {fns : List Nat} (reset : (s.func fn) = Func.reset true) :
    (fns.foldl resetFunc s).func fn = Func.reset true := by
  induction fns generalizing s with
  | nil => exact reset
  | cons k fns ih =>
    refine ih ?_
    rcases eq_or_ne fn k with rfl | other
    · rcases Nat.lt_or_ge fn s.funcs.length with there | beyond
      · rw [resetFunc, func_updFunc_same s _ there, reset]
        rfl
      · have same : updAt s.funcs fn (fun f => Func.reset f.enabled) = s.funcs := List.modify_eq_self beyond
        rw [resetFunc, State.func, State.updFunc_funcs, same]
        exact reset
    · rw [resetFunc, func_updFunc_other s _ other]
      exact reset

/-- What a reset of functions that have no job and no doorbell leaves of what waits. -/
structure Standing (s t : State) : Prop where
  log : t.log = s.log
  held : t.bar2Held = s.bar2Held
  doorbells : t.doorbells = []
  fabric : t.fabric = s.fabric
  fw : t.fw.state = s.fw.state

/-- What of a state a reset of functions leaves. -/
def State.waits (s : State) : ErrorLog × List WindowAccess × Fabric × FwState × List Func := (s.log, s.bar2Held, s.fabric, s.fw.state, s.funcs)

theorem waits_closeSessions (fns : List Nat) (s : State) :
    (fns.foldl (fun acc fn => closeSessions fn acc) s).waits = s.waits ∧
    (fns.foldl (fun acc fn => closeSessions fn acc) s).doorbells = s.doorbells := by
  have closes (t : State) (fn : Nat) : (closeSessions fn t).waits = t.waits ∧ (closeSessions fn t).doorbells = t.doorbells := by
    unfold closeSessions
    generalize List.range 64 = l
    refine ⟨foldl_field State.waits _ (fun t h => ?_) l t, foldl_field State.doorbells _ (fun t h => ?_) l t⟩
    · split <;> rfl
    · split <;> rfl
  exact ⟨foldl_field State.waits _ (fun t fn => (closes t fn).1) fns s, foldl_field State.doorbells _ (fun t fn => (closes t fn).2) fns s⟩

/-- With no job to end, a reset closes sessions, drops what was asked for, and puts the functions at their reset values. -/
theorem resetFunctions_of_idle (fns : List Nat) (idle : s.sched.jobs = []) :
    ∃ v : State, resetFunctions fns s = fns.foldl resetFunc v ∧ v.waits = s.waits ∧
      v.doorbells = s.doorbells.filter fun d => !fns.contains d.fn := by
  unfold resetFunctions
  simp only [idle, List.filter_nil, List.foldl_nil]
  refine ⟨_, rfl, ?_, ?_⟩
  · exact (waits_closeSessions fns _).1
  · exact congrArg (List.filter fun d => !fns.contains d.fn) (waits_closeSessions fns _).2

theorem standing_resetFunctions (fns : List Nat) (idle : s.sched.jobs = []) (none_ : s.doorbells = []) :
    Standing s (resetFunctions fns s) := by
  obtain ⟨v, eq, waits, doorbells⟩ := resetFunctions_of_idle fns idle
  rw [eq]
  have kept : (fns.foldl resetFunc v).doorbells = [] := by
    rw [foldl_field State.doorbells resetFunc (fun _ _ => rfl) fns v, doorbells, none_]
    rfl
  have log : (fns.foldl resetFunc v).log = s.log :=
    (foldl_field State.log resetFunc (fun _ _ => rfl) fns v).trans (congrArg Prod.fst waits)
  have held : (fns.foldl resetFunc v).bar2Held = s.bar2Held :=
    (foldl_field State.bar2Held resetFunc (fun _ _ => rfl) fns v).trans (congrArg (fun w => w.2.1) waits)
  have fabric : (fns.foldl resetFunc v).fabric = s.fabric :=
    (foldl_field State.fabric resetFunc (fun _ _ => rfl) fns v).trans (congrArg (fun w => w.2.2.1) waits)
  have fw : (fns.foldl resetFunc v).fw.state = s.fw.state :=
    (foldl_field (fun t : State => t.fw.state) resetFunc (fun _ _ => rfl) fns v).trans (congrArg (fun w => w.2.2.2.1) waits)
  exact ⟨log, held, kept, fabric, fw⟩

theorem func_resetFunctions (fns : List Nat) (idle : s.sched.jobs = []) (reset : s.func 0 = Func.reset true) :
    (resetFunctions fns s).func 0 = Func.reset true := by
  obtain ⟨v, eq, waits, -⟩ := resetFunctions_of_idle fns idle
  have funcs : v.funcs = s.funcs := congrArg (fun w => w.2.2.2.2) waits
  rw [eq]
  exact func_foldl_resetFunc (by rw [State.func, funcs]; exact reset)

/-! ## The access that waited -/

/-- An address of a scratch window past the scratch memory. -/
def holeAddr : Nat := 0x020000600000

theorem windowAccess_hole (t : State) : windowAccess (.read holeAddr 1) t = (logAccess holeAddr t).emit .bar2Ur := by
  have place : placeOf t holeAddr 1 = .hole := by
    have window : windowOf holeAddr = some (0, 0x600000) := by decide
    simp only [placeOf, window]
    rw [show decide (0x600000 + 1 ≤ scratchSize) = false from by decide]
    rfl
  simp only [windowAccess, windowRead, place]

theorem releaseHeld_hole (held : s.bar2Held = [.read holeAddr 1]) (none_ : s.doorbells = []) :
    (releaseHeld s).log = (logAccess holeAddr { s with bar2Held := [] }).log ∧
    (releaseHeld s).funcs = (logAccess holeAddr { s with bar2Held := [] }).funcs ∧
    (releaseHeld s).fabric = s.fabric ∧ (releaseHeld s).fw = s.fw := by
  unfold releaseHeld ringWaiting
  rw [held, List.foldl_cons, List.foldl_nil, windowAccess_hole]
  have waits : ((logAccess holeAddr { s with bar2Held := [] }).emit .bar2Ur).doorbells = [] := by
    change (logAccess holeAddr { s with bar2Held := [] }).doorbells = []
    rw [logAccess, logError_doorbells]
    exact none_
  rw [waits]
  exact ⟨rfl, rfl, logError_fabric .., logError_fw ..⟩

/-- The entry of the access, and the cause that it raises at the physical function. -/
theorem logAccess_marks (a : Nat) (runs : s.fw.state ≠ .failed) (empty : s.log.entries = []) (enabled : (s.func 0).enabled = true) :
    (∃ e, (logAccess a s).log.entries = [e] ∧ OfAccess e) ∧ ((logAccess a s).func 0).irqStatus.getLsbD 10 = true := by
  rw [logAccess, logError_eq, if_neg runs]
  refine ⟨?_, irqStatus_raiseIrqs (by decide) enabled (.inl (by simp [logReaders]))⟩
  rw [raiseIrqs_log, entered, empty]
  exact ⟨_, rfl, rfl, rfl⟩

/-! ## The counterexample -/

/-- A device whose firmware has not finished its start holds a BAR2 read of a hole. -/
def heldHole : State :=
  { State.reset with pcie := { State.reset.pcie with up := true }, fw := { State.reset.fw with state := .init },
                     bar2Held := [.read holeAddr 1] }

theorem sized_heldHole : heldHole.Sized := by constructor <;> decide +kernel

/-- What waits at the physical function alone is dropped before the accesses that waited go ahead. -/
theorem dropPfWaits_eq (s : State) : ∃ x, dropPfWaits s = releaseHeld x ∧ x.waits = s.waits ∧ x.doorbells = s.doorbells := by
  refine ⟨_, rfl, ?_, ?_⟩
  · have forgets := foldl_field State.waits
      (fun acc ch => match (s.chan ch).run with | some x => forgetRange (chanBase ch + x.rangeOfs) x.rangeLen acc | none => acc)
      (fun t ch => by split <;> rfl) ((List.range 128).filter fun ch => (s.chan ch).run.isSome) s
    exact congrArg (fun w => (w.1, w.2.1, w.2.2.1, s.fw.state, w.2.2.2.2)) forgets
  · exact foldl_field State.doorbells
      (fun acc ch => match (s.chan ch).run with | some x => forgetRange (chanBase ch + x.rangeOfs) x.rangeLen acc | none => acc)
      (fun t ch => by split <;> rfl) ((List.range 128).filter fun ch => (s.chan ch).run.isSome) s

/-- The physical function's waits after the reset, with the access gone ahead. -/
theorem dropPfWaits_hole (held : s.bar2Held = [.read holeAddr 1]) (none_ : s.doorbells = []) (runs : s.fw.state ≠ .failed)
    (empty : s.log.entries = []) (enabled : (s.func 0).enabled = true) :
    (∃ e, (dropPfWaits s).log.entries = [e] ∧ OfAccess e) ∧ ((dropPfWaits s).func 0).irqStatus.getLsbD 10 = true ∧
    (dropPfWaits s).fabric = s.fabric ∧ (dropPfWaits s).fw.state = s.fw.state := by
  obtain ⟨x, eq, waits, doorbells⟩ := dropPfWaits_eq s
  obtain ⟨log, waits⟩ := Prod.mk.inj waits
  obtain ⟨access, waits⟩ := Prod.mk.inj waits
  obtain ⟨fabric, waits⟩ := Prod.mk.inj waits
  obtain ⟨fw, funcs⟩ := Prod.mk.inj waits
  obtain ⟨log', funcs', fabric', fw'⟩ := releaseHeld_hole (access.trans held) (doorbells.trans none_)
  obtain ⟨entry, cause⟩ := logAccess_marks (s := { x with bar2Held := [] }) holeAddr (by rw [← fw] at runs; exact runs)
    (by rw [← log] at empty; exact empty) (by rw [State.func, ← funcs] at enabled; exact enabled)
  rw [eq]
  exact ⟨by rw [log']; exact entry, by rw [State.func, funcs']; exact cause, fabric'.trans fabric, (congrArg Firmware.state fw').trans fw⟩

/-- The virtual functions that are clients no longer leave the physical function and the log. -/
theorem disableFuncs_rest (fns : List Nat) (virtual : 0 ∉ fns) (s : State) :
    (disableFuncs fns s).func 0 = s.func 0 ∧ (disableFuncs fns s).log = s.log ∧ (disableFuncs fns s).fabric = s.fabric ∧
    (disableFuncs fns s).fw = s.fw := by
  have func : (fns.foldl (fun acc fn => acc.updFunc fn fun _ => Func.reset false) s).func 0 = s.func 0 := by
    induction fns generalizing s with
    | nil => rfl
    | cons k fns ih =>
      obtain ⟨other, rest⟩ := not_or.mp (mt List.mem_cons.mpr virtual)
      exact (ih rest _).trans (func_updFunc_other s _ other)
  have kept {β : Type} (g : State → β) (keeps : ∀ t fn, g (t.updFunc fn fun _ => Func.reset false) = g t) :
      g (fns.foldl (fun acc fn => acc.updFunc fn fun _ => Func.reset false) s) = g s := foldl_field g _ keeps fns s
  exact ⟨func, kept State.log fun _ _ => rfl, kept State.fabric fun _ _ => rfl, kept State.fw fun _ _ => rfl⟩

theorem enabledVfs_virtual (s : State) : 0 ∉ enabledVfs s := by
  intro named
  have range : 0 ∈ rangeFrom 1 31 := List.mem_of_mem_filter named
  revert range
  decide

end

/-- Where no flit waits and none is owed to, what follows a change of readiness leaves the functions and the log. -/
theorem recorded_settle {s : State} (boots : s.fw.state = .init) (quiet : s.fabric.waiting = []) :
    (settle (nextTurn s)).recorded = s.recorded := by
  rw [nextTurn_of_unserved (by simp [serving, boots]), settle_of_held (by simp [boots]), recorded_sendCredits]
  have none_ : (restClocks (noteReady (noteReady s))).fabric.waiting = [] := quiet
  rw [offerWaiting, none_]
  exact recorded_restClocks_noteReady s

/-- The state that the reset leaves before the turn of the next call. -/
def holeReset : State :=
  disableFuncs (enabledVfs heldHole) (dropPfWaits (resetFunctions (0 :: enabledVfs heldHole) heldHole))

theorem exec_functionLevelReset_heldHole : exec (.functionLevelReset 0) heldHole = .next (settle (nextTurn holeReset)) :=
  congrArg Host.Outcome.next ((if_neg (by decide)).trans (if_pos rfl))

theorem holeReset_marks :
    (∃ e, holeReset.log.entries = [e] ∧ OfAccess e) ∧ (holeReset.func 0).irqStatus.getLsbD 10 = true ∧
    holeReset.fabric.waiting = [] ∧ holeReset.fw.state = .init := by
  have standing := standing_resetFunctions (s := heldHole) (0 :: enabledVfs heldHole) rfl rfl
  have reset := func_resetFunctions (s := heldHole) (0 :: enabledVfs heldHole) rfl rfl
  obtain ⟨entry, cause, fabric, fw⟩ := dropPfWaits_hole (s := resetFunctions (0 :: enabledVfs heldHole) heldHole) standing.held
    standing.doorbells (by rw [standing.fw]; decide) (by rw [standing.log]; rfl) (by rw [reset]; rfl)
  obtain ⟨func, log, fabric', fw'⟩ := disableFuncs_rest (enabledVfs heldHole) (enabledVfs_virtual _)
    (dropPfWaits (resetFunctions (0 :: enabledVfs heldHole) heldHole))
  refine ⟨by rw [holeReset, log]; exact entry, by rw [holeReset, func]; exact cause, ?_, ?_⟩
  · rw [holeReset, fabric', fabric, standing.fabric]
    rfl
  · rw [holeReset, fw', fw, standing.fw]
    rfl

/-- Refutes O29: the physical function's reset puts its registers at their reset values and then lets a BAR2 access that waited go ahead; one
of a hole is logged, and bit 10 of the interrupt status, which says so, stands at 1 after the reset. -/
theorem not_functionsAreEnabledAndReset : ¬ Obligations.FunctionsAreEnabledAndReset := by
  unfold Obligations.FunctionsAreEnabledAndReset
  rintro ⟨-, resets⟩
  obtain ⟨u, step, reset, -, -, -, -, fw, -⟩ := resets 0 heldHole rfl rfl sized_heldHole
  obtain ⟨⟨e, entries, access⟩, cause, quiet, boots⟩ := holeReset_marks
  have same : settle (nextTurn u) = settle (nextTurn holeReset) :=
    Host.Outcome.next.inj (step.symm.trans exec_functionLevelReset_heldHole)
  obtain ⟨funcs, log⟩ := Prod.mk.inj (recorded_settle boots quiet)
  have after : Quiet u.log (settle (nextTurn u)) := quiet_settle_nextTurn (.inl ⟨rfl, reset⟩) fw
  rw [same] at after
  rcases after with ⟨-, stands⟩ | ⟨x, last, other⟩
  · have func : (settle (nextTurn holeReset)).func 0 = holeReset.func 0 := by rw [State.func, funcs, State.func]
    rw [← func, stands] at cause
    exact absurd cause (by decide)
  · rw [log, entries] at last
    exact other (Option.some.inj last ▸ access)

end Sys2Proof.Machine
end
